-- ==== Sys2Proof/Word.lean ====
section
/-! DEFINITION. The word types of the GRX5120: bits are numbered from 0 at the least significant bit (R6). -/

namespace Sys2Proof

/-- A byte of a record, a frame or host memory. -/
abbrev Byte := BitVec 8

/-- A 16-bit field. -/
abbrev Half := BitVec 16

/-- A 32-bit register word. -/
abbrev Word := BitVec 32

/-- A 64-bit register or host address. -/
abbrev DWord := BitVec 64

/-- A tick number, a value of the 48-bit tick counter (R22). -/
abbrev TickNo := BitVec 48

/-- A channel number n = 16 f + p (R2). -/
abbrev Ch := Fin 512

/-- A frond number (R2). -/
abbrev FrondNo := Fin 32

/-- A position within a frond (R2). -/
abbrev Pos := Fin 16

end Sys2Proof
end

