-- ==== Sys2Proof/Syntax.lean ====
section
/-! DEFINITION. The commands the module takes: one constructor of Instr per row of the opcode table, with its operands. -/

namespace Sys2Proof

/-- The two paths into BAR0 (R443). -/
inductive Path where
  | pcie
  | mp
  deriving DecidableEq, Repr

/-- What an access of the PCIe path or of the management processor addresses (R402, R405): the registers, the doorbells with the MSI-X
table and its pending bits, or the configuration space. -/
inductive Space where
  | bar0
  | bar2
  | config
  deriving DecidableEq, Repr

/-- A normal frame as a receiver sees it: link, whether every character decoded (R333), the arrival stamp of its first
character after the receiver's tick edge (core: 1/8 ns, Table 10-1; frond: 1/32 frond count), and the bytes ALIVE, FID,
payload and CRC, most significant CRC byte first (R332). -/
structure Frame where
  linkB : Bool
  codeOk : Bool
  stamp : Nat
  bytes : List Byte
  deriving DecidableEq, Repr

/-- An order frame (R335): payload byte and CRC; `now` is the frond count after the tick edge at its check (R341). -/
structure OrderFrame where
  linkB : Bool
  codeOk : Bool
  payload : Byte
  crc : Half
  now : Nat
  deriving DecidableEq, Repr

/-- A descriptor as the module reads it: its 32 bytes (Table 12-7) and the payload its address names, CRC included. -/
structure Desc where
  raw : List Byte
  pay : List Byte
  deriving DecidableEq, Repr

/-- One trim set of a frond's OTP (Table 4-5): position, set 0 V10, 1 V40, 2 I25, 3 IAO, 4 AOUT, 5 IEXC, 6 REF (of the frond, whatever
the position); gain in 2^-22, offset in 2^-4 codes; whether the OTP pair checks (R146). -/
structure TrimIn where
  pos : Nat
  set : Nat
  g : Int
  o : Int
  ok : Bool
  deriving DecidableEq, Repr

/-- A critical pair whose working copies failed their check in a tick: position (16 for FRD_WD), register offset, and which
copies failed (R356). -/
structure CritIn where
  pos : Nat
  ofs : Nat
  a : Bool
  b : Bool
  deriving DecidableEq, Repr

/-- What a frond measures over a tick: means of FSUP in 10 mV and die temperature in 0.25 °C (Table 10-4); means in 100 µV of the
internal reference, of what an input on Ff_FREF carries and of the 5 V analog rail (R138, R139); the extremes and the mean of VREF over
the last 1 ms in µV (R140); `since`, for a restart edge, the frond counts since the frond's last edge (R316); per position I_MEAS, where it comes from no accumulator, and BIAS (Table 10-5, R82); the trim sets reloaded from OTP because their working pair failed,
as OTP gives them (R145); and critical pairs that failed (R356). -/
structure FrondEdgeIn where
  fsup : Nat
  temp : Int
  vint : Nat
  fref : Nat
  rail : Nat
  refLo : Nat
  refHi : Nat
  refMean : Nat
  since : Nat
  meas : List (Nat × Nat)
  trimErr : List TrimIn
  crit : List CritIn
  deriving DecidableEq, Repr

/-- What a regulator senses between two evaluations (R77, R107): load voltage peak, bias and F-to-T voltage in mV, current in
setpoint codes. -/
structure RegIn where
  vLoadPeak : Nat
  vBias : Nat
  vFT : Nat
  iMeas : Nat
  deriving DecidableEq, Repr

/-- What a supervisor has seen of one quantity without interruption up to now: its extremes over `us` µs; its value when that time began;
and the extremes that it has kept to for 50 µs: it has stayed at or below `dip`, and at or above `peak`, so long (R570). -/
structure Seen where
  lo : Int
  hi : Int
  us : Nat
  first : Int := 24000
  dip : Int := 24000
  peak : Int := 24000
  deriving DecidableEq, Repr

/-- What a frond has seen of the quantity that a channel diagnostic judges (Table 3-2): its extremes, and for REG_FAULT the lowest
regulator output current in µA, over the last `us` µs or over whole ticks, for a DO switch since its last change at most; where the condition is stated on tick means, the means of the
whole ticks seen, newest first. -/
structure DiagIn where
  lo : Int
  hi : Int
  cur : Int
  us : Nat
  means : List Int := []
  deriving DecidableEq, Repr

/-- What a tick edge finds outside: 802.1AS time at the edge in ns, where there is any (R303), base-plate temperature in
0.25 °C, VLOG in mV, the measured VLOG input power, the FSUP input powers and the powers that the channel stages, sensor supplies and
regulators deliver into their loads, as means over the tick in mW (13, R575), whether a life-cycle working copy or the OTP pair failed its
check (R533, R534), the capture rings whose next write the memory does not finish in its tick (R32), and by DIDX how many cells or bytes a
MAP_READ or CVU_RUN had done at a deadline that lies before the edge (R421). -/
structure TickIn where
  net : Option Int
  temp : Int
  vlog : Nat
  vlogIn : Nat
  fsupIn : List Nat
  loads : List Nat
  lcBad : Bool
  otpBad : Bool
  slow : List Nat := []
  ends : List (Half × Nat) := []
  deriving DecidableEq, Repr

/-- What the 802.1AS time function of IEEE 802.1AS-2020 has decided (R464, R465, NET_TIME): the roles of the ports, whether there is a
grandmaster within reach, stepsRemoved, and the residence time in 2^-16 ns of a frame that is passed on. -/
structure TimeView where
  role0 : Nat
  role1 : Nat
  gm : Bool
  steps : Nat
  resid : Nat
  deriving DecidableEq, Repr

/-- What a TLS client asks for (R481): the TCP port, whether the destination is an address of the module, and whether the client offers
TLS 1.3, TLS_AES_256_GCM_SHA384 and ECDHE on secp384r1. -/
structure TlsIn where
  tcp : Nat := 50121
  own : Bool := true
  v13 : Bool := true
  aes256 : Bool := true
  p384 : Bool := true
  deriving DecidableEq, Repr

/-- The PCIe link as trained, and what the host has set up in configuration space: speed in GT/s (2 for 2.5, 5, 8), lanes (0: not
trained), and the MSI-X vectors that are enabled and unmasked, as a bitmap. -/
structure LinkIn where
  gts : Nat
  width : Nat
  msix : Nat
  deriving DecidableEq, Repr

/-- What boot start finds (R46, R519, R533, R534, R538, R560): the BOOT0 and BOOT1 pins at the release of RESET_N, whether RESET_N was
low and BOOT1 high from VLOG valid for at least 5 s, the algorithm whose power-up test fails (0 none), the OTP pair of the life-cycle
word, and the PCIe link that trains in hosted mode. -/
structure BootIn where
  boot0 : Bool
  boot1 : Bool
  held : Bool
  alg : Nat
  otpBad : Bool
  link : LinkIn
  deriving DecidableEq, Repr

/-- The commands, one per row of the table. Those of descriptors carry the descriptor in front of the command ring. -/
inductive Instr where
  /-- TICK_EDGE: The core tick counter increments and the fixed per-edge work of Table 1-3 runs (R22). Operands: what the edge
  finds outside. -/
  | tickEdge (i : TickIn)
  /-- TBASE_HIGH: After ABOVE_DECL has been 1 at every edge for 1 s, TBASE_HIGH becomes active (R553). -/
  | tbaseHigh
  /-- DEFERRED_WORK: Deferred slices, map updates and capture writes run at the start of a tick before its own slice (R33). -/
  | deferredWork
  /-- FEATURE_SLICE: The feature engine performs one slice of butterfly cycles of each ready block (R229). -/
  | featureSlice
  /-- PERIOD_BOUNDARY: At a period boundary statistics are latched and restarted (R40). Operands: cells a MAP_READ under way
  has read by then. -/
  | periodBoundary (read : Nat)
  /-- DOWNLINK_SUPERFRAME: The core sends D0, D1 and D2 of downlink superframe N on both links of every frond (R338). Operands: by
  frond, the characters of frames inserted in this window. -/
  | downlinkSuperframe (ins : List Nat := [])
  /-- COMMIT_RESOLVE: At 20 µs after edge T-1 the core resolves the commit to APPLY or ABORT (R320). -/
  | commitResolve
  /-- U0: The core receives a checked U0 and uses its epoch control, echo, supervisor fields and fault pairs (R349). Operands:
  frond, frame as received in the core, the capture rings whose next write the memory does not finish in its tick (R32). -/
  | u0 (f : Nat) (fr : Frame) (slow : List Nat := [])
  /-- LINK_UP: After four clean superframes the core declares a link up again (R351). Operands: frond, link B or A. -/
  | linkUp (f : Nat) (linkB : Bool)
  /-- UPLINK_FRAME: The core receives an uplink frame copy and selects the first checked copy (R346). Operands: frond, K of
  UK, frame, flags of its four positions and of its samples, the capture rings whose next write the memory does not finish in its tick. -/
  | uplinkFrame (f : Nat) (kind : Nat) (fr : Frame) (flags : List Nat) (slow : List Nat := [])
  /-- FROND_TICK_EDGE: A frond's tick edge: accumulators latch, outputs take effect and uplink superframe N-1 begins (R126).
  Operands: frond, what it measured. -/
  | frondTickEdge (f : Nat) (i : FrondEdgeIn)
  /-- CONTENTION_SAFE_STATE: After CONT_TICKS of contention the AO channel enters its safe state (R106). Operands: channel,
  working copies of pairs that fail their check on entry. -/
  | contentionSafeState (ch : Nat) (crit : List CritIn := [])
  /-- D0: A frond receives D0; a valid D0 is stamped for the watchdog and its control fields are held (R117). Operands: frond,
  frame, frond count after its edge at which the frame ends, working copies of pairs that fail their check on safe-state entry. -/
  | d0 (f : Nat) (fr : Frame) (fin : Nat) (crit : List CritIn := [])
  /-- D1: A frond receives D1 with output complements and alarm refreshes (R344). Operands: frond, frame. -/
  | d1 (f : Nat) (fr : Frame)
  /-- D2: A frond receives D2 and takes its commit items (R318). Operands: frond, frame, characters of frames inserted on its link
  in this window. -/
  | d2 (f : Nat) (fr : Frame) (ins : Nat := 0)
  /-- DS: A frond receives a DS snap selection frame (R342). Operands: frond, frame. -/
  | ds (f : Nat) (fr : Frame)
  /-- SNAP_SYNC: A frond receives a SNAP_SYNC order and takes the request time for SYNC_SNAP channels (R341). Operands: frond,
  order. -/
  | snapSync (f : Nat) (o : OrderFrame)
  /-- SNAP_DESC: A frond receives a SNAP_DESC order and applies it to the matching DS selection (R342). Operands: frond,
  order. -/
  | snapDesc (f : Nat) (o : OrderFrame)
  /-- SAFE: A frond receives a checked SAFE order and enters frond safe state (R343). Operands: frond, order, working
  copies of pairs that fail their check on entry. -/
  | safe (f : Nat) (o : OrderFrame) (crit : List CritIn := [])
  /-- WD_EXPIRED: No valid D0 by the deadline: the frond enters safe state and raises WD_EXPIRED (R118). Operands: frond,
  frond count after its edge, working copies of pairs that fail their check on entry. -/
  | wdExpired (f : Nat) (at_ : Nat) (crit : List CritIn := [])
  /-- CONVERSION: A conversion completes and its trimmed code feeds accumulators, trackers and filter chain (R126). Operands:
  channel, converter code. -/
  | conversion (ch : Nat) (c : BitVec 16)
  /-- INTEGRATOR_STEP: The DI/TACH integrator samples the raw state and updates its count and reported state (R63). Operands:
  channel, voltage from F to T in µV, frond count of the last crossing of the raw state. -/
  | integratorStep (ch : Nat) (uv : Int) (at_ : Int)
  /-- REGULATOR_EVALUATION: Each running regulator computes its target voltage (R77). Operands: channel, what its regulator
  senses. -/
  | regulatorEvaluation (ch : Nat) (r : RegIn)
  /-- CHANNEL_DIAGNOSTIC: A channel diagnostic becomes active or inactive after its filter time and is reported (R99).
  Operands: channel, diagnostic bit, what the frond has seen of the quantity it judges, whole ticks it has seen. -/
  | channelDiagnostic (ch : Nat) (b : Nat) (i : DiagIn) (ticks : Nat)
  /-- DO_THERMAL: A DO switch turns off at shutdown temperature and on again after cooling (R103). Operands: channel, junction
  temperature in 0.25 °C. -/
  | doThermal (ch : Nat) (temp : Int)
  /-- REG_FAULT_RESTART: A regulator stopped by REG_FAULT restarts after 100 ms (R101). Operands: channel. -/
  | regFaultRestart (ch : Nat)
  /-- FROND_CAUSE: A frond cause becomes active or clears after its filter time (R100). Operands: frond, cause bit of FPAIR,
  FSUP or Ff_FREF in mV or die temperature in 0.25 °C as seen, working copies of pairs that fail their check on safe-state entry. -/
  | frondCause (f : Nat) (b : Nat) (q : Seen) (crit : List CritIn)
  /-- FROND_INPUT_RESTART: After the shutdown cause clears, input stages, regulators and sensor supplies restart (R112).
  Operands: frond. -/
  | frondInputRestart (f : Nat)
  /-- AUX_POWER_ARRIVE: A frond's supervisor loads its trim and starts in frond shutdown with FSUP_ABSENT (R122). Operands:
  frond, its trim sets in OTP. -/
  | auxPowerArrive (f : Nat) (otp : List TrimIn)
  /-- AUX_POWER_LOSS: A frond without auxiliary power becomes unpowered and loses its configuration (R121). Operands: frond.
  -/
  | auxPowerLoss (f : Nat)
  /-- FSUP_ARRIVE: FSUP arriving after auxiliary power starts the frond without FAULT_CLEAR (R124). Operands: frond,
  FSUP in mV as seen, its trim sets in OTP. -/
  | fsupArrive (f : Nat) (q : Seen := { lo := 24000, hi := 24000, us := 100000 }) (otp : List TrimIn := [])
  /-- FAULT_SOURCE_ACTIVATE: A fault source becomes active and the collector starts its class reaction (R488). Operands:
  source ID, context. -/
  | faultSourceActivate (id : Nat) (ctx : List Byte)
  /-- FAULT_SOURCE_CLEARED: A SERVICE-or-higher source becomes inactive and a CLEARED record is emitted (R502). Operands:
  source ID, channel or cause; for SIGNAL_PATH the core line, its state and context. -/
  | faultSourceCleared (id : Nat) (sub : Nat) (line : Nat) (act : Bool) (ctx : List Byte)
  /-- ESCALATION: A SERVICE source still active at deadline D escalates to SAFE (R493). Operands: source ID, channel or cause.
  -/
  | escalation (id : Nat) (sub : Nat)
  /-- SHADOW_CLOSE: A reaction shadow closes when the frond is READY or at S+64 and a MERGED record is emitted (R500).
  Operands: frond. -/
  | shadowClose (f : Nat)
  /-- HALT_RELEASE: VLOG below 1.2 V for 100 ms releases the HALT latch (R492). -/
  | haltRelease
  /-- CLOCK_SRC_LOST: The core clock changes to the other oscillator when the selected one fails (R301). Operands: whether
  oscillator B failed, or A. -/
  | clockSrcLost (oscB : Bool)
  /-- CLOCK_BOTH_LOST: Both oscillators fail and the HALT source CLOCK_BOTH_LOST is raised (R511). -/
  | clockBothLost
  /-- TIME_LOCKED: After 16 edges within 40 ns the time unit enters LOCKED (R303). -/
  | timeLocked
  /-- TIME_HOLDOVER: 802.1AS time is lost and the time unit enters HOLDOVER (R307). -/
  | timeHoldover
  /-- TIME_REGAINED: 802.1AS time is valid again and the unit returns to ACQUIRING (R307). -/
  | timeRegained
  /-- SYNC_IN_SNAP: A SYNC_IN rising edge with the snap function requests a snap (R131). Operands: core cycles after the tick
  edge. -/
  | syncInSnap (cycles : Nat)
  /-- SYNC_IN_PHASE_RESET: A SYNC_IN rising edge requests a decimation phase reset (R185). -/
  | syncInPhaseReset
  /-- SYNC_IN_CAPTURE_TRIGGER: A SYNC_IN rising edge triggers rings with SYNC_TRIG (R278). Operands: core cycles after the
  tick edge. -/
  | syncInCaptureTrigger (cycles : Nat)
  /-- CAPTURE_READOUT: A capture delivers up to c_r sample cells and c_s stamp cells in a tick (R283). Operands: ring. -/
  | captureReadout (r : Nat)
  /-- RECORD_DELIVERY: A queue delivers a cell to its egress with alive counter and CRC (R368). Operands: queue; for a memory
  failure the bytes that read wrong, by place, as masks. -/
  | recordDelivery (q : Nat) (bad : Option (List (Nat × Byte)))
  /-- HOLDOFF_EXPIRY: HOLDOFF µs after the first unsignalled entry the ring's vector is signalled (R417). Operands: ring: 1
  completion, 2 event, 3 + n RINGn. -/
  | holdoffExpiry (r : Nat)
  /-- LSP_FIFO_MOVE: A whole packet moves from the stream-port queue into the stream-port FIFO (R387). Operands: bytes that
  read wrong in the packet, by cell. -/
  | lspFifoMove (bad : List (Nat × List (Nat × Byte)))
  /-- LSP_READ: An LSP_RDCLK edge with LSP_RDEN high consumes the half-word on LSP_D (R440). -/
  | lspRead
  /-- FLUSH_TAKE_EFFECT: At the packet boundary every eligible packet of the queue is discarded (R379). Operands: queue. -/
  | flushTakeEffect (q : Nat)
  /-- DATAGRAM_CLOSE: At a step boundary after its first record the publisher closes and sends the datagram (R469). Operands:
  subscriber, 16 for SUB 0xFF. -/
  | datagramClose (i : Nat)
  /-- DB_CMD: Host software writes P of the command ring, which is checked and accepted or ignored (R409). Operands: value. -/
  | dbCmd (v : Word)
  /-- DB_CONSUMER: Host software writes C of a module-written ring (R409). Operands: doorbell offset, value. -/
  | dbConsumer (ofs : Nat) (v : Word)
  /-- NOP: A NOP completes when every earlier descriptor has completed (R418). Operands: descriptor. -/
  | nop (d : Desc)
  /-- CFG_WRITE: A payload of register entries is checked whole and staged (R423). Operands: descriptor. -/
  | cfgWrite (d : Desc)
  /-- COMMIT: A COMMIT is checked for range, busy, fields, conflicts, budgets and lateness, then pending (R317). Operands:
  descriptor. -/
  | commit (d : Desc)
  /-- SNAP: A SNAP descriptor sends DS and SNAP_DESC frames and executes at the last DS frame (R340). Operands: descriptor,
  core cycles after the tick edge at which it executes. -/
  | snap (d : Desc) (cycles : Nat)
  /-- OUTPUT_SET: An output value pair is checked and sent in the next downlink superframe (R426). Operands: descriptor. -/
  | outputSet (d : Desc)
  /-- ARM: CAPTURE_ARM with action ARM sets ARMED (R287). Operands: descriptor. -/
  | arm (d : Desc)
  /-- DISARM: CAPTURE_ARM with action DISARM clears ARMED (R287). Operands: descriptor. -/
  | disarm (d : Desc)
  /-- TRIGGER: CAPTURE_ARM with action TRIGGER requests a capture (R287). Operands: descriptor, core cycles after the tick
  edge of its stamp. -/
  | trigger (d : Desc) (cycles : Nat)
  /-- MAP_READ: A MAP_READ starts transferring latched-bank cells to host memory (R271). Operands: descriptor. -/
  | mapRead (d : Desc)
  /-- MAP_READ_DONE: After the last cell is written the MAP_READ completion is written (R428). -/
  | mapReadDone
  /-- FLUSH: A FLUSH descriptor names a queue for flushing at its next packet boundary (R380). Operands: descriptor. -/
  | flush (d : Desc)
  /-- RULE_LOAD: Rule entries are checked and staged (R429). Operands: descriptor. -/
  | ruleLoad (d : Desc)
  /-- SPEED_TABLE: All 32 bin edges of one reference are staged (R429). Operands: descriptor. -/
  | speedTable (d : Desc)
  /-- SYNC: A SYNC descriptor requests a decimation phase reset at the next reset edge (R185). Operands: descriptor. -/
  | sync (d : Desc)
  /-- SYNC_DONE: After the reset edge the SYNC completion reports the edge and channels cleared (R187). -/
  | syncDone
  /-- FAULT_CLEAR_CHANNEL: FAULT_CLEAR SCOPE 0 clears a channel's safe state or BACKFEED (R114). Operands: descriptor. -/
  | faultClearChannel (d : Desc)
  /-- FAULT_CLEAR_FROND: FAULT_CLEAR SCOPE 1 clears a frond's causes that met their clear condition (R505). Operands:
  descriptor. -/
  | faultClearFrond (d : Desc)
  /-- FAULT_CLEAR_SOURCE: FAULT_CLEAR SCOPE 2 clears one source whose condition no longer holds (R504). Operands: descriptor.
  -/
  | faultClearSource (d : Desc)
  /-- FAULT_CLEAR_LATCH: FAULT_CLEAR SCOPE 3 empties the latch and clears OVERFLOW and FLT_COUNT (R507). Operands: descriptor.
  -/
  | faultClearLatch (d : Desc)
  /-- CVU_RUN: A CVU_RUN takes ownership of a unit and feeds it LEN bytes from host memory (R400). Operands: descriptor. -/
  | cvuRun (d : Desc)
  /-- CVU_RUN_DONE: After the last byte the CVU_RUN completion reports result and state (R400). Operands: unit. -/
  | cvuRunDone (u : Nat)
  /-- TIMEOUT: A descriptor's TMO deadline passes and its completion is written with TIMEOUT (R421). Operands: DIDX; cells or
  bytes that a MAP_READ or CVU_RUN has come to. -/
  | timeout (didx : Half) (n : Nat)
  /-- BLOB_LOAD: A signed configuration blob is checked and its sections staged (R530). Operands: descriptor. -/
  | blobLoad (d : Desc)
  /-- BLOB_STORE: The flash write of a blob finishes, BLOB_SEQ is set and the completion is written (R531). -/
  | blobStore
  /-- GET_NONCE: SEC_OP GET_NONCE returns a new nonce and replaces the one in force (R539). Operands: descriptor, whether a
  life-cycle working copy or the OTP pair fails its check. -/
  | getNonce (d : Desc) (copyBad : Bool) (otpBad : Bool)
  /-- GET_IDENTITY: SEC_OP GET_IDENTITY writes the DevID certificates (R529). Operands: descriptor, whether a life-cycle
  working copy or the OTP pair fails its check. -/
  | getIdentity (d : Desc) (copyBad : Bool) (otpBad : Bool)
  /-- GET_STATE: SEC_OP GET_STATE returns BLOB_SEQ, slots, rollback counter and failures (R540). Operands: descriptor, whether
  a life-cycle working copy or the OTP pair fails its check. -/
  | getState (d : Desc) (copyBad : Bool) (otpBad : Bool)
  /-- TAKE_OWNERSHIP: SEC_OP TAKE_OWNERSHIP installs the owner root and moves MAKER to OWNED (R528). Operands: descriptor,
  whether a life-cycle working copy or the OTP pair fails its check. -/
  | takeOwnership (d : Desc) (copyBad : Bool) (otpBad : Bool)
  /-- KEY_INSTALL: SEC_OP KEY_INSTALL installs or empties an owner key slot (R528). Operands: descriptor, whether a life-cycle
  working copy or the OTP pair fails its check. -/
  | keyInstall (d : Desc) (copyBad : Bool) (otpBad : Bool)
  /-- UNLOCK: SEC_OP UNLOCK puts an unlock token in force (R539). Operands: descriptor, whether a life-cycle working copy or
  the OTP pair fails its check. -/
  | unlock (d : Desc) (copyBad : Bool) (otpBad : Bool)
  /-- RELOCK: SEC_OP RELOCK ends the unlock and sets DBG_CTL to 0 (R540). Operands: descriptor, whether a life-cycle working
  copy or the OTP pair fails its check. -/
  | relock (d : Desc) (copyBad : Bool) (otpBad : Bool)
  /-- SEAL: SEC_OP SEAL moves OWNED to SEALED (R536). Operands: descriptor, whether a life-cycle working copy or the OTP pair
  fails its check. -/
  | seal (d : Desc) (copyBad : Bool) (otpBad : Bool)
  /-- UNSEAL: SEC_OP UNSEAL moves SEALED to OWNED with physical presence (R536). Operands: descriptor, whether a life-cycle
  working copy or the OTP pair fails its check. -/
  | unseal (d : Desc) (copyBad : Bool) (otpBad : Bool)
  /-- RMA: SEC_OP RMA programs the RETURN word and zeroises (R537). Operands: descriptor, whether a life-cycle working copy or
  the OTP pair fails its check. -/
  | rma (d : Desc) (copyBad : Bool) (otpBad : Bool)
  /-- MAKER_RESTORE: SEC_OP MAKER_RESTORE moves RETURN to MAKER (R536). Operands: descriptor, whether a life-cycle working
  copy or the OTP pair fails its check. -/
  | makerRestore (d : Desc) (copyBad : Bool) (otpBad : Bool)
  /-- VOID: SEC_OP VOID retires the module into VOID (R535). Operands: descriptor, whether a life-cycle working copy or the
  OTP pair fails its check. -/
  | void (d : Desc) (copyBad : Bool) (otpBad : Bool)
  /-- FW_UPDATE: SEC_OP FW_UPDATE writes an image chunk and marks a complete bootable image preferred with TRIAL (R523).
  Operands: descriptor, whether a life-cycle working copy or the OTP pair fails its check. -/
  | fwUpdate (d : Desc) (copyBad : Bool) (otpBad : Bool)
  /-- FW_CONFIRM: SEC_OP FW_CONFIRM clears TRIAL and raises the rollback counter (R523). Operands: descriptor, whether a life-
  cycle working copy or the OTP pair fails its check. -/
  | fwConfirm (d : Desc) (copyBad : Bool) (otpBad : Bool)
  /-- LDEVID_GEN: SEC_OP LDEVID_GEN generates a key pair and returns its public key (R529). Operands: descriptor, whether a
  life-cycle working copy or the OTP pair fails its check. -/
  | ldevidGen (d : Desc) (copyBad : Bool) (otpBad : Bool)
  /-- LDEVID_INSTALL: SEC_OP LDEVID_INSTALL installs a certificate for the LDevID key (R529). Operands: descriptor, whether a
  life-cycle working copy or the OTP pair fails its check. -/
  | ldevidInstall (d : Desc) (copyBad : Bool) (otpBad : Bool)
  /-- SELF_TEST: SEC_OP SELF_TEST runs the known-answer tests on demand (R521). Operands: descriptor, whether a life-cycle
  working copy or the OTP pair fails its check. -/
  | selfTest (d : Desc) (copyBad : Bool) (otpBad : Bool)
  /-- AUTH_LOCK_EXPIRY: AUTH_LOCK returns to 0 after 60 s (R542). -/
  | authLockExpiry
  /-- PRESENCE_EXPIRY: PRESENCE becomes 0 600 s after the release of RESET_N (R538). -/
  | presenceExpiry
  /-- CRYPTO_ERROR: A failing entropy or pairwise test enters the crypto error state (R520). -/
  | cryptoError
  /-- RING_ENABLE: Setting EN of a ring zeroes its indices and applies LOG2 (R413). Operands: path, ring, value of its CFG
  register. -/
  | ringEnable (p : Path) (r : Nat) (v : Word)
  /-- RING_DISABLE: Clearing EN of a ring stops it; for the command ring no further descriptor starts (R413). Operands: path,
  ring, value of its CFG register. -/
  | ringDisable (p : Path) (r : Nat) (v : Word)
  /-- STATUS_BASE_WRITE: A write to DMA_STS_BASE is ignored while any ring is enabled (R457). Operands: path, base. -/
  | statusBaseWrite (p : Path) (v : DWord)
  /-- CHN_SEL: A CHN_SEL write selects the channel window target and may mismatch a pending pair (R447). Operands: path,
  value. -/
  | chnSel (p : Path) (v : Word)
  /-- BROADCAST_WRITE: A window write with BCAST acts on all 512 channels (R448). Operands: path, offset, value, by channel the W1C bits
  that hardware sets in the same cycle. -/
  | broadcastWrite (p : Path) (ofs : Nat) (v : Word) (chw : List (Nat × Word) := [])
  /-- BASIC_CODE_WRITE: Writing a basic code stages the full set of expert fields it expands to (R52). Operands: path, offset,
  value. -/
  | basicCodeWrite (p : Path) (ofs : Nat) (v : Word)
  /-- RWP_VALUE_WRITE: The value word of an RWP pair is held pending its complement (R14). Operands: path, offset of the value
  word, value. -/
  | rwpValueWrite (p : Path) (ofs : Nat) (v : Word)
  /-- RWP_COMPLEMENT_WRITE: The complement word is checked and the pair accepted or INTEGRITY raised (R13). Operands: path,
  offset of the complement word, value. -/
  | rwpComplementWrite (p : Path) (ofs : Nat) (v : Word)
  /-- REG64_LOW_READ: A low-half read returns the live low word and copies the high word into the shadow (R159). Operands:
  path, offset of the low half, or of any other word (R405), the space that the read addresses. -/
  | reg64LowRead (p : Path) (ofs : Nat) (sp : Space := .bar0)
  /-- REG64_HIGH_READ: A high-half read returns the matching shadow, or the live word with TORN set (R160). Operands: path,
  offset of the low half. -/
  | reg64HighRead (p : Path) (ofs : Nat)
  /-- REG64_ATOMIC_READ: An aligned 8-byte read returns both halves at one instant (R162). Operands: path, offset, the space that
  the read addresses. -/
  | reg64AtomicRead (p : Path) (ofs : Nat) (sp : Space := .bar0)
  /-- REG64_LOW_WRITE: A low-half write to a 64-bit register is held (R445). Operands: path, offset of the low half, value. -/
  | reg64LowWrite (p : Path) (ofs : Nat) (v : Word)
  /-- REG64_HIGH_WRITE: A high-half write takes effect together with the held low half (R445). Operands: path, offset of the
  low half, value of the high half. -/
  | reg64HighWrite (p : Path) (ofs : Nat) (v : Word)
  /-- MAP_PEEK_IDX: A write copies the addressed map cell indivisibly into the peek registers (R270). Operands: path, value.
  -/
  | mapPeekIdx (p : Path) (v : Word)
  /-- DISCARD: Writing DISCARD sets every staged field to its value in force (R452). Operands: path, ACTIVE_VIEW of the same
  write. -/
  | discard (p : Path) (view : Bool)
  /-- CVU_CTL_ALG: Writing ALG loads the algorithm's initial value, or REFUSED for 5-7 (R399). Operands: path, unit, ALG. -/
  | cvuCtlAlg (p : Path) (u : Nat) (alg : Nat)
  /-- CVU_INIT: Writing INIT loads the initial value and zeroes CVU_COUNT (R399). Operands: path, unit, ALG. -/
  | cvuInit (p : Path) (u : Nat) (alg : Nat)
  /-- CVU_FEED8: A byte is fed to the unit (R397). Operands: path, unit, value. -/
  | cvuFeed8 (p : Path) (u : Nat) (v : Word)
  /-- CVU_FEED16: Two bytes are fed to the unit, least significant first (R397). Operands: path, unit, value. -/
  | cvuFeed16 (p : Path) (u : Nat) (v : Word)
  /-- CVU_FEED32: Four bytes are fed to the unit, least significant first (R397). Operands: path, unit, value. -/
  | cvuFeed32 (p : Path) (u : Nat) (v : Word)
  /-- CVU_STATE_WRITE: Writing CVU_STATE loads the raw register and zeroes CVU_COUNT (R399). Operands: path, unit, value. -/
  | cvuStateWrite (p : Path) (u : Nat) (v : Word)
  /-- DBG_CTL_WRITE: A DBG_CTL write takes effect only in permitted life-cycle states (R455). Operands: path, value, whether a
  life-cycle working copy or the OTP pair fails its check. -/
  | dbgCtlWrite (p : Path) (v : Word) (copyBad : Bool) (otpBad : Bool)
  /-- CHECK_IN: The management processor writes its check-in register for the next edge (R509). -/
  | checkIn
  /-- REGISTER_WRITE: A write to a register without a row of its own acts by its access code (R11). Operands: path, offset,
  bytes of the access, value, the W1C bits that hardware sets in the same cycle, for a broadcast write by channel, the space that
  the access addresses. -/
  | registerWrite (p : Path) (ofs : Nat) (len : Nat) (v : DWord) (hw : Word := 0) (chw : List (Nat × Word) := [])
      (sp : Space := .bar0)
  /-- FUNCTION_LEVEL_RESET: A Function Level Reset disables every ring and stops all DMA (R406). -/
  | functionLevelReset
  /-- BUS_MASTER_CLEAR: Clearing Bus Master Enable disables every ring and stops all DMA (R406). -/
  | busMasterClear
  /-- PCIE_PERST: PCIE_PERST_N acts on the endpoint and link training starts on its rise (R561). Operands: its level, the link
  that trains. -/
  | pciePerst (high : Bool) (l : LinkIn)
  /-- PCIE_DEGRADED: The link retrains to a lower capacity and PCIE_DEGRADED is raised or cleared (R404). Operands: GT/s and
  lanes after retraining. -/
  | pcieDegraded (gts : Nat) (width : Nat)
  /-- VLOG_VALID: VLOG rises through VLOG_ON and the power-up sequence starts (R563). Operands: whether VLOG was below 1.2 V,
  RESET_N low, BOOT1 high. -/
  | vlogValid (cold : Bool) (resetLow : Bool) (boot1 : Bool)
  /-- AUX_POWER_ENABLE: Auxiliary power is enabled to a group of eight fronds (R563). Operands: group of eight fronds. -/
  | auxPowerEnable (g : Nat)
  /-- MODULE_RESET: VLOG below VLOG_BO or RESET_N low for 10 µs starts a module reset (R559). Operands: brown-out of VLOG, or
  RESET_N. -/
  | moduleReset (brownOut : Bool)
  /-- BOOT_START: BOOT0 and BOOT1 are sampled and the boot ROM begins self-tests and image verification (R560). Operands: what
  boot start finds. -/
  | bootStart (i : BootIn)
  /-- BOOT_DONE: The firmware is verified and started and tick edge 0 follows (R563). -/
  | bootDone
  /-- AUTONOMOUS_COMMIT: In autonomous mode the stored signed configuration is loaded and committed (R49). -/
  | autonomousCommit
  /-- SUPPLY_PHASE: A logic supply phase fails and SUPPLY_PHASE is raised (R551). Operands: phase. -/
  | supplyPhase (ph : Nat)
  /-- SUPPLY_PHASE_RETRY: The module retries a failed phase every 1 s (R551). Operands: phase, whether it is restored. -/
  | supplyPhaseRetry (ph : Nat) (restored : Bool)
  /-- ETH_LINK_DOWN: A port loses link and ETH_LINK_DOWN is raised (R480). Operands: port, time function. -/
  | ethLinkDown (p : Nat) (v : TimeView)
  /-- ETH_LINK_UP: A port's link returns and ETH_LINK_DOWN clears (R480). Operands: port, speed code of NET_PORTp_STAT, time
  function. -/
  | ethLinkUp (p : Nat) (speed : Nat) (v : TimeView)
  /-- ETH_FRAME: A received frame is validated, discarded, forwarded or delivered by the switch (R461). Operands: port, frame,
  time function after it. -/
  | ethFrame (p : Nat) (b : List Byte) (v : TimeView)
  /-- TLS_CONNECT: A TLS 1.3 management connection is accepted or refused (R481). Operands: public key that the client
  certificate chains to, what it asks for. -/
  | tlsConnect (root : List Byte) (hello : TlsIn := {})
  /-- STATUS: A STATUS request reads BAR0 registers (R482). Operands: session, SEQ, offset, registers. -/
  | status (id : Nat) (sq : Nat) (ofs : Nat) (n : Nat)
  /-- NET_SET: A NET_SET request stages network objects (R483). Operands: session, SEQ, body. -/
  | netSet (id : Nat) (sq : Nat) (body : List Byte)
  /-- MACSEC_KEY: A MACSEC_KEY request installs an SA (R479). Operands: session, SEQ, port, reception, association number,
  key, SSCI, first packet number. -/
  | macsecKey (id : Nat) (sq : Nat) (p : Nat) (rx : Bool) (an : Nat) (key : List Byte) (ssci : Nat) (pn : Nat)
  /-- MACSEC_TX_CHANGE: A MACSEC_KEY request orders the change of transmit SA (R479). Operands: session, SEQ, port. -/
  | macsecTxChange (id : Nat) (sq : Nat) (p : Nat)
  /-- DESCRIPTOR: A DESCRIPTOR request submits one descriptor in autonomous mode (R482). Operands: session, SEQ, descriptor.
  -/
  | descriptor (id : Nat) (sq : Nat) (d : Desc)
  /-- CLK_B_CHANGE: When link A stops delivering checked frames, the frond counter changes its lock to the clock recovered
  from link B, or to the holdover oscillator when B delivers none either (R354). Operands: frond, whether B delivers. -/
  | clkBChange (f : Nat) (bDelivers : Bool)
  /-- LSP_RDCLK_EDGE: A rising LSP_RDCLK edge with LSP_RDEN low advances the synchronised write pointer, so LSP_EMPTY_N and
  LSP_AFULL can change without a read (R389). -/
  | lspRdclkEdge
  /-- BAD_OPCODE: A checked descriptor with an opcode of 0x0F or above completes with BAD_OPCODE (R422). Operands: descriptor.
  -/
  | badOpcode (d : Desc)
  /-- CLOCK_SRC_LOST_CLEAR: The failed oscillator has stayed within tolerance for 1 s, its OK bit returns and the NOTE source
  CLOCK_SRC_LOST clears (R511). -/
  | clockSrcLostClear
  /-- TLS_SESSION_CLOSE: A TLS management session ends, freeing one of the two permitted connections (R481). Operands:
  session. -/
  | tlsSessionClose (id : Nat)
  /-- ZEROISATION_COMPLETE: Zeroisation after RMA finishes within 4 s, is recorded complete in the boot record and the RMA
  completion is written (R537). -/
  | zeroisationComplete
  /-- SELF_TEST_DONE: The on-demand known-answer tests finish within 50 ms; the completion reports the result, and a failure
  enters the crypto error state (R521). Operands: 0, or the algorithm that failed. -/
  | selfTestDone (alg : Nat)
  /-- HALT_DRAIN_TIMEOUT: 1 ms after a HALT began with queue 255 still not empty, the module stops all DMA, descriptor
  execution, the tick counter and the engines (R491). -/
  | haltDrainTimeout
  /-- TICK_OUT_FALL: TICK_OUT, and SYNC_OUT with SYNCOUT_FN 2 or 3, fall 10 µs after the edge at which they rose (R311). -/
  | tickOutFall
  /-- SYNC_OUT_REPEAT: With SYNCOUT_FN 1, SYNC_OUT follows each edge of SYNC_IN, rising or falling, after 10-20 ns (R310).
  Operands: level of SYNC_IN. -/
  | syncOutRepeat (level : Bool)
  /-- ADDRESS_AGEING: A learned switch address older than 300 s is aged out, after which frames to it are flooded (R460).
  Operands: address. -/
  | addressAgeing (m : Nat)
  /-- GATE_CONTROL_LIST_ENTRY: An entry of an external port's gate control list ends within the tick and the next entry's open
  mask takes effect, letting waiting frames start (R472). Operands: port. -/
  | gateControlListEntry (p : Nat)
  /-- RESERVE_STEP_BOUNDARY: At each 250 µs step boundary the reserved DRAM bytes renew, and spill areas that counted as full
  become usable again (R362). -/
  | reserveStepBoundary
  deriving DecidableEq, Repr

end Sys2Proof
end

