-- ==== Sys2Proof/Decode.lean ====
section
/-! DEFINITION. Commands from words of the opcode table. The table gives no command any bits: commands are events, descriptors and
accesses, and a descriptor is 32 bytes that its row carries as an operand. -/

namespace Sys2Proof

/-- The command that a word of the table spells: none, as no row has bits. -/
def decodeTableWord (_nbits _w : Nat) : Option Instr := none

end Sys2Proof
end

