-- ==== Sys2Proof/Config.lean ====
section
/-! DEFINITION. What an implementation fixes and the spec does not print: constants with no body. -/

namespace Sys2Proof.Config
open Sys2Proof

/-- Xelvonex's assigned PCIe vendor identifier (ID_VENDOR: "Assigned"). -/
opaque vendorId : BitVec 16

/-- The dwords of PCIe configuration space that Table 12-1 does not state. -/
opaque pciHeader : Nat → Word

/-- The module serial number (ID_SERIAL: "Stored"). -/
opaque serial : DWord

/-- The module MAC address (NET_MAC: "Stored"). -/
opaque mac : BitVec 48

/-- The ROM model of aperture delay, in 1/32 frond count, from die temperature in 0.25 °C and FSUP in 10 mV (R312, R573). -/
opaque aperture : Int → Nat → Int

/-- A threshold of an object, where the spec prints only its limits (Tables 2-3, 2-4, 2-5, 2-11, 3-1, 4-4); the model keeps it within
them. -/
opaque threshold : Nat → Nat → Int

/-- The tap of half-band filter HB1 at a distance from the middle, 23 fractional bits (Table 5-1 prints no coefficients). -/
opaque hb1 : Nat → Int

/-- The tap of half-band filter HB2 at a distance from the middle. -/
opaque hb2 : Nat → Int

/-- The tap of HB3 at a distance from the middle for CIC decimation factor D (1 where there is no CIC). -/
opaque hb3 : Nat → Nat → Int

/-- Coefficients b0, b1, b2, a1, a2 (index 0 to 4) of section j of ROM response id at rate index k, 38 fractional bits. -/
opaque rom : Nat → Nat → Nat → Nat → Int

/-- The deviation of a computed feature of a kind from its definition on these samples, in units of 10^-30, within R226. -/
opaque engineErr : Nat → List Word → Int

/-- A feature of a kind of a block that holds an infinite sample: R207 to R222 state none. -/
opaque openFeature : Nat → List Word → Word

/-- The argument, times 2^300, of an X[m*] that is 0: R216 states none. -/
opaque argZero : List Word → Int

/-- The delay at 0 Hz of anti-alias preset 0x24 + j in frond counts; Table 5-6 prints it rounded (R245, R569). -/
opaque antiAliasDelay : Nat → Int

/-- ECDSA on P-384 with SHA-384: the signature (r, s) over a message under a public key verifies (R513). -/
opaque ecdsaOk : List Byte → List Byte → List Byte → Bool

/-- The maker token public key, whose hash OTP holds (Table 16-3). -/
opaque makerKey : List Byte

/-- The output of the DRBG at its n-th draw (Table 16-1). -/
opaque random : Nat → List Byte

/-- The public key of the key pair generated at the n-th draw (R529). -/
opaque keyPair : Nat → List Byte

/-- The IDevID certificate, DER (R529). -/
opaque idevid : List Byte

/-- A firmware image is bootable but for its security version (R522): key hash, signature, digest, stepping. -/
opaque imageOk : List Byte → Bool

/-- MINOR, MAJOR and SECVER of an image in the layout of SEC_FW_A (Table 16-5 gives its header no byte layout). -/
opaque imageVersion : List Byte → Word

/-- The VALIDATED mark of an image. -/
opaque imageValidated : List Byte → Bool

/-- GCM-AES-256 protection of a frame under a key, the port address of the SCI, an SSCI and a packet number (R463, R478). -/
opaque macsecSeal : List Byte → List Byte → Nat → Nat → List Byte → List Byte

/-- The time to live and hop limit of the module's packets: free, R460 gives none. -/
opaque hopLimit : BitVec 8

/-- The IPv4 identification of the reply to a frame: free, R460 gives none. -/
opaque ipId : List Byte → BitVec 16

/-- The 802.1AS port identity of a port: free, R463 gives the port's address alone. -/
opaque portIdentity : Nat → BitVec 80

/-- The frame inside a protected one, where it validates under a key (R478). -/
opaque macsecOpen : List Byte → List Byte → Option (List Byte)

/-- Base of ring r in the management processor's SRAM partition in autonomous mode (R438). -/
opaque mpRing : Nat → DWord

/-- The words of a cell, as a mask, that fail at the n-th move of queue q between SRAM and spill: by parity on the way into spill, or
reported uncorrectable by DRAM SECDED on the way back (R382, R383); memory errors are free. -/
opaque spillFault : Nat → Nat → BitVec 8

/-- A NET_SET object body as words: register index, instance, word (R482 gives object entries no byte layout). -/
opaque netBody : List Byte → List (Nat × Nat × Word)

end Sys2Proof.Config
end

