-- ==== Sys2Proof/Machine/Tab.lean ====
section
/-! DEFINITION. A table of like things by number: a list of (key, value) pairs with rising keys, and a value for every
key not listed. Registers, channels, fronds, queues, rings and rules are held so. -/

namespace Sys2Proof.Machine

/-- A sparse table by number. -/
abbrev Tab (α : Type) := List (Nat × α)

/-- The value at key k; d where nothing is listed. -/
def tget {α : Type} (d : α) : Tab α → Nat → α
  | [], _ => d
  | (j, v) :: r, k => if k = j then v else if k < j then d else tget d r k

/-- The table with v at key k. -/
def tput {α : Type} : Tab α → Nat → α → Tab α
  | [], k, v => [(k, v)]
  | (j, w) :: r, k, v =>
    if k < j then (k, v) :: (j, w) :: r else if k = j then (k, v) :: r else (j, w) :: tput r k v

/-- The table with the value at key k changed by f. -/
def tmod {α : Type} (d : α) (t : Tab α) (k : Nat) (f : α → α) : Tab α := tput t k (f (tget d t k))

/-- Every listed value changed by f, which sees its key. -/
def tmap {α β : Type} (t : Tab α) (f : Nat → α → β) : Tab β := t.map (fun p => (p.1, f p.1 p.2))

/-- The table without the entries whose key and value fail the test. -/
def tfilter {α : Type} (t : Tab α) (f : Nat → α → Bool) : Tab α := t.filter (fun p => f p.1 p.2)

/-- The keys are strictly rising. -/
def tsorted {α : Type} (t : Tab α) : Bool := decide (t.Pairwise (fun a b => a.1 < b.1))

end Sys2Proof.Machine
end

