-- ==== Sys2Proof/Machine/Parts.lean ====
section
/-! DEFINITION. The parts that State is made of: one structure per kind of thing the spec gives the module. -/

namespace Sys2Proof.Machine
open Sys2Proof

/-! ## Registers and the two paths into BAR0 (13, 04) -/

/-- What each path into BAR0 has of its own (R443, R445, R161). -/
structure PathRegs where
  chnSel : Word := 0
  queSel : Word := 0
  bandSel : Word := 0
  binSel : Word := 0
  rulSel : Word := 0
  budSel : Word := 0
  peekIdx : Word := 0
  activeView : Bool := false
  peek : List Word := List.replicate 9 0
  shadow : Option (Nat × Nat × Word) := none
  held : Tab Word := []
  deriving DecidableEq, Repr

/-- A value word of an RWP register that waits for its complement in one instance of the register: the path and the selection that wrote
it, the channel in the window, else 0 (R14, R453). -/
structure RwpPend where
  path : Path
  ofs : Nat
  sel : Word
  chan : Nat
  val : Word
  deriving DecidableEq, Repr

/-! ## Queues, rings, descriptors, check-value units (11, 12) -/

/-- A record's 64-byte cell before an egress adds alive counter, queue and CRC (Table 12-15, R391). `par` holds the parity bits of
its eight words; the end mark of its last word is `last`, those of the other words are clear (R363); `poison` marks the words that failed
on the way into spill or back (R383). -/
structure Cell where
  typ : Byte
  source : Half
  epoch : Half
  tick : TickNo
  flags : Half
  first : Bool := true
  last : Bool := true
  body : List Byte
  par : Byte := 0
  poison : Byte := 0
  deriving DecidableEq, Repr

/-- A packet of a queue; `spill` of its newest cells lie in the spill area (R361, R363); `fresh`: it has arrived in the command
under way, whose end marks count as those of one cycle (R365). -/
structure Packet where
  cells : List Cell
  spill : Nat := 0
  fresh : Bool := false
  deriving DecidableEq, Repr

/-- One of the 256 queues (11); `owe` counts the cells of a raised LIMIT that it has not received (R374); `moves` counts the cells moved
into spill and back, which number the memory errors. -/
structure Queue where
  pkts : List Packet := []
  cur : Option Packet := none
  owe : Nat := 0
  wm : Bool := false
  afull : Bool := false
  flush : List Nat := []
  lost : Nat := 0
  lostL : Nat := 0
  pois : Nat := 0
  moves : Nat := 0
  deriving DecidableEq, Repr

/-- A ring of host memory (R407): 0 command, 1 completion, 2 event, 3 + n RINGn. -/
structure Ring where
  base : DWord := 0
  log2 : Nat := 6
  en : Bool := false
  p : Word := 0
  c : Word := 0
  db : Word := 0
  count : Nat := 1
  holdoff : Nat := 0
  unsig : Nat := 0
  alive : Byte := 0
  deriving DecidableEq, Repr

/-- What the host has written to the PCIe endpoint: base address registers by offset, and message addresses and data of the MSI-X table by
dword (R402, R405). -/
structure Endpoint where
  bars : Tab Word := []
  tab : Tab Word := []
  deriving DecidableEq, Repr

/-- An executed descriptor that waits for its completion (R420, R421): what it names in `obj`, a value it will report, the bytes it
works on; `lost` after its ring went off (R406); `due` is its deadline less the time of its execution within its tick, in frond counts, and
`len` the length of that tick. -/
structure Outstanding where
  id : Nat
  opcode : Byte
  didx : Half
  tag : Word
  tmo : Nat
  obj : Nat := 0
  val : Nat := 0
  data : List Byte := []
  lost : Bool := false
  due : Nat := 0
  len : Nat := 0
  deriving DecidableEq, Repr

/-- One check-value unit (R395 to R401). -/
structure Cvu where
  alg : Nat := 0
  st : Word := 0xFFFFFFFF
  count : Word := 0
  owned : Bool := false
  refused : Bool := false
  deriving DecidableEq, Repr

/-- The legacy stream port: FIFO half-words, pointers modulo 2,048 and their two synchroniser stages (R387 to R390). -/
structure StreamPort where
  fifo : List (Half × Bool) := []
  wr : Nat := 0
  wr1 : Nat := 0
  wr2 : Nat := 0
  rd : Nat := 0
  rd2 : Nat := 0
  alive : Byte := 0
  afull1 : Bool := false
  afull2 : Bool := false
  queue : Option Nat := none
  deriving DecidableEq, Repr

/-! ## Power and start-up (17) -/

/-- Where the module stands between power-up and HALT (R491, R557 to R564). -/
inductive Phase where
  | off
  | reset
  | booting
  | running
  | draining
  | halted
  deriving DecidableEq, Repr

/-! ## Faults (15) -/

/-- An active fault source or cause (R484, R488, R493). `met`: escalated, and its condition no longer holds (R494). -/
structure Src where
  cls : Nat
  event : Bool
  esc : Bool := false
  since : TickNo
  deadline : Option TickNo := none
  epoch : Half := 0
  ctx : List Byte := []
  met : Bool := false
  deriving DecidableEq, Repr

/-- The fault latch (R495). -/
structure Latch where
  id : Nat
  sub : Nat
  cls : Nat
  tick : TickNo
  epoch : Half
  ctx : List Byte
  deadline : Option TickNo
  deriving DecidableEq, Repr

/-- An open reaction shadow of a frond (R498, R500). -/
structure Shadow where
  s : TickNo
  opener : Option (Nat × Nat) := none
  openerCls : Nat := 1
  merged : Nat := 0
  closeAt : Option TickNo := none
  deriving DecidableEq, Repr

/-! ## Links and time, core side (09, 10) -/

/-- The core's view of one link of a frond (R351, R353, Table 10-8). -/
structure LinkSt where
  up : Bool := false
  down : Bool := false
  run : Nat := 0
  kinds : List Nat := []
  nodl : Bool := false
  rej : Nat := 0
  diff : Nat := 0
  means : List Int := []
  deriving DecidableEq, Repr

/-- A frame copy selected in the core or in a frond (R346, R347). -/
structure Copy where
  linkB : Bool
  stamp : Nat
  alive : Byte
  payload : List Byte
  flags : List Nat := []
  deriving DecidableEq, Repr

/-- The distribution of items to a frond (R318, R329). -/
structure Dist where
  tag : Byte
  commit : Bool
  items : List (Nat × Word)
  next : Nat := 0
  deriving DecidableEq, Repr

/-- An output value on its way to a frond (R345). `sent` lists the carrying superframes not reported not-applied,
`repl` the OUTPUT_SETs that it replaced before a superframe. -/
structure Carry where
  val : Word
  did : Option Nat
  rule : Bool
  sent : List TickNo := []
  repl : List Nat := []
  deriving DecidableEq, Repr

/-- A FAULT_CLEAR on its way to a frond: a position, or 16 for the frond; superframes that carried it and were not reported
missed (R114). -/
structure Clear where
  pos : Nat
  did : Option Nat
  sent : List TickNo := []
  deriving DecidableEq, Repr

/-- What U0 last reported of a frond (Table 10-4). -/
structure Report where
  fsup : Nat := 0
  temp : Int := 0
  vref : Nat := 0
  safe : Bool := true
  shutdown : Bool := true
  wdExp : Bool := false
  refRdy : Bool := false
  refRange : Bool := false
  fpair : Half := 0
  cpair : Half := 0
  dpc : Nat := 0
  noCfg : Bool := false
  deriving DecidableEq, Repr

/-- One superframe as the core judged it, for READY (R499). -/
structure Judged where
  complete : Bool
  shutdown : Bool
  cpair : Half
  deriving DecidableEq, Repr

/-- The core's state for one frond. `hold` is the configuration its channels keep while the frond is late or excluded
(R325); `dhold`, `depoch` and `dlate` are configuration, epoch and lateness of the tick whose superframe is arriving. -/
structure CFrond where
  a : LinkSt := {}
  b : LinkSt := {}
  upAlive : Option Byte := none
  downAlive : Byte := 0
  copies : Tab Copy := []
  seen : Bool := false
  gotU0 : Bool := false
  done : Bool := false
  missing : Bool := false
  rep : Report := {}
  hist : List Judged := []
  epoch : Half := 0
  late : Bool := false
  excluded : Bool := false
  hold : Option (Tab Word) := none
  dhold : Option (Tab Word) := none
  depoch : Half := 0
  dlate : Bool := false
  res : Nat := 0
  alignDeg : Bool := false
  edgesSince : Nat := 16
  holdover : Bool := false
  carried : Int := 0
  off : Option Int := none
  lastSnap : Option Nat := none
  corr : Int := 0
  dpc : Nat := 0
  dist : Option Dist := none
  acked : Bool := false
  out : Tab Carry := []
  new : Tab Carry := []
  next : Tab Carry := []
  clr : List Clear := []
  safeOrder : Bool := false
  snapLost : Nat := 0
  fpEq : Tab Nat := []
  cpEq : Tab Nat := []
  deriving DecidableEq, Repr

/-! ## The frond's own side (02, 03, 04, 05, 09, 10) -/

/-- What an output stage delivers: off or high impedance, or a DO state or setpoint code. -/
inductive Drive where
  | off
  | level (v : Nat)
  deriving DecidableEq, Repr

/-- The state of a channel's filter chain (Table 5-1): integrators and combs of the CIC, histories of the half-band stages,
states of the ROM sections, and the ages that decide the flags (R174, R184); `satLeft` conversions more carry a saturation (R170). -/
structure Filt where
  integ : List Int := [0, 0, 0, 0, 0]
  comb : List Int := [0, 0, 0, 0, 0]
  h1 : List Int := []
  h2 : List Int := []
  h3 : List Int := []
  sos : List (Int × Int) := []
  age : Int := 0
  ovrAge : Option Nat := none
  nsAge : Option Nat := none
  satLeft : Option Nat := none
  deriving DecidableEq, Repr

/-- A snap value held for the uplink of its tick (R133, R136); `ns`: its conversion ran with REF_RDY 0. -/
structure SnapVal where
  code : Int
  conv : Nat
  ns : Bool := false
  deriving DecidableEq, Repr

/-- What the conditions of the channel diagnostics take from the channel's configuration and monitors: mode, CHN_DIAG_CFG, THR_SRC 1,
ILOAD_DECL, and whether the bias is judged (Table 3-2, R86). -/
structure DiagCtx where
  mode : Nat := 0
  en : Word := 0
  thr : Bool := false
  load : Nat := 0
  judged : Bool := false
  deriving DecidableEq, Repr

/-- A channel on the frond's side. `vBias` is the bias estimate of the IEPE servo, `biasHist` its values while the servo is fast, newest
first (R85, R111); `contNew`: CONTENTION has become active at the tick edge that comes next (R106); `entry`: what it delivered when it
entered its safe state (R114); `outs` and `ctx`: the reported states and the settings of past ticks, newest first, equal settings
counted together (R99); `swFor`: whole ticks in µs since the switch last changed (R100). -/
structure FChan where
  mode : Nat := 0
  out : Bool := false
  c : Nat := 0
  raw : Bool := false
  cross : Int := 0
  rise : Nat := 0
  fall : Nat := 0
  stamps : List Nat := []
  stampLost : Bool := false
  val : Nat := 0
  held : Option Nat := none
  drive : Drive := .off
  safe : Bool := false
  safeHeld : Bool := false
  entry : Drive := .off
  outs : List Bool := []
  ctx : List (DiagCtx × Nat) := []
  swFor : Nat := 0
  backfeed : Bool := false
  thermal : Bool := false
  diag : Nat := 0
  contTicks : Nat := 0
  contNew : Bool := false
  vBias : Nat := 0
  biasHist : List Nat := []
  regOn : Bool := false
  rail : Nat := 0
  railEdge : Nat := 0
  target : Nat := 0
  firstRise : Bool := false
  settled : Bool := false
  servoFast : Bool := false
  biasJudged : Bool := false
  owOff : Bool := false
  loopLow : Nat := 0
  regFault : Bool := false
  trim : Tab (Int × Int) := []
  trimBad : Nat := 0
  k : Nat := 0
  sum : Int := 0
  sq : Nat := 0
  mn : Int := 32767
  mx : Int := -32768
  ovr : Bool := false
  ns : Bool := false
  filt : Filt := {}
  samples : List (Nat × Nat) := []
  recent : List (Int × Bool × Bool) := []
  fhOrigin : Nat := 0
  fhFirst : Nat := 0
  fhSum : Int := 0
  fhOvr : Bool := false
  fhNs : Bool := false
  snap : Option SnapVal := none
  snapIdx : Option Nat := none
  meas : Nat × Nat := (0, 0)
  deriving DecidableEq, Repr

/-- A frond's own state. `cfg` is its configuration in force, by item address; `edge` and `frac` place its last tick edge, in frond
counts and 1/32 of them; `judge`: its links have returned and no D0 has checked since (R565), `wipe`: that D0 told it that the logic
side has restarted (R566); `heldFor` counts the edges of the holdover that goes on or has just ended (R314, R572); `refFor` is the time in frond counts since REF_RDY became 0 (R140);
`aux`: auxiliary power is present (R550). -/
structure Frond where
  power : Bool := false
  aux : Bool := false
  fsup : Bool := false
  causes : Nat := 1
  met : Nat := 0
  refRange : Bool := false
  safe : Bool := true
  shutdown : Bool := true
  wdExp : Bool := false
  armed : Bool := false
  stamp : Nat := 0
  edge : Nat := 0
  frac : Nat := 0
  epoch : Half := 0
  noCfg : Bool := false
  firstEpoch : Bool := false
  safeOrd : Bool := false
  cfg : Tab Word := []
  items : Tab (Nat × Word) := []
  tag : Byte := 0
  total : Nat := 0
  dist : Bool := false
  itemBad : Bool := false
  d0 : Option (List Byte) := none
  d1 : Option (List Byte) := none
  res : Option (List (Nat × Word) × Half) := none
  resEpoch : Half := 0
  corr : Int := 0
  downAlive : Option Byte := none
  copies : Tab Copy := []
  upAlive : Byte := 0
  aSeen : Bool := false
  bSeen : Bool := false
  bothDown : Bool := false
  heldFor : Nat := 0
  rejoin : Bool := false
  restart : Bool := false
  judge : Bool := false
  wipe : Bool := false
  clk : Nat := 0
  echoA : Nat := 0xFFFFFF
  echoB : Nat := 0xFFFFFF
  integMask : Nat := 0
  integ : Bool := false
  outRej : Nat := 0
  critLost : List Nat := []
  ds : Option (Byte × Nat) := none
  snaps : List (Nat × Bool × Nat) := []
  snapLost : Nat := 0
  dpc : Nat := 0
  refRdy : Bool := false
  refFor : Nat := 0
  refTrim : Int × Int := (0, 0)
  refBad : Bool := false
  vsOn : Nat := 0
  chans : Tab FChan := []
  deriving DecidableEq, Repr

/-! ## Channels on the core's side (04, 05) -/

/-- A filtered sample in the core (R189): value, header flags, its tick, the frond counts from reset to that tick's edge, the
number since reset of its newest conversion, its place in the tick, and its sample instant in frond counts (R245). -/
structure Smp where
  y : Word
  fl : Nat
  tick : TickNo
  abs : Nat
  cv : Nat
  pos : Nat
  t : Int
  ep : Half
  deriving DecidableEq, Repr

/-- A period's statistics (R151). -/
structure PSet where
  cnt : Nat := 0
  sum : Int := 0
  sq : Nat := 0
  mn : Int := 0
  mx : Int := 0
  missed : Nat := 0
  sat : Bool := false
  mixed : Bool := false
  ovr : Bool := false
  ns : Bool := false
  late : Bool := false
  deriving DecidableEq, Repr

/-- A channel on the core's side: last tick (R150), period (R151), diagnostics, aux values, last filtered sample. -/
structure CChan where
  tsum : Int := 0
  tsq : Nat := 0
  tmn : Int := 0
  tmx : Int := 0
  diag : Nat := 0
  sticky : Nat := 0
  measI : Nat := 0
  bias : Nat := 0
  rise : Nat := 0
  fall : Nat := 0
  state : Bool := false
  loopLow : Nat := 0
  ovrTick : Bool := false
  nsTick : Bool := false
  ovrStk : Bool := false
  nsStk : Bool := false
  per : PSet := {}
  lat : PSet := {}
  fine : Word := 0
  fineFl : Nat := 0
  settling : Bool := false
  value : Word := 0
  conv : Nat := 0
  degLast : Option Nat := none
  ys : List Smp := []
  tMiss : Bool := true
  tcnt : Nat := 0
  tTick : TickNo := 0
  tFl : Nat := 0
  tEp : Half := 0
  mixNext : Bool := false
  deriving DecidableEq, Repr

/-- The pending commit (R317 to R322); `owOff` are the channels whose open-wire currents it disables (R91); `first`: the module has had no
epoch before it (R329). -/
structure Pending where
  t : TickNo
  c : TickNo
  excl : Bool
  tag : Byte
  conf : Tab Word
  id : Nat
  affected : List Nat
  owOff : List Nat := []
  first : Bool := false
  resolved : Option (Bool × List Nat) := none
  written : Bool := false
  deriving DecidableEq, Repr

/-- A SNAP descriptor under way: tick and index of the snapped conversion, selected channels, those captured, the fronds whose
uplink of that tick is resolved, and the bitmap buffer (R340, R342, R427). -/
structure SnapReq where
  id : Nat
  tick : TickNo
  conv : Nat
  sel : List Nat
  got : List Nat := []
  left : List Nat := []
  map : DWord := 0
  deriving DecidableEq, Repr

/-- The tick and time unit (09, R38, R39). `state` is TSTATE; `started` says that tick edge 0 has passed (R563); `prev` is the number
of the tick that ended at the last edge, which a renumbering does not change (R22); `slew` is how far the next edge moves, `moved` how
far the last one did (R305, R353). -/
structure TimeUnit where
  started : Bool := false
  count : TickNo := 0
  prev : TickNo := 0
  state : Nat := 0
  clkA : Bool := false
  clkB : Bool := false
  clkSel : Bool := false
  conflict : Bool := false
  offset : Int := 0
  run : Nat := 0
  slew : Int := 0
  moved : Int := 0
  renumbered : Bool := false
  jump : Option Nat := none
  p0 : TickNo := 0
  epoch : Half := 0
  periodWritten : Bool := false
  checkedIn : Bool := false
  mpAlive : Bool := false
  missed : Nat := 0
  inARow : Nat := 4
  tickOut : Bool := false
  syncOut : Bool := false
  syncIn : Bool := false
  resTag : Byte := 0
  resEpoch : Half := 0
  nextTag : Byte := 0
  syncReq : List (Option Nat) := []
  syncIds : List (Option Nat) := []
  syncFin : List (Option Nat) := []
  syncNext : Bool := false
  dpc : Nat := 0
  dpcPrev : Nat := 0
  syncCleared : Nat := 0
  deriving DecidableEq, Repr

/-! ## Power, temperature, budget results (13, 17) -/

/-- PWR_TBASE, PWR_VLOG, PWR_DISS, the 250 us steps for which ABOVE_DECL has had its value (R553), the failed supply phases,
and what start-up holds: VLOG valid, the HALT latch, auxiliary power per group of eight fronds, RESET_N released, the pins
sampled, PCIE_PERST_N, the trained PCIe link and its drain at the last commit (R403, R404, R492, R560, R563). -/
structure Power where
  temp : Int := 0
  above : Bool := false
  aboveFor : Nat := 0
  vlog : Nat := 0
  diss : Nat := 0
  failed : List Nat := []
  valid : Bool := false
  haltLatch : Bool := false
  aux : List Nat := []
  boot1 : Bool := false
  presPend : Bool := false
  booted : Bool := false
  perst : Bool := true
  linkUp : Bool := false
  gts : Nat := 0
  width : Nat := 0
  drain : Option Nat := none
  deriving DecidableEq, Repr

/-- One budget result (R458): unit, scope, demand, limit, top contributor, EXCEEDED. Scope 256 is ENGINE. -/
structure BudRes where
  unit : Nat
  scope : Nat
  demand : Nat
  limit : Nat
  top : Nat
  exceeded : Bool := false
  deriving DecidableEq, Repr

/-- The results of the last commit that reached the budget check (R458). -/
structure Budget where
  valid : Bool := false
  accepted : Bool := false
  didx : Half := 0
  res : List BudRes := []
  deriving DecidableEq, Repr

/-! ## Security (16) -/

/-- The security subsystem: life cycle, approved mode, keys, nonce, images, stored blobs. `slots` counts the OTP slots
programmed; `draws` counts the DRBG draws; `part` is the image being received; `pref` and `trialRec` stand in
the boot record; `selfOk` says that the self-tests have passed (R516). Of the secrets, which no path returns (R515), it holds whether they
are there: `destroyed` is the fuse by which the device unique secret reads as zero, `idev` says that the key store holds the IDevID key,
and `ownerEpoch` counts the owner epochs. -/
structure Sec where
  lc : Nat := 2
  slots : Nat := 2
  otpOk : Bool := true
  consistent : Bool := true
  approved : Bool := false
  naCause : Nat := 0
  unlocked : Bool := false
  presence : Bool := false
  cryptoErr : Bool := false
  selfOk : Bool := false
  keys : Tab (List Byte) := []
  ldev : Option (List Byte) := none
  ldevCert : Option (List Byte) := none
  bootB : Bool := false
  trial : Bool := false
  fallback : Bool := false
  authLock : Bool := false
  fails : Nat := 0
  nonce : Option (List Byte) := none
  draws : Nat := 0
  imgA : List Byte := []
  imgB : List Byte := []
  pref : Bool := false
  trialRec : Bool := false
  part : List Byte := []
  rollback : Nat := 0
  blobSeq : Nat := 0
  storeA : List Byte := []
  storeB : List Byte := []
  zeroDone : Bool := true
  dbg : Nat := 0
  destroyed : Bool := false
  ownerEpoch : Nat := 0
  idev : Bool := true
  deriving DecidableEq, Repr

/-! ## Network (14) -/

/-- A MACsec secure association: association number, key, SSCI, next packet number. -/
structure Sa where
  an : Nat
  key : List Byte
  ssci : Nat
  pn : Nat
  deriving DecidableEq, Repr

/-- Where a datagram goes and whence (R463, R467, R468, Table 14-2): destination and source UDP ports, IPv6 or IPv4 addresses in network
order, the MAC address (none where ARP or ND gives it), VLAN ID with PCP, the source MAC and IP addresses, and the DF bit. -/
structure GramDest where
  udp : Nat
  src : Nat
  v6 : Bool
  addr : List Byte
  mac : List Byte
  vlan : Option (Nat × Nat)
  srcMac : List Byte
  srcIp : List Byte
  df : Bool
  deriving DecidableEq, Repr

/-- What waits to leave an external port: a frame to protect, or a subscriber's datagram. -/
inductive NetTx where
  | frame (bytes : List Byte)
  | gram (sub : Nat) (payload : List Byte)
  deriving DecidableEq, Repr

/-- An external Ethernet port (R461 to R480): `waiting` is what the gate list or TX_STOP holds back, with its class; `lost`
says that the port has lost a link it had. -/
structure Port where
  link : Bool := false
  speed : Nat := 0
  macsec : Bool := false
  txAn : Bool := false
  tx0 : Option Sa := none
  tx1 : Option Sa := none
  rx0 : Option Sa := none
  rx1 : Option Sa := none
  badRx : Nat := 0
  gate : Nat := 0
  waiting : List (Nat × NetTx) := []
  role : Nat := 0
  lost : Bool := false
  deriving DecidableEq, Repr

/-- A subscriber's publisher: next DSEQ, egress alive counter, records of the datagram that its queue fills, and of
the one that the management processor fills (R467 to R469). -/
structure Pub where
  dseq : Nat := 1
  alive : Byte := 0
  recs : List (List Byte) := []
  fwd : List (List Byte) := []
  deriving DecidableEq, Repr

/-- A TLS management session (R481); `owner` says that its client certificate chains to an owner key. -/
structure Session where
  id : Nat
  owner : Bool
  deriving DecidableEq, Repr

/-- The network unit: ports, learned addresses with their port, IP addresses with the MAC address that ARP or ND gave (R460), publishers (16 is SUB 0xFF of R467), sessions, time service, and
the session and SEQ of each DESCRIPTOR request by its ring index (R482). -/
structure Net where
  p0 : Port := {}
  p1 : Port := {}
  addrs : List (Nat × Nat) := []
  neigh : List (List Byte × List Byte) := []
  pubs : Tab Pub := []
  sessions : List Session := []
  asked : Tab (Nat × Nat) := []
  gm : Bool := false
  stepsRemoved : Nat := 0
  deriving DecidableEq, Repr

/-! ## MAP_READ under way (07) -/

/-- A MAP_READ transfer: descriptor, destination, first cell, cells wanted, cells read. -/
structure MapXfer where
  id : Nat
  dest : DWord
  first : Nat
  count : Nat
  done : Nat := 0
  deriving DecidableEq, Repr

/-! ## Feature engine (06) -/

/-- The plan state of a channel: edge of its grid origin in frond counts since reset, samples since then, the newest N of
them (newest first), BLOCK_SEQ of local block 0, edges at which the scaling changed, and the angle resampler (R201, R253): angle
zero `jz` of acquisition number `jl`, the next angle sample, and the filtered samples it may still need. -/
structure Plan where
  origin : Nat := 0
  n : Nat := 0
  buf : List Smp := []
  base : Nat := 0
  mixes : List Nat := []
  seq : Nat := 0
  bin : Nat := 255
  paused : Bool := true
  jz : Int := 0
  jl : Nat := 0
  jn : Int := 0
  hist : List Smp := []
  deriving DecidableEq, Repr

/-- A block whose samples are complete (R228 to R232). `turns` counts the ticks of work done, `owed` the deferred ones. -/
structure Blk where
  ch : Nat
  b : Nat
  smp : List Smp
  ready : Bool := false
  slices : Nat := 1
  turns : Nat := 0
  owed : Nat := 0
  deferred : Bool := false
  mixed : Bool := false
  speed : Word := 0
  hasBin : Bool := false
  refInv : Bool := false
  cfg : Tab Word := []
  deriving DecidableEq, Repr

/-- The features of a block as the rule engine sees them at the next edge (R294). -/
structure Feats where
  ch : Nat
  b : Nat
  vals : List Word
  bands : List Word
  fl : Nat
  tick : TickNo
  ep : Half
  deriving DecidableEq, Repr

/-! ## Order tracker (07) -/

/-- An accepted edge: time in frond counts since reset, tooth positions since acquisition began, the edge of the tick that stamped
it, and that tick's number. -/
structure SpdEdge where
  t : Int
  c : Int
  k : Nat
  n : TickNo := 0
  deriving DecidableEq, Repr

/-- A speed reference. `st`: 0 OFF, 1 ACQUIRING, 2 LOCKED, 3 STOPPED; `last` is the time of the last accepted edge, or of the edge
at which EN became 1; the predicted interval is iv / dv; `zero` is the position count of angle zero, of acquisition number `locks`;
`fl` and `ep` are the flags and the epoch of the tick that carried its value (R300). -/
structure SpdRef where
  st : Nat := 0
  last : Int := 0
  edges : List SpdEdge := []
  iv : Int := 0
  dv : Nat := 1
  good : Nat := 0
  gap : Bool := false
  cnt : Nat := 0
  zero : Int := 0
  zeroArb : Bool := false
  locks : Nat := 0
  skipped : Nat := 0
  extra : Nat := 0
  losses : Nat := 0
  freq : Word := 0x7FC00000
  valid : Bool := false
  overs : Bool := false
  validSince : Option Nat := none
  stopSince : Option Nat := none
  tick : TickNo := 0
  ep : Half := 0
  fl : Nat := 0
  fresh : Bool := false
  deriving DecidableEq, Repr

/-! ## Condition map (07) -/

/-- The map unit. `mem` holds both banks' bytes, `occ` the occupancy bits as bank * 2^20 + cell, rising. -/
structure MapUnit where
  mem : List (Nat × BitVec 8) := []
  occ : List Nat := []
  live : Nat := 0
  pseq : Nat := 0
  first : TickNo := 0
  ticks : Nat := 0
  updates : Nat := 0
  unbinned : Nat := 0
  nan : Nat := 0
  clipped : Nat := 0
  deferIn : Nat := 0
  mixed : Bool := false
  deriving DecidableEq, Repr

/-! ## Capture rings and rules (08) -/

/-- A frame of a capture ring: its words and their flags by slot, its tick, the number since reset of its newest conversion,
its epoch. -/
structure CapFrame where
  ws : List (Word × Nat)
  tick : TickNo
  cv : Nat
  ep : Half
  deriving DecidableEq, Repr

/-- A stretch of ticks whose frames lie on one grid (R167): its first tick, the frame number and decimation phase there, and the
conversions of a tick. -/
structure CapGrid where
  tick : TickNo
  n : Nat
  dpc : Nat
  len : Nat
  deriving DecidableEq, Repr

/-- A capture in progress (R281 to R285). `key` is its trigger time in 1/512 core cycles since reset, `trigFl` the flags of its
trigger frame, `nextF` the next frame to deliver, `rest` the words not yet in a cell, `dw` the words delivered. -/
structure CapRun where
  key : Nat
  trig : Int
  trigTick : TickNo
  trigEp : Half
  trigFl : Nat := 0
  last : Int
  nextF : Int
  preLost : Nat := 0
  postLost : Nat := 0
  overtaken : Bool := false
  stampLost : Bool := false
  head : Bool := false
  seg : Nat := 0
  dw : Nat := 0
  preDel : Nat := 0
  stamps : Nat := 0
  nextS : Nat := 0
  firstTick : Option TickNo := none
  lastTick : Option TickNo := none
  rest : List (Word × Nat × TickNo × Half) := []
  sources : Nat := 0
  rule : Nat := 0xFFFF
  missed : Nat := 0
  ids : List Nat := []
  deriving DecidableEq, Repr

/-- A write of a capture ring that has not finished: the frames, or the stamp words, of a tick (R32, R34). -/
inductive CapWrite where
  | frames (l : List CapFrame)
  | stamps (tick : TickNo) (words : List Nat)
  deriving DecidableEq, Repr

/-- A capture ring: frames written since its first frame, of which the newest D are kept, newest first; stamps likewise.
`start` is the edge of the epoch that enabled it, `upTo` the edge up to which frames are in, in frond counts since
reset; `grids` the stretches of its ticks, newest first; `stTick` is the last tick whose stamps are written, `cuts` the ticks not older
than the oldest frame of which a stamp is overwritten, with the newest such stamp; `owed` counts the ticks whose readout is deferred
(R34), `held` are the cells that deferred readouts have made in this tick (R290); `wait` are the writes not finished, oldest first, with
the edges that each has waited for, and `slow`: the memory does not finish the next write in its tick (R32). -/
structure CapRing where
  armed : Bool := false
  ignored : Nat := 0
  seq : Nat := 0
  start : Nat := 0
  n : Nat := 0
  frames : List CapFrame := []
  upTo : Nat := 0
  grids : List CapGrid := []
  ns : Nat := 0
  stamps : List (Nat × TickNo × Nat) := []
  stTick : Option TickNo := none
  cuts : List (Nat × TickNo) := []
  slow : Bool := false
  wait : List (Nat × CapWrite) := []
  held : List Cell := []
  read : Bool := false
  owed : Nat := 0
  run : Option CapRun := none
  deriving DecidableEq, Repr

/-- The state of an alarm rule (R292, R295): level, pending level, persistence, the pairs last found good. -/
structure RuleSt where
  level : Nat := 0
  pend : Nat := 0
  cnt : Nat := 0
  integ : Bool := false
  good : List Word := []
  deriving DecidableEq, Repr

end Sys2Proof.Machine
end

