-- ==== Sys2Proof/Machine/Bits.lean ====
section
/-! DEFINITION. Fields, byte order (R7), check values (R332, R391, Table 11-2) and exact rounding (R169). -/

namespace Sys2Proof.Machine

/-- Bits [lo + w - 1 : lo] of a word as a number (R6). -/
def fld {n : Nat} (x : BitVec n) (lo w : Nat) : Nat := (x.toNat >>> lo) % 2 ^ w

/-- Bit i of a word (R6). -/
def bit {n : Nat} (x : BitVec n) (i : Nat) : Bool := x.getLsbD i

/-- Bits [lo + w - 1 : lo] of x replaced by v. -/
def putFld {n : Nat} (x : BitVec n) (lo w v : Nat) : BitVec n :=
  BitVec.ofNat n (x.toNat - (fld x lo w) * 2 ^ lo + (v % 2 ^ w) * 2 ^ lo)

/-- A Boolean as a number. -/
def b2n (b : Bool) : Nat := if b then 1 else 0

/-- The two's-complement value of the low w bits of n. -/
def sgn (w n : Nat) : Int := (BitVec.ofNat w n).toInt

/-- An integer as an unsigned w-bit number, two's complement. -/
def uns (w : Nat) (i : Int) : Nat := (BitVec.ofInt w i).toNat

/-- n bytes of v, least significant first (R7). -/
def le : Nat → Nat → List Byte
  | 0, _ => []
  | n + 1, v => BitVec.ofNat 8 v :: le n (v / 256)

/-- The little-endian value of a byte list (R7). -/
def leVal : List Byte → Nat
  | [] => 0
  | b :: r => b.toNat + 256 * leVal r

/-- The n-byte little-endian field at byte offset o (R7). -/
def getLE (bs : List Byte) (o n : Nat) : Nat := leVal ((bs.drop o).take n)

/-- A byte list cut or zero-filled to n bytes. -/
def padTo (n : Nat) (bs : List Byte) : List Byte := bs.take n ++ List.replicate (n - bs.length) 0

/-- The bits of a w-bit number in the opposite order. -/
def reflect : Nat → Nat → Nat
  | 0, _ => 0
  | w + 1, v => (v % 2) * 2 ^ w + reflect w (v / 2)

/-- k shifts of a w-bit CRC register, most significant bit first. -/
def crcShift (w poly : Nat) : Nat → Nat → Nat
  | 0, r => r
  | k + 1, r =>
    let r2 := (r * 2) % 2 ^ w
    crcShift w poly k (if r / 2 ^ (w - 1) % 2 = 1 then r2 ^^^ poly else r2)

/-- One byte into an unreflected CRC register. -/
def crcByte (w poly r : Nat) (b : Byte) : Nat := crcShift w poly 8 (r ^^^ (b.toNat * 2 ^ (w - 8)))

/-- k shifts of a reflected CRC register, least significant bit first. -/
def crcShiftR (rpoly : Nat) : Nat → Nat → Nat
  | 0, r => r
  | k + 1, r => crcShiftR rpoly k (if r % 2 = 1 then (r / 2) ^^^ rpoly else r / 2)

/-- One byte into a reflected CRC register. -/
def crcByteR (rpoly r : Nat) (b : Byte) : Nat := crcShiftR rpoly 8 (r ^^^ b.toNat)

/-- CRC-32C of Table 11-2, the check value of descriptors, payloads and records (R391, R393). -/
def crc32c (bs : List Byte) : Word :=
  BitVec.ofNat 32 ((bs.foldl (crcByteR 0x82F63B78) 0xFFFFFFFF) ^^^ 0xFFFFFFFF)

/-- CRC-16/CCITT-FALSE of link frames (R332). -/
def crc16 (bs : List Byte) : Half := BitVec.ofNat 16 (bs.foldl (crcByte 16 0x1021) 0xFFFF)

/-- A byte list followed by its CRC-32C. -/
def withCrc (bs : List Byte) : List Byte := bs ++ le 4 (crc32c bs).toNat

/-- A payload whose last four bytes are the CRC-32C of the rest (R393). -/
def payloadCrcOk (bs : List Byte) : Bool :=
  bs.length ≥ 4 && getLE bs (bs.length - 4) 4 == (crc32c (bs.take (bs.length - 4))).toNat

/-- The quotient n / d rounded to the nearest integer, ties to even (R144, R169). -/
def rne (n : Int) (d : Nat) : Int :=
  let q := n / (d : Int)
  let r := n % (d : Int)
  if 2 * r < d then q else if 2 * r > d then q + 1 else if q % 2 = 0 then q else q + 1

/-- An integer limited to lo .. hi. -/
def clampI (lo hi x : Int) : Int := max lo (min hi x)

/-- The quotient rounded up. -/
def cdiv (a b : Nat) : Nat := (a + b - 1) / b

/-- A count limited to m. -/
def satAdd (m a b : Nat) : Nat := min m (a + b)

/-- The base-2 logarithm, for a power of two. -/
def lg2 (n : Nat) : Nat := Nat.log2 n

/-- Element i of a list, or d. -/
def nthD {α : Type} (l : List α) (i : Nat) (d : α) : α := l.getD i d

/-- A list with element i replaced. -/
def setNth {α : Type} (l : List α) (i : Nat) (v : α) : List α := l.set i v

end Sys2Proof.Machine
end

