-- ==== Sys2Proof/Machine/Regs.lean ====
section
/-! DEFINITION. The register map of BAR0 as data: keys, reset values and the staged bits of each register (Tables 13-2 to
13-12 and the field tables of the chapters). -/

namespace Sys2Proof.Machine
open Sys2Proof

/-- The key of instance idx of the register at offset ofs: the channel for the window, the queue for QUE_, the table
entry for FEA_BAND_ and MAP_BIN_, the rule or network object for the two areas beyond BAR0; 0 otherwise. -/
def regKey (ofs idx : Nat) : Nat := ofs * 4096 + idx

/-- Offset within a register block of stride st, for n instances from base b. -/
def inBlock (ofs b st n : Nat) : Bool := b ≤ ofs && ofs < b + st * n

/-- First offset of the rule table's sixteen words (Table 8-3); beyond BAR0, as the table has no window (Table 13-7). -/
def ruleOfs (w : Nat) : Nat := 0x10000 + 4 * w

/-- Word w of the network objects (14), beyond BAR0, by instance: words 0 to 7 are a subscriber's entry (Table 14-2); 8 the module's IPv4
address and 9 to 12 its global IPv6 address (Table 14-1); 15 the number of gate list entries of a port, 16 to 23 those entries,
duration in bits [23:0] and open mask in [30:24] (R472); 24 and 25 the idle slopes of its classes 4 and 5 in Mb/s (R473). The spec
gives these objects but for the subscriber's no layout: DESIGN CHOICE (log 33). -/
def netOfs (w : Nat) : Nat := 0x11000 + 4 * w

/-- Instances of word w of the network objects: 16 subscribers, one module, two ports. -/
def netInst (w : Nat) : Nat := if w < 8 then 16 else if w < 15 then 1 else 2

/-- The bits that word w of the network objects has. -/
def netMask (w : Nat) : Word :=
  if w = 0 then 0xFF0FFFFF
  else if w < 7 then 0xFFFFFFFF
  else if w = 7 then 0x0000FFFF
  else if w < 13 then 0xFFFFFFFF
  else if w < 15 then 0
  else if w = 15 then 0x000000FF
  else if w < 24 then 0x7FFFFFFF
  else if w < 26 then 0x0000FFFF
  else 0

/-- The reset value of a staged register word (Tables 13-3 to 13-12). -/
def resetWord (ofs idx : Nat) : Word :=
  if ofs = 0x1010 then 0x00000004
  else if ofs = 0x1014 then 0x000003E8
  else if ofs = 0x2108 then 0x0BB80BB8
  else if ofs = 0x210C then 0x00000BB8
  else if ofs = 0x2110 then 0x0018043C
  else if ofs = 0x2114 then 0x00000A18
  else if ofs = 0x2118 then 0xFFFF0000
  else if ofs = 0x211C then 0x000001F4
  else if ofs = 0x2120 then 0x00002666
  else if ofs = 0x2128 then 0x0000E000
  else if ofs = 0x2130 then 0x00040000
  else if ofs = 0x2140 then 0x3F800000
  else if ofs = 0x215C then 0x0000005C
  else if ofs = 0x2160 then 0x03E80064
  else if ofs = 0x2168 then 0x3F800000
  else if ofs = 0x2170 then 0xFFFF0000
  else if ofs = 0x3000 then 0x0000000A
  else if ofs = 0x3008 then 0x0000000A
  else if inBlock ofs 0x3100 4 32 then 0x00000040
  else if ofs = 0x5044 then (if idx % 32 = 0 then 0 else 0x7F800000)
  else if inBlock ofs 0x5100 16 16 && ofs % 16 = 4 then 0x447A0000
  else if inBlock ofs 0x5100 16 16 && ofs % 16 = 8 then 0x006407D0
  else if ofs = 0x8004 then (if idx = 255 then 1 else 0)
  else if ofs = 0x8008 then 0x00000100
  else if ofs = 0x8040 then 0x15113334
  else if ofs = 0x8044 then 0x00000076
  else if ofs = 0xB000 then 0x00000010
  else if ofs = 0xD020 then 0x0000C3C8
  else if ofs = 0xE000 then 0x00460001
  else 0

/-- The RWS and RWP bits of the register at an offset, and the bits of a network object's word; 0 where it has none. -/
def rwsMask (ofs : Nat) : Word :=
  if ofs = 0x1010 then 0x0000007F
  else if ofs = 0x1014 then 0x00FFFFFF
  else if ofs = 0x1018 then 0x00007F03
  else if ofs = 0x101C then 0x00000F33
  else if ofs = 0x1020 || ofs = 0x1024 then 0xFFFFFFFF
  else if ofs = 0x2100 then 0x000000FF
  else if ofs = 0x2104 then 0x000077FF
  else if ofs = 0x2108 then 0xFFFFFFFF
  else if ofs = 0x210C then 0x0000FFFF
  else if ofs = 0x2110 then 0x003F1F3F
  else if ofs = 0x2114 then 0xFFFF7F7F
  else if ofs = 0x2118 then 0xFFFFFFFF
  else if ofs = 0x211C then 0x000003FF
  else if ofs = 0x2120 || ofs = 0x2128 then 0x0000FFFF
  else if ofs = 0x2130 then 0x0007FFFF
  else if ofs = 0x2138 then 0x0000000F
  else if ofs = 0x2140 || ofs = 0x2144 then 0xFFFFFFFF
  else if ofs = 0x2148 then 0x0000FF07
  else if ofs = 0x214C then 0x000000FF
  else if ofs = 0x2150 then 0x00003F1F
  else if ofs = 0x2154 then 0x0000FF03
  else if ofs = 0x2158 then 0x000000FF
  else if ofs = 0x215C then 0x0001FFFF
  else if ofs = 0x2160 then 0xFFFFFFFF
  else if ofs = 0x2164 then 0x00007F3F
  else if ofs = 0x2168 then 0xFFFFFFFF
  else if ofs = 0x216C then 0x00FFFFFF
  else if ofs = 0x2170 then 0xFFFFFFFF
  else if ofs = 0x2174 then 0x000001FF
  else if ofs = 0x2178 then 0x0000FF01
  else if ofs = 0x3000 then 0x000003FF
  else if ofs = 0x3008 then 0x000000FF
  else if inBlock ofs 0x3100 4 32 then 0x0000007F
  else if inBlock ofs 0x3180 4 32 then 0x0000000F
  else if inBlock ofs 0x3280 4 32 then 0x00000003
  else if ofs = 0x4004 then 0x000000FF
  else if ofs = 0x4008 || ofs = 0x400C then 0xFFFFFFFF
  else if ofs = 0x5000 then 0x0000FF01
  else if ofs = 0x5044 || ofs = 0x5048 then 0xFFFFFFFF
  else if inBlock ofs 0x5100 16 16 then
    (if ofs % 16 = 0 then 0x0FFFF7FF else if ofs % 16 = 4 || ofs % 16 = 8 then 0xFFFFFFFF else 0)
  else if inBlock ofs 0x6100 32 32 then
    (if ofs % 32 = 0 then 0x0FFFFFFF
     else if ofs % 32 = 4 || ofs % 32 = 8 then 0x81FF81FF
     else if ofs % 32 = 0x0C then 0xFFFFFFFF
     else if ofs % 32 = 0x10 then 0x00FFFFFF else 0)
  else if ofs = 0x7000 then 0x000000FF
  else if ofs = 0x8004 then 0x00000073
  else if ofs = 0x8008 then 0x0001FFFF
  else if ofs = 0x800C then 0x000001FF
  else if ofs = 0x8010 then 0x1FFF1FFF
  else if ofs = 0x8040 then 0x77777777
  else if ofs = 0x8044 then 0x00000777
  else if ofs = 0xA038 then 0x0000FF01
  else if inBlock ofs 0xA100 16 16 && ofs % 16 = 8 then 0x01FF0000
  else if ofs = 0xB000 then 0x000000FF
  else if ofs = 0xD020 then 0x0000FFFF
  else if ofs = 0xE000 then 0x00FF0113
  else if ofs = 0xF000 then 0x00007F01
  else if inBlock ofs 0x11000 4 26 then netMask ((ofs - 0x11000) / 4)
  else 0

/-- The offsets of the RWP value words (R11). -/
def isRwp (ofs : Nat) : Bool := ofs == 0x2120 || ofs == 0x2128 || ofs == 0x2130 || ofs == 0x3000

/-- The channel window (13). -/
def inWindow (ofs : Nat) : Bool := 0x2100 ≤ ofs && ofs < 0x2200

/-- The registers that QUE_SEL addresses. -/
def perQueue (ofs : Nat) : Bool := ofs == 0x8004 || ofs == 0x8008 || ofs == 0x800C || ofs == 0x8010

/-- The 64-bit RW and RWS registers, by the offset of their low half (R445). -/
def is64W (ofs : Nat) : Bool :=
  ofs == 0x1020 || ofs == 0xA000 || ofs == 0xA010 || ofs == 0xA020 || ofs == 0xA030 ||
  (inBlock ofs 0xA100 16 16 && ofs % 16 == 0)

/-- Every 64-bit register of the map, by the offset of its low half (R159). -/
def is64 (ofs : Nat) : Bool :=
  is64W ofs || ofs == 0x10 || ofs == 0x1000 || ofs == 0x1030 || ofs == 0x2194 || ofs == 0x21A0 || ofs == 0x21A8 ||
  ofs == 0x21B0 || ofs == 0x5018 || ofs == 0x5020 || ofs == 0xB010 || ofs == 0xD000

/-- The value of a staged register word in a configuration table. -/
def conf (t : Tab Word) (ofs idx : Nat) : Word := tget (resetWord ofs idx) t (regKey ofs idx)

/-- A field of a register in a configuration table. -/
def confF (t : Tab Word) (ofs idx lo w : Nat) : Nat := fld (conf t ofs idx) lo w

/-- A configuration table with the staged bits of one register word replaced. -/
def confPut (t : Tab Word) (ofs idx : Nat) (v : Word) : Tab Word := tput t (regKey ofs idx) v

/-- Changes only the bits of mask m. -/
def maskIn (old v m : Word) : Word := (old &&& ~~~m) ||| (v &&& m)

end Sys2Proof.Machine
end

