-- ==== Sys2Proof/Machine/State.lean ====
section
/-! DEFINITION. The state of the module, everything the spec gives it, as plain data, and the state right after reset. -/

namespace Sys2Proof.Machine
open Sys2Proof

/-- What the module sends out, newest first in the outbox. -/
inductive Output where
  /-- A posted write to host memory, or to the management processor's SRAM in autonomous mode. -/
  | hostWrite (addr : DWord) (bytes : List Byte)
  /-- An MSI-X message (Table 12-5). -/
  | msix (vector : Nat)
  /-- The data of a register read. -/
  | readData (path : Path) (v : DWord)
  /-- Unsupported Request (R405). -/
  | unsupported (path : Path)
  /-- A normal frame sent down both links of a frond (Table 10-2). -/
  | down (f : Nat) (fid : Byte) (bytes : List Byte)
  /-- An order frame sent down both links: K character, payload, CRC (R335). -/
  | order (f : Nat) (k payload : Byte) (crc : Half)
  /-- A frame a frond sends up both links, with the flags of its four positions and of its samples in order (log 11). -/
  | up (f : Nat) (bytes : List Byte) (flags : List Nat)
  /-- A UDP datagram of a subscriber on a port: destination, UDP checksum, payload, and the port address of the SCI with the packet number
  that protect it (R463, R468, R478). -/
  | datagram (sub port : Nat) (dest : GramDest) (sum : Nat) (payload : List Byte) (sec : Option (List Byte × Nat))
  /-- An Ethernet frame the switch sends on a port: 0 and 1 outside, 2 the module itself. -/
  | forward (port : Nat) (frame : List Byte)
  /-- A response of the management channel. -/
  | reply (session : Nat) (bytes : List Byte)
  /-- The channels that the completion of an applied COMMIT lists, whose open-wire currents it has disabled (R91). -/
  | openWireOff (id : Nat) (chans : List Nat)
  /-- A half-word consumed on LSP_D, with LSP_LAST (R441). -/
  | half (v : Half) (last : Bool)
  deriving DecidableEq, Repr

/-- Why the module would stop in this model. No meaning raises one: every row has an effect the spec gives. -/
inductive Fault where
  /-- Reserved for a command whose operands name no object of the module; raised by nothing, safe. -/
  | noObject
  deriving DecidableEq, Repr

/-- Why a command has no meaning. -/
inductive Refusal where
  /-- The command of this mnemonic is not modelled; raised by an arm of exec, safe. -/
  | notModelled (mnemonic : String)
  deriving DecidableEq, Repr

/-- The module. -/
structure State where
  /-- Commands that wait, first in, first out. -/
  pending : List Instr := []
  /-- What the module has sent, newest first. -/
  outbox : List Output := []
  /-- Where the module is between no power and running (15, 17). -/
  phase : Phase := .reset
  /-- Autonomous mode (R49, R438). -/
  auto : Bool := false
  /-- Tick counter, epoch, oscillators, time state, sync pins, check-ins (01, 09). -/
  tm : TimeUnit := {}
  /-- The staged configuration, by word (01). -/
  staged : Tab Word := []
  /-- The configuration in force, by word (01). -/
  cfg : Tab Word := []
  /-- The PCIe path: channel select, 64-bit halves, peek index (12, 13). -/
  pcie : PathRegs := {}
  /-- The same of the management processor's path. -/
  mp : PathRegs := {}
  /-- Value words of paired registers that wait for their complements (13). -/
  rwp : List RwpPend := []
  /-- ID_SCRATCH (13). -/
  scratch : Word := 0
  /-- ID_WRSTAT LOCKED_WR, sticky (13). -/
  lockedWr : Bool := false
  /-- ID_WRSTAT ORPHAN, sticky. -/
  orphan : Bool := false
  /-- ID_WRSTAT OFS. -/
  wrOfs : Half := 0
  /-- ID_RDSTAT TORN, sticky (R161, R162). -/
  torn : Bool := false
  /-- ID_RDSTAT OFS. -/
  tornOfs : Half := 0
  /-- The queues, by number (11). -/
  queues : Tab Queue := []
  /-- Reserved DRAM bytes left in this 250 µs step (R30, R361). -/
  reserve : Nat := 240000
  /-- The 19 rings, by number (12). -/
  rings : Tab Ring := []
  /-- The alive value the next descriptor must carry (R394). -/
  expAlive : Byte := 1
  /-- The alive value of the last accepted descriptor (R394). -/
  lastAlive : Option Byte := none
  /-- Executed descriptors whose completion waits, oldest first. -/
  outs : List Outstanding := []
  /-- The model's own number for the next such descriptor. -/
  nextId : Nat := 0
  /-- The status block's base (12). -/
  stsBase : DWord := 0
  /-- The tick vector is enabled (12). -/
  tickIrq : Bool := false
  /-- The exponent of its divider. -/
  tickDiv : Nat := 0
  /-- A doorbell was rejected, sticky (R409). -/
  dberr : Bool := false
  /-- The offset of that doorbell. -/
  dbOfs : Nat := 0
  /-- Bus Master Enable (R406). -/
  bme : Bool := false
  /-- The unmasked MSI-X vectors, by bit. -/
  msix : Nat := 0
  /-- The MSI-X pending bits: messages that wait behind their mask (R402). -/
  pba : Nat := 0
  /-- Base address registers and MSI-X table (R402). -/
  ep : Endpoint := {}
  /-- The check-value units (11). -/
  cvu : Tab Cvu := []
  /-- The stream port's FIFO, pointers and synchronisers (R387, R441). -/
  lsp : StreamPort := {}
  /-- The active fault sources and frond causes (15). -/
  srcs : Tab Src := []
  /-- The fault latch (R495). -/
  latch : Option Latch := none
  /-- The latch's sequence number. -/
  latchSeq : Nat := 0
  /-- The latch's OVERFLOW. -/
  overflow : Bool := false
  /-- FLT_COUNT. -/
  fltCount : Nat := 0
  /-- The reaction shadows, by frond (R497 to R500). -/
  shadows : Tab Shadow := []
  /-- Sources of class NOTE and below that this period has recorded (Table 15-2). -/
  noted : List Nat := []
  /-- The level of ALIVE (17). -/
  alive : Bool := false
  /-- The pending commit (09). -/
  pend : Option Pending := none
  /-- What the core holds of each frond and its two links (10). -/
  fronds : Tab CFrond := []
  /-- The fronds themselves, by number (02 to 05, 10). -/
  field : Tab Frond := []
  /-- The core's side of the channels, by number (04, 05). -/
  chans : Tab CChan := []
  /-- The signal pairs found bad (R487). -/
  badPaths : List (Nat × Nat × Nat × Nat) := []
  /-- A period boundary that has been reached and not yet taken: its last tick and epoch (R40). -/
  boundary : Option (TickNo × Half) := none
  /-- SNAP descriptors under way (12). -/
  snaps : List SnapReq := []
  /-- The tick's TICK_SUMMARY is out (11). -/
  sumDone : Bool := true
  /-- The summary's body as it stands. -/
  sumSnap : List Byte := []
  /-- Its epoch. -/
  sumEpoch : Half := 0
  /-- The body of the next one. -/
  sumNext : List Byte := []
  /-- The epoch of the next one. -/
  sumNextEp : Half := 0
  /-- The tick and epoch of the period that the boundary ends. -/
  latNow : Option (TickNo × Half) := none
  /-- Frond counts since reset to the present tick's edge. -/
  abs : Nat := 0
  /-- The same of the tick before. -/
  absPrev : Nat := 0
  /-- The plans of the feature engine, by channel (06). -/
  plans : Tab Plan := []
  /-- Blocks that wait for their features (06). -/
  blocks : List Blk := []
  /-- Features that have been computed. -/
  feats : List Feats := []
  /-- The feature engine's slice of this tick has run (01). -/
  sliceRun : Bool := true
  /-- The speed references (R236). -/
  refs : Tab SpdRef := []
  /-- The condition map (07). -/
  map : MapUnit := {}
  /-- The capture rings (08). -/
  caps : Tab CapRing := []
  /-- The alarm rules (08). -/
  rules : Tab RuleSt := []
  /-- RUL_EVAL (08). -/
  rulEval : Nat := 0
  /-- What has been written since the last accepted commit. -/
  wrSince : List Nat := []
  /-- Temperature, supplies, auxiliary power, PCIe link, start-up (17). -/
  pwr : Power := {}
  /-- The results of the last budget check (01). -/
  bud : Budget := {}
  /-- The security subsystem (16). -/
  sec : Sec := {}
  /-- Ports, switch, publishers, management sessions (14). -/
  net : Net := {}
  /-- MAP_READ transfers under way (R271). -/
  xfers : List MapXfer := []
  deriving DecidableEq, Repr

/-- The module in reset with VLOG valid, before boot start: every register at its reset value, nothing staged, no key installed, the
fronds without power. -/
def State.reset : State := { pwr := { valid := true } }

end Sys2Proof.Machine
end

