-- ==== Sys2Proof/Machine/Ops.lean ====
section
/-! DEFINITION. The named operations over State that every family uses. -/

namespace Sys2Proof.Machine
open Sys2Proof

/-- Sends o. -/
def outp (o : Output) (s : State) : State := { s with outbox := o :: s.outbox }

/-- The staged value of a register word. -/
def stg (s : State) (ofs idx : Nat) : Word := conf s.staged ofs idx

/-- The core's state for frond f. -/
def frond (s : State) (f : Nat) : CFrond := tget {} s.fronds f

/-- Changes the core's state for frond f. -/
def modFrond (f : Nat) (g : CFrond → CFrond) (s : State) : State := { s with fronds := tmod {} s.fronds f g }

/-- The frond whose epoch governs a register word: the channel's for the window, frond f for FRD_VS_CFGf and FRD_REFf (R325). -/
def ofFrond (ofs idx : Nat) : Option Nat :=
  if inWindow ofs then some (idx / 16)
  else if inBlock ofs 0x3180 4 32 then some ((ofs - 0x3180) / 4)
  else if inBlock ofs 0x3280 4 32 then some ((ofs - 0x3280) / 4)
  else none

/-- Word k of a configuration is an item of frond f: its own words, and the module's that every frond holds, TICK_STEPS, FRD_WD and
FRD_DIAG_CFG (Table 9-7, R568). -/
def itemOf (f k : Nat) : Bool :=
  let ofs := k / 4096
  ofFrond ofs (k % 4096) == some f || ofs == 0x1010 || ofs == 0x3000 || ofs == 0x3008

/-- A configuration with frond f's items as in `own` and every other word as in `now`; of ID_CFG the item is FIDDLEHEAD, bit 4 (R325,
R568). -/
def mixCfg (f : Nat) (own now : Tab Word) : Tab Word :=
  let t := own.foldl (fun t e => if itemOf f e.1 then tput t e.1 e.2 else t) (tfilter now (fun k _ => !itemOf f k))
  let w := maskIn (conf now 0xE000 0) (conf own 0xE000 0) 0x10
  if w = conf now 0xE000 0 then t else confPut t 0xE000 0 w

/-- The configuration in force for a register word: the old one while its frond is late or excluded (R325). -/
def cfgOf (s : State) (ofs idx : Nat) : Tab Word :=
  match ofFrond ofs idx with
  | some f => (frond s f).hold.getD s.cfg
  | none => s.cfg

/-- The value in force of a register word (R450). -/
def frc (s : State) (ofs idx : Nat) : Word := conf (cfgOf s ofs idx) ofs idx

/-- A field in force. -/
def frcF (s : State) (ofs idx lo w : Nat) : Nat := fld (frc s ofs idx) lo w

/-- The module does its work: firmware started, and not yet stopped by a HALT, which lets queue 255 drain first (R491, R563). -/
def running (s : State) : Bool := s.phase == .running || s.phase == .draining

/-- TICK_STEPS in force, at least 1 (R21). -/
def steps (s : State) : Nat := max 1 (frcF s 0x1010 0 0 7)

/-- The epoch of a frond's records (R327). -/
def epochOf (s : State) (f : Option Nat) : Half :=
  match f with
  | some f => (frond s f).epoch
  | none => s.tm.epoch

/-- The 32 fronds. -/
def allFronds : List Nat := List.range 32

/-- The 512 channels. -/
def allChans : List Nat := List.range 512

/-- A bitmap with a bit for each element of a list. -/
def mask (l : List Nat) : Nat := l.foldl (fun m i => m ||| 2 ^ i) 0

/-- The elements below n whose bit is set. -/
def bits (n m : Nat) : List Nat := (List.range n).filter (fun i => m.testBit i)

/-- An MSI-X message, when Bus Master Enable is 1 and the vector is enabled and unmasked (R406); behind its mask it is pending (PRESUMED
from PCIe, log 82). -/
def msi (v : Nat) (s : State) : State :=
  if s.bme && s.msix.testBit v && !s.auto then outp (.msix v) s
  else if s.bme && !s.auto then { s with pba := s.pba ||| 2 ^ v } else s

/-- TCK_COUNT as a number. -/
def now (s : State) : Nat := s.tm.count.toNat

/-- A channel on the core's side. -/
def chan (s : State) (ch : Nat) : CChan := tget {} s.chans ch

/-- Changes a channel on the core's side. -/
def modCChan (ch : Nat) (g : CChan → CChan) (s : State) : State := { s with chans := tmod {} s.chans ch g }

/-- The plan state of a channel. -/
def plan (s : State) (ch : Nat) : Plan := tget {} s.plans ch

/-- The number the counter takes at the next edge (R22, R304): 0 at tick edge 0 (R563); renumbering waits while a commit is
pending. -/
def nextTick (s : State) : TickNo :=
  if !s.tm.started then 0
  else if s.pend.isSome then s.tm.count + 1
  else (s.tm.jump.map (BitVec.ofNat 48)).getD (s.tm.count + 1)

end Sys2Proof.Machine
end

