-- ==== Sys2Proof/Machine/Queues.lean ====
section
/-! DEFINITION. The queue engine: allotments, spill, priorities, discards, watermarks, flush (11). -/

namespace Sys2Proof.Machine
open Sys2Proof

/-- A queue. -/
def queue (s : State) (q : Nat) : Queue := tget {} s.queues q

/-- EGRESS in force (R416 fixes queue 255 at 1). -/
def egress (s : State) (q : Nat) : Nat := frcF s 0x8004 q 0 2

/-- The level of a record type (R367). -/
def level (s : State) (typ : Byte) : Nat :=
  let a := frc s 0x8040 0
  let b := frc s 0x8044 0
  match typ.toNat with
  | 0x01 => fld a 0 3
  | 0x02 => fld a 4 3
  | 0x03 => fld a 8 3
  | 0x10 => fld a 12 3
  | 0x11 => fld a 16 3
  | 0x12 => fld a 20 3
  | 0x20 => fld a 24 3
  | 0x30 => fld a 28 3
  | 0x40 => fld b 0 3
  | 0x41 => fld b 4 3
  | _ => fld b 8 3

/-- The record type of a packet. -/
def ptype (p : Packet) : Byte := ((p.cells.head?).map (·.typ)).getD 0x7F

/-- Cells of a packet list. -/
def cellsIn (l : List Packet) : Nat := l.foldl (fun n p => n + p.cells.length) 0

/-- Cells in spill of a packet list. -/
def spillIn (l : List Packet) : Nat := l.foldl (fun n p => n + p.spill) 0

/-- All packets of a queue, the one in delivery first. -/
def allPkts (x : Queue) : List Packet := x.cur.toList ++ x.pkts

/-- FILL: cells in SRAM and spill (11). A packet enters a queue whole, so no cell of it stays reserved between two commands. -/
def qfill (x : Queue) : Nat := cellsIn (allPkts x)

/-- Cells held in spill. -/
def qspill (x : Queue) : Nat := spillIn (allPkts x)

/-- Cells held in SRAM. -/
def qsram (x : Queue) : Nat := qfill x - qspill x

/-- LIMIT in force. -/
def qlimit (s : State) (q : Nat) : Nat := frcF s 0x8008 q 0 17

/-- The SRAM allotment that a queue has: LIMIT but for the cells still held by others (R359, R374). -/
def qallot (s : State) (q : Nat) (x : Queue) : Nat := qlimit s q - x.owe

/-- The spill allotment in force, in cells (R360). -/
def qspillCap (s : State) (q : Nat) : Nat := if frcF s 0x8004 q 6 1 = 1 then frcF s 0x800C q 0 9 * 1024 else 0

/-- The capacity of a queue. -/
def qcap (s : State) (q : Nat) : Nat := qlimit s q + qspillCap s q

/-- Free room for a new packet: the free SRAM cells while spill holds none, and the free spill cells that the reserve of the step,
`res` bytes, can still fill at 64 bytes each (R361, R362, R371). -/
def qroom (s : State) (q res : Nat) (x : Queue) : Nat :=
  (if qspill x = 0 then qallot s q x - qsram x else 0) + min (qspillCap s q - qspill x) (res / 64)

/-- QUE_POOL USED: SRAM cells of all queues. -/
def poolUsed (s : State) : Nat := s.queues.foldl (fun n e => n + qsram e.2) 0

/-- A watermark state at a fill of n cells under the HI and LO of queue q (R376). -/
def wmAt (s : State) (q n : Nat) (old : Bool) : Bool :=
  let hi := frcF s 0x8010 q 0 13 * 64
  let lo := frcF s 0x8010 q 16 13 * 64
  if hi ≤ n && 0 < n then true else if n ≤ lo then false else old

/-- Half-words of the stream-port FIFO as the core sees them, by the synchronised read pointer (R390). -/
def lspFill (s : State) : Nat := (s.lsp.wr + 2048 - s.lsp.rd2) % 2048

/-- The watermark states after a change of fill: WM, and LSP_AFULL as the core computes it for the stream-port queue, whose fill
counts with the FIFO occupancy (R376, R390). -/
def wmUpd (s : State) (q : Nat) (x : Queue) : Queue :=
  { x with wm := wmAt s q (qfill x) x.wm,
           afull := egress s q == 2 && wmAt s q (qfill x + cdiv (lspFill s) 32) x.afull }

/-- Cells a to b of a packet move between SRAM and spill, as moves n and following of queue q: a word that fails on the way gets a poison
mark (R382, R383). -/
def moveCells (q n a b : Nat) (l : List Cell) : List Cell :=
  if b ≤ a then l
  else (l.zipIdx).map (fun e =>
    if a ≤ e.2 ∧ e.2 < b then { e.1 with poison := e.1.poison ||| Config.spillFault q (n + (e.2 - a)) } else e.1)

/-- Moves the oldest spilled cells of queue q back while SRAM cells and reserve last, from move `at_` on; answers packets and cells moved
(R361, R362, R383). -/
def unspillList (q : Nat) : Nat → List Packet → Nat → List Packet × Nat
  | _, [], _ => ([], 0)
  | at_, p :: r, n =>
    let k := min n p.spill
    let (r2, m) := unspillList q (at_ + k) r (n - k)
    let o := p.cells.length - p.spill
    ({ p with spill := p.spill - k, cells := moveCells q at_ o (o + k) p.cells } :: r2, k + m)

/-- The engine's work after any change of a queue's fill: spilled cells move back while the reserve lasts, then the watermark
(R361, R362, R376). Answers the queue and the reserve left. -/
def engine (s : State) (q res : Nat) (x : Queue) : Queue × Nat :=
  let n := min (qallot s q x - qsram x) (res / 64)
  let (cur, m1) := unspillList q x.moves x.cur.toList n
  let (pk, m2) := unspillList q (x.moves + m1) x.pkts (n - m1)
  (wmUpd s q { x with cur := cur.head?, pkts := pk, moves := x.moves + (m1 + m2) }, res - 64 * (m1 + m2))

/-- A queue is stored after the engine's work on it. -/
def storeQueue (q : Nat) (x : Queue) (s : State) : State :=
  let (y, res) := engine s q s.reserve x
  { s with queues := tput s.queues q y, reserve := res }

/-- Cells that a queue holds above its LIMIT. -/
def qexcess (s : State) (q : Nat) (x : Queue) : Nat := qsram x - qlimit s q

/-- Owed cells go to queues in ascending order as long as more are owed than are held above a LIMIT: n are to be given (R374). -/
def giveOwed : List Nat → Nat → State → State
  | [], _, s => s
  | q :: r, n, s =>
    let x := queue s q
    let k := min n x.owe
    giveOwed r (n - k) (if k = 0 then s else storeQueue q { x with owe := x.owe - k } s)

/-- The queues whose LIMIT has risen receive the cells that others have freed (R374). -/
def releaseOwed (s : State) : State :=
  let owed := s.queues.foldl (fun n e => n + e.2.owe) 0
  if owed = 0 then s else giveOwed (s.queues.map (·.1)) (owed - s.queues.foldl (fun n e => n + qexcess s e.1 e.2) 0) s

/-- After any change of a queue: the engine's work on it, and what the change frees for others. -/
def settle (q : Nat) (s : State) : State := releaseOwed (storeQueue q (queue s q) s)

/-- The place of the packet to discard next: the oldest of the lowest level; the oldest where EGRESS is 2 (R371). -/
def victim (s : State) (q : Nat) (l : List Packet) : Option Nat :=
  if l = [] then none
  else if egress s q = 2 then some 0
  else
    let lo := l.foldl (fun m p => min m (level s (ptype p))) 7
    l.findIdx? (fun p => level s (ptype p) == lo)

/-- LOST after n more discards; it saturates (QUE_LOST). -/
def addLost (n : Nat) (x : Queue) : Queue := { x with lost := satAdd 0xFFFFFFFF x.lost n }

/-- Discards eligible packets until a room of n is reached; none when that cannot be. Each discard changes the fill, so the engine
works after it (R371, R372, R376). Answers the queue and the reserve left. -/
def makeRoom (s : State) (q n : Nat) : Nat → Queue × Nat → Option (Queue × Nat)
  | 0, (x, res) => if n ≤ qroom s q res x then some (x, res) else none
  | k + 1, (x, res) =>
    if n ≤ qroom s q res x then some (x, res)
    else match victim s q x.pkts with
      | none => none
      | some i => makeRoom s q n k (engine s q res (addLost 1 { x with pkts := x.pkts.eraseIdx i }))

/-- The parity bits of the eight words of a cell's 64 bytes, odd where a word has an odd number of ones (R363). -/
def parityOf (b : List Byte) : Byte :=
  BitVec.ofNat 8 (mask ((List.range 8).filter (fun i => ((bits 64 (getLE b (8 * i) 8)).length % 2 == 1))))

/-- The 64 bytes of a cell as the engine writes them: header and body, with zeros where an egress adds alive counter, queue number
and CRC (Table 12-15, R391). -/
def cellBytes (c : Cell) : List Byte :=
  [c.typ, 0] ++ le 2 c.source.toNat ++ le 2 c.epoch.toNat ++ le 6 c.tick.toNat ++ le 2 c.flags.toNat ++
    [0, BitVec.ofNat 8 (b2n c.first + 2 * b2n c.last)] ++ padTo 48 (padTo 44 c.body)

/-- Marks the first and last cell of a packet and writes the parity of every word (Table 12-15, R363, R382). -/
def marked (cells : List Cell) : List Cell :=
  (cells.zipIdx).map (fun e =>
    let c := { e.1 with first := e.2 == 0, last := e.2 + 1 == cells.length }
    { c with par := parityOf (cellBytes c) })

/-- A packet of n cells finds room in queue q, if need be by discards (R372). -/
def enters (q n : Nat) (s : State) : Bool := (makeRoom s q n (queue s q).pkts.length (queue s q, s.reserve)).isSome

/-- A producer's packet enters queue q: room is made or the packet is discarded, its cells go to SRAM or spill, and it
arrives (R361, R364, R371, R372, R383). -/
def enqueue (q : Nat) (cells : List Cell) (s : State) : State :=
  let x := queue s q
  let n := cells.length
  match makeRoom s q n x.pkts.length (x, s.reserve) with
  | none => { s with queues := tput s.queues q (addLost 1 x) }
  | some (y, res) =>
    let sp := if qspill y = 0 then n - (qallot s q y - qsram y) else n
    let l := moveCells q y.moves (n - sp) n (marked cells)
    settle q { s with queues := tput s.queues q { y with pkts := y.pkts ++ [⟨l, sp, true⟩], moves := y.moves + sp }, reserve := res - 64 * sp }

/-- One record as a packet of one cell. -/
def emit (q : Nat) (c : Cell) (s : State) : State := enqueue q [c] s

/-- Discards down to capacity when an epoch lowers it; each changes the fill, after which the watermark is evaluated (R374, R376). -/
def trimQueue (s : State) (q : Nat) : Nat → Queue → Queue
  | 0, x => x
  | k + 1, x =>
    if qfill x ≤ qcap s q then x
    else match victim s q x.pkts with
      | none => x
      | some i => trimQueue s q k (wmUpd s q (addLost 1 { x with pkts := x.pkts.eraseIdx i }))

/-- R374 for every queue at the epoch edge, whose old configuration is `old`: those above their capacity discard; a raised LIMIT
is owed until the cells that others hold above theirs are freed. -/
def trimAll (old : Tab Word) (s : State) : State :=
  let s := (List.range 256).foldl (fun s q =>
    let up := qlimit s q - confF old 0x8008 q 0 17
    let x := queue s q
    if up = 0 && x == {} then s
    else { s with queues := tput s.queues q (trimQueue s q x.pkts.length { x with owe := min (qlimit s q) (x.owe + up) }) }) s
  releaseOwed (s.queues.foldl (fun s e => storeQueue e.1 e.2 s) s)

/-! ## Packets that arrive together (R365) -/

/-- The place of a packet's producer in the order of R365: collector, rules, tick and time unit, map, feature engine, capture, channel
fan-out. An EVENT of kind 1 is the rule engine's, any other the tick and time unit's, as are TICK_SUMMARY and FILLER (R434, R437). -/
def producer (p : Packet) : Nat :=
  match p.cells.head? with
  | none => 7
  | some c =>
    let t := c.typ.toNat
    if t = 0x41 then 0
    else if t = 0x40 then (if nthD c.body 0 0 = 1 then 1 else 2)
    else if t = 0x01 ∨ t = 0x7F then 2 else if t = 0x20 then 3 else if t = 0x10 ∨ t = 0x11 ∨ t = 0x12 then 4 else if t = 0x30 then 5
    else if t = 0x02 ∨ t = 0x03 then 6 else 7

/-- A packet put behind those of its own and of earlier producers. -/
def insertPkt (p : Packet) : List Packet → List Packet
  | [] => [p]
  | c :: r => if producer p < producer c then p :: c :: r else c :: insertPkt p r

/-- n spilled cells of queue q are the newest of a list, given newest first; the marks of new packets follow the cells that so went into
spill, from move `at_` on. -/
def respill (q : Nat) : Nat → List Packet → Nat → List Packet
  | _, [], _ => []
  | at_, p :: r, n =>
    let k := min p.cells.length n
    let l := if p.fresh then moveCells q at_ (p.cells.length - k) p.cells.length (p.cells.map (fun c => { c with poison := 0 })) else p.cells
    { p with spill := k, cells := l } :: respill q (at_ + k) r (n - p.cells.length)

/-- The packets that have arrived in this command stand in producer order behind the older ones; the cells in spill are the newest of
the sequence again (R361, R365). -/
def orderArrived (q : Nat) (x : Queue) : Queue :=
  let new := x.pkts.filter (·.fresh)
  if new.length < 2 then x
  else
    let l := x.pkts.filter (fun p => !p.fresh) ++ new.foldl (fun a p => insertPkt p a) []
    { x with pkts := (respill q x.moves l.reverse (spillIn x.pkts)).reverse, moves := x.moves + spillIn x.pkts }

/-- A command whose end marks count as those of one cycle: its packets arrive in producer order (R365). -/
def inOneCycle (f : State → State) (s : State) : State :=
  let old := { s with queues := tmap s.queues (fun _ x => { x with pkts := x.pkts.map (fun p => { p with fresh := false }) }) }
  let t := f old
  { t with queues := tmap t.queues orderArrived }

/-- The next cell queue q delivers: of the packet in delivery, or of the oldest packet of the highest level with a cell in
SRAM; strict arrival order where EGRESS is 2 (R361, R368, R369). Answers the cell and the queue after it. -/
def nextCell (s : State) (q : Nat) (x : Queue) : Option (Cell × Queue) :=
  match x.cur with
  | some p =>
    if p.spill < p.cells.length then
      match p.cells with
      | c :: [] => some (c, { x with cur := none })
      | c :: r => some (c, { x with cur := some { p with cells := r } })
      | [] => none
    else none
  | none =>
    if x.flush ≠ [] then none
    else
      let ok := fun (p : Packet) => decide (p.spill < p.cells.length)
      let hi := x.pkts.foldl (fun m p => if ok p then max m (level s (ptype p)) else m) 0
      match x.pkts.findIdx? (fun p => ok p && (egress s q == 2 || level s (ptype p) == hi)) with
      | none => none
      | some i =>
        match x.pkts[i]? with
        | some p =>
          match p.cells with
          | c :: [] => some (c, { x with pkts := x.pkts.eraseIdx i })
          | c :: r => some (c, { x with cur := some { p with cells := r }, pkts := x.pkts.eraseIdx i })
          | [] => none
        | none => none

/-- What memory does to a delivered cell: masks on the bytes it reads as, by place; place 64 + i is the parity bit of word i (R382). -/
abbrev Bad := Option (List (Nat × Byte))

/-- The bytes of a cell with masks on them. -/
def masked (l : List (Nat × Byte)) (b : List Byte) : List Byte :=
  l.foldl (fun (b : List Byte) e => if e.1 < 60 then setNth b e.1 (nthD b e.1 0 ^^^ e.2) else b) b

/-- A word of a delivered cell fails its parity check, or carries a poison mark from spill (R382, R383). -/
def poisoned (c : Cell) (bad : Bad) : Bool :=
  c.poison != 0 ||
  (match bad with
   | none => false
   | some l =>
     parityOf (masked l (cellBytes c)) != c.par ^^^ BitVec.ofNat 8 (mask ((l.filter (fun e => decide (64 ≤ e.1))).map (fun e => e.1 - 64))))

/-- The first 60 bytes of a record: the cell as its queue memory gives it, then the alive counter, queue number and POISON of the egress
(Table 12-15, R382, R391). -/
def recordBody (q : Nat) (alive : Byte) (c : Cell) (bad : Bad) : List Byte :=
  let b := (masked (bad.getD []) (cellBytes c)).take 60
  let b := setNth (setNth b 1 alive) 14 (BitVec.ofNat 8 q)
  if poisoned c bad then setNth b 12 (nthD b 12 0 ||| 16) else b

/-- The 64 bytes of a record as an egress delivers it. -/
def recordBytes (q : Nat) (alive : Byte) (c : Cell) (bad : Bad) : List Byte := withCrc (recordBody q alive c bad)

/-- A FLUSH takes effect: every eligible packet goes, without LOST; answers packets and cells (R379, R380). -/
def flushQueue (q : Nat) (s : State) : State × Nat × Nat :=
  let x := queue s q
  (settle q { s with queues := tput s.queues q { x with pkts := [] } }, x.pkts.length, cellsIn x.pkts)

/-- QUE_PKTS: packets arrived whose last cell is not yet delivered (R366). -/
def qpkts (x : Queue) : Nat := x.pkts.length + x.cur.toList.length

/-- Latches and restarts the lost-packet counters (R40, R375). -/
def latchLost (s : State) : State :=
  { s with queues := tmap s.queues (fun _ x => { x with lostL := x.lost, lost := 0 }) }

/-- FLOW0 (1) or FLOW1 (2) is high: the queue that names it has WM 1 (R377); low before BOOT_DONE and in HALT (R558). -/
def flowPin (s : State) (pin : Nat) : Bool :=
  s.phase == .running && s.queues.any (fun e => e.2.wm && frcF s 0x8004 e.1 4 2 == pin)

end Sys2Proof.Machine
end

