-- ==== Sys2Proof/Machine/Rings.lean ====
section
/-! DEFINITION. Rings, doorbells, status block, interrupt moderation, completions (12). -/

namespace Sys2Proof.Machine
open Sys2Proof

/-- Ring numbers: command, completion, event; RINGn is 3 + n. -/
def cmdRing : Nat := 0
/-- The completion ring. -/
def cplRing : Nat := 1
/-- The event ring. -/
def evtRing : Nat := 2

/-- A ring. -/
def ring (s : State) (r : Nat) : Ring := tget {} s.rings r

/-- Changes a ring. -/
def modRing (r : Nat) (g : Ring → Ring) (s : State) : State := { s with rings := tmod {} s.rings r g }

/-- Entries that a ring holds: (P - C) mod 2^32 (R407). -/
def ringUsed (x : Ring) : Nat := (x.p - x.c).toNat

/-- Entries of a ring. -/
def ringSize (x : Ring) : Nat := 2 ^ x.log2

/-- Any ring is enabled. -/
def anyRing (s : State) : Bool := s.rings.any (fun e => e.2.en)

/-- The status block (Table 12-4). -/
def statusBlock (s : State) : List Byte :=
  withCrc (le 4 (ring s cmdRing).c.toNat ++ le 4 (ring s cplRing).p.toNat ++ le 4 (ring s evtRing).p.toNat ++ le 4 0 ++
    ((List.range 16).map (fun n => le 4 (ring s (3 + n)).p.toNat)).flatten ++
    le 6 s.tm.count.toNat ++ le 2 s.tm.epoch.toNat ++ List.replicate 36 0)

/-- Writes the status block while any ring is enabled; not in autonomous mode (R412, R438). -/
def writeStatus (s : State) : State :=
  if s.auto || !anyRing s then s else outp (.hostWrite s.stsBase (statusBlock s)) s

/-- Counts an entry against the ring's interrupt moderation (R417). -/
def moderate (r : Nat) (s : State) : State :=
  let x := ring s r
  if x.count ≠ 0 ∧ x.unsig + 1 ≥ x.count then msi (r - 1) (modRing r (fun x => { x with unsig := 0 }) s)
  else modRing r (fun x => { x with unsig := x.unsig + 1 }) s

/-- Writes one entry: the entry, the status block with the new P, then the message (R411). -/
def ringWrite (r : Nat) (bytes : List Byte) (s : State) : State :=
  let x := ring s r
  let slot := x.p.toNat % ringSize x
  let s := outp (.hostWrite (x.base + BitVec.ofNat 64 (slot * bytes.length)) bytes) s
  moderate r (writeStatus (modRing r (fun x => { x with p := x.p + 1 }) s))

/-- The ring has room for one entry and is enabled (R414). -/
def ringRoom (s : State) (r : Nat) : Bool := (ring s r).en && ringUsed (ring s r) < ringSize (ring s r)

/-- The completion's 32 bytes (Table 12-8). -/
def cplBytes (opcode : Byte) (status : Nat) (didx : Half) (tag : Word) (res : List Byte) : List Byte :=
  withCrc ([opcode, BitVec.ofNat 8 status] ++ le 2 didx.toNat ++ le 4 tag.toNat ++ padTo 20 res)

/-- A response of the management channel: KIND with bit 15 set, the same SEQ, a status, the result (R482). -/
def replyTo (session kind sq status : Nat) (res : List Byte) (s : State) : State :=
  let b := le 2 (kind + 0x8000) ++ le 2 sq ++ le 1 status ++ res
  outp (.reply session (le 4 b.length ++ b)) s

/-- In autonomous mode the management processor reads the completion and returns it as the result of its DESCRIPTOR request
(R438, R482). -/
def mpCompletion (status : Nat) (didx : Half) (bytes : List Byte) (s : State) : State :=
  if !s.auto then s
  else
    let s := modRing cplRing (fun x => { x with c := x.p }) s
    match s.net.asked.find? (fun e => e.1 == didx.toNat) with
    | none => s
    | some (k, i, q) =>
      replyTo i 4 q status bytes { s with net := { s.net with asked := tfilter s.net.asked (fun j _ => j != k) } }

/-- Writes a completion, or loses it while the completion ring is off or the module has halted (R420). -/
def writeCpl (opcode : Byte) (status : Nat) (didx : Half) (tag : Word) (res : List Byte) (s : State) : State :=
  if (ring s cplRing).en && running s then
    let b := cplBytes opcode status didx tag res
    mpCompletion status didx b (ringWrite cplRing b s)
  else s

/-- Completes each NOP at the front of the waiting descriptors (Table 12-10: when every earlier one has completed). -/
def sweepNops : List Outstanding → State → State
  | [], s => { s with outs := [] }
  | o :: r, s =>
    if o.opcode = 0 then
      sweepNops r (if o.lost then s else writeCpl 0 0 o.didx o.tag [] s)
    else { s with outs := o :: r }

/-- The outstanding descriptor with an id. -/
def outOf (s : State) (id : Nat) : Option Outstanding := s.outs.find? (fun o => o.id == id)

/-- Changes an outstanding descriptor. -/
def modOut (id : Nat) (g : Outstanding → Outstanding) (s : State) : State :=
  { s with outs := s.outs.map (fun o => if o.id = id then g o else o) }

/-- Writes the completion of an outstanding descriptor and forgets it; nothing when it has completed before (R420). -/
def complete (id : Nat) (status : Nat) (res : List Byte) (s : State) : State :=
  match outOf s id with
  | none => s
  | some o =>
    let s := { s with outs := s.outs.filter (fun o => o.id != id) }
    let s := if o.lost then s else writeCpl o.opcode status o.didx o.tag res s
    sweepNops s.outs s

/-- Completes through an optional id. -/
def completeOpt (id : Option Nat) (status : Nat) (res : List Byte) (s : State) : State :=
  match id with
  | some i => complete i status res s
  | none => s

/-- The lowest-numbered enabled record ring that names queue q, where q has EGRESS 1; the event ring for queue 255
(R415, R416). -/
def ringFor (s : State) (q : Nat) : Option Nat :=
  if q = 255 then some evtRing
  else if egress s q ≠ 1 || s.auto then none
  else ((List.range 16).find? (fun n => (ring s (3 + n)).en && frcF s (0xA108 + 16 * n) 0 16 8 == q)).map (· + 3)

/-- A consumer or producer doorbell is accepted (R409). -/
def doorbellOk (producer : Bool) (x : Ring) (v : Word) : Bool :=
  if producer then decide ((v - x.c).toNat ≤ ringSize x) && decide ((v - x.p).toNat ≤ (v - x.c).toNat)
  else decide ((x.p - v).toNat ≤ ringSize x) && decide ((v - x.c).toNat ≤ (x.p - x.c).toNat)

/-- Every ring off, all DMA stopped; descriptors not executed are discarded, work under way writes no completion (R406). -/
def ringsOff (s : State) : State :=
  { s with rings := tmap s.rings (fun _ x => { x with en := false }), outs := s.outs.map (fun o => { o with lost := true }) }

/-- Bus Master Enable is written: cleared, it stops every ring and all DMA (R406). -/
def busMaster (on : Bool) (s : State) : State := if on then { s with bme := true } else { (ringsOff s) with bme := false }

end Sys2Proof.Machine
end

