-- ==== Sys2Proof/Machine/Collector.lean ====
section
/-! DEFINITION. The fault collector: classes, latch, merging, shadows, records, reactions (15). -/

namespace Sys2Proof.Machine
open Sys2Proof

/-- The key of a source: its ID and, below it, the channel of a per-channel source or the cause bit of a frond source. -/
def srcKey (id sub : Nat) : Nat := id * 1024 + sub

/-- The frond a source belongs to (15). -/
def srcFrond (id sub : Nat) : Option Nat :=
  if 0x40 ≤ id && id < 0xC0 then some (id % 32) else if 0xC0 ≤ id then some (sub / 16) else none

/-- The channel field of a source: 0xFFFF for none (Table 12-19). -/
def srcChan (id sub : Nat) : Nat := if 0xC0 ≤ id then sub else 0xFFFF

/-- The class a source counts with: an escalated one counts as SAFE (R488). -/
def effCls (x : Src) : Nat := if x.esc then max 3 x.cls else x.cls

/-- The highest active class (R488). -/
def highest (s : State) : Nat := s.srcs.foldl (fun m e => max m (effCls e.2)) 0

/-- Cause `sub` of frond source id is active: one that FPAIR carries as long as it does, or the source is escalated (R109, R494). -/
def causeActive (s : State) (id sub : Nat) (x : Src) : Bool :=
  decide (sub ≥ 8) || x.esc || (frond s (id % 32)).rep.fpair.getLsbD sub

/-- The class of a source as a whole: that of a frond source is the highest among the causes then active, and cls where none is (R109,
R484). -/
def wholeCls (s : State) (id cls : Nat) : Nat :=
  if 0x80 ≤ id && id < 0xC0 then
    let m := s.srcs.foldl (fun m e => if e.1 / 1024 = id && causeActive s id (e.1 % 1024) e.2 then max m (effCls e.2) else m) 0
    if m = 0 then cls else m
  else cls

/-- A source is active. -/
def srcActive (s : State) (id sub : Nat) : Bool := s.srcs.any (fun e => e.1 == srcKey id sub)

/-- The fronds of a signal path: all for a core line (Table 15-3). -/
def pathFronds (kind f : Nat) : List Nat := if kind = 0 then allFronds else [f % 32]

/-- The fronds in a source's scope (Table 15-3); SIGNAL_PATH has those of every path found bad. -/
def scope (s : State) (id sub : Nat) (ctx : List Byte) : List Nat :=
  if id = 0x08 then (if getLE ctx 3 2 = 0xFFFF then allFronds else [getLE ctx 3 2 / 16 % 32])
  else if id = 0x3F then allFronds.filter (fun f => s.badPaths.any (fun e => (pathFronds e.1 e.2.1).contains f))
  else match srcFrond id sub with
    | some f => if 0x80 ≤ id && id < 0xC0 then [f] else []
    | none => allFronds

/-- The epoch of a fault placed in a tick: a frond's fault that a superframe reports belongs to the epoch of the superframe's tick (R327,
R495). -/
def faultEpoch (s : State) (id sub : Nat) (tick : TickNo) : Half :=
  match srcFrond id sub with
  | some f => if tick = s.tm.prev && tick != s.tm.count then (frond s f).depoch else epochOf s (some f)
  | none => epochOf s none

/-- A FAULT record's cell (Table 12-19). -/
def faultCell (s : State) (id sub cls flags count : Nat) (ctx : List Byte) (tick : TickNo) : Cell :=
  { typ := 0x41, source := BitVec.ofNat 16 id, epoch := faultEpoch s id sub tick, tick := tick, flags := 0,
    body := le 2 id ++ le 2 (srcChan id sub) ++ le 1 cls ++ le 1 flags ++ le 2 count ++ padTo 20 ctx ++ le 4 s.latchSeq }

/-- Emits a FAULT record into queue 255 (R416, R502). -/
def faultRec (id sub cls flags count : Nat) (ctx : List Byte) (tick : TickNo) (s : State) : State :=
  emit 255 (faultCell s id sub cls flags count ctx tick) s

/-- Counts an activation that is not latched (R501). -/
def countFault (s : State) : State := { s with fltCount := satAdd 0xFFFF s.fltCount 1 }

/-- A frond's shadow closes: its MERGED record, when faults merged (R500, R502). -/
def closeShadow (f : Nat) (s : State) : State :=
  match s.shadows.find? (fun e => e.1 == f) with
  | none => s
  | some (_, sh) =>
    match sh.closeAt with
    | none => s
    | some c =>
      let s1 := { s with shadows := tfilter s.shadows (fun j _ => j != f) }
      if sh.merged = 0 then s1
      else
        let (id, sub) := sh.opener.getD (0xA0 + f, 0)
        let ctx := ((s.srcs.find? (fun e => e.1 == srcKey id sub)).map (fun e => e.2.ctx)).getD []
        faultRec id sub (wholeCls s1 id sh.openerCls) 2 sh.merged ctx c s1

/-- Opens or prolongs the reaction shadow of a frond; one whose end an edge has set closes first, with its MERGED record (R498, R502). -/
def openShadow (f : Nat) (tick : TickNo) (opener : Option (Nat × Nat)) (cls : Nat) (s : State) : State :=
  match s.shadows.find? (fun e => e.1 == f) with
  | some (_, sh) =>
    if sh.closeAt = none then { s with shadows := tput s.shadows f { sh with s := if sh.s < tick then tick else sh.s } }
    else
      let s := closeShadow f s
      { s with shadows := tput s.shadows f { s := tick, opener := opener, openerCls := cls } }
  | none => { s with shadows := tput s.shadows f { s := tick, opener := opener, openerCls := cls } }

/-- The shadow that a fault of frond f reported with tick t belongs to (R500). -/
def inShadow (s : State) (f : Option Nat) (t : TickNo) : Option (Nat × Shadow) :=
  match f with
  | none => none
  | some f =>
    match s.shadows.find? (fun e => e.1 == f) with
    | none => none
    | some (_, sh) =>
      if sh.s ≤ t && (match sh.closeAt with | some c => decide (t < c) | none => true) then some (f, sh) else none

/-- The next ALIVE value of the downlink of frond f (R334). -/
def nextDown (s : State) (f : Nat) : Byte := (frond s f).downAlive + 1

/-- Sends an order frame down both links of frond f (R335). -/
def sendOrder (f : Nat) (k payload : Byte) (s : State) : State :=
  let a := nextDown s f
  outp (.order f k payload (crc16 [a, k, payload])) (modFrond f (fun x => { x with downAlive := a }) s)

/-- Sends the SAFE order to frond f and keeps SAFE in its D0; a shadow opens when the frond was not in safe state
(R343, R489, R498). -/
def orderSafe (opener : Option (Nat × Nat)) (cls : Nat) (s : State) (f : Nat) : State :=
  let s1 := sendOrder f 0x7C 0xA5 (modFrond f (fun x => { x with safeOrder := true }) s)
  if (frond s f).rep.safe || (frond s f).safeOrder then s1 else openShadow f s.tm.count opener cls s1

/-- Vector 20 when the highest class reaches SAFE or HALT (Table 12-5). -/
def vector20 (before : Nat) (s : State) : State := if highest s > before && highest s ≥ 3 then msi 20 s else s

/-- The reaction of a class (Table 15-1, R489, R491): SAFE orders to the scope; HALT stops the module after queue 255. -/
def react (id sub cls : Nat) (ctx : List Byte) (s : State) : State :=
  if cls = 3 then
    (scope s id sub ctx).foldl (orderSafe (some (id, sub)) cls) s
  else if cls ≥ 4 then
    let s := allFronds.foldl (orderSafe (some (id, sub)) cls) s
    { s with phase := if s.phase = .running then .draining else if s.phase = .draining then .draining else .halted,
             pwr := { s.pwr with haltLatch := true } }
  else s

/-- The record of an activation (R495 to R497, R502, R503). -/
def recordFault (id sub cls : Nat) (ctx : List Byte) (tick : TickNo) (opener : Bool) (dl : Option TickNo) (s : State) : State :=
  let f := srcFrond id sub
  match (if opener then none else inShadow s f tick) with
  | some (g, sh) => countFault { s with shadows := tput s.shadows g { sh with merged := sh.merged + 1 } }
  | none =>
    let window := match s.latch with
      | some l => (match l.deadline with | some d => decide (s.tm.count < d) | none => false)
      | none => false
    if cls ≤ 2 && window then countFault s
    else if cls ≤ 1 then
      let k := srcKey id (if 0xC0 ≤ id then sub else 0)
      if s.noted.contains k then countFault s
      else faultRec id sub (wholeCls s id cls) 0 s.fltCount ctx tick { s with noted := k :: s.noted }
    else if s.latch = none then
      let s := { s with latchSeq := s.latchSeq + 1,
                        latch := some ⟨id, sub, cls, tick, faultEpoch s id sub tick, padTo 20 ctx, dl⟩ }
      faultRec id sub (wholeCls s id cls) 1 s.fltCount ctx tick s
    else
      let s := countFault { s with overflow := true }
      faultRec id sub (wholeCls s id cls) 4 s.fltCount ctx tick s

/-- A source, or of a frond's supervisor the cause ALIGN_DEGRADED (9), drives a core line of its ID (R485, R486). -/
def onLine (id sub : Nat) : Bool := id != 0x3F && (decide (id < 0x80) || (decide (0xA0 ≤ id) && decide (id < 0xC0) && sub == 9))

/-- The pair of a core source's line has been seen equal for two cycles and not opposite since: the collector keeps the state it
decided last (R487). -/
def lineBad (s : State) (id sub : Nat) : Bool :=
  onLine id sub && s.badPaths.any (fun e => e.1 == 0 && e.2.2.1 == id && e.2.2.2 == 0)

/-- A source or cause becomes active (R484, R488): nothing when it is active already. `atEdge` says that it does so at the
current tick edge, which is then the edge A of R493. -/
def raise (id sub cls : Nat) (event : Bool) (ctx : List Byte) (tick : TickNo) (atEdge opener : Bool) (s : State) : State :=
  if lineBad s id sub then s
  else if srcActive s id sub then { s with srcs := tmap s.srcs (fun k x => if k = srcKey id sub then { x with met := false } else x) }
  else
    let before := highest s
    let a : TickNo := if atEdge then s.tm.count else s.tm.count + 1
    let dl := if cls = 2 then some (a + BitVec.ofNat 48 (frcF s 0xB000 0 0 8)) else none
    let x : Src := { cls := cls, event := event, since := tick, deadline := dl, epoch := faultEpoch s id sub tick, ctx := ctx }
    let s := { s with srcs := tput s.srcs (srcKey id sub) x }
    vector20 before (react id sub cls ctx (recordFault id sub cls ctx tick opener dl s))

/-- A source or cause goes; one of SERVICE or higher leaves a CLEARED record, with the class that its source then has as a whole
(R484, R502). -/
def dropSrc (id sub : Nat) (s : State) : State :=
  match s.srcs.find? (fun e => e.1 == srcKey id sub) with
  | none => s
  | some (k, x) =>
    let s1 := { s with srcs := tfilter s.srcs (fun j _ => j != k) }
    if effCls x ≥ 2 then faultRec id sub (wholeCls s1 id (effCls x)) 16 s.fltCount x.ctx s.tm.count s1 else s1

/-- The condition of a source or cause no longer holds: it becomes inactive, but an escalated one stays until FAULT_CLEAR
(R484, R494). -/
def clearSrc (id sub : Nat) (s : State) : State :=
  match s.srcs.find? (fun e => e.1 == srcKey id sub) with
  | some (k, x) => if lineBad s id sub then s else if x.esc then { s with srcs := tput s.srcs k { x with met := true } } else dropSrc id sub s
  | none => s

/-- A state source follows its condition. -/
def setSrc (on : Bool) (id sub cls : Nat) (ctx : List Byte) (tick : TickNo) (s : State) : State :=
  if on then raise id sub cls false ctx tick false false s else clearSrc id sub s

/-- INTEGRITY, ID 0x08: origin 1 to 5, offset or rule number, channel or 0xFFFF (Table 15-3). -/
def integrity (origin ofs ch : Nat) (s : State) : State :=
  raise 0x08 0 2 true (le 1 origin ++ le 2 ofs ++ le 2 ch) s.tm.count false false s

/-- A NOTE event source with its context. -/
def noteEvent (id : Nat) (ctx : List Byte) (s : State) : State := raise id 0 1 true ctx s.tm.count false false s

/-- At a tick edge the NOTE event sources become inactive (R484). -/
def dropNotes (s : State) : State := { s with srcs := tfilter s.srcs (fun _ x => !(x.event && x.cls == 1)) }

/-- A SERVICE source still active at its deadline escalates (R493). -/
def escalate (id sub : Nat) (s : State) : State :=
  match s.srcs.find? (fun e => e.1 == srcKey id sub) with
  | none => s
  | some (k, x) =>
    match x.deadline with
    | none => s
    | some d =>
      if x.esc || x.cls ≠ 2 || s.tm.count < d then s
      else
        let before := highest s
        let latched := match s.latch with
          | some l => l.id == id && l.sub == sub
          | none => false
        let lt := s.latch.map (fun l => if l.id = id ∧ l.sub = sub then { l with cls := 3 } else l)
        let s1 := { s with srcs := tput s.srcs k { x with esc := true }, latch := lt }
        let s2 := faultRec id sub (wholeCls s1 id 3) (8 + b2n latched) s.fltCount x.ctx d s1
        vector20 before (react id sub 3 x.ctx s2)

/-- Frond f is READY at the current edge (R499). -/
def frondReady (s : State) (f : Nat) : Bool :=
  match (frond s f).hist with
  | a :: b :: c :: d :: _ =>
    a.complete && b.complete && c.complete && d.complete && !a.shutdown &&
    a.cpair == b.cpair && a.cpair == c.cpair && a.cpair == d.cpair
  | _ => false

/-- At edge C each shadow whose frond is READY, or that has lasted 64 ticks, ends (R500). -/
def judgeShadows (s : State) : State :=
  { s with shadows := tmap s.shadows (fun f sh =>
      if sh.closeAt = none && decide (sh.s < s.tm.count) &&
         (frondReady s f || decide (sh.s.toNat + 64 ≤ now s)) then { sh with closeAt := some s.tm.count } else sh) }

/-- An active core source of class SAFE, or an escalated core source, has frond f in its scope (R505). -/
def safeHeld (s : State) (f : Nat) : Bool :=
  s.srcs.any (fun e => effCls e.2 == 3 && (e.1 / 1024 < 0x80) && (scope s (e.1 / 1024) (e.1 % 1024) e.2.ctx).contains f)

/-- IRQ_N is low (R510); released before BOOT_DONE, and in HALT it always is low (R558). -/
def irqLow (s : State) : Bool :=
  s.phase == .halted || s.phase == .draining || (s.phase == .running && (s.latch.isSome || s.srcs.any (fun e => effCls e.2 ≥ 2)))

/-- Ticks to the nearest running deadline (SVC_LEFT). -/
def svcLeft (s : State) : Nat :=
  s.srcs.foldl (fun m e =>
    match e.2.deadline with
    | some d =>
      if !e.2.esc && s.tm.count < d then
        let k := min 255 (d - s.tm.count).toNat
        if m = 0 then k else min m k
      else m
    | none => m) 0

end Sys2Proof.Machine
end

