-- ==== Sys2Proof/Machine/Items.lean ====
section
/-! DEFINITION. The frond-side fields as items: Table 9-7, distributions and the downlink frames D0, D1, D2 (09, 10). -/

namespace Sys2Proof.Machine
open Sys2Proof

/-- A frond-side register word: item address, register offset, instance, and whether the word is a complement. -/
structure ItemRef where
  addr : Nat
  ofs : Nat
  idx : Nat
  compl : Bool
  deriving DecidableEq, Repr

/-- The item address of window offset o (0x2100 to 0x21FF) of position p. -/
def winAddr (p ofs : Nat) : Nat := 0x8000 + 256 * p + ofs % 256

/-- The window registers of Table 9-7; those of RWP pairs are two items. -/
def winItems : List (Nat × Bool) :=
  [(0x2104, false), (0x2108, false), (0x2110, false), (0x2114, false), (0x2118, false), (0x211C, false),
   (0x2120, false), (0x2120, true), (0x2128, false), (0x2128, true), (0x2130, false), (0x2130, true),
   (0x2138, false), (0x2148, false), (0x2150, false)]

/-- The items of frond f (Table 9-7, R568). -/
def itemRefs (f : Nat) : List ItemRef :=
  [⟨0x1010, 0x1010, 0, false⟩, ⟨0xE000, 0xE000, 0, false⟩, ⟨0x3000, 0x3000, 0, false⟩, ⟨0x3004, 0x3000, 0, true⟩,
   ⟨0x3008, 0x3008, 0, false⟩, ⟨0x3180, 0x3180 + 4 * f, 0, false⟩, ⟨0x3280, 0x3280 + 4 * f, 0, false⟩] ++
  ((List.range 16).map (fun p => winItems.map (fun w =>
    ItemRef.mk (winAddr p w.1 + (if w.2 then 4 else 0)) w.1 (16 * f + p) w.2))).flatten

/-- The bits of a frond-side register word that the frond uses (Table 9-7). -/
def itemMask (ofs : Nat) : Word :=
  if ofs = 0xE000 then 0x10 else if ofs = 0x2148 then 0x4 else if isRwp ofs then 0xFFFFFFFF else rwsMask ofs

/-- j of the anti-alias preset 0x24 + j of an angle-domain channel: the largest whose exact corner 10 Hz * 2^(j/2) is not above
0.40 * SPR * ANG_FMIN * 0.01 Hz (R250, R569). -/
def antiAlias (t : Tab Word) (ch : Nat) : Option Nat :=
  let o := conf t 0x2174 ch
  let lim := 4 * (64 * 2 ^ (fld o 6 3)) * fld (conf t (0x5108 + 16 * fld o 0 4) 0) 16 16
  ((List.range 28).filter (fun j => decide (2 ^ j * 100000000 ≤ lim * lim))).getLast?

/-- The CHN_FILT word an item carries: with ANGLE_EN the anti-alias preset of R250 and RESP_EN 1 (Table 9-7). -/
def filtWord (t : Tab Word) (ch : Nat) : Word :=
  let w := conf t 0x2150 ch
  match antiAlias t ch with
  | some j => if confF t 0x2174 ch 5 1 = 1 then BitVec.ofNat 32 (fld w 0 4 + 16 + 256 * (0x24 + j)) else w
  | none => w

/-- The word an item carries under configuration t. -/
def itemWord (t : Tab Word) (r : ItemRef) : Word :=
  let w := if r.ofs = 0x2150 then filtWord t r.idx else conf t r.ofs r.idx
  if r.compl then ~~~w else w

/-- The items of frond f that configuration t changes against configuration u (R318). -/
def changedItems (f : Nat) (u t : Tab Word) : List (Nat × Word) :=
  ((itemRefs f).filter (fun r => (itemWord u r &&& itemMask r.ofs) != (itemWord t r &&& itemMask r.ofs))).map
    (fun r => (r.addr, itemWord t r))

/-- Every item of frond f (R329). -/
def allItems (f : Nat) (t : Tab Word) : List (Nat × Word) := (itemRefs f).map (fun r => (r.addr, itemWord t r))

/-- The configuration in force in the core for frond f's fields (R325). -/
def frondCfg (s : State) (f : Nat) : Tab Word := (frond s f).hold.getD s.cfg

/-- A normal frame's bytes (R332). -/
def frameBytes (alive fid : Byte) (payload : List Byte) : List Byte :=
  let b := alive :: fid :: payload
  let c := (crc16 b).toNat
  b ++ [BitVec.ofNat 8 (c / 256), BitVec.ofNat 8 c]

/-- Sends a normal frame down both links of frond f with the next ALIVE value (R331, R334). -/
def sendDown (f : Nat) (fid : Byte) (payload : List Byte) (s : State) : State :=
  let a := nextDown s f
  outp (.down f fid (frameBytes a fid payload)) (modFrond f (fun x => { x with downAlive := a }) s)

/-- A pair of a value word and its complement, little-endian. -/
def pair8 (w : Word) : List Byte := le 4 w.toNat ++ le 4 (~~~w).toNat

/-- The items that the next D2 of a distribution carries, with their INDEX, and the distribution after it (R318). -/
def nextItems (d : Dist) : List (Nat × Nat × Word) × Dist :=
  let l := ((d.items.zipIdx).drop d.next).take 16
  let n := d.next + l.length
  (l.map (fun e => (e.2, e.1.1, e.1.2)), { d with next := if n ≥ d.items.length then 0 else n })

/-- The payload of D2 (Table 10-7): the characters of inserted frames are taken from its FILL (R338). -/
def d2Payload (l : List (Nat × Nat × Word)) (ins : Nat) : List Byte :=
  le 2 l.length ++ padTo 128 ((l.map (fun e => le 2 e.1 ++ le 2 e.2.1 ++ le 4 e.2.2.toNat)).flatten) ++ List.replicate (214 - ins) 0

/-- The output values of frond f that downlink superframe N carries, and OUT_MASK (R345). -/
def outWords (x : CFrond) : List Word := (List.range 16).map (fun p => ((x.out.find? (fun e => e.1 == p)).map (fun e => e.2.val)).getD 0)

/-- OUT_MASK of frond f. -/
def outMask (x : CFrond) : Nat := mask (x.out.map (fun e => e.1))

/-- The distribution that is running to frond f in this superframe: a commit's from superframe C+1 up to superframe T-2 (R318). -/
def running318 (s : State) (x : CFrond) : Option Dist :=
  match x.dist with
  | none => none
  | some d =>
    if d.items = [] then none
    else if d.commit then
      match s.pend with
      | some p => if p.c.toNat < now s ∧ now s + 2 ≤ p.t.toNat then some d else none
      | none => none
    else some d

/-- The payload of D0 of superframe N for frond f (Table 10-6). -/
def d0Payload (s : State) (f : Nat) (x : CFrond) : List Byte :=
  let t := frondCfg s f
  let pos := now s % 16
  let d := running318 s x
  let orders := b2n s.tm.syncNext + 2 * b2n (x.clr.any (fun c => c.pos ≥ 16)) + 4 * b2n x.safeOrder
  le 6 s.tm.count.toNat ++ le 2 s.tm.resEpoch.toNat ++ le 1 s.tm.resTag.toNat ++
  le 1 (x.res + (if d.isSome then 4 else 0)) ++ le 1 ((d.map (fun d => d.tag.toNat)).getD 0) ++
  le 2 ((d.map (fun d => d.items.length)).getD 0) ++ le 1 orders ++ le 2 (uns 16 x.corr) ++ le 2 (if s.tm.syncNext then 0 else (s.tm.dpc + 512 * steps s) % 4096) ++
  le 2 (outMask x) ++ le 2 (mask ((x.clr.filter (fun c => c.pos < 16)).map (·.pos))) ++ le 1 pos ++ [0] ++
  pair8 (conf t 0x3000 0) ++ pair8 (conf t 0x2130 (16 * f + pos)) ++
  ((outWords x).map (fun w => le 4 w.toNat)).flatten ++ List.replicate 9 0

/-- The payload of D1 (Table 10-7). -/
def d1Payload (s : State) (f : Nat) (x : CFrond) : List Byte :=
  let t := frondCfg s f
  let pos := now s % 16
  ((outWords x).map (fun w => le 4 (~~~w).toNat)).flatten ++ le 2 (65535 - outMask x) ++
  pair8 (conf t 0x2120 (16 * f + pos)) ++ pair8 (conf t 0x2128 (16 * f + pos))

end Sys2Proof.Machine
end

