-- ==== Sys2Proof/Machine/Memory.lean ====
section
/-! DEFINITION. Addressed memory in canonical form: (address, byte) pairs with rising addresses and no byte equal to what an
unlisted address reads as. The condition map's DRAM partition is held so (R17, R262). -/

namespace Sys2Proof.Machine
open Sys2Proof

/-- A memory. -/
abbrev Mem := List Host.Cell

/-- What an unlisted address reads as. No read path of the map shows it: a cell whose occupancy bit is 0 reads as zeros
(R265). -/
def memBlank : Byte := 0

/-- The canonical form. -/
abbrev Memory.wf (m : Mem) : Prop := m.Pairwise (fun a b => a.1 < b.1) ∧ ∀ c ∈ m, c.2 ≠ memBlank

/-- The byte at an address. -/
def memGet : Mem → Nat → Byte
  | [], _ => memBlank
  | (k, b) :: r, a => if a = k then b else if a < k then memBlank else memGet r a

/-- A pair in front of a memory, unless its byte is the unlisted one. -/
def memCons (a : Nat) (b : Byte) (m : Mem) : Mem := if b = memBlank then m else (a, b) :: m

/-- The memory with a byte written. -/
def memPut : Mem → Nat → Byte → Mem
  | [], a, b => memCons a b []
  | (k, c) :: r, a, b =>
    if a < k then memCons a b ((k, c) :: r)
    else if a = k then memCons a b r
    else (k, c) :: memPut r a b

/-- n bytes from an address. -/
def memRead (m : Mem) (a : Nat) : Nat → List Byte
  | 0 => []
  | n + 1 => memGet m a :: memRead m (a + 1) n

/-- Bytes written from an address on. -/
def memWrite (m : Mem) (a : Nat) : List Byte → Mem
  | [] => m
  | b :: r => memWrite (memPut m a b) (a + 1) r

end Sys2Proof.Machine
end

