-- ==== Sys2Proof/Machine/Float.lean ====
section
/-! DEFINITION. IEEE 754 binary32 as 32-bit words: a finite value times 2^149 is an integer, so every comparison is exact
(R295) and every result is rounded once to the nearest value, ties to even (R169). -/

namespace Sys2Proof.Machine

/-- The scale of finite binary32 values: v * 2^149 is an integer. -/
def f32One : Nat := 2 ^ 149

/-- The exponent field. -/
def f32Exp (x : Word) : Nat := fld x 23 8

/-- NaN. -/
def f32IsNaN (x : Word) : Bool := f32Exp x == 255 && fld x 0 23 != 0

/-- An infinity. -/
def f32IsInf (x : Word) : Bool := f32Exp x == 255 && fld x 0 23 == 0

/-- Finite. -/
def f32Finite (x : Word) : Bool := f32Exp x != 255

/-- Zero of either sign. -/
def f32IsZero (x : Word) : Bool := fld x 0 31 == 0

/-- Subnormal. -/
def f32IsSub (x : Word) : Bool := f32Exp x == 0 && fld x 0 23 != 0

/-- The finite value times 2^149; 0 for NaN and infinities, which callers test first. -/
def f32Int (x : Word) : Int :=
  let m : Nat :=
    if f32Exp x = 255 then 0
    else if f32Exp x = 0 then fld x 0 23 else (2 ^ 23 + fld x 0 23) * 2 ^ (f32Exp x - 1)
  if bit x 31 then -(m : Int) else m

/-- The quiet NaN of the module's records. -/
def f32NaN : Word := 0x7FC00000

/-- Plus infinity. -/
def f32Inf : Word := 0x7F800000

/-- The binary32 word of a sign and a magnitude a / d, rounded once (R169). -/
def f32OfMag (neg : Bool) (a d : Nat) : Word :=
  let s : Nat := if neg then 2 ^ 31 else 0
  let x := a * f32One
  let q0 := x / d
  let k := if q0 < 2 ^ 24 then 0 else lg2 q0 - 23
  let m := (rne (x : Int) (d * 2 ^ k)).toNat
  let k2 := if m = 2 ^ 24 then k + 1 else k
  let m2 := if m = 2 ^ 24 then 2 ^ 23 else m
  if m2 < 2 ^ 23 then BitVec.ofNat 32 (s + m2)
  else if k2 + 1 ≥ 255 then BitVec.ofNat 32 (s + 0x7F800000)
  else BitVec.ofNat 32 (s + (k2 + 1) * 2 ^ 23 + (m2 - 2 ^ 23))

/-- The exact quotient n / d rounded once to binary32 (R169). -/
def f32OfRat (n : Int) (d : Nat) : Word := f32OfMag (decide (n < 0)) n.natAbs d

/-- An integer rounded to binary32. -/
def f32OfInt (n : Int) : Word := f32OfRat n 1

/-- Sum of two finite values, rounded once. -/
def f32Add (x y : Word) : Word :=
  if f32IsNaN x || f32IsNaN y then f32NaN
  else if f32IsInf x then (if f32IsInf y && x != y then f32NaN else x)
  else if f32IsInf y then y
  else f32OfRat (f32Int x + f32Int y) f32One

/-- Product, rounded once. -/
def f32Mul (x y : Word) : Word :=
  if f32IsNaN x || f32IsNaN y then f32NaN
  else if f32IsInf x || f32IsInf y then
    if f32IsZero x || f32IsZero y then f32NaN
    else if bit x 31 == bit y 31 then f32Inf else 0xFF800000
  else f32OfRat (f32Int x * f32Int y) (f32One * f32One)

/-- The value with the opposite sign. -/
def f32Neg (x : Word) : Word := x ^^^ 0x80000000

/-- Difference, rounded once. -/
def f32Sub (x y : Word) : Word := f32Add x (f32Neg y)

/-- A value divided by a positive integer, rounded once. -/
def f32DivN (x : Word) (n : Nat) : Word :=
  if f32Finite x then f32OfRat (f32Int x) (f32One * n) else x

/-- Fused multiply-add x * y + z with one rounding (R189). -/
def f32Fma (x y z : Word) : Word :=
  if f32IsNaN x || f32IsNaN y || f32IsNaN z then f32NaN
  else if f32IsInf x || f32IsInf y then f32Add (f32Mul x y) z
  else if f32IsInf z then z
  else f32OfRat (f32Int x * f32Int y + f32Int z * f32One) (f32One * f32One)

/-- The exact order of two values that are not NaN, infinities included. -/
def f32Lt (x y : Word) : Bool :=
  if f32IsInf x then bit x 31 && !(f32IsInf y && bit y 31)
  else if f32IsInf y then !bit y 31
  else decide (f32Int x < f32Int y)

/-- The square root of an exact quotient n / d, rounded once to the nearest value (R169): the integer root of
the quotient scaled by 2^(2 k), the remainder breaking ties. -/
def f32Sqrt (n d : Nat) : Word :=
  if n = 0 then 0
  else
    let sc := 2 ^ 300
    let r := Nat.sqrt (n * sc * sc / d)
    let exact := r * r * d == n * sc * sc
    f32OfMag false (if exact then 2 * r else 2 * r + 1) (2 * sc)

end Sys2Proof.Machine
end

