-- ==== Sys2Proof/Machine/Tracker.lean ====
section
/-! DEFINITION. The order tracker: speed references, tick speed, shaft angle, speed bins (07). -/

namespace Sys2Proof.Machine
open Sys2Proof

/-- Speed reference r. -/
def spdRef (s : State) (r : Nat) : SpdRef := tget {} s.refs r

/-- MAP_SPD_CFG of reference r in force. -/
def spdCfg (s : State) (r : Nat) : Word := frc s (0x5100 + 16 * r) 0

/-- PPR. -/
def spdPpr (w : Word) : Nat := fld w 12 10 + 1

/-- MISS. -/
def spdMiss (w : Word) : Nat := fld w 22 2

/-- Frond counts of a number of ms. -/
def msCounts (n : Nat) : Nat := 131072 * n

/-- a * d lies in [lo / 2, hi / 2) times b: the tests on ρ of Table 7-2 without division. -/
def rhoIn (a : Int) (d : Nat) (b : Int) (lo hi : Nat) : Bool :=
  decide ((lo : Int) * b ≤ 2 * a * d) && decide (2 * a * d < (hi : Int) * b)

/-- Into state st with one edge, or none, as the beginning of the next acquisition: angle zero is discarded, and a departure from
LOCKED counts (Table 7-1, R241, R244). -/
def toState (st : Nat) (e : Option SpdEdge) (r : SpdRef) : SpdRef :=
  { r with st := st, last := match e with | some e => e.t | none => r.last, edges := e.toList, iv := 0, dv := 1, good := 0, gap := false,
           cnt := 0, zero := 0, zeroArb := false, losses := if r.st = 2 then satAdd 255 r.losses 1 else r.losses }

/-- The edge joins the accepted ones, n positions having passed without an edge (R237). -/
def acceptEdge (e : SpdEdge) (n : Nat) (r : SpdRef) : SpdRef :=
  match r.edges with
  | [] => { r with edges := [{ e with c := 0 }], last := e.t }
  | d :: _ => { r with edges := { e with c := d.c + n + 1 } :: r.edges, iv := e.t - d.t, dv := n + 1, last := e.t }

/-- Position of the last accepted edge after angle zero. -/
def spdPos (r : SpdRef) : Int := ((r.edges.head?.map (·.c)).getD 0) - r.zero

/-- The gap is expected next (Table 7-2). -/
def gapNext (w : Word) (r : SpdRef) : Bool :=
  spdMiss w != 0 && decide (spdPos r % (spdPpr w : Int) = (spdPpr w : Int) - spdMiss w - 1)

/-- LOCKED with angle zero at the last edge (R241). -/
def lockNow (w : Word) (r : SpdRef) : SpdRef :=
  { r with st := 2, locks := r.locks + 1, zero := (r.edges.head?.map (·.c)).getD 0, zeroArb := spdMiss w == 0 && spdPpr w != 1 }

/-- An edge in ACQUIRING (Table 7-1). Every edge counts as accepted there and later in the tick speed and the angle, also one across a gap
not known yet or after an interval that fits no row, which counts as one position: the spec does not say (DESIGN CHOICE, log 81). -/
def acquireEdge (w : Word) (e : SpdEdge) (r : SpdRef) : SpdRef :=
  match r.edges with
  | [] => acceptEdge e 0 r
  | d :: _ =>
    let iv := e.t - d.t
    if r.iv = 0 then acceptEdge e 0 r
    else if spdMiss w = 0 then
      let ok := decide (r.iv ≤ 2 * iv) && decide (2 * iv ≤ 3 * r.iv)
      let g := if ok then r.good + 1 else 0
      let r := { acceptEdge e 0 r with good := g }
      if g ≥ 3 then lockNow w r else r
    else
      let m := spdMiss w
      if rhoIn iv r.dv r.iv (2 * m + 1) (2 * m + 3) then
        let hit := r.gap && decide (r.cnt + 1 = spdPpr w - m)
        let r := { acceptEdge e m r with gap := true, cnt := 0 }
        if hit then lockNow w r else r
      else if rhoIn iv r.dv r.iv 1 3 then { acceptEdge e 0 r with cnt := r.cnt + 1 }
      else { acceptEdge e 0 r with gap := false, cnt := 0 }

/-- An edge while LOCKED, classified by Table 7-2; the second part says that lock is lost. -/
def lockedEdge (w : Word) (e : SpdEdge) (r : SpdRef) : SpdRef × Bool :=
  match r.edges with
  | [] => (acceptEdge e 0 r, false)
  | d :: _ =>
    let iv := e.t - d.t
    let m := spdMiss w
    let ppr := spdPpr w
    let gap := gapNext w r
    if rhoIn iv r.dv r.iv 1 3 then (if gap then (r, true) else (acceptEdge e 0 r, false))
    else if 2 * iv * r.dv < r.iv then ({ r with extra := satAdd 255 r.extra 1 }, false)
    else if gap && rhoIn iv r.dv r.iv (2 * m + 1) (2 * m + 3) then (acceptEdge e m r, false)
    else if !gap && rhoIn iv r.dv r.iv 3 7 then
      let n : Nat := if rhoIn iv r.dv r.iv 3 5 then 1 else 2
      if m = 0 || decide (spdPos r % (ppr : Int) + n ≤ (ppr : Int) - m - 1) then
        ({ acceptEdge e n r with skipped := satAdd 255 r.skipped n }, false)
      else (r, true)
    else (r, true)

/-- One stamp of polarity POL, with its LOST bit, in state of the reference; the number counts departures from LOCKED (Table 7-1).
An edge that loses lock begins the next acquisition (DEDUCED, log 32). -/
def spdStamp (w : Word) (a : SpdRef × Nat) (st : SpdEdge × Bool) : SpdRef × Nat :=
  let (r, lost) := a
  let (e, lostBit) := st
  if r.st = 3 then (toState 1 (some e) r, lost)
  else if r.st = 1 then (acquireEdge w e r, lost)
  else if r.st = 2 then
    let (r2, bad) := if lostBit then (r, true) else lockedEdge w e r
    if bad then (toState 1 (some e) r2, lost + 1) else (r2, lost)
  else (r, lost)

/-- The time of a stamp in the tick that began at `abs`, in frond counts since reset. An offset beyond the tick is that of a
crossing before its edge (R68). -/
def stampTime (abs len w : Nat) : Int :=
  let o := w % 2 ^ 21
  (abs : Int) + (if o ≥ len then (o : Int) - 2097152 else (o : Int))

/-- Tick speed of tick n, which ended at `stop`, as a positive fraction in Hz: the smaller of the window's mean and the bound of
R242. -/
def tickSpeed (w : Word) (n : TickNo) (stop : Nat) (r : SpdRef) : Nat × Nat :=
  let ppr := spdPpr w
  let inside := fun (e : SpdEdge) => decide ((n - e.n).toNat < 2 ^ fld w 24 4)
  let l := r.edges.filter inside ++ (r.edges.filter (fun e => !inside e)).head?.toList
  let f : Nat × Nat := match l.head?, l.getLast? with
    | some a, some b =>
      if b.t < a.t then ((a.c - b.c).toNat * 131072000, ppr * (a.t - b.t).toNat) else (r.dv * 131072000, ppr * r.iv.toNat)
    | _, _ => (r.dv * 131072000, ppr * r.iv.toNat)
  let nn := if gapNext w r then spdMiss w else 0
  let gone := (stop : Int) - r.last
  if gone ≤ 0 then f
  else
    let g : Nat × Nat := ((nn + 1) * 131072000, ppr * gone.toNat)
    if g.1 * f.2 < f.1 * g.2 then g else f

/-- The time limits of Table 7-1 at the end of a tick's stamps: lock is lost after 3.5 p, or (MISS + 1.5) p before the gap, or with a
missing uplink; the reference is STOPPED after DROP_MS without an accepted edge (R239). -/
def spdLimits (w time : Word) (stop : Int) (miss : Bool) (a : SpdRef × Nat) : SpdRef × Nat :=
  let (r, lost) := a
  let gone := stop - r.last
  let lim := if gapNext w r then 2 * (spdMiss w : Int) + 3 else 7
  let dead := decide (gone ≥ (msCounts (fld time 0 16) : Int))
  if r.st = 2 then
    if dead then (toState 3 none r, lost + 1)
    else if miss || decide (2 * gone * r.dv ≥ lim * r.iv) then (toState 1 none r, lost + 1) else (r, lost)
  else if r.st = 1 && dead then (toState 3 none r, lost)
  else (r, lost)

/-- Tick speed, validity and what the rule engine sees of a reference in tick n, from `abs` to `stop` (R242 to R244). -/
def spdValue (w fmax : Word) (n : TickNo) (abs stop : Nat) (r : SpdRef) : SpdRef :=
  let (a, b) := tickSpeed w n stop r
  let f : Word := if r.st = 2 then f32OfRat a (max 1 b) else if r.st = 3 then 0 else f32NaN
  let hi := r.st == 2 && f32Lt fmax f
  let ok := r.st == 2 && !hi
  { r with freq := f, valid := ok, overs := hi, tick := n, fresh := true,
           validSince := if ok then some (r.validSince.getD abs) else none,
           stopSince := if r.st = 3 then some (r.stopSince.getD abs) else none }

/-- SPEED_REF_LOST of a reference, once for each departure from LOCKED (R244). -/
def lostEvents (i : Nat) : Nat → State → State
  | 0, s => s
  | n + 1, s => lostEvents i n (noteEvent 0x20 (le 1 i) s)

/-- The references fed by frond f take the stamps of the data tick, or its loss, under that tick's configuration t (R239, R244).
Each stamp is its position and word; `fl` gives the header flags of a channel's tick. -/
def trackFrond (t : Tab Word) (f : Nat) (miss : Bool) (stamps : Nat → List Nat) (s : State) : State :=
  (List.range 16).foldl (fun s i =>
    let w := conf t (0x5100 + 16 * i) 0
    let ch := fld w 0 9
    if !bit w 9 || ch / 16 ≠ f || (spdRef s i).st = 0 then s
    else
      let n := s.tm.prev
      let mine := (stamps (ch % 16)).filter (fun v => v.testBit 21 == !bit w 10)
      let l : List (SpdEdge × Bool) := mine.map (fun v => (⟨stampTime s.absPrev (s.abs - s.absPrev) v, 0, s.absPrev, n⟩, v.testBit 22))
      let (r, lost) := spdLimits w (conf t (0x5108 + 16 * i) 0) s.abs miss (l.foldl (spdStamp w) (spdRef s i, 0))
      let r := { spdValue w (conf t (0x5104 + 16 * i) 0) n s.absPrev s.abs r with
                 ep := (frond s f).depoch, fl := if miss then 4 else (chan s ch).tFl }
      lostEvents i lost { s with refs := tput s.refs i r }) s

/-- The references follow EN at an epoch edge (Table 7-1). -/
def refsEpoch (old : Tab Word) (s : State) : State :=
  (List.range 16).foldl (fun s i =>
    let was := bit (conf old (0x5100 + 16 * i) 0) 9
    let is_ := bit (conf s.cfg (0x5100 + 16 * i) 0) 9
    let r := spdRef s i
    if !was && is_ then { s with refs := tput s.refs i { toState 1 none r with last := s.abs } }
    else if was && !is_ then
      let off : SpdRef := { toState 0 none r with valid := false, overs := false, validSince := none, stopSince := none, freq := f32NaN }
      lostEvents i (b2n (r.st == 2)) { s with refs := tput s.refs i off }
    else s) s

/-- The shaft angle at time t (R246) as a fraction of tooth positions: linear between accepted edges, extrapolated at the
rate of the last interval, and before the oldest edge at that of the first. -/
def posAt (r : SpdRef) (t : Int) : Int × Int :=
  match r.edges with
  | a :: b :: rest =>
    let rec find : SpdEdge → SpdEdge → List SpdEdge → SpdEdge × SpdEdge
      | x, y, [] => (x, y)
      | x, y, z :: l => if y.t ≤ t then (x, y) else find y z l
    let (x, y) := find a b rest
    -- angle = y.c + (t - y.t) * (x.c - y.c) / (x.t - y.t)
    let d := max 1 (x.t - y.t)
    ((y.c - r.zero) * d + (t - y.t) * (x.c - y.c), d)
  | _ => (0, 1)

/-- f_rot of R247 in Hz, rounded once: revolutions between two instants over their distance. -/
def rotSpeed (ppr : Nat) (r : SpdRef) (a b : Int) : Word :=
  if b ≤ a then 0
  else
    let (n1, d1) := posAt r a
    let (n2, d2) := posAt r b
    f32OfRat ((n2 * d1 - n1 * d2) * 131072000) (d1 * d2 * ppr * (b - a)).toNat

/-- The bin-edge table of a reference: E[i] in force. -/
def binEdge (s : State) (ref i : Nat) : Word := frc s 0x5044 (32 * ref + i)

/-- The speed bin of a speed v (R256): the last edge not above it, none below E[0]. -/
def speedBin (s : State) (ref : Nat) (v : Word) : Option Nat :=
  ((List.range 32).filter (fun i => let e := binEdge s ref i; !f32IsNaN e && !f32Lt v e)).getLast?

end Sys2Proof.Machine
end

