-- ==== Sys2Proof/Machine/MapUnit.lean ====
section
/-! DEFINITION. The condition map: cells, occupancy, folding, period swap, read paths (07). -/

namespace Sys2Proof.Machine
open Sys2Proof

/-- Byte address of a cell in the map partition (R262). -/
def cellAddr (bank x : Nat) : Nat := bank * 2 ^ 25 + 32 * x

/-- The occupancy number of a cell. -/
def occKey (bank x : Nat) : Nat := bank * 2 ^ 20 + x

/-- A rising list with n in it. -/
def insertNat (n : Nat) : List Nat → List Nat
  | [] => [n]
  | m :: r => if n < m then n :: m :: r else if n = m then m :: r else m :: insertNat n r

/-- The 32 bytes of a cell as every read path sees them (R265). -/
def mapCell (m : MapUnit) (bank x : Nat) : List Byte :=
  if m.occ.contains (occKey bank x) then memRead m.mem (cellAddr bank x) 32 else List.replicate 32 0

/-- A number limited to w bits, unsigned. -/
def satU (w n : Nat) : Nat := min (2 ^ w - 1) n

/-- A band value times 2^e as an exact fraction: numerator and denominator. -/
def quantFrac (v : Word) (e : Int) : Int × Nat :=
  if 0 ≤ e then (f32Int v * 2 ^ e.toNat, f32One) else (f32Int v, f32One * 2 ^ (-e).toNat)

/-- q of R263 and whether it was clamped. -/
def quantise (v : Word) (e : Int) : Int × Bool :=
  let m : Int := 2 ^ 31 - 1
  if f32IsInf v then (if bit v 31 then -m else m, true)
  else
    let (n, d) := quantFrac v e
    (clampI (-m) m (rne n d), decide (m * d < n) || decide (n < -(m * d)))

/-- A cell's bytes after an update with value v (R263, Table 7-3). -/
def updCell (c : List Byte) (v : Word) (q : Int) : List Byte :=
  let count := getLE c 0 4
  let mn : Word := BitVec.ofNat 32 (getLE c 4 4)
  let mx : Word := BitVec.ofNat 32 (getLE c 24 4)
  let mn2 := if count = 0 then v else if f32Lt v mn then v else mn
  let mx2 := if count = 0 then v else if f32Lt mx v then v else mx
  let sum := clampI (-(2 ^ 63 - 1)) (2 ^ 63 - 1) (sgn 64 (getLE c 8 8) + q)
  let sq := satU 64 (getLE c 16 8 + (q * q).toNat)
  le 4 (satU 32 (count + 1)) ++ le 4 mn2.toNat ++ le 8 (uns 64 sum) ++ le 8 sq ++ le 4 mx2.toNat ++ le 4 v.toNat

/-- One cell update in the live bank (R42, R263, R264). `late` says that the data lies in the previous period. -/
def foldCell (x : Nat) (v : Word) (e : Int) (late : Bool) (m : MapUnit) : MapUnit :=
  let (q, cl) := quantise v e
  let old := mapCell m m.live x
  { m with mem := memWrite m.mem (cellAddr m.live x) (updCell old v q), occ := insertNat (occKey m.live x) m.occ,
           updates := satAdd 0xFFFFFFFF m.updates 1, clipped := satAdd 0xFFFFFFFF m.clipped (b2n cl),
           deferIn := satAdd 0xFFFFFFFF m.deferIn (b2n late) }

/-- MAP_ON in force. -/
def mapOn (s : State) : Bool := bit (frc s 0x5000 0) 0

/-- MAP_EN of a channel in force. -/
def mapEn (s : State) (ch : Nat) : Bool := bit (frc s 0x2178 ch) 0

/-- MAP_EXP of a channel in force. -/
def mapExp (s : State) (ch : Nat) : Int := sgn 8 (frcF s 0x2178 ch 8 8)

/-- The speed bin of a block: bin 0 with no reference, none without a speed (R256, R259). -/
def blockBin (s : State) (ch : Nat) (hasBin : Bool) (v : Word) : Option Nat :=
  let o := frc s 0x2174 ch
  if !bit o 4 then some 0 else if hasBin then speedBin s (fld o 0 4) v else none

/-- BIN as FEATURE_BLOCK gives it (R261). -/
def binField (s : State) (ch : Nat) (hasBin : Bool) (v : Word) : Nat :=
  if mapOn s && mapEn s ch then (blockBin s ch hasBin v).getD 255 else 255

/-- The band values of a block fold into their cells: channel's base, bin, exponent, bands to leave out (R219, R260, R263, R264). -/
def foldBands (base bin : Nat) (e : Int) (late : Bool) (phase : Nat → Bool) (bands : List Word) (m : MapUnit) : MapUnit :=
  (bands.zipIdx).foldl (fun (m : MapUnit) (b : Word × Nat) =>
    if f32IsNaN b.1 then { m with nan := satAdd 0xFFFFFFFF m.nan 1 }
    else if phase b.2 then m
    else foldCell (base + b.2 * 32 + bin) b.1 e late m) m

/-- The band values of a block fold into the map (R219, R260, R261, R264). `phase` marks bands with STAT 2. -/
def mapFold (ch : Nat) (bands : List Word) (phase : Nat → Bool) (hasBin : Bool) (v : Word) (tick : TickNo) (s : State) : State :=
  if !(mapOn s && mapEn s ch) then s
  else
    match blockBin s ch hasBin v with
    | none => { s with map := { s.map with unbinned := satAdd 0xFFFFFFFF s.map.unbinned bands.length } }
    | some bin =>
      { s with map := foldBands (ch * 2048) bin (mapExp s ch) (decide (tick < s.map.first)) phase bands s.map,
               plans := tmod {} s.plans ch (fun p => { p with bin := bin }) }

/-- Occupied cells of a bank. -/
def occCount (m : MapUnit) (bank : Nat) : Nat := (m.occ.filter (fun k => k / 2 ^ 20 == bank)).length

/-- The period boundary, before the tick edge of its first tick: swap, MAP_PERIOD (R266, R269). -/
def mapBoundary (s : State) : State :=
  let n := nextTick s
  if !mapOn s then { s with map := { s.map with first := n, ticks := 0, mixed := false } }
  else
    let m := s.map
    let other := 1 - m.live
    let m2 := { m with live := other, pseq := (m.pseq + 1) % 2 ^ 32, occ := m.occ.filter (fun k => k / 2 ^ 20 != other), first := n,
                       ticks := 0, updates := 0, unbinned := 0, nan := 0, clipped := 0, deferIn := 0, mixed := false }
    let body := le 4 m2.pseq ++ le 4 m.first.toNat ++ le 4 m.ticks ++ le 4 (occCount m m.live) ++ le 4 m.updates ++
      le 4 m.unbinned ++ le 4 m.nan ++ le 4 m.clipped ++ le 4 m.deferIn ++ le 1 m.live ++ le 1 (b2n m.mixed)
    emit (frcF s 0x5000 0 8 8) { typ := 0x20, source := 0, epoch := s.tm.epoch, tick := s.tm.count, flags := 0, body := body }
      { s with map := m2 }

/-- Config words of a channel whose change sets MIXED in the map (R268). -/
def mapWords (t : Tab Word) (ch : Nat) : List Word :=
  let o := conf t 0x2174 ch &&& 0x1F
  let b := conf t 0x2164 ch
  let set := fld b 0 6
  let ref := fld o 0 4
  [conf t 0x2178 ch &&& 0xFF00, o, b] ++
  ((List.range (fld b 8 7)).map (fun i => [conf t 0x4004 (64 * set + i), conf t 0x4008 (64 * set + i), conf t 0x400C (64 * set + i)])).flatten ++
  (if bit o 4 then (List.range 32).map (fun i => conf t 0x5044 (32 * ref + i)) else [])

/-- MAP_ON goes from 0 to 1: cells, counters and PSEQ start again (R267). -/
def mapStart (old : Tab Word) (s : State) : State :=
  if !bit (conf old 0x5000 0) 0 && bit (conf s.cfg 0x5000 0) 0 then
    { s with map := { s.map with occ := [], pseq := 0, updates := 0, unbinned := 0, nan := 0, clipped := 0,
                                 deferIn := 0, mixed := false } }
  else s

/-- From configuration `old` to `new` the map words of a channel with MAP_EN change (R268). -/
def mapChanges (old new : Tab Word) (ch : Nat) : Bool :=
  bit (conf new 0x2178 ch) 0 && bit (conf old 0x2178 ch) 0 && mapWords old ch != mapWords new ch

/-- MIXED is set where some channel's map words change at an edge (R268). -/
def mixWhere (on : Bool) (s : State) : State := if on then { s with map := { s.map with mixed := true } } else s

/-- A change of a channel's map words in an applied epoch sets MIXED: of a late or excluded frond's channel that of the words which do
not wait for the frond (R268, R325). -/
def mapMix (old : Tab Word) (s : State) : State :=
  mixWhere (allChans.any (fun ch =>
    let x := frond s (ch / 16)
    mapChanges (x.dhold.getD old) (x.hold.getD s.cfg) ch)) s

/-- Frond f takes its part of the epoch later than the module: its channels' words change then (R268, R328). -/
def mapLater (f : Nat) (old new : Tab Word) (s : State) : State :=
  mixWhere ((List.range 16).any (fun p => mapChanges old new (16 * f + p))) s

/-- The map unit at an epoch edge (R267, R268). -/
def mapEpoch (old : Tab Word) (s : State) : State := mapMix old (mapStart old s)

/-- MAP_PEEK_IDX: the nine peek words of a cell of a path (R270). -/
def peekWords (m : MapUnit) (v : Word) : List Word :=
  let liveSel := bit v 24
  let bank := if liveSel then m.live else 1 - m.live
  let c := if !liveSel && m.pseq = 0 then List.replicate 32 0 else mapCell m bank (fld v 0 20)
  let w := fun o => (BitVec.ofNat 32 (getLE c o 4) : Word)
  [w 0, w 8, w 12, w 16, w 20, w 4, w 24, w 28, BitVec.ofNat 32 (if liveSel then m.pseq + 1 else m.pseq)]

/-- The bytes of latched-bank cells (R271): zeros while no period has been latched. -/
def latchedCells (m : MapUnit) (first count : Nat) : List Byte :=
  ((List.range count).map (fun i => if m.pseq = 0 then List.replicate 32 (0 : Byte) else mapCell m (1 - m.live) (first + i))).flatten

/-- The transfer in front reads on, up to n cells in all, as far as the reserved DRAM bytes of the step allow at 32 bytes a cell; it is
held back where they do not (R30, R273). -/
def mapPull (n : Nat) (s : State) : State :=
  match s.xfers with
  | x :: r =>
    let k := min (min n x.count - x.done) (s.reserve / 32)
    { s with xfers := { x with done := x.done + k } :: r, reserve := s.reserve - 32 * k }
  | [] => s

/-- A transfer ends with a status: the cells read are delivered (R271, R272, R421, R428). -/
def mapEnd (x : MapXfer) (status : Nat) (s : State) : State :=
  let b := latchedCells s.map x.first x.done
  let live := (outOf s x.id).any (fun o => !o.lost)
  let s := if live && decide (x.done > 0) then outp (.hostWrite x.dest b) s else s
  complete x.id status (le 4 s.map.pseq ++ le 4 x.done ++ le 4 (crc32c b).toNat) { s with xfers := s.xfers.filter (fun y => y.id != x.id) }

end Sys2Proof.Machine
end

