-- ==== Sys2Proof/Machine/Plan.lean ====
section
/-! DEFINITION. Feature plans: their parameters, the filtered samples in the core, blocks, angle-domain resampling (06, 07). -/

namespace Sys2Proof.Machine
open Sys2Proof

/-- The configuration of a channel in force in the core (R325). -/
def chanCfg (s : State) (ch : Nat) : Tab Word := (frond s (ch / 16)).hold.getD s.cfg

/-- CHN_FEA. -/
def feaW (t : Tab Word) (ch : Nat) : Word := conf t 0x215C ch

/-- BLK of CHN_FEA, 10 to 16; its four bits hold 16 as 0 (Table 6-1 gives preset 0x11 BLK 16). -/
def planBlk (w : Word) : Nat := if fld w 0 4 = 0 then 16 else fld w 0 4

/-- N of a plan. -/
def planN (w : Word) : Nat := 2 ^ (planBlk w)

/-- The hop of a plan (R200). -/
def planHop (w : Word) : Nat :=
  let n := planN w
  match fld w 6 2 with
  | 0 => n
  | 1 => n / 2
  | 2 => 2 * cdiv n 6
  | _ => n / 4

/-- A plan is enabled: any enable of CHN_FEA. -/
def planOn (w : Word) : Bool := bit w 8 || bit w 9 || bit w 10 || bit w 11 || bit w 13

/-- RATE_K of a channel. -/
def rateK (t : Tab Word) (ch : Nat) : Nat := fld (conf t 0x2150 ch) 0 4

/-- The channel is bound to angle-domain resampling. -/
def angleOn (t : Tab Word) (ch : Nat) : Bool := bit (conf t 0x2174 ch) 5

/-- SPR of a channel. -/
def spr (t : Tab Word) (ch : Nat) : Nat := 64 * 2 ^ (fld (conf t 0x2174 ch) 6 3)

/-- SPD_REF of a channel. -/
def refOf (t : Tab Word) (ch : Nat) : Nat := fld (conf t 0x2174 ch) 0 4

/-- TICK_STEPS of a configuration. -/
def stepsOf (t : Tab Word) : Nat := max 1 (confF t 0x1010 0 0 7)

/-- The sample rate of a channel's plan as a fraction in samples per second: r, or SPR * FMAX (R255). -/
def planRate (t : Tab Word) (ch : Nat) : Nat × Nat :=
  if angleOn t ch then (spr t ch * (f32Int (conf t (0x5104 + 16 * refOf t ch) 0)).toNat, f32One)
  else (2048000, 2 ^ rateK t ch)

/-- ⌈n_t⌉: samples per tick, rounded up (R227). -/
def samplesPerTick (t : Tab Word) (ch : Nat) : Nat :=
  let (n, d) := planRate t ch
  cdiv (n * stepsOf t) (d * 4000)

/-- S of a plan (R228). -/
def planSlices (t : Tab Word) (ch : Nat) : Nat :=
  max 1 (min 256 (planHop (feaW t ch) / max 1 (samplesPerTick t ch)))

/-- L, the lines of a block (R210). -/
def planLines (w : Word) : Nat := 25 * planN w / 64

/-- The bands a plan uses: BAND_CNT with BAND_EN. -/
def planBands (t : Tab Word) (ch : Nat) : Nat := if bit (feaW t ch) 13 then confF t 0x2164 ch 8 7 else 0

/-- The cost of a block in butterfly cycles (Table 1-4, R229). -/
def blockCost (t : Tab Word) (ch : Nat) : Nat :=
  let w := feaW t ch
  let n := planN w
  let lg := planBlk w - 1
  (if bit w 9 then n / 4 * lg + n / 2 + planLines w else 0) + (if bit w 8 then n / 4 else 0) +
  (if bit w 10 then n / 4 * lg + n / 2 else 0) + 8 * planBands t ch

/-- Cells of a FEATURE_BLOCK packet (Table 6-3). -/
def featCells (t : Tab Word) (ch : Nat) : Nat :=
  let w := feaW t ch
  if bit w 8 || bit w 10 || bit w 11 || bit w 13 then 2 + cdiv (planBands t ch) 10 else 0

/-- The lines a plan emits, first and number (R199, Table 6-3). -/
def lineRange (t : Tab Word) (ch : Nat) : Nat × Nat :=
  let l := conf t 0x2170 ch
  let hi := if fld l 16 16 = 0xFFFF then planLines (feaW t ch) - 1 else fld l 16 16
  (fld l 0 16, hi + 1 - fld l 0 16)

/-- P_s of a plan. -/
def specCells (t : Tab Word) (ch : Nat) : Nat :=
  let o := fld (feaW t ch) 14 2
  if o = 0 then 0 else cdiv (lineRange t ch).2 (if o = 1 then 8 else 4)

/-- P_e of a plan. -/
def envCells (t : Tab Word) (ch : Nat) : Nat := if bit (feaW t ch) 16 then cdiv (planHop (feaW t ch)) 16 else 0

/-! ## Gain and offset (R130, R189, R190) -/

/-- s of Table 4-2 for a mode, in binary32. -/
def perCode (mode : Nat) : Word :=
  if mode = 6 ∨ mode = 7 then f32OfRat 3125 10000000
  else if mode = 5 then f32OfRat 78125 100000000000
  else if mode = 3 ∨ mode = 4 then f32OfRat 732421875 1000000000000000
  else f32OfRat 125 100000

/-- s with the reference in force; VREF in 100 µV (R190). -/
def perCodeRef (mode refSel vref : Nat) : Word :=
  if refSel = 1 then f32OfRat (f32Int (perCode mode) * vref) (f32One * 40960) else perCode mode

/-- a of R189: a filtered value n / d in codes times s. -/
def physOf (n : Int) (d : Nat) (sc : Word) : Word := f32OfRat (n * f32Int sc) (d * f32One)

/-- y of R189. -/
def scaled (t : Tab Word) (ch : Nat) (a : Word) : Word := f32Fma (conf t 0x2140 ch) a (conf t 0x2144 ch)

/-- 64 times τ_k in frond counts: τ_k of Table 5-3 is a whole number of half conversions. -/
def tauCounts (k : Nat) : Nat := if k = 0 then 0 else 32 * (if k = 1 then 94 else if k = 2 then 210 else if k = 3 then 430 else 435 * 2 ^ (k - 3) - 5)

/-- The conversions of a tick at which a sample at rate index k completes, the phase count being d (R167). -/
def gridOf (d k convs : Nat) : List Nat :=
  if k = 0 then [] else (List.range convs).filter (fun c => (d + c + 1) % 2 ^ k == 0)

/-! ## Blocks (R201 to R206, R228) -/

/-- A sample enters the block staging of its channel; a block whose last sample it is becomes complete. -/
def stageSample (ch : Nat) (x : Smp) (s : State) : State :=
  let t := chanCfg s ch
  let w := feaW t ch
  let p := plan s ch
  if !planOn w || decide (x.abs < p.origin) then s
  else
    let n := planN w
    let p := { p with n := p.n + 1, buf := (x :: p.buf).take n }
    let s := { s with plans := tput s.plans ch p }
    if n ≤ p.n ∧ (p.n - n) % planHop w = 0 then
      let first := (p.buf.getLast?.map (·.abs)).getD x.abs
      let b : Blk := { ch := ch, b := p.base + (p.n - n) / planHop w, smp := p.buf.reverse,
                       mixed := p.mixes.any (fun m => decide (first < m) && decide (m ≤ x.abs)) }
      { s with blocks := s.blocks ++ [b] }
    else s

/-- The grid origin of a channel moves to the edge `at_` and BLOCK_SEQ restarts (R202). -/
def restartGrid (ch at_ : Nat) (s : State) : State :=
  { s with plans := tmod {} s.plans ch (fun p =>
      { p with origin := at_, n := 0, buf := [], base := 0, mixes := [], paused := true, hist := [] }) }

/-- A plan's resampler pauses: the blocks that are collecting samples are abandoned, their BLOCK_SEQ not reused (R253). -/
def pausePlan (hop : Nat) (p : Plan) : Plan := { p with paused := true, base := p.base + cdiv p.n hop, n := 0, buf := [] }

/-- The fields whose change clears a channel's filter chain (R181): mode, rate, response. -/
def chainWords (t : Tab Word) (ch : Nat) : List Nat := [confF t 0x2104 ch 0 4, (filtWord t ch &&& itemMask 0x2150).toNat]

/-- The fields whose change moves the grid origin (R202). -/
def planWords (t : Tab Word) (ch : Nat) : List Word :=
  let b := conf t 0x2164 ch
  [feaW t ch, conf t 0x2160 ch, b] ++
  ((List.range (fld b 8 7)).map (fun i =>
    let j := 64 * fld b 0 6 + i
    [conf t 0x4004 j, conf t 0x4008 j, conf t 0x400C j])).flatten

/-- A change of the plan or of the filter chain starts a new grid origin (R202). -/
def gridEpoch (old new : Tab Word) (ch : Nat) (s : State) : State :=
  if planWords old ch != planWords new ch || chainWords old ch != chainWords new ch then restartGrid ch s.abs s else s

/-- A change of the scaling marks the edge (R206). -/
def scaleEpoch (old new : Tab Word) (ch : Nat) (s : State) : State :=
  if conf old 0x2140 ch != conf new 0x2140 ch || conf old 0x2144 ch != conf new 0x2144 ch then
    { s with plans := tmod {} s.plans ch (fun p => { p with mixes := s.abs :: p.mixes }) }
  else s

/-- A change of what a channel converts makes its period MIXED (R154). -/
def periodEpoch (old new : Tab Word) (ch : Nat) (s : State) : State :=
  let m0 := confF old 0x2104 ch 0 4
  let m1 := confF new 0x2104 ch 0 4
  let path := fun m => if m = 6 ∨ m = 7 then 0 else if m = 5 then 2 else if m = 3 ∨ m = 4 then 3 else 1
  let r := 0x3280 + 4 * (ch / 16)
  if path m0 ≠ path m1 ∨ fld (conf old r 0) 0 2 ≠ fld (conf new r 0) 0 2 ∨
     bit (conf old 0x2104 ch) 6 ≠ bit (conf new 0x2104 ch) 6 then
    { s with chans := tmod {} s.chans ch (fun c =>
        if s.latNow.isSome then { c with mixNext := true } else { c with per := { c.per with mixed := true } }) }
  else s

/-- A change of the binding of an angle-domain channel pauses its resampler until the next angle zero: samples are counted from an angle
zero of the reference bound (R249, R253). -/
def angleEpoch (old new : Tab Word) (ch : Nat) (s : State) : State :=
  if angleOn new ch && (conf old 0x2174 ch != conf new 0x2174 ch) then
    { s with plans := tmod {} s.plans ch (pausePlan (planHop (feaW old ch))) }
  else s

/-- A channel's configuration changes in the core at the current edge (R154, R202, R206, R249). -/
def chanEpoch (old new : Tab Word) (ch : Nat) (s : State) : State :=
  angleEpoch old new ch <| periodEpoch old new ch (scaleEpoch old new ch (gridEpoch old new ch s))

/-- A reset edge clears the channels whose sample boundary moves (R186, R202): the phase count there would have been d. -/
def phaseRestart (d : Nat) (s : State) : State :=
  allChans.foldl (fun s ch =>
    let k := rateK (chanCfg s ch) ch
    if k = 0 || d % 2 ^ k == 0 || (plan s ch).origin == s.abs then s else restartGrid ch s.abs s) s

/-- The speed of a block at its readiness edge: f_rot, whether it has a speed bin, whether REF_INVALID is set (R247, R248). -/
def blockSpeed (s : State) (t : Tab Word) (b : Blk) : Word × Bool × Bool :=
  if !bit (conf t 0x2174 b.ch) 4 then (0, true, false)
  else
    let i := refOf t b.ch
    let r := spdRef s i
    match b.smp.head?, b.smp.getLast? with
    | some x, some y =>
      let since := fun (o : Option Nat) => match o with | some a => decide (a ≤ x.abs) | none => false
      if since r.validSince then (rotSpeed (spdPpr (spdCfg s i)) r x.t y.t, true, false)
      else if since r.stopSince then (0, true, true)
      else (0, false, true)
    | _, _ => (0, false, true)

/-- At a tick edge every complete block is ready; its plan and its speed are fixed (R203, R228, R247). An epoch at that edge that changes
VSCALE, queues or lines alone, and so no grid origin, leaves them as they were before it: R203 does not say whose block it is (DESIGN
CHOICE, log 73). -/
def readyBlocks (s : State) : State :=
  { s with blocks := s.blocks.map (fun b =>
      if b.ready then b
      else
        let t := chanCfg s b.ch
        let (v, hb, inv) := blockSpeed s t b
        { b with ready := true, slices := planSlices t b.ch, speed := v, hasBin := hb, refInv := inv, cfg := t }) }

/-! ## Angle-domain resampling (R249 to R254) -/

/-- The cubic interpolation of R249 in binary32, in the order in which it is written. -/
def cubic (u a b c d : Word) : Word :=
  let u1 := f32Sub u (f32OfInt 1)
  let u2 := f32Sub u (f32OfInt 2)
  let up := f32Add u (f32OfInt 1)
  let ca := f32DivN (f32Mul (f32Mul (f32Neg u) u1) u2) 6
  let cb := f32DivN (f32Mul (f32Mul up u1) u2) 2
  let cc := f32Neg (f32DivN (f32Mul (f32Mul up u) u2) 2)
  let cd := f32DivN (f32Mul (f32Mul up u) u1) 6
  f32Add (f32Add (f32Add (f32Mul ca a) (f32Mul cb b)) (f32Mul cc c)) (f32Mul cd d)

/-- The time of position target / d among the accepted edges, when an edge after it is there: numerator and denominator. -/
def timeOfPos (target d : Int) : List SpdEdge → Option (Int × Int)
  | x :: y :: r =>
    if y.c * d ≤ target then
      (if target < x.c * d then some (y.t * ((x.c - y.c) * d) + (target - y.c * d) * (x.t - y.t), (x.c - y.c) * d) else none)
    else timeOfPos target d (y :: r)
  | _ => none

/-- The samples around time n / d in a history, newest first: y[i+2], y[i+1], y[i], y[i-1]. -/
def around (n d : Int) : List Smp → Option (Smp × Smp × Smp × Option Smp)
  | x2 :: x1 :: x0 :: r =>
    if n < x1.t * d then (if x0.t * d ≤ n then some (x2, x1, x0, r.head?) else around n d (x1 :: x0 :: r)) else none
  | _ => none

/-- Angle samples from the next one on while edges and samples last. A missing y[i-1] enters as 0 with MISSING, as in the history's
beginning: R249 does not say (DESIGN CHOICE, log 63). -/
def angleRun (s : State) (ppr sp : Nat) (edges : List SpdEdge) : Nat → Plan → List Smp → Plan × List Smp
  | 0, p, out => (p, out)
  | k + 1, p, out =>
    match timeOfPos (p.jz * sp + p.jn * ppr) (sp : Int) edges with
    | none => (p, out)
    | some (n, d) =>
      match around n d p.hist with
      | none => (p, out)
      | some (x2, x1, x0, xm) =>
        let u := f32OfRat (n - x0.t * d) ((x1.t - x0.t) * d).toNat
        let m := xm.getD { x0 with y := 0, fl := 4 }
        let v : Smp := { y := cubic u m.y x0.y x1.y x2.y, fl := m.fl ||| x0.fl ||| x1.fl ||| x2.fl, tick := s.tm.prev,
                         abs := s.absPrev, cv := x2.cv, pos := out.length, t := rne n d.toNat, ep := x2.ep }
        angleRun s ppr sp edges k { p with jn := p.jn + 1 } (out ++ [v])

/-- The samples of a history, newest first, that an angle sample at or after time b may still use: those from b on, the two before
it, and those of the next angle sample that waits for a newer one, which lies at or after the second newest (R249). -/
def keepFrom (b : Int) (l : List Smp) : List Smp :=
  let b := match l with
    | _ :: x :: _ => min b x.t
    | _ => b
  l.takeWhile (fun x => decide (b ≤ x.t)) ++ (l.dropWhile (fun x => decide (b ≤ x.t))).take 2

/-- The data tick of an angle-domain channel whose samples and whose reference are both in (R249, R253); t is its configuration. -/
def angleTick (t : Tab Word) (ch : Nat) (s : State) : State :=
  let i := refOf t ch
  let r := spdRef s i
  let p := plan s ch
  let bound := min (s.absPrev : Int) r.last
  let fresh := { p with hist := (chan s ch).ys.reverse ++ p.hist }
  let fmin := f32OfRat (fld (conf t (0x5108 + 16 * i) 0) 16 16) 100
  if !r.valid || f32Lt r.freq fmin then
    { s with plans := tput s.plans ch (pausePlan (planHop (feaW t ch)) { fresh with hist := keepFrom bound fresh.hist }) }
  else
    let ppr := spdPpr (conf t (0x5100 + 16 * i) 0)
    let p := if fresh.paused || fresh.jl = r.locks then fresh else pausePlan (planHop (feaW t ch)) fresh
    let p :=
      if p.paused && decide (p.origin ≤ s.absPrev) then
        match (r.edges.filter (fun e => e.k == s.absPrev && (e.c - r.zero) % (ppr : Int) == 0)).getLast? with
        | some e => { p with paused := false, jz := e.c, jl := r.locks, jn := 0 }
        | none => p
      else p
    if p.paused then { s with plans := tput s.plans ch { p with hist := keepFrom bound p.hist } }
    else
      let (p, out) := angleRun s ppr (spr t ch) r.edges 10000 p []
      out.foldl (fun s x => stageSample ch x s) { s with plans := tput s.plans ch { p with hist := keepFrom bound p.hist } }

end Sys2Proof.Machine
end

