-- ==== Sys2Proof/Machine/Capture.lean ====
section
/-! DEFINITION. The capture unit: 32 rings, triggers, readout, CAPTURE_SEGMENT records (08). -/

namespace Sys2Proof.Machine
open Sys2Proof

/-- Word i of ring r's registers in a configuration: CFG, CHA, CHB, PRE, POST. -/
def capWord (t : Tab Word) (r i : Nat) : Word := conf t (0x6100 + 32 * r + 4 * i) 0

/-- Ring r is enabled. -/
def capEn (t : Tab Word) (r : Nat) : Bool := bit (capWord t r 0) 4

/-- STAMP_EN. -/
def capStampEn (t : Tab Word) (r : Nat) : Bool := bit (capWord t r 0) 7

/-- STAMP_CH. -/
def capStampCh (t : Tab Word) (r : Nat) : Nat := fld (capWord t r 0) 19 9

/-- Slot i of ring r: its channel where it is used. -/
def capSlot (t : Tab Word) (r i : Nat) : Option Nat :=
  let w := capWord t r (1 + i / 2)
  let o := 16 * (i % 2)
  if bit w (o + 15) then some (fld w o 9) else none

/-- The channels of the used slots, in slot order (R274). -/
def capChans (t : Tab Word) (r : Nat) : List Nat := (List.range 4).filterMap (capSlot t r)

/-- D of R275. -/
def capDepth (t : Tab Word) (r : Nat) : Nat :=
  let n := max 1 (capChans t r).length
  let sz := fld (capWord t r 0) 8 11
  if capStampEn t r then sz * 65536 * 7 / (32 * n) else sz * 65536 / (4 * n)

/-- Stamps a ring keeps. -/
def capStamps (t : Tab Word) (r : Nat) : Nat := fld (capWord t r 0) 8 11 * 1024

/-- ⌈n_t⌉ of a ring. -/
def capPerTick (t : Tab Word) (r : Nat) : Nat := cdiv (512 * stepsOf t) (2 ^ fld (capWord t r 0) 0 4)

/-- s of R283: the stamp allotment of STAMP_CH (R69). -/
def capAllot (t : Tab Word) (r : Nat) : Nat :=
  if capStampEn t r then cdiv (512 * stepsOf t) (2 ^ confF t 0x2114 (capStampCh t r) 3 4) else 0

/-- c_r of R283. -/
def capCr (t : Tab Word) (r : Nat) : Nat := 2 * cdiv (capPerTick t r * (capChans t r).length) 8

/-- c_s of R283. -/
def capCs (t : Tab Word) (r : Nat) : Nat := 2 * cdiv (capAllot t r) 4

/-- A ring. -/
def capRing (s : State) (r : Nat) : CapRing := tget {} s.caps r

/-- Changes a ring. -/
def modCap (r : Nat) (g : CapRing → CapRing) (s : State) : State := { s with caps := tmod {} s.caps r g }

/-! ## Writing (R277, R284) -/

/-- The oldest valid frame (R282). -/
def oldest (depth : Nat) (x : CapRing) : Int := max 0 ((x.n : Int) - depth)

/-- After a write, frames of the active capture that were overwritten are lost (R284). -/
def overtake (depth : Nat) (x : CapRing) : CapRing :=
  match x.run with
  | none => x
  | some c =>
    let o := min (oldest depth x) (c.last + 1)
    if o ≤ c.nextF then x
    else
      let pre := (min o (max c.nextF c.trig) - c.nextF).toNat
      { x with run := some { c with overtaken := true, nextF := o, preLost := c.preLost + pre,
                                    postLost := c.postLost + ((o - c.nextF).toNat - pre) } }

/-- One frame is written; the capture whose trigger frame or last frame it is takes what it shows (R290). -/
def writeFrame (depth : Nat) (fr : CapFrame) (x : CapRing) : CapRing :=
  let run := x.run.map (fun c =>
    let c := if c.trig = (x.n : Int) then
        { c with trigTick := fr.tick, trigEp := fr.ep, trigFl := fr.ws.foldl (fun m w => m ||| w.2) 0 } else c
    if c.last = (x.n : Int) then { c with lastTick := some fr.tick } else c)
  { x with n := x.n + 1, frames := (fr :: x.frames).take depth, run := run }

/-- Rate index of a ring. -/
def capK (t : Tab Word) (r : Nat) : Nat := fld (capWord t r 0) 0 4

/-- The number of the first frame of a tick, or after it where it holds none, on a stretch's grid. -/
def gridFrame (k : Nat) (g : CapGrid) (tick : TickNo) : Int :=
  g.n + ((g.dpc : Int) + ((tick.toNat : Int) - g.tick.toNat) * g.len) / (2 ^ k : Nat) - ((g.dpc / 2 ^ k : Nat) : Int)

/-- A tick joins the stretches, newest first: as part of the newest one where its grid goes on. -/
def joinGrid (k : Nat) (g : CapGrid) : List CapGrid → List CapGrid
  | [] => [g]
  | h :: l =>
    if g.len = h.len ∧ gridFrame k h g.tick = g.n ∧
        ((h.dpc : Int) + ((g.tick.toNat : Int) - h.tick.toNat) * h.len) % 4096 = g.dpc then h :: l
    else g :: h :: l

/-- The number of the first frame of a tick over stretches, newest first; before the oldest one by its own grid (R281). -/
def tickFrame (k : Nat) (tick : TickNo) : List CapGrid → Int → Int
  | [], hi => hi
  | [g], hi => min hi (gridFrame k g tick)
  | g :: l, hi => if g.tick ≤ tick then min hi (gridFrame k g tick) else tickFrame k tick l g.n

/-- A captured stamp is gone: one that was not delivered, of a tick from the first delivered frame to the last frame (R284). -/
def stampCut (cuts : List (Nat × TickNo)) (c : CapRun) : CapRun :=
  match c.firstTick with
  | some ft =>
    let gone := fun (e : Nat × TickNo) =>
      decide (c.nextS ≤ e.1) && decide (ft ≤ e.2) && (match c.lastTick with | some lt => decide (e.2 ≤ lt) | none => true)
    { c with stampLost := c.stampLost || cuts.any gone }
  | none => c

/-- The first entry of each tick. -/
def perTick (l : List (Nat × TickNo)) : List (Nat × TickNo) := l.foldr (fun e a => e :: a.filter (fun d => d.2 != e.2)) []

/-- A write of a ring is done: frames, or stamps that may push out older ones (R275, R277, R284). -/
def capWrite (t : Tab Word) (r : Nat) (w : CapWrite) (x : CapRing) : CapRing :=
  match w with
  | .frames l => let d := capDepth t r; overtake d (l.foldl (fun x f => writeFrame d f x) x)
  | .stamps tick words =>
    let l := words.foldl (fun (a : List (Nat × TickNo × Nat) × Nat) w => ((a.2, tick, w) :: a.1, a.2 + 1)) (x.stamps, x.ns)
    let cut := (l.1.drop (capStamps t r)).map (fun e => (e.1, e.2.1))
    let held := fun (e : Nat × TickNo) => match x.frames.getLast? with | some f => decide (f.tick ≤ e.2) | none => true
    { x with stamps := l.1.take (capStamps t r), ns := l.2, stTick := some tick, run := x.run.map (stampCut cut),
             cuts := perTick (cut ++ x.cuts) |>.filter held }

/-- A write of the tick is due: done at once, or it waits behind those not finished, or for the memory (R32, R34). -/
def capDue (t : Tab Word) (r : Nat) (w : CapWrite) (x : CapRing) : CapRing :=
  if x.slow || !x.wait.isEmpty then { x with slow := false, wait := x.wait ++ [(0, w)] } else capWrite t r w x

/-- The memory does not finish the next write of these rings in its tick (R32). -/
def slowRings (l : List Nat) (s : State) : State :=
  (List.range 32).foldl (fun s r => if l.contains r then modCap r (fun x => { x with slow := true }) s else s) s

/-- The oldest n of a ring's waiting writes are done. -/
def capCatch (t : Tab Word) (r : Nat) : Nat → CapRing → CapRing
  | 0, x => x
  | n + 1, x =>
    match x.wait with
    | [] => x
    | e :: l => capCatch t r n (capWrite t r e.2 { x with wait := l })

/-- The frames that wait to be written. -/
def framesWaiting (x : CapRing) : Nat := x.wait.foldl (fun n e => match e.2 with | .frames l => n + l.length | .stamps .. => n) 0

/-- The newest conversions of a tick's frames with tick and epoch: those of the first slot's channel that has filtered samples, else of
the module's own grid (R167, R274, R277). -/
def tickGrid (t : Tab Word) (r : Nat) (s : State) : List (Nat × TickNo × Half) :=
  let chs := capChans t r
  match (chs.map (fun c => (chan s c).ys)).find? (fun l => !l.isEmpty) with
  | some l => l.map (fun y => (y.cv, y.tick, y.ep))
  | none =>
    let ep := match chs with | c :: _ => (frond s (c / 16)).depoch | [] => s.tm.epoch
    (gridOf s.tm.dpcPrev (capK t r) ((s.abs - s.absPrev) / 64)).map (fun c => (s.absPrev / 64 + c, s.tm.prev, ep))

/-- The frames of the data tick, once every frond of the ring's slots has delivered it or lost it (R274, R277). A channel without filtered
samples, as of a frond that reports NOCFG, enters as 0 with MISSING: the spec is silent (DESIGN CHOICE, log 77). -/
def capFrames (t : Tab Word) (r : Nat) (s : State) : State :=
  let x := capRing s r
  if !capEn t r || decide (s.absPrev < x.start) || decide (x.upTo > s.absPrev) then s
  else
    let l := (tickGrid t r s).map (fun (g : Nat × TickNo × Half) =>
      let ws := (capChans t r).map (fun c =>
        match (chan s c).ys.find? (fun y => y.cv == g.1) with | some y => (y.y, y.fl) | none => ((0 : Word), 4))
      ({ ws := ws, tick := g.2.1, cv := g.1, ep := g.2.2 } : CapFrame))
    let grid : CapGrid := ⟨s.tm.prev, x.n + framesWaiting x, s.tm.dpcPrev, (s.abs - s.absPrev) / 64⟩
    { s with caps := tput s.caps r (capDue t r (.frames l) { x with grids := joinGrid (capK t r) grid x.grids, upTo := s.abs }) }

/-- The stamps of the data tick of STAMP_CH (R275, R284). -/
def capStampTick (t : Tab Word) (r : Nat) (words : List Nat) (s : State) : State :=
  let x := capRing s r
  if !capEn t r || !capStampEn t r || decide (s.absPrev < x.start) then s
  else { s with caps := tput s.caps r (capDue t r (.stamps s.tm.prev words) x) }

/-! ## Triggers (R278 to R282, R287) -/

/-- Conversions since reset at the current tick edge. -/
def convNow (s : State) : Nat := s.abs / 64

/-- The trigger time at a number of core cycles after the current edge, in 1/512 core cycles since reset. -/
def keyAt (s : State) (cycles : Nat) : Nat := convNow s * 125000 + cycles * 512

/-- Frames of rate index k whose newest conversion is one of the first n conversions from a decimation phase on (R167). -/
def boundaries (k dpc n : Nat) : Nat := (dpc + n) / 2 ^ k - dpc / 2 ^ k

/-- The ended tick of an enabled ring has frames that are not written yet: its uplink has not arrived (R277). -/
def frameOwed (x : CapRing) (s : State) : Bool := decide (x.start ≤ s.absPrev) && decide (x.upTo ≤ s.absPrev)

/-- The number of the first frame that ends at or after the current tick edge: of the ended tick, what is written, waits or will be. -/
def frameNow (k : Nat) (x : CapRing) (s : State) : Nat :=
  x.n + framesWaiting x + (if frameOwed x s then boundaries k s.tm.dpcPrev ((s.abs - s.absPrev) / 64) else 0)

/-- The trigger frame of conversion y of the current tick, the first whose newest conversion is y or later: its number, and the
tick and epoch that the present grid gives it (R279). -/
def frameAt (t : Tab Word) (r : Nat) (s : State) (y : Nat) : Int × TickNo × Half :=
  let k := capK t r
  let n := y - convNow s
  let c : Int := n + (-((s.tm.dpc : Int) + n + 1)) % (2 ^ k : Nat)
  ((frameNow k (capRing s r) s + boundaries k s.tm.dpc n : Nat), s.tm.count + BitVec.ofInt 48 (c / (512 * stepsOf t : Nat)), s.tm.epoch)

/-- The number of a tick's first frame: from what the ring recorded, with the ended and the current tick (R281). -/
def rewindFrame (t : Tab Word) (r : Nat) (s : State) (tick : TickNo) : Int :=
  let k := capK t r
  let x := capRing s r
  let old := if frameOwed x s then joinGrid k ⟨s.tm.prev, x.n + framesWaiting x, s.tm.dpcPrev, (s.abs - s.absPrev) / 64⟩ x.grids else x.grids
  let cur : CapGrid := ⟨s.tm.count, frameNow k x s, s.tm.dpc, 512 * stepsOf t⟩
  tickFrame k tick (cur :: old) (gridFrame k cur tick)

/-- The rewind mark of a capture is set: what lies before the oldest valid frame is lost (R281, R282). -/
def setMark (depth : Nat) (x : CapRing) (mark : Int) (c : CapRun) : CapRun :=
  let o := oldest depth x
  { c with nextF := max mark o, overtaken := decide (mark < o), preLost := (o - mark).toNat }

/-- The tick of frame i of a ring, where it has been written and is kept. -/
def frameTick (x : CapRing) (i : Int) : Option TickNo :=
  if i < 0 ∨ (x.n : Int) ≤ i then none else ((x.frames.drop ((x.n : Int) - 1 - i).toNat).head?).map (·.tick)

/-- A trigger is accepted; with POST 0 its last frame may be in already (R281, R282, R283, R285). -/
def capAccept (t : Tab Word) (r key src rule : Nat) (id : Option Nat) (rewind : Option TickNo) (s : State) : State :=
  let x := capRing s r
  let (trig, tick, ep) := frameAt t r s (cdiv key 125000)
  let last := trig + (fld (capWord t r 4) 0 24 : Int) - 1
  let mark := match rewind with
    | some k => rewindFrame t r s k
    | none => trig - (fld (capWord t r 3) 0 24 : Int)
  let run : CapRun := { key := key, trig := trig, trigTick := tick, trigEp := ep, last := last, nextF := mark, sources := src,
                        rule := rule, ids := id.toList, lastTick := frameTick x last }
  { s with caps := tput s.caps r { x with run := some (setMark (capDepth t r) x mark run), read := false } }

/-- A trigger of equal time joins the capture; its rewind tick sets the mark as long as readout has not begun (R280, R281). -/
def capJoin (t : Tab Word) (r src rule : Nat) (id : Option Nat) (rewind : Option TickNo) (c : CapRun) (s : State) : State :=
  let c := { c with sources := c.sources ||| src, rule := min c.rule rule, ids := id.toList ++ c.ids }
  let c := match rewind with
    | some k => if c.head then c else setMark (capDepth t r) (capRing s r) (rewindFrame t r s k) c
    | none => c
  modCap r (fun x => { x with run := some c }) s

/-- A trigger request: whether it is accepted (R280). Source bits: 1 rule, 2 SYNC_IN, 4 descriptor. -/
def capTrigger (r key src rule : Nat) (id : Option Nat) (rewind : Option TickNo) (s : State) : State × Bool :=
  let t := s.cfg
  let x := capRing s r
  let may := capEn t r && (src == 4 || x.armed)
  match x.run with
  | some c =>
    if may && c.key == key then (capJoin t r src rule id rewind c s, true)
    else (modCap r (fun x => { x with ignored := satAdd 255 x.ignored 1, run := some { c with missed := c.missed + 1 } }) s, false)
  | none =>
    if may then (capAccept t r key src rule id rewind s, true)
    else (modCap r (fun x => { x with ignored := satAdd 255 x.ignored 1 }) s, false)

/-! ## Readout (R283, R285, R290) -/

/-- A CAPTURE_SEGMENT cell (Table 8-1). -/
def capCell (r : Nat) (x : CapRing) (c : CapRun) (aborted : Bool) (form : Nat) (tick : TickNo) (ep : Half) (fl : Nat) (data : List Byte) : Cell :=
  { typ := 0x30, source := BitVec.ofNat 16 r, epoch := ep, tick := tick, flags := BitVec.ofNat 16 fl,
    body := [BitVec.ofNat 8 r, BitVec.ofNat 8 form] ++ le 2 (b2n c.overtaken + 2 * b2n aborted + 4 * b2n c.stampLost) ++
            le 4 (x.seq + 1) ++ le 4 c.seg ++ padTo 32 data }

/-- The head cell's data (Table 8-2). -/
def capHead (t : Tab Word) (r : Nat) (c : CapRun) : List Byte :=
  let ch := fun i => le 2 ((capSlot t r i).getD 0xFFFF)
  le 4 c.trigTick.toNat ++ le 4 (fld (capWord t r 3) 0 24) ++ le 4 (fld (capWord t r 4) 0 24) ++ le 1 (capChans t r).length ++
  le 1 (fld (capWord t r 0) 0 4) ++ le 1 c.sources ++ [0] ++ le 2 c.rule ++
  le 2 (if capStampEn t r then capStampCh t r else 0xFFFF) ++ ch 0 ++ ch 1 ++ ch 2 ++ ch 3

/-- Frames delivered: whole frames of the words delivered. -/
def capDelivered (t : Tab Word) (r : Nat) (c : CapRun) : Nat := c.dw / max 1 (capChans t r).length

/-- The tail cell's data (Table 8-2). -/
def capTail (t : Tab Word) (r : Nat) (c : CapRun) : List Byte :=
  le 4 (capDelivered t r c) ++ le 4 c.preDel ++ le 4 c.preLost ++ le 4 c.postLost ++ le 4 c.stamps ++ le 4 c.missed

/-- The result of a CAPTURE_ARM with TRIGGER (Table 12-10). -/
def capResult (t : Tab Word) (r : Nat) (seq : Nat) (c : CapRun) (aborted : Bool) : List Byte :=
  le 4 seq ++ le 4 (capDelivered t r c) ++ le 4 c.preLost ++ le 4 c.postLost ++
  le 1 (b2n c.overtaken + 2 * b2n aborted + 4 * b2n c.stampLost)

/-- A capture ends: its tail cell closes the packet, BUSY falls, CAP_SEQ advances, descriptors complete (R285 to R287). -/
def capEnd (t : Tab Word) (r : Nat) (aborted : Bool) (cells : List Cell) (c : CapRun) (s : State) : State :=
  let x := capRing s r
  let tail := capCell r x c aborted 3 c.trigTick c.trigEp c.trigFl (capTail t r c)
  let s := enqueue (fld (capWord t r 3) 24 8) (cells ++ [tail]) s
  let s := modCap r (fun x => { x with run := none, owed := 0, seq := (x.seq + 1) % 2 ^ 32, armed := x.armed && bit (capWord t r 0) 5 }) s
  c.ids.foldl (fun s id => complete id 0 (capResult t r ((x.seq + 1) % 2 ^ 32) c aborted) s) s

/-- Sample cells of words, eight to a cell, the last one padded when `final`; answers cells, run, words left. -/
def sampleCells (r : Nat) (x : CapRing) : Nat → Bool → List (Word × Nat × TickNo × Half) → CapRun → List Cell × CapRun × List (Word × Nat × TickNo × Half)
  | 0, _, ws, c => ([], c, ws)
  | k + 1, final, ws, c =>
    let g := ws.take 8
    match g with
    | [] => ([], c, ws)
    | w :: _ =>
      if g.length < 8 && !final then ([], c, ws)
      else
        let fl := g.foldl (fun m e => m ||| e.2.1) 0
        let cell := capCell r x c false 1 w.2.2.1 w.2.2.2 fl (g.map (fun e => le 4 e.1.toNat)).flatten
        let (l, c, rest) := sampleCells r x k final (ws.drop 8) { c with seg := c.seg + 1, dw := c.dw + g.length }
        (cell :: l, c, rest)

/-- Stamp cells, four stamps to a cell; stamps wait until four fill one or, when `final`, the last one is padded with zeros
(DESIGN CHOICE, log 63). -/
def stampCells (r : Nat) (x : CapRing) : Nat → Bool → List (Nat × TickNo × Nat) → CapRun → List Cell × CapRun
  | 0, _, _, c => ([], c)
  | k + 1, final, l, c =>
    let g := l.take 4
    match g.getLast? with
    | none => ([], c)
    | some e =>
      if g.length < 4 && !final then ([], c)
      else
        let cell := capCell r x c false 2 c.trigTick c.trigEp c.trigFl (g.map (fun e => le 4 e.2.1.toNat ++ le 4 e.2.2)).flatten
        let (m, c) := stampCells r x k final (l.drop 4) { c with seg := c.seg + 1, stamps := c.stamps + g.length, nextS := e.1 + 1 }
        (cell :: m, c)

/-- The head cell of a capture that has not delivered it, and the capture with it delivered (R290). -/
def takeHead (t : Tab Word) (r : Nat) (x : CapRing) (c : CapRun) : List Cell × CapRun :=
  if c.head then ([], c)
  else ([capCell r x c false 0 c.trigTick c.trigEp c.trigFl (capHead t r c)], { c with head := true, seg := 1 })

/-- What a capture delivers of a ring in a tick: its cells, the capture after them, and whether it ends (R281 to R285). -/
def capStep (t : Tab Word) (r : Nat) (x : CapRing) (c : CapRun) : List Cell × CapRun × Bool :=
  let (hd, c) := takeHead t r x c
  let nch := max 1 (capChans t r).length
  let cr := capCr t r
  let want := cdiv (8 * cr - c.rest.length) nch
  let have_ := (min (c.last + 1) x.n - c.nextF).toNat
  let take := min want have_
  let skip := ((x.n : Int) - c.nextF).toNat - take
  let pulled := ((x.frames.drop skip).take take).reverse
  let words := (pulled.map (fun f => f.ws.map (fun w => (w.1, w.2, f.tick, f.ep)))).flatten
  let pre := (min (c.nextF + take) (max c.trig c.nextF) - c.nextF).toNat
  let c := { c with nextF := c.nextF + take, preDel := c.preDel + pre,
                    firstTick := match c.firstTick with | some ft => some ft | none => pulled.head?.map (·.tick) }
  let allIn := decide (c.last < c.nextF)
  let c := stampCut x.cuts c
  let (sc, c, rest) := sampleCells r x cr allIn (c.rest ++ words) c
  let c := { c with rest := rest }
  let done := allIn && rest == []
  let stIn := !capStampEn t r || c.firstTick.isNone ||
    (match x.stTick, c.lastTick with | some a, some b => decide (b ≤ a) | _, _ => false)
  let mine := match c.firstTick with
    | none => []
    | some ft => (x.stamps.reverse.filter (fun e => decide (c.nextS ≤ e.1) && decide (ft ≤ e.2.1) &&
        (match c.lastTick with | some lt => decide (e.2.1 ≤ lt) | none => true)))
  let (tc, c) := if capStampEn t r then stampCells r x (capCs t r) (done && stIn) mine c else ([], c)
  let left := mine.filter (fun e => decide (c.nextS ≤ e.1))
  (hd ++ sc ++ tc, c, done && stIn && (left == [] || !capStampEn t r))

/-- One tick's readout of ring r: the tick's own, whose cells form one packet with those of deferred readouts before it, or a deferred one,
whose cells wait for it (R34, R283, R285, R290). -/
def capReadout (own : Bool) (t : Tab Word) (r : Nat) (s : State) : State :=
  match (capRing s r).run with
  | none => s
  | some c =>
    let (cells, c, ends) := capStep t r (capRing s r) c
    let all := (capRing s r).held ++ cells
    let s := modCap r (fun x => { x with run := some c, held := if own || ends then [] else all }) s
    if ends then capEnd t r false all c s
    else if !own || all = [] then s else enqueue (fld (capWord t r 3) 24 8) all s

/-- The deferred readouts of a capture, one for each tick owed (R32, R34). -/
def capOwed (t : Tab Word) (r : Nat) : Nat → State → State
  | 0, s => s
  | n + 1, s => capOwed t r n (capReadout false t r (modCap r (fun x => { x with owed := x.owed - 1 }) s))

/-- Cells of deferred readouts that no readout of the tick has followed enter their queue as the tick ends (R290). -/
def flushHeld (s : State) : State :=
  (List.range 32).foldl (fun s r =>
    let l := (capRing s r).held
    if l = [] then s else enqueue (fld (capWord s.cfg r 3) 24 8) l (modCap r (fun x => { x with held := [] }) s)) s

/-- An active capture ends at an epoch edge with ABORTED, its head before its tail where it has delivered none (R286, R290). -/
def capAbort (t : Tab Word) (r : Nat) (s : State) : State :=
  match (capRing s r).run with
  | none => s
  | some c =>
    let (hd, c) := takeHead t r (capRing s r) c
    capEnd t r true ((capRing s r).held ++ hd) c (modCap r (fun x => { x with held := [] }) s)

/-- CAPTURE_READOUT of ring r, once in a tick for a capture and after its deferred writes and readouts (R33, R283). -/
def execCaptureReadout (r : Nat) (s : State) : Host.Outcome State Fault Refusal :=
  let x := capRing s r
  if !running s || x.read || x.run.isNone || decide (x.owed > 0) || x.wait.any (fun e => decide (e.1 > 0)) || decide (r ≥ 32) then .next s
  else .next (capReadout true s.cfg r (modCap r (fun x => { x with read := true }) s))

/-- The rings at an epoch edge: deferred writes and readouts of a ring that changes are done first (R32, R277, R286, R288). -/
def capsEpoch (old : Tab Word) (s : State) : State :=
  (List.range 32).foldl (fun s r =>
    let same := (List.range 5).all (fun i => capWord old r i == capWord s.cfg r i)
    if same || !(capEn old r || capEn s.cfg r) then s
    else
      let s := modCap r (fun x => capCatch old r x.wait.length x) s
      let s := capAbort old r (capOwed old r (capRing s r).owed s)
      modCap r (fun x => { x with armed := capEn s.cfg r, start := s.abs, n := 0, frames := [], upTo := 0, grids := [], ns := 0,
                                  stamps := [], stTick := none, cuts := [], wait := [], held := [], owed := 0 }) s) s

end Sys2Proof.Machine
end

