-- ==== Sys2Proof/Machine/Feature.lean ====
section
/-! DEFINITION. The feature engine: features of a block, its slices, its records (06). -/

namespace Sys2Proof.Machine
open Sys2Proof

/-! ## Cosine and argument (R209, R210, R216, R220) -/

/-- Pi times 2^300, rounded down. -/
def pi300 : Nat := 6399537258350533404498902296276095619968599404742382956244570183135712832137875919436931981

/-- cos x times 2^100 from x^2 times 2^100, for x of at most pi/2: eighteen terms of the series. -/
def cosSeries (x2 : Nat) : Int :=
  (List.range 18).foldr (fun k h => 2 ^ 100 - (x2 : Int) * h / (2 ^ 100 * ((2 * k + 1) * (2 * k + 2)) : Nat)) (2 ^ 100)

/-- cos(2 pi i / N) times 2^60, to the nearest. -/
def cosT (n i : Nat) : Int :=
  let a := min (i % n) (n - i % n)
  let x := pi300 * (if 4 * a > n then n - 2 * a else 2 * a) / (n * 2 ^ 200)
  let c := rne (cosSeries (x * x / 2 ^ 100)) (2 ^ 40)
  if 4 * a > n then -c else c

/-- The tangent of half the angle whose tangent is t, both times 2^300. -/
def halfTan (t : Nat) : Nat := t * 2 ^ 300 / (2 ^ 300 + Nat.sqrt (2 ^ 600 + t * t))

/-- The angle whose tangent is t, at most 1, both times 2^300: eight halvings, then twenty terms of the series. -/
def atanOf (t : Nat) : Int :=
  let u := (List.range 8).foldl (fun v _ => halfTan v) t
  let h := (List.range 20).foldr (fun k (g : Int) => (2 ^ 300 / (2 * k + 1) : Nat) - (u * u / 2 ^ 300 : Nat) * g / 2 ^ 300) 0
  256 * u * h / 2 ^ 300

/-- arg (re + j im) in (-pi, pi], times 2^300. -/
def argOf (re im : Int) : Int :=
  let a := im.natAbs
  let b := re.natAbs
  let q := if a ≤ b then atanOf (a * 2 ^ 300 / b) else (pi300 / 2 : Nat) - atanOf (b * 2 ^ 300 / a)
  let p := if re < 0 then (pi300 : Int) - q else q
  if im < 0 then -p else p

/-! ## Values within R226 of their definitions -/

/-- The engine's deviation of a feature, in units of 10^-30 and at most m of them either way. -/
def deviation (kind : Nat) (ys : List Word) (m : Nat) : Int := clampI (-(m : Int)) m (Config.engineErr kind ys)

/-- A feature as the engine gives it, from n / d where every sample is finite: within 10^-5 of it, rounded once (R226). -/
def near (kind : Nat) (ys : List Word) (n : Int) (d : Nat) : Word :=
  if ys.all f32Finite then f32OfRat (n * (10 ^ 30 + deviation kind ys (10 ^ 25))) (d * 10 ^ 30) else Config.openFeature kind ys

/-- A feature that is a root, within the same bound. -/
def nearSqrt (kind : Nat) (ys : List Word) (n d : Nat) : Word :=
  let e := (10 ^ 30 + deviation kind ys (10 ^ 25)).toNat
  if ys.all f32Finite then f32Sqrt (n * e * e) (d * 10 ^ 60) else Config.openFeature kind ys

/-- A line amplitude n / d of a block whose largest is mx / d: within 4 10^-6 of the largest (R226). -/
def nearLine (kind : Nat) (ys : List Word) (n mx d : Nat) : Word :=
  if ys.all f32Finite then f32OfRat (max 0 ((n : Int) * 10 ^ 30 + mx * deviation kind ys (4 * 10 ^ 24))) (d * 10 ^ 30)
  else Config.openFeature kind ys

/-! ## Time-domain features (R207, R208) -/

/-- The samples as integers: y times 2^149. -/
def ints (ys : List Word) : List Int := ys.map f32Int

/-- A sum. -/
def isum (l : List Int) : Int := l.foldl (· + ·) 0

/-- N times each deviation from the mean: the central moments of order p are their mean p-th powers over N^p. -/
def devs (l : List Int) : List Int := let m := isum l; l.map (fun x => (l.length : Int) * x - m)

/-- MEAN, RMS, PEAK, PKPK, CREST, KURT, SKEW, and whether m2 is 0 (R207, R208). A block with an infinite sample has no m2; its
features are open (log 4). -/
def timeFeatures (ys : List Word) : List Word × Bool :=
  let l := ints ys
  let n := max 1 l.length
  let dv := devs l
  let q2 := isum (dv.map (fun x => x * x))
  let q3 := isum (dv.map (fun x => x * x * x))
  let q4 := isum (dv.map (fun x => x * x * x * x))
  let pk := dv.foldl (fun m x => max m x.natAbs) 0
  let mx := l.foldl max (l.headD 0)
  let mn := l.foldl min (l.headD 0)
  let mean := near 0 ys (isum l) (n * f32One)
  if q2 = 0 && ys.all f32Finite then ([mean, 0, 0, 0, 0, 0, 0], true)
  else
    let s2 := q2.toNat
    let skewAbs := nearSqrt 6 ys (q3.natAbs * q3.natAbs * n) (s2 * s2 * s2)
    ([mean, nearSqrt 1 ys s2 (n * n * n * f32One * f32One), near 2 ys pk (n * f32One), near 3 ys (mx - mn) f32One,
      nearSqrt 4 ys (pk * pk * n) s2, near 5 ys (q4 * n) (s2 * s2), if q3 < 0 then f32Neg skewAbs else skewAbs], false)

/-! ## Windows and spectrum (R209 to R211) -/

/-- a0 to a4 of Table 6-2 in units of 10^-9. -/
def winCoef (w : Nat) : List Nat :=
  match w with
  | 0 => [1000000000, 0, 0, 0, 0]
  | 1 => [500000000, 500000000, 0, 0, 0]
  | 2 => [215578950, 416631580, 277263158, 83578947, 6947368]
  | _ => [358750000, 488290000, 141280000, 11680000, 0]

/-- A coefficient as its binary32 value times 2^149. -/
def coef (w i : Nat) : Int := f32Int (f32OfRat (nthD (winCoef w) i 0) 1000000000)

/-- w[i] of R209 times 2^209. -/
def window (w n i : Nat) : Int :=
  coef w 0 * 2 ^ 60 - coef w 1 * cosT n i + coef w 2 * cosT n (2 * i) - coef w 3 * cosT n (3 * i) + coef w 4 * cosT n (4 * i)

/-- X[m] of R210, real and imaginary part, times 2^418. -/
def lineX (w : Nat) (ys : List Word) (m : Nat) : Int × Int :=
  let n := ys.length
  (ys.zipIdx).foldl (fun (a : Int × Int) (e : Word × Nat) =>
    let v := window w n e.2 * f32Int e.1
    (a.1 + v * cosT n (m * e.2), a.2 - v * cosT n (m * e.2 + 3 * n / 4))) (0, 0)

/-- S1 = a0 N times 2^418. -/
def winS1 (w n : Nat) : Nat := (coef w 0 * n * 2 ^ 269).toNat

/-- ENBW of Table 6-2 as its binary32 value times 2^149. -/
def enbw (w : Nat) : Nat := (f32Int (f32OfRat (nthD [10000, 15000, 37703, 20044] w 10000 : Nat) 10000)).toNat

/-- A[m] of R211 in units of 1 / ampUnit, from X[m]. -/
def lineMag (m : Nat) (x : Int × Int) : Nat := Nat.sqrt ((if m = 0 then 1 else 2) * (x.1 * x.1 + x.2 * x.2).toNat * 2 ^ 128)

/-- The unit of lineMag. -/
def ampUnit (w n : Nat) : Nat := winS1 w n * 2 ^ 64

/-- The exact amplitudes of a spectrum's lines. -/
def magnitudes (xs : List (Int × Int)) : List Nat := (xs.zipIdx).map (fun e => lineMag e.2 e.1)

/-- A[m] as the engine gives it, for every line. -/
def amplitudes (w : Nat) (ys : List Word) (mags : List Nat) : List Word :=
  (mags.zipIdx).map (fun e => nearLine (1000000 + e.2) ys e.1 (mags.foldl max 0) (ampUnit w ys.length))

/-- (√2 / S1) times a part of X[m], with 1 / S1 for m = 0 (R235). -/
def partOf (kind w m : Nat) (ys : List Word) (v : Int) : Word :=
  let r := nearSqrt kind ys ((if m = 0 then 1 else 2) * v.natAbs * v.natAbs) (winS1 w ys.length * winS1 w ys.length)
  if v < 0 then f32Neg r else r

/-- The spectrum of a block: X[m] for every line. -/
def spectrum (w : Nat) (ys : List Word) (lines : Nat) : List (Int × Int) := (List.range lines).map (lineX w ys)

/-! ## Velocity and bands (R212 to R218) -/

/-- Δf as a fraction: Hz, or orders on an angle-domain channel (R210, R214). -/
def lineStep (t : Tab Word) (ch : Nat) : Nat × Nat :=
  if angleOn t ch then (spr t ch, planN (feaW t ch)) else (2048000, 2 ^ rateK t ch * planN (feaW t ch))

/-- VRMS of R212, rounded once from its definition, VSCALE included (R226). -/
def velocity (t : Tab Word) (ch : Nat) (ys : List Word) (mags : List Nat) : Word :=
  let (dn, dd) := lineStep t ch
  let lo := if bit (feaW t ch) 12 then 2 else 10
  let win := fld (feaW t ch) 4 2
  let sum := (mags.zipIdx).foldl (fun (a : Nat) e =>
    if e.2 ≠ 0 ∧ lo * dd ≤ e.2 * dn ∧ e.2 * dn < 1000 * dd then a + (e.1 * 2 ^ 64 / e.2) ^ 2 else a) 0
  let n := sum * (dd * 2 ^ 300) ^ 2 * f32One
  let d := (ampUnit win ys.length * 2 ^ 64 * dn * 2 * pi300) ^ 2 * enbw win
  let vs := conf t 0x2168 ch
  if f32Finite vs then
    let v := nearSqrt 9 ys (n * (f32Int vs).natAbs ^ 2) (d * f32One ^ 2)
    if bit vs 31 then f32Neg v else v
  else f32Mul vs (nearSqrt 9 ys n d)

/-- The edges of a band on the line axis times 2^149 * 2^149, lower and upper (R214). -/
def bandEdges (t : Tab Word) (ch : Nat) (cfg a b : Word) (speed : Word) : Int × Int :=
  let one : Int := f32One
  let f : Int := if angleOn t ch then one else f32Int speed
  match fld cfg 0 2 with
  | 1 => (f32Int a * one, f32Int b * one)
  | 2 => (f32Int a * f, f32Int b * f)
  | _ => let h : Int := fld cfg 4 4; ((h * f32Int a - f32Int b) * f, (h * f32Int a + f32Int b) * f)

/-- Entry i of the plan's band set. -/
def bandEntry (t : Tab Word) (ch i : Nat) : Word × Word × Word :=
  let j := 64 * confF t 0x2164 ch 0 6 + i
  (conf t 0x4004 j, conf t 0x4008 j, conf t 0x400C j)

/-- The first line of largest amplitude among some lines (R216). -/
def peakLine (l : List (Nat × Nat)) : Option (Nat × Nat) :=
  l.foldl (fun (a : Option (Nat × Nat)) e => match a with
    | none => some e
    | some x => if x.1 < e.1 then some e else some x) none

/-- arg X[m*] of R216, within R226 and in (-pi, pi] before its rounding; open where X[m*] is 0 (log 4). -/
def phaseOf (kind : Nat) (ys : List Word) (x : Int × Int) : Word :=
  let v := if x = (0, 0) then Config.argZero ys else argOf x.1 x.2 * (10 ^ 30 + deviation kind ys (10 ^ 25)) / 10 ^ 30
  if ys.all f32Finite then f32OfRat (clampI (1 - (pi300 : Int)) pi300 v) (2 ^ 300) else Config.openFeature kind ys

/-- Band value i of a block (R215, R216, R218). -/
def bandValue (t : Tab Word) (ch i : Nat) (speed : Word) (inv : Bool) (ys : List Word) (xs : List (Int × Int)) (mags : List Nat) : Word :=
  let (cfg, a, b) := bandEntry t ch i
  let (lo, hi) := bandEdges t ch cfg a b speed
  let (dn, dd) := lineStep t ch
  let one2 : Int := f32One * f32One
  if fld cfg 0 2 ≥ 2 && inv then f32NaN
  else if hi * dd > one2 * (planLines (feaW t ch) * dn : Nat) then f32NaN
  else
    let u := ampUnit (fld (feaW t ch) 4 2) ys.length
    let l := (mags.zipIdx).filter (fun e => let p := one2 * (e.2 * dn : Nat); decide (lo * dd ≤ p) && decide (p < hi * dd))
    match fld cfg 2 2, peakLine l with
    | _, none => f32NaN
    | 0, _ => nearSqrt (100 + i) ys (l.foldl (fun n e => n + e.1 * e.1) 0 * f32One) (u * u * enbw (fld (feaW t ch) 4 2))
    | 1, some e => near (100 + i) ys e.1 u
    | _, some e => phaseOf (100 + i) ys (xs.getD e.2 (0, 0))

/-! ## Envelope (R220 to R222) -/

/-- The envelope value e[m] of R220 times 2^213: |z[m]| over the window at sample 2m. -/
def envValue (t : Tab Word) (ch : Nat) (xs : List (Int × Int)) (m : Nat) : Nat :=
  let w := feaW t ch
  let n := planN w
  let (dn, dd) := lineStep t ch
  let e := conf t 0x2160 ch
  let lo := 10 * fld e 0 16
  let hi := 10 * fld e 16 16
  let (re, im) := (xs.zipIdx).foldl (fun (a : Int × Int) (x : (Int × Int) × Nat) =>
    if lo * dd ≤ x.2 * dn ∧ x.2 * dn < hi * dd then
      let c := cosT n (2 * x.2 * m)
      let s := cosT n (2 * x.2 * m + 3 * n / 4)
      (a.1 + x.1.1 * c - x.1.2 * s, a.2 + x.1.1 * s + x.1.2 * c)
    else a) (0, 0)
  let wd := (window (fld w 4 2) n (2 * m)).natAbs
  Nat.sqrt (4 * (re * re + im * im).toNat / (n * n * wd * wd * 2 ^ 112))

/-- The valid envelope: H/2 values whose samples lie around the block's middle (R221). -/
def envelope (t : Tab Word) (ch : Nat) (xs : List (Int × Int)) : List Nat :=
  let w := feaW t ch
  let h := planHop w
  let m0 := cdiv ((planN w - h) / 2) 2
  (List.range (h / 2)).map (fun i => envValue t ch xs (m0 + i))

/-- ENV_RMS and ENV_PEAK (R222). -/
def envFeatures (ys : List Word) (l : List Nat) : Word × Word :=
  let n := max 1 l.length
  (nearSqrt 7 ys (isum ((devs (l.map Int.ofNat)).map (fun x => x * x))).toNat (n * n * n * 2 ^ 426), near 8 ys (l.foldl max 0 : Nat) (2 ^ 213))

/-! ## Records (R234, R235) -/

/-- The results of a block: MEAN, then the nine values in the order of Table 8-4, band values, BFLAGS without DEFERRED. -/
structure Results where
  mean : Word
  vals : List Word
  bands : List Word
  bflags : Nat
  deriving DecidableEq, Repr

/-- Everything the engine computes of a block. -/
def blockResults (b : Blk) : Results :=
  let t := b.cfg
  let w := feaW t b.ch
  let ys := b.smp.map (·.y)
  let (tf, degen) := if bit w 8 then timeFeatures ys else (List.replicate 7 0, false)
  let g := fun i => nthD tf i 0
  let xs := if bit w 9 then spectrum (fld w 4 2) ys (planLines w) else []
  let mags := magnitudes xs
  let (er, ep) := if bit w 10 then envFeatures ys (envelope t b.ch xs) else (0, 0)
  let vr := if bit w 11 then velocity t b.ch ys mags else 0
  let bands := (List.range (planBands t b.ch)).map (fun i => bandValue t b.ch i b.speed b.refInv ys xs mags)
  { mean := g 0, vals := [g 1, g 2, g 3, g 4, g 5, g 6, er, ep, vr], bands := bands,
    bflags := b2n degen + 2 * b2n b.refInv + 4 * b2n (bands.any f32IsNaN) + 8 * b2n b.mixed + 16 * b2n (angleOn t b.ch) }

/-- The header flags of a block's records (R205). -/
def blockFlags (b : Blk) : Nat := b.smp.foldl (fun m x => m ||| x.fl) 0 % 16

/-- The last sample of a block. -/
def lastSmp (b : Blk) : Smp := b.smp.getLastD ⟨0, 0, 0, 0, 0, 0, 0, 0⟩

/-- A cell of a block's records. -/
def blockCell (b : Blk) (typ : Byte) (body : List Byte) : Cell :=
  let x := lastSmp b
  { typ := typ, source := BitVec.ofNat 16 b.ch, epoch := x.ep, tick := x.tick, flags := BitVec.ofNat 16 (blockFlags b), body := body }

/-- Binary32 words in a record. -/
def wordsLE (l : List Word) : List Byte := (l.map (fun w => le 4 w.toNat)).flatten

/-- The FEATURE_BLOCK packet (Tables 6-4 to 6-6). -/
def featurePacket (s : State) (b : Blk) (r : Results) : List Cell :=
  let t := b.cfg
  let w := feaW t b.ch
  let f := featCells t b.ch
  let v := fun i => nthD r.vals i 0
  let head := fun (p : Nat) => [BitVec.ofNat 8 p, BitVec.ofNat 8 f]
  let bound := bit (conf t 0x2174 b.ch) 4
  let (dn, dd) := lineStep t b.ch
  let p0 := head 0 ++ le 2 (r.bflags + 32 * b2n b.deferred) ++ le 4 b.b ++ wordsLE [v 0, v 1, v 2, v 3, v 4, v 5, v 6, v 7, v 8]
  let p1 := head 1 ++ le 1 (fld w 4 2 + 4 * fld w 6 2 + 16 * (planBlk w - 10)) ++ le 1 (rateK t b.ch) ++ le 4 b.b ++
    le 4 ((b.smp.head?.map (·.tick.toNat)).getD 0) ++ le 4 (lastSmp b).pos ++ wordsLE [r.mean, f32OfRat dn dd, if bound then b.speed else 0] ++
    le 1 (if bound then refOf t b.ch else 255) ++ le 1 (binField s b.ch b.hasBin b.speed) ++ le 1 (confF t 0x2164 b.ch 0 6) ++
    le 1 (planBands t b.ch)
  let rest := (List.range (f - 2)).map (fun i =>
    let l := (r.bands.drop (10 * i)).take 10
    head (i + 2) ++ le 1 (10 * i) ++ le 1 l.length ++ wordsLE l)
  (p0 :: p1 :: rest).map (blockCell b 0x10)

/-- Spectrum cells from number a on, n of them (Table 6-7). -/
def spectrumCells (b : Blk) (a n : Nat) : List Cell :=
  let t := b.cfg
  let w := feaW t b.ch
  let form := fld w 14 2
  let per := if form = 1 then 8 else 4
  let (lo, cnt) := lineRange t b.ch
  let total := specCells t b.ch
  let ys := b.smp.map (·.y)
  let win := fld w 4 2
  let xs := spectrum win ys (planLines w)
  let amps := amplitudes win ys (magnitudes xs)
  ((List.range total).drop a |>.take n).map (fun k =>
    let c := min per (cnt - per * k)
    let ms := (List.range c).map (fun i => lo + per * k + i)
    let ws := ms.map (fun m =>
      let x := xs.getD m (0, 0)
      if form = 1 then [nthD amps m 0] else [partOf (2000000 + 2 * m) win m ys x.1, partOf (2000001 + 2 * m) win m ys x.2])
    blockCell b 0x11 (le 2 k ++ le 2 total ++ le 4 b.b ++ le 2 (lo + per * k) ++ le 1 form ++ le 1 c ++ wordsLE ws.flatten))

/-- Envelope cells from number a on, n of them (Table 6-7). -/
def envelopeCells (b : Blk) (a n : Nat) : List Cell :=
  let t := b.cfg
  let total := envCells t b.ch
  let w := feaW t b.ch
  let ys := b.smp.map (·.y)
  let l := if total = 0 then [] else
    ((envelope t b.ch (spectrum (fld w 4 2) ys (planLines w))).zipIdx).map (fun e => near (3000000 + e.2) ys (e.1 : Nat) (2 ^ 213))
  ((List.range total).drop a |>.take n).map (fun k =>
    let v := (l.drop (8 * k)).take 8
    blockCell b 0x12 (le 2 k ++ le 2 total ++ le 4 b.b ++ le 2 (8 * k) ++ le 1 3 ++ le 1 v.length ++ wordsLE v))

/-- A packet enters a queue unless it holds no cell. -/
def packet (q : Nat) (l : List Cell) (s : State) : State := if l = [] then s else enqueue q l s

/-! ## Slices (R228 to R232) -/

/-- The end of a block's last slice: FEATURE_BLOCK, map fold, features for the rules; CHN_FEA_SEQ takes the block's number where the
packet enters its queue (R231, R264, R372). Band values are folded also where R372 discards the packet: R264 speaks of the packet that
enters its queue (DESIGN CHOICE, log 78). -/
def finishBlock (b : Blk) (s : State) : State :=
  let t := b.cfg
  let r := blockResults b
  let cells := featurePacket s b r
  let q := confF t 0x216C b.ch 0 8
  let s := if featCells t b.ch = 0 then s
    else { (packet q cells s) with
           plans := if enters q cells.length s then tmod {} s.plans b.ch (fun p => { p with seq := b.b }) else s.plans }
  let x := lastSmp b
  let s := mapFold b.ch r.bands (fun i => fld (bandEntry t b.ch i).1 2 2 == 2) b.hasBin b.speed x.tick s
  { s with feats := s.feats ++ [{ ch := b.ch, b := b.b, vals := r.vals, bands := r.bands, fl := blockFlags b, tick := x.tick, ep := x.ep }] }

/-- One tick's work of a block: a slice, the packets at the last slice, a share of the segment cells. None once all is done. -/
def blockTurn (b : Blk) (s : State) : Option Blk × State :=
  let k := b.turns + 1
  let b2 := { b with turns := k }
  let s := if k = b.slices then finishBlock b s else s
  if k < b.slices then (some b2, s)
  else
    let ps := specCells b.cfg b.ch
    let pe := envCells b.cfg b.ch
    let ns := cdiv ps b.slices
    let ne := cdiv pe b.slices
    let i := k - b.slices
    let s := packet (confF b.cfg 0x216C b.ch 8 8) (spectrumCells b (i * ns) ns) s
    let s := packet (confF b.cfg 0x216C b.ch 16 8) (envelopeCells b (i * ne) ne) s
    (if (i + 1) * ns ≥ ps ∧ (i + 1) * ne ≥ pe then none else some b2, s)

/-- The order in which blocks are worked: ascending channel, then BLOCK_SEQ (R264). -/
def blockLe (a b : Blk) : Bool := a.ch < b.ch || (a.ch == b.ch && a.b ≤ b.b)

/-- A block put in its place. -/
def insertBlk (b : Blk) : List Blk → List Blk
  | [] => [b]
  | c :: r => if blockLe b c then b :: c :: r else c :: insertBlk b r

/-- One tick's work of each block that `sel` selects, in order. -/
def workBlocks (sel : Blk → Bool) (post : Blk → Blk) (s : State) : State :=
  let l := s.blocks.foldl (fun a b => insertBlk b a) []
  l.foldl (fun s b =>
    if !sel b then { s with blocks := s.blocks ++ [b] }
    else
      match blockTurn b s with
      | (some c, s) => { s with blocks := s.blocks ++ [post c] }
      | (none, s) => s) { s with blocks := [] }

/-- Deferred butterfly cycles outstanding (R37). -/
def deferCycles (s : State) : Nat := s.blocks.foldl (fun n b => n + min b.owed (b.slices - b.turns) * cdiv (blockCost b.cfg b.ch) b.slices) 0

/-- The map-cell updates that a block's bands make: those of a channel with MAP_EN whose block has a bin, but for the bands with STAT 2
(R219, R260, R261). -/
def blockUpdates (s : State) (b : Blk) : Nat :=
  if mapOn s && mapEn s b.ch && (blockBin s b.ch b.hasBin b.speed).isSome then
    ((List.range (planBands b.cfg b.ch)).filter (fun i => fld (bandEntry b.cfg b.ch i).1 2 2 != 2)).length
  else 0

/-- Deferred map-cell updates outstanding (R37). -/
def deferMap (s : State) : Nat :=
  s.blocks.foldl (fun n b => n + (if b.turns < b.slices ∧ b.slices ≤ b.turns + b.owed then blockUpdates s b else 0)) 0

/-- Deferred work remains (R32). -/
def workOwed (s : State) : Bool :=
  s.blocks.any (fun b => decide (b.owed > 0)) ||
  s.caps.any (fun e => decide (e.2.owed > 0) || e.2.wait.any (fun w => decide (w.1 > 0)))

/-- A block, a write of a ring or the readout of a capture has work in the tick that ended that is not done: it is deferred (R32, R34). -/
def deferTick (s : State) : State :=
  { s with blocks := s.blocks.map (fun b => if b.ready && !s.sliceRun then { b with owed := b.owed + 1, deferred := true } else b),
           caps := tmap s.caps (fun _ x => { x with owed := if x.run.isSome && !x.read then x.owed + 1 else x.owed,
                                                    wait := x.wait.map (fun e => (e.1 + 1, e.2)) }) }

/-- Writes of the rings that have waited for at least n edges are done. -/
def writeDeferred (n : Nat) (s : State) : State :=
  { s with caps := tmap s.caps (fun r x => capCatch s.cfg r (x.wait.takeWhile (fun e => decide (n ≤ e.1))).length x) }

/-- Deferred readouts of the rings that have at least n outstanding. -/
def readDeferred (n : Nat) (s : State) : State :=
  (List.range 32).foldl (fun s r =>
    if (capRing s r).owed < n then s else modCap r (fun x => { x with owed := x.owed - 1 }) (capReadout false s.cfg r s)) s

/-- Deferred work of every block and ring, in the order of the ticks it belongs to (R33). -/
def runDeferred : Nat → State → State
  | 0, s => s
  | n + 1, s =>
    runDeferred n (readDeferred (n + 1)
      (workBlocks (fun b => decide (b.owed ≥ n + 1)) (fun b => { b with owed := b.owed - 1 }) (writeDeferred (n + 1) s)))

/-- The edges that the oldest deferred work has waited for. -/
def oldestOwed (s : State) : Nat :=
  s.caps.foldl (fun m e => max m (max e.2.owed ((e.2.wait.head?.map (·.1)).getD 0))) (s.blocks.foldl (fun m b => max m b.owed) 0)

/-- DEFERRED_WORK: deferred slices, writes and readouts and the emission that follows from them, before the tick's own work (R33 to R36). -/
def execDeferredWork (s : State) : Host.Outcome State Fault Refusal :=
  if !running s then .next s
  else .next (runDeferred (oldestOwed s) s)

/-- FEATURE_SLICE: one slice of each ready block, once a tick and after the deferred work (R229, R231, R232). -/
def execFeatureSlice (s : State) : Host.Outcome State Fault Refusal :=
  if !running s || s.sliceRun || workOwed s then .next s
  else .next (workBlocks (fun b => b.ready) id { s with sliceRun := true })

end Sys2Proof.Machine
end

