-- ==== Sys2Proof/Machine/LspOps.lean ====
section
/-! DEFINITION. The stream-port FIFO and its pins as the core and the read clock see them (R387 to R390, R439). -/

namespace Sys2Proof.Machine
open Sys2Proof

/-- The queue with EGRESS 2 in force. -/
def lspQueue (s : State) : Option Nat := (List.range 256).find? (fun q => egress s q == 2)

/-- The stream port is active (R439). -/
def lspActive (s : State) : Bool := !s.auto && running s && (lspQueue s).isSome

/-- Evaluates LSP_AFULL of the stream-port queue after a change of the FIFO (R390). -/
def lspSettle (s : State) : State :=
  match lspQueue s with
  | none => s
  | some q => { s with queues := tmod {} s.queues q (fun x => { x with afull := (wmUpd s q x).afull }) }

/-- LSP_EMPTY_N: the synchronised write pointer differs from the read pointer (R389). -/
def lspReady (s : State) : Bool := lspActive s && s.lsp.wr2 != s.lsp.rd

/-- An epoch at which no queue has EGRESS 2 any more discards the packets in the FIFO; each counts in LOST of the queue that
had it (R388). The alive counter restarts, so that the first record after the port is enabled again carries 1 (R392). -/
def lspEpoch (s : State) : State :=
  match lspQueue s with
  | some q => lspSettle { s with lsp := { s.lsp with queue := some q } }
  | none =>
    match s.lsp.queue with
    | none => s
    | some q =>
      let n := (s.lsp.fifo.filter (·.2)).length
      { s with queues := tmod {} s.queues q (addLost n),
               lsp := { s.lsp with fifo := [], wr := 0, wr1 := 0, wr2 := 0, rd := 0, rd2 := 0, alive := 0, queue := none,
                                   afull1 := false, afull2 := false } }

end Sys2Proof.Machine
end

