-- ==== Sys2Proof/Machine/IpOps.lean ====
section
/-! DEFINITION. The frames of the internet protocols that the module answers or sends of itself: ARP, neighbour discovery, ICMP and
ICMPv6 echo, and the UDP checksum (R460, R463, R468). The spec names these protocols and does not print their layouts: those are the
protocols' own (PRESUMED, log 84). -/

namespace Sys2Proof.Machine
open Sys2Proof

/-- A value in k bytes of network order (R468). -/
def be (k v : Nat) : List Byte := (le k v).reverse

/-- n bytes from an offset on. -/
def seg (b : List Byte) (o n : Nat) : List Byte := (b.drop o).take n

/-- The value of n bytes of network order. -/
def beVal (b : List Byte) (o n : Nat) : Nat := leVal (seg b o n).reverse

/-- The base MAC address in transmission order (R463). -/
def macBytes : List Byte := be 6 Config.mac.toNat

/-- The port address of ETH0 or ETH1, base + 1 or base + 2: the source of 802.1AS frames and the address in MACsec SCIs (R463). -/
def portMac (p : Nat) : List Byte := be 6 ((Config.mac.toNat + 1 + p) % 2 ^ 48)

/-- The IPv6 link-local address: a modified EUI-64 of the base address (R463). -/
def linkLocal : List Byte :=
  [0xFE, 0x80] ++ List.replicate 6 0 ++ (nthD macBytes 0 0 ^^^ 2) :: (macBytes.drop 1).take 2 ++ [0xFF, 0xFE] ++ macBytes.drop 3

/-- The sum of the 16-bit words in network order, an odd byte padded with 0. -/
def onesSum : List Byte → Nat
  | [] => 0
  | [a] => a.toNat * 256
  | a :: b :: r => a.toNat * 256 + b.toNat + onesSum r

/-- The internet checksum: the ones' complement of the ones' complement sum. -/
def inetSum (b : List Byte) : Nat :=
  let n := onesSum b
  let m := n % 65536 + n / 65536
  65535 - (m % 65536 + m / 65536)

/-- The pseudo-header of a transport checksum, over IPv6 or IPv4 by the length of the addresses. -/
def pseudo (src dst : List Byte) (proto n : Nat) : List Byte :=
  src ++ dst ++ (if dst.length = 16 then be 4 n ++ be 4 proto else be 2 proto ++ be 2 n)

/-- The UDP checksum, over IPv4 as well; a sum of 0 is sent as 0xFFFF (R468). -/
def udpSum (d : GramDest) (payload : List Byte) : Nat :=
  let n := 8 + payload.length
  let x := inetSum (pseudo d.srcIp d.addr 17 n ++ be 2 d.src ++ be 2 d.udp ++ be 2 n ++ [0, 0] ++ payload)
  if x = 0 then 65535 else x

/-! ## Frames -/

/-- The VLAN tag of a frame, none or four bytes. -/
def tagOf (b : List Byte) : List Byte := if beVal b 12 2 = 0x8100 then seg b 12 4 else []

/-- The EtherType of a frame, behind its tag. -/
def etherType (b : List Byte) : Nat := beVal b (12 + (tagOf b).length) 2

/-- What a frame carries behind its EtherType. -/
def netPart (b : List Byte) : List Byte := b.drop (14 + (tagOf b).length)

/-- A frame. -/
def ether (dst src tag : List Byte) (ty : Nat) (p : List Byte) : List Byte := dst ++ src ++ tag ++ be 2 ty ++ p

/-- An ARP message. -/
def arpMsg (op : Nat) (sha spa tha tpa : List Byte) : List Byte :=
  [0, 1, 8, 0, 6, 4] ++ be 2 op ++ sha ++ spa ++ tha ++ tpa

/-- An ARP message for IPv4 over Ethernet with this operation. -/
def isArp (op : Nat) (b : List Byte) : Bool :=
  let p := netPart b
  etherType b == 0x0806 && decide (p.length ≥ 28) && seg p 0 6 == [0, 1, 8, 0, 6, 4] && beVal p 6 2 == op

/-- An IPv4 packet in one piece that answers packet b: its identification and time to live are free. -/
def ip4 (b : List Byte) (proto : Byte) (src dst data : List Byte) : List Byte :=
  let h := [0x45, 0] ++ be 2 (20 + data.length) ++ be 2 (Config.ipId b).toNat ++ [0, 0, Config.hopLimit, proto]
  h ++ be 2 (inetSum (h ++ src ++ dst)) ++ src ++ dst ++ data

/-- An ICMPv6 packet. -/
def icmp6 (hop : Byte) (src dst : List Byte) (ty : Byte) (body : List Byte) : List Byte :=
  let sum := inetSum (pseudo src dst 58 (4 + body.length) ++ [ty, 0] ++ body)
  [0x60, 0, 0, 0] ++ be 2 (4 + body.length) ++ [58, hop] ++ src ++ dst ++ [ty, 0] ++ be 2 sum ++ body

/-- The ICMPv6 message in a frame, with its checksum right; none in any other frame. -/
def icmp6In (b : List Byte) : Option (List Byte) :=
  let p := netPart b
  let n := beVal p 4 2
  let m := seg p 40 n
  if etherType b = 0x86DD ∧ beVal p 0 1 / 16 = 6 ∧ beVal p 6 1 = 58 ∧ m.length = n ∧ 8 ≤ n ∧
      inetSum (pseudo (seg p 8 16) (seg p 24 16) 58 n ++ m) = 0 then some m
  else none

/-- The source and destination addresses of an IPv6 frame. -/
def src6 (b : List Byte) : List Byte := seg (netPart b) 8 16
def dst6 (b : List Byte) : List Byte := seg (netPart b) 24 16

/-- The address ff02::1. -/
def allNodes : List Byte := [0xFF, 0x02] ++ List.replicate 13 0 ++ [1]

/-- The address ::. -/
def noAddr6 : List Byte := List.replicate 16 0

/-- The neighbour discovery message of a type in a frame: hop limit 255 and a target. -/
def ndIn (ty : Nat) (b : List Byte) : Option (List Byte) :=
  (icmp6In b).filter (fun m => beVal m 0 2 == 256 * ty && beVal (netPart b) 7 1 == 255 && decide (m.length ≥ 24))

/-- The link-layer address option of a type, first behind the target. -/
def ndOpt (ty : Byte) (m : List Byte) : Option (List Byte) :=
  if m.length ≥ 32 ∧ seg m 24 2 = [ty, 1] then some (seg m 26 6) else none

/-! ## Answers (R460) -/

/-- The ARP reply for the module's IPv4 address. -/
def arpAnswer (own : List Byte) (b : List Byte) : Option (List Byte) :=
  let p := netPart b
  if isArp 1 b && seg p 24 4 == own && own != [0, 0, 0, 0] then
    some (ether (seg p 8 6) macBytes (tagOf b) 0x0806 (arpMsg 2 macBytes own (seg p 8 6) (seg p 14 4)))
  else none

/-- The neighbour advertisement for one of the module's IPv6 addresses; to all nodes where an unspecified source asks. -/
def ndAnswer (own : List (List Byte)) (b : List Byte) : Option (List Byte) :=
  match ndIn 135 b with
  | none => none
  | some m =>
    let target := seg m 8 16
    let dad := src6 b == noAddr6
    let dst := if dad then allNodes else src6 b
    let mac := if dad then [0x33, 0x33, 0, 0, 0, 1] else (ndOpt 1 m).getD (seg b 6 6)
    if own.contains target then
      some (ether mac macBytes (tagOf b) 0x86DD
        (icmp6 255 target dst 136 ([if dad then 0x20 else 0x60, 0, 0, 0] ++ target ++ [2, 1] ++ macBytes)))
    else none

/-- The ICMP echo reply of the module's IPv4 address: an echo request in one piece, its checksums right. -/
def echo4Answer (own : List Byte) (b : List Byte) : Option (List Byte) :=
  let p := netPart b
  let h := 4 * (beVal p 0 1 % 16)
  let n := beVal p 2 2
  let m := seg p h (n - h)
  if etherType b = 0x0800 ∧ beVal p 0 1 / 16 = 4 ∧ 20 ≤ h ∧ h + 8 ≤ n ∧ n ≤ p.length ∧ inetSum (p.take h) = 0 ∧ beVal p 6 2 % 16384 = 0 ∧
      beVal p 9 1 = 1 ∧ seg p 16 4 = own ∧ own ≠ [0, 0, 0, 0] ∧ beVal m 0 2 = 0x0800 ∧ inetSum m = 0 then
    some (ether (seg b 6 6) macBytes (tagOf b) 0x0800
      (ip4 b 1 own (seg p 12 4) ([0, 0] ++ be 2 (inetSum ([0, 0] ++ m.drop 4)) ++ m.drop 4)))
  else none

/-- The ICMPv6 echo reply; a request to all nodes is answered from the link-local address. -/
def echo6Answer (own : List (List Byte)) (b : List Byte) : Option (List Byte) :=
  match icmp6In b with
  | none => none
  | some m =>
    let from6 := if own.contains (dst6 b) then dst6 b else linkLocal
    if beVal m 0 2 = 0x8000 ∧ (own.contains (dst6 b) = true ∨ dst6 b = allNodes) ∧ src6 b ≠ noAddr6 then
      some (ether (seg b 6 6) macBytes (tagOf b) 0x86DD (icmp6 Config.hopLimit from6 (src6 b) 129 (m.drop 4)))
    else none

/-- The frame with which the module answers a frame to itself, where it answers it. -/
def ipAnswer (own4 : List Byte) (own6 : List (List Byte)) (b : List Byte) : Option (List Byte) :=
  (arpAnswer own4 b).or ((ndAnswer own6 b).or ((echo4Answer own4 b).or (echo6Answer own6 b)))

/-- The address that a frame gives with the MAC address that has it: an ARP request or reply to the module, the source of a
solicitation, the target of an advertisement. -/
def ipHeard (own4 : List Byte) (own6 : List (List Byte)) (b : List Byte) : Option (List Byte × List Byte) :=
  let p := netPart b
  if (isArp 1 b || isArp 2 b) && seg p 24 4 == own4 then some (seg p 14 4, seg p 8 6)
  else match ndIn 135 b, ndIn 136 b with
    | some m, _ => if own6.contains (seg m 8 16) && src6 b != noAddr6 then (ndOpt 1 m).map (fun x => (src6 b, x)) else none
    | none, some m => (ndOpt 2 m).map (fun x => (seg m 8 16, x))
    | none, none => none

/-- The ARP request or the neighbour solicitation for a destination address. -/
def ipAsk (d : GramDest) : List Byte :=
  let tag := match d.vlan with | some (v, c) => be 2 0x8100 ++ be 2 (8192 * c + v) | none => []
  if d.v6 then
    let low := d.addr.drop 13
    ether ([0x33, 0x33, 0xFF] ++ low) macBytes tag 0x86DD
      (icmp6 255 d.srcIp ([0xFF, 0x02] ++ List.replicate 9 0 ++ [1, 0xFF] ++ low) 135 ([0, 0, 0, 0] ++ d.addr ++ [1, 1] ++ macBytes))
  else ether (List.replicate 6 0xFF) macBytes tag 0x0806 (arpMsg 1 macBytes d.srcIp (List.replicate 6 0) d.addr)

/-! ## 802.1AS (R464) -/

/-- The frame with which port q passes on an 802.1AS Sync, Follow_Up or Announce message: q's address and port identity, the residence
time in 2^-16 ns added to the correction field of what carries it, one more step removed in an Announce. -/
def relayed (q resid : Nat) (b : List Byte) : List Byte :=
  let m := b.drop 14
  let ty := beVal m 0 1 % 16
  let add := if ty = 11 ∨ (ty = 0 ∧ beVal m 6 1 / 2 % 2 = 1) then 0 else resid
  let rest := if ty = 11 then seg m 30 31 ++ be 2 (beVal m 61 2 + 1) ++ m.drop 63 else m.drop 30
  ether (seg b 0 6) (portMac q) [] 0x88F7
    (seg m 0 8 ++ be 8 ((beVal m 8 8 + add) % 2 ^ 64) ++ seg m 16 4 ++ be 10 (Config.portIdentity q).toNat ++ rest)

/-- An 802.1AS message that a relay passes on in a domain. -/
def relays (domain : Nat) (b : List Byte) : Bool :=
  let ty := beVal b 14 1 % 16
  decide (b.length ≥ 48) && (ty == 0 || ty == 8 || (ty == 11 && decide (b.length ≥ 78))) && beVal b 18 1 == domain

end Sys2Proof.Machine
end

