-- ==== Sys2Proof/Machine/NetOps.lean ====
section
/-! DEFINITION. Network operations that several families use: staged network objects, gates, MACsec, sending on a port,
datagrams (14). -/

namespace Sys2Proof.Machine
open Sys2Proof

/-- Word w of subscriber i (Table 14-2). -/
def subW (t : Tab Word) (i w : Nat) : Word := conf t (netOfs w) i

/-- SFLAGS EN of a subscriber. -/
def subEn (t : Tab Word) (i : Nat) : Bool := bit (subW t i 0) 16

/-- QUEUE of a subscriber. -/
def subQueue (t : Tab Word) (i : Nat) : Nat := fld (subW t i 0) 0 8

/-- PORT of a subscriber: 0, 1, or 2 for both. -/
def subPort (t : Tab Word) (i : Nat) : Nat := fld (subW t i 0) 8 8

/-- TC of a subscriber. -/
def subTc (t : Tab Word) (i : Nat) : Nat := fld (subW t i 0) 24 8

/-- SFLAGS FWD of a subscriber. -/
def subFwd (t : Tab Word) (i : Nat) : Bool := bit (subW t i 0) 19

/-- The external ports of a PORT value. -/
def portsOf (p : Nat) : List Nat := if p = 0 then [0] else if p = 1 then [1] else [0, 1]

/-- Entries of the gate control list of port p; 0 is the reset list (R472). -/
def gateCount (t : Tab Word) (p : Nat) : Nat := min 8 (conf t (netOfs 15) p).toNat

/-- Duration in µs and open mask of entry e. -/
def gateEntry (t : Tab Word) (p e : Nat) : Nat × Nat := (fld (conf t (netOfs (16 + e)) p) 0 24, fld (conf t (netOfs (16 + e)) p) 24 7)

/-- Idle slope in Mb/s of class 4 (c = 0) or 5 (c = 1) on port p; 0 is no shaper (R473). -/
def slope (t : Tab Word) (p c : Nat) : Nat := (conf t (netOfs (24 + c)) p).toNat

/-- An external port. -/
def port (s : State) (p : Nat) : Port := if p = 0 then s.net.p0 else s.net.p1

/-- Changes an external port. -/
def modPort (p : Nat) (g : Port → Port) (s : State) : State :=
  { s with net := if p = 0 then { s.net with p0 := g s.net.p0 } else { s.net with p1 := g s.net.p1 } }

/-- The gate of a class is open on port p; class 7 always is (R472). -/
def gateOpen (s : State) (p tc : Nat) : Bool :=
  if tc ≥ 7 || gateCount s.cfg p = 0 then true else (gateEntry s.cfg p (port s p).gate).2.testBit tc

/-- The transmitting SA of a port. -/
def txSa (x : Port) : Option Sa := if x.txAn then x.tx1 else x.tx0

/-- The other transmit SA, while it has packet numbers left: an exhausted one is none to go on with (R479). -/
def txOther (x : Port) : Option Sa := (if x.txAn then x.tx0 else x.tx1).filter (fun a => decide (a.pn < 0xFFFFFFFF))

/-- The packet number has passed 0xC000_0000 (R479). -/
def pnHigh (x : Port) : Bool := match txSa x with | some a => decide (a.pn ≥ 0xC0000000) | none => false

/-- The port sends nothing but 802.1AS: its SA is exhausted and no other is installed (R479). -/
def txStop (x : Port) : Bool := x.macsec && (match txSa x with | some a => decide (a.pn ≥ 0xFFFFFFFF) && (txOther x).isNone | none => true)

/-- MACSEC_PN follows the packet numbers of both ports (R479, Table 15-3). -/
def macsecSrc (s : State) : State :=
  let hi := fun p => (port s p).macsec && pnHigh (port s p)
  setSrc (hi 0 || hi 1) 0x31 0 1 (le 1 (if hi 0 then 0 else 1)) s.tm.count s

/-- Takes the packet number of the next protected frame; at 0xFFFF_FFFF transmission goes on with the other SA (R479). -/
def takePn (p : Nat) (s : State) : Option Sa × State :=
  let x := port s p
  match txSa x with
  | none => (none, s)
  | some a =>
    let swap := decide (a.pn ≥ 0xFFFFFFFF)
    let use := if swap then (txOther x).getD a else a
    let an := if swap then !x.txAn else x.txAn
    let next : Sa := { use with pn := min 0xFFFFFFFF (use.pn + 1) }
    (some use, macsecSrc (modPort p (fun x => if an then { x with txAn := an, tx1 := some next } else { x with txAn := an, tx0 := some next }) s))

/-- EtherType 0x88F7: an 802.1AS frame (R461, R478). -/
def isTimeFrame (b : List Byte) : Bool := getLE b 12 1 == 0x88 && getLE b 13 1 == 0xF7

/-- The MAC address that a multicast IP address maps to; none for a unicast address, which ARP or ND resolves (Table 14-2). -/
def groupMac (v6 : Bool) (a : List Byte) : List Byte :=
  let b := fun i => nthD a i 0
  if v6 then (if b 0 = 0xFF then [0x33, 0x33, b 12, b 13, b 14, b 15] else [])
  else if (b 0).toNat / 16 = 14 then [0x01, 0x00, 0x5E, b 1 &&& 0x7F, b 2, b 3] else []

/-- Four words as the bytes of an IPv6 address. -/
def addrOf (w : Nat → Word) : List Byte := ((List.range 4).map (fun k => le 4 (w k).toNat)).flatten

/-- The module's static addresses in force (R460): IPv4, IPv6. -/
def ownV4 (t : Tab Word) : List Byte := le 4 (conf t (netOfs 8) 0).toNat
def ownV6 (t : Tab Word) : List Byte := addrOf (fun k => conf t (netOfs (9 + k)) 0)

/-- The destination and source of a subscriber's datagrams (R463, R467, R468, Table 14-2); 16 is SUB 0xFF of R467, which alone uses the
link-local address as its source (log 64). -/
def gramDest (t : Tab Word) (i : Nat) : GramDest :=
  let src := confF t 0xD020 0 0 16
  if i = 16 then
    ⟨50120, src, true, allNodes, groupMac true allNodes, none, macBytes, linkLocal, false⟩
  else
    let w1 := subW t i 1
    let v6 := bit (subW t i 0) 17
    let a := addrOf (fun k => subW t i (2 + k))
    let a := if v6 then a else a.take 4
    let m := le 4 (subW t i 6).toNat ++ le 2 (fld (subW t i 7) 0 16)
    ⟨if fld w1 16 16 = 0 then src else fld w1 16 16, src, v6, a, if m = List.replicate 6 0 then groupMac v6 a else m,
     if bit (subW t i 0) 18 then some (fld w1 0 16, subTc t i) else none,
     macBytes, if v6 then ownV6 t else ownV4 t, !v6⟩

/-- Where a subscriber's datagrams go now: ARP or ND has given the MAC address that its entry leaves open (R460, Table 14-2). -/
def gramTo (s : State) (i : Nat) : GramDest :=
  let d := gramDest s.cfg i
  if d.mac = [] then { d with mac := ((s.net.neigh.find? (fun e => e.1 == d.addr)).map (·.2)).getD [] } else d

/-- A frame or datagram leaves port p now, protected while MACsec is enabled, but 802.1AS frames (R463, R468, R478). -/
def txNow (p : Nat) (o : NetTx) (s : State) : State :=
  let gram := fun i b (sec : Option (List Byte × Nat)) => Output.datagram i p (gramTo s i) (udpSum (gramTo s i) b) b sec
  if (port s p).macsec then
    match o with
    | .frame b =>
      if isTimeFrame b then outp (.forward p b) s
      else
        (match takePn p s with
         | (some a, s) => outp (.forward p (Config.macsecSeal a.key (portMac p) a.ssci a.pn b)) s
         | (none, s) => s)
    | .gram i b =>
      (match takePn p s with
       | (some a, s) => outp (gram i b (some (portMac p, a.pn))) s
       | (none, s) => s)
  else
    match o with
    | .frame b => outp (.forward p b) s
    | .gram i b => outp (gram i b none) s

/-- What has class tc may leave port p now; a datagram waits for the MAC address of its destination (R460, R472, R479). -/
def mayTx (s : State) (p tc : Nat) (o : NetTx) : Bool :=
  gateOpen s p tc && (match o with
    | .frame b => !txStop (port s p) || isTimeFrame b
    | .gram i _ => !txStop (port s p) && decide ((gramTo s i).mac ≠ []))

/-- A frame or datagram is handed to port p: it leaves, or it waits for what holds it; a port without link sends nothing. -/
def sendPort (p tc : Nat) (o : NetTx) (s : State) : State :=
  if !(port s p).link then s
  else if mayTx s p tc o then txNow p o s
  else modPort p (fun x => { x with waiting := x.waiting ++ [(tc, o)] }) s

/-- Waiting frames whose gate is open leave, in their order (R472). -/
def gateFlush (p : Nat) (s : State) : State :=
  let l := (port s p).waiting
  l.foldl (fun s e => sendPort p e.1 e.2 s) (modPort p (fun x => { x with waiting := [] }) s)

/-- The gate lists restart at a tick edge (R472). -/
def gatesRestart (s : State) : State :=
  [0, 1].foldl (fun s p => gateFlush p (modPort p (fun x => { x with gate := 0 }) s)) s

/-! ## Datagrams (R467 to R471) -/

/-- The publisher of a subscriber; 16 stands for SUB 0xFF (R467). -/
def pub (s : State) (i : Nat) : Pub := tget {} s.net.pubs i

/-- Changes a publisher. -/
def modPub (i : Nat) (g : Pub → Pub) (s : State) : State := { s with net := { s.net with pubs := tmod {} s.net.pubs i g } }

/-- The payload of a datagram (Table 14-3). -/
def gramBytes (i dseq : Nat) (fwd : Bool) (recs : List (List Byte)) : List Byte :=
  [1, BitVec.ofNat 8 recs.length, BitVec.ofNat 8 (if i = 16 then 0xFF else i), BitVec.ofNat 8 (b2n fwd)] ++ le 4 dseq ++
  le 8 Config.serial.toNat ++ recs.flatten

/-- The ports and class of a publisher; SUB 0xFF sends on both (R467, R471). -/
def pubPorts (s : State) (i : Nat) : List Nat := if i = 16 then [0, 1] else portsOf (subPort s.cfg i)

/-- A publisher may take cells: one of its ports has link (R471). -/
def pubLink (s : State) (i : Nat) : Bool := (pubPorts s i).any (fun p => (port s p).link)

/-- Where the MAC address of a publisher's destination is open, ARP or ND asks for it on port p (R460). -/
def askFor (i p : Nat) (s : State) : State :=
  if (gramTo s i).mac = [] then sendPort p 6 (.frame (ipAsk (gramTo s i))) s else s

/-- A datagram of publisher i goes out on each of its ports that has link (R468, R471). -/
def sendGram (i : Nat) (b : List Byte) (s : State) : State :=
  (pubPorts s i).foldl (fun s p => sendPort p (if i = 16 then 0 else subTc s.cfg i) (.gram i b) (askFor i p s)) s

/-- The datagram that a publisher's queue fills is closed and sent (R468, R469). -/
def closeOwn (i : Nat) (s : State) : State :=
  let x := pub s i
  if x.recs = [] then s
  else sendGram i (gramBytes i x.dseq false x.recs) (modPub i (fun x => { x with recs := [], dseq := (x.dseq + 1) % 2 ^ 32 }) s)

/-- The datagram that the management processor fills is closed and sent, with PFLAGS FWD (R467, R468, R469). -/
def closeFwd (i : Nat) (s : State) : State :=
  let x := pub s i
  if x.fwd = [] then s
  else sendGram i (gramBytes i x.dseq true x.fwd) (modPub i (fun x => { x with fwd := [], dseq := (x.dseq + 1) % 2 ^ 32 }) s)

/-- The datagrams of a publisher are closed and sent (R469). -/
def closeGram (i : Nat) (s : State) : State := closeFwd i (closeOwn i s)

/-- A cell enters the datagram of a publisher, sealed with its egress alive counter; the 22nd closes it (R391, R392, R469). -/
def publish (i q : Nat) (c : Cell) (bad : Bad) (s : State) : State :=
  let a := (pub s i).alive + 1
  let s := modPub i (fun x => { x with alive := a, recs := x.recs ++ [recordBytes q a c bad] }) s
  if (pub s i).recs.length ≥ 22 then closeOwn i s else s

/-- A record of the event ring enters the datagram that the management processor fills for a publisher (R467). -/
def publishFwd (i : Nat) (c : Cell) (bad : Bad) (s : State) : State :=
  let a := (pub s i).alive + 1
  let s := modPub i (fun x => { x with alive := a, fwd := x.fwd ++ [recordBytes 255 a c bad] }) s
  if (pub s i).fwd.length ≥ 22 then closeFwd i s else s

/-- Publishers of subscribers that an epoch enables start again (R392, Table 14-3). -/
def pubsEpoch (old : Tab Word) (s : State) : State :=
  (List.range 16).foldl (fun s i => if subEn s.cfg i && !subEn old i then modPub i (fun _ => {}) s else s) s

end Sys2Proof.Machine
end

