-- ==== Sys2Proof/Machine/Filter.lean ====
section
/-! DEFINITION. The filter chain of a channel in its frond: decimator, ROM response, link sample word, windows (05). -/

namespace Sys2Proof.Machine
open Sys2Proof

/-- Wraps to w bits, two's complement (CIC words, Table 5-1). -/
def wrapI (w : Nat) (x : Int) : Int := (BitVec.ofInt w x).toInt

/-- Saturates to w bits, two's complement; true where it did (R170). -/
def satI (w : Nat) (x : Int) : Int × Bool :=
  let y := clampI (-(2 ^ (w - 1))) (2 ^ (w - 1) - 1) x
  (y, y != x)

/-- Integrators of the CIC: each adds the one before it (Table 5-1). -/
def cicInt : List Int → Int → List Int
  | [], _ => []
  | a :: r, x => let y := wrapI 61 (a + x); y :: cicInt r y

/-- Combs of the CIC: each subtracts its last input; answers the last output and the new delays. -/
def cicComb : List Int → Int → Int × List Int
  | [], x => (x, [])
  | d :: r, x => let (y, l) := cicComb r (wrapI 61 (x - d)); (y, x :: l)

/-- The tap sum of a FIR stage over its history, newest first. -/
def firSum (c : Nat → Int) : Nat → List Int → Int
  | _, [] => 0
  | i, x :: r => c i * x + firSum c (i + 1) r

/-- The sum of the taps at odd distances from 3 to m from the middle. -/
def oddTaps (c : Nat → Int) (m : Nat) : Int :=
  ((List.range (m + 1)).filter (fun d => d % 2 == 1 && d != 1)).foldl (fun a d => a + c d) 0

/-- Tap i of HB1 or HB2, of 2m + 1 taps: symmetric, so its delay is the same at all frequencies (R173); as a half-band filter it has
1/2 in the middle and 0 at the other even distances; the taps next to the middle give it a gain at 0 Hz within 2^-22 of 1 (Table 5-2).
`c` are the taps by distance, which the spec does not print. -/
def hbTap (c : Nat → Int) (m i : Nat) : Int :=
  let d := if i ≤ m then m - i else i - m
  if d = 0 then 2 ^ 22 else if d % 2 = 0 then 0
  else if d = 1 then 2 ^ 21 + clampI (-1) 1 (c 1) - oddTaps c m
  else c d

/-- Tap i of HB3 (95 taps) with free taps c by distance: symmetric, with a gain at 0 Hz within 2^-22 of 1 (R173, Table 5-2). -/
def hb3Tap (c : Nat → Int) (i : Nat) : Int :=
  let d := if i ≤ 47 then 47 - i else i - 47
  if d = 0 then 2 ^ 23 + clampI (-2) 2 (c 0) - 2 * (List.range 48).foldl (fun a e => if e = 0 then a else a + c e) 0 else c d

/-- One half-band stage: the 64-bit accumulator reduced to 32 bits, 14 fractional (R169, R170). -/
def firOut (c : Nat → Int) (h : List Int) : Int × Bool := satI 32 (rne (wrapI 64 (firSum c 0 h)) (2 ^ 23))

/-- The CIC decimation factor at rate index k; 1 where there is none (R165). -/
def cicD (k : Nat) : Nat := if k ≤ 3 then 1 else 2 ^ (k - 3)

/-- Sections of a ROM response (Table 5-4). -/
def romSections (id : Nat) : Nat :=
  if id ≤ 0x05 then 1 else if id ≤ 0x0B then 2 else if id ≤ 0x13 then 3 else if id ≤ 0x1B then 4
  else if id ≤ 0x23 then 8 else 4

/-- The sections of a ROM response, transposed direct form II, on 64-bit words with 40 fractional bits (Table 5-1). -/
def romRun (id k : Nat) : Nat → List (Int × Int) → Int → Int × List (Int × Int) × Bool
  | _, [], x => (x, [], false)
  | j, (s1, s2) :: r, x =>
    let c := Config.rom id k j
    let (y, f0) := satI 64 (rne (c 0 * x + s1 * 2 ^ 38) (2 ^ 38))
    let (n1, f1) := satI 64 (rne (c 1 * x - c 3 * y + s2 * 2 ^ 38) (2 ^ 38))
    let (n2, f2) := satI 64 (rne (c 2 * x - c 4 * y) (2 ^ 38))
    let (z, l, f) := romRun id k (j + 1) r y
    (z, (n1, n2) :: l, f0 || f1 || f2 || f)

/-- The smallest exponent from e whose rounded mantissa fits in 20 bits (R171). -/
def linkExp (v : Int) (frac : Nat) : Nat → Nat → Nat × Int
  | 0, e => (e, rne (v * 2 ^ 16) (2 ^ (e + frac)))
  | n + 1, e =>
    let m := rne (v * 2 ^ 16) (2 ^ (e + frac))
    if -(2 ^ 19) ≤ m ∧ m ≤ 2 ^ 19 - 1 then (e, m) else linkExp v frac n (e + 1)

/-- The 24-bit link sample word of a value with frac fractional bits; true where it saturated (R170, R171). -/
def linkWord (v : Int) (frac : Nat) : Nat × Bool :=
  let (e, m) := linkExp v frac 15 0
  let (m2, f) := satI 20 m
  (e * 2 ^ 20 + uns 20 m2, f)

/-- The value of a link sample word as mantissa and exponent: q = m * 2^(e - 16). -/
def linkVal (w : Nat) : Int × Nat := (sgn 20 (w % 2 ^ 20), w / 2 ^ 20 % 16)

/-- The span of the decimator at rate index k, in conversions (Table 5-3). -/
def span (k : Nat) : Nat := if k = 1 then 94 else if k = 2 then 210 else if k = 3 then 430 else 435 * cicD k - 5

/-- The lowest corner of a ROM response in 0.01 Hz, for the exact ones of Table 5-5. -/
def romLow (id : Nat) : Nat :=
  nthD [10, 50, 100, 200, 500, 1000, 100, 200, 500, 1000, 2000, 5000,
        100, 200, 500, 1000, 1000, 1000, 200, 100,
        5000, 10000, 25000, 50000, 100000, 200000, 500000, 1000000,
        5000, 10000, 25000, 50000, 100000, 200000, 500000, 1000000] id 100

/-- The highest corner of a ROM response in 0.01 Hz; a high-pass has its only corner (Table 5-5). -/
def romHigh (id : Nat) : Nat :=
  nthD [10, 50, 100, 200, 500, 1000, 100, 200, 500, 1000, 2000, 5000,
        100000, 100000, 100000, 100000, 200000, 500000, 20000, 30000,
        50000, 100000, 250000, 500000, 1000000, 2000000, 5000000, 10000000,
        50000, 100000, 250000, 500000, 1000000, 2000000, 5000000, 10000000] id 100

/-- The smallest n with n * n * d not below a * a: a divided by the root of d, rounded up. -/
def ceilDivSqrt (a d : Nat) : Nat :=
  let q := Nat.sqrt (a * a / d)
  if a * a ≤ q * q * d then q else q + 1

/-- The settling length of a ROM response in conversions, rounded up (Table 5-4, R174, R569). -/
def settleLen (id : Nat) : Nat :=
  if id ≥ 0x24 then cdiv (ceilDivSqrt 18528256 (2 ^ (id - 0x24))) 10
  else
    let c := if id ≤ 0x05 then 2496 else if id ≤ 0x0B then 4612 else if id ≤ 0x13 then 2496
             else if id ≤ 0x1B then 4612 else 9047
    cdiv (c * 204800) (romLow id)

/-- The delay at 0 Hz of anti-alias preset 0x24 + j at rate index k, in frond counts: as Table 5-6 prints it, within ±2 % or one output
sample, whichever is larger (R177, R245). -/
def aaDelay (j k : Nat) : Int :=
  let p : Nat := nthD [8160000, 5770000, 4080000, 2880000, 2040000, 1440000, 1020000, 721000, 510000, 361000, 255000, 180000, 127000, 90100,
    63700, 45100, 31900, 22500, 15900, 11300, 7970, 5630, 3980, 2820, 1990, 1410, 996, 704] j 704
  let d := p * 131072 / 100000
  let tol := max (d / 50) (64 * 2 ^ k)
  clampI ((d : Int) - tol) ((d : Int) + tol) (Config.antiAliasDelay j)

/-- W of R174. -/
def winLen (k : Nat) (resp : Option Nat) : Nat := span k + (resp.map settleLen).getD 0

/-- The chain cleared at an epoch or reset edge; `first` conversions pass before the first valid one (R181, R183). Conversions before
the edge stay in the windows of later samples (R157, R174). -/
def clearedFilt (resp : Option Nat) (first : Nat) (f : Filt) : Filt :=
  { sos := List.replicate ((resp.map romSections).getD 0) (0, 0), age := -(first : Int), ovrAge := f.ovrAge, nsAge := f.nsAge }

/-- A stage result that saturated is carried by the samples of the next r conversions (R170). -/
def satMark (s : Bool) (r : Nat) (f : Filt) : Filt := if s then { f with satLeft := some (max r (f.satLeft.getD 0)) } else f

/-- The conversions for which the taps after the CIC (0), HB1 (1), HB2 (2) or HB3 (3) hold its result, and a ROM response its trace
(Table 5-1, R174). -/
def satReach (k stage : Nat) (resp : Option Nat) : Nat :=
  let d := cicD k
  (if stage = 0 then 430 * d else if stage = 1 then (if k ≥ 3 then 420 * d else 210)
   else if stage = 2 then (if k ≥ 3 then 376 * d else if k = 2 then 188 else 94) else 0) + (resp.map settleLen).getD 0

/-- One trimmed code through the chain of a channel at rate index k, the decimation count being cnt: a link word with its
flags (bit 0 OVR, bit 1 NOT_SETTLED, bit 2 that R184 sets it) where a sample completes (R165, R167, R170, R174, R184). Without a
rate no sample completes, but the conversions age for the windows that an epoch opens (R157, R174). -/
def filtStep (k : Nat) (resp : Option Nat) (cnt : Nat) (x : Int) (ovr ns : Bool) (f : Filt) : Filt × Option (Nat × Nat) :=
  let up := fun (o : Option Nat) (b : Bool) => if b then some 0 else o.map (· + 1)
  if k = 0 then ({ f with ovrAge := up f.ovrAge ovr, nsAge := up f.nsAge ns }, none)
  else
    let tick := fun (m : Nat) => (cnt + 1) % m == 0
    let f := { f with age := f.age + 1, ovrAge := up f.ovrAge ovr, nsAge := up f.nsAge ns,
                      satLeft := match f.satLeft with | some (n + 1) => some n | _ => none }
    let d := cicD k
    let inte := if k ≥ 4 then cicInt f.integ x else f.integ
    let f := { f with integ := inte }
    if !tick d then (f, none)
    else
      let (c0, comb) := if k ≥ 4 then cicComb f.comb (inte.getLastD 0) else (x, f.comb)
      let (v0, s0) := satI 32 (rne (c0 * 2 ^ 14) (d ^ 5))
      let f := satMark s0 (satReach k 0 resp) { f with comb := comb }
      let (v1, f, go1) :=
        if k ≥ 3 then
          let h := (v0 :: f.h1).take 11
          if tick (2 * d) then
            let (y, s) := firOut (hbTap Config.hb1 5) h
            (y, satMark s (satReach k 1 resp) { f with h1 := h }, true)
          else (0, { f with h1 := h }, false)
        else (v0, f, true)
      if !go1 then (f, none)
      else
        let m2 := if k ≥ 3 then 4 * d else 2
        let (v2, f, go2) :=
          if k ≥ 2 then
            let h := (v1 :: f.h2).take 23
            if tick m2 then
              let (y, s) := firOut (hbTap Config.hb2 11) h
              (y, satMark s (satReach k 2 resp) { f with h2 := h }, true)
            else (0, { f with h2 := h }, false)
          else (v1, f, true)
        if !go2 then (f, none)
        else
          let h := (v2 :: f.h3).take 95
          if !tick (2 ^ k) then ({ f with h3 := h }, none)
          else
            let (v3, s3) := firOut (hb3Tap (Config.hb3 d)) h
            let (v4, sos, s4) := match resp with
              | some id => romRun id k 0 f.sos (v3 * 2 ^ 26)
              | none => (v3, f.sos, false)
            let (w, s5) := linkWord v4 (if resp.isSome then 40 else 14)
            let f := satMark (s3 || s4) (satReach k 3 resp) { f with h3 := h, sos := sos }
            let win := winLen k resp
            let isIn := fun (o : Option Nat) => match o with | some a => decide (a ≤ win) | none => false
            let settling := decide (f.age - 1 < (win : Int))
            let fl := b2n (isIn f.ovrAge || s5 || f.satLeft.isSome) + 2 * b2n (isIn f.nsAge || settling) + 4 * b2n settling
            (f, some (w, fl))

end Sys2Proof.Machine
end

