-- ==== Sys2Proof/Machine/Field.lean ====
section
/-! DEFINITION. The frond's own side: conversions, digital inputs, regulators, diagnostics, outputs and safe states
(02, 03, 04, 05). -/

namespace Sys2Proof.Machine
open Sys2Proof

/-- Frond f itself. -/
def fieldOf (s : State) (f : Nat) : Frond := tget {} s.field f

/-- Changes frond f itself. -/
def modField (f : Nat) (g : Frond → Frond) (s : State) : State := { s with field := tmod {} s.field f g }

/-- A channel of a frond, by position. -/
def fchan (x : Frond) (p : Nat) : FChan := tget {} x.chans p

/-- Changes a channel of a frond. -/
def modChan (p : Nat) (g : FChan → FChan) (x : Frond) : Frond := { x with chans := tmod {} x.chans p g }

/-- A window register's word in force in the frond. -/
def fwin (x : Frond) (p ofs : Nat) : Word := tget (resetWord ofs 0) x.cfg (winAddr p ofs)

/-- A module or frond register's word in force in the frond. -/
def freg (x : Frond) (ofs : Nat) : Word := tget (resetWord ofs 0) x.cfg ofs

/-- TICK_STEPS in force in the frond. -/
def fsteps (x : Frond) : Nat := max 1 (fld (freg x 0x1010) 0 7)

/-- Conversions of a tick (R126). -/
def tickConvs (x : Frond) : Nat := 512 * fsteps x

/-- Frond counts of a tick. -/
def tickCounts (x : Frond) : Nat := 32768 * fsteps x

/-- Sets or clears bit b of a mask. -/
def setBit (m b : Nat) (v : Bool) : Nat := if v then m ||| 2 ^ b else (m ||| 2 ^ b) ^^^ 2 ^ b

/-- The measuring path of a mode: 0 V10, 1 V40, 2 I25, 3 IAO (Table 4-2). -/
def path (mode : Nat) : Nat := if mode = 6 ∨ mode = 7 then 0 else if mode = 5 then 2 else if mode = 3 ∨ mode = 4 then 3 else 1

/-- An output mode: DO, AO-source, AO-sink. -/
def isOutput (mode : Nat) : Bool := mode == 2 || mode == 3 || mode == 4

/-- A current-output mode. -/
def isAO (mode : Nat) : Bool := mode == 3 || mode == 4

/-- A mode with the input integrator (R63). -/
def isDI (mode : Nat) : Bool := mode == 1 || mode == 8

/-- The ROM response in force in the frond: none with RESP_EN 0. -/
def respOf (w : Word) : Option Nat := if bit w 4 then some (fld w 8 6) else none

/-- The trimmed code of a converter code, and whether it is over range (R144, R146, R157). -/
def trimCode (c : Int) (g o : Int) : Int × Bool :=
  let y := rne (c * (2 ^ 22 + g) - o * 2 ^ 18) (2 ^ 22)
  if c = 32767 then (32767, true) else if c = -32768 then (-32768, true)
  else if y > 32767 then (32767, true) else if y < -32768 then (-32768, true) else (y, false)

/-- Takes the snap when conversion k is the first at or after a request that selects position p (R133, R136). -/
def takeSnaps (p k : Nat) (x : Int) (ns : Bool) : List (Nat × Bool × Nat) → FChan → FChan × List (Nat × Bool × Nat) × Nat
  | [], ch => (ch, [], 0)
  | (req, desc, m) :: r, ch =>
    if m.testBit p && decide (req ≤ 64 * k) then
      let (ch, miss) := if ch.snap.isNone then ({ ch with snap := some ⟨x, k, ns⟩, snapIdx := some k }, 0)
                        else (ch, b2n (!desc))
      let (ch2, l, n) := takeSnaps p k x ns r ch
      (ch2, (req, desc, m - 2 ^ p) :: l, n + miss)
    else
      let (ch2, l, n) := takeSnaps p k x ns r ch
      (ch2, (req, desc, m) :: l, n)

/-- The fiddlehead sum of four codes, newest first, where conversion k ends the four that begin at the first conversion of
the origin that applies (R191, R192). -/
def fiddle (k last : Nat) (ch : FChan) (now : Int × Bool × Bool) : FChan :=
  let four := now :: ch.recent
  let ch := match ch.snapIdx with
    | some j => if j = k ∧ k + 3 < last then { ch with fhOrigin := 1, fhFirst := j } else ch
    | none => ch
  let j := if ch.fhOrigin = 0 then last - 4 else ch.fhFirst
  let ch := if k = j + 3 then
      { ch with fhSum := four.foldl (fun a e => a + e.1) 0, fhOvr := four.any (·.2.1), fhNs := four.any (·.2.2), fhFirst := j }
    else ch
  { ch with recent := four.take 3 }

/-- A conversion of position p completes with converter code c (R126, R144, R150, R157, R164, R191). -/
def convert (p : Nat) (c : Int) (x : Frond) : Frond :=
  let ch := fchan x p
  let k := ch.k
  if k ≥ tickConvs x then x
  else
    let pt := path ch.mode
    let (g, o) := if ch.trimBad.testBit pt then ((0 : Int), (0 : Int)) else tget ((0 : Int), (0 : Int)) ch.trim pt
    let (v, ovr) := trimCode c g o
    let ns := !x.refRdy
    let (ch, snaps, lost) := takeSnaps p k v ns x.snaps ch
    let ch := fiddle k (tickConvs x) ch (v, ovr, ns)
    let fw := fwin x p 0x2150
    let (flt, smp) := filtStep (fld fw 0 4) (respOf fw) (x.dpc + k) v ovr ns ch.filt
    let ch := { ch with k := k + 1, sum := ch.sum + v, sq := ch.sq + (v * v).toNat, mn := min ch.mn v, mx := max ch.mx v,
                        ovr := ch.ovr || ovr, ns := ch.ns || ns, filt := flt,
                        samples := match smp with | some w => ch.samples ++ [w] | none => ch.samples }
    { x with chans := tput x.chans p ch, snaps := snaps, snapLost := satAdd 255 x.snapLost lost }

/-! ### Thresholds -/

/-- Threshold `kind` of an object (a channel, or 512 + f for a frond) between its printed limits: a value that the spec leaves open
within them (log 55). -/
def limit (kind obj : Nat) (lo hi : Int) : Int := clampI lo hi (Config.threshold kind obj)

/-- The raw state of a DI or TACH input after voltage v in µV from F to T (R63, R571): with THR_SRC 1 the comparator around THR_MV with
the error of Table 2-4 on each edge, else the DI levels of Table 2-3. -/
def rawState (x : Frond) (p ch : Nat) (v : Int) : Bool :=
  let w := fwin x p 0x2114
  let old := (fchan x p).raw
  let (up, dn) :=
    if (fchan x p).mode = 8 && bit w 0 then
      let mid : Int := sgn 16 (fld w 16 16)
      let err : Int := 50000 + 5 * mid.natAbs
      let half : Int := 10000 * fld w 8 7
      (1000 * mid + half + limit 0 ch (-err) err, 1000 * mid - half + limit 1 ch (-err) err)
    else
      let up := limit 2 ch 7000000 9500000
      (up, min (limit 3 ch 5500000 8000000) (up - 800000))
  if old then !decide (v < dn) else decide (v > up)

/-! ### Digital inputs and timestamps (R63 to R69) -/

/-- The stamps a timestamp unit makes in a tick: ⌈r × L⌉ (R69). -/
def stampQuota (x : Frond) (p : Nat) : Nat := cdiv (512 * fsteps x) (2 ^ (fld (fwin x p 0x2114) 3 4))

/-- The channel claims a timestamp unit: TACH always, DI with TS_EN (R66). -/
def claims (mode : Nat) (w : Word) : Bool := mode == 8 || (mode == 1 && bit w 7)

/-- A reported transition: counted and, where the edge is selected and the quota lasts, stamped (R65, R67 to R69). -/
def transition (x : Frond) (p : Nat) (rising : Bool) (ch : FChan) : FChan :=
  let ch := if rising then { ch with rise := satAdd 0xFFFF ch.rise 1 } else { ch with fall := satAdd 0xFFFF ch.fall 1 }
  let e := fld (fwin x p 0x2114) 1 2
  if !claims ch.mode (fwin x p 0x2104) || !(e == 2 || (e == 0 && rising) || (e == 1 && !rising)) then ch
  else if ch.stamps.length < stampQuota x p then
    let w := uns 21 ch.cross + b2n rising * 2 ^ 21 + b2n ch.stampLost * 2 ^ 22
    { ch with stamps := ch.stamps ++ [w], stampLost := false }
  else { ch with stampLost := true }

/-- One integrator step of channel obj at voltage v in µV from F to T (R63, R571); `at` is the raw state's last crossing, in frond counts
after the tick edge. -/
def integrate (p obj : Nat) (v : Int) (at_ : Int) (x : Frond) : Frond :=
  let ch := fchan x p
  let raw := rawState x p obj v
  let w := fwin x p 0x2108
  let ton := fld w 0 16
  let toff := fld w 16 16
  let c := ch.c
  if !ch.out then
    let c2 := if raw then c + 1 else c - 1
    let ch := { ch with c := c2, raw := raw, cross := if c = 0 ∧ raw then at_ else ch.cross }
    let ch := if c2 = ton then transition x p true { ch with out := true, c := toff } else ch
    { x with chans := tput x.chans p ch }
  else
    let c2 := if raw then min (c + 1) toff else c - 1
    let ch := { ch with c := c2, raw := raw, cross := if c = toff ∧ !raw then at_ else ch.cross }
    let ch := if c2 = 0 then transition x p false { ch with out := false } else ch
    { x with chans := tput x.chans p ch }

/-! ### Outputs and safe states (R74 to R76, R88, R89, R110 to R116) -/

/-- The NE43 level in force: its fallback while no copy of its pair is good (Table 10-9). -/
def almLevel (x : Frond) (p : Nat) (hi : Bool) : Nat :=
  if x.critLost.contains (winAddr p (if hi then 0x2128 else 0x2120)) then (if hi then 57344 else 9830)
  else fld (fwin x p (if hi then 0x2128 else 0x2120)) 0 16

/-- The output that value word w asks of a channel, or none where Table 2-6 refuses it; the code after clamping and whether it
was clamped (R74, R75). -/
def outLevel (x : Frond) (p : Nat) (w : Word) : Option (Nat × Bool) :=
  let mode := (fchan x p).mode
  let v := fld w 0 16
  let sel := fld w 16 2
  if fld w 18 14 ≠ 0 then none
  else if mode = 2 then (if sel = 0 ∧ v ≤ 1 then some (v, false) else none)
  else if isAO mode then
    if sel = 3 then none
    else if sel = 1 then some (almLevel x p false, false)
    else if sel = 2 then some (almLevel x p true, false)
    else
      let r := fwin x p 0x2118
      let lo := fld r 0 16
      let hi := fld r 16 16
      if v < lo then some (lo, true) else if v > hi then some (hi, true) else some (v, false)
  else none

/-- The CHN_SAFE pair of position p has no good copy (R116, R356). -/
def safeLost (x : Frond) (p : Nat) : Bool := x.critLost.contains (winAddr p 0x2130)

/-- What the safe state of an output channel delivers (R114, R116): with SAFE_SEL 0 what it delivered on entry, off where its pair has no
good copy. -/
def safeDrive (x : Frond) (p : Nat) (ch : FChan) : Drive :=
  if safeLost x p then .off
  else
    let w := fwin x p 0x2130
    match fld w 16 3 with
    | 0 => ch.entry
    | 1 => .level (fld w 0 16)
    | 2 => .level (almLevel x p false)
    | 3 => .level (almLevel x p true)
    | _ => .off

/-- What a channel's F land receives: nothing without power or in shutdown, nor from a DO switch held off (R103, R104, R111,
R121). -/
def landDrive (x : Frond) (ch : FChan) : Drive :=
  if !x.power || x.shutdown || ch.backfeed || ch.thermal || ch.regFault then .off else ch.drive

/-- What the F land of position p receives. -/
def delivered (x : Frond) (p : Nat) : Drive := landDrive x (fchan x p)

/-- DO_THERMAL becomes inactive when the switch conducts again (Table 3-2). -/
def conducts (x : Frond) (ch : FChan) : FChan :=
  if ch.mode = 2 && landDrive x ch == .level 1 then { ch with diag := setBit ch.diag 5 false } else ch

/-- The regulator of a mode runs (02): AO-source, AO-sink, IEPE, AI-current with LOOP_PWR. -/
def regRuns (mode : Nat) (w : Word) : Bool := isAO mode || mode == 7 || (mode == 5 && bit w 5)

/-- A regulator that stood still starts from 3.0 V when its stage delivers again (Table 2-12, R114). -/
def startReg (x : Frond) (p : Nat) (ch : FChan) : FChan :=
  if ch.regOn || x.shutdown || ch.regFault || !regRuns ch.mode (fwin x p 0x2104) then ch
  else { ch with regOn := true, rail := 12000, target := 12000, settled := false }

/-- An AO stage that is disconnected: its regulator stays stopped until an output value takes effect (R114, R115). -/
def parted (ch : FChan) : Bool := isAO ch.mode && ch.drive == .off

/-- An output channel takes what its safe state delivers, which is then the value in force (R77, R114). -/
def takeSafe (x : Frond) (p : Nat) (ch : FChan) : FChan :=
  let d := safeDrive x p ch
  let ch := { ch with drive := d, safeHeld := true, held := none }
  match d with
  | .off => { ch with regOn := false, rail := 0, settled := false }
  | .level v => conducts x (startReg x p { ch with val := v })

/-- An output channel enters its safe state; one that is in it already turns off where its pair has been found lost (R114, R116). -/
def enterSafe (x : Frond) (p : Nat) (ch : FChan) : FChan :=
  if isOutput ch.mode && !ch.safeHeld then takeSafe x p { ch with entry := ch.drive }
  else if isOutput ch.mode && safeLost x p then takeSafe x p ch
  else ch

/-- A critical pair whose working copies fail a check: restored from the other copy, or lost until a refresh (R356). -/
def critFail (c : CritIn) (x : Frond) : Frond :=
  if !c.a && !c.b then x
  else
    let addr := if c.pos ≥ 16 then c.ofs else winAddr c.pos c.ofs
    { x with integ := true, integMask := x.integMask ||| (if c.pos < 16 then 2 ^ c.pos else 0),
             critLost := if c.a && c.b && !x.critLost.contains addr then addr :: x.critLost else x.critLost }

/-- The critical pairs that a safe-state entry checks, of the positions that a test picks: CHN_SAFE and, handled as CHN_SAFE, the alarm
levels, and of the frond (16) FRD_WD (R116, R355, Table 10-9). -/
def critEntry (crit : List CritIn) (on : Nat → Bool) (x : Frond) : Frond :=
  (crit.filter (fun c =>
    if c.pos < 16 then (c.ofs == 0x2130 || c.ofs == 0x2120 || c.ofs == 0x2128) && on c.pos
    else c.ofs == 0x3000 && on 16)).foldl (fun x c => critFail c x) x

/-- The frond enters frond safe state: its watchdog pair and the pairs of its output channels are checked, and each channel takes its own
state (R110, R116). -/
def frondSafe (crit : List CritIn) (x : Frond) : Frond :=
  if x.safe then x
  else
    (List.range 16).foldl (fun x p => modChan p (enterSafe x p) x)
      { critEntry crit (fun p => p == 16 || isOutput (fchan x p).mode) x with safe := true }

/-- Frond shutdown: safe state, then every stage, regulator and sensor supply stops and F lands go to high impedance; `drive`
keeps what the stage is to deliver after the restart, and the bias servo its value (R111, R112). -/
def frondShut (crit : List CritIn) (x : Frond) : Frond :=
  let x := frondSafe crit x
  { x with shutdown := true, vsOn := 0,
           chans := tmap x.chans (fun _ ch => { ch with regOn := false, rail := 0, settled := false }) }

/-- A channel's stages start under its mode: integrator off (R64), regulator from 3.0 V (Table 2-12), servo fast (R85). The comparator
behind the integrator keeps the side it was on, which shows where the voltage lies between its two thresholds: the spec is silent on that
(DESIGN CHOICE, log 70). -/
def startStage (x : Frond) (p : Nat) (ch : FChan) : FChan :=
  let r := regRuns ch.mode (fwin x p 0x2104)
  let ch := { ch with regOn := r, rail := if r then 12000 else 0, target := 12000, settled := false, firstRise := ch.mode == 7,
                      servoFast := ch.mode == 7, biasHist := [], biasJudged := false, regFault := false }
  if isDI ch.mode then { ch with out := false, c := 0 } else ch

/-- After a shutdown's cause has met its clear condition the input stages, regulators and supplies restart (R112). -/
def frondRestart (x : Frond) : Frond :=
  let x := { x with shutdown := false, vsOn := fld (freg x 0x3180) 0 4 }
  { x with chans := tmap x.chans (fun p ch =>
             if parted ch then ch else conducts x (startStage x p ch)) }

/-! ### Regulators (R77 to R80, R85, R86, R107, R108) -/

/-- The ceiling of a channel's regulator in quarter mV: 30 V in AO, VCEIL otherwise (R77). -/
def vceil (x : Frond) (p : Nat) : Nat := if isAO (fchan x p).mode then 120000 else fld (fwin x p 0x2110) 0 6 * 2000

/-- v_need of R77 in quarter mV; 0.5 mA is code 1,366 rounded up. In AO-sink the regulator takes what the loop offers from F to T less
the headroom that the sink stage keeps (R81; R77 gives that mode no case: DESIGN CHOICE, log 56). -/
def vneed (x : Frond) (p : Nat) (r : RegIn) : Nat :=
  let ch := fchan x p
  let w := fwin x p 0x2110
  let inext := match ch.held with | some h => h | none => ch.val
  if ch.mode = 3 then
    let a := 4 * r.vLoadPeak + 8000
    if inext > r.iMeas ∧ 2 * 24 * r.iMeas ≥ 65536 then max a (4 * r.vLoadPeak * inext / r.iMeas + 8000) else a
  else if ch.mode = 7 then 4 * r.vBias + fld w 8 5 * 2000 + 8000
  else if ch.mode = 5 then fld w 16 6 * 2000 + r.iMeas * 24 * 50 * 4 / 65536 + 8000
  else 4 * r.vFT - 8000

/-- LOOP_LOW holds at an evaluation with the rail there (R84, R107): in IEPE also for a positive peak beyond SWING that leaves the
excitation less than its headroom; in AO-sink where the sunk current is short of the setpoint in force by more than the mismatch
threshold. -/
def loopLowAt (x : Frond) (p obj rail : Nat) (r : RegIn) : Bool :=
  let ch := fchan x p
  if ch.mode = 4 then
    decide (r.vFT < 3000) && decide (((ch.val : Int) - r.iMeas) * 24000 > 65536 * limit 4 obj 400 600)
  else
    decide (vneed x p r > vceil x p) ||
    (ch.mode == 7 && decide (4 * r.vLoadPeak > rail - 8000) && decide (r.vLoadPeak > r.vBias + fld (fwin x p 0x2110) 8 5 * 500))

/-- The IEPE bias servo at an evaluation: fast until v_bias has stayed within 50 mV for 100 ms, 3,200 evaluations (R85). -/
def servo (v : Nat) (ch : FChan) : FChan :=
  if ch.mode ≠ 7 then ch
  else
    let h := (v :: ch.biasHist).take 3201
    if ch.servoFast && !(decide (h.length ≥ 3201) && decide (h.foldl max 0 ≤ h.foldl min v + 50)) then
      { ch with vBias := v, biasHist := h }
    else { ch with vBias := v, biasHist := [], servoFast := false }

/-- One evaluation of the running regulator of channel obj: target, rail, servo, LOOP_LOW (R77, R78, R81, R85, R86, R107). A rise
takes the evaluation period at 0.5 V/µs at most, the first rise in IEPE 0.2 V/ms, a fall 2 V/ms. -/
def evaluate (p obj : Nat) (r : RegIn) (x : Frond) : Frond :=
  let ch := fchan x p
  if !ch.regOn || x.shutdown then x
  else
    let need := vneed x p r
    let ceil := vceil x p
    let tgt := min (if ch.mode = 4 then need else max need 12000) ceil
    let rail := if ch.rail < tgt then min tgt (ch.rail + (if ch.firstRise then 25 else 62500)) else max tgt (ch.rail - 250)
    let hit := rail == tgt
    let near := decide (tgt ≤ rail + 1000) && decide (rail ≤ tgt + 1000)
    let low := loopLowAt x p obj rail r
    let ch := servo r.vBias { ch with
      target := tgt, rail := rail, firstRise := ch.firstRise && !hit, settled := near,
      biasJudged := ch.biasJudged || near || decide (rail ≥ ceil), loopLow := ch.loopLow + b2n low }
    { x with chans := tput x.chans p ch }

/-! ### Diagnostics (R96 to R106) -/

/-- A diagnostic is listed for the channel's mode (Table 3-2, R102). -/
def diagListed (x : Frond) (p b : Nat) (m : Nat) : Bool :=
  let thr := bit (fwin x p 0x2114) 0
  match b with
  | 0 => m == 1 || (m == 8 && !thr)
  | 1 => m == 6 || (m == 8 && thr) || m == 5
  | 2 => m == 7
  | 3 => m == 7
  | 4 => m == 2
  | 5 => m == 2
  | 6 => m == 2
  | 7 => m == 2
  | 8 => m == 2
  | 9 => isAO m
  | 10 => regRuns m (fwin x p 0x2104)
  | 11 => regRuns m (fwin x p 0x2104)
  | _ => false

/-- The diagnostics listed for a mode, as a mask. -/
def diagMask (x : Frond) (p m : Nat) : Nat := mask ((List.range 12).filter (fun b => diagListed x p b m))

/-- The ticks n of a filter time of T µs (R99). -/
def filterTicks (x : Frond) (us : Nat) : Nat := max 1 (cdiv us (250 * fsteps x))

/-- What the diagnostics of position p take from its configuration and monitors now. -/
def diagCtx (x : Frond) (p : Nat) (ch : FChan) : DiagCtx :=
  { mode := ch.mode, en := fwin x p 0x2138, thr := bit (fwin x p 0x2114) 0, load := fld (fwin x p 0x211C) 0 10, judged := ch.biasJudged }

/-- Settings of past ticks with one tick more in front; the ticks of the longest filter time, 1 s, are kept. -/
def pushCtx (c : DiagCtx) : List (DiagCtx × Nat) → List (DiagCtx × Nat)
  | (d, k) :: r => if d = c then (d, min 4000 (k + 1)) :: r else (c, 1) :: (d, k) :: r
  | [] => [(c, 1)]

/-- The newest n ticks of a list of settings. -/
def keepCtx : Nat → List (DiagCtx × Nat) → List (DiagCtx × Nat)
  | _, [] => []
  | n, (c, k) :: r => if n ≤ k then [(c, n)] else (c, k) :: keepCtx (n - k) r

/-- A condition has held in each of the newest n ticks, on their settings, reported states and means (R99). -/
def allTicks (cond : DiagCtx → Bool → Int → Bool) : Nat → List (DiagCtx × Nat) → List Bool → List Int → Bool
  | 0, _, _, _ => true
  | n + 1, (c, k) :: r, outs, m :: ms =>
    cond c (outs.headD false) m && allTicks cond n (if k ≤ 1 then r else (c, k - 1) :: r) (outs.drop 1) ms
  | _, _, _, _ => false

/-- The condition has held for a filter time of T µs in the whole ticks seen up to the tick edge at which the diagnostic is judged (R99).
The reported state of a tick is that at its end. -/
def heldTicks (x : Frond) (p us : Nat) (i : DiagIn) (n : Nat) (cond : DiagCtx → Bool → Int → Bool) : Bool :=
  let ch := fchan x p
  decide (filterTicks x us ≤ n) &&
  allTicks cond (filterTicks x us) (pushCtx (diagCtx x p ch) ch.ctx) (ch.out :: ch.outs) i.means

/-- The open-wire threshold in µV: 0.8 × I_pull × R_in, with the pull current of OW_CUR in nA and R_in in kΩ (Table 3-1). -/
def openWire (c : DiagCtx) (obj : Nat) : Int :=
  let i := if bit c.en 2 then limit 6 obj 9000 11000 else limit 5 obj 900 1100
  4 * i * (if c.mode = 8 then 100 else 1000) / 5

/-- The condition of a diagnostic judged on tick means in one tick with mean m (Table 3-2): the input current in µA (0), the F-to-T voltage
in µV or the current in µA (1), BIAS in mV (2, 3), the switch current in µA (6). -/
def tickSet (obj b : Nat) (c : DiagCtx) (out : Bool) (m : Int) : Bool :=
  match b with
  | 0 => (c.mode == 1 || (c.mode == 8 && !c.thr)) && bit c.en 0 && !out && decide (m < limit 7 obj 300 400)
  | 1 => bit c.en 1 &&
    (if c.mode = 5 then decide (m < limit 8 obj 900 1100)
     else (c.mode == 6 || (c.mode == 8 && c.thr)) && (if bit c.en 3 then decide (m < -(openWire c obj)) else decide (m > openWire c obj)))
  | 2 => c.mode == 7 && c.judged && decide (m > limit 9 obj 18600 19400)
  | 3 => c.mode == 7 && c.judged && decide (m < limit 10 obj 900 1100)
  | 6 => c.mode == 2 && decide (m > 1100 * c.load + 10000)
  | _ => false

/-- The clear condition of such a diagnostic in one tick (Table 3-2). -/
def tickGone (obj b : Nat) (c : DiagCtx) (out : Bool) (m : Int) : Bool :=
  match b with
  | 0 => out || decide (m ≥ limit 7 obj 300 400)
  | 1 =>
    if c.mode = 5 then decide (m ≥ limit 8 obj 900 1100)
    else if bit c.en 3 then decide (m ≥ -(openWire c obj)) else decide (m ≤ openWire c obj)
  | 2 => decide (m < limit 9 obj 18600 19400)
  | 3 => decide (m > limit 10 obj 900 1100)
  | 6 => decide (m ≤ 1100 * c.load + 10000)
  | _ => false

/-- The time seen in µs fits into the time for which the switch has been as it is: the whole ticks since its last change and the tick under
way (R100). -/
def asSwitched (x : Frond) (p us : Nat) : Bool := decide (us ≤ (fchan x p).swFor + 250 * fsteps x)

/-- The condition of diagnostic b has held for its set filter time (Tables 3-1, 3-2, R99, R100); n counts whole ticks. What the conditions
that name no tick mean judge, with CONTENTION: the switch current in mA (4), the reverse current in µA (7), F against Ff_FSUP in 1/1,000 (8),
|I_F - I_T| in µA (9), the target less the rail in mV (11). BACKFEED and STUCK_HIGH are seen with the switch ON or OFF throughout. -/
def diagSet (x : Frond) (p obj b : Nat) (i : DiagIn) (n : Nat) : Bool :=
  let ch := fchan x p
  match b with
  | 0 => heldTicks x p 10000 i n (tickSet obj b)
  | 1 => heldTicks x p 100000 i n (tickSet obj b)
  | 2 => heldTicks x p 50000 i n (tickSet obj b)
  | 3 => heldTicks x p 50000 i n (tickSet obj b)
  | 4 => decide (i.lo ≥ limit 11 obj 600 1000) && decide (i.us ≥ 100)
  | 6 => heldTicks x p 1000000 i n (tickSet obj b)
  | 7 => delivered x p == .level 1 && asSwitched x p 10 && decide (i.lo > limit 12 obj 35000 65000) && decide (i.us ≥ 10)
  | 8 => delivered x p != .level 1 && asSwitched x p 10000 && decide (i.lo > limit 13 obj 450 550) && decide (i.us ≥ 10000)
  | 9 => ch.loopLow == 0 && i.means.head?.any (fun m => decide (m > limit 4 obj 400 600)) && decide (n ≥ 1)
  | 11 => ch.regOn && ((decide (i.lo > 1000) && decide (i.us ≥ 2000)) || (decide (i.cur > 30000) && decide (i.us ≥ 100)))
  | _ => false

/-- The clear condition of diagnostic b has held for its time (Tables 3-1, 3-2, R99, R100); BACKFEED has none (R104), DO_THERMAL and
LOOP_LOW are judged elsewhere. -/
def diagGone (x : Frond) (p obj b : Nat) (i : DiagIn) (n : Nat) : Bool :=
  let ch := fchan x p
  match b with
  | 0 => heldTicks x p 10000 i n (tickGone obj b)
  | 1 => heldTicks x p 100000 i n (tickGone obj b)
  | 2 => heldTicks x p 50000 i n (tickGone obj b)
  | 3 => heldTicks x p 50000 i n (tickGone obj b)
  | 4 => decide (i.hi < limit 11 obj 600 1000) && decide (n ≥ 1)
  | 6 => heldTicks x p 1000000 i n (tickGone obj b)
  | 8 => decide (i.hi < limit 14 obj 350 450) && decide (i.us ≥ 10000)
  | 9 => i.means.head?.any (fun m => decide (m < limit 4 obj 400 600)) && decide (n ≥ 1)
  | 11 => !ch.regFault && decide (-250 ≤ i.lo) && decide (i.hi ≤ 250) && decide (i.us ≥ 1000000)
  | _ => false

/-- The time for which a DO switch has been as it is begins anew where it turned ON or OFF (R100). -/
def seeSwitch (old new : Frond) : Frond :=
  { new with chans := tmap new.chans (fun p ch =>
      if (delivered old p == .level 1) == (landDrive new ch == .level 1) then ch else { ch with swFor := 0 }) }

/-- A channel diagnostic becomes active with its local reaction (Table 3-2). -/
def diagOn (b : Nat) (ch : FChan) : FChan :=
  let ch := { ch with diag := setBit ch.diag b true }
  if b = 7 then { ch with backfeed := true }
  else if b = 11 then { ch with regFault := true, regOn := false, rail := 0, settled := false }
  else if b = 9 then { ch with contTicks := 0, contNew := true }
  else ch

/-- A channel diagnostic becomes inactive. -/
def diagOff (b : Nat) (ch : FChan) : FChan :=
  let ch := { ch with diag := setBit ch.diag b false }
  if b = 9 then { ch with contTicks := 0, contNew := false } else ch

/-- The diagnostic word of a channel at a tick edge (R97): bit 10 where LOOP_LOW held in the tick, bit 12 SAFE_ACT. -/
def diagWord (x : Frond) (ch : FChan) : Nat :=
  setBit (setBit ch.diag 10 (decide (ch.loopLow > 0))) 12 (isOutput ch.mode && (x.safe || ch.safe))

end Sys2Proof.Machine
end

