-- ==== Sys2Proof/Machine/FrondEdge.lean ====
section
/-! DEFINITION. A frond's tick edge: epoch, outputs, clears, decimation phase, latched accumulators, uplink superframe
(02, 03, 04, 05, 09, 10). -/

namespace Sys2Proof.Machine
open Sys2Proof

/-- SAFE causes of Table 3-4: FSUP_LOSS, FSUP_HIGH, FROND_OVERTEMP, WD_EXPIRED. -/
def safeCauses : Nat := 4 + 8 + 32 + 64
/-- Shutdown causes of Table 3-4: FSUP_ABSENT, FSUP_LOSS, FSUP_HIGH, FROND_OVERTEMP. -/
def shutCauses : Nat := 1 + 4 + 8 + 32

/-- The channels leave frond safe state; each keeps its safe value until its next output value (R115). -/
def leaveSafe (x : Frond) : Frond :=
  { x with safe := false, chans := tmap x.chans (fun _ ch => if ch.safe then ch else { ch with safeHeld := false }) }

/-- The frond leaves safe state when nothing holds it there: it has had its first epoch, no SAFE cause is active, it is not
shut down and no SAFE order stands (R114, R122, R124). -/
def tryLeaveSafe (x : Frond) : Frond :=
  if x.safe && x.firstEpoch && (x.causes &&& safeCauses) == 0 && !x.shutdown && !x.safeOrd then leaveSafe x else x

/-- A channel under a new mode at an epoch edge (R87 to R89, R91, R64, R181, R183, Table 2-12). A channel in its safe state stays in it
until a FAULT_CLEAR (R106, R114), holding the start value with SAFE_SEL 0 (DEDUCED, log 65). The BACKFEED hold ends with the mode: R104
does not say whether an epoch that changes MODE ends it (DESIGN CHOICE, log 57). -/
def newMode (x : Frond) (p : Nat) (ch : FChan) : FChan :=
  let w := fwin x p 0x2104
  let m := fld w 0 4
  let fw := fwin x p 0x2150
  let lo := almLevel x p false
  let ch := { ch with mode := m, drive := if m = 2 then .level 0 else if isAO m then .level lo else .off,
                      val := if isAO m then lo else 0, held := none, safeHeld := false, backfeed := false,
                      thermal := false, diag := 0, contTicks := 0, contNew := false, fhOrigin := 2, fhFirst := 21,
                      filt := clearedFilt (respOf fw) 21 ch.filt, owOff := isAO m || m == 7 }
  let ch := startStage x p ch
  let ch := if x.shutdown then { ch with regOn := false, rail := 0 } else ch
  if x.safe || ch.safe then enterSafe x p ch else ch

/-- The epoch changes what the safe state of position p delivers: CHN_SAFE or an alarm level (R114). -/
def safeChanged (old x : Frond) (p : Nat) : Bool := [0x2120, 0x2128, 0x2130].any (fun o => fwin old p o != fwin x p o)

/-- A channel at an epoch edge that keeps its mode (R64, R90, R181); a diagnostic that the new fields no longer list reads 0 (R102). A
channel in its safe state takes what the new fields make of it, with SAFE_SEL 0 what it delivered on entry (R114). An output out of it that delivers an alarm level keeps its code when the epoch changes ALM_LO or ALM_HI, until its next value: R90 does not say
(DESIGN CHOICE, log 57). -/
def newFields (old x : Frond) (p : Nat) (ch : FChan) : FChan :=
  let a := fwin old p 0x2150
  let b := fwin x p 0x2150
  let ch := if (a &&& itemMask 0x2150) == (b &&& itemMask 0x2150) then ch else { ch with filt := clearedFilt (respOf b) 0 ch.filt }
  let ch := { ch with diag := ch.diag &&& diagMask x p ch.mode }
  let w := fwin x p 0x2108
  let ch := if (fwin old p 0x2108) = w then ch
            else { ch with c := if ch.out then min ch.c (fld w 16 16) else min ch.c (fld w 0 16 - 1) }
  let ch := if ch.safeHeld && (x.safe || ch.safe) && safeChanged old x p then takeSafe x p ch else ch
  let r := regRuns ch.mode (fwin x p 0x2104)
  if r == ch.regOn || x.shutdown || parted ch || ch.regFault then ch
  else { ch with regOn := r, rail := if r then 12000 else 0, settled := false }

/-- The items applied at an epoch edge: every frond-side field of the configuration changes together (R20, R320). -/
def applyItems (items : List (Nat × Word)) (ep : Half) (x : Frond) : Frond :=
  let old := x
  let x := { x with cfg := items.foldl (fun (t : Tab Word) (e : Nat × Word) => tput t e.1 e.2) x.cfg, epoch := ep, noCfg := false, res := none,
                    items := [], total := 0 }
  let x := { x with vsOn := if x.shutdown then 0 else fld (freg x 0x3180) 0 4 }
  let x := if fld (freg old 0x3280) 0 2 = fld (freg x 0x3280) 0 2 then x else { x with refRdy := false, refFor := 0 }
  -- R122: the first epoch ends the safe state, and each channel then starts as R87 to R89 say
  let x := if old.firstEpoch then x else tryLeaveSafe { x with firstEpoch := true }
  (List.range 16).foldl (fun y p =>
    let ch := fchan y p
    let m := fld (fwin y p 0x2104) 0 4
    { y with chans := tput y.chans p (if m ≠ ch.mode then newMode y p ch else newFields old y p ch) }) x

/-- The frond discards its configuration at the restart edge after a restart of the logic side: channels OFF, sensor supplies open,
frond safe state until the next first epoch; of its causes those of FSUP and temperature stay whose conditions still hold (R566). -/
def discardConfig (x : Frond) : Frond :=
  let kept := x.causes &&& 63 &&& (255 - x.met)
  let ref := fld (freg x 0x3280) 0 2
  let x := { x with cfg := [], epoch := 0, noCfg := true, firstEpoch := false, safe := true, safeOrd := false, vsOn := 0, causes := kept,
                    met := 0, wdExp := false, refRange := false, integ := false, integMask := 0, critLost := [], items := [], total := 0,
                    itemBad := false, dist := false, res := none, wipe := false,
                    shutdown := x.shutdown && (kept &&& shutCauses) != 0 }
  let x := if ref = 0 then x else { x with refRdy := false, refFor := 0 }
  { x with chans := tmap x.chans (fun p ch =>
      let ch := { ch with safe := false, safeHeld := false }
      if ch.mode = 0 then ch else newMode x p ch) }

/-- An item that is the value word of an RWP pair (R358). -/
def isPairValue (addr : Nat) : Bool :=
  addr == 0x3000 || (addr ≥ 0x8000 && addr < 0x9000 && (addr % 256 == 0x20 || addr % 256 == 0x28 || addr % 256 == 0x30))

/-- A value item's complement is among the items and does not check. -/
def pairBad (items : List (Nat × Word)) (e : Nat × Word) : Bool := items.any (fun d => d.1 == e.1 + 4 && d.2 != ~~~e.2)

/-- A value item's complement is among the items and checks. -/
def pairWhole (items : List (Nat × Word)) (e : Nat × Word) : Bool := items.any (fun d => d.1 == e.1 + 4 && d.2 == ~~~e.2)

/-- The items of a distribution the frond holds, by INDEX. -/
def heldItems (x : Frond) : List (Nat × Word) := x.items.map (fun e => e.2)

/-- The frond holds every item of the distribution, every pair checked (R319, R358). -/
def holdsAll (x : Frond) : Bool := decide (x.total > 0) && x.items.length == x.total && !x.itemBad

/-- The output value carried for position p by D0 and D1 (Tables 10-6, 10-7). -/
def outWord (d0 : List Byte) (p : Nat) : Word := BitVec.ofNat 32 (getLE d0 (40 + 4 * p) 4)

/-- OUT_MASK checks against its complement. -/
def maskOk (d0 d1 : List Byte) : Bool := getLE d0 18 2 + getLE d1 64 2 == 65535

/-- The positions whose values cannot be applied without both D0 and D1: those that OUT_MASK or OUT_MASK_N of the one held names; all
where neither tells (R344; DEDUCED, log 58). -/
def maskHeld (d0 d1 : Option (List Byte)) : Nat :=
  match d0, d1 with
  | some d, _ => getLE d 18 2
  | none, some d => 65535 - getLE d 64 2
  | none, none => 65535

/-- Output values take effect at the edge (R25, R74 to R76, R88, R344). When the OUT_MASK pair fails, no value is known to be meant, and
every position reports it (DEDUCED, log 58). -/
def applyOuts (d0 d1 : List Byte) (x : Frond) : Frond :=
  if !maskOk d0 d1 then { x with outRej := 65535, integMask := 65535, integ := true }
  else
  (List.range 16).foldl (fun x p =>
    if !(getLE d0 18 2).testBit p then x
    else
      let w := outWord d0 p
      if (BitVec.ofNat 32 (getLE d1 (4 * p) 4)) ≠ ~~~w then
        { x with outRej := x.outRej ||| 2 ^ p, integMask := x.integMask ||| 2 ^ p, integ := true }
      else
        let ch := fchan x p
        match outLevel x p w with
        | none => { x with chans := tput x.chans p { ch with held := none } }
        | some (v, _) =>
          if x.safe || ch.safe then { x with chans := tput x.chans p { ch with held := none } }
          else
            let ch := { ch with val := v, held := none, drive := .level v,
                                fhOrigin := if ch.fhOrigin = 2 then 2 else 3,
                                fhFirst := if ch.fhOrigin = 2 then 21 else if ch.mode = 2 then 62 else 205 }
            { x with chans := tput x.chans p (conducts x (startReg x p ch)) }) x

/-- FAULT_CLEAR for position p at the edge: safe state left, BACKFEED released (R104, R114, R115). -/
def clearChan (p : Nat) (x : Frond) : Frond :=
  let ch := fchan x p
  let ch := { ch with safe := false, safeHeld := x.safe && ch.safeHeld, contTicks := 0,
                      backfeed := false, diag := setBit ch.diag 7 false }
  { x with chans := tput x.chans p (conducts x ch) }

/-- CLR_FROND at the edge: the causes that met their clear condition go, and the frond leaves safe state when none holds it
(R114, R505). -/
def clearFrond (x : Frond) : Frond :=
  let gone := x.causes &&& x.met
  tryLeaveSafe { x with causes := x.causes - gone, met := 0, wdExp := x.wdExp && !gone.testBit 6 }

/-- The decimation phase count becomes n; channels whose sample boundary moves are cleared, but those the epoch has just
cleared (R186 to R188). -/
def setPhase (old n : Nat) (x : Frond) : Frond :=
  { x with dpc := n,
           chans := tmap x.chans (fun p ch =>
             let fw := fwin x p 0x2150
             let k := fld fw 0 4
             if k = 0 || (old + 4096 - n) % 2 ^ k == 0 || ch.filt.age ≤ 0 then ch
             else { ch with filt := clearedFilt (respOf fw) 0 ch.filt }) }

/-- Channels that setPhase clears (R187). -/
def phaseCleared (old n : Nat) (x : Frond) : Nat :=
  (x.chans.filter (fun e =>
    let k := fld (fwin x e.1 0x2150) 0 4
    !(k = 0 || (old + 4096 - n) % 2 ^ k == 0 || e.2.filt.age ≤ 0))).length

/-- Refreshed pairs of D0 and D1: they restore a lost pair, and a difference from the working copies raises INTEGRITY
(R356, R357). -/
def refresh (addr : Nat) (pos : Option Nat) (v n : Word) (x : Frond) : Frond :=
  if n ≠ ~~~v then x
  else if x.critLost.contains addr then
    { x with critLost := x.critLost.filter (· != addr), cfg := tput x.cfg addr v }
  else
    let cur := match pos with
      | some p => fwin x p (0x2100 + addr % 256)
      | none => freg x addr
    if cur = v || x.noCfg then x
    else { x with integ := true, integMask := x.integMask ||| (match pos with | some p => 2 ^ p | none => 0) }

/-- The flags that go with the position block of a channel (log 11): bit 0, its tick holds a conversion with REF_RDY 0 (R143); bit 1, its
snapped conversion ran so. -/
def posFlags (ch : FChan) : Nat := b2n ch.ns + 2 * b2n (ch.snap.any (·.ns))

/-- The position block of position p (Table 10-5) and the flags of its samples. -/
def posBlock (x : Frond) (p : Nat) : List Byte × List Nat :=
  let ch := fchan x p
  let snap := match ch.snap with
    | some v => uns 16 v.code + v.conv * 2 ^ 16 + 2 ^ 31
    | none => 0
  let aux := if isDI ch.mode then le 2 ch.rise ++ le 2 ch.fall ++ le 2 (b2n ch.out)
    else if regRuns ch.mode (fwin x p 0x2104) then le 2 ch.meas.1 ++ le 2 (if ch.mode = 7 then ch.meas.2 else 0) ++ le 2 (ch.loopLow % 4096)
    else List.replicate 6 0
  let fh := if bit (freg x 0xE000) 4 then
      le 3 (uns 18 ch.fhSum + ch.fhOrigin * 2 ^ 18 + b2n ch.fhOvr * 2 ^ 21 + b2n ch.fhNs * 2 ^ 22) else []
  (le 4 snap ++ aux ++ le 2 ch.stamps.length ++ le 4 (uns 32 ch.sum) ++ le 6 ch.sq ++ le 2 (uns 16 ch.mn) ++ le 2 (uns 16 ch.mx) ++
    le 2 (diagWord x ch) ++ fh ++ (ch.samples.map (fun w => le 3 w.1)).flatten ++ (ch.stamps.map (le 3)).flatten,
   ch.samples.map (·.2))

/-- FPAIR (Table 10-4). A frond whose links are down reports its causes first after the first checked D0 that follows their return
(R565). -/
def fpair (x : Frond) : Nat := if x.judge || x.bothDown then 0 else x.causes + b2n x.refRange * 128 + b2n x.integ * 256

/-- Ff_FREF: driven with the 5 V analog rail under REF_SEL 2, otherwise an input (R139). -/
def frefDriven (x : Frond) : Bool := fld (freg x 0x3280) 0 2 == 2

/-- VREF of a tick in 100 µV: the rail divided by 5.000/4.096 where it drives Ff_FREF, the input there under REF_SEL 1, else the internal
reference (R138, R139). -/
def vrefOf (x : Frond) (i : FrondEdgeIn) : Nat :=
  if frefDriven x then i.rail * 512 / 625 else if fld (freg x 0x3280) 0 2 = 1 then i.fref else i.vint

/-- VREF has stayed within ±0.01 % of its mean over the last 1 ms (R140). -/
def refStill (i : FrondEdgeIn) : Bool := decide (i.refMean * 9999 ≤ i.refLo * 10000) && decide (i.refHi * 10000 ≤ i.refMean * 10001)

/-- CPAIR (Table 10-4). -/
def cpair (x : Frond) : Nat := mask ((List.range 16).filter (fun p => diagWord x (fchan x p) % 4096 != 0))

/-- The payload of U0 (Table 10-4); vref is the mean over the tick that has ended. -/
def u0Payload (x : Frond) (cp vref : Nat) (i : FrondEdgeIn) : List Byte :=
  let fp := fpair x
  let nodl := b2n (!x.aSeen) + 2 * b2n (!x.bSeen) + 4 * b2n (x.d0.isNone || x.d1.isNone)
  le 2 x.epoch.toNat ++ le 1 x.tag.toNat ++ le 1 (b2n (holdsAll x) + 2 * b2n x.noCfg + 4 * b2n x.rejoin) ++
  le 3 x.echoA ++ le 3 x.echoB ++
  le 2 (i.fsup % 4096 + 4096 * b2n x.safe + 8192 * b2n x.shutdown + 16384 * b2n x.wdExp + 32768 * b2n x.refRdy) ++
  le 2 (uns 12 i.temp + 4096 * b2n x.refRange) ++ le 2 vref ++ le 2 fp ++ le 2 (65535 - fp) ++ le 2 cp ++ le 2 (65535 - cp) ++
  le 2 x.dpc ++ le 1 x.snapLost ++ le 1 nodl ++ le 2 x.integMask ++ le 2 x.outRej ++ le 2 x.items.length

/-- One uplink frame of frond f: its bytes, sent with the next ALIVE value (R334, R336). -/
def sendUp (f : Nat) (fid : Byte) (payload : List Byte) (flags : List Nat) (s : State) : State :=
  let a := (fieldOf s f).upAlive + 1
  outp (.up f (frameBytes a fid payload) flags) (modField f (fun x => { x with upAlive := a }) s)

/-- A channel starts a new tick after one of len counts and us µs: accumulators, counts, stamps, samples, snap and fiddlehead plan (R65,
R150, R192), the settings c and the reported state of the tick that ends (R99). CONTENTION that has become active at this edge counts from
the next tick on (R106). -/
def newTick (len us : Nat) (c : DiagCtx) (ch : FChan) : FChan :=
  { ch with outs := (ch.out :: ch.outs).take 40, ctx := keepCtx 4000 (pushCtx c ch.ctx), swFor := ch.swFor + us, k := 0, sum := 0, sq := 0, mn := 32767, mx := -32768, ovr := false, ns := false, samples := [], snap := none,
            snapIdx := none, rise := 0, fall := 0, stamps := [], stampLost := false, loopLow := 0,
            cross := ch.cross - len, fhOrigin := 0, fhFirst := 0, fhSum := 0, fhOvr := false, fhNs := false,
            railEdge := ch.rail, contTicks := if ch.diag.testBit 9 && !ch.contNew then ch.contTicks + 1 else 0, contNew := false }

/-- The quotient a / d to a whole number on either side, the one nearer to m; a result that is no 16-bit number, or has nothing to divide
by, is m: the spec states neither the rounding nor the result there (DESIGN CHOICE, log 71). -/
def nearQuot (a : Int) (d m : Nat) : Nat :=
  let q := clampI (a / d) (-(-a / d)) m
  if d = 0 ∨ q < 0 ∨ q > 65535 then m % 65536 else q.toNat

/-- I_MEAS of a tick: the mean of the IAO or I25 accumulator in setpoint codes of 24 mA / 65,536, of which one code of IAO is 2 and one of
I25 is 32/15, times VREF / 4.096 V under REF_SEL 1 (R82, R130, Table 4-2). The excitation current of IEPE, which no accumulator holds, is
what was measured, m (log 71). -/
def iMeas (x : Frond) (vref : Nat) (ch : FChan) (m : Nat) : Nat :=
  let (v, r) := if fld (freg x 0x3280) 0 2 = 1 then (vref, 40960) else (1, 1)
  match path ch.mode with
  | 3 => nearQuot (ch.sum * 2 * v) (ch.k * r) m
  | 2 => nearQuot (ch.sum * 32 * v) (15 * ch.k * r) m
  | _ => m % 65536

/-- The tick means at a tick edge; on an IEPE channel in shutdown the servo holds its bias (R82, R111). -/
def takeMeans (vref : Nat) (i : FrondEdgeIn) (x : Frond) : Frond :=
  { x with chans := tmap x.chans (fun p ch =>
      let m := nthD i.meas p (0, 0)
      let m := (iMeas x vref ch m.1, m.2)
      { ch with meas := if ch.mode = 7 && x.shutdown then (m.1, ch.vBias) else m }) }

/-- A trim set as OTP gives it: the working pair, or g = 0 and o = 0 with TRIM_BAD where the OTP pair does not check; the REF set of a
frond marks every channel (R145, R146). -/
def loadTrim (t : TrimIn) (x : Frond) : Frond :=
  if t.set = 6 then
    if t.ok then { x with refTrim := (t.g, t.o) } else { x with refTrim := (0, 0), refBad := true, integ := true }
  else
    let p := t.pos % 16
    let x := modChan p (fun c =>
      if t.ok then { c with trim := tput c.trim t.set (t.g, t.o) } else { c with trimBad := c.trimBad ||| 2 ^ t.set }) x
    if t.ok then x else { x with integ := true, integMask := x.integMask ||| 2 ^ p }

/-- Trim sets whose working pair failed are reloaded from OTP, and INTEGRITY names their channels (R145). -/
def reloadTrim (l : List TrimIn) (x : Frond) : Frond :=
  if l = [] then x
  else l.foldl (fun x t => loadTrim t x)
    { x with integ := true, integMask := x.integMask ||| mask ((l.filter (fun t => t.set != 6)).map (fun t => t.pos % 16)) }

/-- The grid of the tick that begins: the edge moves by the tick and the correction of the D0 and D1 that are held, in 1/32 count (R127,
R312, R350); a restart takes the module's edge, `since` counts after the last (R316). Answers the counts between the two edges. -/
def moveGrid (since : Nat) (x : Frond) : Nat × Frond :=
  if x.restart then (since, { x with edge := x.edge + since, frac := 0 })
  else
    let c : Int := if x.d0.isSome && x.d1.isSome then x.corr else 0
    let at_ : Int := x.frac + 32 * tickCounts x + c
    let n := (at_ / 32).toNat
    (n, { x with edge := x.edge + n, frac := (at_ % 32).toNat })

/-- The decimation phase count at an edge: the D0's where D0 and D1 are held, else the frond's own (R186, R188, R350). -/
def edgePhase (own : Nat) (x : Frond) : Nat :=
  match x.d0, x.d1 with
  | some d0, some _ => if (getLE d0 13 1).testBit 0 then 0 else getLE d0 16 2 % 4096
  | _, _ => own

/-- REF_RDY at a tick edge: 1 ms has passed since it became 0, VREF has been still, and REF_RANGE is 0 with REF_SEL 1 (R140). -/
def refEdge (i : FrondEdgeIn) (x : Frond) : Frond :=
  if x.refRdy then x
  else { x with refRdy := decide (x.refFor ≥ 131072) && refStill i && !(fld (freg x 0x3280) 0 2 == 1 && x.refRange) }

/-- The frond's counter at an edge: locked to link A where A has delivered a checked frame in the tick, else to B, else in holdover; the
links count as down from the first edge with no checked frame since the last (R354, R572). -/
def linkEdge (x : Frond) : Frond :=
  { x with bothDown := !x.aSeen && !x.bSeen, clk := if x.aSeen then 0 else if x.bSeen then 1 else 2,
           heldFor := if !x.aSeen && !x.bSeen then x.heldFor + 1 else if x.rejoin then x.heldFor else 0 }

/-- The frond's work at its tick edge before the uplink: links, grid, integrity, epoch, outputs, clears, phase, reference; with it the
channels cleared by a phase reset. -/
def frondEdge (i : FrondEdgeIn) (x : Frond) : Frond × Nat :=
  let ownPhase := (x.dpc + (if x.restart then (fchan x 0).k else tickConvs x)) % 4096
  let us := 250 * fsteps x
  let (n, x) := moveGrid i.since (linkEdge x)
  let x := { x with restart := false, refFor := x.refFor + n, outRej := 0,
                    chans := tmap x.chans (fun p ch => newTick n us (diagCtx x p ch) ch) }
  let x := i.crit.foldl (fun x c => critFail c x) x
  let x := reloadTrim i.trimErr x
  -- R320, R324, R329: the epoch edge; R566: the restart of the logic side
  let x := if x.wipe then discardConfig x else x
  let x := match x.res with
    | some (items, ep) => applyItems items ep x
    | none => if x.noCfg && x.resEpoch ≠ 0 && holdsAll x && x.dist then applyItems (heldItems x) x.resEpoch x else x
  -- R344, R350: outputs and clears
  let x := match x.d0, x.d1 with
    | some d0, some d1 =>
      let x := (bits 16 (getLE d0 20 2)).foldl (fun x p => clearChan p x) x
      let x := if (getLE d0 13 1).testBit 1 then clearFrond x else x
      applyOuts d0 d1 x
    | d0, d1 => { x with outRej := maskHeld d0 d1 }
  let ph := edgePhase ownPhase x
  let sync := match x.d0, x.d1 with | some d0, some _ => (getLE d0 13 1).testBit 0 | _, _ => false
  let cleared := if sync then phaseCleared ownPhase 0 x else 0
  let x := if ph = ownPhase then { x with dpc := ph } else setPhase ownPhase ph x
  (refEdge i x, cleared)

end Sys2Proof.Machine
end

