-- ==== Sys2Proof/Machine/FieldRows.lean ====
section
/-! DEFINITION. Commands of the fronds: tick edge, downlink frames, watchdog, conversions, integrators, regulators,
diagnostics, causes, auxiliary power. -/

namespace Sys2Proof.Machine
open Sys2Proof

/-- Changes the core's view of one link of frond f. -/
def modLink (f : Nat) (linkB : Bool) (g : LinkSt → LinkSt) (s : State) : State :=
  modFrond f (fun x => if linkB then { x with b := g x.b } else { x with a := g x.a }) s

/-- The link's source ID (Table 10-8). -/
def linkSrc (f : Nat) (linkB : Bool) : Nat := (if linkB then 0x60 else 0x40) + f

/-- The context of a link source: the bits of its active causes, among them the new one, and REJ count (Table 15-3). -/
def linkCtx (s : State) (f : Nat) (linkB : Bool) (cause : Nat) : List Byte :=
  let l := if linkB then (frond s f).b else (frond s f).a
  le 1 (mask ((List.range 3).filter (fun b => b == cause || srcActive s (linkSrc f linkB) b))) ++ le 1 l.rej

/-- A frame of the superframe of tick t rejected on a link, on either side: REJ counts it, and LINK_ERR becomes active above 64 (R333,
R500, Table 10-8). A module that does not run counts nothing. -/
def rejectFrame (f : Nat) (linkB : Bool) (t : TickNo) (s : State) : State :=
  if !running s then s
  else
  let s := modLink f linkB (fun l => { l with rej := satAdd 255 l.rej 1 }) s
  let l := if linkB then (frond s f).b else (frond s f).a
  if l.rej > 64 then raise (linkSrc f linkB) 1 1 false (linkCtx s f linkB 1) t false false s else s

/-- COPY_DIFF on the link of the second copy of a frame of the superframe of tick t (R347, R500). -/
def copyDiff (f : Nat) (linkB : Bool) (t : TickNo) (s : State) : State :=
  if !running s then s
  else
  let s := modLink f linkB (fun l => { l with diff := satAdd 255 l.diff 1 }) s
  raise (linkSrc f linkB) 2 1 false (linkCtx s f linkB 2) t false false s

/-- A normal frame checked under R332 and R333: its ALIVE and payload. -/
def frameOk (fr : Frame) (fid : Byte) (lenOk : Nat → Bool) : Option (Byte × List Byte) :=
  match fr.bytes with
  | a :: k :: r =>
    let n := r.length
    if fr.codeOk && k == fid && decide (n ≥ 2) && lenOk (n - 2) &&
       (crc16 (a :: k :: r.take (n - 2))).toNat == 256 * getLE r (n - 2) 1 + getLE r (n - 1) 1
    then some (a, r.take (n - 2)) else none
  | _ => none

/-- A checked downlink frame reached the frond on a link: links count as returned (R316, R565, R572); the counter follows A, and B where
it followed neither (R354). -/
def linkSeen (linkB : Bool) (x : Frond) : Frond :=
  let x := if x.bothDown then { x with bothDown := false, rejoin := true, restart := true, judge := true } else x
  if linkB then { x with bSeen := true, clk := if x.clk = 2 then 1 else x.clk } else { x with aSeen := true, clk := 0 }

/-- A checked copy whose arrival stamp is c.stamp on link c.linkB comes after this frame: the earlier stamp is the first copy, and A's
among equal ones (R347). -/
def copyLater (c : Copy) (fr : Frame) : Bool := decide (fr.stamp < c.stamp) || (c.stamp == fr.stamp && c.linkB && !fr.linkB)

/-- A downlink frame at the frond: check, copy selection, repeats; `use` takes the payload of the first copy
(R333, R334, R346, R347). -/
def rxDown (f : Nat) (fr : Frame) (fid : Byte) (lenOk : Nat → Bool) (use : Byte → List Byte → Frond → Frond) (s : State) : State :=
  let x := fieldOf s f
  if !x.power then s
  else match frameOk fr fid lenOk with
    | none => rejectFrame f fr.linkB s.tm.count s
    | some (alive, pay) =>
      let x := linkSeen fr.linkB x
      let x := if fid = 0x10 then (if fr.linkB then { x with echoB := fr.stamp } else { x with echoA := fr.stamp }) else x
      let s1 := { s with field := tput s.field f x }
      match x.copies.find? (fun e => e.1 == fid.toNat && (fid != 0x18 || e.2.alive == alive)) with
      | some (_, c) =>
        if c.payload = pay then s1
        else if copyLater c fr then
          copyDiff f c.linkB s.tm.count (modField f (fun x =>
            use alive pay { x with copies := tput x.copies fid.toNat ⟨fr.linkB, fr.stamp, alive, pay, []⟩ }) s1)
        else copyDiff f fr.linkB s.tm.count s1
      | none =>
        if x.downAlive = some alive then s1
        else
          modField f (fun x => use alive pay { x with downAlive := some alive,
                                                      copies := tput x.copies fid.toNat ⟨fr.linkB, fr.stamp, alive, pay, []⟩ }) s1

/-- AO values of a superframe whose D0 and D1 are held enter i_next at once (R79). -/
def holdNext (x : Frond) : Frond :=
  match x.d0, x.d1 with
  | some d0, some d1 =>
    (List.range 16).foldl (fun x p =>
      let w := outWord d0 p
      if (getLE d0 18 2).testBit p && maskOk d0 d1 && (BitVec.ofNat 32 (getLE d1 (4 * p) 4)) == ~~~w && isAO (fchan x p).mode then
        match outLevel x p w with
        | some (v, _) => modChan p (fun ch => { ch with held := some (max v (ch.held.getD 0)) }) x
        | none => x
      else x) x
  | _, _ => x

/-- The watchdog's deadline in frond counts (R117); 10 ticks while no copy of FRD_WD is good (Table 10-9). -/
def wdDeadline (x : Frond) : Nat :=
  let n := if x.critLost.contains 0x3000 then 10 else fld (freg x 0x3000) 0 10
  x.stamp + n * fsteps x * 32768

/-- The watchdog expires: frond safe state and the cause WD_EXPIRED (R118). -/
def expireWd (crit : List CritIn) (x : Frond) : Frond :=
  { frondSafe crit x with wdExp := true, causes := x.causes ||| 64, met := setBit x.met 6 false }

/-- The refreshes of D1 name the position of their superframe's D0, so they count once both are held (R356, R357, Table 10-7). -/
def refreshD1 (x : Frond) : Frond :=
  match x.d0, x.d1 with
  | some d0, some d =>
    let pos := getLE d0 22 1 % 16
    let w32 := fun o => (BitVec.ofNat 32 (getLE d o 4) : Word)
    refresh (winAddr pos 0x2128) (some pos) (w32 74) (w32 78) (refresh (winAddr pos 0x2120) (some pos) (w32 66) (w32 70) x)
  | _, _ => x

/-- The first valid copy of D0: watchdog, SAFE, resolution, distribution, refresh (R117, R118, R324, R343, R357); the first one after the
links were down tells whether the logic side has restarted (R565, R566). One that ends after the deadline does so after the watchdog
has expired (R118). -/
def useD0 (fin : Nat) (crit : List CritIn) (d : List Byte) (x : Frond) : Frond :=
  let wasZero := x.armed && x.resEpoch == 0
  let x := if x.armed && !x.wdExp && decide (wdDeadline x < x.edge + fin) then expireWd crit x else x
  let x := { x with wipe := x.wipe || (x.judge && getLE d 6 2 == 0 && x.epoch != 0), judge := false }
  let x := { x with stamp := x.edge + fin, armed := true, met := if x.wdExp then x.met ||| 64 else x.met, d0 := some d,
                    resEpoch := BitVec.ofNat 16 (getLE d 6 2) }
  let x := if (getLE d 13 1).testBit 2 then { frondSafe crit x with safeOrd := true } else { x with safeOrd := false }
  let resTag : Byte := BitVec.ofNat 8 (getLE d 8 1)
  let res := getLE d 9 1 % 4
  let x := if res = 1 && x.epoch != x.resEpoch then
      (if x.total > 0 && x.tag == resTag && holdsAll x then { x with res := some (heldItems x, x.resEpoch) }
       else if x.noCfg && !wasZero then x
       else if x.total > 0 && x.tag == resTag then x
       else { x with res := some ([], x.resEpoch) })
    else if res = 2 && x.tag == resTag then { x with items := [], total := 0, itemBad := false }
    else x
  let dist := (getLE d 9 1).testBit 2
  let tag : Byte := BitVec.ofNat 8 (getLE d 10 1)
  let total := getLE d 11 2
  let x := if dist && (tag != x.tag || total != x.total) then
      { x with tag := tag, total := total, items := [], itemBad := false, dist := true }
    else { x with dist := dist || x.dist }
  let pos := getLE d 22 1 % 16
  let w32 := fun o => (BitVec.ofNat 32 (getLE d o 4) : Word)
  let x := refresh 0x3000 none (w32 24) (w32 28) x
  let x := refresh (winAddr pos 0x2130) (some pos) (w32 32) (w32 36) x
  holdNext (refreshD1 { x with corr := sgn 16 (getLE d 14 2) })

/-- The first valid copy of D1 (R344, R357). -/
def useD1 (d : List Byte) (x : Frond) : Frond := holdNext (refreshD1 { x with d1 := some d })

/-- The first valid copy of D2: commit items. A pair is checked once both words are held; one whose complement is not among the items of
the distribution fails once all are held. A failed pair names its channel (R318, R355, R358). -/
def useD2 (d : List Byte) (x : Frond) : Frond :=
  let n := min 16 (getLE d 0 2)
  let x := if !x.dist then x else (List.range n).foldl (fun x i =>
    let o := 2 + 8 * i
    { x with items := tput x.items (getLE d o 2) (getLE d (o + 2) 2, BitVec.ofNat 32 (getLE d (o + 4) 4)) }) x
  let held := heldItems x
  let bad := held.filter (fun e => isPairValue e.1 && (pairBad held e || (x.items.length == x.total && !pairWhole held e)))
  if x.total > 0 && !bad.isEmpty && !x.itemBad then
    { x with itemBad := true, integ := true,
             integMask := x.integMask ||| mask ((bad.filter (fun e => decide (e.1 ≥ 0x8000))).map (fun e => (e.1 - 0x8000) / 256 % 16)) }
  else x

/-- The ALIVE value with which an order frame checks: one to four above the last checked frame (R335). -/
def orderAlive (x : Frond) (k : Byte) (o : OrderFrame) : Option Byte :=
  match x.downAlive with
  | none => none
  | some a => if o.codeOk then ([1, 2, 3, 4].map (fun (i : Byte) => a + i)).find? (fun v => crc16 [v, k, o.payload] == o.crc) else none

/-- An order frame at the frond; the second copy of one already used has no effect (R334, R335). -/
def rxOrder (f : Nat) (o : OrderFrame) (k : Byte) (use : Byte → Frond → Frond) (s : State) : State :=
  let x := fieldOf s f
  if !x.power then s
  else match orderAlive x k o with
    | some a =>
      let x := linkSeen o.linkB x
      { s with field := tput s.field f (use a { x with downAlive := some a }) }
    | none =>
      let again := match x.downAlive with | some a => o.codeOk && crc16 [a, k, o.payload] == o.crc | none => false
      if again then { s with field := tput s.field f (linkSeen o.linkB x) } else rejectFrame f o.linkB s.tm.count s

/-- The request time that a snap order names: the first count at or after its check with those low 8 bits (R341). -/
def reqTime (o : OrderFrame) : Nat := o.now + (o.payload.toNat + 256 - o.now % 256) % 256

/-! ### Rows -/

/-- FROND_TICK_EDGE: the frond latches, applies and sends uplink superframe N-1 (R126, R316, R320, R336). A snap request after the last
conversion of the tick selects conversion 0 of the next: it keeps its time, counted from the edge that has come (R133). -/
def execFrondTickEdge (f : Nat) (i : FrondEdgeIn) (s : State) : Host.Outcome State Fault Refusal :=
  let x := fieldOf s f
  if !x.power then .next s
  else
    let vref := vrefOf x i
    let x := takeMeans vref i x
    let blocks := (List.range 16).map (posBlock x)
    let (y, cleared) := frondEdge i x
    let y := seeSwitch x y
    let n := y.edge - x.edge
    let u0 := u0Payload y (cpair x) vref i
    let y := { y with aSeen := false, bSeen := false, d0 := none, d1 := none, echoA := 0xFFFFFF, echoB := 0xFFFFFF,
                      integ := false, integMask := 0, rejoin := false, snapLost := 0, copies := [], corr := 0,
                      snaps := (y.snaps.filter (fun e => e.2.2 != 0)).map (fun e => (e.1 - n, e.2)) }
    let s := { s with field := tput s.field f y, tm := { s.tm with syncCleared := s.tm.syncCleared + cleared } }
    let s := sendUp f 0x00 u0 [] s
    if x.restart then .next s
    else .next ((List.range 4).foldl (fun s q =>
      let b := (blocks.drop (4 * q)).take 4
      let fl := (List.range 4).map (fun j => posFlags (fchan x (4 * q + j)))
      sendUp f (BitVec.ofNat 8 (q + 1)) ((b.map (·.1)).flatten) (fl ++ (b.map (·.2)).flatten) s) s)

/-- CONTENTION_SAFE_STATE: after CONT_TICKS further ticks of CONTENTION the AO channel enters its safe state, its pair checked (R106,
R355). -/
def execContentionSafeState (ch : Nat) (s : State) (crit : List CritIn := []) : Host.Outcome State Fault Refusal :=
  let f := ch / 16
  let p := ch % 16
  let x := fieldOf s f
  let c := fchan x p
  if x.power && isAO c.mode && c.diag.testBit 9 && decide (c.contTicks ≥ fld (freg x 0x3008) 0 8) && !c.safe then
    .next (modField f (fun x =>
      let x := if c.safeHeld then x else critEntry crit (· == p) x
      seeSwitch (fieldOf s f) (modChan p (fun c => { enterSafe x p c with safe := true }) x)) s)
  else .next s

/-- D0 at a frond; `fin` is the frond count of its end after the tick edge (R117, R333, R343). -/
def execD0 (f : Nat) (fr : Frame) (fin : Nat) (s : State) (crit : List CritIn := []) : Host.Outcome State Fault Refusal :=
  .next (rxDown f fr 0x10 (· == 113) (fun _ d x => seeSwitch x (useD0 fin crit d x)) s)

/-- D1 at a frond (R344). -/
def execD1 (f : Nat) (fr : Frame) (s : State) : Host.Outcome State Fault Refusal :=
  .next (rxDown f fr 0x11 (· == 82) (fun _ d x => useD1 d x) s)

/-- D2 at a frond: its length is 344 bytes less the characters inserted on its link (R318, R333, R338). -/
def execD2 (f : Nat) (fr : Frame) (s : State) (ins : Nat := 0) : Host.Outcome State Fault Refusal :=
  .next (rxDown f fr 0x12 (fun n => n + ins == 344 && decide (130 ≤ n)) (fun _ d x => useD2 d x) s)

/-- DS at a frond: a snap selection held with its ALIVE value (R342). -/
def execDS (f : Nat) (fr : Frame) (s : State) : Host.Outcome State Fault Refusal :=
  .next (rxDown f fr 0x18 (· == 2) (fun a d x => { x with ds := some (a, getLE d 0 2) }) s)

/-- SNAP_SYNC at a frond: channels with SYNC_SNAP take part (R135, R341). -/
def execSnapSync (f : Nat) (o : OrderFrame) (s : State) : Host.Outcome State Fault Refusal :=
  .next (rxOrder f o 0x1C (fun _ x =>
    let m := mask ((List.range 16).filter (fun p => bit (fwin x p 0x2148) 2))
    { x with snaps := x.snaps ++ [(reqTime o, false, m)] }) s)

/-- SNAP_DESC at a frond: applied only to the DS selection one ALIVE value below (R342). -/
def execSnapDesc (f : Nat) (o : OrderFrame) (s : State) : Host.Outcome State Fault Refusal :=
  .next (rxOrder f o 0x5C (fun a x =>
    match x.ds with
    | some (d, m) => if d + 1 = a then { x with snaps := x.snaps ++ [(reqTime o, true, m)], ds := none } else x
    | none => x) s)

/-- SAFE at a frond: payload 0xA5 puts it into frond safe state (R116, R343). -/
def execSafe (f : Nat) (o : OrderFrame) (s : State) (crit : List CritIn := []) : Host.Outcome State Fault Refusal :=
  if o.payload ≠ 0xA5 then .next s
  else .next (rxOrder f o 0x7C (fun _ x => seeSwitch x { frondSafe crit x with safeOrd := true }) s)

/-- WD_EXPIRED: no valid D0 stamped by the deadline; `at_` counts after the tick edge have passed (R118, R119). -/
def execWdExpired (f : Nat) (at_ : Nat) (s : State) (crit : List CritIn := []) : Host.Outcome State Fault Refusal :=
  let x := fieldOf s f
  if x.power && x.armed && !x.wdExp && decide (wdDeadline x < x.edge + at_) then
    .next (modField f (fun x => seeSwitch x (expireWd crit x)) s)
  else .next s

/-- CONVERSION of a channel with converter code c (R126, R144, R150). -/
def execConversion (ch : Nat) (c : BitVec 16) (s : State) : Host.Outcome State Fault Refusal :=
  let f := ch / 16
  if (fieldOf s f).power then .next (modField f (convert (ch % 16) c.toInt) s) else .next s

/-- INTEGRATOR_STEP of a DI or TACH channel at a voltage from F to T in µV (R63, R67, R571). -/
def execIntegratorStep (ch : Nat) (uv : Int) (at_ : Int) (s : State) : Host.Outcome State Fault Refusal :=
  let f := ch / 16
  let x := fieldOf s f
  if x.power && !x.shutdown && isDI (fchan x (ch % 16)).mode then .next (modField f (integrate (ch % 16) ch uv at_) s) else .next s

/-- REGULATOR_EVALUATION of a channel (R77, R78, R107). -/
def execRegulatorEvaluation (ch : Nat) (r : RegIn) (s : State) : Host.Outcome State Fault Refusal :=
  let f := ch / 16
  if (fieldOf s f).power then .next (modField f (evaluate (ch % 16) ch r) s) else .next s

/-- CHANNEL_DIAGNOSTIC: the frond judges diagnostic bit b of a channel on what it has seen (R98 to R102). A diagnostic stated on ticks is
judged at a tick edge, before FROND_TICK_EDGE reports it (R96, log 59). -/
def execChannelDiagnostic (ch b : Nat) (i : DiagIn) (n : Nat) (s : State) : Host.Outcome State Fault Refusal :=
  let f := ch / 16
  let p := ch % 16
  let x := fieldOf s f
  let c := fchan x p
  if !x.power || !diagListed x p b c.mode then .next s
  else if !c.diag.testBit b && diagSet x p ch b i n then .next (modField f (fun x => seeSwitch x (modChan p (diagOn b) x)) s)
  else if c.diag.testBit b && diagGone x p ch b i n then .next (modField f (modChan p (diagOff b)) s)
  else .next s

/-- DO_THERMAL: a conducting switch turns off at its shutdown temperature; cooled by the hysteresis it conducts again where its value in
force is ON (R101, R103). -/
def execDoThermal (ch : Nat) (temp : Int) (s : State) : Host.Outcome State Fault Refusal :=
  let f := ch / 16
  let p := ch % 16
  let x := fieldOf s f
  let c := fchan x p
  let top := limit 15 ch 640 720
  if x.power && c.mode == 2 then
    if !c.thermal && delivered x p == .level 1 && decide (temp ≥ top) then
      .next (modField f (fun x => seeSwitch x (modChan p (fun c => { c with thermal := true, diag := setBit c.diag 5 true }) x)) s)
    else if c.thermal && decide (temp ≤ top - limit 16 ch 40 80) then
      .next (modField f (fun x => seeSwitch x (modChan p (fun c => conducts x { c with thermal := false }) x)) s)
    else .next s
  else .next s

/-- REG_FAULT_RESTART: the regulator and its stage start again 100 ms after REG_FAULT (Table 3-2); that of a disconnected AO stage stays
stopped (R114, R115). -/
def execRegFaultRestart (ch : Nat) (s : State) : Host.Outcome State Fault Refusal :=
  let f := ch / 16
  let p := ch % 16
  let x := fieldOf s f
  let c := fchan x p
  if x.power && c.regFault && !x.shutdown then
    .next (modField f (modChan p (fun c =>
      if parted c then { c with regFault := false } else startReg x p { c with regFault := false })) s)
  else .next s

/-- FSUP in mV has been valid over the whole time seen: it lay above the FSUP_LOW rising threshold and below 33.5 V when that time began,
and neither FSUP_LOSS nor FSUP_HIGH, of 50 µs each, has become active in it (R570, Table 3-4). -/
def fsupIn (f : Nat) (q : Seen) : Bool :=
  decide (q.first > limit 18 (512 + f) 10500 10800) && decide (q.first < 33500) &&
  decide (q.dip ≥ limit 19 (512 + f) 8600 9400) && decide (q.peak ≤ limit 20 (512 + f) 34500 35500)

/-- FSUP has lain above the FSUP_LOW rising threshold and below 33.5 V at some moment of the time seen (R570). -/
def fsupMet (f : Nat) (q : Seen) : Bool := decide (q.hi > limit 18 (512 + f) 10500 10800) && decide (q.lo < 33500)

/-- The condition of frond cause b has held for its filter time (Tables 3-1, 3-4, 4-4, R100, R141). The falling threshold of FSUP_LOW is not
above the rising one. FSUP_ABSENT never becomes active again, and WD_EXPIRED has a row of its own. -/
def causeSet (x : Frond) (f b : Nat) (q : Seen) : Bool :=
  match b with
  | 1 => decide (q.hi < min (limit 17 (512 + f) 10200 10800) (limit 18 (512 + f) 10500 10800)) && decide (q.us ≥ 1000)
  | 2 => x.fsup && decide (q.hi < limit 19 (512 + f) 8600 9400) && decide (q.us ≥ 50)
  | 3 => decide (q.lo > limit 20 (512 + f) 34500 35500) && decide (q.us ≥ 50)
  | 4 => decide (q.lo > limit 21 (512 + f) 480 520) && decide (q.us ≥ 10000)
  | 5 => decide (q.lo > limit 22 (512 + f) 560 600) && decide (q.us ≥ 1000)
  | 7 => fld (freg x 0x3280) 0 2 == 1 && decide (q.us ≥ 100) &&
    (decide (q.hi < limit 24 (512 + f) 2430 2470) || decide (q.lo > limit 25 (512 + f) 4520 4580))
  | _ => false

/-- The clear condition of frond cause b has held for its time, apart from FAULT_CLEAR (Tables 3-1, 3-4, 4-4, R141). REF_RANGE that an
epoch leaves at 1 with another REF_SEL stays until Ff_FREF is within the thresholds: R141 speaks of REF_SEL 1 alone (DESIGN CHOICE,
log 72). -/
def causeGone (f b : Nat) (q : Seen) : Bool :=
  match b with
  | 1 => decide (q.lo > limit 18 (512 + f) 10500 10800) && decide (q.us ≥ 1000)
  | 2 => fsupIn f q && decide (q.us ≥ 100000)
  | 3 => decide (q.hi < 33500) && decide (q.us ≥ 100000)
  | 4 => decide (q.hi < limit 23 (512 + f) 440 480) && decide (q.us ≥ 10000)
  | 5 => decide (q.hi < limit 23 (512 + f) 440 480) && decide (q.us ≥ 100000)
  | 7 => decide (limit 24 (512 + f) 2430 2470 ≤ q.lo) && decide (q.hi ≤ limit 25 (512 + f) 4520 4580) && decide (q.us ≥ 1000)
  | _ => false

/-- A frond cause becomes active with its reaction; FSUP_LOSS and FSUP_HIGH end the validity of FSUP (R110, R111, R570). -/
def causeOn (b : Nat) (crit : List CritIn) (x : Frond) : Frond :=
  if b = 7 then { x with refRange := true, refRdy := false, refFor := 0 }
  else
    let x := { x with causes := setBit x.causes b true, met := setBit x.met b false, fsup := x.fsup && b != 2 && b != 3 }
    if shutCauses.testBit b then frondShut crit x else x

/-- The clear condition of an active frond cause is met: a cause that needs FAULT_CLEAR only notes it. REF_RANGE has then been 0 for more
than the 1 ms of R140. -/
def causeOff (b : Nat) (x : Frond) : Frond :=
  if b = 7 then { x with refRange := false, refFor := if x.refRange then max x.refFor 131072 else x.refFor }
  else if !x.causes.testBit b then x
  else if safeCauses.testBit b then { x with met := setBit x.met b true }
  else { x with causes := setBit x.causes b false }

/-- A frond without auxiliary power whose FSUP is not valid has no power and holds nothing (R121, R550, R567). -/
def powered (x : Frond) : Frond := if x.aux || x.fsup then x else {}

/-- FROND_CAUSE: the supervisor judges cause b on what it has seen (R100, R101, R110, R111, R141, R570). -/
def execFrondCause (f b : Nat) (q : Seen) (crit : List CritIn) (s : State) : Host.Outcome State Fault Refusal :=
  let x := fieldOf s f
  if !x.power then .next s
  else
    let x := { x with fsup := x.fsup || ((b == 1 || b == 2 || b == 3) && fsupMet f q) }
    let x := if causeSet x f b q then causeOn b crit x else if causeGone f b q then causeOff b x else x
    .next { s with field := tput s.field f (powered (seeSwitch (fieldOf s f) x)) }

/-- FROND_INPUT_RESTART: every cause of the shutdown has met its clear condition apart from FAULT_CLEAR (R112). -/
def execFrondInputRestart (f : Nat) (s : State) : Host.Outcome State Fault Refusal :=
  let x := fieldOf s f
  if x.power && x.shutdown && (x.causes &&& shutCauses) != 0 && ((x.causes &&& shutCauses) &&& x.met) == (x.causes &&& shutCauses) then
    .next (modField f (fun x => seeSwitch x (frondRestart x)) s)
  else .next s

/-- A frond whose supervisor starts: trim loaded, in shutdown with FSUP_ABSENT, without configuration, its counter on the holdover
oscillator while no link has delivered a frame (R122, R123, R145, R146, R329, R354). -/
def startFrond (otp : List TrimIn) : Frond := otp.foldl (fun x t => loadTrim t x) { power := true, noCfg := true, clk := 2 }

/-- AUX_POWER_ARRIVE: the frond starts, or one that runs on FSUP goes on (R122, R550). -/
def execAuxPowerArrive (f : Nat) (otp : List TrimIn) (s : State) : Host.Outcome State Fault Refusal :=
  let x := fieldOf s f
  .next { s with field := tput s.field f { (if x.power then x else startFrond otp) with aux := true } }

/-- AUX_POWER_LOSS: the frond goes on from a valid FSUP (R550); otherwise it is unpowered and holds nothing, its lands at high impedance
(R121, R329, R567). -/
def execAuxPowerLoss (f : Nat) (s : State) : Host.Outcome State Fault Refusal :=
  .next { s with field := tput s.field f (powered { fieldOf s f with aux := false }) }

/-- FSUP_ARRIVE: FSUP valid for 100 ms starts the frond without FAULT_CLEAR (R124, R570). A frond without any power starts its supervisor
from the FSUP that has become valid (R550, R567). -/
def execFsupArrive (f : Nat) (s : State) (q : Seen := { lo := 24000, hi := 24000, us := 100000 }) (otp : List TrimIn := []) :
    Host.Outcome State Fault Refusal :=
  let x := fieldOf s f
  let x := if x.power || !fsupIn f q then x else { startFrond otp with fsup := true }
  if x.power && x.causes.testBit 0 && fsupIn f q && decide (q.us ≥ 100000) then
    let y := { x with causes := setBit x.causes 0 false, fsup := true }
    .next { s with field := tput s.field f (seeSwitch x (if (y.causes &&& shutCauses) == 0 then tryLeaveSafe (frondRestart y) else y)) }
  else .next { s with field := tput s.field f x }

/-- CLK_B_CHANGE: the frond counter locks to link B, or runs on the holdover oscillator, when A stops delivering: no frame has checked on
A since the frond's last edge (R354, DESIGN CHOICE, log 60). -/
def execClkBChange (f : Nat) (bDelivers : Bool) (s : State) : Host.Outcome State Fault Refusal :=
  if (fieldOf s f).power && !(fieldOf s f).aSeen then .next (modField f (fun x => { x with clk := if bDelivers then 1 else 2 }) s) else .next s

end Sys2Proof.Machine
end

