-- ==== Sys2Proof/Machine/Downlink.lean ====
section
/-! DEFINITION. The core's downlink superframe, corrections, output values and clears on their way, and the resolution of a
commit (09, 10). -/

namespace Sys2Proof.Machine
open Sys2Proof

/-- ns times 65,536 per 1/32 frond count (7.62939453125 ns / 32). -/
def subCount : Int := 15625

/-- The correction for edge N+1 and what is carried over, in 1/32 frond count, from the measured offset, the aperture model
(limited to R573's ±1.5 ns), the core's slew and the carry (R312). -/
def correction (s : State) (x : CFrond) : Int × Int :=
  let ap := clampI (-6) 6 (Config.aperture x.rep.temp x.rep.fsup)
  let tot := x.carried + s.tm.slew - x.off.getD 0 + ap
  let c := clampI (-128) 128 tot
  (c, tot - c)

/-- The 6-byte edge and value word of an OUTPUT_SET result (Table 12-10). -/
def outResult (edge : Nat) (v : Word) : List Byte := le 6 edge ++ [0, 0] ++ le 4 v.toNat

/-- The value word in force of a channel as last reported. -/
def valueOf (s : State) (ch : Nat) : Word := (tget {} s.chans ch).value

/-- An output value replaces the one on its way: the old OUTPUT_SET completes SUPERSEDED with the edge after its earliest
superframe whose U0 did not arrive checked, or 0 (R345, R426). -/
def supersede (ch : Nat) (old : Option Carry) (s : State) : State :=
  match old with
  | none => s
  | some c => completeOpt c.did 0x02 (outResult ((c.sent.head?.map (fun t => t.toNat + 1)).getD 0) (valueOf s ch)) s

/-- Value c joins what waits for a position: a rule's value prevails over an OUTPUT_SET's, a later value over an earlier; what is
replaced completes when the superframe leaves (R24, R426, Table 12-14). -/
def joinCarry (old : Option Carry) (c : Carry) : Carry :=
  match old with
  | none => c
  | some o =>
    if !c.rule && o.rule then { o with repl := o.repl ++ c.repl ++ c.did.toList } else { c with repl := o.repl ++ o.did.toList ++ c.repl }

/-- A value in a table of what waits. -/
def putCarry (t : Tab Carry) (p : Nat) (c : Carry) : Tab Carry := tput t p (joinCarry ((t.find? (fun e => e.1 == p)).map (·.2)) c)

/-- An output value for channel ch is on its way: a rule's travels in the next downlink superframe, an OUTPUT_SET's in the first one
after the next tick edge (R23, R24). -/
def queueOut (ch : Nat) (v : Word) (did : Option Nat) (rule : Bool) (s : State) : State :=
  let c : Carry := { val := v, did := did, rule := rule }
  modFrond (ch / 16) (fun x =>
    if rule then { x with new := putCarry x.new (ch % 16) c } else { x with next := putCarry x.next (ch % 16) c }) s

/-- At a tick edge the OUTPUT_SETs executed before it are due for the superframe that follows it (R23). -/
def outsDue (s : State) : State :=
  { s with fronds := tmap s.fronds (fun _ x => { x with new := x.next.foldl (fun t e => putCarry t e.1 e.2) x.new, next := [] }) }

/-- One frond's frames of downlink superframe N, with `ins` characters of inserted frames in its window (R318, R338, R344, R345). -/
def downFrond (ins : List Nat) (s : State) (f : Nat) : State :=
  let n := s.tm.count
  -- newer values replace those on their way
  let s := (frond s f).new.foldl (fun s e =>
    supersede (16 * f + e.1) (((frond s f).out.find? (fun o => o.1 == e.1)).map (·.2))
      (e.2.repl.foldl (fun s id => complete id 0x02 (outResult 0 (valueOf s (16 * f + e.1))) s) s)) s
  let s := modFrond f (fun x =>
    let out := x.new.foldl (fun (o : Tab Carry) e => tput o e.1 { e.2 with repl := [] }) x.out
    { x with new := [], out := tmap out (fun _ c => { c with sent := c.sent ++ [n] }),
             clr := x.clr.map (fun c => { c with sent := c.sent ++ [n] }) }) s
  let x := frond s f
  let (c, car) := correction s x
  let s := modFrond f (fun x => { x with corr := c, carried := car, off := none }) s
  let x := frond s f
  let d2 := match running318 s x with
    | some d => let (l, d') := nextItems d; (d2Payload l (nthD ins f 0), some d')
    | none => (d2Payload [] (nthD ins f 0), x.dist)
  let s := sendDown f 0x10 (d0Payload s f x) s
  let s := sendDown f 0x11 (d1Payload s f x) s
  let s := sendDown f 0x12 d2.1 s
  modFrond f (fun x => { x with dist := d2.2 }) s

/-- The next tag of a distribution (Table 10-6). -/
def takeTag (s : State) : Byte × State := (s.tm.nextTag + 1, { s with tm := { s.tm with nextTag := s.tm.nextTag + 1 } })

/-- A frond that reports NOCFG is given every item while no commit is pending (R329). -/
def startNoCfg (s : State) (f : Nat) : State :=
  let x := frond s f
  if x.seen && x.rep.noCfg && s.tm.epoch != 0 && s.pend.isNone && x.dist.isNone then
    let (t, s) := takeTag s
    modFrond f (fun x => { x with dist := some ⟨t, false, allItems f s.cfg, 0⟩ }) s
  else s

/-- The commit's abort or apply completion and its EVENT record (Tables 12-10, 12-18). -/
def commitEvent (aborted : Bool) (p : Pending) (a b : Nat) (s : State) : State :=
  emit 255 { typ := 0x40, source := 0, epoch := s.tm.epoch, tick := p.t, flags := 0,
             body := [2, BitVec.ofNat 8 (b2n aborted)] ++ le 2 (if aborted then 0 else s.tm.epoch.toNat) ++ le 6 p.t.toNat ++ [0, 0] ++
                     le 4 a ++ le 4 b } s

/-- EVENT kind 3, FROND_APPLY (Table 12-18). -/
def frondApplyEvent (f : Nat) (ep : Half) (s : State) : State :=
  emit 255 { typ := 0x40, source := BitVec.ofNat 16 f, epoch := ep, tick := s.tm.count, flags := 0,
             body := [3, 0] ++ le 2 ep.toNat ++ le 6 s.tm.count.toNat } s

/-- Fronds that did not acknowledge (R319, R320). -/
def unacked (s : State) (p : Pending) : List Nat := p.affected.filter (fun f => !(frond s f).acked)

/-- The applied commit's completion: excluded fronds, and late ones whose epoch-control field did not arrive or did not confirm; one that
reports NOCFG follows R329 and is not late, but for the first commit, in which every frond takes part (R324, R329, R330). With it go the
channels of R91, for which Table 12-10 has no bytes (DESIGN CHOICE, log 62). The commit stays pending up to here, after edge T: R317 does
not say when it ceases to be (DESIGN CHOICE, log 74). -/
def finishApplied (p : Pending) (excl : List Nat) (s : State) : State :=
  let late := allFronds.filter (fun f => !excl.contains f && (frond s f).hold.isSome && (p.first || !((frond s f).gotU0 && (frond s f).rep.noCfg)))
  let s := late.foldl (fun s f => modFrond f (fun x => { x with late := true }) s) s
  let ow := p.owOff.filter (fun ch => !excl.contains (ch / 16))
  let s := if ow = [] then s else outp (.openWireOff p.id ow) s
  let s := complete p.id 0 (le 6 p.t.toNat ++ le 2 s.tm.epoch.toNat ++ le 4 (mask excl) ++ le 4 (mask late)) s
  commitEvent false p (mask excl) (mask late) { s with pend := none }

/-- After a U0, or at the next downlink superframe at the latest, an applied commit completes (R330). -/
def tryFinish (force : Bool) (s : State) : State :=
  match s.pend with
  | none => s
  | some p =>
    match p.resolved with
    | some (true, excl) =>
      if p.t ≤ s.tm.count && (force || allFronds.all (fun f => (frond s f).gotU0)) then finishApplied p excl s else s
    | _ => s

/-- COMMIT_RESOLVE: 20 µs after edge T-1 (R319 to R322). -/
def execCommitResolve (s : State) : Host.Outcome State Fault Refusal :=
  match s.pend with
  | none => .next s
  | some p =>
    if !running s || p.resolved.isSome || s.tm.count + 1 ≠ p.t then .next s
    else
      let un := unacked s p
      let changes := [(0x1010, 0x7F), (0x3000, 0x3FF), (0x3008, 0xFF), (0xE000, 0x10)].any
        (fun e => (conf s.cfg e.1 0 &&& BitVec.ofNat 32 e.2) != (conf p.conf e.1 0 &&& BitVec.ofNat 32 e.2))
      let apply := un == [] || (p.excl && !changes)
      let ep : Half := if s.tm.epoch = 0xFFFF then 1 else s.tm.epoch + 1
      let excl := if apply then un else []
      let s := { s with tm := { s.tm with resTag := p.tag, resEpoch := if apply then ep else s.tm.epoch },
                        pend := some { p with resolved := some (apply, if apply then excl else un) } }
      .next (allFronds.foldl (fun s f => modFrond f (fun x =>
        { x with res := if apply && !excl.contains f then 1 else 2, dist := none }) s) s)

/-- Downlink superframe N leaves; with superframe T-1 an aborted commit completes (R338, Table 12-10). -/
def sendSuperframe (ins : List Nat) (s : State) : State :=
  let s := allFronds.foldl (downFrond ins) (allFronds.foldl startNoCfg (tryFinish true s))
  match s.pend with
  | some p =>
    (match p.resolved with
     | some (false, un) =>
       commitEvent true p (mask un) 0 (complete p.id 0x25 (le 6 p.t.toNat ++ [0, 0] ++ le 4 (mask un)) { s with pend := none })
     | _ => s)
  | none => s

/-- DOWNLINK_SUPERFRAME N, while firmware runs and is not halted (R338, R491). -/
def execDownlinkSuperframe (s : State) (ins : List Nat := []) : Host.Outcome State Fault Refusal :=
  if s.phase ≠ .running then .next s else .next (inOneCycle (sendSuperframe ins) s)

end Sys2Proof.Machine
end

