-- ==== Sys2Proof/Machine/Rules.lean ====
section
/-! DEFINITION. The rule engine (08). -/

namespace Sys2Proof.Machine
open Sys2Proof

/-- Word w of rule r's entry in a configuration (Table 8-3). -/
def ruleW (t : Tab Word) (r w : Nat) : Word := conf t (ruleOfs w) r

/-- A rule as it is evaluated: ALERT, DANGER, HYST, ACTION and the three output values. -/
structure RuleVals where
  alert : Word
  danger : Word
  hyst : Word
  action : Word
  vals : List Word
  deriving DecidableEq, Repr

/-- The rule's entry is enabled. -/
def ruleEn (t : Tab Word) (r : Nat) : Bool := bit (ruleW t r 1) 0

/-- BASIC of a rule. -/
def ruleBasic (t : Tab Word) (r : Nat) : Bool := bit (ruleW t r 1) 2

/-- Its value words that are stored beside complements: all seven, or ALERT and DANGER alone with BASIC (R293). -/
def rulePairs (t : Tab Word) (r : Nat) : List (Word × Word) :=
  (List.range (if ruleBasic t r then 2 else 7)).map (fun i => (ruleW t r (2 + i), ruleW t r (9 + i)))

/-- The words a rule uses and whether one was replaced by its last good value (R292). -/
def checkPairs (good : List Word) (l : List (Word × Word)) : List Word × Bool :=
  ((l.zipIdx).map (fun e => if e.1.2 = ~~~e.1.1 then e.1.1 else nthD good e.2 0), l.any (fun e => e.2 != ~~~e.1))

/-- DIR, 1 for below; 0 with BASIC (R293). -/
def ruleDir (t : Tab Word) (r : Nat) : Bool := bit (ruleW t r 1) 1 && !ruleBasic t r

/-- PERSIST; 3 with BASIC. -/
def rulePersist (t : Tab Word) (r : Nat) : Nat := if ruleBasic t r then 3 else fld (ruleW t r 1) 8 8

/-- The rule's values from its checked words; with BASIC HYST is 0.05 ALERT, rounded once, and ACTION has only EV_EN (R293). -/
def ruleVals (t : Tab Word) (r : Nat) (ws : List Word) : RuleVals :=
  let a := nthD ws 0 0
  if ruleBasic t r then
    { alert := a, danger := nthD ws 1 0, hyst := f32OfRat (f32Int a * 5) (f32One * 100), action := 0x00100000, vals := [0, 0, 0] }
  else { alert := a, danger := nthD ws 1 0, hyst := nthD ws 2 0, action := nthD ws 3 0, vals := [nthD ws 4 0, nthD ws 5 0, nthD ws 6 0] }

/-- v > a - h on exact values (R295). -/
def aboveDiff (v a h : Word) : Bool := if f32IsInf v then !bit v 31 else decide (f32Int v > f32Int a - f32Int h)

/-- The level a value asks for (R295). -/
def wantLevel (dir : Bool) (x : RuleVals) (level : Nat) (v : Word) : Nat :=
  let g := fun (w : Word) => if dir then f32Neg w else w
  let v := g v
  let d := g x.danger
  let a := g x.alert
  if f32Lt d v then 2
  else if level = 2 ∧ aboveDiff v d x.hyst then 2
  else if f32Lt a v then 1
  else if level ≥ 1 ∧ aboveDiff v a x.hyst then 1
  else 0

/-- A value a rule evaluates: the value, SEQ, tick, epoch, header flags. -/
structure RuleIn where
  v : Word
  seq : Nat
  tick : TickNo
  ep : Half
  fl : Nat
  deriving DecidableEq, Repr

/-- A level change: previous and new level and the value that completed it. -/
structure RuleChg where
  prev : Nat
  level : Nat
  val : RuleIn
  deriving DecidableEq, Repr

/-- One evaluation (R295). -/
def ruleStep (dir : Bool) (persist : Nat) (x : RuleVals) (a : RuleSt × List RuleChg) (i : RuleIn) : RuleSt × List RuleChg :=
  let (st, l) := a
  let want := wantLevel dir x st.level i.v
  if want = st.level then ({ st with cnt := 0 }, l)
  else
    let st := if want ≠ st.pend then { st with pend := want, cnt := 0 } else st
    if st.cnt + 1 ≥ persist then ({ st with level := want, cnt := 0 }, l ++ [⟨st.level, want, i⟩])
    else ({ st with cnt := st.cnt + 1 }, l)

/-- A tick feature of a channel (Table 8-4, R295). -/
def tickFeature (s : State) (ch feat : Nat) : Option Word :=
  let c := chan s ch
  let n := c.tcnt
  match feat with
  | 0x20 => some (f32OfRat c.tsum n)
  | 0x21 => some (f32Sqrt c.tsq n)
  | 0x22 => some (f32OfInt c.tmn)
  | 0x23 => some (f32OfInt c.tmx)
  | 0x24 => some (f32OfRat (c.measI * 24) 65536)
  | 0x25 => some (f32OfRat c.bias 1000)
  | 0x26 => some (f32OfInt c.loopLow)
  | 0x27 => some (f32OfInt (b2n c.state))
  | 0x28 => some (f32OfInt ((c.rise + c.fall : Nat) : Int))
  | _ => if 0x30 ≤ feat && feat ≤ 0x3C then some (f32OfInt (b2n (c.diag.testBit (feat - 0x30)))) else none

/-- The new values of a rule's feature at this edge (R294, R296, R298): none that is NaN or carries MISSING. -/
def ruleInputs (s : State) (r : Nat) : List RuleIn :=
  let w := ruleW s.cfg r 0
  let src := fld w 0 16
  let feat := fld w 16 8
  let band := fld w 24 8
  let ok := fun (i : RuleIn) => !f32IsNaN i.v && !i.fl.testBit 2
  if feat = 0x40 then
    let x := spdRef s src
    if src < 16 ∧ x.fresh then [(⟨x.freq, x.tick.toNat % 2 ^ 32, x.tick, x.ep, x.fl⟩ : RuleIn)].filter ok else []
  else if feat ≥ 0x20 then
    let c := chan s src
    if c.tMiss then []
    else match tickFeature s src feat with
      | some v => [(⟨v, c.tTick.toNat % 2 ^ 32, c.tTick, c.tEp, c.tFl⟩ : RuleIn)].filter ok
      | none => []
  else
    (s.feats.filter (fun x => x.ch == src)).filterMap (fun x =>
      let v := if feat = 0x10 then x.bands[band]? else if 1 ≤ feat ∧ feat ≤ 9 then x.vals[feat - 1]? else none
      v.bind (fun v => let i : RuleIn := ⟨v, x.b, x.tick, x.ep, x.fl⟩; if ok i then some i else none))

/-- The value word that a level change applies, where its bit is set (Table 8-5). -/
def ruleOut (x : RuleVals) (level : Nat) : Option Word :=
  if bit x.action 9 && bit x.action (10 + level) then x.vals[level]? else none

/-- The EVENT record of a level change (Table 8-6). -/
def ruleEvent (t : Tab Word) (r : Nat) (x : RuleVals) (c : RuleChg) (eflags capSeq : Nat) : Cell :=
  let w := ruleW t r 0
  let th := if max c.prev c.level = 2 then x.danger else x.alert
  { typ := 0x40, source := BitVec.ofNat 16 (fld w 0 16), epoch := c.val.ep, tick := c.val.tick,
    flags := BitVec.ofNat 16 (c.val.fl &&& 0x0B),
    body := [1, BitVec.ofNat 8 c.level, BitVec.ofNat 8 c.prev, BitVec.ofNat 8 (fld w 16 8)] ++ le 2 r ++ le 1 (fld w 24 8) ++ le 1 eflags ++
            le 4 c.val.v.toNat ++ le 4 th.toNat ++ le 4 c.val.seq ++ le 4 capSeq }

/-- The actions of one level change; `last` says that its output value is the one sent (R298, Table 8-5). -/
def ruleAct (t : Tab Word) (r : Nat) (x : RuleVals) (integ last : Bool) (c : RuleChg) (s : State) : State :=
  let a := x.action
  let ring := fld a 13 5
  let fires := bit a 18 && (if bit a 19 then c.level == 2 else c.prev == 0)
  let (s, acc) := if fires then capTrigger ring (keyAt s 0) 1 r none none s else (s, false)
  let v := if last then ruleOut x c.level else none
  let s := match v with
    | some w => queueOut (fld a 0 9) w none true s
    | none => s
  let ef := b2n acc + 2 * b2n (fires && !acc) + 4 * b2n v.isSome + 8 * b2n integ
  let cell := ruleEvent t r x c ef (if acc then (capRing s ring).seq + 1 else 0)
  if !bit a 20 then s
  else
    let s := emit (fld (ruleW t r 1) 16 8) cell s
    if bit a 21 then emit (fld (frc s 0x7000 0) 0 8) cell s else s

/-- One rule at an edge (R292, R295, R298). -/
def ruleEval (s : State) (r : Nat) : State :=
  let t := s.cfg
  if !ruleEn t r then s
  else
    let ins := ruleInputs s r
    if ins = [] then s
    else
      let st := tget {} s.rules r
      let (ws, bad) := checkPairs st.good (rulePairs t r)
      let x := ruleVals t r ws
      let (st2, chg) := ins.foldl (ruleStep (ruleDir t r) (rulePersist t r) x) ({ st with good := ws, integ := bad }, [])
      let s := { s with rules := tput s.rules r st2, rulEval := s.rulEval + ins.length }
      let s := if bad then integrity 3 r (if bit x.action 9 then fld x.action 0 9 else 0xFFFF) s else s
      (chg.zipIdx).foldl (fun s e => ruleAct t r x bad (e.2 + 1 == chg.length) e.1 s) s

/-- The rule engine's work at an edge: every enabled rule in ascending number; then the values have been seen (R36, R298). -/
def rulesEdge (s : State) : State :=
  let s := (List.range 1024).foldl ruleEval { s with rulEval := 0 }
  { s with feats := [], refs := tmap s.refs (fun _ x => { x with fresh := false }) }

/-- Rules whose entry an epoch changes start again, without action (R297). -/
def rulesEpoch (old : Tab Word) (s : State) : State :=
  (List.range 1024).foldl (fun s r =>
    if (List.range 16).all (fun w => ruleW old r w == ruleW s.cfg r w) then s
    else { s with rules := tput s.rules r {} }) s

/-- Persistence counters restart at a period boundary (R297). -/
def rulesBoundary (s : State) : State := { s with rules := tmap s.rules (fun _ x => { x with cnt := 0 }) }

end Sys2Proof.Machine
end

