-- ==== Sys2Proof/Machine/SecOps.lean ====
section
/-! DEFINITION. Operations of the security subsystem that several families use: approved mode, debug access, failures
(R455, R456, R515 to R517, R541, R542). -/

namespace Sys2Proof.Machine
open Sys2Proof

/-- Life-cycle codes of Table 16-7. -/
def lcFab : Nat := 1
/-- MAKER. -/
def lcMaker : Nat := 2
/-- OWNED. -/
def lcOwned : Nat := 3
/-- SEALED. -/
def lcSealed : Nat := 4
/-- RETURN. -/
def lcReturn : Nat := 5
/-- VOID. -/
def lcVoid : Nat := 6

/-- A condition of approved mode breaks: APPROVED becomes 0 with its code and SEC_MODE is raised (R517). -/
def secBreak (code : Nat) (s : State) : State :=
  if s.sec.approved then
    noteEvent 0x34 (le 1 code ++ le 1 s.sec.lc) { s with sec := { s.sec with approved := false, naCause := code } }
  else s

/-- SECURITY_HALT with its cause (R519, R526, R534). -/
def securityHalt (cause alg : Nat) (s : State) : State :=
  raise 0x03 0 4 true (le 1 cause ++ le 1 alg) s.tm.count false false s

/-- A failed token (1), blob (2), image (3) or TLS client (4): SEC_AUTH; failures but those of TLS count towards AUTH_LOCK
(R541, R542). -/
def authFailed (kind op : Nat) (s : State) : State :=
  let s := noteEvent 0x35 (le 1 kind ++ le 1 op) s
  if kind = 4 then s
  else
    let n := s.sec.fails + 1
    { s with sec := { s.sec with fails := n, authLock := s.sec.authLock || decide (n % 8 = 0) } }

/-- A token, blob or image passed: the run of failures ends (R542). -/
def authPassed (s : State) : State := { s with sec := { s.sec with fails := 0 } }

/-- The debug bits in force follow DBG_CTL in FAB and MAKER, and in OWNED and RETURN while an unlock token is in force; SEALED, VOID and a
broken OTP pair close every path (R455, R534, Table 16-7). -/
def dbgInForce (s : State) : Nat :=
  if s.sec.otpOk && (s.sec.lc == lcFab || s.sec.lc == lcMaker || ((s.sec.lc == lcOwned || s.sec.lc == lcReturn) && s.sec.unlocked)) then
    s.sec.dbg else 0

/-- A DBG_CTL write takes effect in the present life-cycle state (R455). -/
def dbgOpen (s : State) : Bool :=
  s.sec.otpOk && (s.sec.lc == lcFab || s.sec.lc == lcMaker || ((s.sec.lc == lcOwned || s.sec.lc == lcReturn) && s.sec.unlocked))

/-- LIFE_CYCLE_CHECK: a failed working copy is restored from OTP and approved mode is left; a failed OTP pair halts (R533, R534). -/
def lifeCycleCheck (copyBad otpBad : Bool) (s : State) : State :=
  let s := if copyBad then secBreak 7 { s with sec := { s.sec with consistent := false } } else s
  if otpBad then securityHalt 1 0 { s with sec := { s.sec with otpOk := false } } else s

end Sys2Proof.Machine
end

