-- ==== Sys2Proof/Machine/Staging.lean ====
section
/-! DEFINITION. Staged writes and the basic codes: what a code expands to and how it reads back (R52 to R55, R59, R180, R198). -/

namespace Sys2Proof.Machine
open Sys2Proof

/-- A register word of the staged set changes in the bits of m; the write counts as "written since" (R39, R306, R451, R53). -/
def stage (ofs idx : Nat) (v m : Word) (s : State) : State :=
  let k := regKey ofs idx
  { s with staged := confPut s.staged ofs idx (maskIn (stg s ofs idx) v m),
           wrSince := if s.wrSince.contains k then s.wrSince else k :: s.wrSince,
           tm := { s.tm with periodWritten := s.tm.periodWritten || ofs == 0x1014 } }

/-- A list of words staged whole. -/
def stageAll (l : List (Nat × Nat × Word)) (s : State) : State :=
  l.foldl (fun s e => stage e.1 e.2.1 e.2.2 0xFFFFFFFF s) s

/-- The registers a profile code stages (R59). -/
def profileRegs : List Nat := [0x2104, 0x2108, 0x2110, 0x2114, 0x2118, 0x211C, 0x2120, 0x2128]

/-- The words of a profile code that differ from reset values (Table 2-2); none for a code not listed. -/
def profileSet (c : Nat) : Option (List (Nat × Word)) :=
  match c with
  | 0x00 => some []
  | 0x10 => some [(0x2104, 0x1)]
  | 0x11 => some [(0x2104, 0x81), (0x2108, 0x000A000A), (0x2114, 0x0A3C)]
  | 0x12 => some [(0x2104, 0x11)]
  | 0x20 => some [(0x2104, 0x2)]
  | 0x21 => some [(0x2104, 0x2), (0x211C, 0x64)]
  | 0x30 => some [(0x2104, 0x3), (0x2118, 0xDAAB2889)]
  | 0x31 => some [(0x2104, 0x3)]
  | 0x38 => some [(0x2104, 0x4), (0x2118, 0xDAAB2889)]
  | 0x40 => some [(0x2104, 0x5)]
  | 0x41 => some [(0x2104, 0x25)]
  | 0x50 => some [(0x2104, 0x6)]
  | 0x51 => some [(0x2104, 0x46)]
  | 0x60 => some [(0x2104, 0x107), (0x2110, 0x00180428)]
  | 0x61 => some [(0x2104, 0x207), (0x2110, 0x00180428)]
  | 0x62 => some [(0x2104, 0x307), (0x2110, 0x00180428)]
  | 0x63 => some [(0x2104, 0x407), (0x2110, 0x00180428)]
  | 0x64 => some [(0x2104, 0x507), (0x2110, 0x00180428)]
  | 0x70 => some [(0x2104, 0x8), (0x2108, 0x00010001)]
  | 0x71 => some [(0x2104, 0x8), (0x2108, 0x00010001), (0x2114, 0xD8F03219)]
  | 0x72 => some [(0x2104, 0x8), (0x2108, 0x00010001), (0x2114, 0x00000A19)]
  | _ => none

/-- The CHN_FILT word of a filter preset (Table 5-7). -/
def filtSet (c : Nat) : Option Word :=
  if c ≤ 12 then some (BitVec.ofNat 32 c)
  else match c with
    | 0x40 => some 0x0216
    | 0x41 => some 0x0814
    | 0x48 => some 0x0F19
    | 0x49 => some 0x0D19
    | 0x4A => some 0x121B
    | 0x50 => some 0x1716
    | 0x51 => some 0x1815
    | 0x52 => some 0x1A14
    | _ => none

/-- The CHN_FEA word of a feature preset (Table 6-1); CHN_FEA_ENV takes its reset value with every code. -/
def feaSet (c : Nat) : Option Word :=
  match c with
  | 0x00 => some 0x005C
  | 0x01 => some 0x010C
  | 0x10 => some 0x275E
  | 0x11 => some 0x27D0
  | 0x20 => some 0x2B5D
  | 0x21 => some 0x3B5E
  | 0x30 => some 0x235C
  | 0x40 => some 0x43AE
  | _ => none

/-- A window register with a basic code. -/
def isBasic (ofs : Nat) : Bool := ofs == 0x2100 || ofs == 0x210C || ofs == 0x214C || ofs == 0x2158 || ofs == 0x5048

/-- Edge i of the uniform bin table: i * F / 32 rounded once (MAP_BIN_UNIF). -/
def unifEdge (v : Word) (i : Nat) : Word := f32OfRat (i * f32Int v) (32 * f32One)

/-- The words (offset, instance, word) that a basic code stages for instance idx: the channel, or the reference of
MAP_BIN_UNIF; none for a code that is not listed. -/
def expandCode (ofs idx : Nat) (v : Word) : Option (List (Nat × Nat × Word)) :=
  if ofs = 0x2100 then
    (profileSet (fld v 0 8)).map (fun l =>
      profileRegs.map (fun o => (o, idx, ((l.find? (fun e => e.1 == o)).map (·.2)).getD (resetWord o idx))))
  else if ofs = 0x210C then some [(0x2108, idx, BitVec.ofNat 32 (fld v 0 16 + 65536 * fld v 0 16))]
  else if ofs = 0x214C then (filtSet (fld v 0 8)).map (fun w => [(0x2150, idx, w)])
  else if ofs = 0x2158 then (feaSet (fld v 0 8)).map (fun w => [(0x215C, idx, w), (0x2160, idx, resetWord 0x2160 idx)])
  else if ofs = 0x5048 then
    if f32Finite v && !f32IsZero v && !bit v 31 then
      some ((List.range 32).map (fun i => (0x5044, 32 * idx + i, unifEdge v i)))
    else none
  else none

/-- A basic code is written: the code and its expansion are staged (R52). A uniform bin span that is not positive and finite
stages nothing and is no accepted write. -/
def basicWrite (ofs idx : Nat) (v : Word) (s : State) : State :=
  match expandCode ofs idx v with
  | some l => stageAll l (stage ofs idx v (rwsMask ofs) s)
  | none => if ofs = 0x5048 then s else stage ofs idx v (rwsMask ofs) s

/-- Every field of a code's expansion still holds its value. -/
def expansionHolds (t : Tab Word) (l : List (Nat × Nat × Word)) : Bool :=
  l.all (fun e => (conf t e.1 e.2.1 &&& rwsMask e.1) == (e.2.2 &&& rwsMask e.1))

/-- What a basic code reads as (R55, CHN_DEBOUNCE, MAP_BIN_UNIF). -/
def basicRead (t : Tab Word) (ofs idx : Nat) : Word :=
  let v := conf t ofs idx
  if ofs = 0x210C then
    let w := conf t 0x2108 idx
    if fld w 0 16 = fld w 16 16 then BitVec.ofNat 32 (fld w 0 16) else 0
  else
    match expandCode ofs idx v with
    | some l => if expansionHolds t l then v else if ofs = 0x5048 then 0 else 0xFF
    | none => if ofs = 0x5048 then 0 else v

end Sys2Proof.Machine
end

