-- ==== Sys2Proof/Machine/UplinkU0.lean ====
section
/-! DEFINITION. The core's use of U0: epoch control, echo, supervisor fields, fault pairs, output and clear reports
(R349, R353, R345, R114, R486 to R487, R498). -/

namespace Sys2Proof.Machine
open Sys2Proof

/-- The class of frond cause b of FPAIR (Table 3-4, R142, R356). -/
def causeCls (b : Nat) : Nat := nthD [1, 1, 3, 3, 2, 3, 3, 1, 2] b 1

/-- The source ID of frond cause b: supply causes under 0x80 + f, the others under 0xA0 + f (R109). -/
def causeId (f b : Nat) : Nat := (if b < 4 then 0x80 else 0xA0) + f

/-- The frond context of Table 15-3: the cause bits in the layout of FPAIR with ALIGN_DEGRADED and REF_RANGE, FSUP and TEMP as in U0. -/
def frondCtx (s : State) (f : Nat) (fp : Nat) (ch : Nat) : List Byte :=
  let x := frond s f
  le 2 (fp % 512 + 512 * b2n x.alignDeg + 1024 * b2n (fp.testBit 7)) ++
  le 2 (x.rep.fsup % 4096 + 4096 * b2n x.rep.safe + 8192 * b2n x.rep.shutdown + 16384 * b2n x.rep.wdExp + 32768 * b2n x.rep.refRdy) ++
  le 2 (uns 12 x.rep.temp + 4096 * b2n x.rep.refRange) ++ le 2 ch

/-- Bit b of a pair path of a kind is this entry's path. -/
def onPath (kind f b : Nat) (e : Nat × Nat × Nat × Nat) : Bool := e.1 == kind && e.2.1 == f && e.2.2.1 == b

/-- A pair bit whose two signals are equal in two consecutive cycles raises SIGNAL_PATH (R487): kind 0 core line, 1 FPAIR,
2 CPAIR. A further path orders the fronds of its own scope safe (R489). -/
def pathBad (kind f b : Nat) (s : State) : State :=
  let known := s.badPaths.any (fun e => onPath kind f b e && e.2.2.2 == 0)
  let s := { s with badPaths := (kind, f, b, 0) :: s.badPaths.filter (fun e => !onPath kind f b e) }
  if known then s
  else if srcActive s 0x3F 0 then (pathFronds kind f).foldl (orderSafe (some (0x3F, 0)) 3) s
  else raise 0x3F 0 3 false (le 1 kind ++ le 1 (if kind = 0 then 0xFF else f) ++ le 1 b) s.tm.count false true s

/-- The count of opposite cycles in a row of a path found bad becomes g of it (R487, Table 15-3). -/
def countPath (kind f b : Nat) (g : Nat → Nat) (s : State) : State :=
  { s with badPaths := s.badPaths.map (fun e => if onPath kind f b e then (e.1, e.2.1, e.2.2.1, g e.2.2.2) else e) }

/-- One cycle of a pair bit: the count of equal cycles in a row, and SIGNAL_PATH at two; an opposite cycle counts towards the
64 of its clear condition, which an equal one begins anew (R487, Table 15-3). -/
def pairCycle (kind f b : Nat) (eq : Bool) (run : Nat) (s : State) : State :=
  if eq then (if run ≥ 1 then pathBad kind f b s else countPath kind f b (fun _ => 0) s)
  else countPath kind f b (fun n => min 64 (n + 1)) s

/-- A pair word of U0 seen by the collector: equal bits counted, the decided bits kept where a pair is equal (R486, R487). -/
def seePairs (kind f n w wn : Nat) (old : Nat) (runs : Tab Nat) (s : State) : Nat × Tab Nat × State :=
  (List.range n).foldl (fun (a : Nat × Tab Nat × State) b =>
    let eq := w.testBit b == wn.testBit b
    let s := pairCycle kind f b eq (tget 0 a.2.1 b) a.2.2
    (setBit a.1 b (if eq then old.testBit b else w.testBit b), tput a.2.1 b (if eq then tget 0 a.2.1 b + 1 else 0), s))
    (0, runs, s)

/-- The running mean of a link's last 16 delays, in 1/65,536 ns (R353). -/
def meanOf (l : List Int) : Int := if l = [] then 0 else rne (l.foldl (· + ·) 0) l.length

/-- The echo measurement of a checked U0 on a link: stores the delay and answers the offset in 1/65,536 ns (R353). -/
def measure (f : Nat) (linkB : Bool) (stamp echo : Nat) (s : State) : State × Option Int :=
  if echo = 0xFFFFFF then (s, none)
  else
    let rx : Int := (stamp : Int) * 8192
    let cu : Int := 656 * 32 * subCount
    let rt := rx - 24025 * 65536 + s.tm.moved * subCount + (echo : Int) * subCount - cu
    if rt < 40 * 65536 ∨ 60 * 65536 < rt then (s, none)
    else
      let d := rt / 2
      let s := modLink f linkB (fun l => { l with means := (d :: l.means).take 16 }) s
      let l := if linkB then (frond s f).b else (frond s f).a
      (s, some (rx - cu - meanOf l.means))

/-- An offset enters R312 as the mean over the links that measured at this U0, in 1/32 frond count (R354). -/
def takeOffset (f : Nat) (o : Option Int) (s : State) : State :=
  match o with
  | none => s
  | some v =>
    let n := rne v 15625
    modFrond f (fun x => { x with off := some (match x.off with | some m => rne (m + n) 2 | none => n) }) s

/-- The frond-side result of an output value at its effect edge: OK, CLAMPED or REFUSED, and the value word then in force
(R25, R74 to R76, R426). It is judged on the configuration in force when U0 reports: the spec does not say which one judges where an epoch
falls between the effect edge and that report (DESIGN CHOICE, log 75). -/
def outVerdict (s : State) (ch : Nat) (w : Word) : Nat × Word :=
  let mode := frcF s 0x2104 ch 0 4
  let v := fld w 0 16
  let sel := fld w 16 2
  let safe := (frond s (ch / 16)).rep.safe || (tget {} s.chans ch).diag.testBit 12
  if safe then (0x15, valueOf s ch)
  else if mode = 2 then (if sel = 0 ∧ v ≤ 1 then (0, w) else (0x15, valueOf s ch))
  else if isAO mode then
    let r := frc s 0x2118 ch
    if sel = 1 ∨ sel = 2 then (0, w)
    else if v < fld r 0 16 then (1, BitVec.ofNat 32 (fld r 0 16))
    else if v > fld r 16 16 then (1, BitVec.ofNat 32 (fld r 16 16)) else (0, w)
  else (0x15, valueOf s ch)

/-- U0 of superframe m reports on the values carried in downlink superframe m (R345). -/
def reportOuts (f : Nat) (m : TickNo) (ctlMiss : Bool) (rej : Nat) (s : State) : State :=
  (frond s f).out.foldl (fun s e =>
    let p := e.1
    let c := e.2
    if !c.sent.contains m then s
    else if ctlMiss || rej.testBit p then
      modFrond f (fun x => { x with out := tput x.out p { c with sent := c.sent.filter (· != m) } }) s
    else
      let ch := 16 * f + p
      let (st, w) := outVerdict s ch c.val
      let edge := (c.sent.head?.map (fun t => t.toNat + 1)).getD 0
      let s := { s with chans := tmod {} s.chans ch (fun x => { x with value := w }) }
      let s := completeOpt c.did st (outResult edge w) s
      modFrond f (fun x => { x with out := tfilter x.out (fun j _ => j != p) }) s) s

/-- A FAULT_CLEAR took effect at an edge: its completion is written with the last edge once no frond is left (R114, R506). -/
def clearDone (did : Option Nat) (edge : Nat) (s : State) : State :=
  match did with
  | none => s
  | some id =>
    let s := modOut id (fun o => { o with val := max o.val edge }) s
    if s.fronds.any (fun e => e.2.clr.any (fun c => c.did == some id)) then s
    else complete id 0 (le 6 (((outOf s id).map (·.val)).getD edge)) s

/-- U0 of superframe m reports on the clears carried in it (R114, R350). -/
def reportClears (f : Nat) (m : TickNo) (ctlMiss : Bool) (s : State) : State :=
  (frond s f).clr.foldl (fun s c =>
    if !c.sent.contains m then s
    else if ctlMiss then
      modFrond f (fun x => { x with clr := x.clr.map (fun d => if d = c then { d with sent := d.sent.filter (· != m) } else d) }) s
    else
      let s := modFrond f (fun x => { x with clr := x.clr.filter (fun d => d != c) }) s
      clearDone c.did ((c.sent.head?.map (fun t => t.toNat + 1)).getD 0) s) s

/-- The causes newly reported that put a frond into safe state or shutdown: the opener is the one of highest class and, among
equals, lowest bit (R498). -/
def openerOf (f newBits : Nat) : Option (Nat × Nat) :=
  let l := (bits 9 newBits).filter (fun b => (safeCauses ||| shutCauses).testBit b)
  match l.filter (fun b => causeCls b = 3), l with
  | b :: _, _ => some (causeId f b, b)
  | [], b :: _ => some (causeId f b, b)
  | [], [] => none

/-- The channel sources of the positions whose decided CPAIR bit is 0 become inactive (R486). -/
def dropChannels (f cp : Nat) (s : State) : State :=
  (List.range 16).foldl (fun s p =>
    if cp.testBit p then s else (List.range 12).foldl (fun s b => clearSrc (0xC0 + b) (16 * f + p) s) s) s

/-- The collector's part of a checked U0: shadow, causes, CPAIR (R349, R484, R486, R498). `cleared`: a FAULT_CLEAR for the frond took
effect at the edge that U0 opens. -/
def collectU0 (f : Nat) (d : List Byte) (old : Report) (noCfgNew rejoin cleared : Bool) (s : State) : State :=
  let t := s.tm.prev
  let x := frond s f
  let (fp, fr, s) := seePairs 1 f 9 (getLE d 16 2) (getLE d 18 2) old.fpair.toNat x.fpEq s
  let (cp, cr, s) := seePairs 2 f 16 (getLE d 20 2) (getLE d 22 2) old.cpair.toNat x.cpEq s
  let s := modFrond f (fun x =>
    { x with fpEq := fr, cpEq := cr, rep := { x.rep with fpair := BitVec.ofNat 16 (fp % 256), cpair := BitVec.ofNat 16 cp } }) s
  let new := (frond s f).rep
  let ctx := frondCtx s f fp (match bits 16 (getLE d 28 2) with | p :: _ => 16 * f + p | [] => 0xFFFF)
  let fresh := mask ((bits 9 fp).filter (fun b => !srcActive s (causeId f b) b))
  let entered := (new.safe && !old.safe) || (new.shutdown && !old.shutdown)
  let other := (!new.safe && old.safe && cleared) || (!new.shutdown && old.shutdown) || rejoin || noCfgNew
  let wasOpen := (inShadow s (some f) t).isSome
  let op := if entered then openerOf f fresh else none
  let s := if entered || other then openShadow f t op (op.map (fun o => causeCls o.2) |>.getD 1) s else s
  let s := match op with
    | some (id, b) => raise id b (causeCls b) (b == 8) ctx t false (!wasOpen) s
    | none => s
  let order := ([3, 2, 1].map (fun c => (bits 9 fresh).filter (fun b => causeCls b == c))).flatten
  let s := order.foldl (fun s b => raise (causeId f b) b (causeCls b) (b == 8) ctx t false false s) s
  dropChannels f cp ((List.range 8).foldl (fun s b => if fp.testBit b then s else clearSrc (causeId f b) b s) s)

/-- Frond f reports that it holds no configuration while the module has an epoch: in the core too its channels have the configuration of
epoch 0 until it applies one, in the data of this superframe as well (R325, R327, R329, R337; DEDUCED, log 30). -/
def loseConfig (f : Nat) (s : State) : State :=
  let old := frondCfg s f
  let none_ := mixCfg f [] s.cfg
  let s := modFrond f (fun x => { x with hold := some none_, dhold := some (mixCfg f [] (x.dhold.getD s.cfg)), depoch := 0 }) s
  mapLater f old none_ ((List.range 16).foldl (fun s p => chanEpoch old none_ (16 * f + p) s) s)

/-- The epoch-control field (R319, R324, R327, R328, R329). -/
def useEpochCtl (f : Nat) (d : List Byte) (stamp : Nat) (s : State) : State :=
  let x := frond s f
  let ep : Half := BitVec.ofNat 16 (getLE d 0 2)
  let ack := (getLE d 3 1).testBit 0
  let noCfg := (getLE d 3 1).testBit 1
  let tag : Byte := BitVec.ofNat 8 (getLE d 2 1)
  let s := modFrond f (fun x => { x with epoch := if noCfg then 0 else ep }) s
  let s :=
    if !noCfg && ep == s.tm.epoch then
      let s := modFrond f (fun x => { x with hold := none, late := false, excluded := false,
                                             dist := match x.dist with | some dd => if dd.commit then x.dist else none | none => none }) s
      match x.hold with
      | some old =>
        let s := mapLater f old s.cfg ((List.range 16).foldl (fun s p => chanEpoch old s.cfg (16 * f + p) s) s)
        if x.late || x.excluded then frondApplyEvent f ep s else s
      | none => s
    else if noCfg && s.tm.epoch != 0 then loseConfig f s
    else s
  match s.pend with
  | some p =>
    if noCfg && s.tm.epoch != 0 && p.resolved.isNone then
      -- R329: not affected by the pending commit, and no item of it
      let s := modFrond f (fun x => { x with acked := true, dist := match x.dist with | some d => if d.commit then none else some d | none => none }) s
      { s with pend := some { p with affected := p.affected.filter (· != f) } }
    else
    let inTime := decide (s.tm.count + 1 < p.t) || (s.tm.count + 1 == p.t && decide (stamp ≤ 160000))
    if ack && tag == p.tag && p.resolved.isNone && inTime then modFrond f (fun x => { x with acked := true }) s else s
  | none => s

/-- The first checked copy of U0 in a window (R349). -/
def useU0 (f : Nat) (d : List Byte) (stamp : Nat) (s : State) : State :=
  let x := frond s f
  let old := x.rep
  let m := s.tm.prev
  let fl := getLE d 10 2
  let noCfg := (getLE d 3 1).testBit 1
  let rejoin := (getLE d 3 1).testBit 2
  let rep : Report := { old with
    fsup := fl % 4096, safe := fl.testBit 12, shutdown := fl.testBit 13, wdExp := fl.testBit 14,
    refRdy := fl.testBit 15, temp := sgn 12 (getLE d 12 2 % 4096), refRange := (getLE d 12 2).testBit 12, vref := getLE d 14 2,
    dpc := getLE d 24 2 % 4096, noCfg := noCfg }
  -- R329, R324: a frond that has lost its configuration is not late
  -- R330: a field that arrives after 20 µs does not confirm an epoch; R314, R572: the holdover is the frond's own count
  let s := if stamp > 160000 then tryFinish true s else s
  let s := modFrond f (fun x => { x with
    rep := rep, seen := true, gotU0 := true,
    snapLost := satAdd 255 x.snapLost (getLE d 26 1),
    late := x.late && !(noCfg && !old.noCfg),
    edgesSince := if rejoin && decide ((fieldOf s f).heldFor > frcF s 0x3000 0 0 10) then 0 else x.edgesSince }) s
  let s := useEpochCtl f d stamp s
  let ctlMiss := (getLE d 27 1).testBit 2
  let cleared := !ctlMiss && x.clr.any (fun c => decide (c.pos ≥ 16) && c.sent.contains m)
  let s := reportOuts f m ctlMiss (getLE d 30 2) s
  let s := reportClears f m ctlMiss s
  let s := collectU0 f d old (noCfg && !old.noCfg && x.seen) rejoin cleared s
  tryFinish false s

/-- The link goes down when a checked U0 sets its NODL bit, or nothing has checked in its window; t is the superframe's tick (R351,
R500). -/
def linkDown (f : Nat) (linkB : Bool) (t : TickNo) (s : State) : State :=
  let s := modLink f linkB (fun l => { l with up := false, down := true, run := 0, nodl := true }) s
  raise (linkSrc f linkB) 0 1 false (linkCtx s f linkB 0) t false false s

/-- An uplink frame at the core: check, copy selection, repeats (R333, R334, R346, R347). `use` takes the first copy. -/
def rxUp (f : Nat) (fr : Frame) (kind : Nat) (lenOk : Nat → Bool) (use : List Byte → State → State) (s : State) : State :=
  match frameOk fr (BitVec.ofNat 8 kind) lenOk with
  | none => rejectFrame f fr.linkB s.tm.prev s
  | some (alive, pay) =>
    let s := modLink f fr.linkB (fun l => { l with kinds := if l.kinds.contains kind then l.kinds else kind :: l.kinds }) s
    let x := frond s f
    match x.copies.find? (fun e => e.1 == kind) with
    | some (_, c) =>
      if c.payload = pay then s
      else if copyLater c fr then
        copyDiff f c.linkB s.tm.prev (use pay (modFrond f (fun x => { x with copies := tput x.copies kind ⟨fr.linkB, fr.stamp, alive, pay, []⟩ }) s))
      else copyDiff f fr.linkB s.tm.prev s
    | none =>
      if x.upAlive = some alive then s
      else use pay (modFrond f (fun x => { x with upAlive := some alive, copies := tput x.copies kind ⟨fr.linkB, fr.stamp, alive, pay, []⟩ }) s)

/-- U0 at the core on one link: its echo and NODL bits count on every checked copy, the rest once (R349, R351, R353). -/
def receiveU0 (f : Nat) (fr : Frame) (s : State) : State :=
  match frameOk fr 0x00 (· == 34) with
  | none => rejectFrame f fr.linkB s.tm.prev s
  | some (_, d) =>
    let (s, o) := measure f fr.linkB fr.stamp (if fr.linkB then getLE d 7 3 else getLE d 4 3) s
    let s := takeOffset f o s
    let s := rxUp f fr 0 (· == 34) (fun d s => useU0 f d fr.stamp s) s
    let s := if (getLE d 27 1).testBit 0 then linkDown f false s.tm.prev s else s
    if (getLE d 27 1).testBit 1 then linkDown f true s.tm.prev s else s

/-- LINK_UP: four clean superframes in a row (R351). -/
def execLinkUp (f : Nat) (linkB : Bool) (s : State) : Host.Outcome State Fault Refusal :=
  let l := if linkB then (frond s f).b else (frond s f).a
  if running s && !l.up && decide (l.run ≥ 4) then
    .next (clearSrc (linkSrc f linkB) 0 (modLink f linkB (fun l => { l with up := true, down := false }) s))
  else .next s

end Sys2Proof.Machine
end

