-- ==== Sys2Proof/Machine/RegRead.lean ====
section
/-! DEFINITION. What every register of BAR0 reads as (13 and the field tables of the chapters). -/

namespace Sys2Proof.Machine
open Sys2Proof

/-- The select registers of a path (R443). -/
def pathRegs (p : Path) (s : State) : PathRegs := match p with | .pcie => s.pcie | .mp => s.mp

/-- Changes the registers of a path. -/
def modPath (p : Path) (g : PathRegs → PathRegs) (s : State) : State :=
  match p with | .pcie => { s with pcie := g s.pcie } | .mp => { s with mp := g s.mp }

/-- A word from a list of (place, value): each value stands at its place. -/
def wordOf (l : List (Nat × Nat)) : Word := BitVec.ofNat 32 (l.foldl (fun a e => a + e.2 * 2 ^ e.1) 0)

/-- A signed number in w bits, saturating. -/
def satS (w : Nat) (x : Int) : Nat := uns w (clampI (-(2 ^ (w - 1))) (2 ^ (w - 1) - 1) x)

/-- The instance that an offset addresses under a path's select registers (13). -/
def instanceOf (r : PathRegs) (ofs : Nat) : Nat :=
  if inWindow ofs then fld r.chnSel 0 9
  else if perQueue ofs then fld r.queSel 0 8
  else if ofs = 0x4004 ∨ ofs = 0x4008 ∨ ofs = 0x400C then 64 * fld r.bandSel 8 6 + fld r.bandSel 0 6
  else if ofs = 0x5044 then 32 * fld r.binSel 8 4 + fld r.binSel 0 5
  else if ofs = 0x5048 then fld r.binSel 8 4
  else 0

/-- The value word of a complement offset. -/
def complOf (ofs : Nat) : Option Nat := if 4 ≤ ofs ∧ isRwp (ofs - 4) then some (ofs - 4) else none

/-- The timestamp unit a channel holds in force: its place among the claimants of its frond, the first four (R66). -/
def tsUnit (s : State) (ch : Nat) : Option Nat :=
  let cl := fun p => claims (frcF s 0x2104 (16 * (ch / 16) + p) 0 4) (frc s 0x2104 (16 * (ch / 16) + p))
  let n := ((List.range (ch % 16)).filter cl).length
  if cl (ch % 16) && decide (n < 4) then some n else none

/-! ## Blocks (Tables 13-2 to 13-12) -/

/-- ID_ block. -/
def readId (r : PathRegs) (s : State) (ofs : Nat) : Word :=
  if ofs = 0x00 then BitVec.ofNat 32 Config.vendorId.toNat
  else if ofs = 0x04 then 0x5120
  else if ofs = 0x08 then 0xB1
  else if ofs = 0x0C then Config.imageVersion (if s.sec.bootB then s.sec.imgB else s.sec.imgA)
  else if ofs = 0x10 then BitVec.ofNat 32 Config.serial.toNat
  else if ofs = 0x14 then BitVec.ofNat 32 (Config.serial.toNat / 2 ^ 32)
  else if ofs = 0x20 then
    wordOf [(0, b2n s.auto), (1, b2n s.pwr.booted), (2, b2n s.sec.bootB), (3, b2n s.tm.mpAlive), (4, s.sec.lc), (8, b2n s.sec.approved)]
  else if ofs = 0x30 then s.scratch
  else if ofs = 0x40 then wordOf [(0, b2n s.torn), (16, s.tornOfs.toNat)]
  else if ofs = 0x44 then wordOf [(0, b2n s.lockedWr), (1, b2n s.orphan), (16, s.wrOfs.toNat)]
  else if ofs = 0x48 then wordOf [(0, b2n r.activeView)]
  else 0

/-- TCK_ status registers. -/
def readTck (s : State) (ofs : Nat) : Word :=
  if ofs = 0x1000 then BitVec.ofNat 32 (now s)
  else if ofs = 0x1004 then BitVec.ofNat 32 (now s / 2 ^ 32)
  else if ofs = 0x1008 then
    wordOf [(0, s.tm.epoch.toNat), (16, b2n s.pend.isSome), (17, b2n (s.fronds.any (fun e => e.2.late))),
            (18, b2n (s.fronds.any (fun e => e.2.excluded)))]
  else if ofs = 0x100C then
    wordOf [(0, s.tm.state), (2, b2n s.tm.clkA), (3, b2n s.tm.clkB), (4, b2n s.tm.clkSel), (5, b2n s.tm.conflict), (16, uns 16 s.tm.offset)]
  else
    match s.pend with
    | none => 0
    | some p =>
      if ofs = 0x1030 then BitVec.ofNat 32 p.t.toNat
      else if ofs = 0x1034 then BitVec.ofNat 32 (p.t.toNat / 2 ^ 32)
      else if ofs = 0x1038 then BitVec.ofNat 32 (mask (allFronds.filter (fun f => (frond s f).acked)))
      else 0

/-- What the core knows of a frond's own state: nothing until its first U0 after a reset of the logic side (R446). -/
def shown (s : State) (f : Nat) : Frond := if (frond s f).seen then fieldOf s f else {}

/-- Status registers of the channel window. -/
def readChn (s : State) (ch ofs : Nat) : Word :=
  let c := chan s ch
  let y := fchan (shown s (ch / 16)) (ch % 16)
  let cfg := chanCfg s ch
  if ofs = 0x2180 then
    wordOf [(0, frcF s 0x2104 ch 0 4), (4, b2n y.regOn), (5, b2n y.settled), (6, b2n y.owOff), (7, b2n (tsUnit s ch).isSome),
            (8, (tsUnit s ch).getD 0), (10, b2n c.state), (16, y.railEdge / 40)]
  else if ofs = 0x2184 then wordOf [(0, c.measI), (16, c.bias)]
  else if ofs = 0x2188 then wordOf [(0, c.diag % 2 ^ 13), (16, c.sticky % 2 ^ 13)]
  else if ofs = 0x218C then
    wordOf [(0, b2n c.ovrTick), (1, b2n c.nsTick), (2, b2n (decide (y.trimBad ≠ 0) || (shown s (ch / 16)).refBad)), (3, b2n c.lat.sat), (4, b2n c.lat.mixed),
            (16, b2n c.ovrStk), (17, b2n c.nsStk)]
  else if ofs = 0x2190 then BitVec.ofInt 32 c.tsum
  else if ofs = 0x2194 then BitVec.ofNat 32 c.tsq
  else if ofs = 0x2198 then BitVec.ofNat 32 (c.tsq / 2 ^ 32 % 2 ^ 16)
  else if ofs = 0x219C then wordOf [(0, uns 16 c.tmn), (16, uns 16 c.tmx)]
  else if ofs = 0x21A0 then BitVec.ofNat 32 c.lat.cnt
  else if ofs = 0x21A4 then BitVec.ofNat 32 (c.lat.cnt / 2 ^ 32)
  else if ofs = 0x21A8 then BitVec.ofNat 32 (uns 64 c.lat.sum)
  else if ofs = 0x21AC then BitVec.ofNat 32 (uns 64 c.lat.sum / 2 ^ 32)
  else if ofs = 0x21B0 then BitVec.ofNat 32 c.lat.sq
  else if ofs = 0x21B4 then BitVec.ofNat 32 (c.lat.sq / 2 ^ 32)
  else if ofs = 0x21B8 then wordOf [(0, uns 16 c.lat.mn), (16, uns 16 c.lat.mx)]
  else if ofs = 0x21BC then BitVec.ofNat 32 c.lat.missed
  else if ofs = 0x21C0 then
    let w := filtWord cfg ch
    wordOf [(0, fld w 0 4), (4, fld w 4 1), (5, b2n (angleOn cfg ch)), (8, if bit w 4 then fld w 8 6 else 0), (14, b2n c.settling)]
  else if ofs = 0x21C4 then
    let w := feaW cfg ch
    if planOn w then
      wordOf [(0, planSlices cfg ch), (9, 1), (16, cdiv (4 * (planN w + planHop w + 2 * samplesPerTick cfg ch)) 4096)]
    else 0
  else if ofs = 0x21C8 then BitVec.ofNat 32 (plan s ch).seq
  else if ofs = 0x21CC then
    let o := frc s 0x2174 ch
    wordOf [(0, fld o 0 4), (4, fld o 4 1), (5, fld o 5 1), (6, b2n (bit o 5 && (plan s ch).paused)), (8, (plan s ch).bin)]
  else 0

/-- A link delay in 0.01 ns, 0xFFFF without a measurement (FRD_LDLYf). -/
def linkDelay (l : LinkSt) : Nat :=
  if l.means = [] then 0xFFFF else (clampI 0 0xFFFF (rne (meanOf l.means * 100) 65536)).toNat

/-- FRD_ status registers of frond f; b is the base offset. -/
def readFrd (s : State) (b f : Nat) : Word :=
  let x := frond s f
  if b = 0x3200 then
    wordOf [(0, b2n x.rep.safe), (1, b2n x.rep.shutdown), (2, b2n x.rep.wdExp), (3, b2n (bit x.rep.fpair 4 || bit x.rep.fpair 5)),
            (8, x.rep.fsup % 4096), (20, uns 12 x.rep.temp)]
  else if b = 0x3300 then
    wordOf [(0, b2n x.rep.refRdy), (1, frcF s (0x3280 + 4 * f) 0 0 2), (3, b2n x.rep.refRange), (8, x.snapLost), (16, x.rep.vref % 65536)]
  else if b = 0x3380 then
    wordOf [(0, x.epoch.toNat), (16, b2n x.late), (17, b2n x.excluded), (18, b2n x.alignDeg), (19, b2n x.holdover),
            (24, satS 8 x.carried)]
  else if b = 0x3400 then
    wordOf [(0, b2n x.a.up), (1, b2n x.b.up), (2, b2n (decide ((shown s f).clk = 1))), (8, min 255 x.a.rej), (16, min 255 x.b.rej),
            (24, min 255 (x.a.diff + x.b.diff))]
  else if b = 0x3480 then wordOf [(0, linkDelay x.a), (16, linkDelay x.b)]
  else 0

/-- QUE_ status registers. -/
def readQue (s : State) (q ofs : Nat) : Word :=
  let x := queue s q
  if ofs = 0x8048 then BitVec.ofNat 32 (poolUsed s)
  else if ofs = 0x8080 then
    wordOf [(0, qfill x), (24, b2n x.wm), (25, b2n (decide (qspill x > 0))), (26, b2n (!x.flush.isEmpty))]
  else if ofs = 0x8084 then BitVec.ofNat 32 (qpkts x)
  else if ofs = 0x8088 then BitVec.ofNat 32 x.lost
  else if ofs = 0x808C then BitVec.ofNat 32 x.lostL
  else if ofs = 0x8090 then BitVec.ofNat 32 x.pois
  else 0

/-- A check-value unit. -/
def cvu (s : State) (u : Nat) : Cvu := tget {} s.cvu u

/-- CVU_RESULT: the finished value of a raw register (R396, R399). -/
def cvuResult (alg : Nat) (st : Word) : Word :=
  if alg = 0 ∨ alg = 1 then BitVec.ofNat 32 (reflect 32 st.toNat) ^^^ 0xFFFFFFFF
  else if alg = 3 then BitVec.ofNat 32 (st.toNat % 256) ^^^ 0xFF
  else st

/-- CVU_ registers of a unit. -/
def readCvu (s : State) (u o : Nat) : Word :=
  let x := cvu s u
  if o = 0x00 then BitVec.ofNat 32 x.alg
  else if o = 0x10 then x.st
  else if o = 0x14 then cvuResult x.alg x.st
  else if o = 0x18 then x.count
  else if o = 0x1C then wordOf [(0, b2n x.owned), (1, b2n x.refused)]
  else 0

/-- The ring whose registers start at an offset, and the offset within them. -/
def ringAt (ofs : Nat) : Option (Nat × Nat) :=
  if inBlock ofs 0xA000 16 3 then some ((ofs - 0xA000) / 16, ofs % 16)
  else if inBlock ofs 0xA100 16 16 then some (3 + (ofs - 0xA100) / 16, ofs % 16)
  else none

/-- DMA_ registers; `v` gives the RWS bits as this path sees them. -/
def readDma (s : State) (ofs : Nat) (v : Word) : Word :=
  match ringAt ofs with
  | some (r, o) =>
    let x := ring s r
    if o = 0 then BitVec.ofNat 32 x.base.toNat
    else if o = 4 then BitVec.ofNat 32 (x.base.toNat / 2 ^ 32)
    else if o = 8 then wordOf [(0, x.log2), (8, b2n x.en)] ||| v
    else if r = cmdRing then 0 else wordOf [(0, x.count), (16, x.holdoff)]
  | none =>
    if ofs = 0xA030 then BitVec.ofNat 32 s.stsBase.toNat
    else if ofs = 0xA034 then BitVec.ofNat 32 (s.stsBase.toNat / 2 ^ 32)
    else if ofs = 0xA038 then v ||| wordOf [(16, b2n s.tickIrq), (20, s.tickDiv)]
    else if ofs = 0xA03C then wordOf [(0, b2n s.dberr), (8, s.dbOfs / 4)]
    else 0

/-- FLT_ registers (15). -/
def readFlt (s : State) (ofs : Nat) : Word :=
  if ofs = 0xB004 then
    wordOf [(0, highest s), (4, b2n s.alive), (5, b2n s.overflow), (8, svcLeft s)]
  else if ofs = 0xB02C then BitVec.ofNat 32 s.fltCount
  else if ofs = 0xB030 then BitVec.ofNat 32 s.latchSeq
  else if ofs = 0xB034 then BitVec.ofNat 32 (mask (s.shadows.map (·.1)))
  else if inBlock ofs 0xB100 4 8 then
    BitVec.ofNat 32 (mask ((List.range 32).filter (fun i => s.srcs.any (fun e => e.1 / 1024 == 8 * (ofs - 0xB100) + i))))
  else
    match s.latch with
    | none => 0
    | some l =>
      -- CLASS is the present class of the source as a whole
      if ofs = 0xB008 then wordOf [(0, l.id), (8, if wholeCls s l.id 0 = 0 then l.cls else wholeCls s l.id 0), (16, if 0xC0 ≤ l.id then l.sub else 0x3FF)]
      else if ofs = 0xB010 then BitVec.ofNat 32 l.tick.toNat
      else if ofs = 0xB014 then BitVec.ofNat 32 (l.tick.toNat / 2 ^ 32 + 65536 * l.epoch.toNat)
      else if inBlock ofs 0xB018 4 5 then BitVec.ofNat 32 (getLE l.ctx (ofs - 0xB018) 4)
      else 0

/-- The life-cycle word (SEC_LC). -/
def lcWord (s : State) : Word := wordOf [(0, s.sec.lc), (8, s.sec.slots - 1)]

/-- SEC_FW_A or SEC_FW_B: 0 for an image that is not bootable. -/
def fwWord (img : List Byte) (rollback : Nat) : Word :=
  let v := Config.imageVersion img
  if Config.imageOk img && decide (rollback ≤ fld v 16 16) then v else 0

/-- SEC_ registers (16). -/
def readSec (s : State) (ofs : Nat) : Word :=
  let x := s.sec
  if ofs = 0xC000 then lcWord s
  else if ofs = 0xC004 then ~~~(lcWord s)
  else if ofs = 0xC008 then
    wordOf [(0, b2n x.approved), (1, b2n x.unlocked), (2, b2n x.presence), (3, b2n x.cryptoErr),
            (4, mask ((List.range 4).filter (fun i => x.keys.any (fun e => e.1 == i)))), (8, b2n x.ldevCert.isSome), (9, b2n x.bootB),
            (10, b2n x.trial), (11, b2n x.fallback), (12, b2n x.authLock), (16, if x.approved then 0 else x.naCause)]
  else if ofs = 0xC010 then fwWord x.imgA x.rollback
  else if ofs = 0xC014 then fwWord x.imgB x.rollback
  else if ofs = 0xC018 then BitVec.ofNat 32 (x.rollback % 256)
  else 0

/-- NET_ status registers (14). -/
def readNet (s : State) (ofs : Nat) : Word :=
  if ofs = 0xD000 then BitVec.ofNat 32 Config.mac.toNat
  else if ofs = 0xD004 then BitVec.ofNat 32 (Config.mac.toNat / 2 ^ 32)
  else if ofs = 0xD010 ∨ ofs = 0xD014 then
    let x := port s ((ofs - 0xD010) / 4)
    wordOf [(0, b2n x.link), (1, if x.link then x.speed else 0), (3, b2n x.macsec), (4, b2n x.txAn), (5, b2n (pnHigh x)), (6, b2n (txStop x)),
            (16, min 0xFFFF x.badRx)]
  else if ofs = 0xD030 then
    wordOf [(0, s.net.p0.role), (2, s.net.p1.role), (4, b2n s.net.gm), (8, s.net.stepsRemoved)]
  else if ofs = 0xD034 then
    let en := (List.range 16).filter (subEn s.cfg)
    wordOf [(0, mask en), (16, mask (en.filter (fun i => !pubLink s i)))]
  else 0

/-- The budget result that PWR_BUD_SEL addresses (R458). -/
def budAt (r : PathRegs) (s : State) : Option BudRes :=
  let u := fld r.budSel 0 4
  let sc := if u = 4 ∧ bit r.budSel 24 then 256 else fld r.budSel 16 8
  if s.bud.valid then s.bud.res.find? (fun e => e.unit == u && e.scope == sc) else none

/-- PWR_ registers (13). -/
def readPwr (r : PathRegs) (s : State) (ofs : Nat) : Word :=
  if ofs = 0xE010 then r.budSel
  else if ofs = 0xE014 then (match budAt r s with | some e => BitVec.ofNat 32 (min 0xFFFFFFFF e.demand) | none => 0)
  else if ofs = 0xE018 then (match budAt r s with | some e => BitVec.ofNat 32 e.limit | none => 0)
  else if ofs = 0xE01C then
    (match budAt r s with | some e => wordOf [(0, e.top), (8, b2n e.exceeded)] | none => 0)
  else if ofs = 0xE020 then wordOf [(0, b2n s.bud.valid), (1, b2n s.bud.accepted), (16, s.bud.didx.toNat)]
  else if ofs = 0xE040 then wordOf [(0, uns 12 s.pwr.temp), (16, b2n s.pwr.above)]
  else if ofs = 0xE044 then BitVec.ofNat 32 (s.pwr.vlog % 65536)
  else if ofs = 0xE048 then BitVec.ofNat 32 (s.pwr.diss % 65536)
  else 0

/-- Status registers and select registers of the FEA_, MAP_, CAP_ and RUL_ blocks. -/
def readMap (r : PathRegs) (s : State) (ofs : Nat) : Word :=
  if ofs = 0x4000 then r.bandSel
  else if ofs = 0x5004 then wordOf [(0, b2n (mapOn s)), (1, s.map.live)]
  else if ofs = 0x5008 then BitVec.ofNat 32 s.map.pseq
  else if ofs = 0x5010 then r.peekIdx
  else if inBlock ofs 0x5014 4 9 then nthD r.peek ((ofs - 0x5014) / 4) 0
  else if ofs = 0x5040 then r.binSel
  else if inBlock ofs 0x5100 16 16 then
    let x := spdRef s ((ofs - 0x5100) / 16)
    wordOf [(0, x.st), (2, b2n x.valid), (3, b2n x.overs), (4, b2n x.zeroArb), (8, min 255 x.skipped), (16, min 255 x.extra), (24, min 255 x.losses)]
  else if inBlock ofs 0x5200 4 16 then (spdRef s ((ofs - 0x5200) / 4)).freq
  else if inBlock ofs 0x6100 32 32 then
    let x := capRing s ((ofs - 0x6100) / 32)
    if ofs % 32 = 0x14 then wordOf [(0, b2n x.armed), (1, b2n x.run.isSome), (8, min 255 x.ignored)]
    else if ofs % 32 = 0x18 then BitVec.ofNat 32 x.seq
    else 0
  else if ofs = 0x7004 then BitVec.ofNat 32 s.rulEval
  else if ofs = 0x7010 then r.rulSel
  else if ofs = 0x7014 then
    let x : RuleSt := tget {} s.rules (fld r.rulSel 0 10)
    wordOf [(0, x.level), (2, x.pend), (4, x.cnt), (12, b2n x.integ)]
  else 0

/-- The RWS and RWP fields of a register as a path sees them: staged, or with ACTIVE_VIEW in force under the module epoch, in the
window under that of the channel's frond (R450); basic codes under R55. -/
def viewWord (r : PathRegs) (s : State) (ofs idx : Nat) : Word :=
  let t := if !r.activeView then s.staged else if inWindow ofs then cfgOf s ofs idx else s.cfg
  (if isBasic ofs then basicRead t ofs idx else conf t ofs idx) &&& rwsMask ofs

/-- A register word as a path reads it, once firmware runs. -/
def regValue (p : Path) (s : State) (ofs : Nat) : Word :=
  let r := pathRegs p s
  match complOf ofs with
  | some v => ~~~(viewWord r s v (instanceOf r v))
  | none =>
    let v := viewWord r s ofs (instanceOf r ofs)
    if ofs < 0x1000 then readId r s ofs
    else if 0xA000 ≤ ofs ∧ ofs < 0xB000 then readDma s ofs v
    else if rwsMask ofs ≠ 0 then v
    else if ofs < 0x2000 then readTck s ofs
    else if ofs = 0x2000 ∨ ofs = 0x21FC then r.chnSel
    else if ofs < 0x2100 then 0
    else if ofs < 0x2200 then readChn s (fld r.chnSel 0 9) ofs
    else if ofs < 0x3000 then 0
    else if ofs < 0x3500 then readFrd s (ofs / 128 * 128) (ofs / 4 % 32)
    else if ofs < 0x4000 then 0
    else if ofs < 0x8000 then readMap r s ofs
    else if ofs = 0x8000 then r.queSel
    else if ofs < 0x9000 then readQue s (fld r.queSel 0 8) ofs
    else if ofs < 0x9080 then readCvu s ((ofs - 0x9000) / 32) (ofs % 32)
    else if ofs < 0xA000 then 0
    else if ofs < 0xC000 then readFlt s ofs
    else if ofs < 0xD000 then readSec s ofs
    else if ofs < 0xE000 then readNet s ofs
    else if ofs < 0xF000 then readPwr r s ofs
    else if ofs = 0xF004 then wordOf [(0, b2n (lspActive s)), (16, lspFill s)]
    else if ofs = 0xF100 then BitVec.ofNat 32 s.sec.dbg
    else if ofs = 0xF104 then wordOf [(0, dbgInForce s % 4), (2, b2n s.sec.unlocked)]
    else 0

/-! ## Reach (13, R438, R491) -/

/-- A path reaches BAR0: in autonomous mode only the management processor does (13). -/
def pathOpen (p : Path) (s : State) : Bool := p == .mp || !s.auto

/-- A read is served from the block at an offset: before BOOT_DONE only ID_, after HALT only ID_, SEC_ and FLT_ (ID_STATUS,
R491). -/
def readOpen (s : State) (ofs : Nat) : Bool :=
  running s || (s.phase == .booting && decide (ofs < 0x1000)) ||
  (s.phase == .halted && (decide (ofs < 0x1000) || (decide (0xB000 ≤ ofs) && decide (ofs < 0xD000))))

/-- A write acts: not after HALT, and before BOOT_DONE only in ID_ (R491). -/
def writeOpen (p : Path) (s : State) (ofs : Nat) : Bool :=
  pathOpen p s && (running s || (s.phase == .booting && decide (ofs < 0x1000)))

/-- The answer to a 32-bit read: 0 where the block is closed (R491). -/
def readReg (p : Path) (s : State) (ofs : Nat) : Word := if readOpen s ofs then regValue p s ofs else 0

end Sys2Proof.Machine
end

