-- ==== Sys2Proof/Machine/Checks.lean ====
section
/-! DEFINITION. What a COMMIT is refused for before its budget: field values and resource conflicts (R425, Table 12-12). -/

namespace Sys2Proof.Machine
open Sys2Proof

/-- An entry of the commit report (Table 12-12). -/
structure RepEnt where
  kind : Nat
  code : Nat
  ka : Nat := 0
  kb : Nat := 0
  oa : Nat := 0
  ob : Nat := 0
  val : Nat := 0
  lim : Nat := 0
  deriving DecidableEq, Repr

/-- The entry's 16 bytes. -/
def repBytes (e : RepEnt) : List Byte :=
  le 1 e.kind ++ le 1 e.code ++ le 1 e.ka ++ le 1 e.kb ++ le 2 e.oa ++ le 2 e.ob ++ le 4 (min 0xFFFFFFFF e.val) ++ le 4 (min 0xFFFFFFFF e.lim)

/-- A refused field of an object of kind ka. -/
def badField (ka oa ofs : Nat) : RepEnt := { kind := 1, code := 0, ka := ka, oa := oa, val := ofs }

/-- A conflict between two objects. -/
def clash (code ka oa kb ob : Nat) : RepEnt := { kind := 2, code := code, ka := ka, kb := kb, oa := oa, ob := ob }

/-- An entry where a condition holds. -/
def repIf (c : Bool) (e : RepEnt) : List RepEnt := if c then [e] else []

/-- A number lies in lo .. hi. -/
def inRange (lo hi n : Nat) : Bool := decide (lo ≤ n) && decide (n ≤ hi)

/-! ## Fields of the module and the fronds (R21, R60, R138, R574) -/

/-- Module-wide fields. -/
def moduleFields (t : Tab Word) : List RepEnt :=
  let f := fun ofs lo w => confF t ofs 0 lo w
  repIf (!inRange 1 64 (f 0x1010 0 7)) (badField 8 0 0x1010) ++
  repIf (f 0x1014 0 24 == 0) (badField 8 0 0x1014) ++
  repIf (decide (f 0x1018 0 2 ≥ 2)) (badField 8 0 0x1018) ++
  repIf (!inRange 2 1000 (f 0x3000 0 10)) (badField 8 0 0x3000) ++
  repIf (f 0x3008 0 8 == 0) (badField 8 0 0x3008) ++
  repIf (f 0xB000 0 8 == 0) (badField 8 0 0xB000) ++
  repIf (f 0xD020 0 16 == 0) (badField 8 0 0xD020) ++
  repIf (f 0xE000 0 2 == 3 || !inRange 25 85 (f 0xE000 16 8)) (badField 8 0 0xE000)

/-- Fields of a frond. -/
def frondFields (t : Tab Word) (f : Nat) : List RepEnt :=
  repIf (!inRange 1 64 (confF t (0x3100 + 4 * f) 0 0 7)) (badField 2 f (0x3100 + 4 * f)) ++
  repIf (confF t (0x3280 + 4 * f) 0 0 2 == 3) (badField 2 f (0x3280 + 4 * f))

/-! ## Fields of a channel -/

/-- The mode and its fields (R60, R61, R83, R113, R574). -/
def modeFields (t : Tab Word) (ch : Nat) : List RepEnt :=
  let f := fun ofs lo w => confF t ofs ch lo w
  let m := f 0x2104 0 4
  let bad := fun (c : Bool) ofs => repIf c (badField 1 ch ofs)
  let thr := f 0x2114 0 1 == 1
  let loop := m == 5 && f 0x2104 5 1 == 1
  let stamps := claims m (conf t 0x2104 ch)
  bad ((profileSet (f 0x2100 0 8)).isNone) 0x2100 ++
  bad (decide (m > 8) || (m == 7 && !inRange 1 5 (f 0x2104 8 3))) 0x2104 ++
  bad (isDI m && (f 0x2108 0 16 == 0 || f 0x2108 16 16 == 0)) 0x2108 ++
  bad (((m == 7 || loop) && !inRange 6 60 (f 0x2110 0 6)) || (m == 7 && (decide (f 0x2110 0 6 < 40) || !inRange 1 20 (f 0x2110 8 5))) ||
       (loop && !inRange 8 50 (f 0x2110 16 6))) 0x2110 ++
  bad ((stamps && (f 0x2114 1 2 == 3 || !inRange 2 12 (f 0x2114 3 4))) ||
       (m == 8 && thr && (!inRange 1 100 (f 0x2114 8 7) || decide ((sgn 16 (f 0x2114 16 16)).natAbs > 24000)))) 0x2114 ++
  bad (isAO m && decide (f 0x2118 0 16 > f 0x2118 16 16)) 0x2118 ++
  bad (m == 2 && !inRange 1 500 (f 0x211C 0 10)) 0x211C ++
  bad (isAO m && !inRange 8738 10377 (f 0x2120 0 16)) 0x2120 ++
  bad (isAO m && !inRange 56798 62805 (f 0x2128 0 16)) 0x2128 ++
  bad (isOutput m && (decide (f 0x2130 16 3 > 4) ||
       (m == 2 && (f 0x2130 16 3 == 2 || f 0x2130 16 3 == 3 || (f 0x2130 16 3 == 1 && decide (f 0x2130 0 16 > 1)))))) 0x2130

/-- The supply land that a channel uses is not enabled (R93); object B is the land. -/
def supplyField (t : Tab Word) (ch : Nat) : List RepEnt :=
  let w := conf t 0x2104 ch
  repIf (bit w 14 && !bit (conf t (0x3180 + 4 * (ch / 16)) 0) (fld w 12 2)) { badField 1 ch 0x2104 with ob := fld w 12 2 }

/-- Gain, offset, filter chain, fiddlehead (R148, R176, R180, R194). -/
def filtFields (t : Tab Word) (ch : Nat) : List RepEnt :=
  let bad := fun (c : Bool) ofs => repIf c (badField 1 ch ofs)
  let g := conf t 0x2140 ch
  let w := conf t 0x2150 ch
  let k := fld w 0 4
  let id := fld w 8 6
  let corner := bit w 4 && (
    if id < 0x24 then decide (romHigh id * 2 ^ k > 81920000) || decide (romLow id * 2 ^ k < 3125)
    else decide (100 * 2 ^ (id - 0x24) * 4 ^ k > 819200 * 819200) || decide (1600 * 2 ^ (id - 0x24) * 4 ^ k < 15625))
  let fh := confF t 0x2154 ch 0 2
  bad (f32IsZero g || !f32Finite g || f32IsSub g) 0x2140 ++
  bad (!f32Finite (conf t 0x2144 ch)) 0x2144 ++
  bad ((filtSet (confF t 0x214C ch 0 8)).isNone) 0x214C ++
  bad (decide (k > 12) || (bit w 4 && k == 0) || corner) 0x2150 ++
  bad (fh == 3 || (fh != 0 && confF t 0xE000 0 4 1 == 0)) 0x2154

/-- Speed reference i is enabled in a configuration. -/
def refEn (t : Tab Word) (i : Nat) : Bool := confF t (0x5100 + 16 * i) 0 9 1 == 1

/-- Order binding and map exponent (R251, CHN_MAP): SPR_K only with ANGLE_EN, the exponent only with MAP_EN (R574). -/
def orderFields (t : Tab Word) (ch : Nat) : List RepEnt :=
  let o := conf t 0x2174 ch
  let i := fld o 0 4
  let k := rateK t ch
  let fmax := conf t (0x5104 + 16 * i) 0
  let angle := match antiAlias t ch with
    | none => true
    | some j => decide (1600 * 2 ^ j * 4 ^ k < 15625)
  let fast := k == 0 || !f32Finite fmax || decide ((spr t ch : Int) * f32Int fmax * 2 * 2 ^ k > 2048000 * f32One)
  let e := sgn 8 (confF t 0x2178 ch 8 8)
  repIf ((bit o 5 && decide (fld o 6 3 > 4)) || (bit o 5 && !bit o 4) || (bit o 4 && !refEn t i) || (bit o 5 && (angle || fast))) (badField 1 ch 0x2174) ++
  repIf (confF t 0x2178 ch 0 1 == 1 && (decide (e < -64) || decide (e > 63))) (badField 1 ch 0x2178)

/-- n / d Hz against the line axis of a channel: L * Δf as a fraction. -/
def topFreq (t : Tab Word) (ch : Nat) : Nat × Nat :=
  let (n, d) := lineStep t ch
  (planLines (feaW t ch) * n, d)

/-- A band entry is refused for a channel (R217, R574). -/
def bandBad (t : Tab Word) (ch : Nat) (e : Word × Word × Word) : Bool :=
  let (c, a, b) := e
  let bound := confF t 0x2174 ch 4 1 == 1
  let (n, d) := topFreq t ch
  let one : Int := f32One
  let fin := f32Finite a && f32Finite b
  let A := f32Int a
  let B := f32Int b
  let h : Int := fld c 4 4
  fld c 2 2 == 3 || !fin ||
  (match fld c 0 2 with
   | 0 => true
   | 1 => decide (A < 0) || decide (B ≤ A) || decide (B * d > n * one)
   | 2 => decide (4 * A < one) || decide (B ≤ A) || decide (B > 64 * one) || !bound
   | _ => !inRange 1 8 h.toNat || decide (B ≤ 0) || decide (4 * (h * A - B) < one) || decide (h * A + B > 64 * one) || !bound)

/-- The bands a plan uses, by entry number. With BAND_EN 0 the plan uses no entry and none is checked: R217 speaks of the set
in use only (log 63, DESIGN CHOICE). -/
def usedBands (t : Tab Word) (ch : Nat) : List Nat := (List.range (planBands t ch)).map (fun i => 64 * confF t 0x2164 ch 0 6 + i)

/-- The first line not below f Hz. -/
def lineFrom (t : Tab Word) (ch f : Nat) : Nat := let (n, d) := lineStep t ch; cdiv (f * d) n

/-- The feature plan (R178, R198, R199, R213, R217, R223 to R225). -/
def planFields (t : Tab Word) (ch : Nat) : List RepEnt :=
  let bad := fun (c : Bool) ofs => repIf c (badField 1 ch ofs)
  let w := feaW t ch
  let blkOk := fld w 0 4 == 0 || decide (fld w 0 4 ≥ 10)
  let k := rateK t ch
  let (n, d) := topFreq t ch
  let lines := planLines w
  let bands := usedBands t ch
  let cfgOf := fun j => conf t 0x4004 j
  let phase := fld w 14 2 == 2 || bands.any (fun j => fld (cfgOf j) 2 2 == 2)
  let ang := angleOn t ch
  let env := conf t 0x2160 ch
  let lo := 10 * fld env 0 16
  let hi := 10 * fld env 16 16
  let l := conf t 0x2170 ch
  let last := if fld l 16 16 = 0xFFFF then lines - 1 else fld l 16 16
  let win := fld w 4 2
  bad ((feaSet (confF t 0x2158 ch 0 8)).isNone) 0x2158 ++
  bad ((planOn w && !blkOk) || fld w 14 2 == 3 || (!bit w 9 && (bit w 10 || bit w 11 || bit w 13 || fld w 14 2 != 0)) || (bit w 16 && !bit w 10) ||
       (planOn w && k == 0) ||
       (blkOk && k != 0 && bit w 11 && (decide (1000 * d > n) || decide (1000 ≤ lineFrom t ch (if bit w 12 then 2 else 10) * n / (lines * d)))) ||
       (phase && (confF t 0x2150 ch 4 1 == 1 || ang)) ||
       (ang && (bit w 10 || bit w 11 || bands.any (fun j => fld (cfgOf j) 0 2 == 1)))) 0x215C ++
  bad (blkOk && k != 0 && bit w 10 && (win == 2 || ((win == 1 || win == 3) && fld w 6 2 == 0) || decide (lo ≥ hi) || decide (hi * d > n) ||
       decide (lineFrom t ch hi < lineFrom t ch lo + 2))) 0x2160 ++
  bad (decide (planBands t ch > 64)) 0x2164 ++
  bad (blkOk && (decide (last ≥ lines) || decide (fld l 0 16 > last))) 0x2170 ++
  (if blkOk && k != 0 && decide (planBands t ch ≤ 64) then
     (bands.filter (fun j => bandBad t ch (conf t 0x4004 j, conf t 0x4008 j, conf t 0x400C j))).map
       (fun j => { badField 1 ch 0x4004 with ob := j })
   else [])

/-! ## References, bins, capture rings (R238, R258, R276) -/

/-- The edges of a bin table are refused (R258). -/
def edgesBad : List Word → Bool → Option Word → Bool
  | [], _, _ => false
  | x :: r, inf, prev =>
    if f32IsNaN x || (f32IsInf x && bit x 31) then true
    else if f32IsInf x then edgesBad r true prev
    else inf || (match prev with | some p => !f32Lt p x | none => bit x 31 && !f32IsZero x) || edgesBad r inf (some x)

/-- A speed reference. -/
def refFields (t : Tab Word) (i : Nat) : List RepEnt :=
  if !refEn t i then []
  else
    let w := conf t (0x5100 + 16 * i) 0
    let src := fld w 0 9
    let tach := conf t 0x2114 src
    let e := fld tach 1 2
    let fmax := conf t (0x5104 + 16 * i) 0
    let tm := conf t (0x5108 + 16 * i) 0
    let es := (List.range 32).map (fun j => conf t 0x5044 (32 * i + j))
    let first := es.headD 0
    let rate := f32Int fmax * ((spdPpr w : Int) - spdMiss w) * (if e = 2 then 2 else 1) * 2 ^ fld tach 3 4
    repIf (confF t 0x2104 src 0 4 != 8 || (!bit w 10 && e == 1) || (bit w 10 && e == 0) || (decide (spdMiss w > 0) && decide (spdPpr w < 8)) ||
           decide (fld w 24 4 > 8) || decide (rate > 2048000 * (f32One : Int))) (badField 6 i (0x5100 + 16 * i)) ++
    repIf (!f32Finite fmax || f32IsZero fmax || bit fmax 31) (badField 6 i (0x5104 + 16 * i)) ++
    repIf (fld tm 0 16 == 0 || fld tm 16 16 == 0 || decide ((fld tm 16 16 * f32One : Nat) > 100 * f32Int fmax)) (badField 6 i (0x5108 + 16 * i)) ++
    repIf (edgesBad es false none || f32IsInf first) (badField 6 i 0x5044)

/-- A channel holds a timestamp unit in a configuration (R66). -/
def holdsUnit (t : Tab Word) (ch : Nat) : Bool :=
  let cl := fun p => claims (confF t 0x2104 (16 * (ch / 16) + p) 0 4) (conf t 0x2104 (16 * (ch / 16) + p))
  cl (ch % 16) && decide (((List.range (ch % 16)).filter cl).length < 4)

/-- A capture ring (R276, R574). -/
def capFields (t : Tab Word) (r : Nat) : List RepEnt :=
  if !capEn t r then []
  else
    let w := capWord t r 0
    let k := fld w 0 4
    let used := (List.range 4).map (fun i => (capSlot t r i).isSome)
    let n := (capChans t r).length
    let pre := fld (capWord t r 3) 0 24
    let post := fld (capWord t r 4) 0 24
    let o := 0x6100 + 32 * r
    let bad := fun (c : Bool) ofs => repIf c (badField 5 r ofs)
    bad (!inRange 1 12 k || !inRange 1 1536 (fld w 8 11) || (bit w 7 && !holdsUnit t (capStampCh t r))) o ++
    bad (!nthD used 0 false || used != (List.range 4).map (fun i => decide (i < n)) || (capChans t r).any (fun c => rateK t c != k)) (o + 4) ++
    bad (pre + post == 0 || decide (pre + 4 * capPerTick t r > capDepth t r)) (o + 12)

/-! ## Queues, rings, network objects (R50, R359, R360, R373, R378, R415, R416, R466, R472, R473, R576) -/

/-- The queues that the enabled record rings name, with the ring. -/
def namedQueues (s : State) (t : Tab Word) : List (Nat × Nat) :=
  (((List.range 16).filter (fun n => (ring s (3 + n)).en))).map (fun n => (n, confF t (0xA108 + 16 * n) 0 16 8))

/-- EGRESS in a configuration. -/
def egressOf (t : Tab Word) (q : Nat) : Nat := confF t 0x8004 q 0 2

/-- The largest packets that producers can emit in one tick: queue, kind of the producer, producer, cells (R231, R232, R285,
R373). -/
def largePackets (t : Tab Word) : List (Nat × Nat × Nat × Nat) :=
  (allChans.map (fun ch =>
    let w := feaW t ch
    if !planOn w then []
    else
      let q := conf t 0x216C ch
      let sl := planSlices t ch
      [(fld q 0 8, 1, ch, featCells t ch), (fld q 8 8, 1, ch, cdiv (specCells t ch) sl), (fld q 16 8, 1, ch, cdiv (envCells t ch) sl)])).flatten ++
  ((List.range 32).filter (capEn t)).map (fun r => (fld (capWord t r 3) 24 8, 5, r, capCr t r + capCs t r + 2))

/-- A queue; the spill allotment only with SPILL_EN, the watermark only where something uses it (R574). -/
def queueFields (s : State) (t : Tab Word) (q : Nat) : List RepEnt :=
  let w := conf t 0x8004 q
  let eg := fld w 0 2
  let lim := confF t 0x8008 q 0 17
  let sp := confF t 0x800C q 0 9
  let wm := conf t 0x8010 q
  let cap := lim + (if bit w 6 then sp * 1024 else 0)
  let bad := fun (c : Bool) ofs => repIf c (badField 3 q ofs)
  bad (fld w 4 2 == 3 || (q == 255 && eg != 1) || (s.auto && q != 255 && (eg == 1 || eg == 2)) ||
       (eg == 1 && q != 255 && !(namedQueues s t).any (fun e => e.2 == q))) 0x8004 ++
  bad (!inRange 1 65536 lim) 0x8008 ++
  bad (bit w 6 && decide (sp > 384)) 0x800C ++
  bad ((fld w 4 2 != 0 || eg == 2) && (decide (fld wm 0 13 ≤ fld wm 16 13) || decide (fld wm 0 13 * 64 > cap))) 0x8010 ++
  bad (eg == 2 && !inRange 1 100 (confF t 0xF000 0 8 7)) 0xF000

/-- The sums over the module (R359, R360): the entry carries the sum found. -/
def sumFields (t : Tab Word) : List RepEnt :=
  let l := (List.range 256).foldl (fun n q => n + confF t 0x8008 q 0 17) 0
  let p := (List.range 256).foldl (fun n q => n + (if confF t 0x8004 q 6 1 = 1 then confF t 0x800C q 0 9 else 0)) 0
  repIf (decide (l > 65536)) { badField 8 0 0x8008 with lim := l } ++ repIf (decide (p > 384)) { badField 8 0 0x800C with lim := p }

/-- A packet that does not fit its queue's LIMIT: object B is the producer, LIMIT the packet's cells (R373). -/
def packetFields (t : Tab Word) : List RepEnt :=
  ((largePackets t).filter (fun e => decide (e.2.2.2 > confF t 0x8008 e.1 0 17))).map
    (fun e => { badField 3 e.1 0x8008 with kb := e.2.1, ob := e.2.2.1, lim := e.2.2.2 })

/-- A record ring names a queue whose EGRESS is not 1 (R415). -/
def ringFields (s : State) (t : Tab Word) : List RepEnt :=
  ((namedQueues s t).filter (fun e => egressOf t e.2 != 1)).map
    (fun e => { badField 3 e.2 (0xA108 + 16 * e.1) with kb := 9, ob := e.1 })

/-- A subscriber (R466); object A is the module, object B the subscriber. -/
def subFields (s : State) (t : Tab Word) (i : Nat) : List RepEnt :=
  if !subEn t i then []
  else
    let q := subQueue t i
    let w0 := subW t i 0
    let vid := fld (subW t i 1) 0 16
    let d := ((List.range 4).map (fun k => (subW t i (2 + k)).toNat))
    let none_ := if bit w0 17 then d.all (· == 0) else d.headD 0 == 0
    repIf ((egressOf t q != 3 && !(s.auto && q == 255)) || decide (subPort t i > 2) || decide (subTc t i > 5) ||
           (bit w0 18 && !inRange 1 4094 vid) || none_ || (subFwd t i && !s.auto)) { badField 8 0 0 with ob := i }

/-- The gate list and the shapers of a port (R472, R473); object B is the port. -/
def portFields (t : Tab Word) (p : Nat) : List RepEnt :=
  let n := (conf t (netOfs 15) p).toNat
  let sum := (List.range (gateCount t p)).foldl (fun a e => a + (gateEntry t p e).1) 0
  let a := slope t p 0
  let b := slope t p 1
  repIf (decide (n > 8) || (n != 0 && sum != 250 * stepsOf t)) { badField 8 0 0 with ob := p } ++
  repIf (decide (a > 750) || decide (b > 750) || decide (a + b > 750)) { badField 8 0 0 with ob := p }

/-! ## Rules (R299) -/

/-- The source of a rule produces its feature (Table 8-4). -/
def produces (t : Tab Word) (src feat band : Nat) : Bool :=
  if feat = 0x40 then decide (src < 16) && refEn t src
  else if src ≥ 512 then false
  else
    let w := feaW t src
    let m := confF t 0x2104 src 0 4
    let reg := regRuns m (conf t 0x2104 src)
    if inRange 0x01 0x06 feat then bit w 8
    else if feat = 0x07 ∨ feat = 0x08 then bit w 10
    else if feat = 0x09 then bit w 11
    else if feat = 0x10 then decide (band < planBands t src)
    else if inRange 0x20 0x23 feat || inRange 0x30 0x3C feat then true
    else if feat = 0x24 ∨ feat = 0x26 then reg
    else if feat = 0x25 then m == 7
    else if feat = 0x27 ∨ feat = 0x28 then isDI m
    else false

/-- A value word meets Table 2-6 for a mode. -/
def valueOk (mode : Nat) (v : Word) : Bool :=
  fld v 18 14 == 0 &&
  (if mode = 2 then fld v 16 2 == 0 && decide (fld v 0 16 ≤ 1) else isAO mode && fld v 16 2 != 3)

/-- The values of a rule from its staged words. -/
def stagedVals (t : Tab Word) (r : Nat) : RuleVals := ruleVals t r ((List.range 7).map (fun i => ruleW t r (2 + i)))

/-- A rule is refused. -/
def ruleBad (t : Tab Word) (r : Nat) : Bool :=
  let w := ruleW t r 0
  let x := stagedVals t r
  let a := x.action
  let m := confF t 0x2104 (fld a 0 9) 0 4
  !produces t (fld w 0 16) (fld w 16 8) (fld w 24 8) ||
  !f32Finite x.alert || !f32Finite x.danger || !f32Finite x.hyst || (bit x.hyst 31 && !f32IsZero x.hyst) || rulePersist t r == 0 ||
  (if ruleDir t r then f32Lt x.alert x.danger else f32Lt x.danger x.alert) ||
  (bit a 9 && (!isOutput m || (List.range 3).any (fun l => bit a (10 + l) && !valueOk m (nthD x.vals l 0)))) ||
  (bit a 18 && !capEn t (fld a 13 5))

/-- Blocks of a channel that can become ready in one tick: M of R230; 1 with more slices. -/
def blocksPerTick (t : Tab Word) (ch : Nat) : Nat :=
  if planSlices t ch ≥ 2 then 1 else cdiv (samplesPerTick t ch) (planHop (feaW t ch))

/-- Evaluations of a rule in its worst tick (R294, R299). -/
def ruleEvals (t : Tab Word) (r : Nat) : Nat :=
  let w := ruleW t r 0
  if fld w 16 8 ≤ 0x10 then (if fld w 0 16 < 512 then blocksPerTick t (fld w 0 16) else 1) else 1

/-- The enabled rules. -/
def enRules (t : Tab Word) : List Nat := (List.range 1024).filter (ruleEn t)

/-- Refused rules, and the sum of evaluations. -/
def ruleFields (t : Tab Word) : List RepEnt :=
  let l := enRules t
  let n := l.foldl (fun n r => n + ruleEvals t r) 0
  (l.filter (ruleBad t)).map (fun r => badField 4 r 0) ++ repIf (decide (n > 4096)) { badField 8 0 0 with lim := n }

/-- Every refused field of a configuration. -/
def fieldChecks (s : State) (t : Tab Word) : List RepEnt :=
  moduleFields t ++ (allFronds.map (frondFields t)).flatten ++
  (allChans.map (fun ch => modeFields t ch ++ supplyField t ch ++ filtFields t ch ++ planFields t ch ++ orderFields t ch)).flatten ++
  ((List.range 16).map (refFields t)).flatten ++ ((List.range 32).map (capFields t)).flatten ++ ruleFields t ++
  ((List.range 256).map (queueFields s t)).flatten ++ sumFields t ++ packetFields t ++ ringFields s t ++
  ((List.range 16).map (subFields s t)).flatten ++ ([0, 1].map (portFields t)).flatten

/-! ## Conflicts -/

/-- The first earlier element that shares a key, for each element that has one. -/
def sameKey : List (Nat × Nat) → List (Nat × Nat) → List (Nat × Nat)
  | _, [] => []
  | seen, (k, x) :: r =>
    match seen.find? (fun e => e.1 == k) with
    | some e => (e.2, x) :: sameKey seen r
    | none => sameKey (seen ++ [(k, x)]) r

/-- Timestamp units of a frond (R66). -/
def unitClash (t : Tab Word) (f : Nat) : List RepEnt :=
  let l := (List.range 16).filter (fun p => claims (confF t 0x2104 (16 * f + p) 0 4) (conf t 0x2104 (16 * f + p)))
  if l.length > 4 then [clash 1 1 (16 * f + nthD l 3 0) 1 (16 * f + nthD l 4 0)] else []

/-- The element of a list with the largest value, the first of equals. -/
def largest (g : Nat → Nat) (l : List Nat) : Nat :=
  (l.foldl (fun (a : Option Nat) x => match a with | none => some x | some y => if g y < g x then some x else a) none).getD 0

/-- The first element at which a running sum passes a limit. -/
def overflowAt (g : Nat → Nat) (limit : Nat) : List Nat → Nat → Option Nat
  | [], _ => none
  | x :: r, n => if n + g x > limit then some x else overflowAt g limit r (n + g x)

/-- Capture ring space (R276). -/
def capClash (t : Tab Word) : List RepEnt :=
  let l := (List.range 32).filter (capEn t)
  let size := fun r => fld (capWord t r 0) 8 11
  match overflowAt size 1536 l 0 with
  | some r => [clash 3 5 r 5 (largest size l)]
  | none => []

/-- Staging bytes of a channel's plan (R227). -/
def stageBytes (t : Tab Word) (ch : Nat) : Nat :=
  let w := feaW t ch
  if planOn w && rateK t ch != 0 then cdiv (4 * (planN w + planHop w + 2 * samplesPerTick t ch)) 4096 * 4096 else 0

/-- Spectral staging (R44). -/
def stageClash (t : Tab Word) : List RepEnt :=
  let sum := fun (l : List Nat) => l.foldl (fun n ch => n + stageBytes t ch) 0
  if confF t 0xE000 0 8 1 = 1 then
    let n := sum allChans
    repIf (decide (n > 2 ^ 26)) { clash 4 8 0 1 (largest (stageBytes t) allChans) with val := n, lim := 2 ^ 26 }
  else (allFronds.map (fun f =>
    let l := (List.range 16).map (fun p => 16 * f + p)
    let n := sum l
    repIf (decide (n > 2 ^ 21)) { clash 4 2 f 1 (largest (stageBytes t) l) with val := n, lim := 2 ^ 21 })).flatten

/-- Queues with EGRESS 3 and their subscribers (R466): one entry for each subscriber of a queue named twice, or one for a queue named
by none. -/
def subClash (t : Tab Word) (q : Nat) : List RepEnt :=
  if egressOf t q ≠ 3 then []
  else
    let l := (List.range 16).filter (fun i => subEn t i && subQueue t i == q)
    if l.length = 1 then [] else if l = [] then [clash 7 3 q 0 0] else l.map (fun i => clash 7 3 q 0 i)

/-- Every conflict of a configuration, by its code. -/
def conflictChecks (s : State) (t : Tab Word) : List RepEnt :=
  let flows := ((List.range 256).filter (fun q => inRange 1 2 (confF t 0x8004 q 4 2))).map (fun q => (confF t 0x8004 q 4 2, q))
  let refs := ((List.range 16).filter (refEn t)).map (fun i => (confF t (0x5100 + 16 * i) 0 0 9, i))
  let outs := ((enRules t).filter (fun r => bit (stagedVals t r).action 9)).map (fun r => (fld (stagedVals t r).action 0 9, r))
  let lsp := ((List.range 256).filter (fun q => egressOf t q == 2)).map (fun q => (0, q))
  let rings := (namedQueues s t).map (fun e => (e.2, e.1))
  let ang := allChans.filter (angleOn t)
  (allFronds.map (unitClash t)).flatten ++
  (sameKey [] flows).map (fun e => clash 2 3 e.1 3 e.2) ++
  capClash t ++ stageClash t ++
  (sameKey [] refs).map (fun e => clash 5 6 e.1 6 e.2) ++
  (sameKey [] outs).map (fun e => clash 6 4 e.1 4 e.2) ++
  (sameKey [] lsp).map (fun e => clash 7 3 e.1 3 e.2) ++ ((List.range 256).map (subClash t)).flatten ++
  (sameKey [] rings).map (fun e => { clash 8 3 (confF t (0xA108 + 16 * e.1) 0 16 8) 9 e.1 with val := e.2 }) ++
  repIf (decide (ang.length > 64)) (clash 9 1 (nthD ang 64 0) 8 0) ++
  (ang.filter (fun ch => confF t 0x2150 ch 4 1 == 1)).map
    (fun ch => { clash 10 1 ch 6 (refOf t ch) with val := confF t 0x2150 ch 8 6 })

end Sys2Proof.Machine
end

