-- ==== Sys2Proof/Machine/Budget.lean ====
section
/-! DEFINITION. The budget manager: demands and limits of a configuration in every unit of Tables 1-4 and 13-11 (R26 to R31, R94, R95,
R196, R230, R233, R323, R474 to R476, R576). -/

namespace Sys2Proof.Machine
open Sys2Proof

/-- A contribution to a demand: unit and scope (Table 13-11), the frond it belongs to, subsystem (Table 1-1), amount. -/
structure Demand where
  unit : Nat
  scope : Nat
  fr : Option Nat
  sub : Nat
  v : Rat
  deriving DecidableEq, Repr

/-- A sum of amounts. -/
def demandSum (l : List Demand) : Rat := l.foldl (fun a d => a + d.v) 0

/-! ## Fronds and channels -/

/-- The larger of the currents of SPMAX and ALM_HI in mA, 24 mA at full scale (R94). -/
def iMax (t : Tab Word) (ch : Nat) : Rat := (24 * max (confF t 0x2118 ch 16 16) (confF t 0x2128 ch 0 16) : Nat) / 65536

/-- VCEIL in V. -/
def vceilV (t : Tab Word) (ch : Nat) : Rat := (confF t 0x2110 ch 0 6 : Nat) / 2

/-- The IEPE excitation current in mA. -/
def iExc (t : Tab Word) (ch : Nat) : Rat := (2 * confF t 0x2104 ch 8 3 : Nat)

/-- The base dissipation of a channel in mW (Table 2-14). The table has no row for MODE 9 to 15, nor a current for IEPE_EXC
0, 6 and 7: such a commit is refused, and its watts result counts 7.7 mW with no stage, and 2 mA per step (log 63, DESIGN
CHOICE). -/
def pBase (t : Tab Word) (ch : Nat) : Rat := if confF t 0x2104 ch 0 4 = 0 then 1 / 2 else 77 / 10

/-- The stage dissipation of a channel in mW (Table 2-14). -/
def pStage (t : Tab Word) (ch : Nat) : Rat :=
  let w := conf t 0x2104 ch
  let m := fld w 0 4
  if m = 1 || (m == 8 && confF t 0x2114 ch 0 1 == 0) then (if bit w 4 then 2574 / 10 else 759 / 10)
  else if m = 2 then (confF t 0x211C ch 0 10 * confF t 0x211C ch 0 10 * 33 : Nat) / 100000
  else if m = 3 || m = 4 then iMax t ch * 2 + 5 + 27 / 10 * iMax t ch
  else if m = 5 then 392 / 10 + (if bit w 5 then 5 + 9 / 100 * vceilV t ch * 28 else 0)
  else if m = 7 then iExc t ch * ((confF t 0x2110 ch 8 5 : Nat) / 2 + 2) + 5 + 9 / 100 * vceilV t ch * iExc t ch
  else 0

/-- The worst-case input power of a running regulator in mW (R94). -/
def pIn (t : Tab Word) (ch : Nat) : Rat :=
  let w := conf t 0x2104 ch
  let m := fld w 0 4
  if m = 3 then 327 / 10 * iMax t ch + 5
  else if m = 4 then 5
  else if m = 7 then 109 / 100 * vceilV t ch * iExc t ch + 5
  else if m = 5 && bit w 5 then 109 / 100 * vceilV t ch * 28 + 5
  else 0

/-- TS_RATE_K of a channel. -/
def stampK (t : Tab Word) (ch : Nat) : Nat := confF t 0x2114 ch 3 4

/-- The contributions of a channel outside its plan: link bits, stream, power, records (R70, R94, R95, R155, R194, R196). -/
def chanDemand (t : Tab Word) (ch : Nat) : List Demand :=
  let f := ch / 16
  let ls := stepsOf t
  let k := rateK t ch
  let m := confF t 0x2104 ch 0 4
  let a := conf t 0x2148 ch
  let fh := conf t 0x2154 ch
  let d := fun u sc sub v => (⟨u, sc, some f, sub, v⟩ : Demand)
  (if k = 0 then [] else [d 1 f 4 (24 * cdiv (512 * ls) (2 ^ k) : Nat), d 6 f 4 (2048000 / (2 ^ k : Nat))]) ++
  (if holdsUnit t ch then [d 1 f 5 (24 * cdiv (512 * ls) (2 ^ stampK t ch) : Nat), d 6 f 5 (2048000 / (2 ^ stampK t ch : Nat))] else []) ++
  [d 4 (fld a 8 8) 3 (fld a 0 1 + fld a 1 1 + fld a 2 1 : Nat), d 4 (fld fh 8 8) 4 (if fld fh 0 2 = 0 then 0 else 1),
   d 5 0 1 (pBase t ch + pStage t ch), d 7 f 1 (pBase t ch * 10 / 108), d 7 f 2 (pIn t ch * 10 / 108)] ++
  (if m = 2 then [d 7 f 1 (confF t 0x211C ch 0 10 : Nat), d 8 f 1 (confF t 0x211C ch 0 10 : Nat)] else [])

/-- The contributions of a frond itself (R29, R94). -/
def frondDemand (t : Tab Word) (f : Nat) : List Demand :=
  let d := fun u sub v => (⟨u, f, some f, sub, v⟩ : Demand)
  let vs := ((List.range 4).filter (fun i => bit (conf t (0x3180 + 4 * f) 0) i)).length
  [d 1 7 2048, d 1 3 2048, d 7 6 (900 / 108), d 7 1 (250 * vs : Nat)] ++ (if confF t 0xE000 0 4 1 = 1 then [d 1 4 384] else [])

/-- The contributions of a channel's plan, but the writing of its samples (R230, R233, R264, Table 1-4). -/
def planDemand (t : Tab Word) (ch : Nat) : List Demand :=
  let w := feaW t ch
  if !planOn w || rateK t ch == 0 then []
  else
    let d := fun u sc sub v => (⟨u, sc, some (ch / 16), sub, v⟩ : Demand)
    let nt := samplesPerTick t ch
    let h := planHop w
    let sl := planSlices t ch
    let m := blocksPerTick t ch
    let q := conf t 0x216C ch
    let mapped := confF t 0x5000 0 0 1 == 1 && confF t 0x2178 ch 0 1 == 1
    [d 2 0 9 ((if sl ≥ 2 then cdiv (blockCost t ch) sl else m * blockCost t ch) : Nat),
     d 3 0 9 ((4 * nt * planN w : Nat) / (h : Rat)),
     d 4 (fld q 0 8) 9 (m * featCells t ch : Nat), d 4 (fld q 8 8) 9 (m * cdiv (specCells t ch) sl : Nat),
     d 4 (fld q 16 8) 9 (m * cdiv (envCells t ch) sl : Nat)] ++
    (if mapped then [d 3 0 11 ((64 * planBands t ch * nt : Nat) / (h : Rat))] else [])

/-- The samples of a plan written to staging. -/
def stagingDemand (t : Tab Word) (ch : Nat) : List Demand :=
  if planOn (feaW t ch) && rateK t ch != 0 then [⟨3, 0, some (ch / 16), 9, (4 * samplesPerTick t ch : Nat)⟩] else []

/-- Everything that belongs to frond f in a configuration. -/
def frondSide (t : Tab Word) (f : Nat) : List Demand :=
  frondDemand t f ++
  ((List.range 16).map (fun p => chanDemand t (16 * f + p) ++ planDemand t (16 * f + p) ++ stagingDemand t (16 * f + p))).flatten

/-! ## The core -/

/-- The contributions of a capture ring (R283). -/
def capDemand (t : Tab Word) (r : Nat) : List Demand :=
  if !capEn t r then []
  else
    let cells := capCr t r + capCs t r
    [⟨3, 0, none, 12, (4 * capPerTick t r * (capChans t r).length + 8 * capAllot t r + 32 * cells : Nat)⟩,
     ⟨4, fld (capWord t r 3) 24 8, none, 12, (cells + 2 : Nat)⟩]

/-- EV_QUEUE of a rule: its queue byte (Table 8-3). -/
def evQueue (t : Tab Word) (r : Nat) : Nat := fld (ruleW t r 1) 16 8

/-- The contributions of an enabled rule (R299). -/
def ruleDemand (t : Tab Word) (r : Nat) : List Demand :=
  let n : Rat := (ruleEvals t r : Nat)
  ⟨4, evQueue t r, none, 13, n⟩ :: (if bit (stagedVals t r).action 21 then [⟨4, confF t 0x7000 0 0 8, none, 13, n⟩] else [])

/-- The contributions of the core (R95, R269, R434, R437). -/
def coreSide (s : State) (t : Tab Word) : List Demand :=
  let one := fun q sub => (⟨4, q, none, sub, 1⟩ : Demand)
  let tick := conf t 0xA038 0
  let map := conf t 0x5000 0
  [⟨5, 0, none, 22, 9880⟩] ++ (if bit tick 0 then [one (fld tick 8 8) 8] else []) ++ (if bit map 0 then [one (fld map 8 8) 11] else []) ++
  ((namedQueues s t).filter (fun e => confF t (0xA108 + 16 * e.1) 0 24 1 == 1)).map (fun e => one e.2 8) ++
  (if confF t 0xF000 0 0 1 = 1 then ((List.range 256).filter (fun q => egressOf t q == 2)).map (fun q => one q 8) else []) ++
  ((List.range 32).map (capDemand t)).flatten ++ ((enRules t).map (ruleDemand t)).flatten

/-! ## Both configurations (R27, R323) -/

/-- What a channel's old blocks still send beside the new ones where its grid goes on and only queues or line range change: all of it to
a queue that the new plan does not use for it, else what exceeds the new share, as the blocks of one grid emit one after the other. -/
def queueLeft (old new : List Demand) : List Demand :=
  let q := fun (l : List Demand) => l.filter (fun d => d.unit == 4)
  ((q old).zip (q new)).map (fun e => if e.1.scope = e.2.scope then { e.1 with v := max 0 (e.1.v - e.2.v) } else e.1)

/-- Old plans whose blocks are still under way beside the new work: of a channel whose grid restarts or whose slices change with
TICK_STEPS, everything; of another, what it still sends (R27, R203). -/
def leftOver (old : Nat → Tab Word) (new : Tab Word) : List Demand :=
  (allChans.map (fun ch =>
    let t := old (ch / 16)
    if planWords t ch != planWords new ch || chainWords t ch != chainWords new ch || stepsOf t != stepsOf new then planDemand t ch
    else queueLeft (planDemand t ch) (planDemand new ch))).flatten

/-- The contributions of one frond to one unit and scope. -/
def ofFrondUnit (f u sc : Nat) (l : List Demand) : List Demand := l.filter (fun d => d.fr == some f && d.unit == u && d.scope == sc)

/-- For each frond and in each unit, the larger of two demands (R323). -/
def largerOf (new old : List Demand) : List Demand :=
  let keys := ((new ++ old).map (fun d => (d.fr.getD 32, d.unit, d.scope))).eraseDups
  (keys.map (fun k =>
    let a := ofFrondUnit k.1 k.2.1 k.2.2 new
    let b := ofFrondUnit k.1 k.2.1 k.2.2 old
    if demandSum a < demandSum b then b else a)).flatten

/-- Every demand that a commit of t is judged by; the old configuration of a late or excluded frond is the one it still has (R323,
R325). -/
def allDemands (s : State) (t : Tab Word) (excl : Bool) : List Demand :=
  let old := fun f => (frond s f).hold.getD s.cfg
  let new := (allFronds.map (frondSide t)).flatten ++ leftOver old t
  (if excl then largerOf new (allFronds.map (fun f => frondSide (old f) f)).flatten else new) ++ coreSide s t

/-! ## Limits -/

/-- The drain of the PCIe link in cells per step, as trained; 6,000 while it is not trained (R403). -/
def pcieDrain (s : State) : Nat :=
  if !s.pwr.linkUp then 6000
  else
    let x := s.pwr.gts * s.pwr.width
    if x ≥ 16 then 6000 else if x ≥ 8 then 2800 else if x ≥ 4 then 1400 else 700

/-- The line rate of an external port in Mb/s; 1,000 without link (R474). -/
def portRate (s : State) (p : Nat) : Nat :=
  let x := port s p
  if !x.link then 1000 else if x.speed = 1 then 10 else if x.speed = 2 then 100 else 1000

/-- The drain of an external port in cells per step (R474). -/
def portDrain (s : State) (p : Nat) : Nat := if portRate s p = 1000 then 440 else if portRate s p = 100 then 44 else 4

/-- Open time and number of open windows of a class in a gate list. -/
def openTime (tc : Nat) : List (Nat × Nat) → Bool → Nat × Nat
  | [], _ => (0, 0)
  | (n, m) :: r, was =>
    let o := m.testBit tc
    let (a, w) := openTime tc r o
    (if o then a + n else a, if o && !was then w + 1 else w)

/-- The share g * c of a class on a port (R476). -/
def gateShare (s : State) (t : Tab Word) (p tc : Nat) : Rat :=
  let len : Nat := 250 * stepsOf t
  let n := gateCount t p
  let (a, w) := if n = 0 then (len, 1) else openTime tc ((List.range n).map (gateEntry t p)) false
  let sl := if tc = 4 ∨ tc = 5 then slope t p (tc - 4) else 0
  let g : Rat := ((a : Rat) - (w * 12288 : Nat) / (portRate s p : Rat)) / (len : Rat)
  (if g < 0 then 0 else g) * (if sl = 0 then 1 else (sl : Rat) / (portRate s p : Rat))

/-- The subscriber legs of a configuration: queue, port, class (R438, R466, R475). -/
def legs (s : State) (t : Tab Word) : List (Nat × Nat × Nat) :=
  let en := (List.range 16).filter (subEn t)
  let sub := ((en.filter (fun i => egressOf t (subQueue t i) == 3)).map (fun i => (portsOf (subPort t i)).map (fun p => (subQueue t i, p, subTc t i)))).flatten
  if !s.auto then sub
  else
    let l := en.filter (fun i => subFwd t i || subQueue t i == 255)
    sub ++ (if l = [] then [(255, 0, 0), (255, 1, 0)] else (l.map (fun i => (portsOf (subPort t i)).map (fun p => (255, p, subTc t i)))).flatten)

/-- 0.9 of a capacity per step over the tick. -/
def nineTenths (t : Tab Word) (c : Rat) : Rat := 9 / 10 * c * (stepsOf t : Rat)

/-- The limit of a queue: that of its egress; none where it has none (Table 1-4). -/
def queueLimit (s : State) (t : Tab Word) (q : Nat) : Option Rat :=
  let mine := ((legs s t).filter (fun e => e.1 == q)).map (fun e => nineTenths t (portDrain s e.2.1) * gateShare s t e.2.1 e.2.2)
  match mine with
  | x :: r => some (r.foldl min x)
  | [] =>
    if egressOf t q = 1 && !s.auto then some (nineTenths t (pcieDrain s))
    else if egressOf t q = 2 then some (nineTenths t (78 * confF t 0xF000 0 8 7 / 10 : Nat))
    else none

/-- The dissipation ceiling in mW (Table 1-6). -/
def ceiling (t : Tab Word) : Nat :=
  let tb := confF t 0xE000 0 16 8
  match confF t 0xE000 0 0 2 with
  | 0 => 36000 - 800 * (tb - 70)
  | 1 => 24000
  | _ => 14000

/-! ## The check -/

/-- The result of one unit and scope: demand rounded up, limit rounded down, the largest contributor with ties to the lowest number;
exceeded on the exact numbers (R26, R28, R458, R459). -/
def judge (u sc : Nat) (limit : Rat) (l : List Demand) : BudRes :=
  let of_ := fun (sub : Nat) => demandSum (l.filter (fun d => d.sub == sub))
  let top := (List.range 23).foldl (fun (a : Nat) x => if of_ a < of_ x then x else a) 0
  ⟨u, sc, (demandSum l).ceil.toNat, limit.floor.toNat, top, decide (limit < demandSum l)⟩

/-- The report entry of an exceeded unit (Table 12-12); a scope above 256 is the sum over the subscribers of a port (R476). -/
def budEntry (e : BudRes) : RepEnt :=
  let (ka, oa) := if e.unit = 1 || decide (6 ≤ e.unit) then (2, e.scope)
    else if e.unit = 2 then (7, 9)
    else if e.unit = 3 then (7, 14)
    else if e.unit = 5 then (8, 0)
    else if e.scope < 256 then (3, e.scope) else if e.scope = 256 then (7, 14) else (8, e.scope - 257)
  { kind := 3, code := e.unit, ka := ka, kb := 7, oa := oa, ob := e.top, val := e.demand, lim := e.limit }

/-- Every unit and scope of a commit, in the order of the units. -/
def budgetCheck (s : State) (t : Tab Word) (excl : Bool) : List BudRes :=
  let l := allDemands s t excl
  let at_ := fun (u sc : Nat) => l.filter (fun d => d.unit == u && d.scope == sc)
  let via := legs s t
  let three := fun sc => (⟨4, sc, none, 18, (3 * stepsOf t : Nat)⟩ : Demand)
  let queues := (List.range 256).filterMap (fun q =>
    (queueLimit s t q).map (fun lim => judge 4 q lim (at_ 4 q ++ (if via.any (fun e => e.1 == q) then [three q] else []))))
  let ports := [0, 1].map (fun p => judge 4 (257 + p) (nineTenths t (portDrain s p))
    (((via.filter (fun e => e.2.1 == p)).map (fun e => (e.1, p))).eraseDups.map (fun e => three e.1 :: at_ 4 e.1)).flatten)
  allFronds.map (fun f => judge 1 f (nineTenths t 40000) (at_ 1 f)) ++
  [judge 2 0 (nineTenths t (if confF t 0xE000 0 0 2 = 2 then 1200000 else 2400000)) (at_ 2 0), judge 3 0 (nineTenths t 2160000) (at_ 3 0)] ++
  queues ++ [judge 4 256 (nineTenths t 15625) (l.filter (fun d => d.unit == 4))] ++ ports ++
  [judge 5 0 (9 / 10 * (ceiling t : Rat)) (at_ 5 0)] ++
  allFronds.map (fun f => judge 6 f (64000 * confF t (0x3100 + 4 * f) 0 0 7 : Nat) (at_ 6 f)) ++
  allFronds.map (fun f => judge 7 f 4500 (at_ 7 f)) ++ allFronds.map (fun f => judge 8 f 4000 (at_ 8 f))

end Sys2Proof.Machine
end

