-- ==== Sys2Proof/Machine/RegWrite.lean ====
section
/-! DEFINITION. What a write to a register of BAR0 or a doorbell does, by access code (R11, 12, 13). -/

namespace Sys2Proof.Machine
open Sys2Proof

/-- The module is SEALED (R454). -/
def isSealed (s : State) : Bool := s.sec.lc == lcSealed

/-- WR_OFS takes the offset of the first ignored or orphan write since both bits were last 0. -/
def markOfs (ofs : Nat) (s : State) : State :=
  if s.lockedWr || s.orphan then s else { s with wrOfs := BitVec.ofNat 16 ofs }

/-- A write is ignored by a lock (R454, R455). -/
def lockWr (ofs : Nat) (s : State) : State := { markOfs ofs s with lockedWr := true }

/-- The channel that INTEGRITY names for an instance of a register: 0xFFFF outside the window (Table 15-3). -/
def pairChan (ofs i : Nat) : Nat := if inWindow ofs then i else 0xFFFF

/-- The selection that a pair of a register waits under: CHANNEL and BCAST of CHN_SEL in the window (R453). -/
def pairSel (r : PathRegs) (ofs : Nat) : Word := if inWindow ofs then r.chnSel &&& 0x101FF else 0

/-- Pending value words that fail the test are mismatched (R13, R14). -/
def dropPairs (bad : RwpPend → Bool) (s : State) : State :=
  (s.rwp.filter bad).foldl (fun s e => integrity 1 e.ofs (pairChan e.ofs e.chan) s)
    { s with rwp := s.rwp.filter (fun e => !bad e) }

/-- The channels that a window write acts on (R447, R448). -/
def selChans (sel : Word) : List Nat := if bit sel 16 then allChans else [fld sel 0 9]

/-- The instances that a write through a path's select registers acts on. -/
def targets (r : PathRegs) (ofs : Nat) : List Nat := if inWindow ofs then selChans r.chnSel else [instanceOf r ofs]

/-- A staged register word is written: basic codes expand (R52, R448, R454). -/
def stageWrite (r : PathRegs) (ofs : Nat) (v : Word) (s : State) : State :=
  if isSealed s then lockWr ofs s
  else (targets r ofs).foldl (fun s i => if isBasic ofs then basicWrite ofs i v s else stage ofs i v (rwsMask ofs) s) s

/-- A value word that waits for one of these instances of a register, whichever path wrote it: the register exists once (R443). -/
def pairIn (ofs : Nat) (is : List Nat) (e : RwpPend) : Bool := e.ofs == ofs && is.contains e.chan

/-- The value word of a pair is written: in each instance that it acts on it waits for its complement, and an earlier value word there is
mismatched (R14, R448, R453). -/
def rwpValue (p : Path) (ofs : Nat) (v : Word) (s : State) : State :=
  if isSealed s then lockWr ofs s
  else
    let r := pathRegs p s
    let s := dropPairs (pairIn ofs (targets r ofs)) s
    { s with rwp := (targets r ofs).map (fun i => ⟨p, ofs, pairSel r ofs, i, v⟩) ++ s.rwp }

/-- A value word waits for this register under this selection. -/
def pairAt (ofs : Nat) (sel : Word) (e : RwpPend) : Bool := e.ofs == ofs && e.sel == sel

/-- The complement word of the pair at value offset ofs is written. Each instance checks its own pair: against the value word that waits
there under the same selection, an exact complement stages the value and any other is mismatched; an instance with none sets ORPHAN. A
value word that waits there under another selection is mismatched (R13, R14, R448, R453). -/
def rwpComplement (p : Path) (ofs : Nat) (v : Word) (s : State) : State :=
  if isSealed s then lockWr (ofs + 4) s
  else
    let r := pathRegs p s
    let sel := pairSel r ofs
    let s := dropPairs (fun e => pairIn ofs (targets r ofs) e && !pairAt ofs sel e) s
    let mine := s.rwp.filter (pairAt ofs sel)
    let s := dropPairs (fun e => pairAt ofs sel e && e.val != ~~~v) s
    let s := mine.foldl (fun s e => if e.val = ~~~v then stage ofs e.chan e.val (rwsMask ofs) s else s)
      { s with rwp := s.rwp.filter (fun e => !pairAt ofs sel e) }
    match (targets r ofs).find? (fun i => !mine.any (fun e => e.chan == i)) with
    | some i => integrity 2 ofs (pairChan ofs i) { markOfs (ofs + 4) s with orphan := true }
    | none => s

/-! ## Rings and 64-bit registers -/

/-- The low bits of a 64-bit register that read 0 (R407, DMA_STS_BASE). -/
def lowZero (ofs : Nat) : Nat := if ofs = 0xA030 then 7 else if ofs = 0x1020 then 0 else 12

/-- Writes to a 64-bit register are ignored: a base of an enabled ring, the status block while any ring is enabled
(R413, R457). -/
def locked64 (ofs : Nat) (s : State) : Bool :=
  if ofs = 0xA030 then anyRing s
  else match ringAt ofs with
    | some (r, _) => (ring s r).en
    | none => false

/-- The current low word of a 64-bit register: staged for ORIGIN. -/
def low64 (ofs : Nat) (s : State) : Word :=
  if ofs = 0x1020 then stg s 0x1020 0
  else if ofs = 0xA030 then BitVec.ofNat 32 s.stsBase.toNat
  else match ringAt ofs with
    | some (r, _) => BitVec.ofNat 32 (ring s r).base.toNat
    | none => 0

/-- A 64-bit register takes both halves. -/
def put64 (ofs : Nat) (lo hi : Word) (s : State) : State :=
  let z := lowZero ofs
  let v : DWord := BitVec.ofNat 64 (lo.toNat / 2 ^ z * 2 ^ z + hi.toNat * 2 ^ 32)
  if ofs = 0x1020 then stage 0x1024 0 hi 0xFFFFFFFF (stage 0x1020 0 lo 0xFFFFFFFF s)
  else if ofs = 0xA030 then { s with stsBase := v }
  else match ringAt ofs with
    | some (r, _) => modRing r (fun x => { x with base := v }) s
    | none => s

/-- A low half is held (R445). -/
def lowWrite (p : Path) (ofs : Nat) (v : Word) (s : State) : State :=
  if ofs = 0x1020 && isSealed s then lockWr ofs s
  else if locked64 ofs s then s
  else modPath p (fun r => { r with held := tput r.held ofs v }) s

/-- A high half takes effect with the low half held on its path, or with the low half unchanged (R445). -/
def highWrite (p : Path) (ofs : Nat) (v : Word) (s : State) : State :=
  if ofs = 0x1020 && isSealed s then lockWr (ofs + 4) s
  else if locked64 ofs s then s
  else
    let r := pathRegs p s
    put64 ofs (tget (low64 ofs s) r.held ofs) v (modPath p (fun r => { r with held := tfilter r.held (fun k _ => k != ofs) }) s)

/-- EN of a ring is set: its indices start again (R413, R392); the host has set Bus Master Enable for it. -/
def enableRing (r log2 : Nat) (s : State) : State :=
  let s := modRing r (fun x => { x with en := true, log2 := log2, p := 0, c := 0, db := 0, unsig := 0, alive := 0 }) s
  let s := if s.auto then s else { s with bme := true }
  if r = cmdRing then { s with expAlive := 1, lastAlive := none } else s

/-- A ring's CFG register is written (R413, R415, R457). -/
def ringCfgWrite (r ofs : Nat) (v : Word) (s : State) : State :=
  let x := ring s r
  let n := fld v 0 5
  if !x.en && bit v 8 && (decide (n < 6) || decide (16 < n) || s.stsBase == 0) then s
  else
    let s := if rwsMask ofs = 0 then s else if isSealed s then lockWr ofs s else stage ofs 0 v (rwsMask ofs) s
    if x.en then (if bit v 8 then s else modRing r (fun x => { x with en := false }) s)
    else if bit v 8 then enableRing r n s
    else modRing r (fun x => { x with log2 := n }) s

/-! ## Check-value units (R395 to R401) -/

/-- Width, and initial value, of an algorithm (Table 11-2). -/
def cvuWidth (alg : Nat) : Nat := if alg ≤ 1 then 32 else if alg = 3 then 8 else 16
/-- The initial raw register of an algorithm. -/
def cvuInit (alg : Nat) : Word := if alg ≤ 1 then 0xFFFFFFFF else if alg = 2 then 0xFFFF else if alg = 3 then 0xFF else 0

/-- One byte into the raw register (Table 11-2, R399): polynomials in normal order, input reflected where the table says so. -/
def cvuByte (alg : Nat) (st : Word) (b : Byte) : Word :=
  let n := st.toNat
  if alg = 0 then BitVec.ofNat 32 (crcByte 32 0x1EDC6F41 n (BitVec.ofNat 8 (reflect 8 b.toNat)))
  else if alg = 1 then BitVec.ofNat 32 (crcByte 32 0x04C11DB7 n (BitVec.ofNat 8 (reflect 8 b.toNat)))
  else if alg = 2 then BitVec.ofNat 32 (crcByte 16 0x1021 n b)
  else if alg = 3 then BitVec.ofNat 32 (crcByte 8 0x2F n b)
  else
    let s1 := (n % 256 + b.toNat) % 255
    BitVec.ofNat 32 ((n / 256 + s1) % 255 * 256 + s1)

/-- Bytes fed to a unit. -/
def cvuFeed (bs : List Byte) (x : Cvu) : Cvu :=
  { x with st := bs.foldl (cvuByte x.alg) x.st, count := x.count + BitVec.ofNat 32 bs.length }

/-- A unit loaded with an algorithm and its initial value (R399). -/
def cvuLoad (alg : Nat) (x : Cvu) : Cvu := { x with alg := alg, st := cvuInit alg, count := 0 }

/-- Changes a unit unless a CVU_RUN owns it, which sets REFUSED (R400). -/
def cvuMod (u : Nat) (g : Cvu → Cvu) (s : State) : State :=
  { s with cvu := tmod {} s.cvu u (fun x => if x.owned then { x with refused := true } else g x) }

/-- A write to a register of a unit. -/
def cvuWrite (u o : Nat) (v : Word) (s : State) : State :=
  if o = 0x00 then cvuMod u (fun x => if fld v 0 3 ≥ 5 then { x with refused := true } else cvuLoad (fld v 0 3) x) s
  else if o = 0x04 then cvuMod u (cvuFeed (le 1 v.toNat)) s
  else if o = 0x08 then cvuMod u (cvuFeed (le 2 v.toNat)) s
  else if o = 0x0C then cvuMod u (cvuFeed (le 4 v.toNat)) s
  else if o = 0x10 then cvuMod u (fun x => { x with st := BitVec.ofNat 32 (v.toNat % 2 ^ cvuWidth x.alg), count := 0 }) s
  else if o = 0x1C ∧ bit v 1 then { s with cvu := tmod {} s.cvu u (fun x => { x with refused := false }) }
  else s

/-! ## The write of a word -/

/-- The staged set becomes the configuration in force (R452). -/
def discard (s : State) : State :=
  { s with staged := s.cfg, wrSince := [], tm := { s.tm with periodWritten := false } }

/-- MAP_PEEK_IDX is written: the cell's snapshot (R270). -/
def peekWrite (p : Path) (v : Word) (s : State) : State :=
  modPath p (fun r => { r with peekIdx := v &&& 0x010FFFFF, peek := peekWords s.map v }) s

/-- CHN_SEL is written (R444, R447, R453). -/
def chnSelWrite (p : Path) (v : Word) (s : State) : State :=
  modPath p (fun r => { r with chnSel := v &&& 0xFF0101FF }) (dropPairs (fun e => e.path == p && inWindow e.ofs) s)

/-- DBG_CTL is written (R455). -/
def dbgWrite (v : Word) (s : State) : State :=
  if dbgOpen s then { s with sec := { s.sec with dbg := fld v 0 2 } } else lockWr 0xF100 s

/-- The sticky bits that a window write of a W1C register clears in each channel; `hw` names by channel the bits that hardware has set in
the same cycle, which stay (R12, R448). -/
def clearSticky (r : PathRegs) (ofs : Nat) (v : Word) (hw : Tab Word) (s : State) : State :=
  (selChans r.chnSel).foldl (fun s ch =>
    let v := v &&& ~~~(tget 0 hw ch)
    modCChan ch (fun c => if ofs = 0x2188 then { c with sticky := (BitVec.ofNat 13 c.sticky &&& ~~~(BitVec.ofNat 13 (fld v 16 13))).toNat }
    else { c with ovrStk := c.ovrStk && !bit v 16, nsStk := c.nsStk && !bit v 17 }) s) s

/-- Registers of the ID_ block. -/
def idWrite (p : Path) (ofs : Nat) (v : Word) (s : State) : State :=
  if ofs = 0x30 then { s with scratch := v }
  else if ofs = 0x40 then { s with torn := s.torn && !bit v 0 }
  else if ofs = 0x44 then { s with lockedWr := s.lockedWr && !bit v 0, orphan := s.orphan && !bit v 1 }
  else if ofs = 0x48 then
    let s := modPath p (fun r => { r with activeView := bit v 0 }) s
    if bit v 1 then discard s else s
  else s

/-- DMA_ registers beside the 64-bit ones (Table 12-6). -/
def dmaWrite (ofs : Nat) (v : Word) (s : State) : State :=
  match ringAt ofs with
  | some (r, o) =>
    if o = 8 then ringCfgWrite r ofs v s
    else if o = 12 ∧ r ≠ cmdRing then modRing r (fun x => { x with count := fld v 0 16, holdoff := fld v 16 16 }) s
    else s
  | none =>
    if ofs = 0xA038 then
      let s := if isSealed s then lockWr ofs s else stage ofs 0 v (rwsMask ofs) s
      { s with tickIrq := bit v 16, tickDiv := fld v 20 4 }
    else if ofs = 0xA03C then { s with dberr := s.dberr && !bit v 0 }
    else s

/-- One 32-bit write on a path (R11): every access code of the map. -/
def regWrite (p : Path) (ofs : Nat) (v : Word) (s : State) : State :=
  let r := pathRegs p s
  if ofs < 0x1000 then idWrite p ofs v s
  else if is64W ofs then lowWrite p ofs v s
  else if 4 ≤ ofs ∧ is64W (ofs - 4) then highWrite p (ofs - 4) v s
  else if isRwp ofs then rwpValue p ofs v s
  else if (complOf ofs).isSome then rwpComplement p (ofs - 4) v s
  else if 0xA000 ≤ ofs ∧ ofs < 0xB000 then dmaWrite ofs v s
  else if rwsMask ofs ≠ 0 then stageWrite r ofs v s
  else if ofs = 0x2000 then chnSelWrite p v s
  else if ofs = 0x2188 ∨ ofs = 0x218C then clearSticky r ofs v [] s
  else if ofs = 0x4000 then modPath p (fun r => { r with bandSel := v &&& 0x3F3F }) s
  else if ofs = 0x5010 then peekWrite p v s
  else if ofs = 0x5040 then modPath p (fun r => { r with binSel := v &&& 0xF1F }) s
  else if ofs = 0x7010 then modPath p (fun r => { r with rulSel := v &&& 0x3FF }) s
  else if ofs = 0x8000 then modPath p (fun r => { r with queSel := v &&& 0xFF }) s
  else if 0x9000 ≤ ofs ∧ ofs < 0x9080 then cvuWrite ((ofs - 0x9000) / 32) (ofs % 32) v s
  else if ofs = 0xE010 then modPath p (fun r => { r with budSel := v &&& 0x01FF000F }) s
  else if ofs = 0xF100 then dbgWrite v s
  else s

/-- A 32-bit write where the path and the block are open (R438, R491, R560). -/
def busWrite (p : Path) (ofs : Nat) (v : Word) (s : State) : State := if writeOpen p s ofs then regWrite p ofs v s else s

/-! ## Doorbells (R408, R409) -/

/-- The ring of a doorbell offset (Table 12-3). -/
def doorbellRing (ofs : Nat) : Option Nat :=
  if ofs = 0x000 then some cmdRing
  else if ofs = 0x004 then some cplRing
  else if ofs = 0x008 then some evtRing
  else if inBlock ofs 0x040 4 16 && ofs % 4 == 0 then some (3 + (ofs - 0x040) / 4)
  else none

/-- The last value accepted for a doorbell, which a read returns. -/
def doorbellRead (s : State) (ofs : Nat) : Word :=
  match doorbellRing ofs with
  | some r => (ring s r).db
  | none => 0

/-- A doorbell write: ignored while the ring is off; accepted, or DBERR and DOORBELL_BAD (R409, R413). -/
def doorbell (ofs : Nat) (v : Word) (s : State) : State :=
  match doorbellRing ofs with
  | none => s
  | some r =>
    let x := ring s r
    if !x.en then s
    else if doorbellOk (r == cmdRing) x v then
      modRing r (fun x => if r = cmdRing then { x with p := v, db := v } else { x with c := v, db := v }) s
    else
      noteEvent 0x2A (le 2 ofs ++ le 4 v.toNat)
        { s with dberr := true, dbOfs := if s.dberr then s.dbOfs else ofs }

end Sys2Proof.Machine
end

