-- ==== Sys2Proof/Machine/DescOps.lean ====
section
/-! DEFINITION. How the command ring takes a descriptor: order of the checks, alive values, refusals, the entries of a CFG_WRITE payload
(11, 12). -/

namespace Sys2Proof.Machine
open Sys2Proof

/-- Bytes [o + n - 1 : o] of a descriptor. -/
def dF (d : Desc) (o n : Nat) : Nat := getLE d.raw o n

/-- The opcode. -/
def dOp (d : Desc) : Nat := dF d 0 1

/-- TMO. -/
def dTmo (d : Desc) : Nat := dF d 2 2

/-- TAG. -/
def dTag (d : Desc) : Word := BitVec.ofNat 32 (dF d 4 4)

/-- The operand bytes outside the given (offset, length) fields are 0 (R418, R422). -/
def unusedZero (d : Desc) (used : List (Nat × Nat)) : Bool :=
  (List.range 20).all (fun i => used.any (fun u => decide (u.1 ≤ 8 + i) && decide (8 + i < u.1 + u.2)) || dF d (8 + i) 1 == 0)

/-- The descriptor's CRC-32C (R393). -/
def dCrcOk (d : Desc) : Bool := payloadCrcOk (padTo 32 d.raw)

/-- The payload of n bytes at the descriptor's address. -/
def payload (d : Desc) (n : Nat) : List Byte := padTo n d.pay

/-- Executed descriptors that still wait for a completion the host will see. -/
def awaiting (s : State) : Nat := (s.outs.filter (fun o => !o.lost)).length

/-- The command ring can take a descriptor: it is on and not empty, a completion slot is free, and fewer than 64 wait (R419). -/
def canTake (s : State) : Bool :=
  s.phase == .running && (ring s cmdRing).en && (ring s cmdRing).p != (ring s cmdRing).c && (ring s cplRing).en &&
  decide (ringUsed (ring s cplRing) + awaiting s < ringSize (ring s cplRing)) && decide (awaiting s < 64)

/-- DIDX of the descriptor in front. -/
def frontIdx (s : State) : Word := (ring s cmdRing).c

/-- The descriptor in front has been read. -/
def consumed (s : State) : State := modRing cmdRing (fun x => { x with c := x.c + 1 }) s

/-- The result bytes of a descriptor that is not executed: RULE_LOAD names no rule that failed, OUTPUT_SET gives no edge and the value word
in force, every other opcode 0 (R418, Table 12-10). -/
def refusedResult (d : Desc) (s : State) : List Byte :=
  if dOp d = 0x08 then le 2 0xFFFF
  else if dOp d = 0x04 ∧ dF d 8 2 < 512 then outResult 0 (valueOf s (dF d 8 2)) else []

/-- The descriptor in front completes at once and is not executed (R418, R420, R422). -/
def refuseDesc (d : Desc) (status : Nat) (s : State) : State :=
  writeCpl (BitVec.ofNat 8 (dOp d)) status (BitVec.ofNat 16 (frontIdx s).toNat) (dTag d) (refusedResult d s) (consumed s)

/-- A failed check value raises CMD_CHECK with the ring index (R393). -/
def crcBad (d : Desc) (s : State) : State := refuseDesc d 0x10 (noteEvent 0x29 (le 4 (frontIdx s).toNat) s)

/-- The descriptor's alive value is accepted (R394). -/
def acceptAlive (d : Desc) (s : State) : State :=
  { s with expAlive := BitVec.ofNat 8 (dF d 1 1) + 1, lastAlive := some (BitVec.ofNat 8 (dF d 1 1)) }

/-- The descriptor in front is executed under a number of its own, its deadline TMO tick lengths on (R419, R421). -/
def startDesc (d : Desc) (obj : Nat) (s : State) : State :=
  let o : Outstanding := { id := s.nextId, opcode := BitVec.ofNat 8 (dOp d), didx := BitVec.ofNat 16 (frontIdx s).toNat,
                           tag := dTag d, tmo := dTmo d, obj := obj, due := s.abs + dTmo d * (32768 * steps s), len := 32768 * steps s }
  { (consumed s) with outs := s.outs ++ [o], nextId := s.nextId + 1 }

/-- What a row of the table asks of its descriptors: which are its own, whether TMO applies, the operand bytes it uses, its operand
ranges, the length of its payload where it has one with a CRC, the object it names, and when the command ring waits with it. -/
structure DescForm where
  mine : Desc → Bool
  tmo : Bool := false
  used : List (Nat × Nat) := []
  ok : Desc → Bool := fun _ => true
  pay : Desc → Option Nat := fun _ => none
  obj : Desc → Nat := fun _ => 0
  wait : Desc → State → Bool := fun _ _ => false

/-- A payload with a check value fails it (R393). -/
def payBad (form : DescForm) (d : Desc) : Bool :=
  match form.pay d with
  | some n => !payloadCrcOk (payload d n)
  | none => false

/-- Takes the descriptor in front: alive value, CRC, operands, payload CRC, and then its action under its number. A descriptor of
another row's opcode that passes its checks is left for that row (R393, R394, R419 to R422, R424). -/
def takeDesc (form : DescForm) (d : Desc) (act : Nat → State → State) (s : State) : State :=
  let a : Byte := BitVec.ofNat 8 (dF d 1 1)
  if !canTake s then s
  else if a ≠ s.expAlive then
    if s.lastAlive = some a then refuseDesc d 0x11 s else refuseDesc d 0x12 { s with expAlive := a + 1 }
  else if !dCrcOk d then crcBad d s
  else if !form.mine d then s
  else if !unusedZero d form.used || (dTmo d != 0 && !form.tmo) || !form.ok d then refuseDesc d 0x14 (acceptAlive d s)
  else if payBad form d then crcBad d s
  else if form.wait d s then s
  else act s.nextId (startDesc d (form.obj d) (acceptAlive d s))

/-! ## CFG_WRITE entries (R423, R424) -/

/-- An entry of a CFG section: offset, CHAN, value. -/
structure CfgEnt where
  ofs : Nat
  chan : Nat
  val : Word
  deriving DecidableEq, Repr

/-- n entries from byte o on. -/
def cfgEnts (b : List Byte) (o n : Nat) : List CfgEnt :=
  (List.range n).map (fun i => ⟨getLE b (o + 8 * i) 2, getLE b (o + 8 * i + 2) 2, BitVec.ofNat 32 (getLE b (o + 8 * i + 4) 4)⟩)

/-- The select registers that a payload may name (R423). -/
def privSel (ofs : Nat) : Bool := ofs == 0x8000 || ofs == 0x4000 || ofs == 0x5040

/-- Offset, CHAN and access code of an entry pass (R423, R424). -/
def entOk (e : CfgEnt) : Bool :=
  e.ofs % 4 == 0 && decide (e.ofs < 0x10000) && (rwsMask e.ofs != 0 || (complOf e.ofs).isSome || privSel e.ofs) &&
  (if inWindow e.ofs then decide (e.chan % 0x8000 < 512) else e.chan == 0)

/-- The first entry that does not pass. -/
def firstBad (l : List CfgEnt) : Option Nat := l.findIdx? (fun e => !entOk e)

/-- A payload's own selection, and the pair whose value word has just come. -/
structure CfgRun where
  sel : PathRegs := {}
  pair : Option (Nat × Word × Word) := none
  deriving DecidableEq, Repr

/-- A staged word is written for each target of the private selection; the lock of SEALED has been judged before. -/
def stageFree (r : PathRegs) (ofs : Nat) (v : Word) (s : State) : State :=
  (targets r ofs).foldl (fun s i => if isBasic ofs then basicWrite ofs i v s else stage ofs i v (rwsMask ofs) s) s

/-- The channel named for a mismatch under a selection word: the first that it reaches. -/
def selChan (sel : Word) : Nat := if bit sel 16 then 0 else fld sel 0 9

/-- A value word of a payload that its complement does not follow directly is mismatched (R14, R423). -/
def dropPair (c : CfgRun) (s : State) : State :=
  match c.pair with
  | some (o, sel, _) => integrity 1 o (pairChan o (selChan sel)) s
  | none => s

/-- One entry acts (R423). -/
def cfgEntry (a : CfgRun × State) (e : CfgEnt) : CfgRun × State :=
  let (c, s) := a
  let r := { c.sel with chnSel := BitVec.ofNat 32 (e.chan % 512 + (if e.chan ≥ 0x8000 then 65536 else 0)) }
  match complOf e.ofs with
  | some o =>
    let sel := pairSel r o
    let s := dropPairs (pairIn o (targets r o)) s
    (match c.pair with
     | some (o2, sel2, v) =>
       if o2 = o ∧ sel2 = sel then
         (⟨r, none⟩, if e.val = ~~~v then stageFree r o v s else integrity 1 o (pairChan o (selChan sel)) s)
       else (⟨r, none⟩, integrity 2 o (pairChan o (selChan sel)) { markOfs (o + 4) (dropPair c s) with orphan := true })
     | none => (⟨r, none⟩, integrity 2 o (pairChan o (selChan sel)) { markOfs (o + 4) s with orphan := true }))
  | none =>
    let s := dropPair c s
    if isRwp e.ofs then
      (⟨r, some (e.ofs, pairSel r e.ofs, e.val)⟩, dropPairs (pairIn e.ofs (targets r e.ofs)) s)
    else if e.ofs = 0x8000 then (⟨{ r with queSel := e.val &&& 0xFF }, none⟩, s)
    else if e.ofs = 0x4000 then (⟨{ r with bandSel := e.val &&& 0x3F3F }, none⟩, s)
    else if e.ofs = 0x5040 then (⟨{ r with binSel := e.val &&& 0xF1F }, none⟩, s)
    else if e.ofs = 0x1020 then (⟨{ r with held := [(0x1020, e.val)] }, none⟩, s)
    else if e.ofs = 0x1024 then
      (⟨{ r with held := [] }, none⟩, put64 0x1020 (tget (low64 0x1020 s) r.held 0x1020) e.val s)
    else (⟨r, none⟩, stageFree r e.ofs e.val s)

/-- Every entry acts, in order. -/
def cfgApply (l : List CfgEnt) (s : State) : State :=
  let (c, s) := l.foldl cfgEntry (({} : CfgRun), s)
  dropPair c s

/-! ## Rule entries and edges (R291, R293, R429) -/

/-- The sixteen words of the rule entry at byte o. -/
def ruleEnt (b : List Byte) (o : Nat) : List Word := (List.range 16).map (fun w => BitVec.ofNat 32 (getLE b (o + 4 * w) 4))

/-- Every pair of an entry whose BASIC bit is 0 checks. -/
def entPairsOk (l : List Word) : Bool :=
  bit (nthD l 1 0) 2 || (List.range 7).all (fun i => nthD l (9 + i) 0 == ~~~(nthD l (2 + i) 0))

/-- The words that an entry stages: with BASIC the module forms the complements itself. -/
def entWords (l : List Word) : List Word :=
  if bit (nthD l 1 0) 2 then l.take 9 ++ ((l.drop 2).take 7).map (fun w => ~~~w) else l

/-- OUT_CH of an entry with OUT_EN, 0xFFFF otherwise (Table 15-3). -/
def entChan (l : List Word) : Nat := let a := nthD l 5 0; if bit a 9 then fld a 0 9 else 0xFFFF

/-- count entries from byte o on, as rules from `first`: the first whose pairs fail. -/
def badRule (b : List Byte) (o first : Nat) : Nat → Option (Nat × Nat)
  | 0 => none
  | n + 1 =>
    let l := ruleEnt b o
    if entPairsOk l then badRule b (o + 64) (first + 1) n else some (first, entChan l)

/-- Entries staged as RWS values. -/
def stageRules (b : List Byte) (o first count : Nat) (s : State) : State :=
  (List.range count).foldl (fun s i =>
    ((entWords (ruleEnt b (o + 64 * i))).zipIdx).foldl (fun s e => stage (ruleOfs e.2) (first + i) e.1 0xFFFFFFFF s) s) s

/-- 32 edges of a reference staged as writes of MAP_BIN_EDGE. -/
def stageEdges (b : List Byte) (o ref : Nat) (s : State) : State :=
  (List.range 32).foldl (fun s i => stage 0x5044 (32 * ref + i) (BitVec.ofNat 32 (getLE b (o + 4 * i) 4)) 0xFFFFFFFF s) s

end Sys2Proof.Machine
end

