-- ==== Sys2Proof/Machine/CommitRow.lean ====
section
/-! DEFINITION. COMMIT: its checks, its report, and the commit that it makes pending (01, 09, 12). -/

namespace Sys2Proof.Machine
open Sys2Proof

/-- COMMIT: target tick, OPT, report buffer (Table 12-9). -/
def commitForm : DescForm :=
  { mine := fun d => dOp d == 0x02, used := [(8, 6), (14, 1), (16, 8), (24, 2)],
    ok := fun d => decide (dF d 14 1 ≤ 1) && dF d 16 8 % 16 == 0 }

/-- The frond holds no configuration while the module has an epoch: no commit concerns it (R329). -/
def outsideCommit (s : State) (f : Nat) : Bool := (frond s f).seen && (frond s f).rep.noCfg && s.tm.epoch != 0

/-- The items that a commit of the staged configuration distributes to frond f (R318, R328, R329). -/
def commitItems (s : State) (f : Nat) : List (Nat × Word) :=
  if outsideCommit s f then [] else changedItems f (frondCfg s f) s.staged

/-- The status that a list of report entries gives: FIELD, CONFLICT or BUDGET (R425). -/
def refusal (l : List RepEnt) : Nat :=
  if l.any (fun e => e.kind == 1) then 0x20 else if l.any (fun e => e.kind == 2) then 0x21 else 0x22

/-- A commit refused with its report, which goes to REPORT before the completion (R28, R425, Tables 12-10, 12-12). -/
def refuseCommit (report max_ id : Nat) (l : List RepEnt) (s : State) : State :=
  let b := ((l.take (if report = 0 then 0 else max_)).map repBytes).flatten
  let live := (outOf s id).any (fun o => !o.lost)
  let s := if live && b ≠ [] then outp (.hostWrite (BitVec.ofNat 64 report) b) s else s
  complete id (refusal l) (le 2 (b.length / 16) ++ le 2 (min 0xFFFF l.length) ++ List.replicate 12 0 ++ le 4 (crc32c b).toNat) s

/-- The channels that enter IEPE or an AO mode under a configuration: their open-wire currents are disabled (R91). -/
def owEnter (s : State) (t : Tab Word) : List Nat :=
  allChans.filter (fun ch =>
    let m := confF t 0x2104 ch 0 4
    (m == 7 || isAO m) && m != confF (frondCfg s (ch / 16)) 0x2104 ch 0 4)

/-- An accepted commit is pending: its items go to the fronds they concern, and a distribution to a frond without configuration stops
(R318, R329). RES stays that of the last resolved commit (Table 10-6), from which a late frond still learns (R324). The link is now at
the capacity of the last commit, so PCIE_DEGRADED clears (R404). -/
def acceptCommit (t : TickNo) (excl written : Bool) (id : Nat) (items : List (Nat × List (Nat × Word))) (s : State) : State :=
  let (tag, s) := takeTag s
  let affected := (items.filter (fun e => e.2 ≠ [])).map (·.1)
  let p : Pending := { t := t, c := s.tm.count, excl := excl, tag := tag, conf := s.staged, id := id, affected := affected, written := written,
                       owOff := owEnter s s.staged, first := s.tm.epoch == 0 }
  let s := items.foldl (fun s e => modFrond e.1 (fun x =>
    { x with dist := if e.2 = [] then none else some ⟨tag, true, e.2, 0⟩, acked := e.2 = [] }) s) s
  clearSrc 0x2C 0 { s with pend := some p, wrSince := [], pwr := { s.pwr with drain := some (pcieDrain s) } }

/-- A COMMIT with target T, in the order of R425: range, busy, fields with conflicts and budget, lateness. -/
def commitCore (t report max_ : Nat) (excl : Bool) (id : Nat) (didx : Half) (s : State) : State :=
  let c := now s
  if t < c + 3 || decide (t > c + 1000000) then complete id 0x14 [] s
  else
    let written := s.tm.periodWritten
    let s := dropPairs (fun _ => true) { s with tm := { s.tm with periodWritten := false } }
    if s.pend.isSome then complete id 0x23 [] s
    else
      let bud := budgetCheck s s.staged excl
      let bad := fieldChecks s s.staged ++ conflictChecks s s.staged ++ (bud.filter (·.exceeded)).map budEntry
      let items := allFronds.map (fun f => (f, commitItems s f))
      let late := items.any (fun e => decide (cdiv e.2.length 16 > t - 2 - c))
      let s := { s with bud := { valid := true, accepted := bad.isEmpty && !late, didx := didx, res := bud } }
      if bad ≠ [] then refuseCommit report max_ id bad s
      else if late then complete id 0x24 [] s
      else acceptCommit (BitVec.ofNat 48 t) excl written id items s

/-- COMMIT (R317, R425). -/
def execCommit (d : Desc) (s : State) : Host.Outcome State Fault Refusal :=
  .next (takeDesc commitForm d (fun id s =>
    commitCore (dF d 8 6) (dF d 16 8) (dF d 24 2) (dF d 14 1 == 1) id (BitVec.ofNat 16 (frontIdx s - 1).toNat) s) s)

end Sys2Proof.Machine
end

