-- ==== Sys2Proof/Machine/Delivery.lean ====
section
/-! DEFINITION. Delivery of records: rings, publishers, the stream port, flush (11, 12, 14). -/

namespace Sys2Proof.Machine
open Sys2Proof

/-- A cell has left queue q for an egress: spilled cells move back, a poisoned cell is counted and raises QUEUE_POISON
(R361, R376, R384). -/
def cellGone (q : Nat) (x : Queue) (bad : Bool) (s : State) : State :=
  let x := if bad then { x with pois := satAdd 0xFFFF x.pois 1 } else x
  let s := settle q { s with queues := tput s.queues q x }
  if bad then noteEvent 0x28 (le 1 q) s else s

/-- The subscriber that drains queue q, where it has EGRESS 3 (R466). -/
def subFor (s : State) (q : Nat) : Option Nat :=
  if egress s q ≠ 3 then none else (List.range 16).find? (fun i => subEn s.cfg i && subQueue s.cfg i == q)

/-- The publishers of the event ring's records in autonomous mode: subscribers with FWD, that of queue 255, else SUB 0xFF
(R467). -/
def eventSubs (s : State) : List Nat :=
  let l := (List.range 16).filter (fun i => subEn s.cfg i && (subFwd s.cfg i || subQueue s.cfg i == 255))
  if l = [] then [16] else l

/-- In autonomous mode the management processor reads the event ring and publishes the record (R438, R467). -/
def eventForward (c : Cell) (bad : Bad) (s : State) : State :=
  if !s.auto then s
  else (eventSubs s).foldl (fun s i => publishFwd i c bad s) (modRing evtRing (fun x => { x with c := x.p }) s)

/-- The module stops: DMA, descriptors, the counter, the engines; TICK_OUT and SYNC_OUT are low (R491). -/
def haltStop (s : State) : State :=
  { s with phase := .halted, tm := { s.tm with tickOut := false, syncOut := false } }

/-- After HALT the module stops once queue 255 is empty (R491). -/
def drainCheck (s : State) : State :=
  if s.phase = .draining && (allPkts (queue s 255)).isEmpty then haltStop s else s

/-- A cell of queue q goes to ring r, sealed with the ring's alive counter (R391, R392, R411). -/
def deliverRing (r q : Nat) (c : Cell) (bad : Bad) (s : State) : State :=
  let a := (ring s r).alive + 1
  ringWrite r (recordBytes q a c bad) (modRing r (fun x => { x with alive := a }) s)

/-- RECORD_DELIVERY: queue q delivers its next cell to its ring or publisher; queue 255 of autonomous mode keeps its cells while a
publisher of its records has no link (log 64). Without a cell, an egress that takes it, or while
HALT lets another queue stand, nothing happens (R368 to R370, R391, R414, R415, R467, R471, R491). -/
def execRecordDelivery (q : Nat) (bad : Bad) (s : State) : Host.Outcome State Fault Refusal :=
  if !running s || (s.phase = .draining && q ≠ 255) then .next s
  else
    match nextCell s q (queue s q) with
    | none => .next s
    | some (c, x) =>
      match ringFor s q with
      | some r =>
        if ringRoom s r && (q ≠ 255 || !s.auto || (eventSubs s).all (pubLink s)) then
          let s := deliverRing r q c bad (cellGone q x (poisoned c bad) s)
          .next (drainCheck (if q = 255 then eventForward c bad s else s))
        else .next s
      | none =>
        match subFor s q with
        | some i => if pubLink s i then .next (publish i q c bad (cellGone q x (poisoned c bad) s)) else .next s
        | none => .next s

/-- HOLDOFF_EXPIRY: a ring's hold-off since its first unsignalled entry ends (R417). -/
def execHoldoffExpiry (r : Nat) (s : State) : Host.Outcome State Fault Refusal :=
  let x := ring s r
  if running s && decide (1 ≤ r) && decide (r ≤ 18) && decide (x.unsig > 0) && decide (x.holdoff ≠ 0) && decide (x.count ≠ 0) then
    .next (msi (r - 1) (modRing r (fun x => { x with unsig := 0 }) s))
  else .next s

/-! ## Stream port (R387 to R390, R439 to R441) -/

/-- The 32 half-words of a record, the last marked where it ends its packet (R441). -/
def halfWords (lastCell : Bool) (b : List Byte) : List (Half × Bool) :=
  (List.range 32).map (fun i => (BitVec.ofNat 16 (getLE b (2 * i) 2), lastCell && i == 31))

/-- The cells of a packet sealed for the stream port, with the alive counter after them; `bad` by cell. -/
def sealCells (q : Nat) (bad : Nat → Bad) : List Cell → Nat → Byte → List (Half × Bool) × Byte
  | [], _, a => ([], a)
  | c :: r, k, a =>
    let (t, a2) := sealCells q bad r (k + 1) (a + 1)
    (halfWords (r = []) (recordBytes q (a + 1) c (bad k)) ++ t, a2)

/-- Whether and how cell k of a moved packet is poisoned. -/
def badOf (l : List (Nat × List (Nat × Byte))) (k : Nat) : Bad := (l.find? (fun e => e.1 == k)).map (·.2)

/-- LSP_FIFO_MOVE: the oldest packet of the stream-port queue moves when the FIFO has room for all of it (R387, R389). -/
def execLspFifoMove (bad : List (Nat × List (Nat × Byte))) (s : State) : Host.Outcome State Fault Refusal :=
  match lspQueue s with
  | none => .next s
  | some q =>
    match (queue s q).pkts with
    | [] => .next s
    | p :: r =>
      let n := 32 * p.cells.length
      if lspActive s && s.phase = .running && decide (p.spill = 0) && decide (lspFill s + n ≤ 1024) then
        let (hw, a) := sealCells q (badOf bad) p.cells 0 s.lsp.alive
        let s := { s with lsp := { s.lsp with fifo := s.lsp.fifo ++ hw, wr := (s.lsp.wr + n) % 2048, alive := a } }
        let x := { (queue s q) with pkts := r }
        let s := (p.cells.zipIdx).foldl (fun s e =>
          if poisoned e.1 (badOf bad e.2) then cellGone q (queue s q) true s else s)
          (settle q { s with queues := tput s.queues q x })
        .next (lspSettle s)
      else .next s

/-- The two stages of each synchroniser step at a rising LSP_RDCLK edge (R389, R390). -/
def lspStages (s : State) : State :=
  let l := s.lsp
  let full := ((lspQueue s).map (fun q => (queue s q).afull)).getD false
  lspSettle { s with lsp := { l with wr1 := l.wr, wr2 := l.wr1, afull1 := full, afull2 := l.afull1, rd2 := l.rd } }

/-- LSP_READ: an LSP_RDCLK edge with LSP_RDEN high consumes the half-word on LSP_D; without one only the synchronisers step; an
inactive port ignores it (R389, R439 to R441). -/
def execLspRead (s : State) : Host.Outcome State Fault Refusal :=
  if !lspActive s then .next s
  else if lspReady s then
    match s.lsp.fifo with
    | (v, _) :: r =>
      let last := s.lsp.rd % 32 == 31
      .next (lspStages (outp (.half v last) { s with lsp := { s.lsp with fifo := r, rd := (s.lsp.rd + 1) % 2048 } }))
    | [] => .next (lspStages s)
  else .next (lspStages s)

/-- LSP_RDCLK_EDGE: an edge with LSP_RDEN low (R389, R390). -/
def execLspRdclkEdge (s : State) : Host.Outcome State Fault Refusal :=
  if lspActive s then .next (lspStages s) else .next s

/-! ## Flush, datagrams, the reserve -/

/-- A flush of queue q takes effect: the first waiting FLUSH reports the counts, any later one zero (R379, R380). -/
def flushNow (q : Nat) (s : State) : State :=
  match (queue s q).flush with
  | [] => s
  | id :: r =>
    let (s, pk, cl) := flushQueue q { s with queues := tmod {} s.queues q (fun x => { x with flush := [] }) }
    let s := complete id 0 (le 4 pk ++ le 4 cl) s
    let s := r.foldl (fun s i => complete i 0 (le 4 0 ++ le 4 0) s) s
    if lspQueue s = some q then lspSettle s else s

/-- FLUSH_TAKE_EFFECT: at a packet boundary of the queue's read side (R379 to R381). -/
def execFlushTakeEffect (q : Nat) (s : State) : Host.Outcome State Fault Refusal :=
  if running s && (queue s q).cur.isNone then .next (flushNow q s) else .next s

/-- DATAGRAM_CLOSE: the step boundary after a datagram's first record (R469). -/
def execDatagramClose (i : Nat) (s : State) : Host.Outcome State Fault Refusal :=
  if running s then .next (closeGram i s) else .next s

/-- RESERVE_STEP_BOUNDARY: the reserved DRAM bytes of a 250 us step renew, and spilled cells can move again (R30, R361, R362). -/
def execReserveStepBoundary (s : State) : Host.Outcome State Fault Refusal :=
  if running s then .next (s.queues.foldl (fun s e => settle e.1 s) { s with reserve := 240000 }) else .next s

end Sys2Proof.Machine
end

