-- ==== Sys2Proof/Machine/UplinkData.lean ====
section
/-! DEFINITION. Uplink frames U1 to U4 in the core, the completion of a superframe or its loss, and what its data feeds
(R336, R337, R346 to R348; 04, 05, 06, 07, 08, 11). -/

namespace Sys2Proof.Machine
open Sys2Proof

/-- What a position block carries (Table 10-5). -/
structure PosData where
  snap : Nat
  aux : List Byte
  sum : Int
  sq : Nat
  mn : Int
  mx : Int
  diag : Nat
  fh : Nat
  samples : List Nat
  stamps : List Nat
  deriving DecidableEq, Repr

/-- The configuration of frond f's channels in the data tick. -/
def dataCfg (s : State) (f : Nat) : Tab Word := (frond s f).dhold.getD s.cfg

/-- Conversions of the data tick. -/
def dataConvs (s : State) (f : Nat) : Nat := 512 * stepsOf (dataCfg s f)

/-- The rate index of position p of frond f in the data tick. -/
def dataK (s : State) (f p : Nat) : Nat := rateK (dataCfg s f) (16 * f + p)

/-- A list of n-byte little-endian words. -/
def chop (n : Nat) : Nat → List Byte → List Nat
  | 0, _ => []
  | k + 1, b => getLE b 0 n :: chop n k (b.drop n)

/-- One position block with ns samples: its data and the bytes after it; none where the bytes end too soon. -/
def posParse (fhOn : Bool) (ns : Nat) (b : List Byte) : Option (PosData × List Byte) :=
  let st := getLE b 10 2 % 2 ^ 14
  let f := if fhOn then 3 else 0
  let len := 28 + f + 3 * ns + 3 * st
  if b.length < len then none
  else
    some ({ snap := getLE b 0 4, aux := (b.drop 4).take 6, sum := sgn 32 (getLE b 12 4), sq := getLE b 16 6, mn := sgn 16 (getLE b 22 2),
            mx := sgn 16 (getLE b 24 2), diag := getLE b 26 2, fh := if fhOn then getLE b 28 3 else 0,
            samples := chop 3 ns (b.drop (28 + f)), stamps := chop 3 st (b.drop (28 + f + 3 * ns)) }, b.drop len)

/-- Samples of position p in the data tick (R167, R337). -/
def sampleCount (s : State) (f p : Nat) : Nat := (gridOf (frond s f).dpc (dataK s f p) (dataConvs s f)).length

/-- FIDDLEHEAD in force in the data tick. -/
def dataFh (s : State) (f : Nat) : Bool := bit (conf (dataCfg s f) 0xE000 0) 4

/-- The blocks of positions p to p + n - 1, and the bytes after them. -/
def blocksParse (s : State) (f : Nat) : Nat → Nat → List Byte → Option (List PosData × List Byte)
  | _, 0, b => some ([], b)
  | p, n + 1, b =>
    match posParse (dataFh s f) (sampleCount s f p) b with
    | none => none
    | some (d, r) =>
      match blocksParse s f (p + 1) n r with
      | none => none
      | some (l, r2) => some (d :: l, r2)

/-- The length that frame U(q + 1) must have, taken from its own NSTAMP fields (R337). -/
def lenFits (s : State) (f q : Nat) (pay : List Byte) : Bool :=
  match blocksParse s f (4 * q) 4 pay with
  | some (_, []) => true
  | _ => false

/-! ## Records of a channel -/

/-- A CHANNEL_ACCUM cell (Table 4-6). -/
def accumCell (s : State) (ch : Nat) (tick : TickNo) (flags kind aflags diag count : Nat) (sum : Int) (sq : Nat) (mn mx : Int)
    (auxA auxB missed : Nat) : Cell :=
  { typ := 0x02, source := BitVec.ofNat 16 ch, epoch := (frond s (ch / 16)).depoch, tick := tick, flags := BitVec.ofNat 16 flags,
    body := le 1 kind ++ le 1 aflags ++ le 2 diag ++ le 8 count ++ le 8 (uns 64 sum) ++ le 8 sq ++ le 2 (uns 16 mn) ++ le 2 (uns 16 mx) ++
            le 4 auxA ++ le 2 auxB ++ [0, 0] ++ le 4 missed }

/-- ACC_QUEUE of a channel. -/
def accQueue (t : Tab Word) (ch : Nat) : Nat := confF t 0x2148 ch 8 8

/-- TRIM_BAD of a channel (R146): a set of its own, or the REF set of its frond. -/
def trimBad (s : State) (ch : Nat) : Bool :=
  (fchan (fieldOf s (ch / 16)) (ch % 16)).trimBad != 0 || (fieldOf s (ch / 16)).refBad

/-- AFLAGS: SAT, MIXED, TRIM_BAD, measuring path. -/
def aflags (s : State) (t : Tab Word) (ch : Nat) (sat mixed : Bool) : Nat :=
  b2n sat + 2 * b2n mixed + 4 * b2n (trimBad s ch) + 8 * path (confF t 0x2104 ch 0 4)

/-- The per-period set of a channel is latched with the data tick that has just been resolved (R151, R156). MIN and MAX of a period in which
no tick arrived are 0: R151 is silent (DESIGN CHOICE, log 63). -/
def latchPeriod (ch : Nat) (s : State) : State :=
  match s.latNow with
  | none => s
  | some (tick, _) =>
    let t := dataCfg s (ch / 16)
    let p := (chan s ch).per
    let fl := b2n p.ovr + 2 * b2n p.ns + 4 * b2n (decide (p.missed > 0)) + 8 * b2n (frond s (ch / 16)).dlate
    let s := modCChan ch (fun c => { c with lat := c.per, per := { mixed := c.mixNext }, mixNext := false }) s
    if bit (conf t 0x2148 ch) 1 then
      emit (accQueue t ch) (accumCell s ch tick fl 1 (aflags s t ch p.sat p.mixed) 0 p.cnt p.sum p.sq p.mn p.mx 0 0 p.missed) s
    else s

/-- A tick's set joins the period's (R151, R153). -/
def addPeriod (n : Nat) (d : PosData) (ovr ns : Bool) (p : PSet) : PSet :=
  let q := p.sq + d.sq
  { p with mn := if p.cnt = 0 then d.mn else min p.mn d.mn, mx := if p.cnt = 0 then d.mx else max p.mx d.mx, cnt := p.cnt + n,
           sum := p.sum + d.sum, sq := satU 64 q, sat := p.sat || decide (q ≥ 2 ^ 64), ovr := p.ovr || ovr, ns := p.ns || ns }

/-! ## Diagnostics (R97, R98) -/

/-- The channel's diagnostics as reported: sticky bits gather, and its sources follow where its CPAIR bit says that it has any; while the two
signals of that pair are equal, they stay as they were decided last (R97, R98, R486, R487). -/
def takeDiag (ch diag : Nat) (s : State) : State :=
  let x := frond s (ch / 16)
  let s := modCChan ch (fun c => { c with diag := diag, sticky := c.sticky ||| diag % 2 ^ 13 }) s
  if tget 0 x.cpEq (ch % 16) > 0 then s
  else
    let on := if x.rep.cpair.getLsbD (ch % 16) then diag else 0
    (List.range 12).foldl (fun s b =>
      if on.testBit b == srcActive s (0xC0 + b) ch then s
      else if on.testBit b then raise (0xC0 + b) ch 1 false (le 2 diag) s.tm.prev false false s
      else clearSrc (0xC0 + b) ch s) s

/-! ## Samples (R189, R204, R315) -/

/-- The header flags that a tick's lateness gives (R327). -/
def lateFlag (s : State) (f : Nat) : Nat := 8 * b2n (frond s f).dlate

/-- The sample instant of conversion cv of a channel (R245). -/
def sampleAt (t : Tab Word) (ch cv : Nat) : Int :=
  (64 * cv : Nat) - (tauCounts (rateK t ch) : Int) -
  (if angleOn t ch then ((antiAlias t ch).map (fun j => aaDelay j (rateK t ch))).getD 0 else 0)

/-- s of a channel with its frond's reference (R190). -/
def chanScale (s : State) (t : Tab Word) (ch : Nat) : Word :=
  let f := ch / 16
  perCodeRef (confF t 0x2104 ch 0 4) (fld (conf t (0x3280 + 4 * f) 0) 0 2) (frond s f).rep.vref

/-- The window of a filtered sample with newest conversion cv holds a conversion of a tick that ended with ALIGN_DEGRADED (R315). -/
def degIn (s : State) (ch cv : Nat) : Bool :=
  let f := ch / 16
  let t := dataCfg s f
  match (if (frond s f).alignDeg then some (s.absPrev / 64 + dataConvs s f - 1) else (chan s ch).degLast) with
  | some l => decide (cv ≤ l + winLen (rateK t ch) (respOf (filtWord t ch)))
  | none => false

/-- The filtered samples of a tick with their flags (R189, R315). -/
def makeSamples (s : State) (ch : Nat) (d : PosData) (flags : List Nat) : List Smp :=
  let f := ch / 16
  let t := dataCfg s f
  let k := rateK t ch
  let base := s.absPrev / 64
  let sc := chanScale s t ch
  let grid := gridOf (frond s f).dpc k (dataConvs s f)
  ((d.samples.zip grid).zipIdx).map (fun e =>
    let (m, ex) := linkVal e.1.1
    let cv := base + e.1.2
    let fl := (nthD flags e.2 0 % 4 ||| 2 * b2n (degIn s ch cv)) + lateFlag s f
    { y := scaled t ch (physOf (m * 2 ^ ex) (2 ^ 16) sc), fl := fl, tick := s.tm.prev, abs := s.absPrev, cv := cv, pos := e.2,
      t := sampleAt t ch cv, ep := (frond s f).depoch })

/-- The samples that stand for a missing tick: 0 with MISSING (R204, R277). -/
def missingSamples (s : State) (ch : Nat) : List Smp :=
  let f := ch / 16
  let t := dataCfg s f
  let base := s.absPrev / 64
  ((gridOf (frond s f).dpc (rateK t ch) (dataConvs s f)).zipIdx).map (fun e =>
    { y := 0, fl := 4 + 2 * b2n (degIn s ch (base + e.1)) + lateFlag s f, tick := s.tm.prev, abs := s.absPrev, cv := base + e.1, pos := e.2, t := sampleAt t ch (base + e.1),
      ep := (frond s f).depoch })

/-- A channel's samples of the data tick reach staging; an angle-domain channel waits for its reference. -/
def fanOut (ch : Nat) (l : List Smp) (s : State) : State :=
  let s := modCChan ch (fun c => { c with ys := l }) s
  if angleOn (dataCfg s (ch / 16)) ch then s else l.foldl (fun s x => stageSample ch x s) s

/-! ## Fiddlehead records (R192, R195) -/

/-- The first conversion of a fiddlehead value by its origin. -/
def fhConv (convs mode origin snap : Nat) : Nat :=
  match origin with
  | 0 => convs - 4
  | 1 => snap
  | 2 => 21
  | _ => if mode = 2 then 62 else 205

/-- The FIDDLEHEAD record of a channel for the data tick. -/
def fiddleRecord (ch : Nat) (d : PosData) (s : State) : State :=
  let f := ch / 16
  let t := dataCfg s f
  let w := conf t 0x2154 ch
  let rec_ := fld w 0 2
  let origin := d.fh / 2 ^ 18 % 8
  if !dataFh s f || rec_ = 0 || (rec_ = 2 && origin = 0) then s
  else
    let j := fhConv (dataConvs s f) (confF t 0x2104 ch 0 4) origin (d.snap / 2 ^ 16 % 2 ^ 15)
    let s4 := sgn 18 (d.fh % 2 ^ 18)
    let a := physOf s4 4 (chanScale s t ch)
    let before := ((chan s ch).ys.filter (fun x => decide (x.cv < s.absPrev / 64 + j))).getLast?
    let (fine, ff) := if rateK t ch = 0 then ((0 : Word), 0) else match before with
      | some x => (x.y, b2n (x.fl.testBit 1) + 2 * b2n (x.fl.testBit 0))
      | none => ((chan s ch).fine, (chan s ch).fineFl)
    let fl := b2n (d.fh.testBit 21) + 2 * b2n (d.fh.testBit 22) + lateFlag s f + 32
    emit (fld w 8 8) { typ := 0x03, source := BitVec.ofNat 16 ch, epoch := (frond s f).depoch, tick := s.tm.prev,
                       flags := BitVec.ofNat 16 fl,
                       body := le 1 origin ++ [0, 0, 0] ++ le 4 (64 * j) ++ wordsLE [scaled t ch a, a] ++ le 4 (uns 32 s4) ++
                               wordsLE [fine] ++ le 1 ff } s

/-- The FIDDLEHEAD record of a missing tick, only with FH_REC 1 (R195). -/
def fiddleMissing (ch : Nat) (s : State) : State :=
  let f := ch / 16
  let w := conf (dataCfg s f) 0x2154 ch
  if !dataFh s f || fld w 0 2 ≠ 1 then s
  else emit (fld w 8 8) { typ := 0x03, source := BitVec.ofNat 16 ch, epoch := (frond s f).depoch, tick := s.tm.prev,
                          flags := BitVec.ofNat 16 (36 + lateFlag s f), body := [] } s

/-! ## Snaps (R137, R156, R342, R427) -/

/-- A SNAP descriptor whose fronds are all resolved completes (R342, R427). -/
def snapDone (q : SnapReq) (s : State) : State :=
  let lost := q.sel.filter (fun c => !q.got.contains c)
  let res := le 6 q.tick.toNat ++ le 2 q.conv ++ le 2 q.got.length ++ le 2 lost.length ++ le 4 (mask (lost.map (· / 16)))
  let s := { s with snaps := s.snaps.filter (fun x => x.id != q.id) }
  let s := if lost ≠ [] && q.map != 0 && (outOf s q.id).any (fun o => !o.lost) then
      outp (.hostWrite q.map (withCrc (le 64 (mask lost)))) s else s
  complete q.id (if lost = [] then 0 else 0x30) res s

/-- Frond f's uplink of the data tick is resolved for every SNAP of that tick; `got` lists its snapped channels with their
conversion index. -/
def snapFrond (f : Nat) (got : List (Nat × Nat)) (s : State) : State :=
  let tick := s.tm.prev
  let snaps := s.snaps.map (fun q =>
    if q.tick = tick then
      { q with got := q.got ++ ((got.filter (fun g => g.2 == q.conv && q.sel.contains g.1)).map (·.1)), left := q.left.filter (· != f) }
    else q)
  let s := { s with snaps := snaps }
  snaps.foldl (fun s q => if q.tick = tick && q.left == [] then snapDone q s else s) s

/-- The SNAP record of a position with a valid snap; NOT_SETTLED where its conversion ran with REF_RDY 0 (R143, R156). -/
def snapRecord (ch : Nat) (d : PosData) (ns : Bool) (s : State) : State :=
  if !d.snap.testBit 31 then s
  else
    let f := ch / 16
    let t := dataCfg s f
    let x := sgn 16 (d.snap % 2 ^ 16)
    let idx := d.snap / 2 ^ 16 % 2 ^ 15
    let tick := s.tm.prev
    let desc := s.snaps.any (fun q => q.tick == tick && q.conv == idx && q.sel.contains ch)
    let fl := b2n (x = 32767 || x = -32768) + 2 * b2n (ns || (frond s f).alignDeg) + lateFlag s f
    emit (accQueue t ch) (accumCell s ch tick fl 2 (aflags s t ch false false) 0 1 x (x * x).toNat x x (64 * idx) (b2n (!desc)) 0) s

/-! ## A channel's tick -/

/-- The data of one position of a complete superframe; `flags` are those of the position, then of its samples (R143, R151, R155, R189). The
spec gives SAT and MIXED no meaning in TICK and SNAP records: 0; and after a tick without a filtered sample SETTLING keeps its value
(DESIGN CHOICE, log 63). -/
def chanTick (ch : Nat) (d : PosData) (flags : List Nat) (s : State) : State :=
  let f := ch / 16
  let t := dataCfg s f
  let x := frond s f
  let n := dataConvs s f
  let mode := confF t 0x2104 ch 0 4
  let ovr := d.mn == -32768 || d.mx == 32767
  let align := x.alignDeg
  let refNs := (flags.headD 0).testBit 0
  let ns := refNs || align
  let di := isDI mode
  let reg := regRuns mode (conf t 0x2104 ch)
  let fl := b2n ovr + 2 * b2n ns + lateFlag s f
  let s := modCChan ch (fun c =>
    { c with tsum := d.sum, tsq := d.sq, tmn := d.mn, tmx := d.mx, measI := if reg then getLE d.aux 0 2 else 0,
             bias := if reg then getLE d.aux 2 2 else 0, rise := if di then getLE d.aux 0 2 else 0, fall := if di then getLE d.aux 2 2 else 0,
             state := di && (getLE d.aux 4 1).testBit 0, loopLow := if reg then getLE d.aux 4 2 % 4096 else 0, ovrTick := ovr,
             nsTick := refNs, per := addPeriod n d ovr ns c.per, tMiss := false, tcnt := n, tTick := s.tm.prev, tFl := fl,
             tEp := x.depoch }) s
  let s := takeDiag ch d.diag s
  let s := if bit (conf t 0x2148 ch) 0 then
      let auxA := if di then getLE d.aux 0 4 else if reg then getLE d.aux 0 2 + (if mode = 7 then getLE d.aux 2 2 * 65536 else 0) else 0
      let auxB := if di then getLE d.aux 4 1 % 2 else if reg then getLE d.aux 4 2 % 4096 else 0
      emit (accQueue t ch) (accumCell s ch (s.tm.prev) fl 0 (aflags s t ch false false) d.diag n d.sum d.sq d.mn d.mx auxA auxB 0) s
    else s
  let s := snapRecord ch d ((flags.headD 0).testBit 1) s
  let ys := makeSamples s ch d flags.tail
  let s := fanOut ch ys s
  let s := fiddleRecord ch d s
  let s := modCChan ch (fun c => { c with
    fine := (ys.getLast?.map (·.y)).getD c.fine, fineFl := (ys.getLast?.map (fun y => b2n (y.fl.testBit 1) + 2 * b2n (y.fl.testBit 0))).getD c.fineFl,
    settling := if d.samples = [] then c.settling else (flags.getLastD 0).testBit 2,
    degLast := if align then some (s.absPrev / 64 + n - 1) else c.degLast }) s
  latchPeriod ch s

/-- One channel of a frond whose uplink of the data tick is missing (R152, R155, R204, R315). R155 gives its TICK record COUNT 0 and
nothing of the other fields: they are 0 (DESIGN CHOICE, log 63). What FINE and FINE_FLAGS give later, where the last sample before their
conversion lies in this tick, is the last one delivered (R195 is silent: DESIGN CHOICE, log 79). -/
def chanMissing (ch : Nat) (s : State) : State :=
  let t := dataCfg s (ch / 16)
  let align := (frond s (ch / 16)).alignDeg
  let s := modCChan ch (fun c => { c with per := { c.per with missed := c.per.missed + 1 } }) s
  let s := if bit (conf t 0x2148 ch) 0 then
      emit (accQueue t ch) (accumCell s ch (s.tm.prev) (4 + 2 * b2n align + lateFlag s (ch / 16)) 0 (aflags s t ch false false) 0 0 0 0 0 0 0 0 0) s
    else s
  let s := fiddleMissing ch (fanOut ch (missingSamples s ch) s)
  let s := modCChan ch (fun c => { c with
    degLast := if align then some (s.absPrev / 64 + dataConvs s (ch / 16) - 1) else c.degLast }) s
  latchPeriod ch s

/-! ## A frond's tick -/

/-- Every frond's uplink of the data tick is resolved: TICK_SUMMARY (R434). -/
def tickSummary (s : State) : State :=
  if s.sumDone || !(allFronds.all (fun f => (frond s f).done)) then s
  else
    let s := { s with sumDone := true }
    let w := frc s 0xA038 0
    if !bit w 0 then s
    else
      let m := fun (p : CFrond → Bool) => mask (allFronds.filter (fun f => p (frond s f)))
      let body := le 4 (m (fun x => x.missing)) ++ s.sumSnap
      emit (fld w 8 8) { typ := 0x01, source := 0, epoch := s.sumEpoch, tick := s.tm.prev, flags := 0, body := body } s

/-- The channels that wait for frond f's data of this tick: angle-domain channels of the frond, or whose reference's tach is
in it, with both fronds resolved (R254). -/
def angleWaiting (s : State) (f : Nat) : List Nat :=
  allChans.filter (fun ch =>
    let t := dataCfg s (ch / 16)
    let src := fld (conf t (0x5100 + 16 * refOf t ch) 0) 0 9 / 16
    angleOn t ch && (ch / 16 == f || src == f) && (frond s (ch / 16)).done && (frond s src).done)

/-- After a frond's data tick is resolved: capture rings, angle-domain channels, TICK_SUMMARY. -/
def frondResolved (f : Nat) (stamps : Nat → List Nat) (s : State) : State :=
  let s := modFrond f (fun x => { x with done := true }) s
  let s := (List.range 32).foldl (fun s r =>
    let t := s.cfg
    let chs := capChans t r
    let s := if chs.any (fun c => c / 16 == f) && chs.all (fun c => (frond s (c / 16)).done) then capFrames t r s else s
    if capStampCh t r / 16 = f then capStampTick t r (stamps (capStampCh t r % 16)) s else s) s
  let s := (angleWaiting s f).foldl (fun s ch => angleTick (dataCfg s (ch / 16)) ch s) s
  tickSummary s

/-- The position blocks of frond f's superframe with the flags of each position and of its samples, when U1 to U4 are held. -/
def frondBlocks (s : State) (f : Nat) : List (PosData × List Nat) :=
  ((List.range 4).map (fun q =>
    match (frond s f).copies.find? (fun e => e.1 == q + 1) with
    | some (_, c) =>
      (match blocksParse s f (4 * q) 4 c.payload with
       | some (l, _) => (l.zipIdx.foldl (fun (a : List (PosData × List Nat) × List Nat) e =>
           (a.1 ++ [(e.1, nthD c.flags e.2 0 :: a.2.take e.1.samples.length)], a.2.drop e.1.samples.length)) ([], c.flags.drop 4)).1
       | none => [])
    | none => [])).flatten

/-- A complete superframe's data is fanned out (R348). -/
def frondComplete (f : Nat) (s : State) : State :=
  let l := frondBlocks s f
  let s := (l.zipIdx).foldl (fun s e => chanTick (16 * f + e.2) e.1.1 e.1.2 s) s
  let st := fun p => ((l[p]?).map (·.1.stamps)).getD []
  let s := trackFrond (dataCfg s f) f false st s
  let got := (l.zipIdx).filterMap (fun e => if e.1.1.snap.testBit 31 then some (16 * f + e.2, e.1.1.snap / 2 ^ 16 % 2 ^ 15) else none)
  let s := snapFrond f got s
  frondResolved f st (modFrond f (fun x => { x with missing := false }) s)

/-- The uplink of the data tick from frond f is missing (R152, R204, R239, R277, R348). -/
def frondMissing (f : Nat) (s : State) : State :=
  let s := modFrond f (fun x => { x with missing := true }) s
  let s := (List.range 16).foldl (fun s p => chanMissing (16 * f + p) s) s
  let s := trackFrond (dataCfg s f) f true (fun _ => []) s
  frondResolved f (fun _ => []) (snapFrond f [] s)

/-- All five frames of frond f have a checked copy: the superframe is complete (R348). -/
def tryComplete (f : Nat) (s : State) : State :=
  let x := frond s f
  if !x.done && (List.range 5).all (fun k => x.copies.any (fun e => e.1 == k)) then frondComplete f s else s

/-- U0 on one link (R346, R348, R349); `slow`: rings whose next write the memory does not finish in its tick (R32). -/
def execU0 (f : Nat) (fr : Frame) (s : State) (slow : List Nat := []) : Host.Outcome State Fault Refusal :=
  if !running s then .next s else .next (inOneCycle (fun s => tryComplete f (receiveU0 f fr s)) (slowRings slow s))

/-- A checked copy of U1 to U4 with its flags, which are those of the copy in use; the superframe completes where it was the last (R333,
R337, R346, R348). -/
def takeUplink (f kind : Nat) (fr : Frame) (flags : List Nat) (s : State) : State :=
  let pay := (fr.bytes.drop 2).take (fr.bytes.length - 4)
  let had := (frond s f).copies.any (fun e => e.1 == kind)
  let s := rxUp f fr kind (fun _ => lenFits s f (kind - 1) pay) (fun _ s => s) s
  let mine := (((frond s f).copies.find? (fun e => e.1 == kind)).map (fun e => e.2.linkB == fr.linkB)).getD false
  let s := if had && !mine then s
    else modFrond f (fun x => { x with copies := tmap x.copies (fun k c => if k = kind then { c with flags := flags } else c) }) s
  tryComplete f s

/-- UPLINK_FRAME: U1 to U4 on one link with the flags of its positions and samples (R333, R337, R346, R348); `slow`: rings whose next write
the memory does not finish in its tick (R32). -/
def execUplinkFrame (f kind : Nat) (fr : Frame) (flags : List Nat) (s : State) (slow : List Nat := []) : Host.Outcome State Fault Refusal :=
  if !running s || kind = 0 || decide (kind > 4) then .next s else .next (inOneCycle (takeUplink f kind fr flags) (slowRings slow s))

end Sys2Proof.Machine
end

