-- ==== Sys2Proof/Machine/Deadlines.lean ====
section
/-! DEFINITION. What ends a CVU_RUN, and what completes a descriptor whose deadline passes (11, 12). -/

namespace Sys2Proof.Machine
open Sys2Proof

/-- A unit has taken n bytes of its CVU_RUN and is free again (R400, R421). -/
def cvuEnd (o : Outstanding) (n status : Nat) (s : State) : State :=
  let s := { s with cvu := tmod {} s.cvu o.obj (fun x => { cvuFeed (o.data.take n) x with owned := false }) }
  let x := cvu s o.obj
  complete o.id status (le 4 (cvuResult x.alg x.st).toNat ++ le 4 x.st.toNat ++ le 4 (min n o.data.length)) s

/-! ## Deadlines (R421) -/

/-- What a SNAP has counted so far: those captured, those not captured of fronds resolved. -/
def snapSoFar (q : SnapReq) : List Nat := q.sel.filter (fun c => !q.got.contains c && !q.left.contains (c / 16))

/-- The descriptor's deadline passes with no result on time; `n` is how far a MAP_READ (cells) or a CVU_RUN (bytes) has come. -/
def timeOut (o : Outstanding) (n : Nat) (s : State) : State :=
  if o.opcode = 0x03 then
    (match s.snaps.find? (fun q => q.id == o.id) with
     | some q =>
       let lost := snapSoFar q
       let s := if lost ≠ [] && q.map != 0 && !o.lost then outp (.hostWrite q.map (withCrc (le 64 (mask lost)))) s else s
       complete o.id 0x04 (le 6 q.tick.toNat ++ le 2 q.conv ++ le 2 q.got.length ++ le 2 lost.length ++ le 4 (mask (lost.map (· / 16)))) s
     | none => complete o.id 0x04 [] s)
  else if o.opcode = 0x04 then complete o.id 0x04 (outResult 0 (valueOf s o.obj)) s
  else if o.opcode = 0x05 then
    (match (capRing s o.obj).run with
     | some c => complete o.id 0x04 (capResult s.cfg o.obj (((capRing s o.obj).seq + 1) % 2 ^ 32) c false) s
     | none => complete o.id 0x04 [] s)
  else if o.opcode = 0x06 then
    (let s := if (s.xfers.head?.map (·.id)) = some o.id then mapPull n s else s
     match s.xfers.find? (fun x => x.id == o.id) with
     | some x => mapEnd x 0x04 s
     | none => complete o.id 0x04 [] s)
  else if o.opcode = 0x0A then
    complete o.id 0x04 (le 6 o.val ++ [0, 0] ++ le 4 (if s.tm.syncFin.contains (some o.id) then s.tm.syncCleared else 0)) s
  else if o.opcode = 0x0C then cvuEnd o (min n o.data.length) 0x04 s
  else complete o.id 0x04 [] s

/-- At a tick edge every deadline that lies before it has passed: what has no result on time completes. The time of execution within its
tick is open (log 50), so a deadline lies before an edge one tick length after `due`; `ends` gives by DIDX how far a MAP_READ or a CVU_RUN
had come (R421). -/
def deadlinesEdge (ends : List (Half × Nat)) (s : State) : State :=
  (s.outs.filter (fun o => o.tmo != 0 && decide (o.due + o.len ≤ s.abs + 32768 * steps s))).foldl (fun s o =>
    if (outOf s o.id).isSome then timeOut o (((ends.find? (fun e => e.1 == o.didx)).map (·.2)).getD 0) s else s) s

end Sys2Proof.Machine
end

