-- ==== Sys2Proof/Machine/TimeOps.lean ====
section
/-! DEFINITION. The time states and the steering of tick edges onto network time (R302 to R307, R435). -/

namespace Sys2Proof.Machine
open Sys2Proof

/-- TIME_SRC in force is 1. -/
def netSrc (t : Tab Word) : Bool := confF t 0x1018 0 0 2 == 1

/-- ORIGIN of a configuration. -/
def originOf (t : Tab Word) : Nat := (conf t 0x1020 0).toNat + 2 ^ 32 * (conf t 0x1024 0).toNat

/-- A configuration with another ORIGIN. -/
def setOrigin (v : Int) (t : Tab Word) : Tab Word :=
  let n := uns 64 v
  confPut (confPut t 0x1020 0 (BitVec.ofNat 32 n)) 0x1024 0 (BitVec.ofNat 32 (n / 2 ^ 32))

/-- Tick length in ns. -/
def tickNs (s : State) : Nat := 250000 * steps s

/-- EVENT kind 4, TIME (Table 12-18). -/
def timeEvent (old : Nat) (s : State) : State :=
  emit 255 { typ := 0x40, source := 0, epoch := s.tm.epoch, tick := s.tm.count, flags := 0,
             body := [4, BitVec.ofNat 8 s.tm.state, BitVec.ofNat 8 old, 0] ++ le 6 0 ++ le 2 (uns 16 s.tm.offset) } s

/-- The time unit enters a state: its EVENT, and TIME_HOLDOVER follows HOLDOVER (R303, R307, R435). -/
def setTime (n : Nat) (s : State) : State :=
  if s.tm.state = n then s
  else
    let old := s.tm.state
    let s := timeEvent old { s with tm := { s.tm with state := n, run := 0, jump := none, slew := 0,
                                                      offset := if n = 0 then 0 else s.tm.offset } }
    if n = 3 then raise 0x19 0 1 false (le 2 (uns 16 s.tm.offset)) s.tm.count false false s
    else if old = 3 then clearSrc 0x19 0 s else s

/-- Nanoseconds as 1/32 frond counts. -/
def nsToSub (ns : Int) : Int := rne (ns * 65536) 15625

/-- The time unit at a tick edge, with network time there when it is known: OFFSET, N_net and renumbering, slew of the next
edge (R303 to R305, R307). -/
def timeEdge (net : Option Int) (s : State) : State :=
  if !netSrc s.cfg then { s with tm := { s.tm with slew := 0, offset := 0 } }
  else
    match net with
    | none => { s with tm := { s.tm with slew := 0, run := 0 } }
    | some t =>
      let n := now s
      let l := tickNs s
      let off := fun (k : Nat) => t - (originOf s.cfg : Int) - (k : Int) * l
      let o := clampI (-32767) 32767 (off n)
      let tm := { s.tm with offset := o, run := if s.tm.state = 1 && decide (o.natAbs ≤ 40) then s.tm.run + 1 else 0, slew := 0 }
      let nn := (max 0 ((2 * (t - (originOf s.cfg : Int)) + l) / (2 * (l : Int)))).toNat
      if s.tm.state = 1 then
        -- R304: a pending commit delays the renumbering alone
        if n < nn ∧ s.pend.isNone then
          { s with tm := { tm with jump := some (nn + 1), slew := clampI (-96) 96 (nsToSub (-(off nn))) } }
        else if nn < n then
          let s := raise 0x1A 0 1 false (le 4 n ++ le 4 nn) s.tm.count false false { s with tm := { tm with conflict := true } }
          setTime 3 s
        else { s with tm := { tm with slew := clampI (-96) 96 (nsToSub (-(off (max n nn)))), renumbered := tm.renumbered || n == nn } }
      else if s.tm.state = 2 then { s with tm := { tm with slew := clampI (-96) 96 (nsToSub (-(off n))) } }
      else { s with tm := tm }

/-- A change of TICK_STEPS while 802.1AS drives the counter moves ORIGIN so that the tick numbers go on (R306). -/
def originEpoch (old : Tab Word) (s : State) : State :=
  if netSrc old && netSrc s.cfg && confF old 0x1010 0 0 7 != confF s.cfg 0x1010 0 0 7 then
    let lo : Int := 250000 * (max 1 (confF old 0x1010 0 0 7) : Nat)
    let v := (originOf old : Int) + (now s : Int) * lo - (now s : Int) * tickNs s
    let keep := !(s.wrSince.contains (regKey 0x1020 0) || s.wrSince.contains (regKey 0x1024 0))
    { s with cfg := setOrigin v s.cfg, staged := if keep then setOrigin v s.staged else s.staged }
  else s

/-- A change of the time source changes the state of the time unit (Table 9-1). -/
def sourceEpoch (old : Tab Word) (s : State) : State :=
  if !netSrc old && netSrc s.cfg then setTime (if s.tm.conflict then 3 else 1) s
  else if netSrc old && !netSrc s.cfg then setTime 0 s
  else s

/-- An epoch's change of time source, and of tick length under network time, at the current edge (R303, R306). -/
def timeEpoch (old : Tab Word) (s : State) : State := sourceEpoch old (originEpoch old s)

end Sys2Proof.Machine
end

