-- ==== Sys2Proof/Machine/TickEdge.lean ====
section
/-! DEFINITION. The tick edge and the period boundary: the fixed work of Table 1-3 and what the other chapters place there. -/

namespace Sys2Proof.Machine
open Sys2Proof

/-! ## Period boundary (R38 to R43) -/

/-- The commit that applies at the next edge, if one does (R320). -/
def applying (s : State) : Option (Pending × List Nat) :=
  match s.pend with
  | some p =>
    (match p.resolved with
     | some (true, excl) => if p.t = nextTick s then some (p, excl) else none
     | _ => none)
  | none => none

/-- An applying commit changes PERIOD_TICKS (R39). -/
def periodChanges (s : State) : Bool :=
  match applying s with
  | some (p, _) => p.written || confF p.conf 0x1014 0 0 24 != confF s.cfg 0x1014 0 0 24
  | none => false

/-- The next edge is a period boundary (R38, R39). Before the first epoch that changes PERIOD_TICKS R38 names no P0: it is 0, and no
boundary falls at the very first edge (DESIGN CHOICE, log 63). -/
def boundaryDue (s : State) : Bool :=
  s.tm.started &&
  ((s.tm.count + 1 - s.tm.p0).toNat % (max 1 (frcF s 0x1014 0 0 24)) == 0 || periodChanges s)

/-- A transferring MAP_READ stops at the boundary after `read` cells, as far as the reserve allowed, and completes with MAP_SWAPPED
(R272, R273). -/
def mapCut (read : Nat) (s : State) : State :=
  if !mapOn s then s
  else
    let s := mapPull read s
    match s.xfers with
    | x :: _ => mapEnd x 0x03 s
    | [] => s

/-- What a period boundary latches and restarts, under the epoch that ends there (R40, R43, R269, R272, R297, R375, R503,
Table 10-8); vector 19. -/
def periodWork (read : Nat) (s : State) : State :=
  let s := mapBoundary (mapCut read s)
  let s := latchLost (rulesBoundary s)
  let s := allFronds.foldl (fun s f =>
    let s := modFrond f (fun x => { x with a := { x.a with rej := 0, diff := 0 }, b := { x.b with rej := 0, diff := 0 }, snapLost := 0 }) s
    [false, true].foldl (fun s l => clearSrc (linkSrc f l) 2 (clearSrc (linkSrc f l) 1 s)) s) s
  let s := { s with refs := tmap s.refs (fun _ r => { r with skipped := 0, extra := 0, losses := 0 }),
                    caps := tmap s.caps (fun _ r => { r with ignored := 0 }),
                    net := { s.net with p0 := { s.net.p0 with badRx := 0 }, p1 := { s.net.p1 with badRx := 0 } },
                    noted := [], boundary := some (s.tm.count, s.tm.epoch) }
  msi 19 s

/-- PERIOD_BOUNDARY at the next edge, before its tick edge; `read` is how many cells a transferring MAP_READ has read. Where no
boundary falls there, or it has been taken, nothing happens. The end marks that a row writes count as those of one cycle (R365). -/
def execPeriodBoundary (read : Nat) (s : State) : Host.Outcome State Fault Refusal :=
  if running s && boundaryDue s && s.boundary.isNone then .next (inOneCycle (periodWork read) s) else .next s

/-! ## The windows that end (R348, R351, R499, R314) -/

/-- One link's window ends; the superframe of the tick before the one that ends was to arrive in it (R351). -/
def linkWindow (f : Nat) (linkB : Bool) (s : State) : State :=
  let l := if linkB then (frond s f).b else (frond s f).a
  let s := if l.kinds = [] then linkDown f linkB (s.tm.prev - 1) s
    else modLink f linkB (fun l => { l with run := if l.kinds.length = 5 && !l.nodl then l.run + 1 else 0 }) s
  modLink f linkB (fun l => { l with kinds := [], nodl := false }) s

/-- The core's view of one frond at an edge: its superframe is judged and its window ends. `judge` is false for the first two
edges, before any superframe is due; `old` is the configuration of the ending tick where this edge changes it. -/
def frondWindow (judge : Bool) (old : Option (Tab Word)) (s : State) (f : Nat) : State :=
  let x := frond s f
  let j : Judged := ⟨(List.range 5).all (fun k => x.copies.any (fun e => e.1 == k)), x.rep.shutdown, x.rep.cpair⟩
  let s := if judge then linkWindow f true (linkWindow f false s)
    else modFrond f (fun x => { x with a := { x.a with kinds := [], nodl := false }, b := { x.b with kinds := [], nodl := false } }) s
  let run := match old with | some t => some (x.hold.getD t) | none => x.hold
  modFrond f (fun x =>
    { x with hist := if judge then (j :: x.hist).take 4 else x.hist, dpc := if x.gotU0 then x.rep.dpc else s.tm.dpcPrev,
             dhold := run, hold := if old.isSome then run else x.hold, depoch := x.epoch, dlate := x.late,
             copies := [], gotU0 := false, done := !judge && !s.tm.started, missing := false, edgesSince := min 16 (x.edgesSince + 1),
             holdover := x.a.down && x.b.down }) s

/-- The fronds that reported in the ending window: those the core counts as powered (R314). -/
def reporting (s : State) : List Nat := allFronds.filter (fun f => (frond s f).gotU0)

/-- ALIGN_DEGRADED of frond f by the core's four conditions (R314). A restart at edge R degrades the edges R + 1 to R + 16: R314 does not
say whether the judged edge is among the 16 that must have passed (DESIGN CHOICE, log 76). -/
def alignBad (s : State) (temps : List Int) (f : Nat) : Bool :=
  let x := frond s f
  let t := x.rep.temp
  (x.gotU0 && (temps.any (fun u => decide (t > u + 160)) || temps.any (fun u => decide (t < u - 160)) ||
               decide (x.rep.fsup < 1080) || decide (x.rep.fsup > 3300))) ||
  decide (x.carried.natAbs > 32) || decide (x.edgesSince < 16)

/-- ALIGN_DEGRADED is judged for every frond and drives its core line (R314, R486): a cause of 0xA0 + f. -/
def alignJudge (bad : List Nat) (s : State) : State :=
  allFronds.foldl (fun s f =>
    let b := bad.contains f
    let s := modFrond f (fun x => { x with alignDeg := b }) s
    if b then raise (0xA0 + f) 9 1 false (frondCtx s f ((frond s f).rep.fpair.toNat + 512) 0xFFFF) s.tm.count true false s
    else clearSrc (0xA0 + f) 9 s) s

/-! ## The epoch (R320, R325, R306, R39) -/

/-- The committed configuration comes into force; what has been written since stays staged (R320, R321, R39, R451). -/
def takeConfig (p : Pending) (s : State) : State :=
  let pc := p.written || confF p.conf 0x1014 0 0 24 != confF s.cfg 0x1014 0 0 24
  let staged := if s.wrSince = [] then p.conf
    else s.staged.foldl (fun t e => if s.wrSince.contains e.1 then tput t e.1 e.2 else t) p.conf
  { s with cfg := p.conf, staged := staged, tm := { s.tm with epoch := s.tm.resEpoch, p0 := if pc then s.tm.count else s.tm.p0 } }

/-- The fronds that a commit leaves out (R325). -/
def excludeFronds (excl : List Nat) (s : State) : State :=
  excl.foldl (fun s f => modFrond f (fun x => { x with excluded := true }) s) s

/-- What the parts of the module do at an epoch edge whose old configuration is `old` (R20, R45, R326). -/
def partsEpoch (old : Tab Word) (s : State) : State :=
  let s := { s with fronds := tmap s.fronds (fun f x => { x with hold := x.hold.map (fun t => mixCfg f t s.cfg) }) }
  let s := allChans.foldl (fun s ch => chanEpoch ((frond s (ch / 16)).dhold.getD old) (chanCfg s ch) ch s) s
  let s := rulesEpoch old (capsEpoch old (refsEpoch old (mapEpoch old s)))
  let s := pubsEpoch old (lspEpoch (trimAll old s))
  { (clearSrc 0x36 0 s) with wrSince := [] }

/-- The epoch of an applied commit at the current edge (R20, R45, R320, R321, R325, R326, R451). -/
def applyEpoch (p : Pending) (excl : List Nat) (s : State) : State :=
  partsEpoch s.cfg (timeEpoch s.cfg (excludeFronds excl (takeConfig p s)))

/-! ## Temperature, check-in, ALIVE, FILLER, TICK_SUMMARY -/

/-- The dissipation of a tick in mW: the input powers less what is delivered to the field loads, within PWR_DISS (R575, log 85). -/
def dissipation (i : TickIn) : Nat := min 0xFFFF (i.vlogIn + i.fsupIn.sum - i.loads.sum)

/-- ABOVE_DECL at an edge; TBASE_HIGH clears after 1 s of 0 (R553, Table 15-3). -/
def tempEdge (i : TickIn) (s : State) : State :=
  let decl : Int := 4 * (frcF s 0xE000 0 16 8 : Nat)
  let up := if i.temp > decl then true else if i.temp ≤ decl - 4 then false else s.pwr.above
  let n := if up = s.pwr.above then s.pwr.aboveFor + steps s else 0
  let s := { s with pwr := { s.pwr with temp := i.temp, above := up, aboveFor := n, vlog := i.vlog, diss := dissipation i } }
  if !up && decide (n ≥ 4000) then clearSrc 0x1E 0 s else s

/-- The management processor's check-in for this edge (R509). -/
def checkInEdge (s : State) : State :=
  let ok := s.tm.checkedIn
  let missed := if ok then 0 else s.tm.missed + 1
  let row := if ok then s.tm.inARow + 1 else 0
  let s := { s with tm := { s.tm with checkedIn := false, mpAlive := ok, missed := missed, inARow := row } }
  if missed ≥ 2 then raise 0x11 0 2 false (le 4 missed) s.tm.count true false s
  else if row ≥ 4 then clearSrc 0x11 0 s else s

/-- The highest active class at an edge: a SERVICE source active at its deadline edge counts as SAFE from then on (R488, R493). -/
def highestNow (s : State) : Nat :=
  if s.srcs.any (fun e => match e.2.deadline with | some d => e.2.cls == 2 && decide (d ≤ s.tm.count) | none => false) then max 3 (highest s)
  else highest s

/-- ALIVE changes level (R508). -/
def aliveEdge (s : State) : State := if highestNow s < 3 && s.tm.mpAlive then { s with alive := !s.alive } else s

/-- A queue holds no packet and has none in delivery. -/
def idleQueue (s : State) (q : Nat) : Bool := (allPkts (queue s q)).isEmpty

/-- FILLER records into idle queues (R437). -/
def fillers (s : State) : State :=
  let cell : Cell := { typ := 0x7F, source := 0, epoch := s.tm.epoch, tick := s.tm.count, flags := 0, body := [] }
  let put := fun (s : State) (q : Nat) => if idleQueue s q then emit q cell s else s
  let s := (List.range 16).foldl (fun s n =>
    if !s.auto && (ring s (3 + n)).en && bit (frc s (0xA108 + 16 * n) 0) 24 then put s (frcF s (0xA108 + 16 * n) 0 16 8) else s) s
  match lspQueue s with
  | some q => if lspActive s && bit (frc s 0xF000 0) 0 then lspSettle (put s q) else s
  | none => s

/-- The fronds with a property, as a bit mask. -/
def frondMask (p : CFrond → Bool) (s : State) : Nat := mask (allFronds.filter (fun f => p (frond s f)))

/-- Bytes 24 to 55 of TICK_SUMMARY at the current edge (Table 12-17). -/
def summaryAt (s : State) : List Byte :=
  let m := fun (p : CFrond → Bool) => frondMask p s
  let st := b2n s.pend.isSome + 2 * b2n (s.fronds.any (fun e => e.2.late)) + 4 * b2n (s.fronds.any (fun e => e.2.excluded)) +
            8 * b2n (srcActive s 0x10 0)
  le 4 (m (fun x => !x.a.up)) ++ le 4 (m (fun x => !x.b.up)) ++ le 4 (deferCycles s) ++ le 4 (deferMap s) ++
  le 2 (uns 16 s.tm.offset) ++ le 1 (s.tm.state + 4 * b2n s.tm.clkSel + 8 * b2n s.tm.conflict) ++ le 1 (min 3 (highestNow s)) ++
  le 4 (poolUsed s) ++ le 2 s.rulEval ++ le 2 st ++ le 4 (m (fun x => x.alignDeg))

/-- TICK_OVERRUN follows the deferred work at the edge (R32, R37). -/
def overrunEdge (s : State) : State :=
  if workOwed s then
    raise 0x10 0 2 false (le 4 (deferCycles s) ++ le 4 (deferMap s)) s.tm.count true false s
  else clearSrc 0x10 0 s

/-- Pins at an edge, under the configuration now in force: TICK_OUT rises; SYNC_OUT is low with function 0, follows SYNC_IN with 1, rises
at a reset edge with 2 and at a period boundary with 3 (R310, R311). -/
def pinsEdge (reset boundary : Bool) (s : State) : State :=
  let w := frc s 0x101C 0
  let fn := fld w 4 2
  let up := now s % 2 ^ (fld w 8 4) = 0
  let so := if fn = 1 then s.tm.syncIn else if fn = 2 then reset else if fn = 3 then boundary else false
  { s with tm := { s.tm with tickOut := s.tm.tickOut || up, syncOut := so } }

/-- The latched bits of CHN_CONV_STAT at an edge. -/
def stickyEdge (s : State) : State :=
  { s with chans := tmap s.chans (fun _ c => { c with ovrStk := c.ovrStk || c.ovrTick, nsStk := c.nsStk || c.nsTick }) }

/-- The SYNC descriptors of the last reset edge complete with that edge and the channels cleared there (R187). -/
def finishSync (s : State) : State :=
  s.tm.syncFin.foldl (fun s i =>
    let edge := ((i.bind (outOf s)).map (·.val)).getD 0
    completeOpt i 0 (le 6 edge ++ [0, 0] ++ le 4 s.tm.syncCleared) s) { s with tm := { s.tm with syncFin := [] } }

/-- Requests for a decimation phase reset at an edge: those of the ended tick travel in the next downlink superframe, and the
descriptors of a reset that happens at this edge wait for SYNC_DONE, those of an earlier one no longer (R185, R187). -/
def syncEdge (reset : Bool) (s : State) : State :=
  let s := if reset then
      let s := finishSync s
      let s := (s.tm.syncIds.filterMap id).foldl (fun s i => modOut i (fun o => { o with val := now s }) s) s
      { s with tm := { s.tm with syncFin := s.tm.syncIds, syncIds := [], syncCleared := 0 } }
    else s
  { s with tm := { s.tm with syncNext := !s.tm.syncReq.isEmpty, syncIds := s.tm.syncReq, syncReq := [] } }

/-! ## The edge -/

/-- What ends with the tick: missing uplinks, deferred work, readiness of blocks (R32, R228, R348). -/
def tickEnds (s : State) : State :=
  let s := if s.tm.started && decide (s.tm.count ≥ 1) then
      allFronds.foldl (fun s f => if (frond s f).done then s else frondMissing f s) s else s
  readyBlocks (flushHeld (deferTick s))

/-- The counter, the phase count and the frames of time since reset step to the next edge (R22, R186, R304). -/
def stepCounter (s : State) : State :=
  let n := nextTick s
  let jumped := s.tm.started && n != s.tm.count + 1
  let abs2 := if s.tm.started then s.abs + 32768 * steps s else s.abs
  let d := (s.tm.dpc + 512 * steps s) % 4096
  let reset := s.tm.syncNext && s.tm.started
  let tm := { s.tm with started := true, count := n, prev := s.tm.count, p0 := if jumped then s.tm.p0 + (n - (s.tm.count + 1)) else s.tm.p0,
                        jump := none, renumbered := s.tm.renumbered || jumped, dpcPrev := s.tm.dpc,
                        dpc := if !s.tm.started then s.tm.dpc else if reset then 0 else d, moved := s.tm.slew }
  { s with absPrev := s.abs, abs := abs2, tm := tm }

/-- What an edge knows before the counter steps: the commit that applies, whether it is the first edge, whether superframes are
judged, the phase count, a decimation phase reset. -/
structure EdgeView where
  ap : Option (Pending × List Nat)
  first : Bool
  judge : Bool
  d : Nat
  reset : Bool

/-- The view of the coming edge. -/
def edgeView (s : State) : EdgeView :=
  { ap := applying s, first := !s.tm.started, judge := s.tm.started && decide (s.tm.count ≥ 1),
    d := (s.tm.dpc + 512 * steps s) % 4096, reset := s.tm.syncNext && s.tm.started }

/-- Before the edge: NOTE events go, and a due period boundary that has not been taken is taken (R43, R484). -/
def beforeEdge (s : State) : State :=
  let s := dropNotes s
  if boundaryDue s && s.boundary.isNone then periodWork 0 s else s

/-- The fronds whose ALIGN_DEGRADED holds at the edge (R314). -/
def alignFronds (v : EdgeView) (s : State) : List Nat :=
  let temps := (reporting s).map (fun f => (frond s f).rep.temp)
  if v.first then [] else allFronds.filter (alignBad s temps)

/-- The windows of the fronds end. -/
def windowsEdge (v : EdgeView) (s : State) : State :=
  let s := allFronds.foldl (frondWindow v.judge (v.ap.map (fun _ => s.cfg))) s
  if v.first then { s with fronds := tmap s.fronds (fun _ x => { x with done := true }) } else s

/-- A commit that applies at the edge. -/
def epochEdge (v : EdgeView) (s : State) : State :=
  match v.ap with
  | some (p, excl) => applyEpoch p excl s
  | none => s

/-- The period that the edge latches is the one that ended before it. -/
def takeBoundary (s : State) : State := { s with latNow := s.boundary, boundary := none }

/-- Resets, overrun, alignment, shadows, time, temperature, life cycle at the edge. -/
def edgeJudge (i : TickIn) (v : EdgeView) (bad : List Nat) (s : State) : State :=
  let s := takeBoundary (syncEdge v.reset (if v.reset then phaseRestart v.d s else s))
  let s := judgeShadows (alignJudge bad (overrunEdge s))
  lifeCycleCheck i.lcBad i.otpBad (tempEdge i (timeEdge i.net s))

/-- What of a tick starts again at its edge. -/
def startTick (s : State) : State :=
  { s with chans := tmap s.chans (fun _ c => { c with tMiss := true, ys := [] }), map := { s.map with ticks := s.map.ticks + 1 },
           caps := tmap s.caps (fun _ r => { r with read := false }), sliceRun := false }

/-- TICK_SUMMARY of the ended tick is taken from what its first edge showed; the safe states at that edge are those that U0 has reported
after it (Table 10-4, DEDUCED, log 69). -/
def takeSummary (v : EdgeView) (s : State) : State :=
  { s with sumSnap := le 4 (frondMask (fun x => x.rep.safe) s) ++ s.sumNext, sumEpoch := s.sumNextEp, sumNext := summaryAt s, sumNextEp := s.tm.epoch,
           sumDone := !v.judge && v.first }

/-- Vector 18 at its ticks (Table 12-5). -/
def tickVector (s : State) : State := if s.tickIrq && decide (now s % 2 ^ s.tickDiv = 0) then msi 18 s else s

/-- The work of the edge under the configuration now in force, in the order of Table 1-3. -/
def edgeWork (i : TickIn) (v : EdgeView) (bad : List Nat) (s : State) : State :=
  let s := startTick (rulesEdge (outsDue (stickyEdge (edgeJudge i v bad s))))
  let s := takeSummary v (fillers (gatesRestart (aliveEdge (checkInEdge s))))
  tickVector (writeStatus (pinsEdge v.reset s.latNow.isSome s))

/-- TICK_EDGE: the tick counter increments and the fixed work of the edge runs (R22, R34, R43, R421, Table 1-3). -/
def tickEdge (i : TickIn) (s : State) : State :=
  let a := beforeEdge (deadlinesEdge i.ends (slowRings i.slow s))
  let v := edgeView a
  let b := tickEnds a
  edgeWork i v (alignFronds v b) (epochEdge v (windowsEdge v (stepCounter b)))

/-- TICK_EDGE, while firmware runs (R22, R491). -/
def execTickEdge (i : TickIn) (s : State) : Host.Outcome State Fault Refusal :=
  if running s then .next (inOneCycle (tickEdge i) s) else .next s

end Sys2Proof.Machine
end

