-- ==== Sys2Proof/Machine/FaultRows.lean ====
section
/-! DEFINITION. The commands of the fault collector and of the clocks that feed it (15, 09). -/

namespace Sys2Proof.Machine
open Sys2Proof

/-- The collector works: from boot start until the module has halted (R491, R560). -/
def awake (s : State) : Bool := s.phase == .booting || running s

/-- The class of a core source of Table 15-3; 0 for an ID the core does not raise. -/
def coreCls (id : Nat) : Nat :=
  if [0x00, 0x01, 0x02, 0x03].contains id then 4
  else if [0x08, 0x0A, 0x10, 0x11, 0x1E].contains id then 2
  else if id = 0x3F then 3
  else if [0x09, 0x18, 0x19, 0x1A, 0x1C, 0x20, 0x28, 0x29, 0x2A, 0x2C, 0x30, 0x31, 0x34, 0x35, 0x36].contains id then 1
  else 0

/-- A core source of Table 15-3 is an event source. -/
def coreEvent (id : Nat) : Bool :=
  [0x00, 0x01, 0x02, 0x03, 0x08, 0x09, 0x0A, 0x20, 0x28, 0x29, 0x2A, 0x34, 0x35].contains id

/-- The sources that nothing else in the module's commands raises: MP_LOCKSTEP, MP_MEM_UNCORR, MEM_CORR, MEM_UNCORR. -/
def rawSource (id : Nat) : Bool := [0x00, 0x01, 0x09, 0x0A].contains id

/-- FAULT_SOURCE_ACTIVATE: one of the sources that no other command raises becomes active with its context; for SIGNAL_PATH the
core line in context byte 2 has been equal to its complement for two cycles (R485, R487, R488, Table 15-3). -/
def execFaultSourceActivate (id : Nat) (ctx : List Byte) (s : State) : Host.Outcome State Fault Refusal :=
  if !awake s then .next s
  else if id = 0x3F then .next (pathBad 0 0 (getLE ctx 2 1) s)
  else if rawSource id then .next (raise id 0 (coreCls id) true (padTo 20 ctx) s.tm.count false false s)
  else .next s

/-- The condition of a state source of the collector, as the module's state shows it, holds no longer (Table 15-3). -/
def condGone (s : State) (id sub : Nat) : Bool :=
  if id = 0x11 then decide (s.tm.inARow ≥ 4)
  else if id = 0x1E then !s.pwr.above && decide (s.pwr.aboveFor ≥ 4000)
  else if 0x80 ≤ id && id < 0xC0 then decide (sub < 8) && !(frond s (id % 32)).rep.fpair.getLsbD sub
  else false

/-- A core line that works again carries its source's state: of a link its causes as the core judges them, of a frond's supervisor
ALIGN_DEGRADED, else the one source of that ID (R486, R487). -/
def lineFollows (line : Nat) (act : Bool) (ctx : List Byte) (s : State) : State :=
  if 0x40 ≤ line && line < 0x80 then
    let f := line % 32
    let linkB := decide (line ≥ 0x60)
    let l := if linkB then (frond s f).b else (frond s f).a
    ([(0, l.down), (1, decide (l.rej > 64)), (2, decide (l.diff > 0))] : List (Nat × Bool)).foldl (fun s c =>
      setSrc (act && c.2) line c.1 1 (linkCtx s f linkB c.1) s.tm.count s) s
  else if 0xA0 ≤ line && line < 0xC0 then
    let f := line % 32
    setSrc act line 9 1 (frondCtx s f (frond s f).rep.fpair.toNat 0xFFFF) s.tm.count s
  else if coreCls line = 0 || line = 0x3F then s
  else if act then raise line 0 (coreCls line) (coreEvent line) (padTo 20 ctx) s.tm.count false false s
  else if coreEvent line then s else clearSrc line 0 s

/-- FAULT_SOURCE_CLEARED: a source whose condition has ended becomes inactive. For SIGNAL_PATH (0x3F) the core line `line` has been
opposite to its complement for 64 cycles and carries `act`, which the collector then follows; SIGNAL_PATH itself waits for SCOPE 2
(R487, R494, R502). -/
def execFaultSourceCleared (id sub line : Nat) (act : Bool) (ctx : List Byte) (s : State) : Host.Outcome State Fault Refusal :=
  if !awake s then .next s
  else if id = 0x3F then
    let s := { s with badPaths := s.badPaths.map (fun e => if e.1 == 0 && e.2.2.1 == line then (e.1, e.2.1, e.2.2.1, 64) else e) }
    .next (lineFollows line act ctx s)
  else .next (if condGone s id sub then clearSrc id sub s else s)

/-- ESCALATION: a SERVICE source still active at its deadline (R493). -/
def execEscalation (id sub : Nat) (s : State) : Host.Outcome State Fault Refusal :=
  if running s then .next (escalate id sub s) else .next s

/-- SHADOW_CLOSE: the shadow of frond f whose end an edge has set goes, with its MERGED record (R499, R500, R502). -/
def execShadowClose (f : Nat) (s : State) : Host.Outcome State Fault Refusal :=
  if running s then .next (closeShadow f s) else .next s

/-- HALT_DRAIN_TIMEOUT: 1 ms after HALT the module stops with queue 255 not empty (R491). -/
def execHaltDrainTimeout (s : State) : Host.Outcome State Fault Refusal :=
  if s.phase = .draining then .next (haltStop s) else .next s

/-- TBASE_HIGH: ABOVE_DECL has been 1 at every edge for 1 s, 4,000 steps of 250 µs, at the edge that has come (R493, R553,
Table 15-3). -/
def execTbaseHigh (s : State) : Host.Outcome State Fault Refusal :=
  if running s && s.pwr.above && decide (s.pwr.aboveFor ≥ 4000) then
    .next (raise 0x1E 0 2 false (le 4 (uns 12 s.pwr.temp + 65536)) s.tm.count true false s)
  else .next s

/-- CHECK_IN: the management processor checks in for the next edge (R509). -/
def execCheckIn (s : State) : Host.Outcome State Fault Refusal :=
  if running s then .next { s with tm := { s.tm with checkedIn := true } } else .next s

/-! ## Clocks (R301, R511) -/

/-- TCK_STAT bits [4:2] as context. -/
def clkCtx (s : State) : List Byte := le 1 (b2n s.tm.clkA + 2 * b2n s.tm.clkB + 4 * b2n s.tm.clkSel)

/-- CLOCK_SRC_LOST: oscillator B, or A, fails while the other runs; the core clock uses the other one from then on (R301). -/
def execClockSrcLost (oscB : Bool) (s : State) : Host.Outcome State Fault Refusal :=
  if !awake s || !s.tm.clkA || !s.tm.clkB then .next s
  else
    let s := { s with tm := { s.tm with clkA := oscB, clkB := !oscB, clkSel := if s.tm.clkSel = oscB then !oscB else s.tm.clkSel } }
    .next (raise 0x18 0 1 false (clkCtx s) s.tm.count false false s)

/-- CLOCK_SRC_LOST_CLEAR: the failed oscillator has been within tolerance for 1 s (R511). -/
def execClockSrcLostClear (s : State) : Host.Outcome State Fault Refusal :=
  if !awake s || !(s.tm.clkA || s.tm.clkB) then .next s
  else .next (clearSrc 0x18 0 { s with tm := { s.tm with clkA := true, clkB := true } })

/-- CLOCK_BOTH_LOST: the HALT source of both oscillators (R491, R511). -/
def execClockBothLost (s : State) : Host.Outcome State Fault Refusal :=
  if !awake s then .next s
  else
    let s := { s with tm := { s.tm with clkA := false, clkB := false } }
    .next (raise 0x02 0 4 true (clkCtx s) s.tm.count false false s)

end Sys2Proof.Machine
end

