-- ==== Sys2Proof/Machine/TimeRows.lean ====
section
/-! DEFINITION. The commands of the time unit and of the sync pins (09, 04, 05, 08). -/

namespace Sys2Proof.Machine
open Sys2Proof

/-- TIME_LOCKED: |OFFSET| within 40 ns at 16 edges in a row (Table 9-1). -/
def execTimeLocked (s : State) : Host.Outcome State Fault Refusal :=
  if running s && s.tm.state = 1 && decide (s.tm.run ≥ 16) then .next (inOneCycle (setTime 2) s) else .next s

/-- A loss of 802.1AS time enters HOLDOVER: from LOCKED, and from ACQUIRING once the counter has been renumbered (Table 9-1). -/
def holdsOver (s : State) : Bool := running s && (s.tm.state = 2 || (s.tm.state = 1 && s.tm.renumbered))

/-- TIME_HOLDOVER: 802.1AS time is lost; TIME_HOLDOVER comes before the EVENT of the same cycle (R365, Table 9-1). -/
def execTimeHoldover (s : State) : Host.Outcome State Fault Refusal :=
  if holdsOver s then .next (inOneCycle (setTime 3) s) else .next s

/-- TIME_REGAINED: 802.1AS time is valid again and CONFLICT is 0 (Table 9-1). -/
def execTimeRegained (s : State) : Host.Outcome State Fault Refusal :=
  if running s && s.tm.state = 3 && !s.tm.conflict then .next (inOneCycle (setTime 1) s) else .next s

/-! ## Snaps (R131, R132, R340) -/

/-- Core cycles since reset at a number of cycles after the current edge. -/
def coreCycle (s : State) (cycles : Nat) : Nat := s.abs / 32768 * 125000 + cycles

/-- The request time of a core stamp in frond counts after the tick edge (R132). -/
def requestTime (cycles : Nat) : Nat := cdiv (cycles * 32768) 125000 + 128

/-- The first stamp at or after `cycles` that keeps 2 µs from the last snap order on the links of frond f (R340). -/
def snapStamp (s : State) (f cycles : Nat) : Nat :=
  match (frond s f).lastSnap with
  | some t => max cycles (t + 1000 - coreCycle s 0)
  | none => cycles

/-- SYNC_FN in force. -/
def syncFn (s : State) : Nat := frcF s 0x101C 0 0 2

/-- A SYNC_IN snap for frond f: the order, or where its links would have to wait a loss for each channel with SYNC_SNAP (R136, R340). -/
def snapFrondIn (cycles : Nat) (s : State) (f : Nat) : State :=
  if snapStamp s f cycles = cycles then
    let t := coreCycle s cycles
    sendOrder f 0x1C (BitVec.ofNat 8 (requestTime cycles)) (modFrond f (fun x => { x with lastSnap := some t }) s)
  else
    let n := ((List.range 16).filter (fun p => bit (frc s 0x2148 (16 * f + p)) 2)).length
    modFrond f (fun x => { x with snapLost := satAdd 255 x.snapLost n }) s

/-- SYNC_IN_SNAP: a rising SYNC_IN edge `cycles` core cycles after the tick edge (R131, R135, R136, R308, R340). -/
def execSyncInSnap (cycles : Nat) (s : State) : Host.Outcome State Fault Refusal :=
  if s.phase ≠ .running || syncFn s ≠ 1 then .next s else .next (allFronds.foldl (snapFrondIn cycles) s)

/-- SYNC_IN_PHASE_RESET: a rising edge requests a decimation phase reset (R185, R308). -/
def execSyncInPhaseReset (s : State) : Host.Outcome State Fault Refusal :=
  if running s && syncFn s = 2 then .next { s with tm := { s.tm with syncReq := s.tm.syncReq ++ [none] } } else .next s

/-- SYNC_IN_CAPTURE_TRIGGER: a rising edge triggers every ring with SYNC_TRIG (R278 to R282, R308). -/
def execSyncInCaptureTrigger (cycles : Nat) (s : State) : Host.Outcome State Fault Refusal :=
  if !running s || syncFn s ≠ 3 then .next s
  else .next ((List.range 32).foldl (fun s r =>
    if bit (capWord s.cfg r 0) 6 then (capTrigger r (keyAt s cycles) 2 0xFFFF none none s).1 else s) s)

/-- SYNC_DONE: after the reset edge its SYNC descriptors complete (R187). -/
def execSyncDone (s : State) : Host.Outcome State Fault Refusal :=
  if running s then .next (finishSync s) else .next s

/-! ## Pins (R310, R311) -/

/-- TICK_OUT_FALL: 10 µs after their edge TICK_OUT and a pulse on SYNC_OUT fall. -/
def execTickOutFall (s : State) : Host.Outcome State Fault Refusal :=
  let fn := frcF s 0x101C 0 4 2
  .next { s with tm := { s.tm with tickOut := false, syncOut := if fn = 2 || fn = 3 then false else s.tm.syncOut } }

/-- SYNC_OUT_REPEAT: SYNC_IN changes level, and SYNC_OUT follows it with SYNCOUT_FN 1. -/
def execSyncOutRepeat (level : Bool) (s : State) : Host.Outcome State Fault Refusal :=
  .next { s with tm := { s.tm with syncIn := level,
                                   syncOut := if running s && frcF s 0x101C 0 4 2 = 1 then level else s.tm.syncOut } }

end Sys2Proof.Machine
end

