-- ==== Sys2Proof/Machine/DescRows.lean ====
section
/-! DEFINITION. The descriptors but COMMIT and the security ones: what each does when it executes, and what ends those that take time
(07, 08, 09, 11, 12, 15). -/

namespace Sys2Proof.Machine
open Sys2Proof

/-! ## NOP, CFG_WRITE, RULE_LOAD, SPEED_TABLE -/

/-- NOP has no operands. -/
def nopForm : DescForm := { mine := fun d => dOp d == 0x00 }

/-- NOP: completes when every earlier descriptor has (Table 12-10). -/
def execNop (d : Desc) (s : State) : Host.Outcome State Fault Refusal :=
  .next (takeDesc nopForm d (fun _ s => sweepNops s.outs s) s)

/-- CFG_WRITE: payload of 8 k + 4 bytes, k from 1 to 8,192 (Table 12-9). -/
def cfgForm : DescForm :=
  { mine := fun d => dOp d == 0x01, used := [(8, 8), (16, 4)],
    ok := fun d => dF d 16 4 % 8 == 4 && decide (12 ≤ dF d 16 4) && decide (dF d 16 4 ≤ 65540) && dF d 8 8 % 8 == 0,
    pay := fun d => some (dF d 16 4) }

/-- The entries of a CFG_WRITE: every one is checked before the first is applied (R423, R424, R432). -/
def cfgAct (d : Desc) (id : Nat) (s : State) : State :=
  let n := (dF d 16 4 - 4) / 8
  let l := cfgEnts (payload d (dF d 16 4)) 0 n
  if isSealed s then complete id 0x40 [] s
  else match firstBad l with
    | some i => complete id 0x14 (le 4 0 ++ le 4 i) s
    | none => complete id 0 (le 4 n) (cfgApply l s)

/-- CFG_WRITE (R423, R424). -/
def execCfgWrite (d : Desc) (s : State) : Host.Outcome State Fault Refusal := .next (takeDesc cfgForm d (cfgAct d) s)

/-- RULE_LOAD: COUNT entries of Table 8-3 (Table 12-9). -/
def ruleForm : DescForm :=
  { mine := fun d => dOp d == 0x08, used := [(8, 2), (10, 2), (16, 8)],
    ok := fun d => decide (1 ≤ dF d 10 2) && decide (dF d 8 2 + dF d 10 2 ≤ 1024) && dF d 16 8 % 8 == 0,
    pay := fun d => some (64 * dF d 10 2 + 4) }

/-- The entries of a RULE_LOAD: every pair is checked before the first is staged (R429, R432). -/
def ruleLoadAct (d : Desc) (id : Nat) (s : State) : State :=
  let b := payload d (64 * dF d 10 2)
  if isSealed s then complete id 0x40 (le 2 0xFFFF) s
  else match badRule b 0 (dF d 8 2) (dF d 10 2) with
    | some (r, ch) => complete id 0x16 (le 2 r) (integrity 4 r ch s)
    | none => complete id 0 (le 2 0xFFFF) (stageRules b 0 (dF d 8 2) (dF d 10 2) s)

/-- RULE_LOAD (R291, R293, R429). -/
def execRuleLoad (d : Desc) (s : State) : Host.Outcome State Fault Refusal := .next (takeDesc ruleForm d (ruleLoadAct d) s)

/-- SPEED_TABLE: 32 edges of a reference (Table 12-9). -/
def speedForm : DescForm :=
  { mine := fun d => dOp d == 0x09, used := [(8, 1), (16, 8)], ok := fun d => decide (dF d 8 1 < 16) && dF d 16 8 % 8 == 0,
    pay := fun _ => some 132 }

/-- SPEED_TABLE (R429, R432). -/
def execSpeedTable (d : Desc) (s : State) : Host.Outcome State Fault Refusal :=
  .next (takeDesc speedForm d (fun id s =>
    if isSealed s then complete id 0x40 [] s
    else complete id 0 [] (stageEdges (payload d 128) 0 (dF d 8 1) s)) s)

/-! ## SNAP, OUTPUT_SET -/

/-- SNAP: by fronds and positions, or by bitmap (Table 12-9). -/
def snapForm : DescForm :=
  { mine := fun d => dOp d == 0x03, tmo := true, used := [(8, 4), (12, 2), (14, 1), (16, 8)],
    ok := fun d => decide (dF d 14 1 ≤ 1) && dF d 16 8 % 8 == 0 &&
      (dF d 14 1 == 0 || (dF d 8 4 == 0 && dF d 12 2 == 0 && dF d 16 8 != 0)),
    pay := fun d => if dF d 14 1 = 1 then some 68 else none }

/-- The channels that a SNAP selects. -/
def snapSel (d : Desc) : List Nat :=
  if dF d 14 1 = 1 then bits 512 (getLE (payload d 68) 0 64)
  else allChans.filter (fun ch => (dF d 8 4).testBit (ch / 16) && (dF d 12 2).testBit (ch % 16))

/-- A SNAP with its core stamp at `cycles`, or as soon after as 2 µs from the last snap order on each link it uses allow: the DS frames with their
SNAP_DESC orders, and the conversion that they snap (R131 to R133, R340, R342, R427). -/
def snapAct (d : Desc) (cycles id : Nat) (s : State) : State :=
  let sel := snapSel d
  if sel = [] then complete id 0x14 [] s
  else
    let fs := allFronds.filter (fun f => sel.any (fun ch => ch / 16 == f))
    let at_ := fs.foldl (fun m f => max m (snapStamp s f cycles)) cycles
    let req := requestTime at_
    let key := coreCycle s at_
    let s := fs.foldl (fun s f =>
      sendOrder f 0x5C (BitVec.ofNat 8 req)
        (sendDown f 0x18 (le 2 (mask ((sel.filter (fun ch => ch / 16 == f)).map (· % 16))))
          (modFrond f (fun x => { x with lastSnap := some key }) s))) s
    let conv := cdiv req 64
    let next := decide (conv ≥ 512 * steps s)
    let q : SnapReq := { id := id, tick := if next then s.tm.count + 1 else s.tm.count,
                         conv := if next then conv - 512 * steps s else conv, sel := sel, left := fs, map := BitVec.ofNat 64 (dF d 16 8) }
    { s with snaps := s.snaps ++ [q] }

/-- SNAP; `cycles` core cycles after the tick edge its last DS frame could leave (R340). -/
def execSnap (d : Desc) (cycles : Nat) (s : State) : Host.Outcome State Fault Refusal :=
  .next (takeDesc snapForm d (snapAct d cycles) s)

/-- OUTPUT_SET: a channel and a value pair (Table 12-9). -/
def outForm : DescForm :=
  { mine := fun d => dOp d == 0x04, tmo := true, used := [(8, 2), (12, 4), (16, 4)], ok := fun d => decide (dF d 8 2 < 512),
    obj := fun d => dF d 8 2 }

/-- The checks of R426 at execution; the value then goes in the next downlink superframe. -/
def outAct (d : Desc) (id : Nat) (s : State) : State :=
  let ch := dF d 8 2
  let v : Word := BitVec.ofNat 32 (dF d 12 4)
  if BitVec.ofNat 32 (dF d 16 4) ≠ ~~~v then complete id 0x16 (outResult 0 (valueOf s ch)) (integrity 5 0 ch s)
  else if fld v 16 2 = 3 || fld v 18 14 ≠ 0 then complete id 0x15 (outResult 0 (valueOf s ch)) s
  else queueOut ch v (some id) false s

/-- OUTPUT_SET (R23, R24, R426). -/
def execOutputSet (d : Desc) (s : State) : Host.Outcome State Fault Refusal := .next (takeDesc outForm d (outAct d) s)

/-! ## CAPTURE_ARM -/

/-- CAPTURE_ARM with an ACTION; one that Table 12-9 does not list is refused by whichever row takes it. -/
def capForm (action : Nat) : DescForm :=
  { mine := fun d => dOp d == 0x05 && (dF d 9 1 == action || decide (dF d 9 1 ≥ 3)), tmo := action == 2,
    used := [(8, 1), (9, 1), (10, 1), (12, 6)],
    ok := fun d => dF d 9 1 == action && decide (dF d 8 1 < 32) && decide (dF d 10 1 ≤ 1), obj := fun d => dF d 8 1 }

/-- ARM or DISARM of a ring that is enabled in force (R287, R288). -/
def armAct (d : Desc) (on : Bool) (id : Nat) (s : State) : State :=
  if !capEn s.cfg (dF d 8 1) then complete id 0x15 [] s
  else complete id 0 [] (modCap (dF d 8 1) (fun x => { x with armed := on }) s)

/-- ARM (R287). -/
def execArm (d : Desc) (s : State) : Host.Outcome State Fault Refusal := .next (takeDesc (capForm 0) d (armAct d true) s)

/-- DISARM (R287). -/
def execDisarm (d : Desc) (s : State) : Host.Outcome State Fault Refusal := .next (takeDesc (capForm 1) d (armAct d false) s)

/-- TRIGGER of a ring, stamped `cycles` core cycles after the tick edge (R278 to R282, R287, R288). R287 refuses a rewind tick later than
the trigger frame's without naming the status: REFUSED (DESIGN CHOICE, log 80). -/
def triggerAct (d : Desc) (cycles id : Nat) (s : State) : State :=
  let r := dF d 8 1
  let rw := dF d 12 6
  let key := keyAt s cycles
  let busy := match (capRing s r).run with
    | some c => c.key != key
    | none => false
  if !capEn s.cfg r then complete id 0x15 [] s
  else if busy then complete id 0x31 [] (capTrigger r key 4 0xFFFF none none s).1
  else if dF d 10 1 = 1 && decide (rw > (frameAt s.cfg r s (cdiv key 125000)).2.1.toNat) then complete id 0x15 [] s
  else (capTrigger r key 4 0xFFFF (some id) (if dF d 10 1 = 1 then some (BitVec.ofNat 48 rw) else none) s).1

/-- TRIGGER (R287). -/
def execTrigger (d : Desc) (cycles : Nat) (s : State) : Host.Outcome State Fault Refusal :=
  .next (takeDesc (capForm 2) d (triggerAct d cycles) s)

/-! ## MAP_READ, FLUSH, SYNC, CVU_RUN -/

/-- MAP_READ: destination, first cell, cells (R271). -/
def mapForm : DescForm :=
  { mine := fun d => dOp d == 0x06, tmo := true, used := [(8, 8), (16, 4), (20, 4)],
    ok := fun d => dF d 8 8 % 32 == 0 && decide (1 ≤ dF d 20 4) && decide (dF d 16 4 + dF d 20 4 ≤ 2 ^ 20) }

/-- MAP_READ: the transfer begins (R271). -/
def execMapRead (d : Desc) (s : State) : Host.Outcome State Fault Refusal :=
  .next (takeDesc mapForm d (fun id s =>
    { s with xfers := s.xfers ++ [⟨id, BitVec.ofNat 64 (dF d 8 8), dF d 16 4, dF d 20 4, 0⟩] }) s)

/-- MAP_READ_DONE: the oldest transfer reads what the reserve of the step still allows, and ends once it has read its last cell
(R271, R273, R428). -/
def execMapReadDone (s : State) : Host.Outcome State Fault Refusal :=
  if !running s then .next s
  else
    let s := mapPull (2 ^ 20) s
    match s.xfers with
    | x :: _ => .next (if x.done = x.count then mapEnd x 0 s else s)
    | [] => .next s

/-- FLUSH of a queue (Table 12-9). -/
def flushForm : DescForm := { mine := fun d => dOp d == 0x07, tmo := true, used := [(8, 1)], obj := fun d => dF d 8 1 }

/-- FLUSH: at once where no packet is in delivery, otherwise at the next packet boundary (R379, R380). -/
def flushAct (d : Desc) (id : Nat) (s : State) : State :=
  let q := dF d 8 1
  let s := { s with queues := tmod {} s.queues q (fun x => { x with flush := x.flush ++ [id] }) }
  if (queue s q).cur.isNone then flushNow q s else s

/-- FLUSH (R379). -/
def execFlush (d : Desc) (s : State) : Host.Outcome State Fault Refusal := .next (takeDesc flushForm d (flushAct d) s)

/-- SYNC has no operands. -/
def syncForm : DescForm := { mine := fun d => dOp d == 0x0A, tmo := true }

/-- SYNC: a decimation phase reset at edge N+2 of the tick of execution (R185, R186). -/
def execSync (d : Desc) (s : State) : Host.Outcome State Fault Refusal :=
  .next (takeDesc syncForm d (fun id s =>
    modOut id (fun o => { o with val := now s + 2 }) { s with tm := { s.tm with syncReq := s.tm.syncReq ++ [some id] } }) s)

/-- CVU_RUN: a unit, its algorithm and bytes, without a CRC (R393, R430). -/
def cvuForm : DescForm :=
  { mine := fun d => dOp d == 0x0C, tmo := true, used := [(8, 1), (9, 1), (10, 1), (12, 4), (16, 8)],
    ok := fun d => decide (dF d 8 1 < 4) && (decide (dF d 9 1 ≤ 4) || dF d 9 1 == 0xFF) && decide (dF d 10 1 ≤ 1) &&
      decide (1 ≤ dF d 12 4) && decide (dF d 12 4 ≤ 2 ^ 24) && dF d 16 8 % 8 == 0,
    obj := fun d => dF d 8 1, wait := fun d s => (cvu s (dF d 8 1)).owned }

/-- CVU_RUN: the unit belongs to the descriptor from here on; an earlier owner is waited for (R400, R430). -/
def execCvuRun (d : Desc) (s : State) : Host.Outcome State Fault Refusal :=
  .next (takeDesc cvuForm d (fun id s =>
    let s := modOut id (fun o => { o with data := payload d (dF d 12 4) }) s
    { s with cvu := tmod {} s.cvu (dF d 8 1) (fun x =>
        let x := if dF d 9 1 ≤ 4 then cvuLoad (dF d 9 1) x else if dF d 10 1 = 1 then cvuLoad x.alg x else x
        { x with owned := true }) }) s)

/-- CVU_RUN_DONE: the last byte of unit u's CVU_RUN has been fed (R400). -/
def execCvuRunDone (u : Nat) (s : State) : Host.Outcome State Fault Refusal :=
  match s.outs.find? (fun o => o.opcode == 0x0C && o.obj == u) with
  | some o => if running s then .next (cvuEnd o o.data.length 0 s) else .next s
  | none => .next s

/-! ## Deadlines (R421) -/

/-- TIMEOUT of the descriptor with this DIDX that has a TMO whose deadline falls no later than this tick (R421). -/
def execTimeout (didx : Half) (n : Nat) (s : State) : Host.Outcome State Fault Refusal :=
  if !running s then .next s
  else match s.outs.find? (fun o => o.didx == didx && o.tmo != 0) with
    | some o => .next (if o.due < s.abs + 32768 * steps s then timeOut o n s else s)
    | none => .next s

/-- BAD_OPCODE: an opcode of 0x0F or above (R422). -/
def execBadOpcode (d : Desc) (s : State) : Host.Outcome State Fault Refusal :=
  let a : Byte := BitVec.ofNat 8 (dF d 1 1)
  if !canTake s || dOp d < 0x0F then .next s
  else if a ≠ s.expAlive || !dCrcOk d then .next (takeDesc { mine := fun _ => false } d (fun _ s => s) s)
  else .next (refuseDesc d 0x13 (acceptAlive d s))

/-! ## FAULT_CLEAR (R104, R114, R504 to R507) -/

/-- FAULT_CLEAR with a SCOPE; one that Table 12-9 does not list is refused by whichever row takes it. -/
def clearForm (scope limit : Nat) : DescForm :=
  { mine := fun d => dOp d == 0x0B && (dF d 8 1 == scope || decide (dF d 8 1 ≥ 4)), tmo := true,
    used := [(8, 1), (10, 2), (12, 2)],
    ok := fun d => dF d 8 1 == scope && decide (dF d 10 2 < limit) &&
      (if scope = 2 ∧ 0xC0 ≤ dF d 10 2 then decide (dF d 12 2 < 512) else dF d 12 2 == 0) }

/-- A clear on its way to a position of a frond, 16 for the frond itself (R114). -/
def sendClear (f pos : Nat) (did : Option Nat) (s : State) : State :=
  modFrond f (fun x => { x with clr := x.clr ++ [{ pos := pos, did := did }] }) s

/-- FAULT_CLEAR of a channel (R104, R114). -/
def execFaultClearChannel (d : Desc) (s : State) : Host.Outcome State Fault Refusal :=
  .next (takeDesc (clearForm 0 512) d (fun id s =>
    let ch := dF d 10 2
    if (chan s ch).diag.testBit 12 && (chan s ch).diag.testBit 9 then complete id 0x15 [] s
    else sendClear (ch / 16) (ch % 16) (some id) s) s)

/-- FAULT_CLEAR of a frond: refused while a core source or one of its own causes holds it (R114, R505, R506). -/
def clearFrondAct (d : Desc) (id : Nat) (s : State) : State :=
  let f := dF d 10 2
  let x := fieldOf s f
  let held := s.srcs.any (fun e => e.2.esc && !e.2.met && !e.2.event && srcFrond (e.1 / 1024) (e.1 % 1024) == some f && decide (e.1 / 1024 < 0xC0))
  if safeHeld s f || (x.causes &&& safeCauses &&& (511 - x.met % 512)) ≠ 0 || held then complete id 0x15 [] s
  else
    let mine := s.srcs.filter (fun e => (e.1 / 1024 == 0x80 + f || e.1 / 1024 == 0xA0 + f) && (e.2.event || (e.2.esc && e.2.met)))
    let s := mine.foldl (fun s e => dropSrc (e.1 / 1024) (e.1 % 1024) s) s
    let ordered := (frond s f).safeOrder
    let s := modFrond f (fun x => { x with safeOrder := false }) s
    if (frond s f).rep.safe || ordered then sendClear f 16 (some id) s
    else
      let s := if (frond s f).rep.fpair ≠ 0 then sendClear f 16 none s else s
      complete id 0 (le 6 (now s)) s

/-- FAULT_CLEAR of a frond (R505). -/
def execFaultClearFrond (d : Desc) (s : State) : Host.Outcome State Fault Refusal :=
  .next (takeDesc (clearForm 1 32) d (clearFrondAct d) s)

/-- Frond f has no active SAFE or escalated source in whose scope it lies (R506). -/
def unheld (s : State) (f : Nat) : Bool :=
  !s.srcs.any (fun e => decide (effCls e.2 ≥ 3) && (scope s (e.1 / 1024) (e.1 % 1024) e.2.ctx).contains f)

/-- A cleared source of class SAFE, or an escalated one, releases the fronds that nothing else holds, those too whose safe state U0 has
not shown yet; the clear completes at the last edge, or at once where it releases none (R506). -/
def release (x : Src) (fs : List Nat) (id : Nat) (s : State) : State :=
  let go := if effCls x = 3 then fs.filter (fun f => ((frond s f).rep.safe || (frond s f).safeOrder) && unheld s f) else []
  if go = [] then complete id 0 (le 6 (now s)) s
  else go.foldl (fun s f => sendClear f 16 (some id) (modFrond f (fun x => { x with safeOrder := false }) s)) s

/-- The condition of an active source no longer holds, so SCOPE 2 may clear it (R494, R504, R555); SIGNAL_PATH needs every path opposite
for 64 cycles. -/
def clearable (s : State) (id sub : Nat) (x : Src) : Bool :=
  x.event || (if id = 0x1E then !s.pwr.above else x.met || condGone s id sub) ||
  (id == 0x3F && s.badPaths.all (fun e => decide (e.2.2.2 ≥ 64)))

/-- The channel or cause that SCOPE 2 names: of a frond's sources INTEGRITY, of a link one of its active causes (R504, Table 10-8). -/
def clearSub (d : Desc) (s : State) : Nat :=
  let src := dF d 10 2
  if 0xC0 ≤ src then dF d 12 2 else if 0x80 ≤ src then 8
  else if 0x40 ≤ src then (if srcActive s src 0 then 0 else if srcActive s src 1 then 1 else 2) else 0

/-- FAULT_CLEAR of a source, of one channel for a per-channel source; of a frond's sources only INTEGRITY (R504, R506). -/
def clearSourceAct (d : Desc) (id : Nat) (s : State) : State :=
  let src := dF d 10 2
  let sub := clearSub d s
  match s.srcs.find? (fun e => e.1 == srcKey src sub) with
  | none => complete id 0 (le 6 (now s)) s
  | some (_, x) =>
    if !clearable s src sub x then complete id 0x15 [] s
    else
      let fs := scope s src sub x.ctx
      let s := dropSrc src sub (if src = 0x3F then { s with badPaths := [] } else s)
      release x fs id s

/-- FAULT_CLEAR of a source (R504). -/
def execFaultClearSource (d : Desc) (s : State) : Host.Outcome State Fault Refusal :=
  .next (takeDesc (clearForm 2 256) d (clearSourceAct d) s)

/-- FAULT_CLEAR of the latch: emptied with OVERFLOW and FLT_COUNT, and its CLEARED record (R502, R507). -/
def clearLatchAct (id : Nat) (s : State) : State :=
  let s := match s.latch with
    | some l => faultRec l.id l.sub (wholeCls s l.id l.cls) 17 s.fltCount l.ctx s.tm.count s
    | none => s
  complete id 0 (le 6 (now s)) { s with latch := none, overflow := false, fltCount := 0 }

/-- FAULT_CLEAR of the latch (R507). -/
def execFaultClearLatch (d : Desc) (s : State) : Host.Outcome State Fault Refusal :=
  .next (takeDesc (clearForm 3 1) d clearLatchAct s)

end Sys2Proof.Machine
end

