-- ==== Sys2Proof/Machine/SecRows.lean ====
section
/-! DEFINITION. SEC_OP, BLOB_LOAD and the events of the security subsystem (16). -/

namespace Sys2Proof.Machine
open Sys2Proof

/-! ## Tokens (R539, Table 16-10) -/

/-- DATA of a token. -/
def tokData (b : List Byte) : List Byte := (b.drop 32).take (getLE b 28 4)

/-- PARAM of a token. -/
def tokParam (b : List Byte) : Nat := getLE b 3 1

/-- The public key that a KEY byte names: the owner root or the maker token key. -/
def tokKey (s : State) (key : Nat) : Option (List Byte) :=
  if key = 0xFF then some Config.makerKey else if key = 0 then (s.sec.keys.find? (fun e => e.1 == 0)).map (·.2) else none

/-- A token is accepted for an operation under the KEY that the operation permits (R539). -/
def tokenOk (s : State) (op key : Nat) (b : List Byte) : Bool :=
  let n := 32 + getLE b 28 4
  b.length == n + 100 && getLE b 0 2 == op && getLE b 2 1 == key && getLE b 4 8 == Config.serial.toNat &&
  (s.sec.nonce.any (fun x => x == (b.drop 12).take 16)) &&
  (tokKey s key).any (fun k => Config.ecdsaOk k (b.take n) ((b.drop n).take 96))

/-- A new root key proves its possession over the nonce as well (R528). -/
def rootProof (s : State) (b : List Byte) : Bool :=
  let k := tokData b
  tokParam b != 0 || k.length != 192 || s.sec.nonce.any (fun n => Config.ecdsaOk (k.take 96) n (k.drop 96))

/-- The nonce is consumed (R539). -/
def useNonce (s : State) : State := { s with sec := { s.sec with nonce := none } }

/-! ## Transitions (R533 to R537, Table 16-8) -/

/-- A new life-cycle state: a slot is programmed, VOID has a fuse of its own; the unlock token ends, DBG_CTL is closed on entry to
OWNED, SEALED and VOID, and approved mode breaks where the state leaves OWNED and SEALED (R456, R517, R535). -/
def enterState (nx : Nat) (s : State) : State :=
  let x := s.sec
  let s := { s with sec := { x with
    lc := nx, slots := if nx = lcVoid then x.slots else x.slots + 1, unlocked := false,
    dbg := if nx = lcOwned || nx = lcSealed || nx = lcVoid then 0 else x.dbg } }
  if nx = lcOwned || nx = lcSealed then s else secBreak 1 s

/-- A free slot is left for a transition (R535). -/
def slotLeft (s : State) : Bool := decide (s.sec.slots < 64)

/-- Every management session ends, and its requests with it. -/
def closeSessions (s : State) : State := { s with net := { s.net with sessions := [], asked := [] } }

/-- Zeroisation of owner material (Table 16-3, RETURN column): the owner epoch advances, which leaves nothing that the owner wrap key
protects; keys, LDevID, volatile secrets, configuration store, BLOB_SEQ. -/
def zeroise (s : State) : State :=
  let bare := fun (x : Port) => { x with macsec := false, txAn := false, tx0 := none, tx1 := none, rx0 := none, rx1 := none }
  let n := s.net
  macsecSrc { s with
    sec := { s.sec with ownerEpoch := s.sec.ownerEpoch + 1, keys := [], ldev := none, ldevCert := none, nonce := none, unlocked := false, blobSeq := 0, storeA := [], storeB := [] },
    net := { n with sessions := [], asked := [], p0 := bare n.p0, p1 := bare n.p1 } }

/-- Zeroisation on entry to VOID: the device unique secret and the IDevID key as well (Table 16-3). -/
def zeroiseVoid (s : State) : State :=
  let s := zeroise s
  { s with sec := { s.sec with destroyed := true, idev := false } }

/-- The booted image. -/
def runImage (s : State) : List Byte := if s.sec.bootB then s.sec.imgB else s.sec.imgA

/-- SECVER of an image. -/
def secVer (img : List Byte) : Nat := fld (Config.imageVersion img) 16 16

/-- An image is bootable (R522). -/
def bootable (s : State) (img : List Byte) : Bool := Config.imageOk img && decide (s.sec.rollback ≤ secVer img)

/-! ## The form of a SEC_OP (R540, Table 16-11) -/

/-- The operations of Table 16-11. -/
def secOps : List Nat := [0x01, 0x02, 0x03, 0x10, 0x11, 0x20, 0x21, 0x30, 0x31, 0x32, 0x33, 0x34, 0x40, 0x41, 0x50, 0x51, 0x60]

/-- What an operation's ADDR and LEN give. -/
inductive SecPay where
  | none
  | out
  | input
  deriving DecidableEq, Repr

/-- The descriptor of an operation; an OP that Table 16-11 does not list is refused by whichever row takes it. -/
def secForm (op : Nat) (pay : SecPay) : DescForm :=
  { mine := fun d => dOp d == 0x0D && (dF d 8 2 == op || !secOps.contains (dF d 8 2)), used := [(8, 2), (12, 4), (16, 8)],
    ok := fun d => dF d 8 2 == op && dF d 16 8 % 8 == 0 && (pay != SecPay.none || (dF d 12 4 == 0 && dF d 16 8 == 0)),
    pay := fun d => if pay = .input then some (dF d 12 4) else Option.none, obj := fun _ => op }

/-- The checks of an operation before its own: working copies, crypto error state, life-cycle state, preconditions (R520, R533,
R540). -/
def secGate (op : Nat) (states : List Nat) (pre : State → Bool) (copyBad otpBad : Bool) (id : Nat) (act : State → State) (s : State) : State :=
  let s := lifeCycleCheck copyBad otpBad s
  if !s.sec.otpOk || (s.sec.cryptoErr && op ≠ 0x03 && op ≠ 0x21) then complete id 0x42 [] s
  else if !states.contains s.sec.lc then complete id 0x40 [] s
  else if !pre s then complete id 0x42 [] s
  else act s

/-- The states but VOID. -/
def notVoid : List Nat := [lcFab, lcMaker, lcOwned, lcSealed, lcReturn]

/-- An operation without a token. -/
def plainOp (op : Nat) (pay : SecPay) (states : List Nat) (pre : State → Bool) (act : List Byte → Nat → State → State)
    (d : Desc) (copyBad otpBad : Bool) (s : State) : State :=
  takeDesc (secForm op pay) d (fun id s => secGate op states pre copyBad otpBad id (act (payload d (dF d 12 4)) id) s) s

/-- A token-bearing operation: AUTH_LOCK, then the token under the KEY for the present state; the nonce goes either way (R539, R541,
R542). `act` sees the state with the nonce still in force. -/
def tokenOp (op : Nat) (states : List Nat) (key : State → Nat) (pre : State → Bool) (act : List Byte → Nat → State → State)
    (d : Desc) (copyBad otpBad : Bool) (s : State) : State :=
  plainOp op .input states (fun s => pre s && !s.sec.authLock) (fun b id s =>
    if tokenOk s op (key s) b && (op != 0x11 || rootProof s b) then act b id (authPassed s)
    else complete id 0x41 [] (authFailed 1 op (useNonce s))) d copyBad otpBad s

/-- Writes an output buffer, data and CRC, and completes with the bytes written; a buffer too small is no valid operand. -/
def secOut (d : Desc) (data : List Byte) (id : Nat) (s : State) : State :=
  let b := withCrc data
  if b.length > dF d 12 4 then complete id 0x14 [] s
  else
    let live := (outOf s id).any (fun o => !o.lost)
    complete id 0 (le 4 b.length) (if live then outp (.hostWrite (BitVec.ofNat 64 (dF d 16 8)) b) s else s)

/-- A transition and its completion with the new state (Table 16-11). -/
def moveTo (nx id : Nat) (s : State) : State := complete id 0 (le 1 nx) (enterState nx s)

/-! ## Operations -/

/-- GET_NONCE replaces the nonce in force (R539). -/
def execGetNonce (d : Desc) (copyBad otpBad : Bool) (s : State) : Host.Outcome State Fault Refusal :=
  .next (plainOp 0x01 .none notVoid (fun _ => true) (fun _ id s =>
    let n := padTo 16 (Config.random s.sec.draws)
    complete id 0 n { s with sec := { s.sec with nonce := some n, draws := s.sec.draws + 1 } }) d copyBad otpBad s)

/-- GET_IDENTITY: the certificates, IDevID then LDevID. -/
def execGetIdentity (d : Desc) (copyBad otpBad : Bool) (s : State) : Host.Outcome State Fault Refusal :=
  .next (plainOp 0x02 .out notVoid (fun _ => true) (fun _ id s =>
    secOut d (Config.idevid ++ s.sec.ldevCert.getD []) id s) d copyBad otpBad s)

/-- GET_STATE. -/
def execGetState (d : Desc) (copyBad otpBad : Bool) (s : State) : Host.Outcome State Fault Refusal :=
  .next (plainOp 0x03 .none notVoid (fun _ => true) (fun _ id s =>
    complete id 0 (le 4 s.sec.blobSeq ++ le 1 (mask ((List.range 4).filter (fun i => s.sec.keys.any (fun e => e.1 == i)))) ++
      le 1 s.sec.rollback ++ le 1 (min 255 s.sec.fails) ++ le 1 s.sec.slots) s) d copyBad otpBad s)

/-- TAKE_OWNERSHIP: proof of possession by the new root key over nonce and serial; the configuration store is cleared and slot 0
installed (Tables 16-8, 16-11). -/
def execTakeOwnership (d : Desc) (copyBad otpBad : Bool) (s : State) : Host.Outcome State Fault Refusal :=
  .next (plainOp 0x10 .input [lcMaker] (fun s => slotLeft s && !s.sec.keys.any (fun e => e.1 == 0)) (fun b id s =>
    let key := b.take 96
    let ok := b.length == 196 && s.sec.nonce.any (fun n => Config.ecdsaOk key (n ++ le 8 Config.serial.toNat) ((b.drop 96).take 96))
    let s := useNonce s
    if ok then moveTo lcOwned id { s with sec := { s.sec with keys := tput s.sec.keys 0 key, storeA := [], storeB := [] } }
    else complete id 0x41 [] s) d copyBad otpBad s)

/-- KEY_INSTALL: slots 1 to 3 are filled or emptied, the root key is replaced (R528). -/
def keyInstall (b : List Byte) (id : Nat) (s : State) : State :=
  let k := tokData b
  let slot := tokParam b
  let s := useNonce s
  if slot = 0 then
    if k.length ≠ 192 then complete id 0x14 [] s
    else if (k.take 96).all (· == 0) then complete id 0x42 [] s
    else complete id 0 (le 1 0) { s with sec := { s.sec with keys := tput s.sec.keys 0 (k.take 96) } }
  else if slot > 3 || k.length ≠ 96 then complete id 0x14 [] s
  else
    let keys := if k.all (· == 0) then tfilter s.sec.keys (fun i _ => i != slot) else tput s.sec.keys slot k
    complete id 0 (le 1 slot) { s with sec := { s.sec with keys := keys } }

/-- KEY_INSTALL (R528). -/
def execKeyInstall (d : Desc) (copyBad otpBad : Bool) (s : State) : Host.Outcome State Fault Refusal :=
  .next (tokenOp 0x11 [lcOwned, lcSealed] (fun _ => 0) (fun _ => true) keyInstall d copyBad otpBad s)

/-- UNLOCK: an unlock token is in force; approved mode breaks (R517). -/
def execUnlock (d : Desc) (copyBad otpBad : Bool) (s : State) : Host.Outcome State Fault Refusal :=
  .next (tokenOp 0x20 [lcOwned, lcReturn] (fun s => if s.sec.lc = lcReturn then 0xFF else 0) (fun _ => true) (fun _ id s =>
    let s := useNonce s
    complete id 0 [] (secBreak 5 { s with sec := { s.sec with unlocked := true } })) d copyBad otpBad s)

/-- RELOCK: unlock ended and DBG_CTL 0. -/
def execRelock (d : Desc) (copyBad otpBad : Bool) (s : State) : Host.Outcome State Fault Refusal :=
  .next (plainOp 0x21 .none notVoid (fun _ => true) (fun _ id s =>
    complete id 0 [] { s with sec := { s.sec with unlocked := false, dbg := 0 } }) d copyBad otpBad s)

/-- SEAL: OWNED to SEALED while no unlock token is in force. -/
def execSeal (d : Desc) (copyBad otpBad : Bool) (s : State) : Host.Outcome State Fault Refusal :=
  .next (tokenOp 0x30 [lcOwned] (fun _ => 0) (fun s => slotLeft s && !s.sec.unlocked) (fun _ id s =>
    moveTo lcSealed id (useNonce s)) d copyBad otpBad s)

/-- Physical presence is consumed (R538). -/
def usePresence (s : State) : State := { s with sec := { s.sec with presence := false } }

/-- UNSEAL: SEALED to OWNED with physical presence. -/
def execUnseal (d : Desc) (copyBad otpBad : Bool) (s : State) : Host.Outcome State Fault Refusal :=
  .next (tokenOp 0x31 [lcSealed] (fun _ => 0) (fun s => slotLeft s && s.sec.presence) (fun _ id s =>
    moveTo lcOwned id (usePresence (useNonce s))) d copyBad otpBad s)

/-- RMA: RETURN is programmed first, then the owner material is zeroised; it completes when that is recorded (R537). -/
def execRma (d : Desc) (copyBad otpBad : Bool) (s : State) : Host.Outcome State Fault Refusal :=
  .next (tokenOp 0x32 [lcOwned, lcSealed] (fun _ => 0)
    (fun s => slotLeft s && s.sec.presence && s.tm.epoch == 0 && s.pend.isNone) (fun _ _ s =>
    let s := zeroise (enterState lcReturn (usePresence (useNonce s)))
    { s with sec := { s.sec with zeroDone := false } }) d copyBad otpBad s)

/-- ZEROISATION_COMPLETE: the boot record says so, and RMA completes (R537). -/
def execZeroisationComplete (s : State) : Host.Outcome State Fault Refusal :=
  if s.sec.zeroDone then .next s
  else
    let s := { s with sec := { s.sec with zeroDone := true } }
    .next (completeOpt ((s.outs.find? (fun o => o.opcode == 0x0D && o.obj == 0x32)).map (·.id)) 0 (le 1 lcReturn) s)

/-- MAKER_RESTORE: RETURN to MAKER once the zeroisation is recorded complete. -/
def execMakerRestore (d : Desc) (copyBad otpBad : Bool) (s : State) : Host.Outcome State Fault Refusal :=
  .next (tokenOp 0x33 [lcReturn] (fun _ => 0xFF) (fun s => slotLeft s && s.sec.zeroDone) (fun _ id s =>
    moveTo lcMaker id (useNonce s)) d copyBad otpBad s)

/-- Owner-signed VOID: from OWNED and SEALED. -/
def ownedOrSealed (s : State) : Bool := s.sec.lc == lcOwned || s.sec.lc == lcSealed

/-- VOID: zeroised before its fuse is programmed; the owner's needs physical presence (Table 16-8, R535, R537). -/
def execVoid (d : Desc) (copyBad otpBad : Bool) (s : State) : Host.Outcome State Fault Refusal :=
  .next (tokenOp 0x34 notVoid (fun s => if ownedOrSealed s then 0 else 0xFF) (fun s => !ownedOrSealed s || s.sec.presence) (fun _ id s =>
    moveTo lcVoid id (zeroiseVoid (if ownedOrSealed s then usePresence (useNonce s) else useNonce s))) d copyBad otpBad s)

/-! ## Firmware (R523, R524) -/

/-- A chunk of an image at its OFFSET; the last one is checked under R522 (R523, R524). What FW_UPDATE does with a TOTAL beyond the 14 MiB
of the image region of Table 16-5 the spec does not say: any TOTAL is taken (DESIGN CHOICE, log 83). -/
def fwChunk (b : List Byte) (id : Nat) (s : State) : State :=
  let ofs := getLE b 0 4
  let total := getLE b 4 4
  let data := (b.drop 8).take (b.length - 12)
  let x := s.sec
  if ofs ≠ 0 && ofs ≠ x.part.length then complete id 0x42 [] s
  else if ofs + data.length > total then complete id 0x14 [] s
  else
    let img := (if ofs = 0 then [] else x.part) ++ data
    let x := if x.bootB then { x with imgA := img, part := img } else { x with imgB := img, part := img }
    if img.length < total then complete id 0 (le 4 img.length ++ [0]) { s with sec := x }
    else
      let s := { s with sec := { x with part := [] } }
      if bootable s img then
        complete id 0 (le 4 img.length ++ [1]) (authPassed { s with sec := { s.sec with pref := !s.sec.bootB, trialRec := true } })
      else complete id 0x41 [] (authFailed 3 0x40 s)

/-- FW_UPDATE: the form of its descriptor, whose payload is a chunk of at most 256 KiB with OFFSET, TOTAL and CRC (R524). -/
def fwForm : DescForm :=
  { secForm 0x40 .input with
    ok := fun d => (secForm 0x40 .input).ok d && decide (12 ≤ dF d 12 4) && decide (dF d 12 4 ≤ 262156) }

/-- FW_UPDATE: refused while TRIAL is 1 (R524). -/
def execFwUpdate (d : Desc) (copyBad otpBad : Bool) (s : State) : Host.Outcome State Fault Refusal :=
  .next (takeDesc fwForm d (fun id s =>
    secGate 0x40 [lcFab, lcMaker, lcOwned, lcSealed] (fun s => !s.sec.trial) copyBad otpBad id (fwChunk (payload d (dF d 12 4)) id) s) s)

/-- FW_CONFIRM: TRIAL ends, and the rollback counter rises to the running image's SECVER. While TRIAL is 0 the boot record keeps the trial of
an image that waits for its first boot (R523). -/
def execFwConfirm (d : Desc) (copyBad otpBad : Bool) (s : State) : Host.Outcome State Fault Refusal :=
  .next (plainOp 0x41 .none notVoid (fun _ => true) (fun _ id s =>
    let r := max s.sec.rollback (secVer (runImage s))
    complete id 0 (le 1 r) { s with sec := { s.sec with trial := false, trialRec := s.sec.trialRec && !s.sec.trial, rollback := r } }) d copyBad otpBad s)

/-! ## DevID, self-test (R519 to R521, R529) -/

/-- LDEVID_GEN: a new key pair, of which the public key is returned. -/
def execLdevidGen (d : Desc) (copyBad otpBad : Bool) (s : State) : Host.Outcome State Fault Refusal :=
  .next (plainOp 0x50 .out [lcOwned, lcSealed] (fun _ => true) (fun _ id s =>
    if dF d 12 4 < 100 then complete id 0x14 [] s
    else
      let k := padTo 96 (Config.keyPair s.sec.draws)
      secOut d k id { s with sec := { s.sec with ldev := some k, draws := s.sec.draws + 1 } }) d copyBad otpBad s)

/-- LDEVID_INSTALL: a certificate for the key of LDEVID_GEN. -/
def execLdevidInstall (d : Desc) (copyBad otpBad : Bool) (s : State) : Host.Outcome State Fault Refusal :=
  .next (tokenOp 0x51 [lcOwned, lcSealed] (fun _ => 0) (fun s => s.sec.ldev.isSome) (fun b id s =>
    let s := useNonce s
    complete id 0 [] { s with sec := { s.sec with ldevCert := some (tokData b) } }) d copyBad otpBad s)

/-- SELF_TEST begins (R521). -/
def execSelfTest (d : Desc) (copyBad otpBad : Bool) (s : State) : Host.Outcome State Fault Refusal :=
  .next (plainOp 0x60 .none notVoid (fun _ => true) (fun _ _ s => s) d copyBad otpBad s)

/-- The crypto error state: approved mode breaks and TLS sessions close (R520). -/
def cryptoError (s : State) : State := closeSessions (secBreak 6 { s with sec := { s.sec with cryptoErr := true } })

/-- SELF_TEST_DONE with 0, or the algorithm that failed, which is the crypto error state (R519, R521). -/
def execSelfTestDone (alg : Nat) (s : State) : Host.Outcome State Fault Refusal :=
  match s.outs.find? (fun o => o.opcode == 0x0D && o.obj == 0x60) with
  | some o => if running s then .next (complete o.id 0 (le 1 alg) (if alg = 0 then s else cryptoError s)) else .next s
  | none => .next s

/-- CRYPTO_ERROR: an entropy or pairwise consistency test fails, from boot start on; at BOOT_DONE it is condition 6 (R516, R520). -/
def execCryptoError (s : State) : Host.Outcome State Fault Refusal :=
  if running s || s.phase = .booting then .next (cryptoError s) else .next s

/-- AUTH_LOCK_EXPIRY: 60 s after it was set (R542). -/
def execAuthLockExpiry (s : State) : Host.Outcome State Fault Refusal :=
  if running s then .next { s with sec := { s.sec with authLock := false } } else .next s

/-- PRESENCE_EXPIRY: 600 s after the release of RESET_N (R538). -/
def execPresenceExpiry (s : State) : Host.Outcome State Fault Refusal :=
  if running s then .next (usePresence s) else .next s

/-! ## Signed configuration blobs (R530 to R532, Table 16-6) -/

/-- The sections of a blob: CFG entries; FIRST, COUNT and place of each rule group; REF and place of each speed table; NET objects. -/
structure BlobParts where
  cfg : List CfgEnt
  rules : List (Nat × Nat × Nat)
  speeds : List (Nat × Nat)
  nets : List (List Byte)
  deriving DecidableEq, Repr

/-- n rule groups from byte o on, and where they end. -/
def ruleGroups (b : List Byte) : Nat → Nat → List (Nat × Nat × Nat) × Nat
  | 0, o => ([], o)
  | n + 1, o =>
    let (l, e) := ruleGroups b n (o + 4 + 64 * getLE b (o + 2) 2)
    ((getLE b o 2, getLE b (o + 2) 2, o + 4) :: l, e)

/-- n network objects from byte o on, and where they end. -/
def netGroups (b : List Byte) : Nat → Nat → List (List Byte) × Nat
  | 0, o => ([], o)
  | n + 1, o =>
    let (l, e) := netGroups b n (o + 4 + getLE b o 4)
    ((b.drop (o + 4)).take (getLE b o 4) :: l, e)

/-- The parts of a blob, where its sections fill DLEN exactly. -/
def blobParts (b : List Byte) : Option BlobParts :=
  let n := getLE b 16 4
  let dlen := getLE b 24 4
  if n > dlen then none
  else
    let (rules, o) := ruleGroups b (getLE b 20 2) (32 + 8 * n)
    let sp := getLE b 22 1
    let (nets, e) := netGroups b (getLE b 23 1) (o + 132 * sp)
    if e ≠ 32 + dlen then none
    else some ⟨cfgEnts b 32 n, rules, (List.range sp).map (fun i => (getLE b (o + 132 * i) 4, o + 132 * i + 4)), nets⟩

/-- Check 4: the signature under slot KEY. -/
def blobSigned (s : State) (b : List Byte) : Bool :=
  let n := 32 + getLE b 24 4
  b.length == n + 100 && getLE b 2 1 < 4 &&
  (s.sec.keys.find? (fun e => e.1 == getLE b 2 1)).any (fun e => Config.ecdsaOk e.2 (b.take n) ((b.drop n).take 96))

/-- Check 5: SERIAL and SEQ. -/
def blobFits (s : State) (b : List Byte) : Bool :=
  (getLE b 4 8 == 0 || getLE b 4 8 == Config.serial.toNat) && decide (s.sec.blobSeq ≤ getLE b 12 4)

/-- SEQ of a blob. -/
def blobSeqOf (b : List Byte) : Nat := getLE b 12 4

/-- A register word of a network object as a NET_SET may name it (R482). -/
def netEntOk (e : Nat × Nat × Word) : Bool := rwsMask (netOfs e.1) != 0 && decide (e.2.1 < netInst e.1)

/-- The words of a NET_SET body staged (14). -/
def stageNet (body : List Byte) (s : State) : State :=
  (Config.netBody body).foldl (fun s e => stage (netOfs e.1) e.2.1 e.2.2 (rwsMask (netOfs e.1)) s) s

/-- Every entry of a blob passes but for the rule pairs (R424, R530). -/
def blobEntsOk (b : List Byte) (p : BlobParts) : Bool :=
  getLE b 0 2 == 1 && (firstBad p.cfg).isNone && p.rules.all (fun e => decide (1 ≤ e.2.1) && decide (e.1 + e.2.1 ≤ 1024)) &&
  p.speeds.all (fun e => decide (e.1 < 16)) && p.nets.all (fun o => (Config.netBody o).all netEntOk)

/-- The first rule of a blob whose pairs fail. -/
def blobBadRule (b : List Byte) (p : BlobParts) : Option (Nat × Nat) := p.rules.findSome? (fun e => badRule b e.2.2 e.1 e.2.1)

/-- The sections staged in their order (R530). -/
def stageBlob (b : List Byte) (p : BlobParts) (s : State) : State :=
  let s := cfgApply p.cfg s
  let s := p.rules.foldl (fun s e => stageRules b e.2.2 e.1 e.2.1 s) s
  let s := p.speeds.foldl (fun s e => stageEdges b e.2 e.1 s) s
  p.nets.foldl (fun s o => stageNet o s) s

/-- BLOB_LOAD (Table 12-9). -/
def blobForm : DescForm :=
  { mine := fun d => dOp d == 0x0E, used := [(8, 8), (16, 4), (20, 1)], ok := fun d => decide (dF d 20 1 ≤ 1) && dF d 8 8 % 8 == 0,
    pay := fun d => some (dF d 16 4), obj := fun d => dF d 20 1 }

/-- The checks of R530 after the CRC, and staging; none in the crypto error state (R520). With STORE = 1 the completion waits for the flash (R531). -/
def blobAct (d : Desc) (id : Nat) (s : State) : State :=
  let b := payload d (dF d 16 4)
  if s.sec.cryptoErr then complete id 0x42 [] s
  else if !ownedOrSealed s then complete id 0x40 [] s
  else if s.sec.authLock then complete id 0x42 [] s
  else if !blobSigned s b then complete id 0x41 [] (authFailed 2 0 s)
  else
    let s := authPassed s
    if !blobFits s b then complete id 0x42 [] s
    else match blobParts b with
      | none => complete id 0x14 [] s
      | some p =>
        if !blobEntsOk b p then complete id 0x14 [] s
        else match blobBadRule b p with
          | some (r, ch) => complete id 0x16 [] (integrity 4 r ch s)
          | none =>
            let s := stageBlob b p s
            if dF d 20 1 = 1 then modOut id (fun o => { o with data := b }) s else complete id 0 (le 4 p.cfg.length) s

/-- BLOB_LOAD (R530). -/
def execBlobLoad (d : Desc) (s : State) : Host.Outcome State Fault Refusal := .next (takeDesc blobForm d (blobAct d) s)

/-- BLOB_STORE: the blob is in the older store slot, BLOB_SEQ follows, and the descriptor completes (R531). -/
def execBlobStore (s : State) : Host.Outcome State Fault Refusal :=
  match s.outs.find? (fun o => o.opcode == 0x0E && o.obj == 1) with
  | none => .next s
  | some o =>
    if !running s then .next s
    else
      let x := s.sec
      let older := x.storeA = [] || (x.storeB ≠ [] && decide (blobSeqOf x.storeA ≤ blobSeqOf x.storeB))
      let x := if older then { x with storeA := o.data } else { x with storeB := o.data }
      .next (complete o.id 0 (le 4 (getLE o.data 16 4)) { s with sec := { x with blobSeq := blobSeqOf o.data } })

end Sys2Proof.Machine
end

