-- ==== Sys2Proof/Machine/NetRows.lean ====
section
/-! DEFINITION. The commands of the Ethernet ports, the switch and the management channel (14). -/

namespace Sys2Proof.Machine
open Sys2Proof

/-! ## Ports (R464, R465, R480) -/

/-- The switch works: from boot start on, and on through a HALT while a clock is left (R491). -/
def switchOn (s : State) : Bool := (awake s || s.phase == .halted) && (s.tm.clkA || s.tm.clkB)

/-- ETH_LINK_DOWN is active while a port has lost its link (R480, Table 15-3). -/
def ethSrc (p : Nat) (s : State) : State :=
  setSrc (s.net.p0.lost || s.net.p1.lost) 0x30 0 1 (le 1 p) s.tm.count s

/-- The port on which the module receives time while a grandmaster is within reach: the one that the selection names, where it has link,
or else the one in use while it has link, or else the other (R465). -/
def slavePort (v : TimeView) (s : State) : Option Nat :=
  let l0 := s.net.p0.link
  let l1 := s.net.p1.link
  if !v.gm then none
  else if l0 && v.role0 % 4 == 1 && !(l1 && v.role1 % 4 == 1) then some 0
  else if l1 && v.role1 % 4 == 1 && !(l0 && v.role0 % 4 == 1) then some 1
  else if l1 && (s.net.p1.role == 1 || !l0) then some 1
  else if l0 then some 0
  else none

/-- The role of port p: disabled without link, slave where it receives time, and master only while the other port does: the module never
becomes grandmaster (R465, NET_TIME). -/
def roleIn (v : TimeView) (s : State) (p : Nat) : Nat :=
  let r := (if p = 0 then v.role0 else v.role1) % 4
  if !(port s p).link then 0
  else if slavePort v s = some p then 1
  else if r = 1 || (r = 2 && (slavePort v s).isNone) then 3
  else r

/-- The time function's view (R465, NET_TIME). -/
def setView (v : TimeView) (s : State) : State :=
  let n := s.net
  { s with net := { n with p0 := { n.p0 with role := roleIn v s 0 }, p1 := { n.p1 with role := roleIn v s 1 },
                           gm := (slavePort v s).isSome, stepsRemoved := v.steps % 256 } }

/-- ETH_LINK_DOWN: a port loses link, with what waited to leave it (log 84); the best master selection chooses the other port where a
grandmaster is within reach there, and otherwise a module that received time on this one has lost it (R465, R480, Table 9-1). -/
def execEthLinkDown (p : Nat) (v : TimeView) (s : State) : Host.Outcome State Fault Refusal :=
  if !switchOn s || !(port s p).link then .next s
  else
    let had := (port s p).role == 1
    let s := setView v (modPort p (fun x => { x with link := false, speed := 0, lost := true, waiting := [] }) s)
    let lost := had && !s.net.gm && holdsOver s
    .next (if awake s then inOneCycle (fun s => let s := ethSrc p s; if lost then setTime 3 s else s) s else s)

/-- ETH_LINK_UP: a port's link returns at a speed, 1 to 3 (R480). -/
def execEthLinkUp (p speed : Nat) (v : TimeView) (s : State) : Host.Outcome State Fault Refusal :=
  if !switchOn s then .next s
  else
    let s := setView v (modPort p (fun x => { x with link := true, speed := speed % 4, lost := false }) s)
    .next (if awake s then ethSrc p s else s)

/-! ## The switch (R461, R463, R478) -/

/-- A MAC address in network order as a number. -/
def macAt (b : List Byte) (o : Nat) : Nat := leVal ((b.drop o).take 6).reverse

/-- A group address: multicast or broadcast. -/
def isGroup (m : Nat) : Bool := m / 2 ^ 40 % 2 == 1

/-- 01-80-C2-00-00-00 to 01-80-C2-00-00-0F (R461). -/
def isReserved (m : Nat) : Bool := m / 16 == 0x0180C200000

/-- The transmit class of a relayed frame: its PCP, 0 untagged (R471, Table 14-1). -/
def frameClass (b : List Byte) : Nat := if getLE b 12 1 = 0x81 ∧ getLE b 13 1 = 0x00 then getLE b 14 1 / 32 else 0

/-- A frame received under MACsec: 802.1AS passes, any other must validate under an SA; none where it is discarded (R478, R479). -/
def rxFrame (x : Port) (b : List Byte) : Option (List Byte) :=
  if !x.macsec || isTimeFrame b then some b
  else
    let opens := [x.rx0, x.rx1].filterMap (fun a => a.bind (fun a => Config.macsecOpen a.key b))
    opens.head?

/-- The source address is learned, while there is room for it (Table 14-1). -/
def learn (p : Nat) (m : Nat) (s : State) : State :=
  let known := s.net.addrs.any (fun e => e.1 == m)
  if isGroup m || (!known && decide (s.net.addrs.length ≥ 1024)) then s
  else { s with net := { s.net with addrs := (m, p) :: s.net.addrs.filter (fun e => e.1 != m) } }

/-- A frame to the module itself: ARP, neighbour discovery and echo requests to one of its addresses are answered on the port they came
from, in the class of management; what they tell of a neighbour is kept, and what waited for it leaves (R460). -/
def toSelf (p : Nat) (b : List Byte) (s : State) : State :=
  let own4 := ownV4 s.cfg
  let own6 := [linkLocal, ownV6 s.cfg].filter (fun a => a != noAddr6)
  let s := outp (.forward 2 b) s
  if !running s || !(macAt b 0 == Config.mac.toNat || isGroup (macAt b 0)) then s
  else
    let s := match ipHeard own4 own6 b with
      | some (a, m) => gateFlush 1 (gateFlush 0 { s with net := { s.net with neigh := (a, m) :: s.net.neigh.filter (fun e => e.1 != a) } })
      | none => s
    match ipAnswer own4 own6 b with
    | some r => sendPort p 6 (.frame r) s
    | none => s

/-- The switch forwards a frame from port p by learned address, or floods it (R461). -/
def switchFrame (p : Nat) (b : List Byte) (s : State) : State :=
  let dst := macAt b 0
  let other := 1 - p
  let s := learn p (macAt b 6) s
  if dst = Config.mac.toNat then toSelf p b s
  else if isGroup dst then sendPort other (frameClass b) (.frame b) (toSelf p b s)
  else match s.net.addrs.find? (fun e => e.1 == dst) with
    | some (_, q) => if q = p then s else sendPort other (frameClass b) (.frame b) s
    | none => sendPort other (frameClass b) (.frame b) (toSelf p b s)

/-- ETH_FRAME: a frame of 14 to 1,536 bytes arrives on port 0 or 1. Time is relayed from the port that receives it to a master port
(R461, R464, R478, Table 14-1). -/
def execEthFrame (p : Nat) (b : List Byte) (v : TimeView) (s : State) : Host.Outcome State Fault Refusal :=
  if !switchOn s || !(port s p).link || b.length < 14 || b.length > 1536 then .next s
  else match rxFrame (port s p) b with
    | none => .next (modPort p (fun x => { x with badRx := satAdd 0xFFFF x.badRx 1 }) s)
    | some b =>
      if isTimeFrame b then
        let s := setView v s
        .next (if (port s p).role = 1 && (port s (1 - p)).role = 2 && relays (frcF s 0x1018 0 8 7) b then
          sendPort (1 - p) 7 (.frame (relayed (1 - p) v.resid b)) s else s)
      else if isReserved (macAt b 0) then .next s
      else .next (switchFrame p b s)

/-- ADDRESS_AGEING: an address not seen for 300 s (R460). -/
def execAddressAgeing (m : Nat) (s : State) : Host.Outcome State Fault Refusal :=
  .next { s with net := { s.net with addrs := s.net.addrs.filter (fun e => e.1 != m) } }

/-- GATE_CONTROL_LIST_ENTRY: the next entry of port p's list takes effect. In HALT the switch goes on while no tick edge restarts the
list, and the first entry follows the last (R472, R491, log 86). -/
def execGateControlListEntry (p : Nat) (s : State) : Host.Outcome State Fault Refusal :=
  let more := decide ((port s p).gate + 1 < gateCount s.cfg p)
  if (running s && more) || (s.phase == .halted && switchOn s) then
    .next (gateFlush p (modPort p (fun x => { x with gate := if more then x.gate + 1 else 0 }) s))
  else .next s

/-! ## Management channel (R481 to R483) -/

/-- TLS_CONNECT: a client whose certificate chains to `root` (no key where it chains to none) reaches TCP port 50121 of an address of
the module and offers TLS 1.3 with TLS_AES_256_GCM_SHA384 and secp384r1. Two connections at most; with owner keys installed one of them,
otherwise the maker's; every refusal raises SEC_AUTH. A module with no DevID key has nothing to authenticate with (R481, R515, R520, R529,
R541). -/
def execTlsConnect (root : List Byte) (s : State) (h : TlsIn := {}) : Host.Outcome State Fault Refusal :=
  if !running s || h.tcp ≠ 50121 || !h.own then .next s
  else
    let owner := s.sec.keys.any (fun e => e.2 == root)
    let ok := (if s.sec.keys = [] then root == Config.makerKey else owner) && h.v13 && h.aes256 && h.p384 && (s.sec.idev || s.sec.ldevCert.isSome)
    if s.sec.cryptoErr || decide (s.net.sessions.length ≥ 2) || !ok then .next (authFailed 4 0 s)
    else
      let id := if s.net.sessions.any (fun x => x.id == 0) then 1 else 0
      .next { s with net := { s.net with sessions := ⟨id, owner⟩ :: s.net.sessions } }

/-- TLS_SESSION_CLOSE (R481). -/
def execTlsSessionClose (id : Nat) (s : State) : Host.Outcome State Fault Refusal :=
  .next { s with net := { s.net with sessions := s.net.sessions.filter (fun x => x.id != id),
                                     asked := tfilter s.net.asked (fun _ a => a.1 != id) } }

/-- A request of a session that is open; one that an owner's certificate must carry gets AUTH_FAIL in another (R481). -/
def request (id kind sq : Nat) (ownerOnly : Bool) (act : State → State) (s : State) : State :=
  match s.net.sessions.find? (fun x => x.id == id) with
  | none => s
  | some x =>
    if !running s then s
    else if ownerOnly && !x.owner then replyTo id kind sq 0x41 [] s
    else act s

/-- The registers that a STATUS request may read: none of the channel window, none of MAP_PEEK_ (Table 14-4). -/
def statusOk (ofs n : Nat) : Bool :=
  ofs % 4 == 0 && decide (1 ≤ n) && decide (ofs + 4 * n ≤ 0x10000) &&
  (List.range (min n 0x4000)).all (fun i => let o := ofs + 4 * i; !inWindow o && !(decide (0x5010 ≤ o) && decide (o < 0x5038)))

/-- STATUS: n registers from an offset on (R482). -/
def execStatus (id sq ofs n : Nat) (s : State) : Host.Outcome State Fault Refusal :=
  .next (request id 1 sq false (fun s =>
    if statusOk ofs n then
      replyTo id 1 sq 0 (((List.range n).map (fun i => le 4 (readReg .mp s (ofs + 4 * i)).toNat)).flatten) s
    else replyTo id 1 sq 0x14 [] s) s)

/-- NET_SET: network objects are staged; in SEALED they enter only through BLOB_LOAD (R482, R483). -/
def execNetSet (id sq : Nat) (body : List Byte) (s : State) : Host.Outcome State Fault Refusal :=
  .next (request id 2 sq true (fun s =>
    if s.sec.lc = lcSealed then replyTo id 2 sq 0x40 [] s
    else if (Config.netBody body).all netEntOk then replyTo id 2 sq 0 [] (stageNet body s)
    else replyTo id 2 sq 0x14 [] s) s)

/-- A new transmit SA: the one in use where there was none, otherwise the one not in use (R479). -/
def putTx (a : Sa) (x : Port) : Port :=
  if (txSa x).isNone then (if x.txAn then { x with tx1 := some a } else { x with tx0 := some a })
  else if x.txAn then { x with tx0 := some a } else { x with tx1 := some a }

/-- A new receive SA replaces that of its association number, or the older of the two (R479). -/
def putRx (a : Sa) (x : Port) : Port :=
  if x.rx0.any (fun b => b.an == a.an) then { x with rx0 := some a }
  else if x.rx1.any (fun b => b.an == a.an) then { x with rx1 := some a }
  else { x with rx1 := x.rx0, rx0 := some a }

/-- MACSEC_KEY: an SA of a port is installed, for reception or transmission; MACsec is enabled (R478, R479, R483). -/
def execMacsecKey (id sq p : Nat) (rx : Bool) (an : Nat) (key : List Byte) (ssci pn : Nat) (s : State) : Host.Outcome State Fault Refusal :=
  let a : Sa := ⟨an, key, ssci, pn⟩
  .next (request id 3 sq true (fun s =>
    if s.sec.lc = lcVoid then replyTo id 3 sq 0x40 [] s
    else if p > 1 || an > 3 || key.length ≠ 32 || pn ≥ 2 ^ 32 || ssci ≥ 2 ^ 32 then replyTo id 3 sq 0x14 [] s
    else
      let s := modPort p (fun x => { (if rx then putRx a x else putTx a x) with macsec := true }) s
      replyTo id 3 sq 0 [] (gateFlush p (macsecSrc s))) s)

/-- MACSEC_TX_CHANGE: transmission changes to the other SA, where one is installed (R479). -/
def execMacsecTxChange (id sq p : Nat) (s : State) : Host.Outcome State Fault Refusal :=
  .next (request id 3 sq true (fun s =>
    if s.sec.lc = lcVoid then replyTo id 3 sq 0x40 [] s
    else if p > 1 then replyTo id 3 sq 0x14 [] s
    else if (txOther (port s p)).isNone then replyTo id 3 sq 0x15 [] s
    else replyTo id 3 sq 0 [] (gateFlush p (macsecSrc (modPort p (fun x => { x with txAn := !x.txAn }) s)))) s)

/-- DESCRIPTOR: in autonomous mode the management processor puts the descriptor into its command ring and rings its doorbell; the
completion is returned as the result. In hosted mode it is refused (R438, R482, Table 14-4). -/
def execDescriptor (id sq : Nat) (d : Desc) (s : State) : Host.Outcome State Fault Refusal :=
  .next (request id 4 sq true (fun s =>
    let x := ring s cmdRing
    if !s.auto then replyTo id 4 sq 0x40 [] s
    else if d.pay.length > 262144 then replyTo id 4 sq 0x14 [] s
    else if !x.en || ringUsed x ≥ ringSize x then replyTo id 4 sq 0x15 [] s
    else
      let s := outp (.hostWrite (x.base + BitVec.ofNat 64 (32 * (x.p.toNat % ringSize x))) (padTo 32 d.raw)) s
      let s := { s with net := { s.net with asked := tput s.net.asked (x.p.toNat % 65536) (id, sq) } }
      modRing cmdRing (fun x => { x with p := x.p + 1, db := x.p + 1 }) s) s)

end Sys2Proof.Machine
end

