-- ==== Sys2Proof/Machine/PowerRows.lean ====
section
/-! DEFINITION. The commands of supplies, reset, start-up and the PCIe endpoint (17, 12, 01, 16). -/

namespace Sys2Proof.Machine
open Sys2Proof

/-! ## Resets (R492, R559, R564) -/

/-- What a reset of the logic side leaves of the security subsystem: OTP, key store, flash (Tables 16-2, 16-3); whether the OTP pair checks
is found anew at boot start (R534). `trial` stays for the boot that follows, which ends an unconfirmed trial (R523). -/
def keptSec (x : Sec) : Sec :=
  { lc := x.lc, slots := x.slots, destroyed := x.destroyed, ownerEpoch := x.ownerEpoch, idev := x.idev, keys := x.keys, ldev := x.ldev, ldevCert := x.ldevCert, draws := x.draws,
    imgA := x.imgA, imgB := x.imgB, pref := x.pref, trial := x.trial, trialRec := x.trialRec, rollback := x.rollback,
    blobSeq := x.blobSeq, storeA := x.storeA, storeB := x.storeB, zeroDone := x.zeroDone }

/-- The logic side in reset: everything of its own at its reset value; the fronds go on by themselves (R564). -/
def logicReset (ph : Phase) (pwr : Power) (s : State) : State :=
  { ({} : State) with pending := s.pending, outbox := s.outbox, field := s.field, phase := ph, pwr := pwr, sec := keptSec s.sec }

/-- The SAFE order on both links of every frond (R343, R564). -/
def safeAll (s : State) : State := allFronds.foldl (fun s f => sendOrder f 0x7C 0xA5 s) s

/-- MODULE_RESET: VLOG below VLOG_BO (`brownOut`) or RESET_N low, for 10 µs. Every frond gets a SAFE order, unless the module is
halted, which no RESET_N ends; with VLOG valid a failed supply phase stays failed (R492, R551, R559, R564). -/
def execModuleReset (brownOut : Bool) (s : State) : Host.Outcome State Fault Refusal :=
  let halted := s.phase == .halted || s.phase == .draining
  if s.phase = .off || (halted && !brownOut) then .next s
  else
    let s := if awake s && !halted then safeAll s else s
    let p : Power := { haltLatch := s.pwr.haltLatch, perst := s.pwr.perst }
    .next (if brownOut then logicReset .off p s
           else logicReset .reset { p with valid := s.pwr.valid, aux := s.pwr.aux, failed := s.pwr.failed } s)

/-- HALT_RELEASE: VLOG has been below 1.2 V for 100 ms (R492). -/
def execHaltRelease (s : State) : Host.Outcome State Fault Refusal :=
  if s.phase = .off || s.phase = .halted || s.phase = .draining then .next (logicReset .off { perst := s.pwr.perst } s) else .next s

/-- VLOG_VALID: VLOG rises through VLOG_ON, from below 1.2 V (`cold`) or not, with RESET_N and BOOT1 as given. With the HALT latch set
the module takes the halted state at once (R538, R562, R563). -/
def execVlogValid (cold resetLow boot1 : Bool) (s : State) : Host.Outcome State Fault Refusal :=
  if s.phase ≠ .off then .next s
  else
    let s := { s with tm := { s.tm with clkA := true, clkB := true }, pwr := { s.pwr with valid := true, boot1 := cold && resetLow && boot1 } }
    .next (if s.pwr.haltLatch then { s with phase := .halted, pwr := { s.pwr with aux := [0, 1, 2, 3] } } else { s with phase := .reset })

/-- AUX_POWER_ENABLE of fronds 8 g to 8 g + 7 (R563). -/
def execAuxPowerEnable (g : Nat) (s : State) : Host.Outcome State Fault Refusal :=
  if s.pwr.valid && decide (g < 4) && !s.pwr.aux.contains g then .next { s with pwr := { s.pwr with aux := s.pwr.aux ++ [g] } } else .next s

/-! ## Start-up (R46, R516, R519, R522, R523, R526, R537, R560) -/

/-- PCIE_DEGRADED is active while the trained link drains less than at the last accepted commit (R404). -/
def linkSource (s : State) : State :=
  let low := s.pwr.drain.any (fun d => decide (pcieDrain s < d))
  if awake s then setSrc low 0x2C 0 1 (le 1 s.pwr.gts ++ le 1 s.pwr.width) s.tm.count s else s

/-- The trained PCIe link; none in autonomous mode (R48, R404). -/
def trainLink (l : LinkIn) (s : State) : State :=
  if s.auto || !s.pwr.perst || l.width = 0 then s
  else linkSource { s with pwr := { s.pwr with linkUp := true, gts := l.gts, width := l.width }, msix := l.msix }

/-- The boot record before an image is chosen: a trial not confirmed gives the preference back (R523). -/
def endTrial (x : Sec) : Sec :=
  if x.trial then { x with pref := !x.pref, trial := false, trialRec := false, fallback := true } else x

/-- The boot ROM starts the first bootable image, the preferred one first; none is a SECURITY_HALT, and so is VOID (R522, R526). -/
def chooseImage (s : State) : State :=
  if s.sec.lc = lcVoid then securityHalt 4 0 s
  else
    let img := fun (b : Bool) => if b then s.sec.imgB else s.sec.imgA
    let p := s.sec.pref
    if bootable s (img p) then { s with sec := { s.sec with bootB := p, trial := s.sec.trialRec } }
    else if bootable s (img !p) then { s with sec := { s.sec with bootB := !p, fallback := true } }
    else securityHalt 3 0 s

/-- SUPPLY_PHASE follows the failed phases (R551, Table 15-3). -/
def phaseSrc (ph : Nat) (s : State) : State :=
  if awake s then setSrc (s.pwr.failed != []) 0x1C 0 1 (le 1 ph) s.tm.count s else s

/-- BOOT_START: pins, self-tests, life-cycle word, image; a RETURN that finds no record of its zeroisation zeroises again. -/
def execBootStart (i : BootIn) (s : State) : Host.Outcome State Fault Refusal :=
  if s.phase ≠ .reset || !s.pwr.valid then .next s
  else
    let s := { s with phase := .booting, auto := i.boot0, tm := { s.tm with clkA := true, clkB := true },
                      pwr := { s.pwr with presPend := s.pwr.boot1 && i.boot1 && i.held, boot1 := false },
                      sec := endTrial { s.sec with selfOk := i.alg == 0 } }
    let s := s.pwr.failed.foldl (fun s ph => phaseSrc ph s) (trainLink i.link s)
    if i.alg ≠ 0 then .next (securityHalt 2 i.alg s)
    else
      let s := lifeCycleCheck false i.otpBad s
      if !s.sec.otpOk then .next s
      else
        let s := if s.sec.lc = lcReturn && !s.sec.zeroDone then
            let z := zeroise s
            { z with sec := { z.sec with zeroDone := true } }
          else s
        .next (chooseImage s)

/-- The code of the first condition of approved mode that fails; 0 where all hold (Table 16-4). -/
def notApproved (s : State) : Nat :=
  let x := s.sec
  if !ownedOrSealed s then 1
  else if !x.keys.any (fun e => e.1 == 0) then 2
  else if !Config.imageValidated (runImage s) then 3
  else if !x.selfOk then 4 else if x.unlocked then 5 else if x.cryptoErr then 6 else if !x.consistent then 7 else 0

/-- The first check of R530 that a store slot fails, of 1, 4 and 5; 0 where it is empty, none where it passes (R532, Table 15-3). -/
def slotCheck (s : State) (b : List Byte) : Option Nat :=
  if b = [] then some 0
  else if !payloadCrcOk b then some 1
  else if !blobSigned s b then some 4
  else if !blobFits s b then some 5 else none

/-- The store slot with the higher SEQ that passes (R532). -/
def storedBlob (s : State) : Option (List Byte) :=
  let a := if (slotCheck s s.sec.storeA).isNone then some s.sec.storeA else none
  let b := if (slotCheck s s.sec.storeB).isNone then some s.sec.storeB else none
  match a, b with
  | some x, some y => some (if blobSeqOf x < blobSeqOf y then y else x)
  | some x, none => some x
  | none, y => y

/-- The management processor's rings of 256 entries in its SRAM (R438). -/
def mpRings (s : State) : State :=
  [cmdRing, cplRing, evtRing].foldl (fun s r => modRing r (fun x => { x with base := Config.mpRing r }) (enableRing r 8 s)) s

/-- BOOT_DONE: firmware runs. Approved mode is decided, presence shown; in autonomous mode the rings are set up, and a store with no
valid configuration raises CONFIG_ABSENT (R49, R438, R516, R538, R563). -/
def execBootDone (s : State) : Host.Outcome State Fault Refusal :=
  if s.phase ≠ .booting then .next s
  else
    let na := notApproved s
    let s := { s with phase := .running, pwr := { s.pwr with booted := true, presPend := false },
                      sec := { s.sec with approved := na == 0, naCause := na, presence := s.pwr.presPend } }
    if !s.auto then .next s
    else
      let s := mpRings s
      .next (match slotCheck s s.sec.storeA, slotCheck s s.sec.storeB with
        | some a, some b => raise 0x36 0 1 false (le 1 a ++ le 1 b) s.tm.count false false s
        | _, _ => s)

/-- The earliest target tick that the commit protocol permits for the staged configuration (R317, R318). -/
def firstTarget (s : State) : Nat :=
  now s + max 3 (2 + allFronds.foldl (fun m f => max m (cdiv (commitItems s f).length 16)) 0)

/-- The management processor's COMMIT descriptor for a target tick. -/
def mpCommit (s : State) (t : Nat) : Desc :=
  ⟨withCrc ([0x02, s.expAlive] ++ le 2 0 ++ le 4 0 ++ padTo 20 (le 6 t)), []⟩

/-- AUTONOMOUS_COMMIT: the stored configuration is staged and committed at the first permitted tick (R49, R530, R532). -/
def execAutonomousCommit (s : State) : Host.Outcome State Fault Refusal :=
  if !running s || !s.auto then .next s
  else match storedBlob s with
    | none => .next s
    | some b =>
      match blobParts b with
      | none => .next s
      | some p =>
        let s := stageBlob b p s
        let d := mpCommit s (firstTarget s)
        let x := ring s cmdRing
        let s := outp (.hostWrite (x.base + BitVec.ofNat 64 (32 * (x.p.toNat % ringSize x))) d.raw) s
        let s := modRing cmdRing (fun x => { x with p := x.p + 1, db := x.p + 1 }) s
        .next (takeDesc commitForm d (fun id s =>
          commitCore (dF d 8 6) 0 0 false id (BitVec.ofNat 16 (frontIdx s - 1).toNat) s) s)

/-! ## Supply phases (R551) -/

/-- SUPPLY_PHASE: phase 0 or 1 of the logic supply converter fails. -/
def execSupplyPhase (ph : Nat) (s : State) : Host.Outcome State Fault Refusal :=
  if !s.pwr.valid || s.pwr.failed.contains ph then .next s
  else .next (phaseSrc ph { s with pwr := { s.pwr with failed := s.pwr.failed ++ [ph] } })

/-- SUPPLY_PHASE_RETRY: a retry of a failed phase; `restored` where it has carried its share for 1 s. -/
def execSupplyPhaseRetry (ph : Nat) (restored : Bool) (s : State) : Host.Outcome State Fault Refusal :=
  if !restored then .next s
  else .next (phaseSrc ph { s with pwr := { s.pwr with failed := s.pwr.failed.filter (· != ph) } })

/-! ## PCIe endpoint (R403, R404, R406, R557, R561) -/

/-- FUNCTION_LEVEL_RESET (R406). -/
def execFunctionLevelReset (s : State) : Host.Outcome State Fault Refusal :=
  if s.auto then .next s else .next (busMaster false s)

/-- BUS_MASTER_CLEAR (R406). -/
def execBusMasterClear (s : State) : Host.Outcome State Fault Refusal :=
  if s.auto then .next s else .next (busMaster false s)

/-- PCIE_PERST: the level of PCIE_PERST_N changes. Low acts as R406 on the endpoint alone; on the rise the link trains. In autonomous
mode it is ignored (R557, R561). -/
def execPciePerst (high : Bool) (l : LinkIn) (s : State) : Host.Outcome State Fault Refusal :=
  let s := { s with pwr := { s.pwr with perst := high } }
  if s.auto then .next s
  else if high then .next (if awake s then trainLink l s else s)
  else
    let s := ringsOff s
    .next { s with bme := false, msix := 0, pba := 0, ep := {}, pwr := { s.pwr with linkUp := false } }

/-- PCIE_DEGRADED: the link retrains; the source is active while its drain is below that of the last accepted commit (R404). -/
def execPcieDegraded (gts width : Nat) (s : State) : Host.Outcome State Fault Refusal :=
  if s.auto || !s.pwr.linkUp then .next s
  else .next (linkSource { s with pwr := { s.pwr with gts := gts, width := width } })

end Sys2Proof.Machine
end

