-- ==== Sys2Proof/Machine/Endpoint.lean ====
section
/-! DEFINITION. The PCIe endpoint: BAR2 with doorbells and MSI-X table, and configuration space (12, 17). The layouts of the MSI-X table and
of configuration space, which the spec takes from PCIe, are PRESUMED (log 82). -/

namespace Sys2Proof.Machine
open Sys2Proof

/-- The endpoint answers: in hosted mode, with its link trained, from boot start on (R560, R561). -/
def endpointOpen (s : State) : Bool := !s.auto && s.pwr.linkUp && s.phase != .off && s.phase != .reset

/-! ## BAR2 (R402, R405, R408) -/

/-- The dword of the MSI-X table at an offset of BAR2: four to a vector, 32 vectors from 0x800 on. -/
def msixDword (ofs : Nat) : Option Nat := if inBlock ofs 0x800 4 128 && ofs % 4 == 0 then some ((ofs - 0x800) / 4) else none

/-- Dword i of the MSI-X table: address, upper address, data, vector control with the mask bit. -/
def msixRead (s : State) (i : Nat) : Word :=
  if i % 4 = 3 then wordOf [(0, b2n (!s.msix.testBit (i / 4)))] else tget 0 s.ep.tab i

/-- Dword i of the MSI-X table is written; a vector that is unmasked sends the message that has waited. -/
def msixWrite (i : Nat) (v : Word) (s : State) : State :=
  if i % 4 = 3 then
    let n := i / 4
    let s := { s with msix := setBit s.msix n (!bit v 0) }
    if s.pba.testBit n && !bit v 0 then msi n { s with pba := setBit s.pba n false } else s
  else { s with ep := { s.ep with tab := tput s.ep.tab i v } }

/-- A 32-bit read of BAR2: MSI-X table, pending bits, doorbells. -/
def bar2Read (s : State) (ofs : Nat) : Word :=
  match msixDword ofs with
  | some i => msixRead s i
  | none => if ofs = 0xC00 then BitVec.ofNat 32 s.pba else doorbellRead s ofs

/-- A 32-bit write of BAR2: MSI-X table or doorbell. -/
def bar2Write (ofs : Nat) (v : Word) (s : State) : State :=
  match msixDword ofs with
  | some i => if s.auto then s else msixWrite i v s
  | none => doorbell ofs v s

/-- The offset of an aligned 32-bit access of BAR2. -/
def bar2Aligned (ofs : Nat) : Bool := ofs % 4 == 0 && decide (ofs < 0x1000)

/-- The offset of an aligned 8-byte access of the MSI-X table or of its pending bits. -/
def bar2Wide (ofs : Nat) : Bool := ofs % 8 == 0 && ((msixDword ofs).isSome || ofs == 0xC00)

/-! ## Configuration space (R402, R406, R560) -/

/-- The writable bits of a base address register; 0 where Table 12-1 has none. -/
def barMask (ofs : Nat) : Word :=
  if ofs = 0x10 then 0xFFFF0000 else if ofs = 0x18 then 0xFFFFF000 else if ofs = 0x14 ∨ ofs = 0x1C then 0xFFFFFFFF else 0

/-- A dword of configuration space. The host is taken to have enabled memory space. -/
def pciRead (s : State) (ofs : Nat) : Word :=
  if ofs = 0x00 then wordOf [(0, Config.vendorId.toNat), (16, 0x5120)]
  else if ofs = 0x04 then wordOf [(1, 1), (2, b2n s.bme), (20, 1)]
  else if ofs = 0x08 then wordOf [(0, 0xB1), (8, 0x118000)]
  else if ofs = 0x10 ∨ ofs = 0x18 then tget 0 s.ep.bars ofs ||| 4
  else if ofs = 0x14 ∨ ofs = 0x1C then tget 0 s.ep.bars ofs
  else if ofs = 0x20 ∨ ofs = 0x24 ∨ ofs = 0x30 then 0
  else Config.pciHeader ofs

/-- A dword of configuration space is written. -/
def pciWrite (ofs : Nat) (v : Word) (s : State) : State :=
  if ofs = 0x04 then busMaster (bit v 2) s
  else if barMask ofs = 0 then s
  else { s with ep := { s.ep with bars := tput s.ep.bars ofs (v &&& barMask ofs) } }

end Sys2Proof.Machine
end

