-- ==== Sys2Proof/Machine/RegRows.lean ====
section
/-! DEFINITION. The commands on BAR0 and BAR2 (12, 13). -/

namespace Sys2Proof.Machine
open Sys2Proof

/-- The answer to a read on a path that reaches BAR0 (13, R405). -/
def answer (p : Path) (v : DWord) (s : State) : State := if pathOpen p s then outp (.readData p v) s else s

/-- Unsupported Request (R405). -/
def unsupported (p : Path) (s : State) : State := if pathOpen p s then outp (.unsupported p) s else s

/-- Two words as one 64-bit value. -/
def join64 (lo hi : Word) : DWord := BitVec.ofNat 64 (lo.toNat + hi.toNat * 2 ^ 32)

/-- The registers with W1C bits. -/
def hasW1c (ofs : Nat) : Bool :=
  ofs == 0x40 || ofs == 0x44 || ofs == 0x2188 || ofs == 0x218C || ofs == 0xA03C || (inBlock ofs 0x9000 32 4 && ofs % 32 == 0x1C)

/-- The W1C registers of the channel window. -/
def stickyOfs (ofs : Nat) : Bool := ofs == 0x2188 || ofs == 0x218C

/-- A broadcast write of a W1C register of the window; `hw` names by channel the bits that hardware has set in the same cycle (R12, R448). -/
def busSticky (p : Path) (ofs : Nat) (v : Word) (hw : List (Nat × Word)) (s : State) : State :=
  if writeOpen p s ofs then clearSticky (pathRegs p s) ofs v hw s else s

/-- A write to BAR2 or to configuration space on the PCIe path: 4 bytes, or 8 of the MSI-X table; every other one is unsupported. Before
BOOT_DONE and after a HALT writes to BAR2 are ignored (R405, R491, R560). -/
def endpointWrite (sp : Space) (p : Path) (ofs len : Nat) (v : DWord) (s : State) : State :=
  if p ≠ .pcie || !endpointOpen s then s
  else if sp = .config then (if len = 4 && ofs % 4 == 0 then pciWrite ofs (BitVec.ofNat 32 v.toNat) s else unsupported p s)
  else if len = 4 && bar2Aligned ofs then (if running s then bar2Write ofs (BitVec.ofNat 32 v.toNat) s else s)
  else if len = 8 && bar2Wide ofs then
    (if running s then bar2Write (ofs + 4) (BitVec.ofNat 32 (v.toNat / 2 ^ 32)) (bar2Write ofs (BitVec.ofNat 32 v.toNat) s) else s)
  else unsupported p s

/-- A read of BAR2 or of configuration space on the PCIe path: 4 bytes, or 8 of the MSI-X table and its pending bits; every other one is
unsupported (R405, R408, R560). -/
def endpointRead (sp : Space) (p : Path) (ofs len : Nat) (s : State) : State :=
  if p ≠ .pcie || !endpointOpen s then s
  else if sp = .config then (if len = 4 && ofs % 4 == 0 then answer p (BitVec.ofNat 64 (pciRead s ofs).toNat) s else unsupported p s)
  else if len = 4 && bar2Aligned ofs then answer p (BitVec.ofNat 64 (bar2Read s ofs).toNat) s
  else if len = 8 && bar2Wide ofs then answer p (join64 (bar2Read s ofs) (bar2Read s (ofs + 4))) s
  else unsupported p s

/-- REGISTER_WRITE of 4 or 8 bytes; an 8-byte write to a 64-bit register acts as its low half and then its high half; every other
access is unsupported and changes nothing (R11, R405). `hw` names the W1C bits that hardware has set in the cycle of the write, which
it then does not clear; for a write that BCAST sends to every channel, `chw` names them by channel (R12). `sp`: what it addresses. -/
def execRegisterWrite (p : Path) (ofs len : Nat) (v : DWord) (s : State) (hw : Word := 0) (chw : List (Nat × Word) := [])
    (sp : Space := .bar0) : Host.Outcome State Fault Refusal :=
  if s.phase = .off || s.phase = .reset then .next s
  else if sp ≠ .bar0 then .next (endpointWrite sp p ofs len v s)
  else if len = 4 && stickyOfs ofs && bit (pathRegs p s).chnSel 16 then .next (busSticky p ofs (BitVec.ofNat 32 v.toNat) chw s)
  else if len = 4 && decide (ofs % 4 = 0) && decide (ofs < 0x10000) then
    .next (busWrite p ofs (if hasW1c ofs then BitVec.ofNat 32 v.toNat &&& ~~~hw else BitVec.ofNat 32 v.toNat) s)
  else if len = 8 && decide (ofs % 8 = 0) && is64 ofs then
    .next (busWrite p (ofs + 4) (BitVec.ofNat 32 (v.toNat / 2 ^ 32)) (busWrite p ofs (BitVec.ofNat 32 v.toNat) s))
  else .next (unsupported p s)

/-- CHN_SEL: the path's window moves; a window value word that waits is mismatched (R444, R447, R453). -/
def execChnSel (p : Path) (v : Word) (s : State) : Host.Outcome State Fault Refusal := .next (busWrite p 0x2000 v s)

/-- BROADCAST_WRITE: a window write while BCAST is 1 acts on all 512 channels; `chw` names by channel the W1C bits that hardware has set in
the cycle of the write (R12, R448). -/
def execBroadcastWrite (p : Path) (ofs : Nat) (v : Word) (s : State) (chw : List (Nat × Word) := []) : Host.Outcome State Fault Refusal :=
  if bit (pathRegs p s).chnSel 16 && inWindow ofs then
    .next (if stickyOfs ofs then busSticky p ofs v chw s else busWrite p ofs v s)
  else .next s

/-- BASIC_CODE_WRITE: the code and its expansion are staged (R52). -/
def execBasicCodeWrite (p : Path) (ofs : Nat) (v : Word) (s : State) : Host.Outcome State Fault Refusal :=
  if isBasic ofs then .next (busWrite p ofs v s) else .next s

/-- RWP_VALUE_WRITE: a value word waits for its complement (R14). -/
def execRwpValueWrite (p : Path) (ofs : Nat) (v : Word) (s : State) : Host.Outcome State Fault Refusal :=
  if isRwp ofs then .next (busWrite p ofs v s) else .next s

/-- RWP_COMPLEMENT_WRITE at the offset of the complement word (R13, R453). -/
def execRwpComplementWrite (p : Path) (ofs : Nat) (v : Word) (s : State) : Host.Outcome State Fault Refusal :=
  if (complOf ofs).isSome then .next (busWrite p ofs v s) else .next s

/-- The channel part of a shadow's tag (R159). -/
def shadowChan (p : Path) (s : State) (ofs : Nat) : Nat := if inWindow ofs then fld (pathRegs p s).chnSel 0 9 else 0

/-- An aligned 32-bit read of BAR0. -/
def readAligned (ofs : Nat) : Bool := ofs % 4 == 0 && decide (ofs < 0x10000)

/-- REG64_LOW_READ: the live low word; the live high word goes to the shadow (R159, R161). Of any other aligned word it is the plain 32-bit
read, which has no row of its own; any other offset is unsupported (R405). `sp`: what it addresses. -/
def execReg64LowRead (p : Path) (ofs : Nat) (s : State) (sp : Space := .bar0) : Host.Outcome State Fault Refusal :=
  if s.phase = .off || s.phase = .reset || !pathOpen p s then .next s
  else if sp ≠ .bar0 then .next (endpointRead sp p ofs 4 s)
  else if !readAligned ofs then .next (unsupported p s)
  else
    let s1 := if readOpen s ofs && is64 ofs then
        modPath p (fun r => { r with shadow := some (ofs, shadowChan p s ofs, readReg p s (ofs + 4)) }) s else s
    .next (answer p (BitVec.ofNat 64 (readReg p s ofs).toNat) s1)

/-- REG64_HIGH_READ of the register whose low half is at ofs: the shadow where its tag matches, or the live word with TORN
(R160); unsupported where that is no aligned word (R405). -/
def execReg64HighRead (p : Path) (ofs : Nat) (s : State) : Host.Outcome State Fault Refusal :=
  if s.phase = .off || s.phase = .reset || !pathOpen p s then .next s
  else if !readAligned (ofs + 4) then .next (unsupported p s)
  else if !(readOpen s ofs && is64 ofs) then .next (answer p (BitVec.ofNat 64 (readReg p s (ofs + 4)).toNat) s)
  else
    let live := readReg p s (ofs + 4)
    let torn : State := { s with torn := true, tornOfs := if s.torn then s.tornOfs else BitVec.ofNat 16 (ofs + 4) }
    match (pathRegs p s).shadow with
    | some (o, c, w) =>
      if o = ofs ∧ c = shadowChan p s ofs then
        .next (answer p (BitVec.ofNat 64 w.toNat) (modPath p (fun r => { r with shadow := none }) s))
      else .next (answer p (BitVec.ofNat 64 live.toNat) torn)
    | none => .next (answer p (BitVec.ofNat 64 live.toNat) torn)

/-- REG64_ATOMIC_READ: both halves of a 64-bit register, or value and complement of a pair, at one instant; unsupported at any
other offset (R162, R405). `sp`: what it addresses. -/
def execReg64AtomicRead (p : Path) (ofs : Nat) (s : State) (sp : Space := .bar0) : Host.Outcome State Fault Refusal :=
  if s.phase = .off || s.phase = .reset then .next s
  else if sp ≠ .bar0 then .next (endpointRead sp p ofs 8 s)
  else if decide (ofs % 8 = 0) && (is64 ofs || isRwp ofs) then
    .next (answer p (join64 (readReg p s ofs) (readReg p s (ofs + 4))) s)
  else .next (unsupported p s)

/-- REG64_LOW_WRITE: the low half is held (R445). -/
def execReg64LowWrite (p : Path) (ofs : Nat) (v : Word) (s : State) : Host.Outcome State Fault Refusal :=
  if is64W ofs then .next (busWrite p ofs v s) else .next s

/-- REG64_HIGH_WRITE: the high half of the register whose low half is at ofs takes effect with the held low half (R445). -/
def execReg64HighWrite (p : Path) (ofs : Nat) (v : Word) (s : State) : Host.Outcome State Fault Refusal :=
  if is64W ofs then .next (busWrite p (ofs + 4) v s) else .next s

/-- STATUS_BASE_WRITE: both halves of DMA_STS_BASE; ignored while any ring is enabled (R457). -/
def execStatusBaseWrite (p : Path) (v : DWord) (s : State) : Host.Outcome State Fault Refusal :=
  .next (busWrite p 0xA034 (BitVec.ofNat 32 (v.toNat / 2 ^ 32)) (busWrite p 0xA030 (BitVec.ofNat 32 v.toNat) s))

/-- The offset of a ring's CFG register. -/
def ringCfgOfs (r : Nat) : Nat := if r < 3 then 0xA008 + 16 * r else 0xA108 + 16 * (r - 3)

/-- RING_ENABLE: a CFG write that sets EN (R413, R457). -/
def execRingEnable (p : Path) (r : Nat) (v : Word) (s : State) : Host.Outcome State Fault Refusal :=
  .next (busWrite p (ringCfgOfs r) (v ||| 0x100) s)

/-- RING_DISABLE: a CFG write that clears EN (R413). -/
def execRingDisable (p : Path) (r : Nat) (v : Word) (s : State) : Host.Outcome State Fault Refusal :=
  .next (busWrite p (ringCfgOfs r) (v &&& 0xFFFFFEFF) s)

/-- MAP_PEEK_IDX: a snapshot of the addressed cell (R270). -/
def execMapPeekIdx (p : Path) (v : Word) (s : State) : Host.Outcome State Fault Refusal := .next (busWrite p 0x5010 v s)

/-- DISCARD: ID_CTL written with bit 1 set; `view` is ACTIVE_VIEW of the same write (R452). -/
def execDiscard (p : Path) (view : Bool) (s : State) : Host.Outcome State Fault Refusal :=
  .next (busWrite p 0x48 (wordOf [(0, b2n view), (1, 1)]) s)

/-- The offset of register o of check-value unit u. -/
def cvuOfs (u o : Nat) : Nat := 0x9000 + 32 * u + o

/-- CVU_CTL_ALG: a CVU_CTL write with INIT 0 (R399, R401). -/
def execCvuCtlAlg (p : Path) (u alg : Nat) (s : State) : Host.Outcome State Fault Refusal :=
  .next (busWrite p (cvuOfs u 0) (wordOf [(0, alg % 8)]) s)

/-- CVU_INIT: a CVU_CTL write with INIT 1 (R399). -/
def execCvuInit (p : Path) (u alg : Nat) (s : State) : Host.Outcome State Fault Refusal :=
  .next (busWrite p (cvuOfs u 0) (wordOf [(0, alg % 8), (4, 1)]) s)

/-- CVU_FEED8 (R397). -/
def execCvuFeed8 (p : Path) (u : Nat) (v : Word) (s : State) : Host.Outcome State Fault Refusal := .next (busWrite p (cvuOfs u 4) v s)

/-- CVU_FEED16 (R397). -/
def execCvuFeed16 (p : Path) (u : Nat) (v : Word) (s : State) : Host.Outcome State Fault Refusal := .next (busWrite p (cvuOfs u 8) v s)

/-- CVU_FEED32 (R397). -/
def execCvuFeed32 (p : Path) (u : Nat) (v : Word) (s : State) : Host.Outcome State Fault Refusal := .next (busWrite p (cvuOfs u 12) v s)

/-- CVU_STATE_WRITE (R399). -/
def execCvuStateWrite (p : Path) (u : Nat) (v : Word) (s : State) : Host.Outcome State Fault Refusal := .next (busWrite p (cvuOfs u 16) v s)

/-- DBG_CTL_WRITE, after the check of the life-cycle working copies (R455, R533). -/
def execDbgCtlWrite (p : Path) (v : Word) (copyBad otpBad : Bool) (s : State) : Host.Outcome State Fault Refusal :=
  if writeOpen p s 0xF100 then .next (dbgWrite v (lifeCycleCheck copyBad otpBad s)) else .next s

/-- DB_CMD: P of the command ring (R409). -/
def execDbCmd (v : Word) (s : State) : Host.Outcome State Fault Refusal := if running s then .next (doorbell 0x000 v s) else .next s

/-- DB_CONSUMER: C of the module-written ring whose doorbell is at ofs (R409); at any other aligned offset of BAR2 a write of the MSI-X
table, or one without effect, and elsewhere an unsupported one (R405). -/
def execDbConsumer (ofs : Nat) (v : Word) (s : State) : Host.Outcome State Fault Refusal :=
  if !running s || ofs = 0 then .next s
  else if bar2Aligned ofs then .next (bar2Write ofs v s) else .next (unsupported .pcie s)

end Sys2Proof.Machine
end

