-- ==== Sys2Proof/Machine/Dispatch.lean ====
section
/-! DEFINITION. One arm per command of the table. -/

namespace Sys2Proof.Machine
open Sys2Proof

/-- The effect of a command on everything but the queue. -/
def exec (i : Instr) (s : State) : Host.Outcome State Fault Refusal :=
  match i with
  | .tickEdge x => Sys2Proof.Machine.execTickEdge x s
  | .tbaseHigh => Sys2Proof.Machine.execTbaseHigh s
  | .deferredWork => Sys2Proof.Machine.execDeferredWork s
  | .featureSlice => Sys2Proof.Machine.execFeatureSlice s
  | .periodBoundary read => Sys2Proof.Machine.execPeriodBoundary read s
  | .downlinkSuperframe ins => Sys2Proof.Machine.execDownlinkSuperframe s ins
  | .commitResolve => Sys2Proof.Machine.execCommitResolve s
  | .u0 f fr slow => Sys2Proof.Machine.execU0 f fr s slow
  | .linkUp f linkB => Sys2Proof.Machine.execLinkUp f linkB s
  | .uplinkFrame f kind fr flags slow => Sys2Proof.Machine.execUplinkFrame f kind fr flags s slow
  | .frondTickEdge f x => Sys2Proof.Machine.execFrondTickEdge f x s
  | .contentionSafeState ch crit => Sys2Proof.Machine.execContentionSafeState ch s crit
  | .d0 f fr fin crit => Sys2Proof.Machine.execD0 f fr fin s crit
  | .d1 f fr => Sys2Proof.Machine.execD1 f fr s
  | .d2 f fr ins => Sys2Proof.Machine.execD2 f fr s ins
  | .ds f fr => Sys2Proof.Machine.execDS f fr s
  | .snapSync f o => Sys2Proof.Machine.execSnapSync f o s
  | .snapDesc f o => Sys2Proof.Machine.execSnapDesc f o s
  | .safe f o crit => Sys2Proof.Machine.execSafe f o s crit
  | .wdExpired f at_ crit => Sys2Proof.Machine.execWdExpired f at_ s crit
  | .conversion ch c => Sys2Proof.Machine.execConversion ch c s
  | .integratorStep ch uv at_ => Sys2Proof.Machine.execIntegratorStep ch uv at_ s
  | .regulatorEvaluation ch r => Sys2Proof.Machine.execRegulatorEvaluation ch r s
  | .channelDiagnostic ch b q n => Sys2Proof.Machine.execChannelDiagnostic ch b q n s
  | .doThermal ch temp => Sys2Proof.Machine.execDoThermal ch temp s
  | .regFaultRestart ch => Sys2Proof.Machine.execRegFaultRestart ch s
  | .frondCause f b q crit => Sys2Proof.Machine.execFrondCause f b q crit s
  | .frondInputRestart f => Sys2Proof.Machine.execFrondInputRestart f s
  | .auxPowerArrive f otp => Sys2Proof.Machine.execAuxPowerArrive f otp s
  | .auxPowerLoss f => Sys2Proof.Machine.execAuxPowerLoss f s
  | .fsupArrive f q otp => Sys2Proof.Machine.execFsupArrive f s q otp
  | .faultSourceActivate id ctx => Sys2Proof.Machine.execFaultSourceActivate id ctx s
  | .faultSourceCleared id sub line act ctx => Sys2Proof.Machine.execFaultSourceCleared id sub line act ctx s
  | .escalation id sub => Sys2Proof.Machine.execEscalation id sub s
  | .shadowClose f => Sys2Proof.Machine.execShadowClose f s
  | .haltRelease => Sys2Proof.Machine.execHaltRelease s
  | .clockSrcLost oscB => Sys2Proof.Machine.execClockSrcLost oscB s
  | .clockBothLost => Sys2Proof.Machine.execClockBothLost s
  | .timeLocked => Sys2Proof.Machine.execTimeLocked s
  | .timeHoldover => Sys2Proof.Machine.execTimeHoldover s
  | .timeRegained => Sys2Proof.Machine.execTimeRegained s
  | .syncInSnap cycles => Sys2Proof.Machine.execSyncInSnap cycles s
  | .syncInPhaseReset => Sys2Proof.Machine.execSyncInPhaseReset s
  | .syncInCaptureTrigger cycles => Sys2Proof.Machine.execSyncInCaptureTrigger cycles s
  | .captureReadout r => Sys2Proof.Machine.execCaptureReadout r s
  | .recordDelivery q bad => Sys2Proof.Machine.execRecordDelivery q bad s
  | .holdoffExpiry r => Sys2Proof.Machine.execHoldoffExpiry r s
  | .lspFifoMove bad => Sys2Proof.Machine.execLspFifoMove bad s
  | .lspRead => Sys2Proof.Machine.execLspRead s
  | .flushTakeEffect q => Sys2Proof.Machine.execFlushTakeEffect q s
  | .datagramClose x => Sys2Proof.Machine.execDatagramClose x s
  | .dbCmd v => Sys2Proof.Machine.execDbCmd v s
  | .dbConsumer ofs v => Sys2Proof.Machine.execDbConsumer ofs v s
  | .nop d => Sys2Proof.Machine.execNop d s
  | .cfgWrite d => Sys2Proof.Machine.execCfgWrite d s
  | .commit d => Sys2Proof.Machine.execCommit d s
  | .snap d cycles => Sys2Proof.Machine.execSnap d cycles s
  | .outputSet d => Sys2Proof.Machine.execOutputSet d s
  | .arm d => Sys2Proof.Machine.execArm d s
  | .disarm d => Sys2Proof.Machine.execDisarm d s
  | .trigger d cycles => Sys2Proof.Machine.execTrigger d cycles s
  | .mapRead d => Sys2Proof.Machine.execMapRead d s
  | .mapReadDone => Sys2Proof.Machine.execMapReadDone s
  | .flush d => Sys2Proof.Machine.execFlush d s
  | .ruleLoad d => Sys2Proof.Machine.execRuleLoad d s
  | .speedTable d => Sys2Proof.Machine.execSpeedTable d s
  | .sync d => Sys2Proof.Machine.execSync d s
  | .syncDone => Sys2Proof.Machine.execSyncDone s
  | .faultClearChannel d => Sys2Proof.Machine.execFaultClearChannel d s
  | .faultClearFrond d => Sys2Proof.Machine.execFaultClearFrond d s
  | .faultClearSource d => Sys2Proof.Machine.execFaultClearSource d s
  | .faultClearLatch d => Sys2Proof.Machine.execFaultClearLatch d s
  | .cvuRun d => Sys2Proof.Machine.execCvuRun d s
  | .cvuRunDone u => Sys2Proof.Machine.execCvuRunDone u s
  | .timeout didx n => Sys2Proof.Machine.execTimeout didx n s
  | .blobLoad d => Sys2Proof.Machine.execBlobLoad d s
  | .blobStore => Sys2Proof.Machine.execBlobStore s
  | .getNonce d copyBad otpBad => Sys2Proof.Machine.execGetNonce d copyBad otpBad s
  | .getIdentity d copyBad otpBad => Sys2Proof.Machine.execGetIdentity d copyBad otpBad s
  | .getState d copyBad otpBad => Sys2Proof.Machine.execGetState d copyBad otpBad s
  | .takeOwnership d copyBad otpBad => Sys2Proof.Machine.execTakeOwnership d copyBad otpBad s
  | .keyInstall d copyBad otpBad => Sys2Proof.Machine.execKeyInstall d copyBad otpBad s
  | .unlock d copyBad otpBad => Sys2Proof.Machine.execUnlock d copyBad otpBad s
  | .relock d copyBad otpBad => Sys2Proof.Machine.execRelock d copyBad otpBad s
  | .seal d copyBad otpBad => Sys2Proof.Machine.execSeal d copyBad otpBad s
  | .unseal d copyBad otpBad => Sys2Proof.Machine.execUnseal d copyBad otpBad s
  | .rma d copyBad otpBad => Sys2Proof.Machine.execRma d copyBad otpBad s
  | .makerRestore d copyBad otpBad => Sys2Proof.Machine.execMakerRestore d copyBad otpBad s
  | .void d copyBad otpBad => Sys2Proof.Machine.execVoid d copyBad otpBad s
  | .fwUpdate d copyBad otpBad => Sys2Proof.Machine.execFwUpdate d copyBad otpBad s
  | .fwConfirm d copyBad otpBad => Sys2Proof.Machine.execFwConfirm d copyBad otpBad s
  | .ldevidGen d copyBad otpBad => Sys2Proof.Machine.execLdevidGen d copyBad otpBad s
  | .ldevidInstall d copyBad otpBad => Sys2Proof.Machine.execLdevidInstall d copyBad otpBad s
  | .selfTest d copyBad otpBad => Sys2Proof.Machine.execSelfTest d copyBad otpBad s
  | .authLockExpiry => Sys2Proof.Machine.execAuthLockExpiry s
  | .presenceExpiry => Sys2Proof.Machine.execPresenceExpiry s
  | .cryptoError => Sys2Proof.Machine.execCryptoError s
  | .ringEnable p r v => Sys2Proof.Machine.execRingEnable p r v s
  | .ringDisable p r v => Sys2Proof.Machine.execRingDisable p r v s
  | .statusBaseWrite p v => Sys2Proof.Machine.execStatusBaseWrite p v s
  | .chnSel p v => Sys2Proof.Machine.execChnSel p v s
  | .broadcastWrite p ofs v chw => Sys2Proof.Machine.execBroadcastWrite p ofs v s chw
  | .basicCodeWrite p ofs v => Sys2Proof.Machine.execBasicCodeWrite p ofs v s
  | .rwpValueWrite p ofs v => Sys2Proof.Machine.execRwpValueWrite p ofs v s
  | .rwpComplementWrite p ofs v => Sys2Proof.Machine.execRwpComplementWrite p ofs v s
  | .reg64LowRead p ofs sp => Sys2Proof.Machine.execReg64LowRead p ofs s sp
  | .reg64HighRead p ofs => Sys2Proof.Machine.execReg64HighRead p ofs s
  | .reg64AtomicRead p ofs sp => Sys2Proof.Machine.execReg64AtomicRead p ofs s sp
  | .reg64LowWrite p ofs v => Sys2Proof.Machine.execReg64LowWrite p ofs v s
  | .reg64HighWrite p ofs v => Sys2Proof.Machine.execReg64HighWrite p ofs v s
  | .mapPeekIdx p v => Sys2Proof.Machine.execMapPeekIdx p v s
  | .discard p view => Sys2Proof.Machine.execDiscard p view s
  | .cvuCtlAlg p u alg => Sys2Proof.Machine.execCvuCtlAlg p u alg s
  | .cvuInit p u alg => Sys2Proof.Machine.execCvuInit p u alg s
  | .cvuFeed8 p u v => Sys2Proof.Machine.execCvuFeed8 p u v s
  | .cvuFeed16 p u v => Sys2Proof.Machine.execCvuFeed16 p u v s
  | .cvuFeed32 p u v => Sys2Proof.Machine.execCvuFeed32 p u v s
  | .cvuStateWrite p u v => Sys2Proof.Machine.execCvuStateWrite p u v s
  | .dbgCtlWrite p v copyBad otpBad => Sys2Proof.Machine.execDbgCtlWrite p v copyBad otpBad s
  | .checkIn => Sys2Proof.Machine.execCheckIn s
  | .registerWrite p ofs len v hw chw sp => Sys2Proof.Machine.execRegisterWrite p ofs len v s hw chw sp
  | .functionLevelReset => Sys2Proof.Machine.execFunctionLevelReset s
  | .busMasterClear => Sys2Proof.Machine.execBusMasterClear s
  | .pciePerst high l => Sys2Proof.Machine.execPciePerst high l s
  | .pcieDegraded gts width => Sys2Proof.Machine.execPcieDegraded gts width s
  | .vlogValid cold resetLow boot1 => Sys2Proof.Machine.execVlogValid cold resetLow boot1 s
  | .auxPowerEnable g => Sys2Proof.Machine.execAuxPowerEnable g s
  | .moduleReset brownOut => Sys2Proof.Machine.execModuleReset brownOut s
  | .bootStart x => Sys2Proof.Machine.execBootStart x s
  | .bootDone => Sys2Proof.Machine.execBootDone s
  | .autonomousCommit => Sys2Proof.Machine.execAutonomousCommit s
  | .supplyPhase ph => Sys2Proof.Machine.execSupplyPhase ph s
  | .supplyPhaseRetry ph restored => Sys2Proof.Machine.execSupplyPhaseRetry ph restored s
  | .ethLinkDown p v => Sys2Proof.Machine.execEthLinkDown p v s
  | .ethLinkUp p speed v => Sys2Proof.Machine.execEthLinkUp p speed v s
  | .ethFrame p b v => Sys2Proof.Machine.execEthFrame p b v s
  | .tlsConnect root h => Sys2Proof.Machine.execTlsConnect root s h
  | .status id sq ofs n => Sys2Proof.Machine.execStatus id sq ofs n s
  | .netSet id sq body => Sys2Proof.Machine.execNetSet id sq body s
  | .macsecKey id sq p rx an key ssci pn => Sys2Proof.Machine.execMacsecKey id sq p rx an key ssci pn s
  | .macsecTxChange id sq p => Sys2Proof.Machine.execMacsecTxChange id sq p s
  | .descriptor id sq d => Sys2Proof.Machine.execDescriptor id sq d s
  | .clkBChange f bDelivers => Sys2Proof.Machine.execClkBChange f bDelivers s
  | .lspRdclkEdge => Sys2Proof.Machine.execLspRdclkEdge s
  | .badOpcode d => Sys2Proof.Machine.execBadOpcode d s
  | .clockSrcLostClear => Sys2Proof.Machine.execClockSrcLostClear s
  | .tlsSessionClose id => Sys2Proof.Machine.execTlsSessionClose id s
  | .zeroisationComplete => Sys2Proof.Machine.execZeroisationComplete s
  | .selfTestDone alg => Sys2Proof.Machine.execSelfTestDone alg s
  | .haltDrainTimeout => Sys2Proof.Machine.execHaltDrainTimeout s
  | .tickOutFall => Sys2Proof.Machine.execTickOutFall s
  | .syncOutRepeat level => Sys2Proof.Machine.execSyncOutRepeat level s
  | .addressAgeing m => Sys2Proof.Machine.execAddressAgeing m s
  | .gateControlListEntry p => Sys2Proof.Machine.execGateControlListEntry p s
  | .reserveStepBoundary => Sys2Proof.Machine.execReserveStepBoundary s

end Sys2Proof.Machine
end

