-- ==== Sys2Proof/Safety.lean ====
section
/-! DEFINITION. What counts as a sound state of the module, and the terms in which claims about every command are stated. -/

namespace Sys2Proof.Machine
open Sys2Proof

/-- A life-cycle code of Table 16-7. -/
def lcLegal (n : Nat) : Bool := decide (1 ≤ n) && decide (n ≤ 6)

/-- The transitions of Table 16-8 that a command of the module makes, from state a to state b. FAB to MAKER goes over JTAG, which has
no command. -/
def lcMove (a b : Nat) : Bool :=
  (a == lcMaker && b == lcOwned) || (a == lcOwned && b == lcSealed) || (a == lcSealed && b == lcOwned) ||
  ((a == lcOwned || a == lcSealed) && b == lcReturn) || (a == lcReturn && b == lcMaker) || (a != lcVoid && b == lcVoid)

/-- A module that a HALT source has stopped, or is stopping, has the HALT latch set (R491, R492). -/
def HaltHeld (s : State) : Prop := s.phase = .draining ∨ s.phase = .halted → s.pwr.haltLatch = true

/-- The number that the next executed descriptor gets is above those of the descriptors that wait. -/
def Fresh (s : State) : Prop := ∀ o ∈ s.outs, o.id < s.nextId

/-- The invariant that every command keeps: HALT is latched, the life cycle is one of Table 16-7, the condition map's memory has its
canonical form, and the numbers of waiting descriptors are below the next. -/
structure Sound (s : State) : Prop where
  halt : HaltHeld s
  life : lcLegal s.sec.lc = true
  map : Memory.wf s.map.mem
  ids : Fresh s

/-- The commands that put the logic side into reset (R492, R559). -/
def isReset : Instr → Bool
  | .moduleReset _ => true
  | .haltRelease => true
  | _ => false

/-- The frond whose own side a command acts on. -/
def onFrond : Instr → Option Nat
  | .frondTickEdge f _ => some f
  | .contentionSafeState ch _ => some (ch / 16)
  | .d0 f _ _ _ => some f
  | .d1 f _ => some f
  | .d2 f _ _ => some f
  | .ds f _ => some f
  | .snapSync f _ => some f
  | .snapDesc f _ => some f
  | .safe f _ _ => some f
  | .wdExpired f _ _ => some f
  | .conversion ch _ => some (ch / 16)
  | .integratorStep ch _ _ => some (ch / 16)
  | .regulatorEvaluation ch _ => some (ch / 16)
  | .channelDiagnostic ch _ _ _ => some (ch / 16)
  | .doThermal ch _ => some (ch / 16)
  | .regFaultRestart ch => some (ch / 16)
  | .frondCause f _ _ _ => some f
  | .frondInputRestart f => some f
  | .auxPowerArrive f _ => some f
  | .auxPowerLoss f => some f
  | .fsupArrive f _ _ => some f
  | .clkBChange f _ => some f
  | _ => none

/-- The descriptors that may move the life cycle (Table 16-8). -/
def movesLife : Instr → Bool
  | .takeOwnership .. | .seal .. | .unseal .. | .rma .. | .makerRestore .. | .void .. => true
  | _ => false

/-! ## Parts of the state and frames -/

/-- The parts of the module's state that the frames of commands are stated in: every field of State lies in one of them. -/
inductive Part where
  /-- The queue of commands. -/
  | pending
  /-- What the module has sent, and the messages that wait behind their mask. -/
  | outbox
  /-- The phase and the HALT latch. -/
  | halt
  /-- The mode. -/
  | auto
  /-- The tick counter, the epoch, the period and the phase count. -/
  | tick
  /-- The oscillators. -/
  | clocks
  /-- The time unit. -/
  | time
  /-- The resolution on its way to the fronds, and the distribution tag. -/
  | resolution
  /-- The check-ins of the management processor. -/
  | checkIn
  /-- The pins TICK_OUT, SYNC_OUT, SYNC_IN, ALIVE. -/
  | pins
  /-- Requests for phase resets. -/
  | sync
  /-- The staged configuration and what has been written to it. -/
  | staged
  /-- The configuration in force. -/
  | cfg
  /-- The registers of the two paths. -/
  | paths
  /-- Value words that wait for their complements. -/
  | pairs
  /-- ID_SCRATCH. -/
  | scratch
  /-- The sticky bits of ID_TORN and ID_WR_STAT. -/
  | sticky
  /-- The queues and the reserve of the step. -/
  | queues
  /-- The rings. -/
  | rings
  /-- The alive values of the command ring. -/
  | alives
  /-- The executed descriptors that wait. -/
  | descs
  /-- Status block base, tick vector, Bus Master Enable, MSI-X masks and table, base addresses. -/
  | host
  /-- The rejected doorbell. -/
  | doorbell
  /-- The check-value units. -/
  | cvu
  /-- The stream port. -/
  | lsp
  /-- The fault collector. -/
  | faults
  /-- The signal pairs found bad. -/
  | badPaths
  /-- The pending commit. -/
  | pend
  /-- What the core holds of the fronds and their links. -/
  | fronds
  /-- The fronds themselves. -/
  | field
  /-- The channels on the core side. -/
  | chans
  /-- The period boundary. -/
  | period
  /-- SNAP descriptors under way. -/
  | snaps
  /-- TICK_SUMMARY. -/
  | summary
  /-- Frond counts since reset. -/
  | age
  /-- Plans, blocks and features. -/
  | features
  /-- The speed references. -/
  | refs
  /-- The condition map. -/
  | map
  /-- The capture rings. -/
  | caps
  /-- The alarm rules. -/
  | rules
  /-- Temperature and supply as measured. -/
  | measured
  /-- Supply phases, auxiliary power, start-up. -/
  | supplies
  /-- The PCIe link. -/
  | link
  /-- The budget results. -/
  | budget
  /-- The life cycle. -/
  | lifeCycle
  /-- The rest of the security subsystem. -/
  | security
  /-- The Ethernet ports. -/
  | ports
  /-- The learned addresses, and the neighbours of ARP and ND. -/
  | addrs
  /-- The publishers. -/
  | pubs
  /-- Management sessions and their DESCRIPTOR requests. -/
  | sessions
  /-- Grandmaster and stepsRemoved. -/
  | timeView
  /-- MAP_READ transfers. -/
  | xfers
  deriving DecidableEq, Repr

/-- States s and t agree in a part. -/
def Part.same (p : Part) (s t : State) : Prop :=
  match p with
  | .pending => t.pending = s.pending
  | .outbox => (t.outbox, t.pba) = (s.outbox, s.pba)
  | .halt => (t.phase, t.pwr.haltLatch) = (s.phase, s.pwr.haltLatch)
  | .auto => t.auto = s.auto
  | .tick =>
    (t.tm.started, t.tm.count, t.tm.prev, t.tm.p0, t.tm.epoch, t.tm.dpc, t.tm.dpcPrev) = (s.tm.started, s.tm.count,
      s.tm.prev, s.tm.p0, s.tm.epoch, s.tm.dpc, s.tm.dpcPrev)
  | .clocks => (t.tm.clkA, t.tm.clkB, t.tm.clkSel) = (s.tm.clkA, s.tm.clkB, s.tm.clkSel)
  | .time =>
    (t.tm.state, t.tm.conflict, t.tm.offset, t.tm.run, t.tm.slew, t.tm.moved, t.tm.renumbered, t.tm.jump) = (s.tm.state,
      s.tm.conflict, s.tm.offset, s.tm.run, s.tm.slew, s.tm.moved, s.tm.renumbered, s.tm.jump)
  | .resolution => (t.tm.resTag, t.tm.resEpoch, t.tm.nextTag) = (s.tm.resTag, s.tm.resEpoch, s.tm.nextTag)
  | .checkIn => (t.tm.checkedIn, t.tm.mpAlive, t.tm.missed, t.tm.inARow) = (s.tm.checkedIn, s.tm.mpAlive, s.tm.missed, s.tm.inARow)
  | .pins => (t.tm.tickOut, t.tm.syncOut, t.tm.syncIn, t.alive) = (s.tm.tickOut, s.tm.syncOut, s.tm.syncIn, s.alive)
  | .sync =>
    (t.tm.syncReq, t.tm.syncIds, t.tm.syncFin, t.tm.syncNext, t.tm.syncCleared) = (s.tm.syncReq, s.tm.syncIds,
      s.tm.syncFin, s.tm.syncNext, s.tm.syncCleared)
  | .staged => (t.staged, t.wrSince, t.tm.periodWritten) = (s.staged, s.wrSince, s.tm.periodWritten)
  | .cfg => t.cfg = s.cfg
  | .paths => (t.pcie, t.mp) = (s.pcie, s.mp)
  | .pairs => t.rwp = s.rwp
  | .scratch => t.scratch = s.scratch
  | .sticky => (t.lockedWr, t.orphan, t.wrOfs, t.torn, t.tornOfs) = (s.lockedWr, s.orphan, s.wrOfs, s.torn, s.tornOfs)
  | .queues => (t.queues, t.reserve) = (s.queues, s.reserve)
  | .rings => t.rings = s.rings
  | .alives => (t.expAlive, t.lastAlive) = (s.expAlive, s.lastAlive)
  | .descs => (t.outs, t.nextId) = (s.outs, s.nextId)
  | .host => (t.stsBase, t.tickIrq, t.tickDiv, t.bme, t.msix, t.ep) = (s.stsBase, s.tickIrq, s.tickDiv, s.bme, s.msix, s.ep)
  | .doorbell => (t.dberr, t.dbOfs) = (s.dberr, s.dbOfs)
  | .cvu => t.cvu = s.cvu
  | .lsp => t.lsp = s.lsp
  | .faults =>
    (t.srcs, t.latch, t.latchSeq, t.overflow, t.fltCount, t.shadows, t.noted) = (s.srcs, s.latch, s.latchSeq,
      s.overflow, s.fltCount, s.shadows, s.noted)
  | .badPaths => t.badPaths = s.badPaths
  | .pend => t.pend = s.pend
  | .fronds => t.fronds = s.fronds
  | .field => t.field = s.field
  | .chans => t.chans = s.chans
  | .period => (t.boundary, t.latNow) = (s.boundary, s.latNow)
  | .snaps => t.snaps = s.snaps
  | .summary => (t.sumDone, t.sumSnap, t.sumEpoch, t.sumNext, t.sumNextEp) = (s.sumDone, s.sumSnap, s.sumEpoch, s.sumNext, s.sumNextEp)
  | .age => (t.abs, t.absPrev) = (s.abs, s.absPrev)
  | .features => (t.plans, t.blocks, t.feats, t.sliceRun) = (s.plans, s.blocks, s.feats, s.sliceRun)
  | .refs => t.refs = s.refs
  | .map => t.map = s.map
  | .caps => t.caps = s.caps
  | .rules => (t.rules, t.rulEval) = (s.rules, s.rulEval)
  | .measured =>
    (t.pwr.temp, t.pwr.above, t.pwr.aboveFor, t.pwr.vlog, t.pwr.diss) = (s.pwr.temp, s.pwr.above, s.pwr.aboveFor,
      s.pwr.vlog, s.pwr.diss)
  | .supplies =>
    (t.pwr.failed, t.pwr.valid, t.pwr.aux, t.pwr.boot1, t.pwr.presPend, t.pwr.booted) = (s.pwr.failed, s.pwr.valid,
      s.pwr.aux, s.pwr.boot1, s.pwr.presPend, s.pwr.booted)
  | .link =>
    (t.pwr.perst, t.pwr.linkUp, t.pwr.gts, t.pwr.width, t.pwr.drain) = (s.pwr.perst, s.pwr.linkUp, s.pwr.gts,
      s.pwr.width, s.pwr.drain)
  | .budget => t.bud = s.bud
  | .lifeCycle => (t.sec.lc, t.sec.slots) = (s.sec.lc, s.sec.slots)
  | .security =>
    (t.sec.otpOk, t.sec.consistent, t.sec.approved, t.sec.naCause, t.sec.unlocked, t.sec.presence, t.sec.cryptoErr,
      t.sec.selfOk, t.sec.keys, t.sec.ldev, t.sec.ldevCert, t.sec.bootB, t.sec.trial, t.sec.fallback, t.sec.authLock,
      t.sec.fails, t.sec.nonce, t.sec.draws, t.sec.imgA, t.sec.imgB, t.sec.pref, t.sec.trialRec, t.sec.part,
      t.sec.rollback, t.sec.blobSeq, t.sec.storeA, t.sec.storeB, t.sec.zeroDone, t.sec.dbg, t.sec.destroyed,
      t.sec.ownerEpoch, t.sec.idev) = (s.sec.otpOk,
      s.sec.consistent, s.sec.approved, s.sec.naCause, s.sec.unlocked, s.sec.presence, s.sec.cryptoErr, s.sec.selfOk,
      s.sec.keys, s.sec.ldev, s.sec.ldevCert, s.sec.bootB, s.sec.trial, s.sec.fallback, s.sec.authLock, s.sec.fails,
      s.sec.nonce, s.sec.draws, s.sec.imgA, s.sec.imgB, s.sec.pref, s.sec.trialRec, s.sec.part, s.sec.rollback,
      s.sec.blobSeq, s.sec.storeA, s.sec.storeB, s.sec.zeroDone, s.sec.dbg,
      s.sec.destroyed, s.sec.ownerEpoch, s.sec.idev)
  | .ports => (t.net.p0, t.net.p1) = (s.net.p0, s.net.p1)
  | .addrs => (t.net.addrs, t.net.neigh) = (s.net.addrs, s.net.neigh)
  | .pubs => t.net.pubs = s.net.pubs
  | .sessions => (t.net.sessions, t.net.asked) = (s.net.sessions, s.net.asked)
  | .timeView => (t.net.gm, t.net.stepsRemoved) = (s.net.gm, s.net.stepsRemoved)
  | .xfers => t.xfers = s.xfers

/-- From s to t nothing changes outside the parts of l. -/
def Only (l : List Part) (s t : State) : Prop := ∀ p, p ∉ l → p.same s t

/-- From s to t nothing changes but frond f's own side. -/
def AtFrond (f : Nat) (s t : State) : Prop := Only [.field] s t ∧ ∀ g, g ≠ f → fieldOf t g = fieldOf s g

/-- From s to t nothing changes but one channel on its frond's side. -/
def AtChan (ch : Nat) (s t : State) : Prop :=
  AtFrond (ch / 16) s t ∧ fieldOf t (ch / 16) = { fieldOf s (ch / 16) with chans := (fieldOf t (ch / 16)).chans } ∧
  ∀ q, q ≠ ch % 16 → fchan (fieldOf t (ch / 16)) q = fchan (fieldOf s (ch / 16)) q

/-- What a report of the fault collector changes. -/
def reported : List Part :=
  [.outbox, .queues, .faults]

/-- What writes to BAR0 change. -/
def written : List Part :=
  [.outbox, .staged, .paths, .pairs, .scratch, .sticky, .queues, .rings, .alives, .host, .doorbell, .cvu, .faults, .chans,
   .security]

/-- What every descriptor changes. -/
def executed : List Part :=
  [.outbox, .queues, .rings, .alives, .descs, .faults, .sessions]

/-- What every descriptor changes, and some parts more. -/
def executedAnd (l : List Part) : List Part := executed ++ l

/-- What every operation of SEC_OP changes. -/
def secured : List Part :=
  [.outbox, .halt, .queues, .rings, .alives, .descs, .faults, .fronds, .security, .sessions]

/-- What a reset of the logic side changes. -/
def cleared : List Part :=
  [.outbox, .halt, .auto, .tick, .clocks, .time, .resolution, .checkIn, .pins, .sync, .staged, .cfg, .paths, .pairs, .scratch, .sticky,
   .queues, .rings, .alives, .descs, .host, .doorbell, .cvu, .lsp, .faults, .badPaths, .pend, .fronds, .chans, .period, .snaps,
   .summary, .age, .features, .refs, .map, .caps, .rules, .measured, .supplies, .link, .budget, .security, .ports, .addrs,
   .pubs, .sessions, .timeView, .xfers]

/-- The parts of the state that a command may change: its frame. -/
def touches (c : Instr) : List Part :=
  match c with
  | .tickEdge _ =>
      reported ++ [.halt, .tick, .time, .checkIn, .pins, .sync, .staged, .cfg, .rings, .descs, .cvu, .lsp, .fronds,
      .chans, .period, .snaps, .summary, .age, .features, .refs, .map, .caps, .rules, .measured, .security, .ports, .pubs,
      .sessions, .xfers]
  | .tbaseHigh => reported
  | .deferredWork => [.outbox, .queues, .rings, .descs, .features, .map, .caps, .sessions]
  | .featureSlice => [.queues, .features, .map]
  | .periodBoundary _ => reported ++ [.rings, .descs, .fronds, .period, .refs, .map, .caps, .rules, .ports, .sessions, .xfers]
  | .downlinkSuperframe _ => [.outbox, .resolution, .queues, .rings, .descs, .pend, .fronds, .sessions]
  | .commitResolve => [.resolution, .pend, .fronds]
  | .u0 _ _ _ =>
      reported ++ [.rings, .descs, .badPaths, .pend, .fronds, .chans, .snaps, .summary, .features, .refs, .map, .caps,
      .sessions]
  | .linkUp _ _ => [.queues, .faults, .fronds]
  | .uplinkFrame _ _ _ _ _ => reported ++ [.rings, .descs, .fronds, .chans, .snaps, .summary, .features, .refs, .caps, .sessions]
  | .frondTickEdge _ _ => [.outbox, .sync, .field]
  | .contentionSafeState _ _ => [.field]
  | .d0 _ _ _ _ => reported ++ [.fronds, .field]
  | .d1 _ _ => reported ++ [.fronds, .field]
  | .d2 _ _ _ => reported ++ [.fronds, .field]
  | .ds _ _ => reported ++ [.fronds, .field]
  | .snapSync _ _ => reported ++ [.fronds, .field]
  | .snapDesc _ _ => reported ++ [.fronds, .field]
  | .safe _ _ _ => reported ++ [.fronds, .field]
  | .wdExpired _ _ _ => [.field]
  | .conversion _ _ => [.field]
  | .integratorStep _ _ _ => [.field]
  | .regulatorEvaluation _ _ => [.field]
  | .channelDiagnostic _ _ _ _ => [.field]
  | .doThermal _ _ => [.field]
  | .regFaultRestart _ => [.field]
  | .frondCause _ _ _ _ => [.field]
  | .frondInputRestart _ => [.field]
  | .auxPowerArrive _ _ => [.field]
  | .auxPowerLoss _ => [.field]
  | .fsupArrive _ _ _ => [.field]
  | .faultSourceActivate _ _ => reported ++ [.halt, .badPaths, .fronds]
  | .faultSourceCleared _ _ _ _ _ => reported ++ [.halt, .badPaths, .fronds]
  | .escalation _ _ => reported ++ [.fronds]
  | .shadowClose _ => [.queues, .faults]
  | .haltRelease => cleared
  | .clockSrcLost _ => reported ++ [.clocks]
  | .clockBothLost => reported ++ [.halt, .clocks, .fronds]
  | .timeLocked => reported ++ [.time]
  | .timeHoldover => reported ++ [.time]
  | .timeRegained => reported ++ [.time]
  | .syncInSnap _ => [.outbox, .fronds]
  | .syncInPhaseReset => [.sync]
  | .syncInCaptureTrigger _ => [.caps]
  | .captureReadout _ => [.outbox, .queues, .rings, .descs, .caps, .sessions]
  | .recordDelivery _ _ => reported ++ [.halt, .pins, .rings, .ports, .pubs]
  | .holdoffExpiry _ => [.outbox, .rings]
  | .lspFifoMove _ => reported ++ [.lsp]
  | .lspRead => [.outbox, .queues, .lsp]
  | .flushTakeEffect _ => [.outbox, .queues, .rings, .descs, .sessions]
  | .datagramClose _ => reported ++ [.ports, .pubs]
  | .dbCmd _ => reported ++ [.rings, .doorbell]
  | .dbConsumer _ _ => reported ++ [.rings, .host, .doorbell]
  | .nop _ => executed
  | .cfgWrite _ => executed ++ [.staged, .pairs, .sticky, .host]
  | .commit _ => executed ++ [.resolution, .staged, .pairs, .pend, .fronds, .link, .budget]
  | .snap _ _ => executed ++ [.fronds, .snaps]
  | .outputSet _ => executed ++ [.fronds]
  | .arm _ => executed ++ [.caps]
  | .disarm _ => executed ++ [.caps]
  | .trigger _ _ => executed ++ [.caps]
  | .mapRead _ => executed ++ [.xfers]
  | .mapReadDone => [.outbox, .queues, .rings, .descs, .sessions, .xfers]
  | .flush _ => executed
  | .ruleLoad _ => executed ++ [.staged]
  | .speedTable _ => executed ++ [.staged]
  | .sync _ => executed ++ [.sync]
  | .syncDone => [.outbox, .sync, .rings, .descs, .sessions]
  | .faultClearChannel _ => executed ++ [.fronds]
  | .faultClearFrond _ => executed ++ [.fronds]
  | .faultClearSource _ => executed ++ [.badPaths, .fronds]
  | .faultClearLatch _ => executed
  | .cvuRun _ => executed ++ [.cvu]
  | .cvuRunDone _ => [.outbox, .rings, .descs, .cvu, .sessions]
  | .timeout _ _ => [.outbox, .queues, .rings, .descs, .cvu, .sessions, .xfers]
  | .blobLoad _ => executed ++ [.staged, .pairs, .sticky, .host, .security]
  | .blobStore => [.outbox, .rings, .descs, .security, .sessions]
  | .getNonce _ _ _ => secured
  | .getIdentity _ _ _ => secured
  | .getState _ _ _ => secured
  | .takeOwnership _ _ _ => secured ++ [.lifeCycle]
  | .keyInstall _ _ _ => secured
  | .unlock _ _ _ => secured
  | .relock _ _ _ => secured
  | .seal _ _ _ => secured ++ [.lifeCycle]
  | .unseal _ _ _ => secured ++ [.lifeCycle]
  | .rma _ _ _ => secured ++ [.lifeCycle, .ports]
  | .makerRestore _ _ _ => secured ++ [.lifeCycle]
  | .void _ _ _ => secured ++ [.lifeCycle, .ports]
  | .fwUpdate _ _ _ => secured
  | .fwConfirm _ _ _ => secured
  | .ldevidGen _ _ _ => secured
  | .ldevidInstall _ _ _ => secured
  | .selfTest _ _ _ => secured
  | .authLockExpiry => [.security]
  | .presenceExpiry => [.security]
  | .cryptoError => reported ++ [.security, .sessions]
  | .ringEnable _ _ _ => written
  | .ringDisable _ _ _ => written
  | .statusBaseWrite _ _ => written
  | .chnSel _ _ => written
  | .broadcastWrite _ _ _ _ => written
  | .basicCodeWrite _ _ _ => written
  | .rwpValueWrite _ _ _ => written
  | .rwpComplementWrite _ _ _ => written
  | .reg64LowRead _ _ _ => [.outbox, .paths]
  | .reg64HighRead _ _ => [.outbox, .paths, .sticky]
  | .reg64AtomicRead _ _ _ => [.outbox]
  | .reg64LowWrite _ _ _ => written
  | .reg64HighWrite _ _ _ => written
  | .mapPeekIdx _ _ => written
  | .discard _ _ => written
  | .cvuCtlAlg _ _ _ => written
  | .cvuInit _ _ _ => written
  | .cvuFeed8 _ _ _ => written
  | .cvuFeed16 _ _ _ => written
  | .cvuFeed32 _ _ _ => written
  | .cvuStateWrite _ _ _ => written
  | .dbgCtlWrite _ _ _ _ => reported ++ [.halt, .sticky, .fronds, .security]
  | .checkIn => [.checkIn]
  | .registerWrite _ _ _ _ _ _ _ => written
  | .functionLevelReset => [.rings, .descs, .host]
  | .busMasterClear => [.rings, .descs, .host]
  | .pciePerst _ _ => reported ++ [.rings, .descs, .host, .link]
  | .pcieDegraded _ _ => reported ++ [.link]
  | .vlogValid _ _ _ => [.halt, .clocks, .supplies]
  | .auxPowerEnable _ => [.supplies]
  | .moduleReset _ => cleared
  | .bootStart _ => reported ++ [.halt, .auto, .clocks, .host, .fronds, .supplies, .link, .security, .ports, .sessions]
  | .bootDone => reported ++ [.halt, .rings, .alives, .host, .supplies, .security]
  | .autonomousCommit => executed ++ [.resolution, .staged, .pairs, .sticky, .host, .pend, .fronds, .link, .budget]
  | .supplyPhase _ => reported ++ [.supplies]
  | .supplyPhaseRetry _ _ => reported ++ [.supplies]
  | .ethLinkDown _ _ => reported ++ [.time, .ports, .timeView]
  | .ethLinkUp _ _ _ => reported ++ [.ports, .timeView]
  | .ethFrame _ _ _ => reported ++ [.ports, .addrs, .timeView]
  | .tlsConnect _ _ => reported ++ [.security, .sessions]
  | .status _ _ _ _ => [.outbox]
  | .netSet _ _ _ => [.outbox, .staged]
  | .macsecKey _ _ _ _ _ _ _ _ => reported ++ [.ports]
  | .macsecTxChange _ _ _ => reported ++ [.ports]
  | .descriptor _ _ _ => [.outbox, .rings, .sessions]
  | .clkBChange _ _ => [.field]
  | .lspRdclkEdge => [.queues, .lsp]
  | .badOpcode _ => executed
  | .clockSrcLostClear => [.clocks, .queues, .faults]
  | .tlsSessionClose _ => [.sessions]
  | .zeroisationComplete => [.outbox, .rings, .descs, .security, .sessions]
  | .selfTestDone _ => reported ++ [.rings, .descs, .security, .sessions]
  | .haltDrainTimeout => [.halt, .pins]
  | .tickOutFall => [.pins]
  | .syncOutRepeat _ => [.pins]
  | .addressAgeing _ => [.addrs]
  | .gateControlListEntry _ => reported ++ [.ports]
  | .reserveStepBoundary => [.queues]

/-! ## Descriptors -/

/-- The descriptor in front of the command ring passes every check that a row of this form makes before it executes (R393, R394, R419 to
R422). -/
structure Takes (form : DescForm) (d : Desc) (s : State) : Prop where
  ready : canTake s = true
  alive : BitVec.ofNat 8 (dF d 1 1) = s.expAlive
  crc : dCrcOk d = true
  mine : form.mine d = true
  unused : unusedZero d form.used = true
  tmo : dTmo d = 0 ∨ form.tmo = true
  ok : form.ok d = true
  pay : payBad form d = false
  free : form.wait d s = false

/-- From s to t the descriptor in front has been taken: C and the expected alive value have moved on by one (R394, R419). -/
def Consumed (s t : State) : Prop :=
  (ring t cmdRing).c = (ring s cmdRing).c + 1 ∧ t.expAlive = s.expAlive + 1 ∧ t.lastAlive = some s.expAlive

/-- From s to t the module has written these bytes into the next entry of the completion ring (R411, R420); what it sent before and
after stands around them in the outbox. -/
def WritesCpl (b : List Byte) (s t : State) : Prop :=
  ∃ l m, t.outbox = l ++ Output.hostWrite
      ((ring s cplRing).base + BitVec.ofNat 64 ((ring s cplRing).p.toNat % ringSize (ring s cplRing) * 32)) b :: (m ++ s.outbox)

/-- From s to t the module has written the completion of descriptor d with a status and a result (Table 12-8). -/
def Reports (d : Desc) (status : Nat) (res : List Byte) (s t : State) : Prop :=
  WritesCpl (cplBytes (BitVec.ofNat 8 (dOp d)) status (BitVec.ofNat 16 (frontIdx s).toNat) (dTag d) res) s t

/-- From s to t the module has written the completion of a waiting descriptor. -/
def ReportsOut (o : Outstanding) (status : Nat) (res : List Byte) (s t : State) : Prop :=
  WritesCpl (cplBytes o.opcode status o.didx o.tag res) s t

/-- The command takes descriptor d, reports a status and a result, and changes only the parts of l. -/
def Completes (c : Instr) (d : Desc) (l : List Part) (status : Nat) (res : List Byte) (s t : State) : Prop :=
  exec c s = .next t ∧ Consumed s t ∧ Reports d status res s t ∧ Only l s t

/-- The command takes descriptor d, which then waits under the next number, and changes only the parts of l. -/
def Starts (c : Instr) (d : Desc) (l : List Part) (s t : State) : Prop :=
  exec c s = .next t ∧ Consumed s t ∧ Only l s t ∧ t.nextId = s.nextId + 1 ∧
  ∃ o, outOf t s.nextId = some o ∧ o.opcode = BitVec.ofNat 8 (dOp d) ∧ o.didx = BitVec.ofNat 16 (frontIdx s).toNat ∧ o.tag = dTag d ∧
    o.tmo = dTmo d ∧ o.lost = false

/-- The subsystem may run an operation of SEC_OP in this state: the life cycle is stored well and is one of the operation's states, and
there is no crypto error (R520, R533, R540); the operation's descriptor gets a number of its own. -/
def SecReady (states : List Nat) (s : State) : Prop :=
  Fresh s ∧ s.sec.otpOk = true ∧ s.sec.cryptoErr = false ∧ states.contains s.sec.lc = true

/-- A token that passes for an operation under a key, while AUTH_LOCK is 0 (R539, R542). -/
def Token (op key : Nat) (d : Desc) (s : State) : Prop :=
  s.sec.authLock = false ∧ tokenOk s op key (payload d (dF d 12 4)) = true

/-- The module can write a completion now. -/
def CanReport (s : State) : Prop := running s = true ∧ (ring s cplRing).en = true

end Sys2Proof.Machine
end

