-- ==== Sys2Proof/Certificates/Slice0/Obligations.lean ====
section
/-! DEFINITION. The statements about this model for the provers. -/

open Sys2Proof Sys2Proof.Machine

/-- A step takes the command at the front of the queue and runs it on the rest. -/
def Obligations.StepRunsFrontCommand : Prop :=
  ∀ (c : Instr) (s : State), step { s with pending := c :: s.pending } = exec c s

/-- With no command waiting a step changes nothing; no word spells a command. Both are the model's choice (assumption log 1). -/
def Obligations.EmptyQueueIdles : Prop :=
  (∀ s : State, s.pending = [] → step s = .next s) ∧
  (∀ n w, decodeTableWord n w = none) ∧ ∀ (s : State) (n w : Nat), s.withFetchWord n w = s

/-- Every command answers a next state and changes only the parts of the state that its frame names. -/
def Obligations.EveryCommandKeepsTheRest : Prop :=
  ∀ (c : Instr) (s : State), ∃ t, exec c s = .next t ∧ Only (touches c) s t

/-- The module right after reset is sound. The life-cycle code stored at reset is the model's choice (assumption log 5). -/
def Obligations.ResetStateIsSound : Prop :=
  Sound State.reset

/-- Every step answers a next state and keeps the module sound. -/
def Obligations.EveryStepKeepsSound : Prop :=
  ∀ s : State, Sound s → ∃ t, step s = .next t ∧ Sound t

/-- Only TICK_EDGE and the resets change the tick counter and the configuration in force. -/
def Obligations.CountAndConfigChangeOnlyAtEdges : Prop :=
  ∀ (c : Instr) (s t : State), exec c s = .next t →
    (isReset c = false → (∀ i, c ≠ .tickEdge i) → t.cfg = s.cfg ∧ t.tm.count = s.tm.count) ∧
    (isReset c = false → (∀ i, c ≠ .bootStart i) → t.auto = s.auto)

/-- The life cycle moves only along the transitions of Table 16-8, and only by six descriptors. -/
def Obligations.LifeCycleMovesOnlyAsTabled : Prop :=
  ∀ (c : Instr) (s t : State), exec c s = .next t →
    t.sec.lc = s.sec.lc ∨ (movesLife c = true ∧ lcMove s.sec.lc t.sec.lc = true)

/-- A command changes at most the frond that it acts on. -/
def Obligations.CommandsReachOneFrondOnly : Prop :=
  ∀ (c : Instr) (s t : State) (f : Nat), onFrond c ≠ some f → exec c s = .next t → fieldOf t f = fieldOf s f

/-- What the module has sent stays sent, and no command touches the queue of commands. -/
def Obligations.OutputsAreNeverTakenBack : Prop :=
  ∀ (c : Instr) (s t : State), exec c s = .next t → s.outbox <:+ t.outbox ∧ t.pending = s.pending

/-- Reads of a 64-bit register by halves and at once (R159, R160, R162). -/
def Obligations.Reg64ReadsAreCoherent : Prop :=
  ∀ (p : Path) (ofs : Nat) (s : State), pathOpen p s = true → readOpen s ofs = true → is64 ofs = true →
    (∃ t, exec (.reg64LowRead p ofs) s = .next t ∧ Only [.outbox, .paths] s t ∧
      t.outbox = .readData p ((readReg p s ofs).setWidth 64) :: s.outbox ∧ (∀ q, q ≠ p → pathRegs q t = pathRegs q s) ∧
      pathRegs p t = { pathRegs p s with shadow := some (ofs, shadowChan p s ofs, readReg p s (ofs + 4)) }) ∧
    (∀ w, (pathRegs p s).shadow = some (ofs, shadowChan p s ofs, w) →
      ∃ t, exec (.reg64HighRead p ofs) s = .next t ∧ Only [.outbox, .paths] s t ∧
        t.outbox = .readData p (w.setWidth 64) :: s.outbox ∧ (∀ q, q ≠ p → pathRegs q t = pathRegs q s) ∧
        pathRegs p t = { pathRegs p s with shadow := none }) ∧
    ((∀ w, (pathRegs p s).shadow ≠ some (ofs, shadowChan p s ofs, w)) →
      exec (.reg64HighRead p ofs) s = .next { s with
        outbox := .readData p ((readReg p s (ofs + 4)).setWidth 64) :: s.outbox, torn := true,
        tornOfs := if s.torn then s.tornOfs else BitVec.ofNat 16 (ofs + 4) }) ∧
    (ofs % 8 = 0 → exec (.reg64AtomicRead p ofs) s = .next { s with
      outbox := .readData p (readReg p s (ofs + 4) ++ readReg p s ofs) :: s.outbox })

/-- Plain reads, 8-byte reads of a pair, accesses of BAR2 and of configuration space, and those not supported (R405). The layouts,
and that an aligned unlisted offset of BAR2 is accepted, are the model's choice (assumption log 82). -/
def Obligations.AccessesOfOtherShapes : Prop :=
  ∀ (p : Path) (ofs : Nat) (s : State), pathOpen p s = true → s.phase ≠ .off → s.phase ≠ .reset →
    (ofs % 4 = 0 → ofs < 0x10000 → is64 ofs = false → exec (.reg64LowRead p ofs) s = .next { s with
      outbox := .readData p ((readReg p s ofs).setWidth 64) :: s.outbox }) ∧
    (ofs % 4 ≠ 0 → exec (.reg64LowRead p ofs) s = .next { s with outbox := .unsupported p :: s.outbox }) ∧
    (isRwp ofs = true → readOpen s ofs = true → readOpen s (ofs + 4) = true →
      exec (.reg64AtomicRead p ofs) s = .next { s with
        outbox := .readData p (~~~(readReg p s ofs) ++ readReg p s ofs) :: s.outbox }) ∧
    (¬(ofs % 8 = 0 ∧ (is64 ofs = true ∨ isRwp ofs = true)) →
      exec (.reg64AtomicRead p ofs) s = .next { s with outbox := .unsupported p :: s.outbox }) ∧
    (∀ (len : Nat) (v : DWord) (hw : Word), ¬(len = 4 ∧ ofs % 4 = 0 ∧ ofs < 0x10000) → ¬(len = 8 ∧ ofs % 8 = 0 ∧ is64 ofs = true) →
      exec (.registerWrite p ofs len v hw) s = .next { s with outbox := .unsupported p :: s.outbox }) ∧
    (endpointOpen s = true →
      (∀ i, ofs = 0x800 + 4 * i → i < 128 → exec (.reg64LowRead .pcie ofs .bar2) s = .next { s with
        outbox := .readData .pcie ((msixRead s i).setWidth 64) :: s.outbox }) ∧
      (ofs = 0xC00 → exec (.reg64LowRead .pcie ofs .bar2) s = .next { s with
        outbox := .readData .pcie (BitVec.ofNat 64 (s.pba % 2 ^ 32)) :: s.outbox }) ∧
      (∀ r, doorbellRing ofs = some r → exec (.reg64LowRead .pcie ofs .bar2) s = .next { s with
        outbox := .readData .pcie ((ring s r).db.setWidth 64) :: s.outbox }) ∧
      (ofs % 4 ≠ 0 ∨ 0x1000 ≤ ofs → exec (.reg64LowRead .pcie ofs .bar2) s = .next { s with
        outbox := .unsupported .pcie :: s.outbox }) ∧
      (ofs % 4 = 0 → exec (.reg64LowRead .pcie ofs .config) s = .next { s with
        outbox := .readData .pcie ((pciRead s ofs).setWidth 64) :: s.outbox }) ∧
      (ofs % 4 ≠ 0 → exec (.reg64LowRead .pcie ofs .config) s = .next { s with outbox := .unsupported .pcie :: s.outbox })) ∧
    (endpointOpen s = true → running s = true → ∀ v : DWord,
      (∀ i, i < 128 → i % 4 ≠ 3 → exec (.registerWrite .pcie (0x800 + 4 * i) 4 v 0 [] .bar2) s = .next { s with
        ep := { s.ep with tab := tput s.ep.tab i (v.setWidth 32) } }) ∧
      (∀ n, n < 32 → ∃ t, exec (.registerWrite .pcie (0x800 + 16 * n + 12) 4 v 0 [] .bar2) s = .next t ∧ Only [.outbox, .host] s t ∧
        (t.stsBase, t.tickIrq, t.tickDiv, t.bme, t.ep) = (s.stsBase, s.tickIrq, s.tickDiv, s.bme, s.ep) ∧
        t.msix.testBit n = !v.getLsbD 0 ∧ (∀ m, m ≠ n → t.msix.testBit m = s.msix.testBit m) ∧
        (v.getLsbD 0 = true ∨ s.pba.testBit n = false → t.outbox = s.outbox ∧ t.pba = s.pba) ∧
        (v.getLsbD 0 = false → s.pba.testBit n = true → s.bme = true →
          t.outbox = .msix n :: s.outbox ∧ t.pba.testBit n = false ∧ ∀ m, m ≠ n → t.pba.testBit m = s.pba.testBit m)) ∧
      (ofs % 4 = 0 → ofs < 0x1000 → msixDword ofs = none → doorbellRing ofs = none →
        exec (.registerWrite .pcie ofs 4 v 0 [] .bar2) s = .next s ∧ exec (.dbConsumer ofs (v.setWidth 32)) s = .next s) ∧
      (v.getLsbD 2 = true → exec (.registerWrite .pcie 0x04 4 v 0 [] .config) s = .next { s with bme := true }) ∧
      (v.getLsbD 2 = false → ∃ t, exec (.registerWrite .pcie 0x04 4 v 0 [] .config) s = .next t ∧ t.bme = false ∧
        (∀ r, r < 19 → (ring t r).en = false) ∧ (t.stsBase, t.msix, t.ep) = (s.stsBase, s.msix, s.ep)) ∧
      (ofs ∈ [0x10, 0x14, 0x18, 0x1C] → exec (.registerWrite .pcie ofs 4 v 0 [] .config) s = .next { s with
        ep := { s.ep with bars := tput s.ep.bars ofs (v.setWidth 32 &&& barMask ofs) } }) ∧
      (ofs % 4 ≠ 0 → exec (.registerWrite .pcie ofs 4 v 0 [] .bar2) s = .next { s with outbox := .unsupported .pcie :: s.outbox } ∧
        exec (.registerWrite .pcie ofs 4 v 0 [] .config) s = .next { s with outbox := .unsupported .pcie :: s.outbox }))

/-- Writes of a 64-bit register by halves and at once (R445). -/
def Obligations.Reg64WritesTakeBothHalves : Prop :=
  ∀ (p : Path) (s : State), writeOpen p s 0x1020 = true →
    (∀ (ofs : Nat) (v : Word), is64W ofs = true → locked64 ofs s = false → (ofs = 0x1020 → isSealed s = false) →
      ∃ t, exec (.reg64LowWrite p ofs v) s = .next t ∧ Only [.paths] s t ∧ (∀ q, q ≠ p → pathRegs q t = pathRegs q s) ∧
        pathRegs p t = { pathRegs p s with held := tput (pathRegs p s).held ofs v }) ∧
    (∀ v : Word, isSealed s = false → ∃ t, exec (.reg64HighWrite p 0x1020 v) s = .next t ∧ Only [.paths, .staged] s t ∧
      stg t 0x1020 0 = tget (stg s 0x1020 0) (pathRegs p s).held 0x1020 ∧ stg t 0x1024 0 = v ∧
      (∀ o i, regKey o i ≠ regKey 0x1020 0 → regKey o i ≠ regKey 0x1024 0 → stg t o i = stg s o i) ∧
      pathRegs p t = { pathRegs p s with held := tfilter (pathRegs p s).held (fun k _ => k != 0x1020) }) ∧
    (∀ v : Word, anyRing s = false → ∃ t, exec (.reg64HighWrite p 0xA030 v) s = .next t ∧ Only [.paths, .host] s t ∧
      t.stsBase = BitVec.ofNat 64 ((tget (s.stsBase.setWidth 32) (pathRegs p s).held 0xA030).toNat / 128 * 128 + v.toNat * 2 ^ 32) ∧
      (t.tickIrq, t.tickDiv, t.bme, t.msix, t.ep) = (s.tickIrq, s.tickDiv, s.bme, s.msix, s.ep) ∧
      pathRegs p t = { pathRegs p s with held := tfilter (pathRegs p s).held (fun k _ => k != 0xA030) }) ∧
    (∀ (r : Nat) (v : Word), r < 19 → (ring s r).en = false →
      ∃ t, exec (.reg64HighWrite p (ringCfgOfs r - 8) v) s = .next t ∧ Only [.paths, .rings] s t ∧
        (∀ lo, lo = tget ((ring s r).base.setWidth 32) (pathRegs p s).held (ringCfgOfs r - 8) →
          ring t r = { ring s r with base := BitVec.ofNat 64 (lo.toNat / 4096 * 4096 + v.toNat * 2 ^ 32) }) ∧
        (∀ j, j ≠ r → ring t j = ring s j) ∧
        pathRegs p t = { pathRegs p s with held := tfilter (pathRegs p s).held (fun k _ => k != ringCfgOfs r - 8) }) ∧
    (∀ (ofs : Nat) (v : DWord) (hw : Word), is64W ofs = true → ∃ u, exec (.reg64LowWrite p ofs (v.setWidth 32)) s = .next u ∧
      exec (.registerWrite p ofs 8 v hw) s = exec (.reg64HighWrite p ofs (BitVec.ofNat 32 (v.toNat / 2 ^ 32))) u)

/-- RING_ENABLE, RING_DISABLE, STATUS_BASE_WRITE and what an enabled ring locks (R413, R457). -/
def Obligations.RingsAreEnabledAndLocked : Prop :=
  ∀ (p : Path) (r : Nat) (v : Word) (s : State), r < 19 → running s = true → pathOpen p s = true →
    ((ring s r).en = false → 6 ≤ fld v 0 5 → fld v 0 5 ≤ 16 → s.stsBase ≠ 0 →
      ∃ t, exec (.ringEnable p r v) s = .next t ∧ Only [.rings, .staged, .sticky, .alives, .host] s t ∧
        (ring t r).en = true ∧ (ring t r).log2 = fld v 0 5 ∧ (ring t r).p = 0 ∧ (ring t r).c = 0 ∧ (ring t r).db = 0 ∧
        (ring t r).base = (ring s r).base ∧ (ring t r).count = (ring s r).count ∧ (ring t r).holdoff = (ring s r).holdoff ∧
        (∀ j, j ≠ r → ring t j = ring s j) ∧ t.stsBase = s.stsBase ∧
        (r = cmdRing → t.expAlive = 1 ∧ t.lastAlive = none) ∧
        (r ≠ cmdRing → t.expAlive = s.expAlive ∧ t.lastAlive = s.lastAlive)) ∧
    ((ring s r).en = false → fld v 0 5 < 6 ∨ 16 < fld v 0 5 ∨ s.stsBase = 0 → exec (.ringEnable p r v) s = .next s) ∧
    ((ring s r).en = false → (∀ ofs, ofs ≠ 0 → doorbellRing ofs = some r → exec (.dbConsumer ofs v) s = .next s) ∧
      (r = cmdRing → exec (.dbCmd v) s = .next s ∧
        ∀ d n, ∀ c ∈ [Instr.nop d, .cfgWrite d, .commit d, .snap d n, .outputSet d, .arm d, .disarm d, .trigger d n, .mapRead d, .flush d,
          .ruleLoad d, .speedTable d, .sync d, .faultClearChannel d, .faultClearFrond d, .faultClearSource d, .faultClearLatch d,
          .cvuRun d, .blobLoad d, .getNonce d false false, .getIdentity d false false, .getState d false false,
          .takeOwnership d false false, .keyInstall d false false, .unlock d false false, .relock d false false, .seal d false false,
          .unseal d false false, .rma d false false, .makerRestore d false false, .void d false false, .fwUpdate d false false,
          .fwConfirm d false false, .ldevidGen d false false, .ldevidInstall d false false, .selfTest d false false, .badOpcode d],
          exec c s = .next s)) ∧
    ((ring s r).en = true →
      (∃ t, exec (.ringEnable p r v) s = .next t ∧ Only [.staged, .sticky] s t) ∧
      (∃ t, exec (.ringDisable p r v) s = .next t ∧ Only [.rings, .staged, .sticky] s t ∧
        ring t r = { ring s r with en := false } ∧ ∀ j, j ≠ r → ring t j = ring s j) ∧
      exec (.reg64LowWrite p (ringCfgOfs r - 8) v) s = .next s ∧ exec (.reg64HighWrite p (ringCfgOfs r - 8) v) s = .next s) ∧
    (∀ b : DWord, (anyRing s = false → ∃ t, exec (.statusBaseWrite p b) s = .next t ∧ Only [.paths, .host] s t ∧
        t.stsBase = BitVec.ofNat 64 (b.toNat / 128 * 128) ∧ (t.tickIrq, t.tickDiv, t.bme, t.msix, t.ep) = (s.tickIrq, s.tickDiv, s.bme, s.msix, s.ep) ∧
        (∀ q, q ≠ p → pathRegs q t = pathRegs q s)) ∧
      (anyRing s = true → exec (.statusBaseWrite p b) s = .next s ∧ exec (.reg64LowWrite p 0xA030 v) s = .next s ∧
        exec (.reg64HighWrite p 0xA030 v) s = .next s))

/-- RWP_VALUE_WRITE and RWP_COMPLEMENT_WRITE (R13, R14, R443, R453). -/
def Obligations.PairsAreCheckedAtTheComplement : Prop :=
  ∀ (p : Path) (ofs : Nat) (v sel : Word) (T : List Nat) (s : State), isRwp ofs = true → writeOpen p s ofs = true →
    isSealed s = false → lineBad s 0x08 0 = false → sel = pairSel (pathRegs p s) ofs → T = targets (pathRegs p s) ofs →
    (∃ t, exec (.rwpValueWrite p ofs v) s = .next t ∧ Only [.pairs, .outbox, .queues, .faults] s t ∧
      t.rwp = T.map (fun i => ⟨p, ofs, sel, i, v⟩) ++ s.rwp.filter (fun e => !pairIn ofs T e) ∧
      (s.rwp.any (pairIn ofs T) = true → srcActive t 0x08 0 = true) ∧ (s.rwp.any (pairIn ofs T) = false → Only [.pairs] s t)) ∧
    ∃ t, exec (.rwpComplementWrite p (ofs + 4) v) s = .next t ∧
      Only [.pairs, .staged, .sticky, .outbox, .queues, .faults] s t ∧
      t.rwp = s.rwp.filter (fun e => !pairIn ofs T e && !pairAt ofs sel e) ∧
      (∀ e ∈ s.rwp, pairAt ofs sel e = true → e.val = ~~~v → stg t ofs e.chan = maskIn (stg s ofs e.chan) (~~~v) (rwsMask ofs)) ∧
      (∀ o j, (∀ e ∈ s.rwp, pairAt ofs sel e = true → e.val = ~~~v → regKey o j ≠ regKey ofs e.chan) → stg t o j = stg s o j) ∧
      (∀ e ∈ s.rwp, pairAt ofs sel e = true → e.val ≠ ~~~v → srcActive t 0x08 0 = true) ∧
      (∀ e ∈ s.rwp, pairIn ofs T e = true → pairAt ofs sel e = false → srcActive t 0x08 0 = true) ∧
      (∀ i ∈ T, (∀ e ∈ s.rwp, pairAt ofs sel e = true → e.chan ≠ i) → t.orphan = true ∧ srcActive t 0x08 0 = true) ∧
      ((∀ e ∈ s.rwp, (pairAt ofs sel e = true → e.val = ~~~v) ∧ (pairIn ofs T e = true → pairAt ofs sel e = true)) →
        (∀ i ∈ T, ∃ e ∈ s.rwp, pairAt ofs sel e = true ∧ e.chan = i) → Only [.pairs, .staged] s t)

/-- CHN_SEL, BROADCAST_WRITE, BASIC_CODE_WRITE and a staged REGISTER_WRITE (R444, R447, R448, R52, R454). -/
def Obligations.WindowWritesReachTheirChannels : Prop :=
  ∀ (p : Path) (v hw : Word) (s : State), running s = true → pathOpen p s = true →
    ((∀ e ∈ s.rwp, ¬(e.path = p ∧ inWindow e.ofs = true)) → ∃ t, exec (.chnSel p v) s = .next t ∧ Only [.paths] s t ∧
      pathRegs p t = { pathRegs p s with chnSel := v &&& 0xFF0101FF } ∧ (∀ q, q ≠ p → pathRegs q t = pathRegs q s)) ∧
    (∀ ofs, ofs % 4 = 0 → inWindow ofs = true → rwsMask ofs ≠ 0 → isRwp ofs = false → complOf ofs = none → isBasic ofs = false →
      (isSealed s = false → bit (pathRegs p s).chnSel 16 = true → ∃ t, exec (.broadcastWrite p ofs v) s = .next t ∧ Only [.staged] s t ∧
        (∀ ch, ch < 512 → stg t ofs ch = maskIn (stg s ofs ch) v (rwsMask ofs)) ∧
        (∀ o j, (∀ ch, ch < 512 → regKey o j ≠ regKey ofs ch) → stg t o j = stg s o j)) ∧
      (isSealed s = false → ∃ t, exec (.registerWrite p ofs 4 (v.setWidth 64) hw) s = .next t ∧ Only [.staged] s t ∧
        (∀ i ∈ targets (pathRegs p s) ofs, stg t ofs i = maskIn (stg s ofs i) v (rwsMask ofs)) ∧
        (∀ o j, (∀ i ∈ targets (pathRegs p s) ofs, regKey o j ≠ regKey ofs i) → stg t o j = stg s o j)) ∧
      (isSealed s = true → ∃ t, exec (.registerWrite p ofs 4 (v.setWidth 64) hw) s = .next t ∧ Only [.sticky] s t ∧ t.lockedWr = true)) ∧
    (∀ ofs l, isBasic ofs = true → inWindow ofs = true → isSealed s = false → bit (pathRegs p s).chnSel 16 = false →
      expandCode ofs (fld (pathRegs p s).chnSel 0 9) v = some l → ∃ t, exec (.basicCodeWrite p ofs v) s = .next t ∧ Only [.staged] s t ∧
        ∀ e ∈ l, stg t e.1 e.2.1 = e.2.2)

/-- CVU_CTL_ALG, CVU_INIT, CVU_FEED8, 16, 32 and CVU_STATE_WRITE (R397, R399, R400, R401). -/
def Obligations.CheckUnitsFollowTheirTable : Prop :=
  ∀ (p : Path) (u alg : Nat) (v : Word) (s : State), u < 4 → writeOpen p s 0x9000 = true →
    (∀ c x, (c, x) ∈ [
        (Instr.cvuCtlAlg p u alg, if alg % 8 < 5 then cvuLoad (alg % 8) (cvu s u) else { cvu s u with refused := true }),
        (Instr.cvuInit p u alg, if alg % 8 < 5 then cvuLoad (alg % 8) (cvu s u) else { cvu s u with refused := true }),
        (Instr.cvuFeed8 p u v, cvuFeed [v.setWidth 8] (cvu s u)),
        (Instr.cvuFeed16 p u v, cvuFeed [v.setWidth 8, (v >>> 8).setWidth 8] (cvu s u)),
        (Instr.cvuFeed32 p u v, cvuFeed [v.setWidth 8, (v >>> 8).setWidth 8, (v >>> 16).setWidth 8, (v >>> 24).setWidth 8] (cvu s u)),
        (Instr.cvuStateWrite p u v,
          { cvu s u with st := BitVec.ofNat 32 (v.toNat % 2 ^ cvuWidth (cvu s u).alg), count := 0 })] →
      ∃ t, exec c s = .next t ∧ Only [.cvu] s t ∧ (∀ w, w ≠ u → cvu t w = cvu s w) ∧
        cvu t u = if (cvu s u).owned then { cvu s u with refused := true } else x)

/-- DISCARD (R452), MAP_PEEK_IDX, DBG_CTL_WRITE, and writes of ID_SCRATCH, ID_TORN and ID_WR_STAT (R12). -/
def Obligations.PeekDiscardDebugAndIdWrites : Prop :=
  ∀ (p : Path) (v hw : Word) (s : State), running s = true → pathOpen p s = true →
    (∃ t, exec (.mapPeekIdx p v) s = .next t ∧ Only [.paths] s t ∧ (∀ q, q ≠ p → pathRegs q t = pathRegs q s) ∧
      pathRegs p t = { pathRegs p s with peekIdx := v &&& 0x010FFFFF, peek := peekWords s.map v }) ∧
    (∀ view, ∃ t, exec (.discard p view) s = .next t ∧ Only [.paths, .staged] s t ∧ t.staged = s.cfg ∧
      pathRegs p t = { pathRegs p s with activeView := view } ∧ (∀ q, q ≠ p → pathRegs q t = pathRegs q s)) ∧
    (dbgOpen s = true → exec (.dbgCtlWrite p v false false) s = .next { s with sec := { s.sec with dbg := v.toNat % 4 } }) ∧
    (dbgOpen s = false → ∃ t, exec (.dbgCtlWrite p v false false) s = .next t ∧ Only [.sticky] s t ∧ t.lockedWr = true) ∧
    exec (.registerWrite p 0x30 4 (v.setWidth 64) hw) s = .next { s with scratch := v } ∧
    exec (.registerWrite p 0x40 4 (v.setWidth 64) hw) s = .next { s with torn := s.torn && !(bit v 0 && !bit hw 0) } ∧
    exec (.registerWrite p 0x44 4 (v.setWidth 64) hw) s = .next { s with
      lockedWr := s.lockedWr && !(bit v 0 && !bit hw 0), orphan := s.orphan && !(bit v 1 && !bit hw 1) }

/-- DB_CMD and DB_CONSUMER are accepted exactly in range; any other value raises DOORBELL_BAD (R409). -/
def Obligations.DoorbellsAreChecked : Prop :=
  ∀ (ofs r : Nat) (v : Word) (s : State), running s = true → doorbellRing ofs = some r → lineBad s 0x2A 0 = false →
    ∀ c, c = (if r = cmdRing then Instr.dbCmd v else Instr.dbConsumer ofs v) →
    ((ring s r).en = false → exec c s = .next s) ∧
    ((ring s r).en = true → r = cmdRing →
      (v - (ring s r).c).toNat ≤ 2 ^ (ring s r).log2 → (v - (ring s r).p).toNat ≤ (v - (ring s r).c).toNat →
      ∃ t, exec c s = .next t ∧ Only [.rings] s t ∧ ring t r = { ring s r with p := v, db := v } ∧ ∀ j, j ≠ r → ring t j = ring s j) ∧
    ((ring s r).en = true → r ≠ cmdRing →
      ((ring s r).p - v).toNat ≤ 2 ^ (ring s r).log2 → (v - (ring s r).c).toNat ≤ ((ring s r).p - (ring s r).c).toNat →
      ∃ t, exec c s = .next t ∧ Only [.rings] s t ∧ ring t r = { ring s r with c := v, db := v } ∧ ∀ j, j ≠ r → ring t j = ring s j) ∧
    ((ring s r).en = true →
      ¬(if r = cmdRing then (v - (ring s r).c).toNat ≤ 2 ^ (ring s r).log2 ∧ (v - (ring s r).p).toNat ≤ (v - (ring s r).c).toNat
        else ((ring s r).p - v).toNat ≤ 2 ^ (ring s r).log2 ∧ (v - (ring s r).c).toNat ≤ ((ring s r).p - (ring s r).c).toNat) →
      ∃ t, exec c s = .next t ∧ Only [.doorbell, .outbox, .queues, .faults] s t ∧ t.dberr = true ∧
        t.dbOfs = (if s.dberr then s.dbOfs else ofs) ∧ srcActive t 0x2A 0 = true)

/-- RECORD_DELIVERY writes the sealed record into the next entry of the queue's ring; HOLDOFF_EXPIRY signals (R391, R392, R411,
R414, R417). -/
def Obligations.RecordsEnterTheirRing : Prop :=
  (∀ (q r : Nat) (c : Cell) (x : Queue) (bad : Option (List (Nat × Byte))) (s : State), s.phase = .running → s.auto = false →
    nextCell s q (queue s q) = some (c, x) → ringFor s q = some r → ringRoom s r = true →
    ∃ t, exec (.recordDelivery q bad) s = .next t ∧ Only [.outbox, .queues, .rings, .faults] s t ∧
      (poisoned c bad = false → Only [.outbox, .queues, .rings] s t) ∧
      (poisoned c bad = true → lineBad s 0x28 0 = false → srcActive t 0x28 0 = true) ∧
      (∃ l m, t.outbox = l ++ Output.hostWrite ((ring s r).base + BitVec.ofNat 64 ((ring s r).p.toNat % 2 ^ (ring s r).log2 * 64))
        (recordBytes q ((ring s r).alive + 1) c bad) :: (m ++ s.outbox)) ∧
      (ring t r).p = (ring s r).p + 1 ∧ (ring t r).alive = (ring s r).alive + 1 ∧ ∀ j, j ≠ r → ring t j = ring s j) ∧
  (∀ (r : Nat) (s : State), running s = true → 1 ≤ r → r ≤ 18 → (ring s r).unsig ≠ 0 → (ring s r).holdoff ≠ 0 → (ring s r).count ≠ 0 →
    ∃ t, exec (.holdoffExpiry r) s = .next t ∧ Only [.outbox, .rings] s t ∧ ring t r = { ring s r with unsig := 0 } ∧
      (∀ j, j ≠ r → ring t j = ring s j) ∧
      t.outbox = if s.bme && s.msix.testBit (r - 1) && !s.auto then .msix (r - 1) :: s.outbox else s.outbox)

/-- LSP_FIFO_MOVE, LSP_READ and LSP_RDCLK_EDGE (R387, R389, R390, R441). That LSP_AFULL has two stages and that the read pointer
is settled after one row is the model's choice (assumption log 44). -/
def Obligations.StreamPortIsAFifo : Prop :=
  (∀ (q : Nat) (p : Packet) (r : List Packet) (s : State), lspActive s = true → s.phase = .running → lspQueue s = some q →
    (queue s q).pkts = p :: r → p.spill = 0 → lspFill s + 32 * p.cells.length ≤ 1024 →
    ∃ t, exec (.lspFifoMove []) s = .next t ∧ Only [.lsp, .queues, .faults, .outbox] s t ∧
      t.lsp.fifo = s.lsp.fifo ++ (sealCells q (fun _ => none) p.cells 0 s.lsp.alive).1 ∧
      t.lsp.wr = (s.lsp.wr + 32 * p.cells.length) % 2048 ∧ t.lsp.rd = s.lsp.rd ∧
      ((∀ c ∈ p.cells, c.poison = 0) → (queue t q).pkts.length = r.length ∧ Only [.lsp, .queues] s t)) ∧
  (∀ (q : Nat) (p : Packet) (r : List Packet) (s : State), lspQueue s = some q → (queue s q).pkts = p :: r →
    p.spill ≠ 0 ∨ 1024 < lspFill s + 32 * p.cells.length → exec (.lspFifoMove []) s = .next s) ∧
  (∀ (v : Half) (b : Bool) (r : List (Half × Bool)) (s : State), lspReady s = true → s.lsp.fifo = (v, b) :: r →
    ∃ t, exec .lspRead s = .next t ∧ Only [.lsp, .queues, .outbox] s t ∧
      (∀ q, { queue t q with afull := false } = { queue s q with afull := false }) ∧ t.outbox = .half v (s.lsp.rd % 32 == 31) :: s.outbox ∧
      t.lsp.fifo = r ∧ t.lsp.rd = (s.lsp.rd + 1) % 2048 ∧ t.lsp.wr = s.lsp.wr ∧ t.lsp.wr1 = s.lsp.wr ∧ t.lsp.wr2 = s.lsp.wr1) ∧
  (∀ s : State, lspActive s = true → ∃ t, exec .lspRdclkEdge s = .next t ∧ Only [.lsp, .queues] s t ∧
    (∀ q, { queue t q with afull := false } = { queue s q with afull := false }) ∧ t.lsp.afull2 = s.lsp.afull1 ∧ t.lsp.fifo = s.lsp.fifo ∧
    t.lsp.rd = s.lsp.rd ∧ t.lsp.wr = s.lsp.wr ∧ t.lsp.wr1 = s.lsp.wr ∧ t.lsp.wr2 = s.lsp.wr1 ∧ t.lsp.rd2 = s.lsp.rd)

/-- FLUSH_TAKE_EFFECT and RESERVE_STEP_BOUNDARY (R379, R380, R361, R362). -/
def Obligations.FlushesEmptyTheirQueue : Prop :=
  ∀ bare, bare = (fun (l : List Packet) => l.map (fun p => p.cells.map (fun c => { c with poison := 0 }))) →
  (∀ (q id : Nat) (l : List Nat) (s : State), running s = true → (queue s q).cur = none → (queue s q).flush = id :: l →
    ∃ t, exec (.flushTakeEffect q) s = .next t ∧ Only [.outbox, .queues, .rings, .descs, .sessions] s t ∧
      (queue t q).pkts = [] ∧ (queue t q).flush = [] ∧ (queue t q).lost = (queue s q).lost ∧
      (∀ j, j ≠ q → bare (queue t j).pkts = bare (queue s j).pkts ∧ (queue t j).lost = (queue s j).lost ∧
        (queue t j).flush = (queue s j).flush) ∧
      ((∀ e ∈ s.queues, e.2.owe = 0) → ∀ j, j ≠ q → queue t j = queue s j) ∧ ∀ i ∈ id :: l, outOf t i = none) ∧
  (∀ s : State, running s = true → ∃ t, exec .reserveStepBoundary s = .next t ∧ Only [.queues] s t ∧ t.reserve ≤ 240000 ∧
    (∀ q, bare (queue t q).pkts = bare (queue s q).pkts) ∧
    ((∀ q, qspill (queue s q) = 0) → t.reserve = 240000))

/-- The command ring's checks, in their order, for every descriptor row (R393, R394, R422). -/
def Obligations.DescriptorsAreCheckedInOrder : Prop :=
  ∀ (d : Desc) (cycles : Nat) (b1 b2 : Bool) (s : State) (a : Byte), canTake s = true → lineBad s 0x29 0 = false → a = BitVec.ofNat 8 (dF d 1 1) →
    (∀ c form, (c, form) ∈ [(Instr.nop d, nopForm), (.cfgWrite d, cfgForm), (.commit d, commitForm), (.snap d cycles, snapForm),
        (.outputSet d, outForm), (.arm d, capForm 0), (.disarm d, capForm 1), (.trigger d cycles, capForm 2), (.mapRead d, mapForm),
        (.flush d, flushForm), (.ruleLoad d, ruleForm), (.speedTable d, speedForm), (.sync d, syncForm), (.cvuRun d, cvuForm),
        (.faultClearChannel d, clearForm 0 512), (.faultClearFrond d, clearForm 1 32), (.faultClearSource d, clearForm 2 256),
        (.faultClearLatch d, clearForm 3 1), (.blobLoad d, blobForm), (.getNonce d b1 b2, secForm 0x01 .none),
        (.getIdentity d b1 b2, secForm 0x02 .out), (.getState d b1 b2, secForm 0x03 .none),
        (.takeOwnership d b1 b2, secForm 0x10 .input), (.keyInstall d b1 b2, secForm 0x11 .input), (.unlock d b1 b2, secForm 0x20 .input),
        (.relock d b1 b2, secForm 0x21 .none), (.seal d b1 b2, secForm 0x30 .input), (.unseal d b1 b2, secForm 0x31 .input),
        (.rma d b1 b2, secForm 0x32 .input), (.makerRestore d b1 b2, secForm 0x33 .input), (.void d b1 b2, secForm 0x34 .input),
        (.fwUpdate d b1 b2, fwForm), (.fwConfirm d b1 b2, secForm 0x41 .none), (.ldevidGen d b1 b2, secForm 0x50 .out),
        (.ldevidInstall d b1 b2, secForm 0x51 .input), (.selfTest d b1 b2, secForm 0x60 .none),
        (.badOpcode d, { mine := fun d => decide (0x0F ≤ dOp d) })] →
      let own := !unusedZero d form.used || (dTmo d != 0 && !form.tmo) || !form.ok d
      ∀ bad, bad = (if c = .badOpcode d then true else own) →
      (c = .badOpcode d → 0x0F ≤ dOp d) →
      (a ≠ s.expAlive ∨ dCrcOk d = false ∨ (form.mine d = true ∧ (bad = true ∨ payBad form d = true))) →
      ∃ t, exec c s = .next t ∧ (ring t cmdRing).c = (ring s cmdRing).c + 1 ∧ (t.outs, t.nextId) = (s.outs, s.nextId) ∧
        Only [.outbox, .queues, .rings, .alives, .faults, .sessions] s t ∧
        (if a ≠ s.expAlive then
          (if s.lastAlive = some a then Reports d 0x11 (refusedResult d s) s t ∧ t.expAlive = s.expAlive
            else Reports d 0x12 (refusedResult d s) s t ∧ t.expAlive = a + 1)
        else if dCrcOk d = false ∨ bad = false then
          Reports d 0x10 (refusedResult d s) s t ∧ t.expAlive = s.expAlive ∧ t.lastAlive = s.lastAlive ∧ srcActive t 0x29 0 = true
        else Reports d (if c = .badOpcode d then 0x13 else 0x14) (refusedResult d s) s t ∧ t.expAlive = a + 1 ∧ t.lastAlive = some a)) ∧
    (dOp d = 0x08 → refusedResult d s = [0xFF, 0xFF]) ∧
    (dOp d = 0x04 → dF d 8 2 < 512 → refusedResult d s = outResult 0 (valueOf s (dF d 8 2))) ∧
    (dOp d ≠ 0x08 → dOp d ≠ 0x04 → refusedResult d s = [])

/-- NOP, ARM, DISARM, SYNC, MAP_READ, CVU_RUN and FLUSH, accepted (R185, R271, R287, R379, R400, R430). -/
def Obligations.PlainDescriptorsDoTheirWork : Prop :=
  ∀ bare, bare = (fun (l : List Packet) => l.map (fun p => p.cells.map (fun c => { c with poison := 0 }))) →
  ∀ (d : Desc) (s : State), Fresh s →
    (Takes nopForm d s → (s.outs = [] → ∃ t, Completes (.nop d) d executed 0 [] s t) ∧
      (∀ o l, s.outs = o :: l → o.opcode ≠ 0 → ∃ t, Starts (.nop d) d executed s t)) ∧
    (∀ c act on, (c, act, on) ∈ [(Instr.arm d, 0, true), (Instr.disarm d, 1, false)] → Takes (capForm act) d s →
      (capEn s.cfg (dF d 8 1) = true → ∃ t, Completes c d (executedAnd [.caps]) 0 [] s t ∧
        capRing t (dF d 8 1) = { capRing s (dF d 8 1) with armed := on } ∧ ∀ j, j ≠ dF d 8 1 → capRing t j = capRing s j) ∧
      (capEn s.cfg (dF d 8 1) = false → ∃ t, Completes c d executed 0x15 [] s t)) ∧
    (Takes syncForm d s → ∃ t, Starts (.sync d) d (executedAnd [.sync]) s t ∧ t.tm.syncReq = s.tm.syncReq ++ [some s.nextId]) ∧
    (Takes mapForm d s → ∃ t, Starts (.mapRead d) d (executedAnd [.xfers]) s t ∧
      t.xfers = s.xfers ++ [⟨s.nextId, BitVec.ofNat 64 (dF d 8 8), dF d 16 4, dF d 20 4, 0⟩]) ∧
    (Takes cvuForm d s → ∃ t, Starts (.cvuRun d) d (executedAnd [.cvu]) s t ∧ (cvu t (dF d 8 1)).owned = true ∧
      (dF d 9 1 ≤ 4 → cvu t (dF d 8 1) = { cvuLoad (dF d 9 1) (cvu s (dF d 8 1)) with owned := true }) ∧
      ∀ u, u ≠ dF d 8 1 → cvu t u = cvu s u) ∧
    (Takes flushForm d s →
      ((queue s (dF d 8 1)).cur = none → (queue s (dF d 8 1)).flush = [] →
        ∃ t, Completes (.flush d) d executed 0
            (le 4 (queue s (dF d 8 1)).pkts.length ++ le 4 (cellsIn (queue s (dF d 8 1)).pkts)) s t ∧
          (queue t (dF d 8 1)).pkts = [] ∧ (queue t (dF d 8 1)).lost = (queue s (dF d 8 1)).lost ∧
          (∀ j, j ≠ dF d 8 1 → bare (queue t j).pkts = bare (queue s j).pkts) ∧
          ((∀ e ∈ s.queues, e.2.owe = 0) → ∀ j, j ≠ dF d 8 1 → queue t j = queue s j)) ∧
      ((queue s (dF d 8 1)).cur ≠ none → ∃ t, Starts (.flush d) d executed s t ∧
        queue t (dF d 8 1) = { queue s (dF d 8 1) with flush := (queue s (dF d 8 1)).flush ++ [s.nextId] } ∧
        ∀ j, j ≠ dF d 8 1 → queue t j = queue s j))

/-- CFG_WRITE, RULE_LOAD and SPEED_TABLE (R291, R293, R423, R424, R429, R432). -/
def Obligations.ConfigurationPayloadsAreStaged : Prop :=
  ∀ (d : Desc) (s : State), Fresh s →
    (Takes cfgForm d s → ∀ n l, n = (dF d 16 4 - 4) / 8 → l = cfgEnts (payload d (dF d 16 4)) 0 n →
      (isSealed s = true → ∃ t, Completes (.cfgWrite d) d executed 0x40 [] s t) ∧
      (isSealed s = false → ∀ i, firstBad l = some i → ∃ t, Completes (.cfgWrite d) d executed 0x14 (le 4 0 ++ le 4 i) s t) ∧
      (isSealed s = false → firstBad l = none →
        ∃ t, Completes (.cfgWrite d) d (executedAnd [.staged, .pairs, .sticky]) 0 (le 4 n) s t ∧
        ∀ e r, l = [e] → r = ({ chnSel := BitVec.ofNat 32 (e.chan % 512 + (if e.chan ≥ 0x8000 then 65536 else 0)) } : PathRegs) →
          complOf e.ofs = none → isRwp e.ofs = false → privSel e.ofs = false → isBasic e.ofs = false → e.ofs ≠ 0x1020 → e.ofs ≠ 0x1024 →
          (∀ i ∈ targets r e.ofs, stg t e.ofs i = maskIn (stg s e.ofs i) e.val (rwsMask e.ofs)) ∧
          (∀ o j, (∀ i ∈ targets r e.ofs, regKey o j ≠ regKey e.ofs i) → stg t o j = stg s o j))) ∧
    (Takes ruleForm d s → ∀ b, b = payload d (64 * dF d 10 2) →
      (isSealed s = true → ∃ t, Completes (.ruleLoad d) d executed 0x40 (le 2 0xFFFF) s t) ∧
      (isSealed s = false → ∀ r ch, badRule b 0 (dF d 8 2) (dF d 10 2) = some (r, ch) → lineBad s 0x08 0 = false →
        ∃ t, Completes (.ruleLoad d) d executed 0x16 (le 2 r) s t ∧ srcActive t 0x08 0 = true) ∧
      (isSealed s = false → badRule b 0 (dF d 8 2) (dF d 10 2) = none →
        ∃ t, Completes (.ruleLoad d) d (executedAnd [.staged]) 0 (le 2 0xFFFF) s t ∧
          ∀ i w, i < dF d 10 2 → w < 16 → stg t (ruleOfs w) (dF d 8 2 + i) = nthD (entWords (ruleEnt b (64 * i))) w 0)) ∧
    (Takes speedForm d s →
      (isSealed s = true → ∃ t, Completes (.speedTable d) d executed 0x40 [] s t) ∧
      (isSealed s = false → ∃ t, Completes (.speedTable d) d (executedAnd [.staged]) 0 [] s t ∧
        ∀ i, i < 32 → stg t 0x5044 (32 * dF d 8 1 + i) = BitVec.ofNat 32 (getLE (payload d 128) (4 * i) 4)))

/-- COMMIT: range, busy, report, lateness, and an accepted commit (R14, R28, R317, R329, R425). -/
def Obligations.CommitsArePendingOrRefused : Prop :=
  ∀ (d : Desc) (s : State) (T : Nat), Fresh s → Takes commitForm d s → T = dF d 8 6 →
    (T < now s + 3 ∨ now s + 1000000 < T → ∃ t, Completes (.commit d) d executed 0x14 [] s t) ∧
    (now s + 3 ≤ T → T ≤ now s + 1000000 →
      (s.pend ≠ none → ∃ t, Completes (.commit d) d (executedAnd [.staged, .pairs]) 0x23 [] s t ∧ t.staged = s.staged) ∧
      (s.pend = none → s.rwp = [] → ∀ (u : State) bad,
          u = { startDesc d 0 (acceptAlive d s) with tm := { s.tm with periodWritten := false }, rwp := [] } →
          bad = fieldChecks u s.staged ++ conflictChecks u s.staged ++
            ((budgetCheck u s.staged (dF d 14 1 == 1)).filter (fun e => e.exceeded)).map budEntry →
        (bad ≠ [] → ∃ t res, Completes (.commit d) d (executedAnd [.staged, .pairs, .budget])
            (if bad.any (fun e => e.kind == 1) then 0x20 else if bad.any (fun e => e.kind == 2) then 0x21 else 0x22) res s t ∧
          t.pend = none ∧ t.staged = s.staged ∧ t.bud.valid = true ∧ t.bud.accepted = false) ∧
        (bad = [] → (∃ f, f < 32 ∧ T - 2 - now s < cdiv (commitItems u f).length 16) →
          ∃ t, Completes (.commit d) d (executedAnd [.staged, .pairs, .budget]) 0x24 [] s t ∧ t.pend = none ∧ t.staged = s.staged) ∧
        (bad = [] → (∀ f, f < 32 → cdiv (commitItems u f).length 16 ≤ T - 2 - now s) →
          ∃ t p, Starts (.commit d) d (executedAnd [.resolution, .staged, .pairs, .pend, .fronds, .link, .budget]) s t ∧ t.pend = some p ∧
            p.t = BitVec.ofNat 48 T ∧ p.conf = s.staged ∧ p.id = s.nextId ∧ p.excl = (dF d 14 1 == 1) ∧ p.resolved = none ∧
            t.staged = s.staged ∧ t.bud.accepted = true)))

/-- SNAP, OUTPUT_SET and TRIGGER, accepted and refused (R23, R133, R287, R288, R426, R427). -/
def Obligations.SnapsOutputsAndTriggersStart : Prop :=
  ∀ (d : Desc) (cycles : Nat) (s : State), Fresh s →
    (Takes snapForm d s →
      (snapSel d = [] → ∃ t, Completes (.snap d cycles) d executed 0x14 [] s t) ∧
      (snapSel d ≠ [] → ∃ t q, Starts (.snap d cycles) d (executedAnd [.fronds, .snaps]) s t ∧ t.snaps = s.snaps ++ [q] ∧
        q.id = s.nextId ∧ q.sel = snapSel d ∧ q.map = BitVec.ofNat 64 (dF d 16 8) ∧ q.got = [] ∧
        ∀ f, f ∈ q.left ↔ f < 32 ∧ ∃ ch ∈ snapSel d, ch / 16 = f)) ∧
    (Takes outForm d s → ∀ ch v, ch = dF d 8 2 → v = (BitVec.ofNat 32 (dF d 12 4) : Word) →
      (BitVec.ofNat 32 (dF d 16 4) ≠ ~~~v → lineBad s 0x08 0 = false →
        ∃ t, Completes (.outputSet d) d executed 0x16 (outResult 0 (valueOf s ch)) s t ∧ srcActive t 0x08 0 = true) ∧
      (BitVec.ofNat 32 (dF d 16 4) = ~~~v → (fld v 16 2 = 3 ∨ fld v 18 14 ≠ 0) →
        ∃ t, Completes (.outputSet d) d executed 0x15 (outResult 0 (valueOf s ch)) s t) ∧
      (BitVec.ofNat 32 (dF d 16 4) = ~~~v → fld v 16 2 ≠ 3 → fld v 18 14 = 0 →
        ∃ t, Starts (.outputSet d) d (executedAnd [.fronds]) s t ∧
          ((∀ e ∈ (frond s (ch / 16)).next, e.1 = ch % 16 → e.2.rule = false) → (frond t (ch / 16)).new = (frond s (ch / 16)).new ∧
            ∃ x, (frond t (ch / 16)).next.find? (fun e => e.1 == ch % 16) = some (ch % 16, x) ∧ x.val = v ∧ x.did = some s.nextId) ∧
          ∀ f, f ≠ ch / 16 → frond t f = frond s f)) ∧
    (Takes (capForm 2) d s → ∀ r, r = dF d 8 1 →
      (capEn s.cfg r = false → ∃ t, Completes (.trigger d cycles) d executed 0x15 [] s t) ∧
      (capEn s.cfg r = true → ∀ c, (capRing s r).run = some c → c.key ≠ keyAt s cycles →
        ∃ t, Completes (.trigger d cycles) d (executedAnd [.caps]) 0x31 [] s t ∧
          (capRing t r).run = some { c with missed := c.missed + 1 }) ∧
      (capEn s.cfg r = true → (capRing s r).run = none → dF d 10 1 = 0 →
        ∃ t c, Starts (.trigger d cycles) d (executedAnd [.caps]) s t ∧ (capRing t r).run = some c ∧ c.key = keyAt s cycles ∧
          c.sources = 4 ∧ c.ids = [s.nextId] ∧ ∀ j, j ≠ r → capRing t j = capRing s j))

/-- MAP_READ_DONE, CVU_RUN_DONE, SYNC_DONE and TIMEOUT complete their descriptors (R187, R271, R400, R421, R428). That TIMEOUT
completes anywhere in the tick of its deadline, and that a cell which the reserve holds back draws 32 bytes, is the model's choice
(assumption logs 50 and 35). -/
def Obligations.WaitingDescriptorsFinish : Prop :=
  ∀ (s : State), CanReport s →
    (∀ x l o, s.xfers = x :: l → outOf s x.id = some o → o.lost = false → 0 < x.count → x.count ≤ 2 ^ 20 → x.done ≤ x.count →
      (32 * (x.count - x.done) ≤ s.reserve →
        ∃ t, exec .mapReadDone s = .next t ∧ Only (touches .mapReadDone) s t ∧ outOf t x.id = none ∧
          t.reserve = s.reserve - 32 * (x.count - x.done) ∧
          (∃ a, t.outbox = a ++ .hostWrite x.dest (latchedCells s.map x.first x.count) :: s.outbox) ∧
          ReportsOut o 0 (le 4 s.map.pseq ++ le 4 x.count ++ le 4 (crc32c (latchedCells s.map x.first x.count)).toNat) s t) ∧
      (s.reserve < 32 * (x.count - x.done) → exec .mapReadDone s = .next { s with
        xfers := { x with done := x.done + s.reserve / 32 } :: l, reserve := s.reserve - 32 * (s.reserve / 32) })) ∧
    (∀ u o, s.outs.find? (fun o => o.opcode == 0x0C && o.obj == u) = some o → outOf s o.id = some o → o.lost = false →
      ∃ t, exec (.cvuRunDone u) s = .next t ∧ Only (touches (.cvuRunDone u)) s t ∧ outOf t o.id = none ∧
        cvu t u = { cvuFeed o.data (cvu s u) with owned := false } ∧ (∀ w, w ≠ u → cvu t w = cvu s w) ∧
        ReportsOut o 0 (le 4 (cvuResult (cvu t u).alg (cvu t u).st).toNat ++ le 4 (cvu t u).st.toNat ++ le 4 o.data.length) s t) ∧
    (∀ i o, s.tm.syncFin = [some i] → outOf s i = some o → o.lost = false →
      ∃ t, exec .syncDone s = .next t ∧ Only (touches .syncDone) s t ∧ outOf t i = none ∧ t.tm.syncFin = [] ∧
        ReportsOut o 0 (le 6 o.val ++ [0, 0] ++ le 4 s.tm.syncCleared) s t) ∧
    (∀ didx n o, s.outs.find? (fun o => o.didx == didx && o.tmo != 0) = some o → outOf s o.id = some o → o.lost = false →
      (o.due < s.abs + 32768 * steps s → ∃ t res, exec (.timeout didx n) s = .next t ∧ Only (touches (.timeout didx n)) s t ∧
        outOf t o.id = none ∧ ReportsOut o 0x04 res s t) ∧
      (s.abs + 32768 * steps s ≤ o.due → exec (.timeout didx n) s = .next s))

/-- FAULT_CLEAR of a channel, a frond, a source and the latch (R104, R114, R504, R505, R506, R507). A channel whose last
diagnostic word does not report CONTENTION with safe state: the clear waits, last in line for its frond and position; otherwise
REFUSED, which is the model's choice (assumption log 51). -/
def Obligations.FaultsAreClearedByScope : Prop :=
  ∀ (d : Desc) (s : State), Fresh s →
    (Takes (clearForm 0 512) d s → ∀ ch, ch = dF d 10 2 →
      ((chan s ch).diag.testBit 12 && (chan s ch).diag.testBit 9) = false → ∃ t, Starts (.faultClearChannel d) d (executedAnd [.fronds]) s t ∧
        frond t (ch / 16) = { frond s (ch / 16) with clr := (frond s (ch / 16)).clr ++ [{ pos := ch % 16, did := some s.nextId }] } ∧
        ∀ f, f ≠ ch / 16 → frond t f = frond s f) ∧
    (Takes (clearForm 0 512) d s → (chan s (dF d 10 2)).diag.testBit 12 = true → (chan s (dF d 10 2)).diag.testBit 9 = true →
      ∃ t, Completes (.faultClearChannel d) d executed 0x15 [] s t) ∧
    (Takes (clearForm 1 32) d s → ∀ f, f = dF d 10 2 →
      (safeHeld s f = true → ∃ t, Completes (.faultClearFrond d) d executed 0x15 [] s t) ∧
      (s.srcs = [] → (fieldOf s f).causes = 0 → (frond s f).rep.safe = true ∨ (frond s f).safeOrder = true → ∃ t, Starts (.faultClearFrond d) d (executedAnd [.fronds]) s t ∧
        frond t f = { frond s f with safeOrder := false, clr := (frond s f).clr ++ [{ pos := 16, did := some s.nextId }] } ∧
        ∀ g, g ≠ f → frond t g = frond s g)) ∧
    (Takes (clearForm 2 256) d s → ∀ src sub, src = dF d 10 2 → sub = clearSub d s →
      (0xC0 ≤ src → sub = dF d 12 2) ∧ (0x80 ≤ src → src < 0xC0 → sub = 8) ∧ (src < 0x40 → sub = 0) ∧
      (0x40 ≤ src → src < 0x80 → (srcActive s src 0 || srcActive s src 1 || srcActive s src 2) = true → srcActive s src sub = true) ∧
      (srcActive s src sub = false → ∃ t, Completes (.faultClearSource d) d executed 0 (le 6 (now s)) s t) ∧
      (∀ x, s.srcs.find? (fun e => e.1 == srcKey src sub) = some (srcKey src sub, x) →
        (clearable s src sub x = false → ∃ t, Completes (.faultClearSource d) d executed 0x15 [] s t) ∧
        (clearable s src sub x = true → effCls x ≤ 2 →
          ∃ t, Completes (.faultClearSource d) d (executedAnd [.badPaths]) 0 (le 6 (now s)) s t ∧ srcActive t src sub = false))) ∧
    (Takes (clearForm 3 1) d s → ∃ t, Completes (.faultClearLatch d) d executed 0 (le 6 (now s)) s t ∧
      t.latch = none ∧ t.overflow = false ∧ t.fltCount = 0 ∧ t.srcs = s.srcs)

/-- GET_NONCE, GET_IDENTITY, GET_STATE, RELOCK, FW_CONFIRM, LDEVID_GEN, SELF_TEST (Table 16-11, R521, R523, R529, R539). -/
def Obligations.SecurityOperationsWithoutToken : Prop :=
  ∀ (d : Desc) (s : State),
    (SecReady notVoid s → Takes (secForm 0x01 .none) d s → ∃ t n, Completes (.getNonce d false false) d (executedAnd [.security]) 0 n s t ∧
      n.length = 16 ∧ t.sec = { s.sec with nonce := some n, draws := s.sec.draws + 1 }) ∧
    (SecReady notVoid s → Takes (secForm 0x02 .out) d s → ∀ b, b = withCrc (Config.idevid ++ s.sec.ldevCert.getD []) → b.length ≤ dF d 12 4 →
      ∃ t, Completes (.getIdentity d false false) d executed 0 (le 4 b.length) s t ∧
        .hostWrite (BitVec.ofNat 64 (dF d 16 8)) b ∈ t.outbox) ∧
    (SecReady notVoid s → Takes (secForm 0x03 .none) d s → ∃ t, Completes (.getState d false false) d executed 0
      (le 4 s.sec.blobSeq ++ le 1 (mask ((List.range 4).filter (fun i => s.sec.keys.any (fun e => e.1 == i)))) ++ le 1 s.sec.rollback ++
        le 1 (min 255 s.sec.fails) ++ le 1 s.sec.slots) s t) ∧
    (SecReady notVoid s → Takes (secForm 0x21 .none) d s → ∃ t, Completes (.relock d false false) d (executedAnd [.security]) 0 [] s t ∧
      t.sec = { s.sec with unlocked := false, dbg := 0 }) ∧
    (SecReady notVoid s → Takes (secForm 0x41 .none) d s → ∀ r, r = max s.sec.rollback (secVer (runImage s)) →
      ∃ t, Completes (.fwConfirm d false false) d (executedAnd [.security]) 0 (le 1 r) s t ∧
        t.sec = { s.sec with trial := false, trialRec := s.sec.trialRec && !s.sec.trial, rollback := r }) ∧
    (SecReady [lcOwned, lcSealed] s → Takes (secForm 0x50 .out) d s → 100 ≤ dF d 12 4 →
      ∃ t k, Completes (.ldevidGen d false false) d (executedAnd [.security]) 0 (le 4 100) s t ∧ k.length = 96 ∧
        t.sec = { s.sec with ldev := some k, draws := s.sec.draws + 1 } ∧
        .hostWrite (BitVec.ofNat 64 (dF d 16 8)) (withCrc k) ∈ t.outbox) ∧
    (SecReady notVoid s → Takes (secForm 0x60 .none) d s → ∃ t, Starts (.selfTest d false false) d executed s t)

/-- SEC_OPs outside their states, in the crypto error state, or with a token that fails (R520, R539, R540, R541, R542). -/
def Obligations.SecurityOperationsAreGated : Prop :=
  ∀ (d : Desc) (s : State), Fresh s → s.sec.otpOk = true →
    (∀ c op pay states, (c, op, pay, states) ∈ [(Instr.getNonce d false false, 0x01, SecPay.none, notVoid),
        (.getIdentity d false false, 0x02, .out, notVoid), (.getState d false false, 0x03, .none, notVoid),
        (.takeOwnership d false false, 0x10, .input, [lcMaker]), (.keyInstall d false false, 0x11, .input, [lcOwned, lcSealed]),
        (.unlock d false false, 0x20, .input, [lcOwned, lcReturn]), (.relock d false false, 0x21, .none, notVoid),
        (.seal d false false, 0x30, .input, [lcOwned]), (.unseal d false false, 0x31, .input, [lcSealed]),
        (.rma d false false, 0x32, .input, [lcOwned, lcSealed]), (.makerRestore d false false, 0x33, .input, [lcReturn]),
        (.void d false false, 0x34, .input, notVoid), (.fwConfirm d false false, 0x41, .none, notVoid),
        (.ldevidGen d false false, 0x50, .out, [lcOwned, lcSealed]), (.ldevidInstall d false false, 0x51, .input, [lcOwned, lcSealed]),
        (.selfTest d false false, 0x60, .none, notVoid)] → Takes (secForm op pay) d s →
      (s.sec.cryptoErr = false → states.contains s.sec.lc = false → ∃ t, Completes c d executed 0x40 [] s t) ∧
      (s.sec.cryptoErr = true → op ≠ 0x03 → op ≠ 0x21 → ∃ t, Completes c d executed 0x42 [] s t)) ∧
    (∀ c op states key pre, (c, op, states, key, pre) ∈ [
        (Instr.keyInstall d false false, 0x11, [lcOwned, lcSealed], 0, true),
        (.unlock d false false, 0x20, [lcOwned, lcReturn], (if s.sec.lc = lcReturn then 0xFF else 0), true),
        (.seal d false false, 0x30, [lcOwned], 0, slotLeft s && !s.sec.unlocked),
        (.unseal d false false, 0x31, [lcSealed], 0, slotLeft s && s.sec.presence),
        (.makerRestore d false false, 0x33, [lcReturn], 0xFF, slotLeft s && s.sec.zeroDone),
        (.void d false false, 0x34, notVoid, (if ownedOrSealed s then 0 else 0xFF), !ownedOrSealed s || s.sec.presence),
        (.ldevidInstall d false false, 0x51, [lcOwned, lcSealed], 0, s.sec.ldev.isSome)] →
      Takes (secForm op .input) d s → s.sec.cryptoErr = false → states.contains s.sec.lc = true → pre = true → s.sec.authLock = false →
      tokenOk s op key (payload d (dF d 12 4)) = false → lineBad s 0x35 0 = false →
      ∃ t, Completes c d (executedAnd [.security]) 0x41 [] s t ∧ t.sec.nonce = none ∧ t.sec.fails = s.sec.fails + 1 ∧
        t.sec.keys = s.sec.keys ∧ t.sec.lc = s.sec.lc ∧ srcActive t 0x35 0 = true)

/-- TAKE_OWNERSHIP, SEAL, UNSEAL, RMA, MAKER_RESTORE and VOID, accepted (R533 to R538, R456, Tables 16-3, 16-8). -/
def Obligations.LifeCycleOperationsMoveTheState : Prop :=
  ∀ (d : Desc) (s : State),
    (SecReady [lcMaker] s → Takes (secForm 0x10 .input) d s → slotLeft s = true → (s.sec.keys.any (fun e => e.1 == 0)) = false →
      ∀ b n, b = payload d (dF d 12 4) → b.length = 196 → s.sec.nonce = some n →
      Config.ecdsaOk (b.take 96) (n ++ le 8 Config.serial.toNat) ((b.drop 96).take 96) = true →
      ∃ t, Completes (.takeOwnership d false false) d (executedAnd [.security, .lifeCycle]) 0 (le 1 lcOwned) s t ∧ t.sec.lc = lcOwned ∧
        t.sec.slots = s.sec.slots + 1 ∧ t.sec.keys = tput s.sec.keys 0 (b.take 96) ∧ t.sec.nonce = none ∧ t.sec.unlocked = false ∧
        t.sec.storeA = [] ∧ t.sec.storeB = []) ∧
    (SecReady [lcOwned] s → Takes (secForm 0x30 .input) d s → slotLeft s = true → s.sec.unlocked = false → Token 0x30 0 d s →
      ∃ t, Completes (.seal d false false) d (executedAnd [.security, .lifeCycle]) 0 (le 1 lcSealed) s t ∧ t.sec.lc = lcSealed ∧
        t.sec.slots = s.sec.slots + 1 ∧ t.sec.nonce = none ∧ t.sec.dbg = 0 ∧ t.sec.keys = s.sec.keys) ∧
    (SecReady [lcSealed] s → Takes (secForm 0x31 .input) d s → slotLeft s = true → s.sec.presence = true → Token 0x31 0 d s →
      ∃ t, Completes (.unseal d false false) d (executedAnd [.security, .lifeCycle]) 0 (le 1 lcOwned) s t ∧ t.sec.lc = lcOwned ∧
        t.sec.slots = s.sec.slots + 1 ∧ t.sec.nonce = none ∧ t.sec.presence = false ∧ t.sec.dbg = 0 ∧ t.sec.keys = s.sec.keys) ∧
    (SecReady [lcOwned, lcSealed] s → Takes (secForm 0x32 .input) d s → slotLeft s = true → s.sec.presence = true → s.tm.epoch = 0 →
      s.pend = none → Token 0x32 0 d s →
      ∃ t, Starts (.rma d false false) d (executedAnd [.security, .lifeCycle, .ports]) s t ∧ t.sec.lc = lcReturn ∧
        t.sec.slots = s.sec.slots + 1 ∧ t.sec.zeroDone = false ∧ t.sec.presence = false ∧ t.sec.approved = false ∧
        (t.sec.keys, t.sec.ldev, t.sec.ldevCert, t.sec.nonce, t.sec.unlocked, t.sec.blobSeq, t.sec.storeA, t.sec.storeB) =
          ([], none, none, none, false, 0, [], []) ∧
        (t.sec.ownerEpoch, t.sec.destroyed, t.sec.idev) = (s.sec.ownerEpoch + 1, s.sec.destroyed, s.sec.idev)) ∧
    (SecReady [lcReturn] s → Takes (secForm 0x33 .input) d s → slotLeft s = true → s.sec.zeroDone = true → Token 0x33 0xFF d s →
      ∃ t, Completes (.makerRestore d false false) d (executedAnd [.security, .lifeCycle]) 0 (le 1 lcMaker) s t ∧ t.sec.lc = lcMaker ∧
        t.sec.slots = s.sec.slots + 1 ∧ t.sec.nonce = none ∧ t.sec.approved = false) ∧
    (SecReady notVoid s → Takes (secForm 0x34 .input) d s → (ownedOrSealed s = true → s.sec.presence = true) →
      Token 0x34 (if ownedOrSealed s then 0 else 0xFF) d s →
      ∃ t, Completes (.void d false false) d (executedAnd [.security, .lifeCycle, .ports]) 0 (le 1 Machine.lcVoid) s t ∧ t.sec.lc = Machine.lcVoid ∧
        t.sec.slots = s.sec.slots ∧ t.sec.approved = false ∧ t.sec.dbg = 0 ∧
        t.sec.presence = (if ownedOrSealed s then false else s.sec.presence) ∧
        (t.sec.keys, t.sec.ldev, t.sec.ldevCert, t.sec.nonce, t.sec.unlocked, t.sec.blobSeq, t.sec.storeA, t.sec.storeB) =
          ([], none, none, none, false, 0, [], []) ∧
        (t.sec.ownerEpoch, t.sec.destroyed, t.sec.idev) = (s.sec.ownerEpoch + 1, true, false))

/-- KEY_INSTALL, UNLOCK, LDEVID_INSTALL and FW_UPDATE, accepted (R517, R523, R524, R528, R529). -/
def Obligations.KeysUnlocksAndImages : Prop :=
  ∀ (d : Desc) (s : State) (b : List Byte), b = payload d (dF d 12 4) →
    (SecReady [lcOwned, lcSealed] s → Takes (secForm 0x11 .input) d s → Token 0x11 0 d s → 1 ≤ tokParam b → tokParam b ≤ 3 →
      (tokData b).length = 96 →
      ∃ t, Completes (.keyInstall d false false) d (executedAnd [.security]) 0 (le 1 (tokParam b)) s t ∧ t.sec.nonce = none ∧
        t.sec.keys = (if (tokData b).all (· == 0) then tfilter s.sec.keys (fun i _ => i != tokParam b)
          else tput s.sec.keys (tokParam b) (tokData b)) ∧ t.sec.fails = 0) ∧
    (SecReady [lcOwned, lcReturn] s → Takes (secForm 0x20 .input) d s → Token 0x20 (if s.sec.lc = lcReturn then 0xFF else 0) d s →
      ∃ t, Completes (.unlock d false false) d (executedAnd [.security]) 0 [] s t ∧ t.sec.unlocked = true ∧ t.sec.approved = false ∧
        t.sec.nonce = none ∧ t.sec.keys = s.sec.keys ∧ t.sec.fails = 0) ∧
    (SecReady [lcOwned, lcSealed] s → Takes (secForm 0x51 .input) d s → Token 0x51 0 d s → s.sec.ldev.isSome = true →
      ∃ t, Completes (.ldevidInstall d false false) d (executedAnd [.security]) 0 [] s t ∧ t.sec.ldevCert = some (tokData b) ∧
        t.sec.nonce = none ∧ t.sec.keys = s.sec.keys ∧ t.sec.fails = 0) ∧
    (SecReady [lcFab, lcMaker, lcOwned, lcSealed] s → Takes (secForm 0x40 .input) d s → 12 ≤ dF d 12 4 → dF d 12 4 ≤ 262156 →
      s.sec.trial = false → getLE b 0 4 = 0 → dF d 12 4 - 12 < getLE b 4 4 →
      ∃ t, Completes (.fwUpdate d false false) d (executedAnd [.security]) 0 (le 4 (dF d 12 4 - 12) ++ [0]) s t ∧
        (if s.sec.bootB then t.sec.imgA else t.sec.imgB) = (b.drop 8).take (dF d 12 4 - 12) ∧ runImage t = runImage s ∧
        t.sec.rollback = s.sec.rollback)

/-- BLOB_LOAD and BLOB_STORE (R530, R531, R532). -/
def Obligations.BlobsAreStagedAndStored : Prop :=
  ∀ (d : Desc) (s : State), Fresh s →
    (Takes blobForm d s → ∀ (b : List Byte) (u : State), b = payload d (dF d 16 4) → u = authPassed (startDesc d (dF d 20 1) (acceptAlive d s)) →
      (s.sec.cryptoErr = true → ∃ t, Completes (.blobLoad d) d executed 0x42 [] s t) ∧
      (s.sec.cryptoErr = false → ownedOrSealed s = false → ∃ t, Completes (.blobLoad d) d executed 0x40 [] s t) ∧
      (s.sec.cryptoErr = false → ownedOrSealed s = true → s.sec.authLock = true → ∃ t, Completes (.blobLoad d) d executed 0x42 [] s t) ∧
      (ownedOrSealed s = true → s.sec.authLock = false → s.sec.cryptoErr = false →
        (blobSigned s b = false → lineBad s 0x35 0 = false → ∃ t, Completes (.blobLoad d) d (executedAnd [.security]) 0x41 [] s t ∧
          t.sec.fails = s.sec.fails + 1 ∧ srcActive t 0x35 0 = true) ∧
        (blobSigned s b = true → blobFits s b = false → ∃ t, Completes (.blobLoad d) d (executedAnd [.security]) 0x42 [] s t) ∧
        (∀ p, blobSigned s b = true → blobFits s b = true → blobParts b = some p → blobEntsOk b p = true → blobBadRule b p = none →
          (dF d 20 1 = 0 → ∃ t, Completes (.blobLoad d) d (executedAnd [.staged, .pairs, .sticky, .security]) 0 (le 4 p.cfg.length) s t ∧
            t.staged = (stageBlob b p u).staged) ∧
          (dF d 20 1 = 1 → ∃ t, Starts (.blobLoad d) d (executedAnd [.staged, .pairs, .sticky, .security]) s t ∧
            t.staged = (stageBlob b p u).staged)))) ∧
    (CanReport s → ∀ o, s.outs.find? (fun o => o.opcode == 0x0E && o.obj == 1) = some o → outOf s o.id = some o → o.lost = false →
      ∃ t, exec .blobStore s = .next t ∧ Only (touches .blobStore) s t ∧ outOf t o.id = none ∧
        ReportsOut o 0 (le 4 (getLE o.data 16 4)) s t ∧ t.sec.blobSeq = blobSeqOf o.data ∧
        (t.sec.storeA, t.sec.storeB) =
          (if s.sec.storeA = [] ∨ (s.sec.storeB ≠ [] ∧ blobSeqOf s.sec.storeA ≤ blobSeqOf s.sec.storeB) then (o.data, s.sec.storeB)
           else (s.sec.storeA, o.data)))

/-- ZEROISATION_COMPLETE, SELF_TEST_DONE, CRYPTO_ERROR, AUTH_LOCK_EXPIRY and PRESENCE_EXPIRY (R519, R520, R521, R537, R538, R542).
-/
def Obligations.SecurityEventsAreFollowed : Prop :=
  ∀ (s : State), CanReport s →
    (∀ o, s.sec.zeroDone = false → s.outs.find? (fun o => o.opcode == 0x0D && o.obj == 0x32) = some o → outOf s o.id = some o → o.lost = false →
      ∃ t, exec .zeroisationComplete s = .next t ∧ Only (touches .zeroisationComplete) s t ∧ t.sec = { s.sec with zeroDone := true } ∧
        outOf t o.id = none ∧ ReportsOut o 0 (le 1 lcReturn) s t) ∧
    (∀ alg o, s.outs.find? (fun o => o.opcode == 0x0D && o.obj == 0x60) = some o → outOf s o.id = some o → o.lost = false →
      ∃ t, exec (.selfTestDone alg) s = .next t ∧ Only (touches (.selfTestDone alg)) s t ∧ outOf t o.id = none ∧
        ReportsOut o 0 (le 1 alg) s t ∧ (alg = 0 → t.sec = s.sec) ∧ (alg ≠ 0 → t.sec.cryptoErr = true ∧ t.sec.approved = false)) ∧
    (∃ t, exec .cryptoError s = .next t ∧ Only [.outbox, .queues, .faults, .security, .sessions] s t ∧ t.sec.cryptoErr = true ∧
      t.sec.approved = false ∧ t.net.sessions = [] ∧ t.net.asked = []) ∧
    exec .authLockExpiry s = .next { s with sec := { s.sec with authLock := false } } ∧
    exec .presenceExpiry s = .next { s with sec := { s.sec with presence := false } }

/-- FAULT_SOURCE_ACTIVATE, TBASE_HIGH, CLOCK_SRC_LOST and CLOCK_BOTH_LOST: activation, latch and reaction (R485, R488, R489, R491,
R496, R511, R553). -/
def Obligations.CoreSourcesActivateAndReact : Prop :=
  (∀ (id : Nat) (ctx : List Byte) (s : State), awake s = true → rawSource id = true → lineBad s id 0 = false →
    ∃ t, exec (.faultSourceActivate id ctx) s = .next t ∧ srcActive t id 0 = true ∧
      (coreCls id ≤ 2 → Only [.outbox, .queues, .faults] s t) ∧
      (2 ≤ coreCls id → srcActive s id 0 = false → s.latch = none →
        t.latchSeq = s.latchSeq + 1 ∧ t.latch.map (fun l => (l.id, l.cls, l.tick)) = some (id, coreCls id, s.tm.count)) ∧
      (coreCls id = 4 → srcActive s id 0 = false → t.pwr.haltLatch = true ∧ (s.phase = .running → t.phase = .draining) ∧
        ∀ f, f < 32 → (frond t f).safeOrder = true)) ∧
  (∀ s : State, running s = true → s.pwr.above = true → 4000 ≤ s.pwr.aboveFor → lineBad s 0x1E 0 = false →
    ∃ t, exec .tbaseHigh s = .next t ∧ Only [.outbox, .queues, .faults] s t ∧ srcActive t 0x1E 0 = true ∧
      (srcActive s 0x1E 0 = false → ∃ x, t.srcs.find? (fun e => e.1 == srcKey 0x1E 0) = some (srcKey 0x1E 0, x) ∧ x.cls = 2 ∧
        x.deadline = some (s.tm.count + BitVec.ofNat 48 (frcF s 0xB000 0 0 8)))) ∧
  (∀ (oscB : Bool) (s : State), awake s = true → s.tm.clkA = true → s.tm.clkB = true → lineBad s 0x18 0 = false →
    ∃ t, exec (.clockSrcLost oscB) s = .next t ∧ Only [.outbox, .queues, .faults, .clocks] s t ∧
      (t.tm.clkA, t.tm.clkB) = (oscB, !oscB) ∧ t.tm.clkSel = !oscB ∧ srcActive t 0x18 0 = true) ∧
  (∀ s : State, awake s = true → lineBad s 0x02 0 = false → srcActive s 0x02 0 = false →
    ∃ t, exec .clockBothLost s = .next t ∧ (t.tm.clkA, t.tm.clkB) = (false, false) ∧ srcActive t 0x02 0 = true ∧
      t.pwr.haltLatch = true ∧ (s.phase = .running → t.phase = .draining) ∧ ∀ f, f < 32 → (frond t f).safeOrder = true)

/-- FAULT_SOURCE_CLEARED, CLOCK_SRC_LOST_CLEAR, ESCALATION, SHADOW_CLOSE and HALT_DRAIN_TIMEOUT (R484, R491, R493, R494, R500). -/
def Obligations.SourcesEndAndEscalate : Prop :=
  (∀ (id sub line : Nat) (act : Bool) (ctx : List Byte) (x : Src) (s : State), awake s = true → id ≠ 0x3F → condGone s id sub = true →
    lineBad s id sub = false → s.srcs.find? (fun e => e.1 == srcKey id sub) = some (srcKey id sub, x) → x.esc = false →
    ∃ t, exec (.faultSourceCleared id sub line act ctx) s = .next t ∧ Only [.queues, .faults] s t ∧ srcActive t id sub = false) ∧
  (∀ (x : Src) (s : State), awake s = true → s.tm.clkA = true ∨ s.tm.clkB = true → lineBad s 0x18 0 = false →
    s.srcs.find? (fun e => e.1 == srcKey 0x18 0) = some (srcKey 0x18 0, x) → x.esc = false →
    ∃ t, exec .clockSrcLostClear s = .next t ∧ Only [.clocks, .queues, .faults] s t ∧ (t.tm.clkA, t.tm.clkB) = (true, true) ∧
      srcActive t 0x18 0 = false) ∧
  (∀ (id sub : Nat) (x : Src) (d : TickNo) (s : State), running s = true → s.srcs.find? (fun e => e.1 == srcKey id sub) = some (srcKey id sub, x) →
    x.cls = 2 → x.esc = false → x.deadline = some d → d ≤ s.tm.count →
    ∃ t, exec (.escalation id sub) s = .next t ∧ Only [.outbox, .queues, .faults, .fronds] s t ∧
      t.srcs = tput s.srcs (srcKey id sub) { x with esc := true } ∧ effCls { x with esc := true } = 3 ∧
      ∀ f ∈ scope s id sub x.ctx, f < 32 → (frond t f).safeOrder = true) ∧
  (∀ (f : Nat) (sh : Shadow) (c : TickNo) (s : State), running s = true → s.shadows.find? (fun e => e.1 == f) = some (f, sh) →
    sh.closeAt = some c →
    ∃ t, exec (.shadowClose f) s = .next t ∧ Only [.queues, .faults] s t ∧ t.shadows = tfilter s.shadows (fun j _ => j != f) ∧
      t.srcs = s.srcs ∧ t.latch = s.latch) ∧
  (∀ s : State, s.phase = .draining → exec .haltDrainTimeout s =
    .next { s with phase := .halted, tm := { s.tm with tickOut := false, syncOut := false } })

/-- TIME_LOCKED, TIME_HOLDOVER and TIME_REGAINED (Table 9-1, R303, R307). -/
def Obligations.TimeStatesFollowTable91 : Prop :=
  ∀ s : State, running s = true →
    (s.tm.state = 1 → 16 ≤ s.tm.run → ∃ t, exec .timeLocked s = .next t ∧ Only [.outbox, .queues, .faults, .time] s t ∧
      t.tm.state = 2 ∧ t.tm.slew = 0 ∧ t.tm.jump = none ∧ t.tm.offset = s.tm.offset) ∧
    (s.tm.state = 2 ∨ (s.tm.state = 1 ∧ s.tm.renumbered = true) → ∃ t, exec .timeHoldover s = .next t ∧
      Only [.outbox, .queues, .faults, .time] s t ∧ t.tm.state = 3 ∧ t.tm.slew = 0 ∧ t.tm.jump = none ∧ t.tm.offset = s.tm.offset ∧
      (lineBad s 0x19 0 = false → srcActive t 0x19 0 = true)) ∧
    (s.tm.state = 3 → s.tm.conflict = false → ∃ t, exec .timeRegained s = .next t ∧ Only [.outbox, .queues, .faults, .time] s t ∧
      t.tm.state = 1 ∧ t.tm.slew = 0 ∧ t.tm.jump = none ∧ t.tm.offset = s.tm.offset)

/-- SYNC_IN_SNAP, SYNC_IN_PHASE_RESET and SYNC_IN_CAPTURE_TRIGGER (R131, R132, R136, R185, R280, R308, R340). -/
def Obligations.SyncInEdgesAct : Prop :=
  (∀ (cycles : Nat) (s : State), s.phase = .running → syncFn s = 1 →
    ∃ t, exec (.syncInSnap cycles) s = .next t ∧ Only [.outbox, .fronds] s t ∧ (∀ o ∈ t.outbox, o ∈ s.outbox ∨
        ∃ f crc, f < 32 ∧ snapStamp s f cycles = cycles ∧ o = .order f 0x1C (BitVec.ofNat 8 (requestTime cycles)) crc) ∧
      ∀ f, f < 32 →
        (snapStamp s f cycles = cycles → (frond t f).lastSnap = some (coreCycle s cycles) ∧ (frond t f).snapLost = (frond s f).snapLost ∧
          ∃ crc, .order f 0x1C (BitVec.ofNat 8 (requestTime cycles)) crc ∈ t.outbox) ∧
        (snapStamp s f cycles ≠ cycles → ∀ n, n = ((List.range 16).filter (fun p => bit (frc s 0x2148 (16 * f + p)) 2)).length →
          frond t f = { frond s f with snapLost := satAdd 255 (frond s f).snapLost n })) ∧
  (∀ s : State, running s = true → syncFn s = 2 →
    exec .syncInPhaseReset s = .next { s with tm := { s.tm with syncReq := s.tm.syncReq ++ [none] } }) ∧
  (∀ (cycles : Nat) (s : State), running s = true → syncFn s = 3 → ∃ t, exec (.syncInCaptureTrigger cycles) s = .next t ∧
    Only [.caps] s t ∧ ∀ r, r < 32 → bit (capWord s.cfg r 0) 6 = true → capEn s.cfg r = true → (capRing s r).armed = true →
      (capRing s r).run = none → ∃ c, (capRing t r).run = some c ∧ c.key = keyAt s cycles ∧ c.sources = 2 ∧ c.ids = [])

/-- TICK_OUT_FALL, SYNC_OUT_REPEAT and CHECK_IN (R310, R311, R509). -/
def Obligations.PinsAndCheckIn : Prop :=
  ∀ (level : Bool) (s : State),
    exec .tickOutFall s = .next { s with tm := { s.tm with
      tickOut := false, syncOut := s.tm.syncOut && !(fld (frc s 0x101C 0) 4 2 == 2 || fld (frc s 0x101C 0) 4 2 == 3) } } ∧
    exec (.syncOutRepeat level) s = .next { s with tm := { s.tm with
      syncIn := level, syncOut := if running s = true ∧ fld (frc s 0x101C 0) 4 2 = 1 then level else s.tm.syncOut } } ∧
    (running s = true → exec .checkIn s = .next { s with tm := { s.tm with checkedIn := true } })

/-- MODULE_RESET, HALT_RELEASE, VLOG_VALID and AUX_POWER_ENABLE (R492, R538, R559, R562, R563, R564, Tables 16-2, 16-3). That a
reset also clears what is no register (the failed supply phases of R551 among it) and keeps PCIE_PERST_N is the model's choice
(assumption logs 10 and 48). -/
def Obligations.ResetsKeepTheFrondsAndTheKeyStore : Prop :=
  (∀ (b : Bool) (s : State), s.phase ≠ .off → (b = true ∨ (s.phase ≠ .halted ∧ s.phase ≠ .draining)) →
    ∃ t o, exec (.moduleReset b) s = .next t ∧ s.outbox <:+ o ∧
      (awake s = true → s.phase ≠ .draining → ∀ f, f < 32 → ∃ crc, .order f 0x7C 0xA5 crc ∈ o) ∧
      ∀ p, p = (if b = true then ({ haltLatch := s.pwr.haltLatch, perst := s.pwr.perst } : Power)
        else { haltLatch := s.pwr.haltLatch, perst := s.pwr.perst, valid := s.pwr.valid, aux := s.pwr.aux }) →
      t = { State.reset with
            pending := s.pending, outbox := o, field := s.field, phase := if b = true then .off else .reset, sec := keptSec s.sec, pwr := p }) ∧
  (∀ s : State, s.phase = .halted ∨ s.phase = .draining ∨ s.phase = .off → exec .haltRelease s = .next
    { State.reset with
      pending := s.pending, outbox := s.outbox, field := s.field, phase := .off, sec := keptSec s.sec, pwr := { perst := s.pwr.perst } }) ∧
  (∀ s : State, (keptSec s.sec).lc = s.sec.lc ∧ (keptSec s.sec).keys = s.sec.keys ∧ (keptSec s.sec).nonce = none ∧
    (keptSec s.sec).unlocked = false ∧ (keptSec s.sec).presence = false ∧ (keptSec s.sec).approved = false ∧ (keptSec s.sec).dbg = 0 ∧
    ((keptSec s.sec).destroyed, (keptSec s.sec).ownerEpoch, (keptSec s.sec).idev) = (s.sec.destroyed, s.sec.ownerEpoch, s.sec.idev)) ∧
  (∀ (cold low boot1 : Bool) (s : State), s.phase = .off → ∃ t, exec (.vlogValid cold low boot1) s = .next t ∧
    Only [.halt, .clocks, .supplies] s t ∧ t.pwr.valid = true ∧ t.pwr.haltLatch = s.pwr.haltLatch ∧ (t.tm.clkA, t.tm.clkB) = (true, true) ∧
    t.pwr.boot1 = (cold && low && boot1) ∧ t.phase = if s.pwr.haltLatch then .halted else .reset) ∧
  (∀ (g : Nat) (s : State), s.pwr.valid = true → g < 4 → s.pwr.aux.contains g = false →
    exec (.auxPowerEnable g) s = .next { s with pwr := { s.pwr with aux := s.pwr.aux ++ [g] } })

/-- BOOT_START and BOOT_DONE (R46, R49, R438, R516, R522, R523, R538, R551, R560, R563). -/
def Obligations.StartUpRunsFirmware : Prop :=
  (∀ (i : BootIn) (s : State), s.phase = .reset → s.pwr.valid = true → i.alg = 0 → i.otpBad = false → s.sec.otpOk = true →
    s.sec.lc ≠ Machine.lcVoid → (s.sec.lc = lcReturn → s.sec.zeroDone = true) →
    ∀ pref img, pref = (if s.sec.trial then !s.sec.pref else s.sec.pref) → img = (fun b : Bool => if b then s.sec.imgB else s.sec.imgA) →
    (bootable s (img pref) = true ∨ bootable s (img !pref) = true) →
    ∃ t, exec (.bootStart i) s = .next t ∧
      Only [.outbox, .queues, .faults, .halt, .auto, .clocks, .supplies, .link, .host, .security] s t ∧ t.phase = .booting ∧
      t.auto = i.boot0 ∧ t.pwr.haltLatch = s.pwr.haltLatch ∧ t.sec.pref = pref ∧
      t.sec.bootB = (if bootable s (img pref) = true then pref else !pref) ∧
      (bootable s (img pref) = false → t.sec.fallback = true) ∧ t.sec.keys = s.sec.keys ∧ t.sec.rollback = s.sec.rollback ∧
      t.pwr.presPend = (s.pwr.boot1 && i.boot1 && i.held) ∧
      (s.pwr.failed ≠ [] → lineBad s 0x1C 0 = false → srcActive t 0x1C 0 = true)) ∧
  (∀ s : State, s.phase = .booting → ∃ t, exec .bootDone s = .next t ∧
    Only [.halt, .outbox, .queues, .rings, .alives, .faults, .supplies, .security] s t ∧ t.phase = .running ∧
    t.pwr.haltLatch = s.pwr.haltLatch ∧ t.pwr.booted = true ∧ t.sec.approved = (notApproved s == 0) ∧ t.sec.naCause = notApproved s ∧
    t.sec.presence = s.pwr.presPend ∧ t.sec.keys = s.sec.keys ∧
    (s.auto = false → t.rings = s.rings) ∧
    (s.auto = true → t.expAlive = 1 ∧ ∀ r, r < 3 → (ring t r).en = true ∧ (ring t r).log2 = 8 ∧ (ring t r).p = 0 ∧ (ring t r).c = 0))

/-- AUTONOMOUS_COMMIT stages the stored blob and submits a COMMIT for the first permitted tick (R49, R530, R532). That it is
submitted in this command is the model's choice (assumption log 24). -/
def Obligations.AutonomousStartCommitsTheStore : Prop :=
  ∀ (b : List Byte) (p : BlobParts) (s u : State), running s = true → s.auto = true → storedBlob s = some b → blobParts b = some p →
    u = stageBlob b p s →
    ∃ t, exec .autonomousCommit s = .next t ∧ t.staged = u.staged ∧ t.cfg = s.cfg ∧ (ring t cmdRing).p = (ring s cmdRing).p + 1 ∧
      .hostWrite ((ring s cmdRing).base + BitVec.ofNat 64 (32 * ((ring s cmdRing).p.toNat % ringSize (ring s cmdRing))))
        (mpCommit u (firstTarget u)).raw ∈ t.outbox ∧
      dCrcOk (mpCommit u (firstTarget u)) = true

/-- SUPPLY_PHASE and SUPPLY_PHASE_RETRY (R551, Table 15-3). -/
def Obligations.SupplyPhasesAreFollowed : Prop :=
  ∀ (ph : Nat) (s : State),
    (s.pwr.valid = true → s.pwr.failed.contains ph = false → ∃ t, exec (.supplyPhase ph) s = .next t ∧
      Only [.outbox, .queues, .faults, .supplies] s t ∧ t.pwr.failed = s.pwr.failed ++ [ph] ∧ t.pwr.valid = s.pwr.valid ∧
      (awake s = true → lineBad s 0x1C 0 = false → srcActive t 0x1C 0 = true)) ∧
    (∃ t, exec (.supplyPhaseRetry ph true) s = .next t ∧ Only [.outbox, .queues, .faults, .supplies] s t ∧
      t.pwr.failed = s.pwr.failed.filter (fun k => k != ph) ∧
      (∀ x, s.pwr.failed = [ph] → awake s = true → lineBad s 0x1C 0 = false →
        s.srcs.find? (fun e => e.1 == srcKey 0x1C 0) = some (srcKey 0x1C 0, x) → x.esc = false → srcActive t 0x1C 0 = false)) ∧
    exec (.supplyPhaseRetry ph false) s = .next s

/-- FUNCTION_LEVEL_RESET, BUS_MASTER_CLEAR, PCIE_PERST and PCIE_DEGRADED (R404, R406, R557, R561). That the masks and the MSI-X
table stay over FUNCTION_LEVEL_RESET is the model's choice (assumption logs 48 and 82). -/
def Obligations.EndpointEventsStopTheRings : Prop :=
  ∀ (l : LinkIn) (s : State) (judged : State → Prop),
    judged = (fun t => awake s = true → lineBad s 0x2C 0 = false →
      (∀ d, s.pwr.drain = some d → pcieDrain t < d → srcActive t 0x2C 0 = true) ∧
      ((∀ d, s.pwr.drain = some d → d ≤ pcieDrain t) →
        (∀ x, s.srcs.find? (fun e => e.1 == srcKey 0x2C 0) = some (srcKey 0x2C 0, x) → x.esc = false) → srcActive t 0x2C 0 = false)) →
    (s.auto = false → ∀ c, c ∈ [Instr.functionLevelReset, .busMasterClear, .pciePerst false l] → ∃ t, exec c s = .next t ∧
      Only [.outbox, .rings, .descs, .host, .link] s t ∧ t.outbox = s.outbox ∧ t.bme = false ∧
      (t.stsBase, t.tickIrq, t.tickDiv) = (s.stsBase, s.tickIrq, s.tickDiv) ∧
      (∀ r, ring t r = { ring s r with en := false }) ∧ (∀ o ∈ t.outs, o.lost = true) ∧ t.outs.map (fun o => o.id) = s.outs.map (fun o => o.id) ∧
      (c ≠ .pciePerst false l → (t.msix, t.pba, t.ep) = (s.msix, s.pba, s.ep) ∧ t.pwr = s.pwr) ∧
      (c = .pciePerst false l → (t.msix, t.pba, t.ep) = (0, 0, State.reset.ep) ∧ t.pwr = { s.pwr with perst := false, linkUp := false })) ∧
    (s.auto = false → awake s = true → l.width ≠ 0 → ∃ t, exec (.pciePerst true l) s = .next t ∧
      Only [.outbox, .queues, .faults, .host, .link] s t ∧
      t.pwr = { s.pwr with perst := true, linkUp := true, gts := l.gts, width := l.width } ∧
      (t.stsBase, t.tickIrq, t.tickDiv, t.bme, t.msix, t.ep) = (s.stsBase, s.tickIrq, s.tickDiv, s.bme, l.msix, s.ep) ∧ judged t) ∧
    (∀ gts width, s.auto = false → s.pwr.linkUp = true → ∃ t, exec (.pcieDegraded gts width) s = .next t ∧
      Only [.outbox, .queues, .faults, .link] s t ∧ t.pwr = { s.pwr with gts := gts, width := width } ∧ judged t) ∧
    (s.auto = true → exec .functionLevelReset s = .next s ∧ exec .busMasterClear s = .next s)

/-- ETH_LINK_DOWN and ETH_LINK_UP (R465, R480, Table 15-3, Table 9-1). That frames which wait on the lost port are dropped is the
model's choice (assumption log 84). -/
def Obligations.EthernetLinksAreFollowed : Prop :=
  ∀ (p : Nat) (v : TimeView) (s : State), switchOn s = true → p < 2 →
    ((port s p).link = true → ∃ t r, exec (.ethLinkDown p v) s = .next t ∧ Only [.outbox, .queues, .faults, .time, .ports, .timeView] s t ∧
      port t p = { port s p with link := false, speed := 0, lost := true, waiting := [], role := 0 } ∧
      port t (1 - p) = { port s (1 - p) with role := r } ∧ ((port s (1 - p)).link = false → r = 0) ∧
      ((port s (1 - p)).link = true → v.gm = true → r = 1) ∧ (v.gm = false → r ≠ 1 ∧ r ≠ 2) ∧
      t.net.gm = (v.gm && (port s (1 - p)).link) ∧ t.net.stepsRemoved = v.steps % 256 ∧
      ((port s p).role = 1 → t.net.gm = false → holdsOver s = true → t.tm.state = 3 ∧ t.tm.slew = 0) ∧
      ((port s p).role ≠ 1 ∨ t.net.gm = true ∨ holdsOver s = false → Only [.outbox, .queues, .faults, .ports, .timeView] s t) ∧
      (awake s = true → lineBad s 0x30 0 = false → srcActive t 0x30 0 = true)) ∧
    (∀ speed, ∃ t r o, exec (.ethLinkUp p speed v) s = .next t ∧ Only [.outbox, .queues, .faults, .ports, .timeView] s t ∧
      port t p = { port s p with link := true, speed := speed % 4, lost := false, role := r } ∧
      port t (1 - p) = { port s (1 - p) with role := o } ∧ ((port s (1 - p)).link = false → o = 0) ∧
      (v.gm = true → (r = 1 ↔ o ≠ 1)) ∧ (v.gm = false → r ≠ 1 ∧ o ≠ 1) ∧ (r = 2 → o = 1) ∧ (o = 2 → r = 1) ∧
      (∀ own other, own = (if p = 0 then v.role0 else v.role1) → other = (if p = 0 then v.role1 else v.role0) → v.gm = true → own % 4 = 1 → other % 4 ≠ 1 →
        r = 1) ∧
      t.net.gm = v.gm ∧ t.net.stepsRemoved = v.steps % 256 ∧
      (∀ x, awake s = true → lineBad s 0x30 0 = false → (port s (1 - p)).lost = false →
        s.srcs.find? (fun e => e.1 == srcKey 0x30 0) = some (srcKey 0x30 0, x) → x.esc = false → srcActive t 0x30 0 = false))

/-- ETH_FRAME and ADDRESS_AGEING (R460, R461, R464, R465, R478, Table 14-1). Frame length bounds, the full table that learns
nothing, egress by the gate alone and the layouts of these protocols are the model's choice (assumption logs 42, 41 and 84). -/
def Obligations.TheSwitchForwards : Prop :=
  (∀ (p : Nat) (b : List Byte) (v : TimeView) (s : State), switchOn s = true → p < 2 → (port s p).link = true → 14 ≤ b.length →
    b.length ≤ 1536 →
    ((port s p).macsec = true → isTimeFrame b = false → rxFrame (port s p) b = none →
      ∃ t, exec (.ethFrame p b v) s = .next t ∧ Only [.ports] s t ∧
        port t p = { port s p with badRx := satAdd 0xFFFF (port s p).badRx 1 } ∧ port t (1 - p) = port s (1 - p)) ∧
    ((port s p).macsec = false → (port s (1 - p)).link = true → (port s (1 - p)).macsec = false →
      (isTimeFrame b = true → ∃ t, exec (.ethFrame p b v) s = .next t ∧ Only [.outbox, .ports, .timeView] s t ∧ t.net.gm = v.gm ∧
        t.net.stepsRemoved = v.steps % 256 ∧ t.net.p0 = { s.net.p0 with role := roleIn v s 0 } ∧
        t.net.p1 = { s.net.p1 with role := roleIn v s 1 } ∧
        t.outbox = (if (port t p).role = 1 ∧ (port t (1 - p)).role = 2 ∧ relays (frcF s 0x1018 0 8 7) b = true then
          [.forward (1 - p) (relayed (1 - p) v.resid b)] else []) ++ s.outbox) ∧
      (isTimeFrame b = false → isReserved (macAt b 0) = true → exec (.ethFrame p b v) s = .next s) ∧
      (isTimeFrame b = false → isReserved (macAt b 0) = false → gateOpen s (1 - p) (frameClass b) = true → gateOpen s p 6 = true →
        (∀ q, q < 2 → (port s q).waiting = []) →
        ∀ src dst known own6 told said, src = macAt b 6 → dst = macAt b 0 → known = s.net.addrs.any (fun e => e.1 == src) →
        own6 = [linkLocal, ownV6 s.cfg].filter (fun a => a != noAddr6) →
        told = (if running s = true ∧ (dst = Config.mac.toNat ∨ isGroup dst = true) then ipHeard (ownV4 s.cfg) own6 b else none) →
        said = (if running s = true ∧ (dst = Config.mac.toNat ∨ isGroup dst = true) then
          (ipAnswer (ownV4 s.cfg) own6 b).toList.map (fun a => Output.forward p a) else []) →
        ∃ t, exec (.ethFrame p b v) s = .next t ∧ Only [.outbox, .addrs] s t ∧
          t.net.addrs = (if isGroup src = true ∨ (known = false ∧ 1024 ≤ s.net.addrs.length) then s.net.addrs
            else (src, p) :: s.net.addrs.filter (fun e => e.1 != src)) ∧
          t.net.neigh = (match told with
            | some (a, m) => (a, m) :: s.net.neigh.filter (fun e => e.1 != a)
            | none => s.net.neigh) ∧
          t.outbox = (if dst = Config.mac.toNat then said ++ [.forward 2 b]
            else if isGroup dst = true then .forward (1 - p) b :: said ++ [.forward 2 b]
            else match t.net.addrs.find? (fun e => e.1 == dst) with
              | some (_, q) => if q = p then [] else [.forward (1 - p) b]
              | none => [.forward (1 - p) b, .forward 2 b]) ++ s.outbox))) ∧
  (∀ (m : Nat) (s : State), ∃ t, exec (.addressAgeing m) s = .next t ∧ Only [.addrs] s t ∧ t.net.neigh = s.net.neigh ∧
    ∀ e, e ∈ t.net.addrs ↔ e ∈ s.net.addrs ∧ e.1 ≠ m)

/-- GATE_CONTROL_LIST_ENTRY and DATAGRAM_CLOSE (R460, R467, R468, R469, R471, R472). That what waits for an open gate leaves at
once, the gates in a HALT, and the wait for the address are the model's choice (assumption logs 41, 86 and 84). -/
def Obligations.GatesAndDatagrams : Prop :=
  (∀ (p : Nat) (s : State), p < 2 →
    (running s = true → (port s p).gate + 1 < gateCount s.cfg p → ∃ t, exec (.gateControlListEntry p) s = .next t ∧
      Only [.outbox, .queues, .faults, .ports] s t ∧ (port t p).gate = (port s p).gate + 1 ∧ port t (1 - p) = port s (1 - p) ∧
      ((port s p).macsec = false → (port s p).link = true →
        (port t p).waiting = (port s p).waiting.filter (fun e => !mayTx t p e.1 e.2) ∧
        (∀ tc b, (tc, NetTx.frame b) ∈ (port s p).waiting → gateOpen t p tc = true → Output.forward p b ∈ t.outbox) ∧
        ∀ tc i b, (tc, NetTx.gram i b) ∈ (port s p).waiting → gateOpen t p tc = true → (gramTo s i).mac ≠ [] →
          Output.datagram i p (gramTo s i) (udpSum (gramTo s i) b) b none ∈ t.outbox)) ∧
    (running s = true → gateCount s.cfg p ≤ (port s p).gate + 1 → exec (.gateControlListEntry p) s = .next s) ∧
    (s.phase = .halted → switchOn s = true → ∃ t, exec (.gateControlListEntry p) s = .next t ∧
      Only [.outbox, .queues, .faults, .ports] s t ∧ port t (1 - p) = port s (1 - p) ∧
      (port t p).gate = if (port s p).gate + 1 < gateCount s.cfg p then (port s p).gate + 1 else 0)) ∧
  (∀ (i p : Nat) (s : State) (x : Pub) (n : Nat) (gram : List Byte → Output), running s = true → i < 16 → p < 2 → subPort s.cfg i = p →
    x = pub s i → n = (if x.recs = [] then x.dseq else (x.dseq + 1) % 2 ^ 32) →
    gram = (fun b => .datagram i p (gramTo s i) (udpSum (gramTo s i) b) b none) →
    ((port s p).link = true → (port s p).macsec = false → gateOpen s p (subTc s.cfg i) = true →
      ((gramTo s i).mac ≠ [] → ∃ t, exec (.datagramClose i) s = .next t ∧ Only [.outbox, .pubs] s t ∧
        t.outbox = (if x.fwd = [] then [] else [gram (gramBytes i n true x.fwd)]) ++
          (if x.recs = [] then [] else [gram (gramBytes i x.dseq false x.recs)]) ++ s.outbox ∧
        pub t i = { x with recs := [], fwd := [], dseq := if x.fwd = [] then n else (n + 1) % 2 ^ 32 } ∧ ∀ j, j ≠ i → pub t j = pub s j) ∧
      ((gramTo s i).mac = [] → gateOpen s p 6 = true → x.recs ≠ [] → x.fwd = [] → ∃ t, exec (.datagramClose i) s = .next t ∧
        Only [.outbox, .ports, .pubs] s t ∧ t.outbox = .forward p (ipAsk (gramTo s i)) :: s.outbox ∧
        port t p = { port s p with waiting := (port s p).waiting ++ [(subTc s.cfg i, .gram i (gramBytes i x.dseq false x.recs))] } ∧
        port t (1 - p) = port s (1 - p))) ∧
    (x.recs = [] → x.fwd = [] → exec (.datagramClose i) s = .next s))

/-- TLS_CONNECT and TLS_SESSION_CLOSE (R481, R515, R520, R541). -/
def Obligations.ManagementSessionsOpenAndClose : Prop :=
  (∀ (root : List Byte) (h : TlsIn) (s : State), running s = true →
    (h.tcp ≠ 50121 ∨ h.own = false → exec (.tlsConnect root h) s = .next s) ∧
    (h.tcp = 50121 → h.own = true → ∀ owner ok, owner = s.sec.keys.any (fun e => e.2 == root) →
      ok = ((if s.sec.keys = [] then root == Config.makerKey else owner) && h.v13 && h.aes256 && h.p384 &&
        (s.sec.idev || s.sec.ldevCert.isSome)) →
      (s.sec.cryptoErr = false → s.net.sessions.length < 2 → ok = true → ∃ t id, exec (.tlsConnect root h) s = .next t ∧
        Only [.sessions] s t ∧ t.net.sessions = ⟨id, owner⟩ :: s.net.sessions ∧ t.net.asked = s.net.asked ∧
        ∀ x ∈ s.net.sessions, x.id ≠ id) ∧
      (s.sec.cryptoErr = true ∨ 2 ≤ s.net.sessions.length ∨ ok = false → ∃ t, exec (.tlsConnect root h) s = .next t ∧
        Only [.outbox, .queues, .faults] s t ∧ (lineBad s 0x35 0 = false → srcActive t 0x35 0 = true)))) ∧
  (∀ (id : Nat) (s : State), ∃ t, exec (.tlsSessionClose id) s = .next t ∧ Only [.sessions] s t ∧
    (∀ x, x ∈ t.net.sessions ↔ x ∈ s.net.sessions ∧ x.id ≠ id) ∧ ∀ k a, (k, a) ∈ t.net.asked ↔ (k, a) ∈ s.net.asked ∧ a.1 ≠ id)

/-- STATUS, NET_SET, MACSEC_KEY, MACSEC_TX_CHANGE and DESCRIPTOR of an open session (R438, R479, R482, R483, Table 14-4). REFUSED
without another SA, AUTH_FAIL in a maker's session, the words of a NET_SET body and the way that a descriptor enters the ring are
the model's choice (assumption logs 40, 39, 33 and 50). -/
def Obligations.RequestsAreAnswered : Prop :=
  ∀ (id sq : Nat) (x : Session) (s : State), running s = true → s.net.sessions.find? (fun x => x.id == id) = some x →
    ∀ (ans : Nat → Nat → List Byte → Output), (∀ k st b, ans k st b = .reply id (le 4 (5 + b.length) ++ (le 2 (k + 0x8000) ++ le 2 sq ++ le 1 st ++ b))) →
    (∀ ofs n, statusOk ofs n = true → exec (.status id sq ofs n) s = .next { s with
      outbox := ans 1 0 (((List.range n).map (fun i => le 4 (readReg .mp s (ofs + 4 * i)).toNat)).flatten) :: s.outbox }) ∧
    (x.owner = false → ∀ k c, ((∃ body, (k, c) = (2, Instr.netSet id sq body)) ∨ (∃ p, (k, c) = (3, .macsecTxChange id sq p)) ∨
        (∃ d, (k, c) = (4, .descriptor id sq d)) ∨ ∃ p rx an key ssci pn, (k, c) = (3, .macsecKey id sq p rx an key ssci pn)) →
      exec c s = .next { s with outbox := ans k 0x41 [] :: s.outbox }) ∧
    (x.owner = true →
      (∀ body, s.sec.lc ≠ lcSealed → (∀ e ∈ Config.netBody body, rwsMask (netOfs e.1) ≠ 0 ∧ e.2.1 < netInst e.1) →
        ((Config.netBody body).map (fun e => (e.1, e.2.1))).Nodup →
        ∃ t, exec (.netSet id sq body) s = .next t ∧ Only [.outbox, .staged] s t ∧ t.outbox = ans 2 0 [] :: s.outbox ∧
          ∀ o i v, (o, i, v) ∈ Config.netBody body → conf t.staged (netOfs o) i &&& rwsMask (netOfs o) = v &&& rwsMask (netOfs o)) ∧
      (∀ body, s.sec.lc = lcSealed → exec (.netSet id sq body) s = .next { s with outbox := ans 2 0x40 [] :: s.outbox }) ∧
      (∀ p rx an key ssci pn, s.sec.lc ≠ Machine.lcVoid → p < 2 → an ≤ 3 → key.length = 32 → pn < 2 ^ 32 → ssci < 2 ^ 32 →
        ∀ a, a = Sa.mk an key ssci pn → ∃ t r, exec (.macsecKey id sq p rx an key ssci pn) s = .next t ∧
          Only [.outbox, .queues, .faults, .ports] s t ∧ t.outbox = ans 3 0 [] :: r ∧ (port t p).macsec = true ∧
          port t (1 - p) = port s (1 - p) ∧
          (rx = true → (port t p).rx0 = some a ∨ (port t p).rx1 = some a) ∧
          ((port s p).waiting = [] → port t p = { (if rx then putRx a (port s p) else putTx a (port s p)) with macsec := true })) ∧
      (∀ p, s.sec.lc ≠ Machine.lcVoid → p < 2 →
        ((txOther (port s p)).isSome = true → (port s p).waiting = [] → ∃ t r, exec (.macsecTxChange id sq p) s = .next t ∧
          Only [.outbox, .queues, .faults, .ports] s t ∧ t.outbox = ans 3 0 [] :: r ∧ port t p = { port s p with txAn := !(port s p).txAn } ∧
          port t (1 - p) = port s (1 - p)) ∧
        (txOther (port s p) = none → exec (.macsecTxChange id sq p) s = .next { s with outbox := ans 3 0x15 [] :: s.outbox })) ∧
      (∀ d, s.auto = false → exec (.descriptor id sq d) s = .next { s with outbox := ans 4 0x40 [] :: s.outbox }) ∧
      (∀ d r, r = ring s cmdRing → s.auto = true → d.pay.length ≤ 262144 → r.en = true → ringUsed r < ringSize r →
        ∃ t, exec (.descriptor id sq d) s = .next t ∧ Only [.outbox, .rings, .sessions] s t ∧
          t.outbox = .hostWrite (r.base + BitVec.ofNat 64 (32 * (r.p.toNat % ringSize r))) (padTo 32 d.raw) :: s.outbox ∧
          ring t cmdRing = { r with p := r.p + 1, db := r.p + 1 } ∧ (∀ j, j ≠ cmdRing → ring t j = ring s j) ∧
          t.net.sessions = s.net.sessions ∧ tget (0, 0) t.net.asked (r.p.toNat % 65536) = (id, sq)))

/-- D0, D1, D2 and DS at a frond (R117, R118, R318, R333, R334, R338, R342 to R347). That a reject at the frond counts in the
core's REJ at once is the model's choice (assumption log 12). -/
def Obligations.DownlinkFramesAreUsedOnce : Prop :=
  ∀ (f fin ins : Nat) (fr : Frame) (crit : List CritIn) (x : Frond) (s : State), x = fieldOf s f → x.power = true →
    (∀ c k n, (c, k, n) ∈ [(Instr.d0 f fr fin crit, (0x10 : Byte), fun m => m == 113), (.d1 f fr, 0x11, fun m => m == 82),
        (.d2 f fr ins, 0x12, fun m => m + ins == 344 && decide (130 ≤ m)), (.ds f fr, 0x18, fun m => m == 2)] →
      (frameOk fr k n = none → running s = true → ∃ t l m, exec c s = .next t ∧ Only [.outbox, .queues, .faults, .fronds] s t ∧
        l = (if fr.linkB then (frond s f).b else (frond s f).a) ∧ m = (if fr.linkB then (frond t f).b else (frond t f).a) ∧
        m.rej = satAdd 255 l.rej 1 ∧ (64 < m.rej → lineBad s (linkSrc f fr.linkB) 1 = false → srcActive t (linkSrc f fr.linkB) 1 = true)) ∧
      (∀ a d y, frameOk fr k n = some (a, d) →
        x.copies.find? (fun e => e.1 == k.toNat && (k != 0x18 || e.2.alive == a)) = some (k.toNat, y) → y.payload = d →
        ∃ t, exec c s = .next t ∧ AtFrond f s t ∧ ∀ z, z = linkSeen fr.linkB x →
          fieldOf t f = { z with echoA := (fieldOf t f).echoA, echoB := (fieldOf t f).echoB }) ∧
      (∀ a d y later, frameOk fr k n = some (a, d) →
        x.copies.find? (fun e => e.1 == k.toNat && (k != 0x18 || e.2.alive == a)) = some (k.toNat, y) → y.payload ≠ d →
        later = (if fr.stamp < y.stamp ∨ (fr.stamp = y.stamp ∧ y.linkB = true ∧ fr.linkB = false) then y.linkB else fr.linkB) →
        running s = true → lineBad s (linkSrc f later) 2 = false →
        ∃ t, exec c s = .next t ∧ Only [.outbox, .queues, .faults, .fronds, .field] s t ∧ srcActive t (linkSrc f later) 2 = true ∧
          (if later then (frond t f).b.diff else (frond t f).a.diff) =
            satAdd 255 (if later then (frond s f).b.diff else (frond s f).a.diff) 1) ∧
      (∀ a d, frameOk fr k n = some (a, d) → (x.copies.any (fun e => e.1 == k.toNat && (k != 0x18 || e.2.alive == a))) = false →
        x.downAlive ≠ some a → ∃ t y, exec c s = .next t ∧ AtFrond f s t ∧ y = fieldOf t f ∧ y.downAlive = some a ∧
          (if fr.linkB then y.bSeen else y.aSeen) = true ∧
          (k = 0x10 → y.d0 = some d ∧ y.armed = true ∧ y.stamp = x.edge + fin ∧ y.corr = sgn 16 (getLE d 14 2) ∧
            y.safeOrd = (getLE d 13 1).testBit 2 ∧ ((getLE d 13 1).testBit 2 = true → y.safe = true) ∧
            (x.armed = true → x.wdExp = false → wdDeadline x < x.edge + fin → y.wdExp = true ∧ y.safe = true) ∧
            (wdDeadline x ≥ x.edge + fin → y.wdExp = x.wdExp)) ∧
          (k = 0x11 → y.d1 = some d ∧ y.d0 = x.d0) ∧
          (k = 0x12 → x.dist = true → y.items = (List.range (min 16 (getLE d 0 2))).foldl (fun l i =>
            tput l (getLE d (2 + 8 * i) 2) (getLE d (4 + 8 * i) 2, BitVec.ofNat 32 (getLE d (6 + 8 * i) 4))) x.items) ∧
          (k = 0x12 → x.dist = true → 0 < x.total → x.itemBad = false →
            (∃ e ∈ heldItems y, isPairValue e.1 = true ∧ pairBad (heldItems y) e = true) → y.itemBad = true ∧ y.integ = true) ∧
          (k = 0x18 → y.ds = some (a, getLE d 0 2) ∧ y.snaps = x.snaps)))

/-- SNAP_SYNC, SNAP_DESC and SAFE at a frond (R114, R116, R135, R335, R341, R342, R343, R355). An order frame that does not check
and repeats none, while firmware runs, changes nothing at the frond and counts in its link's REJ, at once in the core: the model's
choice (assumption log 12). -/
def Obligations.OrderFramesTakeEffect : Prop :=
  ∀ (f : Nat) (o : OrderFrame) (crit : List CritIn) (x : Frond) (s : State), x = fieldOf s f → x.power = true →
    (∀ a k, k = 0x1C → orderAlive x k o = some a → ∃ t y, exec (.snapSync f o) s = .next t ∧ AtFrond f s t ∧ y = fieldOf t f ∧
      y.downAlive = some a ∧
      y.snaps = x.snaps ++ [(reqTime o, false, mask ((List.range 16).filter (fun p => bit (fwin x p 0x2148) 2)))]) ∧
    (∀ a k, k = 0x5C → orderAlive x k o = some a → ∃ t y, exec (.snapDesc f o) s = .next t ∧ AtFrond f s t ∧ y = fieldOf t f ∧
      y.downAlive = some a ∧ (∀ d m, x.ds = some (d, m) → d + 1 = a → y.snaps = x.snaps ++ [(reqTime o, true, m)] ∧ y.ds = none) ∧
      ((∀ d m, x.ds = some (d, m) → d + 1 ≠ a) → y.snaps = x.snaps ∧ y.ds = x.ds)) ∧
    (∀ a k, k = 0x7C → o.payload = 0xA5 → orderAlive x k o = some a → ∃ t y, exec (.safe f o crit) s = .next t ∧ AtFrond f s t ∧
      y = fieldOf t f ∧ y.downAlive = some a ∧ y.safe = true ∧ y.safeOrd = true ∧
      (x.safe = false → ∀ z, z = critEntry crit (fun p => p == 16 || isOutput (fchan x p).mode) x →
        (∀ p, p < 16 → { fchan y p with swFor := 0 } = { enterSafe z p (fchan x p) with swFor := 0 }) ∧
        (∀ e ∈ crit, e.ofs ∈ [0x2120, 0x2128, 0x2130] → e.pos < 16 → isOutput (fchan x e.pos).mode = true → e.a = true ∨ e.b = true →
          y.integ = true ∧ y.integMask.testBit e.pos = true) ∧
        ∀ e ∈ crit, e.ofs = 0x3000 → 16 ≤ e.pos → e.a = true ∨ e.b = true → y.integ = true)) ∧
    (o.payload ≠ 0xA5 → exec (.safe f o crit) s = .next s) ∧
    (∀ c k, (c, k) ∈ [(Instr.snapSync f o, (0x1C : Byte)), (.snapDesc f o, 0x5C)] ∨ (o.payload = 0xA5 ∧ (c, k) = (.safe f o crit, 0x7C)) →
      running s = true → orderAlive x k o = none → (∀ a, x.downAlive = some a → crc16 [a, k, o.payload] ≠ o.crc) →
      ∃ t, exec c s = .next t ∧ Only [.outbox, .queues, .faults, .fronds] s t ∧
        (if o.linkB then (frond t f).b.rej else (frond t f).a.rej) =
          satAdd 255 (if o.linkB then (frond s f).b.rej else (frond s f).a.rej) 1)

/-- CONVERSION (R126, R133, R136, R144, R150). -/
def Obligations.ConversionsCountInTheirTick : Prop :=
  ∀ (ch p : Nat) (x : Frond) (c : FChan) (s : State), x = fieldOf s (ch / 16) → p = ch % 16 → c = fchan x p → x.power = true →
    ∀ (code : BitVec 16) (v gain off : Int) (r : Bool),
      (gain, off) = (if c.trimBad.testBit (path c.mode) then (0, 0) else tget (0, 0) c.trim (path c.mode)) → (v, r) = trimCode code.toInt gain off →
      (c.k < tickConvs x → ∃ t y, exec (.conversion ch code) s = .next t ∧ AtFrond (ch / 16) s t ∧ y = fchan (fieldOf t (ch / 16)) p ∧
        y.k = c.k + 1 ∧ y.sum = c.sum + v ∧ y.sq = c.sq + (v * v).toNat ∧ y.mn = min c.mn v ∧ y.mx = max c.mx v ∧
        y.ovr = (c.ovr || r) ∧ y.ns = (c.ns || !x.refRdy) ∧ y.diag = c.diag ∧ y.drive = c.drive ∧ y.mode = c.mode ∧
        (∀ req desc m l, x.snaps = (req, desc, m) :: l → m.testBit p = true → req ≤ 64 * c.k → c.snap = none →
          y.snap = some ⟨v, c.k, !x.refRdy⟩) ∧
        (x.snaps = [] → y.snap = c.snap) ∧
        ∀ q, q ≠ p → fchan (fieldOf t (ch / 16)) q = fchan x q) ∧
      (tickConvs x ≤ c.k → ∃ t, exec (.conversion ch code) s = .next t ∧ Only [] s t)

/-- INTEGRATOR_STEP runs the code of R63 on the raw state that the voltage gives (R63, R571). -/
def Obligations.IntegratorStepsFollowTheirCode : Prop :=
  ∀ (ch p : Nat) (uv at_ : Int) (raw : Bool) (x : Frond) (c : FChan) (s : State), x = fieldOf s (ch / 16) → p = ch % 16 → c = fchan x p →
    x.power = true → x.shutdown = false → isDI c.mode = true →
    ∀ ton toff, ton = fld (fwin x p 0x2108) 0 16 → toff = fld (fwin x p 0x2108) 16 16 → raw = rawState x p ch uv →
    ∃ t y, exec (.integratorStep ch uv at_) s = .next t ∧ AtChan ch s t ∧ y = fchan (fieldOf t (ch / 16)) p ∧ y.raw = raw ∧
      (c.out = false → ∀ n, n = (if raw then c.c + 1 else c.c - 1) →
        (y.out, y.c) = (if n = ton then (true, toff) else (false, n)) ∧
        y.rise = (if n = ton then satAdd 0xFFFF c.rise 1 else c.rise) ∧ y.fall = c.fall) ∧
      (c.out = true → ∀ n, n = (if raw then min (c.c + 1) toff else c.c - 1) →
        (y.out, y.c) = (decide (n ≠ 0), n) ∧ y.fall = (if n = 0 then satAdd 0xFFFF c.fall 1 else c.fall) ∧ y.rise = c.rise) ∧
      (c.mode = 8 → bit (fwin x p 0x2114) 0 = true → ∀ mid half err : Int, mid = 1000 * sgn 16 (fld (fwin x p 0x2114) 16 16) →
        half = 10000 * fld (fwin x p 0x2114) 8 7 → err = 50000 + mid.natAbs / 200 →
        (mid + half + err < uv → raw = true) ∧ (uv < mid - half - err → raw = false) ∧
        (mid - half + err ≤ uv → uv ≤ mid + half - err → raw = c.raw))

/-- REGULATOR_EVALUATION, CHANNEL_DIAGNOSTIC, DO_THERMAL, REG_FAULT_RESTART, CONTENTION_SAFE_STATE (R77, R98 to R107). The AO-sink
target and the rail steps of one evaluation are the model's choice (assumption logs 56 and 15). -/
def Obligations.ChannelsFollowTheirStages : Prop :=
  ∀ (ch p : Nat) (x : Frond) (c : FChan) (s : State), x = fieldOf s (ch / 16) → p = ch % 16 → c = fchan x p → x.power = true →
    (∀ r tgt, c.regOn = true → x.shutdown = false →
      tgt = min (if c.mode = 4 then vneed x p r else max (vneed x p r) 12000) (vceil x p) →
      ∃ t y, exec (.regulatorEvaluation ch r) s = .next t ∧ AtChan ch s t ∧ y = fchan (fieldOf t (ch / 16)) p ∧ y.target = tgt ∧
        y.rail = (if c.rail < tgt then min tgt (c.rail + (if c.firstRise then 25 else 62500)) else max tgt (c.rail - 250)) ∧
        y.loopLow = c.loopLow + (if loopLowAt x p ch y.rail r = true then 1 else 0) ∧ y.drive = c.drive ∧ y.diag = c.diag ∧
        (c.mode ≠ 4 → c.mode ≠ 7 → loopLowAt x p ch y.rail r = decide (vceil x p < vneed x p r)) ∧
        (c.mode = 4 → loopLowAt x p ch y.rail r =
          (decide (r.vFT < 3000) && decide (((c.val : Int) - r.iMeas) * 24000 > 65536 * limit 4 ch 400 600)))) ∧
    (∀ b i n, b < 12 →
      (diagListed x p b c.mode = true → c.diag.testBit b = false → diagSet x p ch b i n = true →
        ∃ t y, exec (.channelDiagnostic ch b i n) s = .next t ∧ AtChan ch s t ∧
        y = fchan (fieldOf t (ch / 16)) p ∧ y.diag.testBit b = true ∧ (∀ j, j ≠ b → y.diag.testBit j = c.diag.testBit j) ∧
        (b = 7 → y.backfeed = true) ∧ (b = 11 → y.regFault = true ∧ y.regOn = false ∧ y.rail = 0) ∧
        (b ≠ 7 → b ≠ 11 → y.backfeed = c.backfeed ∧ y.regOn = c.regOn)) ∧
      (diagListed x p b c.mode = true → c.diag.testBit b = true → diagGone x p ch b i n = true →
        ∃ t y, exec (.channelDiagnostic ch b i n) s = .next t ∧ AtChan ch s t ∧
        y = fchan (fieldOf t (ch / 16)) p ∧ b ≠ 7 ∧ y.diag.testBit b = false ∧
        (∀ j, j ≠ b → y.diag.testBit j = c.diag.testBit j) ∧ y.backfeed = c.backfeed) ∧
      (c.diag.testBit b = false → diagSet x p ch b i n = false → exec (.channelDiagnostic ch b i n) s = .next s) ∧
      (c.diag.testBit b = true → diagGone x p ch b i n = false → exec (.channelDiagnostic ch b i n) s = .next s)) ∧
    (∀ temp top, c.mode = 2 → top = limit 15 ch 640 720 →
      (c.thermal = false → delivered x p = .level 1 → top ≤ temp → ∃ t, exec (.doThermal ch temp) s = .next t ∧ AtChan ch s t ∧
        fchan (fieldOf t (ch / 16)) p = { c with thermal := true, diag := c.diag ||| 32, swFor := 0 }) ∧
      (c.thermal = true → temp ≤ top - limit 16 ch 40 80 → ∃ t y, exec (.doThermal ch temp) s = .next t ∧ AtChan ch s t ∧
        y = fchan (fieldOf t (ch / 16)) p ∧ y.thermal = false ∧ (∀ j, j ≠ 5 → y.diag.testBit j = c.diag.testBit j) ∧ y.drive = c.drive ∧
        (delivered (fieldOf t (ch / 16)) p = .level 1 → y.diag.testBit 5 = false))) ∧
    (c.regFault = true → x.shutdown = false → ∃ t, exec (.regFaultRestart ch) s = .next t ∧ AtChan ch s t ∧
      (parted c = true → fchan (fieldOf t (ch / 16)) p = { c with regFault := false }) ∧
      (parted c = false → c.regOn = false → regRuns c.mode (fwin x p 0x2104) = true → fchan (fieldOf t (ch / 16)) p =
        { c with regFault := false, regOn := true, rail := 12000, target := 12000, settled := false })) ∧
    (∀ crit z, isAO c.mode = true → c.diag.testBit 9 = true → fld (freg x 0x3008) 0 8 ≤ c.contTicks → c.safe = false →
      z = (if c.safeHeld then x else critEntry crit (fun q => q == p) x) →
      ∃ t, exec (.contentionSafeState ch crit) s = .next t ∧ AtFrond (ch / 16) s t ∧
        (∀ q, q ≠ p → fchan (fieldOf t (ch / 16)) q = fchan x q) ∧ (fieldOf t (ch / 16)).integMask = z.integMask ∧
        (∃ n, fchan (fieldOf t (ch / 16)) p = { enterSafe z p c with safe := true, swFor := n }) ∧
        (c.safeHeld = false → (fchan (fieldOf t (ch / 16)) p).drive = safeDrive z p { c with entry := c.drive }))

/-- FROND_CAUSE, WD_EXPIRED, FROND_INPUT_RESTART, FSUP_ARRIVE, AUX_POWER_ARRIVE, AUX_POWER_LOSS, CLK_B_CHANGE (R110 to R124, R141,
R550). CLK_B_CHANGE, where no frame has checked on A since the edge, selects link B or the holdover oscillator, which is the
model's choice (assumption log 60). -/
def Obligations.FrondCausesAndPower : Prop :=
  ∀ (f : Nat) (x : Frond) (s : State), x = fieldOf s f →
    (x.power = true → ∀ b q crit z, z = { x with fsup := x.fsup || ((b == 1 || b == 2 || b == 3) && fsupMet f q) } →
      ∃ t y, exec (.frondCause f b q crit) s = .next t ∧ AtFrond f s t ∧ y = fieldOf t f ∧
        (x.aux = true → causeSet z f b q = true →
          (b = 2 ∨ b = 3 ∨ b = 5 → y.causes = x.causes ||| 2 ^ b ∧ y.shutdown = true ∧ y.safe = true ∧ y.vsOn = 0 ∧
            y.met.testBit b = false ∧ (b ≠ 5 → y.fsup = false)) ∧
          (b = 1 ∨ b = 4 → ∃ m, y = { z with causes := x.causes ||| 2 ^ b, met := m }) ∧
          (b = 7 → y = { z with refRange := true, refRdy := false, refFor := 0 })) ∧
        (x.aux = true → causeSet z f b q = false → causeGone f b q = true →
          (b = 2 ∨ b = 3 ∨ b = 5 → x.causes.testBit b = true → y.causes = x.causes ∧ y.met.testBit b = true ∧
            y.shutdown = x.shutdown ∧ y.safe = x.safe) ∧
          (b = 1 ∨ b = 4 → y.causes.testBit b = false ∧ ∀ j, j ≠ b → y.causes.testBit j = x.causes.testBit j) ∧
          (b = 7 → y.refRange = false ∧ y.refRdy = x.refRdy)) ∧
        (x.aux = true → causeSet z f b q = false → causeGone f b q = false → y = z) ∧
        (x.aux = false → b = 2 ∨ b = 3 → causeSet z f b q = true → y = {})) ∧
    (∀ at_ crit, x.power = true → x.armed = true → x.wdExp = false → wdDeadline x < x.edge + at_ →
      ∃ t y, exec (.wdExpired f at_ crit) s = .next t ∧ AtFrond f s t ∧ y = fieldOf t f ∧ y.wdExp = true ∧ y.safe = true ∧
        y.causes = x.causes ||| 64 ∧ y.shutdown = x.shutdown) ∧
    (x.power = true → x.shutdown = true → x.causes &&& shutCauses ≠ 0 → (x.causes &&& shutCauses) &&& x.met = x.causes &&& shutCauses →
      ∃ t y, exec (.frondInputRestart f) s = .next t ∧ AtFrond f s t ∧ y = fieldOf t f ∧ y.shutdown = false ∧ y.safe = x.safe ∧
        y.causes = x.causes ∧ y.vsOn = fld (freg x 0x3180) 0 4) ∧
    (∀ q otp, fsupIn f q = true →
      (x.power = true → x.causes.testBit 0 = true → 100000 ≤ q.us → ∃ t y, exec (.fsupArrive f q otp) s = .next t ∧ AtFrond f s t ∧
        y = fieldOf t f ∧ y.fsup = true ∧ y.causes.testBit 0 = false ∧ (y.causes &&& shutCauses = 0 → y.shutdown = false)) ∧
      (x.power = false → ∃ t, exec (.fsupArrive f q otp) s = .next t ∧ AtFrond f s t ∧
        fieldOf t f = { startFrond otp with fsup := true })) ∧
    (∀ otp, ∃ t y, exec (.auxPowerArrive f otp) s = .next t ∧ AtFrond f s t ∧ y = fieldOf t f ∧ y.aux = true ∧
      (x.power = true → y = { x with aux := true }) ∧
      (x.power = false → (y.power, y.fsup, y.causes, y.safe, y.shutdown, y.noCfg, y.epoch, y.cfg, y.clk) =
          (true, false, 1, true, true, true, 0, [], 2) ∧
        (∀ a, otp = [a] → a.ok = true → if a.set = 6 then y.refTrim = (a.g, a.o)
          else tget (0, 0) (fchan y (a.pos % 16)).trim a.set = (a.g, a.o)) ∧
        ∀ a ∈ otp, a.ok = false → y.integ = true ∧
          if a.set = 6 then y.refBad = true else (fchan y (a.pos % 16)).trimBad.testBit a.set = true)) ∧
    (∃ t, exec (.auxPowerLoss f) s = .next t ∧ AtFrond f s t ∧ (x.fsup = true → fieldOf t f = { x with aux := false }) ∧
      (x.fsup = false → fieldOf t f = {})) ∧
    (∀ b, x.power = true → x.aSeen = false → ∃ t, exec (.clkBChange f b) s = .next t ∧ AtFrond f s t ∧
      fieldOf t f = { x with clk := if b then 1 else 2 })

/-- FROND_TICK_EDGE (R25, R65, R74, R126, R127, R150, R312, R316, R320, R336, R344, R566). With D0 or D1 missing every value that
the mask of the one held names is reported rejected, and every position where neither tells, which is the model's choice
(assumption log 58), as U0 alone at a restart edge is (log 20). -/
def Obligations.FrondTickEdgesApplyAndReport : Prop :=
  ∀ (f : Nat) (i : FrondEdgeIn) (x : Frond) (s : State), x = fieldOf s f → x.power = true →
    ∃ t y l, exec (.frondTickEdge f i) s = .next t ∧ Only [.outbox, .sync, .field] s t ∧ (∀ g, g ≠ f → fieldOf t g = fieldOf s g) ∧
      y = fieldOf t f ∧ t.outbox = l ++ s.outbox ∧ l.length = (if x.restart then 1 else 5) ∧
      y.upAlive = x.upAlive + (if x.restart then 1 else 5) ∧
      (∃ u, u.length = 34 ∧ l.getLast? = some (.up f (frameBytes (x.upAlive + 1) 0x00 u) [])) ∧
      (x.restart = true → (y.edge, y.frac) = (x.edge + i.since, 0)) ∧
      (x.restart = false → ∀ c e : Int, c = (if x.d0.isSome ∧ x.d1.isSome then x.corr else 0) → e = x.frac + 32 * tickCounts x + c →
        (y.edge, y.frac) = (x.edge + (e / 32).toNat, (e % 32).toNat)) ∧
      (y.aSeen, y.bSeen, y.d0, y.d1, y.copies, y.power) = (false, false, none, none, [], true) ∧ (y.corr, y.restart, y.rejoin) = (0, false, false) ∧
      (x.wipe = true → (y.epoch, y.noCfg, y.cfg, y.safe, y.wipe) = (0, true, [], true, false)) ∧
      (x.d0 = none ∨ x.d1 = none → y.outRej = maskHeld x.d0 x.d1) ∧
      (∀ d, maskHeld (some d) none = getLE d 18 2 ∧ maskHeld none (some d) = 65535 - getLE d 64 2) ∧
      (∀ p, (fchan y p).k = 0 ∧ (fchan y p).sum = 0 ∧ (fchan y p).sq = 0 ∧ (fchan y p).samples = [] ∧ (fchan y p).stamps = [] ∧
        (fchan y p).rise = 0 ∧ (fchan y p).fall = 0 ∧ (fchan y p).snap = none) ∧
      (∀ it ep, x.wipe = false → x.res = some (it, ep) → y.epoch = ep ∧ y.res = none ∧ y.noCfg = false) ∧
      (∀ d0 d1 p v cl w, x.d0 = some d0 → x.d1 = some d1 → x.wipe = false → x.res = none → x.noCfg = false → i.crit = [] → getLE d0 20 2 = 0 →
        (getLE d0 13 1).testBit 1 = false → p < 16 → (getLE d0 18 2).testBit p = true → maskOk d0 d1 = true → w = outWord d0 p →
        BitVec.ofNat 32 (getLE d1 (4 * p) 4) = ~~~w → x.safe = false → (fchan x p).safe = false → outLevel x p w = some (v, cl) →
        (fchan y p).drive = .level v ∧ (fchan y p).val = v)

/-- U0, UPLINK_FRAME and LINK_UP (R333, R334, R337, R346, R349, R351). The first checked copy of U0, with a new ALIVE value, sets
what the core holds of the frond's supply, safe state, shutdown, watchdog, reference, temperature and epoch (0 where it holds no
configuration, which in the core is the model's choice, assumption log 30), and a NODL bit takes that link down. -/
def Obligations.UplinkFramesAreUsedOnce : Prop :=
  ∀ (f j : Nat) (fr : Frame) (x : CFrond) (s : State), running s = true → x = frond s f → j < 5 → x.copies.any (fun e => e.1 == j) = false →
    (frameOk fr 0x00 (fun n => n == 34) = none → ∃ t, exec (.u0 f fr) s = .next t ∧ Only [.outbox, .queues, .faults, .fronds] s t ∧
      (frond t f).rep = x.rep ∧ (frond t f).epoch = x.epoch ∧
      (if fr.linkB then (frond t f).b.rej else (frond t f).a.rej) = satAdd 255 (if fr.linkB then x.b.rej else x.a.rej) 1) ∧
    (∀ a d fl, j ≠ 0 → frameOk fr 0x00 (fun n => n == 34) = some (a, d) → x.copies.any (fun e => e.1 == 0) = false → x.upAlive ≠ some a →
      fl = getLE d 10 2 → ∃ t y, exec (.u0 f fr) s = .next t ∧ Only (touches (.u0 f fr)) s t ∧ y = frond t f ∧ y.gotU0 = true ∧ y.seen = true ∧
        y.upAlive = some a ∧ (y.rep.fsup, y.rep.safe, y.rep.shutdown, y.rep.wdExp, y.rep.refRdy) =
          (fl % 4096, fl.testBit 12, fl.testBit 13, fl.testBit 14, fl.testBit 15) ∧ y.rep.temp = sgn 12 (getLE d 12 2 % 4096) ∧
        y.rep.vref = getLE d 14 2 ∧ y.rep.noCfg = (getLE d 3 1).testBit 1 ∧
        y.epoch = (if (getLE d 3 1).testBit 1 then 0 else BitVec.ofNat 16 (getLE d 0 2)) ∧
        ((getLE d 27 1).testBit 0 = true → y.a.up = false) ∧ ((getLE d 27 1).testBit 1 = true → y.b.up = false)) ∧
    (∀ k a d flags, 1 ≤ k → k ≤ 4 → j ≠ k →
      frameOk fr (BitVec.ofNat 8 k) (fun _ => lenFits s f (k - 1) ((fr.bytes.drop 2).take (fr.bytes.length - 4))) = some (a, d) →
      x.copies.any (fun e => e.1 == k) = false → x.upAlive ≠ some a →
      ∃ t, exec (.uplinkFrame f k fr flags) s = .next t ∧ Only [.queues, .fronds] s t ∧
        (∀ q, (queue t q).pkts.map (fun p => p.cells) = (queue s q).pkts.map (fun p => p.cells)) ∧ (∀ g, g ≠ f → frond t g = frond s g) ∧
        (frond t f).upAlive = some a ∧ (frond t f).rep = x.rep ∧
        (frond t f).copies.find? (fun e => e.1 == k) = some (k, ⟨fr.linkB, fr.stamp, a, d, flags⟩)) ∧
    (∀ linkB l, l = (if linkB then x.b else x.a) → l.up = false → 4 ≤ l.run → ∃ t, exec (.linkUp f linkB) s = .next t ∧
      Only [.queues, .faults, .fronds] s t ∧ (if linkB then (frond t f).b else (frond t f).a) = { l with up := true, down := false } ∧
      ∀ c, lineBad s (linkSrc f linkB) 0 = false → s.srcs.find? (fun e => e.1 == srcKey (linkSrc f linkB) 0) = some (srcKey (linkSrc f linkB) 0, c) →
        c.esc = false → srcActive t (linkSrc f linkB) 0 = false)

/-- DOWNLINK_SUPERFRAME, COMMIT_RESOLVE and PERIOD_BOUNDARY (R38, R40, R43, R319, R320, R321, R325, R338, R344, R345). -/
def Obligations.SuperframesCommitsAndPeriods : Prop :=
  ∀ s : State,
    (∀ ins, s.phase = .running → ∃ t, exec (.downlinkSuperframe ins) s = .next t ∧ Only (touches (.downlinkSuperframe ins)) s t ∧
      (∀ f, f < 32 → (frond t f).new = [] ∧ (∃ b0 b1 b2, Output.down f 0x10 b0 ∈ t.outbox ∧ Output.down f 0x11 b1 ∈ t.outbox ∧
        Output.down f 0x12 b2 ∈ t.outbox ∧ frameOk ⟨false, true, 0, b0⟩ 0x10 (fun n => n == 113) ≠ none ∧
        frameOk ⟨false, true, 0, b1⟩ 0x11 (fun n => n == 82) ≠ none ∧
        frameOk ⟨false, true, 0, b2⟩ 0x12 (fun n => n == 344 - min 214 (nthD ins f 0)) ≠ none) ∧
        ∀ p c, (frond s f).new = [(p, c)] → tget { val := 0, did := none, rule := false } (frond t f).out p =
          { c with sent := c.sent ++ [s.tm.count], repl := [] }) ∧
      (∀ p un, s.pend = some p → p.resolved = some (false, un) → t.pend = none)) ∧
    (∀ p, s.pend = some p →
      (running s = true → p.resolved = none → s.tm.count + 1 = p.t →
        (unacked s p = [] → ∃ t, exec .commitResolve s = .next t ∧ Only [.resolution, .pend, .fronds] s t ∧
          t.pend = some { p with resolved := some (true, []) } ∧ t.tm.resTag = p.tag ∧
          t.tm.resEpoch = (if s.tm.epoch = 0xFFFF then 1 else s.tm.epoch + 1) ∧
          ∀ f, f < 32 → frond t f = { frond s f with res := 1, dist := none }) ∧
        (unacked s p ≠ [] → p.excl = false → ∃ t, exec .commitResolve s = .next t ∧ Only [.resolution, .pend, .fronds] s t ∧
          t.pend = some { p with resolved := some (false, unacked s p) } ∧ t.tm.resTag = p.tag ∧ t.tm.resEpoch = s.tm.epoch ∧
          ∀ f, f < 32 → frond t f = { frond s f with res := 2, dist := none })) ∧
      (s.tm.count + 1 ≠ p.t → exec .commitResolve s = .next s)) ∧
    (∀ read, running s = true →
      (boundaryDue s = true → s.boundary = none → ∃ t, exec (.periodBoundary read) s = .next t ∧
        Only (touches (.periodBoundary read)) s t ∧ t.boundary = some (s.tm.count, s.tm.epoch) ∧
        (∀ f, f < 32 → ((frond t f).a.rej, (frond t f).a.diff, (frond t f).b.rej, (frond t f).b.diff) = (0, 0, 0, 0)) ∧
        t.net.p0 = { s.net.p0 with badRx := 0 } ∧ t.net.p1 = { s.net.p1 with badRx := 0 }) ∧
      (boundaryDue s = false → exec (.periodBoundary read) s = .next s))

/-- DEFERRED_WORK, FEATURE_SLICE and CAPTURE_READOUT (R32, R33, R229, R231, R283, R285). -/
def Obligations.WorkIsDoneInSlices : Prop :=
  ∀ s : State, running s = true →
    (∃ t, exec .deferredWork s = .next t ∧ Only (touches .deferredWork) s t ∧ (∀ b ∈ t.blocks, b.owed = 0) ∧ (∀ r, r < 32 → (capRing t r).owed = 0) ∧
      (∀ r, ((capRing t r).wait.head?.map (fun e => e.1)).getD 0 = 0) ∧
      ∀ b ∈ s.blocks, b.turns + b.owed < b.slices → { b with turns := b.turns + b.owed, owed := 0 } ∈ t.blocks) ∧
    (workOwed s = false → s.sliceRun = false → ∃ t, exec .featureSlice s = .next t ∧ Only [.queues, .features, .map] s t ∧
      t.sliceRun = true ∧ (∀ b ∈ s.blocks, b.ready = false → b ∈ t.blocks) ∧
      ∀ b ∈ s.blocks, b.ready = true → b.turns + 1 < b.slices → { b with turns := b.turns + 1 } ∈ t.blocks) ∧
    (s.sliceRun = true → exec .featureSlice s = .next s) ∧
    (∀ r, r < 32 → ∀ x, x = capRing s r →
      (∀ c cells c2 ends, x.read = false → x.owed = 0 → (∀ e ∈ x.wait, e.1 = 0) → x.run = some c → capStep s.cfg r x c = (cells, c2, ends) →
        ∃ t, exec (.captureReadout r) s = .next t ∧ Only [.outbox, .queues, .rings, .descs, .caps, .sessions] s t ∧
          (∀ q, q ≠ r → capRing t q = capRing s q) ∧ (capRing t r).read = true ∧ (capRing t r).held = [] ∧ c2.head = true ∧
          (ends = false → (capRing t r).run = some c2 ∧ (capRing t r).seq = x.seq) ∧
          (ends = true → (capRing t r).run = none ∧ (capRing t r).seq = (x.seq + 1) % 2 ^ 32 ∧
            (capRing t r).armed = (x.armed && bit (capWord s.cfg r 0) 5))) ∧
      (x.read = true ∨ x.run = none ∨ 0 < x.owed ∨ (∃ e ∈ x.wait, 0 < e.1) → exec (.captureReadout r) s = .next s))

/-- TICK_EDGE: the counter, the epoch, the check-in and the windows (R20, R22, R38, R304, R320, R325, R346, R509). -/
def Obligations.TickEdgesStepTheCounterAndApplyCommits : Prop :=
  ∀ (i : TickIn) (s : State), running s = true → ∃ t, exec (.tickEdge i) s = .next t ∧ Only (touches (.tickEdge i)) s t ∧
    t.tm.started = true ∧ (s.tm.started = false → t.tm.count = 0) ∧
    (s.tm.started = true → s.tm.jump = none → t.tm.count = s.tm.count + 1) ∧
    (∀ p excl, applying s = some (p, excl) → t.cfg = p.conf ∧ t.tm.epoch = s.tm.resEpoch) ∧
    (applying s = none → t.cfg = s.cfg ∧ t.tm.epoch = s.tm.epoch) ∧
    (t.tm.checkedIn, t.tm.mpAlive) = (false, s.tm.checkedIn) ∧ t.boundary = none ∧ t.sliceRun = false ∧
    (∀ f, f < 32 → (frond t f).copies = [] ∧ (frond t f).gotU0 = false) ∧ (t.net.p0.gate, t.net.p1.gate) = (0, 0)
end

