-- ==== Sys2Proof/Laws/Bytes.lean ====
section
/-! SUPPORT. Little-endian fields and CRCs: what is written is read back. -/

namespace Sys2Proof.Machine
open Sys2Proof

@[simp] theorem length_le : ∀ n v : Nat, (le n v).length = n
  | 0, _ => rfl
  | n + 1, v => congrArg (· + 1) (length_le n (v / 256))

theorem leVal_le : ∀ n v : Nat, leVal (le n v) = v % 256 ^ n
  | 0, v => by rw [Nat.pow_zero, Nat.mod_one]; rfl
  | n + 1, v => by
    show (BitVec.ofNat 8 v).toNat + 256 * leVal (le n (v / 256)) = _
    have e : 256 ^ (n + 1) = 256 * 256 ^ n := by rw [Nat.pow_succ, Nat.mul_comm]
    rw [leVal_le n, BitVec.toNat_ofNat, e, Nat.mod_mul]

theorem leVal_le_lt {n v : Nat} (h : v < 256 ^ n) : leVal (le n v) = v := by rw [leVal_le, Nat.mod_eq_of_lt h]

/-- A field of a byte list that stands after l and has n bytes. -/
theorem getLE_mid (l r : List Byte) {n v : Nat} (h : v < 256 ^ n) : getLE (l ++ (le n v ++ r)) l.length n = v := by
  unfold getLE
  rw [List.drop_left, List.take_append_of_le_length (by rw [length_le]), List.take_of_length_le (by rw [length_le]), leVal_le_lt h]

theorem getLE_end (l : List Byte) {n v : Nat} (h : v < 256 ^ n) : getLE (l ++ le n v) l.length n = v := by
  have := getLE_mid l [] h
  rwa [List.append_nil] at this

@[simp] theorem length_withCrc (b : List Byte) : (withCrc b).length = b.length + 4 := by
  unfold withCrc
  rw [List.length_append, length_le]

/-- Bytes that are followed by their CRC pass the check of R393. -/
theorem payloadCrcOk_withCrc (b : List Byte) : payloadCrcOk (withCrc b) = true := by
  unfold payloadCrcOk
  rw [length_withCrc, Nat.add_sub_cancel]
  have h : (crc32c b).toNat < 256 ^ 4 := (crc32c b).isLt
  have t : (withCrc b).take b.length = b := List.take_left ..
  rw [t]
  unfold withCrc
  rw [getLE_end b h]
  simp

theorem padTo_self {n : Nat} {b : List Byte} (h : b.length = n) : padTo n b = b := by
  unfold padTo
  rw [← h, Nat.sub_self, List.take_length, List.replicate_zero, List.append_nil]

/-- The payload of a descriptor that names its whole length. -/
theorem payload_whole {d : Desc} {n : Nat} (h : d.pay.length = n) : payload d n = d.pay := padTo_self h

/-- A bit of a mask after `setBit`. -/
theorem testBit_setBit (m b i : Nat) (v : Bool) : (setBit m b v).testBit i = if i = b then v else m.testBit i := by
  unfold setBit
  by_cases hi : i = b
  · subst hi
    cases v <;> simp [Nat.testBit_or, Nat.testBit_xor]
  · have hb : ¬b = i := fun h => hi h.symm
    cases v <;> simp [Nat.testBit_or, Nat.testBit_xor, hi, hb]

end Sys2Proof.Machine
end

