-- ==== Sys2Proof/Laws/Only1.lean ====
section
/-! SUPPORT. The frames of the shared operations: which parts of the state each may change, one lemma per operation. -/

set_option linter.unusedTactic false
set_option linter.unreachableTactic false

namespace Sys2Proof.Machine
open Sys2Proof

theorem Only.refl (ps : List Part) (s : State) : Only ps s s := by
  intro p _
  cases p <;> rfl

theorem Only.trans {ps : List Part} {s t u : State} (a : Only ps s t) (b : Only ps t u) : Only ps s u := by
  intro p hp
  have x := a p hp
  have y := b p hp
  cases p <;> exact Eq.trans y x

theorem Only.mono {ps qs : List Part} {s t : State} (a : Only ps s t) (h : ps ⊆ qs) : Only qs s t := fun p hp => a p (fun k => hp (h k))

/-- An update of the fields of some parts. -/
theorem Only.mk_of {ps : List Part} {s t : State} (pending' : List Instr) (outbox' : List Output) (phase' : Phase) (auto' : Bool) (tm' : TimeUnit) (staged' : Tab Word) (cfg'
    : Tab Word) (pcie' : PathRegs) (mp' : PathRegs) (rwp' : List RwpPend) (scratch' : Word) (lockedWr' : Bool) (orphan' : Bool)
    (wrOfs' : Half) (torn' : Bool) (tornOfs' : Half) (queues' : Tab Queue) (reserve' : Nat) (rings' : Tab Ring) (expAlive' :
    Byte) (lastAlive' : Option Byte) (outs' : List Outstanding) (nextId' : Nat) (stsBase' : DWord) (tickIrq' : Bool) (tickDiv' :
    Nat) (dberr' : Bool) (dbOfs' : Nat) (bme' : Bool) (msix' : Nat) (pba' : Nat) (ep' : Endpoint) (cvu' : Tab Cvu) (lsp' :
    StreamPort) (srcs' : Tab Src) (latch' : Option Latch) (latchSeq' : Nat) (overflow' : Bool) (fltCount' : Nat) (shadows' : Tab
    Shadow) (noted' : List Nat) (alive' : Bool) (pend' : Option Pending) (fronds' : Tab CFrond) (field' : Tab Frond) (chans' :
    Tab CChan) (badPaths' : List (Nat × Nat × Nat × Nat)) (boundary' : Option (TickNo × Half)) (snaps' : List SnapReq) (sumDone'
    : Bool) (sumSnap' : List Byte) (sumEpoch' : Half) (sumNext' : List Byte) (sumNextEp' : Half) (latNow' : Option (TickNo ×
    Half)) (abs' : Nat) (absPrev' : Nat) (plans' : Tab Plan) (blocks' : List Blk) (feats' : List Feats) (sliceRun' : Bool)
    (refs' : Tab SpdRef) (map' : MapUnit) (caps' : Tab CapRing) (rules' : Tab RuleSt) (rulEval' : Nat) (wrSince' : List Nat)
    (pwr' : Power) (bud' : Budget) (sec' : Sec) (net' : Net) (xfers' : List MapXfer)
    (h : Only ps s t)
    (h_pending : Part.pending ∈ ps ∨ pending' = t.pending) (h_outbox : Part.outbox ∈ ps ∨ (outbox', pba') = (t.outbox, t.pba))
    (h_halt : Part.halt ∈ ps ∨ (phase', pwr'.haltLatch) = (t.phase, t.pwr.haltLatch)) (h_auto : Part.auto ∈ ps ∨ auto' = t.auto)
    (h_tick : Part.tick ∈ ps ∨ (tm'.started, tm'.count, tm'.prev, tm'.p0, tm'.epoch, tm'.dpc, tm'.dpcPrev) = (t.tm.started,
    t.tm.count, t.tm.prev, t.tm.p0, t.tm.epoch, t.tm.dpc, t.tm.dpcPrev)) (h_clocks : Part.clocks ∈ ps ∨ (tm'.clkA, tm'.clkB,
    tm'.clkSel) = (t.tm.clkA, t.tm.clkB, t.tm.clkSel)) (h_time : Part.time ∈ ps ∨ (tm'.state, tm'.conflict, tm'.offset, tm'.run,
    tm'.slew, tm'.moved, tm'.renumbered, tm'.jump) = (t.tm.state, t.tm.conflict, t.tm.offset, t.tm.run, t.tm.slew, t.tm.moved,
    t.tm.renumbered, t.tm.jump)) (h_resolution : Part.resolution ∈ ps ∨ (tm'.resTag, tm'.resEpoch, tm'.nextTag) = (t.tm.resTag,
    t.tm.resEpoch, t.tm.nextTag)) (h_checkIn : Part.checkIn ∈ ps ∨ (tm'.checkedIn, tm'.mpAlive, tm'.missed, tm'.inARow) =
    (t.tm.checkedIn, t.tm.mpAlive, t.tm.missed, t.tm.inARow)) (h_pins : Part.pins ∈ ps ∨ (tm'.tickOut, tm'.syncOut, tm'.syncIn,
    alive') = (t.tm.tickOut, t.tm.syncOut, t.tm.syncIn, t.alive)) (h_sync : Part.sync ∈ ps ∨ (tm'.syncReq, tm'.syncIds,
    tm'.syncFin, tm'.syncNext, tm'.syncCleared) = (t.tm.syncReq, t.tm.syncIds, t.tm.syncFin, t.tm.syncNext, t.tm.syncCleared))
    (h_staged : Part.staged ∈ ps ∨ (staged', wrSince', tm'.periodWritten) = (t.staged, t.wrSince, t.tm.periodWritten)) (h_cfg :
    Part.cfg ∈ ps ∨ cfg' = t.cfg) (h_paths : Part.paths ∈ ps ∨ (pcie', mp') = (t.pcie, t.mp)) (h_pairs : Part.pairs ∈ ps ∨ rwp'
    = t.rwp) (h_scratch : Part.scratch ∈ ps ∨ scratch' = t.scratch) (h_sticky : Part.sticky ∈ ps ∨ (lockedWr', orphan', wrOfs',
    torn', tornOfs') = (t.lockedWr, t.orphan, t.wrOfs, t.torn, t.tornOfs)) (h_queues : Part.queues ∈ ps ∨ (queues', reserve') =
    (t.queues, t.reserve)) (h_rings : Part.rings ∈ ps ∨ rings' = t.rings) (h_alives : Part.alives ∈ ps ∨ (expAlive', lastAlive')
    = (t.expAlive, t.lastAlive)) (h_descs : Part.descs ∈ ps ∨ (outs', nextId') = (t.outs, t.nextId)) (h_host : Part.host ∈ ps ∨
    (stsBase', tickIrq', tickDiv', bme', msix', ep') = (t.stsBase, t.tickIrq, t.tickDiv, t.bme, t.msix, t.ep)) (h_doorbell :
    Part.doorbell ∈ ps ∨ (dberr', dbOfs') = (t.dberr, t.dbOfs)) (h_cvu : Part.cvu ∈ ps ∨ cvu' = t.cvu) (h_lsp : Part.lsp ∈ ps ∨
    lsp' = t.lsp) (h_faults : Part.faults ∈ ps ∨ (srcs', latch', latchSeq', overflow', fltCount', shadows', noted') = (t.srcs,
    t.latch, t.latchSeq, t.overflow, t.fltCount, t.shadows, t.noted)) (h_badPaths : Part.badPaths ∈ ps ∨ badPaths' = t.badPaths)
    (h_pend : Part.pend ∈ ps ∨ pend' = t.pend) (h_fronds : Part.fronds ∈ ps ∨ fronds' = t.fronds) (h_field : Part.field ∈ ps ∨
    field' = t.field) (h_chans : Part.chans ∈ ps ∨ chans' = t.chans) (h_period : Part.period ∈ ps ∨ (boundary', latNow') =
    (t.boundary, t.latNow)) (h_snaps : Part.snaps ∈ ps ∨ snaps' = t.snaps) (h_summary : Part.summary ∈ ps ∨ (sumDone', sumSnap',
    sumEpoch', sumNext', sumNextEp') = (t.sumDone, t.sumSnap, t.sumEpoch, t.sumNext, t.sumNextEp)) (h_age : Part.age ∈ ps ∨
    (abs', absPrev') = (t.abs, t.absPrev)) (h_features : Part.features ∈ ps ∨ (plans', blocks', feats', sliceRun') = (t.plans,
    t.blocks, t.feats, t.sliceRun)) (h_refs : Part.refs ∈ ps ∨ refs' = t.refs) (h_map : Part.map ∈ ps ∨ map' = t.map) (h_caps :
    Part.caps ∈ ps ∨ caps' = t.caps) (h_rules : Part.rules ∈ ps ∨ (rules', rulEval') = (t.rules, t.rulEval)) (h_measured :
    Part.measured ∈ ps ∨ (pwr'.temp, pwr'.above, pwr'.aboveFor, pwr'.vlog, pwr'.diss) = (t.pwr.temp, t.pwr.above,
    t.pwr.aboveFor, t.pwr.vlog, t.pwr.diss)) (h_supplies : Part.supplies ∈ ps ∨ (pwr'.failed, pwr'.valid, pwr'.aux, pwr'.boot1,
    pwr'.presPend, pwr'.booted) = (t.pwr.failed, t.pwr.valid, t.pwr.aux, t.pwr.boot1, t.pwr.presPend, t.pwr.booted)) (h_link :
    Part.link ∈ ps ∨ (pwr'.perst, pwr'.linkUp, pwr'.gts, pwr'.width, pwr'.drain) = (t.pwr.perst, t.pwr.linkUp, t.pwr.gts,
    t.pwr.width, t.pwr.drain)) (h_budget : Part.budget ∈ ps ∨ bud' = t.bud) (h_lifeCycle : Part.lifeCycle ∈ ps ∨ (sec'.lc,
    sec'.slots) = (t.sec.lc, t.sec.slots)) (h_security : Part.security ∈ ps ∨ (sec'.otpOk, sec'.consistent, sec'.approved,
    sec'.naCause, sec'.unlocked, sec'.presence, sec'.cryptoErr, sec'.selfOk, sec'.keys, sec'.ldev, sec'.ldevCert, sec'.bootB,
    sec'.trial, sec'.fallback, sec'.authLock, sec'.fails, sec'.nonce, sec'.draws, sec'.imgA, sec'.imgB, sec'.pref,
    sec'.trialRec, sec'.part, sec'.rollback, sec'.blobSeq, sec'.storeA, sec'.storeB, sec'.zeroDone, sec'.dbg, sec'.destroyed,
    sec'.ownerEpoch, sec'.idev) = (t.sec.otpOk, t.sec.consistent, t.sec.approved, t.sec.naCause, t.sec.unlocked, t.sec.presence,
    t.sec.cryptoErr, t.sec.selfOk, t.sec.keys, t.sec.ldev, t.sec.ldevCert, t.sec.bootB, t.sec.trial, t.sec.fallback,
    t.sec.authLock, t.sec.fails, t.sec.nonce, t.sec.draws, t.sec.imgA, t.sec.imgB, t.sec.pref, t.sec.trialRec, t.sec.part,
    t.sec.rollback, t.sec.blobSeq, t.sec.storeA, t.sec.storeB, t.sec.zeroDone, t.sec.dbg, t.sec.destroyed, t.sec.ownerEpoch,
    t.sec.idev)) (h_ports : Part.ports ∈ ps ∨ (net'.p0, net'.p1) = (t.net.p0, t.net.p1)) (h_addrs : Part.addrs ∈ ps ∨
    (net'.addrs, net'.neigh) = (t.net.addrs, t.net.neigh)) (h_pubs : Part.pubs ∈ ps ∨ net'.pubs = t.net.pubs) (h_sessions :
    Part.sessions ∈ ps ∨ (net'.sessions, net'.asked) = (t.net.sessions, t.net.asked)) (h_timeView : Part.timeView ∈ ps ∨
    (net'.gm, net'.stepsRemoved) = (t.net.gm, t.net.stepsRemoved)) (h_xfers : Part.xfers ∈ ps ∨ xfers' = t.xfers) :
    Only ps s (State.mk pending' outbox' phase' auto' tm' staged' cfg' pcie' mp' rwp' scratch' lockedWr' orphan' wrOfs' torn' tornOfs' queues'
    reserve' rings' expAlive' lastAlive' outs' nextId' stsBase' tickIrq' tickDiv' dberr' dbOfs' bme' msix' pba' ep' cvu' lsp'
    srcs' latch' latchSeq' overflow' fltCount' shadows' noted' alive' pend' fronds' field' chans' badPaths' boundary' snaps'
    sumDone' sumSnap' sumEpoch' sumNext' sumNextEp' latNow' abs' absPrev' plans' blocks' feats' sliceRun' refs' map' caps'
    rules' rulEval' wrSince' pwr' bud' sec' net' xfers') := by
  intro p hp
  have k := h p hp
  cases p
  · exact h_pending.elim (fun m => absurd m hp) (fun e => Eq.trans e k)
  · exact h_outbox.elim (fun m => absurd m hp) (fun e => Eq.trans e k)
  · exact h_halt.elim (fun m => absurd m hp) (fun e => Eq.trans e k)
  · exact h_auto.elim (fun m => absurd m hp) (fun e => Eq.trans e k)
  · exact h_tick.elim (fun m => absurd m hp) (fun e => Eq.trans e k)
  · exact h_clocks.elim (fun m => absurd m hp) (fun e => Eq.trans e k)
  · exact h_time.elim (fun m => absurd m hp) (fun e => Eq.trans e k)
  · exact h_resolution.elim (fun m => absurd m hp) (fun e => Eq.trans e k)
  · exact h_checkIn.elim (fun m => absurd m hp) (fun e => Eq.trans e k)
  · exact h_pins.elim (fun m => absurd m hp) (fun e => Eq.trans e k)
  · exact h_sync.elim (fun m => absurd m hp) (fun e => Eq.trans e k)
  · exact h_staged.elim (fun m => absurd m hp) (fun e => Eq.trans e k)
  · exact h_cfg.elim (fun m => absurd m hp) (fun e => Eq.trans e k)
  · exact h_paths.elim (fun m => absurd m hp) (fun e => Eq.trans e k)
  · exact h_pairs.elim (fun m => absurd m hp) (fun e => Eq.trans e k)
  · exact h_scratch.elim (fun m => absurd m hp) (fun e => Eq.trans e k)
  · exact h_sticky.elim (fun m => absurd m hp) (fun e => Eq.trans e k)
  · exact h_queues.elim (fun m => absurd m hp) (fun e => Eq.trans e k)
  · exact h_rings.elim (fun m => absurd m hp) (fun e => Eq.trans e k)
  · exact h_alives.elim (fun m => absurd m hp) (fun e => Eq.trans e k)
  · exact h_descs.elim (fun m => absurd m hp) (fun e => Eq.trans e k)
  · exact h_host.elim (fun m => absurd m hp) (fun e => Eq.trans e k)
  · exact h_doorbell.elim (fun m => absurd m hp) (fun e => Eq.trans e k)
  · exact h_cvu.elim (fun m => absurd m hp) (fun e => Eq.trans e k)
  · exact h_lsp.elim (fun m => absurd m hp) (fun e => Eq.trans e k)
  · exact h_faults.elim (fun m => absurd m hp) (fun e => Eq.trans e k)
  · exact h_badPaths.elim (fun m => absurd m hp) (fun e => Eq.trans e k)
  · exact h_pend.elim (fun m => absurd m hp) (fun e => Eq.trans e k)
  · exact h_fronds.elim (fun m => absurd m hp) (fun e => Eq.trans e k)
  · exact h_field.elim (fun m => absurd m hp) (fun e => Eq.trans e k)
  · exact h_chans.elim (fun m => absurd m hp) (fun e => Eq.trans e k)
  · exact h_period.elim (fun m => absurd m hp) (fun e => Eq.trans e k)
  · exact h_snaps.elim (fun m => absurd m hp) (fun e => Eq.trans e k)
  · exact h_summary.elim (fun m => absurd m hp) (fun e => Eq.trans e k)
  · exact h_age.elim (fun m => absurd m hp) (fun e => Eq.trans e k)
  · exact h_features.elim (fun m => absurd m hp) (fun e => Eq.trans e k)
  · exact h_refs.elim (fun m => absurd m hp) (fun e => Eq.trans e k)
  · exact h_map.elim (fun m => absurd m hp) (fun e => Eq.trans e k)
  · exact h_caps.elim (fun m => absurd m hp) (fun e => Eq.trans e k)
  · exact h_rules.elim (fun m => absurd m hp) (fun e => Eq.trans e k)
  · exact h_measured.elim (fun m => absurd m hp) (fun e => Eq.trans e k)
  · exact h_supplies.elim (fun m => absurd m hp) (fun e => Eq.trans e k)
  · exact h_link.elim (fun m => absurd m hp) (fun e => Eq.trans e k)
  · exact h_budget.elim (fun m => absurd m hp) (fun e => Eq.trans e k)
  · exact h_lifeCycle.elim (fun m => absurd m hp) (fun e => Eq.trans e k)
  · exact h_security.elim (fun m => absurd m hp) (fun e => Eq.trans e k)
  · exact h_ports.elim (fun m => absurd m hp) (fun e => Eq.trans e k)
  · exact h_addrs.elim (fun m => absurd m hp) (fun e => Eq.trans e k)
  · exact h_pubs.elim (fun m => absurd m hp) (fun e => Eq.trans e k)
  · exact h_sessions.elim (fun m => absurd m hp) (fun e => Eq.trans e k)
  · exact h_timeView.elim (fun m => absurd m hp) (fun e => Eq.trans e k)
  · exact h_xfers.elim (fun m => absurd m hp) (fun e => Eq.trans e k)

theorem Only.ite {ps : List Part} {s a b : State} {c : Prop} [Decidable c] (ha : Only ps s a) (hb : Only ps s b) : Only ps s (if c then a else b) := by
  split
  · exact ha
  · exact hb

theorem Only.foldl {ps : List Part} {α : Type} {s : State} {f : State → α → State} (hf : ∀ t a, Only ps s t → Only ps s (f t a)) :
    ∀ (m : List α) {t : State}, Only ps s t → Only ps s (m.foldl f t)
  | [], _, h => h
  | a :: m, _, h => Only.foldl hf m (hf _ a h)

/-! ## Ops -/

theorem only_outp {ps : List Part} {s s' : State} (o : Output) (hl : [.outbox] ⊆ ps) (h : Only ps s s') : Only ps s (outp o s') := by
  unfold outp
  repeat' first
    | with_reducible assumption | exact List.Subset.trans (by decide) hl | (fail_if_no_progress ((with_reducible apply Only.mk_of) <;> first | exact Or.inl (hl (by decide)) | with_reducible exact Or.inr rfl | skip)) | with_reducible exact Or.inr rfl

theorem only_modFrond {ps : List Part} {s s' : State} (f : Nat) (g : CFrond → CFrond) (hl : [.fronds] ⊆ ps) (h : Only ps s s') :
    Only ps s (modFrond f g s') := by
  unfold modFrond
  try dsimp only
  repeat' first
    | with_reducible assumption | exact List.Subset.trans (by decide) hl
    | (fail_if_no_progress ((with_reducible apply Only.mk_of) <;> first | exact Or.inl (hl (by decide)) | with_reducible exact Or.inr rfl | skip)) | with_reducible exact Or.inr rfl

theorem only_msi {ps : List Part} {s s' : State} (v : Nat) (hl : [.outbox] ⊆ ps) (h : Only ps s s') :
    Only ps s (msi v s') := by
  unfold msi
  try dsimp only
  repeat' first
    | with_reducible assumption | exact List.Subset.trans (by decide) hl | with_reducible apply only_outp
    | with_reducible apply Only.ite
    | (fail_if_no_progress ((with_reducible apply Only.mk_of) <;> first | exact Or.inl (hl (by decide)) | with_reducible exact Or.inr rfl | skip)) | with_reducible exact Or.inr rfl
    | split

theorem only_modCChan {ps : List Part} {s s' : State} (ch : Nat) (g : CChan → CChan) (hl : [.chans] ⊆ ps) (h : Only ps s s') :
    Only ps s (modCChan ch g s') := by
  unfold modCChan
  try dsimp only
  repeat' first
    | with_reducible assumption | exact List.Subset.trans (by decide) hl
    | (fail_if_no_progress ((with_reducible apply Only.mk_of) <;> first | exact Or.inl (hl (by decide)) | with_reducible exact Or.inr rfl | skip)) | with_reducible exact Or.inr rfl

/-! ## Queues -/

theorem only_storeQueue {ps : List Part} {s s' : State} (q : Nat) (x : Queue) (hl : [.queues] ⊆ ps) (h : Only ps s s') :
    Only ps s (storeQueue q x s') := by
  unfold storeQueue
  try dsimp only
  repeat' first
    | with_reducible assumption | exact List.Subset.trans (by decide) hl
    | (fail_if_no_progress ((with_reducible apply Only.mk_of) <;> first | exact Or.inl (hl (by decide)) | with_reducible exact Or.inr rfl | skip)) | with_reducible exact Or.inr rfl

theorem only_giveOwed {ps : List Part} {s : State} (hl : [.queues] ⊆ ps) : ∀ (m : List Nat) (n : Nat) {t : State}, Only ps s t → Only ps s (giveOwed m n t)
  | [], _, _, h => by
    unfold giveOwed
    exact h
  | q :: r, n, t, h => by
    unfold giveOwed
    refine only_giveOwed hl r _ ?_
    split
    · exact h
    · exact only_storeQueue _ _ (List.Subset.trans (by decide) hl) h

theorem only_releaseOwed {ps : List Part} {s s' : State} (hl : [.queues] ⊆ ps) (h : Only ps s s') :
    Only ps s (releaseOwed s') := by
  unfold releaseOwed
  try dsimp only
  repeat' first
    | with_reducible assumption | exact List.Subset.trans (by decide) hl | with_reducible apply only_giveOwed
    | (with_reducible refine Only.foldl (fun t' a' h' => ?_) _ ?_ <;> (try dsimp only)) | with_reducible apply Only.ite | split

theorem only_settle {ps : List Part} {s s' : State} (q : Nat) (hl : [.queues] ⊆ ps) (h : Only ps s s') :
    Only ps s (settle q s') := by
  unfold settle
  repeat' first
    | with_reducible assumption | exact List.Subset.trans (by decide) hl | with_reducible apply only_storeQueue
    | with_reducible apply only_releaseOwed

theorem only_enqueue {ps : List Part} {s s' : State} (q : Nat) (cells : List Cell) (hl : [.queues] ⊆ ps) (h : Only ps s s') :
    Only ps s (enqueue q cells s') := by
  unfold enqueue
  try dsimp only
  repeat' first
    | with_reducible assumption | exact List.Subset.trans (by decide) hl | with_reducible apply only_settle
    | with_reducible apply Only.ite
    | (fail_if_no_progress ((with_reducible apply Only.mk_of) <;> first | exact Or.inl (hl (by decide)) | with_reducible exact Or.inr rfl | skip)) | with_reducible exact Or.inr rfl
    | split

theorem only_emit {ps : List Part} {s s' : State} (q : Nat) (c : Cell) (hl : [.queues] ⊆ ps) (h : Only ps s s') :
    Only ps s (emit q c s') := by
  unfold emit
  repeat' first
    | with_reducible assumption | exact List.Subset.trans (by decide) hl | with_reducible apply only_enqueue

theorem only_trimAll {ps : List Part} {s s' : State} (old : Tab Word) (hl : [.queues] ⊆ ps) (h : Only ps s s') :
    Only ps s (trimAll old s') := by
  unfold trimAll
  try dsimp only
  repeat' first
    | with_reducible assumption | exact List.Subset.trans (by decide) hl | with_reducible apply only_storeQueue
    | with_reducible apply only_releaseOwed | (with_reducible refine Only.foldl (fun t' a' h' => ?_) _ ?_ <;> (try dsimp only))
    | with_reducible apply Only.ite
    | (fail_if_no_progress ((with_reducible apply Only.mk_of) <;> first | exact Or.inl (hl (by decide)) | with_reducible exact Or.inr rfl | skip)) | with_reducible exact Or.inr rfl
    | split

theorem only_inOneCycle {ps : List Part} {s s' : State} (f : State → State) (h_f : ∀ {u : State}, Only ps s u → Only ps s (f u)) (hl : [.queues] ⊆ ps) (h : Only ps s s') :
    Only ps s (inOneCycle f s') := by
  unfold inOneCycle
  try dsimp only
  repeat' first
    | with_reducible assumption | exact List.Subset.trans (by decide) hl | with_reducible apply h_f
    | (fail_if_no_progress ((with_reducible apply Only.mk_of) <;> first | exact Or.inl (hl (by decide)) | with_reducible exact Or.inr rfl | skip)) | with_reducible exact Or.inr rfl

theorem only_flushQueue {ps : List Part} {s s' : State} (q : Nat) (hl : [.queues] ⊆ ps) (h : Only ps s s') : Only ps s (flushQueue q s').1 := by
  unfold flushQueue
  dsimp only
  repeat' first
    | with_reducible assumption | exact List.Subset.trans (by decide) hl | with_reducible apply only_settle | (fail_if_no_progress ((with_reducible apply Only.mk_of) <;> first | exact Or.inl (hl (by decide)) | with_reducible exact Or.inr rfl | skip)) | with_reducible exact Or.inr rfl

theorem only_flushQueue_eq {ps : List Part} {s s' u : State} {q a b : Nat} (e : flushQueue q s' = (u, a, b)) (hl : [.queues] ⊆ ps) (h : Only ps s s') : Only ps s u := by
  have k := only_flushQueue q hl h
  rwa [e] at k

theorem only_latchLost {ps : List Part} {s s' : State} (hl : [.queues] ⊆ ps) (h : Only ps s s') :
    Only ps s (latchLost s') := by
  unfold latchLost
  try dsimp only
  repeat' first
    | with_reducible assumption | exact List.Subset.trans (by decide) hl
    | (fail_if_no_progress ((with_reducible apply Only.mk_of) <;> first | exact Or.inl (hl (by decide)) | with_reducible exact Or.inr rfl | skip)) | with_reducible exact Or.inr rfl

/-! ## Rings -/

theorem only_modRing {ps : List Part} {s s' : State} (r : Nat) (g : Ring → Ring) (hl : [.rings] ⊆ ps) (h : Only ps s s') :
    Only ps s (modRing r g s') := by
  unfold modRing
  try dsimp only
  repeat' first
    | with_reducible assumption | exact List.Subset.trans (by decide) hl
    | (fail_if_no_progress ((with_reducible apply Only.mk_of) <;> first | exact Or.inl (hl (by decide)) | with_reducible exact Or.inr rfl | skip)) | with_reducible exact Or.inr rfl

theorem only_writeStatus {ps : List Part} {s s' : State} (hl : [.outbox] ⊆ ps) (h : Only ps s s') :
    Only ps s (writeStatus s') := by
  unfold writeStatus
  repeat' first
    | with_reducible assumption | exact List.Subset.trans (by decide) hl | with_reducible apply only_outp
    | with_reducible apply Only.ite | split

theorem only_moderate {ps : List Part} {s s' : State} (r : Nat) (hl : [.outbox, .rings] ⊆ ps) (h : Only ps s s') :
    Only ps s (moderate r s') := by
  unfold moderate
  try dsimp only
  repeat' first
    | with_reducible assumption | exact List.Subset.trans (by decide) hl | with_reducible apply only_msi
    | with_reducible apply only_modRing | with_reducible apply Only.ite
    | (fail_if_no_progress ((with_reducible apply Only.mk_of) <;> first | exact Or.inl (hl (by decide)) | with_reducible exact Or.inr rfl | skip)) | with_reducible exact Or.inr rfl
    | split

theorem only_ringWrite {ps : List Part} {s s' : State} (r : Nat) (bytes : List Byte) (hl : [.outbox, .rings] ⊆ ps) (h : Only ps s s') :
    Only ps s (ringWrite r bytes s') := by
  unfold ringWrite
  try dsimp only
  repeat' first
    | with_reducible assumption | exact List.Subset.trans (by decide) hl | with_reducible apply only_outp
    | with_reducible apply only_modRing | with_reducible apply only_writeStatus | with_reducible apply only_moderate
    | (fail_if_no_progress ((with_reducible apply Only.mk_of) <;> first | exact Or.inl (hl (by decide)) | with_reducible exact Or.inr rfl | skip)) | with_reducible exact Or.inr rfl

theorem only_replyTo {ps : List Part} {s s' : State} (session kind sq status : Nat) (res : List Byte) (hl : [.outbox] ⊆ ps) (h : Only ps s s') :
    Only ps s (replyTo session kind sq status res s') := by
  unfold replyTo
  try dsimp only
  repeat' first
    | with_reducible assumption | exact List.Subset.trans (by decide) hl | with_reducible apply only_outp

theorem only_mpCompletion {ps : List Part} {s s' : State} (status : Nat) (didx : Half) (bytes : List Byte) (hl : [.outbox, .rings, .sessions] ⊆ ps) (h : Only ps s s') :
    Only ps s (mpCompletion status didx bytes s') := by
  unfold mpCompletion
  try dsimp only
  repeat' first
    | with_reducible assumption | exact List.Subset.trans (by decide) hl | with_reducible apply only_modRing
    | with_reducible apply only_replyTo | with_reducible apply Only.ite
    | (fail_if_no_progress ((with_reducible apply Only.mk_of) <;> first | exact Or.inl (hl (by decide)) | with_reducible exact Or.inr rfl | skip)) | with_reducible exact Or.inr rfl
    | split

theorem only_writeCpl {ps : List Part} {s s' : State} (opcode : Byte) (status : Nat) (didx : Half) (tag : Word) (res : List Byte) (hl : [.outbox, .rings, .sessions] ⊆ ps) (h : Only ps s s') :
    Only ps s (writeCpl opcode status didx tag res s') := by
  unfold writeCpl
  try dsimp only
  repeat' first
    | with_reducible assumption | exact List.Subset.trans (by decide) hl | with_reducible apply only_ringWrite
    | with_reducible apply only_mpCompletion | with_reducible apply Only.ite | split

theorem only_sweepNops {ps : List Part} {s : State} (hl : [.outbox, .rings, .descs, .sessions] ⊆ ps) :
    ∀ (m : List Outstanding) {t : State}, Only ps s t → Only ps s (sweepNops m t)
  | [], _, h => by
    unfold sweepNops
    repeat' first
    | with_reducible assumption | exact List.Subset.trans (by decide) hl | (fail_if_no_progress ((with_reducible apply Only.mk_of) <;> first | exact Or.inl (hl (by decide)) | with_reducible exact Or.inr rfl | skip)) | with_reducible exact Or.inr rfl
  | o :: r, t, h => by
    unfold sweepNops
    split
    · refine only_sweepNops hl r ?_
      split
      · exact h
      · exact only_writeCpl _ _ _ _ _ (List.Subset.trans (by decide) hl) h
    · repeat' first
    | with_reducible assumption | exact List.Subset.trans (by decide) hl | (fail_if_no_progress ((with_reducible apply Only.mk_of) <;> first | exact Or.inl (hl (by decide)) | with_reducible exact Or.inr rfl | skip)) | with_reducible exact Or.inr rfl

theorem only_modOut {ps : List Part} {s s' : State} (id : Nat) (g : Outstanding → Outstanding) (hl : [.descs] ⊆ ps) (h : Only ps s s') :
    Only ps s (modOut id g s') := by
  unfold modOut
  try dsimp only
  repeat' first
    | with_reducible assumption | exact List.Subset.trans (by decide) hl | with_reducible apply Only.ite
    | (fail_if_no_progress ((with_reducible apply Only.mk_of) <;> first | exact Or.inl (hl (by decide)) | with_reducible exact Or.inr rfl | skip)) | with_reducible exact Or.inr rfl
    | split

theorem only_complete {ps : List Part} {s s' : State} (id : Nat) (status : Nat) (res : List Byte) (hl : [.outbox, .rings, .descs, .sessions] ⊆ ps) (h : Only ps s s') :
    Only ps s (complete id status res s') := by
  unfold complete
  try dsimp only
  repeat' first
    | with_reducible assumption | exact List.Subset.trans (by decide) hl | with_reducible apply only_writeCpl
    | with_reducible apply only_sweepNops | with_reducible apply Only.ite
    | (fail_if_no_progress ((with_reducible apply Only.mk_of) <;> first | exact Or.inl (hl (by decide)) | with_reducible exact Or.inr rfl | skip)) | with_reducible exact Or.inr rfl
    | split

theorem only_completeOpt {ps : List Part} {s s' : State} (id : Option Nat) (status : Nat) (res : List Byte) (hl : [.outbox, .rings, .descs, .sessions] ⊆ ps) (h : Only ps s s') :
    Only ps s (completeOpt id status res s') := by
  unfold completeOpt
  repeat' first
    | with_reducible assumption | exact List.Subset.trans (by decide) hl | with_reducible apply only_complete | split

theorem only_ringsOff {ps : List Part} {s s' : State} (hl : [.rings, .descs] ⊆ ps) (h : Only ps s s') :
    Only ps s (ringsOff s') := by
  unfold ringsOff
  try dsimp only
  repeat' first
    | with_reducible assumption | exact List.Subset.trans (by decide) hl
    | (fail_if_no_progress ((with_reducible apply Only.mk_of) <;> first | exact Or.inl (hl (by decide)) | with_reducible exact Or.inr rfl | skip)) | with_reducible exact Or.inr rfl

theorem only_busMaster {ps : List Part} {s s' : State} (on : Bool) (hl : [.rings, .descs, .host] ⊆ ps) (h : Only ps s s') :
    Only ps s (busMaster on s') := by
  unfold busMaster
  try dsimp only
  repeat' first
    | with_reducible assumption | exact List.Subset.trans (by decide) hl | with_reducible apply only_ringsOff
    | with_reducible apply Only.ite
    | (fail_if_no_progress ((with_reducible apply Only.mk_of) <;> first | exact Or.inl (hl (by decide)) | with_reducible exact Or.inr rfl | skip)) | with_reducible exact Or.inr rfl
    | split

/-! ## Collector -/

theorem only_faultRec {ps : List Part} {s s' : State} (id sub cls flags count : Nat) (ctx : List Byte) (tick : TickNo) (hl : [.queues] ⊆ ps) (h : Only ps s s') :
    Only ps s (faultRec id sub cls flags count ctx tick s') := by
  unfold faultRec
  repeat' first
    | with_reducible assumption | exact List.Subset.trans (by decide) hl | with_reducible apply only_emit

theorem only_countFault {ps : List Part} {s s' : State} (hl : [.faults] ⊆ ps) (h : Only ps s s') :
    Only ps s (countFault s') := by
  unfold countFault
  try dsimp only
  repeat' first
    | with_reducible assumption | exact List.Subset.trans (by decide) hl
    | (fail_if_no_progress ((with_reducible apply Only.mk_of) <;> first | exact Or.inl (hl (by decide)) | with_reducible exact Or.inr rfl | skip)) | with_reducible exact Or.inr rfl

theorem only_closeShadow {ps : List Part} {s s' : State} (f : Nat) (hl : [.queues, .faults] ⊆ ps) (h : Only ps s s') :
    Only ps s (closeShadow f s') := by
  unfold closeShadow
  try dsimp only
  repeat' first
    | with_reducible assumption | exact List.Subset.trans (by decide) hl | with_reducible apply only_faultRec
    | with_reducible apply Only.ite
    | (fail_if_no_progress ((with_reducible apply Only.mk_of) <;> first | exact Or.inl (hl (by decide)) | with_reducible exact Or.inr rfl | skip)) | with_reducible exact Or.inr rfl
    | split

theorem only_openShadow {ps : List Part} {s s' : State} (f : Nat) (tick : TickNo) (opener : Option (Nat × Nat)) (cls : Nat) (hl : [.queues, .faults] ⊆ ps) (h : Only ps s s') :
    Only ps s (openShadow f tick opener cls s') := by
  unfold openShadow
  try dsimp only
  repeat' first
    | with_reducible assumption | exact List.Subset.trans (by decide) hl | with_reducible apply only_closeShadow
    | with_reducible apply Only.ite
    | (fail_if_no_progress ((with_reducible apply Only.mk_of) <;> first | exact Or.inl (hl (by decide)) | with_reducible exact Or.inr rfl | skip)) | with_reducible exact Or.inr rfl
    | split

theorem only_sendOrder {ps : List Part} {s s' : State} (f : Nat) (k payload : Byte) (hl : [.outbox, .fronds] ⊆ ps) (h : Only ps s s') :
    Only ps s (sendOrder f k payload s') := by
  unfold sendOrder
  try dsimp only
  repeat' first
    | with_reducible assumption | exact List.Subset.trans (by decide) hl | with_reducible apply only_outp
    | with_reducible apply only_modFrond
    | (fail_if_no_progress ((with_reducible apply Only.mk_of) <;> first | exact Or.inl (hl (by decide)) | with_reducible exact Or.inr rfl | skip)) | with_reducible exact Or.inr rfl

theorem only_orderSafe {ps : List Part} {s s' : State} (opener : Option (Nat × Nat)) (cls : Nat) (f : Nat) (hl : [.outbox, .queues, .faults, .fronds] ⊆ ps) (h : Only ps s s') :
    Only ps s (orderSafe opener cls s' f) := by
  unfold orderSafe
  try dsimp only
  repeat' first
    | with_reducible assumption | exact List.Subset.trans (by decide) hl | with_reducible apply only_modFrond
    | with_reducible apply only_openShadow | with_reducible apply only_sendOrder | with_reducible apply Only.ite
    | (fail_if_no_progress ((with_reducible apply Only.mk_of) <;> first | exact Or.inl (hl (by decide)) | with_reducible exact Or.inr rfl | skip)) | with_reducible exact Or.inr rfl
    | split

theorem only_vector20 {ps : List Part} {s s' : State} (before : Nat) (hl : [.outbox] ⊆ ps) (h : Only ps s s') :
    Only ps s (vector20 before s') := by
  unfold vector20
  repeat' first
    | with_reducible assumption | exact List.Subset.trans (by decide) hl | with_reducible apply only_msi
    | with_reducible apply Only.ite | split

theorem only_react {ps : List Part} {s s' : State} (id sub cls : Nat) (ctx : List Byte) (hl : [.outbox, .halt, .queues, .faults, .fronds] ⊆ ps) (h : Only ps s s') :
    Only ps s (react id sub cls ctx s') := by
  have k : ∀ o c (m : List Nat), Only ps s (m.foldl (orderSafe o c) s') :=
    fun o c m => Only.foldl (fun _ _ h => only_orderSafe _ _ _ (List.Subset.trans (by decide) hl) h) m h
  unfold react
  dsimp only
  split
  · exact k _ _ _
  · split
    · have j := k (some (id, sub)) cls allFronds
      generalize List.foldl _ _ _ = u at j ⊢
      (with_reducible apply Only.mk_of) <;> first | exact Or.inl (hl (by decide)) | with_reducible exact Or.inr rfl | with_reducible exact j
    · exact h

/-- Below HALT a reaction leaves the phase and the latch alone. -/
theorem only_react_mid {ps : List Part} {s s' : State} {id sub cls : Nat} {ctx : List Byte} (hc : cls ≤ 3) (hl : [.outbox, .queues, .faults, .fronds] ⊆ ps)
    (h : Only ps s s') : Only ps s (react id sub cls ctx s') := by
  unfold react
  dsimp only
  have k : ¬ cls ≥ 4 := by omega
  simp only [k, if_false]
  repeat' first
    | with_reducible assumption | exact List.Subset.trans (by decide) hl | with_reducible apply only_orderSafe | (with_reducible refine Only.foldl (fun t' a' h' => ?_) _ ?_) | (fail_if_no_progress ((with_reducible apply Only.mk_of) <;> first | exact Or.inl (hl (by decide)) | with_reducible exact Or.inr rfl | skip)) | with_reducible exact Or.inr rfl | split

theorem only_recordFault {ps : List Part} {s s' : State} (id sub cls : Nat) (ctx : List Byte) (tick : TickNo) (opener : Bool) (dl : Option TickNo) (hl : [.queues, .faults] ⊆ ps) (h : Only ps s s') :
    Only ps s (recordFault id sub cls ctx tick opener dl s') := by
  unfold recordFault
  try dsimp only
  repeat' first
    | with_reducible assumption | exact List.Subset.trans (by decide) hl | with_reducible apply only_faultRec
    | with_reducible apply only_countFault | with_reducible apply Only.ite
    | (fail_if_no_progress ((with_reducible apply Only.mk_of) <;> first | exact Or.inl (hl (by decide)) | with_reducible exact Or.inr rfl | skip)) | with_reducible exact Or.inr rfl
    | split

theorem only_raise {ps : List Part} {s s' : State} {id sub cls : Nat} {event : Bool} {ctx : List Byte} {tick : TickNo} {atEdge opener : Bool}
    (hl : [.outbox, .halt, .queues, .faults, .fronds] ⊆ ps) (h : Only ps s s') : Only ps s (raise id sub cls event ctx tick atEdge opener s') := by
  unfold raise
  dsimp only
  repeat' first
    | with_reducible assumption | exact List.Subset.trans (by decide) hl | with_reducible apply only_vector20 | with_reducible apply only_react | with_reducible apply only_recordFault | with_reducible apply Only.ite | (fail_if_no_progress ((with_reducible apply Only.mk_of) <;> first | exact Or.inl (hl (by decide)) | with_reducible exact Or.inr rfl | skip)) | with_reducible exact Or.inr rfl | split

/-- A source of class SAFE or lower leaves the phase alone. -/
theorem only_raise_mid {ps : List Part} {s s' : State} {id sub cls : Nat} {event : Bool} {ctx : List Byte} {tick : TickNo} {atEdge opener : Bool} (hc : cls ≤ 3)
    (hl : [.outbox, .queues, .faults, .fronds] ⊆ ps) (h : Only ps s s') : Only ps s (raise id sub cls event ctx tick atEdge opener s') := by
  unfold raise
  dsimp only
  repeat' first
    | with_reducible assumption | exact List.Subset.trans (by decide) hl | with_reducible apply only_vector20 | with_reducible refine only_react_mid hc ?_ ?_ | with_reducible apply only_recordFault | with_reducible apply Only.ite | (fail_if_no_progress ((with_reducible apply Only.mk_of) <;> first | exact Or.inl (hl (by decide)) | with_reducible exact Or.inr rfl | skip)) | with_reducible exact Or.inr rfl | split

/-- A source of class NOTE or SERVICE has no reaction. -/
theorem only_raise_low {ps : List Part} {s s' : State} {id sub cls : Nat} {event : Bool} {ctx : List Byte} {tick : TickNo} {atEdge opener : Bool} (hc : cls ≤ 2)
    (hl : [.outbox, .queues, .faults] ⊆ ps) (h : Only ps s s') : Only ps s (raise id sub cls event ctx tick atEdge opener s') := by
  have a : ¬ cls = 3 := by omega
  have b : ¬ cls ≥ 4 := by omega
  unfold raise react
  simp only [a, b, if_false]
  repeat' first
    | with_reducible assumption | exact List.Subset.trans (by decide) hl | with_reducible apply only_vector20 | with_reducible apply only_recordFault | with_reducible apply Only.ite | (fail_if_no_progress ((with_reducible apply Only.mk_of) <;> first | exact Or.inl (hl (by decide)) | with_reducible exact Or.inr rfl | skip)) | with_reducible exact Or.inr rfl | split

theorem only_dropSrc {ps : List Part} {s s' : State} (id sub : Nat) (hl : [.queues, .faults] ⊆ ps) (h : Only ps s s') :
    Only ps s (dropSrc id sub s') := by
  unfold dropSrc
  try dsimp only
  repeat' first
    | with_reducible assumption | exact List.Subset.trans (by decide) hl | with_reducible apply only_faultRec
    | with_reducible apply Only.ite
    | (fail_if_no_progress ((with_reducible apply Only.mk_of) <;> first | exact Or.inl (hl (by decide)) | with_reducible exact Or.inr rfl | skip)) | with_reducible exact Or.inr rfl
    | split

theorem only_clearSrc {ps : List Part} {s s' : State} (id sub : Nat) (hl : [.queues, .faults] ⊆ ps) (h : Only ps s s') :
    Only ps s (clearSrc id sub s') := by
  unfold clearSrc
  try dsimp only
  repeat' first
    | with_reducible assumption | exact List.Subset.trans (by decide) hl | with_reducible apply only_dropSrc
    | with_reducible apply Only.ite
    | (fail_if_no_progress ((with_reducible apply Only.mk_of) <;> first | exact Or.inl (hl (by decide)) | with_reducible exact Or.inr rfl | skip)) | with_reducible exact Or.inr rfl
    | split

theorem only_setSrc_low {ps : List Part} {s s' : State} {on : Bool} {id sub cls : Nat} {ctx : List Byte} {tick : TickNo} (hc : cls ≤ 2) (hl : [.outbox, .queues, .faults] ⊆ ps)
    (h : Only ps s s') : Only ps s (setSrc on id sub cls ctx tick s') := by
  unfold setSrc
  repeat' first
    | with_reducible assumption | exact List.Subset.trans (by decide) hl | with_reducible refine only_raise_low hc ?_ ?_ | with_reducible apply only_clearSrc | with_reducible apply Only.ite

theorem only_integrity {ps : List Part} {s s' : State} (origin ofs ch : Nat) (hl : [.outbox, .queues, .faults] ⊆ ps) (h : Only ps s s') :
    Only ps s (integrity origin ofs ch s') := by
  unfold integrity
  repeat' first
    | with_reducible assumption | exact List.Subset.trans (by decide) hl | with_reducible refine only_raise_low (by decide) ?_ ?_
    | with_reducible refine only_raise_mid (by first | decide | exact causeCls_le _) ?_ ?_ | with_reducible apply only_raise

theorem only_noteEvent {ps : List Part} {s s' : State} (id : Nat) (ctx : List Byte) (hl : [.outbox, .queues, .faults] ⊆ ps) (h : Only ps s s') :
    Only ps s (noteEvent id ctx s') := by
  unfold noteEvent
  repeat' first
    | with_reducible assumption | exact List.Subset.trans (by decide) hl | with_reducible refine only_raise_low (by decide) ?_ ?_
    | with_reducible refine only_raise_mid (by first | decide | exact causeCls_le _) ?_ ?_ | with_reducible apply only_raise

theorem only_dropNotes {ps : List Part} {s s' : State} (hl : [.faults] ⊆ ps) (h : Only ps s s') :
    Only ps s (dropNotes s') := by
  unfold dropNotes
  try dsimp only
  repeat' first
    | with_reducible assumption | exact List.Subset.trans (by decide) hl
    | (fail_if_no_progress ((with_reducible apply Only.mk_of) <;> first | exact Or.inl (hl (by decide)) | with_reducible exact Or.inr rfl | skip)) | with_reducible exact Or.inr rfl

theorem only_escalate {ps : List Part} {s s' : State} (id sub : Nat) (hl : [.outbox, .queues, .faults, .fronds] ⊆ ps) (h : Only ps s s') :
    Only ps s (escalate id sub s') := by
  unfold escalate
  dsimp only
  repeat' first
    | with_reducible assumption | exact List.Subset.trans (by decide) hl | with_reducible apply only_vector20 | with_reducible refine only_react_mid (by decide) ?_ ?_ | with_reducible apply only_faultRec | with_reducible apply Only.ite | (fail_if_no_progress ((with_reducible apply Only.mk_of) <;> first | exact Or.inl (hl (by decide)) | with_reducible exact Or.inr rfl | skip)) | with_reducible exact Or.inr rfl | split

theorem only_judgeShadows {ps : List Part} {s s' : State} (hl : [.faults] ⊆ ps) (h : Only ps s s') :
    Only ps s (judgeShadows s') := by
  unfold judgeShadows
  try dsimp only
  repeat' first
    | with_reducible assumption | exact List.Subset.trans (by decide) hl | with_reducible apply Only.ite
    | (fail_if_no_progress ((with_reducible apply Only.mk_of) <;> first | exact Or.inl (hl (by decide)) | with_reducible exact Or.inr rfl | skip)) | with_reducible exact Or.inr rfl
    | split

/-! ## Items -/

theorem only_sendDown {ps : List Part} {s s' : State} (f : Nat) (fid : Byte) (payload : List Byte) (hl : [.outbox, .fronds] ⊆ ps) (h : Only ps s s') :
    Only ps s (sendDown f fid payload s') := by
  unfold sendDown
  try dsimp only
  repeat' first
    | with_reducible assumption | exact List.Subset.trans (by decide) hl | with_reducible apply only_outp
    | with_reducible apply only_modFrond
    | (fail_if_no_progress ((with_reducible apply Only.mk_of) <;> first | exact Or.inl (hl (by decide)) | with_reducible exact Or.inr rfl | skip)) | with_reducible exact Or.inr rfl

/-! ## Field -/

theorem only_modField {ps : List Part} {s s' : State} (f : Nat) (g : Frond → Frond) (hl : [.field] ⊆ ps) (h : Only ps s s') :
    Only ps s (modField f g s') := by
  unfold modField
  try dsimp only
  repeat' first
    | with_reducible assumption | exact List.Subset.trans (by decide) hl
    | (fail_if_no_progress ((with_reducible apply Only.mk_of) <;> first | exact Or.inl (hl (by decide)) | with_reducible exact Or.inr rfl | skip)) | with_reducible exact Or.inr rfl

/-! ## FrondEdge -/

theorem only_sendUp {ps : List Part} {s s' : State} (f : Nat) (fid : Byte) (payload : List Byte) (flags : List Nat) (hl : [.outbox, .field] ⊆ ps) (h : Only ps s s') :
    Only ps s (sendUp f fid payload flags s') := by
  unfold sendUp
  try dsimp only
  repeat' first
    | with_reducible assumption | exact List.Subset.trans (by decide) hl | with_reducible apply only_outp
    | with_reducible apply only_modField
    | (fail_if_no_progress ((with_reducible apply Only.mk_of) <;> first | exact Or.inl (hl (by decide)) | with_reducible exact Or.inr rfl | skip)) | with_reducible exact Or.inr rfl

/-! ## FieldRows -/

theorem only_modLink {ps : List Part} {s s' : State} (f : Nat) (linkB : Bool) (g : LinkSt → LinkSt) (hl : [.fronds] ⊆ ps) (h : Only ps s s') :
    Only ps s (modLink f linkB g s') := by
  unfold modLink
  try dsimp only
  repeat' first
    | with_reducible assumption | exact List.Subset.trans (by decide) hl | with_reducible apply only_modFrond
    | with_reducible apply Only.ite
    | (fail_if_no_progress ((with_reducible apply Only.mk_of) <;> first | exact Or.inl (hl (by decide)) | with_reducible exact Or.inr rfl | skip)) | with_reducible exact Or.inr rfl
    | split

theorem only_rejectFrame {ps : List Part} {s s' : State} (f : Nat) (linkB : Bool) (t : TickNo) (hl : [.outbox, .queues, .faults, .fronds] ⊆ ps) (h : Only ps s s') :
    Only ps s (rejectFrame f linkB t s') := by
  unfold rejectFrame
  try dsimp only
  repeat' first
    | with_reducible assumption | exact List.Subset.trans (by decide) hl | with_reducible refine only_raise_low (by decide) ?_ ?_
    | with_reducible refine only_raise_mid (by first | decide | exact causeCls_le _) ?_ ?_ | with_reducible apply only_raise
    | with_reducible apply only_modLink | with_reducible apply Only.ite
    | (fail_if_no_progress ((with_reducible apply Only.mk_of) <;> first | exact Or.inl (hl (by decide)) | with_reducible exact Or.inr rfl | skip)) | with_reducible exact Or.inr rfl
    | split

theorem only_copyDiff {ps : List Part} {s s' : State} (f : Nat) (linkB : Bool) (t : TickNo) (hl : [.outbox, .queues, .faults, .fronds] ⊆ ps) (h : Only ps s s') :
    Only ps s (copyDiff f linkB t s') := by
  unfold copyDiff
  try dsimp only
  repeat' first
    | with_reducible assumption | exact List.Subset.trans (by decide) hl | with_reducible refine only_raise_low (by decide) ?_ ?_
    | with_reducible refine only_raise_mid (by first | decide | exact causeCls_le _) ?_ ?_ | with_reducible apply only_raise
    | with_reducible apply only_modLink | with_reducible apply Only.ite
    | (fail_if_no_progress ((with_reducible apply Only.mk_of) <;> first | exact Or.inl (hl (by decide)) | with_reducible exact Or.inr rfl | skip)) | with_reducible exact Or.inr rfl
    | split

theorem only_rxDown {ps : List Part} {s s' : State} (f : Nat) (fr : Frame) (fid : Byte) (lenOk : Nat → Bool) (use : Byte → List Byte → Frond → Frond) (hl : [.outbox, .queues, .faults, .fronds, .field] ⊆ ps) (h : Only ps s s') :
    Only ps s (rxDown f fr fid lenOk use s') := by
  unfold rxDown
  try dsimp only
  repeat' first
    | with_reducible assumption | exact List.Subset.trans (by decide) hl | with_reducible apply only_modField
    | with_reducible apply only_rejectFrame | with_reducible apply only_copyDiff | with_reducible apply Only.ite
    | (fail_if_no_progress ((with_reducible apply Only.mk_of) <;> first | exact Or.inl (hl (by decide)) | with_reducible exact Or.inr rfl | skip)) | with_reducible exact Or.inr rfl
    | split

theorem only_rxOrder {ps : List Part} {s s' : State} (f : Nat) (o : OrderFrame) (k : Byte) (use : Byte → Frond → Frond) (hl : [.outbox, .queues, .faults, .fronds, .field] ⊆ ps) (h : Only ps s s') :
    Only ps s (rxOrder f o k use s') := by
  unfold rxOrder
  try dsimp only
  repeat' first
    | with_reducible assumption | exact List.Subset.trans (by decide) hl | with_reducible apply only_rejectFrame
    | with_reducible apply Only.ite
    | (fail_if_no_progress ((with_reducible apply Only.mk_of) <;> first | exact Or.inl (hl (by decide)) | with_reducible exact Or.inr rfl | skip)) | with_reducible exact Or.inr rfl
    | split

end Sys2Proof.Machine
end

