-- ==== Sys2Proof/Laws/Only2.lean ====
section
/-! SUPPORT. The frames of the operations of Tracker, MapUnit, Plan, Capture, Feature. -/

set_option linter.unusedTactic false
set_option linter.unreachableTactic false

namespace Sys2Proof.Machine
open Sys2Proof

/-! ## Tracker -/

theorem only_lostEvents {ps : List Part} {s : State} (i : Nat) (hl : [.outbox, .queues, .faults] ⊆ ps) : ∀ (n : Nat) {t : State}, Only ps s t → Only ps s (lostEvents i n t)
  | 0, _, h => h
  | n + 1, _, h => only_lostEvents i hl n (only_noteEvent _ _ (List.Subset.trans (by decide) hl) h)

theorem only_trackFrond {ps : List Part} {s s' : State} (t : Tab Word) (f : Nat) (miss : Bool) (stamps : Nat → List Nat) (hl : [.outbox, .queues, .faults, .refs] ⊆ ps) (h : Only ps s s') :
    Only ps s (trackFrond t f miss stamps s') := by
  unfold trackFrond
  try dsimp only
  repeat' first
    | with_reducible assumption | exact List.Subset.trans (by decide) hl | with_reducible apply only_lostEvents
    | (with_reducible refine Only.foldl (fun t' a' h' => ?_) _ ?_ <;> (try dsimp only)) | with_reducible apply Only.ite
    | (fail_if_no_progress ((with_reducible apply Only.mk_of) <;> first | exact Or.inl (hl (by decide)) | with_reducible exact Or.inr rfl | skip)) | with_reducible exact Or.inr rfl
    | split

theorem only_refsEpoch {ps : List Part} {s s' : State} (old : Tab Word) (hl : [.outbox, .queues, .faults, .refs] ⊆ ps) (h : Only ps s s') :
    Only ps s (refsEpoch old s') := by
  unfold refsEpoch
  try dsimp only
  repeat' first
    | with_reducible assumption | exact List.Subset.trans (by decide) hl | with_reducible apply only_lostEvents
    | (with_reducible refine Only.foldl (fun t' a' h' => ?_) _ ?_ <;> (try dsimp only)) | with_reducible apply Only.ite
    | (fail_if_no_progress ((with_reducible apply Only.mk_of) <;> first | exact Or.inl (hl (by decide)) | with_reducible exact Or.inr rfl | skip)) | with_reducible exact Or.inr rfl
    | split

/-! ## MapUnit -/

theorem only_mapFold {ps : List Part} {s s' : State} (ch : Nat) (bands : List Word) (phase : Nat → Bool) (hasBin : Bool) (v : Word) (tick : TickNo) (hl : [.features, .map] ⊆ ps) (h : Only ps s s') :
    Only ps s (mapFold ch bands phase hasBin v tick s') := by
  unfold mapFold
  try dsimp only
  repeat' first
    | with_reducible assumption | exact List.Subset.trans (by decide) hl | with_reducible apply Only.ite
    | (fail_if_no_progress ((with_reducible apply Only.mk_of) <;> first | exact Or.inl (hl (by decide)) | with_reducible exact Or.inr rfl | skip)) | with_reducible exact Or.inr rfl
    | split

theorem only_mapBoundary {ps : List Part} {s s' : State} (hl : [.queues, .map] ⊆ ps) (h : Only ps s s') :
    Only ps s (mapBoundary s') := by
  unfold mapBoundary
  try dsimp only
  repeat' first
    | with_reducible assumption | exact List.Subset.trans (by decide) hl | with_reducible apply only_emit
    | with_reducible apply Only.ite
    | (fail_if_no_progress ((with_reducible apply Only.mk_of) <;> first | exact Or.inl (hl (by decide)) | with_reducible exact Or.inr rfl | skip)) | with_reducible exact Or.inr rfl
    | split

theorem only_mapStart {ps : List Part} {s s' : State} (old : Tab Word) (hl : [.map] ⊆ ps) (h : Only ps s s') :
    Only ps s (mapStart old s') := by
  unfold mapStart
  try dsimp only
  repeat' first
    | with_reducible assumption | exact List.Subset.trans (by decide) hl | with_reducible apply Only.ite
    | (fail_if_no_progress ((with_reducible apply Only.mk_of) <;> first | exact Or.inl (hl (by decide)) | with_reducible exact Or.inr rfl | skip)) | with_reducible exact Or.inr rfl
    | split

theorem only_mixWhere {ps : List Part} {s s' : State} (on : Bool) (hl : [.map] ⊆ ps) (h : Only ps s s') :
    Only ps s (mixWhere on s') := by
  unfold mixWhere
  try dsimp only
  repeat' first
    | with_reducible assumption | exact List.Subset.trans (by decide) hl | with_reducible apply Only.ite
    | (fail_if_no_progress ((with_reducible apply Only.mk_of) <;> first | exact Or.inl (hl (by decide)) | with_reducible exact Or.inr rfl | skip)) | with_reducible exact Or.inr rfl
    | split

theorem only_mapMix {ps : List Part} {s s' : State} (old : Tab Word) (hl : [.map] ⊆ ps) (h : Only ps s s') :
    Only ps s (mapMix old s') := by
  unfold mapMix
  try dsimp only
  repeat' first
    | with_reducible assumption | exact List.Subset.trans (by decide) hl | with_reducible apply only_mixWhere

theorem only_mapLater {ps : List Part} {s s' : State} (f : Nat) (old new : Tab Word) (hl : [.map] ⊆ ps) (h : Only ps s s') :
    Only ps s (mapLater f old new s') := by
  unfold mapLater
  try dsimp only
  repeat' first
    | with_reducible assumption | exact List.Subset.trans (by decide) hl | with_reducible apply only_mixWhere

theorem only_mapEpoch {ps : List Part} {s s' : State} (old : Tab Word) (hl : [.map] ⊆ ps) (h : Only ps s s') :
    Only ps s (mapEpoch old s') := by
  unfold mapEpoch
  repeat' first
    | with_reducible assumption | exact List.Subset.trans (by decide) hl | with_reducible apply only_mapStart
    | with_reducible apply only_mapMix

theorem only_mapPull {ps : List Part} {s s' : State} (n : Nat) (hl : [.queues, .xfers] ⊆ ps) (h : Only ps s s') :
    Only ps s (mapPull n s') := by
  unfold mapPull
  try dsimp only
  repeat' first
    | with_reducible assumption | exact List.Subset.trans (by decide) hl
    | (fail_if_no_progress ((with_reducible apply Only.mk_of) <;> first | exact Or.inl (hl (by decide)) | with_reducible exact Or.inr rfl | skip)) | with_reducible exact Or.inr rfl
    | split

theorem only_mapEnd {ps : List Part} {s s' : State} (x : MapXfer) (status : Nat) (hl : [.outbox, .rings, .descs, .sessions, .xfers] ⊆ ps) (h : Only ps s s') :
    Only ps s (mapEnd x status s') := by
  unfold mapEnd
  try dsimp only
  repeat' first
    | with_reducible assumption | exact List.Subset.trans (by decide) hl | with_reducible apply only_outp
    | with_reducible apply only_complete | with_reducible apply Only.ite
    | (fail_if_no_progress ((with_reducible apply Only.mk_of) <;> first | exact Or.inl (hl (by decide)) | with_reducible exact Or.inr rfl | skip)) | with_reducible exact Or.inr rfl
    | split

/-! ## Plan -/

theorem only_stageSample {ps : List Part} {s s' : State} (ch : Nat) (x : Smp) (hl : [.features] ⊆ ps) (h : Only ps s s') :
    Only ps s (stageSample ch x s') := by
  unfold stageSample
  try dsimp only
  repeat' first
    | with_reducible assumption | exact List.Subset.trans (by decide) hl | with_reducible apply Only.ite
    | (fail_if_no_progress ((with_reducible apply Only.mk_of) <;> first | exact Or.inl (hl (by decide)) | with_reducible exact Or.inr rfl | skip)) | with_reducible exact Or.inr rfl
    | split

theorem only_restartGrid {ps : List Part} {s s' : State} (ch at_ : Nat) (hl : [.features] ⊆ ps) (h : Only ps s s') :
    Only ps s (restartGrid ch at_ s') := by
  unfold restartGrid
  try dsimp only
  repeat' first
    | with_reducible assumption | exact List.Subset.trans (by decide) hl
    | (fail_if_no_progress ((with_reducible apply Only.mk_of) <;> first | exact Or.inl (hl (by decide)) | with_reducible exact Or.inr rfl | skip)) | with_reducible exact Or.inr rfl

theorem only_gridEpoch {ps : List Part} {s s' : State} (old new : Tab Word) (ch : Nat) (hl : [.features] ⊆ ps) (h : Only ps s s') :
    Only ps s (gridEpoch old new ch s') := by
  unfold gridEpoch
  repeat' first
    | with_reducible assumption | exact List.Subset.trans (by decide) hl | with_reducible apply only_restartGrid
    | with_reducible apply Only.ite | split

theorem only_scaleEpoch {ps : List Part} {s s' : State} (old new : Tab Word) (ch : Nat) (hl : [.features] ⊆ ps) (h : Only ps s s') :
    Only ps s (scaleEpoch old new ch s') := by
  unfold scaleEpoch
  try dsimp only
  repeat' first
    | with_reducible assumption | exact List.Subset.trans (by decide) hl | with_reducible apply Only.ite
    | (fail_if_no_progress ((with_reducible apply Only.mk_of) <;> first | exact Or.inl (hl (by decide)) | with_reducible exact Or.inr rfl | skip)) | with_reducible exact Or.inr rfl
    | split

theorem only_periodEpoch {ps : List Part} {s s' : State} (old new : Tab Word) (ch : Nat) (hl : [.chans] ⊆ ps) (h : Only ps s s') :
    Only ps s (periodEpoch old new ch s') := by
  unfold periodEpoch
  try dsimp only
  repeat' first
    | with_reducible assumption | exact List.Subset.trans (by decide) hl | with_reducible apply Only.ite
    | (fail_if_no_progress ((with_reducible apply Only.mk_of) <;> first | exact Or.inl (hl (by decide)) | with_reducible exact Or.inr rfl | skip)) | with_reducible exact Or.inr rfl
    | split

theorem only_angleEpoch {ps : List Part} {s s' : State} (old new : Tab Word) (ch : Nat) (hl : [.features] ⊆ ps) (h : Only ps s s') :
    Only ps s (angleEpoch old new ch s') := by
  unfold angleEpoch
  try dsimp only
  repeat' first
    | with_reducible assumption | exact List.Subset.trans (by decide) hl | with_reducible apply Only.ite
    | (fail_if_no_progress ((with_reducible apply Only.mk_of) <;> first | exact Or.inl (hl (by decide)) | with_reducible exact Or.inr rfl | skip)) | with_reducible exact Or.inr rfl
    | split

theorem only_chanEpoch {ps : List Part} {s s' : State} (old new : Tab Word) (ch : Nat) (hl : [.chans, .features] ⊆ ps) (h : Only ps s s') :
    Only ps s (chanEpoch old new ch s') := by
  unfold chanEpoch
  repeat' first
    | with_reducible assumption | exact List.Subset.trans (by decide) hl | with_reducible apply only_gridEpoch
    | with_reducible apply only_scaleEpoch | with_reducible apply only_periodEpoch | with_reducible apply only_angleEpoch

theorem only_phaseRestart {ps : List Part} {s s' : State} (d : Nat) (hl : [.features] ⊆ ps) (h : Only ps s s') :
    Only ps s (phaseRestart d s') := by
  unfold phaseRestart
  try dsimp only
  repeat' first
    | with_reducible assumption | exact List.Subset.trans (by decide) hl | with_reducible apply only_restartGrid
    | (with_reducible refine Only.foldl (fun t' a' h' => ?_) _ ?_ <;> (try dsimp only)) | with_reducible apply Only.ite | split

theorem only_readyBlocks {ps : List Part} {s s' : State} (hl : [.features] ⊆ ps) (h : Only ps s s') :
    Only ps s (readyBlocks s') := by
  unfold readyBlocks
  try dsimp only
  repeat' first
    | with_reducible assumption | exact List.Subset.trans (by decide) hl | with_reducible apply Only.ite
    | (fail_if_no_progress ((with_reducible apply Only.mk_of) <;> first | exact Or.inl (hl (by decide)) | with_reducible exact Or.inr rfl | skip)) | with_reducible exact Or.inr rfl
    | split

theorem only_angleTick {ps : List Part} {s s' : State} (t : Tab Word) (ch : Nat) (hl : [.features] ⊆ ps) (h : Only ps s s') :
    Only ps s (angleTick t ch s') := by
  unfold angleTick
  try dsimp only
  repeat' first
    | with_reducible assumption | exact List.Subset.trans (by decide) hl | with_reducible apply only_stageSample
    | (with_reducible refine Only.foldl (fun t' a' h' => ?_) _ ?_ <;> (try dsimp only)) | with_reducible apply Only.ite
    | (fail_if_no_progress ((with_reducible apply Only.mk_of) <;> first | exact Or.inl (hl (by decide)) | with_reducible exact Or.inr rfl | skip)) | with_reducible exact Or.inr rfl
    | split

/-! ## Capture -/

theorem only_modCap {ps : List Part} {s s' : State} (r : Nat) (g : CapRing → CapRing) (hl : [.caps] ⊆ ps) (h : Only ps s s') :
    Only ps s (modCap r g s') := by
  unfold modCap
  try dsimp only
  repeat' first
    | with_reducible assumption | exact List.Subset.trans (by decide) hl
    | (fail_if_no_progress ((with_reducible apply Only.mk_of) <;> first | exact Or.inl (hl (by decide)) | with_reducible exact Or.inr rfl | skip)) | with_reducible exact Or.inr rfl

theorem only_slowRings {ps : List Part} {s s' : State} (l : List Nat) (hl : [.caps] ⊆ ps) (h : Only ps s s') :
    Only ps s (slowRings l s') := by
  unfold slowRings
  try dsimp only
  repeat' first
    | with_reducible assumption | exact List.Subset.trans (by decide) hl | with_reducible apply only_modCap
    | (with_reducible refine Only.foldl (fun t' a' h' => ?_) _ ?_ <;> (try dsimp only)) | with_reducible apply Only.ite
    | (fail_if_no_progress ((with_reducible apply Only.mk_of) <;> first | exact Or.inl (hl (by decide)) | with_reducible exact Or.inr rfl | skip)) | with_reducible exact Or.inr rfl
    | split

theorem only_capFrames {ps : List Part} {s s' : State} (t : Tab Word) (r : Nat) (hl : [.caps] ⊆ ps) (h : Only ps s s') :
    Only ps s (capFrames t r s') := by
  unfold capFrames
  try dsimp only
  repeat' first
    | with_reducible assumption | exact List.Subset.trans (by decide) hl | with_reducible apply Only.ite
    | (fail_if_no_progress ((with_reducible apply Only.mk_of) <;> first | exact Or.inl (hl (by decide)) | with_reducible exact Or.inr rfl | skip)) | with_reducible exact Or.inr rfl
    | split

theorem only_capStampTick {ps : List Part} {s s' : State} (t : Tab Word) (r : Nat) (words : List Nat) (hl : [.caps] ⊆ ps) (h : Only ps s s') :
    Only ps s (capStampTick t r words s') := by
  unfold capStampTick
  try dsimp only
  repeat' first
    | with_reducible assumption | exact List.Subset.trans (by decide) hl | with_reducible apply Only.ite
    | (fail_if_no_progress ((with_reducible apply Only.mk_of) <;> first | exact Or.inl (hl (by decide)) | with_reducible exact Or.inr rfl | skip)) | with_reducible exact Or.inr rfl
    | split

theorem only_capAccept {ps : List Part} {s s' : State} (t : Tab Word) (r key src rule : Nat) (id : Option Nat) (rewind : Option TickNo) (hl : [.caps] ⊆ ps) (h : Only ps s s') :
    Only ps s (capAccept t r key src rule id rewind s') := by
  unfold capAccept
  try dsimp only
  repeat' first
    | with_reducible assumption | exact List.Subset.trans (by decide) hl
    | (fail_if_no_progress ((with_reducible apply Only.mk_of) <;> first | exact Or.inl (hl (by decide)) | with_reducible exact Or.inr rfl | skip)) | with_reducible exact Or.inr rfl
    | split

theorem only_capJoin {ps : List Part} {s s' : State} (t : Tab Word) (r src rule : Nat) (id : Option Nat) (rewind : Option TickNo) (c : CapRun) (hl : [.caps] ⊆ ps) (h : Only ps s s') :
    Only ps s (capJoin t r src rule id rewind c s') := by
  unfold capJoin
  try dsimp only
  repeat' first
    | with_reducible assumption | exact List.Subset.trans (by decide) hl | with_reducible apply only_modCap
    | with_reducible apply Only.ite
    | (fail_if_no_progress ((with_reducible apply Only.mk_of) <;> first | exact Or.inl (hl (by decide)) | with_reducible exact Or.inr rfl | skip)) | with_reducible exact Or.inr rfl
    | split

theorem only_capTrigger {ps : List Part} {s t : State} (r key src rule : Nat) (id : Option Nat) (rewind : Option TickNo) (hl : [.caps] ⊆ ps) (h : Only ps s t) :
    Only ps s (capTrigger r key src rule id rewind t).1 := by
  unfold capTrigger
  dsimp only
  repeat' first
    | with_reducible assumption | exact List.Subset.trans (by decide) hl | with_reducible apply only_modCap | with_reducible apply only_capAccept | with_reducible apply only_capJoin | (dsimp only; fail_if_no_progress dsimp only) | split

theorem only_capTrigger_eq {ps : List Part} {s t u : State} {r key src rule : Nat} {id : Option Nat} {rewind : Option TickNo} {b : Bool}
    (e : capTrigger r key src rule id rewind t = (u, b)) (hl : [.caps] ⊆ ps) (h : Only ps s t) : Only ps s u := by
  have k := only_capTrigger r key src rule id rewind hl h
  rwa [e] at k

theorem only_capEnd {ps : List Part} {s s' : State} (t : Tab Word) (r : Nat) (aborted : Bool) (cells : List Cell) (c : CapRun) (hl : [.outbox, .queues, .rings, .descs, .caps, .sessions] ⊆ ps) (h : Only ps s s') :
    Only ps s (capEnd t r aborted cells c s') := by
  unfold capEnd
  try dsimp only
  repeat' first
    | with_reducible assumption | exact List.Subset.trans (by decide) hl | with_reducible apply only_enqueue
    | with_reducible apply only_complete | with_reducible apply only_modCap
    | (with_reducible refine Only.foldl (fun t' a' h' => ?_) _ ?_ <;> (try dsimp only))
    | (fail_if_no_progress ((with_reducible apply Only.mk_of) <;> first | exact Or.inl (hl (by decide)) | with_reducible exact Or.inr rfl | skip)) | with_reducible exact Or.inr rfl

theorem only_capReadout {ps : List Part} {s s' : State} (own : Bool) (t : Tab Word) (r : Nat) (hl : [.outbox, .queues, .rings, .descs, .caps, .sessions] ⊆ ps) (h : Only ps s s') :
    Only ps s (capReadout own t r s') := by
  unfold capReadout
  try dsimp only
  repeat' first
    | with_reducible assumption | exact List.Subset.trans (by decide) hl | with_reducible apply only_enqueue
    | with_reducible apply only_modCap | with_reducible apply only_capEnd | with_reducible apply Only.ite
    | (fail_if_no_progress ((with_reducible apply Only.mk_of) <;> first | exact Or.inl (hl (by decide)) | with_reducible exact Or.inr rfl | skip)) | with_reducible exact Or.inr rfl
    | split

theorem only_capOwed {ps : List Part} {s : State} (t : Tab Word) (r : Nat) (hl : [.outbox, .queues, .rings, .descs, .caps, .sessions] ⊆ ps) :
    ∀ (n : Nat) {u : State}, Only ps s u → Only ps s (capOwed t r n u)
  | 0, _, h => h
  | n + 1, _, h => only_capOwed t r hl n (only_capReadout false t r (List.Subset.trans (by decide) hl) (only_modCap r _ (List.Subset.trans (by decide) hl) h))

theorem only_flushHeld {ps : List Part} {s s' : State} (hl : [.queues, .caps] ⊆ ps) (h : Only ps s s') :
    Only ps s (flushHeld s') := by
  unfold flushHeld
  try dsimp only
  repeat' first
    | with_reducible assumption | exact List.Subset.trans (by decide) hl | with_reducible apply only_enqueue
    | with_reducible apply only_modCap | (with_reducible refine Only.foldl (fun t' a' h' => ?_) _ ?_ <;> (try dsimp only))
    | with_reducible apply Only.ite
    | (fail_if_no_progress ((with_reducible apply Only.mk_of) <;> first | exact Or.inl (hl (by decide)) | with_reducible exact Or.inr rfl | skip)) | with_reducible exact Or.inr rfl
    | split

theorem only_capAbort {ps : List Part} {s s' : State} (t : Tab Word) (r : Nat) (hl : [.outbox, .queues, .rings, .descs, .caps, .sessions] ⊆ ps) (h : Only ps s s') :
    Only ps s (capAbort t r s') := by
  unfold capAbort
  try dsimp only
  repeat' first
    | with_reducible assumption | exact List.Subset.trans (by decide) hl | with_reducible apply only_modCap
    | with_reducible apply only_capEnd
    | (fail_if_no_progress ((with_reducible apply Only.mk_of) <;> first | exact Or.inl (hl (by decide)) | with_reducible exact Or.inr rfl | skip)) | with_reducible exact Or.inr rfl
    | split

theorem only_capsEpoch {ps : List Part} {s s' : State} (old : Tab Word) (hl : [.outbox, .queues, .rings, .descs, .caps, .sessions] ⊆ ps) (h : Only ps s s') :
    Only ps s (capsEpoch old s') := by
  unfold capsEpoch
  try dsimp only
  repeat' first
    | with_reducible assumption | exact List.Subset.trans (by decide) hl | with_reducible apply only_modCap
    | with_reducible apply only_capOwed | with_reducible apply only_capAbort
    | (with_reducible refine Only.foldl (fun t' a' h' => ?_) _ ?_ <;> (try dsimp only)) | with_reducible apply Only.ite
    | (fail_if_no_progress ((with_reducible apply Only.mk_of) <;> first | exact Or.inl (hl (by decide)) | with_reducible exact Or.inr rfl | skip)) | with_reducible exact Or.inr rfl
    | split

/-! ## Feature -/

theorem only_packet {ps : List Part} {s s' : State} (q : Nat) (l : List Cell) (hl : [.queues] ⊆ ps) (h : Only ps s s') :
    Only ps s (packet q l s') := by
  unfold packet
  repeat' first
    | with_reducible assumption | exact List.Subset.trans (by decide) hl | with_reducible apply only_enqueue
    | with_reducible apply Only.ite | split

theorem only_finishBlock {ps : List Part} {s s' : State} (b : Blk) (hl : [.queues, .features, .map] ⊆ ps) (h : Only ps s s') :
    Only ps s (finishBlock b s') := by
  unfold finishBlock
  try dsimp only
  repeat' first
    | with_reducible assumption | exact List.Subset.trans (by decide) hl | with_reducible apply only_mapFold
    | with_reducible apply only_packet | with_reducible apply Only.ite
    | (fail_if_no_progress ((with_reducible apply Only.mk_of) <;> first | exact Or.inl (hl (by decide)) | with_reducible exact Or.inr rfl | skip)) | with_reducible exact Or.inr rfl
    | split

theorem only_blockTurn {ps : List Part} {s t : State} (b : Blk) (hl : [.queues, .features, .map] ⊆ ps) (h : Only ps s t) : Only ps s (blockTurn b t).2 := by
  unfold blockTurn
  dsimp only
  repeat' first
    | with_reducible assumption | exact List.Subset.trans (by decide) hl | with_reducible apply only_packet | with_reducible apply only_finishBlock | with_reducible apply Only.ite | split

theorem only_blockTurn_eq {ps : List Part} {s t u : State} {b : Blk} {o : Option Blk} (e : blockTurn b t = (o, u)) (hl : [.queues, .features, .map] ⊆ ps) (h : Only ps s t) : Only ps s u := by
  have k := only_blockTurn b hl h
  rwa [e] at k

theorem only_workBlocks {ps : List Part} {s s' : State} (sel : Blk → Bool) (post : Blk → Blk) (hl : [.queues, .features, .map] ⊆ ps) (h : Only ps s s') :
    Only ps s (workBlocks sel post s') := by
  unfold workBlocks
  try dsimp only
  repeat' first
    | with_reducible assumption | exact List.Subset.trans (by decide) hl | with_reducible apply only_blockTurn
    | with_reducible refine only_blockTurn_eq (by assumption) ?_ ?_
    | (with_reducible refine Only.foldl (fun t' a' h' => ?_) _ ?_ <;> (try dsimp only)) | with_reducible apply Only.ite
    | (fail_if_no_progress ((with_reducible apply Only.mk_of) <;> first | exact Or.inl (hl (by decide)) | with_reducible exact Or.inr rfl | skip)) | with_reducible exact Or.inr rfl
    | split

theorem only_deferTick {ps : List Part} {s s' : State} (hl : [.features, .caps] ⊆ ps) (h : Only ps s s') :
    Only ps s (deferTick s') := by
  unfold deferTick
  try dsimp only
  repeat' first
    | with_reducible assumption | exact List.Subset.trans (by decide) hl | with_reducible apply Only.ite
    | (fail_if_no_progress ((with_reducible apply Only.mk_of) <;> first | exact Or.inl (hl (by decide)) | with_reducible exact Or.inr rfl | skip)) | with_reducible exact Or.inr rfl
    | split

theorem only_writeDeferred {ps : List Part} {s s' : State} (n : Nat) (hl : [.caps] ⊆ ps) (h : Only ps s s') :
    Only ps s (writeDeferred n s') := by
  unfold writeDeferred
  try dsimp only
  repeat' first
    | with_reducible assumption | exact List.Subset.trans (by decide) hl
    | (fail_if_no_progress ((with_reducible apply Only.mk_of) <;> first | exact Or.inl (hl (by decide)) | with_reducible exact Or.inr rfl | skip)) | with_reducible exact Or.inr rfl

theorem only_readDeferred {ps : List Part} {s s' : State} (n : Nat) (hl : [.outbox, .queues, .rings, .descs, .caps, .sessions] ⊆ ps) (h : Only ps s s') :
    Only ps s (readDeferred n s') := by
  unfold readDeferred
  try dsimp only
  repeat' first
    | with_reducible assumption | exact List.Subset.trans (by decide) hl | with_reducible apply only_modCap
    | with_reducible apply only_capReadout | (with_reducible refine Only.foldl (fun t' a' h' => ?_) _ ?_ <;> (try dsimp only))
    | with_reducible apply Only.ite
    | (fail_if_no_progress ((with_reducible apply Only.mk_of) <;> first | exact Or.inl (hl (by decide)) | with_reducible exact Or.inr rfl | skip)) | with_reducible exact Or.inr rfl
    | split

theorem only_runDeferred {ps : List Part} {s : State} (hl : [.outbox, .queues, .rings, .descs, .features, .map, .caps, .sessions] ⊆ ps) : ∀ (n : Nat) {t : State}, Only ps s t → Only ps s (runDeferred n t)
  | 0, _, h => h
  | n + 1, _, h => only_runDeferred hl n (only_readDeferred _ (List.Subset.trans (by decide) hl) (only_workBlocks _ _ (List.Subset.trans (by decide) hl)
      (only_writeDeferred _ (List.Subset.trans (by decide) hl) h)))

end Sys2Proof.Machine
end

