-- ==== Sys2Proof/Laws/Only3.lean ====
section
/-! SUPPORT. The frames of the operations of Downlink, UplinkU0, Rules, UplinkData. -/

set_option linter.unusedTactic false
set_option linter.unreachableTactic false

namespace Sys2Proof.Machine
open Sys2Proof

/-! ## Downlink -/

theorem only_supersede {ps : List Part} {s s' : State} (ch : Nat) (old : Option Carry) (hl : [.outbox, .rings, .descs, .sessions] ⊆ ps) (h : Only ps s s') :
    Only ps s (supersede ch old s') := by
  unfold supersede
  try dsimp only
  repeat' first
    | with_reducible assumption | exact List.Subset.trans (by decide) hl | with_reducible apply only_completeOpt | split

theorem only_queueOut {ps : List Part} {s s' : State} (ch : Nat) (v : Word) (did : Option Nat) (rule : Bool) (hl : [.fronds] ⊆ ps) (h : Only ps s s') :
    Only ps s (queueOut ch v did rule s') := by
  unfold queueOut
  try dsimp only
  repeat' first
    | with_reducible assumption | exact List.Subset.trans (by decide) hl | with_reducible apply only_modFrond
    | with_reducible apply Only.ite
    | (fail_if_no_progress ((with_reducible apply Only.mk_of) <;> first | exact Or.inl (hl (by decide)) | with_reducible exact Or.inr rfl | skip)) | with_reducible exact Or.inr rfl
    | split

theorem only_outsDue {ps : List Part} {s s' : State} (hl : [.fronds] ⊆ ps) (h : Only ps s s') :
    Only ps s (outsDue s') := by
  unfold outsDue
  try dsimp only
  repeat' first
    | with_reducible assumption | exact List.Subset.trans (by decide) hl
    | (with_reducible refine Only.foldl (fun t' a' h' => ?_) _ ?_ <;> (try dsimp only))
    | (fail_if_no_progress ((with_reducible apply Only.mk_of) <;> first | exact Or.inl (hl (by decide)) | with_reducible exact Or.inr rfl | skip)) | with_reducible exact Or.inr rfl

theorem only_downFrond {ps : List Part} {s s' : State} (ins : List Nat) (f : Nat) (hl : [.outbox, .rings, .descs, .fronds, .sessions] ⊆ ps) (h : Only ps s s') :
    Only ps s (downFrond ins s' f) := by
  unfold downFrond
  try dsimp only
  repeat' first
    | with_reducible assumption | exact List.Subset.trans (by decide) hl | with_reducible apply only_modFrond
    | with_reducible apply only_complete | with_reducible apply only_sendDown | with_reducible apply only_supersede
    | (with_reducible refine Only.foldl (fun t' a' h' => ?_) _ ?_ <;> (try dsimp only))
    | (fail_if_no_progress ((with_reducible apply Only.mk_of) <;> first | exact Or.inl (hl (by decide)) | with_reducible exact Or.inr rfl | skip)) | with_reducible exact Or.inr rfl
    | split

theorem only_takeTag {ps : List Part} {s t : State} (hl : [.resolution] ⊆ ps) (h : Only ps s t) : Only ps s (takeTag t).2 := by
  unfold takeTag
  dsimp only
  repeat' first
    | with_reducible assumption | exact List.Subset.trans (by decide) hl | (fail_if_no_progress ((with_reducible apply Only.mk_of) <;> first | exact Or.inl (hl (by decide)) | with_reducible exact Or.inr rfl | skip)) | with_reducible exact Or.inr rfl

theorem only_takeTag_eq {ps : List Part} {s t u : State} {x : Byte} (e : takeTag t = (x, u)) (hl : [.resolution] ⊆ ps) (h : Only ps s t) : Only ps s u := by
  have k := only_takeTag hl h
  rwa [e] at k

theorem only_startNoCfg {ps : List Part} {s s' : State} (f : Nat) (hl : [.resolution, .fronds] ⊆ ps) (h : Only ps s s') :
    Only ps s (startNoCfg s' f) := by
  unfold startNoCfg
  try dsimp only
  repeat' first
    | with_reducible assumption | exact List.Subset.trans (by decide) hl | with_reducible apply only_modFrond
    | with_reducible apply only_takeTag | with_reducible refine only_takeTag_eq (by assumption) ?_ ?_
    | with_reducible apply Only.ite
    | (fail_if_no_progress ((with_reducible apply Only.mk_of) <;> first | exact Or.inl (hl (by decide)) | with_reducible exact Or.inr rfl | skip)) | with_reducible exact Or.inr rfl
    | split

theorem only_commitEvent {ps : List Part} {s s' : State} (aborted : Bool) (p : Pending) (a b : Nat) (hl : [.queues] ⊆ ps) (h : Only ps s s') :
    Only ps s (commitEvent aborted p a b s') := by
  unfold commitEvent
  try dsimp only
  repeat' first
    | with_reducible assumption | exact List.Subset.trans (by decide) hl | with_reducible apply only_emit
    | with_reducible apply Only.ite
    | (fail_if_no_progress ((with_reducible apply Only.mk_of) <;> first | exact Or.inl (hl (by decide)) | with_reducible exact Or.inr rfl | skip)) | with_reducible exact Or.inr rfl
    | split

theorem only_frondApplyEvent {ps : List Part} {s s' : State} (f : Nat) (ep : Half) (hl : [.queues] ⊆ ps) (h : Only ps s s') :
    Only ps s (frondApplyEvent f ep s') := by
  unfold frondApplyEvent
  try dsimp only
  repeat' first
    | with_reducible assumption | exact List.Subset.trans (by decide) hl | with_reducible apply only_emit
    | (fail_if_no_progress ((with_reducible apply Only.mk_of) <;> first | exact Or.inl (hl (by decide)) | with_reducible exact Or.inr rfl | skip)) | with_reducible exact Or.inr rfl

theorem only_finishApplied {ps : List Part} {s s' : State} (p : Pending) (excl : List Nat) (hl : [.outbox, .queues, .rings, .descs, .pend, .fronds, .sessions] ⊆ ps) (h : Only ps s s') :
    Only ps s (finishApplied p excl s') := by
  unfold finishApplied
  try dsimp only
  repeat' first
    | with_reducible assumption | exact List.Subset.trans (by decide) hl | with_reducible apply only_outp
    | with_reducible apply only_modFrond | with_reducible apply only_complete | with_reducible apply only_commitEvent
    | (with_reducible refine Only.foldl (fun t' a' h' => ?_) _ ?_ <;> (try dsimp only)) | with_reducible apply Only.ite
    | (fail_if_no_progress ((with_reducible apply Only.mk_of) <;> first | exact Or.inl (hl (by decide)) | with_reducible exact Or.inr rfl | skip)) | with_reducible exact Or.inr rfl
    | split

theorem only_tryFinish {ps : List Part} {s s' : State} (force : Bool) (hl : [.outbox, .queues, .rings, .descs, .pend, .fronds, .sessions] ⊆ ps) (h : Only ps s s') :
    Only ps s (tryFinish force s') := by
  unfold tryFinish
  try dsimp only
  repeat' first
    | with_reducible assumption | exact List.Subset.trans (by decide) hl | with_reducible apply only_finishApplied
    | with_reducible apply Only.ite | split

theorem only_sendSuperframe {ps : List Part} {s s' : State} (ins : List Nat) (hl : [.outbox, .resolution, .queues, .rings, .descs, .pend, .fronds, .sessions] ⊆ ps) (h : Only ps s s') :
    Only ps s (sendSuperframe ins s') := by
  unfold sendSuperframe
  try dsimp only
  repeat' first
    | with_reducible assumption | exact List.Subset.trans (by decide) hl | with_reducible apply only_complete
    | with_reducible apply only_downFrond | with_reducible apply only_startNoCfg | with_reducible apply only_commitEvent
    | with_reducible apply only_tryFinish | (with_reducible refine Only.foldl (fun t' a' h' => ?_) _ ?_ <;> (try dsimp only))
    | (fail_if_no_progress ((with_reducible apply Only.mk_of) <;> first | exact Or.inl (hl (by decide)) | with_reducible exact Or.inr rfl | skip)) | with_reducible exact Or.inr rfl
    | split

/-! ## UplinkU0 -/

theorem causeCls_le (b : Nat) : causeCls b ≤ 3 := by
  unfold causeCls nthD
  match b with
  | 0 | 1 | 2 | 3 | 4 | 5 | 6 | 7 | 8 => decide
  | n + 9 => simp

theorem only_pathBad {ps : List Part} {s s' : State} (kind f b : Nat) (hl : [.outbox, .queues, .faults, .badPaths, .fronds] ⊆ ps) (h : Only ps s s') :
    Only ps s (pathBad kind f b s') := by
  unfold pathBad
  try dsimp only
  repeat' first
    | with_reducible assumption | exact List.Subset.trans (by decide) hl | with_reducible apply only_orderSafe
    | with_reducible refine only_raise_low (by decide) ?_ ?_
    | with_reducible refine only_raise_mid (by first | decide | exact causeCls_le _) ?_ ?_ | with_reducible apply only_raise
    | (with_reducible refine Only.foldl (fun t' a' h' => ?_) _ ?_ <;> (try dsimp only)) | with_reducible apply Only.ite
    | (fail_if_no_progress ((with_reducible apply Only.mk_of) <;> first | exact Or.inl (hl (by decide)) | with_reducible exact Or.inr rfl | skip)) | with_reducible exact Or.inr rfl
    | split

theorem only_countPath {ps : List Part} {s s' : State} (kind f b : Nat) (g : Nat → Nat) (hl : [.badPaths] ⊆ ps) (h : Only ps s s') :
    Only ps s (countPath kind f b g s') := by
  unfold countPath
  try dsimp only
  repeat' first
    | with_reducible assumption | exact List.Subset.trans (by decide) hl | with_reducible apply Only.ite
    | (fail_if_no_progress ((with_reducible apply Only.mk_of) <;> first | exact Or.inl (hl (by decide)) | with_reducible exact Or.inr rfl | skip)) | with_reducible exact Or.inr rfl
    | split

theorem only_pairCycle {ps : List Part} {s s' : State} (kind f b : Nat) (eq : Bool) (run : Nat) (hl : [.outbox, .queues, .faults, .badPaths, .fronds] ⊆ ps) (h : Only ps s s') :
    Only ps s (pairCycle kind f b eq run s') := by
  unfold pairCycle
  try dsimp only
  repeat' first
    | with_reducible assumption | exact List.Subset.trans (by decide) hl | with_reducible apply only_pathBad
    | with_reducible apply only_countPath | with_reducible apply Only.ite | split

theorem only_seePairs {ps : List Part} {s t : State} (kind f n w wn old : Nat) (runs : Tab Nat) (hl : [.outbox, .queues, .faults, .badPaths, .fronds] ⊆ ps) (h : Only ps s t) :
    Only ps s (seePairs kind f n w wn old runs t).2.2 := by
  have aux : ∀ (m : List Nat) (p : Nat × Tab Nat × State), Only ps s p.2.2 →
      Only ps s (m.foldl (fun (a : Nat × Tab Nat × State) b =>
        let eq := w.testBit b == wn.testBit b
        let s := pairCycle kind f b eq (tget 0 a.2.1 b) a.2.2
        (setBit a.1 b (if eq then old.testBit b else w.testBit b), tput a.2.1 b (if eq then tget 0 a.2.1 b + 1 else 0), s)) p).2.2 := by
    intro m
    induction m with
    | nil => exact fun _ k => k
    | cons c m ih => exact fun p k => ih _ (only_pairCycle kind f c _ _ (List.Subset.trans (by decide) hl) k)
  exact aux (List.range n) (0, runs, t) h

theorem only_measure {ps : List Part} {s t : State} (f : Nat) (linkB : Bool) (stamp echo : Nat) (hl : [.fronds] ⊆ ps) (h : Only ps s t) :
    Only ps s (measure f linkB stamp echo t).1 := by
  unfold measure
  dsimp only
  repeat' first
    | with_reducible assumption | exact List.Subset.trans (by decide) hl | with_reducible apply only_modLink | split

theorem only_takeOffset {ps : List Part} {s s' : State} (f : Nat) (o : Option Int) (hl : [.fronds] ⊆ ps) (h : Only ps s s') :
    Only ps s (takeOffset f o s') := by
  unfold takeOffset
  try dsimp only
  repeat' first
    | with_reducible assumption | exact List.Subset.trans (by decide) hl | with_reducible apply only_modFrond
    | (fail_if_no_progress ((with_reducible apply Only.mk_of) <;> first | exact Or.inl (hl (by decide)) | with_reducible exact Or.inr rfl | skip)) | with_reducible exact Or.inr rfl
    | split

theorem only_reportOuts {ps : List Part} {s s' : State} (f : Nat) (m : TickNo) (ctlMiss : Bool) (rej : Nat) (hl : [.outbox, .rings, .descs, .fronds, .chans, .sessions] ⊆ ps) (h : Only ps s s') :
    Only ps s (reportOuts f m ctlMiss rej s') := by
  unfold reportOuts
  try dsimp only
  repeat' first
    | with_reducible assumption | exact List.Subset.trans (by decide) hl | with_reducible apply only_modFrond
    | with_reducible apply only_completeOpt | (with_reducible refine Only.foldl (fun t' a' h' => ?_) _ ?_ <;> (try dsimp only))
    | with_reducible apply Only.ite
    | (fail_if_no_progress ((with_reducible apply Only.mk_of) <;> first | exact Or.inl (hl (by decide)) | with_reducible exact Or.inr rfl | skip)) | with_reducible exact Or.inr rfl
    | split

theorem only_clearDone {ps : List Part} {s s' : State} (did : Option Nat) (edge : Nat) (hl : [.outbox, .rings, .descs, .sessions] ⊆ ps) (h : Only ps s s') :
    Only ps s (clearDone did edge s') := by
  unfold clearDone
  try dsimp only
  repeat' first
    | with_reducible assumption | exact List.Subset.trans (by decide) hl | with_reducible apply only_modOut
    | with_reducible apply only_complete | with_reducible apply Only.ite
    | (fail_if_no_progress ((with_reducible apply Only.mk_of) <;> first | exact Or.inl (hl (by decide)) | with_reducible exact Or.inr rfl | skip)) | with_reducible exact Or.inr rfl
    | split

theorem only_reportClears {ps : List Part} {s s' : State} (f : Nat) (m : TickNo) (ctlMiss : Bool) (hl : [.outbox, .rings, .descs, .fronds, .sessions] ⊆ ps) (h : Only ps s s') :
    Only ps s (reportClears f m ctlMiss s') := by
  unfold reportClears
  try dsimp only
  repeat' first
    | with_reducible assumption | exact List.Subset.trans (by decide) hl | with_reducible apply only_modFrond
    | with_reducible apply only_clearDone | (with_reducible refine Only.foldl (fun t' a' h' => ?_) _ ?_ <;> (try dsimp only))
    | with_reducible apply Only.ite
    | (fail_if_no_progress ((with_reducible apply Only.mk_of) <;> first | exact Or.inl (hl (by decide)) | with_reducible exact Or.inr rfl | skip)) | with_reducible exact Or.inr rfl
    | split

theorem only_dropChannels {ps : List Part} {s s' : State} (f cp : Nat) (hl : [.queues, .faults] ⊆ ps) (h : Only ps s s') :
    Only ps s (dropChannels f cp s') := by
  unfold dropChannels
  try dsimp only
  repeat' first
    | with_reducible assumption | exact List.Subset.trans (by decide) hl | with_reducible apply only_clearSrc
    | (with_reducible refine Only.foldl (fun t' a' h' => ?_) _ ?_ <;> (try dsimp only)) | with_reducible apply Only.ite | split

theorem only_collectU0 {ps : List Part} {s s' : State} (f : Nat) (d : List Byte) (old : Report) (noCfgNew rejoin cleared : Bool) (hl : [.outbox, .queues, .faults, .badPaths, .fronds] ⊆ ps) (h : Only ps s s') :
    Only ps s (collectU0 f d old noCfgNew rejoin cleared s') := by
  unfold collectU0
  try dsimp only
  repeat' first
    | with_reducible assumption | exact List.Subset.trans (by decide) hl | with_reducible apply only_modFrond
    | with_reducible apply only_openShadow | with_reducible refine only_raise_low (by decide) ?_ ?_
    | with_reducible refine only_raise_mid (by first | decide | exact causeCls_le _) ?_ ?_ | with_reducible apply only_raise
    | with_reducible apply only_clearSrc | with_reducible apply only_seePairs | with_reducible apply only_dropChannels
    | (with_reducible refine Only.foldl (fun t' a' h' => ?_) _ ?_ <;> (try dsimp only)) | with_reducible apply Only.ite
    | (fail_if_no_progress ((with_reducible apply Only.mk_of) <;> first | exact Or.inl (hl (by decide)) | with_reducible exact Or.inr rfl | skip)) | with_reducible exact Or.inr rfl
    | split

theorem only_loseConfig {ps : List Part} {s s' : State} (f : Nat) (hl : [.fronds, .chans, .features, .map] ⊆ ps) (h : Only ps s s') :
    Only ps s (loseConfig f s') := by
  unfold loseConfig
  try dsimp only
  repeat' first
    | with_reducible assumption | exact List.Subset.trans (by decide) hl | with_reducible apply only_modFrond
    | with_reducible apply only_mapLater | with_reducible apply only_chanEpoch
    | (with_reducible refine Only.foldl (fun t' a' h' => ?_) _ ?_ <;> (try dsimp only))
    | (fail_if_no_progress ((with_reducible apply Only.mk_of) <;> first | exact Or.inl (hl (by decide)) | with_reducible exact Or.inr rfl | skip)) | with_reducible exact Or.inr rfl

theorem only_useEpochCtl {ps : List Part} {s s' : State} (f : Nat) (d : List Byte) (stamp : Nat) (hl : [.queues, .pend, .fronds, .chans, .features, .map] ⊆ ps) (h : Only ps s s') :
    Only ps s (useEpochCtl f d stamp s') := by
  unfold useEpochCtl
  try dsimp only
  repeat' first
    | with_reducible assumption | exact List.Subset.trans (by decide) hl | with_reducible apply only_modFrond
    | with_reducible apply only_mapLater | with_reducible apply only_chanEpoch | with_reducible apply only_frondApplyEvent
    | with_reducible apply only_loseConfig | (with_reducible refine Only.foldl (fun t' a' h' => ?_) _ ?_ <;> (try dsimp only))
    | with_reducible apply Only.ite
    | (fail_if_no_progress ((with_reducible apply Only.mk_of) <;> first | exact Or.inl (hl (by decide)) | with_reducible exact Or.inr rfl | skip)) | with_reducible exact Or.inr rfl
    | split

theorem only_useU0 {ps : List Part} {s s' : State} (f : Nat) (d : List Byte) (stamp : Nat) (hl : [.outbox, .queues, .rings, .descs, .faults, .badPaths, .pend, .fronds, .chans, .features, .map, .sessions] ⊆ ps) (h : Only ps s s') :
    Only ps s (useU0 f d stamp s') := by
  unfold useU0
  try dsimp only
  repeat' first
    | with_reducible assumption | exact List.Subset.trans (by decide) hl | with_reducible apply only_modFrond
    | with_reducible apply only_tryFinish | with_reducible apply only_reportOuts | with_reducible apply only_reportClears
    | with_reducible apply only_collectU0 | with_reducible apply only_useEpochCtl | with_reducible apply Only.ite
    | (fail_if_no_progress ((with_reducible apply Only.mk_of) <;> first | exact Or.inl (hl (by decide)) | with_reducible exact Or.inr rfl | skip)) | with_reducible exact Or.inr rfl
    | split

theorem only_linkDown {ps : List Part} {s s' : State} (f : Nat) (linkB : Bool) (t : TickNo) (hl : [.outbox, .queues, .faults, .fronds] ⊆ ps) (h : Only ps s s') :
    Only ps s (linkDown f linkB t s') := by
  unfold linkDown
  try dsimp only
  repeat' first
    | with_reducible assumption | exact List.Subset.trans (by decide) hl | with_reducible refine only_raise_low (by decide) ?_ ?_
    | with_reducible refine only_raise_mid (by first | decide | exact causeCls_le _) ?_ ?_ | with_reducible apply only_raise
    | with_reducible apply only_modLink
    | (fail_if_no_progress ((with_reducible apply Only.mk_of) <;> first | exact Or.inl (hl (by decide)) | with_reducible exact Or.inr rfl | skip)) | with_reducible exact Or.inr rfl

theorem only_rxUp {ps : List Part} {s s' : State} (f : Nat) (fr : Frame) (kind : Nat) (lenOk : Nat → Bool) (use : List Byte → State → State) (h_use : ∀ x0 {u : State}, Only ps s u → Only ps s (use x0 u)) (hl : [.outbox, .queues, .faults, .fronds] ⊆ ps) (h : Only ps s s') :
    Only ps s (rxUp f fr kind lenOk use s') := by
  unfold rxUp
  try dsimp only
  repeat' first
    | with_reducible assumption | exact List.Subset.trans (by decide) hl | with_reducible apply h_use
    | with_reducible apply only_modFrond | with_reducible apply only_modLink | with_reducible apply only_rejectFrame
    | with_reducible apply only_copyDiff | with_reducible apply Only.ite
    | (fail_if_no_progress ((with_reducible apply Only.mk_of) <;> first | exact Or.inl (hl (by decide)) | with_reducible exact Or.inr rfl | skip)) | with_reducible exact Or.inr rfl
    | split

theorem only_receiveU0 {ps : List Part} {s s' : State} (f : Nat) (fr : Frame) (hl : [.outbox, .queues, .rings, .descs, .faults, .badPaths, .pend, .fronds, .chans, .features, .map, .sessions] ⊆ ps) (h : Only ps s s') :
    Only ps s (receiveU0 f fr s') := by
  unfold receiveU0
  try dsimp only
  repeat' first
    | with_reducible assumption | exact List.Subset.trans (by decide) hl | with_reducible apply only_rejectFrame
    | with_reducible apply only_measure | with_reducible apply only_takeOffset | with_reducible apply only_useU0
    | with_reducible apply only_linkDown | with_reducible apply only_rxUp | with_reducible apply Only.ite | split
    | (intro _; intros; try dsimp only)

/-! ## Rules -/

theorem only_ruleAct {ps : List Part} {s s' : State} (t : Tab Word) (r : Nat) (x : RuleVals) (integ last : Bool) (c : RuleChg) (hl : [.queues, .fronds, .caps] ⊆ ps) (h : Only ps s s') :
    Only ps s (ruleAct t r x integ last c s') := by
  unfold ruleAct
  try dsimp only
  repeat' first
    | with_reducible assumption | exact List.Subset.trans (by decide) hl | with_reducible apply only_emit
    | with_reducible apply only_capTrigger | with_reducible refine only_capTrigger_eq (by assumption) ?_ ?_
    | with_reducible apply only_queueOut | with_reducible apply Only.ite | split

theorem only_ruleEval {ps : List Part} {s s' : State} (r : Nat) (hl : [.outbox, .queues, .faults, .fronds, .caps, .rules] ⊆ ps) (h : Only ps s s') :
    Only ps s (ruleEval s' r) := by
  unfold ruleEval
  try dsimp only
  repeat' first
    | with_reducible assumption | exact List.Subset.trans (by decide) hl | with_reducible apply only_integrity
    | with_reducible apply only_ruleAct | (with_reducible refine Only.foldl (fun t' a' h' => ?_) _ ?_ <;> (try dsimp only))
    | with_reducible apply Only.ite
    | (fail_if_no_progress ((with_reducible apply Only.mk_of) <;> first | exact Or.inl (hl (by decide)) | with_reducible exact Or.inr rfl | skip)) | with_reducible exact Or.inr rfl
    | split

theorem only_rulesEdge {ps : List Part} {s s' : State} (hl : [.outbox, .queues, .faults, .fronds, .features, .refs, .caps, .rules] ⊆ ps) (h : Only ps s s') : Only ps s (rulesEdge s') := by
  have k : Only ps s ((List.range 1024).foldl ruleEval { s' with rulEval := 0 }) := by
    refine Only.foldl (fun _ _ h => only_ruleEval _ (List.Subset.trans (by decide) hl) h) _ ?_
    repeat' first
    | with_reducible assumption | exact List.Subset.trans (by decide) hl | (fail_if_no_progress ((with_reducible apply Only.mk_of) <;> first | exact Or.inl (hl (by decide)) | with_reducible exact Or.inr rfl | skip)) | with_reducible exact Or.inr rfl
  unfold rulesEdge
  generalize List.foldl _ _ _ = u at k ⊢
  dsimp only
  ((with_reducible apply Only.mk_of) <;> first | exact Or.inl (hl (by decide)) | with_reducible exact Or.inr rfl | with_reducible exact k)

theorem only_rulesEpoch {ps : List Part} {s s' : State} (old : Tab Word) (hl : [.rules] ⊆ ps) (h : Only ps s s') :
    Only ps s (rulesEpoch old s') := by
  unfold rulesEpoch
  try dsimp only
  repeat' first
    | with_reducible assumption | exact List.Subset.trans (by decide) hl
    | (with_reducible refine Only.foldl (fun t' a' h' => ?_) _ ?_ <;> (try dsimp only)) | with_reducible apply Only.ite
    | (fail_if_no_progress ((with_reducible apply Only.mk_of) <;> first | exact Or.inl (hl (by decide)) | with_reducible exact Or.inr rfl | skip)) | with_reducible exact Or.inr rfl
    | split

theorem only_rulesBoundary {ps : List Part} {s s' : State} (hl : [.rules] ⊆ ps) (h : Only ps s s') :
    Only ps s (rulesBoundary s') := by
  unfold rulesBoundary
  try dsimp only
  repeat' first
    | with_reducible assumption | exact List.Subset.trans (by decide) hl
    | (fail_if_no_progress ((with_reducible apply Only.mk_of) <;> first | exact Or.inl (hl (by decide)) | with_reducible exact Or.inr rfl | skip)) | with_reducible exact Or.inr rfl

/-! ## UplinkData -/

theorem only_latchPeriod {ps : List Part} {s s' : State} (ch : Nat) (hl : [.queues, .chans] ⊆ ps) (h : Only ps s s') :
    Only ps s (latchPeriod ch s') := by
  unfold latchPeriod
  try dsimp only
  repeat' first
    | with_reducible assumption | exact List.Subset.trans (by decide) hl | with_reducible apply only_modCChan
    | with_reducible apply only_emit | with_reducible apply Only.ite
    | (fail_if_no_progress ((with_reducible apply Only.mk_of) <;> first | exact Or.inl (hl (by decide)) | with_reducible exact Or.inr rfl | skip)) | with_reducible exact Or.inr rfl
    | split

theorem only_takeDiag {ps : List Part} {s s' : State} (ch diag : Nat) (hl : [.outbox, .queues, .faults, .chans] ⊆ ps) (h : Only ps s s') :
    Only ps s (takeDiag ch diag s') := by
  unfold takeDiag
  try dsimp only
  repeat' first
    | with_reducible assumption | exact List.Subset.trans (by decide) hl | with_reducible apply only_modCChan
    | with_reducible refine only_raise_low (by decide) ?_ ?_
    | with_reducible refine only_raise_mid (by first | decide | exact causeCls_le _) ?_ ?_ | with_reducible apply only_raise
    | with_reducible apply only_clearSrc | (with_reducible refine Only.foldl (fun t' a' h' => ?_) _ ?_ <;> (try dsimp only))
    | with_reducible apply Only.ite
    | (fail_if_no_progress ((with_reducible apply Only.mk_of) <;> first | exact Or.inl (hl (by decide)) | with_reducible exact Or.inr rfl | skip)) | with_reducible exact Or.inr rfl
    | split

theorem only_fanOut {ps : List Part} {s s' : State} (ch : Nat) (l : List Smp) (hl : [.chans, .features] ⊆ ps) (h : Only ps s s') :
    Only ps s (fanOut ch l s') := by
  unfold fanOut
  try dsimp only
  repeat' first
    | with_reducible assumption | exact List.Subset.trans (by decide) hl | with_reducible apply only_modCChan
    | with_reducible apply only_stageSample | (with_reducible refine Only.foldl (fun t' a' h' => ?_) _ ?_ <;> (try dsimp only))
    | with_reducible apply Only.ite
    | (fail_if_no_progress ((with_reducible apply Only.mk_of) <;> first | exact Or.inl (hl (by decide)) | with_reducible exact Or.inr rfl | skip)) | with_reducible exact Or.inr rfl
    | split

theorem only_fiddleRecord {ps : List Part} {s s' : State} (ch : Nat) (d : PosData) (hl : [.queues] ⊆ ps) (h : Only ps s s') :
    Only ps s (fiddleRecord ch d s') := by
  unfold fiddleRecord
  try dsimp only
  repeat' first
    | with_reducible assumption | exact List.Subset.trans (by decide) hl | with_reducible apply only_emit
    | with_reducible apply Only.ite
    | (fail_if_no_progress ((with_reducible apply Only.mk_of) <;> first | exact Or.inl (hl (by decide)) | with_reducible exact Or.inr rfl | skip)) | with_reducible exact Or.inr rfl
    | split

theorem only_fiddleMissing {ps : List Part} {s s' : State} (ch : Nat) (hl : [.queues] ⊆ ps) (h : Only ps s s') :
    Only ps s (fiddleMissing ch s') := by
  unfold fiddleMissing
  try dsimp only
  repeat' first
    | with_reducible assumption | exact List.Subset.trans (by decide) hl | with_reducible apply only_emit
    | with_reducible apply Only.ite
    | (fail_if_no_progress ((with_reducible apply Only.mk_of) <;> first | exact Or.inl (hl (by decide)) | with_reducible exact Or.inr rfl | skip)) | with_reducible exact Or.inr rfl
    | split

theorem only_snapDone {ps : List Part} {s s' : State} (q : SnapReq) (hl : [.outbox, .rings, .descs, .snaps, .sessions] ⊆ ps) (h : Only ps s s') :
    Only ps s (snapDone q s') := by
  unfold snapDone
  try dsimp only
  repeat' first
    | with_reducible assumption | exact List.Subset.trans (by decide) hl | with_reducible apply only_outp
    | with_reducible apply only_complete | with_reducible apply Only.ite
    | (fail_if_no_progress ((with_reducible apply Only.mk_of) <;> first | exact Or.inl (hl (by decide)) | with_reducible exact Or.inr rfl | skip)) | with_reducible exact Or.inr rfl
    | split

theorem only_snapFrond {ps : List Part} {s s' : State} (f : Nat) (got : List (Nat × Nat)) (hl : [.outbox, .rings, .descs, .snaps, .sessions] ⊆ ps) (h : Only ps s s') :
    Only ps s (snapFrond f got s') := by
  unfold snapFrond
  try dsimp only
  repeat' first
    | with_reducible assumption | exact List.Subset.trans (by decide) hl | with_reducible apply only_snapDone
    | (with_reducible refine Only.foldl (fun t' a' h' => ?_) _ ?_ <;> (try dsimp only)) | with_reducible apply Only.ite
    | (fail_if_no_progress ((with_reducible apply Only.mk_of) <;> first | exact Or.inl (hl (by decide)) | with_reducible exact Or.inr rfl | skip)) | with_reducible exact Or.inr rfl
    | split

theorem only_snapRecord {ps : List Part} {s s' : State} (ch : Nat) (d : PosData) (ns : Bool) (hl : [.queues] ⊆ ps) (h : Only ps s s') :
    Only ps s (snapRecord ch d ns s') := by
  unfold snapRecord
  try dsimp only
  repeat' first
    | with_reducible assumption | exact List.Subset.trans (by decide) hl | with_reducible apply only_emit
    | with_reducible apply Only.ite | split

theorem only_chanTick {ps : List Part} {s s' : State} (ch : Nat) (d : PosData) (flags : List Nat) (hl : [.outbox, .queues, .faults, .chans, .features] ⊆ ps) (h : Only ps s s') :
    Only ps s (chanTick ch d flags s') := by
  unfold chanTick
  try dsimp only
  repeat' first
    | with_reducible assumption | exact List.Subset.trans (by decide) hl | with_reducible apply only_modCChan
    | with_reducible apply only_emit | with_reducible apply only_latchPeriod | with_reducible apply only_takeDiag
    | with_reducible apply only_fanOut | with_reducible apply only_fiddleRecord | with_reducible apply only_snapRecord
    | with_reducible apply Only.ite
    | (fail_if_no_progress ((with_reducible apply Only.mk_of) <;> first | exact Or.inl (hl (by decide)) | with_reducible exact Or.inr rfl | skip)) | with_reducible exact Or.inr rfl
    | split

theorem only_chanMissing {ps : List Part} {s s' : State} (ch : Nat) (hl : [.queues, .chans, .features] ⊆ ps) (h : Only ps s s') :
    Only ps s (chanMissing ch s') := by
  unfold chanMissing
  try dsimp only
  repeat' first
    | with_reducible assumption | exact List.Subset.trans (by decide) hl | with_reducible apply only_modCChan
    | with_reducible apply only_emit | with_reducible apply only_latchPeriod | with_reducible apply only_fanOut
    | with_reducible apply only_fiddleMissing | with_reducible apply Only.ite
    | (fail_if_no_progress ((with_reducible apply Only.mk_of) <;> first | exact Or.inl (hl (by decide)) | with_reducible exact Or.inr rfl | skip)) | with_reducible exact Or.inr rfl
    | split

theorem only_tickSummary {ps : List Part} {s s' : State} (hl : [.queues, .summary] ⊆ ps) (h : Only ps s s') :
    Only ps s (tickSummary s') := by
  unfold tickSummary
  try dsimp only
  repeat' first
    | with_reducible assumption | exact List.Subset.trans (by decide) hl | with_reducible apply only_emit
    | with_reducible apply Only.ite
    | (fail_if_no_progress ((with_reducible apply Only.mk_of) <;> first | exact Or.inl (hl (by decide)) | with_reducible exact Or.inr rfl | skip)) | with_reducible exact Or.inr rfl
    | split

theorem only_frondResolved {ps : List Part} {s s' : State} (f : Nat) (stamps : Nat → List Nat) (hl : [.queues, .fronds, .summary, .features, .caps] ⊆ ps) (h : Only ps s s') :
    Only ps s (frondResolved f stamps s') := by
  unfold frondResolved
  try dsimp only
  repeat' first
    | with_reducible assumption | exact List.Subset.trans (by decide) hl | with_reducible apply only_modFrond
    | with_reducible apply only_angleTick | with_reducible apply only_capFrames | with_reducible apply only_capStampTick
    | with_reducible apply only_tickSummary | (with_reducible refine Only.foldl (fun t' a' h' => ?_) _ ?_ <;> (try dsimp only))
    | with_reducible apply Only.ite
    | (fail_if_no_progress ((with_reducible apply Only.mk_of) <;> first | exact Or.inl (hl (by decide)) | with_reducible exact Or.inr rfl | skip)) | with_reducible exact Or.inr rfl
    | split

theorem only_frondComplete {ps : List Part} {s s' : State} (f : Nat) (hl : [.outbox, .queues, .rings, .descs, .faults, .fronds, .chans, .snaps, .summary, .features, .refs, .caps, .sessions] ⊆ ps) (h : Only ps s s') :
    Only ps s (frondComplete f s') := by
  unfold frondComplete
  try dsimp only
  repeat' first
    | with_reducible assumption | exact List.Subset.trans (by decide) hl | with_reducible apply only_modFrond
    | with_reducible apply only_trackFrond | with_reducible apply only_snapFrond | with_reducible apply only_chanTick
    | with_reducible apply only_frondResolved | (with_reducible refine Only.foldl (fun t' a' h' => ?_) _ ?_ <;> (try dsimp only))
    | with_reducible apply Only.ite
    | (fail_if_no_progress ((with_reducible apply Only.mk_of) <;> first | exact Or.inl (hl (by decide)) | with_reducible exact Or.inr rfl | skip)) | with_reducible exact Or.inr rfl
    | split

theorem only_frondMissing {ps : List Part} {s s' : State} (f : Nat) (hl : [.outbox, .queues, .rings, .descs, .faults, .fronds, .chans, .snaps, .summary, .features, .refs, .caps, .sessions] ⊆ ps) (h : Only ps s s') :
    Only ps s (frondMissing f s') := by
  unfold frondMissing
  try dsimp only
  repeat' first
    | with_reducible assumption | exact List.Subset.trans (by decide) hl | with_reducible apply only_modFrond
    | with_reducible apply only_trackFrond | with_reducible apply only_snapFrond | with_reducible apply only_chanMissing
    | with_reducible apply only_frondResolved | (with_reducible refine Only.foldl (fun t' a' h' => ?_) _ ?_ <;> (try dsimp only))
    | (fail_if_no_progress ((with_reducible apply Only.mk_of) <;> first | exact Or.inl (hl (by decide)) | with_reducible exact Or.inr rfl | skip)) | with_reducible exact Or.inr rfl

theorem only_tryComplete {ps : List Part} {s s' : State} (f : Nat) (hl : [.outbox, .queues, .rings, .descs, .faults, .fronds, .chans, .snaps, .summary, .features, .refs, .caps, .sessions] ⊆ ps) (h : Only ps s s') :
    Only ps s (tryComplete f s') := by
  unfold tryComplete
  try dsimp only
  repeat' first
    | with_reducible assumption | exact List.Subset.trans (by decide) hl | with_reducible apply only_frondComplete
    | with_reducible apply Only.ite | split

theorem only_takeUplink {ps : List Part} {s s' : State} (f kind : Nat) (fr : Frame) (flags : List Nat) (hl : [.outbox, .queues, .rings, .descs, .faults, .fronds, .chans, .snaps, .summary, .features, .refs, .caps, .sessions] ⊆ ps) (h : Only ps s s') :
    Only ps s (takeUplink f kind fr flags s') := by
  unfold takeUplink
  try dsimp only
  repeat' first
    | with_reducible assumption | exact List.Subset.trans (by decide) hl | with_reducible apply only_modFrond
    | with_reducible apply only_rxUp | with_reducible apply only_tryComplete | with_reducible apply Only.ite
    | (fail_if_no_progress ((with_reducible apply Only.mk_of) <;> first | exact Or.inl (hl (by decide)) | with_reducible exact Or.inr rfl | skip)) | with_reducible exact Or.inr rfl
    | split | (intro _; intros; try dsimp only)

end Sys2Proof.Machine
end

