-- ==== Sys2Proof/Laws/Only4.lean ====
section
/-! SUPPORT. The frames of the operations of SecOps, TimeOps, IpOps, NetOps, LspOps, Staging, RegRead, RegWrite, Deadlines, TickEdge, Delivery, FaultRows, TimeRows. -/

set_option linter.unusedTactic false
set_option linter.unreachableTactic false

namespace Sys2Proof.Machine
open Sys2Proof

/-! ## SecOps -/

theorem only_secBreak {ps : List Part} {s s' : State} (code : Nat) (hl : [.outbox, .queues, .faults, .security] ⊆ ps) (h : Only ps s s') :
    Only ps s (secBreak code s') := by
  unfold secBreak
  try dsimp only
  repeat' first
    | with_reducible assumption | exact List.Subset.trans (by decide) hl | with_reducible apply only_noteEvent
    | with_reducible apply Only.ite
    | (fail_if_no_progress ((with_reducible apply Only.mk_of) <;> first | exact Or.inl (hl (by decide)) | with_reducible exact Or.inr rfl | skip)) | with_reducible exact Or.inr rfl
    | split

theorem only_securityHalt {ps : List Part} {s s' : State} (cause alg : Nat) (hl : [.outbox, .halt, .queues, .faults, .fronds] ⊆ ps) (h : Only ps s s') :
    Only ps s (securityHalt cause alg s') := by
  unfold securityHalt
  repeat' first
    | with_reducible assumption | exact List.Subset.trans (by decide) hl | with_reducible refine only_raise_low (by decide) ?_ ?_
    | with_reducible refine only_raise_mid (by first | decide | exact causeCls_le _) ?_ ?_ | with_reducible apply only_raise

theorem only_authFailed {ps : List Part} {s s' : State} (kind op : Nat) (hl : [.outbox, .queues, .faults, .security] ⊆ ps) (h : Only ps s s') :
    Only ps s (authFailed kind op s') := by
  unfold authFailed
  try dsimp only
  repeat' first
    | with_reducible assumption | exact List.Subset.trans (by decide) hl | with_reducible apply only_noteEvent
    | with_reducible apply Only.ite
    | (fail_if_no_progress ((with_reducible apply Only.mk_of) <;> first | exact Or.inl (hl (by decide)) | with_reducible exact Or.inr rfl | skip)) | with_reducible exact Or.inr rfl
    | split

theorem only_authPassed {ps : List Part} {s s' : State} (hl : [.security] ⊆ ps) (h : Only ps s s') :
    Only ps s (authPassed s') := by
  unfold authPassed
  try dsimp only
  repeat' first
    | with_reducible assumption | exact List.Subset.trans (by decide) hl
    | (fail_if_no_progress ((with_reducible apply Only.mk_of) <;> first | exact Or.inl (hl (by decide)) | with_reducible exact Or.inr rfl | skip)) | with_reducible exact Or.inr rfl

theorem only_lifeCycleCheck {ps : List Part} {s s' : State} (copyBad otpBad : Bool) (hl : [.outbox, .halt, .queues, .faults, .fronds, .security] ⊆ ps) (h : Only ps s s') :
    Only ps s (lifeCycleCheck copyBad otpBad s') := by
  unfold lifeCycleCheck
  try dsimp only
  repeat' first
    | with_reducible assumption | exact List.Subset.trans (by decide) hl | with_reducible apply only_secBreak
    | with_reducible apply only_securityHalt | with_reducible apply Only.ite
    | (fail_if_no_progress ((with_reducible apply Only.mk_of) <;> first | exact Or.inl (hl (by decide)) | with_reducible exact Or.inr rfl | skip)) | with_reducible exact Or.inr rfl
    | split

/-! ## TimeOps -/

theorem only_timeEvent {ps : List Part} {s s' : State} (old : Nat) (hl : [.queues] ⊆ ps) (h : Only ps s s') :
    Only ps s (timeEvent old s') := by
  unfold timeEvent
  try dsimp only
  repeat' first
    | with_reducible assumption | exact List.Subset.trans (by decide) hl | with_reducible apply only_emit
    | (fail_if_no_progress ((with_reducible apply Only.mk_of) <;> first | exact Or.inl (hl (by decide)) | with_reducible exact Or.inr rfl | skip)) | with_reducible exact Or.inr rfl

theorem only_setTime {ps : List Part} {s s' : State} (n : Nat) (hl : [.outbox, .time, .queues, .faults] ⊆ ps) (h : Only ps s s') :
    Only ps s (setTime n s') := by
  unfold setTime
  try dsimp only
  repeat' first
    | with_reducible assumption | exact List.Subset.trans (by decide) hl | with_reducible refine only_raise_low (by decide) ?_ ?_
    | with_reducible refine only_raise_mid (by first | decide | exact causeCls_le _) ?_ ?_ | with_reducible apply only_raise
    | with_reducible apply only_clearSrc | with_reducible apply only_timeEvent | with_reducible apply Only.ite
    | (fail_if_no_progress ((with_reducible apply Only.mk_of) <;> first | exact Or.inl (hl (by decide)) | with_reducible exact Or.inr rfl | skip)) | with_reducible exact Or.inr rfl
    | split

theorem only_timeEdge {ps : List Part} {s s' : State} (net : Option Int) (hl : [.outbox, .time, .queues, .faults] ⊆ ps) (h : Only ps s s') :
    Only ps s (timeEdge net s') := by
  unfold timeEdge
  try dsimp only
  repeat' first
    | with_reducible assumption | exact List.Subset.trans (by decide) hl | with_reducible refine only_raise_low (by decide) ?_ ?_
    | with_reducible refine only_raise_mid (by first | decide | exact causeCls_le _) ?_ ?_ | with_reducible apply only_raise
    | with_reducible apply only_setTime | with_reducible apply Only.ite
    | (fail_if_no_progress ((with_reducible apply Only.mk_of) <;> first | exact Or.inl (hl (by decide)) | with_reducible exact Or.inr rfl | skip)) | with_reducible exact Or.inr rfl
    | split

theorem only_originEpoch {ps : List Part} {s s' : State} (old : Tab Word) (hl : [.staged, .cfg] ⊆ ps) (h : Only ps s s') :
    Only ps s (originEpoch old s') := by
  unfold originEpoch
  try dsimp only
  repeat' first
    | with_reducible assumption | exact List.Subset.trans (by decide) hl | with_reducible apply Only.ite
    | (fail_if_no_progress ((with_reducible apply Only.mk_of) <;> first | exact Or.inl (hl (by decide)) | with_reducible exact Or.inr rfl | skip)) | with_reducible exact Or.inr rfl
    | split

theorem only_sourceEpoch {ps : List Part} {s s' : State} (old : Tab Word) (hl : [.outbox, .time, .queues, .faults] ⊆ ps) (h : Only ps s s') :
    Only ps s (sourceEpoch old s') := by
  unfold sourceEpoch
  repeat' first
    | with_reducible assumption | exact List.Subset.trans (by decide) hl | with_reducible apply only_setTime
    | with_reducible apply Only.ite | split

theorem only_timeEpoch {ps : List Part} {s s' : State} (old : Tab Word) (hl : [.outbox, .time, .staged, .cfg, .queues, .faults] ⊆ ps) (h : Only ps s s') :
    Only ps s (timeEpoch old s') := by
  unfold timeEpoch
  repeat' first
    | with_reducible assumption | exact List.Subset.trans (by decide) hl | with_reducible apply only_originEpoch
    | with_reducible apply only_sourceEpoch

/-! ## NetOps -/

theorem only_modPort {ps : List Part} {s s' : State} (p : Nat) (g : Port → Port) (hl : [.ports] ⊆ ps) (h : Only ps s s') :
    Only ps s (modPort p g s') := by
  unfold modPort
  try dsimp only
  repeat' first
    | with_reducible assumption | exact List.Subset.trans (by decide) hl | with_reducible apply Only.ite
    | (fail_if_no_progress ((with_reducible apply Only.mk_of) <;> first | exact Or.inl (hl (by decide)) | with_reducible exact Or.inr rfl | skip)) | with_reducible exact Or.inr rfl
    | split

theorem only_macsecSrc {ps : List Part} {s s' : State} (hl : [.outbox, .queues, .faults] ⊆ ps) (h : Only ps s s') :
    Only ps s (macsecSrc s') := by
  unfold macsecSrc
  try dsimp only
  repeat' first
    | with_reducible assumption | exact List.Subset.trans (by decide) hl | with_reducible refine only_setSrc_low (by decide) ?_ ?_
    | with_reducible apply Only.ite | split

theorem only_takePn {ps : List Part} {s t : State} (p : Nat) (hl : [.outbox, .queues, .faults, .ports] ⊆ ps) (h : Only ps s t) : Only ps s (takePn p t).2 := by
  unfold takePn
  dsimp only
  repeat' first
    | with_reducible assumption | exact List.Subset.trans (by decide) hl | with_reducible apply only_macsecSrc | with_reducible apply only_modPort | split

theorem only_takePn_eq {ps : List Part} {s t u : State} {p : Nat} {o : Option Sa} (e : takePn p t = (o, u)) (hl : [.outbox, .queues, .faults, .ports] ⊆ ps) (h : Only ps s t) : Only ps s u := by
  have k := only_takePn p hl h
  rwa [e] at k

theorem only_txNow {ps : List Part} {s s' : State} (p : Nat) (o : NetTx) (hl : [.outbox, .queues, .faults, .ports] ⊆ ps) (h : Only ps s s') :
    Only ps s (txNow p o s') := by
  unfold txNow
  try dsimp only
  repeat' first
    | with_reducible assumption | exact List.Subset.trans (by decide) hl | with_reducible apply only_outp
    | with_reducible apply only_takePn | with_reducible refine only_takePn_eq (by assumption) ?_ ?_
    | with_reducible apply Only.ite | split

theorem only_sendPort {ps : List Part} {s s' : State} (p tc : Nat) (o : NetTx) (hl : [.outbox, .queues, .faults, .ports] ⊆ ps) (h : Only ps s s') :
    Only ps s (sendPort p tc o s') := by
  unfold sendPort
  try dsimp only
  repeat' first
    | with_reducible assumption | exact List.Subset.trans (by decide) hl | with_reducible apply only_modPort
    | with_reducible apply only_txNow | with_reducible apply Only.ite
    | (fail_if_no_progress ((with_reducible apply Only.mk_of) <;> first | exact Or.inl (hl (by decide)) | with_reducible exact Or.inr rfl | skip)) | with_reducible exact Or.inr rfl
    | split

theorem only_gateFlush {ps : List Part} {s s' : State} (p : Nat) (hl : [.outbox, .queues, .faults, .ports] ⊆ ps) (h : Only ps s s') :
    Only ps s (gateFlush p s') := by
  unfold gateFlush
  try dsimp only
  repeat' first
    | with_reducible assumption | exact List.Subset.trans (by decide) hl | with_reducible apply only_modPort
    | with_reducible apply only_sendPort | (with_reducible refine Only.foldl (fun t' a' h' => ?_) _ ?_ <;> (try dsimp only))
    | (fail_if_no_progress ((with_reducible apply Only.mk_of) <;> first | exact Or.inl (hl (by decide)) | with_reducible exact Or.inr rfl | skip)) | with_reducible exact Or.inr rfl

theorem only_gatesRestart {ps : List Part} {s s' : State} (hl : [.outbox, .queues, .faults, .ports] ⊆ ps) (h : Only ps s s') :
    Only ps s (gatesRestart s') := by
  unfold gatesRestart
  try dsimp only
  repeat' first
    | with_reducible assumption | exact List.Subset.trans (by decide) hl | with_reducible apply only_modPort
    | with_reducible apply only_gateFlush | (with_reducible refine Only.foldl (fun t' a' h' => ?_) _ ?_ <;> (try dsimp only))
    | (fail_if_no_progress ((with_reducible apply Only.mk_of) <;> first | exact Or.inl (hl (by decide)) | with_reducible exact Or.inr rfl | skip)) | with_reducible exact Or.inr rfl

theorem only_modPub {ps : List Part} {s s' : State} (i : Nat) (g : Pub → Pub) (hl : [.pubs] ⊆ ps) (h : Only ps s s') :
    Only ps s (modPub i g s') := by
  unfold modPub
  try dsimp only
  repeat' first
    | with_reducible assumption | exact List.Subset.trans (by decide) hl
    | (fail_if_no_progress ((with_reducible apply Only.mk_of) <;> first | exact Or.inl (hl (by decide)) | with_reducible exact Or.inr rfl | skip)) | with_reducible exact Or.inr rfl

theorem only_askFor {ps : List Part} {s s' : State} (i p : Nat) (hl : [.outbox, .queues, .faults, .ports] ⊆ ps) (h : Only ps s s') :
    Only ps s (askFor i p s') := by
  unfold askFor
  repeat' first
    | with_reducible assumption | exact List.Subset.trans (by decide) hl | with_reducible apply only_sendPort
    | with_reducible apply Only.ite | split

theorem only_sendGram {ps : List Part} {s s' : State} (i : Nat) (b : List Byte) (hl : [.outbox, .queues, .faults, .ports] ⊆ ps) (h : Only ps s s') :
    Only ps s (sendGram i b s') := by
  unfold sendGram
  try dsimp only
  repeat' first
    | with_reducible assumption | exact List.Subset.trans (by decide) hl | with_reducible apply only_sendPort
    | with_reducible apply only_askFor | (with_reducible refine Only.foldl (fun t' a' h' => ?_) _ ?_ <;> (try dsimp only))
    | with_reducible apply Only.ite | split

theorem only_closeOwn {ps : List Part} {s s' : State} (i : Nat) (hl : [.outbox, .queues, .faults, .ports, .pubs] ⊆ ps) (h : Only ps s s') :
    Only ps s (closeOwn i s') := by
  unfold closeOwn
  try dsimp only
  repeat' first
    | with_reducible assumption | exact List.Subset.trans (by decide) hl | with_reducible apply only_modPub
    | with_reducible apply only_sendGram | with_reducible apply Only.ite
    | (fail_if_no_progress ((with_reducible apply Only.mk_of) <;> first | exact Or.inl (hl (by decide)) | with_reducible exact Or.inr rfl | skip)) | with_reducible exact Or.inr rfl
    | split

theorem only_closeFwd {ps : List Part} {s s' : State} (i : Nat) (hl : [.outbox, .queues, .faults, .ports, .pubs] ⊆ ps) (h : Only ps s s') :
    Only ps s (closeFwd i s') := by
  unfold closeFwd
  try dsimp only
  repeat' first
    | with_reducible assumption | exact List.Subset.trans (by decide) hl | with_reducible apply only_modPub
    | with_reducible apply only_sendGram | with_reducible apply Only.ite
    | (fail_if_no_progress ((with_reducible apply Only.mk_of) <;> first | exact Or.inl (hl (by decide)) | with_reducible exact Or.inr rfl | skip)) | with_reducible exact Or.inr rfl
    | split

theorem only_closeGram {ps : List Part} {s s' : State} (i : Nat) (hl : [.outbox, .queues, .faults, .ports, .pubs] ⊆ ps) (h : Only ps s s') :
    Only ps s (closeGram i s') := by
  unfold closeGram
  repeat' first
    | with_reducible assumption | exact List.Subset.trans (by decide) hl | with_reducible apply only_closeOwn
    | with_reducible apply only_closeFwd

theorem only_publish {ps : List Part} {s s' : State} (i q : Nat) (c : Cell) (bad : Bad) (hl : [.outbox, .queues, .faults, .ports, .pubs] ⊆ ps) (h : Only ps s s') :
    Only ps s (publish i q c bad s') := by
  unfold publish
  try dsimp only
  repeat' first
    | with_reducible assumption | exact List.Subset.trans (by decide) hl | with_reducible apply only_modPub
    | with_reducible apply only_closeOwn | with_reducible apply Only.ite
    | (fail_if_no_progress ((with_reducible apply Only.mk_of) <;> first | exact Or.inl (hl (by decide)) | with_reducible exact Or.inr rfl | skip)) | with_reducible exact Or.inr rfl
    | split

theorem only_publishFwd {ps : List Part} {s s' : State} (i : Nat) (c : Cell) (bad : Bad) (hl : [.outbox, .queues, .faults, .ports, .pubs] ⊆ ps) (h : Only ps s s') :
    Only ps s (publishFwd i c bad s') := by
  unfold publishFwd
  try dsimp only
  repeat' first
    | with_reducible assumption | exact List.Subset.trans (by decide) hl | with_reducible apply only_modPub
    | with_reducible apply only_closeFwd | with_reducible apply Only.ite
    | (fail_if_no_progress ((with_reducible apply Only.mk_of) <;> first | exact Or.inl (hl (by decide)) | with_reducible exact Or.inr rfl | skip)) | with_reducible exact Or.inr rfl
    | split

theorem only_pubsEpoch {ps : List Part} {s s' : State} (old : Tab Word) (hl : [.pubs] ⊆ ps) (h : Only ps s s') :
    Only ps s (pubsEpoch old s') := by
  unfold pubsEpoch
  try dsimp only
  repeat' first
    | with_reducible assumption | exact List.Subset.trans (by decide) hl | with_reducible apply only_modPub
    | (with_reducible refine Only.foldl (fun t' a' h' => ?_) _ ?_ <;> (try dsimp only)) | with_reducible apply Only.ite
    | (fail_if_no_progress ((with_reducible apply Only.mk_of) <;> first | exact Or.inl (hl (by decide)) | with_reducible exact Or.inr rfl | skip)) | with_reducible exact Or.inr rfl
    | split

/-! ## LspOps -/

theorem only_lspSettle {ps : List Part} {s s' : State} (hl : [.queues] ⊆ ps) (h : Only ps s s') :
    Only ps s (lspSettle s') := by
  unfold lspSettle
  try dsimp only
  repeat' first
    | with_reducible assumption | exact List.Subset.trans (by decide) hl
    | (fail_if_no_progress ((with_reducible apply Only.mk_of) <;> first | exact Or.inl (hl (by decide)) | with_reducible exact Or.inr rfl | skip)) | with_reducible exact Or.inr rfl
    | split

theorem only_lspEpoch {ps : List Part} {s s' : State} (hl : [.queues, .lsp] ⊆ ps) (h : Only ps s s') :
    Only ps s (lspEpoch s') := by
  unfold lspEpoch
  try dsimp only
  repeat' first
    | with_reducible assumption | exact List.Subset.trans (by decide) hl | with_reducible apply only_lspSettle
    | (fail_if_no_progress ((with_reducible apply Only.mk_of) <;> first | exact Or.inl (hl (by decide)) | with_reducible exact Or.inr rfl | skip)) | with_reducible exact Or.inr rfl
    | split

/-! ## Staging -/

theorem only_stage {ps : List Part} {s s' : State} (ofs idx : Nat) (v m : Word) (hl : [.staged] ⊆ ps) (h : Only ps s s') :
    Only ps s (stage ofs idx v m s') := by
  unfold stage
  try dsimp only
  repeat' first
    | with_reducible assumption | exact List.Subset.trans (by decide) hl | with_reducible apply Only.ite
    | (fail_if_no_progress ((with_reducible apply Only.mk_of) <;> first | exact Or.inl (hl (by decide)) | with_reducible exact Or.inr rfl | skip)) | with_reducible exact Or.inr rfl
    | split

theorem only_stageAll {ps : List Part} {s s' : State} (l : List (Nat × Nat × Word)) (hl : [.staged] ⊆ ps) (h : Only ps s s') :
    Only ps s (stageAll l s') := by
  unfold stageAll
  try dsimp only
  repeat' first
    | with_reducible assumption | exact List.Subset.trans (by decide) hl | with_reducible apply only_stage
    | (with_reducible refine Only.foldl (fun t' a' h' => ?_) _ ?_ <;> (try dsimp only))

theorem only_basicWrite {ps : List Part} {s s' : State} (ofs idx : Nat) (v : Word) (hl : [.staged] ⊆ ps) (h : Only ps s s') :
    Only ps s (basicWrite ofs idx v s') := by
  unfold basicWrite
  repeat' first
    | with_reducible assumption | exact List.Subset.trans (by decide) hl | with_reducible apply only_stage
    | with_reducible apply only_stageAll | with_reducible apply Only.ite | split

/-! ## RegRead -/

theorem only_modPath {ps : List Part} {s s' : State} (p : Path) (g : PathRegs → PathRegs) (hl : [.paths] ⊆ ps) (h : Only ps s s') :
    Only ps s (modPath p g s') := by
  unfold modPath
  try dsimp only
  repeat' first
    | with_reducible assumption | exact List.Subset.trans (by decide) hl
    | (fail_if_no_progress ((with_reducible apply Only.mk_of) <;> first | exact Or.inl (hl (by decide)) | with_reducible exact Or.inr rfl | skip)) | with_reducible exact Or.inr rfl
    | split

/-! ## RegWrite -/

theorem only_markOfs {ps : List Part} {s s' : State} (ofs : Nat) (hl : [.sticky] ⊆ ps) (h : Only ps s s') :
    Only ps s (markOfs ofs s') := by
  unfold markOfs
  try dsimp only
  repeat' first
    | with_reducible assumption | exact List.Subset.trans (by decide) hl | with_reducible apply Only.ite
    | (fail_if_no_progress ((with_reducible apply Only.mk_of) <;> first | exact Or.inl (hl (by decide)) | with_reducible exact Or.inr rfl | skip)) | with_reducible exact Or.inr rfl
    | split

theorem only_lockWr {ps : List Part} {s s' : State} (ofs : Nat) (hl : [.sticky] ⊆ ps) (h : Only ps s s') :
    Only ps s (lockWr ofs s') := by
  unfold lockWr
  try dsimp only
  repeat' first
    | with_reducible assumption | exact List.Subset.trans (by decide) hl | with_reducible apply only_markOfs
    | (fail_if_no_progress ((with_reducible apply Only.mk_of) <;> first | exact Or.inl (hl (by decide)) | with_reducible exact Or.inr rfl | skip)) | with_reducible exact Or.inr rfl

theorem only_dropPairs {ps : List Part} {s s' : State} (bad : RwpPend → Bool) (hl : [.outbox, .pairs, .queues, .faults] ⊆ ps) (h : Only ps s s') :
    Only ps s (dropPairs bad s') := by
  unfold dropPairs
  try dsimp only
  repeat' first
    | with_reducible assumption | exact List.Subset.trans (by decide) hl | with_reducible apply only_integrity
    | (with_reducible refine Only.foldl (fun t' a' h' => ?_) _ ?_ <;> (try dsimp only))
    | (fail_if_no_progress ((with_reducible apply Only.mk_of) <;> first | exact Or.inl (hl (by decide)) | with_reducible exact Or.inr rfl | skip)) | with_reducible exact Or.inr rfl

theorem only_stageWrite {ps : List Part} {s s' : State} (r : PathRegs) (ofs : Nat) (v : Word) (hl : [.staged, .sticky] ⊆ ps) (h : Only ps s s') :
    Only ps s (stageWrite r ofs v s') := by
  unfold stageWrite
  try dsimp only
  repeat' first
    | with_reducible assumption | exact List.Subset.trans (by decide) hl | with_reducible apply only_stage
    | with_reducible apply only_basicWrite | with_reducible apply only_lockWr
    | (with_reducible refine Only.foldl (fun t' a' h' => ?_) _ ?_ <;> (try dsimp only)) | with_reducible apply Only.ite | split

theorem only_rwpValue {ps : List Part} {s s' : State} (p : Path) (ofs : Nat) (v : Word) (hl : [.outbox, .pairs, .sticky, .queues, .faults] ⊆ ps) (h : Only ps s s') :
    Only ps s (rwpValue p ofs v s') := by
  unfold rwpValue
  try dsimp only
  repeat' first
    | with_reducible assumption | exact List.Subset.trans (by decide) hl | with_reducible apply only_lockWr
    | with_reducible apply only_dropPairs | with_reducible apply Only.ite
    | (fail_if_no_progress ((with_reducible apply Only.mk_of) <;> first | exact Or.inl (hl (by decide)) | with_reducible exact Or.inr rfl | skip)) | with_reducible exact Or.inr rfl
    | split

theorem only_rwpComplement {ps : List Part} {s s' : State} (p : Path) (ofs : Nat) (v : Word) (hl : [.outbox, .staged, .pairs, .sticky, .queues, .faults] ⊆ ps) (h : Only ps s s') :
    Only ps s (rwpComplement p ofs v s') := by
  unfold rwpComplement
  try dsimp only
  repeat' first
    | with_reducible assumption | exact List.Subset.trans (by decide) hl | with_reducible apply only_integrity
    | with_reducible apply only_stage | with_reducible apply only_markOfs | with_reducible apply only_lockWr
    | with_reducible apply only_dropPairs | (with_reducible refine Only.foldl (fun t' a' h' => ?_) _ ?_ <;> (try dsimp only))
    | with_reducible apply Only.ite
    | (fail_if_no_progress ((with_reducible apply Only.mk_of) <;> first | exact Or.inl (hl (by decide)) | with_reducible exact Or.inr rfl | skip)) | with_reducible exact Or.inr rfl
    | split

theorem only_put64 {ps : List Part} {s s' : State} (ofs : Nat) (lo hi : Word) (hl : [.staged, .rings, .host] ⊆ ps) (h : Only ps s s') :
    Only ps s (put64 ofs lo hi s') := by
  unfold put64
  try dsimp only
  repeat' first
    | with_reducible assumption | exact List.Subset.trans (by decide) hl | with_reducible apply only_modRing
    | with_reducible apply only_stage | with_reducible apply Only.ite
    | (fail_if_no_progress ((with_reducible apply Only.mk_of) <;> first | exact Or.inl (hl (by decide)) | with_reducible exact Or.inr rfl | skip)) | with_reducible exact Or.inr rfl
    | split

theorem only_lowWrite {ps : List Part} {s s' : State} (p : Path) (ofs : Nat) (v : Word) (hl : [.paths, .sticky] ⊆ ps) (h : Only ps s s') :
    Only ps s (lowWrite p ofs v s') := by
  unfold lowWrite
  try dsimp only
  repeat' first
    | with_reducible assumption | exact List.Subset.trans (by decide) hl | with_reducible apply only_modPath
    | with_reducible apply only_lockWr | with_reducible apply Only.ite
    | (fail_if_no_progress ((with_reducible apply Only.mk_of) <;> first | exact Or.inl (hl (by decide)) | with_reducible exact Or.inr rfl | skip)) | with_reducible exact Or.inr rfl
    | split

theorem only_highWrite {ps : List Part} {s s' : State} (p : Path) (ofs : Nat) (v : Word) (hl : [.staged, .paths, .sticky, .rings, .host] ⊆ ps) (h : Only ps s s') :
    Only ps s (highWrite p ofs v s') := by
  unfold highWrite
  try dsimp only
  repeat' first
    | with_reducible assumption | exact List.Subset.trans (by decide) hl | with_reducible apply only_modPath
    | with_reducible apply only_lockWr | with_reducible apply only_put64 | with_reducible apply Only.ite
    | (fail_if_no_progress ((with_reducible apply Only.mk_of) <;> first | exact Or.inl (hl (by decide)) | with_reducible exact Or.inr rfl | skip)) | with_reducible exact Or.inr rfl
    | split

theorem only_enableRing {ps : List Part} {s s' : State} (r log2 : Nat) (hl : [.rings, .alives, .host] ⊆ ps) (h : Only ps s s') :
    Only ps s (enableRing r log2 s') := by
  unfold enableRing
  try dsimp only
  repeat' first
    | with_reducible assumption | exact List.Subset.trans (by decide) hl | with_reducible apply only_modRing
    | with_reducible apply Only.ite
    | (fail_if_no_progress ((with_reducible apply Only.mk_of) <;> first | exact Or.inl (hl (by decide)) | with_reducible exact Or.inr rfl | skip)) | with_reducible exact Or.inr rfl
    | split

theorem only_ringCfgWrite {ps : List Part} {s s' : State} (r ofs : Nat) (v : Word) (hl : [.staged, .sticky, .rings, .alives, .host] ⊆ ps) (h : Only ps s s') :
    Only ps s (ringCfgWrite r ofs v s') := by
  unfold ringCfgWrite
  try dsimp only
  repeat' first
    | with_reducible assumption | exact List.Subset.trans (by decide) hl | with_reducible apply only_modRing
    | with_reducible apply only_stage | with_reducible apply only_lockWr | with_reducible apply only_enableRing
    | with_reducible apply Only.ite
    | (fail_if_no_progress ((with_reducible apply Only.mk_of) <;> first | exact Or.inl (hl (by decide)) | with_reducible exact Or.inr rfl | skip)) | with_reducible exact Or.inr rfl
    | split

theorem only_cvuMod {ps : List Part} {s s' : State} (u : Nat) (g : Cvu → Cvu) (hl : [.cvu] ⊆ ps) (h : Only ps s s') :
    Only ps s (cvuMod u g s') := by
  unfold cvuMod
  try dsimp only
  repeat' first
    | with_reducible assumption | exact List.Subset.trans (by decide) hl | with_reducible apply Only.ite
    | (fail_if_no_progress ((with_reducible apply Only.mk_of) <;> first | exact Or.inl (hl (by decide)) | with_reducible exact Or.inr rfl | skip)) | with_reducible exact Or.inr rfl
    | split

theorem only_cvuWrite {ps : List Part} {s s' : State} (u o : Nat) (v : Word) (hl : [.cvu] ⊆ ps) (h : Only ps s s') :
    Only ps s (cvuWrite u o v s') := by
  unfold cvuWrite
  try dsimp only
  repeat' first
    | with_reducible assumption | exact List.Subset.trans (by decide) hl | with_reducible apply only_cvuMod
    | with_reducible apply Only.ite
    | (fail_if_no_progress ((with_reducible apply Only.mk_of) <;> first | exact Or.inl (hl (by decide)) | with_reducible exact Or.inr rfl | skip)) | with_reducible exact Or.inr rfl
    | split

theorem only_discard {ps : List Part} {s s' : State} (hl : [.staged] ⊆ ps) (h : Only ps s s') :
    Only ps s (discard s') := by
  unfold discard
  try dsimp only
  repeat' first
    | with_reducible assumption | exact List.Subset.trans (by decide) hl
    | (fail_if_no_progress ((with_reducible apply Only.mk_of) <;> first | exact Or.inl (hl (by decide)) | with_reducible exact Or.inr rfl | skip)) | with_reducible exact Or.inr rfl

theorem only_peekWrite {ps : List Part} {s s' : State} (p : Path) (v : Word) (hl : [.paths] ⊆ ps) (h : Only ps s s') :
    Only ps s (peekWrite p v s') := by
  unfold peekWrite
  try dsimp only
  repeat' first
    | with_reducible assumption | exact List.Subset.trans (by decide) hl | with_reducible apply only_modPath
    | (fail_if_no_progress ((with_reducible apply Only.mk_of) <;> first | exact Or.inl (hl (by decide)) | with_reducible exact Or.inr rfl | skip)) | with_reducible exact Or.inr rfl

theorem only_chnSelWrite {ps : List Part} {s s' : State} (p : Path) (v : Word) (hl : [.outbox, .paths, .pairs, .queues, .faults] ⊆ ps) (h : Only ps s s') :
    Only ps s (chnSelWrite p v s') := by
  unfold chnSelWrite
  try dsimp only
  repeat' first
    | with_reducible assumption | exact List.Subset.trans (by decide) hl | with_reducible apply only_modPath
    | with_reducible apply only_dropPairs
    | (fail_if_no_progress ((with_reducible apply Only.mk_of) <;> first | exact Or.inl (hl (by decide)) | with_reducible exact Or.inr rfl | skip)) | with_reducible exact Or.inr rfl

theorem only_dbgWrite {ps : List Part} {s s' : State} (v : Word) (hl : [.sticky, .security] ⊆ ps) (h : Only ps s s') :
    Only ps s (dbgWrite v s') := by
  unfold dbgWrite
  try dsimp only
  repeat' first
    | with_reducible assumption | exact List.Subset.trans (by decide) hl | with_reducible apply only_lockWr
    | with_reducible apply Only.ite
    | (fail_if_no_progress ((with_reducible apply Only.mk_of) <;> first | exact Or.inl (hl (by decide)) | with_reducible exact Or.inr rfl | skip)) | with_reducible exact Or.inr rfl
    | split

theorem only_clearSticky {ps : List Part} {s s' : State} (r : PathRegs) (ofs : Nat) (v : Word) (hw : Tab Word) (hl : [.chans] ⊆ ps) (h : Only ps s s') :
    Only ps s (clearSticky r ofs v hw s') := by
  unfold clearSticky
  try dsimp only
  repeat' first
    | with_reducible assumption | exact List.Subset.trans (by decide) hl | with_reducible apply only_modCChan
    | (with_reducible refine Only.foldl (fun t' a' h' => ?_) _ ?_ <;> (try dsimp only)) | with_reducible apply Only.ite
    | (fail_if_no_progress ((with_reducible apply Only.mk_of) <;> first | exact Or.inl (hl (by decide)) | with_reducible exact Or.inr rfl | skip)) | with_reducible exact Or.inr rfl
    | split

theorem only_idWrite {ps : List Part} {s s' : State} (p : Path) (ofs : Nat) (v : Word) (hl : [.staged, .paths, .scratch, .sticky] ⊆ ps) (h : Only ps s s') :
    Only ps s (idWrite p ofs v s') := by
  unfold idWrite
  try dsimp only
  repeat' first
    | with_reducible assumption | exact List.Subset.trans (by decide) hl | with_reducible apply only_modPath
    | with_reducible apply only_discard | with_reducible apply Only.ite
    | (fail_if_no_progress ((with_reducible apply Only.mk_of) <;> first | exact Or.inl (hl (by decide)) | with_reducible exact Or.inr rfl | skip)) | with_reducible exact Or.inr rfl
    | split

theorem only_dmaWrite {ps : List Part} {s s' : State} (ofs : Nat) (v : Word) (hl : [.staged, .sticky, .rings, .alives, .host, .doorbell] ⊆ ps) (h : Only ps s s') :
    Only ps s (dmaWrite ofs v s') := by
  unfold dmaWrite
  try dsimp only
  repeat' first
    | with_reducible assumption | exact List.Subset.trans (by decide) hl | with_reducible apply only_modRing
    | with_reducible apply only_stage | with_reducible apply only_lockWr | with_reducible apply only_ringCfgWrite
    | with_reducible apply Only.ite
    | (fail_if_no_progress ((with_reducible apply Only.mk_of) <;> first | exact Or.inl (hl (by decide)) | with_reducible exact Or.inr rfl | skip)) | with_reducible exact Or.inr rfl
    | split

theorem only_regWrite {ps : List Part} {s s' : State} (p : Path) (ofs : Nat) (v : Word) (hl : [.outbox, .staged, .paths, .pairs, .scratch, .sticky, .queues, .rings, .alives, .host, .doorbell, .cvu, .faults, .chans, .security] ⊆ ps) (h : Only ps s s') :
    Only ps s (regWrite p ofs v s') := by
  unfold regWrite
  try dsimp only
  repeat' first
    | with_reducible assumption | exact List.Subset.trans (by decide) hl | with_reducible apply only_modPath
    | with_reducible apply only_stageWrite | with_reducible apply only_rwpValue | with_reducible apply only_rwpComplement
    | with_reducible apply only_lowWrite | with_reducible apply only_highWrite | with_reducible apply only_cvuWrite
    | with_reducible apply only_peekWrite | with_reducible apply only_chnSelWrite | with_reducible apply only_dbgWrite
    | with_reducible apply only_clearSticky | with_reducible apply only_idWrite | with_reducible apply only_dmaWrite
    | with_reducible apply Only.ite
    | (fail_if_no_progress ((with_reducible apply Only.mk_of) <;> first | exact Or.inl (hl (by decide)) | with_reducible exact Or.inr rfl | skip)) | with_reducible exact Or.inr rfl
    | split

theorem only_busWrite {ps : List Part} {s s' : State} (p : Path) (ofs : Nat) (v : Word) (hl : [.outbox, .staged, .paths, .pairs, .scratch, .sticky, .queues, .rings, .alives, .host, .doorbell, .cvu, .faults, .chans, .security] ⊆ ps) (h : Only ps s s') :
    Only ps s (busWrite p ofs v s') := by
  unfold busWrite
  repeat' first
    | with_reducible assumption | exact List.Subset.trans (by decide) hl | with_reducible apply only_regWrite
    | with_reducible apply Only.ite | split

theorem only_doorbell {ps : List Part} {s s' : State} (ofs : Nat) (v : Word) (hl : [.outbox, .queues, .rings, .doorbell, .faults] ⊆ ps) (h : Only ps s s') :
    Only ps s (doorbell ofs v s') := by
  unfold doorbell
  try dsimp only
  repeat' first
    | with_reducible assumption | exact List.Subset.trans (by decide) hl | with_reducible apply only_modRing
    | with_reducible apply only_noteEvent | with_reducible apply Only.ite
    | (fail_if_no_progress ((with_reducible apply Only.mk_of) <;> first | exact Or.inl (hl (by decide)) | with_reducible exact Or.inr rfl | skip)) | with_reducible exact Or.inr rfl
    | split

/-! ## Deadlines -/

theorem only_cvuEnd {ps : List Part} {s s' : State} (o : Outstanding) (n status : Nat) (hl : [.outbox, .rings, .descs, .cvu, .sessions] ⊆ ps) (h : Only ps s s') :
    Only ps s (cvuEnd o n status s') := by
  unfold cvuEnd
  try dsimp only
  repeat' first
    | with_reducible assumption | exact List.Subset.trans (by decide) hl | with_reducible apply only_complete
    | (fail_if_no_progress ((with_reducible apply Only.mk_of) <;> first | exact Or.inl (hl (by decide)) | with_reducible exact Or.inr rfl | skip)) | with_reducible exact Or.inr rfl

theorem only_timeOut {ps : List Part} {s s' : State} (o : Outstanding) (n : Nat) (hl : [.outbox, .queues, .rings, .descs, .cvu, .sessions, .xfers] ⊆ ps) (h : Only ps s s') :
    Only ps s (timeOut o n s') := by
  unfold timeOut
  try dsimp only
  repeat' first
    | with_reducible assumption | exact List.Subset.trans (by decide) hl | with_reducible apply only_outp
    | with_reducible apply only_complete | with_reducible apply only_mapPull | with_reducible apply only_mapEnd
    | with_reducible apply only_cvuEnd | with_reducible apply Only.ite | split

theorem only_deadlinesEdge {ps : List Part} {s s' : State} (ends : List (Half × Nat)) (hl : [.outbox, .queues, .rings, .descs, .cvu, .sessions, .xfers] ⊆ ps) (h : Only ps s s') :
    Only ps s (deadlinesEdge ends s') := by
  unfold deadlinesEdge
  try dsimp only
  repeat' first
    | with_reducible assumption | exact List.Subset.trans (by decide) hl | with_reducible apply only_timeOut
    | (with_reducible refine Only.foldl (fun t' a' h' => ?_) _ ?_ <;> (try dsimp only)) | with_reducible apply Only.ite | split

/-! ## TickEdge -/

theorem only_mapCut {ps : List Part} {s s' : State} (read : Nat) (hl : [.outbox, .queues, .rings, .descs, .sessions, .xfers] ⊆ ps) (h : Only ps s s') :
    Only ps s (mapCut read s') := by
  unfold mapCut
  try dsimp only
  repeat' first
    | with_reducible assumption | exact List.Subset.trans (by decide) hl | with_reducible apply only_mapPull
    | with_reducible apply only_mapEnd | with_reducible apply Only.ite | split

theorem only_periodWork {ps : List Part} {s s' : State} (read : Nat) (hl : [.outbox, .queues, .rings, .descs, .faults, .fronds, .period, .refs, .map, .caps, .rules, .ports, .sessions, .xfers] ⊆ ps) (h : Only ps s s') :
    Only ps s (periodWork read s') := by
  unfold periodWork
  try dsimp only
  repeat' first
    | with_reducible assumption | exact List.Subset.trans (by decide) hl | with_reducible apply only_modFrond
    | with_reducible apply only_msi | with_reducible apply only_latchLost | with_reducible apply only_clearSrc
    | with_reducible apply only_mapBoundary | with_reducible apply only_rulesBoundary | with_reducible apply only_mapCut
    | (with_reducible refine Only.foldl (fun t' a' h' => ?_) _ ?_ <;> (try dsimp only))
    | (fail_if_no_progress ((with_reducible apply Only.mk_of) <;> first | exact Or.inl (hl (by decide)) | with_reducible exact Or.inr rfl | skip)) | with_reducible exact Or.inr rfl

theorem only_linkWindow {ps : List Part} {s s' : State} (f : Nat) (linkB : Bool) (hl : [.outbox, .queues, .faults, .fronds] ⊆ ps) (h : Only ps s s') :
    Only ps s (linkWindow f linkB s') := by
  unfold linkWindow
  try dsimp only
  repeat' first
    | with_reducible assumption | exact List.Subset.trans (by decide) hl | with_reducible apply only_modLink
    | with_reducible apply only_linkDown | with_reducible apply Only.ite
    | (fail_if_no_progress ((with_reducible apply Only.mk_of) <;> first | exact Or.inl (hl (by decide)) | with_reducible exact Or.inr rfl | skip)) | with_reducible exact Or.inr rfl
    | split

theorem only_frondWindow {ps : List Part} {s s' : State} (judge : Bool) (old : Option (Tab Word)) (f : Nat) (hl : [.outbox, .queues, .faults, .fronds] ⊆ ps) (h : Only ps s s') :
    Only ps s (frondWindow judge old s' f) := by
  unfold frondWindow
  try dsimp only
  repeat' first
    | with_reducible assumption | exact List.Subset.trans (by decide) hl | with_reducible apply only_modFrond
    | with_reducible apply only_linkWindow | with_reducible apply Only.ite
    | (fail_if_no_progress ((with_reducible apply Only.mk_of) <;> first | exact Or.inl (hl (by decide)) | with_reducible exact Or.inr rfl | skip)) | with_reducible exact Or.inr rfl
    | split

theorem only_alignJudge {ps : List Part} {s s' : State} (bad : List Nat) (hl : [.outbox, .queues, .faults, .fronds] ⊆ ps) (h : Only ps s s') :
    Only ps s (alignJudge bad s') := by
  unfold alignJudge
  try dsimp only
  repeat' first
    | with_reducible assumption | exact List.Subset.trans (by decide) hl | with_reducible apply only_modFrond
    | with_reducible refine only_raise_low (by decide) ?_ ?_
    | with_reducible refine only_raise_mid (by first | decide | exact causeCls_le _) ?_ ?_ | with_reducible apply only_raise
    | with_reducible apply only_clearSrc | (with_reducible refine Only.foldl (fun t' a' h' => ?_) _ ?_ <;> (try dsimp only))
    | with_reducible apply Only.ite
    | (fail_if_no_progress ((with_reducible apply Only.mk_of) <;> first | exact Or.inl (hl (by decide)) | with_reducible exact Or.inr rfl | skip)) | with_reducible exact Or.inr rfl
    | split

theorem only_takeConfig {ps : List Part} {s s' : State} (p : Pending) (hl : [.tick, .staged, .cfg] ⊆ ps) (h : Only ps s s') :
    Only ps s (takeConfig p s') := by
  unfold takeConfig
  try dsimp only
  repeat' first
    | with_reducible assumption | exact List.Subset.trans (by decide) hl
    | (with_reducible refine Only.foldl (fun t' a' h' => ?_) _ ?_ <;> (try dsimp only)) | with_reducible apply Only.ite
    | (fail_if_no_progress ((with_reducible apply Only.mk_of) <;> first | exact Or.inl (hl (by decide)) | with_reducible exact Or.inr rfl | skip)) | with_reducible exact Or.inr rfl
    | split

theorem only_excludeFronds {ps : List Part} {s s' : State} (excl : List Nat) (hl : [.fronds] ⊆ ps) (h : Only ps s s') :
    Only ps s (excludeFronds excl s') := by
  unfold excludeFronds
  try dsimp only
  repeat' first
    | with_reducible assumption | exact List.Subset.trans (by decide) hl | with_reducible apply only_modFrond
    | (with_reducible refine Only.foldl (fun t' a' h' => ?_) _ ?_ <;> (try dsimp only))
    | (fail_if_no_progress ((with_reducible apply Only.mk_of) <;> first | exact Or.inl (hl (by decide)) | with_reducible exact Or.inr rfl | skip)) | with_reducible exact Or.inr rfl

theorem only_partsEpoch {ps : List Part} {s s' : State} (old : Tab Word) (hl : [.outbox, .staged, .queues, .rings, .descs, .lsp, .faults, .fronds, .chans, .features, .refs, .map, .caps, .rules, .pubs, .sessions] ⊆ ps) (h : Only ps s s') :
    Only ps s (partsEpoch old s') := by
  unfold partsEpoch
  try dsimp only
  repeat' first
    | with_reducible assumption | exact List.Subset.trans (by decide) hl | with_reducible apply only_trimAll
    | with_reducible apply only_clearSrc | with_reducible apply only_refsEpoch | with_reducible apply only_mapEpoch
    | with_reducible apply only_chanEpoch | with_reducible apply only_capsEpoch | with_reducible apply only_rulesEpoch
    | with_reducible apply only_pubsEpoch | with_reducible apply only_lspEpoch
    | (with_reducible refine Only.foldl (fun t' a' h' => ?_) _ ?_ <;> (try dsimp only))
    | (fail_if_no_progress ((with_reducible apply Only.mk_of) <;> first | exact Or.inl (hl (by decide)) | with_reducible exact Or.inr rfl | skip)) | with_reducible exact Or.inr rfl

theorem only_applyEpoch {ps : List Part} {s s' : State} (p : Pending) (excl : List Nat) (hl : [.outbox, .tick, .time, .staged, .cfg, .queues, .rings, .descs, .lsp, .faults, .fronds, .chans, .features, .refs, .map, .caps, .rules, .pubs, .sessions] ⊆ ps) (h : Only ps s s') :
    Only ps s (applyEpoch p excl s') := by
  unfold applyEpoch
  repeat' first
    | with_reducible assumption | exact List.Subset.trans (by decide) hl | with_reducible apply only_timeEpoch
    | with_reducible apply only_takeConfig | with_reducible apply only_excludeFronds | with_reducible apply only_partsEpoch

theorem only_tempEdge {ps : List Part} {s s' : State} (i : TickIn) (hl : [.queues, .faults, .measured] ⊆ ps) (h : Only ps s s') :
    Only ps s (tempEdge i s') := by
  unfold tempEdge
  try dsimp only
  repeat' first
    | with_reducible assumption | exact List.Subset.trans (by decide) hl | with_reducible apply only_clearSrc
    | with_reducible apply Only.ite
    | (fail_if_no_progress ((with_reducible apply Only.mk_of) <;> first | exact Or.inl (hl (by decide)) | with_reducible exact Or.inr rfl | skip)) | with_reducible exact Or.inr rfl
    | split

theorem only_checkInEdge {ps : List Part} {s s' : State} (hl : [.outbox, .checkIn, .queues, .faults] ⊆ ps) (h : Only ps s s') :
    Only ps s (checkInEdge s') := by
  unfold checkInEdge
  try dsimp only
  repeat' first
    | with_reducible assumption | exact List.Subset.trans (by decide) hl | with_reducible refine only_raise_low (by decide) ?_ ?_
    | with_reducible refine only_raise_mid (by first | decide | exact causeCls_le _) ?_ ?_ | with_reducible apply only_raise
    | with_reducible apply only_clearSrc | with_reducible apply Only.ite
    | (fail_if_no_progress ((with_reducible apply Only.mk_of) <;> first | exact Or.inl (hl (by decide)) | with_reducible exact Or.inr rfl | skip)) | with_reducible exact Or.inr rfl
    | split

theorem only_aliveEdge {ps : List Part} {s s' : State} (hl : [.pins] ⊆ ps) (h : Only ps s s') :
    Only ps s (aliveEdge s') := by
  unfold aliveEdge
  try dsimp only
  repeat' first
    | with_reducible assumption | exact List.Subset.trans (by decide) hl | with_reducible apply Only.ite
    | (fail_if_no_progress ((with_reducible apply Only.mk_of) <;> first | exact Or.inl (hl (by decide)) | with_reducible exact Or.inr rfl | skip)) | with_reducible exact Or.inr rfl
    | split

theorem only_fillers {ps : List Part} {s s' : State} (hl : [.queues] ⊆ ps) (h : Only ps s s') :
    Only ps s (fillers s') := by
  unfold fillers
  try dsimp only
  repeat' first
    | with_reducible assumption | exact List.Subset.trans (by decide) hl | with_reducible apply only_emit
    | with_reducible apply only_lspSettle | (with_reducible refine Only.foldl (fun t' a' h' => ?_) _ ?_ <;> (try dsimp only))
    | with_reducible apply Only.ite
    | (fail_if_no_progress ((with_reducible apply Only.mk_of) <;> first | exact Or.inl (hl (by decide)) | with_reducible exact Or.inr rfl | skip)) | with_reducible exact Or.inr rfl
    | split

theorem only_overrunEdge {ps : List Part} {s s' : State} (hl : [.outbox, .queues, .faults] ⊆ ps) (h : Only ps s s') :
    Only ps s (overrunEdge s') := by
  unfold overrunEdge
  repeat' first
    | with_reducible assumption | exact List.Subset.trans (by decide) hl | with_reducible refine only_raise_low (by decide) ?_ ?_
    | with_reducible refine only_raise_mid (by first | decide | exact causeCls_le _) ?_ ?_ | with_reducible apply only_raise
    | with_reducible apply only_clearSrc | with_reducible apply Only.ite | split

theorem only_pinsEdge {ps : List Part} {s s' : State} (reset boundary : Bool) (hl : [.pins] ⊆ ps) (h : Only ps s s') :
    Only ps s (pinsEdge reset boundary s') := by
  unfold pinsEdge
  try dsimp only
  repeat' first
    | with_reducible assumption | exact List.Subset.trans (by decide) hl | with_reducible apply Only.ite
    | (fail_if_no_progress ((with_reducible apply Only.mk_of) <;> first | exact Or.inl (hl (by decide)) | with_reducible exact Or.inr rfl | skip)) | with_reducible exact Or.inr rfl
    | split

theorem only_stickyEdge {ps : List Part} {s s' : State} (hl : [.chans] ⊆ ps) (h : Only ps s s') :
    Only ps s (stickyEdge s') := by
  unfold stickyEdge
  try dsimp only
  repeat' first
    | with_reducible assumption | exact List.Subset.trans (by decide) hl
    | (fail_if_no_progress ((with_reducible apply Only.mk_of) <;> first | exact Or.inl (hl (by decide)) | with_reducible exact Or.inr rfl | skip)) | with_reducible exact Or.inr rfl

theorem only_finishSync {ps : List Part} {s s' : State} (hl : [.outbox, .sync, .rings, .descs, .sessions] ⊆ ps) (h : Only ps s s') :
    Only ps s (finishSync s') := by
  unfold finishSync
  try dsimp only
  repeat' first
    | with_reducible assumption | exact List.Subset.trans (by decide) hl | with_reducible apply only_completeOpt
    | (with_reducible refine Only.foldl (fun t' a' h' => ?_) _ ?_ <;> (try dsimp only))
    | (fail_if_no_progress ((with_reducible apply Only.mk_of) <;> first | exact Or.inl (hl (by decide)) | with_reducible exact Or.inr rfl | skip)) | with_reducible exact Or.inr rfl

theorem only_syncEdge {ps : List Part} {s s' : State} (reset : Bool) (hl : [.outbox, .sync, .rings, .descs, .sessions] ⊆ ps) (h : Only ps s s') :
    Only ps s (syncEdge reset s') := by
  unfold syncEdge
  try dsimp only
  repeat' first
    | with_reducible assumption | exact List.Subset.trans (by decide) hl | with_reducible apply only_modOut
    | with_reducible apply only_finishSync | (with_reducible refine Only.foldl (fun t' a' h' => ?_) _ ?_ <;> (try dsimp only))
    | with_reducible apply Only.ite
    | (fail_if_no_progress ((with_reducible apply Only.mk_of) <;> first | exact Or.inl (hl (by decide)) | with_reducible exact Or.inr rfl | skip)) | with_reducible exact Or.inr rfl
    | split

theorem only_tickEnds {ps : List Part} {s s' : State} (hl : [.outbox, .queues, .rings, .descs, .faults, .fronds, .chans, .snaps, .summary, .features, .refs, .caps, .sessions] ⊆ ps) (h : Only ps s s') :
    Only ps s (tickEnds s') := by
  unfold tickEnds
  try dsimp only
  repeat' first
    | with_reducible assumption | exact List.Subset.trans (by decide) hl | with_reducible apply only_readyBlocks
    | with_reducible apply only_flushHeld | with_reducible apply only_deferTick | with_reducible apply only_frondMissing
    | (with_reducible refine Only.foldl (fun t' a' h' => ?_) _ ?_ <;> (try dsimp only)) | with_reducible apply Only.ite | split

theorem only_stepCounter {ps : List Part} {s s' : State} (hl : [.tick, .time, .age] ⊆ ps) (h : Only ps s s') :
    Only ps s (stepCounter s') := by
  unfold stepCounter
  try dsimp only
  repeat' first
    | with_reducible assumption | exact List.Subset.trans (by decide) hl | with_reducible apply Only.ite
    | (fail_if_no_progress ((with_reducible apply Only.mk_of) <;> first | exact Or.inl (hl (by decide)) | with_reducible exact Or.inr rfl | skip)) | with_reducible exact Or.inr rfl
    | split

theorem only_beforeEdge {ps : List Part} {s s' : State} (hl : [.outbox, .queues, .rings, .descs, .faults, .fronds, .period, .refs, .map, .caps, .rules, .ports, .sessions, .xfers] ⊆ ps) (h : Only ps s s') :
    Only ps s (beforeEdge s') := by
  unfold beforeEdge
  try dsimp only
  repeat' first
    | with_reducible assumption | exact List.Subset.trans (by decide) hl | with_reducible apply only_dropNotes
    | with_reducible apply only_periodWork | with_reducible apply Only.ite | split

theorem only_windowsEdge {ps : List Part} {s s' : State} (v : EdgeView) (hl : [.outbox, .queues, .faults, .fronds] ⊆ ps) (h : Only ps s s') :
    Only ps s (windowsEdge v s') := by
  unfold windowsEdge
  try dsimp only
  repeat' first
    | with_reducible assumption | exact List.Subset.trans (by decide) hl | with_reducible apply only_frondWindow
    | (with_reducible refine Only.foldl (fun t' a' h' => ?_) _ ?_ <;> (try dsimp only)) | with_reducible apply Only.ite
    | (fail_if_no_progress ((with_reducible apply Only.mk_of) <;> first | exact Or.inl (hl (by decide)) | with_reducible exact Or.inr rfl | skip)) | with_reducible exact Or.inr rfl
    | split

theorem only_epochEdge {ps : List Part} {s s' : State} (v : EdgeView) (hl : [.outbox, .tick, .time, .staged, .cfg, .queues, .rings, .descs, .lsp, .faults, .fronds, .chans, .features, .refs, .map, .caps, .rules, .pubs, .sessions] ⊆ ps) (h : Only ps s s') :
    Only ps s (epochEdge v s') := by
  unfold epochEdge
  repeat' first
    | with_reducible assumption | exact List.Subset.trans (by decide) hl | with_reducible apply only_applyEpoch | split

theorem only_takeBoundary {ps : List Part} {s s' : State} (hl : [.period] ⊆ ps) (h : Only ps s s') :
    Only ps s (takeBoundary s') := by
  unfold takeBoundary
  try dsimp only
  repeat' first
    | with_reducible assumption | exact List.Subset.trans (by decide) hl
    | (fail_if_no_progress ((with_reducible apply Only.mk_of) <;> first | exact Or.inl (hl (by decide)) | with_reducible exact Or.inr rfl | skip)) | with_reducible exact Or.inr rfl

theorem only_edgeJudge {ps : List Part} {s s' : State} (i : TickIn) (v : EdgeView) (bad : List Nat) (hl : [.outbox, .halt, .time, .sync, .queues, .rings, .descs, .faults, .fronds, .period, .features, .measured, .security, .sessions] ⊆ ps) (h : Only ps s s') :
    Only ps s (edgeJudge i v bad s') := by
  unfold edgeJudge
  try dsimp only
  repeat' first
    | with_reducible assumption | exact List.Subset.trans (by decide) hl | with_reducible apply only_judgeShadows
    | with_reducible apply only_phaseRestart | with_reducible apply only_lifeCycleCheck | with_reducible apply only_timeEdge
    | with_reducible apply only_alignJudge | with_reducible apply only_tempEdge | with_reducible apply only_overrunEdge
    | with_reducible apply only_syncEdge | with_reducible apply only_takeBoundary | with_reducible apply Only.ite | split

theorem only_startTick {ps : List Part} {s s' : State} (hl : [.chans, .features, .map, .caps] ⊆ ps) (h : Only ps s s') :
    Only ps s (startTick s') := by
  unfold startTick
  try dsimp only
  repeat' first
    | with_reducible assumption | exact List.Subset.trans (by decide) hl
    | (fail_if_no_progress ((with_reducible apply Only.mk_of) <;> first | exact Or.inl (hl (by decide)) | with_reducible exact Or.inr rfl | skip)) | with_reducible exact Or.inr rfl

theorem only_takeSummary {ps : List Part} {s s' : State} (v : EdgeView) (hl : [.summary] ⊆ ps) (h : Only ps s s') :
    Only ps s (takeSummary v s') := by
  unfold takeSummary
  try dsimp only
  repeat' first
    | with_reducible assumption | exact List.Subset.trans (by decide) hl
    | (fail_if_no_progress ((with_reducible apply Only.mk_of) <;> first | exact Or.inl (hl (by decide)) | with_reducible exact Or.inr rfl | skip)) | with_reducible exact Or.inr rfl

theorem only_tickVector {ps : List Part} {s s' : State} (hl : [.outbox] ⊆ ps) (h : Only ps s s') :
    Only ps s (tickVector s') := by
  unfold tickVector
  repeat' first
    | with_reducible assumption | exact List.Subset.trans (by decide) hl | with_reducible apply only_msi
    | with_reducible apply Only.ite | split

theorem only_edgeWork {ps : List Part} {s s' : State} (i : TickIn) (v : EdgeView) (bad : List Nat) (hl : [.outbox, .halt, .time, .checkIn, .pins, .sync, .queues, .rings, .descs, .faults, .fronds, .chans, .period, .summary, .features, .refs, .map, .caps, .rules, .measured, .security, .ports, .sessions] ⊆ ps) (h : Only ps s s') :
    Only ps s (edgeWork i v bad s') := by
  unfold edgeWork
  try dsimp only
  repeat' first
    | with_reducible assumption | exact List.Subset.trans (by decide) hl | with_reducible apply only_writeStatus
    | with_reducible apply only_outsDue | with_reducible apply only_rulesEdge | with_reducible apply only_gatesRestart
    | with_reducible apply only_checkInEdge | with_reducible apply only_aliveEdge | with_reducible apply only_fillers
    | with_reducible apply only_pinsEdge | with_reducible apply only_stickyEdge | with_reducible apply only_edgeJudge
    | with_reducible apply only_startTick | with_reducible apply only_takeSummary | with_reducible apply only_tickVector

theorem only_tickEdge {ps : List Part} {s s' : State} (i : TickIn) (hl : [.outbox, .halt, .tick, .time, .checkIn, .pins, .sync, .staged, .cfg, .queues, .rings, .descs, .cvu, .lsp, .faults, .fronds, .chans, .period, .snaps, .summary, .age, .features, .refs, .map, .caps, .rules, .measured, .security, .ports, .pubs, .sessions, .xfers] ⊆ ps) (h : Only ps s s') :
    Only ps s (tickEdge i s') := by
  unfold tickEdge
  try dsimp only
  repeat' first
    | with_reducible assumption | exact List.Subset.trans (by decide) hl | with_reducible apply only_slowRings
    | with_reducible apply only_deadlinesEdge | with_reducible apply only_tickEnds | with_reducible apply only_stepCounter
    | with_reducible apply only_beforeEdge | with_reducible apply only_windowsEdge | with_reducible apply only_epochEdge
    | with_reducible apply only_edgeWork

/-! ## Delivery -/

theorem only_cellGone {ps : List Part} {s s' : State} (q : Nat) (x : Queue) (bad : Bool) (hl : [.outbox, .queues, .faults] ⊆ ps) (h : Only ps s s') :
    Only ps s (cellGone q x bad s') := by
  unfold cellGone
  try dsimp only
  repeat' first
    | with_reducible assumption | exact List.Subset.trans (by decide) hl | with_reducible apply only_settle
    | with_reducible apply only_noteEvent | with_reducible apply Only.ite
    | (fail_if_no_progress ((with_reducible apply Only.mk_of) <;> first | exact Or.inl (hl (by decide)) | with_reducible exact Or.inr rfl | skip)) | with_reducible exact Or.inr rfl
    | split

theorem only_eventForward {ps : List Part} {s s' : State} (c : Cell) (bad : Bad) (hl : [.outbox, .queues, .rings, .faults, .ports, .pubs] ⊆ ps) (h : Only ps s s') :
    Only ps s (eventForward c bad s') := by
  unfold eventForward
  try dsimp only
  repeat' first
    | with_reducible assumption | exact List.Subset.trans (by decide) hl | with_reducible apply only_modRing
    | with_reducible apply only_publishFwd | (with_reducible refine Only.foldl (fun t' a' h' => ?_) _ ?_ <;> (try dsimp only))
    | with_reducible apply Only.ite
    | (fail_if_no_progress ((with_reducible apply Only.mk_of) <;> first | exact Or.inl (hl (by decide)) | with_reducible exact Or.inr rfl | skip)) | with_reducible exact Or.inr rfl
    | split

theorem only_haltStop {ps : List Part} {s s' : State} (hl : [.halt, .pins] ⊆ ps) (h : Only ps s s') :
    Only ps s (haltStop s') := by
  unfold haltStop
  try dsimp only
  repeat' first
    | with_reducible assumption | exact List.Subset.trans (by decide) hl
    | (fail_if_no_progress ((with_reducible apply Only.mk_of) <;> first | exact Or.inl (hl (by decide)) | with_reducible exact Or.inr rfl | skip)) | with_reducible exact Or.inr rfl

theorem only_drainCheck {ps : List Part} {s s' : State} (hl : [.halt, .pins] ⊆ ps) (h : Only ps s s') :
    Only ps s (drainCheck s') := by
  unfold drainCheck
  repeat' first
    | with_reducible assumption | exact List.Subset.trans (by decide) hl | with_reducible apply only_haltStop
    | with_reducible apply Only.ite | split

theorem only_deliverRing {ps : List Part} {s s' : State} (r q : Nat) (c : Cell) (bad : Bad) (hl : [.outbox, .rings] ⊆ ps) (h : Only ps s s') :
    Only ps s (deliverRing r q c bad s') := by
  unfold deliverRing
  try dsimp only
  repeat' first
    | with_reducible assumption | exact List.Subset.trans (by decide) hl | with_reducible apply only_modRing
    | with_reducible apply only_ringWrite
    | (fail_if_no_progress ((with_reducible apply Only.mk_of) <;> first | exact Or.inl (hl (by decide)) | with_reducible exact Or.inr rfl | skip)) | with_reducible exact Or.inr rfl

theorem only_lspStages {ps : List Part} {s s' : State} (hl : [.queues, .lsp] ⊆ ps) (h : Only ps s s') :
    Only ps s (lspStages s') := by
  unfold lspStages
  try dsimp only
  repeat' first
    | with_reducible assumption | exact List.Subset.trans (by decide) hl | with_reducible apply only_lspSettle
    | (fail_if_no_progress ((with_reducible apply Only.mk_of) <;> first | exact Or.inl (hl (by decide)) | with_reducible exact Or.inr rfl | skip)) | with_reducible exact Or.inr rfl

theorem only_flushNow {ps : List Part} {s s' : State} (q : Nat) (hl : [.outbox, .queues, .rings, .descs, .sessions] ⊆ ps) (h : Only ps s s') :
    Only ps s (flushNow q s') := by
  unfold flushNow
  try dsimp only
  repeat' first
    | with_reducible assumption | exact List.Subset.trans (by decide) hl | with_reducible apply only_flushQueue
    | with_reducible refine only_flushQueue_eq (by assumption) ?_ ?_ | with_reducible apply only_complete
    | with_reducible apply only_lspSettle | (with_reducible refine Only.foldl (fun t' a' h' => ?_) _ ?_ <;> (try dsimp only))
    | with_reducible apply Only.ite
    | (fail_if_no_progress ((with_reducible apply Only.mk_of) <;> first | exact Or.inl (hl (by decide)) | with_reducible exact Or.inr rfl | skip)) | with_reducible exact Or.inr rfl
    | split

/-! ## FaultRows -/

theorem only_lineFollows {ps : List Part} {s s' : State} (line : Nat) (act : Bool) (ctx : List Byte) (hl : [.outbox, .halt, .queues, .faults, .fronds] ⊆ ps) (h : Only ps s s') :
    Only ps s (lineFollows line act ctx s') := by
  unfold lineFollows
  try dsimp only
  repeat' first
    | with_reducible assumption | exact List.Subset.trans (by decide) hl | with_reducible refine only_raise_low (by decide) ?_ ?_
    | with_reducible refine only_raise_mid (by first | decide | exact causeCls_le _) ?_ ?_ | with_reducible apply only_raise
    | with_reducible apply only_clearSrc | with_reducible refine only_setSrc_low (by decide) ?_ ?_
    | (with_reducible refine Only.foldl (fun t' a' h' => ?_) _ ?_ <;> (try dsimp only)) | with_reducible apply Only.ite | split

/-! ## TimeRows -/

theorem only_snapFrondIn {ps : List Part} {s s' : State} (cycles : Nat) (f : Nat) (hl : [.outbox, .fronds] ⊆ ps) (h : Only ps s s') :
    Only ps s (snapFrondIn cycles s' f) := by
  unfold snapFrondIn
  try dsimp only
  repeat' first
    | with_reducible assumption | exact List.Subset.trans (by decide) hl | with_reducible apply only_modFrond
    | with_reducible apply only_sendOrder | with_reducible apply Only.ite
    | (fail_if_no_progress ((with_reducible apply Only.mk_of) <;> first | exact Or.inl (hl (by decide)) | with_reducible exact Or.inr rfl | skip)) | with_reducible exact Or.inr rfl
    | split

end Sys2Proof.Machine
end

