-- ==== Sys2Proof/Laws/Only5.lean ====
section
/-! SUPPORT. The frames of the operations of Endpoint, RegRows, DescOps, DescRows, CommitRow, SecRows, NetRows, PowerRows. -/

set_option linter.unusedTactic false
set_option linter.unreachableTactic false

namespace Sys2Proof.Machine
open Sys2Proof

/-! ## Endpoint -/

theorem only_msixWrite {ps : List Part} {s s' : State} (i : Nat) (v : Word) (hl : [.outbox, .host] ⊆ ps) (h : Only ps s s') :
    Only ps s (msixWrite i v s') := by
  unfold msixWrite
  try dsimp only
  repeat' first
    | with_reducible assumption | exact List.Subset.trans (by decide) hl | with_reducible apply only_msi
    | with_reducible apply Only.ite
    | (fail_if_no_progress ((with_reducible apply Only.mk_of) <;> first | exact Or.inl (hl (by decide)) | with_reducible exact Or.inr rfl | skip)) | with_reducible exact Or.inr rfl
    | split

theorem only_bar2Write {ps : List Part} {s s' : State} (ofs : Nat) (v : Word) (hl : [.outbox, .queues, .rings, .host, .doorbell, .faults] ⊆ ps) (h : Only ps s s') :
    Only ps s (bar2Write ofs v s') := by
  unfold bar2Write
  repeat' first
    | with_reducible assumption | exact List.Subset.trans (by decide) hl | with_reducible apply only_doorbell
    | with_reducible apply only_msixWrite | with_reducible apply Only.ite | split

theorem only_pciWrite {ps : List Part} {s s' : State} (ofs : Nat) (v : Word) (hl : [.rings, .descs, .host] ⊆ ps) (h : Only ps s s') :
    Only ps s (pciWrite ofs v s') := by
  unfold pciWrite
  try dsimp only
  repeat' first
    | with_reducible assumption | exact List.Subset.trans (by decide) hl | with_reducible apply only_busMaster
    | with_reducible apply Only.ite
    | (fail_if_no_progress ((with_reducible apply Only.mk_of) <;> first | exact Or.inl (hl (by decide)) | with_reducible exact Or.inr rfl | skip)) | with_reducible exact Or.inr rfl
    | split

/-! ## RegRows -/

theorem only_answer {ps : List Part} {s s' : State} (p : Path) (v : DWord) (hl : [.outbox] ⊆ ps) (h : Only ps s s') :
    Only ps s (answer p v s') := by
  unfold answer
  repeat' first
    | with_reducible assumption | exact List.Subset.trans (by decide) hl | with_reducible apply only_outp
    | with_reducible apply Only.ite | split

theorem only_unsupported {ps : List Part} {s s' : State} (p : Path) (hl : [.outbox] ⊆ ps) (h : Only ps s s') :
    Only ps s (unsupported p s') := by
  unfold unsupported
  repeat' first
    | with_reducible assumption | exact List.Subset.trans (by decide) hl | with_reducible apply only_outp
    | with_reducible apply Only.ite | split

theorem only_busSticky {ps : List Part} {s s' : State} (p : Path) (ofs : Nat) (v : Word) (hw : List (Nat × Word)) (hl : [.chans] ⊆ ps) (h : Only ps s s') :
    Only ps s (busSticky p ofs v hw s') := by
  unfold busSticky
  repeat' first
    | with_reducible assumption | exact List.Subset.trans (by decide) hl | with_reducible apply only_clearSticky
    | with_reducible apply Only.ite | split

theorem only_endpointWrite {ps : List Part} {s s' : State} (sp : Space) (p : Path) (ofs len : Nat) (v : DWord) (hl : [.outbox, .queues, .rings, .descs, .host, .doorbell, .faults] ⊆ ps) (h : Only ps s s') :
    Only ps s (endpointWrite sp p ofs len v s') := by
  unfold endpointWrite
  repeat' first
    | with_reducible assumption | exact List.Subset.trans (by decide) hl | with_reducible apply only_bar2Write
    | with_reducible apply only_pciWrite | with_reducible apply only_unsupported | with_reducible apply Only.ite | split

theorem only_endpointRead {ps : List Part} {s s' : State} (sp : Space) (p : Path) (ofs len : Nat) (hl : [.outbox] ⊆ ps) (h : Only ps s s') :
    Only ps s (endpointRead sp p ofs len s') := by
  unfold endpointRead
  repeat' first
    | with_reducible assumption | exact List.Subset.trans (by decide) hl | with_reducible apply only_answer
    | with_reducible apply only_unsupported | with_reducible apply Only.ite | split

/-! ## DescOps -/

theorem only_consumed {ps : List Part} {s s' : State} (hl : [.rings] ⊆ ps) (h : Only ps s s') :
    Only ps s (consumed s') := by
  unfold consumed
  try dsimp only
  repeat' first
    | with_reducible assumption | exact List.Subset.trans (by decide) hl | with_reducible apply only_modRing
    | (fail_if_no_progress ((with_reducible apply Only.mk_of) <;> first | exact Or.inl (hl (by decide)) | with_reducible exact Or.inr rfl | skip)) | with_reducible exact Or.inr rfl

theorem only_refuseDesc {ps : List Part} {s s' : State} (d : Desc) (status : Nat) (hl : [.outbox, .rings, .sessions] ⊆ ps) (h : Only ps s s') :
    Only ps s (refuseDesc d status s') := by
  unfold refuseDesc
  repeat' first
    | with_reducible assumption | exact List.Subset.trans (by decide) hl | with_reducible apply only_writeCpl
    | with_reducible apply only_consumed

theorem only_crcBad {ps : List Part} {s s' : State} (d : Desc) (hl : [.outbox, .queues, .rings, .faults, .sessions] ⊆ ps) (h : Only ps s s') :
    Only ps s (crcBad d s') := by
  unfold crcBad
  repeat' first
    | with_reducible assumption | exact List.Subset.trans (by decide) hl | with_reducible apply only_noteEvent
    | with_reducible apply only_refuseDesc

theorem only_acceptAlive {ps : List Part} {s s' : State} (d : Desc) (hl : [.alives] ⊆ ps) (h : Only ps s s') :
    Only ps s (acceptAlive d s') := by
  unfold acceptAlive
  try dsimp only
  repeat' first
    | with_reducible assumption | exact List.Subset.trans (by decide) hl
    | (fail_if_no_progress ((with_reducible apply Only.mk_of) <;> first | exact Or.inl (hl (by decide)) | with_reducible exact Or.inr rfl | skip)) | with_reducible exact Or.inr rfl

theorem only_startDesc {ps : List Part} {s s' : State} (d : Desc) (obj : Nat) (hl : [.rings, .descs] ⊆ ps) (h : Only ps s s') :
    Only ps s (startDesc d obj s') := by
  unfold startDesc
  try dsimp only
  repeat' first
    | with_reducible assumption | exact List.Subset.trans (by decide) hl | with_reducible apply only_consumed
    | (fail_if_no_progress ((with_reducible apply Only.mk_of) <;> first | exact Or.inl (hl (by decide)) | with_reducible exact Or.inr rfl | skip)) | with_reducible exact Or.inr rfl

theorem only_takeDesc {ps : List Part} {s s' : State} (form : DescForm) (d : Desc) (act : Nat → State → State) (h_act : ∀ x0 {u : State}, Only ps s u → Only ps s (act x0 u)) (hl : [.outbox, .queues, .rings, .alives, .descs, .faults, .sessions] ⊆ ps) (h : Only ps s s') :
    Only ps s (takeDesc form d act s') := by
  unfold takeDesc
  try dsimp only
  repeat' first
    | with_reducible assumption | exact List.Subset.trans (by decide) hl | with_reducible apply h_act
    | with_reducible apply only_refuseDesc | with_reducible apply only_crcBad | with_reducible apply only_acceptAlive
    | with_reducible apply only_startDesc | with_reducible apply Only.ite
    | (fail_if_no_progress ((with_reducible apply Only.mk_of) <;> first | exact Or.inl (hl (by decide)) | with_reducible exact Or.inr rfl | skip)) | with_reducible exact Or.inr rfl
    | split

theorem only_stageFree {ps : List Part} {s s' : State} (r : PathRegs) (ofs : Nat) (v : Word) (hl : [.staged] ⊆ ps) (h : Only ps s s') :
    Only ps s (stageFree r ofs v s') := by
  unfold stageFree
  try dsimp only
  repeat' first
    | with_reducible assumption | exact List.Subset.trans (by decide) hl | with_reducible apply only_stage
    | with_reducible apply only_basicWrite | (with_reducible refine Only.foldl (fun t' a' h' => ?_) _ ?_ <;> (try dsimp only))
    | with_reducible apply Only.ite | split

theorem only_dropPair {ps : List Part} {s s' : State} (c : CfgRun) (hl : [.outbox, .queues, .faults] ⊆ ps) (h : Only ps s s') :
    Only ps s (dropPair c s') := by
  unfold dropPair
  repeat' first
    | with_reducible assumption | exact List.Subset.trans (by decide) hl | with_reducible apply only_integrity | split

theorem only_cfgEntry {ps : List Part} {s : State} (a : CfgRun × State) (e : CfgEnt) (hl : [.outbox, .staged, .pairs, .sticky, .queues, .rings, .host, .faults] ⊆ ps) (h : Only ps s a.2) : Only ps s (cfgEntry a e).2 := by
  obtain ⟨c, t⟩ := a
  unfold cfgEntry
  dsimp only at *
  repeat' first
    | with_reducible assumption | exact List.Subset.trans (by decide) hl | with_reducible apply only_integrity | with_reducible apply only_dropPair | with_reducible apply only_stageFree | with_reducible apply only_markOfs | with_reducible apply only_dropPairs | with_reducible apply only_put64 | (fail_if_no_progress ((with_reducible apply Only.mk_of) <;> first | exact Or.inl (hl (by decide)) | with_reducible exact Or.inr rfl | skip)) | with_reducible exact Or.inr rfl | split

theorem only_cfgApply {ps : List Part} {s t : State} (m : List CfgEnt) (hl : [.outbox, .staged, .pairs, .sticky, .queues, .rings, .host, .faults] ⊆ ps) (h : Only ps s t) : Only ps s (cfgApply m t) := by
  have aux : ∀ (m : List CfgEnt) (p : CfgRun × State), Only ps s p.2 → Only ps s (m.foldl cfgEntry p).2 := by
    intro m
    induction m with
    | nil => exact fun _ k => k
    | cons c m ih => exact fun p k => ih _ (only_cfgEntry p c (List.Subset.trans (by decide) hl) k)
  unfold cfgApply
  exact only_dropPair _ (List.Subset.trans (by decide) hl) (aux m (_, t) h)

theorem only_stageRules {ps : List Part} {s s' : State} (b : List Byte) (o first count : Nat) (hl : [.staged] ⊆ ps) (h : Only ps s s') :
    Only ps s (stageRules b o first count s') := by
  unfold stageRules
  try dsimp only
  repeat' first
    | with_reducible assumption | exact List.Subset.trans (by decide) hl | with_reducible apply only_stage
    | (with_reducible refine Only.foldl (fun t' a' h' => ?_) _ ?_ <;> (try dsimp only))

theorem only_stageEdges {ps : List Part} {s s' : State} (b : List Byte) (o ref : Nat) (hl : [.staged] ⊆ ps) (h : Only ps s s') :
    Only ps s (stageEdges b o ref s') := by
  unfold stageEdges
  try dsimp only
  repeat' first
    | with_reducible assumption | exact List.Subset.trans (by decide) hl | with_reducible apply only_stage
    | (with_reducible refine Only.foldl (fun t' a' h' => ?_) _ ?_ <;> (try dsimp only))

/-! ## DescRows -/

theorem only_cfgAct {ps : List Part} {s s' : State} (d : Desc) (id : Nat) (hl : [.outbox, .staged, .pairs, .sticky, .queues, .rings, .descs, .host, .faults, .sessions] ⊆ ps) (h : Only ps s s') :
    Only ps s (cfgAct d id s') := by
  unfold cfgAct
  try dsimp only
  repeat' first
    | with_reducible assumption | exact List.Subset.trans (by decide) hl | with_reducible apply only_complete
    | with_reducible apply only_cfgApply | with_reducible apply Only.ite | split

theorem only_ruleLoadAct {ps : List Part} {s s' : State} (d : Desc) (id : Nat) (hl : [.outbox, .staged, .queues, .rings, .descs, .faults, .sessions] ⊆ ps) (h : Only ps s s') :
    Only ps s (ruleLoadAct d id s') := by
  unfold ruleLoadAct
  try dsimp only
  repeat' first
    | with_reducible assumption | exact List.Subset.trans (by decide) hl | with_reducible apply only_complete
    | with_reducible apply only_integrity | with_reducible apply only_stageRules | with_reducible apply Only.ite | split

theorem only_snapAct {ps : List Part} {s s' : State} (d : Desc) (cycles id : Nat) (hl : [.outbox, .rings, .descs, .fronds, .snaps, .sessions] ⊆ ps) (h : Only ps s s') :
    Only ps s (snapAct d cycles id s') := by
  unfold snapAct
  try dsimp only
  repeat' first
    | with_reducible assumption | exact List.Subset.trans (by decide) hl | with_reducible apply only_modFrond
    | with_reducible apply only_complete | with_reducible apply only_sendOrder | with_reducible apply only_sendDown
    | (with_reducible refine Only.foldl (fun t' a' h' => ?_) _ ?_ <;> (try dsimp only)) | with_reducible apply Only.ite
    | (fail_if_no_progress ((with_reducible apply Only.mk_of) <;> first | exact Or.inl (hl (by decide)) | with_reducible exact Or.inr rfl | skip)) | with_reducible exact Or.inr rfl
    | split

theorem only_outAct {ps : List Part} {s s' : State} (d : Desc) (id : Nat) (hl : [.outbox, .queues, .rings, .descs, .faults, .fronds, .sessions] ⊆ ps) (h : Only ps s s') :
    Only ps s (outAct d id s') := by
  unfold outAct
  try dsimp only
  repeat' first
    | with_reducible assumption | exact List.Subset.trans (by decide) hl | with_reducible apply only_complete
    | with_reducible apply only_integrity | with_reducible apply only_queueOut | with_reducible apply Only.ite | split

theorem only_armAct {ps : List Part} {s s' : State} (d : Desc) (on : Bool) (id : Nat) (hl : [.outbox, .rings, .descs, .caps, .sessions] ⊆ ps) (h : Only ps s s') :
    Only ps s (armAct d on id s') := by
  unfold armAct
  try dsimp only
  repeat' first
    | with_reducible assumption | exact List.Subset.trans (by decide) hl | with_reducible apply only_complete
    | with_reducible apply only_modCap | with_reducible apply Only.ite
    | (fail_if_no_progress ((with_reducible apply Only.mk_of) <;> first | exact Or.inl (hl (by decide)) | with_reducible exact Or.inr rfl | skip)) | with_reducible exact Or.inr rfl
    | split

theorem only_triggerAct {ps : List Part} {s s' : State} (d : Desc) (cycles id : Nat) (hl : [.outbox, .rings, .descs, .caps, .sessions] ⊆ ps) (h : Only ps s s') :
    Only ps s (triggerAct d cycles id s') := by
  unfold triggerAct
  try dsimp only
  repeat' first
    | with_reducible assumption | exact List.Subset.trans (by decide) hl | with_reducible apply only_complete
    | with_reducible apply only_capTrigger | with_reducible refine only_capTrigger_eq (by assumption) ?_ ?_
    | with_reducible apply Only.ite | split

theorem only_flushAct {ps : List Part} {s s' : State} (d : Desc) (id : Nat) (hl : [.outbox, .queues, .rings, .descs, .sessions] ⊆ ps) (h : Only ps s s') :
    Only ps s (flushAct d id s') := by
  unfold flushAct
  try dsimp only
  repeat' first
    | with_reducible assumption | exact List.Subset.trans (by decide) hl | with_reducible apply only_flushNow
    | with_reducible apply Only.ite
    | (fail_if_no_progress ((with_reducible apply Only.mk_of) <;> first | exact Or.inl (hl (by decide)) | with_reducible exact Or.inr rfl | skip)) | with_reducible exact Or.inr rfl
    | split

theorem only_sendClear {ps : List Part} {s s' : State} (f pos : Nat) (did : Option Nat) (hl : [.fronds] ⊆ ps) (h : Only ps s s') :
    Only ps s (sendClear f pos did s') := by
  unfold sendClear
  try dsimp only
  repeat' first
    | with_reducible assumption | exact List.Subset.trans (by decide) hl | with_reducible apply only_modFrond
    | (fail_if_no_progress ((with_reducible apply Only.mk_of) <;> first | exact Or.inl (hl (by decide)) | with_reducible exact Or.inr rfl | skip)) | with_reducible exact Or.inr rfl

theorem only_clearFrondAct {ps : List Part} {s s' : State} (d : Desc) (id : Nat) (hl : [.outbox, .queues, .rings, .descs, .faults, .fronds, .sessions] ⊆ ps) (h : Only ps s s') :
    Only ps s (clearFrondAct d id s') := by
  unfold clearFrondAct
  try dsimp only
  repeat' first
    | with_reducible assumption | exact List.Subset.trans (by decide) hl | with_reducible apply only_modFrond
    | with_reducible apply only_complete | with_reducible apply only_dropSrc | with_reducible apply only_sendClear
    | (with_reducible refine Only.foldl (fun t' a' h' => ?_) _ ?_ <;> (try dsimp only)) | with_reducible apply Only.ite
    | (fail_if_no_progress ((with_reducible apply Only.mk_of) <;> first | exact Or.inl (hl (by decide)) | with_reducible exact Or.inr rfl | skip)) | with_reducible exact Or.inr rfl
    | split

theorem only_release {ps : List Part} {s s' : State} (x : Src) (fs : List Nat) (id : Nat) (hl : [.outbox, .rings, .descs, .fronds, .sessions] ⊆ ps) (h : Only ps s s') :
    Only ps s (release x fs id s') := by
  unfold release
  try dsimp only
  repeat' first
    | with_reducible assumption | exact List.Subset.trans (by decide) hl | with_reducible apply only_modFrond
    | with_reducible apply only_complete | with_reducible apply only_sendClear
    | (with_reducible refine Only.foldl (fun t' a' h' => ?_) _ ?_ <;> (try dsimp only)) | with_reducible apply Only.ite
    | (fail_if_no_progress ((with_reducible apply Only.mk_of) <;> first | exact Or.inl (hl (by decide)) | with_reducible exact Or.inr rfl | skip)) | with_reducible exact Or.inr rfl
    | split

theorem only_clearSourceAct {ps : List Part} {s s' : State} (d : Desc) (id : Nat) (hl : [.outbox, .queues, .rings, .descs, .faults, .badPaths, .fronds, .sessions] ⊆ ps) (h : Only ps s s') :
    Only ps s (clearSourceAct d id s') := by
  unfold clearSourceAct
  try dsimp only
  repeat' first
    | with_reducible assumption | exact List.Subset.trans (by decide) hl | with_reducible apply only_complete
    | with_reducible apply only_dropSrc | with_reducible apply only_release | with_reducible apply Only.ite
    | (fail_if_no_progress ((with_reducible apply Only.mk_of) <;> first | exact Or.inl (hl (by decide)) | with_reducible exact Or.inr rfl | skip)) | with_reducible exact Or.inr rfl
    | split

theorem only_clearLatchAct {ps : List Part} {s s' : State} (id : Nat) (hl : [.outbox, .queues, .rings, .descs, .faults, .sessions] ⊆ ps) (h : Only ps s s') :
    Only ps s (clearLatchAct id s') := by
  unfold clearLatchAct
  try dsimp only
  repeat' first
    | with_reducible assumption | exact List.Subset.trans (by decide) hl | with_reducible apply only_complete
    | with_reducible apply only_faultRec
    | (fail_if_no_progress ((with_reducible apply Only.mk_of) <;> first | exact Or.inl (hl (by decide)) | with_reducible exact Or.inr rfl | skip)) | with_reducible exact Or.inr rfl
    | split

/-! ## CommitRow -/

theorem only_refuseCommit {ps : List Part} {s s' : State} (report max_ id : Nat) (l : List RepEnt) (hl : [.outbox, .rings, .descs, .sessions] ⊆ ps) (h : Only ps s s') :
    Only ps s (refuseCommit report max_ id l s') := by
  unfold refuseCommit
  try dsimp only
  repeat' first
    | with_reducible assumption | exact List.Subset.trans (by decide) hl | with_reducible apply only_outp
    | with_reducible apply only_complete | with_reducible apply Only.ite | split

theorem only_acceptCommit {ps : List Part} {s s' : State} (t : TickNo) (excl written : Bool) (id : Nat) (items : List (Nat × List (Nat × Word))) (hl : [.resolution, .staged, .queues, .faults, .pend, .fronds, .link] ⊆ ps) (h : Only ps s s') :
    Only ps s (acceptCommit t excl written id items s') := by
  unfold acceptCommit
  try dsimp only
  repeat' first
    | with_reducible assumption | exact List.Subset.trans (by decide) hl | with_reducible apply only_modFrond
    | with_reducible apply only_clearSrc | with_reducible apply only_takeTag
    | with_reducible refine only_takeTag_eq (by assumption) ?_ ?_
    | (with_reducible refine Only.foldl (fun t' a' h' => ?_) _ ?_ <;> (try dsimp only)) | with_reducible apply Only.ite
    | (fail_if_no_progress ((with_reducible apply Only.mk_of) <;> first | exact Or.inl (hl (by decide)) | with_reducible exact Or.inr rfl | skip)) | with_reducible exact Or.inr rfl
    | split

theorem only_commitCore {ps : List Part} {s s' : State} (t report max_ : Nat) (excl : Bool) (id : Nat) (didx : Half) (hl : [.outbox, .resolution, .staged, .pairs, .queues, .rings, .descs, .faults, .pend, .fronds, .link, .budget, .sessions] ⊆ ps) (h : Only ps s s') :
    Only ps s (commitCore t report max_ excl id didx s') := by
  unfold commitCore
  try dsimp only
  repeat' first
    | with_reducible assumption | exact List.Subset.trans (by decide) hl | with_reducible apply only_complete
    | with_reducible apply only_dropPairs | with_reducible apply only_refuseCommit | with_reducible apply only_acceptCommit
    | with_reducible apply Only.ite
    | (fail_if_no_progress ((with_reducible apply Only.mk_of) <;> first | exact Or.inl (hl (by decide)) | with_reducible exact Or.inr rfl | skip)) | with_reducible exact Or.inr rfl
    | split

/-! ## SecRows -/

theorem only_useNonce {ps : List Part} {s s' : State} (hl : [.security] ⊆ ps) (h : Only ps s s') :
    Only ps s (useNonce s') := by
  unfold useNonce
  try dsimp only
  repeat' first
    | with_reducible assumption | exact List.Subset.trans (by decide) hl
    | (fail_if_no_progress ((with_reducible apply Only.mk_of) <;> first | exact Or.inl (hl (by decide)) | with_reducible exact Or.inr rfl | skip)) | with_reducible exact Or.inr rfl

theorem only_enterState {ps : List Part} {s s' : State} (nx : Nat) (hl : [.outbox, .queues, .faults, .lifeCycle, .security] ⊆ ps) (h : Only ps s s') :
    Only ps s (enterState nx s') := by
  unfold enterState
  try dsimp only
  repeat' first
    | with_reducible assumption | exact List.Subset.trans (by decide) hl | with_reducible apply only_secBreak
    | with_reducible apply Only.ite
    | (fail_if_no_progress ((with_reducible apply Only.mk_of) <;> first | exact Or.inl (hl (by decide)) | with_reducible exact Or.inr rfl | skip)) | with_reducible exact Or.inr rfl
    | split

theorem only_closeSessions {ps : List Part} {s s' : State} (hl : [.sessions] ⊆ ps) (h : Only ps s s') :
    Only ps s (closeSessions s') := by
  unfold closeSessions
  try dsimp only
  repeat' first
    | with_reducible assumption | exact List.Subset.trans (by decide) hl
    | (fail_if_no_progress ((with_reducible apply Only.mk_of) <;> first | exact Or.inl (hl (by decide)) | with_reducible exact Or.inr rfl | skip)) | with_reducible exact Or.inr rfl

theorem only_zeroise {ps : List Part} {s s' : State} (hl : [.outbox, .queues, .faults, .security, .ports, .sessions] ⊆ ps) (h : Only ps s s') :
    Only ps s (zeroise s') := by
  unfold zeroise
  try dsimp only
  repeat' first
    | with_reducible assumption | exact List.Subset.trans (by decide) hl | with_reducible apply only_macsecSrc
    | (fail_if_no_progress ((with_reducible apply Only.mk_of) <;> first | exact Or.inl (hl (by decide)) | with_reducible exact Or.inr rfl | skip)) | with_reducible exact Or.inr rfl

theorem only_zeroiseVoid {ps : List Part} {s s' : State} (hl : [.outbox, .queues, .faults, .security, .ports, .sessions] ⊆ ps) (h : Only ps s s') :
    Only ps s (zeroiseVoid s') := by
  unfold zeroiseVoid
  try dsimp only
  repeat' first
    | with_reducible assumption | exact List.Subset.trans (by decide) hl | with_reducible apply only_zeroise
    | (fail_if_no_progress ((with_reducible apply Only.mk_of) <;> first | exact Or.inl (hl (by decide)) | with_reducible exact Or.inr rfl | skip)) | with_reducible exact Or.inr rfl

theorem only_secGate {ps : List Part} {s s' : State} (op : Nat) (states : List Nat) (pre : State → Bool) (copyBad otpBad : Bool) (id : Nat) (act : State → State) (h_act : ∀ {u : State}, Only ps s u → Only ps s (act u)) (hl : [.outbox, .halt, .queues, .rings, .descs, .faults, .fronds, .security, .sessions] ⊆ ps) (h : Only ps s s') :
    Only ps s (secGate op states pre copyBad otpBad id act s') := by
  unfold secGate
  try dsimp only
  repeat' first
    | with_reducible assumption | exact List.Subset.trans (by decide) hl | with_reducible apply h_act
    | with_reducible apply only_complete | with_reducible apply only_lifeCycleCheck | with_reducible apply Only.ite | split

theorem only_plainOp {ps : List Part} {s s' : State} (op : Nat) (pay : SecPay) (states : List Nat) (pre : State → Bool) (act : List Byte → Nat → State → State) (d : Desc) (copyBad otpBad : Bool) (h_act : ∀ x0 x1 {u : State}, Only ps s u → Only ps s (act x0 x1 u)) (hl : [.outbox, .halt, .queues, .rings, .alives, .descs, .faults, .fronds, .security, .sessions] ⊆ ps) (h : Only ps s s') :
    Only ps s (plainOp op pay states pre act d copyBad otpBad s') := by
  unfold plainOp
  try dsimp only
  repeat' first
    | with_reducible assumption | exact List.Subset.trans (by decide) hl | with_reducible apply h_act
    | with_reducible apply only_takeDesc | with_reducible apply only_secGate | (intro _; intros; try dsimp only)

theorem only_tokenOp {ps : List Part} {s s' : State} (op : Nat) (states : List Nat) (key : State → Nat) (pre : State → Bool) (act : List Byte → Nat → State → State) (d : Desc) (copyBad otpBad : Bool) (h_act : ∀ x0 x1 {u : State}, Only ps s u → Only ps s (act x0 x1 u)) (hl : [.outbox, .halt, .queues, .rings, .alives, .descs, .faults, .fronds, .security, .sessions] ⊆ ps) (h : Only ps s s') :
    Only ps s (tokenOp op states key pre act d copyBad otpBad s') := by
  unfold tokenOp
  try dsimp only
  repeat' first
    | with_reducible assumption | exact List.Subset.trans (by decide) hl | with_reducible apply h_act
    | with_reducible apply only_complete | with_reducible apply only_authFailed | with_reducible apply only_authPassed
    | with_reducible apply only_useNonce | with_reducible apply only_plainOp | with_reducible apply Only.ite | split
    | (intro _; intros; try dsimp only)

theorem only_secOut {ps : List Part} {s s' : State} (d : Desc) (data : List Byte) (id : Nat) (hl : [.outbox, .rings, .descs, .sessions] ⊆ ps) (h : Only ps s s') :
    Only ps s (secOut d data id s') := by
  unfold secOut
  try dsimp only
  repeat' first
    | with_reducible assumption | exact List.Subset.trans (by decide) hl | with_reducible apply only_outp
    | with_reducible apply only_complete | with_reducible apply Only.ite | split

theorem only_moveTo {ps : List Part} {s s' : State} (nx id : Nat) (hl : [.outbox, .queues, .rings, .descs, .faults, .lifeCycle, .security, .sessions] ⊆ ps) (h : Only ps s s') :
    Only ps s (moveTo nx id s') := by
  unfold moveTo
  repeat' first
    | with_reducible assumption | exact List.Subset.trans (by decide) hl | with_reducible apply only_complete
    | with_reducible apply only_enterState

theorem only_keyInstall {ps : List Part} {s s' : State} (b : List Byte) (id : Nat) (hl : [.outbox, .rings, .descs, .security, .sessions] ⊆ ps) (h : Only ps s s') :
    Only ps s (keyInstall b id s') := by
  unfold keyInstall
  try dsimp only
  repeat' first
    | with_reducible assumption | exact List.Subset.trans (by decide) hl | with_reducible apply only_complete
    | with_reducible apply only_useNonce | with_reducible apply Only.ite
    | (fail_if_no_progress ((with_reducible apply Only.mk_of) <;> first | exact Or.inl (hl (by decide)) | with_reducible exact Or.inr rfl | skip)) | with_reducible exact Or.inr rfl
    | split

theorem only_usePresence {ps : List Part} {s s' : State} (hl : [.security] ⊆ ps) (h : Only ps s s') :
    Only ps s (usePresence s') := by
  unfold usePresence
  try dsimp only
  repeat' first
    | with_reducible assumption | exact List.Subset.trans (by decide) hl
    | (fail_if_no_progress ((with_reducible apply Only.mk_of) <;> first | exact Or.inl (hl (by decide)) | with_reducible exact Or.inr rfl | skip)) | with_reducible exact Or.inr rfl

theorem only_fwChunk {ps : List Part} {s s' : State} (b : List Byte) (id : Nat) (hl : [.outbox, .queues, .rings, .descs, .faults, .security, .sessions] ⊆ ps) (h : Only ps s s') :
    Only ps s (fwChunk b id s') := by
  unfold fwChunk
  try dsimp only
  repeat' first
    | with_reducible assumption | exact List.Subset.trans (by decide) hl | with_reducible apply only_complete
    | with_reducible apply only_authFailed | with_reducible apply only_authPassed | with_reducible apply Only.ite
    | (fail_if_no_progress ((with_reducible apply Only.mk_of) <;> first | exact Or.inl (hl (by decide)) | with_reducible exact Or.inr rfl | skip)) | with_reducible exact Or.inr rfl
    | split

theorem only_cryptoError {ps : List Part} {s s' : State} (hl : [.outbox, .queues, .faults, .security, .sessions] ⊆ ps) (h : Only ps s s') :
    Only ps s (cryptoError s') := by
  unfold cryptoError
  try dsimp only
  repeat' first
    | with_reducible assumption | exact List.Subset.trans (by decide) hl | with_reducible apply only_secBreak
    | with_reducible apply only_closeSessions
    | (fail_if_no_progress ((with_reducible apply Only.mk_of) <;> first | exact Or.inl (hl (by decide)) | with_reducible exact Or.inr rfl | skip)) | with_reducible exact Or.inr rfl

theorem only_stageNet {ps : List Part} {s s' : State} (body : List Byte) (hl : [.staged] ⊆ ps) (h : Only ps s s') :
    Only ps s (stageNet body s') := by
  unfold stageNet
  try dsimp only
  repeat' first
    | with_reducible assumption | exact List.Subset.trans (by decide) hl | with_reducible apply only_stage
    | (with_reducible refine Only.foldl (fun t' a' h' => ?_) _ ?_ <;> (try dsimp only))

theorem only_stageBlob {ps : List Part} {s s' : State} (b : List Byte) (p : BlobParts) (hl : [.outbox, .staged, .pairs, .sticky, .queues, .rings, .host, .faults] ⊆ ps) (h : Only ps s s') :
    Only ps s (stageBlob b p s') := by
  unfold stageBlob
  try dsimp only
  repeat' first
    | with_reducible assumption | exact List.Subset.trans (by decide) hl | with_reducible apply only_cfgApply
    | with_reducible apply only_stageRules | with_reducible apply only_stageEdges | with_reducible apply only_stageNet
    | (with_reducible refine Only.foldl (fun t' a' h' => ?_) _ ?_ <;> (try dsimp only))

theorem only_blobAct {ps : List Part} {s s' : State} (d : Desc) (id : Nat) (hl : [.outbox, .staged, .pairs, .sticky, .queues, .rings, .descs, .host, .faults, .security, .sessions] ⊆ ps) (h : Only ps s s') :
    Only ps s (blobAct d id s') := by
  unfold blobAct
  try dsimp only
  repeat' first
    | with_reducible assumption | exact List.Subset.trans (by decide) hl | with_reducible apply only_modOut
    | with_reducible apply only_complete | with_reducible apply only_integrity | with_reducible apply only_authFailed
    | with_reducible apply only_authPassed | with_reducible apply only_stageBlob | with_reducible apply Only.ite
    | (fail_if_no_progress ((with_reducible apply Only.mk_of) <;> first | exact Or.inl (hl (by decide)) | with_reducible exact Or.inr rfl | skip)) | with_reducible exact Or.inr rfl
    | split

/-! ## NetRows -/

theorem only_ethSrc {ps : List Part} {s s' : State} (p : Nat) (hl : [.outbox, .queues, .faults] ⊆ ps) (h : Only ps s s') :
    Only ps s (ethSrc p s') := by
  unfold ethSrc
  repeat' first
    | with_reducible assumption | exact List.Subset.trans (by decide) hl | with_reducible refine only_setSrc_low (by decide) ?_ ?_

theorem only_setView {ps : List Part} {s s' : State} (v : TimeView) (hl : [.ports, .timeView] ⊆ ps) (h : Only ps s s') :
    Only ps s (setView v s') := by
  unfold setView
  try dsimp only
  repeat' first
    | with_reducible assumption | exact List.Subset.trans (by decide) hl
    | (fail_if_no_progress ((with_reducible apply Only.mk_of) <;> first | exact Or.inl (hl (by decide)) | with_reducible exact Or.inr rfl | skip)) | with_reducible exact Or.inr rfl

theorem only_learn {ps : List Part} {s s' : State} (p : Nat) (m : Nat) (hl : [.addrs] ⊆ ps) (h : Only ps s s') :
    Only ps s (learn p m s') := by
  unfold learn
  try dsimp only
  repeat' first
    | with_reducible assumption | exact List.Subset.trans (by decide) hl | with_reducible apply Only.ite
    | (fail_if_no_progress ((with_reducible apply Only.mk_of) <;> first | exact Or.inl (hl (by decide)) | with_reducible exact Or.inr rfl | skip)) | with_reducible exact Or.inr rfl
    | split

theorem only_toSelf {ps : List Part} {s s' : State} (p : Nat) (b : List Byte) (hl : [.outbox, .queues, .faults, .ports, .addrs] ⊆ ps) (h : Only ps s s') :
    Only ps s (toSelf p b s') := by
  unfold toSelf
  try dsimp only
  repeat' first
    | with_reducible assumption | exact List.Subset.trans (by decide) hl | with_reducible apply only_outp
    | with_reducible apply only_sendPort | with_reducible apply only_gateFlush | with_reducible apply Only.ite
    | (fail_if_no_progress ((with_reducible apply Only.mk_of) <;> first | exact Or.inl (hl (by decide)) | with_reducible exact Or.inr rfl | skip)) | with_reducible exact Or.inr rfl
    | split

theorem only_switchFrame {ps : List Part} {s s' : State} (p : Nat) (b : List Byte) (hl : [.outbox, .queues, .faults, .ports, .addrs] ⊆ ps) (h : Only ps s s') :
    Only ps s (switchFrame p b s') := by
  unfold switchFrame
  try dsimp only
  repeat' first
    | with_reducible assumption | exact List.Subset.trans (by decide) hl | with_reducible apply only_sendPort
    | with_reducible apply only_learn | with_reducible apply only_toSelf | with_reducible apply Only.ite | split

theorem only_request {ps : List Part} {s s' : State} (id kind sq : Nat) (ownerOnly : Bool) (act : State → State) (h_act : ∀ {u : State}, Only ps s u → Only ps s (act u)) (hl : [.outbox] ⊆ ps) (h : Only ps s s') :
    Only ps s (request id kind sq ownerOnly act s') := by
  unfold request
  try dsimp only
  repeat' first
    | with_reducible assumption | exact List.Subset.trans (by decide) hl | with_reducible apply h_act
    | with_reducible apply only_replyTo | with_reducible apply Only.ite | split

/-! ## PowerRows -/

theorem only_logicReset {ps : List Part} {s s' : State} (ph : Phase) (pwr : Power) (hl : [.outbox, .halt, .auto, .tick, .clocks, .time, .resolution, .checkIn, .pins, .sync, .staged, .cfg, .paths, .pairs, .scratch, .sticky, .queues, .rings, .alives, .descs, .host, .doorbell, .cvu, .lsp, .faults, .badPaths, .pend, .fronds, .chans, .period, .snaps, .summary, .age, .features, .refs, .map, .caps, .rules, .measured, .supplies, .link, .budget, .security, .ports, .addrs, .pubs, .sessions, .timeView, .xfers] ⊆ ps) (h : Only ps s s') :
    Only ps s (logicReset ph pwr s') := by
  unfold logicReset
  try dsimp only
  repeat' first
    | with_reducible assumption | exact List.Subset.trans (by decide) hl
    | (fail_if_no_progress ((with_reducible apply Only.mk_of) <;> first | exact Or.inl (hl (by decide)) | with_reducible exact Or.inr rfl | skip)) | with_reducible exact Or.inr rfl

theorem only_safeAll {ps : List Part} {s s' : State} (hl : [.outbox, .fronds] ⊆ ps) (h : Only ps s s') :
    Only ps s (safeAll s') := by
  unfold safeAll
  try dsimp only
  repeat' first
    | with_reducible assumption | exact List.Subset.trans (by decide) hl | with_reducible apply only_sendOrder
    | (with_reducible refine Only.foldl (fun t' a' h' => ?_) _ ?_ <;> (try dsimp only))

theorem only_linkSource {ps : List Part} {s s' : State} (hl : [.outbox, .queues, .faults] ⊆ ps) (h : Only ps s s') :
    Only ps s (linkSource s') := by
  unfold linkSource
  try dsimp only
  repeat' first
    | with_reducible assumption | exact List.Subset.trans (by decide) hl | with_reducible refine only_setSrc_low (by decide) ?_ ?_
    | with_reducible apply Only.ite | split

theorem only_trainLink {ps : List Part} {s s' : State} (l : LinkIn) (hl : [.outbox, .queues, .host, .faults, .link] ⊆ ps) (h : Only ps s s') :
    Only ps s (trainLink l s') := by
  unfold trainLink
  try dsimp only
  repeat' first
    | with_reducible assumption | exact List.Subset.trans (by decide) hl | with_reducible apply only_linkSource
    | with_reducible apply Only.ite
    | (fail_if_no_progress ((with_reducible apply Only.mk_of) <;> first | exact Or.inl (hl (by decide)) | with_reducible exact Or.inr rfl | skip)) | with_reducible exact Or.inr rfl
    | split

theorem only_chooseImage {ps : List Part} {s s' : State} (hl : [.outbox, .halt, .queues, .faults, .fronds, .security] ⊆ ps) (h : Only ps s s') :
    Only ps s (chooseImage s') := by
  unfold chooseImage
  try dsimp only
  repeat' first
    | with_reducible assumption | exact List.Subset.trans (by decide) hl | with_reducible apply only_securityHalt
    | with_reducible apply Only.ite
    | (fail_if_no_progress ((with_reducible apply Only.mk_of) <;> first | exact Or.inl (hl (by decide)) | with_reducible exact Or.inr rfl | skip)) | with_reducible exact Or.inr rfl
    | split

theorem only_phaseSrc {ps : List Part} {s s' : State} (ph : Nat) (hl : [.outbox, .queues, .faults] ⊆ ps) (h : Only ps s s') :
    Only ps s (phaseSrc ph s') := by
  unfold phaseSrc
  repeat' first
    | with_reducible assumption | exact List.Subset.trans (by decide) hl | with_reducible refine only_setSrc_low (by decide) ?_ ?_
    | with_reducible apply Only.ite | split

theorem only_mpRings {ps : List Part} {s s' : State} (hl : [.rings, .alives, .host] ⊆ ps) (h : Only ps s s') :
    Only ps s (mpRings s') := by
  unfold mpRings
  try dsimp only
  repeat' first
    | with_reducible assumption | exact List.Subset.trans (by decide) hl | with_reducible apply only_modRing
    | with_reducible apply only_enableRing | (with_reducible refine Only.foldl (fun t' a' h' => ?_) _ ?_ <;> (try dsimp only))
    | (fail_if_no_progress ((with_reducible apply Only.mk_of) <;> first | exact Or.inl (hl (by decide)) | with_reducible exact Or.inr rfl | skip)) | with_reducible exact Or.inr rfl

end Sys2Proof.Machine
end

