-- ==== Sys2Proof/Laws/OnlyRows.lean ====
section
/-! SUPPORT. The frame of every command: the parts of the state that it may change. -/

set_option linter.unusedTactic false
set_option linter.unreachableTactic false

namespace Sys2Proof.Machine
open Sys2Proof

/-- The outcome is a next state that differs only in the parts of ps. -/
def OnlyBy (ps : List Part) (s : State) (o : Host.Outcome State Fault Refusal) : Prop := ∃ t, o = .next t ∧ Only ps s t

theorem OnlyBy.next {ps : List Part} {s t : State} (h : Only ps s t) : OnlyBy ps s (.next t) := ⟨t, rfl, h⟩

theorem OnlyBy.mono {ps qs : List Part} {s : State} {o : Host.Outcome State Fault Refusal} (h : OnlyBy ps s o) (k : ps ⊆ qs) : OnlyBy qs s o := by
  obtain ⟨t, e, a⟩ := h
  exact ⟨t, e, a.mono k⟩

theorem OnlyBy.ite {ps : List Part} {s : State} {a b : Host.Outcome State Fault Refusal} {c : Prop} [Decidable c] (ha : OnlyBy ps s a)
    (hb : OnlyBy ps s b) : OnlyBy ps s (if c then a else b) := by
  split
  · exact ha
  · exact hb

/-! ## TickEdge -/

theorem only_execTickEdge (s : State) (i : TickIn) : OnlyBy [.outbox, .halt, .tick, .time, .checkIn, .pins, .sync, .staged, .cfg, .queues, .rings, .descs, .cvu, .lsp, .faults, .fronds, .chans, .period, .snaps, .summary, .age, .features, .refs, .map, .caps, .rules, .measured, .security, .ports, .pubs, .sessions, .xfers] s (execTickEdge i s) := by
  unfold execTickEdge
  try dsimp only
  repeat' first
    | with_reducible assumption | decide | with_reducible exact Only.refl _ _ | with_reducible apply OnlyBy.next
    | with_reducible apply OnlyBy.ite | with_reducible apply only_inOneCycle | with_reducible apply only_tickEdge
    | with_reducible apply Only.ite | split | (intro _; intros; try dsimp only)

theorem only_execPeriodBoundary (s : State) (read : Nat) : OnlyBy [.outbox, .queues, .rings, .descs, .faults, .fronds, .period, .refs, .map, .caps, .rules, .ports, .sessions, .xfers] s (execPeriodBoundary read s) := by
  unfold execPeriodBoundary
  try dsimp only
  repeat' first
    | with_reducible assumption | decide | with_reducible exact Only.refl _ _ | with_reducible apply OnlyBy.next
    | with_reducible apply OnlyBy.ite | with_reducible apply only_inOneCycle | with_reducible apply only_periodWork
    | with_reducible apply Only.ite | split | (intro _; intros; try dsimp only)

/-! ## FaultRows -/

theorem only_execTbaseHigh (s : State)  : OnlyBy [.outbox, .queues, .faults] s (execTbaseHigh s) := by
  unfold execTbaseHigh
  try dsimp only
  repeat' first
    | with_reducible assumption | decide | with_reducible exact Only.refl _ _ | with_reducible apply OnlyBy.next
    | with_reducible apply OnlyBy.ite | with_reducible refine only_raise_low (by decide) ?_ ?_
    | with_reducible refine only_raise_mid (by first | decide | exact causeCls_le _) ?_ ?_ | with_reducible apply only_raise
    | with_reducible apply Only.ite | split

theorem only_execFaultSourceActivate (s : State) (id : Nat) (ctx : List Byte) : OnlyBy [.outbox, .halt, .queues, .faults, .badPaths, .fronds] s (execFaultSourceActivate id ctx s) := by
  unfold execFaultSourceActivate
  try dsimp only
  repeat' first
    | with_reducible assumption | decide | with_reducible exact Only.refl _ _ | with_reducible apply OnlyBy.next
    | with_reducible apply OnlyBy.ite | with_reducible refine only_raise_low (by decide) ?_ ?_
    | with_reducible refine only_raise_mid (by first | decide | exact causeCls_le _) ?_ ?_ | with_reducible apply only_raise
    | with_reducible apply only_pathBad | with_reducible apply Only.ite | split

theorem only_execFaultSourceCleared (s : State) (id sub line : Nat) (act : Bool) (ctx : List Byte) : OnlyBy [.outbox, .halt, .queues, .faults, .badPaths, .fronds] s (execFaultSourceCleared id sub line act ctx s) := by
  unfold execFaultSourceCleared
  try dsimp only
  repeat' first
    | with_reducible assumption | decide | with_reducible exact Only.refl _ _ | with_reducible apply OnlyBy.next
    | with_reducible apply OnlyBy.ite | with_reducible apply only_clearSrc | with_reducible apply only_lineFollows
    | with_reducible apply Only.ite
    | (fail_if_no_progress ((with_reducible apply Only.mk_of) <;> first | exact Or.inl (by decide) | with_reducible exact Or.inr rfl | skip)) | with_reducible exact Or.inr rfl
    | split

theorem only_execEscalation (s : State) (id sub : Nat) : OnlyBy [.outbox, .queues, .faults, .fronds] s (execEscalation id sub s) := by
  unfold execEscalation
  try dsimp only
  repeat' first
    | with_reducible assumption | decide | with_reducible exact Only.refl _ _ | with_reducible apply OnlyBy.next
    | with_reducible apply OnlyBy.ite | with_reducible apply only_escalate | with_reducible apply Only.ite | split

theorem only_execShadowClose (s : State) (f : Nat) : OnlyBy [.queues, .faults] s (execShadowClose f s) := by
  unfold execShadowClose
  try dsimp only
  repeat' first
    | with_reducible assumption | decide | with_reducible exact Only.refl _ _ | with_reducible apply OnlyBy.next
    | with_reducible apply OnlyBy.ite | with_reducible apply only_closeShadow | with_reducible apply Only.ite | split

theorem only_execClockSrcLost (s : State) (oscB : Bool) : OnlyBy [.outbox, .clocks, .queues, .faults] s (execClockSrcLost oscB s) := by
  unfold execClockSrcLost
  try dsimp only
  repeat' first
    | with_reducible assumption | decide | with_reducible exact Only.refl _ _ | with_reducible apply OnlyBy.next
    | with_reducible apply OnlyBy.ite | with_reducible refine only_raise_low (by decide) ?_ ?_
    | with_reducible refine only_raise_mid (by first | decide | exact causeCls_le _) ?_ ?_ | with_reducible apply only_raise
    | with_reducible apply Only.ite
    | (fail_if_no_progress ((with_reducible apply Only.mk_of) <;> first | exact Or.inl (by decide) | with_reducible exact Or.inr rfl | skip)) | with_reducible exact Or.inr rfl
    | split

theorem only_execClockBothLost (s : State)  : OnlyBy [.outbox, .halt, .clocks, .queues, .faults, .fronds] s (execClockBothLost s) := by
  unfold execClockBothLost
  try dsimp only
  repeat' first
    | with_reducible assumption | decide | with_reducible exact Only.refl _ _ | with_reducible apply OnlyBy.next
    | with_reducible apply OnlyBy.ite | with_reducible refine only_raise_low (by decide) ?_ ?_
    | with_reducible refine only_raise_mid (by first | decide | exact causeCls_le _) ?_ ?_ | with_reducible apply only_raise
    | with_reducible apply Only.ite
    | (fail_if_no_progress ((with_reducible apply Only.mk_of) <;> first | exact Or.inl (by decide) | with_reducible exact Or.inr rfl | skip)) | with_reducible exact Or.inr rfl
    | split

theorem only_execCheckIn (s : State)  : OnlyBy [.checkIn] s (execCheckIn s) := by
  unfold execCheckIn
  try dsimp only
  repeat' first
    | with_reducible assumption | decide | with_reducible exact Only.refl _ _ | with_reducible apply OnlyBy.next
    | with_reducible apply OnlyBy.ite | with_reducible apply Only.ite
    | (fail_if_no_progress ((with_reducible apply Only.mk_of) <;> first | exact Or.inl (by decide) | with_reducible exact Or.inr rfl | skip)) | with_reducible exact Or.inr rfl
    | split

theorem only_execClockSrcLostClear (s : State)  : OnlyBy [.clocks, .queues, .faults] s (execClockSrcLostClear s) := by
  unfold execClockSrcLostClear
  try dsimp only
  repeat' first
    | with_reducible assumption | decide | with_reducible exact Only.refl _ _ | with_reducible apply OnlyBy.next
    | with_reducible apply OnlyBy.ite | with_reducible apply only_clearSrc | with_reducible apply Only.ite
    | (fail_if_no_progress ((with_reducible apply Only.mk_of) <;> first | exact Or.inl (by decide) | with_reducible exact Or.inr rfl | skip)) | with_reducible exact Or.inr rfl
    | split

theorem only_execHaltDrainTimeout (s : State)  : OnlyBy [.halt, .pins] s (execHaltDrainTimeout s) := by
  unfold execHaltDrainTimeout
  try dsimp only
  repeat' first
    | with_reducible assumption | decide | with_reducible exact Only.refl _ _ | with_reducible apply OnlyBy.next
    | with_reducible apply OnlyBy.ite | with_reducible apply only_haltStop | with_reducible apply Only.ite | split

/-! ## Feature -/

theorem only_execDeferredWork (s : State)  : OnlyBy [.outbox, .queues, .rings, .descs, .features, .map, .caps, .sessions] s (execDeferredWork s) := by
  unfold execDeferredWork
  try dsimp only
  repeat' first
    | with_reducible assumption | decide | with_reducible exact Only.refl _ _ | with_reducible apply OnlyBy.next
    | with_reducible apply OnlyBy.ite | with_reducible apply only_runDeferred | with_reducible apply Only.ite | split

theorem only_execFeatureSlice (s : State)  : OnlyBy [.queues, .features, .map] s (execFeatureSlice s) := by
  unfold execFeatureSlice
  try dsimp only
  repeat' first
    | with_reducible assumption | decide | with_reducible exact Only.refl _ _ | with_reducible apply OnlyBy.next
    | with_reducible apply OnlyBy.ite | with_reducible apply only_workBlocks | with_reducible apply Only.ite
    | (fail_if_no_progress ((with_reducible apply Only.mk_of) <;> first | exact Or.inl (by decide) | with_reducible exact Or.inr rfl | skip)) | with_reducible exact Or.inr rfl
    | split

/-! ## Downlink -/

theorem only_execDownlinkSuperframe (s : State) (ins : List Nat) : OnlyBy [.outbox, .resolution, .queues, .rings, .descs, .pend, .fronds, .sessions] s (execDownlinkSuperframe s ins) := by
  unfold execDownlinkSuperframe
  try dsimp only
  repeat' first
    | with_reducible assumption | decide | with_reducible exact Only.refl _ _ | with_reducible apply OnlyBy.next
    | with_reducible apply OnlyBy.ite | with_reducible apply only_inOneCycle | with_reducible apply only_sendSuperframe
    | with_reducible apply Only.ite | split | (intro _; intros; try dsimp only)

theorem only_execCommitResolve (s : State)  : OnlyBy [.resolution, .pend, .fronds] s (execCommitResolve s) := by
  unfold execCommitResolve
  try dsimp only
  repeat' first
    | with_reducible assumption | decide | with_reducible exact Only.refl _ _ | with_reducible apply OnlyBy.next
    | with_reducible apply OnlyBy.ite | with_reducible apply only_modFrond
    | (with_reducible refine Only.foldl (fun t' a' h' => ?_) _ ?_ <;> (try dsimp only)) | with_reducible apply Only.ite
    | (fail_if_no_progress ((with_reducible apply Only.mk_of) <;> first | exact Or.inl (by decide) | with_reducible exact Or.inr rfl | skip)) | with_reducible exact Or.inr rfl
    | split

/-! ## UplinkData -/

theorem only_execU0 (s : State) (f : Nat) (fr : Frame) (slow : List Nat) : OnlyBy [.outbox, .queues, .rings, .descs, .faults, .badPaths, .pend, .fronds, .chans, .snaps, .summary, .features, .refs, .map, .caps, .sessions] s (execU0 f fr s slow) := by
  unfold execU0
  try dsimp only
  repeat' first
    | with_reducible assumption | decide | with_reducible exact Only.refl _ _ | with_reducible apply OnlyBy.next
    | with_reducible apply OnlyBy.ite | with_reducible apply only_inOneCycle | with_reducible apply only_slowRings
    | with_reducible apply only_receiveU0 | with_reducible apply only_tryComplete | with_reducible apply Only.ite | split
    | (intro _; intros; try dsimp only)

theorem only_execUplinkFrame (s : State) (f kind : Nat) (fr : Frame) (flags : List Nat) (slow : List Nat) : OnlyBy [.outbox, .queues, .rings, .descs, .faults, .fronds, .chans, .snaps, .summary, .features, .refs, .caps, .sessions] s (execUplinkFrame f kind fr flags s slow) := by
  unfold execUplinkFrame
  try dsimp only
  repeat' first
    | with_reducible assumption | decide | with_reducible exact Only.refl _ _ | with_reducible apply OnlyBy.next
    | with_reducible apply OnlyBy.ite | with_reducible apply only_inOneCycle | with_reducible apply only_slowRings
    | with_reducible apply only_takeUplink | with_reducible apply Only.ite | split | (intro _; intros; try dsimp only)

/-! ## UplinkU0 -/

theorem only_execLinkUp (s : State) (f : Nat) (linkB : Bool) : OnlyBy [.queues, .faults, .fronds] s (execLinkUp f linkB s) := by
  unfold execLinkUp
  try dsimp only
  repeat' first
    | with_reducible assumption | decide | with_reducible exact Only.refl _ _ | with_reducible apply OnlyBy.next
    | with_reducible apply OnlyBy.ite | with_reducible apply only_clearSrc | with_reducible apply only_modLink
    | with_reducible apply Only.ite
    | (fail_if_no_progress ((with_reducible apply Only.mk_of) <;> first | exact Or.inl (by decide) | with_reducible exact Or.inr rfl | skip)) | with_reducible exact Or.inr rfl
    | split

/-! ## FieldRows -/

theorem only_execFrondTickEdge (s : State) (f : Nat) (i : FrondEdgeIn) : OnlyBy [.outbox, .sync, .field] s (execFrondTickEdge f i s) := by
  unfold execFrondTickEdge
  try dsimp only
  repeat' first
    | with_reducible assumption | decide | with_reducible exact Only.refl _ _ | with_reducible apply OnlyBy.next
    | with_reducible apply OnlyBy.ite | with_reducible apply only_sendUp
    | (with_reducible refine Only.foldl (fun t' a' h' => ?_) _ ?_ <;> (try dsimp only)) | with_reducible apply Only.ite
    | (fail_if_no_progress ((with_reducible apply Only.mk_of) <;> first | exact Or.inl (by decide) | with_reducible exact Or.inr rfl | skip)) | with_reducible exact Or.inr rfl
    | split

theorem only_execContentionSafeState (s : State) (ch : Nat) (crit : List CritIn) : OnlyBy [.field] s (execContentionSafeState ch s crit) := by
  unfold execContentionSafeState
  try dsimp only
  repeat' first
    | with_reducible assumption | decide | with_reducible exact Only.refl _ _ | with_reducible apply OnlyBy.next
    | with_reducible apply OnlyBy.ite | with_reducible apply only_modField | with_reducible apply Only.ite
    | (fail_if_no_progress ((with_reducible apply Only.mk_of) <;> first | exact Or.inl (by decide) | with_reducible exact Or.inr rfl | skip)) | with_reducible exact Or.inr rfl
    | split

theorem only_execD0 (s : State) (f : Nat) (fr : Frame) (fin : Nat) (crit : List CritIn) : OnlyBy [.outbox, .queues, .faults, .fronds, .field] s (execD0 f fr fin s crit) := by
  unfold execD0
  try dsimp only
  repeat' first
    | with_reducible assumption | decide | with_reducible exact Only.refl _ _ | with_reducible apply OnlyBy.next
    | with_reducible apply OnlyBy.ite | with_reducible apply only_rxDown

theorem only_execD1 (s : State) (f : Nat) (fr : Frame) : OnlyBy [.outbox, .queues, .faults, .fronds, .field] s (execD1 f fr s) := by
  unfold execD1
  try dsimp only
  repeat' first
    | with_reducible assumption | decide | with_reducible exact Only.refl _ _ | with_reducible apply OnlyBy.next
    | with_reducible apply OnlyBy.ite | with_reducible apply only_rxDown

theorem only_execD2 (s : State) (f : Nat) (fr : Frame) (ins : Nat) : OnlyBy [.outbox, .queues, .faults, .fronds, .field] s (execD2 f fr s ins) := by
  unfold execD2
  try dsimp only
  repeat' first
    | with_reducible assumption | decide | with_reducible exact Only.refl _ _ | with_reducible apply OnlyBy.next
    | with_reducible apply OnlyBy.ite | with_reducible apply only_rxDown

theorem only_execDS (s : State) (f : Nat) (fr : Frame) : OnlyBy [.outbox, .queues, .faults, .fronds, .field] s (execDS f fr s) := by
  unfold execDS
  try dsimp only
  repeat' first
    | with_reducible assumption | decide | with_reducible exact Only.refl _ _ | with_reducible apply OnlyBy.next
    | with_reducible apply OnlyBy.ite | with_reducible apply only_rxDown
    | (fail_if_no_progress ((with_reducible apply Only.mk_of) <;> first | exact Or.inl (by decide) | with_reducible exact Or.inr rfl | skip)) | with_reducible exact Or.inr rfl

theorem only_execSnapSync (s : State) (f : Nat) (o : OrderFrame) : OnlyBy [.outbox, .queues, .faults, .fronds, .field] s (execSnapSync f o s) := by
  unfold execSnapSync
  try dsimp only
  repeat' first
    | with_reducible assumption | decide | with_reducible exact Only.refl _ _ | with_reducible apply OnlyBy.next
    | with_reducible apply OnlyBy.ite | with_reducible apply only_rxOrder
    | (fail_if_no_progress ((with_reducible apply Only.mk_of) <;> first | exact Or.inl (by decide) | with_reducible exact Or.inr rfl | skip)) | with_reducible exact Or.inr rfl

theorem only_execSnapDesc (s : State) (f : Nat) (o : OrderFrame) : OnlyBy [.outbox, .queues, .faults, .fronds, .field] s (execSnapDesc f o s) := by
  unfold execSnapDesc
  try dsimp only
  repeat' first
    | with_reducible assumption | decide | with_reducible exact Only.refl _ _ | with_reducible apply OnlyBy.next
    | with_reducible apply OnlyBy.ite | with_reducible apply only_rxOrder | with_reducible apply Only.ite
    | (fail_if_no_progress ((with_reducible apply Only.mk_of) <;> first | exact Or.inl (by decide) | with_reducible exact Or.inr rfl | skip)) | with_reducible exact Or.inr rfl
    | split

theorem only_execSafe (s : State) (f : Nat) (o : OrderFrame) (crit : List CritIn) : OnlyBy [.outbox, .queues, .faults, .fronds, .field] s (execSafe f o s crit) := by
  unfold execSafe
  try dsimp only
  repeat' first
    | with_reducible assumption | decide | with_reducible exact Only.refl _ _ | with_reducible apply OnlyBy.next
    | with_reducible apply OnlyBy.ite | with_reducible apply only_rxOrder | with_reducible apply Only.ite
    | (fail_if_no_progress ((with_reducible apply Only.mk_of) <;> first | exact Or.inl (by decide) | with_reducible exact Or.inr rfl | skip)) | with_reducible exact Or.inr rfl
    | split

theorem only_execWdExpired (s : State) (f : Nat) (at_ : Nat) (crit : List CritIn) : OnlyBy [.field] s (execWdExpired f at_ s crit) := by
  unfold execWdExpired
  try dsimp only
  repeat' first
    | with_reducible assumption | decide | with_reducible exact Only.refl _ _ | with_reducible apply OnlyBy.next
    | with_reducible apply OnlyBy.ite | with_reducible apply only_modField | with_reducible apply Only.ite | split

theorem only_execConversion (s : State) (ch : Nat) (c : BitVec 16) : OnlyBy [.field] s (execConversion ch c s) := by
  unfold execConversion
  try dsimp only
  repeat' first
    | with_reducible assumption | decide | with_reducible exact Only.refl _ _ | with_reducible apply OnlyBy.next
    | with_reducible apply OnlyBy.ite | with_reducible apply only_modField | with_reducible apply Only.ite | split

theorem only_execIntegratorStep (s : State) (ch : Nat) (uv : Int) (at_ : Int) : OnlyBy [.field] s (execIntegratorStep ch uv at_ s) := by
  unfold execIntegratorStep
  try dsimp only
  repeat' first
    | with_reducible assumption | decide | with_reducible exact Only.refl _ _ | with_reducible apply OnlyBy.next
    | with_reducible apply OnlyBy.ite | with_reducible apply only_modField | with_reducible apply Only.ite | split

theorem only_execRegulatorEvaluation (s : State) (ch : Nat) (r : RegIn) : OnlyBy [.field] s (execRegulatorEvaluation ch r s) := by
  unfold execRegulatorEvaluation
  try dsimp only
  repeat' first
    | with_reducible assumption | decide | with_reducible exact Only.refl _ _ | with_reducible apply OnlyBy.next
    | with_reducible apply OnlyBy.ite | with_reducible apply only_modField | with_reducible apply Only.ite | split

theorem only_execChannelDiagnostic (s : State) (ch b : Nat) (i : DiagIn) (n : Nat) : OnlyBy [.field] s (execChannelDiagnostic ch b i n s) := by
  unfold execChannelDiagnostic
  try dsimp only
  repeat' first
    | with_reducible assumption | decide | with_reducible exact Only.refl _ _ | with_reducible apply OnlyBy.next
    | with_reducible apply OnlyBy.ite | with_reducible apply only_modField | with_reducible apply Only.ite | split

theorem only_execDoThermal (s : State) (ch : Nat) (temp : Int) : OnlyBy [.field] s (execDoThermal ch temp s) := by
  unfold execDoThermal
  try dsimp only
  repeat' first
    | with_reducible assumption | decide | with_reducible exact Only.refl _ _ | with_reducible apply OnlyBy.next
    | with_reducible apply OnlyBy.ite | with_reducible apply only_modField | with_reducible apply Only.ite
    | (fail_if_no_progress ((with_reducible apply Only.mk_of) <;> first | exact Or.inl (by decide) | with_reducible exact Or.inr rfl | skip)) | with_reducible exact Or.inr rfl
    | split

theorem only_execRegFaultRestart (s : State) (ch : Nat) : OnlyBy [.field] s (execRegFaultRestart ch s) := by
  unfold execRegFaultRestart
  try dsimp only
  repeat' first
    | with_reducible assumption | decide | with_reducible exact Only.refl _ _ | with_reducible apply OnlyBy.next
    | with_reducible apply OnlyBy.ite | with_reducible apply only_modField | with_reducible apply Only.ite
    | (fail_if_no_progress ((with_reducible apply Only.mk_of) <;> first | exact Or.inl (by decide) | with_reducible exact Or.inr rfl | skip)) | with_reducible exact Or.inr rfl
    | split

theorem only_execFrondCause (s : State) (f b : Nat) (q : Seen) (crit : List CritIn) : OnlyBy [.field] s (execFrondCause f b q crit s) := by
  unfold execFrondCause
  try dsimp only
  repeat' first
    | with_reducible assumption | decide | with_reducible exact Only.refl _ _ | with_reducible apply OnlyBy.next
    | with_reducible apply OnlyBy.ite | with_reducible apply Only.ite
    | (fail_if_no_progress ((with_reducible apply Only.mk_of) <;> first | exact Or.inl (by decide) | with_reducible exact Or.inr rfl | skip)) | with_reducible exact Or.inr rfl
    | split

theorem only_execFrondInputRestart (s : State) (f : Nat) : OnlyBy [.field] s (execFrondInputRestart f s) := by
  unfold execFrondInputRestart
  try dsimp only
  repeat' first
    | with_reducible assumption | decide | with_reducible exact Only.refl _ _ | with_reducible apply OnlyBy.next
    | with_reducible apply OnlyBy.ite | with_reducible apply only_modField | with_reducible apply Only.ite | split

theorem only_execAuxPowerArrive (s : State) (f : Nat) (otp : List TrimIn) : OnlyBy [.field] s (execAuxPowerArrive f otp s) := by
  unfold execAuxPowerArrive
  try dsimp only
  repeat' first
    | with_reducible assumption | decide | with_reducible exact Only.refl _ _ | with_reducible apply OnlyBy.next
    | with_reducible apply OnlyBy.ite | with_reducible apply Only.ite
    | (fail_if_no_progress ((with_reducible apply Only.mk_of) <;> first | exact Or.inl (by decide) | with_reducible exact Or.inr rfl | skip)) | with_reducible exact Or.inr rfl
    | split

theorem only_execAuxPowerLoss (s : State) (f : Nat) : OnlyBy [.field] s (execAuxPowerLoss f s) := by
  unfold execAuxPowerLoss
  try dsimp only
  repeat' first
    | with_reducible assumption | decide | with_reducible exact Only.refl _ _ | with_reducible apply OnlyBy.next
    | with_reducible apply OnlyBy.ite
    | (fail_if_no_progress ((with_reducible apply Only.mk_of) <;> first | exact Or.inl (by decide) | with_reducible exact Or.inr rfl | skip)) | with_reducible exact Or.inr rfl

theorem only_execFsupArrive (s : State) (f : Nat) (q : Seen) (otp : List TrimIn) : OnlyBy [.field] s (execFsupArrive f s q otp) := by
  unfold execFsupArrive
  try dsimp only
  repeat' first
    | with_reducible assumption | decide | with_reducible exact Only.refl _ _ | with_reducible apply OnlyBy.next
    | with_reducible apply OnlyBy.ite | with_reducible apply Only.ite
    | (fail_if_no_progress ((with_reducible apply Only.mk_of) <;> first | exact Or.inl (by decide) | with_reducible exact Or.inr rfl | skip)) | with_reducible exact Or.inr rfl
    | split

theorem only_execClkBChange (s : State) (f : Nat) (bDelivers : Bool) : OnlyBy [.field] s (execClkBChange f bDelivers s) := by
  unfold execClkBChange
  try dsimp only
  repeat' first
    | with_reducible assumption | decide | with_reducible exact Only.refl _ _ | with_reducible apply OnlyBy.next
    | with_reducible apply OnlyBy.ite | with_reducible apply only_modField | with_reducible apply Only.ite
    | (fail_if_no_progress ((with_reducible apply Only.mk_of) <;> first | exact Or.inl (by decide) | with_reducible exact Or.inr rfl | skip)) | with_reducible exact Or.inr rfl
    | split

/-! ## PowerRows -/

theorem only_execHaltRelease (s : State)  : OnlyBy [.outbox, .halt, .auto, .tick, .clocks, .time, .resolution, .checkIn, .pins, .sync, .staged, .cfg, .paths, .pairs, .scratch, .sticky, .queues, .rings, .alives, .descs, .host, .doorbell, .cvu, .lsp, .faults, .badPaths, .pend, .fronds, .chans, .period, .snaps, .summary, .age, .features, .refs, .map, .caps, .rules, .measured, .supplies, .link, .budget, .security, .ports, .addrs, .pubs, .sessions, .timeView, .xfers] s (execHaltRelease s) := by
  unfold execHaltRelease
  try dsimp only
  repeat' first
    | with_reducible assumption | decide | with_reducible exact Only.refl _ _ | with_reducible apply OnlyBy.next
    | with_reducible apply OnlyBy.ite | with_reducible apply only_logicReset | with_reducible apply Only.ite
    | (fail_if_no_progress ((with_reducible apply Only.mk_of) <;> first | exact Or.inl (by decide) | with_reducible exact Or.inr rfl | skip)) | with_reducible exact Or.inr rfl
    | split

theorem only_execFunctionLevelReset (s : State)  : OnlyBy [.rings, .descs, .host] s (execFunctionLevelReset s) := by
  unfold execFunctionLevelReset
  try dsimp only
  repeat' first
    | with_reducible assumption | decide | with_reducible exact Only.refl _ _ | with_reducible apply OnlyBy.next
    | with_reducible apply OnlyBy.ite | with_reducible apply only_busMaster | with_reducible apply Only.ite | split

theorem only_execBusMasterClear (s : State)  : OnlyBy [.rings, .descs, .host] s (execBusMasterClear s) := by
  unfold execBusMasterClear
  try dsimp only
  repeat' first
    | with_reducible assumption | decide | with_reducible exact Only.refl _ _ | with_reducible apply OnlyBy.next
    | with_reducible apply OnlyBy.ite | with_reducible apply only_busMaster | with_reducible apply Only.ite | split

theorem only_execPciePerst (s : State) (high : Bool) (l : LinkIn) : OnlyBy [.outbox, .queues, .rings, .descs, .host, .faults, .link] s (execPciePerst high l s) := by
  unfold execPciePerst
  try dsimp only
  repeat' first
    | with_reducible assumption | decide | with_reducible exact Only.refl _ _ | with_reducible apply OnlyBy.next
    | with_reducible apply OnlyBy.ite | with_reducible apply only_ringsOff | with_reducible apply only_trainLink
    | with_reducible apply Only.ite
    | (fail_if_no_progress ((with_reducible apply Only.mk_of) <;> first | exact Or.inl (by decide) | with_reducible exact Or.inr rfl | skip)) | with_reducible exact Or.inr rfl
    | split

theorem only_execPcieDegraded (s : State) (gts width : Nat) : OnlyBy [.outbox, .queues, .faults, .link] s (execPcieDegraded gts width s) := by
  unfold execPcieDegraded
  try dsimp only
  repeat' first
    | with_reducible assumption | decide | with_reducible exact Only.refl _ _ | with_reducible apply OnlyBy.next
    | with_reducible apply OnlyBy.ite | with_reducible apply only_linkSource | with_reducible apply Only.ite
    | (fail_if_no_progress ((with_reducible apply Only.mk_of) <;> first | exact Or.inl (by decide) | with_reducible exact Or.inr rfl | skip)) | with_reducible exact Or.inr rfl
    | split

theorem only_execVlogValid (s : State) (cold resetLow boot1 : Bool) : OnlyBy [.halt, .clocks, .supplies] s (execVlogValid cold resetLow boot1 s) := by
  unfold execVlogValid
  try dsimp only
  repeat' first
    | with_reducible assumption | decide | with_reducible exact Only.refl _ _ | with_reducible apply OnlyBy.next
    | with_reducible apply OnlyBy.ite | with_reducible apply Only.ite
    | (fail_if_no_progress ((with_reducible apply Only.mk_of) <;> first | exact Or.inl (by decide) | with_reducible exact Or.inr rfl | skip)) | with_reducible exact Or.inr rfl
    | split

theorem only_execAuxPowerEnable (s : State) (g : Nat) : OnlyBy [.supplies] s (execAuxPowerEnable g s) := by
  unfold execAuxPowerEnable
  try dsimp only
  repeat' first
    | with_reducible assumption | decide | with_reducible exact Only.refl _ _ | with_reducible apply OnlyBy.next
    | with_reducible apply OnlyBy.ite | with_reducible apply Only.ite
    | (fail_if_no_progress ((with_reducible apply Only.mk_of) <;> first | exact Or.inl (by decide) | with_reducible exact Or.inr rfl | skip)) | with_reducible exact Or.inr rfl
    | split

theorem only_execModuleReset (s : State) (brownOut : Bool) : OnlyBy [.outbox, .halt, .auto, .tick, .clocks, .time, .resolution, .checkIn, .pins, .sync, .staged, .cfg, .paths, .pairs, .scratch, .sticky, .queues, .rings, .alives, .descs, .host, .doorbell, .cvu, .lsp, .faults, .badPaths, .pend, .fronds, .chans, .period, .snaps, .summary, .age, .features, .refs, .map, .caps, .rules, .measured, .supplies, .link, .budget, .security, .ports, .addrs, .pubs, .sessions, .timeView, .xfers] s (execModuleReset brownOut s) := by
  unfold execModuleReset
  try dsimp only
  repeat' first
    | with_reducible assumption | decide | with_reducible exact Only.refl _ _ | with_reducible apply OnlyBy.next
    | with_reducible apply OnlyBy.ite | with_reducible apply only_logicReset | with_reducible apply only_safeAll
    | with_reducible apply Only.ite
    | (fail_if_no_progress ((with_reducible apply Only.mk_of) <;> first | exact Or.inl (by decide) | with_reducible exact Or.inr rfl | skip)) | with_reducible exact Or.inr rfl
    | split

theorem endTrial_life (x : Sec) : ((endTrial x).lc, (endTrial x).slots) = (x.lc, x.slots) := by
  unfold endTrial
  split <;> rfl

theorem only_execBootStart (s : State) (i : BootIn) : OnlyBy [.outbox, .halt, .auto, .clocks, .queues, .host, .faults, .fronds, .supplies, .link, .security, .ports, .sessions] s (execBootStart i s) := by
  unfold execBootStart
  try dsimp only
  repeat' first
    | with_reducible assumption | decide | with_reducible exact Only.refl _ _ | with_reducible apply OnlyBy.next
    | with_reducible apply OnlyBy.ite | with_reducible apply only_securityHalt | with_reducible apply only_lifeCycleCheck
    | with_reducible apply only_zeroise | with_reducible apply only_trainLink | with_reducible apply only_chooseImage
    | with_reducible apply only_phaseSrc | (with_reducible refine Only.foldl (fun t' a' h' => ?_) _ ?_ <;> (try dsimp only))
    | with_reducible apply Only.ite
    | (fail_if_no_progress ((with_reducible apply Only.mk_of) <;> first | exact Or.inl (by decide) | with_reducible exact Or.inr rfl | skip)) | with_reducible exact Or.inr rfl
    | split | exact Or.inr (endTrial_life _)

theorem only_execBootDone (s : State)  : OnlyBy [.outbox, .halt, .queues, .rings, .alives, .host, .faults, .supplies, .security] s (execBootDone s) := by
  unfold execBootDone
  try dsimp only
  repeat' first
    | with_reducible assumption | decide | with_reducible exact Only.refl _ _ | with_reducible apply OnlyBy.next
    | with_reducible apply OnlyBy.ite | with_reducible refine only_raise_low (by decide) ?_ ?_
    | with_reducible refine only_raise_mid (by first | decide | exact causeCls_le _) ?_ ?_ | with_reducible apply only_raise
    | with_reducible apply only_mpRings | with_reducible apply Only.ite
    | (fail_if_no_progress ((with_reducible apply Only.mk_of) <;> first | exact Or.inl (by decide) | with_reducible exact Or.inr rfl | skip)) | with_reducible exact Or.inr rfl
    | split

theorem only_execAutonomousCommit (s : State)  : OnlyBy [.outbox, .resolution, .staged, .pairs, .sticky, .queues, .rings, .alives, .descs, .host, .faults, .pend, .fronds, .link, .budget, .sessions] s (execAutonomousCommit s) := by
  unfold execAutonomousCommit
  try dsimp only
  repeat' first
    | with_reducible assumption | decide | with_reducible exact Only.refl _ _ | with_reducible apply OnlyBy.next
    | with_reducible apply OnlyBy.ite | with_reducible apply only_outp | with_reducible apply only_modRing
    | with_reducible apply only_takeDesc | with_reducible apply only_commitCore | with_reducible apply only_stageBlob
    | with_reducible apply Only.ite
    | (fail_if_no_progress ((with_reducible apply Only.mk_of) <;> first | exact Or.inl (by decide) | with_reducible exact Or.inr rfl | skip)) | with_reducible exact Or.inr rfl
    | split | (intro _; intros; try dsimp only)

theorem only_execSupplyPhase (s : State) (ph : Nat) : OnlyBy [.outbox, .queues, .faults, .supplies] s (execSupplyPhase ph s) := by
  unfold execSupplyPhase
  try dsimp only
  repeat' first
    | with_reducible assumption | decide | with_reducible exact Only.refl _ _ | with_reducible apply OnlyBy.next
    | with_reducible apply OnlyBy.ite | with_reducible apply only_phaseSrc | with_reducible apply Only.ite
    | (fail_if_no_progress ((with_reducible apply Only.mk_of) <;> first | exact Or.inl (by decide) | with_reducible exact Or.inr rfl | skip)) | with_reducible exact Or.inr rfl
    | split

theorem only_execSupplyPhaseRetry (s : State) (ph : Nat) (restored : Bool) : OnlyBy [.outbox, .queues, .faults, .supplies] s (execSupplyPhaseRetry ph restored s) := by
  unfold execSupplyPhaseRetry
  try dsimp only
  repeat' first
    | with_reducible assumption | decide | with_reducible exact Only.refl _ _ | with_reducible apply OnlyBy.next
    | with_reducible apply OnlyBy.ite | with_reducible apply only_phaseSrc | with_reducible apply Only.ite
    | (fail_if_no_progress ((with_reducible apply Only.mk_of) <;> first | exact Or.inl (by decide) | with_reducible exact Or.inr rfl | skip)) | with_reducible exact Or.inr rfl
    | split

/-! ## TimeRows -/

theorem only_execTimeLocked (s : State)  : OnlyBy [.outbox, .time, .queues, .faults] s (execTimeLocked s) := by
  unfold execTimeLocked
  try dsimp only
  repeat' first
    | with_reducible assumption | decide | with_reducible exact Only.refl _ _ | with_reducible apply OnlyBy.next
    | with_reducible apply OnlyBy.ite | with_reducible apply only_inOneCycle | with_reducible apply only_setTime
    | with_reducible apply Only.ite | split | (intro _; intros; try dsimp only)

theorem only_execTimeHoldover (s : State)  : OnlyBy [.outbox, .time, .queues, .faults] s (execTimeHoldover s) := by
  unfold execTimeHoldover
  try dsimp only
  repeat' first
    | with_reducible assumption | decide | with_reducible exact Only.refl _ _ | with_reducible apply OnlyBy.next
    | with_reducible apply OnlyBy.ite | with_reducible apply only_inOneCycle | with_reducible apply only_setTime
    | with_reducible apply Only.ite | split | (intro _; intros; try dsimp only)

theorem only_execTimeRegained (s : State)  : OnlyBy [.outbox, .time, .queues, .faults] s (execTimeRegained s) := by
  unfold execTimeRegained
  try dsimp only
  repeat' first
    | with_reducible assumption | decide | with_reducible exact Only.refl _ _ | with_reducible apply OnlyBy.next
    | with_reducible apply OnlyBy.ite | with_reducible apply only_inOneCycle | with_reducible apply only_setTime
    | with_reducible apply Only.ite | split | (intro _; intros; try dsimp only)

theorem only_execSyncInSnap (s : State) (cycles : Nat) : OnlyBy [.outbox, .fronds] s (execSyncInSnap cycles s) := by
  unfold execSyncInSnap
  try dsimp only
  repeat' first
    | with_reducible assumption | decide | with_reducible exact Only.refl _ _ | with_reducible apply OnlyBy.next
    | with_reducible apply OnlyBy.ite | with_reducible apply only_snapFrondIn
    | (with_reducible refine Only.foldl (fun t' a' h' => ?_) _ ?_ <;> (try dsimp only)) | with_reducible apply Only.ite | split

theorem only_execSyncInPhaseReset (s : State)  : OnlyBy [.sync] s (execSyncInPhaseReset s) := by
  unfold execSyncInPhaseReset
  try dsimp only
  repeat' first
    | with_reducible assumption | decide | with_reducible exact Only.refl _ _ | with_reducible apply OnlyBy.next
    | with_reducible apply OnlyBy.ite | with_reducible apply Only.ite
    | (fail_if_no_progress ((with_reducible apply Only.mk_of) <;> first | exact Or.inl (by decide) | with_reducible exact Or.inr rfl | skip)) | with_reducible exact Or.inr rfl
    | split

theorem only_execSyncInCaptureTrigger (s : State) (cycles : Nat) : OnlyBy [.caps] s (execSyncInCaptureTrigger cycles s) := by
  unfold execSyncInCaptureTrigger
  try dsimp only
  repeat' first
    | with_reducible assumption | decide | with_reducible exact Only.refl _ _ | with_reducible apply OnlyBy.next
    | with_reducible apply OnlyBy.ite | with_reducible apply only_capTrigger
    | with_reducible refine only_capTrigger_eq (by assumption) ?_ ?_
    | (with_reducible refine Only.foldl (fun t' a' h' => ?_) _ ?_ <;> (try dsimp only)) | with_reducible apply Only.ite | split

theorem only_execSyncDone (s : State)  : OnlyBy [.outbox, .sync, .rings, .descs, .sessions] s (execSyncDone s) := by
  unfold execSyncDone
  try dsimp only
  repeat' first
    | with_reducible assumption | decide | with_reducible exact Only.refl _ _ | with_reducible apply OnlyBy.next
    | with_reducible apply OnlyBy.ite | with_reducible apply only_finishSync | with_reducible apply Only.ite | split

theorem only_execTickOutFall (s : State)  : OnlyBy [.pins] s (execTickOutFall s) := by
  unfold execTickOutFall
  try dsimp only
  repeat' first
    | with_reducible assumption | decide | with_reducible exact Only.refl _ _ | with_reducible apply OnlyBy.next
    | with_reducible apply OnlyBy.ite | with_reducible apply Only.ite
    | (fail_if_no_progress ((with_reducible apply Only.mk_of) <;> first | exact Or.inl (by decide) | with_reducible exact Or.inr rfl | skip)) | with_reducible exact Or.inr rfl
    | split

theorem only_execSyncOutRepeat (s : State) (level : Bool) : OnlyBy [.pins] s (execSyncOutRepeat level s) := by
  unfold execSyncOutRepeat
  try dsimp only
  repeat' first
    | with_reducible assumption | decide | with_reducible exact Only.refl _ _ | with_reducible apply OnlyBy.next
    | with_reducible apply OnlyBy.ite | with_reducible apply Only.ite
    | (fail_if_no_progress ((with_reducible apply Only.mk_of) <;> first | exact Or.inl (by decide) | with_reducible exact Or.inr rfl | skip)) | with_reducible exact Or.inr rfl
    | split

/-! ## Capture -/

theorem only_execCaptureReadout (s : State) (r : Nat) : OnlyBy [.outbox, .queues, .rings, .descs, .caps, .sessions] s (execCaptureReadout r s) := by
  unfold execCaptureReadout
  try dsimp only
  repeat' first
    | with_reducible assumption | decide | with_reducible exact Only.refl _ _ | with_reducible apply OnlyBy.next
    | with_reducible apply OnlyBy.ite | with_reducible apply only_modCap | with_reducible apply only_capReadout
    | with_reducible apply Only.ite
    | (fail_if_no_progress ((with_reducible apply Only.mk_of) <;> first | exact Or.inl (by decide) | with_reducible exact Or.inr rfl | skip)) | with_reducible exact Or.inr rfl
    | split

/-! ## Delivery -/

theorem only_execRecordDelivery (s : State) (q : Nat) (bad : Bad) : OnlyBy [.outbox, .halt, .pins, .queues, .rings, .faults, .ports, .pubs] s (execRecordDelivery q bad s) := by
  unfold execRecordDelivery
  try dsimp only
  repeat' first
    | with_reducible assumption | decide | with_reducible exact Only.refl _ _ | with_reducible apply OnlyBy.next
    | with_reducible apply OnlyBy.ite | with_reducible apply only_publish | with_reducible apply only_cellGone
    | with_reducible apply only_eventForward | with_reducible apply only_drainCheck | with_reducible apply only_deliverRing
    | with_reducible apply Only.ite | split

theorem only_execHoldoffExpiry (s : State) (r : Nat) : OnlyBy [.outbox, .rings] s (execHoldoffExpiry r s) := by
  unfold execHoldoffExpiry
  try dsimp only
  repeat' first
    | with_reducible assumption | decide | with_reducible exact Only.refl _ _ | with_reducible apply OnlyBy.next
    | with_reducible apply OnlyBy.ite | with_reducible apply only_msi | with_reducible apply only_modRing
    | with_reducible apply Only.ite
    | (fail_if_no_progress ((with_reducible apply Only.mk_of) <;> first | exact Or.inl (by decide) | with_reducible exact Or.inr rfl | skip)) | with_reducible exact Or.inr rfl
    | split

theorem only_execLspFifoMove (s : State) (bad : List (Nat × List (Nat × Byte))) : OnlyBy [.outbox, .queues, .lsp, .faults] s (execLspFifoMove bad s) := by
  unfold execLspFifoMove
  try dsimp only
  repeat' first
    | with_reducible assumption | decide | with_reducible exact Only.refl _ _ | with_reducible apply OnlyBy.next
    | with_reducible apply OnlyBy.ite | with_reducible apply only_settle | with_reducible apply only_lspSettle
    | with_reducible apply only_cellGone | (with_reducible refine Only.foldl (fun t' a' h' => ?_) _ ?_ <;> (try dsimp only))
    | with_reducible apply Only.ite
    | (fail_if_no_progress ((with_reducible apply Only.mk_of) <;> first | exact Or.inl (by decide) | with_reducible exact Or.inr rfl | skip)) | with_reducible exact Or.inr rfl
    | split

theorem only_execLspRead (s : State)  : OnlyBy [.outbox, .queues, .lsp] s (execLspRead s) := by
  unfold execLspRead
  try dsimp only
  repeat' first
    | with_reducible assumption | decide | with_reducible exact Only.refl _ _ | with_reducible apply OnlyBy.next
    | with_reducible apply OnlyBy.ite | with_reducible apply only_outp | with_reducible apply only_lspStages
    | with_reducible apply Only.ite
    | (fail_if_no_progress ((with_reducible apply Only.mk_of) <;> first | exact Or.inl (by decide) | with_reducible exact Or.inr rfl | skip)) | with_reducible exact Or.inr rfl
    | split

theorem only_execFlushTakeEffect (s : State) (q : Nat) : OnlyBy [.outbox, .queues, .rings, .descs, .sessions] s (execFlushTakeEffect q s) := by
  unfold execFlushTakeEffect
  try dsimp only
  repeat' first
    | with_reducible assumption | decide | with_reducible exact Only.refl _ _ | with_reducible apply OnlyBy.next
    | with_reducible apply OnlyBy.ite | with_reducible apply only_flushNow | with_reducible apply Only.ite | split

theorem only_execDatagramClose (s : State) (i : Nat) : OnlyBy [.outbox, .queues, .faults, .ports, .pubs] s (execDatagramClose i s) := by
  unfold execDatagramClose
  try dsimp only
  repeat' first
    | with_reducible assumption | decide | with_reducible exact Only.refl _ _ | with_reducible apply OnlyBy.next
    | with_reducible apply OnlyBy.ite | with_reducible apply only_closeGram | with_reducible apply Only.ite | split

theorem only_execLspRdclkEdge (s : State)  : OnlyBy [.queues, .lsp] s (execLspRdclkEdge s) := by
  unfold execLspRdclkEdge
  try dsimp only
  repeat' first
    | with_reducible assumption | decide | with_reducible exact Only.refl _ _ | with_reducible apply OnlyBy.next
    | with_reducible apply OnlyBy.ite | with_reducible apply only_lspStages | with_reducible apply Only.ite | split

theorem only_execReserveStepBoundary (s : State)  : OnlyBy [.queues] s (execReserveStepBoundary s) := by
  unfold execReserveStepBoundary
  try dsimp only
  repeat' first
    | with_reducible assumption | decide | with_reducible exact Only.refl _ _ | with_reducible apply OnlyBy.next
    | with_reducible apply OnlyBy.ite | with_reducible apply only_settle
    | (with_reducible refine Only.foldl (fun t' a' h' => ?_) _ ?_ <;> (try dsimp only)) | with_reducible apply Only.ite
    | (fail_if_no_progress ((with_reducible apply Only.mk_of) <;> first | exact Or.inl (by decide) | with_reducible exact Or.inr rfl | skip)) | with_reducible exact Or.inr rfl
    | split

/-! ## RegRows -/

theorem only_execDbCmd (s : State) (v : Word) : OnlyBy [.outbox, .queues, .rings, .doorbell, .faults] s (execDbCmd v s) := by
  unfold execDbCmd
  try dsimp only
  repeat' first
    | with_reducible assumption | decide | with_reducible exact Only.refl _ _ | with_reducible apply OnlyBy.next
    | with_reducible apply OnlyBy.ite | with_reducible apply only_doorbell | with_reducible apply Only.ite | split

theorem only_execDbConsumer (s : State) (ofs : Nat) (v : Word) : OnlyBy [.outbox, .queues, .rings, .host, .doorbell, .faults] s (execDbConsumer ofs v s) := by
  unfold execDbConsumer
  try dsimp only
  repeat' first
    | with_reducible assumption | decide | with_reducible exact Only.refl _ _ | with_reducible apply OnlyBy.next
    | with_reducible apply OnlyBy.ite | with_reducible apply only_bar2Write | with_reducible apply only_unsupported
    | with_reducible apply Only.ite | split

theorem only_execRingEnable (s : State) (p : Path) (r : Nat) (v : Word) : OnlyBy [.outbox, .staged, .paths, .pairs, .scratch, .sticky, .queues, .rings, .alives, .host, .doorbell, .cvu, .faults, .chans, .security] s (execRingEnable p r v s) := by
  unfold execRingEnable
  try dsimp only
  repeat' first
    | with_reducible assumption | decide | with_reducible exact Only.refl _ _ | with_reducible apply OnlyBy.next
    | with_reducible apply OnlyBy.ite | with_reducible apply only_busWrite

theorem only_execRingDisable (s : State) (p : Path) (r : Nat) (v : Word) : OnlyBy [.outbox, .staged, .paths, .pairs, .scratch, .sticky, .queues, .rings, .alives, .host, .doorbell, .cvu, .faults, .chans, .security] s (execRingDisable p r v s) := by
  unfold execRingDisable
  try dsimp only
  repeat' first
    | with_reducible assumption | decide | with_reducible exact Only.refl _ _ | with_reducible apply OnlyBy.next
    | with_reducible apply OnlyBy.ite | with_reducible apply only_busWrite

theorem only_execStatusBaseWrite (s : State) (p : Path) (v : DWord) : OnlyBy [.outbox, .staged, .paths, .pairs, .scratch, .sticky, .queues, .rings, .alives, .host, .doorbell, .cvu, .faults, .chans, .security] s (execStatusBaseWrite p v s) := by
  unfold execStatusBaseWrite
  try dsimp only
  repeat' first
    | with_reducible assumption | decide | with_reducible exact Only.refl _ _ | with_reducible apply OnlyBy.next
    | with_reducible apply OnlyBy.ite | with_reducible apply only_busWrite

theorem only_execChnSel (s : State) (p : Path) (v : Word) : OnlyBy [.outbox, .staged, .paths, .pairs, .scratch, .sticky, .queues, .rings, .alives, .host, .doorbell, .cvu, .faults, .chans, .security] s (execChnSel p v s) := by
  unfold execChnSel
  try dsimp only
  repeat' first
    | with_reducible assumption | decide | with_reducible exact Only.refl _ _ | with_reducible apply OnlyBy.next
    | with_reducible apply OnlyBy.ite | with_reducible apply only_busWrite

theorem only_execBroadcastWrite (s : State) (p : Path) (ofs : Nat) (v : Word) (chw : List (Nat × Word)) : OnlyBy [.outbox, .staged, .paths, .pairs, .scratch, .sticky, .queues, .rings, .alives, .host, .doorbell, .cvu, .faults, .chans, .security] s (execBroadcastWrite p ofs v s chw) := by
  unfold execBroadcastWrite
  try dsimp only
  repeat' first
    | with_reducible assumption | decide | with_reducible exact Only.refl _ _ | with_reducible apply OnlyBy.next
    | with_reducible apply OnlyBy.ite | with_reducible apply only_busWrite | with_reducible apply only_busSticky
    | with_reducible apply Only.ite | split

theorem only_execBasicCodeWrite (s : State) (p : Path) (ofs : Nat) (v : Word) : OnlyBy [.outbox, .staged, .paths, .pairs, .scratch, .sticky, .queues, .rings, .alives, .host, .doorbell, .cvu, .faults, .chans, .security] s (execBasicCodeWrite p ofs v s) := by
  unfold execBasicCodeWrite
  try dsimp only
  repeat' first
    | with_reducible assumption | decide | with_reducible exact Only.refl _ _ | with_reducible apply OnlyBy.next
    | with_reducible apply OnlyBy.ite | with_reducible apply only_busWrite | with_reducible apply Only.ite | split

theorem only_execRwpValueWrite (s : State) (p : Path) (ofs : Nat) (v : Word) : OnlyBy [.outbox, .staged, .paths, .pairs, .scratch, .sticky, .queues, .rings, .alives, .host, .doorbell, .cvu, .faults, .chans, .security] s (execRwpValueWrite p ofs v s) := by
  unfold execRwpValueWrite
  try dsimp only
  repeat' first
    | with_reducible assumption | decide | with_reducible exact Only.refl _ _ | with_reducible apply OnlyBy.next
    | with_reducible apply OnlyBy.ite | with_reducible apply only_busWrite | with_reducible apply Only.ite | split

theorem only_execRwpComplementWrite (s : State) (p : Path) (ofs : Nat) (v : Word) : OnlyBy [.outbox, .staged, .paths, .pairs, .scratch, .sticky, .queues, .rings, .alives, .host, .doorbell, .cvu, .faults, .chans, .security] s (execRwpComplementWrite p ofs v s) := by
  unfold execRwpComplementWrite
  try dsimp only
  repeat' first
    | with_reducible assumption | decide | with_reducible exact Only.refl _ _ | with_reducible apply OnlyBy.next
    | with_reducible apply OnlyBy.ite | with_reducible apply only_busWrite | with_reducible apply Only.ite | split

theorem only_execReg64LowRead (s : State) (p : Path) (ofs : Nat) (sp : Space) : OnlyBy [.outbox, .paths] s (execReg64LowRead p ofs s sp) := by
  unfold execReg64LowRead
  try dsimp only
  repeat' first
    | with_reducible assumption | decide | with_reducible exact Only.refl _ _ | with_reducible apply OnlyBy.next
    | with_reducible apply OnlyBy.ite | with_reducible apply only_modPath | with_reducible apply only_answer
    | with_reducible apply only_unsupported | with_reducible apply only_endpointRead | with_reducible apply Only.ite
    | (fail_if_no_progress ((with_reducible apply Only.mk_of) <;> first | exact Or.inl (by decide) | with_reducible exact Or.inr rfl | skip)) | with_reducible exact Or.inr rfl
    | split

theorem only_execReg64HighRead (s : State) (p : Path) (ofs : Nat) : OnlyBy [.outbox, .paths, .sticky] s (execReg64HighRead p ofs s) := by
  unfold execReg64HighRead
  try dsimp only
  repeat' first
    | with_reducible assumption | decide | with_reducible exact Only.refl _ _ | with_reducible apply OnlyBy.next
    | with_reducible apply OnlyBy.ite | with_reducible apply only_modPath | with_reducible apply only_answer
    | with_reducible apply only_unsupported | with_reducible apply Only.ite
    | (fail_if_no_progress ((with_reducible apply Only.mk_of) <;> first | exact Or.inl (by decide) | with_reducible exact Or.inr rfl | skip)) | with_reducible exact Or.inr rfl
    | split

theorem only_execReg64AtomicRead (s : State) (p : Path) (ofs : Nat) (sp : Space) : OnlyBy [.outbox] s (execReg64AtomicRead p ofs s sp) := by
  unfold execReg64AtomicRead
  try dsimp only
  repeat' first
    | with_reducible assumption | decide | with_reducible exact Only.refl _ _ | with_reducible apply OnlyBy.next
    | with_reducible apply OnlyBy.ite | with_reducible apply only_answer | with_reducible apply only_unsupported
    | with_reducible apply only_endpointRead | with_reducible apply Only.ite | split

theorem only_execReg64LowWrite (s : State) (p : Path) (ofs : Nat) (v : Word) : OnlyBy [.outbox, .staged, .paths, .pairs, .scratch, .sticky, .queues, .rings, .alives, .host, .doorbell, .cvu, .faults, .chans, .security] s (execReg64LowWrite p ofs v s) := by
  unfold execReg64LowWrite
  try dsimp only
  repeat' first
    | with_reducible assumption | decide | with_reducible exact Only.refl _ _ | with_reducible apply OnlyBy.next
    | with_reducible apply OnlyBy.ite | with_reducible apply only_busWrite | with_reducible apply Only.ite | split

theorem only_execReg64HighWrite (s : State) (p : Path) (ofs : Nat) (v : Word) : OnlyBy [.outbox, .staged, .paths, .pairs, .scratch, .sticky, .queues, .rings, .alives, .host, .doorbell, .cvu, .faults, .chans, .security] s (execReg64HighWrite p ofs v s) := by
  unfold execReg64HighWrite
  try dsimp only
  repeat' first
    | with_reducible assumption | decide | with_reducible exact Only.refl _ _ | with_reducible apply OnlyBy.next
    | with_reducible apply OnlyBy.ite | with_reducible apply only_busWrite | with_reducible apply Only.ite | split

theorem only_execMapPeekIdx (s : State) (p : Path) (v : Word) : OnlyBy [.outbox, .staged, .paths, .pairs, .scratch, .sticky, .queues, .rings, .alives, .host, .doorbell, .cvu, .faults, .chans, .security] s (execMapPeekIdx p v s) := by
  unfold execMapPeekIdx
  try dsimp only
  repeat' first
    | with_reducible assumption | decide | with_reducible exact Only.refl _ _ | with_reducible apply OnlyBy.next
    | with_reducible apply OnlyBy.ite | with_reducible apply only_busWrite

theorem only_execDiscard (s : State) (p : Path) (view : Bool) : OnlyBy [.outbox, .staged, .paths, .pairs, .scratch, .sticky, .queues, .rings, .alives, .host, .doorbell, .cvu, .faults, .chans, .security] s (execDiscard p view s) := by
  unfold execDiscard
  try dsimp only
  repeat' first
    | with_reducible assumption | decide | with_reducible exact Only.refl _ _ | with_reducible apply OnlyBy.next
    | with_reducible apply OnlyBy.ite | with_reducible apply only_busWrite

theorem only_execCvuCtlAlg (s : State) (p : Path) (u alg : Nat) : OnlyBy [.outbox, .staged, .paths, .pairs, .scratch, .sticky, .queues, .rings, .alives, .host, .doorbell, .cvu, .faults, .chans, .security] s (execCvuCtlAlg p u alg s) := by
  unfold execCvuCtlAlg
  try dsimp only
  repeat' first
    | with_reducible assumption | decide | with_reducible exact Only.refl _ _ | with_reducible apply OnlyBy.next
    | with_reducible apply OnlyBy.ite | with_reducible apply only_busWrite

theorem only_execCvuInit (s : State) (p : Path) (u alg : Nat) : OnlyBy [.outbox, .staged, .paths, .pairs, .scratch, .sticky, .queues, .rings, .alives, .host, .doorbell, .cvu, .faults, .chans, .security] s (execCvuInit p u alg s) := by
  unfold execCvuInit
  try dsimp only
  repeat' first
    | with_reducible assumption | decide | with_reducible exact Only.refl _ _ | with_reducible apply OnlyBy.next
    | with_reducible apply OnlyBy.ite | with_reducible apply only_busWrite

theorem only_execCvuFeed8 (s : State) (p : Path) (u : Nat) (v : Word) : OnlyBy [.outbox, .staged, .paths, .pairs, .scratch, .sticky, .queues, .rings, .alives, .host, .doorbell, .cvu, .faults, .chans, .security] s (execCvuFeed8 p u v s) := by
  unfold execCvuFeed8
  try dsimp only
  repeat' first
    | with_reducible assumption | decide | with_reducible exact Only.refl _ _ | with_reducible apply OnlyBy.next
    | with_reducible apply OnlyBy.ite | with_reducible apply only_busWrite

theorem only_execCvuFeed16 (s : State) (p : Path) (u : Nat) (v : Word) : OnlyBy [.outbox, .staged, .paths, .pairs, .scratch, .sticky, .queues, .rings, .alives, .host, .doorbell, .cvu, .faults, .chans, .security] s (execCvuFeed16 p u v s) := by
  unfold execCvuFeed16
  try dsimp only
  repeat' first
    | with_reducible assumption | decide | with_reducible exact Only.refl _ _ | with_reducible apply OnlyBy.next
    | with_reducible apply OnlyBy.ite | with_reducible apply only_busWrite

theorem only_execCvuFeed32 (s : State) (p : Path) (u : Nat) (v : Word) : OnlyBy [.outbox, .staged, .paths, .pairs, .scratch, .sticky, .queues, .rings, .alives, .host, .doorbell, .cvu, .faults, .chans, .security] s (execCvuFeed32 p u v s) := by
  unfold execCvuFeed32
  try dsimp only
  repeat' first
    | with_reducible assumption | decide | with_reducible exact Only.refl _ _ | with_reducible apply OnlyBy.next
    | with_reducible apply OnlyBy.ite | with_reducible apply only_busWrite

theorem only_execCvuStateWrite (s : State) (p : Path) (u : Nat) (v : Word) : OnlyBy [.outbox, .staged, .paths, .pairs, .scratch, .sticky, .queues, .rings, .alives, .host, .doorbell, .cvu, .faults, .chans, .security] s (execCvuStateWrite p u v s) := by
  unfold execCvuStateWrite
  try dsimp only
  repeat' first
    | with_reducible assumption | decide | with_reducible exact Only.refl _ _ | with_reducible apply OnlyBy.next
    | with_reducible apply OnlyBy.ite | with_reducible apply only_busWrite

theorem only_execDbgCtlWrite (s : State) (p : Path) (v : Word) (copyBad otpBad : Bool) : OnlyBy [.outbox, .halt, .sticky, .queues, .faults, .fronds, .security] s (execDbgCtlWrite p v copyBad otpBad s) := by
  unfold execDbgCtlWrite
  try dsimp only
  repeat' first
    | with_reducible assumption | decide | with_reducible exact Only.refl _ _ | with_reducible apply OnlyBy.next
    | with_reducible apply OnlyBy.ite | with_reducible apply only_lifeCycleCheck | with_reducible apply only_dbgWrite
    | with_reducible apply Only.ite | split

theorem only_execRegisterWrite (s : State) (p : Path) (ofs len : Nat) (v : DWord) (hw : Word) (chw : List (Nat × Word)) (sp : Space) : OnlyBy [.outbox, .staged, .paths, .pairs, .scratch, .sticky, .queues, .rings, .alives, .descs, .host, .doorbell, .cvu, .faults, .chans, .security] s (execRegisterWrite p ofs len v s hw chw sp) := by
  unfold execRegisterWrite
  try dsimp only
  repeat' first
    | with_reducible assumption | decide | with_reducible exact Only.refl _ _ | with_reducible apply OnlyBy.next
    | with_reducible apply OnlyBy.ite | with_reducible apply only_busWrite | with_reducible apply only_unsupported
    | with_reducible apply only_busSticky | with_reducible apply only_endpointWrite | with_reducible apply Only.ite | split

/-! ## DescRows -/

theorem only_execNop (s : State) (d : Desc) : OnlyBy [.outbox, .queues, .rings, .alives, .descs, .faults, .sessions] s (execNop d s) := by
  unfold execNop
  try dsimp only
  repeat' first
    | with_reducible assumption | decide | with_reducible exact Only.refl _ _ | with_reducible apply OnlyBy.next
    | with_reducible apply OnlyBy.ite | with_reducible apply only_sweepNops | with_reducible apply only_takeDesc
    | (intro _; intros; try dsimp only)

theorem only_execCfgWrite (s : State) (d : Desc) : OnlyBy [.outbox, .staged, .pairs, .sticky, .queues, .rings, .alives, .descs, .host, .faults, .sessions] s (execCfgWrite d s) := by
  unfold execCfgWrite
  try dsimp only
  repeat' first
    | with_reducible assumption | decide | with_reducible exact Only.refl _ _ | with_reducible apply OnlyBy.next
    | with_reducible apply OnlyBy.ite | with_reducible apply only_takeDesc | with_reducible apply only_cfgAct
    | (intro _; intros; try dsimp only)

theorem only_execSnap (s : State) (d : Desc) (cycles : Nat) : OnlyBy [.outbox, .queues, .rings, .alives, .descs, .faults, .fronds, .snaps, .sessions] s (execSnap d cycles s) := by
  unfold execSnap
  try dsimp only
  repeat' first
    | with_reducible assumption | decide | with_reducible exact Only.refl _ _ | with_reducible apply OnlyBy.next
    | with_reducible apply OnlyBy.ite | with_reducible apply only_takeDesc | with_reducible apply only_snapAct
    | (intro _; intros; try dsimp only)

theorem only_execOutputSet (s : State) (d : Desc) : OnlyBy [.outbox, .queues, .rings, .alives, .descs, .faults, .fronds, .sessions] s (execOutputSet d s) := by
  unfold execOutputSet
  try dsimp only
  repeat' first
    | with_reducible assumption | decide | with_reducible exact Only.refl _ _ | with_reducible apply OnlyBy.next
    | with_reducible apply OnlyBy.ite | with_reducible apply only_takeDesc | with_reducible apply only_outAct
    | (intro _; intros; try dsimp only)

theorem only_execArm (s : State) (d : Desc) : OnlyBy [.outbox, .queues, .rings, .alives, .descs, .faults, .caps, .sessions] s (execArm d s) := by
  unfold execArm
  try dsimp only
  repeat' first
    | with_reducible assumption | decide | with_reducible exact Only.refl _ _ | with_reducible apply OnlyBy.next
    | with_reducible apply OnlyBy.ite | with_reducible apply only_takeDesc | with_reducible apply only_armAct
    | (intro _; intros; try dsimp only)

theorem only_execDisarm (s : State) (d : Desc) : OnlyBy [.outbox, .queues, .rings, .alives, .descs, .faults, .caps, .sessions] s (execDisarm d s) := by
  unfold execDisarm
  try dsimp only
  repeat' first
    | with_reducible assumption | decide | with_reducible exact Only.refl _ _ | with_reducible apply OnlyBy.next
    | with_reducible apply OnlyBy.ite | with_reducible apply only_takeDesc | with_reducible apply only_armAct
    | (intro _; intros; try dsimp only)

theorem only_execTrigger (s : State) (d : Desc) (cycles : Nat) : OnlyBy [.outbox, .queues, .rings, .alives, .descs, .faults, .caps, .sessions] s (execTrigger d cycles s) := by
  unfold execTrigger
  try dsimp only
  repeat' first
    | with_reducible assumption | decide | with_reducible exact Only.refl _ _ | with_reducible apply OnlyBy.next
    | with_reducible apply OnlyBy.ite | with_reducible apply only_takeDesc | with_reducible apply only_triggerAct
    | (intro _; intros; try dsimp only)

theorem only_execMapRead (s : State) (d : Desc) : OnlyBy [.outbox, .queues, .rings, .alives, .descs, .faults, .sessions, .xfers] s (execMapRead d s) := by
  unfold execMapRead
  try dsimp only
  repeat' first
    | with_reducible assumption | decide | with_reducible exact Only.refl _ _ | with_reducible apply OnlyBy.next
    | with_reducible apply OnlyBy.ite | with_reducible apply only_takeDesc
    | (fail_if_no_progress ((with_reducible apply Only.mk_of) <;> first | exact Or.inl (by decide) | with_reducible exact Or.inr rfl | skip)) | with_reducible exact Or.inr rfl
    | (intro _; intros; try dsimp only)

theorem only_execMapReadDone (s : State)  : OnlyBy [.outbox, .queues, .rings, .descs, .sessions, .xfers] s (execMapReadDone s) := by
  unfold execMapReadDone
  try dsimp only
  repeat' first
    | with_reducible assumption | decide | with_reducible exact Only.refl _ _ | with_reducible apply OnlyBy.next
    | with_reducible apply OnlyBy.ite | with_reducible apply only_mapPull | with_reducible apply only_mapEnd
    | with_reducible apply Only.ite | split

theorem only_execFlush (s : State) (d : Desc) : OnlyBy [.outbox, .queues, .rings, .alives, .descs, .faults, .sessions] s (execFlush d s) := by
  unfold execFlush
  try dsimp only
  repeat' first
    | with_reducible assumption | decide | with_reducible exact Only.refl _ _ | with_reducible apply OnlyBy.next
    | with_reducible apply OnlyBy.ite | with_reducible apply only_takeDesc | with_reducible apply only_flushAct
    | (intro _; intros; try dsimp only)

theorem only_execRuleLoad (s : State) (d : Desc) : OnlyBy [.outbox, .staged, .queues, .rings, .alives, .descs, .faults, .sessions] s (execRuleLoad d s) := by
  unfold execRuleLoad
  try dsimp only
  repeat' first
    | with_reducible assumption | decide | with_reducible exact Only.refl _ _ | with_reducible apply OnlyBy.next
    | with_reducible apply OnlyBy.ite | with_reducible apply only_takeDesc | with_reducible apply only_ruleLoadAct
    | (intro _; intros; try dsimp only)

theorem only_execSpeedTable (s : State) (d : Desc) : OnlyBy [.outbox, .staged, .queues, .rings, .alives, .descs, .faults, .sessions] s (execSpeedTable d s) := by
  unfold execSpeedTable
  try dsimp only
  repeat' first
    | with_reducible assumption | decide | with_reducible exact Only.refl _ _ | with_reducible apply OnlyBy.next
    | with_reducible apply OnlyBy.ite | with_reducible apply only_complete | with_reducible apply only_takeDesc
    | with_reducible apply only_stageEdges | with_reducible apply Only.ite | split | (intro _; intros; try dsimp only)

theorem only_execSync (s : State) (d : Desc) : OnlyBy [.outbox, .sync, .queues, .rings, .alives, .descs, .faults, .sessions] s (execSync d s) := by
  unfold execSync
  try dsimp only
  repeat' first
    | with_reducible assumption | decide | with_reducible exact Only.refl _ _ | with_reducible apply OnlyBy.next
    | with_reducible apply OnlyBy.ite | with_reducible apply only_modOut | with_reducible apply only_takeDesc
    | (fail_if_no_progress ((with_reducible apply Only.mk_of) <;> first | exact Or.inl (by decide) | with_reducible exact Or.inr rfl | skip)) | with_reducible exact Or.inr rfl
    | (intro _; intros; try dsimp only)

theorem only_execFaultClearChannel (s : State) (d : Desc) : OnlyBy [.outbox, .queues, .rings, .alives, .descs, .faults, .fronds, .sessions] s (execFaultClearChannel d s) := by
  unfold execFaultClearChannel
  try dsimp only
  repeat' first
    | with_reducible assumption | decide | with_reducible exact Only.refl _ _ | with_reducible apply OnlyBy.next
    | with_reducible apply OnlyBy.ite | with_reducible apply only_complete | with_reducible apply only_takeDesc
    | with_reducible apply only_sendClear | with_reducible apply Only.ite | split | (intro _; intros; try dsimp only)

theorem only_execFaultClearFrond (s : State) (d : Desc) : OnlyBy [.outbox, .queues, .rings, .alives, .descs, .faults, .fronds, .sessions] s (execFaultClearFrond d s) := by
  unfold execFaultClearFrond
  try dsimp only
  repeat' first
    | with_reducible assumption | decide | with_reducible exact Only.refl _ _ | with_reducible apply OnlyBy.next
    | with_reducible apply OnlyBy.ite | with_reducible apply only_takeDesc | with_reducible apply only_clearFrondAct
    | (intro _; intros; try dsimp only)

theorem only_execFaultClearSource (s : State) (d : Desc) : OnlyBy [.outbox, .queues, .rings, .alives, .descs, .faults, .badPaths, .fronds, .sessions] s (execFaultClearSource d s) := by
  unfold execFaultClearSource
  try dsimp only
  repeat' first
    | with_reducible assumption | decide | with_reducible exact Only.refl _ _ | with_reducible apply OnlyBy.next
    | with_reducible apply OnlyBy.ite | with_reducible apply only_takeDesc | with_reducible apply only_clearSourceAct
    | (intro _; intros; try dsimp only)

theorem only_execFaultClearLatch (s : State) (d : Desc) : OnlyBy [.outbox, .queues, .rings, .alives, .descs, .faults, .sessions] s (execFaultClearLatch d s) := by
  unfold execFaultClearLatch
  try dsimp only
  repeat' first
    | with_reducible assumption | decide | with_reducible exact Only.refl _ _ | with_reducible apply OnlyBy.next
    | with_reducible apply OnlyBy.ite | with_reducible apply only_takeDesc | with_reducible apply only_clearLatchAct
    | (intro _; intros; try dsimp only)

theorem only_execCvuRun (s : State) (d : Desc) : OnlyBy [.outbox, .queues, .rings, .alives, .descs, .cvu, .faults, .sessions] s (execCvuRun d s) := by
  unfold execCvuRun
  try dsimp only
  repeat' first
    | with_reducible assumption | decide | with_reducible exact Only.refl _ _ | with_reducible apply OnlyBy.next
    | with_reducible apply OnlyBy.ite | with_reducible apply only_modOut | with_reducible apply only_takeDesc
    | with_reducible apply Only.ite
    | (fail_if_no_progress ((with_reducible apply Only.mk_of) <;> first | exact Or.inl (by decide) | with_reducible exact Or.inr rfl | skip)) | with_reducible exact Or.inr rfl
    | split | (intro _; intros; try dsimp only)

theorem only_execCvuRunDone (s : State) (u : Nat) : OnlyBy [.outbox, .rings, .descs, .cvu, .sessions] s (execCvuRunDone u s) := by
  unfold execCvuRunDone
  try dsimp only
  repeat' first
    | with_reducible assumption | decide | with_reducible exact Only.refl _ _ | with_reducible apply OnlyBy.next
    | with_reducible apply OnlyBy.ite | with_reducible apply only_cvuEnd | with_reducible apply Only.ite | split

theorem only_execTimeout (s : State) (didx : Half) (n : Nat) : OnlyBy [.outbox, .queues, .rings, .descs, .cvu, .sessions, .xfers] s (execTimeout didx n s) := by
  unfold execTimeout
  try dsimp only
  repeat' first
    | with_reducible assumption | decide | with_reducible exact Only.refl _ _ | with_reducible apply OnlyBy.next
    | with_reducible apply OnlyBy.ite | with_reducible apply only_timeOut | with_reducible apply Only.ite | split

theorem only_execBadOpcode (s : State) (d : Desc) : OnlyBy [.outbox, .queues, .rings, .alives, .descs, .faults, .sessions] s (execBadOpcode d s) := by
  unfold execBadOpcode
  try dsimp only
  repeat' first
    | with_reducible assumption | decide | with_reducible exact Only.refl _ _ | with_reducible apply OnlyBy.next
    | with_reducible apply OnlyBy.ite | with_reducible apply only_refuseDesc | with_reducible apply only_acceptAlive
    | with_reducible apply only_takeDesc | with_reducible apply Only.ite
    | (fail_if_no_progress ((with_reducible apply Only.mk_of) <;> first | exact Or.inl (by decide) | with_reducible exact Or.inr rfl | skip)) | with_reducible exact Or.inr rfl
    | split | (intro _; intros; try dsimp only)

/-! ## CommitRow -/

theorem only_execCommit (s : State) (d : Desc) : OnlyBy [.outbox, .resolution, .staged, .pairs, .queues, .rings, .alives, .descs, .faults, .pend, .fronds, .link, .budget, .sessions] s (execCommit d s) := by
  unfold execCommit
  try dsimp only
  repeat' first
    | with_reducible assumption | decide | with_reducible exact Only.refl _ _ | with_reducible apply OnlyBy.next
    | with_reducible apply OnlyBy.ite | with_reducible apply only_takeDesc | with_reducible apply only_commitCore
    | (intro _; intros; try dsimp only)

/-! ## SecRows -/

theorem only_execBlobLoad (s : State) (d : Desc) : OnlyBy [.outbox, .staged, .pairs, .sticky, .queues, .rings, .alives, .descs, .host, .faults, .security, .sessions] s (execBlobLoad d s) := by
  unfold execBlobLoad
  try dsimp only
  repeat' first
    | with_reducible assumption | decide | with_reducible exact Only.refl _ _ | with_reducible apply OnlyBy.next
    | with_reducible apply OnlyBy.ite | with_reducible apply only_takeDesc | with_reducible apply only_blobAct
    | (intro _; intros; try dsimp only)

theorem only_execBlobStore (s : State)  : OnlyBy [.outbox, .rings, .descs, .security, .sessions] s (execBlobStore s) := by
  unfold execBlobStore
  try dsimp only
  repeat' first
    | with_reducible assumption | decide | with_reducible exact Only.refl _ _ | with_reducible apply OnlyBy.next
    | with_reducible apply OnlyBy.ite | with_reducible apply only_complete | with_reducible apply Only.ite
    | (fail_if_no_progress ((with_reducible apply Only.mk_of) <;> first | exact Or.inl (by decide) | with_reducible exact Or.inr rfl | skip)) | with_reducible exact Or.inr rfl
    | split

theorem only_execGetNonce (s : State) (d : Desc) (copyBad otpBad : Bool) : OnlyBy [.outbox, .halt, .queues, .rings, .alives, .descs, .faults, .fronds, .security, .sessions] s (execGetNonce d copyBad otpBad s) := by
  unfold execGetNonce
  try dsimp only
  repeat' first
    | with_reducible assumption | decide | with_reducible exact Only.refl _ _ | with_reducible apply OnlyBy.next
    | with_reducible apply OnlyBy.ite | with_reducible apply only_complete | with_reducible apply only_plainOp
    | (fail_if_no_progress ((with_reducible apply Only.mk_of) <;> first | exact Or.inl (by decide) | with_reducible exact Or.inr rfl | skip)) | with_reducible exact Or.inr rfl
    | (intro _; intros; try dsimp only)

theorem only_execGetIdentity (s : State) (d : Desc) (copyBad otpBad : Bool) : OnlyBy [.outbox, .halt, .queues, .rings, .alives, .descs, .faults, .fronds, .security, .sessions] s (execGetIdentity d copyBad otpBad s) := by
  unfold execGetIdentity
  try dsimp only
  repeat' first
    | with_reducible assumption | decide | with_reducible exact Only.refl _ _ | with_reducible apply OnlyBy.next
    | with_reducible apply OnlyBy.ite | with_reducible apply only_plainOp | with_reducible apply only_secOut
    | (intro _; intros; try dsimp only)

theorem only_execGetState (s : State) (d : Desc) (copyBad otpBad : Bool) : OnlyBy [.outbox, .halt, .queues, .rings, .alives, .descs, .faults, .fronds, .security, .sessions] s (execGetState d copyBad otpBad s) := by
  unfold execGetState
  try dsimp only
  repeat' first
    | with_reducible assumption | decide | with_reducible exact Only.refl _ _ | with_reducible apply OnlyBy.next
    | with_reducible apply OnlyBy.ite | with_reducible apply only_complete | with_reducible apply only_plainOp
    | (intro _; intros; try dsimp only)

theorem only_execTakeOwnership (s : State) (d : Desc) (copyBad otpBad : Bool) : OnlyBy [.outbox, .halt, .queues, .rings, .alives, .descs, .faults, .fronds, .lifeCycle, .security, .sessions] s (execTakeOwnership d copyBad otpBad s) := by
  unfold execTakeOwnership
  try dsimp only
  repeat' first
    | with_reducible assumption | decide | with_reducible exact Only.refl _ _ | with_reducible apply OnlyBy.next
    | with_reducible apply OnlyBy.ite | with_reducible apply only_complete | with_reducible apply only_useNonce
    | with_reducible apply only_plainOp | with_reducible apply only_moveTo | with_reducible apply Only.ite
    | (fail_if_no_progress ((with_reducible apply Only.mk_of) <;> first | exact Or.inl (by decide) | with_reducible exact Or.inr rfl | skip)) | with_reducible exact Or.inr rfl
    | split | (intro _; intros; try dsimp only)

theorem only_execKeyInstall (s : State) (d : Desc) (copyBad otpBad : Bool) : OnlyBy [.outbox, .halt, .queues, .rings, .alives, .descs, .faults, .fronds, .security, .sessions] s (execKeyInstall d copyBad otpBad s) := by
  unfold execKeyInstall
  try dsimp only
  repeat' first
    | with_reducible assumption | decide | with_reducible exact Only.refl _ _ | with_reducible apply OnlyBy.next
    | with_reducible apply OnlyBy.ite | with_reducible apply only_tokenOp | with_reducible apply only_keyInstall
    | (intro _; intros; try dsimp only)

theorem only_execUnlock (s : State) (d : Desc) (copyBad otpBad : Bool) : OnlyBy [.outbox, .halt, .queues, .rings, .alives, .descs, .faults, .fronds, .security, .sessions] s (execUnlock d copyBad otpBad s) := by
  unfold execUnlock
  try dsimp only
  repeat' first
    | with_reducible assumption | decide | with_reducible exact Only.refl _ _ | with_reducible apply OnlyBy.next
    | with_reducible apply OnlyBy.ite | with_reducible apply only_complete | with_reducible apply only_secBreak
    | with_reducible apply only_useNonce | with_reducible apply only_tokenOp | with_reducible apply Only.ite
    | (fail_if_no_progress ((with_reducible apply Only.mk_of) <;> first | exact Or.inl (by decide) | with_reducible exact Or.inr rfl | skip)) | with_reducible exact Or.inr rfl
    | split | (intro _; intros; try dsimp only)

theorem only_execRelock (s : State) (d : Desc) (copyBad otpBad : Bool) : OnlyBy [.outbox, .halt, .queues, .rings, .alives, .descs, .faults, .fronds, .security, .sessions] s (execRelock d copyBad otpBad s) := by
  unfold execRelock
  try dsimp only
  repeat' first
    | with_reducible assumption | decide | with_reducible exact Only.refl _ _ | with_reducible apply OnlyBy.next
    | with_reducible apply OnlyBy.ite | with_reducible apply only_complete | with_reducible apply only_plainOp
    | (fail_if_no_progress ((with_reducible apply Only.mk_of) <;> first | exact Or.inl (by decide) | with_reducible exact Or.inr rfl | skip)) | with_reducible exact Or.inr rfl
    | (intro _; intros; try dsimp only)

theorem only_execSeal (s : State) (d : Desc) (copyBad otpBad : Bool) : OnlyBy [.outbox, .halt, .queues, .rings, .alives, .descs, .faults, .fronds, .lifeCycle, .security, .sessions] s (execSeal d copyBad otpBad s) := by
  unfold execSeal
  try dsimp only
  repeat' first
    | with_reducible assumption | decide | with_reducible exact Only.refl _ _ | with_reducible apply OnlyBy.next
    | with_reducible apply OnlyBy.ite | with_reducible apply only_useNonce | with_reducible apply only_tokenOp
    | with_reducible apply only_moveTo | (intro _; intros; try dsimp only)

theorem only_execUnseal (s : State) (d : Desc) (copyBad otpBad : Bool) : OnlyBy [.outbox, .halt, .queues, .rings, .alives, .descs, .faults, .fronds, .lifeCycle, .security, .sessions] s (execUnseal d copyBad otpBad s) := by
  unfold execUnseal
  try dsimp only
  repeat' first
    | with_reducible assumption | decide | with_reducible exact Only.refl _ _ | with_reducible apply OnlyBy.next
    | with_reducible apply OnlyBy.ite | with_reducible apply only_useNonce | with_reducible apply only_tokenOp
    | with_reducible apply only_moveTo | with_reducible apply only_usePresence | (intro _; intros; try dsimp only)

theorem only_execRma (s : State) (d : Desc) (copyBad otpBad : Bool) : OnlyBy [.outbox, .halt, .queues, .rings, .alives, .descs, .faults, .fronds, .lifeCycle, .security, .ports, .sessions] s (execRma d copyBad otpBad s) := by
  unfold execRma
  try dsimp only
  repeat' first
    | with_reducible assumption | decide | with_reducible exact Only.refl _ _ | with_reducible apply OnlyBy.next
    | with_reducible apply OnlyBy.ite | with_reducible apply only_useNonce | with_reducible apply only_enterState
    | with_reducible apply only_zeroise | with_reducible apply only_tokenOp | with_reducible apply only_usePresence
    | (fail_if_no_progress ((with_reducible apply Only.mk_of) <;> first | exact Or.inl (by decide) | with_reducible exact Or.inr rfl | skip)) | with_reducible exact Or.inr rfl
    | (intro _; intros; try dsimp only)

theorem only_execMakerRestore (s : State) (d : Desc) (copyBad otpBad : Bool) : OnlyBy [.outbox, .halt, .queues, .rings, .alives, .descs, .faults, .fronds, .lifeCycle, .security, .sessions] s (execMakerRestore d copyBad otpBad s) := by
  unfold execMakerRestore
  try dsimp only
  repeat' first
    | with_reducible assumption | decide | with_reducible exact Only.refl _ _ | with_reducible apply OnlyBy.next
    | with_reducible apply OnlyBy.ite | with_reducible apply only_useNonce | with_reducible apply only_tokenOp
    | with_reducible apply only_moveTo | (intro _; intros; try dsimp only)

theorem only_execVoid (s : State) (d : Desc) (copyBad otpBad : Bool) : OnlyBy [.outbox, .halt, .queues, .rings, .alives, .descs, .faults, .fronds, .lifeCycle, .security, .ports, .sessions] s (execVoid d copyBad otpBad s) := by
  unfold execVoid
  try dsimp only
  repeat' first
    | with_reducible assumption | decide | with_reducible exact Only.refl _ _ | with_reducible apply OnlyBy.next
    | with_reducible apply OnlyBy.ite | with_reducible apply only_useNonce | with_reducible apply only_zeroiseVoid
    | with_reducible apply only_tokenOp | with_reducible apply only_moveTo | with_reducible apply only_usePresence
    | with_reducible apply Only.ite | split | (intro _; intros; try dsimp only)

theorem only_execFwUpdate (s : State) (d : Desc) (copyBad otpBad : Bool) : OnlyBy [.outbox, .halt, .queues, .rings, .alives, .descs, .faults, .fronds, .security, .sessions] s (execFwUpdate d copyBad otpBad s) := by
  unfold execFwUpdate
  try dsimp only
  repeat' first
    | with_reducible assumption | decide | with_reducible exact Only.refl _ _ | with_reducible apply OnlyBy.next
    | with_reducible apply OnlyBy.ite | with_reducible apply only_takeDesc | with_reducible apply only_secGate
    | with_reducible apply only_fwChunk
    | (fail_if_no_progress ((with_reducible apply Only.mk_of) <;> first | exact Or.inl (by decide) | with_reducible exact Or.inr rfl | skip)) | with_reducible exact Or.inr rfl
    | (intro _; intros; try dsimp only)

theorem only_execFwConfirm (s : State) (d : Desc) (copyBad otpBad : Bool) : OnlyBy [.outbox, .halt, .queues, .rings, .alives, .descs, .faults, .fronds, .security, .sessions] s (execFwConfirm d copyBad otpBad s) := by
  unfold execFwConfirm
  try dsimp only
  repeat' first
    | with_reducible assumption | decide | with_reducible exact Only.refl _ _ | with_reducible apply OnlyBy.next
    | with_reducible apply OnlyBy.ite | with_reducible apply only_complete | with_reducible apply only_plainOp
    | (fail_if_no_progress ((with_reducible apply Only.mk_of) <;> first | exact Or.inl (by decide) | with_reducible exact Or.inr rfl | skip)) | with_reducible exact Or.inr rfl
    | (intro _; intros; try dsimp only)

theorem only_execLdevidGen (s : State) (d : Desc) (copyBad otpBad : Bool) : OnlyBy [.outbox, .halt, .queues, .rings, .alives, .descs, .faults, .fronds, .security, .sessions] s (execLdevidGen d copyBad otpBad s) := by
  unfold execLdevidGen
  try dsimp only
  repeat' first
    | with_reducible assumption | decide | with_reducible exact Only.refl _ _ | with_reducible apply OnlyBy.next
    | with_reducible apply OnlyBy.ite | with_reducible apply only_complete | with_reducible apply only_plainOp
    | with_reducible apply only_secOut | with_reducible apply Only.ite
    | (fail_if_no_progress ((with_reducible apply Only.mk_of) <;> first | exact Or.inl (by decide) | with_reducible exact Or.inr rfl | skip)) | with_reducible exact Or.inr rfl
    | split | (intro _; intros; try dsimp only)

theorem only_execLdevidInstall (s : State) (d : Desc) (copyBad otpBad : Bool) : OnlyBy [.outbox, .halt, .queues, .rings, .alives, .descs, .faults, .fronds, .security, .sessions] s (execLdevidInstall d copyBad otpBad s) := by
  unfold execLdevidInstall
  try dsimp only
  repeat' first
    | with_reducible assumption | decide | with_reducible exact Only.refl _ _ | with_reducible apply OnlyBy.next
    | with_reducible apply OnlyBy.ite | with_reducible apply only_complete | with_reducible apply only_useNonce
    | with_reducible apply only_tokenOp
    | (fail_if_no_progress ((with_reducible apply Only.mk_of) <;> first | exact Or.inl (by decide) | with_reducible exact Or.inr rfl | skip)) | with_reducible exact Or.inr rfl
    | (intro _; intros; try dsimp only)

theorem only_execSelfTest (s : State) (d : Desc) (copyBad otpBad : Bool) : OnlyBy [.outbox, .halt, .queues, .rings, .alives, .descs, .faults, .fronds, .security, .sessions] s (execSelfTest d copyBad otpBad s) := by
  unfold execSelfTest
  try dsimp only
  repeat' first
    | with_reducible assumption | decide | with_reducible exact Only.refl _ _ | with_reducible apply OnlyBy.next
    | with_reducible apply OnlyBy.ite | with_reducible apply only_plainOp | (intro _; intros; try dsimp only)

theorem only_execAuthLockExpiry (s : State)  : OnlyBy [.security] s (execAuthLockExpiry s) := by
  unfold execAuthLockExpiry
  try dsimp only
  repeat' first
    | with_reducible assumption | decide | with_reducible exact Only.refl _ _ | with_reducible apply OnlyBy.next
    | with_reducible apply OnlyBy.ite | with_reducible apply Only.ite
    | (fail_if_no_progress ((with_reducible apply Only.mk_of) <;> first | exact Or.inl (by decide) | with_reducible exact Or.inr rfl | skip)) | with_reducible exact Or.inr rfl
    | split

theorem only_execPresenceExpiry (s : State)  : OnlyBy [.security] s (execPresenceExpiry s) := by
  unfold execPresenceExpiry
  try dsimp only
  repeat' first
    | with_reducible assumption | decide | with_reducible exact Only.refl _ _ | with_reducible apply OnlyBy.next
    | with_reducible apply OnlyBy.ite | with_reducible apply only_usePresence | with_reducible apply Only.ite | split

theorem only_execCryptoError (s : State)  : OnlyBy [.outbox, .queues, .faults, .security, .sessions] s (execCryptoError s) := by
  unfold execCryptoError
  try dsimp only
  repeat' first
    | with_reducible assumption | decide | with_reducible exact Only.refl _ _ | with_reducible apply OnlyBy.next
    | with_reducible apply OnlyBy.ite | with_reducible apply only_cryptoError | with_reducible apply Only.ite | split

theorem only_execZeroisationComplete (s : State)  : OnlyBy [.outbox, .rings, .descs, .security, .sessions] s (execZeroisationComplete s) := by
  unfold execZeroisationComplete
  try dsimp only
  repeat' first
    | with_reducible assumption | decide | with_reducible exact Only.refl _ _ | with_reducible apply OnlyBy.next
    | with_reducible apply OnlyBy.ite | with_reducible apply only_completeOpt | with_reducible apply Only.ite
    | (fail_if_no_progress ((with_reducible apply Only.mk_of) <;> first | exact Or.inl (by decide) | with_reducible exact Or.inr rfl | skip)) | with_reducible exact Or.inr rfl
    | split

theorem only_execSelfTestDone (s : State) (alg : Nat) : OnlyBy [.outbox, .queues, .rings, .descs, .faults, .security, .sessions] s (execSelfTestDone alg s) := by
  unfold execSelfTestDone
  try dsimp only
  repeat' first
    | with_reducible assumption | decide | with_reducible exact Only.refl _ _ | with_reducible apply OnlyBy.next
    | with_reducible apply OnlyBy.ite | with_reducible apply only_complete | with_reducible apply only_cryptoError
    | with_reducible apply Only.ite | split

/-! ## NetRows -/

theorem only_execEthLinkDown (s : State) (p : Nat) (v : TimeView) : OnlyBy [.outbox, .time, .queues, .faults, .ports, .timeView] s (execEthLinkDown p v s) := by
  unfold execEthLinkDown
  try dsimp only
  repeat' first
    | with_reducible assumption | decide | with_reducible exact Only.refl _ _ | with_reducible apply OnlyBy.next
    | with_reducible apply OnlyBy.ite | with_reducible apply only_inOneCycle | with_reducible apply only_setTime
    | with_reducible apply only_modPort | with_reducible apply only_ethSrc | with_reducible apply only_setView
    | with_reducible apply Only.ite
    | (fail_if_no_progress ((with_reducible apply Only.mk_of) <;> first | exact Or.inl (by decide) | with_reducible exact Or.inr rfl | skip)) | with_reducible exact Or.inr rfl
    | split | (intro _; intros; try dsimp only)

theorem only_execEthLinkUp (s : State) (p speed : Nat) (v : TimeView) : OnlyBy [.outbox, .queues, .faults, .ports, .timeView] s (execEthLinkUp p speed v s) := by
  unfold execEthLinkUp
  try dsimp only
  repeat' first
    | with_reducible assumption | decide | with_reducible exact Only.refl _ _ | with_reducible apply OnlyBy.next
    | with_reducible apply OnlyBy.ite | with_reducible apply only_modPort | with_reducible apply only_ethSrc
    | with_reducible apply only_setView | with_reducible apply Only.ite
    | (fail_if_no_progress ((with_reducible apply Only.mk_of) <;> first | exact Or.inl (by decide) | with_reducible exact Or.inr rfl | skip)) | with_reducible exact Or.inr rfl
    | split

theorem only_execEthFrame (s : State) (p : Nat) (b : List Byte) (v : TimeView) : OnlyBy [.outbox, .queues, .faults, .ports, .addrs, .timeView] s (execEthFrame p b v s) := by
  unfold execEthFrame
  try dsimp only
  repeat' first
    | with_reducible assumption | decide | with_reducible exact Only.refl _ _ | with_reducible apply OnlyBy.next
    | with_reducible apply OnlyBy.ite | with_reducible apply only_modPort | with_reducible apply only_sendPort
    | with_reducible apply only_setView | with_reducible apply only_switchFrame | with_reducible apply Only.ite
    | (fail_if_no_progress ((with_reducible apply Only.mk_of) <;> first | exact Or.inl (by decide) | with_reducible exact Or.inr rfl | skip)) | with_reducible exact Or.inr rfl
    | split

theorem only_execTlsConnect (s : State) (root : List Byte) (h : TlsIn) : OnlyBy [.outbox, .queues, .faults, .security, .sessions] s (execTlsConnect root s h) := by
  unfold execTlsConnect
  try dsimp only
  repeat' first
    | with_reducible assumption | decide | with_reducible exact Only.refl _ _ | with_reducible apply OnlyBy.next
    | with_reducible apply OnlyBy.ite | with_reducible apply only_authFailed | with_reducible apply Only.ite
    | (fail_if_no_progress ((with_reducible apply Only.mk_of) <;> first | exact Or.inl (by decide) | with_reducible exact Or.inr rfl | skip)) | with_reducible exact Or.inr rfl
    | split

theorem only_execStatus (s : State) (id sq ofs n : Nat) : OnlyBy [.outbox] s (execStatus id sq ofs n s) := by
  unfold execStatus
  try dsimp only
  repeat' first
    | with_reducible assumption | decide | with_reducible exact Only.refl _ _ | with_reducible apply OnlyBy.next
    | with_reducible apply OnlyBy.ite | with_reducible apply only_replyTo | with_reducible apply only_request
    | with_reducible apply Only.ite | split | (intro _; intros; try dsimp only)

theorem only_execNetSet (s : State) (id sq : Nat) (body : List Byte) : OnlyBy [.outbox, .staged] s (execNetSet id sq body s) := by
  unfold execNetSet
  try dsimp only
  repeat' first
    | with_reducible assumption | decide | with_reducible exact Only.refl _ _ | with_reducible apply OnlyBy.next
    | with_reducible apply OnlyBy.ite | with_reducible apply only_replyTo | with_reducible apply only_stageNet
    | with_reducible apply only_request | with_reducible apply Only.ite | split | (intro _; intros; try dsimp only)

theorem only_execMacsecKey (s : State) (id sq p : Nat) (rx : Bool) (an : Nat) (key : List Byte) (ssci pn : Nat) : OnlyBy [.outbox, .queues, .faults, .ports] s (execMacsecKey id sq p rx an key ssci pn s) := by
  unfold execMacsecKey
  try dsimp only
  repeat' first
    | with_reducible assumption | decide | with_reducible exact Only.refl _ _ | with_reducible apply OnlyBy.next
    | with_reducible apply OnlyBy.ite | with_reducible apply only_replyTo | with_reducible apply only_modPort
    | with_reducible apply only_macsecSrc | with_reducible apply only_gateFlush | with_reducible apply only_request
    | with_reducible apply Only.ite
    | (fail_if_no_progress ((with_reducible apply Only.mk_of) <;> first | exact Or.inl (by decide) | with_reducible exact Or.inr rfl | skip)) | with_reducible exact Or.inr rfl
    | split | (intro _; intros; try dsimp only)

theorem only_execMacsecTxChange (s : State) (id sq p : Nat) : OnlyBy [.outbox, .queues, .faults, .ports] s (execMacsecTxChange id sq p s) := by
  unfold execMacsecTxChange
  try dsimp only
  repeat' first
    | with_reducible assumption | decide | with_reducible exact Only.refl _ _ | with_reducible apply OnlyBy.next
    | with_reducible apply OnlyBy.ite | with_reducible apply only_replyTo | with_reducible apply only_modPort
    | with_reducible apply only_macsecSrc | with_reducible apply only_gateFlush | with_reducible apply only_request
    | with_reducible apply Only.ite
    | (fail_if_no_progress ((with_reducible apply Only.mk_of) <;> first | exact Or.inl (by decide) | with_reducible exact Or.inr rfl | skip)) | with_reducible exact Or.inr rfl
    | split | (intro _; intros; try dsimp only)

theorem only_execDescriptor (s : State) (id sq : Nat) (d : Desc) : OnlyBy [.outbox, .rings, .sessions] s (execDescriptor id sq d s) := by
  unfold execDescriptor
  try dsimp only
  repeat' first
    | with_reducible assumption | decide | with_reducible exact Only.refl _ _ | with_reducible apply OnlyBy.next
    | with_reducible apply OnlyBy.ite | with_reducible apply only_outp | with_reducible apply only_modRing
    | with_reducible apply only_replyTo | with_reducible apply only_request | with_reducible apply Only.ite
    | (fail_if_no_progress ((with_reducible apply Only.mk_of) <;> first | exact Or.inl (by decide) | with_reducible exact Or.inr rfl | skip)) | with_reducible exact Or.inr rfl
    | split | (intro _; intros; try dsimp only)

theorem only_execTlsSessionClose (s : State) (id : Nat) : OnlyBy [.sessions] s (execTlsSessionClose id s) := by
  unfold execTlsSessionClose
  try dsimp only
  repeat' first
    | with_reducible assumption | decide | with_reducible exact Only.refl _ _ | with_reducible apply OnlyBy.next
    | with_reducible apply OnlyBy.ite
    | (fail_if_no_progress ((with_reducible apply Only.mk_of) <;> first | exact Or.inl (by decide) | with_reducible exact Or.inr rfl | skip)) | with_reducible exact Or.inr rfl

theorem only_execAddressAgeing (s : State) (m : Nat) : OnlyBy [.addrs] s (execAddressAgeing m s) := by
  unfold execAddressAgeing
  try dsimp only
  repeat' first
    | with_reducible assumption | decide | with_reducible exact Only.refl _ _ | with_reducible apply OnlyBy.next
    | with_reducible apply OnlyBy.ite
    | (fail_if_no_progress ((with_reducible apply Only.mk_of) <;> first | exact Or.inl (by decide) | with_reducible exact Or.inr rfl | skip)) | with_reducible exact Or.inr rfl

theorem only_execGateControlListEntry (s : State) (p : Nat) : OnlyBy [.outbox, .queues, .faults, .ports] s (execGateControlListEntry p s) := by
  unfold execGateControlListEntry
  try dsimp only
  repeat' first
    | with_reducible assumption | decide | with_reducible exact Only.refl _ _ | with_reducible apply OnlyBy.next
    | with_reducible apply OnlyBy.ite | with_reducible apply only_modPort | with_reducible apply only_gateFlush
    | with_reducible apply Only.ite
    | (fail_if_no_progress ((with_reducible apply Only.mk_of) <;> first | exact Or.inl (by decide) | with_reducible exact Or.inr rfl | skip)) | with_reducible exact Or.inr rfl
    | split

end Sys2Proof.Machine
end

