-- ==== Sys2Proof/Laws/Fresh.lean ====
section
/-! SUPPORT. The number of the next descriptor stays new: every command keeps the numbers of the descriptors that wait below it. -/

set_option linter.unusedTactic false
set_option linter.unreachableTactic false

namespace Sys2Proof.Machine
open Sys2Proof

theorem Fresh.of_only {ps : List Part} {s t : State} (a : Only ps s t) (n : Part.descs ∉ ps) (h : Fresh s) : Fresh t := by
  have e : (t.outs, t.nextId) = (s.outs, s.nextId) := a .descs n
  have e1 : t.outs = s.outs := congrArg Prod.fst e
  have e2 : t.nextId = s.nextId := congrArg Prod.snd e
  unfold Fresh
  rw [e1, e2]
  exact h

theorem Fresh.ite {a b : State} {c : Prop} [Decidable c] (ha : Fresh a) (hb : Fresh b) : Fresh (if c then a else b) := by
  split
  · exact ha
  · exact hb

theorem Fresh.foldl {α : Type} {f : State → α → State} (hf : ∀ t a, Fresh t → Fresh (f t a)) :
    ∀ (l : List α) {t : State}, Fresh t → Fresh (l.foldl f t)
  | [], _, h => h
  | a :: l, _, h => Fresh.foldl hf l (hf _ a h)

/-- Where the outcome is a next state, the numbers are fresh in it. -/
def FreshBy (o : Host.Outcome State Fault Refusal) : Prop := ∀ t, o = .next t → Fresh t

theorem FreshBy.next {t : State} (h : Fresh t) : FreshBy (.next t) := by
  intro u e
  cases e
  exact h

theorem FreshBy.ite {a b : Host.Outcome State Fault Refusal} {c : Prop} [Decidable c] (ha : FreshBy a) (hb : FreshBy b) :
    FreshBy (if c then a else b) := by
  split
  · exact ha
  · exact hb

/-- An update of other fields. -/
theorem Fresh.mk_of {t : State} (pending' : List Instr) (outbox' : List Output) (phase' : Phase) (auto' : Bool) (tm' : TimeUnit) (staged' : Tab Word) (cfg'
    : Tab Word) (pcie' : PathRegs) (mp' : PathRegs) (rwp' : List RwpPend) (scratch' : Word) (lockedWr' : Bool) (orphan' : Bool)
    (wrOfs' : Half) (torn' : Bool) (tornOfs' : Half) (queues' : Tab Queue) (reserve' : Nat) (rings' : Tab Ring) (expAlive' :
    Byte) (lastAlive' : Option Byte) (outs' : List Outstanding) (nextId' : Nat) (stsBase' : DWord) (tickIrq' : Bool) (tickDiv' :
    Nat) (dberr' : Bool) (dbOfs' : Nat) (bme' : Bool) (msix' : Nat) (pba' : Nat) (ep' : Endpoint) (cvu' : Tab Cvu) (lsp' :
    StreamPort) (srcs' : Tab Src) (latch' : Option Latch) (latchSeq' : Nat) (overflow' : Bool) (fltCount' : Nat) (shadows' : Tab
    Shadow) (noted' : List Nat) (alive' : Bool) (pend' : Option Pending) (fronds' : Tab CFrond) (field' : Tab Frond) (chans' :
    Tab CChan) (badPaths' : List (Nat × Nat × Nat × Nat)) (boundary' : Option (TickNo × Half)) (snaps' : List SnapReq) (sumDone'
    : Bool) (sumSnap' : List Byte) (sumEpoch' : Half) (sumNext' : List Byte) (sumNextEp' : Half) (latNow' : Option (TickNo ×
    Half)) (abs' : Nat) (absPrev' : Nat) (plans' : Tab Plan) (blocks' : List Blk) (feats' : List Feats) (sliceRun' : Bool)
    (refs' : Tab SpdRef) (map' : MapUnit) (caps' : Tab CapRing) (rules' : Tab RuleSt) (rulEval' : Nat) (wrSince' : List Nat)
    (pwr' : Power) (bud' : Budget) (sec' : Sec) (net' : Net) (xfers' : List MapXfer)
    (h : Fresh t) (o : outs' = t.outs) (n : nextId' = t.nextId) :
    Fresh (State.mk pending' outbox' phase' auto' tm' staged' cfg' pcie' mp' rwp' scratch' lockedWr' orphan' wrOfs' torn' tornOfs' queues'
    reserve' rings' expAlive' lastAlive' outs' nextId' stsBase' tickIrq' tickDiv' dberr' dbOfs' bme' msix' pba' ep' cvu' lsp'
    srcs' latch' latchSeq' overflow' fltCount' shadows' noted' alive' pend' fronds' field' chans' badPaths' boundary' snaps'
    sumDone' sumSnap' sumEpoch' sumNext' sumNextEp' latNow' abs' absPrev' plans' blocks' feats' sliceRun' refs' map' caps'
    rules' rulEval' wrSince' pwr' bud' sec' net' xfers') := by
  subst o n
  exact h

theorem fresh_outp {s : State} (o : Output) (h : Fresh s) : Fresh (outp o s) :=
  Fresh.of_only (only_outp o (List.Subset.refl _) (Only.refl _ _)) (by decide) h

theorem fresh_modFrond {s : State} (f : Nat) (g : CFrond → CFrond) (h : Fresh s) : Fresh (modFrond f g s) :=
  Fresh.of_only (only_modFrond f g (List.Subset.refl _) (Only.refl _ _)) (by decide) h

theorem fresh_msi {s : State} (v : Nat) (h : Fresh s) : Fresh (msi v s) :=
  Fresh.of_only (only_msi v (List.Subset.refl _) (Only.refl _ _)) (by decide) h

theorem fresh_enqueue {s : State} (q : Nat) (cells : List Cell) (h : Fresh s) : Fresh (enqueue q cells s) :=
  Fresh.of_only (only_enqueue q cells (List.Subset.refl _) (Only.refl _ _)) (by decide) h

theorem fresh_trimAll {s : State} (old : Tab Word) (h : Fresh s) : Fresh (trimAll old s) :=
  Fresh.of_only (only_trimAll old (List.Subset.refl _) (Only.refl _ _)) (by decide) h

theorem fresh_flushQueue {s : State} (q : Nat) (h : Fresh s) : Fresh ((flushQueue q s).1) :=
  Fresh.of_only (only_flushQueue q (List.Subset.refl _) (Only.refl _ _)) (by decide) h

theorem fresh_flushQueue_eq {s u : State} {q : Nat} {a : _} {b : _} (e : flushQueue q s = (u, a, b)) (h : Fresh s) : Fresh u :=
  Fresh.of_only (only_flushQueue_eq e (List.Subset.refl _) (Only.refl _ _)) (by decide) h

theorem fresh_latchLost {s : State}  (h : Fresh s) : Fresh (latchLost s) :=
  Fresh.of_only (only_latchLost  (List.Subset.refl _) (Only.refl _ _)) (by decide) h

theorem fresh_modRing {s : State} (r : Nat) (g : Ring → Ring) (h : Fresh s) : Fresh (modRing r g s) :=
  Fresh.of_only (only_modRing r g (List.Subset.refl _) (Only.refl _ _)) (by decide) h

theorem fresh_writeStatus {s : State}  (h : Fresh s) : Fresh (writeStatus s) :=
  Fresh.of_only (only_writeStatus  (List.Subset.refl _) (Only.refl _ _)) (by decide) h

theorem fresh_replyTo {s : State} (session kind sq status : Nat) (res : List Byte) (h : Fresh s) : Fresh (replyTo session kind sq status res s) :=
  Fresh.of_only (only_replyTo session kind sq status res (List.Subset.refl _) (Only.refl _ _)) (by decide) h

theorem fresh_faultRec {s : State} (id sub cls flags count : Nat) (ctx : List Byte) (tick : TickNo) (h : Fresh s) : Fresh (faultRec id sub cls flags count ctx tick s) :=
  Fresh.of_only (only_faultRec id sub cls flags count ctx tick (List.Subset.refl _) (Only.refl _ _)) (by decide) h

theorem fresh_sendOrder {s : State} (f : Nat) (k payload : Byte) (h : Fresh s) : Fresh (sendOrder f k payload s) :=
  Fresh.of_only (only_sendOrder f k payload (List.Subset.refl _) (Only.refl _ _)) (by decide) h

theorem fresh_dropSrc {s : State} (id sub : Nat) (h : Fresh s) : Fresh (dropSrc id sub s) :=
  Fresh.of_only (only_dropSrc id sub (List.Subset.refl _) (Only.refl _ _)) (by decide) h

theorem fresh_clearSrc {s : State} (id sub : Nat) (h : Fresh s) : Fresh (clearSrc id sub s) :=
  Fresh.of_only (only_clearSrc id sub (List.Subset.refl _) (Only.refl _ _)) (by decide) h

theorem fresh_integrity {s : State} (origin ofs ch : Nat) (h : Fresh s) : Fresh (integrity origin ofs ch s) :=
  Fresh.of_only (only_integrity origin ofs ch (List.Subset.refl _) (Only.refl _ _)) (by decide) h

theorem fresh_dropNotes {s : State}  (h : Fresh s) : Fresh (dropNotes s) :=
  Fresh.of_only (only_dropNotes  (List.Subset.refl _) (Only.refl _ _)) (by decide) h

theorem fresh_judgeShadows {s : State}  (h : Fresh s) : Fresh (judgeShadows s) :=
  Fresh.of_only (only_judgeShadows  (List.Subset.refl _) (Only.refl _ _)) (by decide) h

theorem fresh_sendDown {s : State} (f : Nat) (fid : Byte) (payload : List Byte) (h : Fresh s) : Fresh (sendDown f fid payload s) :=
  Fresh.of_only (only_sendDown f fid payload (List.Subset.refl _) (Only.refl _ _)) (by decide) h

theorem fresh_modLink {s : State} (f : Nat) (linkB : Bool) (g : LinkSt → LinkSt) (h : Fresh s) : Fresh (modLink f linkB g s) :=
  Fresh.of_only (only_modLink f linkB g (List.Subset.refl _) (Only.refl _ _)) (by decide) h

theorem fresh_rejectFrame {s : State} (f : Nat) (linkB : Bool) (t : TickNo) (h : Fresh s) : Fresh (rejectFrame f linkB t s) :=
  Fresh.of_only (only_rejectFrame f linkB t (List.Subset.refl _) (Only.refl _ _)) (by decide) h

theorem fresh_copyDiff {s : State} (f : Nat) (linkB : Bool) (t : TickNo) (h : Fresh s) : Fresh (copyDiff f linkB t s) :=
  Fresh.of_only (only_copyDiff f linkB t (List.Subset.refl _) (Only.refl _ _)) (by decide) h

theorem fresh_trackFrond {s : State} (t : Tab Word) (f : Nat) (miss : Bool) (stamps : Nat → List Nat) (h : Fresh s) : Fresh (trackFrond t f miss stamps s) :=
  Fresh.of_only (only_trackFrond t f miss stamps (List.Subset.refl _) (Only.refl _ _)) (by decide) h

theorem fresh_refsEpoch {s : State} (old : Tab Word) (h : Fresh s) : Fresh (refsEpoch old s) :=
  Fresh.of_only (only_refsEpoch old (List.Subset.refl _) (Only.refl _ _)) (by decide) h

theorem fresh_mapBoundary {s : State}  (h : Fresh s) : Fresh (mapBoundary s) :=
  Fresh.of_only (only_mapBoundary  (List.Subset.refl _) (Only.refl _ _)) (by decide) h

theorem fresh_mapEpoch {s : State} (old : Tab Word) (h : Fresh s) : Fresh (mapEpoch old s) :=
  Fresh.of_only (only_mapEpoch old (List.Subset.refl _) (Only.refl _ _)) (by decide) h

theorem fresh_mapPull {s : State} (n : Nat) (h : Fresh s) : Fresh (mapPull n s) :=
  Fresh.of_only (only_mapPull n (List.Subset.refl _) (Only.refl _ _)) (by decide) h

theorem fresh_chanEpoch {s : State} (old new : Tab Word) (ch : Nat) (h : Fresh s) : Fresh (chanEpoch old new ch s) :=
  Fresh.of_only (only_chanEpoch old new ch (List.Subset.refl _) (Only.refl _ _)) (by decide) h

theorem fresh_phaseRestart {s : State} (d : Nat) (h : Fresh s) : Fresh (phaseRestart d s) :=
  Fresh.of_only (only_phaseRestart d (List.Subset.refl _) (Only.refl _ _)) (by decide) h

theorem fresh_readyBlocks {s : State}  (h : Fresh s) : Fresh (readyBlocks s) :=
  Fresh.of_only (only_readyBlocks  (List.Subset.refl _) (Only.refl _ _)) (by decide) h

theorem fresh_modCap {s : State} (r : Nat) (g : CapRing → CapRing) (h : Fresh s) : Fresh (modCap r g s) :=
  Fresh.of_only (only_modCap r g (List.Subset.refl _) (Only.refl _ _)) (by decide) h

theorem fresh_slowRings {s : State} (l : List Nat) (h : Fresh s) : Fresh (slowRings l s) :=
  Fresh.of_only (only_slowRings l (List.Subset.refl _) (Only.refl _ _)) (by decide) h

theorem fresh_capTrigger {s : State} (r key src rule : Nat) (id : Option Nat) (rewind : Option TickNo) (h : Fresh s) : Fresh ((capTrigger r key src rule id rewind s).1) :=
  Fresh.of_only (only_capTrigger r key src rule id rewind (List.Subset.refl _) (Only.refl _ _)) (by decide) h

theorem fresh_capTrigger_eq {s u : State} {r key src rule : Nat} {id : Option Nat} {rewind : Option TickNo} {a : _} (e : capTrigger r key src rule id rewind s = (u, a)) (h : Fresh s) : Fresh u :=
  Fresh.of_only (only_capTrigger_eq e (List.Subset.refl _) (Only.refl _ _)) (by decide) h

theorem fresh_flushHeld {s : State}  (h : Fresh s) : Fresh (flushHeld s) :=
  Fresh.of_only (only_flushHeld  (List.Subset.refl _) (Only.refl _ _)) (by decide) h

theorem fresh_deferTick {s : State}  (h : Fresh s) : Fresh (deferTick s) :=
  Fresh.of_only (only_deferTick  (List.Subset.refl _) (Only.refl _ _)) (by decide) h

theorem fresh_queueOut {s : State} (ch : Nat) (v : Word) (did : Option Nat) (rule : Bool) (h : Fresh s) : Fresh (queueOut ch v did rule s) :=
  Fresh.of_only (only_queueOut ch v did rule (List.Subset.refl _) (Only.refl _ _)) (by decide) h

theorem fresh_outsDue {s : State}  (h : Fresh s) : Fresh (outsDue s) :=
  Fresh.of_only (only_outsDue  (List.Subset.refl _) (Only.refl _ _)) (by decide) h

theorem fresh_startNoCfg {s : State} (f : Nat) (h : Fresh s) : Fresh (startNoCfg s f) :=
  Fresh.of_only (only_startNoCfg f (List.Subset.refl _) (Only.refl _ _)) (by decide) h

theorem fresh_commitEvent {s : State} (aborted : Bool) (p : Pending) (a b : Nat) (h : Fresh s) : Fresh (commitEvent aborted p a b s) :=
  Fresh.of_only (only_commitEvent aborted p a b (List.Subset.refl _) (Only.refl _ _)) (by decide) h

theorem fresh_measure {s : State} (f : Nat) (linkB : Bool) (stamp echo : Nat) (h : Fresh s) : Fresh ((measure f linkB stamp echo s).1) :=
  Fresh.of_only (only_measure f linkB stamp echo (List.Subset.refl _) (Only.refl _ _)) (by decide) h

theorem fresh_takeOffset {s : State} (f : Nat) (o : Option Int) (h : Fresh s) : Fresh (takeOffset f o s) :=
  Fresh.of_only (only_takeOffset f o (List.Subset.refl _) (Only.refl _ _)) (by decide) h

theorem fresh_collectU0 {s : State} (f : Nat) (d : List Byte) (old : Report) (noCfgNew rejoin cleared : Bool) (h : Fresh s) : Fresh (collectU0 f d old noCfgNew rejoin cleared s) :=
  Fresh.of_only (only_collectU0 f d old noCfgNew rejoin cleared (List.Subset.refl _) (Only.refl _ _)) (by decide) h

theorem fresh_useEpochCtl {s : State} (f : Nat) (d : List Byte) (stamp : Nat) (h : Fresh s) : Fresh (useEpochCtl f d stamp s) :=
  Fresh.of_only (only_useEpochCtl f d stamp (List.Subset.refl _) (Only.refl _ _)) (by decide) h

theorem fresh_linkDown {s : State} (f : Nat) (linkB : Bool) (t : TickNo) (h : Fresh s) : Fresh (linkDown f linkB t s) :=
  Fresh.of_only (only_linkDown f linkB t (List.Subset.refl _) (Only.refl _ _)) (by decide) h

theorem fresh_rulesEdge {s : State}  (h : Fresh s) : Fresh (rulesEdge s) :=
  Fresh.of_only (only_rulesEdge  (List.Subset.refl _) (Only.refl _ _)) (by decide) h

theorem fresh_rulesEpoch {s : State} (old : Tab Word) (h : Fresh s) : Fresh (rulesEpoch old s) :=
  Fresh.of_only (only_rulesEpoch old (List.Subset.refl _) (Only.refl _ _)) (by decide) h

theorem fresh_rulesBoundary {s : State}  (h : Fresh s) : Fresh (rulesBoundary s) :=
  Fresh.of_only (only_rulesBoundary  (List.Subset.refl _) (Only.refl _ _)) (by decide) h

theorem fresh_chanTick {s : State} (ch : Nat) (d : PosData) (flags : List Nat) (h : Fresh s) : Fresh (chanTick ch d flags s) :=
  Fresh.of_only (only_chanTick ch d flags (List.Subset.refl _) (Only.refl _ _)) (by decide) h

theorem fresh_chanMissing {s : State} (ch : Nat) (h : Fresh s) : Fresh (chanMissing ch s) :=
  Fresh.of_only (only_chanMissing ch (List.Subset.refl _) (Only.refl _ _)) (by decide) h

theorem fresh_frondResolved {s : State} (f : Nat) (stamps : Nat → List Nat) (h : Fresh s) : Fresh (frondResolved f stamps s) :=
  Fresh.of_only (only_frondResolved f stamps (List.Subset.refl _) (Only.refl _ _)) (by decide) h

theorem fresh_secBreak {s : State} (code : Nat) (h : Fresh s) : Fresh (secBreak code s) :=
  Fresh.of_only (only_secBreak code (List.Subset.refl _) (Only.refl _ _)) (by decide) h

theorem fresh_authFailed {s : State} (kind op : Nat) (h : Fresh s) : Fresh (authFailed kind op s) :=
  Fresh.of_only (only_authFailed kind op (List.Subset.refl _) (Only.refl _ _)) (by decide) h

theorem fresh_authPassed {s : State}  (h : Fresh s) : Fresh (authPassed s) :=
  Fresh.of_only (only_authPassed  (List.Subset.refl _) (Only.refl _ _)) (by decide) h

theorem fresh_lifeCycleCheck {s : State} (copyBad otpBad : Bool) (h : Fresh s) : Fresh (lifeCycleCheck copyBad otpBad s) :=
  Fresh.of_only (only_lifeCycleCheck copyBad otpBad (List.Subset.refl _) (Only.refl _ _)) (by decide) h

theorem fresh_timeEdge {s : State} (net : Option Int) (h : Fresh s) : Fresh (timeEdge net s) :=
  Fresh.of_only (only_timeEdge net (List.Subset.refl _) (Only.refl _ _)) (by decide) h

theorem fresh_timeEpoch {s : State} (old : Tab Word) (h : Fresh s) : Fresh (timeEpoch old s) :=
  Fresh.of_only (only_timeEpoch old (List.Subset.refl _) (Only.refl _ _)) (by decide) h

theorem fresh_gatesRestart {s : State}  (h : Fresh s) : Fresh (gatesRestart s) :=
  Fresh.of_only (only_gatesRestart  (List.Subset.refl _) (Only.refl _ _)) (by decide) h

theorem fresh_pubsEpoch {s : State} (old : Tab Word) (h : Fresh s) : Fresh (pubsEpoch old s) :=
  Fresh.of_only (only_pubsEpoch old (List.Subset.refl _) (Only.refl _ _)) (by decide) h

theorem fresh_lspSettle {s : State}  (h : Fresh s) : Fresh (lspSettle s) :=
  Fresh.of_only (only_lspSettle  (List.Subset.refl _) (Only.refl _ _)) (by decide) h

theorem fresh_lspEpoch {s : State}  (h : Fresh s) : Fresh (lspEpoch s) :=
  Fresh.of_only (only_lspEpoch  (List.Subset.refl _) (Only.refl _ _)) (by decide) h

theorem fresh_dropPairs {s : State} (bad : RwpPend → Bool) (h : Fresh s) : Fresh (dropPairs bad s) :=
  Fresh.of_only (only_dropPairs bad (List.Subset.refl _) (Only.refl _ _)) (by decide) h

theorem fresh_busWrite {s : State} (p : Path) (ofs : Nat) (v : Word) (h : Fresh s) : Fresh (busWrite p ofs v s) :=
  Fresh.of_only (only_busWrite p ofs v (List.Subset.refl _) (Only.refl _ _)) (by decide) h

theorem fresh_alignJudge {s : State} (bad : List Nat) (h : Fresh s) : Fresh (alignJudge bad s) :=
  Fresh.of_only (only_alignJudge bad (List.Subset.refl _) (Only.refl _ _)) (by decide) h

theorem fresh_takeConfig {s : State} (p : Pending) (h : Fresh s) : Fresh (takeConfig p s) :=
  Fresh.of_only (only_takeConfig p (List.Subset.refl _) (Only.refl _ _)) (by decide) h

theorem fresh_excludeFronds {s : State} (excl : List Nat) (h : Fresh s) : Fresh (excludeFronds excl s) :=
  Fresh.of_only (only_excludeFronds excl (List.Subset.refl _) (Only.refl _ _)) (by decide) h

theorem fresh_tempEdge {s : State} (i : TickIn) (h : Fresh s) : Fresh (tempEdge i s) :=
  Fresh.of_only (only_tempEdge i (List.Subset.refl _) (Only.refl _ _)) (by decide) h

theorem fresh_checkInEdge {s : State}  (h : Fresh s) : Fresh (checkInEdge s) :=
  Fresh.of_only (only_checkInEdge  (List.Subset.refl _) (Only.refl _ _)) (by decide) h

theorem fresh_aliveEdge {s : State}  (h : Fresh s) : Fresh (aliveEdge s) :=
  Fresh.of_only (only_aliveEdge  (List.Subset.refl _) (Only.refl _ _)) (by decide) h

theorem fresh_fillers {s : State}  (h : Fresh s) : Fresh (fillers s) :=
  Fresh.of_only (only_fillers  (List.Subset.refl _) (Only.refl _ _)) (by decide) h

theorem fresh_overrunEdge {s : State}  (h : Fresh s) : Fresh (overrunEdge s) :=
  Fresh.of_only (only_overrunEdge  (List.Subset.refl _) (Only.refl _ _)) (by decide) h

theorem fresh_pinsEdge {s : State} (reset boundary : Bool) (h : Fresh s) : Fresh (pinsEdge reset boundary s) :=
  Fresh.of_only (only_pinsEdge reset boundary (List.Subset.refl _) (Only.refl _ _)) (by decide) h

theorem fresh_stickyEdge {s : State}  (h : Fresh s) : Fresh (stickyEdge s) :=
  Fresh.of_only (only_stickyEdge  (List.Subset.refl _) (Only.refl _ _)) (by decide) h

theorem fresh_stepCounter {s : State}  (h : Fresh s) : Fresh (stepCounter s) :=
  Fresh.of_only (only_stepCounter  (List.Subset.refl _) (Only.refl _ _)) (by decide) h

theorem fresh_windowsEdge {s : State} (v : EdgeView) (h : Fresh s) : Fresh (windowsEdge v s) :=
  Fresh.of_only (only_windowsEdge v (List.Subset.refl _) (Only.refl _ _)) (by decide) h

theorem fresh_takeBoundary {s : State}  (h : Fresh s) : Fresh (takeBoundary s) :=
  Fresh.of_only (only_takeBoundary  (List.Subset.refl _) (Only.refl _ _)) (by decide) h

theorem fresh_startTick {s : State}  (h : Fresh s) : Fresh (startTick s) :=
  Fresh.of_only (only_startTick  (List.Subset.refl _) (Only.refl _ _)) (by decide) h

theorem fresh_takeSummary {s : State} (v : EdgeView) (h : Fresh s) : Fresh (takeSummary v s) :=
  Fresh.of_only (only_takeSummary v (List.Subset.refl _) (Only.refl _ _)) (by decide) h

theorem fresh_tickVector {s : State}  (h : Fresh s) : Fresh (tickVector s) :=
  Fresh.of_only (only_tickVector  (List.Subset.refl _) (Only.refl _ _)) (by decide) h

theorem fresh_bar2Write {s : State} (ofs : Nat) (v : Word) (h : Fresh s) : Fresh (bar2Write ofs v s) :=
  Fresh.of_only (only_bar2Write ofs v (List.Subset.refl _) (Only.refl _ _)) (by decide) h

theorem fresh_unsupported {s : State} (p : Path) (h : Fresh s) : Fresh (unsupported p s) :=
  Fresh.of_only (only_unsupported p (List.Subset.refl _) (Only.refl _ _)) (by decide) h

theorem fresh_busSticky {s : State} (p : Path) (ofs : Nat) (v : Word) (hw : List (Nat × Word)) (h : Fresh s) : Fresh (busSticky p ofs v hw s) :=
  Fresh.of_only (only_busSticky p ofs v hw (List.Subset.refl _) (Only.refl _ _)) (by decide) h

theorem fresh_refuseDesc {s : State} (d : Desc) (status : Nat) (h : Fresh s) : Fresh (refuseDesc d status s) :=
  Fresh.of_only (only_refuseDesc d status (List.Subset.refl _) (Only.refl _ _)) (by decide) h

theorem fresh_crcBad {s : State} (d : Desc) (h : Fresh s) : Fresh (crcBad d s) :=
  Fresh.of_only (only_crcBad d (List.Subset.refl _) (Only.refl _ _)) (by decide) h

theorem fresh_acceptAlive {s : State} (d : Desc) (h : Fresh s) : Fresh (acceptAlive d s) :=
  Fresh.of_only (only_acceptAlive d (List.Subset.refl _) (Only.refl _ _)) (by decide) h

theorem fresh_cfgApply {s : State} (l : List CfgEnt) (h : Fresh s) : Fresh (cfgApply l s) :=
  Fresh.of_only (only_cfgApply l (List.Subset.refl _) (Only.refl _ _)) (by decide) h

theorem fresh_stageRules {s : State} (b : List Byte) (o first count : Nat) (h : Fresh s) : Fresh (stageRules b o first count s) :=
  Fresh.of_only (only_stageRules b o first count (List.Subset.refl _) (Only.refl _ _)) (by decide) h

theorem fresh_stageEdges {s : State} (b : List Byte) (o ref : Nat) (h : Fresh s) : Fresh (stageEdges b o ref s) :=
  Fresh.of_only (only_stageEdges b o ref (List.Subset.refl _) (Only.refl _ _)) (by decide) h

theorem fresh_sendClear {s : State} (f pos : Nat) (did : Option Nat) (h : Fresh s) : Fresh (sendClear f pos did s) :=
  Fresh.of_only (only_sendClear f pos did (List.Subset.refl _) (Only.refl _ _)) (by decide) h

theorem fresh_acceptCommit {s : State} (t : TickNo) (excl written : Bool) (id : Nat) (items : List (Nat × List (Nat × Word))) (h : Fresh s) : Fresh (acceptCommit t excl written id items s) :=
  Fresh.of_only (only_acceptCommit t excl written id items (List.Subset.refl _) (Only.refl _ _)) (by decide) h

theorem fresh_useNonce {s : State}  (h : Fresh s) : Fresh (useNonce s) :=
  Fresh.of_only (only_useNonce  (List.Subset.refl _) (Only.refl _ _)) (by decide) h

theorem fresh_enterState {s : State} (nx : Nat) (h : Fresh s) : Fresh (enterState nx s) :=
  Fresh.of_only (only_enterState nx (List.Subset.refl _) (Only.refl _ _)) (by decide) h

theorem fresh_zeroise {s : State}  (h : Fresh s) : Fresh (zeroise s) :=
  Fresh.of_only (only_zeroise  (List.Subset.refl _) (Only.refl _ _)) (by decide) h

theorem fresh_zeroiseVoid {s : State}  (h : Fresh s) : Fresh (zeroiseVoid s) :=
  Fresh.of_only (only_zeroiseVoid  (List.Subset.refl _) (Only.refl _ _)) (by decide) h

theorem fresh_usePresence {s : State}  (h : Fresh s) : Fresh (usePresence s) :=
  Fresh.of_only (only_usePresence  (List.Subset.refl _) (Only.refl _ _)) (by decide) h

theorem fresh_cryptoError {s : State}  (h : Fresh s) : Fresh (cryptoError s) :=
  Fresh.of_only (only_cryptoError  (List.Subset.refl _) (Only.refl _ _)) (by decide) h

theorem fresh_stageBlob {s : State} (b : List Byte) (p : BlobParts) (h : Fresh s) : Fresh (stageBlob b p s) :=
  Fresh.of_only (only_stageBlob b p (List.Subset.refl _) (Only.refl _ _)) (by decide) h

theorem fresh_trainLink {s : State} (l : LinkIn) (h : Fresh s) : Fresh (trainLink l s) :=
  Fresh.of_only (only_trainLink l (List.Subset.refl _) (Only.refl _ _)) (by decide) h

theorem fresh_inOneCycle {s : State} (f : State → State) (h_f : ∀ {u : State}, Fresh u → Fresh (f u)) (h : Fresh s) : Fresh (inOneCycle f s) := by
  unfold inOneCycle
  try dsimp only
  repeat' first
    | with_reducible assumption | with_reducible apply h_f
    | (fail_if_no_progress ((with_reducible apply Fresh.mk_of) <;> try with_reducible rfl))

theorem fresh_sweepNops : ∀ (l : List Outstanding) {s : State}, (∀ o ∈ l, o.id < s.nextId) → Fresh (sweepNops l s)
  | [], s, _ => by
    unfold sweepNops
    intro o ho
    cases ho
  | o :: r, s, h => by
    unfold sweepNops
    split
    · refine fresh_sweepNops r ?_
      have e : (if o.lost = true then s else writeCpl 0 0 o.didx o.tag [] s).nextId = s.nextId := by
        split
        · rfl
        · unfold writeCpl
          split
          · exact congrArg Prod.snd (only_mpCompletion (ps := [.outbox, .rings, .sessions]) _ _ _ (List.Subset.refl _)
              (only_ringWrite (ps := [.outbox, .rings, .sessions]) _ _ (by decide) (Only.refl _ _)) .descs (by decide))
          · rfl
      rw [e]
      exact fun x hx => h x (List.mem_cons_of_mem _ hx)
    · exact h

theorem fresh_modOut {s : State} (id : Nat) (g : Outstanding → Outstanding) (hg : ∀ o, (g o).id = o.id) (h : Fresh s) : Fresh (modOut id g s) := by
  intro o ho
  unfold modOut at ho
  obtain ⟨x, hx, rfl⟩ := List.mem_map.mp ho
  have k := h x hx
  show _ < s.nextId
  split
  · rw [hg]
    exact k
  · exact k

theorem fresh_writeCpl {s : State} (op : Byte) (st : Nat) (x : Half) (t : Word) (r : List Byte) (h : Fresh s) : Fresh (writeCpl op st x t r s) :=
  Fresh.of_only (only_writeCpl (ps := [.outbox, .rings, .sessions]) _ _ _ _ _ (List.Subset.refl _) (Only.refl _ _)) (by decide) h

theorem fresh_complete {s : State} (id status : Nat) (res : List Byte) (h : Fresh s) : Fresh (complete id status res s) := by
  have k : ∀ o, Fresh { s with outs := s.outs.filter o } := fun _ x hx => h x (List.mem_of_mem_filter hx)
  unfold complete
  split
  · exact h
  · dsimp only
    split
    · exact fresh_sweepNops _ (k _)
    · exact fresh_sweepNops _ (fresh_writeCpl _ _ _ _ _ (k _))

theorem fresh_completeOpt {s : State} (id : Option Nat) (status : Nat) (res : List Byte) (h : Fresh s) : Fresh (completeOpt id status res s) := by
  unfold completeOpt
  repeat' first
    | with_reducible assumption | with_reducible apply fresh_complete | split

theorem fresh_ringsOff {s : State} (h : Fresh s) : Fresh (ringsOff s) := by
  intro o ho
  unfold ringsOff at ho
  obtain ⟨x, hx, rfl⟩ := List.mem_map.mp ho
  exact h x hx

theorem fresh_busMaster {s : State} (on : Bool) (h : Fresh s) : Fresh (busMaster on s) := by
  unfold busMaster
  try dsimp only
  repeat' first
    | with_reducible assumption | with_reducible apply fresh_ringsOff | with_reducible apply Fresh.ite
    | (fail_if_no_progress ((with_reducible apply Fresh.mk_of) <;> try with_reducible rfl)) | split

theorem fresh_mapEnd {s : State} (x : MapXfer) (status : Nat) (h : Fresh s) : Fresh (mapEnd x status s) := by
  unfold mapEnd
  try dsimp only
  repeat' first
    | with_reducible assumption | with_reducible apply fresh_outp | with_reducible apply fresh_complete
    | with_reducible apply Fresh.ite | (fail_if_no_progress ((with_reducible apply Fresh.mk_of) <;> try with_reducible rfl))
    | split

theorem fresh_capEnd {s : State} (t : Tab Word) (r : Nat) (aborted : Bool) (cells : List Cell) (c : CapRun) (h : Fresh s) : Fresh (capEnd t r aborted cells c s) := by
  unfold capEnd
  try dsimp only
  repeat' first
    | with_reducible assumption | with_reducible apply fresh_enqueue | with_reducible apply fresh_complete
    | with_reducible apply fresh_modCap | (with_reducible refine Fresh.foldl (fun t' a' h' => ?_) _ ?_ <;> (try dsimp only))
    | (fail_if_no_progress ((with_reducible apply Fresh.mk_of) <;> try with_reducible rfl))

theorem fresh_capReadout {s : State} (own : Bool) (t : Tab Word) (r : Nat) (h : Fresh s) : Fresh (capReadout own t r s) := by
  unfold capReadout
  try dsimp only
  repeat' first
    | with_reducible assumption | with_reducible apply fresh_enqueue | with_reducible apply fresh_modCap
    | with_reducible apply fresh_capEnd | with_reducible apply Fresh.ite
    | (fail_if_no_progress ((with_reducible apply Fresh.mk_of) <;> try with_reducible rfl)) | split

theorem fresh_capOwed (t : Tab Word) (r : Nat) : ∀ (n : Nat) {s : State}, Fresh s → Fresh (capOwed t r n s)
  | 0, _, h => h
  | n + 1, _, h => fresh_capOwed t r n (fresh_capReadout false t r (fresh_modCap r _ h))

theorem fresh_capAbort {s : State} (t : Tab Word) (r : Nat) (h : Fresh s) : Fresh (capAbort t r s) := by
  unfold capAbort
  try dsimp only
  repeat' first
    | with_reducible assumption | with_reducible apply fresh_modCap | with_reducible apply fresh_capEnd
    | (fail_if_no_progress ((with_reducible apply Fresh.mk_of) <;> try with_reducible rfl)) | split

theorem fresh_capsEpoch {s : State} (old : Tab Word) (h : Fresh s) : Fresh (capsEpoch old s) := by
  unfold capsEpoch
  try dsimp only
  repeat' first
    | with_reducible assumption | with_reducible apply fresh_modCap | with_reducible apply fresh_capOwed
    | with_reducible apply fresh_capAbort | (with_reducible refine Fresh.foldl (fun t' a' h' => ?_) _ ?_ <;> (try dsimp only))
    | with_reducible apply Fresh.ite | (fail_if_no_progress ((with_reducible apply Fresh.mk_of) <;> try with_reducible rfl))
    | split

theorem fresh_readDeferred {s : State} (n : Nat) (h : Fresh s) : Fresh (readDeferred n s) := by
  unfold readDeferred
  try dsimp only
  repeat' first
    | with_reducible assumption | with_reducible apply fresh_modCap | with_reducible apply fresh_capReadout
    | (with_reducible refine Fresh.foldl (fun t' a' h' => ?_) _ ?_ <;> (try dsimp only)) | with_reducible apply Fresh.ite
    | (fail_if_no_progress ((with_reducible apply Fresh.mk_of) <;> try with_reducible rfl)) | split

theorem fresh_runDeferred : ∀ (n : Nat) {s : State}, Fresh s → Fresh (runDeferred n s)
  | 0, _, h => h
  | n + 1, _, h => fresh_runDeferred n (fresh_readDeferred _
      (Fresh.of_only (only_workBlocks _ _ (List.Subset.refl _) (Only.refl _ _)) (by decide)
      (Fresh.of_only (only_writeDeferred _ (List.Subset.refl _) (Only.refl _ _)) (by decide) h)))

theorem fresh_supersede {s : State} (ch : Nat) (old : Option Carry) (h : Fresh s) : Fresh (supersede ch old s) := by
  unfold supersede
  try dsimp only
  repeat' first
    | with_reducible assumption | with_reducible apply fresh_completeOpt | split

theorem fresh_downFrond {s : State} (ins : List Nat) (f : Nat) (h : Fresh s) : Fresh (downFrond ins s f) := by
  unfold downFrond
  try dsimp only
  repeat' first
    | with_reducible assumption | with_reducible apply fresh_modFrond | with_reducible apply fresh_complete
    | with_reducible apply fresh_sendDown | with_reducible apply fresh_supersede
    | (with_reducible refine Fresh.foldl (fun t' a' h' => ?_) _ ?_ <;> (try dsimp only))
    | (fail_if_no_progress ((with_reducible apply Fresh.mk_of) <;> try with_reducible rfl)) | split

theorem fresh_finishApplied {s : State} (p : Pending) (excl : List Nat) (h : Fresh s) : Fresh (finishApplied p excl s) := by
  unfold finishApplied
  try dsimp only
  repeat' first
    | with_reducible assumption | with_reducible apply fresh_outp | with_reducible apply fresh_modFrond
    | with_reducible apply fresh_complete | with_reducible apply fresh_commitEvent
    | (with_reducible refine Fresh.foldl (fun t' a' h' => ?_) _ ?_ <;> (try dsimp only)) | with_reducible apply Fresh.ite
    | (fail_if_no_progress ((with_reducible apply Fresh.mk_of) <;> try with_reducible rfl)) | split

theorem fresh_tryFinish {s : State} (force : Bool) (h : Fresh s) : Fresh (tryFinish force s) := by
  unfold tryFinish
  try dsimp only
  repeat' first
    | with_reducible assumption | with_reducible apply fresh_finishApplied | with_reducible apply Fresh.ite | split

theorem fresh_sendSuperframe {s : State} (ins : List Nat) (h : Fresh s) : Fresh (sendSuperframe ins s) := by
  unfold sendSuperframe
  try dsimp only
  repeat' first
    | with_reducible assumption | with_reducible apply fresh_complete | with_reducible apply fresh_downFrond
    | with_reducible apply fresh_startNoCfg | with_reducible apply fresh_commitEvent | with_reducible apply fresh_tryFinish
    | (with_reducible refine Fresh.foldl (fun t' a' h' => ?_) _ ?_ <;> (try dsimp only))
    | (fail_if_no_progress ((with_reducible apply Fresh.mk_of) <;> try with_reducible rfl)) | split

theorem fresh_reportOuts {s : State} (f : Nat) (m : TickNo) (ctlMiss : Bool) (rej : Nat) (h : Fresh s) : Fresh (reportOuts f m ctlMiss rej s) := by
  unfold reportOuts
  try dsimp only
  repeat' first
    | with_reducible assumption | with_reducible apply fresh_modFrond | with_reducible apply fresh_completeOpt
    | (with_reducible refine Fresh.foldl (fun t' a' h' => ?_) _ ?_ <;> (try dsimp only)) | with_reducible apply Fresh.ite
    | (fail_if_no_progress ((with_reducible apply Fresh.mk_of) <;> try with_reducible rfl)) | split

theorem fresh_clearDone {s : State} (did : Option Nat) (edge : Nat) (h : Fresh s) : Fresh (clearDone did edge s) := by
  unfold clearDone
  try dsimp only
  repeat' first
    | with_reducible assumption | with_reducible refine fresh_modOut _ _ (fun _ => rfl) ?_ | with_reducible apply fresh_complete
    | with_reducible apply Fresh.ite | (fail_if_no_progress ((with_reducible apply Fresh.mk_of) <;> try with_reducible rfl))
    | split

theorem fresh_reportClears {s : State} (f : Nat) (m : TickNo) (ctlMiss : Bool) (h : Fresh s) : Fresh (reportClears f m ctlMiss s) := by
  unfold reportClears
  try dsimp only
  repeat' first
    | with_reducible assumption | with_reducible apply fresh_modFrond | with_reducible apply fresh_clearDone
    | (with_reducible refine Fresh.foldl (fun t' a' h' => ?_) _ ?_ <;> (try dsimp only)) | with_reducible apply Fresh.ite
    | (fail_if_no_progress ((with_reducible apply Fresh.mk_of) <;> try with_reducible rfl)) | split

theorem fresh_useU0 {s : State} (f : Nat) (d : List Byte) (stamp : Nat) (h : Fresh s) : Fresh (useU0 f d stamp s) := by
  unfold useU0
  try dsimp only
  repeat' first
    | with_reducible assumption | with_reducible apply fresh_modFrond | with_reducible apply fresh_tryFinish
    | with_reducible apply fresh_reportOuts | with_reducible apply fresh_reportClears | with_reducible apply fresh_collectU0
    | with_reducible apply fresh_useEpochCtl | with_reducible apply Fresh.ite
    | (fail_if_no_progress ((with_reducible apply Fresh.mk_of) <;> try with_reducible rfl)) | split

theorem fresh_rxUp {s : State} (f : Nat) (fr : Frame) (kind : Nat) (lenOk : Nat → Bool) (use : List Byte → State → State) (h_use : ∀ x0 {u : State}, Fresh u → Fresh (use x0 u)) (h : Fresh s) : Fresh (rxUp f fr kind lenOk use s) := by
  unfold rxUp
  try dsimp only
  repeat' first
    | with_reducible assumption | with_reducible apply h_use | with_reducible apply fresh_modFrond
    | with_reducible apply fresh_modLink | with_reducible apply fresh_rejectFrame | with_reducible apply fresh_copyDiff
    | with_reducible apply Fresh.ite | (fail_if_no_progress ((with_reducible apply Fresh.mk_of) <;> try with_reducible rfl))
    | split

theorem fresh_receiveU0 {s : State} (f : Nat) (fr : Frame) (h : Fresh s) : Fresh (receiveU0 f fr s) := by
  unfold receiveU0
  try dsimp only
  repeat' first
    | with_reducible assumption | with_reducible apply fresh_rejectFrame | with_reducible apply fresh_measure
    | with_reducible apply fresh_takeOffset | with_reducible apply fresh_useU0 | with_reducible apply fresh_linkDown
    | with_reducible apply fresh_rxUp | with_reducible apply Fresh.ite | split | (intro _; intros; try dsimp only)

theorem fresh_snapDone {s : State} (q : SnapReq) (h : Fresh s) : Fresh (snapDone q s) := by
  unfold snapDone
  try dsimp only
  repeat' first
    | with_reducible assumption | with_reducible apply fresh_outp | with_reducible apply fresh_complete
    | with_reducible apply Fresh.ite | (fail_if_no_progress ((with_reducible apply Fresh.mk_of) <;> try with_reducible rfl))
    | split

theorem fresh_snapFrond {s : State} (f : Nat) (got : List (Nat × Nat)) (h : Fresh s) : Fresh (snapFrond f got s) := by
  unfold snapFrond
  try dsimp only
  repeat' first
    | with_reducible assumption | with_reducible apply fresh_snapDone
    | (with_reducible refine Fresh.foldl (fun t' a' h' => ?_) _ ?_ <;> (try dsimp only)) | with_reducible apply Fresh.ite
    | (fail_if_no_progress ((with_reducible apply Fresh.mk_of) <;> try with_reducible rfl)) | split

theorem fresh_frondComplete {s : State} (f : Nat) (h : Fresh s) : Fresh (frondComplete f s) := by
  unfold frondComplete
  try dsimp only
  repeat' first
    | with_reducible assumption | with_reducible apply fresh_modFrond | with_reducible apply fresh_trackFrond
    | with_reducible apply fresh_snapFrond | with_reducible apply fresh_chanTick | with_reducible apply fresh_frondResolved
    | (with_reducible refine Fresh.foldl (fun t' a' h' => ?_) _ ?_ <;> (try dsimp only)) | with_reducible apply Fresh.ite
    | (fail_if_no_progress ((with_reducible apply Fresh.mk_of) <;> try with_reducible rfl)) | split

theorem fresh_frondMissing {s : State} (f : Nat) (h : Fresh s) : Fresh (frondMissing f s) := by
  unfold frondMissing
  try dsimp only
  repeat' first
    | with_reducible assumption | with_reducible apply fresh_modFrond | with_reducible apply fresh_trackFrond
    | with_reducible apply fresh_snapFrond | with_reducible apply fresh_chanMissing | with_reducible apply fresh_frondResolved
    | (with_reducible refine Fresh.foldl (fun t' a' h' => ?_) _ ?_ <;> (try dsimp only))
    | (fail_if_no_progress ((with_reducible apply Fresh.mk_of) <;> try with_reducible rfl))

theorem fresh_tryComplete {s : State} (f : Nat) (h : Fresh s) : Fresh (tryComplete f s) := by
  unfold tryComplete
  try dsimp only
  repeat' first
    | with_reducible assumption | with_reducible apply fresh_frondComplete | with_reducible apply Fresh.ite | split

theorem fresh_takeUplink {s : State} (f kind : Nat) (fr : Frame) (flags : List Nat) (h : Fresh s) : Fresh (takeUplink f kind fr flags s) := by
  unfold takeUplink
  try dsimp only
  repeat' first
    | with_reducible assumption | with_reducible apply fresh_modFrond | with_reducible apply fresh_rxUp
    | with_reducible apply fresh_tryComplete | with_reducible apply Fresh.ite
    | (fail_if_no_progress ((with_reducible apply Fresh.mk_of) <;> try with_reducible rfl)) | split
    | (intro _; intros; try dsimp only)

theorem fresh_cvuEnd {s : State} (o : Outstanding) (n status : Nat) (h : Fresh s) : Fresh (cvuEnd o n status s) := by
  unfold cvuEnd
  try dsimp only
  repeat' first
    | with_reducible assumption | with_reducible apply fresh_complete
    | (fail_if_no_progress ((with_reducible apply Fresh.mk_of) <;> try with_reducible rfl))

theorem fresh_timeOut {s : State} (o : Outstanding) (n : Nat) (h : Fresh s) : Fresh (timeOut o n s) := by
  unfold timeOut
  try dsimp only
  repeat' first
    | with_reducible assumption | with_reducible apply fresh_outp | with_reducible apply fresh_complete
    | with_reducible apply fresh_mapPull | with_reducible apply fresh_mapEnd | with_reducible apply fresh_cvuEnd
    | with_reducible apply Fresh.ite | split

theorem fresh_deadlinesEdge {s : State} (ends : List (Half × Nat)) (h : Fresh s) : Fresh (deadlinesEdge ends s) := by
  unfold deadlinesEdge
  try dsimp only
  repeat' first
    | with_reducible assumption | with_reducible apply fresh_timeOut
    | (with_reducible refine Fresh.foldl (fun t' a' h' => ?_) _ ?_ <;> (try dsimp only)) | with_reducible apply Fresh.ite | split

theorem fresh_mapCut {s : State} (read : Nat) (h : Fresh s) : Fresh (mapCut read s) := by
  unfold mapCut
  try dsimp only
  repeat' first
    | with_reducible assumption | with_reducible apply fresh_mapPull | with_reducible apply fresh_mapEnd
    | with_reducible apply Fresh.ite | split

theorem fresh_periodWork {s : State} (read : Nat) (h : Fresh s) : Fresh (periodWork read s) := by
  unfold periodWork
  try dsimp only
  repeat' first
    | with_reducible assumption | with_reducible apply fresh_modFrond | with_reducible apply fresh_msi
    | with_reducible apply fresh_latchLost | with_reducible apply fresh_clearSrc | with_reducible apply fresh_mapBoundary
    | with_reducible apply fresh_rulesBoundary | with_reducible apply fresh_mapCut
    | (with_reducible refine Fresh.foldl (fun t' a' h' => ?_) _ ?_ <;> (try dsimp only))
    | (fail_if_no_progress ((with_reducible apply Fresh.mk_of) <;> try with_reducible rfl))

theorem fresh_partsEpoch {s : State} (old : Tab Word) (h : Fresh s) : Fresh (partsEpoch old s) := by
  unfold partsEpoch
  try dsimp only
  repeat' first
    | with_reducible assumption | with_reducible apply fresh_trimAll | with_reducible apply fresh_clearSrc
    | with_reducible apply fresh_refsEpoch | with_reducible apply fresh_mapEpoch | with_reducible apply fresh_chanEpoch
    | with_reducible apply fresh_capsEpoch | with_reducible apply fresh_rulesEpoch | with_reducible apply fresh_pubsEpoch
    | with_reducible apply fresh_lspEpoch | (with_reducible refine Fresh.foldl (fun t' a' h' => ?_) _ ?_ <;> (try dsimp only))
    | (fail_if_no_progress ((with_reducible apply Fresh.mk_of) <;> try with_reducible rfl))

theorem fresh_applyEpoch {s : State} (p : Pending) (excl : List Nat) (h : Fresh s) : Fresh (applyEpoch p excl s) := by
  unfold applyEpoch
  repeat' first
    | with_reducible assumption | with_reducible apply fresh_timeEpoch | with_reducible apply fresh_takeConfig
    | with_reducible apply fresh_excludeFronds | with_reducible apply fresh_partsEpoch

theorem fresh_finishSync {s : State}  (h : Fresh s) : Fresh (finishSync s) := by
  unfold finishSync
  try dsimp only
  repeat' first
    | with_reducible assumption | with_reducible apply fresh_completeOpt
    | (with_reducible refine Fresh.foldl (fun t' a' h' => ?_) _ ?_ <;> (try dsimp only))
    | (fail_if_no_progress ((with_reducible apply Fresh.mk_of) <;> try with_reducible rfl))

theorem fresh_syncEdge {s : State} (reset : Bool) (h : Fresh s) : Fresh (syncEdge reset s) := by
  unfold syncEdge
  try dsimp only
  repeat' first
    | with_reducible assumption | with_reducible refine fresh_modOut _ _ (fun _ => rfl) ?_ | with_reducible apply fresh_finishSync
    | (with_reducible refine Fresh.foldl (fun t' a' h' => ?_) _ ?_ <;> (try dsimp only)) | with_reducible apply Fresh.ite
    | (fail_if_no_progress ((with_reducible apply Fresh.mk_of) <;> try with_reducible rfl)) | split

theorem fresh_tickEnds {s : State}  (h : Fresh s) : Fresh (tickEnds s) := by
  unfold tickEnds
  try dsimp only
  repeat' first
    | with_reducible assumption | with_reducible apply fresh_readyBlocks | with_reducible apply fresh_flushHeld
    | with_reducible apply fresh_deferTick | with_reducible apply fresh_frondMissing
    | (with_reducible refine Fresh.foldl (fun t' a' h' => ?_) _ ?_ <;> (try dsimp only)) | with_reducible apply Fresh.ite | split

theorem fresh_beforeEdge {s : State}  (h : Fresh s) : Fresh (beforeEdge s) := by
  unfold beforeEdge
  try dsimp only
  repeat' first
    | with_reducible assumption | with_reducible apply fresh_dropNotes | with_reducible apply fresh_periodWork
    | with_reducible apply Fresh.ite | split

theorem fresh_epochEdge {s : State} (v : EdgeView) (h : Fresh s) : Fresh (epochEdge v s) := by
  unfold epochEdge
  repeat' first
    | with_reducible assumption | with_reducible apply fresh_applyEpoch | split

theorem fresh_edgeJudge {s : State} (i : TickIn) (v : EdgeView) (bad : List Nat) (h : Fresh s) : Fresh (edgeJudge i v bad s) := by
  unfold edgeJudge
  try dsimp only
  repeat' first
    | with_reducible assumption | with_reducible apply fresh_judgeShadows | with_reducible apply fresh_phaseRestart
    | with_reducible apply fresh_lifeCycleCheck | with_reducible apply fresh_timeEdge | with_reducible apply fresh_alignJudge
    | with_reducible apply fresh_tempEdge | with_reducible apply fresh_overrunEdge | with_reducible apply fresh_syncEdge
    | with_reducible apply fresh_takeBoundary | with_reducible apply Fresh.ite | split

theorem fresh_edgeWork {s : State} (i : TickIn) (v : EdgeView) (bad : List Nat) (h : Fresh s) : Fresh (edgeWork i v bad s) := by
  unfold edgeWork
  try dsimp only
  repeat' first
    | with_reducible assumption | with_reducible apply fresh_writeStatus | with_reducible apply fresh_outsDue
    | with_reducible apply fresh_rulesEdge | with_reducible apply fresh_gatesRestart | with_reducible apply fresh_checkInEdge
    | with_reducible apply fresh_aliveEdge | with_reducible apply fresh_fillers | with_reducible apply fresh_pinsEdge
    | with_reducible apply fresh_stickyEdge | with_reducible apply fresh_edgeJudge | with_reducible apply fresh_startTick
    | with_reducible apply fresh_takeSummary | with_reducible apply fresh_tickVector

theorem fresh_tickEdge {s : State} (i : TickIn) (h : Fresh s) : Fresh (tickEdge i s) := by
  unfold tickEdge
  try dsimp only
  repeat' first
    | with_reducible assumption | with_reducible apply fresh_slowRings | with_reducible apply fresh_deadlinesEdge
    | with_reducible apply fresh_tickEnds | with_reducible apply fresh_stepCounter | with_reducible apply fresh_beforeEdge
    | with_reducible apply fresh_windowsEdge | with_reducible apply fresh_epochEdge | with_reducible apply fresh_edgeWork

theorem fresh_flushNow {s : State} (q : Nat) (h : Fresh s) : Fresh (flushNow q s) := by
  unfold flushNow
  try dsimp only
  repeat' first
    | with_reducible assumption | with_reducible apply fresh_flushQueue
    | with_reducible refine fresh_flushQueue_eq (by assumption) ?_ | with_reducible apply fresh_complete
    | with_reducible apply fresh_lspSettle | (with_reducible refine Fresh.foldl (fun t' a' h' => ?_) _ ?_ <;> (try dsimp only))
    | with_reducible apply Fresh.ite | (fail_if_no_progress ((with_reducible apply Fresh.mk_of) <;> try with_reducible rfl))
    | split

theorem fresh_pciWrite {s : State} (ofs : Nat) (v : Word) (h : Fresh s) : Fresh (pciWrite ofs v s) := by
  unfold pciWrite
  try dsimp only
  repeat' first
    | with_reducible assumption | with_reducible apply fresh_busMaster | with_reducible apply Fresh.ite
    | (fail_if_no_progress ((with_reducible apply Fresh.mk_of) <;> try with_reducible rfl)) | split

theorem fresh_endpointWrite {s : State} (sp : Space) (p : Path) (ofs len : Nat) (v : DWord) (h : Fresh s) : Fresh (endpointWrite sp p ofs len v s) := by
  unfold endpointWrite
  repeat' first
    | with_reducible assumption | with_reducible apply fresh_bar2Write | with_reducible apply fresh_pciWrite
    | with_reducible apply fresh_unsupported | with_reducible apply Fresh.ite | split

theorem fresh_startDesc {s : State} (d : Desc) (obj : Nat) (h : Fresh s) : Fresh (startDesc d obj s) := by
  intro o ho
  show o.id < s.nextId + 1
  rcases List.mem_append.mp ho with k | k
  · exact Nat.lt_succ_of_lt (h o k)
  · rw [List.mem_singleton.mp k]
    exact Nat.lt_succ_self _

theorem fresh_takeDesc {s : State} (form : DescForm) (d : Desc) (act : Nat → State → State) (h_act : ∀ x0 {u : State}, Fresh u → Fresh (act x0 u)) (h : Fresh s) : Fresh (takeDesc form d act s) := by
  unfold takeDesc
  try dsimp only
  repeat' first
    | with_reducible assumption | with_reducible apply h_act | with_reducible apply fresh_refuseDesc
    | with_reducible apply fresh_crcBad | with_reducible apply fresh_acceptAlive | with_reducible apply fresh_startDesc
    | with_reducible apply Fresh.ite | (fail_if_no_progress ((with_reducible apply Fresh.mk_of) <;> try with_reducible rfl))
    | split

theorem fresh_cfgAct {s : State} (d : Desc) (id : Nat) (h : Fresh s) : Fresh (cfgAct d id s) := by
  unfold cfgAct
  try dsimp only
  repeat' first
    | with_reducible assumption | with_reducible apply fresh_complete | with_reducible apply fresh_cfgApply
    | with_reducible apply Fresh.ite | split

theorem fresh_ruleLoadAct {s : State} (d : Desc) (id : Nat) (h : Fresh s) : Fresh (ruleLoadAct d id s) := by
  unfold ruleLoadAct
  try dsimp only
  repeat' first
    | with_reducible assumption | with_reducible apply fresh_complete | with_reducible apply fresh_integrity
    | with_reducible apply fresh_stageRules | with_reducible apply Fresh.ite | split

theorem fresh_snapAct {s : State} (d : Desc) (cycles id : Nat) (h : Fresh s) : Fresh (snapAct d cycles id s) := by
  unfold snapAct
  try dsimp only
  repeat' first
    | with_reducible assumption | with_reducible apply fresh_modFrond | with_reducible apply fresh_complete
    | with_reducible apply fresh_sendOrder | with_reducible apply fresh_sendDown
    | (with_reducible refine Fresh.foldl (fun t' a' h' => ?_) _ ?_ <;> (try dsimp only)) | with_reducible apply Fresh.ite
    | (fail_if_no_progress ((with_reducible apply Fresh.mk_of) <;> try with_reducible rfl)) | split

theorem fresh_outAct {s : State} (d : Desc) (id : Nat) (h : Fresh s) : Fresh (outAct d id s) := by
  unfold outAct
  try dsimp only
  repeat' first
    | with_reducible assumption | with_reducible apply fresh_complete | with_reducible apply fresh_integrity
    | with_reducible apply fresh_queueOut | with_reducible apply Fresh.ite | split

theorem fresh_armAct {s : State} (d : Desc) (on : Bool) (id : Nat) (h : Fresh s) : Fresh (armAct d on id s) := by
  unfold armAct
  try dsimp only
  repeat' first
    | with_reducible assumption | with_reducible apply fresh_complete | with_reducible apply fresh_modCap
    | with_reducible apply Fresh.ite | (fail_if_no_progress ((with_reducible apply Fresh.mk_of) <;> try with_reducible rfl))
    | split

theorem fresh_triggerAct {s : State} (d : Desc) (cycles id : Nat) (h : Fresh s) : Fresh (triggerAct d cycles id s) := by
  unfold triggerAct
  try dsimp only
  repeat' first
    | with_reducible assumption | with_reducible apply fresh_complete | with_reducible apply fresh_capTrigger
    | with_reducible refine fresh_capTrigger_eq (by assumption) ?_ | with_reducible apply Fresh.ite | split

theorem fresh_flushAct {s : State} (d : Desc) (id : Nat) (h : Fresh s) : Fresh (flushAct d id s) := by
  unfold flushAct
  try dsimp only
  repeat' first
    | with_reducible assumption | with_reducible apply fresh_flushNow | with_reducible apply Fresh.ite
    | (fail_if_no_progress ((with_reducible apply Fresh.mk_of) <;> try with_reducible rfl)) | split

theorem fresh_clearFrondAct {s : State} (d : Desc) (id : Nat) (h : Fresh s) : Fresh (clearFrondAct d id s) := by
  unfold clearFrondAct
  try dsimp only
  repeat' first
    | with_reducible assumption | with_reducible apply fresh_modFrond | with_reducible apply fresh_complete
    | with_reducible apply fresh_dropSrc | with_reducible apply fresh_sendClear
    | (with_reducible refine Fresh.foldl (fun t' a' h' => ?_) _ ?_ <;> (try dsimp only)) | with_reducible apply Fresh.ite
    | (fail_if_no_progress ((with_reducible apply Fresh.mk_of) <;> try with_reducible rfl)) | split

theorem fresh_release {s : State} (x : Src) (fs : List Nat) (id : Nat) (h : Fresh s) : Fresh (release x fs id s) := by
  unfold release
  try dsimp only
  repeat' first
    | with_reducible assumption | with_reducible apply fresh_modFrond | with_reducible apply fresh_complete
    | with_reducible apply fresh_sendClear | (with_reducible refine Fresh.foldl (fun t' a' h' => ?_) _ ?_ <;> (try dsimp only))
    | with_reducible apply Fresh.ite | (fail_if_no_progress ((with_reducible apply Fresh.mk_of) <;> try with_reducible rfl))
    | split

theorem fresh_clearSourceAct {s : State} (d : Desc) (id : Nat) (h : Fresh s) : Fresh (clearSourceAct d id s) := by
  unfold clearSourceAct
  try dsimp only
  repeat' first
    | with_reducible assumption | with_reducible apply fresh_complete | with_reducible apply fresh_dropSrc
    | with_reducible apply fresh_release | with_reducible apply Fresh.ite
    | (fail_if_no_progress ((with_reducible apply Fresh.mk_of) <;> try with_reducible rfl)) | split

theorem fresh_clearLatchAct {s : State} (id : Nat) (h : Fresh s) : Fresh (clearLatchAct id s) := by
  unfold clearLatchAct
  try dsimp only
  repeat' first
    | with_reducible assumption | with_reducible apply fresh_complete | with_reducible apply fresh_faultRec
    | (fail_if_no_progress ((with_reducible apply Fresh.mk_of) <;> try with_reducible rfl)) | split

theorem fresh_refuseCommit {s : State} (report max_ id : Nat) (l : List RepEnt) (h : Fresh s) : Fresh (refuseCommit report max_ id l s) := by
  unfold refuseCommit
  try dsimp only
  repeat' first
    | with_reducible assumption | with_reducible apply fresh_outp | with_reducible apply fresh_complete
    | with_reducible apply Fresh.ite | split

theorem fresh_commitCore {s : State} (t report max_ : Nat) (excl : Bool) (id : Nat) (didx : Half) (h : Fresh s) : Fresh (commitCore t report max_ excl id didx s) := by
  unfold commitCore
  try dsimp only
  repeat' first
    | with_reducible assumption | with_reducible apply fresh_complete | with_reducible apply fresh_dropPairs
    | with_reducible apply fresh_refuseCommit | with_reducible apply fresh_acceptCommit | with_reducible apply Fresh.ite
    | (fail_if_no_progress ((with_reducible apply Fresh.mk_of) <;> try with_reducible rfl)) | split

theorem fresh_secGate {s : State} (op : Nat) (states : List Nat) (pre : State → Bool) (copyBad otpBad : Bool) (id : Nat) (act : State → State) (h_act : ∀ {u : State}, Fresh u → Fresh (act u)) (h : Fresh s) : Fresh (secGate op states pre copyBad otpBad id act s) := by
  unfold secGate
  try dsimp only
  repeat' first
    | with_reducible assumption | with_reducible apply h_act | with_reducible apply fresh_complete
    | with_reducible apply fresh_lifeCycleCheck | with_reducible apply Fresh.ite | split

theorem fresh_plainOp {s : State} (op : Nat) (pay : SecPay) (states : List Nat) (pre : State → Bool) (act : List Byte → Nat → State → State) (d : Desc) (copyBad otpBad : Bool) (h_act : ∀ x0 x1 {u : State}, Fresh u → Fresh (act x0 x1 u)) (h : Fresh s) : Fresh (plainOp op pay states pre act d copyBad otpBad s) := by
  unfold plainOp
  try dsimp only
  repeat' first
    | with_reducible assumption | with_reducible apply h_act | with_reducible apply fresh_takeDesc
    | with_reducible apply fresh_secGate | (intro _; intros; try dsimp only)

theorem fresh_tokenOp {s : State} (op : Nat) (states : List Nat) (key : State → Nat) (pre : State → Bool) (act : List Byte → Nat → State → State) (d : Desc) (copyBad otpBad : Bool) (h_act : ∀ x0 x1 {u : State}, Fresh u → Fresh (act x0 x1 u)) (h : Fresh s) : Fresh (tokenOp op states key pre act d copyBad otpBad s) := by
  unfold tokenOp
  try dsimp only
  repeat' first
    | with_reducible assumption | with_reducible apply h_act | with_reducible apply fresh_complete
    | with_reducible apply fresh_authFailed | with_reducible apply fresh_authPassed | with_reducible apply fresh_useNonce
    | with_reducible apply fresh_plainOp | with_reducible apply Fresh.ite | split | (intro _; intros; try dsimp only)

theorem fresh_secOut {s : State} (d : Desc) (data : List Byte) (id : Nat) (h : Fresh s) : Fresh (secOut d data id s) := by
  unfold secOut
  try dsimp only
  repeat' first
    | with_reducible assumption | with_reducible apply fresh_outp | with_reducible apply fresh_complete
    | with_reducible apply Fresh.ite | split

theorem fresh_moveTo {s : State} (nx id : Nat) (h : Fresh s) : Fresh (moveTo nx id s) := by
  unfold moveTo
  repeat' first
    | with_reducible assumption | with_reducible apply fresh_complete | with_reducible apply fresh_enterState

theorem fresh_keyInstall {s : State} (b : List Byte) (id : Nat) (h : Fresh s) : Fresh (keyInstall b id s) := by
  unfold keyInstall
  try dsimp only
  repeat' first
    | with_reducible assumption | with_reducible apply fresh_complete | with_reducible apply fresh_useNonce
    | with_reducible apply Fresh.ite | (fail_if_no_progress ((with_reducible apply Fresh.mk_of) <;> try with_reducible rfl))
    | split

theorem fresh_fwChunk {s : State} (b : List Byte) (id : Nat) (h : Fresh s) : Fresh (fwChunk b id s) := by
  unfold fwChunk
  try dsimp only
  repeat' first
    | with_reducible assumption | with_reducible apply fresh_complete | with_reducible apply fresh_authFailed
    | with_reducible apply fresh_authPassed | with_reducible apply Fresh.ite
    | (fail_if_no_progress ((with_reducible apply Fresh.mk_of) <;> try with_reducible rfl)) | split

theorem fresh_blobAct {s : State} (d : Desc) (id : Nat) (h : Fresh s) : Fresh (blobAct d id s) := by
  unfold blobAct
  try dsimp only
  repeat' first
    | with_reducible assumption | with_reducible refine fresh_modOut _ _ (fun _ => rfl) ?_ | with_reducible apply fresh_complete
    | with_reducible apply fresh_integrity | with_reducible apply fresh_authFailed | with_reducible apply fresh_authPassed
    | with_reducible apply fresh_stageBlob | with_reducible apply Fresh.ite
    | (fail_if_no_progress ((with_reducible apply Fresh.mk_of) <;> try with_reducible rfl)) | split

theorem fresh_request {s : State} (id kind sq : Nat) (ownerOnly : Bool) (act : State → State) (h_act : ∀ {u : State}, Fresh u → Fresh (act u)) (h : Fresh s) : Fresh (request id kind sq ownerOnly act s) := by
  unfold request
  try dsimp only
  repeat' first
    | with_reducible assumption | with_reducible apply h_act | with_reducible apply fresh_replyTo | with_reducible apply Fresh.ite
    | split

theorem fresh_logicReset (ph : Phase) (p : Power) (s : State) : Fresh (logicReset ph p s) := by
  intro o ho
  cases ho

/-! ## Commands -/

theorem fresh_execTickEdge (s : State) (i : TickIn) (h : Fresh s) : FreshBy (execTickEdge i s) := by
  unfold execTickEdge
  try dsimp only
  repeat' first
    | with_reducible assumption | with_reducible apply FreshBy.next | with_reducible apply FreshBy.ite
    | with_reducible apply fresh_inOneCycle | with_reducible apply fresh_tickEdge | with_reducible apply Fresh.ite | split
    | (intro _; intros; try dsimp only)

theorem fresh_execDeferredWork (s : State)  (h : Fresh s) : FreshBy (execDeferredWork s) := by
  unfold execDeferredWork
  try dsimp only
  repeat' first
    | with_reducible assumption | with_reducible apply FreshBy.next | with_reducible apply FreshBy.ite
    | with_reducible apply fresh_runDeferred | with_reducible apply Fresh.ite | split

theorem fresh_execPeriodBoundary (s : State) (read : Nat) (h : Fresh s) : FreshBy (execPeriodBoundary read s) := by
  unfold execPeriodBoundary
  try dsimp only
  repeat' first
    | with_reducible assumption | with_reducible apply FreshBy.next | with_reducible apply FreshBy.ite
    | with_reducible apply fresh_inOneCycle | with_reducible apply fresh_periodWork | with_reducible apply Fresh.ite | split
    | (intro _; intros; try dsimp only)

theorem fresh_execDownlinkSuperframe (s : State) (ins : List Nat) (h : Fresh s) : FreshBy (execDownlinkSuperframe s ins) := by
  unfold execDownlinkSuperframe
  try dsimp only
  repeat' first
    | with_reducible assumption | with_reducible apply FreshBy.next | with_reducible apply FreshBy.ite
    | with_reducible apply fresh_inOneCycle | with_reducible apply fresh_sendSuperframe | with_reducible apply Fresh.ite | split
    | (intro _; intros; try dsimp only)

theorem fresh_execU0 (s : State) (f : Nat) (fr : Frame) (slow : List Nat) (h : Fresh s) : FreshBy (execU0 f fr s slow) := by
  unfold execU0
  try dsimp only
  repeat' first
    | with_reducible assumption | with_reducible apply FreshBy.next | with_reducible apply FreshBy.ite
    | with_reducible apply fresh_inOneCycle | with_reducible apply fresh_slowRings | with_reducible apply fresh_receiveU0
    | with_reducible apply fresh_tryComplete | with_reducible apply Fresh.ite | split | (intro _; intros; try dsimp only)

theorem fresh_execUplinkFrame (s : State) (f kind : Nat) (fr : Frame) (flags : List Nat) (slow : List Nat) (h : Fresh s) : FreshBy (execUplinkFrame f kind fr flags s slow) := by
  unfold execUplinkFrame
  try dsimp only
  repeat' first
    | with_reducible assumption | with_reducible apply FreshBy.next | with_reducible apply FreshBy.ite
    | with_reducible apply fresh_inOneCycle | with_reducible apply fresh_slowRings | with_reducible apply fresh_takeUplink
    | with_reducible apply Fresh.ite | split | (intro _; intros; try dsimp only)

theorem fresh_execHaltRelease (s : State) (h : Fresh s) : FreshBy (execHaltRelease s) := by
  unfold execHaltRelease
  exact FreshBy.ite (.next (fresh_logicReset _ _ _)) (.next h)

theorem fresh_execCaptureReadout (s : State) (r : Nat) (h : Fresh s) : FreshBy (execCaptureReadout r s) := by
  unfold execCaptureReadout
  try dsimp only
  repeat' first
    | with_reducible assumption | with_reducible apply FreshBy.next | with_reducible apply FreshBy.ite
    | with_reducible apply fresh_modCap | with_reducible apply fresh_capReadout | with_reducible apply Fresh.ite
    | (fail_if_no_progress ((with_reducible apply Fresh.mk_of) <;> try with_reducible rfl)) | split

theorem fresh_execFlushTakeEffect (s : State) (q : Nat) (h : Fresh s) : FreshBy (execFlushTakeEffect q s) := by
  unfold execFlushTakeEffect
  try dsimp only
  repeat' first
    | with_reducible assumption | with_reducible apply FreshBy.next | with_reducible apply FreshBy.ite
    | with_reducible apply fresh_flushNow | with_reducible apply Fresh.ite | split

theorem fresh_execNop (s : State) (d : Desc) (h : Fresh s) : FreshBy (execNop d s) := by
  unfold execNop
  exact .next (fresh_takeDesc _ d _ (fun _ {_} k => fresh_sweepNops _ k) h)

theorem fresh_execCfgWrite (s : State) (d : Desc) (h : Fresh s) : FreshBy (execCfgWrite d s) := by
  unfold execCfgWrite
  try dsimp only
  repeat' first
    | with_reducible assumption | with_reducible apply FreshBy.next | with_reducible apply FreshBy.ite
    | with_reducible apply fresh_takeDesc | with_reducible apply fresh_cfgAct | (intro _; intros; try dsimp only)

theorem fresh_execCommit (s : State) (d : Desc) (h : Fresh s) : FreshBy (execCommit d s) := by
  unfold execCommit
  try dsimp only
  repeat' first
    | with_reducible assumption | with_reducible apply FreshBy.next | with_reducible apply FreshBy.ite
    | with_reducible apply fresh_takeDesc | with_reducible apply fresh_commitCore | (intro _; intros; try dsimp only)

theorem fresh_execSnap (s : State) (d : Desc) (cycles : Nat) (h : Fresh s) : FreshBy (execSnap d cycles s) := by
  unfold execSnap
  try dsimp only
  repeat' first
    | with_reducible assumption | with_reducible apply FreshBy.next | with_reducible apply FreshBy.ite
    | with_reducible apply fresh_takeDesc | with_reducible apply fresh_snapAct | (intro _; intros; try dsimp only)

theorem fresh_execOutputSet (s : State) (d : Desc) (h : Fresh s) : FreshBy (execOutputSet d s) := by
  unfold execOutputSet
  try dsimp only
  repeat' first
    | with_reducible assumption | with_reducible apply FreshBy.next | with_reducible apply FreshBy.ite
    | with_reducible apply fresh_takeDesc | with_reducible apply fresh_outAct | (intro _; intros; try dsimp only)

theorem fresh_execArm (s : State) (d : Desc) (h : Fresh s) : FreshBy (execArm d s) := by
  unfold execArm
  try dsimp only
  repeat' first
    | with_reducible assumption | with_reducible apply FreshBy.next | with_reducible apply FreshBy.ite
    | with_reducible apply fresh_takeDesc | with_reducible apply fresh_armAct | (intro _; intros; try dsimp only)

theorem fresh_execDisarm (s : State) (d : Desc) (h : Fresh s) : FreshBy (execDisarm d s) := by
  unfold execDisarm
  try dsimp only
  repeat' first
    | with_reducible assumption | with_reducible apply FreshBy.next | with_reducible apply FreshBy.ite
    | with_reducible apply fresh_takeDesc | with_reducible apply fresh_armAct | (intro _; intros; try dsimp only)

theorem fresh_execTrigger (s : State) (d : Desc) (cycles : Nat) (h : Fresh s) : FreshBy (execTrigger d cycles s) := by
  unfold execTrigger
  try dsimp only
  repeat' first
    | with_reducible assumption | with_reducible apply FreshBy.next | with_reducible apply FreshBy.ite
    | with_reducible apply fresh_takeDesc | with_reducible apply fresh_triggerAct | (intro _; intros; try dsimp only)

theorem fresh_execMapRead (s : State) (d : Desc) (h : Fresh s) : FreshBy (execMapRead d s) := by
  unfold execMapRead
  try dsimp only
  repeat' first
    | with_reducible assumption | with_reducible apply FreshBy.next | with_reducible apply FreshBy.ite
    | with_reducible apply fresh_takeDesc | (fail_if_no_progress ((with_reducible apply Fresh.mk_of) <;> try with_reducible rfl))
    | (intro _; intros; try dsimp only)

theorem fresh_execMapReadDone (s : State)  (h : Fresh s) : FreshBy (execMapReadDone s) := by
  unfold execMapReadDone
  try dsimp only
  repeat' first
    | with_reducible assumption | with_reducible apply FreshBy.next | with_reducible apply FreshBy.ite
    | with_reducible apply fresh_mapPull | with_reducible apply fresh_mapEnd | with_reducible apply Fresh.ite | split

theorem fresh_execFlush (s : State) (d : Desc) (h : Fresh s) : FreshBy (execFlush d s) := by
  unfold execFlush
  try dsimp only
  repeat' first
    | with_reducible assumption | with_reducible apply FreshBy.next | with_reducible apply FreshBy.ite
    | with_reducible apply fresh_takeDesc | with_reducible apply fresh_flushAct | (intro _; intros; try dsimp only)

theorem fresh_execRuleLoad (s : State) (d : Desc) (h : Fresh s) : FreshBy (execRuleLoad d s) := by
  unfold execRuleLoad
  try dsimp only
  repeat' first
    | with_reducible assumption | with_reducible apply FreshBy.next | with_reducible apply FreshBy.ite
    | with_reducible apply fresh_takeDesc | with_reducible apply fresh_ruleLoadAct | (intro _; intros; try dsimp only)

theorem fresh_execSpeedTable (s : State) (d : Desc) (h : Fresh s) : FreshBy (execSpeedTable d s) := by
  unfold execSpeedTable
  try dsimp only
  repeat' first
    | with_reducible assumption | with_reducible apply FreshBy.next | with_reducible apply FreshBy.ite
    | with_reducible apply fresh_complete | with_reducible apply fresh_takeDesc | with_reducible apply fresh_stageEdges
    | with_reducible apply Fresh.ite | split | (intro _; intros; try dsimp only)

theorem fresh_execSync (s : State) (d : Desc) (h : Fresh s) : FreshBy (execSync d s) := by
  unfold execSync
  try dsimp only
  repeat' first
    | with_reducible assumption | with_reducible apply FreshBy.next | with_reducible apply FreshBy.ite
    | with_reducible refine fresh_modOut _ _ (fun _ => rfl) ?_ | with_reducible apply fresh_takeDesc
    | (fail_if_no_progress ((with_reducible apply Fresh.mk_of) <;> try with_reducible rfl)) | (intro _; intros; try dsimp only)

theorem fresh_execSyncDone (s : State)  (h : Fresh s) : FreshBy (execSyncDone s) := by
  unfold execSyncDone
  try dsimp only
  repeat' first
    | with_reducible assumption | with_reducible apply FreshBy.next | with_reducible apply FreshBy.ite
    | with_reducible apply fresh_finishSync | with_reducible apply Fresh.ite | split

theorem fresh_execFaultClearChannel (s : State) (d : Desc) (h : Fresh s) : FreshBy (execFaultClearChannel d s) := by
  unfold execFaultClearChannel
  try dsimp only
  repeat' first
    | with_reducible assumption | with_reducible apply FreshBy.next | with_reducible apply FreshBy.ite
    | with_reducible apply fresh_complete | with_reducible apply fresh_takeDesc | with_reducible apply fresh_sendClear
    | with_reducible apply Fresh.ite | split | (intro _; intros; try dsimp only)

theorem fresh_execFaultClearFrond (s : State) (d : Desc) (h : Fresh s) : FreshBy (execFaultClearFrond d s) := by
  unfold execFaultClearFrond
  try dsimp only
  repeat' first
    | with_reducible assumption | with_reducible apply FreshBy.next | with_reducible apply FreshBy.ite
    | with_reducible apply fresh_takeDesc | with_reducible apply fresh_clearFrondAct | (intro _; intros; try dsimp only)

theorem fresh_execFaultClearSource (s : State) (d : Desc) (h : Fresh s) : FreshBy (execFaultClearSource d s) := by
  unfold execFaultClearSource
  try dsimp only
  repeat' first
    | with_reducible assumption | with_reducible apply FreshBy.next | with_reducible apply FreshBy.ite
    | with_reducible apply fresh_takeDesc | with_reducible apply fresh_clearSourceAct | (intro _; intros; try dsimp only)

theorem fresh_execFaultClearLatch (s : State) (d : Desc) (h : Fresh s) : FreshBy (execFaultClearLatch d s) := by
  unfold execFaultClearLatch
  try dsimp only
  repeat' first
    | with_reducible assumption | with_reducible apply FreshBy.next | with_reducible apply FreshBy.ite
    | with_reducible apply fresh_takeDesc | with_reducible apply fresh_clearLatchAct | (intro _; intros; try dsimp only)

theorem fresh_execCvuRun (s : State) (d : Desc) (h : Fresh s) : FreshBy (execCvuRun d s) := by
  unfold execCvuRun
  try dsimp only
  repeat' first
    | with_reducible assumption | with_reducible apply FreshBy.next | with_reducible apply FreshBy.ite
    | with_reducible refine fresh_modOut _ _ (fun _ => rfl) ?_ | with_reducible apply fresh_takeDesc
    | with_reducible apply Fresh.ite | (fail_if_no_progress ((with_reducible apply Fresh.mk_of) <;> try with_reducible rfl))
    | split | (intro _; intros; try dsimp only)

theorem fresh_execCvuRunDone (s : State) (u : Nat) (h : Fresh s) : FreshBy (execCvuRunDone u s) := by
  unfold execCvuRunDone
  try dsimp only
  repeat' first
    | with_reducible assumption | with_reducible apply FreshBy.next | with_reducible apply FreshBy.ite
    | with_reducible apply fresh_cvuEnd | with_reducible apply Fresh.ite | split

theorem fresh_execTimeout (s : State) (didx : Half) (n : Nat) (h : Fresh s) : FreshBy (execTimeout didx n s) := by
  unfold execTimeout
  try dsimp only
  repeat' first
    | with_reducible assumption | with_reducible apply FreshBy.next | with_reducible apply FreshBy.ite
    | with_reducible apply fresh_timeOut | with_reducible apply Fresh.ite | split

theorem fresh_execBlobLoad (s : State) (d : Desc) (h : Fresh s) : FreshBy (execBlobLoad d s) := by
  unfold execBlobLoad
  try dsimp only
  repeat' first
    | with_reducible assumption | with_reducible apply FreshBy.next | with_reducible apply FreshBy.ite
    | with_reducible apply fresh_takeDesc | with_reducible apply fresh_blobAct | (intro _; intros; try dsimp only)

theorem fresh_execBlobStore (s : State)  (h : Fresh s) : FreshBy (execBlobStore s) := by
  unfold execBlobStore
  try dsimp only
  repeat' first
    | with_reducible assumption | with_reducible apply FreshBy.next | with_reducible apply FreshBy.ite
    | with_reducible apply fresh_complete | with_reducible apply Fresh.ite
    | (fail_if_no_progress ((with_reducible apply Fresh.mk_of) <;> try with_reducible rfl)) | split

theorem fresh_execGetNonce (s : State) (d : Desc) (copyBad otpBad : Bool) (h : Fresh s) : FreshBy (execGetNonce d copyBad otpBad s) := by
  unfold execGetNonce
  try dsimp only
  repeat' first
    | with_reducible assumption | with_reducible apply FreshBy.next | with_reducible apply FreshBy.ite
    | with_reducible apply fresh_complete | with_reducible apply fresh_plainOp
    | (fail_if_no_progress ((with_reducible apply Fresh.mk_of) <;> try with_reducible rfl)) | (intro _; intros; try dsimp only)

theorem fresh_execGetIdentity (s : State) (d : Desc) (copyBad otpBad : Bool) (h : Fresh s) : FreshBy (execGetIdentity d copyBad otpBad s) := by
  unfold execGetIdentity
  try dsimp only
  repeat' first
    | with_reducible assumption | with_reducible apply FreshBy.next | with_reducible apply FreshBy.ite
    | with_reducible apply fresh_plainOp | with_reducible apply fresh_secOut | (intro _; intros; try dsimp only)

theorem fresh_execGetState (s : State) (d : Desc) (copyBad otpBad : Bool) (h : Fresh s) : FreshBy (execGetState d copyBad otpBad s) := by
  unfold execGetState
  try dsimp only
  repeat' first
    | with_reducible assumption | with_reducible apply FreshBy.next | with_reducible apply FreshBy.ite
    | with_reducible apply fresh_complete | with_reducible apply fresh_plainOp | (intro _; intros; try dsimp only)

theorem fresh_execTakeOwnership (s : State) (d : Desc) (copyBad otpBad : Bool) (h : Fresh s) : FreshBy (execTakeOwnership d copyBad otpBad s) := by
  unfold execTakeOwnership
  try dsimp only
  repeat' first
    | with_reducible assumption | with_reducible apply FreshBy.next | with_reducible apply FreshBy.ite
    | with_reducible apply fresh_complete | with_reducible apply fresh_useNonce | with_reducible apply fresh_plainOp
    | with_reducible apply fresh_moveTo | with_reducible apply Fresh.ite
    | (fail_if_no_progress ((with_reducible apply Fresh.mk_of) <;> try with_reducible rfl)) | split
    | (intro _; intros; try dsimp only)

theorem fresh_execKeyInstall (s : State) (d : Desc) (copyBad otpBad : Bool) (h : Fresh s) : FreshBy (execKeyInstall d copyBad otpBad s) := by
  unfold execKeyInstall
  try dsimp only
  repeat' first
    | with_reducible assumption | with_reducible apply FreshBy.next | with_reducible apply FreshBy.ite
    | with_reducible apply fresh_tokenOp | with_reducible apply fresh_keyInstall | (intro _; intros; try dsimp only)

theorem fresh_execUnlock (s : State) (d : Desc) (copyBad otpBad : Bool) (h : Fresh s) : FreshBy (execUnlock d copyBad otpBad s) := by
  unfold execUnlock
  try dsimp only
  repeat' first
    | with_reducible assumption | with_reducible apply FreshBy.next | with_reducible apply FreshBy.ite
    | with_reducible apply fresh_complete | with_reducible apply fresh_secBreak | with_reducible apply fresh_useNonce
    | with_reducible apply fresh_tokenOp | with_reducible apply Fresh.ite
    | (fail_if_no_progress ((with_reducible apply Fresh.mk_of) <;> try with_reducible rfl)) | split
    | (intro _; intros; try dsimp only)

theorem fresh_execRelock (s : State) (d : Desc) (copyBad otpBad : Bool) (h : Fresh s) : FreshBy (execRelock d copyBad otpBad s) := by
  unfold execRelock
  try dsimp only
  repeat' first
    | with_reducible assumption | with_reducible apply FreshBy.next | with_reducible apply FreshBy.ite
    | with_reducible apply fresh_complete | with_reducible apply fresh_plainOp
    | (fail_if_no_progress ((with_reducible apply Fresh.mk_of) <;> try with_reducible rfl)) | (intro _; intros; try dsimp only)

theorem fresh_execSeal (s : State) (d : Desc) (copyBad otpBad : Bool) (h : Fresh s) : FreshBy (execSeal d copyBad otpBad s) := by
  unfold execSeal
  try dsimp only
  repeat' first
    | with_reducible assumption | with_reducible apply FreshBy.next | with_reducible apply FreshBy.ite
    | with_reducible apply fresh_useNonce | with_reducible apply fresh_tokenOp | with_reducible apply fresh_moveTo
    | (intro _; intros; try dsimp only)

theorem fresh_execUnseal (s : State) (d : Desc) (copyBad otpBad : Bool) (h : Fresh s) : FreshBy (execUnseal d copyBad otpBad s) := by
  unfold execUnseal
  try dsimp only
  repeat' first
    | with_reducible assumption | with_reducible apply FreshBy.next | with_reducible apply FreshBy.ite
    | with_reducible apply fresh_useNonce | with_reducible apply fresh_tokenOp | with_reducible apply fresh_moveTo
    | with_reducible apply fresh_usePresence | (intro _; intros; try dsimp only)

theorem fresh_execRma (s : State) (d : Desc) (copyBad otpBad : Bool) (h : Fresh s) : FreshBy (execRma d copyBad otpBad s) := by
  unfold execRma
  try dsimp only
  repeat' first
    | with_reducible assumption | with_reducible apply FreshBy.next | with_reducible apply FreshBy.ite
    | with_reducible apply fresh_useNonce | with_reducible apply fresh_enterState | with_reducible apply fresh_zeroise
    | with_reducible apply fresh_tokenOp | with_reducible apply fresh_usePresence
    | (fail_if_no_progress ((with_reducible apply Fresh.mk_of) <;> try with_reducible rfl)) | (intro _; intros; try dsimp only)

theorem fresh_execMakerRestore (s : State) (d : Desc) (copyBad otpBad : Bool) (h : Fresh s) : FreshBy (execMakerRestore d copyBad otpBad s) := by
  unfold execMakerRestore
  try dsimp only
  repeat' first
    | with_reducible assumption | with_reducible apply FreshBy.next | with_reducible apply FreshBy.ite
    | with_reducible apply fresh_useNonce | with_reducible apply fresh_tokenOp | with_reducible apply fresh_moveTo
    | (intro _; intros; try dsimp only)

theorem fresh_execVoid (s : State) (d : Desc) (copyBad otpBad : Bool) (h : Fresh s) : FreshBy (execVoid d copyBad otpBad s) := by
  unfold execVoid
  try dsimp only
  repeat' first
    | with_reducible assumption | with_reducible apply FreshBy.next | with_reducible apply FreshBy.ite
    | with_reducible apply fresh_useNonce | with_reducible apply fresh_zeroiseVoid | with_reducible apply fresh_tokenOp
    | with_reducible apply fresh_moveTo | with_reducible apply fresh_usePresence | with_reducible apply Fresh.ite | split
    | (intro _; intros; try dsimp only)

theorem fresh_execFwUpdate (s : State) (d : Desc) (copyBad otpBad : Bool) (h : Fresh s) : FreshBy (execFwUpdate d copyBad otpBad s) := by
  unfold execFwUpdate
  try dsimp only
  repeat' first
    | with_reducible assumption | with_reducible apply FreshBy.next | with_reducible apply FreshBy.ite
    | with_reducible apply fresh_takeDesc | with_reducible apply fresh_secGate | with_reducible apply fresh_fwChunk
    | (fail_if_no_progress ((with_reducible apply Fresh.mk_of) <;> try with_reducible rfl)) | (intro _; intros; try dsimp only)

theorem fresh_execFwConfirm (s : State) (d : Desc) (copyBad otpBad : Bool) (h : Fresh s) : FreshBy (execFwConfirm d copyBad otpBad s) := by
  unfold execFwConfirm
  try dsimp only
  repeat' first
    | with_reducible assumption | with_reducible apply FreshBy.next | with_reducible apply FreshBy.ite
    | with_reducible apply fresh_complete | with_reducible apply fresh_plainOp
    | (fail_if_no_progress ((with_reducible apply Fresh.mk_of) <;> try with_reducible rfl)) | (intro _; intros; try dsimp only)

theorem fresh_execLdevidGen (s : State) (d : Desc) (copyBad otpBad : Bool) (h : Fresh s) : FreshBy (execLdevidGen d copyBad otpBad s) := by
  unfold execLdevidGen
  try dsimp only
  repeat' first
    | with_reducible assumption | with_reducible apply FreshBy.next | with_reducible apply FreshBy.ite
    | with_reducible apply fresh_complete | with_reducible apply fresh_plainOp | with_reducible apply fresh_secOut
    | with_reducible apply Fresh.ite | (fail_if_no_progress ((with_reducible apply Fresh.mk_of) <;> try with_reducible rfl))
    | split | (intro _; intros; try dsimp only)

theorem fresh_execLdevidInstall (s : State) (d : Desc) (copyBad otpBad : Bool) (h : Fresh s) : FreshBy (execLdevidInstall d copyBad otpBad s) := by
  unfold execLdevidInstall
  try dsimp only
  repeat' first
    | with_reducible assumption | with_reducible apply FreshBy.next | with_reducible apply FreshBy.ite
    | with_reducible apply fresh_complete | with_reducible apply fresh_useNonce | with_reducible apply fresh_tokenOp
    | (fail_if_no_progress ((with_reducible apply Fresh.mk_of) <;> try with_reducible rfl)) | (intro _; intros; try dsimp only)

theorem fresh_execSelfTest (s : State) (d : Desc) (copyBad otpBad : Bool) (h : Fresh s) : FreshBy (execSelfTest d copyBad otpBad s) := by
  unfold execSelfTest
  try dsimp only
  repeat' first
    | with_reducible assumption | with_reducible apply FreshBy.next | with_reducible apply FreshBy.ite
    | with_reducible apply fresh_plainOp | (intro _; intros; try dsimp only)

theorem fresh_execRegisterWrite (s : State) (p : Path) (ofs len : Nat) (v : DWord) (hw : Word) (chw : List (Nat × Word)) (sp : Space) (h : Fresh s) : FreshBy (execRegisterWrite p ofs len v s hw chw sp) := by
  unfold execRegisterWrite
  try dsimp only
  repeat' first
    | with_reducible assumption | with_reducible apply FreshBy.next | with_reducible apply FreshBy.ite
    | with_reducible apply fresh_busWrite | with_reducible apply fresh_unsupported | with_reducible apply fresh_busSticky
    | with_reducible apply fresh_endpointWrite | with_reducible apply Fresh.ite | split

theorem fresh_execFunctionLevelReset (s : State)  (h : Fresh s) : FreshBy (execFunctionLevelReset s) := by
  unfold execFunctionLevelReset
  try dsimp only
  repeat' first
    | with_reducible assumption | with_reducible apply FreshBy.next | with_reducible apply FreshBy.ite
    | with_reducible apply fresh_busMaster | with_reducible apply Fresh.ite | split

theorem fresh_execBusMasterClear (s : State)  (h : Fresh s) : FreshBy (execBusMasterClear s) := by
  unfold execBusMasterClear
  try dsimp only
  repeat' first
    | with_reducible assumption | with_reducible apply FreshBy.next | with_reducible apply FreshBy.ite
    | with_reducible apply fresh_busMaster | with_reducible apply Fresh.ite | split

theorem fresh_execPciePerst (s : State) (high : Bool) (l : LinkIn) (h : Fresh s) : FreshBy (execPciePerst high l s) := by
  unfold execPciePerst
  try dsimp only
  repeat' first
    | with_reducible assumption | with_reducible apply FreshBy.next | with_reducible apply FreshBy.ite
    | with_reducible apply fresh_ringsOff | with_reducible apply fresh_trainLink | with_reducible apply Fresh.ite
    | (fail_if_no_progress ((with_reducible apply Fresh.mk_of) <;> try with_reducible rfl)) | split

theorem fresh_execModuleReset (s : State) (brownOut : Bool) (h : Fresh s) : FreshBy (execModuleReset brownOut s) := by
  unfold execModuleReset
  dsimp only
  refine FreshBy.ite (.next h) (.next ?_)
  split <;> exact fresh_logicReset _ _ _

theorem fresh_execAutonomousCommit (s : State)  (h : Fresh s) : FreshBy (execAutonomousCommit s) := by
  unfold execAutonomousCommit
  try dsimp only
  repeat' first
    | with_reducible assumption | with_reducible apply FreshBy.next | with_reducible apply FreshBy.ite
    | with_reducible apply fresh_outp | with_reducible apply fresh_modRing | with_reducible apply fresh_takeDesc
    | with_reducible apply fresh_commitCore | with_reducible apply fresh_stageBlob | with_reducible apply Fresh.ite
    | (fail_if_no_progress ((with_reducible apply Fresh.mk_of) <;> try with_reducible rfl)) | split
    | (intro _; intros; try dsimp only)

theorem fresh_execBadOpcode (s : State) (d : Desc) (h : Fresh s) : FreshBy (execBadOpcode d s) := by
  unfold execBadOpcode
  try dsimp only
  repeat' first
    | with_reducible assumption | with_reducible apply FreshBy.next | with_reducible apply FreshBy.ite
    | with_reducible apply fresh_refuseDesc | with_reducible apply fresh_acceptAlive | with_reducible apply fresh_takeDesc
    | with_reducible apply Fresh.ite | (fail_if_no_progress ((with_reducible apply Fresh.mk_of) <;> try with_reducible rfl))
    | split | (intro _; intros; try dsimp only)

theorem fresh_execZeroisationComplete (s : State)  (h : Fresh s) : FreshBy (execZeroisationComplete s) := by
  unfold execZeroisationComplete
  try dsimp only
  repeat' first
    | with_reducible assumption | with_reducible apply FreshBy.next | with_reducible apply FreshBy.ite
    | with_reducible apply fresh_completeOpt | with_reducible apply Fresh.ite
    | (fail_if_no_progress ((with_reducible apply Fresh.mk_of) <;> try with_reducible rfl)) | split

theorem fresh_execSelfTestDone (s : State) (alg : Nat) (h : Fresh s) : FreshBy (execSelfTestDone alg s) := by
  unfold execSelfTestDone
  try dsimp only
  repeat' first
    | with_reducible assumption | with_reducible apply FreshBy.next | with_reducible apply FreshBy.ite
    | with_reducible apply fresh_complete | with_reducible apply fresh_cryptoError | with_reducible apply Fresh.ite | split

end Sys2Proof.Machine
end

