-- ==== Sys2Proof/Laws/Kept1.lean ====
section
/-! SUPPORT. What nearly every shared operation keeps, said once as a relation, with one lemma per operation over the files of
Machine. -/

set_option linter.unusedTactic false
set_option linter.unreachableTactic false

namespace Sys2Proof.Machine
open Sys2Proof

/-- From s to t nothing changes that only a few commands may change: the queue of commands, the mode, the configuration in force, the
tick counter, the life cycle, the fronds' own side; what was sent stays sent; the canonical form of the map's memory and the HALT
latch of a halted module are kept. -/
structure Kept (s t : State) : Prop where
  pending : t.pending = s.pending
  auto : t.auto = s.auto
  cfg : t.cfg = s.cfg
  count : t.tm.count = s.tm.count
  lc : t.sec.lc = s.sec.lc
  field : t.field = s.field
  out : s.outbox <:+ t.outbox
  mem : Memory.wf s.map.mem → Memory.wf t.map.mem
  halt : HaltHeld s → HaltHeld t
  started : t.tm.started = s.tm.started
  jump : s.tm.jump = none → t.tm.jump = none

theorem Kept.refl (s : State) : Kept s s := ⟨rfl, rfl, rfl, rfl, rfl, rfl, List.suffix_refl _, id, id, rfl, id⟩

theorem Kept.trans {s t u : State} (a : Kept s t) (b : Kept t u) : Kept s u :=
  ⟨b.pending.trans a.pending, b.auto.trans a.auto, b.cfg.trans a.cfg, b.count.trans a.count, b.lc.trans a.lc, b.field.trans a.field,
   a.out.trans b.out, fun h => b.mem (a.mem h), fun h => b.halt (a.halt h),
   b.started.trans a.started, fun h => b.jump (a.jump h)⟩

/-- An update of other fields, or of the harmless parts of tm, map, pwr and sec. -/
theorem Kept.mk_of {s t : State} (tm' : TimeUnit) (staged' : Tab Word) (pcie' : PathRegs) (mp' : PathRegs) (rwp' : List RwpPend) (scratch' : Word)
    (lockedWr' : Bool) (orphan' : Bool) (wrOfs' : Half) (torn' : Bool) (tornOfs' : Half) (queues' : Tab Queue) (reserve' :
    Nat) (rings' : Tab Ring) (expAlive' : Byte) (lastAlive' : Option Byte) (outs' : List Outstanding) (nextId' : Nat)
    (stsBase' : DWord) (tickIrq' : Bool) (tickDiv' : Nat) (dberr' : Bool) (dbOfs' : Nat) (bme' : Bool) (msix' : Nat) (pba' :
    Nat) (ep' : Endpoint) (cvu' : Tab Cvu) (lsp' : StreamPort) (srcs' : Tab Src) (latch' : Option Latch) (latchSeq' : Nat)
    (overflow' : Bool) (fltCount' : Nat) (shadows' : Tab Shadow) (noted' : List Nat) (alive' : Bool) (pend' : Option
    Pending) (fronds' : Tab CFrond) (chans' : Tab CChan) (badPaths' : List (Nat × Nat × Nat × Nat)) (boundary' : Option
    (TickNo × Half)) (snaps' : List SnapReq) (sumDone' : Bool) (sumSnap' : List Byte) (sumEpoch' : Half) (sumNext' : List
    Byte) (sumNextEp' : Half) (latNow' : Option (TickNo × Half)) (abs' : Nat) (absPrev' : Nat) (plans' : Tab Plan) (blocks'
    : List Blk) (feats' : List Feats) (sliceRun' : Bool) (refs' : Tab SpdRef) (map' : MapUnit) (caps' : Tab CapRing) (rules'
    : Tab RuleSt) (rulEval' : Nat) (wrSince' : List Nat) (pwr' : Power) (bud' : Budget) (sec' : Sec) (net' : Net) (xfers' :
    List MapXfer)
    (h : Kept s t) (tm_ : tm'.count = t.tm.count) (started_ : tm'.started = t.tm.started) (jump_ : tm'.jump = t.tm.jump) (map_ : map'.mem = t.map.mem) (pwr_ : pwr'.haltLatch = t.pwr.haltLatch) (sec_ : sec'.lc = t.sec.lc) :
    Kept s (State.mk t.pending t.outbox t.phase t.auto tm' staged' t.cfg pcie' mp' rwp' scratch' lockedWr' orphan' wrOfs' torn' tornOfs'
    queues' reserve' rings' expAlive' lastAlive' outs' nextId' stsBase' tickIrq' tickDiv' dberr' dbOfs' bme' msix' pba' ep'
    cvu' lsp' srcs' latch' latchSeq' overflow' fltCount' shadows' noted' alive' pend' fronds' t.field chans' badPaths'
    boundary' snaps' sumDone' sumSnap' sumEpoch' sumNext' sumNextEp' latNow' abs' absPrev' plans' blocks' feats' sliceRun'
    refs' map' caps' rules' rulEval' wrSince' pwr' bud' sec' net' xfers') :=
  ⟨h.pending, h.auto, h.cfg, tm_.trans h.count, sec_.trans h.lc, h.field, h.out, fun w => map_ ▸ h.mem w,
   fun w => by have := h.halt w; unfold HaltHeld at *; dsimp only; rw [pwr_]; exact this,
   started_.trans h.started, fun w => jump_.trans (h.jump w)⟩

theorem Kept.ite {s a b : State} {c : Prop} [Decidable c] (ha : Kept s a) (hb : Kept s b) : Kept s (if c then a else b) := by
  split
  · exact ha
  · exact hb

theorem Kept.foldl {α : Type} {s : State} {f : State → α → State} (hf : ∀ t a, Kept s t → Kept s (f t a)) :
    ∀ (l : List α) {t : State}, Kept s t → Kept s (l.foldl f t)
  | [], _, h => h
  | a :: l, _, h => Kept.foldl hf l (hf _ a h)

/-! ## Ops -/

theorem kept_outp {s t : State} (o : Output) (h : Kept s t) : Kept s (outp o t) :=
  ⟨h.pending, h.auto, h.cfg, h.count, h.lc, h.field, h.out.trans (List.suffix_cons _ _), h.mem, h.halt, h.started, h.jump⟩

theorem kept_modFrond {s s' : State} (f : Nat) (g : CFrond → CFrond) (h : Kept s s') : Kept s (modFrond f g s') := by
  unfold modFrond
  try dsimp only
  repeat' first
    | with_reducible assumption | (fail_if_no_progress (with_reducible apply Kept.mk_of <;> try with_reducible rfl))

theorem kept_msi {s s' : State} (v : Nat) (h : Kept s s') : Kept s (msi v s') := by
  unfold msi
  try dsimp only
  repeat' first
    | with_reducible assumption | with_reducible apply kept_outp | with_reducible apply Kept.ite
    | (fail_if_no_progress (with_reducible apply Kept.mk_of <;> try with_reducible rfl)) | split

theorem kept_modCChan {s s' : State} (ch : Nat) (g : CChan → CChan) (h : Kept s s') : Kept s (modCChan ch g s') := by
  unfold modCChan
  try dsimp only
  repeat' first
    | with_reducible assumption | (fail_if_no_progress (with_reducible apply Kept.mk_of <;> try with_reducible rfl))

/-! ## Queues -/

theorem kept_storeQueue {s s' : State} (q : Nat) (x : Queue) (h : Kept s s') : Kept s (storeQueue q x s') := by
  unfold storeQueue
  try dsimp only
  repeat' first
    | with_reducible assumption | (fail_if_no_progress (with_reducible apply Kept.mk_of <;> try with_reducible rfl))

theorem kept_giveOwed {s : State} : ∀ (l : List Nat) (n : Nat) {t : State}, Kept s t → Kept s (giveOwed l n t)
  | [], _, _, h => by
    unfold giveOwed
    exact h
  | q :: r, n, t, h => by
    unfold giveOwed
    refine kept_giveOwed r _ ?_
    split
    · exact h
    · exact kept_storeQueue _ _ h

theorem kept_releaseOwed {s s' : State}  (h : Kept s s') : Kept s (releaseOwed s') := by
  unfold releaseOwed
  try dsimp only
  repeat' first
    | with_reducible assumption | with_reducible apply kept_giveOwed
    | (with_reducible refine Kept.foldl (fun t' a' h' => ?_) _ ?_ <;> (try dsimp only)) | with_reducible apply Kept.ite | split

theorem kept_settle {s s' : State} (q : Nat) (h : Kept s s') : Kept s (settle q s') := by
  unfold settle
  repeat' first
    | with_reducible assumption | with_reducible apply kept_storeQueue | with_reducible apply kept_releaseOwed

theorem kept_enqueue {s s' : State} (q : Nat) (cells : List Cell) (h : Kept s s') : Kept s (enqueue q cells s') := by
  unfold enqueue
  try dsimp only
  repeat' first
    | with_reducible assumption | with_reducible apply kept_settle | with_reducible apply Kept.ite
    | (fail_if_no_progress (with_reducible apply Kept.mk_of <;> try with_reducible rfl)) | split

theorem kept_emit {s s' : State} (q : Nat) (c : Cell) (h : Kept s s') : Kept s (emit q c s') := by
  unfold emit
  repeat' first
    | with_reducible assumption | with_reducible apply kept_enqueue

theorem kept_trimAll {s s' : State} (old : Tab Word) (h : Kept s s') : Kept s (trimAll old s') := by
  unfold trimAll
  try dsimp only
  repeat' first
    | with_reducible assumption | with_reducible apply kept_storeQueue | with_reducible apply kept_releaseOwed
    | (with_reducible refine Kept.foldl (fun t' a' h' => ?_) _ ?_ <;> (try dsimp only)) | with_reducible apply Kept.ite
    | (fail_if_no_progress (with_reducible apply Kept.mk_of <;> try with_reducible rfl)) | split

theorem kept_inOneCycle {s s' : State} (f : State → State) (h_f : ∀ {u : State}, Kept s u → Kept s (f u)) (h : Kept s s') : Kept s (inOneCycle f s') := by
  unfold inOneCycle
  try dsimp only
  repeat' first
    | with_reducible assumption | with_reducible apply h_f
    | (fail_if_no_progress (with_reducible apply Kept.mk_of <;> try with_reducible rfl))

theorem kept_flushQueue {s t : State} (q : Nat) (h : Kept s t) : Kept s (flushQueue q t).1 := by
  unfold flushQueue
  dsimp only
  apply kept_settle
  (with_reducible apply Kept.mk_of <;> try with_reducible rfl)
  exact h

theorem kept_latchLost {s s' : State}  (h : Kept s s') : Kept s (latchLost s') := by
  unfold latchLost
  try dsimp only
  repeat' first
    | with_reducible assumption | (fail_if_no_progress (with_reducible apply Kept.mk_of <;> try with_reducible rfl))

/-! ## Rings -/

theorem kept_modRing {s s' : State} (r : Nat) (g : Ring → Ring) (h : Kept s s') : Kept s (modRing r g s') := by
  unfold modRing
  try dsimp only
  repeat' first
    | with_reducible assumption | (fail_if_no_progress (with_reducible apply Kept.mk_of <;> try with_reducible rfl))

theorem kept_writeStatus {s s' : State}  (h : Kept s s') : Kept s (writeStatus s') := by
  unfold writeStatus
  repeat' first
    | with_reducible assumption | with_reducible apply kept_outp | with_reducible apply Kept.ite | split

theorem kept_moderate {s s' : State} (r : Nat) (h : Kept s s') : Kept s (moderate r s') := by
  unfold moderate
  try dsimp only
  repeat' first
    | with_reducible assumption | with_reducible apply kept_msi | with_reducible apply kept_modRing
    | with_reducible apply Kept.ite | (fail_if_no_progress (with_reducible apply Kept.mk_of <;> try with_reducible rfl)) | split

theorem kept_ringWrite {s s' : State} (r : Nat) (bytes : List Byte) (h : Kept s s') : Kept s (ringWrite r bytes s') := by
  unfold ringWrite
  try dsimp only
  repeat' first
    | with_reducible assumption | with_reducible apply kept_outp | with_reducible apply kept_modRing
    | with_reducible apply kept_writeStatus | with_reducible apply kept_moderate
    | (fail_if_no_progress (with_reducible apply Kept.mk_of <;> try with_reducible rfl))

theorem kept_replyTo {s s' : State} (session kind sq status : Nat) (res : List Byte) (h : Kept s s') : Kept s (replyTo session kind sq status res s') := by
  unfold replyTo
  try dsimp only
  repeat' first
    | with_reducible assumption | with_reducible apply kept_outp

theorem kept_mpCompletion {s s' : State} (status : Nat) (didx : Half) (bytes : List Byte) (h : Kept s s') : Kept s (mpCompletion status didx bytes s') := by
  unfold mpCompletion
  try dsimp only
  repeat' first
    | with_reducible assumption | with_reducible apply kept_modRing | with_reducible apply kept_replyTo
    | with_reducible apply Kept.ite | (fail_if_no_progress (with_reducible apply Kept.mk_of <;> try with_reducible rfl)) | split

theorem kept_writeCpl {s s' : State} (opcode : Byte) (status : Nat) (didx : Half) (tag : Word) (res : List Byte) (h : Kept s s') : Kept s (writeCpl opcode status didx tag res s') := by
  unfold writeCpl
  try dsimp only
  repeat' first
    | with_reducible assumption | with_reducible apply kept_ringWrite | with_reducible apply kept_mpCompletion
    | with_reducible apply Kept.ite | split

theorem kept_sweepNops {s : State} : ∀ (l : List Outstanding) {t : State}, Kept s t → Kept s (sweepNops l t)
  | [], _, h => by unfold sweepNops; with_reducible apply Kept.mk_of <;> first | exact h | rfl
  | o :: r, t, h => by
    unfold sweepNops
    split
    · refine kept_sweepNops r ?_
      split
      · exact h
      · exact kept_writeCpl _ _ _ _ _ h
    · with_reducible apply Kept.mk_of <;> first | exact h | rfl

theorem kept_modOut {s s' : State} (id : Nat) (g : Outstanding → Outstanding) (h : Kept s s') : Kept s (modOut id g s') := by
  unfold modOut
  try dsimp only
  repeat' first
    | with_reducible assumption | with_reducible apply Kept.ite
    | (fail_if_no_progress (with_reducible apply Kept.mk_of <;> try with_reducible rfl)) | split

theorem kept_complete {s s' : State} (id : Nat) (status : Nat) (res : List Byte) (h : Kept s s') : Kept s (complete id status res s') := by
  unfold complete
  try dsimp only
  repeat' first
    | with_reducible assumption | with_reducible apply kept_writeCpl | with_reducible apply kept_sweepNops
    | with_reducible apply Kept.ite | (fail_if_no_progress (with_reducible apply Kept.mk_of <;> try with_reducible rfl)) | split

theorem kept_completeOpt {s s' : State} (id : Option Nat) (status : Nat) (res : List Byte) (h : Kept s s') : Kept s (completeOpt id status res s') := by
  unfold completeOpt
  repeat' first
    | with_reducible assumption | with_reducible apply kept_complete | split

theorem kept_ringsOff {s s' : State}  (h : Kept s s') : Kept s (ringsOff s') := by
  unfold ringsOff
  try dsimp only
  repeat' first
    | with_reducible assumption | (fail_if_no_progress (with_reducible apply Kept.mk_of <;> try with_reducible rfl))

theorem kept_busMaster {s s' : State} (on : Bool) (h : Kept s s') : Kept s (busMaster on s') := by
  unfold busMaster
  try dsimp only
  repeat' first
    | with_reducible assumption | with_reducible apply kept_ringsOff | with_reducible apply Kept.ite
    | (fail_if_no_progress (with_reducible apply Kept.mk_of <;> try with_reducible rfl)) | split

/-! ## Collector -/

theorem kept_faultRec {s s' : State} (id sub cls flags count : Nat) (ctx : List Byte) (tick : TickNo) (h : Kept s s') : Kept s (faultRec id sub cls flags count ctx tick s') := by
  unfold faultRec
  repeat' first
    | with_reducible assumption | with_reducible apply kept_emit

theorem kept_countFault {s s' : State}  (h : Kept s s') : Kept s (countFault s') := by
  unfold countFault
  try dsimp only
  repeat' first
    | with_reducible assumption | (fail_if_no_progress (with_reducible apply Kept.mk_of <;> try with_reducible rfl))

theorem kept_closeShadow {s s' : State} (f : Nat) (h : Kept s s') : Kept s (closeShadow f s') := by
  unfold closeShadow
  try dsimp only
  repeat' first
    | with_reducible assumption | with_reducible apply kept_faultRec | with_reducible apply Kept.ite
    | (fail_if_no_progress (with_reducible apply Kept.mk_of <;> try with_reducible rfl)) | split

theorem kept_openShadow {s s' : State} (f : Nat) (tick : TickNo) (opener : Option (Nat × Nat)) (cls : Nat) (h : Kept s s') : Kept s (openShadow f tick opener cls s') := by
  unfold openShadow
  try dsimp only
  repeat' first
    | with_reducible assumption | with_reducible apply kept_closeShadow | with_reducible apply Kept.ite
    | (fail_if_no_progress (with_reducible apply Kept.mk_of <;> try with_reducible rfl)) | split

theorem kept_sendOrder {s s' : State} (f : Nat) (k payload : Byte) (h : Kept s s') : Kept s (sendOrder f k payload s') := by
  unfold sendOrder
  try dsimp only
  repeat' first
    | with_reducible assumption | with_reducible apply kept_outp | with_reducible apply kept_modFrond
    | (fail_if_no_progress (with_reducible apply Kept.mk_of <;> try with_reducible rfl))

theorem kept_orderSafe {s s' : State} (opener : Option (Nat × Nat)) (cls : Nat) (f : Nat) (h : Kept s s') : Kept s (orderSafe opener cls s' f) := by
  unfold orderSafe
  try dsimp only
  repeat' first
    | with_reducible assumption | with_reducible apply kept_modFrond | with_reducible apply kept_openShadow
    | with_reducible apply kept_sendOrder | with_reducible apply Kept.ite
    | (fail_if_no_progress (with_reducible apply Kept.mk_of <;> try with_reducible rfl)) | split

theorem kept_vector20 {s s' : State} (before : Nat) (h : Kept s s') : Kept s (vector20 before s') := by
  unfold vector20
  repeat' first
    | with_reducible assumption | with_reducible apply kept_msi | with_reducible apply Kept.ite | split

theorem Kept.halting {s t : State} (k : Kept s t) (ph : Phase) : Kept s { t with phase := ph, pwr := { t.pwr with haltLatch := true } } :=
  ⟨k.pending, k.auto, k.cfg, k.count, k.lc, k.field, k.out, k.mem, fun _ _ => rfl, k.started, k.jump⟩

theorem kept_react {s t : State} (id sub cls : Nat) (ctx : List Byte) (h : Kept s t) : Kept s (react id sub cls ctx t) := by
  unfold react
  dsimp only
  split
  · exact Kept.foldl (fun _ _ k => kept_orderSafe _ _ _ k) _ h
  · split
    · with_reducible refine Kept.halting ?_ _
      exact Kept.foldl (fun _ _ k => kept_orderSafe _ _ _ k) _ h
    · exact h

theorem kept_recordFault {s s' : State} (id sub cls : Nat) (ctx : List Byte) (tick : TickNo) (opener : Bool) (dl : Option TickNo) (h : Kept s s') : Kept s (recordFault id sub cls ctx tick opener dl s') := by
  unfold recordFault
  try dsimp only
  repeat' first
    | with_reducible assumption | with_reducible apply kept_faultRec | with_reducible apply kept_countFault
    | with_reducible apply Kept.ite | (fail_if_no_progress (with_reducible apply Kept.mk_of <;> try with_reducible rfl)) | split

theorem kept_raise {s s' : State} (id sub cls : Nat) (event : Bool) (ctx : List Byte) (tick : TickNo) (atEdge opener : Bool) (h : Kept s s') : Kept s (raise id sub cls event ctx tick atEdge opener s') := by
  unfold raise
  try dsimp only
  repeat' first
    | with_reducible assumption | with_reducible apply kept_vector20 | with_reducible apply kept_react
    | with_reducible apply kept_recordFault | with_reducible apply Kept.ite
    | (fail_if_no_progress (with_reducible apply Kept.mk_of <;> try with_reducible rfl)) | split

theorem kept_dropSrc {s s' : State} (id sub : Nat) (h : Kept s s') : Kept s (dropSrc id sub s') := by
  unfold dropSrc
  try dsimp only
  repeat' first
    | with_reducible assumption | with_reducible apply kept_faultRec | with_reducible apply Kept.ite
    | (fail_if_no_progress (with_reducible apply Kept.mk_of <;> try with_reducible rfl)) | split

theorem kept_clearSrc {s s' : State} (id sub : Nat) (h : Kept s s') : Kept s (clearSrc id sub s') := by
  unfold clearSrc
  try dsimp only
  repeat' first
    | with_reducible assumption | with_reducible apply kept_dropSrc | with_reducible apply Kept.ite
    | (fail_if_no_progress (with_reducible apply Kept.mk_of <;> try with_reducible rfl)) | split

theorem kept_setSrc {s s' : State} (on : Bool) (id sub cls : Nat) (ctx : List Byte) (tick : TickNo) (h : Kept s s') : Kept s (setSrc on id sub cls ctx tick s') := by
  unfold setSrc
  repeat' first
    | with_reducible assumption | with_reducible apply kept_raise | with_reducible apply kept_clearSrc
    | with_reducible apply Kept.ite | split

theorem kept_integrity {s s' : State} (origin ofs ch : Nat) (h : Kept s s') : Kept s (integrity origin ofs ch s') := by
  unfold integrity
  repeat' first
    | with_reducible assumption | with_reducible apply kept_raise

theorem kept_noteEvent {s s' : State} (id : Nat) (ctx : List Byte) (h : Kept s s') : Kept s (noteEvent id ctx s') := by
  unfold noteEvent
  repeat' first
    | with_reducible assumption | with_reducible apply kept_raise

theorem kept_dropNotes {s s' : State}  (h : Kept s s') : Kept s (dropNotes s') := by
  unfold dropNotes
  try dsimp only
  repeat' first
    | with_reducible assumption | (fail_if_no_progress (with_reducible apply Kept.mk_of <;> try with_reducible rfl))

theorem kept_escalate {s s' : State} (id sub : Nat) (h : Kept s s') : Kept s (escalate id sub s') := by
  unfold escalate
  try dsimp only
  repeat' first
    | with_reducible assumption | with_reducible apply kept_faultRec | with_reducible apply kept_vector20
    | with_reducible apply kept_react | with_reducible apply Kept.ite
    | (fail_if_no_progress (with_reducible apply Kept.mk_of <;> try with_reducible rfl)) | split

theorem kept_judgeShadows {s s' : State}  (h : Kept s s') : Kept s (judgeShadows s') := by
  unfold judgeShadows
  try dsimp only
  repeat' first
    | with_reducible assumption | with_reducible apply Kept.ite
    | (fail_if_no_progress (with_reducible apply Kept.mk_of <;> try with_reducible rfl)) | split

/-! ## Items -/

theorem kept_sendDown {s s' : State} (f : Nat) (fid : Byte) (payload : List Byte) (h : Kept s s') : Kept s (sendDown f fid payload s') := by
  unfold sendDown
  try dsimp only
  repeat' first
    | with_reducible assumption | with_reducible apply kept_outp | with_reducible apply kept_modFrond
    | (fail_if_no_progress (with_reducible apply Kept.mk_of <;> try with_reducible rfl))

/-! ## FieldRows -/

theorem kept_modLink {s s' : State} (f : Nat) (linkB : Bool) (g : LinkSt → LinkSt) (h : Kept s s') : Kept s (modLink f linkB g s') := by
  unfold modLink
  try dsimp only
  repeat' first
    | with_reducible assumption | with_reducible apply kept_modFrond | with_reducible apply Kept.ite
    | (fail_if_no_progress (with_reducible apply Kept.mk_of <;> try with_reducible rfl)) | split

theorem kept_rejectFrame {s s' : State} (f : Nat) (linkB : Bool) (t : TickNo) (h : Kept s s') : Kept s (rejectFrame f linkB t s') := by
  unfold rejectFrame
  try dsimp only
  repeat' first
    | with_reducible assumption | with_reducible apply kept_raise | with_reducible apply kept_modLink
    | with_reducible apply Kept.ite | (fail_if_no_progress (with_reducible apply Kept.mk_of <;> try with_reducible rfl)) | split

theorem kept_copyDiff {s s' : State} (f : Nat) (linkB : Bool) (t : TickNo) (h : Kept s s') : Kept s (copyDiff f linkB t s') := by
  unfold copyDiff
  try dsimp only
  repeat' first
    | with_reducible assumption | with_reducible apply kept_raise | with_reducible apply kept_modLink
    | with_reducible apply Kept.ite | (fail_if_no_progress (with_reducible apply Kept.mk_of <;> try with_reducible rfl)) | split

end Sys2Proof.Machine
end

