-- ==== Sys2Proof/Laws/Memory.lean ====
section
/-! SUPPORT. The laws of memory and of tables: a read after a write, and the canonical form. -/

namespace Sys2Proof.Machine
open Sys2Proof

/-! ## Tables -/

theorem tget_tput_same {α : Type} (d : α) (k : Nat) (v : α) : ∀ t : Tab α, tget d (tput t k v) k = v
  | [] => by simp [tput, tget]
  | (j, w) :: r => by
    unfold tput
    split
    · simp [tget]
    · split
      · simp [tget]
      · rename_i h1 h2
        simp [tget, h1, h2, tget_tput_same d k v r]

theorem tget_tput_other {α : Type} (d : α) {k j : Nat} (h : j ≠ k) (v : α) : ∀ t : Tab α, tget d (tput t k v) j = tget d t j
  | [] => by simp [tput, tget, h]
  | (i, w) :: r => by
    unfold tput
    split
    · rename_i hk
      simp only [tget, if_neg h]
      split
      · rename_i hj
        rw [if_neg (by omega), if_pos (by omega)]
      · rfl
    · split
      · rename_i _ hk
        subst hk
        simp [tget, h]
      · simp only [tget, tget_tput_other d h v r]

theorem tget_tmod_same {α : Type} (d : α) (t : Tab α) (k : Nat) (f : α → α) : tget d (tmod d t k f) k = f (tget d t k) :=
  tget_tput_same d k _ t

theorem tget_tmod_other {α : Type} (d : α) (t : Tab α) {k j : Nat} (h : j ≠ k) (f : α → α) : tget d (tmod d t k f) j = tget d t j :=
  tget_tput_other d h _ t

/-- A value changed at every listed key is changed at each key, where the default is not changed. -/
theorem tget_tmap {α : Type} (d : α) (f : Nat → α → α) (h : ∀ k, f k d = d) (k : Nat) :
    ∀ t : Tab α, tget d (tmap t f) k = f k (tget d t k)
  | [] => by simp [tmap, tget, h]
  | (j, w) :: r => by
    have ih := tget_tmap d f h k r
    simp only [tmap] at ih
    simp only [tmap, List.map_cons, tget]
    split
    · rename_i hk
      rw [hk]
    · split
      · rw [h]
      · exact ih

/-! ## Memory -/

/-- An address below every listed one is not listed. -/
theorem memGet_low {x : Nat} : ∀ {m : Mem}, (∀ c ∈ m, x < c.1) → memGet m x = memBlank
  | [], _ => rfl
  | (k, c) :: r, h => by
    have := h (k, c) List.mem_cons_self
    simp only at this
    simp only [memGet]
    rw [if_neg (by omega), if_pos this]

theorem memGet_memPut_same (a : Nat) (b : Byte) : ∀ m : Mem, Memory.wf m → memGet (memPut m a b) a = b
  | [], _ => by
    simp only [memPut, memCons]
    split
    · simp_all [memGet]
    · simp [memGet]
  | (k, c) :: r, w => by
    have hr : Memory.wf r := ⟨(List.pairwise_cons.mp w.1).2, fun x hx => w.2 x (List.mem_cons_of_mem _ hx)⟩
    unfold memPut
    split
    · rename_i h
      unfold memCons
      split
      · simp_all [memGet, Nat.ne_of_lt h]
      · simp [memGet]
    · split
      · rename_i h
        subst h
        unfold memCons
        split
        · rename_i hb
          subst hb
          cases r with
          | nil => rfl
          | cons p r =>
            have := (List.pairwise_cons.mp w.1).1 p (by simp)
            simp only [memGet]
            rw [if_neg (by omega), if_pos this]
        · simp [memGet]
      · rename_i h1 h2
        simp only [memGet, if_neg h1, if_neg h2]
        exact memGet_memPut_same a b r hr

theorem memGet_memPut_other {a x : Nat} (h : x ≠ a) (b : Byte) : ∀ m : Mem, Memory.wf m → memGet (memPut m a b) x = memGet m x
  | [], _ => by
    simp only [memPut, memCons]
    split <;> simp [memGet, h]
  | (k, c) :: r, w => by
    have hr : Memory.wf r := ⟨(List.pairwise_cons.mp w.1).2, fun x hx => w.2 x (List.mem_cons_of_mem _ hx)⟩
    unfold memPut
    split
    · rename_i hk
      unfold memCons
      split
      · rfl
      · simp only [memGet, if_neg h]
        split
        · rw [if_neg (by omega), if_pos (by omega)]
        · rfl
    · split
      · rename_i _ hk
        subst hk
        unfold memCons
        split
        · rw [show memGet ((a, c) :: r) x = if x = a then c else if x < a then memBlank else memGet r x from rfl, if_neg h]
          split
          · rename_i hx
            exact memGet_low (fun q hq => Nat.lt_trans hx ((List.pairwise_cons.mp w.1).1 q hq))
          · rfl
        · simp [memGet, h]
      · simp only [memGet, memGet_memPut_other h b r hr]

theorem mem_memPut {a : Nat} {b : Byte} {x : Host.Cell} : ∀ {m : Mem}, x ∈ memPut m a b → x ∈ m ∨ x = (a, b) ∧ b ≠ memBlank
  | [], h => by
    simp only [memPut, memCons] at h
    split at h
    · exact .inl h
    · exact .inr ⟨by simpa using h, by assumption⟩
  | (k, c) :: r, h => by
    unfold memPut at h
    have cons : ∀ l : Mem, x ∈ memCons a b l → x ∈ l ∨ x = (a, b) ∧ b ≠ memBlank := by
      intro l hl
      unfold memCons at hl
      split at hl
      · exact .inl hl
      · rcases List.mem_cons.mp hl with e | e
        · exact .inr ⟨e, by assumption⟩
        · exact .inl e
    split at h
    · exact cons _ h
    · split at h
      · rcases cons _ h with e | e
        · exact .inl (List.mem_cons_of_mem _ e)
        · exact .inr e
      · rcases List.mem_cons.mp h with e | e
        · exact .inl (by rw [e]; exact List.mem_cons_self)
        · rcases mem_memPut e with e | e
          · exact .inl (List.mem_cons_of_mem _ e)
          · exact .inr e

theorem wf_memPut (a : Nat) (b : Byte) : ∀ m : Mem, Memory.wf m → Memory.wf (memPut m a b)
  | [], _ => by
    simp only [memPut, memCons]
    split
    · simp [Memory.wf]
    · simpa [Memory.wf]
  | (k, c) :: r, w => by
    have hp := List.pairwise_cons.mp w.1
    have hr : Memory.wf r := ⟨hp.2, fun x hx => w.2 x (List.mem_cons_of_mem _ hx)⟩
    unfold memPut
    split
    · rename_i h
      unfold memCons
      split
      · exact w
      · rename_i hb
        refine ⟨List.pairwise_cons.mpr ⟨fun x hx => ?_, w.1⟩, fun x hx => ?_⟩
        · rcases List.mem_cons.mp hx with e | e
          · rw [e]; exact h
          · exact Nat.lt_trans h (hp.1 x e)
        · rcases List.mem_cons.mp hx with e | e
          · rw [e]; exact hb
          · exact w.2 x e
    · split
      · rename_i _ h
        subst h
        unfold memCons
        split
        · exact hr
        · rename_i hb
          refine ⟨List.pairwise_cons.mpr ⟨hp.1, hr.1⟩, fun x hx => ?_⟩
          rcases List.mem_cons.mp hx with e | e
          · rw [e]; exact hb
          · exact hr.2 x e
      · rename_i h1 h2
        have ih := wf_memPut a b r hr
        refine ⟨List.pairwise_cons.mpr ⟨fun x hx => ?_, ih.1⟩, fun x hx => ?_⟩
        · rcases mem_memPut hx with e | e
          · exact hp.1 x e
          · rw [e.1]; simp only; omega
        · rcases List.mem_cons.mp hx with e | e
          · rw [e]; exact w.2 (k, c) List.mem_cons_self
          · exact ih.2 x e

theorem wf_memWrite (bs : List Byte) : ∀ (m : Mem) (a : Nat), Memory.wf m → Memory.wf (memWrite m a bs) := by
  induction bs with
  | nil => exact fun _ _ w => w
  | cons b r ih => exact fun m a w => ih _ _ (wf_memPut a b m w)

end Sys2Proof.Machine
end

