-- ==== Sys2Proof/Laws/Kept2.lean ====
section
/-! SUPPORT. The lemmas of Kept for the operations of Tracker, MapUnit, Plan, Capture, Feature. -/

set_option linter.unusedTactic false
set_option linter.unreachableTactic false

namespace Sys2Proof.Machine
open Sys2Proof

/-! ## Tracker -/

theorem kept_lostEvents {s : State} (i : Nat) : ∀ (n : Nat) {t : State}, Kept s t → Kept s (lostEvents i n t)
  | 0, _, h => h
  | n + 1, _, h => kept_lostEvents i n (kept_noteEvent _ _ h)

theorem kept_trackFrond {s s' : State} (t : Tab Word) (f : Nat) (miss : Bool) (stamps : Nat → List Nat) (h : Kept s s') : Kept s (trackFrond t f miss stamps s') := by
  unfold trackFrond
  try dsimp only
  repeat' first
    | with_reducible assumption | with_reducible apply kept_lostEvents
    | (with_reducible refine Kept.foldl (fun t' a' h' => ?_) _ ?_ <;> (try dsimp only)) | with_reducible apply Kept.ite
    | (fail_if_no_progress (with_reducible apply Kept.mk_of <;> try with_reducible rfl)) | split

theorem kept_refsEpoch {s s' : State} (old : Tab Word) (h : Kept s s') : Kept s (refsEpoch old s') := by
  unfold refsEpoch
  try dsimp only
  repeat' first
    | with_reducible assumption | with_reducible apply kept_lostEvents
    | (with_reducible refine Kept.foldl (fun t' a' h' => ?_) _ ?_ <;> (try dsimp only)) | with_reducible apply Kept.ite
    | (fail_if_no_progress (with_reducible apply Kept.mk_of <;> try with_reducible rfl)) | split

/-! ## MapUnit -/

theorem wf_foldCell (x : Nat) (v : Word) (e : Int) (late : Bool) {m : MapUnit} (w : Memory.wf m.mem) :
    Memory.wf (foldCell x v e late m).mem := by
  unfold foldCell
  dsimp only
  apply wf_memWrite
  exact w

theorem wf_foldBands (base bin : Nat) (e : Int) (late : Bool) (phase : Nat → Bool) (bands : List Word) {m : MapUnit} (w : Memory.wf m.mem) :
    Memory.wf (foldBands base bin e late phase bands m).mem := by
  unfold foldBands
  generalize bands.zipIdx = l
  induction l generalizing m with
  | nil => exact w
  | cons b l ih =>
    rw [List.foldl_cons]
    apply ih
    split
    · exact w
    · split
      · exact w
      · exact wf_foldCell _ _ _ _ w

theorem kept_mapFold {s t : State} (ch : Nat) (bands : List Word) (phase : Nat → Bool) (hasBin : Bool) (v : Word) (tick : TickNo)
    (h : Kept s t) : Kept s (mapFold ch bands phase hasBin v tick t) := by
  unfold mapFold
  split
  · exact h
  · split
    · (with_reducible apply Kept.mk_of <;> try with_reducible rfl)
      exact h
    · exact ⟨h.pending, h.auto, h.cfg, h.count, h.lc, h.field, h.out, fun w => wf_foldBands _ _ _ _ _ _ (h.mem w), h.halt, h.started, h.jump⟩

theorem kept_mapBoundary {s s' : State}  (h : Kept s s') : Kept s (mapBoundary s') := by
  unfold mapBoundary
  try dsimp only
  repeat' first
    | with_reducible assumption | with_reducible apply kept_emit | with_reducible apply Kept.ite
    | (fail_if_no_progress (with_reducible apply Kept.mk_of <;> try with_reducible rfl)) | split

theorem kept_mapStart {s s' : State} (old : Tab Word) (h : Kept s s') : Kept s (mapStart old s') := by
  unfold mapStart
  try dsimp only
  repeat' first
    | with_reducible assumption | with_reducible apply Kept.ite
    | (fail_if_no_progress (with_reducible apply Kept.mk_of <;> try with_reducible rfl)) | split

theorem kept_mixWhere {s s' : State} (on : Bool) (h : Kept s s') : Kept s (mixWhere on s') := by
  unfold mixWhere
  try dsimp only
  repeat' first
    | with_reducible assumption | with_reducible apply Kept.ite
    | (fail_if_no_progress (with_reducible apply Kept.mk_of <;> try with_reducible rfl)) | split

theorem kept_mapMix {s s' : State} (old : Tab Word) (h : Kept s s') : Kept s (mapMix old s') := by
  unfold mapMix
  try dsimp only
  repeat' first
    | with_reducible assumption | with_reducible apply kept_mixWhere

theorem kept_mapLater {s s' : State} (f : Nat) (old new : Tab Word) (h : Kept s s') : Kept s (mapLater f old new s') := by
  unfold mapLater
  try dsimp only
  repeat' first
    | with_reducible assumption | with_reducible apply kept_mixWhere

theorem kept_mapEpoch {s s' : State} (old : Tab Word) (h : Kept s s') : Kept s (mapEpoch old s') := by
  unfold mapEpoch
  repeat' first
    | with_reducible assumption | with_reducible apply kept_mapStart | with_reducible apply kept_mapMix

theorem kept_mapPull {s s' : State} (n : Nat) (h : Kept s s') : Kept s (mapPull n s') := by
  unfold mapPull
  try dsimp only
  repeat' first
    | with_reducible assumption | (fail_if_no_progress (with_reducible apply Kept.mk_of <;> try with_reducible rfl)) | split

theorem kept_mapEnd {s s' : State} (x : MapXfer) (status : Nat) (h : Kept s s') : Kept s (mapEnd x status s') := by
  unfold mapEnd
  try dsimp only
  repeat' first
    | with_reducible assumption | with_reducible apply kept_outp | with_reducible apply kept_complete
    | with_reducible apply Kept.ite | (fail_if_no_progress (with_reducible apply Kept.mk_of <;> try with_reducible rfl)) | split

/-! ## Plan -/

theorem kept_stageSample {s s' : State} (ch : Nat) (x : Smp) (h : Kept s s') : Kept s (stageSample ch x s') := by
  unfold stageSample
  try dsimp only
  repeat' first
    | with_reducible assumption | with_reducible apply Kept.ite
    | (fail_if_no_progress (with_reducible apply Kept.mk_of <;> try with_reducible rfl)) | split

theorem kept_restartGrid {s s' : State} (ch at_ : Nat) (h : Kept s s') : Kept s (restartGrid ch at_ s') := by
  unfold restartGrid
  try dsimp only
  repeat' first
    | with_reducible assumption | (fail_if_no_progress (with_reducible apply Kept.mk_of <;> try with_reducible rfl))

theorem kept_gridEpoch {s s' : State} (old new : Tab Word) (ch : Nat) (h : Kept s s') : Kept s (gridEpoch old new ch s') := by
  unfold gridEpoch
  repeat' first
    | with_reducible assumption | with_reducible apply kept_restartGrid | with_reducible apply Kept.ite | split

theorem kept_scaleEpoch {s s' : State} (old new : Tab Word) (ch : Nat) (h : Kept s s') : Kept s (scaleEpoch old new ch s') := by
  unfold scaleEpoch
  try dsimp only
  repeat' first
    | with_reducible assumption | with_reducible apply Kept.ite
    | (fail_if_no_progress (with_reducible apply Kept.mk_of <;> try with_reducible rfl)) | split

theorem kept_periodEpoch {s s' : State} (old new : Tab Word) (ch : Nat) (h : Kept s s') : Kept s (periodEpoch old new ch s') := by
  unfold periodEpoch
  try dsimp only
  repeat' first
    | with_reducible assumption | with_reducible apply Kept.ite
    | (fail_if_no_progress (with_reducible apply Kept.mk_of <;> try with_reducible rfl)) | split

theorem kept_angleEpoch {s s' : State} (old new : Tab Word) (ch : Nat) (h : Kept s s') : Kept s (angleEpoch old new ch s') := by
  unfold angleEpoch
  try dsimp only
  repeat' first
    | with_reducible assumption | with_reducible apply Kept.ite
    | (fail_if_no_progress (with_reducible apply Kept.mk_of <;> try with_reducible rfl)) | split

theorem kept_chanEpoch {s s' : State} (old new : Tab Word) (ch : Nat) (h : Kept s s') : Kept s (chanEpoch old new ch s') := by
  unfold chanEpoch
  repeat' first
    | with_reducible assumption | with_reducible apply kept_gridEpoch | with_reducible apply kept_scaleEpoch
    | with_reducible apply kept_periodEpoch | with_reducible apply kept_angleEpoch

theorem kept_phaseRestart {s s' : State} (d : Nat) (h : Kept s s') : Kept s (phaseRestart d s') := by
  unfold phaseRestart
  try dsimp only
  repeat' first
    | with_reducible assumption | with_reducible apply kept_restartGrid
    | (with_reducible refine Kept.foldl (fun t' a' h' => ?_) _ ?_ <;> (try dsimp only)) | with_reducible apply Kept.ite | split

theorem kept_readyBlocks {s s' : State}  (h : Kept s s') : Kept s (readyBlocks s') := by
  unfold readyBlocks
  try dsimp only
  repeat' first
    | with_reducible assumption | with_reducible apply Kept.ite
    | (fail_if_no_progress (with_reducible apply Kept.mk_of <;> try with_reducible rfl)) | split

theorem kept_angleTick {s s' : State} (t : Tab Word) (ch : Nat) (h : Kept s s') : Kept s (angleTick t ch s') := by
  unfold angleTick
  try dsimp only
  repeat' first
    | with_reducible assumption | with_reducible apply kept_stageSample
    | (with_reducible refine Kept.foldl (fun t' a' h' => ?_) _ ?_ <;> (try dsimp only)) | with_reducible apply Kept.ite
    | (fail_if_no_progress (with_reducible apply Kept.mk_of <;> try with_reducible rfl)) | split

/-! ## Capture -/

theorem kept_modCap {s s' : State} (r : Nat) (g : CapRing → CapRing) (h : Kept s s') : Kept s (modCap r g s') := by
  unfold modCap
  try dsimp only
  repeat' first
    | with_reducible assumption | (fail_if_no_progress (with_reducible apply Kept.mk_of <;> try with_reducible rfl))

theorem kept_slowRings {s s' : State} (l : List Nat) (h : Kept s s') : Kept s (slowRings l s') := by
  unfold slowRings
  try dsimp only
  repeat' first
    | with_reducible assumption | with_reducible apply kept_modCap
    | (with_reducible refine Kept.foldl (fun t' a' h' => ?_) _ ?_ <;> (try dsimp only)) | with_reducible apply Kept.ite
    | (fail_if_no_progress (with_reducible apply Kept.mk_of <;> try with_reducible rfl)) | split

theorem kept_capFrames {s s' : State} (t : Tab Word) (r : Nat) (h : Kept s s') : Kept s (capFrames t r s') := by
  unfold capFrames
  try dsimp only
  repeat' first
    | with_reducible assumption | with_reducible apply Kept.ite
    | (fail_if_no_progress (with_reducible apply Kept.mk_of <;> try with_reducible rfl)) | split

theorem kept_capStampTick {s s' : State} (t : Tab Word) (r : Nat) (words : List Nat) (h : Kept s s') : Kept s (capStampTick t r words s') := by
  unfold capStampTick
  try dsimp only
  repeat' first
    | with_reducible assumption | with_reducible apply Kept.ite
    | (fail_if_no_progress (with_reducible apply Kept.mk_of <;> try with_reducible rfl)) | split

theorem kept_capAccept {s s' : State} (t : Tab Word) (r key src rule : Nat) (id : Option Nat) (rewind : Option TickNo) (h : Kept s s') : Kept s (capAccept t r key src rule id rewind s') := by
  unfold capAccept
  try dsimp only
  repeat' first
    | with_reducible assumption | (fail_if_no_progress (with_reducible apply Kept.mk_of <;> try with_reducible rfl)) | split

theorem kept_capJoin {s s' : State} (t : Tab Word) (r src rule : Nat) (id : Option Nat) (rewind : Option TickNo) (c : CapRun) (h : Kept s s') : Kept s (capJoin t r src rule id rewind c s') := by
  unfold capJoin
  try dsimp only
  repeat' first
    | with_reducible assumption | with_reducible apply kept_modCap | with_reducible apply Kept.ite
    | (fail_if_no_progress (with_reducible apply Kept.mk_of <;> try with_reducible rfl)) | split

theorem kept_capTrigger {s t : State} (r key src rule : Nat) (id : Option Nat) (rewind : Option TickNo) (h : Kept s t) :
    Kept s (capTrigger r key src rule id rewind t).1 := by
  unfold capTrigger
  dsimp only
  repeat' first
    | assumption | with_reducible apply kept_modCap | with_reducible apply kept_capAccept | with_reducible apply kept_capJoin | (dsimp only; fail_if_no_progress dsimp only) | split

theorem kept_capTrigger_eq {s t u : State} {r key src rule : Nat} {id : Option Nat} {rewind : Option TickNo} {b : Bool}
    (e : capTrigger r key src rule id rewind t = (u, b)) (h : Kept s t) : Kept s u := by
  have := kept_capTrigger r key src rule id rewind h
  rwa [e] at this

theorem kept_capEnd {s s' : State} (t : Tab Word) (r : Nat) (aborted : Bool) (cells : List Cell) (c : CapRun) (h : Kept s s') : Kept s (capEnd t r aborted cells c s') := by
  unfold capEnd
  try dsimp only
  repeat' first
    | with_reducible assumption | with_reducible apply kept_enqueue | with_reducible apply kept_complete
    | with_reducible apply kept_modCap | (with_reducible refine Kept.foldl (fun t' a' h' => ?_) _ ?_ <;> (try dsimp only))
    | (fail_if_no_progress (with_reducible apply Kept.mk_of <;> try with_reducible rfl))

theorem kept_capReadout {s s' : State} (own : Bool) (t : Tab Word) (r : Nat) (h : Kept s s') : Kept s (capReadout own t r s') := by
  unfold capReadout
  try dsimp only
  repeat' first
    | with_reducible assumption | with_reducible apply kept_enqueue | with_reducible apply kept_modCap
    | with_reducible apply kept_capEnd | with_reducible apply Kept.ite
    | (fail_if_no_progress (with_reducible apply Kept.mk_of <;> try with_reducible rfl)) | split

theorem kept_capOwed {s : State} (t : Tab Word) (r : Nat) : ∀ (n : Nat) {u : State}, Kept s u → Kept s (capOwed t r n u)
  | 0, _, h => h
  | n + 1, _, h => kept_capOwed t r n (kept_capReadout false t r (kept_modCap r _ h))

theorem kept_flushHeld {s s' : State}  (h : Kept s s') : Kept s (flushHeld s') := by
  unfold flushHeld
  try dsimp only
  repeat' first
    | with_reducible assumption | with_reducible apply kept_enqueue | with_reducible apply kept_modCap
    | (with_reducible refine Kept.foldl (fun t' a' h' => ?_) _ ?_ <;> (try dsimp only)) | with_reducible apply Kept.ite
    | (fail_if_no_progress (with_reducible apply Kept.mk_of <;> try with_reducible rfl)) | split

theorem kept_capAbort {s s' : State} (t : Tab Word) (r : Nat) (h : Kept s s') : Kept s (capAbort t r s') := by
  unfold capAbort
  try dsimp only
  repeat' first
    | with_reducible assumption | with_reducible apply kept_modCap | with_reducible apply kept_capEnd
    | (fail_if_no_progress (with_reducible apply Kept.mk_of <;> try with_reducible rfl)) | split

theorem kept_capsEpoch {s s' : State} (old : Tab Word) (h : Kept s s') : Kept s (capsEpoch old s') := by
  unfold capsEpoch
  try dsimp only
  repeat' first
    | with_reducible assumption | with_reducible apply kept_modCap | with_reducible apply kept_capOwed
    | with_reducible apply kept_capAbort | (with_reducible refine Kept.foldl (fun t' a' h' => ?_) _ ?_ <;> (try dsimp only))
    | with_reducible apply Kept.ite | (fail_if_no_progress (with_reducible apply Kept.mk_of <;> try with_reducible rfl)) | split

/-! ## Feature -/

theorem kept_packet {s s' : State} (q : Nat) (l : List Cell) (h : Kept s s') : Kept s (packet q l s') := by
  unfold packet
  repeat' first
    | with_reducible assumption | with_reducible apply kept_enqueue | with_reducible apply Kept.ite | split

theorem kept_finishBlock {s s' : State} (b : Blk) (h : Kept s s') : Kept s (finishBlock b s') := by
  unfold finishBlock
  try dsimp only
  repeat' first
    | with_reducible assumption | with_reducible apply kept_mapFold | with_reducible apply kept_packet
    | with_reducible apply Kept.ite | (fail_if_no_progress (with_reducible apply Kept.mk_of <;> try with_reducible rfl)) | split

theorem kept_blockTurn {s t : State} (b : Blk) (h : Kept s t) : Kept s (blockTurn b t).2 := by
  unfold blockTurn
  dsimp only
  repeat' first
    | assumption | with_reducible apply kept_packet | with_reducible apply kept_finishBlock | split

theorem kept_blockTurn_eq {s t u : State} {b : Blk} {o : Option Blk} (e : blockTurn b t = (o, u)) (h : Kept s t) : Kept s u := by
  have := kept_blockTurn b h
  rwa [e] at this

theorem kept_workBlocks {s s' : State} (sel : Blk → Bool) (post : Blk → Blk) (h : Kept s s') : Kept s (workBlocks sel post s') := by
  unfold workBlocks
  try dsimp only
  repeat' first
    | with_reducible assumption | with_reducible apply kept_blockTurn | with_reducible refine kept_blockTurn_eq (by assumption) ?_
    | (with_reducible refine Kept.foldl (fun t' a' h' => ?_) _ ?_ <;> (try dsimp only)) | with_reducible apply Kept.ite
    | (fail_if_no_progress (with_reducible apply Kept.mk_of <;> try with_reducible rfl)) | split

theorem kept_deferTick {s s' : State}  (h : Kept s s') : Kept s (deferTick s') := by
  unfold deferTick
  try dsimp only
  repeat' first
    | with_reducible assumption | with_reducible apply Kept.ite
    | (fail_if_no_progress (with_reducible apply Kept.mk_of <;> try with_reducible rfl)) | split

theorem kept_writeDeferred {s s' : State} (n : Nat) (h : Kept s s') : Kept s (writeDeferred n s') := by
  unfold writeDeferred
  try dsimp only
  repeat' first
    | with_reducible assumption | (fail_if_no_progress (with_reducible apply Kept.mk_of <;> try with_reducible rfl))

theorem kept_readDeferred {s s' : State} (n : Nat) (h : Kept s s') : Kept s (readDeferred n s') := by
  unfold readDeferred
  try dsimp only
  repeat' first
    | with_reducible assumption | with_reducible apply kept_modCap | with_reducible apply kept_capReadout
    | (with_reducible refine Kept.foldl (fun t' a' h' => ?_) _ ?_ <;> (try dsimp only)) | with_reducible apply Kept.ite
    | (fail_if_no_progress (with_reducible apply Kept.mk_of <;> try with_reducible rfl)) | split

theorem kept_runDeferred {s : State} : ∀ (n : Nat) {t : State}, Kept s t → Kept s (runDeferred n t)
  | 0, _, h => h
  | n + 1, _, h => kept_runDeferred n (kept_readDeferred _ (kept_workBlocks _ _ (kept_writeDeferred _ h)))

end Sys2Proof.Machine
end

