-- ==== Sys2Proof/Laws/Kept3.lean ====
section
/-! SUPPORT. The lemmas of Kept for the operations of Downlink, UplinkU0, Rules, UplinkData. -/

set_option linter.unusedTactic false
set_option linter.unreachableTactic false

namespace Sys2Proof.Machine
open Sys2Proof

/-! ## Downlink -/

theorem kept_supersede {s s' : State} (ch : Nat) (old : Option Carry) (h : Kept s s') : Kept s (supersede ch old s') := by
  unfold supersede
  try dsimp only
  repeat' first
    | with_reducible assumption | with_reducible apply kept_completeOpt | split

theorem kept_queueOut {s s' : State} (ch : Nat) (v : Word) (did : Option Nat) (rule : Bool) (h : Kept s s') : Kept s (queueOut ch v did rule s') := by
  unfold queueOut
  try dsimp only
  repeat' first
    | with_reducible assumption | with_reducible apply kept_modFrond | with_reducible apply Kept.ite
    | (fail_if_no_progress (with_reducible apply Kept.mk_of <;> try with_reducible rfl)) | split

theorem kept_outsDue {s s' : State}  (h : Kept s s') : Kept s (outsDue s') := by
  unfold outsDue
  try dsimp only
  repeat' first
    | with_reducible assumption | (with_reducible refine Kept.foldl (fun t' a' h' => ?_) _ ?_ <;> (try dsimp only))
    | (fail_if_no_progress (with_reducible apply Kept.mk_of <;> try with_reducible rfl))

theorem kept_downFrond {s s' : State} (ins : List Nat) (f : Nat) (h : Kept s s') : Kept s (downFrond ins s' f) := by
  unfold downFrond
  try dsimp only
  repeat' first
    | with_reducible assumption | with_reducible apply kept_modFrond | with_reducible apply kept_complete
    | with_reducible apply kept_sendDown | with_reducible apply kept_supersede
    | (with_reducible refine Kept.foldl (fun t' a' h' => ?_) _ ?_ <;> (try dsimp only))
    | (fail_if_no_progress (with_reducible apply Kept.mk_of <;> try with_reducible rfl)) | split

theorem kept_takeTag {s t : State} (h : Kept s t) : Kept s (takeTag t).2 := by
  unfold takeTag
  dsimp only
  (with_reducible apply Kept.mk_of <;> try with_reducible rfl)
  exact h

theorem kept_takeTag_eq {s t u : State} {x : Byte} (e : takeTag t = (x, u)) (h : Kept s t) : Kept s u := by
  have := kept_takeTag h
  rwa [e] at this

theorem kept_startNoCfg {s s' : State} (f : Nat) (h : Kept s s') : Kept s (startNoCfg s' f) := by
  unfold startNoCfg
  try dsimp only
  repeat' first
    | with_reducible assumption | with_reducible apply kept_modFrond | with_reducible apply kept_takeTag
    | with_reducible refine kept_takeTag_eq (by assumption) ?_ | with_reducible apply Kept.ite
    | (fail_if_no_progress (with_reducible apply Kept.mk_of <;> try with_reducible rfl)) | split

theorem kept_commitEvent {s s' : State} (aborted : Bool) (p : Pending) (a b : Nat) (h : Kept s s') : Kept s (commitEvent aborted p a b s') := by
  unfold commitEvent
  try dsimp only
  repeat' first
    | with_reducible assumption | with_reducible apply kept_emit | with_reducible apply Kept.ite
    | (fail_if_no_progress (with_reducible apply Kept.mk_of <;> try with_reducible rfl)) | split

theorem kept_frondApplyEvent {s s' : State} (f : Nat) (ep : Half) (h : Kept s s') : Kept s (frondApplyEvent f ep s') := by
  unfold frondApplyEvent
  try dsimp only
  repeat' first
    | with_reducible assumption | with_reducible apply kept_emit
    | (fail_if_no_progress (with_reducible apply Kept.mk_of <;> try with_reducible rfl))

theorem kept_finishApplied {s s' : State} (p : Pending) (excl : List Nat) (h : Kept s s') : Kept s (finishApplied p excl s') := by
  unfold finishApplied
  try dsimp only
  repeat' first
    | with_reducible assumption | with_reducible apply kept_outp | with_reducible apply kept_modFrond
    | with_reducible apply kept_complete | with_reducible apply kept_commitEvent
    | (with_reducible refine Kept.foldl (fun t' a' h' => ?_) _ ?_ <;> (try dsimp only)) | with_reducible apply Kept.ite
    | (fail_if_no_progress (with_reducible apply Kept.mk_of <;> try with_reducible rfl)) | split

theorem kept_tryFinish {s s' : State} (force : Bool) (h : Kept s s') : Kept s (tryFinish force s') := by
  unfold tryFinish
  try dsimp only
  repeat' first
    | with_reducible assumption | with_reducible apply kept_finishApplied | with_reducible apply Kept.ite | split

theorem kept_sendSuperframe {s s' : State} (ins : List Nat) (h : Kept s s') : Kept s (sendSuperframe ins s') := by
  unfold sendSuperframe
  try dsimp only
  repeat' first
    | with_reducible assumption | with_reducible apply kept_complete | with_reducible apply kept_downFrond
    | with_reducible apply kept_startNoCfg | with_reducible apply kept_commitEvent | with_reducible apply kept_tryFinish
    | (with_reducible refine Kept.foldl (fun t' a' h' => ?_) _ ?_ <;> (try dsimp only))
    | (fail_if_no_progress (with_reducible apply Kept.mk_of <;> try with_reducible rfl)) | split

/-! ## UplinkU0 -/

theorem kept_pathBad {s s' : State} (kind f b : Nat) (h : Kept s s') : Kept s (pathBad kind f b s') := by
  unfold pathBad
  try dsimp only
  repeat' first
    | with_reducible assumption | with_reducible apply kept_orderSafe | with_reducible apply kept_raise
    | (with_reducible refine Kept.foldl (fun t' a' h' => ?_) _ ?_ <;> (try dsimp only)) | with_reducible apply Kept.ite
    | (fail_if_no_progress (with_reducible apply Kept.mk_of <;> try with_reducible rfl)) | split

theorem kept_countPath {s s' : State} (kind f b : Nat) (g : Nat → Nat) (h : Kept s s') : Kept s (countPath kind f b g s') := by
  unfold countPath
  try dsimp only
  repeat' first
    | with_reducible assumption | with_reducible apply Kept.ite
    | (fail_if_no_progress (with_reducible apply Kept.mk_of <;> try with_reducible rfl)) | split

theorem kept_pairCycle {s s' : State} (kind f b : Nat) (eq : Bool) (run : Nat) (h : Kept s s') : Kept s (pairCycle kind f b eq run s') := by
  unfold pairCycle
  try dsimp only
  repeat' first
    | with_reducible assumption | with_reducible apply kept_pathBad | with_reducible apply kept_countPath
    | with_reducible apply Kept.ite | split

theorem kept_seePairs {s t : State} (kind f n w wn old : Nat) (runs : Tab Nat) (h : Kept s t) :
    Kept s (seePairs kind f n w wn old runs t).2.2 := by
  have aux : ∀ (l : List Nat) (p : Nat × Tab Nat × State), Kept s p.2.2 →
      Kept s (l.foldl (fun (a : Nat × Tab Nat × State) b =>
        let eq := w.testBit b == wn.testBit b
        let s := pairCycle kind f b eq (tget 0 a.2.1 b) a.2.2
        (setBit a.1 b (if eq then old.testBit b else w.testBit b), tput a.2.1 b (if eq then tget 0 a.2.1 b + 1 else 0), s)) p).2.2 := by
    intro l
    induction l with
    | nil => exact fun _ k => k
    | cons c l ih => exact fun p k => ih _ (kept_pairCycle kind f c _ _ k)
  exact aux (List.range n) (0, runs, t) h

theorem kept_measure {s t : State} (f : Nat) (linkB : Bool) (stamp echo : Nat) (h : Kept s t) :
    Kept s (measure f linkB stamp echo t).1 := by
  unfold measure
  dsimp only
  repeat' first
    | assumption | with_reducible apply kept_modLink | split

theorem kept_takeOffset {s s' : State} (f : Nat) (o : Option Int) (h : Kept s s') : Kept s (takeOffset f o s') := by
  unfold takeOffset
  try dsimp only
  repeat' first
    | with_reducible assumption | with_reducible apply kept_modFrond
    | (fail_if_no_progress (with_reducible apply Kept.mk_of <;> try with_reducible rfl)) | split

theorem kept_reportOuts {s s' : State} (f : Nat) (m : TickNo) (ctlMiss : Bool) (rej : Nat) (h : Kept s s') : Kept s (reportOuts f m ctlMiss rej s') := by
  unfold reportOuts
  try dsimp only
  repeat' first
    | with_reducible assumption | with_reducible apply kept_modFrond | with_reducible apply kept_completeOpt
    | (with_reducible refine Kept.foldl (fun t' a' h' => ?_) _ ?_ <;> (try dsimp only)) | with_reducible apply Kept.ite
    | (fail_if_no_progress (with_reducible apply Kept.mk_of <;> try with_reducible rfl)) | split

theorem kept_clearDone {s s' : State} (did : Option Nat) (edge : Nat) (h : Kept s s') : Kept s (clearDone did edge s') := by
  unfold clearDone
  try dsimp only
  repeat' first
    | with_reducible assumption | with_reducible apply kept_modOut | with_reducible apply kept_complete
    | with_reducible apply Kept.ite | (fail_if_no_progress (with_reducible apply Kept.mk_of <;> try with_reducible rfl)) | split

theorem kept_reportClears {s s' : State} (f : Nat) (m : TickNo) (ctlMiss : Bool) (h : Kept s s') : Kept s (reportClears f m ctlMiss s') := by
  unfold reportClears
  try dsimp only
  repeat' first
    | with_reducible assumption | with_reducible apply kept_modFrond | with_reducible apply kept_clearDone
    | (with_reducible refine Kept.foldl (fun t' a' h' => ?_) _ ?_ <;> (try dsimp only)) | with_reducible apply Kept.ite
    | (fail_if_no_progress (with_reducible apply Kept.mk_of <;> try with_reducible rfl)) | split

theorem kept_dropChannels {s s' : State} (f cp : Nat) (h : Kept s s') : Kept s (dropChannels f cp s') := by
  unfold dropChannels
  try dsimp only
  repeat' first
    | with_reducible assumption | with_reducible apply kept_clearSrc
    | (with_reducible refine Kept.foldl (fun t' a' h' => ?_) _ ?_ <;> (try dsimp only)) | with_reducible apply Kept.ite | split

theorem kept_collectU0 {s s' : State} (f : Nat) (d : List Byte) (old : Report) (noCfgNew rejoin cleared : Bool) (h : Kept s s') : Kept s (collectU0 f d old noCfgNew rejoin cleared s') := by
  unfold collectU0
  try dsimp only
  repeat' first
    | with_reducible assumption | with_reducible apply kept_modFrond | with_reducible apply kept_openShadow
    | with_reducible apply kept_raise | with_reducible apply kept_clearSrc | with_reducible apply kept_seePairs
    | with_reducible apply kept_dropChannels | (with_reducible refine Kept.foldl (fun t' a' h' => ?_) _ ?_ <;> (try dsimp only))
    | with_reducible apply Kept.ite | (fail_if_no_progress (with_reducible apply Kept.mk_of <;> try with_reducible rfl)) | split

theorem kept_loseConfig {s s' : State} (f : Nat) (h : Kept s s') : Kept s (loseConfig f s') := by
  unfold loseConfig
  try dsimp only
  repeat' first
    | with_reducible assumption | with_reducible apply kept_modFrond | with_reducible apply kept_mapLater
    | with_reducible apply kept_chanEpoch | (with_reducible refine Kept.foldl (fun t' a' h' => ?_) _ ?_ <;> (try dsimp only))
    | (fail_if_no_progress (with_reducible apply Kept.mk_of <;> try with_reducible rfl))

theorem kept_useEpochCtl {s s' : State} (f : Nat) (d : List Byte) (stamp : Nat) (h : Kept s s') : Kept s (useEpochCtl f d stamp s') := by
  unfold useEpochCtl
  try dsimp only
  repeat' first
    | with_reducible assumption | with_reducible apply kept_modFrond | with_reducible apply kept_mapLater
    | with_reducible apply kept_chanEpoch | with_reducible apply kept_frondApplyEvent | with_reducible apply kept_loseConfig
    | (with_reducible refine Kept.foldl (fun t' a' h' => ?_) _ ?_ <;> (try dsimp only)) | with_reducible apply Kept.ite
    | (fail_if_no_progress (with_reducible apply Kept.mk_of <;> try with_reducible rfl)) | split

theorem kept_useU0 {s s' : State} (f : Nat) (d : List Byte) (stamp : Nat) (h : Kept s s') : Kept s (useU0 f d stamp s') := by
  unfold useU0
  try dsimp only
  repeat' first
    | with_reducible assumption | with_reducible apply kept_modFrond | with_reducible apply kept_tryFinish
    | with_reducible apply kept_reportOuts | with_reducible apply kept_reportClears | with_reducible apply kept_collectU0
    | with_reducible apply kept_useEpochCtl | with_reducible apply Kept.ite
    | (fail_if_no_progress (with_reducible apply Kept.mk_of <;> try with_reducible rfl)) | split

theorem kept_linkDown {s s' : State} (f : Nat) (linkB : Bool) (t : TickNo) (h : Kept s s') : Kept s (linkDown f linkB t s') := by
  unfold linkDown
  try dsimp only
  repeat' first
    | with_reducible assumption | with_reducible apply kept_raise | with_reducible apply kept_modLink
    | (fail_if_no_progress (with_reducible apply Kept.mk_of <;> try with_reducible rfl))

theorem kept_rxUp {s s' : State} (f : Nat) (fr : Frame) (kind : Nat) (lenOk : Nat → Bool) (use : List Byte → State → State) (h_use : ∀ x0 {u : State}, Kept s u → Kept s (use x0 u)) (h : Kept s s') : Kept s (rxUp f fr kind lenOk use s') := by
  unfold rxUp
  try dsimp only
  repeat' first
    | with_reducible assumption | with_reducible apply h_use | with_reducible apply kept_modFrond
    | with_reducible apply kept_modLink | with_reducible apply kept_rejectFrame | with_reducible apply kept_copyDiff
    | with_reducible apply Kept.ite | (fail_if_no_progress (with_reducible apply Kept.mk_of <;> try with_reducible rfl)) | split

theorem kept_receiveU0 {s s' : State} (f : Nat) (fr : Frame) (h : Kept s s') : Kept s (receiveU0 f fr s') := by
  unfold receiveU0
  try dsimp only
  repeat' first
    | with_reducible assumption | with_reducible apply kept_rejectFrame | with_reducible apply kept_measure
    | with_reducible apply kept_takeOffset | with_reducible apply kept_useU0 | with_reducible apply kept_linkDown
    | with_reducible apply kept_rxUp | with_reducible apply Kept.ite | split | (intro _; intros; try dsimp only)

/-! ## Rules -/

theorem kept_ruleAct {s s' : State} (t : Tab Word) (r : Nat) (x : RuleVals) (integ last : Bool) (c : RuleChg) (h : Kept s s') : Kept s (ruleAct t r x integ last c s') := by
  unfold ruleAct
  try dsimp only
  repeat' first
    | with_reducible assumption | with_reducible apply kept_emit | with_reducible apply kept_capTrigger
    | with_reducible apply kept_queueOut | with_reducible refine kept_capTrigger_eq (by assumption) ?_
    | with_reducible apply Kept.ite | split

theorem kept_ruleEval {s s' : State} (r : Nat) (h : Kept s s') : Kept s (ruleEval s' r) := by
  unfold ruleEval
  try dsimp only
  repeat' first
    | with_reducible assumption | with_reducible apply kept_integrity | with_reducible apply kept_ruleAct
    | (with_reducible refine Kept.foldl (fun t' a' h' => ?_) _ ?_ <;> (try dsimp only)) | with_reducible apply Kept.ite
    | (fail_if_no_progress (with_reducible apply Kept.mk_of <;> try with_reducible rfl)) | split

theorem kept_rulesEdge {s s' : State}  (h : Kept s s') : Kept s (rulesEdge s') := by
  unfold rulesEdge
  try dsimp only
  repeat' first
    | with_reducible assumption | with_reducible apply kept_ruleEval
    | (with_reducible refine Kept.foldl (fun t' a' h' => ?_) _ ?_ <;> (try dsimp only))
    | (fail_if_no_progress (with_reducible apply Kept.mk_of <;> try with_reducible rfl))

theorem kept_rulesEpoch {s s' : State} (old : Tab Word) (h : Kept s s') : Kept s (rulesEpoch old s') := by
  unfold rulesEpoch
  try dsimp only
  repeat' first
    | with_reducible assumption | (with_reducible refine Kept.foldl (fun t' a' h' => ?_) _ ?_ <;> (try dsimp only))
    | with_reducible apply Kept.ite | (fail_if_no_progress (with_reducible apply Kept.mk_of <;> try with_reducible rfl)) | split

theorem kept_rulesBoundary {s s' : State}  (h : Kept s s') : Kept s (rulesBoundary s') := by
  unfold rulesBoundary
  try dsimp only
  repeat' first
    | with_reducible assumption | (fail_if_no_progress (with_reducible apply Kept.mk_of <;> try with_reducible rfl))

/-! ## UplinkData -/

theorem kept_latchPeriod {s s' : State} (ch : Nat) (h : Kept s s') : Kept s (latchPeriod ch s') := by
  unfold latchPeriod
  try dsimp only
  repeat' first
    | with_reducible assumption | with_reducible apply kept_modCChan | with_reducible apply kept_emit
    | with_reducible apply Kept.ite | (fail_if_no_progress (with_reducible apply Kept.mk_of <;> try with_reducible rfl)) | split

theorem kept_takeDiag {s s' : State} (ch diag : Nat) (h : Kept s s') : Kept s (takeDiag ch diag s') := by
  unfold takeDiag
  try dsimp only
  repeat' first
    | with_reducible assumption | with_reducible apply kept_modCChan | with_reducible apply kept_raise
    | with_reducible apply kept_clearSrc | (with_reducible refine Kept.foldl (fun t' a' h' => ?_) _ ?_ <;> (try dsimp only))
    | with_reducible apply Kept.ite | (fail_if_no_progress (with_reducible apply Kept.mk_of <;> try with_reducible rfl)) | split

theorem kept_fanOut {s s' : State} (ch : Nat) (l : List Smp) (h : Kept s s') : Kept s (fanOut ch l s') := by
  unfold fanOut
  try dsimp only
  repeat' first
    | with_reducible assumption | with_reducible apply kept_modCChan | with_reducible apply kept_stageSample
    | (with_reducible refine Kept.foldl (fun t' a' h' => ?_) _ ?_ <;> (try dsimp only)) | with_reducible apply Kept.ite
    | (fail_if_no_progress (with_reducible apply Kept.mk_of <;> try with_reducible rfl)) | split

theorem kept_fiddleRecord {s s' : State} (ch : Nat) (d : PosData) (h : Kept s s') : Kept s (fiddleRecord ch d s') := by
  unfold fiddleRecord
  try dsimp only
  repeat' first
    | with_reducible assumption | with_reducible apply kept_emit | with_reducible apply Kept.ite
    | (fail_if_no_progress (with_reducible apply Kept.mk_of <;> try with_reducible rfl)) | split

theorem kept_fiddleMissing {s s' : State} (ch : Nat) (h : Kept s s') : Kept s (fiddleMissing ch s') := by
  unfold fiddleMissing
  try dsimp only
  repeat' first
    | with_reducible assumption | with_reducible apply kept_emit | with_reducible apply Kept.ite
    | (fail_if_no_progress (with_reducible apply Kept.mk_of <;> try with_reducible rfl)) | split

theorem kept_snapDone {s s' : State} (q : SnapReq) (h : Kept s s') : Kept s (snapDone q s') := by
  unfold snapDone
  try dsimp only
  repeat' first
    | with_reducible assumption | with_reducible apply kept_outp | with_reducible apply kept_complete
    | with_reducible apply Kept.ite | (fail_if_no_progress (with_reducible apply Kept.mk_of <;> try with_reducible rfl)) | split

theorem kept_snapFrond {s s' : State} (f : Nat) (got : List (Nat × Nat)) (h : Kept s s') : Kept s (snapFrond f got s') := by
  unfold snapFrond
  try dsimp only
  repeat' first
    | with_reducible assumption | with_reducible apply kept_snapDone
    | (with_reducible refine Kept.foldl (fun t' a' h' => ?_) _ ?_ <;> (try dsimp only)) | with_reducible apply Kept.ite
    | (fail_if_no_progress (with_reducible apply Kept.mk_of <;> try with_reducible rfl)) | split

theorem kept_snapRecord {s s' : State} (ch : Nat) (d : PosData) (ns : Bool) (h : Kept s s') : Kept s (snapRecord ch d ns s') := by
  unfold snapRecord
  try dsimp only
  repeat' first
    | with_reducible assumption | with_reducible apply kept_emit | with_reducible apply Kept.ite | split

theorem kept_chanTick {s s' : State} (ch : Nat) (d : PosData) (flags : List Nat) (h : Kept s s') : Kept s (chanTick ch d flags s') := by
  unfold chanTick
  try dsimp only
  repeat' first
    | with_reducible assumption | with_reducible apply kept_modCChan | with_reducible apply kept_emit
    | with_reducible apply kept_latchPeriod | with_reducible apply kept_takeDiag | with_reducible apply kept_fanOut
    | with_reducible apply kept_fiddleRecord | with_reducible apply kept_snapRecord | with_reducible apply Kept.ite
    | (fail_if_no_progress (with_reducible apply Kept.mk_of <;> try with_reducible rfl)) | split

theorem kept_chanMissing {s s' : State} (ch : Nat) (h : Kept s s') : Kept s (chanMissing ch s') := by
  unfold chanMissing
  try dsimp only
  repeat' first
    | with_reducible assumption | with_reducible apply kept_modCChan | with_reducible apply kept_emit
    | with_reducible apply kept_latchPeriod | with_reducible apply kept_fanOut | with_reducible apply kept_fiddleMissing
    | with_reducible apply Kept.ite | (fail_if_no_progress (with_reducible apply Kept.mk_of <;> try with_reducible rfl)) | split

theorem kept_tickSummary {s s' : State}  (h : Kept s s') : Kept s (tickSummary s') := by
  unfold tickSummary
  try dsimp only
  repeat' first
    | with_reducible assumption | with_reducible apply kept_emit | with_reducible apply Kept.ite
    | (fail_if_no_progress (with_reducible apply Kept.mk_of <;> try with_reducible rfl)) | split

theorem kept_frondResolved {s s' : State} (f : Nat) (stamps : Nat → List Nat) (h : Kept s s') : Kept s (frondResolved f stamps s') := by
  unfold frondResolved
  try dsimp only
  repeat' first
    | with_reducible assumption | with_reducible apply kept_modFrond | with_reducible apply kept_angleTick
    | with_reducible apply kept_capFrames | with_reducible apply kept_capStampTick | with_reducible apply kept_tickSummary
    | (with_reducible refine Kept.foldl (fun t' a' h' => ?_) _ ?_ <;> (try dsimp only)) | with_reducible apply Kept.ite
    | (fail_if_no_progress (with_reducible apply Kept.mk_of <;> try with_reducible rfl)) | split

theorem kept_frondComplete {s s' : State} (f : Nat) (h : Kept s s') : Kept s (frondComplete f s') := by
  unfold frondComplete
  try dsimp only
  repeat' first
    | with_reducible assumption | with_reducible apply kept_modFrond | with_reducible apply kept_trackFrond
    | with_reducible apply kept_snapFrond | with_reducible apply kept_chanTick | with_reducible apply kept_frondResolved
    | (with_reducible refine Kept.foldl (fun t' a' h' => ?_) _ ?_ <;> (try dsimp only)) | with_reducible apply Kept.ite
    | (fail_if_no_progress (with_reducible apply Kept.mk_of <;> try with_reducible rfl)) | split

theorem kept_frondMissing {s s' : State} (f : Nat) (h : Kept s s') : Kept s (frondMissing f s') := by
  unfold frondMissing
  try dsimp only
  repeat' first
    | with_reducible assumption | with_reducible apply kept_modFrond | with_reducible apply kept_trackFrond
    | with_reducible apply kept_snapFrond | with_reducible apply kept_chanMissing | with_reducible apply kept_frondResolved
    | (with_reducible refine Kept.foldl (fun t' a' h' => ?_) _ ?_ <;> (try dsimp only))
    | (fail_if_no_progress (with_reducible apply Kept.mk_of <;> try with_reducible rfl))

theorem kept_tryComplete {s s' : State} (f : Nat) (h : Kept s s') : Kept s (tryComplete f s') := by
  unfold tryComplete
  try dsimp only
  repeat' first
    | with_reducible assumption | with_reducible apply kept_frondComplete | with_reducible apply Kept.ite | split

theorem kept_takeUplink {s s' : State} (f kind : Nat) (fr : Frame) (flags : List Nat) (h : Kept s s') : Kept s (takeUplink f kind fr flags s') := by
  unfold takeUplink
  try dsimp only
  repeat' first
    | with_reducible assumption | with_reducible apply kept_modFrond | with_reducible apply kept_rxUp
    | with_reducible apply kept_tryComplete | with_reducible apply Kept.ite
    | (fail_if_no_progress (with_reducible apply Kept.mk_of <;> try with_reducible rfl)) | split
    | (intro _; intros; try dsimp only)

end Sys2Proof.Machine
end

