-- ==== Sys2Proof/Laws/Kept4.lean ====
section
/-! SUPPORT. The lemmas of Kept for the operations of SecOps, TimeOps, IpOps, NetOps, LspOps, Staging, RegRead, RegWrite, Deadlines, TickEdge, Delivery, FaultRows, TimeRows. -/

set_option linter.unusedTactic false
set_option linter.unreachableTactic false

namespace Sys2Proof.Machine
open Sys2Proof

/-! ## SecOps -/

theorem kept_secBreak {s s' : State} (code : Nat) (h : Kept s s') : Kept s (secBreak code s') := by
  unfold secBreak
  try dsimp only
  repeat' first
    | with_reducible assumption | with_reducible apply kept_noteEvent | with_reducible apply Kept.ite
    | (fail_if_no_progress (with_reducible apply Kept.mk_of <;> try with_reducible rfl)) | split

theorem kept_securityHalt {s s' : State} (cause alg : Nat) (h : Kept s s') : Kept s (securityHalt cause alg s') := by
  unfold securityHalt
  repeat' first
    | with_reducible assumption | with_reducible apply kept_raise

theorem kept_authFailed {s s' : State} (kind op : Nat) (h : Kept s s') : Kept s (authFailed kind op s') := by
  unfold authFailed
  try dsimp only
  repeat' first
    | with_reducible assumption | with_reducible apply kept_noteEvent | with_reducible apply Kept.ite
    | (fail_if_no_progress (with_reducible apply Kept.mk_of <;> try with_reducible rfl)) | split

theorem kept_authPassed {s s' : State}  (h : Kept s s') : Kept s (authPassed s') := by
  unfold authPassed
  try dsimp only
  repeat' first
    | with_reducible assumption | (fail_if_no_progress (with_reducible apply Kept.mk_of <;> try with_reducible rfl))

theorem kept_lifeCycleCheck {s s' : State} (copyBad otpBad : Bool) (h : Kept s s') : Kept s (lifeCycleCheck copyBad otpBad s') := by
  unfold lifeCycleCheck
  try dsimp only
  repeat' first
    | with_reducible assumption | with_reducible apply kept_secBreak | with_reducible apply kept_securityHalt
    | with_reducible apply Kept.ite | (fail_if_no_progress (with_reducible apply Kept.mk_of <;> try with_reducible rfl)) | split

/-! ## TimeOps -/

theorem kept_timeEvent {s s' : State} (old : Nat) (h : Kept s s') : Kept s (timeEvent old s') := by
  unfold timeEvent
  try dsimp only
  repeat' first
    | with_reducible assumption | with_reducible apply kept_emit
    | (fail_if_no_progress (with_reducible apply Kept.mk_of <;> try with_reducible rfl))

theorem kept_setTime {s t : State} (n : Nat) (h : Kept s t) : Kept s (setTime n t) := by
  have base : ∀ (a b c : _) (e : Int), Kept s { t with tm := { t.tm with state := a, run := b, jump := none, slew := c, offset := e } } :=
    fun _ _ _ _ => ⟨h.pending, h.auto, h.cfg, h.count, h.lc, h.field, h.out, h.mem, h.halt, h.started, fun _ => rfl⟩
  unfold setTime
  dsimp only
  split
  · exact h
  · split
    · exact kept_raise _ _ _ _ _ _ _ _ (kept_timeEvent _ (base _ _ _ _))
    · split
      · exact kept_clearSrc _ _ (kept_timeEvent _ (base _ _ _ _))
      · exact kept_timeEvent _ (base _ _ _ _)

theorem kept_sourceEpoch {s s' : State} (old : Tab Word) (h : Kept s s') : Kept s (sourceEpoch old s') := by
  unfold sourceEpoch
  repeat' first
    | with_reducible assumption | with_reducible apply kept_setTime | with_reducible apply Kept.ite | split

/-! ## NetOps -/

theorem kept_modPort {s s' : State} (p : Nat) (g : Port → Port) (h : Kept s s') : Kept s (modPort p g s') := by
  unfold modPort
  try dsimp only
  repeat' first
    | with_reducible assumption | with_reducible apply Kept.ite
    | (fail_if_no_progress (with_reducible apply Kept.mk_of <;> try with_reducible rfl)) | split

theorem kept_macsecSrc {s s' : State}  (h : Kept s s') : Kept s (macsecSrc s') := by
  unfold macsecSrc
  try dsimp only
  repeat' first
    | with_reducible assumption | with_reducible apply kept_setSrc | with_reducible apply Kept.ite | split

theorem kept_takePn {s t : State} (p : Nat) (h : Kept s t) : Kept s (takePn p t).2 := by
  unfold takePn
  dsimp only
  repeat' first
    | assumption | with_reducible apply kept_macsecSrc | with_reducible apply kept_modPort | split

theorem kept_takePn_eq {s t u : State} {p : Nat} {o : Option Sa} (e : takePn p t = (o, u)) (h : Kept s t) : Kept s u := by
  have := kept_takePn p h
  rwa [e] at this

theorem kept_txNow {s s' : State} (p : Nat) (o : NetTx) (h : Kept s s') : Kept s (txNow p o s') := by
  unfold txNow
  try dsimp only
  repeat' first
    | with_reducible assumption | with_reducible apply kept_outp | with_reducible apply kept_takePn
    | with_reducible refine kept_takePn_eq (by assumption) ?_ | with_reducible apply Kept.ite | split

theorem kept_sendPort {s s' : State} (p tc : Nat) (o : NetTx) (h : Kept s s') : Kept s (sendPort p tc o s') := by
  unfold sendPort
  try dsimp only
  repeat' first
    | with_reducible assumption | with_reducible apply kept_modPort | with_reducible apply kept_txNow
    | with_reducible apply Kept.ite | (fail_if_no_progress (with_reducible apply Kept.mk_of <;> try with_reducible rfl)) | split

theorem kept_gateFlush {s s' : State} (p : Nat) (h : Kept s s') : Kept s (gateFlush p s') := by
  unfold gateFlush
  try dsimp only
  repeat' first
    | with_reducible assumption | with_reducible apply kept_modPort | with_reducible apply kept_sendPort
    | (with_reducible refine Kept.foldl (fun t' a' h' => ?_) _ ?_ <;> (try dsimp only))
    | (fail_if_no_progress (with_reducible apply Kept.mk_of <;> try with_reducible rfl))

theorem kept_gatesRestart {s s' : State}  (h : Kept s s') : Kept s (gatesRestart s') := by
  unfold gatesRestart
  try dsimp only
  repeat' first
    | with_reducible assumption | with_reducible apply kept_modPort | with_reducible apply kept_gateFlush
    | (with_reducible refine Kept.foldl (fun t' a' h' => ?_) _ ?_ <;> (try dsimp only))
    | (fail_if_no_progress (with_reducible apply Kept.mk_of <;> try with_reducible rfl))

theorem kept_modPub {s s' : State} (i : Nat) (g : Pub → Pub) (h : Kept s s') : Kept s (modPub i g s') := by
  unfold modPub
  try dsimp only
  repeat' first
    | with_reducible assumption | (fail_if_no_progress (with_reducible apply Kept.mk_of <;> try with_reducible rfl))

theorem kept_askFor {s s' : State} (i p : Nat) (h : Kept s s') : Kept s (askFor i p s') := by
  unfold askFor
  repeat' first
    | with_reducible assumption | with_reducible apply kept_sendPort | with_reducible apply Kept.ite | split

theorem kept_sendGram {s s' : State} (i : Nat) (b : List Byte) (h : Kept s s') : Kept s (sendGram i b s') := by
  unfold sendGram
  try dsimp only
  repeat' first
    | with_reducible assumption | with_reducible apply kept_sendPort | with_reducible apply kept_askFor
    | (with_reducible refine Kept.foldl (fun t' a' h' => ?_) _ ?_ <;> (try dsimp only)) | with_reducible apply Kept.ite | split

theorem kept_closeOwn {s s' : State} (i : Nat) (h : Kept s s') : Kept s (closeOwn i s') := by
  unfold closeOwn
  try dsimp only
  repeat' first
    | with_reducible assumption | with_reducible apply kept_modPub | with_reducible apply kept_sendGram
    | with_reducible apply Kept.ite | (fail_if_no_progress (with_reducible apply Kept.mk_of <;> try with_reducible rfl)) | split

theorem kept_closeFwd {s s' : State} (i : Nat) (h : Kept s s') : Kept s (closeFwd i s') := by
  unfold closeFwd
  try dsimp only
  repeat' first
    | with_reducible assumption | with_reducible apply kept_modPub | with_reducible apply kept_sendGram
    | with_reducible apply Kept.ite | (fail_if_no_progress (with_reducible apply Kept.mk_of <;> try with_reducible rfl)) | split

theorem kept_closeGram {s s' : State} (i : Nat) (h : Kept s s') : Kept s (closeGram i s') := by
  unfold closeGram
  repeat' first
    | with_reducible assumption | with_reducible apply kept_closeOwn | with_reducible apply kept_closeFwd

theorem kept_publish {s s' : State} (i q : Nat) (c : Cell) (bad : Bad) (h : Kept s s') : Kept s (publish i q c bad s') := by
  unfold publish
  try dsimp only
  repeat' first
    | with_reducible assumption | with_reducible apply kept_modPub | with_reducible apply kept_closeOwn
    | with_reducible apply Kept.ite | (fail_if_no_progress (with_reducible apply Kept.mk_of <;> try with_reducible rfl)) | split

theorem kept_publishFwd {s s' : State} (i : Nat) (c : Cell) (bad : Bad) (h : Kept s s') : Kept s (publishFwd i c bad s') := by
  unfold publishFwd
  try dsimp only
  repeat' first
    | with_reducible assumption | with_reducible apply kept_modPub | with_reducible apply kept_closeFwd
    | with_reducible apply Kept.ite | (fail_if_no_progress (with_reducible apply Kept.mk_of <;> try with_reducible rfl)) | split

theorem kept_pubsEpoch {s s' : State} (old : Tab Word) (h : Kept s s') : Kept s (pubsEpoch old s') := by
  unfold pubsEpoch
  try dsimp only
  repeat' first
    | with_reducible assumption | with_reducible apply kept_modPub
    | (with_reducible refine Kept.foldl (fun t' a' h' => ?_) _ ?_ <;> (try dsimp only)) | with_reducible apply Kept.ite
    | (fail_if_no_progress (with_reducible apply Kept.mk_of <;> try with_reducible rfl)) | split

/-! ## LspOps -/

theorem kept_lspSettle {s s' : State}  (h : Kept s s') : Kept s (lspSettle s') := by
  unfold lspSettle
  try dsimp only
  repeat' first
    | with_reducible assumption | (fail_if_no_progress (with_reducible apply Kept.mk_of <;> try with_reducible rfl)) | split

theorem kept_lspEpoch {s s' : State}  (h : Kept s s') : Kept s (lspEpoch s') := by
  unfold lspEpoch
  try dsimp only
  repeat' first
    | with_reducible assumption | with_reducible apply kept_lspSettle
    | (fail_if_no_progress (with_reducible apply Kept.mk_of <;> try with_reducible rfl)) | split

/-! ## Staging -/

theorem kept_stage {s s' : State} (ofs idx : Nat) (v m : Word) (h : Kept s s') : Kept s (stage ofs idx v m s') := by
  unfold stage
  try dsimp only
  repeat' first
    | with_reducible assumption | with_reducible apply Kept.ite
    | (fail_if_no_progress (with_reducible apply Kept.mk_of <;> try with_reducible rfl)) | split

theorem kept_stageAll {s s' : State} (l : List (Nat × Nat × Word)) (h : Kept s s') : Kept s (stageAll l s') := by
  unfold stageAll
  try dsimp only
  repeat' first
    | with_reducible assumption | with_reducible apply kept_stage
    | (with_reducible refine Kept.foldl (fun t' a' h' => ?_) _ ?_ <;> (try dsimp only))

theorem kept_basicWrite {s s' : State} (ofs idx : Nat) (v : Word) (h : Kept s s') : Kept s (basicWrite ofs idx v s') := by
  unfold basicWrite
  repeat' first
    | with_reducible assumption | with_reducible apply kept_stage | with_reducible apply kept_stageAll
    | with_reducible apply Kept.ite | split

/-! ## RegRead -/

theorem kept_modPath {s s' : State} (p : Path) (g : PathRegs → PathRegs) (h : Kept s s') : Kept s (modPath p g s') := by
  unfold modPath
  try dsimp only
  repeat' first
    | with_reducible assumption | (fail_if_no_progress (with_reducible apply Kept.mk_of <;> try with_reducible rfl)) | split

/-! ## RegWrite -/

theorem kept_markOfs {s s' : State} (ofs : Nat) (h : Kept s s') : Kept s (markOfs ofs s') := by
  unfold markOfs
  try dsimp only
  repeat' first
    | with_reducible assumption | with_reducible apply Kept.ite
    | (fail_if_no_progress (with_reducible apply Kept.mk_of <;> try with_reducible rfl)) | split

theorem kept_lockWr {s s' : State} (ofs : Nat) (h : Kept s s') : Kept s (lockWr ofs s') := by
  unfold lockWr
  try dsimp only
  repeat' first
    | with_reducible assumption | with_reducible apply kept_markOfs
    | (fail_if_no_progress (with_reducible apply Kept.mk_of <;> try with_reducible rfl))

theorem kept_dropPairs {s s' : State} (bad : RwpPend → Bool) (h : Kept s s') : Kept s (dropPairs bad s') := by
  unfold dropPairs
  try dsimp only
  repeat' first
    | with_reducible assumption | with_reducible apply kept_integrity
    | (with_reducible refine Kept.foldl (fun t' a' h' => ?_) _ ?_ <;> (try dsimp only))
    | (fail_if_no_progress (with_reducible apply Kept.mk_of <;> try with_reducible rfl))

theorem kept_stageWrite {s s' : State} (r : PathRegs) (ofs : Nat) (v : Word) (h : Kept s s') : Kept s (stageWrite r ofs v s') := by
  unfold stageWrite
  try dsimp only
  repeat' first
    | with_reducible assumption | with_reducible apply kept_stage | with_reducible apply kept_basicWrite
    | with_reducible apply kept_lockWr | (with_reducible refine Kept.foldl (fun t' a' h' => ?_) _ ?_ <;> (try dsimp only))
    | with_reducible apply Kept.ite | split

theorem kept_rwpValue {s s' : State} (p : Path) (ofs : Nat) (v : Word) (h : Kept s s') : Kept s (rwpValue p ofs v s') := by
  unfold rwpValue
  try dsimp only
  repeat' first
    | with_reducible assumption | with_reducible apply kept_lockWr | with_reducible apply kept_dropPairs
    | with_reducible apply Kept.ite | (fail_if_no_progress (with_reducible apply Kept.mk_of <;> try with_reducible rfl)) | split

theorem kept_rwpComplement {s s' : State} (p : Path) (ofs : Nat) (v : Word) (h : Kept s s') : Kept s (rwpComplement p ofs v s') := by
  unfold rwpComplement
  try dsimp only
  repeat' first
    | with_reducible assumption | with_reducible apply kept_integrity | with_reducible apply kept_stage
    | with_reducible apply kept_markOfs | with_reducible apply kept_lockWr | with_reducible apply kept_dropPairs
    | (with_reducible refine Kept.foldl (fun t' a' h' => ?_) _ ?_ <;> (try dsimp only)) | with_reducible apply Kept.ite
    | (fail_if_no_progress (with_reducible apply Kept.mk_of <;> try with_reducible rfl)) | split

theorem kept_put64 {s s' : State} (ofs : Nat) (lo hi : Word) (h : Kept s s') : Kept s (put64 ofs lo hi s') := by
  unfold put64
  try dsimp only
  repeat' first
    | with_reducible assumption | with_reducible apply kept_modRing | with_reducible apply kept_stage
    | with_reducible apply Kept.ite | (fail_if_no_progress (with_reducible apply Kept.mk_of <;> try with_reducible rfl)) | split

theorem kept_lowWrite {s s' : State} (p : Path) (ofs : Nat) (v : Word) (h : Kept s s') : Kept s (lowWrite p ofs v s') := by
  unfold lowWrite
  try dsimp only
  repeat' first
    | with_reducible assumption | with_reducible apply kept_modPath | with_reducible apply kept_lockWr
    | with_reducible apply Kept.ite | (fail_if_no_progress (with_reducible apply Kept.mk_of <;> try with_reducible rfl)) | split

theorem kept_highWrite {s s' : State} (p : Path) (ofs : Nat) (v : Word) (h : Kept s s') : Kept s (highWrite p ofs v s') := by
  unfold highWrite
  try dsimp only
  repeat' first
    | with_reducible assumption | with_reducible apply kept_modPath | with_reducible apply kept_lockWr
    | with_reducible apply kept_put64 | with_reducible apply Kept.ite
    | (fail_if_no_progress (with_reducible apply Kept.mk_of <;> try with_reducible rfl)) | split

theorem kept_enableRing {s s' : State} (r log2 : Nat) (h : Kept s s') : Kept s (enableRing r log2 s') := by
  unfold enableRing
  try dsimp only
  repeat' first
    | with_reducible assumption | with_reducible apply kept_modRing | with_reducible apply Kept.ite
    | (fail_if_no_progress (with_reducible apply Kept.mk_of <;> try with_reducible rfl)) | split

theorem kept_ringCfgWrite {s s' : State} (r ofs : Nat) (v : Word) (h : Kept s s') : Kept s (ringCfgWrite r ofs v s') := by
  unfold ringCfgWrite
  try dsimp only
  repeat' first
    | with_reducible assumption | with_reducible apply kept_modRing | with_reducible apply kept_stage
    | with_reducible apply kept_lockWr | with_reducible apply kept_enableRing | with_reducible apply Kept.ite
    | (fail_if_no_progress (with_reducible apply Kept.mk_of <;> try with_reducible rfl)) | split

theorem kept_cvuMod {s s' : State} (u : Nat) (g : Cvu → Cvu) (h : Kept s s') : Kept s (cvuMod u g s') := by
  unfold cvuMod
  try dsimp only
  repeat' first
    | with_reducible assumption | with_reducible apply Kept.ite
    | (fail_if_no_progress (with_reducible apply Kept.mk_of <;> try with_reducible rfl)) | split

theorem kept_cvuWrite {s s' : State} (u o : Nat) (v : Word) (h : Kept s s') : Kept s (cvuWrite u o v s') := by
  unfold cvuWrite
  try dsimp only
  repeat' first
    | with_reducible assumption | with_reducible apply kept_cvuMod | with_reducible apply Kept.ite
    | (fail_if_no_progress (with_reducible apply Kept.mk_of <;> try with_reducible rfl)) | split

theorem kept_discard {s s' : State}  (h : Kept s s') : Kept s (discard s') := by
  unfold discard
  try dsimp only
  repeat' first
    | with_reducible assumption | (fail_if_no_progress (with_reducible apply Kept.mk_of <;> try with_reducible rfl))

theorem kept_peekWrite {s s' : State} (p : Path) (v : Word) (h : Kept s s') : Kept s (peekWrite p v s') := by
  unfold peekWrite
  try dsimp only
  repeat' first
    | with_reducible assumption | with_reducible apply kept_modPath
    | (fail_if_no_progress (with_reducible apply Kept.mk_of <;> try with_reducible rfl))

theorem kept_chnSelWrite {s s' : State} (p : Path) (v : Word) (h : Kept s s') : Kept s (chnSelWrite p v s') := by
  unfold chnSelWrite
  try dsimp only
  repeat' first
    | with_reducible assumption | with_reducible apply kept_modPath | with_reducible apply kept_dropPairs
    | (fail_if_no_progress (with_reducible apply Kept.mk_of <;> try with_reducible rfl))

theorem kept_dbgWrite {s s' : State} (v : Word) (h : Kept s s') : Kept s (dbgWrite v s') := by
  unfold dbgWrite
  try dsimp only
  repeat' first
    | with_reducible assumption | with_reducible apply kept_lockWr | with_reducible apply Kept.ite
    | (fail_if_no_progress (with_reducible apply Kept.mk_of <;> try with_reducible rfl)) | split

theorem kept_clearSticky {s s' : State} (r : PathRegs) (ofs : Nat) (v : Word) (hw : Tab Word) (h : Kept s s') : Kept s (clearSticky r ofs v hw s') := by
  unfold clearSticky
  try dsimp only
  repeat' first
    | with_reducible assumption | with_reducible apply kept_modCChan
    | (with_reducible refine Kept.foldl (fun t' a' h' => ?_) _ ?_ <;> (try dsimp only)) | with_reducible apply Kept.ite
    | (fail_if_no_progress (with_reducible apply Kept.mk_of <;> try with_reducible rfl)) | split

theorem kept_idWrite {s s' : State} (p : Path) (ofs : Nat) (v : Word) (h : Kept s s') : Kept s (idWrite p ofs v s') := by
  unfold idWrite
  try dsimp only
  repeat' first
    | with_reducible assumption | with_reducible apply kept_modPath | with_reducible apply kept_discard
    | with_reducible apply Kept.ite | (fail_if_no_progress (with_reducible apply Kept.mk_of <;> try with_reducible rfl)) | split

theorem kept_dmaWrite {s s' : State} (ofs : Nat) (v : Word) (h : Kept s s') : Kept s (dmaWrite ofs v s') := by
  unfold dmaWrite
  try dsimp only
  repeat' first
    | with_reducible assumption | with_reducible apply kept_modRing | with_reducible apply kept_stage
    | with_reducible apply kept_lockWr | with_reducible apply kept_ringCfgWrite | with_reducible apply Kept.ite
    | (fail_if_no_progress (with_reducible apply Kept.mk_of <;> try with_reducible rfl)) | split

theorem kept_regWrite {s s' : State} (p : Path) (ofs : Nat) (v : Word) (h : Kept s s') : Kept s (regWrite p ofs v s') := by
  unfold regWrite
  try dsimp only
  repeat' first
    | with_reducible assumption | with_reducible apply kept_modPath | with_reducible apply kept_stageWrite
    | with_reducible apply kept_rwpValue | with_reducible apply kept_rwpComplement | with_reducible apply kept_lowWrite
    | with_reducible apply kept_highWrite | with_reducible apply kept_cvuWrite | with_reducible apply kept_peekWrite
    | with_reducible apply kept_chnSelWrite | with_reducible apply kept_dbgWrite | with_reducible apply kept_clearSticky
    | with_reducible apply kept_idWrite | with_reducible apply kept_dmaWrite | with_reducible apply Kept.ite
    | (fail_if_no_progress (with_reducible apply Kept.mk_of <;> try with_reducible rfl)) | split

theorem kept_busWrite {s s' : State} (p : Path) (ofs : Nat) (v : Word) (h : Kept s s') : Kept s (busWrite p ofs v s') := by
  unfold busWrite
  repeat' first
    | with_reducible assumption | with_reducible apply kept_regWrite | with_reducible apply Kept.ite | split

theorem kept_doorbell {s s' : State} (ofs : Nat) (v : Word) (h : Kept s s') : Kept s (doorbell ofs v s') := by
  unfold doorbell
  try dsimp only
  repeat' first
    | with_reducible assumption | with_reducible apply kept_modRing | with_reducible apply kept_noteEvent
    | with_reducible apply Kept.ite | (fail_if_no_progress (with_reducible apply Kept.mk_of <;> try with_reducible rfl)) | split

/-! ## Deadlines -/

theorem kept_cvuEnd {s s' : State} (o : Outstanding) (n status : Nat) (h : Kept s s') : Kept s (cvuEnd o n status s') := by
  unfold cvuEnd
  try dsimp only
  repeat' first
    | with_reducible assumption | with_reducible apply kept_complete
    | (fail_if_no_progress (with_reducible apply Kept.mk_of <;> try with_reducible rfl))

theorem kept_timeOut {s s' : State} (o : Outstanding) (n : Nat) (h : Kept s s') : Kept s (timeOut o n s') := by
  unfold timeOut
  try dsimp only
  repeat' first
    | with_reducible assumption | with_reducible apply kept_outp | with_reducible apply kept_complete
    | with_reducible apply kept_mapPull | with_reducible apply kept_mapEnd | with_reducible apply kept_cvuEnd
    | with_reducible apply Kept.ite | split

theorem kept_deadlinesEdge {s s' : State} (ends : List (Half × Nat)) (h : Kept s s') : Kept s (deadlinesEdge ends s') := by
  unfold deadlinesEdge
  try dsimp only
  repeat' first
    | with_reducible assumption | with_reducible apply kept_timeOut
    | (with_reducible refine Kept.foldl (fun t' a' h' => ?_) _ ?_ <;> (try dsimp only)) | with_reducible apply Kept.ite | split

/-! ## TickEdge -/

theorem kept_mapCut {s s' : State} (read : Nat) (h : Kept s s') : Kept s (mapCut read s') := by
  unfold mapCut
  try dsimp only
  repeat' first
    | with_reducible assumption | with_reducible apply kept_mapPull | with_reducible apply kept_mapEnd
    | with_reducible apply Kept.ite | split

theorem kept_periodWork {s s' : State} (read : Nat) (h : Kept s s') : Kept s (periodWork read s') := by
  unfold periodWork
  try dsimp only
  repeat' first
    | with_reducible assumption | with_reducible apply kept_modFrond | with_reducible apply kept_msi
    | with_reducible apply kept_latchLost | with_reducible apply kept_clearSrc | with_reducible apply kept_mapBoundary
    | with_reducible apply kept_rulesBoundary | with_reducible apply kept_mapCut
    | (with_reducible refine Kept.foldl (fun t' a' h' => ?_) _ ?_ <;> (try dsimp only))
    | (fail_if_no_progress (with_reducible apply Kept.mk_of <;> try with_reducible rfl))

theorem kept_linkWindow {s s' : State} (f : Nat) (linkB : Bool) (h : Kept s s') : Kept s (linkWindow f linkB s') := by
  unfold linkWindow
  try dsimp only
  repeat' first
    | with_reducible assumption | with_reducible apply kept_modLink | with_reducible apply kept_linkDown
    | with_reducible apply Kept.ite | (fail_if_no_progress (with_reducible apply Kept.mk_of <;> try with_reducible rfl)) | split

theorem kept_frondWindow {s s' : State} (judge : Bool) (old : Option (Tab Word)) (f : Nat) (h : Kept s s') : Kept s (frondWindow judge old s' f) := by
  unfold frondWindow
  try dsimp only
  repeat' first
    | with_reducible assumption | with_reducible apply kept_modFrond | with_reducible apply kept_linkWindow
    | with_reducible apply Kept.ite | (fail_if_no_progress (with_reducible apply Kept.mk_of <;> try with_reducible rfl)) | split

theorem kept_alignJudge {s s' : State} (bad : List Nat) (h : Kept s s') : Kept s (alignJudge bad s') := by
  unfold alignJudge
  try dsimp only
  repeat' first
    | with_reducible assumption | with_reducible apply kept_modFrond | with_reducible apply kept_raise
    | with_reducible apply kept_clearSrc | (with_reducible refine Kept.foldl (fun t' a' h' => ?_) _ ?_ <;> (try dsimp only))
    | with_reducible apply Kept.ite | (fail_if_no_progress (with_reducible apply Kept.mk_of <;> try with_reducible rfl)) | split

theorem kept_excludeFronds {s s' : State} (excl : List Nat) (h : Kept s s') : Kept s (excludeFronds excl s') := by
  unfold excludeFronds
  try dsimp only
  repeat' first
    | with_reducible assumption | with_reducible apply kept_modFrond
    | (with_reducible refine Kept.foldl (fun t' a' h' => ?_) _ ?_ <;> (try dsimp only))
    | (fail_if_no_progress (with_reducible apply Kept.mk_of <;> try with_reducible rfl))

theorem kept_partsEpoch {s s' : State} (old : Tab Word) (h : Kept s s') : Kept s (partsEpoch old s') := by
  unfold partsEpoch
  try dsimp only
  repeat' first
    | with_reducible assumption | with_reducible apply kept_trimAll | with_reducible apply kept_clearSrc
    | with_reducible apply kept_refsEpoch | with_reducible apply kept_mapEpoch | with_reducible apply kept_chanEpoch
    | with_reducible apply kept_capsEpoch | with_reducible apply kept_rulesEpoch | with_reducible apply kept_pubsEpoch
    | with_reducible apply kept_lspEpoch | (with_reducible refine Kept.foldl (fun t' a' h' => ?_) _ ?_ <;> (try dsimp only))
    | (fail_if_no_progress (with_reducible apply Kept.mk_of <;> try with_reducible rfl))

theorem kept_tempEdge {s s' : State} (i : TickIn) (h : Kept s s') : Kept s (tempEdge i s') := by
  unfold tempEdge
  try dsimp only
  repeat' first
    | with_reducible assumption | with_reducible apply kept_clearSrc | with_reducible apply Kept.ite
    | (fail_if_no_progress (with_reducible apply Kept.mk_of <;> try with_reducible rfl)) | split

theorem kept_checkInEdge {s s' : State}  (h : Kept s s') : Kept s (checkInEdge s') := by
  unfold checkInEdge
  try dsimp only
  repeat' first
    | with_reducible assumption | with_reducible apply kept_raise | with_reducible apply kept_clearSrc
    | with_reducible apply Kept.ite | (fail_if_no_progress (with_reducible apply Kept.mk_of <;> try with_reducible rfl)) | split

theorem kept_aliveEdge {s s' : State}  (h : Kept s s') : Kept s (aliveEdge s') := by
  unfold aliveEdge
  try dsimp only
  repeat' first
    | with_reducible assumption | with_reducible apply Kept.ite
    | (fail_if_no_progress (with_reducible apply Kept.mk_of <;> try with_reducible rfl)) | split

theorem kept_fillers {s s' : State}  (h : Kept s s') : Kept s (fillers s') := by
  unfold fillers
  try dsimp only
  repeat' first
    | with_reducible assumption | with_reducible apply kept_emit | with_reducible apply kept_lspSettle
    | (with_reducible refine Kept.foldl (fun t' a' h' => ?_) _ ?_ <;> (try dsimp only)) | with_reducible apply Kept.ite
    | (fail_if_no_progress (with_reducible apply Kept.mk_of <;> try with_reducible rfl)) | split

theorem kept_overrunEdge {s s' : State}  (h : Kept s s') : Kept s (overrunEdge s') := by
  unfold overrunEdge
  repeat' first
    | with_reducible assumption | with_reducible apply kept_raise | with_reducible apply kept_clearSrc
    | with_reducible apply Kept.ite | split

theorem kept_pinsEdge {s s' : State} (reset boundary : Bool) (h : Kept s s') : Kept s (pinsEdge reset boundary s') := by
  unfold pinsEdge
  try dsimp only
  repeat' first
    | with_reducible assumption | with_reducible apply Kept.ite
    | (fail_if_no_progress (with_reducible apply Kept.mk_of <;> try with_reducible rfl)) | split

theorem kept_stickyEdge {s s' : State}  (h : Kept s s') : Kept s (stickyEdge s') := by
  unfold stickyEdge
  try dsimp only
  repeat' first
    | with_reducible assumption | (fail_if_no_progress (with_reducible apply Kept.mk_of <;> try with_reducible rfl))

theorem kept_finishSync {s s' : State}  (h : Kept s s') : Kept s (finishSync s') := by
  unfold finishSync
  try dsimp only
  repeat' first
    | with_reducible assumption | with_reducible apply kept_completeOpt
    | (with_reducible refine Kept.foldl (fun t' a' h' => ?_) _ ?_ <;> (try dsimp only))
    | (fail_if_no_progress (with_reducible apply Kept.mk_of <;> try with_reducible rfl))

theorem kept_syncEdge {s s' : State} (reset : Bool) (h : Kept s s') : Kept s (syncEdge reset s') := by
  unfold syncEdge
  try dsimp only
  repeat' first
    | with_reducible assumption | with_reducible apply kept_modOut | with_reducible apply kept_finishSync
    | (with_reducible refine Kept.foldl (fun t' a' h' => ?_) _ ?_ <;> (try dsimp only)) | with_reducible apply Kept.ite
    | (fail_if_no_progress (with_reducible apply Kept.mk_of <;> try with_reducible rfl)) | split

theorem kept_tickEnds {s s' : State}  (h : Kept s s') : Kept s (tickEnds s') := by
  unfold tickEnds
  try dsimp only
  repeat' first
    | with_reducible assumption | with_reducible apply kept_readyBlocks | with_reducible apply kept_flushHeld
    | with_reducible apply kept_deferTick | with_reducible apply kept_frondMissing
    | (with_reducible refine Kept.foldl (fun t' a' h' => ?_) _ ?_ <;> (try dsimp only)) | with_reducible apply Kept.ite | split

theorem kept_beforeEdge {s s' : State}  (h : Kept s s') : Kept s (beforeEdge s') := by
  unfold beforeEdge
  try dsimp only
  repeat' first
    | with_reducible assumption | with_reducible apply kept_dropNotes | with_reducible apply kept_periodWork
    | with_reducible apply Kept.ite | split

theorem kept_windowsEdge {s s' : State} (v : EdgeView) (h : Kept s s') : Kept s (windowsEdge v s') := by
  unfold windowsEdge
  try dsimp only
  repeat' first
    | with_reducible assumption | with_reducible apply kept_frondWindow
    | (with_reducible refine Kept.foldl (fun t' a' h' => ?_) _ ?_ <;> (try dsimp only)) | with_reducible apply Kept.ite
    | (fail_if_no_progress (with_reducible apply Kept.mk_of <;> try with_reducible rfl)) | split

theorem kept_takeBoundary {s s' : State}  (h : Kept s s') : Kept s (takeBoundary s') := by
  unfold takeBoundary
  try dsimp only
  repeat' first
    | with_reducible assumption | (fail_if_no_progress (with_reducible apply Kept.mk_of <;> try with_reducible rfl))

theorem kept_startTick {s s' : State}  (h : Kept s s') : Kept s (startTick s') := by
  unfold startTick
  try dsimp only
  repeat' first
    | with_reducible assumption | (fail_if_no_progress (with_reducible apply Kept.mk_of <;> try with_reducible rfl))

theorem kept_takeSummary {s s' : State} (v : EdgeView) (h : Kept s s') : Kept s (takeSummary v s') := by
  unfold takeSummary
  try dsimp only
  repeat' first
    | with_reducible assumption | (fail_if_no_progress (with_reducible apply Kept.mk_of <;> try with_reducible rfl))

theorem kept_tickVector {s s' : State}  (h : Kept s s') : Kept s (tickVector s') := by
  unfold tickVector
  repeat' first
    | with_reducible assumption | with_reducible apply kept_msi | with_reducible apply Kept.ite | split

/-! ## Delivery -/

theorem kept_cellGone {s s' : State} (q : Nat) (x : Queue) (bad : Bool) (h : Kept s s') : Kept s (cellGone q x bad s') := by
  unfold cellGone
  try dsimp only
  repeat' first
    | with_reducible assumption | with_reducible apply kept_settle | with_reducible apply kept_noteEvent
    | with_reducible apply Kept.ite | (fail_if_no_progress (with_reducible apply Kept.mk_of <;> try with_reducible rfl)) | split

theorem kept_eventForward {s s' : State} (c : Cell) (bad : Bad) (h : Kept s s') : Kept s (eventForward c bad s') := by
  unfold eventForward
  try dsimp only
  repeat' first
    | with_reducible assumption | with_reducible apply kept_modRing | with_reducible apply kept_publishFwd
    | (with_reducible refine Kept.foldl (fun t' a' h' => ?_) _ ?_ <;> (try dsimp only)) | with_reducible apply Kept.ite
    | (fail_if_no_progress (with_reducible apply Kept.mk_of <;> try with_reducible rfl)) | split

theorem kept_haltStop {s t : State} (d : t.phase = .draining) (h : Kept s t) : Kept s (haltStop t) :=
  ⟨h.pending, h.auto, h.cfg, h.count, h.lc, h.field, h.out, h.mem, fun w _ => h.halt w (.inl d), h.started, h.jump⟩

theorem kept_drainCheck {s t : State} (h : Kept s t) : Kept s (drainCheck t) := by
  unfold drainCheck
  split
  · rename_i d
    exact kept_haltStop (by simp_all) h
  · exact h

theorem kept_deliverRing {s s' : State} (r q : Nat) (c : Cell) (bad : Bad) (h : Kept s s') : Kept s (deliverRing r q c bad s') := by
  unfold deliverRing
  try dsimp only
  repeat' first
    | with_reducible assumption | with_reducible apply kept_modRing | with_reducible apply kept_ringWrite
    | (fail_if_no_progress (with_reducible apply Kept.mk_of <;> try with_reducible rfl))

theorem kept_lspStages {s s' : State}  (h : Kept s s') : Kept s (lspStages s') := by
  unfold lspStages
  try dsimp only
  repeat' first
    | with_reducible assumption | with_reducible apply kept_lspSettle
    | (fail_if_no_progress (with_reducible apply Kept.mk_of <;> try with_reducible rfl))

theorem kept_flushNow {s s' : State} (q : Nat) (h : Kept s s') : Kept s (flushNow q s') := by
  unfold flushNow
  try dsimp only
  repeat' first
    | with_reducible assumption | with_reducible apply kept_flushQueue | with_reducible apply kept_complete
    | with_reducible apply kept_lspSettle | (with_reducible refine Kept.foldl (fun t' a' h' => ?_) _ ?_ <;> (try dsimp only))
    | with_reducible apply Kept.ite | (fail_if_no_progress (with_reducible apply Kept.mk_of <;> try with_reducible rfl)) | split

/-! ## FaultRows -/

theorem kept_lineFollows {s s' : State} (line : Nat) (act : Bool) (ctx : List Byte) (h : Kept s s') : Kept s (lineFollows line act ctx s') := by
  unfold lineFollows
  try dsimp only
  repeat' first
    | with_reducible assumption | with_reducible apply kept_raise | with_reducible apply kept_clearSrc
    | with_reducible apply kept_setSrc | (with_reducible refine Kept.foldl (fun t' a' h' => ?_) _ ?_ <;> (try dsimp only))
    | with_reducible apply Kept.ite | split

/-! ## TimeRows -/

theorem kept_snapFrondIn {s s' : State} (cycles : Nat) (f : Nat) (h : Kept s s') : Kept s (snapFrondIn cycles s' f) := by
  unfold snapFrondIn
  try dsimp only
  repeat' first
    | with_reducible assumption | with_reducible apply kept_modFrond | with_reducible apply kept_sendOrder
    | with_reducible apply Kept.ite | (fail_if_no_progress (with_reducible apply Kept.mk_of <;> try with_reducible rfl)) | split

end Sys2Proof.Machine
end

