-- ==== Sys2Proof/Laws/Kept5.lean ====
section
/-! SUPPORT. The lemmas of Kept for the operations of Endpoint, RegRows, DescOps, DescRows, CommitRow, SecRows, NetRows, PowerRows. -/

set_option linter.unusedTactic false
set_option linter.unreachableTactic false

namespace Sys2Proof.Machine
open Sys2Proof

/-! ## Endpoint -/

theorem kept_msixWrite {s s' : State} (i : Nat) (v : Word) (h : Kept s s') : Kept s (msixWrite i v s') := by
  unfold msixWrite
  try dsimp only
  repeat' first
    | with_reducible assumption | with_reducible apply kept_msi | with_reducible apply Kept.ite
    | (fail_if_no_progress (with_reducible apply Kept.mk_of <;> try with_reducible rfl)) | split

theorem kept_bar2Write {s s' : State} (ofs : Nat) (v : Word) (h : Kept s s') : Kept s (bar2Write ofs v s') := by
  unfold bar2Write
  repeat' first
    | with_reducible assumption | with_reducible apply kept_doorbell | with_reducible apply kept_msixWrite
    | with_reducible apply Kept.ite | split

theorem kept_pciWrite {s s' : State} (ofs : Nat) (v : Word) (h : Kept s s') : Kept s (pciWrite ofs v s') := by
  unfold pciWrite
  try dsimp only
  repeat' first
    | with_reducible assumption | with_reducible apply kept_busMaster | with_reducible apply Kept.ite
    | (fail_if_no_progress (with_reducible apply Kept.mk_of <;> try with_reducible rfl)) | split

/-! ## RegRows -/

theorem kept_answer {s s' : State} (p : Path) (v : DWord) (h : Kept s s') : Kept s (answer p v s') := by
  unfold answer
  repeat' first
    | with_reducible assumption | with_reducible apply kept_outp | with_reducible apply Kept.ite | split

theorem kept_unsupported {s s' : State} (p : Path) (h : Kept s s') : Kept s (unsupported p s') := by
  unfold unsupported
  repeat' first
    | with_reducible assumption | with_reducible apply kept_outp | with_reducible apply Kept.ite | split

theorem kept_busSticky {s s' : State} (p : Path) (ofs : Nat) (v : Word) (hw : List (Nat × Word)) (h : Kept s s') : Kept s (busSticky p ofs v hw s') := by
  unfold busSticky
  repeat' first
    | with_reducible assumption | with_reducible apply kept_clearSticky | with_reducible apply Kept.ite | split

theorem kept_endpointWrite {s s' : State} (sp : Space) (p : Path) (ofs len : Nat) (v : DWord) (h : Kept s s') : Kept s (endpointWrite sp p ofs len v s') := by
  unfold endpointWrite
  repeat' first
    | with_reducible assumption | with_reducible apply kept_bar2Write | with_reducible apply kept_pciWrite
    | with_reducible apply kept_unsupported | with_reducible apply Kept.ite | split

theorem kept_endpointRead {s s' : State} (sp : Space) (p : Path) (ofs len : Nat) (h : Kept s s') : Kept s (endpointRead sp p ofs len s') := by
  unfold endpointRead
  repeat' first
    | with_reducible assumption | with_reducible apply kept_answer | with_reducible apply kept_unsupported
    | with_reducible apply Kept.ite | split

/-! ## DescOps -/

theorem kept_consumed {s s' : State}  (h : Kept s s') : Kept s (consumed s') := by
  unfold consumed
  try dsimp only
  repeat' first
    | with_reducible assumption | with_reducible apply kept_modRing
    | (fail_if_no_progress (with_reducible apply Kept.mk_of <;> try with_reducible rfl))

theorem kept_refuseDesc {s s' : State} (d : Desc) (status : Nat) (h : Kept s s') : Kept s (refuseDesc d status s') := by
  unfold refuseDesc
  repeat' first
    | with_reducible assumption | with_reducible apply kept_writeCpl | with_reducible apply kept_consumed

theorem kept_crcBad {s s' : State} (d : Desc) (h : Kept s s') : Kept s (crcBad d s') := by
  unfold crcBad
  repeat' first
    | with_reducible assumption | with_reducible apply kept_noteEvent | with_reducible apply kept_refuseDesc

theorem kept_acceptAlive {s s' : State} (d : Desc) (h : Kept s s') : Kept s (acceptAlive d s') := by
  unfold acceptAlive
  try dsimp only
  repeat' first
    | with_reducible assumption | (fail_if_no_progress (with_reducible apply Kept.mk_of <;> try with_reducible rfl))

theorem kept_startDesc {s s' : State} (d : Desc) (obj : Nat) (h : Kept s s') : Kept s (startDesc d obj s') := by
  unfold startDesc
  try dsimp only
  repeat' first
    | with_reducible assumption | with_reducible apply kept_consumed
    | (fail_if_no_progress (with_reducible apply Kept.mk_of <;> try with_reducible rfl))

theorem kept_takeDesc {s s' : State} (form : DescForm) (d : Desc) (act : Nat → State → State) (h_act : ∀ x0 {u : State}, Kept s u → Kept s (act x0 u)) (h : Kept s s') : Kept s (takeDesc form d act s') := by
  unfold takeDesc
  try dsimp only
  repeat' first
    | with_reducible assumption | with_reducible apply h_act | with_reducible apply kept_refuseDesc
    | with_reducible apply kept_crcBad | with_reducible apply kept_acceptAlive | with_reducible apply kept_startDesc
    | with_reducible apply Kept.ite | (fail_if_no_progress (with_reducible apply Kept.mk_of <;> try with_reducible rfl)) | split

theorem kept_stageFree {s s' : State} (r : PathRegs) (ofs : Nat) (v : Word) (h : Kept s s') : Kept s (stageFree r ofs v s') := by
  unfold stageFree
  try dsimp only
  repeat' first
    | with_reducible assumption | with_reducible apply kept_stage | with_reducible apply kept_basicWrite
    | (with_reducible refine Kept.foldl (fun t' a' h' => ?_) _ ?_ <;> (try dsimp only)) | with_reducible apply Kept.ite | split

theorem kept_dropPair {s s' : State} (c : CfgRun) (h : Kept s s') : Kept s (dropPair c s') := by
  unfold dropPair
  repeat' first
    | with_reducible assumption | with_reducible apply kept_integrity | split

theorem kept_cfgEntry {s : State} (a : CfgRun × State) (e : CfgEnt) (h : Kept s a.2) : Kept s (cfgEntry a e).2 := by
  obtain ⟨c, t⟩ := a
  unfold cfgEntry
  dsimp only at *
  repeat' first
    | assumption | with_reducible apply kept_integrity | with_reducible apply kept_dropPair | with_reducible apply kept_stageFree
    | with_reducible apply kept_markOfs | with_reducible apply kept_dropPairs | with_reducible apply kept_put64
    | (fail_if_no_progress (with_reducible apply Kept.mk_of <;> try with_reducible rfl)) | split

theorem kept_cfgApply {s t : State} (l : List CfgEnt) (h : Kept s t) : Kept s (cfgApply l t) := by
  have aux : ∀ (l : List CfgEnt) (p : CfgRun × State), Kept s p.2 → Kept s (l.foldl cfgEntry p).2 := by
    intro l
    induction l with
    | nil => exact fun _ k => k
    | cons c l ih => exact fun p k => ih _ (kept_cfgEntry p c k)
  unfold cfgApply
  exact kept_dropPair _ (aux l (_, t) h)

theorem kept_stageRules {s s' : State} (b : List Byte) (o first count : Nat) (h : Kept s s') : Kept s (stageRules b o first count s') := by
  unfold stageRules
  try dsimp only
  repeat' first
    | with_reducible assumption | with_reducible apply kept_stage
    | (with_reducible refine Kept.foldl (fun t' a' h' => ?_) _ ?_ <;> (try dsimp only))

theorem kept_stageEdges {s s' : State} (b : List Byte) (o ref : Nat) (h : Kept s s') : Kept s (stageEdges b o ref s') := by
  unfold stageEdges
  try dsimp only
  repeat' first
    | with_reducible assumption | with_reducible apply kept_stage
    | (with_reducible refine Kept.foldl (fun t' a' h' => ?_) _ ?_ <;> (try dsimp only))

/-! ## DescRows -/

theorem kept_cfgAct {s s' : State} (d : Desc) (id : Nat) (h : Kept s s') : Kept s (cfgAct d id s') := by
  unfold cfgAct
  try dsimp only
  repeat' first
    | with_reducible assumption | with_reducible apply kept_complete | with_reducible apply kept_cfgApply
    | with_reducible apply Kept.ite | split

theorem kept_ruleLoadAct {s s' : State} (d : Desc) (id : Nat) (h : Kept s s') : Kept s (ruleLoadAct d id s') := by
  unfold ruleLoadAct
  try dsimp only
  repeat' first
    | with_reducible assumption | with_reducible apply kept_complete | with_reducible apply kept_integrity
    | with_reducible apply kept_stageRules | with_reducible apply Kept.ite | split

theorem kept_snapAct {s s' : State} (d : Desc) (cycles id : Nat) (h : Kept s s') : Kept s (snapAct d cycles id s') := by
  unfold snapAct
  try dsimp only
  repeat' first
    | with_reducible assumption | with_reducible apply kept_modFrond | with_reducible apply kept_complete
    | with_reducible apply kept_sendOrder | with_reducible apply kept_sendDown
    | (with_reducible refine Kept.foldl (fun t' a' h' => ?_) _ ?_ <;> (try dsimp only)) | with_reducible apply Kept.ite
    | (fail_if_no_progress (with_reducible apply Kept.mk_of <;> try with_reducible rfl)) | split

theorem kept_outAct {s s' : State} (d : Desc) (id : Nat) (h : Kept s s') : Kept s (outAct d id s') := by
  unfold outAct
  try dsimp only
  repeat' first
    | with_reducible assumption | with_reducible apply kept_complete | with_reducible apply kept_integrity
    | with_reducible apply kept_queueOut | with_reducible apply Kept.ite | split

theorem kept_armAct {s s' : State} (d : Desc) (on : Bool) (id : Nat) (h : Kept s s') : Kept s (armAct d on id s') := by
  unfold armAct
  try dsimp only
  repeat' first
    | with_reducible assumption | with_reducible apply kept_complete | with_reducible apply kept_modCap
    | with_reducible apply Kept.ite | (fail_if_no_progress (with_reducible apply Kept.mk_of <;> try with_reducible rfl)) | split

theorem kept_triggerAct {s s' : State} (d : Desc) (cycles id : Nat) (h : Kept s s') : Kept s (triggerAct d cycles id s') := by
  unfold triggerAct
  try dsimp only
  repeat' first
    | with_reducible assumption | with_reducible apply kept_complete | with_reducible apply kept_capTrigger
    | with_reducible refine kept_capTrigger_eq (by assumption) ?_ | with_reducible apply Kept.ite | split

theorem kept_flushAct {s s' : State} (d : Desc) (id : Nat) (h : Kept s s') : Kept s (flushAct d id s') := by
  unfold flushAct
  try dsimp only
  repeat' first
    | with_reducible assumption | with_reducible apply kept_flushNow | with_reducible apply Kept.ite
    | (fail_if_no_progress (with_reducible apply Kept.mk_of <;> try with_reducible rfl)) | split

theorem kept_sendClear {s s' : State} (f pos : Nat) (did : Option Nat) (h : Kept s s') : Kept s (sendClear f pos did s') := by
  unfold sendClear
  try dsimp only
  repeat' first
    | with_reducible assumption | with_reducible apply kept_modFrond
    | (fail_if_no_progress (with_reducible apply Kept.mk_of <;> try with_reducible rfl))

theorem kept_clearFrondAct {s s' : State} (d : Desc) (id : Nat) (h : Kept s s') : Kept s (clearFrondAct d id s') := by
  unfold clearFrondAct
  try dsimp only
  repeat' first
    | with_reducible assumption | with_reducible apply kept_modFrond | with_reducible apply kept_complete
    | with_reducible apply kept_dropSrc | with_reducible apply kept_sendClear
    | (with_reducible refine Kept.foldl (fun t' a' h' => ?_) _ ?_ <;> (try dsimp only)) | with_reducible apply Kept.ite
    | (fail_if_no_progress (with_reducible apply Kept.mk_of <;> try with_reducible rfl)) | split

theorem kept_release {s s' : State} (x : Src) (fs : List Nat) (id : Nat) (h : Kept s s') : Kept s (release x fs id s') := by
  unfold release
  try dsimp only
  repeat' first
    | with_reducible assumption | with_reducible apply kept_modFrond | with_reducible apply kept_complete
    | with_reducible apply kept_sendClear | (with_reducible refine Kept.foldl (fun t' a' h' => ?_) _ ?_ <;> (try dsimp only))
    | with_reducible apply Kept.ite | (fail_if_no_progress (with_reducible apply Kept.mk_of <;> try with_reducible rfl)) | split

theorem kept_clearSourceAct {s s' : State} (d : Desc) (id : Nat) (h : Kept s s') : Kept s (clearSourceAct d id s') := by
  unfold clearSourceAct
  try dsimp only
  repeat' first
    | with_reducible assumption | with_reducible apply kept_complete | with_reducible apply kept_dropSrc
    | with_reducible apply kept_release | with_reducible apply Kept.ite
    | (fail_if_no_progress (with_reducible apply Kept.mk_of <;> try with_reducible rfl)) | split

theorem kept_clearLatchAct {s s' : State} (id : Nat) (h : Kept s s') : Kept s (clearLatchAct id s') := by
  unfold clearLatchAct
  try dsimp only
  repeat' first
    | with_reducible assumption | with_reducible apply kept_complete | with_reducible apply kept_faultRec
    | (fail_if_no_progress (with_reducible apply Kept.mk_of <;> try with_reducible rfl)) | split

/-! ## CommitRow -/

theorem kept_refuseCommit {s s' : State} (report max_ id : Nat) (l : List RepEnt) (h : Kept s s') : Kept s (refuseCommit report max_ id l s') := by
  unfold refuseCommit
  try dsimp only
  repeat' first
    | with_reducible assumption | with_reducible apply kept_outp | with_reducible apply kept_complete
    | with_reducible apply Kept.ite | split

theorem kept_acceptCommit {s s' : State} (t : TickNo) (excl written : Bool) (id : Nat) (items : List (Nat × List (Nat × Word))) (h : Kept s s') : Kept s (acceptCommit t excl written id items s') := by
  unfold acceptCommit
  try dsimp only
  repeat' first
    | with_reducible assumption | with_reducible apply kept_modFrond | with_reducible apply kept_clearSrc
    | with_reducible apply kept_takeTag | with_reducible refine kept_takeTag_eq (by assumption) ?_
    | (with_reducible refine Kept.foldl (fun t' a' h' => ?_) _ ?_ <;> (try dsimp only)) | with_reducible apply Kept.ite
    | (fail_if_no_progress (with_reducible apply Kept.mk_of <;> try with_reducible rfl)) | split

theorem kept_commitCore {s s' : State} (t report max_ : Nat) (excl : Bool) (id : Nat) (didx : Half) (h : Kept s s') : Kept s (commitCore t report max_ excl id didx s') := by
  unfold commitCore
  try dsimp only
  repeat' first
    | with_reducible assumption | with_reducible apply kept_complete | with_reducible apply kept_dropPairs
    | with_reducible apply kept_refuseCommit | with_reducible apply kept_acceptCommit | with_reducible apply Kept.ite
    | (fail_if_no_progress (with_reducible apply Kept.mk_of <;> try with_reducible rfl)) | split

/-! ## SecRows -/

theorem kept_useNonce {s s' : State}  (h : Kept s s') : Kept s (useNonce s') := by
  unfold useNonce
  try dsimp only
  repeat' first
    | with_reducible assumption | (fail_if_no_progress (with_reducible apply Kept.mk_of <;> try with_reducible rfl))

theorem kept_closeSessions {s s' : State}  (h : Kept s s') : Kept s (closeSessions s') := by
  unfold closeSessions
  try dsimp only
  repeat' first
    | with_reducible assumption | (fail_if_no_progress (with_reducible apply Kept.mk_of <;> try with_reducible rfl))

theorem kept_zeroise {s s' : State}  (h : Kept s s') : Kept s (zeroise s') := by
  unfold zeroise
  try dsimp only
  repeat' first
    | with_reducible assumption | with_reducible apply kept_macsecSrc
    | (fail_if_no_progress (with_reducible apply Kept.mk_of <;> try with_reducible rfl))

theorem kept_zeroiseVoid {s s' : State}  (h : Kept s s') : Kept s (zeroiseVoid s') := by
  unfold zeroiseVoid
  try dsimp only
  repeat' first
    | with_reducible assumption | with_reducible apply kept_zeroise
    | (fail_if_no_progress (with_reducible apply Kept.mk_of <;> try with_reducible rfl))

theorem kept_secGate {s s' : State} (op : Nat) (states : List Nat) (pre : State → Bool) (copyBad otpBad : Bool) (id : Nat) (act : State → State) (h_act : ∀ {u : State}, Kept s u → Kept s (act u)) (h : Kept s s') : Kept s (secGate op states pre copyBad otpBad id act s') := by
  unfold secGate
  try dsimp only
  repeat' first
    | with_reducible assumption | with_reducible apply h_act | with_reducible apply kept_complete
    | with_reducible apply kept_lifeCycleCheck | with_reducible apply Kept.ite | split

theorem kept_plainOp {s s' : State} (op : Nat) (pay : SecPay) (states : List Nat) (pre : State → Bool) (act : List Byte → Nat → State → State) (d : Desc) (copyBad otpBad : Bool) (h_act : ∀ x0 x1 {u : State}, Kept s u → Kept s (act x0 x1 u)) (h : Kept s s') : Kept s (plainOp op pay states pre act d copyBad otpBad s') := by
  unfold plainOp
  try dsimp only
  repeat' first
    | with_reducible assumption | with_reducible apply h_act | with_reducible apply kept_takeDesc
    | with_reducible apply kept_secGate | (intro _; intros; try dsimp only)

theorem kept_tokenOp {s s' : State} (op : Nat) (states : List Nat) (key : State → Nat) (pre : State → Bool) (act : List Byte → Nat → State → State) (d : Desc) (copyBad otpBad : Bool) (h_act : ∀ x0 x1 {u : State}, Kept s u → Kept s (act x0 x1 u)) (h : Kept s s') : Kept s (tokenOp op states key pre act d copyBad otpBad s') := by
  unfold tokenOp
  try dsimp only
  repeat' first
    | with_reducible assumption | with_reducible apply h_act | with_reducible apply kept_complete
    | with_reducible apply kept_authFailed | with_reducible apply kept_authPassed | with_reducible apply kept_useNonce
    | with_reducible apply kept_plainOp | with_reducible apply Kept.ite | split | (intro _; intros; try dsimp only)

theorem kept_secOut {s s' : State} (d : Desc) (data : List Byte) (id : Nat) (h : Kept s s') : Kept s (secOut d data id s') := by
  unfold secOut
  try dsimp only
  repeat' first
    | with_reducible assumption | with_reducible apply kept_outp | with_reducible apply kept_complete
    | with_reducible apply Kept.ite | split

theorem kept_keyInstall {s s' : State} (b : List Byte) (id : Nat) (h : Kept s s') : Kept s (keyInstall b id s') := by
  unfold keyInstall
  try dsimp only
  repeat' first
    | with_reducible assumption | with_reducible apply kept_complete | with_reducible apply kept_useNonce
    | with_reducible apply Kept.ite | (fail_if_no_progress (with_reducible apply Kept.mk_of <;> try with_reducible rfl)) | split

theorem kept_usePresence {s s' : State}  (h : Kept s s') : Kept s (usePresence s') := by
  unfold usePresence
  try dsimp only
  repeat' first
    | with_reducible assumption | (fail_if_no_progress (with_reducible apply Kept.mk_of <;> try with_reducible rfl))

theorem kept_fwChunk {s s' : State} (b : List Byte) (id : Nat) (h : Kept s s') : Kept s (fwChunk b id s') := by
  unfold fwChunk
  try dsimp only
  repeat' first
    | with_reducible assumption | with_reducible apply kept_complete | with_reducible apply kept_authFailed
    | with_reducible apply kept_authPassed | with_reducible apply Kept.ite
    | (fail_if_no_progress (with_reducible apply Kept.mk_of <;> try with_reducible rfl)) | split | rfl

theorem kept_cryptoError {s s' : State}  (h : Kept s s') : Kept s (cryptoError s') := by
  unfold cryptoError
  try dsimp only
  repeat' first
    | with_reducible assumption | with_reducible apply kept_secBreak | with_reducible apply kept_closeSessions
    | (fail_if_no_progress (with_reducible apply Kept.mk_of <;> try with_reducible rfl))

theorem kept_stageNet {s s' : State} (body : List Byte) (h : Kept s s') : Kept s (stageNet body s') := by
  unfold stageNet
  try dsimp only
  repeat' first
    | with_reducible assumption | with_reducible apply kept_stage
    | (with_reducible refine Kept.foldl (fun t' a' h' => ?_) _ ?_ <;> (try dsimp only))

theorem kept_stageBlob {s s' : State} (b : List Byte) (p : BlobParts) (h : Kept s s') : Kept s (stageBlob b p s') := by
  unfold stageBlob
  try dsimp only
  repeat' first
    | with_reducible assumption | with_reducible apply kept_cfgApply | with_reducible apply kept_stageRules
    | with_reducible apply kept_stageEdges | with_reducible apply kept_stageNet
    | (with_reducible refine Kept.foldl (fun t' a' h' => ?_) _ ?_ <;> (try dsimp only))

theorem kept_blobAct {s s' : State} (d : Desc) (id : Nat) (h : Kept s s') : Kept s (blobAct d id s') := by
  unfold blobAct
  try dsimp only
  repeat' first
    | with_reducible assumption | with_reducible apply kept_modOut | with_reducible apply kept_complete
    | with_reducible apply kept_integrity | with_reducible apply kept_authFailed | with_reducible apply kept_authPassed
    | with_reducible apply kept_stageBlob | with_reducible apply Kept.ite
    | (fail_if_no_progress (with_reducible apply Kept.mk_of <;> try with_reducible rfl)) | split

/-! ## NetRows -/

theorem kept_ethSrc {s s' : State} (p : Nat) (h : Kept s s') : Kept s (ethSrc p s') := by
  unfold ethSrc
  repeat' first
    | with_reducible assumption | with_reducible apply kept_setSrc

theorem kept_setView {s s' : State} (v : TimeView) (h : Kept s s') : Kept s (setView v s') := by
  unfold setView
  try dsimp only
  repeat' first
    | with_reducible assumption | (fail_if_no_progress (with_reducible apply Kept.mk_of <;> try with_reducible rfl))

theorem kept_learn {s s' : State} (p : Nat) (m : Nat) (h : Kept s s') : Kept s (learn p m s') := by
  unfold learn
  try dsimp only
  repeat' first
    | with_reducible assumption | with_reducible apply Kept.ite
    | (fail_if_no_progress (with_reducible apply Kept.mk_of <;> try with_reducible rfl)) | split

theorem kept_toSelf {s s' : State} (p : Nat) (b : List Byte) (h : Kept s s') : Kept s (toSelf p b s') := by
  unfold toSelf
  try dsimp only
  repeat' first
    | with_reducible assumption | with_reducible apply kept_outp | with_reducible apply kept_sendPort
    | with_reducible apply kept_gateFlush | with_reducible apply Kept.ite
    | (fail_if_no_progress (with_reducible apply Kept.mk_of <;> try with_reducible rfl)) | split

theorem kept_switchFrame {s s' : State} (p : Nat) (b : List Byte) (h : Kept s s') : Kept s (switchFrame p b s') := by
  unfold switchFrame
  try dsimp only
  repeat' first
    | with_reducible assumption | with_reducible apply kept_sendPort | with_reducible apply kept_learn
    | with_reducible apply kept_toSelf | with_reducible apply Kept.ite | split

theorem kept_request {s s' : State} (id kind sq : Nat) (ownerOnly : Bool) (act : State → State) (h_act : ∀ {u : State}, Kept s u → Kept s (act u)) (h : Kept s s') : Kept s (request id kind sq ownerOnly act s') := by
  unfold request
  try dsimp only
  repeat' first
    | with_reducible assumption | with_reducible apply h_act | with_reducible apply kept_replyTo | with_reducible apply Kept.ite
    | split

/-! ## PowerRows -/

theorem kept_safeAll {s s' : State}  (h : Kept s s') : Kept s (safeAll s') := by
  unfold safeAll
  try dsimp only
  repeat' first
    | with_reducible assumption | with_reducible apply kept_sendOrder
    | (with_reducible refine Kept.foldl (fun t' a' h' => ?_) _ ?_ <;> (try dsimp only))

theorem kept_linkSource {s s' : State}  (h : Kept s s') : Kept s (linkSource s') := by
  unfold linkSource
  try dsimp only
  repeat' first
    | with_reducible assumption | with_reducible apply kept_setSrc | with_reducible apply Kept.ite | split

theorem kept_trainLink {s s' : State} (l : LinkIn) (h : Kept s s') : Kept s (trainLink l s') := by
  unfold trainLink
  try dsimp only
  repeat' first
    | with_reducible assumption | with_reducible apply kept_linkSource | with_reducible apply Kept.ite
    | (fail_if_no_progress (with_reducible apply Kept.mk_of <;> try with_reducible rfl)) | split

theorem kept_chooseImage {s s' : State}  (h : Kept s s') : Kept s (chooseImage s') := by
  unfold chooseImage
  try dsimp only
  repeat' first
    | with_reducible assumption | with_reducible apply kept_securityHalt | with_reducible apply Kept.ite
    | (fail_if_no_progress (with_reducible apply Kept.mk_of <;> try with_reducible rfl)) | split

theorem kept_phaseSrc {s s' : State} (ph : Nat) (h : Kept s s') : Kept s (phaseSrc ph s') := by
  unfold phaseSrc
  repeat' first
    | with_reducible assumption | with_reducible apply kept_setSrc | with_reducible apply Kept.ite | split

theorem kept_mpRings {s s' : State}  (h : Kept s s') : Kept s (mpRings s') := by
  unfold mpRings
  try dsimp only
  repeat' first
    | with_reducible assumption | with_reducible apply kept_modRing | with_reducible apply kept_enableRing
    | (with_reducible refine Kept.foldl (fun t' a' h' => ?_) _ ?_ <;> (try dsimp only))
    | (fail_if_no_progress (with_reducible apply Kept.mk_of <;> try with_reducible rfl))

end Sys2Proof.Machine
end

