-- ==== Sys2Proof/Laws/State.lean ====
section
/-! SUPPORT. What each field of State holds after each of the named updates. -/

namespace Sys2Proof.Machine
open Sys2Proof

/-! ## outp. The outbox gets one more output. -/

@[simp] theorem outp_pending (o : Output) (s : State) : (outp o s).pending = s.pending := rfl
@[simp] theorem outp_outbox (o : Output) (s : State) : (outp o s).outbox = o :: s.outbox := rfl
@[simp] theorem outp_phase (o : Output) (s : State) : (outp o s).phase = s.phase := rfl
@[simp] theorem outp_auto (o : Output) (s : State) : (outp o s).auto = s.auto := rfl
@[simp] theorem outp_tm (o : Output) (s : State) : (outp o s).tm = s.tm := rfl
@[simp] theorem outp_staged (o : Output) (s : State) : (outp o s).staged = s.staged := rfl
@[simp] theorem outp_cfg (o : Output) (s : State) : (outp o s).cfg = s.cfg := rfl
@[simp] theorem outp_pcie (o : Output) (s : State) : (outp o s).pcie = s.pcie := rfl
@[simp] theorem outp_mp (o : Output) (s : State) : (outp o s).mp = s.mp := rfl
@[simp] theorem outp_rwp (o : Output) (s : State) : (outp o s).rwp = s.rwp := rfl
@[simp] theorem outp_scratch (o : Output) (s : State) : (outp o s).scratch = s.scratch := rfl
@[simp] theorem outp_lockedWr (o : Output) (s : State) : (outp o s).lockedWr = s.lockedWr := rfl
@[simp] theorem outp_orphan (o : Output) (s : State) : (outp o s).orphan = s.orphan := rfl
@[simp] theorem outp_wrOfs (o : Output) (s : State) : (outp o s).wrOfs = s.wrOfs := rfl
@[simp] theorem outp_torn (o : Output) (s : State) : (outp o s).torn = s.torn := rfl
@[simp] theorem outp_tornOfs (o : Output) (s : State) : (outp o s).tornOfs = s.tornOfs := rfl
@[simp] theorem outp_queues (o : Output) (s : State) : (outp o s).queues = s.queues := rfl
@[simp] theorem outp_reserve (o : Output) (s : State) : (outp o s).reserve = s.reserve := rfl
@[simp] theorem outp_rings (o : Output) (s : State) : (outp o s).rings = s.rings := rfl
@[simp] theorem outp_expAlive (o : Output) (s : State) : (outp o s).expAlive = s.expAlive := rfl
@[simp] theorem outp_lastAlive (o : Output) (s : State) : (outp o s).lastAlive = s.lastAlive := rfl
@[simp] theorem outp_outs (o : Output) (s : State) : (outp o s).outs = s.outs := rfl
@[simp] theorem outp_nextId (o : Output) (s : State) : (outp o s).nextId = s.nextId := rfl
@[simp] theorem outp_stsBase (o : Output) (s : State) : (outp o s).stsBase = s.stsBase := rfl
@[simp] theorem outp_tickIrq (o : Output) (s : State) : (outp o s).tickIrq = s.tickIrq := rfl
@[simp] theorem outp_tickDiv (o : Output) (s : State) : (outp o s).tickDiv = s.tickDiv := rfl
@[simp] theorem outp_dberr (o : Output) (s : State) : (outp o s).dberr = s.dberr := rfl
@[simp] theorem outp_dbOfs (o : Output) (s : State) : (outp o s).dbOfs = s.dbOfs := rfl
@[simp] theorem outp_bme (o : Output) (s : State) : (outp o s).bme = s.bme := rfl
@[simp] theorem outp_msix (o : Output) (s : State) : (outp o s).msix = s.msix := rfl
@[simp] theorem outp_cvu (o : Output) (s : State) : (outp o s).cvu = s.cvu := rfl
@[simp] theorem outp_lsp (o : Output) (s : State) : (outp o s).lsp = s.lsp := rfl
@[simp] theorem outp_srcs (o : Output) (s : State) : (outp o s).srcs = s.srcs := rfl
@[simp] theorem outp_latch (o : Output) (s : State) : (outp o s).latch = s.latch := rfl
@[simp] theorem outp_latchSeq (o : Output) (s : State) : (outp o s).latchSeq = s.latchSeq := rfl
@[simp] theorem outp_overflow (o : Output) (s : State) : (outp o s).overflow = s.overflow := rfl
@[simp] theorem outp_fltCount (o : Output) (s : State) : (outp o s).fltCount = s.fltCount := rfl
@[simp] theorem outp_shadows (o : Output) (s : State) : (outp o s).shadows = s.shadows := rfl
@[simp] theorem outp_noted (o : Output) (s : State) : (outp o s).noted = s.noted := rfl
@[simp] theorem outp_alive (o : Output) (s : State) : (outp o s).alive = s.alive := rfl
@[simp] theorem outp_pend (o : Output) (s : State) : (outp o s).pend = s.pend := rfl
@[simp] theorem outp_fronds (o : Output) (s : State) : (outp o s).fronds = s.fronds := rfl
@[simp] theorem outp_field (o : Output) (s : State) : (outp o s).field = s.field := rfl
@[simp] theorem outp_chans (o : Output) (s : State) : (outp o s).chans = s.chans := rfl
@[simp] theorem outp_badPaths (o : Output) (s : State) : (outp o s).badPaths = s.badPaths := rfl
@[simp] theorem outp_boundary (o : Output) (s : State) : (outp o s).boundary = s.boundary := rfl
@[simp] theorem outp_snaps (o : Output) (s : State) : (outp o s).snaps = s.snaps := rfl
@[simp] theorem outp_sumDone (o : Output) (s : State) : (outp o s).sumDone = s.sumDone := rfl
@[simp] theorem outp_sumSnap (o : Output) (s : State) : (outp o s).sumSnap = s.sumSnap := rfl
@[simp] theorem outp_sumEpoch (o : Output) (s : State) : (outp o s).sumEpoch = s.sumEpoch := rfl
@[simp] theorem outp_sumNext (o : Output) (s : State) : (outp o s).sumNext = s.sumNext := rfl
@[simp] theorem outp_sumNextEp (o : Output) (s : State) : (outp o s).sumNextEp = s.sumNextEp := rfl
@[simp] theorem outp_latNow (o : Output) (s : State) : (outp o s).latNow = s.latNow := rfl
@[simp] theorem outp_abs (o : Output) (s : State) : (outp o s).abs = s.abs := rfl
@[simp] theorem outp_absPrev (o : Output) (s : State) : (outp o s).absPrev = s.absPrev := rfl
@[simp] theorem outp_plans (o : Output) (s : State) : (outp o s).plans = s.plans := rfl
@[simp] theorem outp_blocks (o : Output) (s : State) : (outp o s).blocks = s.blocks := rfl
@[simp] theorem outp_feats (o : Output) (s : State) : (outp o s).feats = s.feats := rfl
@[simp] theorem outp_sliceRun (o : Output) (s : State) : (outp o s).sliceRun = s.sliceRun := rfl
@[simp] theorem outp_refs (o : Output) (s : State) : (outp o s).refs = s.refs := rfl
@[simp] theorem outp_map (o : Output) (s : State) : (outp o s).map = s.map := rfl
@[simp] theorem outp_caps (o : Output) (s : State) : (outp o s).caps = s.caps := rfl
@[simp] theorem outp_rules (o : Output) (s : State) : (outp o s).rules = s.rules := rfl
@[simp] theorem outp_rulEval (o : Output) (s : State) : (outp o s).rulEval = s.rulEval := rfl
@[simp] theorem outp_wrSince (o : Output) (s : State) : (outp o s).wrSince = s.wrSince := rfl
@[simp] theorem outp_pwr (o : Output) (s : State) : (outp o s).pwr = s.pwr := rfl
@[simp] theorem outp_bud (o : Output) (s : State) : (outp o s).bud = s.bud := rfl
@[simp] theorem outp_sec (o : Output) (s : State) : (outp o s).sec = s.sec := rfl
@[simp] theorem outp_net (o : Output) (s : State) : (outp o s).net = s.net := rfl
@[simp] theorem outp_xfers (o : Output) (s : State) : (outp o s).xfers = s.xfers := rfl

/-! ## modFrond. The core's state of a frond. -/

@[simp] theorem modFrond_pending (f : Nat) (g : CFrond → CFrond) (s : State) : (modFrond f g s).pending = s.pending := rfl
@[simp] theorem modFrond_outbox (f : Nat) (g : CFrond → CFrond) (s : State) : (modFrond f g s).outbox = s.outbox := rfl
@[simp] theorem modFrond_phase (f : Nat) (g : CFrond → CFrond) (s : State) : (modFrond f g s).phase = s.phase := rfl
@[simp] theorem modFrond_auto (f : Nat) (g : CFrond → CFrond) (s : State) : (modFrond f g s).auto = s.auto := rfl
@[simp] theorem modFrond_tm (f : Nat) (g : CFrond → CFrond) (s : State) : (modFrond f g s).tm = s.tm := rfl
@[simp] theorem modFrond_staged (f : Nat) (g : CFrond → CFrond) (s : State) : (modFrond f g s).staged = s.staged := rfl
@[simp] theorem modFrond_cfg (f : Nat) (g : CFrond → CFrond) (s : State) : (modFrond f g s).cfg = s.cfg := rfl
@[simp] theorem modFrond_pcie (f : Nat) (g : CFrond → CFrond) (s : State) : (modFrond f g s).pcie = s.pcie := rfl
@[simp] theorem modFrond_mp (f : Nat) (g : CFrond → CFrond) (s : State) : (modFrond f g s).mp = s.mp := rfl
@[simp] theorem modFrond_rwp (f : Nat) (g : CFrond → CFrond) (s : State) : (modFrond f g s).rwp = s.rwp := rfl
@[simp] theorem modFrond_scratch (f : Nat) (g : CFrond → CFrond) (s : State) : (modFrond f g s).scratch = s.scratch := rfl
@[simp] theorem modFrond_lockedWr (f : Nat) (g : CFrond → CFrond) (s : State) : (modFrond f g s).lockedWr = s.lockedWr := rfl
@[simp] theorem modFrond_orphan (f : Nat) (g : CFrond → CFrond) (s : State) : (modFrond f g s).orphan = s.orphan := rfl
@[simp] theorem modFrond_wrOfs (f : Nat) (g : CFrond → CFrond) (s : State) : (modFrond f g s).wrOfs = s.wrOfs := rfl
@[simp] theorem modFrond_torn (f : Nat) (g : CFrond → CFrond) (s : State) : (modFrond f g s).torn = s.torn := rfl
@[simp] theorem modFrond_tornOfs (f : Nat) (g : CFrond → CFrond) (s : State) : (modFrond f g s).tornOfs = s.tornOfs := rfl
@[simp] theorem modFrond_queues (f : Nat) (g : CFrond → CFrond) (s : State) : (modFrond f g s).queues = s.queues := rfl
@[simp] theorem modFrond_reserve (f : Nat) (g : CFrond → CFrond) (s : State) : (modFrond f g s).reserve = s.reserve := rfl
@[simp] theorem modFrond_rings (f : Nat) (g : CFrond → CFrond) (s : State) : (modFrond f g s).rings = s.rings := rfl
@[simp] theorem modFrond_expAlive (f : Nat) (g : CFrond → CFrond) (s : State) : (modFrond f g s).expAlive = s.expAlive := rfl
@[simp] theorem modFrond_lastAlive (f : Nat) (g : CFrond → CFrond) (s : State) : (modFrond f g s).lastAlive = s.lastAlive := rfl
@[simp] theorem modFrond_outs (f : Nat) (g : CFrond → CFrond) (s : State) : (modFrond f g s).outs = s.outs := rfl
@[simp] theorem modFrond_nextId (f : Nat) (g : CFrond → CFrond) (s : State) : (modFrond f g s).nextId = s.nextId := rfl
@[simp] theorem modFrond_stsBase (f : Nat) (g : CFrond → CFrond) (s : State) : (modFrond f g s).stsBase = s.stsBase := rfl
@[simp] theorem modFrond_tickIrq (f : Nat) (g : CFrond → CFrond) (s : State) : (modFrond f g s).tickIrq = s.tickIrq := rfl
@[simp] theorem modFrond_tickDiv (f : Nat) (g : CFrond → CFrond) (s : State) : (modFrond f g s).tickDiv = s.tickDiv := rfl
@[simp] theorem modFrond_dberr (f : Nat) (g : CFrond → CFrond) (s : State) : (modFrond f g s).dberr = s.dberr := rfl
@[simp] theorem modFrond_dbOfs (f : Nat) (g : CFrond → CFrond) (s : State) : (modFrond f g s).dbOfs = s.dbOfs := rfl
@[simp] theorem modFrond_bme (f : Nat) (g : CFrond → CFrond) (s : State) : (modFrond f g s).bme = s.bme := rfl
@[simp] theorem modFrond_msix (f : Nat) (g : CFrond → CFrond) (s : State) : (modFrond f g s).msix = s.msix := rfl
@[simp] theorem modFrond_cvu (f : Nat) (g : CFrond → CFrond) (s : State) : (modFrond f g s).cvu = s.cvu := rfl
@[simp] theorem modFrond_lsp (f : Nat) (g : CFrond → CFrond) (s : State) : (modFrond f g s).lsp = s.lsp := rfl
@[simp] theorem modFrond_srcs (f : Nat) (g : CFrond → CFrond) (s : State) : (modFrond f g s).srcs = s.srcs := rfl
@[simp] theorem modFrond_latch (f : Nat) (g : CFrond → CFrond) (s : State) : (modFrond f g s).latch = s.latch := rfl
@[simp] theorem modFrond_latchSeq (f : Nat) (g : CFrond → CFrond) (s : State) : (modFrond f g s).latchSeq = s.latchSeq := rfl
@[simp] theorem modFrond_overflow (f : Nat) (g : CFrond → CFrond) (s : State) : (modFrond f g s).overflow = s.overflow := rfl
@[simp] theorem modFrond_fltCount (f : Nat) (g : CFrond → CFrond) (s : State) : (modFrond f g s).fltCount = s.fltCount := rfl
@[simp] theorem modFrond_shadows (f : Nat) (g : CFrond → CFrond) (s : State) : (modFrond f g s).shadows = s.shadows := rfl
@[simp] theorem modFrond_noted (f : Nat) (g : CFrond → CFrond) (s : State) : (modFrond f g s).noted = s.noted := rfl
@[simp] theorem modFrond_alive (f : Nat) (g : CFrond → CFrond) (s : State) : (modFrond f g s).alive = s.alive := rfl
@[simp] theorem modFrond_pend (f : Nat) (g : CFrond → CFrond) (s : State) : (modFrond f g s).pend = s.pend := rfl
@[simp] theorem modFrond_fronds (f : Nat) (g : CFrond → CFrond) (s : State) : (modFrond f g s).fronds = tmod {} s.fronds f g := rfl
@[simp] theorem modFrond_field (f : Nat) (g : CFrond → CFrond) (s : State) : (modFrond f g s).field = s.field := rfl
@[simp] theorem modFrond_chans (f : Nat) (g : CFrond → CFrond) (s : State) : (modFrond f g s).chans = s.chans := rfl
@[simp] theorem modFrond_badPaths (f : Nat) (g : CFrond → CFrond) (s : State) : (modFrond f g s).badPaths = s.badPaths := rfl
@[simp] theorem modFrond_boundary (f : Nat) (g : CFrond → CFrond) (s : State) : (modFrond f g s).boundary = s.boundary := rfl
@[simp] theorem modFrond_snaps (f : Nat) (g : CFrond → CFrond) (s : State) : (modFrond f g s).snaps = s.snaps := rfl
@[simp] theorem modFrond_sumDone (f : Nat) (g : CFrond → CFrond) (s : State) : (modFrond f g s).sumDone = s.sumDone := rfl
@[simp] theorem modFrond_sumSnap (f : Nat) (g : CFrond → CFrond) (s : State) : (modFrond f g s).sumSnap = s.sumSnap := rfl
@[simp] theorem modFrond_sumEpoch (f : Nat) (g : CFrond → CFrond) (s : State) : (modFrond f g s).sumEpoch = s.sumEpoch := rfl
@[simp] theorem modFrond_sumNext (f : Nat) (g : CFrond → CFrond) (s : State) : (modFrond f g s).sumNext = s.sumNext := rfl
@[simp] theorem modFrond_sumNextEp (f : Nat) (g : CFrond → CFrond) (s : State) : (modFrond f g s).sumNextEp = s.sumNextEp := rfl
@[simp] theorem modFrond_latNow (f : Nat) (g : CFrond → CFrond) (s : State) : (modFrond f g s).latNow = s.latNow := rfl
@[simp] theorem modFrond_abs (f : Nat) (g : CFrond → CFrond) (s : State) : (modFrond f g s).abs = s.abs := rfl
@[simp] theorem modFrond_absPrev (f : Nat) (g : CFrond → CFrond) (s : State) : (modFrond f g s).absPrev = s.absPrev := rfl
@[simp] theorem modFrond_plans (f : Nat) (g : CFrond → CFrond) (s : State) : (modFrond f g s).plans = s.plans := rfl
@[simp] theorem modFrond_blocks (f : Nat) (g : CFrond → CFrond) (s : State) : (modFrond f g s).blocks = s.blocks := rfl
@[simp] theorem modFrond_feats (f : Nat) (g : CFrond → CFrond) (s : State) : (modFrond f g s).feats = s.feats := rfl
@[simp] theorem modFrond_sliceRun (f : Nat) (g : CFrond → CFrond) (s : State) : (modFrond f g s).sliceRun = s.sliceRun := rfl
@[simp] theorem modFrond_refs (f : Nat) (g : CFrond → CFrond) (s : State) : (modFrond f g s).refs = s.refs := rfl
@[simp] theorem modFrond_map (f : Nat) (g : CFrond → CFrond) (s : State) : (modFrond f g s).map = s.map := rfl
@[simp] theorem modFrond_caps (f : Nat) (g : CFrond → CFrond) (s : State) : (modFrond f g s).caps = s.caps := rfl
@[simp] theorem modFrond_rules (f : Nat) (g : CFrond → CFrond) (s : State) : (modFrond f g s).rules = s.rules := rfl
@[simp] theorem modFrond_rulEval (f : Nat) (g : CFrond → CFrond) (s : State) : (modFrond f g s).rulEval = s.rulEval := rfl
@[simp] theorem modFrond_wrSince (f : Nat) (g : CFrond → CFrond) (s : State) : (modFrond f g s).wrSince = s.wrSince := rfl
@[simp] theorem modFrond_pwr (f : Nat) (g : CFrond → CFrond) (s : State) : (modFrond f g s).pwr = s.pwr := rfl
@[simp] theorem modFrond_bud (f : Nat) (g : CFrond → CFrond) (s : State) : (modFrond f g s).bud = s.bud := rfl
@[simp] theorem modFrond_sec (f : Nat) (g : CFrond → CFrond) (s : State) : (modFrond f g s).sec = s.sec := rfl
@[simp] theorem modFrond_net (f : Nat) (g : CFrond → CFrond) (s : State) : (modFrond f g s).net = s.net := rfl
@[simp] theorem modFrond_xfers (f : Nat) (g : CFrond → CFrond) (s : State) : (modFrond f g s).xfers = s.xfers := rfl

/-! ## modField. A frond itself. -/

@[simp] theorem modField_pending (f : Nat) (g : Frond → Frond) (s : State) : (modField f g s).pending = s.pending := rfl
@[simp] theorem modField_outbox (f : Nat) (g : Frond → Frond) (s : State) : (modField f g s).outbox = s.outbox := rfl
@[simp] theorem modField_phase (f : Nat) (g : Frond → Frond) (s : State) : (modField f g s).phase = s.phase := rfl
@[simp] theorem modField_auto (f : Nat) (g : Frond → Frond) (s : State) : (modField f g s).auto = s.auto := rfl
@[simp] theorem modField_tm (f : Nat) (g : Frond → Frond) (s : State) : (modField f g s).tm = s.tm := rfl
@[simp] theorem modField_staged (f : Nat) (g : Frond → Frond) (s : State) : (modField f g s).staged = s.staged := rfl
@[simp] theorem modField_cfg (f : Nat) (g : Frond → Frond) (s : State) : (modField f g s).cfg = s.cfg := rfl
@[simp] theorem modField_pcie (f : Nat) (g : Frond → Frond) (s : State) : (modField f g s).pcie = s.pcie := rfl
@[simp] theorem modField_mp (f : Nat) (g : Frond → Frond) (s : State) : (modField f g s).mp = s.mp := rfl
@[simp] theorem modField_rwp (f : Nat) (g : Frond → Frond) (s : State) : (modField f g s).rwp = s.rwp := rfl
@[simp] theorem modField_scratch (f : Nat) (g : Frond → Frond) (s : State) : (modField f g s).scratch = s.scratch := rfl
@[simp] theorem modField_lockedWr (f : Nat) (g : Frond → Frond) (s : State) : (modField f g s).lockedWr = s.lockedWr := rfl
@[simp] theorem modField_orphan (f : Nat) (g : Frond → Frond) (s : State) : (modField f g s).orphan = s.orphan := rfl
@[simp] theorem modField_wrOfs (f : Nat) (g : Frond → Frond) (s : State) : (modField f g s).wrOfs = s.wrOfs := rfl
@[simp] theorem modField_torn (f : Nat) (g : Frond → Frond) (s : State) : (modField f g s).torn = s.torn := rfl
@[simp] theorem modField_tornOfs (f : Nat) (g : Frond → Frond) (s : State) : (modField f g s).tornOfs = s.tornOfs := rfl
@[simp] theorem modField_queues (f : Nat) (g : Frond → Frond) (s : State) : (modField f g s).queues = s.queues := rfl
@[simp] theorem modField_reserve (f : Nat) (g : Frond → Frond) (s : State) : (modField f g s).reserve = s.reserve := rfl
@[simp] theorem modField_rings (f : Nat) (g : Frond → Frond) (s : State) : (modField f g s).rings = s.rings := rfl
@[simp] theorem modField_expAlive (f : Nat) (g : Frond → Frond) (s : State) : (modField f g s).expAlive = s.expAlive := rfl
@[simp] theorem modField_lastAlive (f : Nat) (g : Frond → Frond) (s : State) : (modField f g s).lastAlive = s.lastAlive := rfl
@[simp] theorem modField_outs (f : Nat) (g : Frond → Frond) (s : State) : (modField f g s).outs = s.outs := rfl
@[simp] theorem modField_nextId (f : Nat) (g : Frond → Frond) (s : State) : (modField f g s).nextId = s.nextId := rfl
@[simp] theorem modField_stsBase (f : Nat) (g : Frond → Frond) (s : State) : (modField f g s).stsBase = s.stsBase := rfl
@[simp] theorem modField_tickIrq (f : Nat) (g : Frond → Frond) (s : State) : (modField f g s).tickIrq = s.tickIrq := rfl
@[simp] theorem modField_tickDiv (f : Nat) (g : Frond → Frond) (s : State) : (modField f g s).tickDiv = s.tickDiv := rfl
@[simp] theorem modField_dberr (f : Nat) (g : Frond → Frond) (s : State) : (modField f g s).dberr = s.dberr := rfl
@[simp] theorem modField_dbOfs (f : Nat) (g : Frond → Frond) (s : State) : (modField f g s).dbOfs = s.dbOfs := rfl
@[simp] theorem modField_bme (f : Nat) (g : Frond → Frond) (s : State) : (modField f g s).bme = s.bme := rfl
@[simp] theorem modField_msix (f : Nat) (g : Frond → Frond) (s : State) : (modField f g s).msix = s.msix := rfl
@[simp] theorem modField_cvu (f : Nat) (g : Frond → Frond) (s : State) : (modField f g s).cvu = s.cvu := rfl
@[simp] theorem modField_lsp (f : Nat) (g : Frond → Frond) (s : State) : (modField f g s).lsp = s.lsp := rfl
@[simp] theorem modField_srcs (f : Nat) (g : Frond → Frond) (s : State) : (modField f g s).srcs = s.srcs := rfl
@[simp] theorem modField_latch (f : Nat) (g : Frond → Frond) (s : State) : (modField f g s).latch = s.latch := rfl
@[simp] theorem modField_latchSeq (f : Nat) (g : Frond → Frond) (s : State) : (modField f g s).latchSeq = s.latchSeq := rfl
@[simp] theorem modField_overflow (f : Nat) (g : Frond → Frond) (s : State) : (modField f g s).overflow = s.overflow := rfl
@[simp] theorem modField_fltCount (f : Nat) (g : Frond → Frond) (s : State) : (modField f g s).fltCount = s.fltCount := rfl
@[simp] theorem modField_shadows (f : Nat) (g : Frond → Frond) (s : State) : (modField f g s).shadows = s.shadows := rfl
@[simp] theorem modField_noted (f : Nat) (g : Frond → Frond) (s : State) : (modField f g s).noted = s.noted := rfl
@[simp] theorem modField_alive (f : Nat) (g : Frond → Frond) (s : State) : (modField f g s).alive = s.alive := rfl
@[simp] theorem modField_pend (f : Nat) (g : Frond → Frond) (s : State) : (modField f g s).pend = s.pend := rfl
@[simp] theorem modField_fronds (f : Nat) (g : Frond → Frond) (s : State) : (modField f g s).fronds = s.fronds := rfl
@[simp] theorem modField_field (f : Nat) (g : Frond → Frond) (s : State) : (modField f g s).field = tmod {} s.field f g := rfl
@[simp] theorem modField_chans (f : Nat) (g : Frond → Frond) (s : State) : (modField f g s).chans = s.chans := rfl
@[simp] theorem modField_badPaths (f : Nat) (g : Frond → Frond) (s : State) : (modField f g s).badPaths = s.badPaths := rfl
@[simp] theorem modField_boundary (f : Nat) (g : Frond → Frond) (s : State) : (modField f g s).boundary = s.boundary := rfl
@[simp] theorem modField_snaps (f : Nat) (g : Frond → Frond) (s : State) : (modField f g s).snaps = s.snaps := rfl
@[simp] theorem modField_sumDone (f : Nat) (g : Frond → Frond) (s : State) : (modField f g s).sumDone = s.sumDone := rfl
@[simp] theorem modField_sumSnap (f : Nat) (g : Frond → Frond) (s : State) : (modField f g s).sumSnap = s.sumSnap := rfl
@[simp] theorem modField_sumEpoch (f : Nat) (g : Frond → Frond) (s : State) : (modField f g s).sumEpoch = s.sumEpoch := rfl
@[simp] theorem modField_sumNext (f : Nat) (g : Frond → Frond) (s : State) : (modField f g s).sumNext = s.sumNext := rfl
@[simp] theorem modField_sumNextEp (f : Nat) (g : Frond → Frond) (s : State) : (modField f g s).sumNextEp = s.sumNextEp := rfl
@[simp] theorem modField_latNow (f : Nat) (g : Frond → Frond) (s : State) : (modField f g s).latNow = s.latNow := rfl
@[simp] theorem modField_abs (f : Nat) (g : Frond → Frond) (s : State) : (modField f g s).abs = s.abs := rfl
@[simp] theorem modField_absPrev (f : Nat) (g : Frond → Frond) (s : State) : (modField f g s).absPrev = s.absPrev := rfl
@[simp] theorem modField_plans (f : Nat) (g : Frond → Frond) (s : State) : (modField f g s).plans = s.plans := rfl
@[simp] theorem modField_blocks (f : Nat) (g : Frond → Frond) (s : State) : (modField f g s).blocks = s.blocks := rfl
@[simp] theorem modField_feats (f : Nat) (g : Frond → Frond) (s : State) : (modField f g s).feats = s.feats := rfl
@[simp] theorem modField_sliceRun (f : Nat) (g : Frond → Frond) (s : State) : (modField f g s).sliceRun = s.sliceRun := rfl
@[simp] theorem modField_refs (f : Nat) (g : Frond → Frond) (s : State) : (modField f g s).refs = s.refs := rfl
@[simp] theorem modField_map (f : Nat) (g : Frond → Frond) (s : State) : (modField f g s).map = s.map := rfl
@[simp] theorem modField_caps (f : Nat) (g : Frond → Frond) (s : State) : (modField f g s).caps = s.caps := rfl
@[simp] theorem modField_rules (f : Nat) (g : Frond → Frond) (s : State) : (modField f g s).rules = s.rules := rfl
@[simp] theorem modField_rulEval (f : Nat) (g : Frond → Frond) (s : State) : (modField f g s).rulEval = s.rulEval := rfl
@[simp] theorem modField_wrSince (f : Nat) (g : Frond → Frond) (s : State) : (modField f g s).wrSince = s.wrSince := rfl
@[simp] theorem modField_pwr (f : Nat) (g : Frond → Frond) (s : State) : (modField f g s).pwr = s.pwr := rfl
@[simp] theorem modField_bud (f : Nat) (g : Frond → Frond) (s : State) : (modField f g s).bud = s.bud := rfl
@[simp] theorem modField_sec (f : Nat) (g : Frond → Frond) (s : State) : (modField f g s).sec = s.sec := rfl
@[simp] theorem modField_net (f : Nat) (g : Frond → Frond) (s : State) : (modField f g s).net = s.net := rfl
@[simp] theorem modField_xfers (f : Nat) (g : Frond → Frond) (s : State) : (modField f g s).xfers = s.xfers := rfl

/-! ## modCChan. A channel on the core side. -/

@[simp] theorem modCChan_pending (ch : Nat) (g : CChan → CChan) (s : State) : (modCChan ch g s).pending = s.pending := rfl
@[simp] theorem modCChan_outbox (ch : Nat) (g : CChan → CChan) (s : State) : (modCChan ch g s).outbox = s.outbox := rfl
@[simp] theorem modCChan_phase (ch : Nat) (g : CChan → CChan) (s : State) : (modCChan ch g s).phase = s.phase := rfl
@[simp] theorem modCChan_auto (ch : Nat) (g : CChan → CChan) (s : State) : (modCChan ch g s).auto = s.auto := rfl
@[simp] theorem modCChan_tm (ch : Nat) (g : CChan → CChan) (s : State) : (modCChan ch g s).tm = s.tm := rfl
@[simp] theorem modCChan_staged (ch : Nat) (g : CChan → CChan) (s : State) : (modCChan ch g s).staged = s.staged := rfl
@[simp] theorem modCChan_cfg (ch : Nat) (g : CChan → CChan) (s : State) : (modCChan ch g s).cfg = s.cfg := rfl
@[simp] theorem modCChan_pcie (ch : Nat) (g : CChan → CChan) (s : State) : (modCChan ch g s).pcie = s.pcie := rfl
@[simp] theorem modCChan_mp (ch : Nat) (g : CChan → CChan) (s : State) : (modCChan ch g s).mp = s.mp := rfl
@[simp] theorem modCChan_rwp (ch : Nat) (g : CChan → CChan) (s : State) : (modCChan ch g s).rwp = s.rwp := rfl
@[simp] theorem modCChan_scratch (ch : Nat) (g : CChan → CChan) (s : State) : (modCChan ch g s).scratch = s.scratch := rfl
@[simp] theorem modCChan_lockedWr (ch : Nat) (g : CChan → CChan) (s : State) : (modCChan ch g s).lockedWr = s.lockedWr := rfl
@[simp] theorem modCChan_orphan (ch : Nat) (g : CChan → CChan) (s : State) : (modCChan ch g s).orphan = s.orphan := rfl
@[simp] theorem modCChan_wrOfs (ch : Nat) (g : CChan → CChan) (s : State) : (modCChan ch g s).wrOfs = s.wrOfs := rfl
@[simp] theorem modCChan_torn (ch : Nat) (g : CChan → CChan) (s : State) : (modCChan ch g s).torn = s.torn := rfl
@[simp] theorem modCChan_tornOfs (ch : Nat) (g : CChan → CChan) (s : State) : (modCChan ch g s).tornOfs = s.tornOfs := rfl
@[simp] theorem modCChan_queues (ch : Nat) (g : CChan → CChan) (s : State) : (modCChan ch g s).queues = s.queues := rfl
@[simp] theorem modCChan_reserve (ch : Nat) (g : CChan → CChan) (s : State) : (modCChan ch g s).reserve = s.reserve := rfl
@[simp] theorem modCChan_rings (ch : Nat) (g : CChan → CChan) (s : State) : (modCChan ch g s).rings = s.rings := rfl
@[simp] theorem modCChan_expAlive (ch : Nat) (g : CChan → CChan) (s : State) : (modCChan ch g s).expAlive = s.expAlive := rfl
@[simp] theorem modCChan_lastAlive (ch : Nat) (g : CChan → CChan) (s : State) : (modCChan ch g s).lastAlive = s.lastAlive := rfl
@[simp] theorem modCChan_outs (ch : Nat) (g : CChan → CChan) (s : State) : (modCChan ch g s).outs = s.outs := rfl
@[simp] theorem modCChan_nextId (ch : Nat) (g : CChan → CChan) (s : State) : (modCChan ch g s).nextId = s.nextId := rfl
@[simp] theorem modCChan_stsBase (ch : Nat) (g : CChan → CChan) (s : State) : (modCChan ch g s).stsBase = s.stsBase := rfl
@[simp] theorem modCChan_tickIrq (ch : Nat) (g : CChan → CChan) (s : State) : (modCChan ch g s).tickIrq = s.tickIrq := rfl
@[simp] theorem modCChan_tickDiv (ch : Nat) (g : CChan → CChan) (s : State) : (modCChan ch g s).tickDiv = s.tickDiv := rfl
@[simp] theorem modCChan_dberr (ch : Nat) (g : CChan → CChan) (s : State) : (modCChan ch g s).dberr = s.dberr := rfl
@[simp] theorem modCChan_dbOfs (ch : Nat) (g : CChan → CChan) (s : State) : (modCChan ch g s).dbOfs = s.dbOfs := rfl
@[simp] theorem modCChan_bme (ch : Nat) (g : CChan → CChan) (s : State) : (modCChan ch g s).bme = s.bme := rfl
@[simp] theorem modCChan_msix (ch : Nat) (g : CChan → CChan) (s : State) : (modCChan ch g s).msix = s.msix := rfl
@[simp] theorem modCChan_cvu (ch : Nat) (g : CChan → CChan) (s : State) : (modCChan ch g s).cvu = s.cvu := rfl
@[simp] theorem modCChan_lsp (ch : Nat) (g : CChan → CChan) (s : State) : (modCChan ch g s).lsp = s.lsp := rfl
@[simp] theorem modCChan_srcs (ch : Nat) (g : CChan → CChan) (s : State) : (modCChan ch g s).srcs = s.srcs := rfl
@[simp] theorem modCChan_latch (ch : Nat) (g : CChan → CChan) (s : State) : (modCChan ch g s).latch = s.latch := rfl
@[simp] theorem modCChan_latchSeq (ch : Nat) (g : CChan → CChan) (s : State) : (modCChan ch g s).latchSeq = s.latchSeq := rfl
@[simp] theorem modCChan_overflow (ch : Nat) (g : CChan → CChan) (s : State) : (modCChan ch g s).overflow = s.overflow := rfl
@[simp] theorem modCChan_fltCount (ch : Nat) (g : CChan → CChan) (s : State) : (modCChan ch g s).fltCount = s.fltCount := rfl
@[simp] theorem modCChan_shadows (ch : Nat) (g : CChan → CChan) (s : State) : (modCChan ch g s).shadows = s.shadows := rfl
@[simp] theorem modCChan_noted (ch : Nat) (g : CChan → CChan) (s : State) : (modCChan ch g s).noted = s.noted := rfl
@[simp] theorem modCChan_alive (ch : Nat) (g : CChan → CChan) (s : State) : (modCChan ch g s).alive = s.alive := rfl
@[simp] theorem modCChan_pend (ch : Nat) (g : CChan → CChan) (s : State) : (modCChan ch g s).pend = s.pend := rfl
@[simp] theorem modCChan_fronds (ch : Nat) (g : CChan → CChan) (s : State) : (modCChan ch g s).fronds = s.fronds := rfl
@[simp] theorem modCChan_field (ch : Nat) (g : CChan → CChan) (s : State) : (modCChan ch g s).field = s.field := rfl
@[simp] theorem modCChan_chans (ch : Nat) (g : CChan → CChan) (s : State) : (modCChan ch g s).chans = tmod {} s.chans ch g := rfl
@[simp] theorem modCChan_badPaths (ch : Nat) (g : CChan → CChan) (s : State) : (modCChan ch g s).badPaths = s.badPaths := rfl
@[simp] theorem modCChan_boundary (ch : Nat) (g : CChan → CChan) (s : State) : (modCChan ch g s).boundary = s.boundary := rfl
@[simp] theorem modCChan_snaps (ch : Nat) (g : CChan → CChan) (s : State) : (modCChan ch g s).snaps = s.snaps := rfl
@[simp] theorem modCChan_sumDone (ch : Nat) (g : CChan → CChan) (s : State) : (modCChan ch g s).sumDone = s.sumDone := rfl
@[simp] theorem modCChan_sumSnap (ch : Nat) (g : CChan → CChan) (s : State) : (modCChan ch g s).sumSnap = s.sumSnap := rfl
@[simp] theorem modCChan_sumEpoch (ch : Nat) (g : CChan → CChan) (s : State) : (modCChan ch g s).sumEpoch = s.sumEpoch := rfl
@[simp] theorem modCChan_sumNext (ch : Nat) (g : CChan → CChan) (s : State) : (modCChan ch g s).sumNext = s.sumNext := rfl
@[simp] theorem modCChan_sumNextEp (ch : Nat) (g : CChan → CChan) (s : State) : (modCChan ch g s).sumNextEp = s.sumNextEp := rfl
@[simp] theorem modCChan_latNow (ch : Nat) (g : CChan → CChan) (s : State) : (modCChan ch g s).latNow = s.latNow := rfl
@[simp] theorem modCChan_abs (ch : Nat) (g : CChan → CChan) (s : State) : (modCChan ch g s).abs = s.abs := rfl
@[simp] theorem modCChan_absPrev (ch : Nat) (g : CChan → CChan) (s : State) : (modCChan ch g s).absPrev = s.absPrev := rfl
@[simp] theorem modCChan_plans (ch : Nat) (g : CChan → CChan) (s : State) : (modCChan ch g s).plans = s.plans := rfl
@[simp] theorem modCChan_blocks (ch : Nat) (g : CChan → CChan) (s : State) : (modCChan ch g s).blocks = s.blocks := rfl
@[simp] theorem modCChan_feats (ch : Nat) (g : CChan → CChan) (s : State) : (modCChan ch g s).feats = s.feats := rfl
@[simp] theorem modCChan_sliceRun (ch : Nat) (g : CChan → CChan) (s : State) : (modCChan ch g s).sliceRun = s.sliceRun := rfl
@[simp] theorem modCChan_refs (ch : Nat) (g : CChan → CChan) (s : State) : (modCChan ch g s).refs = s.refs := rfl
@[simp] theorem modCChan_map (ch : Nat) (g : CChan → CChan) (s : State) : (modCChan ch g s).map = s.map := rfl
@[simp] theorem modCChan_caps (ch : Nat) (g : CChan → CChan) (s : State) : (modCChan ch g s).caps = s.caps := rfl
@[simp] theorem modCChan_rules (ch : Nat) (g : CChan → CChan) (s : State) : (modCChan ch g s).rules = s.rules := rfl
@[simp] theorem modCChan_rulEval (ch : Nat) (g : CChan → CChan) (s : State) : (modCChan ch g s).rulEval = s.rulEval := rfl
@[simp] theorem modCChan_wrSince (ch : Nat) (g : CChan → CChan) (s : State) : (modCChan ch g s).wrSince = s.wrSince := rfl
@[simp] theorem modCChan_pwr (ch : Nat) (g : CChan → CChan) (s : State) : (modCChan ch g s).pwr = s.pwr := rfl
@[simp] theorem modCChan_bud (ch : Nat) (g : CChan → CChan) (s : State) : (modCChan ch g s).bud = s.bud := rfl
@[simp] theorem modCChan_sec (ch : Nat) (g : CChan → CChan) (s : State) : (modCChan ch g s).sec = s.sec := rfl
@[simp] theorem modCChan_net (ch : Nat) (g : CChan → CChan) (s : State) : (modCChan ch g s).net = s.net := rfl
@[simp] theorem modCChan_xfers (ch : Nat) (g : CChan → CChan) (s : State) : (modCChan ch g s).xfers = s.xfers := rfl

/-! ## modRing. A ring. -/

@[simp] theorem modRing_pending (r : Nat) (g : Ring → Ring) (s : State) : (modRing r g s).pending = s.pending := rfl
@[simp] theorem modRing_outbox (r : Nat) (g : Ring → Ring) (s : State) : (modRing r g s).outbox = s.outbox := rfl
@[simp] theorem modRing_phase (r : Nat) (g : Ring → Ring) (s : State) : (modRing r g s).phase = s.phase := rfl
@[simp] theorem modRing_auto (r : Nat) (g : Ring → Ring) (s : State) : (modRing r g s).auto = s.auto := rfl
@[simp] theorem modRing_tm (r : Nat) (g : Ring → Ring) (s : State) : (modRing r g s).tm = s.tm := rfl
@[simp] theorem modRing_staged (r : Nat) (g : Ring → Ring) (s : State) : (modRing r g s).staged = s.staged := rfl
@[simp] theorem modRing_cfg (r : Nat) (g : Ring → Ring) (s : State) : (modRing r g s).cfg = s.cfg := rfl
@[simp] theorem modRing_pcie (r : Nat) (g : Ring → Ring) (s : State) : (modRing r g s).pcie = s.pcie := rfl
@[simp] theorem modRing_mp (r : Nat) (g : Ring → Ring) (s : State) : (modRing r g s).mp = s.mp := rfl
@[simp] theorem modRing_rwp (r : Nat) (g : Ring → Ring) (s : State) : (modRing r g s).rwp = s.rwp := rfl
@[simp] theorem modRing_scratch (r : Nat) (g : Ring → Ring) (s : State) : (modRing r g s).scratch = s.scratch := rfl
@[simp] theorem modRing_lockedWr (r : Nat) (g : Ring → Ring) (s : State) : (modRing r g s).lockedWr = s.lockedWr := rfl
@[simp] theorem modRing_orphan (r : Nat) (g : Ring → Ring) (s : State) : (modRing r g s).orphan = s.orphan := rfl
@[simp] theorem modRing_wrOfs (r : Nat) (g : Ring → Ring) (s : State) : (modRing r g s).wrOfs = s.wrOfs := rfl
@[simp] theorem modRing_torn (r : Nat) (g : Ring → Ring) (s : State) : (modRing r g s).torn = s.torn := rfl
@[simp] theorem modRing_tornOfs (r : Nat) (g : Ring → Ring) (s : State) : (modRing r g s).tornOfs = s.tornOfs := rfl
@[simp] theorem modRing_queues (r : Nat) (g : Ring → Ring) (s : State) : (modRing r g s).queues = s.queues := rfl
@[simp] theorem modRing_reserve (r : Nat) (g : Ring → Ring) (s : State) : (modRing r g s).reserve = s.reserve := rfl
@[simp] theorem modRing_rings (r : Nat) (g : Ring → Ring) (s : State) : (modRing r g s).rings = tmod {} s.rings r g := rfl
@[simp] theorem modRing_expAlive (r : Nat) (g : Ring → Ring) (s : State) : (modRing r g s).expAlive = s.expAlive := rfl
@[simp] theorem modRing_lastAlive (r : Nat) (g : Ring → Ring) (s : State) : (modRing r g s).lastAlive = s.lastAlive := rfl
@[simp] theorem modRing_outs (r : Nat) (g : Ring → Ring) (s : State) : (modRing r g s).outs = s.outs := rfl
@[simp] theorem modRing_nextId (r : Nat) (g : Ring → Ring) (s : State) : (modRing r g s).nextId = s.nextId := rfl
@[simp] theorem modRing_stsBase (r : Nat) (g : Ring → Ring) (s : State) : (modRing r g s).stsBase = s.stsBase := rfl
@[simp] theorem modRing_tickIrq (r : Nat) (g : Ring → Ring) (s : State) : (modRing r g s).tickIrq = s.tickIrq := rfl
@[simp] theorem modRing_tickDiv (r : Nat) (g : Ring → Ring) (s : State) : (modRing r g s).tickDiv = s.tickDiv := rfl
@[simp] theorem modRing_dberr (r : Nat) (g : Ring → Ring) (s : State) : (modRing r g s).dberr = s.dberr := rfl
@[simp] theorem modRing_dbOfs (r : Nat) (g : Ring → Ring) (s : State) : (modRing r g s).dbOfs = s.dbOfs := rfl
@[simp] theorem modRing_bme (r : Nat) (g : Ring → Ring) (s : State) : (modRing r g s).bme = s.bme := rfl
@[simp] theorem modRing_msix (r : Nat) (g : Ring → Ring) (s : State) : (modRing r g s).msix = s.msix := rfl
@[simp] theorem modRing_cvu (r : Nat) (g : Ring → Ring) (s : State) : (modRing r g s).cvu = s.cvu := rfl
@[simp] theorem modRing_lsp (r : Nat) (g : Ring → Ring) (s : State) : (modRing r g s).lsp = s.lsp := rfl
@[simp] theorem modRing_srcs (r : Nat) (g : Ring → Ring) (s : State) : (modRing r g s).srcs = s.srcs := rfl
@[simp] theorem modRing_latch (r : Nat) (g : Ring → Ring) (s : State) : (modRing r g s).latch = s.latch := rfl
@[simp] theorem modRing_latchSeq (r : Nat) (g : Ring → Ring) (s : State) : (modRing r g s).latchSeq = s.latchSeq := rfl
@[simp] theorem modRing_overflow (r : Nat) (g : Ring → Ring) (s : State) : (modRing r g s).overflow = s.overflow := rfl
@[simp] theorem modRing_fltCount (r : Nat) (g : Ring → Ring) (s : State) : (modRing r g s).fltCount = s.fltCount := rfl
@[simp] theorem modRing_shadows (r : Nat) (g : Ring → Ring) (s : State) : (modRing r g s).shadows = s.shadows := rfl
@[simp] theorem modRing_noted (r : Nat) (g : Ring → Ring) (s : State) : (modRing r g s).noted = s.noted := rfl
@[simp] theorem modRing_alive (r : Nat) (g : Ring → Ring) (s : State) : (modRing r g s).alive = s.alive := rfl
@[simp] theorem modRing_pend (r : Nat) (g : Ring → Ring) (s : State) : (modRing r g s).pend = s.pend := rfl
@[simp] theorem modRing_fronds (r : Nat) (g : Ring → Ring) (s : State) : (modRing r g s).fronds = s.fronds := rfl
@[simp] theorem modRing_field (r : Nat) (g : Ring → Ring) (s : State) : (modRing r g s).field = s.field := rfl
@[simp] theorem modRing_chans (r : Nat) (g : Ring → Ring) (s : State) : (modRing r g s).chans = s.chans := rfl
@[simp] theorem modRing_badPaths (r : Nat) (g : Ring → Ring) (s : State) : (modRing r g s).badPaths = s.badPaths := rfl
@[simp] theorem modRing_boundary (r : Nat) (g : Ring → Ring) (s : State) : (modRing r g s).boundary = s.boundary := rfl
@[simp] theorem modRing_snaps (r : Nat) (g : Ring → Ring) (s : State) : (modRing r g s).snaps = s.snaps := rfl
@[simp] theorem modRing_sumDone (r : Nat) (g : Ring → Ring) (s : State) : (modRing r g s).sumDone = s.sumDone := rfl
@[simp] theorem modRing_sumSnap (r : Nat) (g : Ring → Ring) (s : State) : (modRing r g s).sumSnap = s.sumSnap := rfl
@[simp] theorem modRing_sumEpoch (r : Nat) (g : Ring → Ring) (s : State) : (modRing r g s).sumEpoch = s.sumEpoch := rfl
@[simp] theorem modRing_sumNext (r : Nat) (g : Ring → Ring) (s : State) : (modRing r g s).sumNext = s.sumNext := rfl
@[simp] theorem modRing_sumNextEp (r : Nat) (g : Ring → Ring) (s : State) : (modRing r g s).sumNextEp = s.sumNextEp := rfl
@[simp] theorem modRing_latNow (r : Nat) (g : Ring → Ring) (s : State) : (modRing r g s).latNow = s.latNow := rfl
@[simp] theorem modRing_abs (r : Nat) (g : Ring → Ring) (s : State) : (modRing r g s).abs = s.abs := rfl
@[simp] theorem modRing_absPrev (r : Nat) (g : Ring → Ring) (s : State) : (modRing r g s).absPrev = s.absPrev := rfl
@[simp] theorem modRing_plans (r : Nat) (g : Ring → Ring) (s : State) : (modRing r g s).plans = s.plans := rfl
@[simp] theorem modRing_blocks (r : Nat) (g : Ring → Ring) (s : State) : (modRing r g s).blocks = s.blocks := rfl
@[simp] theorem modRing_feats (r : Nat) (g : Ring → Ring) (s : State) : (modRing r g s).feats = s.feats := rfl
@[simp] theorem modRing_sliceRun (r : Nat) (g : Ring → Ring) (s : State) : (modRing r g s).sliceRun = s.sliceRun := rfl
@[simp] theorem modRing_refs (r : Nat) (g : Ring → Ring) (s : State) : (modRing r g s).refs = s.refs := rfl
@[simp] theorem modRing_map (r : Nat) (g : Ring → Ring) (s : State) : (modRing r g s).map = s.map := rfl
@[simp] theorem modRing_caps (r : Nat) (g : Ring → Ring) (s : State) : (modRing r g s).caps = s.caps := rfl
@[simp] theorem modRing_rules (r : Nat) (g : Ring → Ring) (s : State) : (modRing r g s).rules = s.rules := rfl
@[simp] theorem modRing_rulEval (r : Nat) (g : Ring → Ring) (s : State) : (modRing r g s).rulEval = s.rulEval := rfl
@[simp] theorem modRing_wrSince (r : Nat) (g : Ring → Ring) (s : State) : (modRing r g s).wrSince = s.wrSince := rfl
@[simp] theorem modRing_pwr (r : Nat) (g : Ring → Ring) (s : State) : (modRing r g s).pwr = s.pwr := rfl
@[simp] theorem modRing_bud (r : Nat) (g : Ring → Ring) (s : State) : (modRing r g s).bud = s.bud := rfl
@[simp] theorem modRing_sec (r : Nat) (g : Ring → Ring) (s : State) : (modRing r g s).sec = s.sec := rfl
@[simp] theorem modRing_net (r : Nat) (g : Ring → Ring) (s : State) : (modRing r g s).net = s.net := rfl
@[simp] theorem modRing_xfers (r : Nat) (g : Ring → Ring) (s : State) : (modRing r g s).xfers = s.xfers := rfl

/-! ## modOut. A waiting descriptor. -/

@[simp] theorem modOut_pending (i : Nat) (g : Outstanding → Outstanding) (s : State) : (modOut i g s).pending = s.pending := rfl
@[simp] theorem modOut_outbox (i : Nat) (g : Outstanding → Outstanding) (s : State) : (modOut i g s).outbox = s.outbox := rfl
@[simp] theorem modOut_phase (i : Nat) (g : Outstanding → Outstanding) (s : State) : (modOut i g s).phase = s.phase := rfl
@[simp] theorem modOut_auto (i : Nat) (g : Outstanding → Outstanding) (s : State) : (modOut i g s).auto = s.auto := rfl
@[simp] theorem modOut_tm (i : Nat) (g : Outstanding → Outstanding) (s : State) : (modOut i g s).tm = s.tm := rfl
@[simp] theorem modOut_staged (i : Nat) (g : Outstanding → Outstanding) (s : State) : (modOut i g s).staged = s.staged := rfl
@[simp] theorem modOut_cfg (i : Nat) (g : Outstanding → Outstanding) (s : State) : (modOut i g s).cfg = s.cfg := rfl
@[simp] theorem modOut_pcie (i : Nat) (g : Outstanding → Outstanding) (s : State) : (modOut i g s).pcie = s.pcie := rfl
@[simp] theorem modOut_mp (i : Nat) (g : Outstanding → Outstanding) (s : State) : (modOut i g s).mp = s.mp := rfl
@[simp] theorem modOut_rwp (i : Nat) (g : Outstanding → Outstanding) (s : State) : (modOut i g s).rwp = s.rwp := rfl
@[simp] theorem modOut_scratch (i : Nat) (g : Outstanding → Outstanding) (s : State) : (modOut i g s).scratch = s.scratch := rfl
@[simp] theorem modOut_lockedWr (i : Nat) (g : Outstanding → Outstanding) (s : State) : (modOut i g s).lockedWr = s.lockedWr := rfl
@[simp] theorem modOut_orphan (i : Nat) (g : Outstanding → Outstanding) (s : State) : (modOut i g s).orphan = s.orphan := rfl
@[simp] theorem modOut_wrOfs (i : Nat) (g : Outstanding → Outstanding) (s : State) : (modOut i g s).wrOfs = s.wrOfs := rfl
@[simp] theorem modOut_torn (i : Nat) (g : Outstanding → Outstanding) (s : State) : (modOut i g s).torn = s.torn := rfl
@[simp] theorem modOut_tornOfs (i : Nat) (g : Outstanding → Outstanding) (s : State) : (modOut i g s).tornOfs = s.tornOfs := rfl
@[simp] theorem modOut_queues (i : Nat) (g : Outstanding → Outstanding) (s : State) : (modOut i g s).queues = s.queues := rfl
@[simp] theorem modOut_reserve (i : Nat) (g : Outstanding → Outstanding) (s : State) : (modOut i g s).reserve = s.reserve := rfl
@[simp] theorem modOut_rings (i : Nat) (g : Outstanding → Outstanding) (s : State) : (modOut i g s).rings = s.rings := rfl
@[simp] theorem modOut_expAlive (i : Nat) (g : Outstanding → Outstanding) (s : State) : (modOut i g s).expAlive = s.expAlive := rfl
@[simp] theorem modOut_lastAlive (i : Nat) (g : Outstanding → Outstanding) (s : State) : (modOut i g s).lastAlive = s.lastAlive := rfl
@[simp] theorem modOut_outs (i : Nat) (g : Outstanding → Outstanding) (s : State) : (modOut i g s).outs = s.outs.map (fun o => if o.id = i then g o else o) := rfl
@[simp] theorem modOut_nextId (i : Nat) (g : Outstanding → Outstanding) (s : State) : (modOut i g s).nextId = s.nextId := rfl
@[simp] theorem modOut_stsBase (i : Nat) (g : Outstanding → Outstanding) (s : State) : (modOut i g s).stsBase = s.stsBase := rfl
@[simp] theorem modOut_tickIrq (i : Nat) (g : Outstanding → Outstanding) (s : State) : (modOut i g s).tickIrq = s.tickIrq := rfl
@[simp] theorem modOut_tickDiv (i : Nat) (g : Outstanding → Outstanding) (s : State) : (modOut i g s).tickDiv = s.tickDiv := rfl
@[simp] theorem modOut_dberr (i : Nat) (g : Outstanding → Outstanding) (s : State) : (modOut i g s).dberr = s.dberr := rfl
@[simp] theorem modOut_dbOfs (i : Nat) (g : Outstanding → Outstanding) (s : State) : (modOut i g s).dbOfs = s.dbOfs := rfl
@[simp] theorem modOut_bme (i : Nat) (g : Outstanding → Outstanding) (s : State) : (modOut i g s).bme = s.bme := rfl
@[simp] theorem modOut_msix (i : Nat) (g : Outstanding → Outstanding) (s : State) : (modOut i g s).msix = s.msix := rfl
@[simp] theorem modOut_cvu (i : Nat) (g : Outstanding → Outstanding) (s : State) : (modOut i g s).cvu = s.cvu := rfl
@[simp] theorem modOut_lsp (i : Nat) (g : Outstanding → Outstanding) (s : State) : (modOut i g s).lsp = s.lsp := rfl
@[simp] theorem modOut_srcs (i : Nat) (g : Outstanding → Outstanding) (s : State) : (modOut i g s).srcs = s.srcs := rfl
@[simp] theorem modOut_latch (i : Nat) (g : Outstanding → Outstanding) (s : State) : (modOut i g s).latch = s.latch := rfl
@[simp] theorem modOut_latchSeq (i : Nat) (g : Outstanding → Outstanding) (s : State) : (modOut i g s).latchSeq = s.latchSeq := rfl
@[simp] theorem modOut_overflow (i : Nat) (g : Outstanding → Outstanding) (s : State) : (modOut i g s).overflow = s.overflow := rfl
@[simp] theorem modOut_fltCount (i : Nat) (g : Outstanding → Outstanding) (s : State) : (modOut i g s).fltCount = s.fltCount := rfl
@[simp] theorem modOut_shadows (i : Nat) (g : Outstanding → Outstanding) (s : State) : (modOut i g s).shadows = s.shadows := rfl
@[simp] theorem modOut_noted (i : Nat) (g : Outstanding → Outstanding) (s : State) : (modOut i g s).noted = s.noted := rfl
@[simp] theorem modOut_alive (i : Nat) (g : Outstanding → Outstanding) (s : State) : (modOut i g s).alive = s.alive := rfl
@[simp] theorem modOut_pend (i : Nat) (g : Outstanding → Outstanding) (s : State) : (modOut i g s).pend = s.pend := rfl
@[simp] theorem modOut_fronds (i : Nat) (g : Outstanding → Outstanding) (s : State) : (modOut i g s).fronds = s.fronds := rfl
@[simp] theorem modOut_field (i : Nat) (g : Outstanding → Outstanding) (s : State) : (modOut i g s).field = s.field := rfl
@[simp] theorem modOut_chans (i : Nat) (g : Outstanding → Outstanding) (s : State) : (modOut i g s).chans = s.chans := rfl
@[simp] theorem modOut_badPaths (i : Nat) (g : Outstanding → Outstanding) (s : State) : (modOut i g s).badPaths = s.badPaths := rfl
@[simp] theorem modOut_boundary (i : Nat) (g : Outstanding → Outstanding) (s : State) : (modOut i g s).boundary = s.boundary := rfl
@[simp] theorem modOut_snaps (i : Nat) (g : Outstanding → Outstanding) (s : State) : (modOut i g s).snaps = s.snaps := rfl
@[simp] theorem modOut_sumDone (i : Nat) (g : Outstanding → Outstanding) (s : State) : (modOut i g s).sumDone = s.sumDone := rfl
@[simp] theorem modOut_sumSnap (i : Nat) (g : Outstanding → Outstanding) (s : State) : (modOut i g s).sumSnap = s.sumSnap := rfl
@[simp] theorem modOut_sumEpoch (i : Nat) (g : Outstanding → Outstanding) (s : State) : (modOut i g s).sumEpoch = s.sumEpoch := rfl
@[simp] theorem modOut_sumNext (i : Nat) (g : Outstanding → Outstanding) (s : State) : (modOut i g s).sumNext = s.sumNext := rfl
@[simp] theorem modOut_sumNextEp (i : Nat) (g : Outstanding → Outstanding) (s : State) : (modOut i g s).sumNextEp = s.sumNextEp := rfl
@[simp] theorem modOut_latNow (i : Nat) (g : Outstanding → Outstanding) (s : State) : (modOut i g s).latNow = s.latNow := rfl
@[simp] theorem modOut_abs (i : Nat) (g : Outstanding → Outstanding) (s : State) : (modOut i g s).abs = s.abs := rfl
@[simp] theorem modOut_absPrev (i : Nat) (g : Outstanding → Outstanding) (s : State) : (modOut i g s).absPrev = s.absPrev := rfl
@[simp] theorem modOut_plans (i : Nat) (g : Outstanding → Outstanding) (s : State) : (modOut i g s).plans = s.plans := rfl
@[simp] theorem modOut_blocks (i : Nat) (g : Outstanding → Outstanding) (s : State) : (modOut i g s).blocks = s.blocks := rfl
@[simp] theorem modOut_feats (i : Nat) (g : Outstanding → Outstanding) (s : State) : (modOut i g s).feats = s.feats := rfl
@[simp] theorem modOut_sliceRun (i : Nat) (g : Outstanding → Outstanding) (s : State) : (modOut i g s).sliceRun = s.sliceRun := rfl
@[simp] theorem modOut_refs (i : Nat) (g : Outstanding → Outstanding) (s : State) : (modOut i g s).refs = s.refs := rfl
@[simp] theorem modOut_map (i : Nat) (g : Outstanding → Outstanding) (s : State) : (modOut i g s).map = s.map := rfl
@[simp] theorem modOut_caps (i : Nat) (g : Outstanding → Outstanding) (s : State) : (modOut i g s).caps = s.caps := rfl
@[simp] theorem modOut_rules (i : Nat) (g : Outstanding → Outstanding) (s : State) : (modOut i g s).rules = s.rules := rfl
@[simp] theorem modOut_rulEval (i : Nat) (g : Outstanding → Outstanding) (s : State) : (modOut i g s).rulEval = s.rulEval := rfl
@[simp] theorem modOut_wrSince (i : Nat) (g : Outstanding → Outstanding) (s : State) : (modOut i g s).wrSince = s.wrSince := rfl
@[simp] theorem modOut_pwr (i : Nat) (g : Outstanding → Outstanding) (s : State) : (modOut i g s).pwr = s.pwr := rfl
@[simp] theorem modOut_bud (i : Nat) (g : Outstanding → Outstanding) (s : State) : (modOut i g s).bud = s.bud := rfl
@[simp] theorem modOut_sec (i : Nat) (g : Outstanding → Outstanding) (s : State) : (modOut i g s).sec = s.sec := rfl
@[simp] theorem modOut_net (i : Nat) (g : Outstanding → Outstanding) (s : State) : (modOut i g s).net = s.net := rfl
@[simp] theorem modOut_xfers (i : Nat) (g : Outstanding → Outstanding) (s : State) : (modOut i g s).xfers = s.xfers := rfl

/-! ## modCap. A capture ring. -/

@[simp] theorem modCap_pending (r : Nat) (g : CapRing → CapRing) (s : State) : (modCap r g s).pending = s.pending := rfl
@[simp] theorem modCap_outbox (r : Nat) (g : CapRing → CapRing) (s : State) : (modCap r g s).outbox = s.outbox := rfl
@[simp] theorem modCap_phase (r : Nat) (g : CapRing → CapRing) (s : State) : (modCap r g s).phase = s.phase := rfl
@[simp] theorem modCap_auto (r : Nat) (g : CapRing → CapRing) (s : State) : (modCap r g s).auto = s.auto := rfl
@[simp] theorem modCap_tm (r : Nat) (g : CapRing → CapRing) (s : State) : (modCap r g s).tm = s.tm := rfl
@[simp] theorem modCap_staged (r : Nat) (g : CapRing → CapRing) (s : State) : (modCap r g s).staged = s.staged := rfl
@[simp] theorem modCap_cfg (r : Nat) (g : CapRing → CapRing) (s : State) : (modCap r g s).cfg = s.cfg := rfl
@[simp] theorem modCap_pcie (r : Nat) (g : CapRing → CapRing) (s : State) : (modCap r g s).pcie = s.pcie := rfl
@[simp] theorem modCap_mp (r : Nat) (g : CapRing → CapRing) (s : State) : (modCap r g s).mp = s.mp := rfl
@[simp] theorem modCap_rwp (r : Nat) (g : CapRing → CapRing) (s : State) : (modCap r g s).rwp = s.rwp := rfl
@[simp] theorem modCap_scratch (r : Nat) (g : CapRing → CapRing) (s : State) : (modCap r g s).scratch = s.scratch := rfl
@[simp] theorem modCap_lockedWr (r : Nat) (g : CapRing → CapRing) (s : State) : (modCap r g s).lockedWr = s.lockedWr := rfl
@[simp] theorem modCap_orphan (r : Nat) (g : CapRing → CapRing) (s : State) : (modCap r g s).orphan = s.orphan := rfl
@[simp] theorem modCap_wrOfs (r : Nat) (g : CapRing → CapRing) (s : State) : (modCap r g s).wrOfs = s.wrOfs := rfl
@[simp] theorem modCap_torn (r : Nat) (g : CapRing → CapRing) (s : State) : (modCap r g s).torn = s.torn := rfl
@[simp] theorem modCap_tornOfs (r : Nat) (g : CapRing → CapRing) (s : State) : (modCap r g s).tornOfs = s.tornOfs := rfl
@[simp] theorem modCap_queues (r : Nat) (g : CapRing → CapRing) (s : State) : (modCap r g s).queues = s.queues := rfl
@[simp] theorem modCap_reserve (r : Nat) (g : CapRing → CapRing) (s : State) : (modCap r g s).reserve = s.reserve := rfl
@[simp] theorem modCap_rings (r : Nat) (g : CapRing → CapRing) (s : State) : (modCap r g s).rings = s.rings := rfl
@[simp] theorem modCap_expAlive (r : Nat) (g : CapRing → CapRing) (s : State) : (modCap r g s).expAlive = s.expAlive := rfl
@[simp] theorem modCap_lastAlive (r : Nat) (g : CapRing → CapRing) (s : State) : (modCap r g s).lastAlive = s.lastAlive := rfl
@[simp] theorem modCap_outs (r : Nat) (g : CapRing → CapRing) (s : State) : (modCap r g s).outs = s.outs := rfl
@[simp] theorem modCap_nextId (r : Nat) (g : CapRing → CapRing) (s : State) : (modCap r g s).nextId = s.nextId := rfl
@[simp] theorem modCap_stsBase (r : Nat) (g : CapRing → CapRing) (s : State) : (modCap r g s).stsBase = s.stsBase := rfl
@[simp] theorem modCap_tickIrq (r : Nat) (g : CapRing → CapRing) (s : State) : (modCap r g s).tickIrq = s.tickIrq := rfl
@[simp] theorem modCap_tickDiv (r : Nat) (g : CapRing → CapRing) (s : State) : (modCap r g s).tickDiv = s.tickDiv := rfl
@[simp] theorem modCap_dberr (r : Nat) (g : CapRing → CapRing) (s : State) : (modCap r g s).dberr = s.dberr := rfl
@[simp] theorem modCap_dbOfs (r : Nat) (g : CapRing → CapRing) (s : State) : (modCap r g s).dbOfs = s.dbOfs := rfl
@[simp] theorem modCap_bme (r : Nat) (g : CapRing → CapRing) (s : State) : (modCap r g s).bme = s.bme := rfl
@[simp] theorem modCap_msix (r : Nat) (g : CapRing → CapRing) (s : State) : (modCap r g s).msix = s.msix := rfl
@[simp] theorem modCap_cvu (r : Nat) (g : CapRing → CapRing) (s : State) : (modCap r g s).cvu = s.cvu := rfl
@[simp] theorem modCap_lsp (r : Nat) (g : CapRing → CapRing) (s : State) : (modCap r g s).lsp = s.lsp := rfl
@[simp] theorem modCap_srcs (r : Nat) (g : CapRing → CapRing) (s : State) : (modCap r g s).srcs = s.srcs := rfl
@[simp] theorem modCap_latch (r : Nat) (g : CapRing → CapRing) (s : State) : (modCap r g s).latch = s.latch := rfl
@[simp] theorem modCap_latchSeq (r : Nat) (g : CapRing → CapRing) (s : State) : (modCap r g s).latchSeq = s.latchSeq := rfl
@[simp] theorem modCap_overflow (r : Nat) (g : CapRing → CapRing) (s : State) : (modCap r g s).overflow = s.overflow := rfl
@[simp] theorem modCap_fltCount (r : Nat) (g : CapRing → CapRing) (s : State) : (modCap r g s).fltCount = s.fltCount := rfl
@[simp] theorem modCap_shadows (r : Nat) (g : CapRing → CapRing) (s : State) : (modCap r g s).shadows = s.shadows := rfl
@[simp] theorem modCap_noted (r : Nat) (g : CapRing → CapRing) (s : State) : (modCap r g s).noted = s.noted := rfl
@[simp] theorem modCap_alive (r : Nat) (g : CapRing → CapRing) (s : State) : (modCap r g s).alive = s.alive := rfl
@[simp] theorem modCap_pend (r : Nat) (g : CapRing → CapRing) (s : State) : (modCap r g s).pend = s.pend := rfl
@[simp] theorem modCap_fronds (r : Nat) (g : CapRing → CapRing) (s : State) : (modCap r g s).fronds = s.fronds := rfl
@[simp] theorem modCap_field (r : Nat) (g : CapRing → CapRing) (s : State) : (modCap r g s).field = s.field := rfl
@[simp] theorem modCap_chans (r : Nat) (g : CapRing → CapRing) (s : State) : (modCap r g s).chans = s.chans := rfl
@[simp] theorem modCap_badPaths (r : Nat) (g : CapRing → CapRing) (s : State) : (modCap r g s).badPaths = s.badPaths := rfl
@[simp] theorem modCap_boundary (r : Nat) (g : CapRing → CapRing) (s : State) : (modCap r g s).boundary = s.boundary := rfl
@[simp] theorem modCap_snaps (r : Nat) (g : CapRing → CapRing) (s : State) : (modCap r g s).snaps = s.snaps := rfl
@[simp] theorem modCap_sumDone (r : Nat) (g : CapRing → CapRing) (s : State) : (modCap r g s).sumDone = s.sumDone := rfl
@[simp] theorem modCap_sumSnap (r : Nat) (g : CapRing → CapRing) (s : State) : (modCap r g s).sumSnap = s.sumSnap := rfl
@[simp] theorem modCap_sumEpoch (r : Nat) (g : CapRing → CapRing) (s : State) : (modCap r g s).sumEpoch = s.sumEpoch := rfl
@[simp] theorem modCap_sumNext (r : Nat) (g : CapRing → CapRing) (s : State) : (modCap r g s).sumNext = s.sumNext := rfl
@[simp] theorem modCap_sumNextEp (r : Nat) (g : CapRing → CapRing) (s : State) : (modCap r g s).sumNextEp = s.sumNextEp := rfl
@[simp] theorem modCap_latNow (r : Nat) (g : CapRing → CapRing) (s : State) : (modCap r g s).latNow = s.latNow := rfl
@[simp] theorem modCap_abs (r : Nat) (g : CapRing → CapRing) (s : State) : (modCap r g s).abs = s.abs := rfl
@[simp] theorem modCap_absPrev (r : Nat) (g : CapRing → CapRing) (s : State) : (modCap r g s).absPrev = s.absPrev := rfl
@[simp] theorem modCap_plans (r : Nat) (g : CapRing → CapRing) (s : State) : (modCap r g s).plans = s.plans := rfl
@[simp] theorem modCap_blocks (r : Nat) (g : CapRing → CapRing) (s : State) : (modCap r g s).blocks = s.blocks := rfl
@[simp] theorem modCap_feats (r : Nat) (g : CapRing → CapRing) (s : State) : (modCap r g s).feats = s.feats := rfl
@[simp] theorem modCap_sliceRun (r : Nat) (g : CapRing → CapRing) (s : State) : (modCap r g s).sliceRun = s.sliceRun := rfl
@[simp] theorem modCap_refs (r : Nat) (g : CapRing → CapRing) (s : State) : (modCap r g s).refs = s.refs := rfl
@[simp] theorem modCap_map (r : Nat) (g : CapRing → CapRing) (s : State) : (modCap r g s).map = s.map := rfl
@[simp] theorem modCap_caps (r : Nat) (g : CapRing → CapRing) (s : State) : (modCap r g s).caps = tmod {} s.caps r g := rfl
@[simp] theorem modCap_rules (r : Nat) (g : CapRing → CapRing) (s : State) : (modCap r g s).rules = s.rules := rfl
@[simp] theorem modCap_rulEval (r : Nat) (g : CapRing → CapRing) (s : State) : (modCap r g s).rulEval = s.rulEval := rfl
@[simp] theorem modCap_wrSince (r : Nat) (g : CapRing → CapRing) (s : State) : (modCap r g s).wrSince = s.wrSince := rfl
@[simp] theorem modCap_pwr (r : Nat) (g : CapRing → CapRing) (s : State) : (modCap r g s).pwr = s.pwr := rfl
@[simp] theorem modCap_bud (r : Nat) (g : CapRing → CapRing) (s : State) : (modCap r g s).bud = s.bud := rfl
@[simp] theorem modCap_sec (r : Nat) (g : CapRing → CapRing) (s : State) : (modCap r g s).sec = s.sec := rfl
@[simp] theorem modCap_net (r : Nat) (g : CapRing → CapRing) (s : State) : (modCap r g s).net = s.net := rfl
@[simp] theorem modCap_xfers (r : Nat) (g : CapRing → CapRing) (s : State) : (modCap r g s).xfers = s.xfers := rfl

end Sys2Proof.Machine
end

