-- ==== Sys2Proof/Laws/Descs.lean ====
section
/-! SUPPORT. What the command ring does with a descriptor that passes every check: it is consumed, it gets a number of its own, and its
completion goes into the next entry of the completion ring. -/

namespace Sys2Proof.Machine
open Sys2Proof

theorem ring_congr {s t : State} (h : t.rings = s.rings) (r : Nat) : ring t r = ring s r := by
  unfold ring
  rw [h]

theorem ring_modRing_same (r : Nat) (g : Ring → Ring) (s : State) : ring (modRing r g s) r = g (ring s r) := tget_tmod_same _ _ _ _

theorem ring_modRing_other {r j : Nat} (h : j ≠ r) (g : Ring → Ring) (s : State) : ring (modRing r g s) j = ring s j :=
  tget_tmod_other _ _ h _

theorem rings_msi (v : Nat) (s : State) : (msi v s).rings = s.rings := by
  unfold msi
  split
  · rfl
  · split <;> rfl

theorem rings_writeStatus (s : State) : (writeStatus s).rings = s.rings := by
  unfold writeStatus
  split <;> rfl

theorem ring_moderate_other {r j : Nat} (h : j ≠ r) (s : State) : ring (moderate r s) j = ring s j := by
  unfold moderate
  dsimp only
  split
  · rw [ring_congr (rings_msi _ _), ring_modRing_other h]
  · exact ring_modRing_other h _ _

/-- Writing an entry of one ring leaves the others as they are. -/
theorem ring_ringWrite_other {r j : Nat} (h : j ≠ r) (b : List Byte) (s : State) : ring (ringWrite r b s) j = ring s j := by
  unfold ringWrite
  dsimp only
  rw [ring_moderate_other h, ring_congr (rings_writeStatus _), ring_modRing_other h]
  rfl

/-- Writing an entry puts it at P of the ring; what follows it in time stands before it in the outbox. -/
theorem outbox_ringWrite (r : Nat) (b : List Byte) (s : State) : ∃ l, (ringWrite r b s).outbox = l ++
    Output.hostWrite ((ring s r).base + BitVec.ofNat 64 ((ring s r).p.toNat % ringSize (ring s r) * b.length)) b :: s.outbox := by
  obtain ⟨l, hl⟩ := (kept_moderate r (kept_writeStatus (Kept.refl
    (modRing r (fun x => { x with p := x.p + 1 }) (outp (.hostWrite ((ring s r).base +
      BitVec.ofNat 64 ((ring s r).p.toNat % ringSize (ring s r) * b.length)) b) s))))).out
  exact ⟨l, hl.symm⟩

theorem ring_mpCompletion_other {j : Nat} (h : j ≠ cplRing) (status : Nat) (didx : Half) (b : List Byte) (s : State) :
    ring (mpCompletion status didx b s) j = ring s j := by
  unfold mpCompletion
  split
  · rfl
  · dsimp only
    split
    · exact ring_modRing_other h _ _
    · show ring (modRing cplRing (fun x => { x with c := x.p }) s) j = _
      exact ring_modRing_other h _ _

theorem ring_writeCpl_other {j : Nat} (h : j ≠ cplRing) (op : Byte) (status : Nat) (didx : Half) (tag : Word) (res : List Byte) (s : State) :
    ring (writeCpl op status didx tag res s) j = ring s j := by
  unfold writeCpl
  split
  · dsimp only
    rw [ring_mpCompletion_other h, ring_ringWrite_other h]
  · rfl

theorem ring_sweepNops_other {j : Nat} (h : j ≠ cplRing) : ∀ (l : List Outstanding) (s : State), ring (sweepNops l s) j = ring s j
  | [], _ => rfl
  | o :: r, s => by
    unfold sweepNops
    split
    · rw [ring_sweepNops_other h r]
      split
      · rfl
      · exact ring_writeCpl_other h _ _ _ _ _ _
    · rfl

/-- A completion changes no ring but the completion ring. -/
theorem ring_complete_other {j : Nat} (h : j ≠ cplRing) (id status : Nat) (res : List Byte) (s : State) :
    ring (complete id status res s) j = ring s j := by
  unfold complete
  split
  · rfl
  · dsimp only
    rw [ring_sweepNops_other h]
    split
    · rfl
    · rw [ring_writeCpl_other h]
      rfl

theorem length_cplBytes (op : Byte) (status : Nat) (didx : Half) (tag : Word) (res : List Byte) :
    (cplBytes op status didx tag res).length = 32 := by
  have k : ∀ n v, (le n v).length = n := by
    intro n
    induction n with
    | zero => intro v; rfl
    | succ n ih => intro v; simp [le, ih]
  simp [cplBytes, withCrc, padTo, k]
  omega

/-- The completion of a descriptor goes to the entry of the completion ring that P names. -/
theorem outbox_writeCpl (op : Byte) (status : Nat) (didx : Half) (tag : Word) (res : List Byte) (s : State)
    (he : (ring s cplRing).en = true) (hr : running s = true) : ∃ l, (writeCpl op status didx tag res s).outbox = l ++
      Output.hostWrite ((ring s cplRing).base + BitVec.ofNat 64 ((ring s cplRing).p.toNat % ringSize (ring s cplRing) * 32))
        (cplBytes op status didx tag res) :: s.outbox := by
  unfold writeCpl
  rw [he, hr]
  obtain ⟨l, hl⟩ := outbox_ringWrite cplRing (cplBytes op status didx tag res) s
  rw [length_cplBytes] at hl
  obtain ⟨k, hk⟩ := (kept_mpCompletion status didx (cplBytes op status didx tag res)
    (Kept.refl (ringWrite cplRing (cplBytes op status didx tag res) s))).out
  exact ⟨k ++ l, by
    show (mpCompletion status didx (cplBytes op status didx tag res) (ringWrite cplRing (cplBytes op status didx tag res) s)).outbox = _
    rw [← hk, hl, List.append_assoc]⟩

/-- The number that a waiting descriptor has. -/
theorem outOf_startDesc {s : State} (hf : Fresh s) (d : Desc) (obj : Nat) : outOf (startDesc d obj s) s.nextId =
    some { id := s.nextId, opcode := BitVec.ofNat 8 (dOp d), didx := BitVec.ofNat 16 (frontIdx s).toNat, tag := dTag d, tmo := dTmo d,
           obj := obj, due := s.abs + dTmo d * (32768 * steps s), len := 32768 * steps s } := by
  unfold outOf startDesc
  dsimp only
  rw [List.find?_append]
  have h : s.outs.find? (fun o => o.id == s.nextId) = none := by
    rw [List.find?_eq_none]
    intro o ho
    have := hf o ho
    simp
    omega
  rw [h]
  simp

/-- The completion of a waiting descriptor whose completion is not lost. -/
theorem outbox_complete {s : State} {id : Nat} {o : Outstanding} (ho : outOf s id = some o) (hl : o.lost = false)
    (he : (ring s cplRing).en = true) (hr : running s = true) (status : Nat) (res : List Byte) :
    ∃ l, (complete id status res s).outbox = l ++
      Output.hostWrite ((ring s cplRing).base + BitVec.ofNat 64 ((ring s cplRing).p.toNat % ringSize (ring s cplRing) * 32))
        (cplBytes o.opcode status o.didx o.tag res) :: s.outbox := by
  unfold complete
  rw [ho]
  dsimp only
  rw [hl, if_neg Bool.false_ne_true]
  obtain ⟨l, h⟩ := outbox_writeCpl o.opcode status o.didx o.tag res { s with outs := s.outs.filter (fun o => o.id != id) } he hr
  obtain ⟨k, hk⟩ := (kept_sweepNops (writeCpl o.opcode status o.didx o.tag res { s with outs := s.outs.filter (fun o => o.id != id) }).outs
    (Kept.refl (writeCpl o.opcode status o.didx o.tag res { s with outs := s.outs.filter (fun o => o.id != id) }))).out
  exact ⟨k ++ l, by
    show (sweepNops _ (writeCpl o.opcode status o.didx o.tag res { s with outs := s.outs.filter (fun o => o.id != id) })).outbox = _
    rw [← hk, h, List.append_assoc]
    rfl⟩

/-- A descriptor that passes every check begins its action under the next number. -/
theorem takeDesc_takes {form : DescForm} {d : Desc} {s : State} (h : Takes form d s) (act : Nat → State → State) :
    takeDesc form d act s = act s.nextId (startDesc d (form.obj d) (acceptAlive d s)) := by
  have e : (unusedZero d form.used = false ∨ ((dTmo d != 0) && !form.tmo) = true ∨ form.ok d = false) → False := by
    rintro (k | k | k)
    · rw [h.unused] at k; cases k
    · rcases h.tmo with m | m
      · simp [m] at k
      · simp [m] at k
    · rw [h.ok] at k; cases k
  have f : (!unusedZero d form.used || ((dTmo d != 0) && !form.tmo) || !form.ok d) = false := by
    cases h1 : unusedZero d form.used <;> cases h2 : ((dTmo d != 0) && !form.tmo) <;> cases h3 : form.ok d <;> simp_all
  unfold takeDesc
  dsimp only
  rw [h.ready, h.crc, h.mine, h.pay, h.free, f]
  simp only [Bool.not_true, Bool.false_eq_true, if_false, ne_eq, h.alive, not_true_eq_false]

/-- The state in which the action of a descriptor begins: the descriptor is consumed, and nothing else of the rings has changed. -/
theorem ring_startDesc_cpl (d : Desc) (obj : Nat) (s : State) : ring (startDesc d obj (acceptAlive d s)) cplRing = ring s cplRing := by
  show ring (modRing cmdRing (fun x => { x with c := x.c + 1 }) (acceptAlive d s)) cplRing = _
  rw [ring_modRing_other (by decide)]
  rfl

theorem ring_startDesc_cmd (d : Desc) (obj : Nat) (s : State) :
    (ring (startDesc d obj (acceptAlive d s)) cmdRing).c = (ring s cmdRing).c + 1 := by
  show (ring (modRing cmdRing (fun x => { x with c := x.c + 1 }) (acceptAlive d s)) cmdRing).c = _
  rw [ring_modRing_same]
  rfl

theorem canTake_running {s : State} (h : canTake s = true) : running s = true := by
  unfold canTake at h
  simp only [Bool.and_eq_true, beq_iff_eq] at h
  unfold running
  rw [h.1.1.1.1.1]
  rfl

theorem canTake_cpl {s : State} (h : canTake s = true) : (ring s cplRing).en = true := by
  unfold canTake at h
  simp only [Bool.and_eq_true, beq_iff_eq] at h
  exact h.1.1.2

/-- An action that ends in the completion of its descriptor, and before it touches neither rings nor descriptors nor the life of the
module, consumes the descriptor and reports. -/
theorem reports_complete {form : DescForm} {d : Desc} {s : State} (h : Takes form d s) (hf : Fresh s) {u : State} {ps : List Part}
    (ho : Only ps (startDesc d (form.obj d) (acceptAlive d s)) u)
    (n1 : Part.rings ∉ ps) (n2 : Part.descs ∉ ps) (n3 : Part.alives ∉ ps) (n4 : Part.halt ∉ ps) (hs : s.outbox <:+ u.outbox)
    (status : Nat) (res : List Byte) :
    Consumed s (complete s.nextId status res u) ∧ Reports d status res s (complete s.nextId status res u) := by
  have er : u.rings = (startDesc d (form.obj d) (acceptAlive d s)).rings := ho .rings n1
  have ed : (u.outs, u.nextId) = _ := ho .descs n2
  have ea : (u.expAlive, u.lastAlive) = _ := ho .alives n3
  have eh : (u.phase, u.pwr.haltLatch) = (s.phase, s.pwr.haltLatch) := ho .halt n4
  have ha := h.alive
  constructor
  · refine ⟨?_, ?_, ?_⟩
    · rw [ring_complete_other (by decide), ring_congr er, ring_startDesc_cmd]
    · have k : (complete s.nextId status res u).expAlive = u.expAlive :=
        congrArg Prod.fst ((only_complete (ps := [.outbox, .rings, .descs, .sessions]) s.nextId status res (by decide)
          (Only.refl _ u)) .alives (by decide))
      have e : u.expAlive = (startDesc d (form.obj d) (acceptAlive d s)).expAlive := congrArg Prod.fst ea
      rw [k, e, ← ha]
      rfl
    · have k : (complete s.nextId status res u).lastAlive = u.lastAlive :=
        congrArg Prod.snd ((only_complete (ps := [.outbox, .rings, .descs, .sessions]) s.nextId status res (by decide)
          (Only.refl _ u)) .alives (by decide))
      have e : u.lastAlive = (startDesc d (form.obj d) (acceptAlive d s)).lastAlive := congrArg Prod.snd ea
      rw [k, e, ← ha]
      rfl
  · have hx : outOf u s.nextId = some
        { id := s.nextId, opcode := BitVec.ofNat 8 (dOp d), didx := BitVec.ofNat 16 (frontIdx s).toNat, tag := dTag d,
          tmo := dTmo d, obj := form.obj d, due := s.abs + dTmo d * (32768 * steps s), len := 32768 * steps s } := by
      have e : u.outs = (startDesc d (form.obj d) (acceptAlive d s)).outs := congrArg Prod.fst ed
      have q := outOf_startDesc (s := acceptAlive d s) hf d (form.obj d)
      unfold outOf at q ⊢
      rw [e]
      exact q
    have hc : ring u cplRing = ring s cplRing := by rw [ring_congr er, ring_startDesc_cpl]
    have hru : running u = true := by
      have : u.phase = s.phase := congrArg Prod.fst eh
      have r := canTake_running h.ready
      unfold running at r ⊢
      rw [this]
      exact r
    obtain ⟨l, hl⟩ := outbox_complete hx rfl (by rw [hc]; exact canTake_cpl h.ready) hru status res
    obtain ⟨m, hm⟩ := hs
    refine ⟨l, m, ?_⟩
    rw [hl, hc, ← hm]

end Sys2Proof.Machine
end

