-- ==== Sys2Proof/Laws/Faults.lean ====
section
/-! SUPPORT. What raising and clearing a fault source does to the set of active sources. -/

namespace Sys2Proof.Machine
open Sys2Proof

theorem srcs_foldl {α : Type} (f : State → α → State) (hf : ∀ s a, (f s a).srcs = s.srcs) : ∀ (l : List α) (s : State),
    (l.foldl f s).srcs = s.srcs
  | [], _ => rfl
  | a :: l, s => (srcs_foldl f hf l (f s a)).trans (hf s a)

theorem srcs_settle (q : Nat) (s : State) : (settle q s).srcs = s.srcs :=
  congrArg Prod.fst (only_settle (ps := [.queues]) q (List.Subset.refl _) (Only.refl _ s) .faults (by decide))

theorem srcs_enqueue (q : Nat) (cells : List Cell) (s : State) : (enqueue q cells s).srcs = s.srcs := by
  unfold enqueue
  dsimp only
  split
  · rfl
  · exact srcs_settle _ _

theorem srcs_faultRec (id sub cls flags count : Nat) (ctx : List Byte) (tick : TickNo) (s : State) :
    (faultRec id sub cls flags count ctx tick s).srcs = s.srcs := srcs_enqueue _ _ _

theorem srcs_recordFault (id sub cls : Nat) (ctx : List Byte) (tick : TickNo) (opener : Bool) (dl : Option TickNo) (s : State) :
    (recordFault id sub cls ctx tick opener dl s).srcs = s.srcs := by
  unfold recordFault
  dsimp only
  repeat' first
    | rw [srcs_faultRec]
    | split
    | rfl

theorem srcs_closeShadow (f : Nat) (s : State) : (closeShadow f s).srcs = s.srcs := by
  unfold closeShadow
  repeat' first
    | rw [srcs_faultRec]
    | split
    | rfl

theorem srcs_openShadow (f : Nat) (tick : TickNo) (o : Option (Nat × Nat)) (cls : Nat) (s : State) :
    (openShadow f tick o cls s).srcs = s.srcs := by
  unfold openShadow
  split
  · split
    · rfl
    · exact srcs_closeShadow _ _
  · rfl

theorem srcs_sendOrder (f : Nat) (k payload : Byte) (s : State) : (sendOrder f k payload s).srcs = s.srcs := rfl

theorem srcs_orderSafe (o : Option (Nat × Nat)) (cls : Nat) (s : State) (f : Nat) : (orderSafe o cls s f).srcs = s.srcs := by
  unfold orderSafe
  dsimp only
  split
  · exact (srcs_sendOrder _ _ _ (modFrond f _ s)).trans (modFrond_srcs _ _ _)
  · exact (srcs_openShadow _ _ _ _ _).trans ((srcs_sendOrder _ _ _ (modFrond f _ s)).trans (modFrond_srcs _ _ _))

theorem srcs_react (id sub cls : Nat) (ctx : List Byte) (s : State) : (react id sub cls ctx s).srcs = s.srcs := by
  unfold react
  split
  · exact srcs_foldl _ (srcs_orderSafe _ _) _ _
  · split
    · dsimp only
      exact srcs_foldl _ (srcs_orderSafe (some (id, sub)) cls) allFronds s
    · rfl

theorem srcs_msi (v : Nat) (s : State) : (msi v s).srcs = s.srcs := by
  unfold msi
  split
  · rfl
  · split <;> rfl

theorem srcs_vector20 (b : Nat) (s : State) : (vector20 b s).srcs = s.srcs := by
  unfold vector20
  split
  · exact srcs_msi _ _
  · rfl

theorem any_tput {α : Type} (k : Nat) (v : α) : ∀ t : Tab α, (tput t k v).any (fun e => e.1 == k) = true
  | [] => by simp [tput]
  | (j, w) :: r => by
    unfold tput
    split
    · simp
    · split
      · simp
      · simp [any_tput k v r]

theorem any_tmap_key {α β : Type} (k : Nat) (g : Nat → α → β) (t : Tab α) :
    (tmap t g).any (fun e => e.1 == k) = t.any (fun e => e.1 == k) := by
  unfold tmap
  rw [List.any_map]
  rfl

/-- A source that is raised is active, unless the collector keeps what it last decided for its line (R487). -/
theorem raise_active {s : State} {id sub : Nat} (h : lineBad s id sub = false) (cls : Nat) (event : Bool) (ctx : List Byte) (tick : TickNo)
    (atEdge opener : Bool) : srcActive (raise id sub cls event ctx tick atEdge opener s) id sub = true := by
  unfold raise
  rw [if_neg (by simp [h])]
  split
  · next a =>
    unfold srcActive at a ⊢
    dsimp only
    rw [any_tmap_key]
    exact a
  · dsimp only
    unfold srcActive
    rw [srcs_vector20, srcs_react, srcs_recordFault]
    exact any_tput _ _ _

theorem noteEvent_active {s : State} {id : Nat} (h : lineBad s id 0 = false) (ctx : List Byte) :
    srcActive (noteEvent id ctx s) id 0 = true := raise_active h _ _ _ _ _ _

theorem integrity_active {s : State} (h : lineBad s 0x08 0 = false) (origin ofs ch : Nat) :
    srcActive (integrity origin ofs ch s) 0x08 0 = true := raise_active h _ _ _ _ _ _

theorem any_filter_key {α : Type} (k : Nat) (t : Tab α) : (tfilter t (fun j _ => j != k)).any (fun e => e.1 == k) = false := by
  unfold tfilter
  rw [List.any_eq_false]
  intro e he
  simpa using (List.mem_filter.mp he).2

/-- A source that is dropped is not active. -/
theorem dropSrc_inactive (id sub : Nat) (s : State) : srcActive (dropSrc id sub s) id sub = false := by
  unfold dropSrc
  split
  · next h =>
    unfold srcActive
    rw [List.any_eq_false]
    rw [List.find?_eq_none] at h
    exact h
  · next k x h =>
    have e : k = srcKey id sub := by simpa using List.find?_some h
    dsimp only
    split
    · unfold srcActive
      rw [srcs_faultRec, e]
      exact any_filter_key _ _
    · unfold srcActive
      rw [e]
      exact any_filter_key _ _

end Sys2Proof.Machine
end

