-- ==== Sys2Proof/Laws/Staging.lean ====
section
/-! SUPPORT. What a staged register word reads as after one is staged, and after a window write has staged one in each channel. -/

namespace Sys2Proof.Machine
open Sys2Proof

theorem stg_stage_same (ofs i : Nat) (v m : Word) (s : State) : stg (stage ofs i v m s) ofs i = maskIn (stg s ofs i) v m := by
  unfold stg conf
  exact tget_tput_same _ _ _ _

theorem stg_stage_other {ofs i o j : Nat} (h : regKey o j ≠ regKey ofs i) (v m : Word) (s : State) :
    stg (stage ofs i v m s) o j = stg s o j := by
  unfold stg conf
  exact tget_tput_other _ h _ _

theorem regKey_inst {ofs i j : Nat} (h : j ≠ i) : regKey ofs j ≠ regKey ofs i := by
  unfold regKey
  omega

/-- After the same word has been staged for each instance of a list, the instances outside the list read as before. -/
theorem stg_stages_other (ofs : Nat) (v m : Word) {o j : Nat} : ∀ (l : List Nat) (s : State), (∀ i ∈ l, regKey o j ≠ regKey ofs i) →
    stg (l.foldl (fun s i => stage ofs i v m s) s) o j = stg s o j
  | [], _, _ => rfl
  | i :: l, s, h => by
    rw [List.foldl_cons, stg_stages_other ofs v m l _ (fun k hk => h k (List.mem_cons_of_mem _ hk)),
      stg_stage_other (h i (List.mem_cons_self ..))]

/-- And each instance of a list without repeats holds the word in the bits of the mask. -/
theorem stg_stages_mem (ofs : Nat) (v m : Word) {j : Nat} (l : List Nat) : ∀ s : State, l.Nodup → j ∈ l →
    stg (l.foldl (fun s i => stage ofs i v m s) s) ofs j = maskIn (stg s ofs j) v m := by
  induction l with
  | nil =>
    intro s _ h
    cases h
  | cons i l ih =>
    intro s n h
    rw [List.foldl_cons]
    rw [List.nodup_cons] at n
    by_cases e : j = i
    · subst e
      rw [stg_stages_other ofs v m l _ (fun k hk => regKey_inst (fun e => n.1 (by rw [e]; exact hk))), stg_stage_same]
    · have hj : j ∈ l := by
        rcases List.mem_cons.mp h with h | h
        · exact absurd h e
        · exact h
      rw [ih _ n.2 hj, stg_stage_other (regKey_inst e)]

theorem nodup_selChans (sel : Word) : (selChans sel).Nodup := by
  unfold selChans allChans
  split
  · exact List.nodup_range
  · exact List.nodup_singleton _

theorem nodup_targets (r : PathRegs) (ofs : Nat) : (targets r ofs).Nodup := by
  unfold targets
  split
  · exact nodup_selChans _
  · exact List.nodup_singleton _

end Sys2Proof.Machine
end

