-- ==== Sys2Proof/Laws/Regs.lean ====
section
/-! SUPPORT. What a write of each kind of register comes down to. -/

namespace Sys2Proof.Machine
open Sys2Proof

theorem join64_append (lo hi : Word) : join64 lo hi = hi ++ lo := by
  apply BitVec.eq_of_toNat_eq
  have h : hi.toNat <<< 32 + lo.toNat = hi.toNat <<< 32 ||| lo.toNat := Nat.shiftLeft_add_eq_or_of_lt lo.isLt _
  rw [BitVec.toNat_append, ← h, Nat.shiftLeft_eq]
  unfold join64
  rw [BitVec.toNat_ofNat]
  have := lo.isLt
  have := hi.isLt
  omega

/-- Outside the ID_ block a path's writes act while firmware runs. -/
theorem writeOpen_run {p : Path} {s : State} {ofs : Nat} (h : 0x1000 ≤ ofs) : writeOpen p s ofs = (pathOpen p s && running s) := by
  unfold writeOpen
  rw [decide_eq_false (Nat.not_lt.mpr h), Bool.and_false, Bool.or_false]

theorem busWrite_open {p : Path} {s : State} {ofs : Nat} (h : writeOpen p s ofs = true) (v : Word) :
    busWrite p ofs v s = regWrite p ofs v s := by
  unfold busWrite
  rw [if_pos h]

theorem is64W_cases {ofs : Nat} (h : is64W ofs = true) :
    ofs = 0x1020 ∨ ofs = 0xA030 ∨ ∃ r, r < 19 ∧ ofs = ringCfgOfs r - 8 ∧ ringAt ofs = some (r, 0) := by
  unfold is64W inBlock at h
  simp only [Bool.or_eq_true, Bool.and_eq_true, beq_iff_eq, decide_eq_true_eq] at h
  rcases h with ((((h | h) | h) | h) | h) | ⟨⟨h1, h2⟩, h3⟩
  · exact .inl h
  · exact .inr (.inr ⟨0, by decide, by subst h; rfl, by subst h; rfl⟩)
  · exact .inr (.inr ⟨1, by decide, by subst h; rfl, by subst h; rfl⟩)
  · exact .inr (.inr ⟨2, by decide, by subst h; rfl, by subst h; rfl⟩)
  · exact .inr (.inl h)
  · refine .inr (.inr ⟨3 + (ofs - 0xA100) / 16, by omega, ?_, ?_⟩)
    · unfold ringCfgOfs
      rw [if_neg (by omega)]
      omega
    · unfold ringAt inBlock
      rw [if_neg (by simp; omega), if_pos (by simp; omega), h3]

theorem ringAt_base {r : Nat} (h : r < 19) : ringAt (ringCfgOfs r - 8) = some (r, 0) ∧ is64W (ringCfgOfs r - 8) = true := by
  have : ∀ r < 19, ringAt (ringCfgOfs r - 8) = some (r, 0) ∧ is64W (ringCfgOfs r - 8) = true := by decide
  exact this r h

theorem ringAt_cfg {r : Nat} (h : r < 19) : ringAt (ringCfgOfs r) = some (r, 8) := by
  have : ∀ r < 19, ringAt (ringCfgOfs r) = some (r, 8) := by decide
  exact this r h

theorem is64W_ge {ofs : Nat} (h : is64W ofs = true) : 0x1000 ≤ ofs := by
  unfold is64W inBlock at h
  simp only [Bool.or_eq_true, Bool.and_eq_true, beq_iff_eq, decide_eq_true_eq] at h
  omega

theorem is64W_shape {ofs : Nat} (h : is64W ofs = true) : ofs % 8 = 0 ∧ ofs < 0xFFF0 ∧ is64W (ofs + 4) = false ∧ is64 ofs = true := by
  have h2 := h
  unfold is64W inBlock at h ⊢
  simp only [Bool.or_eq_true, Bool.and_eq_true, beq_iff_eq, decide_eq_true_eq, Bool.or_eq_false_iff, Bool.and_eq_false_iff,
    beq_eq_false_iff_ne, decide_eq_false_iff_not] at h ⊢
  refine ⟨by omega, by omega, by omega, ?_⟩
  unfold is64
  rw [h2]
  rfl

/-- The low half of a 64-bit register. -/
theorem regWrite_low {ofs : Nat} (h : is64W ofs = true) (p : Path) (v : Word) (s : State) : regWrite p ofs v s = lowWrite p ofs v s := by
  unfold regWrite
  dsimp only
  rw [if_neg (Nat.not_lt.mpr (is64W_ge h)), if_pos h]

/-- The high half of a 64-bit register. -/
theorem regWrite_high {ofs : Nat} (h : is64W ofs = true) (p : Path) (v : Word) (s : State) :
    regWrite p (ofs + 4) v s = highWrite p ofs v s := by
  have a := is64W_ge h
  have b := (is64W_shape h).2.2.1
  unfold regWrite
  dsimp only
  rw [if_neg (by omega), if_neg (by rw [b]; decide), if_pos ⟨by omega, by rw [Nat.add_sub_cancel]; exact h⟩, Nat.add_sub_cancel]

theorem isRwp_cases {ofs : Nat} (h : isRwp ofs = true) : ofs = 0x2120 ∨ ofs = 0x2128 ∨ ofs = 0x2130 ∨ ofs = 0x3000 := by
  unfold isRwp at h
  simpa [or_assoc] using h

theorem regWrite_value {ofs : Nat} (h : isRwp ofs = true) (p : Path) (v : Word) (s : State) :
    regWrite p ofs v s = rwpValue p ofs v s := by
  rcases isRwp_cases h with rfl | rfl | rfl | rfl <;> rfl

theorem regWrite_complement {ofs : Nat} (h : isRwp ofs = true) (p : Path) (v : Word) (s : State) :
    regWrite p (ofs + 4) v s = rwpComplement p ofs v s := by
  rcases isRwp_cases h with rfl | rfl | rfl | rfl <;> rfl

/-- A plain staged register of the window. -/
theorem regWrite_window {ofs : Nat} (hw : inWindow ofs = true) (hm : rwsMask ofs ≠ 0) (hr : isRwp ofs = false) (hc : complOf ofs = none)
    (p : Path) (v : Word) (s : State) : regWrite p ofs v s = stageWrite (pathRegs p s) ofs v s := by
  unfold inWindow at hw
  simp only [Bool.and_eq_true, decide_eq_true_eq] at hw
  have a : is64W ofs = false := by
    unfold is64W inBlock
    simp only [Bool.or_eq_false_iff, Bool.and_eq_false_iff, beq_eq_false_iff_ne, decide_eq_false_iff_not]
    omega
  have b : is64W (ofs - 4) = false := by
    unfold is64W inBlock
    simp only [Bool.or_eq_false_iff, Bool.and_eq_false_iff, beq_eq_false_iff_ne, decide_eq_false_iff_not]
    omega
  unfold regWrite
  dsimp only
  rw [if_neg (by omega), if_neg (by rw [a]; decide), if_neg (by rw [b]; simp), if_neg (by rw [hr]; decide), if_neg (by rw [hc]; decide),
    if_neg (by omega), if_pos hm]

end Sys2Proof.Machine
end

