-- ==== Sys2Proof/Laws/Rows.lean ====
section
/-! SUPPORT. One lemma per command: it completes, and it keeps what nearly every command keeps. The commands that change one of those
things have lemmas of their own in Laws/Special. -/

set_option linter.unusedTactic false
set_option linter.unreachableTactic false

namespace Sys2Proof.Machine
open Sys2Proof

/-- The outcome is a next state that keeps what Kept says. -/
def KeptBy (s : State) (o : Host.Outcome State Fault Refusal) : Prop := ∃ t, o = .next t ∧ Kept s t

theorem KeptBy.next {s t : State} (h : Kept s t) : KeptBy s (.next t) := ⟨t, rfl, h⟩

theorem KeptBy.ite {s : State} {a b : Host.Outcome State Fault Refusal} {c : Prop} [Decidable c] (ha : KeptBy s a) (hb : KeptBy s b) :
    KeptBy s (if c then a else b) := by
  split
  · exact ha
  · exact hb

/-! ## FaultRows -/

theorem row_TbaseHigh (s : State)  : KeptBy s (execTbaseHigh s) := by
  unfold execTbaseHigh
  try dsimp only
  repeat' first
    | with_reducible assumption | with_reducible exact Kept.refl _ | with_reducible apply KeptBy.next
    | with_reducible apply KeptBy.ite | with_reducible apply kept_raise | with_reducible apply Kept.ite | split

theorem row_FaultSourceActivate (s : State) (id : Nat) (ctx : List Byte) : KeptBy s (execFaultSourceActivate id ctx s) := by
  unfold execFaultSourceActivate
  try dsimp only
  repeat' first
    | with_reducible assumption | with_reducible exact Kept.refl _ | with_reducible apply KeptBy.next
    | with_reducible apply KeptBy.ite | with_reducible apply kept_raise | with_reducible apply kept_pathBad
    | with_reducible apply Kept.ite | split

theorem row_FaultSourceCleared (s : State) (id sub line : Nat) (act : Bool) (ctx : List Byte) : KeptBy s (execFaultSourceCleared id sub line act ctx s) := by
  unfold execFaultSourceCleared
  try dsimp only
  repeat' first
    | with_reducible assumption | with_reducible exact Kept.refl _ | with_reducible apply KeptBy.next
    | with_reducible apply KeptBy.ite | with_reducible apply kept_clearSrc | with_reducible apply kept_lineFollows
    | with_reducible apply Kept.ite | (fail_if_no_progress (with_reducible apply Kept.mk_of <;> try with_reducible rfl)) | split

theorem row_Escalation (s : State) (id sub : Nat) : KeptBy s (execEscalation id sub s) := by
  unfold execEscalation
  try dsimp only
  repeat' first
    | with_reducible assumption | with_reducible exact Kept.refl _ | with_reducible apply KeptBy.next
    | with_reducible apply KeptBy.ite | with_reducible apply kept_escalate | with_reducible apply Kept.ite | split

theorem row_ShadowClose (s : State) (f : Nat) : KeptBy s (execShadowClose f s) := by
  unfold execShadowClose
  try dsimp only
  repeat' first
    | with_reducible assumption | with_reducible exact Kept.refl _ | with_reducible apply KeptBy.next
    | with_reducible apply KeptBy.ite | with_reducible apply kept_closeShadow | with_reducible apply Kept.ite | split

theorem row_ClockSrcLost (s : State) (oscB : Bool) : KeptBy s (execClockSrcLost oscB s) := by
  unfold execClockSrcLost
  try dsimp only
  repeat' first
    | with_reducible assumption | with_reducible exact Kept.refl _ | with_reducible apply KeptBy.next
    | with_reducible apply KeptBy.ite | with_reducible apply kept_raise | with_reducible apply Kept.ite
    | (fail_if_no_progress (with_reducible apply Kept.mk_of <;> try with_reducible rfl)) | split

theorem row_ClockBothLost (s : State)  : KeptBy s (execClockBothLost s) := by
  unfold execClockBothLost
  try dsimp only
  repeat' first
    | with_reducible assumption | with_reducible exact Kept.refl _ | with_reducible apply KeptBy.next
    | with_reducible apply KeptBy.ite | with_reducible apply kept_raise | with_reducible apply Kept.ite
    | (fail_if_no_progress (with_reducible apply Kept.mk_of <;> try with_reducible rfl)) | split

theorem row_CheckIn (s : State)  : KeptBy s (execCheckIn s) := by
  unfold execCheckIn
  try dsimp only
  repeat' first
    | with_reducible assumption | with_reducible exact Kept.refl _ | with_reducible apply KeptBy.next
    | with_reducible apply KeptBy.ite | with_reducible apply Kept.ite
    | (fail_if_no_progress (with_reducible apply Kept.mk_of <;> try with_reducible rfl)) | split

theorem row_ClockSrcLostClear (s : State)  : KeptBy s (execClockSrcLostClear s) := by
  unfold execClockSrcLostClear
  try dsimp only
  repeat' first
    | with_reducible assumption | with_reducible exact Kept.refl _ | with_reducible apply KeptBy.next
    | with_reducible apply KeptBy.ite | with_reducible apply kept_clearSrc | with_reducible apply Kept.ite
    | (fail_if_no_progress (with_reducible apply Kept.mk_of <;> try with_reducible rfl)) | split

theorem row_HaltDrainTimeout (s : State) : KeptBy s (execHaltDrainTimeout s) := by
  unfold execHaltDrainTimeout
  split
  · rename_i d
    exact .next (kept_haltStop d (.refl _))
  · exact .next (.refl _)

/-! ## Feature -/

theorem row_DeferredWork (s : State)  : KeptBy s (execDeferredWork s) := by
  unfold execDeferredWork
  try dsimp only
  repeat' first
    | with_reducible assumption | with_reducible exact Kept.refl _ | with_reducible apply KeptBy.next
    | with_reducible apply KeptBy.ite | with_reducible apply kept_runDeferred | with_reducible apply Kept.ite | split

theorem row_FeatureSlice (s : State)  : KeptBy s (execFeatureSlice s) := by
  unfold execFeatureSlice
  try dsimp only
  repeat' first
    | with_reducible assumption | with_reducible exact Kept.refl _ | with_reducible apply KeptBy.next
    | with_reducible apply KeptBy.ite | with_reducible apply kept_workBlocks | with_reducible apply Kept.ite
    | (fail_if_no_progress (with_reducible apply Kept.mk_of <;> try with_reducible rfl)) | split

/-! ## TickEdge -/

theorem row_PeriodBoundary (s : State) (read : Nat) : KeptBy s (execPeriodBoundary read s) := by
  unfold execPeriodBoundary
  try dsimp only
  repeat' first
    | with_reducible assumption | with_reducible exact Kept.refl _ | with_reducible apply KeptBy.next
    | with_reducible apply KeptBy.ite | with_reducible apply kept_inOneCycle | with_reducible apply kept_periodWork
    | with_reducible apply Kept.ite | split | (intro _; intros; try dsimp only)

/-! ## Downlink -/

theorem row_DownlinkSuperframe (s : State) (ins : List Nat) : KeptBy s (execDownlinkSuperframe s ins) := by
  unfold execDownlinkSuperframe
  try dsimp only
  repeat' first
    | with_reducible assumption | with_reducible exact Kept.refl _ | with_reducible apply KeptBy.next
    | with_reducible apply KeptBy.ite | with_reducible apply kept_inOneCycle | with_reducible apply kept_sendSuperframe
    | with_reducible apply Kept.ite | split | (intro _; intros; try dsimp only)

theorem row_CommitResolve (s : State)  : KeptBy s (execCommitResolve s) := by
  unfold execCommitResolve
  try dsimp only
  repeat' first
    | with_reducible assumption | with_reducible exact Kept.refl _ | with_reducible apply KeptBy.next
    | with_reducible apply KeptBy.ite | with_reducible apply kept_modFrond
    | (with_reducible refine Kept.foldl (fun t' a' h' => ?_) _ ?_ <;> (try dsimp only)) | with_reducible apply Kept.ite
    | (fail_if_no_progress (with_reducible apply Kept.mk_of <;> try with_reducible rfl)) | split

/-! ## UplinkData -/

theorem row_U0 (s : State) (f : Nat) (fr : Frame) (slow : List Nat) : KeptBy s (execU0 f fr s slow) := by
  unfold execU0
  try dsimp only
  repeat' first
    | with_reducible assumption | with_reducible exact Kept.refl _ | with_reducible apply KeptBy.next
    | with_reducible apply KeptBy.ite | with_reducible apply kept_inOneCycle | with_reducible apply kept_slowRings
    | with_reducible apply kept_receiveU0 | with_reducible apply kept_tryComplete | with_reducible apply Kept.ite | split
    | (intro _; intros; try dsimp only)

theorem row_UplinkFrame (s : State) (f kind : Nat) (fr : Frame) (flags : List Nat) (slow : List Nat) : KeptBy s (execUplinkFrame f kind fr flags s slow) := by
  unfold execUplinkFrame
  try dsimp only
  repeat' first
    | with_reducible assumption | with_reducible exact Kept.refl _ | with_reducible apply KeptBy.next
    | with_reducible apply KeptBy.ite | with_reducible apply kept_inOneCycle | with_reducible apply kept_slowRings
    | with_reducible apply kept_takeUplink | with_reducible apply Kept.ite | split | (intro _; intros; try dsimp only)

/-! ## UplinkU0 -/

theorem row_LinkUp (s : State) (f : Nat) (linkB : Bool) : KeptBy s (execLinkUp f linkB s) := by
  unfold execLinkUp
  try dsimp only
  repeat' first
    | with_reducible assumption | with_reducible exact Kept.refl _ | with_reducible apply KeptBy.next
    | with_reducible apply KeptBy.ite | with_reducible apply kept_clearSrc | with_reducible apply kept_modLink
    | with_reducible apply Kept.ite | (fail_if_no_progress (with_reducible apply Kept.mk_of <;> try with_reducible rfl)) | split

/-! ## TimeRows -/

theorem row_TimeLocked (s : State)  : KeptBy s (execTimeLocked s) := by
  unfold execTimeLocked
  try dsimp only
  repeat' first
    | with_reducible assumption | with_reducible exact Kept.refl _ | with_reducible apply KeptBy.next
    | with_reducible apply KeptBy.ite | with_reducible apply kept_inOneCycle | with_reducible apply kept_setTime
    | with_reducible apply Kept.ite | split | (intro _; intros; try dsimp only)

theorem row_TimeHoldover (s : State)  : KeptBy s (execTimeHoldover s) := by
  unfold execTimeHoldover
  try dsimp only
  repeat' first
    | with_reducible assumption | with_reducible exact Kept.refl _ | with_reducible apply KeptBy.next
    | with_reducible apply KeptBy.ite | with_reducible apply kept_inOneCycle | with_reducible apply kept_setTime
    | with_reducible apply Kept.ite | split | (intro _; intros; try dsimp only)

theorem row_TimeRegained (s : State)  : KeptBy s (execTimeRegained s) := by
  unfold execTimeRegained
  try dsimp only
  repeat' first
    | with_reducible assumption | with_reducible exact Kept.refl _ | with_reducible apply KeptBy.next
    | with_reducible apply KeptBy.ite | with_reducible apply kept_inOneCycle | with_reducible apply kept_setTime
    | with_reducible apply Kept.ite | split | (intro _; intros; try dsimp only)

theorem row_SyncInSnap (s : State) (cycles : Nat) : KeptBy s (execSyncInSnap cycles s) := by
  unfold execSyncInSnap
  try dsimp only
  repeat' first
    | with_reducible assumption | with_reducible exact Kept.refl _ | with_reducible apply KeptBy.next
    | with_reducible apply KeptBy.ite | with_reducible apply kept_snapFrondIn
    | (with_reducible refine Kept.foldl (fun t' a' h' => ?_) _ ?_ <;> (try dsimp only)) | with_reducible apply Kept.ite | split

theorem row_SyncInPhaseReset (s : State)  : KeptBy s (execSyncInPhaseReset s) := by
  unfold execSyncInPhaseReset
  try dsimp only
  repeat' first
    | with_reducible assumption | with_reducible exact Kept.refl _ | with_reducible apply KeptBy.next
    | with_reducible apply KeptBy.ite | with_reducible apply Kept.ite
    | (fail_if_no_progress (with_reducible apply Kept.mk_of <;> try with_reducible rfl)) | split

theorem row_SyncInCaptureTrigger (s : State) (cycles : Nat) : KeptBy s (execSyncInCaptureTrigger cycles s) := by
  unfold execSyncInCaptureTrigger
  try dsimp only
  repeat' first
    | with_reducible assumption | with_reducible exact Kept.refl _ | with_reducible apply KeptBy.next
    | with_reducible apply KeptBy.ite | with_reducible apply kept_capTrigger
    | with_reducible refine kept_capTrigger_eq (by assumption) ?_
    | (with_reducible refine Kept.foldl (fun t' a' h' => ?_) _ ?_ <;> (try dsimp only)) | with_reducible apply Kept.ite | split

theorem row_SyncDone (s : State)  : KeptBy s (execSyncDone s) := by
  unfold execSyncDone
  try dsimp only
  repeat' first
    | with_reducible assumption | with_reducible exact Kept.refl _ | with_reducible apply KeptBy.next
    | with_reducible apply KeptBy.ite | with_reducible apply kept_finishSync | with_reducible apply Kept.ite | split

theorem row_TickOutFall (s : State)  : KeptBy s (execTickOutFall s) := by
  unfold execTickOutFall
  try dsimp only
  repeat' first
    | with_reducible assumption | with_reducible exact Kept.refl _ | with_reducible apply KeptBy.next
    | with_reducible apply KeptBy.ite | with_reducible apply Kept.ite
    | (fail_if_no_progress (with_reducible apply Kept.mk_of <;> try with_reducible rfl)) | split

theorem row_SyncOutRepeat (s : State) (level : Bool) : KeptBy s (execSyncOutRepeat level s) := by
  unfold execSyncOutRepeat
  try dsimp only
  repeat' first
    | with_reducible assumption | with_reducible exact Kept.refl _ | with_reducible apply KeptBy.next
    | with_reducible apply KeptBy.ite | with_reducible apply Kept.ite
    | (fail_if_no_progress (with_reducible apply Kept.mk_of <;> try with_reducible rfl)) | split

/-! ## Capture -/

theorem row_CaptureReadout (s : State) (r : Nat) : KeptBy s (execCaptureReadout r s) := by
  unfold execCaptureReadout
  try dsimp only
  repeat' first
    | with_reducible assumption | with_reducible exact Kept.refl _ | with_reducible apply KeptBy.next
    | with_reducible apply KeptBy.ite | with_reducible apply kept_modCap | with_reducible apply kept_capReadout
    | with_reducible apply Kept.ite | (fail_if_no_progress (with_reducible apply Kept.mk_of <;> try with_reducible rfl)) | split

/-! ## Delivery -/

theorem row_RecordDelivery (s : State) (q : Nat) (bad : Bad) : KeptBy s (execRecordDelivery q bad s) := by
  unfold execRecordDelivery
  try dsimp only
  repeat' first
    | with_reducible assumption | with_reducible exact Kept.refl _ | with_reducible apply KeptBy.next
    | with_reducible apply KeptBy.ite | with_reducible apply kept_publish | with_reducible apply kept_cellGone
    | with_reducible apply kept_eventForward | with_reducible apply kept_drainCheck | with_reducible apply kept_deliverRing
    | with_reducible apply Kept.ite | split

theorem row_HoldoffExpiry (s : State) (r : Nat) : KeptBy s (execHoldoffExpiry r s) := by
  unfold execHoldoffExpiry
  try dsimp only
  repeat' first
    | with_reducible assumption | with_reducible exact Kept.refl _ | with_reducible apply KeptBy.next
    | with_reducible apply KeptBy.ite | with_reducible apply kept_msi | with_reducible apply kept_modRing
    | with_reducible apply Kept.ite | (fail_if_no_progress (with_reducible apply Kept.mk_of <;> try with_reducible rfl)) | split

theorem row_LspFifoMove (s : State) (bad : List (Nat × List (Nat × Byte))) : KeptBy s (execLspFifoMove bad s) := by
  unfold execLspFifoMove
  try dsimp only
  repeat' first
    | with_reducible assumption | with_reducible exact Kept.refl _ | with_reducible apply KeptBy.next
    | with_reducible apply KeptBy.ite | with_reducible apply kept_settle | with_reducible apply kept_lspSettle
    | with_reducible apply kept_cellGone | (with_reducible refine Kept.foldl (fun t' a' h' => ?_) _ ?_ <;> (try dsimp only))
    | with_reducible apply Kept.ite | (fail_if_no_progress (with_reducible apply Kept.mk_of <;> try with_reducible rfl)) | split

theorem row_LspRead (s : State)  : KeptBy s (execLspRead s) := by
  unfold execLspRead
  try dsimp only
  repeat' first
    | with_reducible assumption | with_reducible exact Kept.refl _ | with_reducible apply KeptBy.next
    | with_reducible apply KeptBy.ite | with_reducible apply kept_outp | with_reducible apply kept_lspStages
    | with_reducible apply Kept.ite | (fail_if_no_progress (with_reducible apply Kept.mk_of <;> try with_reducible rfl)) | split

theorem row_FlushTakeEffect (s : State) (q : Nat) : KeptBy s (execFlushTakeEffect q s) := by
  unfold execFlushTakeEffect
  try dsimp only
  repeat' first
    | with_reducible assumption | with_reducible exact Kept.refl _ | with_reducible apply KeptBy.next
    | with_reducible apply KeptBy.ite | with_reducible apply kept_flushNow | with_reducible apply Kept.ite | split

theorem row_DatagramClose (s : State) (i : Nat) : KeptBy s (execDatagramClose i s) := by
  unfold execDatagramClose
  try dsimp only
  repeat' first
    | with_reducible assumption | with_reducible exact Kept.refl _ | with_reducible apply KeptBy.next
    | with_reducible apply KeptBy.ite | with_reducible apply kept_closeGram | with_reducible apply Kept.ite | split

theorem row_LspRdclkEdge (s : State)  : KeptBy s (execLspRdclkEdge s) := by
  unfold execLspRdclkEdge
  try dsimp only
  repeat' first
    | with_reducible assumption | with_reducible exact Kept.refl _ | with_reducible apply KeptBy.next
    | with_reducible apply KeptBy.ite | with_reducible apply kept_lspStages | with_reducible apply Kept.ite | split

theorem row_ReserveStepBoundary (s : State)  : KeptBy s (execReserveStepBoundary s) := by
  unfold execReserveStepBoundary
  try dsimp only
  repeat' first
    | with_reducible assumption | with_reducible exact Kept.refl _ | with_reducible apply KeptBy.next
    | with_reducible apply KeptBy.ite | with_reducible apply kept_settle
    | (with_reducible refine Kept.foldl (fun t' a' h' => ?_) _ ?_ <;> (try dsimp only)) | with_reducible apply Kept.ite
    | (fail_if_no_progress (with_reducible apply Kept.mk_of <;> try with_reducible rfl)) | split

/-! ## RegRows -/

theorem row_DbCmd (s : State) (v : Word) : KeptBy s (execDbCmd v s) := by
  unfold execDbCmd
  try dsimp only
  repeat' first
    | with_reducible assumption | with_reducible exact Kept.refl _ | with_reducible apply KeptBy.next
    | with_reducible apply KeptBy.ite | with_reducible apply kept_doorbell | with_reducible apply Kept.ite | split

theorem row_DbConsumer (s : State) (ofs : Nat) (v : Word) : KeptBy s (execDbConsumer ofs v s) := by
  unfold execDbConsumer
  try dsimp only
  repeat' first
    | with_reducible assumption | with_reducible exact Kept.refl _ | with_reducible apply KeptBy.next
    | with_reducible apply KeptBy.ite | with_reducible apply kept_bar2Write | with_reducible apply kept_unsupported
    | with_reducible apply Kept.ite | split

theorem row_RingEnable (s : State) (p : Path) (r : Nat) (v : Word) : KeptBy s (execRingEnable p r v s) := by
  unfold execRingEnable
  try dsimp only
  repeat' first
    | with_reducible assumption | with_reducible exact Kept.refl _ | with_reducible apply KeptBy.next
    | with_reducible apply KeptBy.ite | with_reducible apply kept_busWrite

theorem row_RingDisable (s : State) (p : Path) (r : Nat) (v : Word) : KeptBy s (execRingDisable p r v s) := by
  unfold execRingDisable
  try dsimp only
  repeat' first
    | with_reducible assumption | with_reducible exact Kept.refl _ | with_reducible apply KeptBy.next
    | with_reducible apply KeptBy.ite | with_reducible apply kept_busWrite

theorem row_StatusBaseWrite (s : State) (p : Path) (v : DWord) : KeptBy s (execStatusBaseWrite p v s) := by
  unfold execStatusBaseWrite
  try dsimp only
  repeat' first
    | with_reducible assumption | with_reducible exact Kept.refl _ | with_reducible apply KeptBy.next
    | with_reducible apply KeptBy.ite | with_reducible apply kept_busWrite

theorem row_ChnSel (s : State) (p : Path) (v : Word) : KeptBy s (execChnSel p v s) := by
  unfold execChnSel
  try dsimp only
  repeat' first
    | with_reducible assumption | with_reducible exact Kept.refl _ | with_reducible apply KeptBy.next
    | with_reducible apply KeptBy.ite | with_reducible apply kept_busWrite

theorem row_BroadcastWrite (s : State) (p : Path) (ofs : Nat) (v : Word) (chw : List (Nat × Word)) : KeptBy s (execBroadcastWrite p ofs v s chw) := by
  unfold execBroadcastWrite
  try dsimp only
  repeat' first
    | with_reducible assumption | with_reducible exact Kept.refl _ | with_reducible apply KeptBy.next
    | with_reducible apply KeptBy.ite | with_reducible apply kept_busWrite | with_reducible apply kept_busSticky
    | with_reducible apply Kept.ite | split

theorem row_BasicCodeWrite (s : State) (p : Path) (ofs : Nat) (v : Word) : KeptBy s (execBasicCodeWrite p ofs v s) := by
  unfold execBasicCodeWrite
  try dsimp only
  repeat' first
    | with_reducible assumption | with_reducible exact Kept.refl _ | with_reducible apply KeptBy.next
    | with_reducible apply KeptBy.ite | with_reducible apply kept_busWrite | with_reducible apply Kept.ite | split

theorem row_RwpValueWrite (s : State) (p : Path) (ofs : Nat) (v : Word) : KeptBy s (execRwpValueWrite p ofs v s) := by
  unfold execRwpValueWrite
  try dsimp only
  repeat' first
    | with_reducible assumption | with_reducible exact Kept.refl _ | with_reducible apply KeptBy.next
    | with_reducible apply KeptBy.ite | with_reducible apply kept_busWrite | with_reducible apply Kept.ite | split

theorem row_RwpComplementWrite (s : State) (p : Path) (ofs : Nat) (v : Word) : KeptBy s (execRwpComplementWrite p ofs v s) := by
  unfold execRwpComplementWrite
  try dsimp only
  repeat' first
    | with_reducible assumption | with_reducible exact Kept.refl _ | with_reducible apply KeptBy.next
    | with_reducible apply KeptBy.ite | with_reducible apply kept_busWrite | with_reducible apply Kept.ite | split

theorem row_Reg64LowRead (s : State) (p : Path) (ofs : Nat) (sp : Space) : KeptBy s (execReg64LowRead p ofs s sp) := by
  unfold execReg64LowRead
  try dsimp only
  repeat' first
    | with_reducible assumption | with_reducible exact Kept.refl _ | with_reducible apply KeptBy.next
    | with_reducible apply KeptBy.ite | with_reducible apply kept_modPath | with_reducible apply kept_answer
    | with_reducible apply kept_unsupported | with_reducible apply kept_endpointRead | with_reducible apply Kept.ite
    | (fail_if_no_progress (with_reducible apply Kept.mk_of <;> try with_reducible rfl)) | split

theorem row_Reg64HighRead (s : State) (p : Path) (ofs : Nat) : KeptBy s (execReg64HighRead p ofs s) := by
  unfold execReg64HighRead
  try dsimp only
  repeat' first
    | with_reducible assumption | with_reducible exact Kept.refl _ | with_reducible apply KeptBy.next
    | with_reducible apply KeptBy.ite | with_reducible apply kept_modPath | with_reducible apply kept_answer
    | with_reducible apply kept_unsupported | with_reducible apply Kept.ite
    | (fail_if_no_progress (with_reducible apply Kept.mk_of <;> try with_reducible rfl)) | split

theorem row_Reg64AtomicRead (s : State) (p : Path) (ofs : Nat) (sp : Space) : KeptBy s (execReg64AtomicRead p ofs s sp) := by
  unfold execReg64AtomicRead
  try dsimp only
  repeat' first
    | with_reducible assumption | with_reducible exact Kept.refl _ | with_reducible apply KeptBy.next
    | with_reducible apply KeptBy.ite | with_reducible apply kept_answer | with_reducible apply kept_unsupported
    | with_reducible apply kept_endpointRead | with_reducible apply Kept.ite | split

theorem row_Reg64LowWrite (s : State) (p : Path) (ofs : Nat) (v : Word) : KeptBy s (execReg64LowWrite p ofs v s) := by
  unfold execReg64LowWrite
  try dsimp only
  repeat' first
    | with_reducible assumption | with_reducible exact Kept.refl _ | with_reducible apply KeptBy.next
    | with_reducible apply KeptBy.ite | with_reducible apply kept_busWrite | with_reducible apply Kept.ite | split

theorem row_Reg64HighWrite (s : State) (p : Path) (ofs : Nat) (v : Word) : KeptBy s (execReg64HighWrite p ofs v s) := by
  unfold execReg64HighWrite
  try dsimp only
  repeat' first
    | with_reducible assumption | with_reducible exact Kept.refl _ | with_reducible apply KeptBy.next
    | with_reducible apply KeptBy.ite | with_reducible apply kept_busWrite | with_reducible apply Kept.ite | split

theorem row_MapPeekIdx (s : State) (p : Path) (v : Word) : KeptBy s (execMapPeekIdx p v s) := by
  unfold execMapPeekIdx
  try dsimp only
  repeat' first
    | with_reducible assumption | with_reducible exact Kept.refl _ | with_reducible apply KeptBy.next
    | with_reducible apply KeptBy.ite | with_reducible apply kept_busWrite

theorem row_Discard (s : State) (p : Path) (view : Bool) : KeptBy s (execDiscard p view s) := by
  unfold execDiscard
  try dsimp only
  repeat' first
    | with_reducible assumption | with_reducible exact Kept.refl _ | with_reducible apply KeptBy.next
    | with_reducible apply KeptBy.ite | with_reducible apply kept_busWrite

theorem row_CvuCtlAlg (s : State) (p : Path) (u alg : Nat) : KeptBy s (execCvuCtlAlg p u alg s) := by
  unfold execCvuCtlAlg
  try dsimp only
  repeat' first
    | with_reducible assumption | with_reducible exact Kept.refl _ | with_reducible apply KeptBy.next
    | with_reducible apply KeptBy.ite | with_reducible apply kept_busWrite

theorem row_CvuInit (s : State) (p : Path) (u alg : Nat) : KeptBy s (execCvuInit p u alg s) := by
  unfold execCvuInit
  try dsimp only
  repeat' first
    | with_reducible assumption | with_reducible exact Kept.refl _ | with_reducible apply KeptBy.next
    | with_reducible apply KeptBy.ite | with_reducible apply kept_busWrite

theorem row_CvuFeed8 (s : State) (p : Path) (u : Nat) (v : Word) : KeptBy s (execCvuFeed8 p u v s) := by
  unfold execCvuFeed8
  try dsimp only
  repeat' first
    | with_reducible assumption | with_reducible exact Kept.refl _ | with_reducible apply KeptBy.next
    | with_reducible apply KeptBy.ite | with_reducible apply kept_busWrite

theorem row_CvuFeed16 (s : State) (p : Path) (u : Nat) (v : Word) : KeptBy s (execCvuFeed16 p u v s) := by
  unfold execCvuFeed16
  try dsimp only
  repeat' first
    | with_reducible assumption | with_reducible exact Kept.refl _ | with_reducible apply KeptBy.next
    | with_reducible apply KeptBy.ite | with_reducible apply kept_busWrite

theorem row_CvuFeed32 (s : State) (p : Path) (u : Nat) (v : Word) : KeptBy s (execCvuFeed32 p u v s) := by
  unfold execCvuFeed32
  try dsimp only
  repeat' first
    | with_reducible assumption | with_reducible exact Kept.refl _ | with_reducible apply KeptBy.next
    | with_reducible apply KeptBy.ite | with_reducible apply kept_busWrite

theorem row_CvuStateWrite (s : State) (p : Path) (u : Nat) (v : Word) : KeptBy s (execCvuStateWrite p u v s) := by
  unfold execCvuStateWrite
  try dsimp only
  repeat' first
    | with_reducible assumption | with_reducible exact Kept.refl _ | with_reducible apply KeptBy.next
    | with_reducible apply KeptBy.ite | with_reducible apply kept_busWrite

theorem row_DbgCtlWrite (s : State) (p : Path) (v : Word) (copyBad otpBad : Bool) : KeptBy s (execDbgCtlWrite p v copyBad otpBad s) := by
  unfold execDbgCtlWrite
  try dsimp only
  repeat' first
    | with_reducible assumption | with_reducible exact Kept.refl _ | with_reducible apply KeptBy.next
    | with_reducible apply KeptBy.ite | with_reducible apply kept_lifeCycleCheck | with_reducible apply kept_dbgWrite
    | with_reducible apply Kept.ite | split

theorem row_RegisterWrite (s : State) (p : Path) (ofs len : Nat) (v : DWord) (hw : Word) (chw : List (Nat × Word)) (sp : Space) : KeptBy s (execRegisterWrite p ofs len v s hw chw sp) := by
  unfold execRegisterWrite
  try dsimp only
  repeat' first
    | with_reducible assumption | with_reducible exact Kept.refl _ | with_reducible apply KeptBy.next
    | with_reducible apply KeptBy.ite | with_reducible apply kept_busWrite | with_reducible apply kept_unsupported
    | with_reducible apply kept_busSticky | with_reducible apply kept_endpointWrite | with_reducible apply Kept.ite | split

/-! ## DescRows -/

theorem row_Nop (s : State) (d : Desc) : KeptBy s (execNop d s) := by
  unfold execNop
  try dsimp only
  repeat' first
    | with_reducible assumption | with_reducible exact Kept.refl _ | with_reducible apply KeptBy.next
    | with_reducible apply KeptBy.ite | with_reducible apply kept_sweepNops | with_reducible apply kept_takeDesc
    | (intro _; intros; try dsimp only)

theorem row_CfgWrite (s : State) (d : Desc) : KeptBy s (execCfgWrite d s) := by
  unfold execCfgWrite
  try dsimp only
  repeat' first
    | with_reducible assumption | with_reducible exact Kept.refl _ | with_reducible apply KeptBy.next
    | with_reducible apply KeptBy.ite | with_reducible apply kept_takeDesc | with_reducible apply kept_cfgAct
    | (intro _; intros; try dsimp only)

theorem row_Snap (s : State) (d : Desc) (cycles : Nat) : KeptBy s (execSnap d cycles s) := by
  unfold execSnap
  try dsimp only
  repeat' first
    | with_reducible assumption | with_reducible exact Kept.refl _ | with_reducible apply KeptBy.next
    | with_reducible apply KeptBy.ite | with_reducible apply kept_takeDesc | with_reducible apply kept_snapAct
    | (intro _; intros; try dsimp only)

theorem row_OutputSet (s : State) (d : Desc) : KeptBy s (execOutputSet d s) := by
  unfold execOutputSet
  try dsimp only
  repeat' first
    | with_reducible assumption | with_reducible exact Kept.refl _ | with_reducible apply KeptBy.next
    | with_reducible apply KeptBy.ite | with_reducible apply kept_takeDesc | with_reducible apply kept_outAct
    | (intro _; intros; try dsimp only)

theorem row_Arm (s : State) (d : Desc) : KeptBy s (execArm d s) := by
  unfold execArm
  try dsimp only
  repeat' first
    | with_reducible assumption | with_reducible exact Kept.refl _ | with_reducible apply KeptBy.next
    | with_reducible apply KeptBy.ite | with_reducible apply kept_takeDesc | with_reducible apply kept_armAct
    | (intro _; intros; try dsimp only)

theorem row_Disarm (s : State) (d : Desc) : KeptBy s (execDisarm d s) := by
  unfold execDisarm
  try dsimp only
  repeat' first
    | with_reducible assumption | with_reducible exact Kept.refl _ | with_reducible apply KeptBy.next
    | with_reducible apply KeptBy.ite | with_reducible apply kept_takeDesc | with_reducible apply kept_armAct
    | (intro _; intros; try dsimp only)

theorem row_Trigger (s : State) (d : Desc) (cycles : Nat) : KeptBy s (execTrigger d cycles s) := by
  unfold execTrigger
  try dsimp only
  repeat' first
    | with_reducible assumption | with_reducible exact Kept.refl _ | with_reducible apply KeptBy.next
    | with_reducible apply KeptBy.ite | with_reducible apply kept_takeDesc | with_reducible apply kept_triggerAct
    | (intro _; intros; try dsimp only)

theorem row_MapRead (s : State) (d : Desc) : KeptBy s (execMapRead d s) := by
  unfold execMapRead
  try dsimp only
  repeat' first
    | with_reducible assumption | with_reducible exact Kept.refl _ | with_reducible apply KeptBy.next
    | with_reducible apply KeptBy.ite | with_reducible apply kept_takeDesc
    | (fail_if_no_progress (with_reducible apply Kept.mk_of <;> try with_reducible rfl)) | (intro _; intros; try dsimp only)

theorem row_MapReadDone (s : State)  : KeptBy s (execMapReadDone s) := by
  unfold execMapReadDone
  try dsimp only
  repeat' first
    | with_reducible assumption | with_reducible exact Kept.refl _ | with_reducible apply KeptBy.next
    | with_reducible apply KeptBy.ite | with_reducible apply kept_mapPull | with_reducible apply kept_mapEnd
    | with_reducible apply Kept.ite | split

theorem row_Flush (s : State) (d : Desc) : KeptBy s (execFlush d s) := by
  unfold execFlush
  try dsimp only
  repeat' first
    | with_reducible assumption | with_reducible exact Kept.refl _ | with_reducible apply KeptBy.next
    | with_reducible apply KeptBy.ite | with_reducible apply kept_takeDesc | with_reducible apply kept_flushAct
    | (intro _; intros; try dsimp only)

theorem row_RuleLoad (s : State) (d : Desc) : KeptBy s (execRuleLoad d s) := by
  unfold execRuleLoad
  try dsimp only
  repeat' first
    | with_reducible assumption | with_reducible exact Kept.refl _ | with_reducible apply KeptBy.next
    | with_reducible apply KeptBy.ite | with_reducible apply kept_takeDesc | with_reducible apply kept_ruleLoadAct
    | (intro _; intros; try dsimp only)

theorem row_SpeedTable (s : State) (d : Desc) : KeptBy s (execSpeedTable d s) := by
  unfold execSpeedTable
  try dsimp only
  repeat' first
    | with_reducible assumption | with_reducible exact Kept.refl _ | with_reducible apply KeptBy.next
    | with_reducible apply KeptBy.ite | with_reducible apply kept_complete | with_reducible apply kept_takeDesc
    | with_reducible apply kept_stageEdges | with_reducible apply Kept.ite | split | (intro _; intros; try dsimp only)

theorem row_Sync (s : State) (d : Desc) : KeptBy s (execSync d s) := by
  unfold execSync
  try dsimp only
  repeat' first
    | with_reducible assumption | with_reducible exact Kept.refl _ | with_reducible apply KeptBy.next
    | with_reducible apply KeptBy.ite | with_reducible apply kept_modOut | with_reducible apply kept_takeDesc
    | (fail_if_no_progress (with_reducible apply Kept.mk_of <;> try with_reducible rfl)) | (intro _; intros; try dsimp only)

theorem row_FaultClearChannel (s : State) (d : Desc) : KeptBy s (execFaultClearChannel d s) := by
  unfold execFaultClearChannel
  try dsimp only
  repeat' first
    | with_reducible assumption | with_reducible exact Kept.refl _ | with_reducible apply KeptBy.next
    | with_reducible apply KeptBy.ite | with_reducible apply kept_complete | with_reducible apply kept_takeDesc
    | with_reducible apply kept_sendClear | with_reducible apply Kept.ite | split | (intro _; intros; try dsimp only)

theorem row_FaultClearFrond (s : State) (d : Desc) : KeptBy s (execFaultClearFrond d s) := by
  unfold execFaultClearFrond
  try dsimp only
  repeat' first
    | with_reducible assumption | with_reducible exact Kept.refl _ | with_reducible apply KeptBy.next
    | with_reducible apply KeptBy.ite | with_reducible apply kept_takeDesc | with_reducible apply kept_clearFrondAct
    | (intro _; intros; try dsimp only)

theorem row_FaultClearSource (s : State) (d : Desc) : KeptBy s (execFaultClearSource d s) := by
  unfold execFaultClearSource
  try dsimp only
  repeat' first
    | with_reducible assumption | with_reducible exact Kept.refl _ | with_reducible apply KeptBy.next
    | with_reducible apply KeptBy.ite | with_reducible apply kept_takeDesc | with_reducible apply kept_clearSourceAct
    | (intro _; intros; try dsimp only)

theorem row_FaultClearLatch (s : State) (d : Desc) : KeptBy s (execFaultClearLatch d s) := by
  unfold execFaultClearLatch
  try dsimp only
  repeat' first
    | with_reducible assumption | with_reducible exact Kept.refl _ | with_reducible apply KeptBy.next
    | with_reducible apply KeptBy.ite | with_reducible apply kept_takeDesc | with_reducible apply kept_clearLatchAct
    | (intro _; intros; try dsimp only)

theorem row_CvuRun (s : State) (d : Desc) : KeptBy s (execCvuRun d s) := by
  unfold execCvuRun
  try dsimp only
  repeat' first
    | with_reducible assumption | with_reducible exact Kept.refl _ | with_reducible apply KeptBy.next
    | with_reducible apply KeptBy.ite | with_reducible apply kept_modOut | with_reducible apply kept_takeDesc
    | with_reducible apply Kept.ite | (fail_if_no_progress (with_reducible apply Kept.mk_of <;> try with_reducible rfl)) | split
    | (intro _; intros; try dsimp only)

theorem row_CvuRunDone (s : State) (u : Nat) : KeptBy s (execCvuRunDone u s) := by
  unfold execCvuRunDone
  try dsimp only
  repeat' first
    | with_reducible assumption | with_reducible exact Kept.refl _ | with_reducible apply KeptBy.next
    | with_reducible apply KeptBy.ite | with_reducible apply kept_cvuEnd | with_reducible apply Kept.ite | split

theorem row_Timeout (s : State) (didx : Half) (n : Nat) : KeptBy s (execTimeout didx n s) := by
  unfold execTimeout
  try dsimp only
  repeat' first
    | with_reducible assumption | with_reducible exact Kept.refl _ | with_reducible apply KeptBy.next
    | with_reducible apply KeptBy.ite | with_reducible apply kept_timeOut | with_reducible apply Kept.ite | split

theorem row_BadOpcode (s : State) (d : Desc) : KeptBy s (execBadOpcode d s) := by
  unfold execBadOpcode
  try dsimp only
  repeat' first
    | with_reducible assumption | with_reducible exact Kept.refl _ | with_reducible apply KeptBy.next
    | with_reducible apply KeptBy.ite | with_reducible apply kept_refuseDesc | with_reducible apply kept_acceptAlive
    | with_reducible apply kept_takeDesc | with_reducible apply Kept.ite
    | (fail_if_no_progress (with_reducible apply Kept.mk_of <;> try with_reducible rfl)) | split
    | (intro _; intros; try dsimp only)

/-! ## CommitRow -/

theorem row_Commit (s : State) (d : Desc) : KeptBy s (execCommit d s) := by
  unfold execCommit
  try dsimp only
  repeat' first
    | with_reducible assumption | with_reducible exact Kept.refl _ | with_reducible apply KeptBy.next
    | with_reducible apply KeptBy.ite | with_reducible apply kept_takeDesc | with_reducible apply kept_commitCore
    | (intro _; intros; try dsimp only)

/-! ## SecRows -/

theorem row_BlobLoad (s : State) (d : Desc) : KeptBy s (execBlobLoad d s) := by
  unfold execBlobLoad
  try dsimp only
  repeat' first
    | with_reducible assumption | with_reducible exact Kept.refl _ | with_reducible apply KeptBy.next
    | with_reducible apply KeptBy.ite | with_reducible apply kept_takeDesc | with_reducible apply kept_blobAct
    | (intro _; intros; try dsimp only)

theorem row_BlobStore (s : State)  : KeptBy s (execBlobStore s) := by
  unfold execBlobStore
  try dsimp only
  repeat' first
    | with_reducible assumption | with_reducible exact Kept.refl _ | with_reducible apply KeptBy.next
    | with_reducible apply KeptBy.ite | with_reducible apply kept_complete | with_reducible apply Kept.ite
    | (fail_if_no_progress (with_reducible apply Kept.mk_of <;> try with_reducible rfl)) | split | rfl

theorem row_GetNonce (s : State) (d : Desc) (copyBad otpBad : Bool) : KeptBy s (execGetNonce d copyBad otpBad s) := by
  unfold execGetNonce
  try dsimp only
  repeat' first
    | with_reducible assumption | with_reducible exact Kept.refl _ | with_reducible apply KeptBy.next
    | with_reducible apply KeptBy.ite | with_reducible apply kept_complete | with_reducible apply kept_plainOp
    | (fail_if_no_progress (with_reducible apply Kept.mk_of <;> try with_reducible rfl)) | (intro _; intros; try dsimp only)

theorem row_GetIdentity (s : State) (d : Desc) (copyBad otpBad : Bool) : KeptBy s (execGetIdentity d copyBad otpBad s) := by
  unfold execGetIdentity
  try dsimp only
  repeat' first
    | with_reducible assumption | with_reducible exact Kept.refl _ | with_reducible apply KeptBy.next
    | with_reducible apply KeptBy.ite | with_reducible apply kept_plainOp | with_reducible apply kept_secOut
    | (intro _; intros; try dsimp only)

theorem row_GetState (s : State) (d : Desc) (copyBad otpBad : Bool) : KeptBy s (execGetState d copyBad otpBad s) := by
  unfold execGetState
  try dsimp only
  repeat' first
    | with_reducible assumption | with_reducible exact Kept.refl _ | with_reducible apply KeptBy.next
    | with_reducible apply KeptBy.ite | with_reducible apply kept_complete | with_reducible apply kept_plainOp
    | (intro _; intros; try dsimp only)

theorem row_KeyInstall (s : State) (d : Desc) (copyBad otpBad : Bool) : KeptBy s (execKeyInstall d copyBad otpBad s) := by
  unfold execKeyInstall
  try dsimp only
  repeat' first
    | with_reducible assumption | with_reducible exact Kept.refl _ | with_reducible apply KeptBy.next
    | with_reducible apply KeptBy.ite | with_reducible apply kept_tokenOp | with_reducible apply kept_keyInstall
    | (intro _; intros; try dsimp only)

theorem row_Unlock (s : State) (d : Desc) (copyBad otpBad : Bool) : KeptBy s (execUnlock d copyBad otpBad s) := by
  unfold execUnlock
  try dsimp only
  repeat' first
    | with_reducible assumption | with_reducible exact Kept.refl _ | with_reducible apply KeptBy.next
    | with_reducible apply KeptBy.ite | with_reducible apply kept_complete | with_reducible apply kept_secBreak
    | with_reducible apply kept_useNonce | with_reducible apply kept_tokenOp | with_reducible apply Kept.ite
    | (fail_if_no_progress (with_reducible apply Kept.mk_of <;> try with_reducible rfl)) | split
    | (intro _; intros; try dsimp only)

theorem row_Relock (s : State) (d : Desc) (copyBad otpBad : Bool) : KeptBy s (execRelock d copyBad otpBad s) := by
  unfold execRelock
  try dsimp only
  repeat' first
    | with_reducible assumption | with_reducible exact Kept.refl _ | with_reducible apply KeptBy.next
    | with_reducible apply KeptBy.ite | with_reducible apply kept_complete | with_reducible apply kept_plainOp
    | (fail_if_no_progress (with_reducible apply Kept.mk_of <;> try with_reducible rfl)) | (intro _; intros; try dsimp only)

theorem row_FwUpdate (s : State) (d : Desc) (copyBad otpBad : Bool) : KeptBy s (execFwUpdate d copyBad otpBad s) := by
  unfold execFwUpdate
  try dsimp only
  repeat' first
    | with_reducible assumption | with_reducible exact Kept.refl _ | with_reducible apply KeptBy.next
    | with_reducible apply KeptBy.ite | with_reducible apply kept_takeDesc | with_reducible apply kept_secGate
    | with_reducible apply kept_fwChunk | (fail_if_no_progress (with_reducible apply Kept.mk_of <;> try with_reducible rfl))
    | (intro _; intros; try dsimp only)

theorem row_FwConfirm (s : State) (d : Desc) (copyBad otpBad : Bool) : KeptBy s (execFwConfirm d copyBad otpBad s) := by
  unfold execFwConfirm
  try dsimp only
  repeat' first
    | with_reducible assumption | with_reducible exact Kept.refl _ | with_reducible apply KeptBy.next
    | with_reducible apply KeptBy.ite | with_reducible apply kept_complete | with_reducible apply kept_plainOp
    | (fail_if_no_progress (with_reducible apply Kept.mk_of <;> try with_reducible rfl)) | (intro _; intros; try dsimp only)

theorem row_LdevidGen (s : State) (d : Desc) (copyBad otpBad : Bool) : KeptBy s (execLdevidGen d copyBad otpBad s) := by
  unfold execLdevidGen
  try dsimp only
  repeat' first
    | with_reducible assumption | with_reducible exact Kept.refl _ | with_reducible apply KeptBy.next
    | with_reducible apply KeptBy.ite | with_reducible apply kept_complete | with_reducible apply kept_plainOp
    | with_reducible apply kept_secOut | with_reducible apply Kept.ite
    | (fail_if_no_progress (with_reducible apply Kept.mk_of <;> try with_reducible rfl)) | split
    | (intro _; intros; try dsimp only)

theorem row_LdevidInstall (s : State) (d : Desc) (copyBad otpBad : Bool) : KeptBy s (execLdevidInstall d copyBad otpBad s) := by
  unfold execLdevidInstall
  try dsimp only
  repeat' first
    | with_reducible assumption | with_reducible exact Kept.refl _ | with_reducible apply KeptBy.next
    | with_reducible apply KeptBy.ite | with_reducible apply kept_complete | with_reducible apply kept_useNonce
    | with_reducible apply kept_tokenOp | (fail_if_no_progress (with_reducible apply Kept.mk_of <;> try with_reducible rfl))
    | (intro _; intros; try dsimp only)

theorem row_SelfTest (s : State) (d : Desc) (copyBad otpBad : Bool) : KeptBy s (execSelfTest d copyBad otpBad s) := by
  unfold execSelfTest
  try dsimp only
  repeat' first
    | with_reducible assumption | with_reducible exact Kept.refl _ | with_reducible apply KeptBy.next
    | with_reducible apply KeptBy.ite | with_reducible apply kept_plainOp | (intro _; intros; try dsimp only)

theorem row_AuthLockExpiry (s : State)  : KeptBy s (execAuthLockExpiry s) := by
  unfold execAuthLockExpiry
  try dsimp only
  repeat' first
    | with_reducible assumption | with_reducible exact Kept.refl _ | with_reducible apply KeptBy.next
    | with_reducible apply KeptBy.ite | with_reducible apply Kept.ite
    | (fail_if_no_progress (with_reducible apply Kept.mk_of <;> try with_reducible rfl)) | split

theorem row_PresenceExpiry (s : State)  : KeptBy s (execPresenceExpiry s) := by
  unfold execPresenceExpiry
  try dsimp only
  repeat' first
    | with_reducible assumption | with_reducible exact Kept.refl _ | with_reducible apply KeptBy.next
    | with_reducible apply KeptBy.ite | with_reducible apply kept_usePresence | with_reducible apply Kept.ite | split

theorem row_CryptoError (s : State)  : KeptBy s (execCryptoError s) := by
  unfold execCryptoError
  try dsimp only
  repeat' first
    | with_reducible assumption | with_reducible exact Kept.refl _ | with_reducible apply KeptBy.next
    | with_reducible apply KeptBy.ite | with_reducible apply kept_cryptoError | with_reducible apply Kept.ite | split

theorem row_ZeroisationComplete (s : State)  : KeptBy s (execZeroisationComplete s) := by
  unfold execZeroisationComplete
  try dsimp only
  repeat' first
    | with_reducible assumption | with_reducible exact Kept.refl _ | with_reducible apply KeptBy.next
    | with_reducible apply KeptBy.ite | with_reducible apply kept_completeOpt | with_reducible apply Kept.ite
    | (fail_if_no_progress (with_reducible apply Kept.mk_of <;> try with_reducible rfl)) | split

theorem row_SelfTestDone (s : State) (alg : Nat) : KeptBy s (execSelfTestDone alg s) := by
  unfold execSelfTestDone
  try dsimp only
  repeat' first
    | with_reducible assumption | with_reducible exact Kept.refl _ | with_reducible apply KeptBy.next
    | with_reducible apply KeptBy.ite | with_reducible apply kept_complete | with_reducible apply kept_cryptoError
    | with_reducible apply Kept.ite | split

/-! ## PowerRows -/

theorem row_FunctionLevelReset (s : State)  : KeptBy s (execFunctionLevelReset s) := by
  unfold execFunctionLevelReset
  try dsimp only
  repeat' first
    | with_reducible assumption | with_reducible exact Kept.refl _ | with_reducible apply KeptBy.next
    | with_reducible apply KeptBy.ite | with_reducible apply kept_busMaster | with_reducible apply Kept.ite | split

theorem row_BusMasterClear (s : State)  : KeptBy s (execBusMasterClear s) := by
  unfold execBusMasterClear
  try dsimp only
  repeat' first
    | with_reducible assumption | with_reducible exact Kept.refl _ | with_reducible apply KeptBy.next
    | with_reducible apply KeptBy.ite | with_reducible apply kept_busMaster | with_reducible apply Kept.ite | split

theorem row_PciePerst (s : State) (high : Bool) (l : LinkIn) : KeptBy s (execPciePerst high l s) := by
  unfold execPciePerst
  try dsimp only
  repeat' first
    | with_reducible assumption | with_reducible exact Kept.refl _ | with_reducible apply KeptBy.next
    | with_reducible apply KeptBy.ite | with_reducible apply kept_ringsOff | with_reducible apply kept_trainLink
    | with_reducible apply Kept.ite | (fail_if_no_progress (with_reducible apply Kept.mk_of <;> try with_reducible rfl)) | split

theorem row_PcieDegraded (s : State) (gts width : Nat) : KeptBy s (execPcieDegraded gts width s) := by
  unfold execPcieDegraded
  try dsimp only
  repeat' first
    | with_reducible assumption | with_reducible exact Kept.refl _ | with_reducible apply KeptBy.next
    | with_reducible apply KeptBy.ite | with_reducible apply kept_linkSource | with_reducible apply Kept.ite
    | (fail_if_no_progress (with_reducible apply Kept.mk_of <;> try with_reducible rfl)) | split

theorem row_VlogValid (s : State) (cold resetLow boot1 : Bool) : KeptBy s (execVlogValid cold resetLow boot1 s) := by
  unfold execVlogValid
  split
  · exact .next (.refl _)
  · refine ⟨_, rfl, ?_⟩
    dsimp only
    split
    · rename_i l
      exact ⟨rfl, rfl, rfl, rfl, rfl, rfl, List.suffix_refl _, id, fun _ _ => l, rfl, id⟩
    · exact ⟨rfl, rfl, rfl, rfl, rfl, rfl, List.suffix_refl _, id, fun _ h => by simp at h, rfl, id⟩

theorem row_AuxPowerEnable (s : State) (g : Nat) : KeptBy s (execAuxPowerEnable g s) := by
  unfold execAuxPowerEnable
  try dsimp only
  repeat' first
    | with_reducible assumption | with_reducible exact Kept.refl _ | with_reducible apply KeptBy.next
    | with_reducible apply KeptBy.ite | with_reducible apply Kept.ite
    | (fail_if_no_progress (with_reducible apply Kept.mk_of <;> try with_reducible rfl)) | split

theorem row_BootDone (s : State) : KeptBy s (execBootDone s) := by
  have up : Kept s { s with phase := .running, pwr := { s.pwr with booted := true, presPend := false }, sec := { s.sec with approved := notApproved s == 0, naCause := notApproved s, presence := s.pwr.presPend } } :=
    ⟨rfl, rfl, rfl, rfl, rfl, rfl, List.suffix_refl _, id, fun _ h => by simp at h, rfl, id⟩
  unfold execBootDone
  split
  · exact .next (.refl _)
  · dsimp only
    split
    · exact .next up
    · refine .next ?_
      split
      · exact kept_raise _ _ _ _ _ _ _ _ (kept_mpRings up)
      · exact kept_mpRings up

theorem row_AutonomousCommit (s : State)  : KeptBy s (execAutonomousCommit s) := by
  unfold execAutonomousCommit
  try dsimp only
  repeat' first
    | with_reducible assumption | with_reducible exact Kept.refl _ | with_reducible apply KeptBy.next
    | with_reducible apply KeptBy.ite | with_reducible apply kept_outp | with_reducible apply kept_modRing
    | with_reducible apply kept_takeDesc | with_reducible apply kept_commitCore | with_reducible apply kept_stageBlob
    | with_reducible apply Kept.ite | (fail_if_no_progress (with_reducible apply Kept.mk_of <;> try with_reducible rfl)) | split
    | (intro _; intros; try dsimp only)

theorem row_SupplyPhase (s : State) (ph : Nat) : KeptBy s (execSupplyPhase ph s) := by
  unfold execSupplyPhase
  try dsimp only
  repeat' first
    | with_reducible assumption | with_reducible exact Kept.refl _ | with_reducible apply KeptBy.next
    | with_reducible apply KeptBy.ite | with_reducible apply kept_phaseSrc | with_reducible apply Kept.ite
    | (fail_if_no_progress (with_reducible apply Kept.mk_of <;> try with_reducible rfl)) | split

theorem row_SupplyPhaseRetry (s : State) (ph : Nat) (restored : Bool) : KeptBy s (execSupplyPhaseRetry ph restored s) := by
  unfold execSupplyPhaseRetry
  try dsimp only
  repeat' first
    | with_reducible assumption | with_reducible exact Kept.refl _ | with_reducible apply KeptBy.next
    | with_reducible apply KeptBy.ite | with_reducible apply kept_phaseSrc | with_reducible apply Kept.ite
    | (fail_if_no_progress (with_reducible apply Kept.mk_of <;> try with_reducible rfl)) | split

/-! ## NetRows -/

theorem row_EthLinkDown (s : State) (p : Nat) (v : TimeView) : KeptBy s (execEthLinkDown p v s) := by
  unfold execEthLinkDown
  try dsimp only
  repeat' first
    | with_reducible assumption | with_reducible exact Kept.refl _ | with_reducible apply KeptBy.next
    | with_reducible apply KeptBy.ite | with_reducible apply kept_inOneCycle | with_reducible apply kept_setTime
    | with_reducible apply kept_modPort | with_reducible apply kept_ethSrc | with_reducible apply kept_setView
    | with_reducible apply Kept.ite | (fail_if_no_progress (with_reducible apply Kept.mk_of <;> try with_reducible rfl)) | split
    | (intro _; intros; try dsimp only)

theorem row_EthLinkUp (s : State) (p speed : Nat) (v : TimeView) : KeptBy s (execEthLinkUp p speed v s) := by
  unfold execEthLinkUp
  try dsimp only
  repeat' first
    | with_reducible assumption | with_reducible exact Kept.refl _ | with_reducible apply KeptBy.next
    | with_reducible apply KeptBy.ite | with_reducible apply kept_modPort | with_reducible apply kept_ethSrc
    | with_reducible apply kept_setView | with_reducible apply Kept.ite
    | (fail_if_no_progress (with_reducible apply Kept.mk_of <;> try with_reducible rfl)) | split

theorem row_EthFrame (s : State) (p : Nat) (b : List Byte) (v : TimeView) : KeptBy s (execEthFrame p b v s) := by
  unfold execEthFrame
  try dsimp only
  repeat' first
    | with_reducible assumption | with_reducible exact Kept.refl _ | with_reducible apply KeptBy.next
    | with_reducible apply KeptBy.ite | with_reducible apply kept_modPort | with_reducible apply kept_sendPort
    | with_reducible apply kept_setView | with_reducible apply kept_switchFrame | with_reducible apply Kept.ite
    | (fail_if_no_progress (with_reducible apply Kept.mk_of <;> try with_reducible rfl)) | split

theorem row_TlsConnect (s : State) (root : List Byte) (h : TlsIn) : KeptBy s (execTlsConnect root s h) := by
  unfold execTlsConnect
  try dsimp only
  repeat' first
    | with_reducible assumption | with_reducible exact Kept.refl _ | with_reducible apply KeptBy.next
    | with_reducible apply KeptBy.ite | with_reducible apply kept_authFailed | with_reducible apply Kept.ite
    | (fail_if_no_progress (with_reducible apply Kept.mk_of <;> try with_reducible rfl)) | split

theorem row_Status (s : State) (id sq ofs n : Nat) : KeptBy s (execStatus id sq ofs n s) := by
  unfold execStatus
  try dsimp only
  repeat' first
    | with_reducible assumption | with_reducible exact Kept.refl _ | with_reducible apply KeptBy.next
    | with_reducible apply KeptBy.ite | with_reducible apply kept_replyTo | with_reducible apply kept_request
    | with_reducible apply Kept.ite | split | (intro _; intros; try dsimp only)

theorem row_NetSet (s : State) (id sq : Nat) (body : List Byte) : KeptBy s (execNetSet id sq body s) := by
  unfold execNetSet
  try dsimp only
  repeat' first
    | with_reducible assumption | with_reducible exact Kept.refl _ | with_reducible apply KeptBy.next
    | with_reducible apply KeptBy.ite | with_reducible apply kept_replyTo | with_reducible apply kept_stageNet
    | with_reducible apply kept_request | with_reducible apply Kept.ite | split | (intro _; intros; try dsimp only)

theorem row_MacsecKey (s : State) (id sq p : Nat) (rx : Bool) (an : Nat) (key : List Byte) (ssci pn : Nat) : KeptBy s (execMacsecKey id sq p rx an key ssci pn s) := by
  unfold execMacsecKey
  try dsimp only
  repeat' first
    | with_reducible assumption | with_reducible exact Kept.refl _ | with_reducible apply KeptBy.next
    | with_reducible apply KeptBy.ite | with_reducible apply kept_replyTo | with_reducible apply kept_modPort
    | with_reducible apply kept_macsecSrc | with_reducible apply kept_gateFlush | with_reducible apply kept_request
    | with_reducible apply Kept.ite | (fail_if_no_progress (with_reducible apply Kept.mk_of <;> try with_reducible rfl)) | split
    | (intro _; intros; try dsimp only)

theorem row_MacsecTxChange (s : State) (id sq p : Nat) : KeptBy s (execMacsecTxChange id sq p s) := by
  unfold execMacsecTxChange
  try dsimp only
  repeat' first
    | with_reducible assumption | with_reducible exact Kept.refl _ | with_reducible apply KeptBy.next
    | with_reducible apply KeptBy.ite | with_reducible apply kept_replyTo | with_reducible apply kept_modPort
    | with_reducible apply kept_macsecSrc | with_reducible apply kept_gateFlush | with_reducible apply kept_request
    | with_reducible apply Kept.ite | (fail_if_no_progress (with_reducible apply Kept.mk_of <;> try with_reducible rfl)) | split
    | (intro _; intros; try dsimp only)

theorem row_Descriptor (s : State) (id sq : Nat) (d : Desc) : KeptBy s (execDescriptor id sq d s) := by
  unfold execDescriptor
  try dsimp only
  repeat' first
    | with_reducible assumption | with_reducible exact Kept.refl _ | with_reducible apply KeptBy.next
    | with_reducible apply KeptBy.ite | with_reducible apply kept_outp | with_reducible apply kept_modRing
    | with_reducible apply kept_replyTo | with_reducible apply kept_request | with_reducible apply Kept.ite
    | (fail_if_no_progress (with_reducible apply Kept.mk_of <;> try with_reducible rfl)) | split
    | (intro _; intros; try dsimp only)

theorem row_TlsSessionClose (s : State) (id : Nat) : KeptBy s (execTlsSessionClose id s) := by
  unfold execTlsSessionClose
  try dsimp only
  repeat' first
    | with_reducible assumption | with_reducible exact Kept.refl _ | with_reducible apply KeptBy.next
    | with_reducible apply KeptBy.ite | (fail_if_no_progress (with_reducible apply Kept.mk_of <;> try with_reducible rfl))

theorem row_AddressAgeing (s : State) (m : Nat) : KeptBy s (execAddressAgeing m s) := by
  unfold execAddressAgeing
  try dsimp only
  repeat' first
    | with_reducible assumption | with_reducible exact Kept.refl _ | with_reducible apply KeptBy.next
    | with_reducible apply KeptBy.ite | (fail_if_no_progress (with_reducible apply Kept.mk_of <;> try with_reducible rfl))

theorem row_GateControlListEntry (s : State) (p : Nat) : KeptBy s (execGateControlListEntry p s) := by
  unfold execGateControlListEntry
  try dsimp only
  repeat' first
    | with_reducible assumption | with_reducible exact Kept.refl _ | with_reducible apply KeptBy.next
    | with_reducible apply KeptBy.ite | with_reducible apply kept_modPort | with_reducible apply kept_gateFlush
    | with_reducible apply Kept.ite | (fail_if_no_progress (with_reducible apply Kept.mk_of <;> try with_reducible rfl)) | split

end Sys2Proof.Machine
end

