-- ==== Sys2Proof/Laws/Special.lean ====
section
/-! SUPPORT. The lemmas of the commands that change one of the things nearly every command keeps: those of the fronds, TICK_EDGE, the
resets, BOOT_START, and the descriptors that move the life cycle. -/

set_option linter.unusedTactic false
set_option linter.unreachableTactic false

namespace Sys2Proof.Machine
open Sys2Proof

/-! ## The fronds' own side -/

/-- From s to t only frond f's own side changes among the things of Kept. -/
structure InField (f : Nat) (s t : State) : Prop where
  pending : t.pending = s.pending
  auto : t.auto = s.auto
  cfg : t.cfg = s.cfg
  count : t.tm.count = s.tm.count
  lc : t.sec.lc = s.sec.lc
  others : ∀ g, g ≠ f → fieldOf t g = fieldOf s g
  out : s.outbox <:+ t.outbox
  mem : Memory.wf s.map.mem → Memory.wf t.map.mem
  halt : HaltHeld s → HaltHeld t

theorem Kept.inField {s t : State} (f : Nat) (h : Kept s t) : InField f s t :=
  ⟨h.pending, h.auto, h.cfg, h.count, h.lc, fun g _ => by unfold fieldOf; rw [h.field], h.out, h.mem, h.halt⟩

theorem InField.refl (f : Nat) (s : State) : InField f s s := (Kept.refl s).inField f

theorem InField.trans {f : Nat} {s t u : State} (a : InField f s t) (b : InField f t u) : InField f s u :=
  ⟨b.pending.trans a.pending, b.auto.trans a.auto, b.cfg.trans a.cfg, b.count.trans a.count, b.lc.trans a.lc,
   fun g h => (b.others g h).trans (a.others g h), a.out.trans b.out, fun h => b.mem (a.mem h), fun h => b.halt (a.halt h)⟩

theorem InField.ite {f : Nat} {s a b : State} {c : Prop} [Decidable c] (ha : InField f s a) (hb : InField f s b) :
    InField f s (if c then a else b) := by
  split
  · exact ha
  · exact hb

theorem inField_tput (f : Nat) (x : Frond) (s : State) : InField f s { s with field := tput s.field f x } :=
  ⟨rfl, rfl, rfl, rfl, rfl, fun _ h => tget_tput_other _ h _ _, List.suffix_refl _, id, id⟩

theorem inField_modField (f : Nat) (g : Frond → Frond) (s : State) : InField f s (modField f g s) := inField_tput f _ s

theorem inField_sendUp (f : Nat) (fid : Byte) (payload : List Byte) (flags : List Nat) (s : State) :
    InField f s (sendUp f fid payload flags s) :=
  (inField_modField f _ s).trans ((kept_outp _ (Kept.refl _)).inField f)

theorem inField_rxDown (f : Nat) (fr : Frame) (fid : Byte) (lenOk : Nat → Bool) (use : Byte → List Byte → Frond → Frond) (s : State) :
    InField f s (rxDown f fr fid lenOk use s) := by
  unfold rxDown
  dsimp only
  generalize (if fid = 0x10 then _ else linkSeen fr.linkB (fieldOf s f)) = x
  split
  · exact .refl f s
  · split
    · exact (kept_rejectFrame _ _ _ (Kept.refl s)).inField f
    · split
      · split
        · exact inField_tput f _ s
        · split
          · exact ((inField_tput f _ s).trans (inField_modField f _ _)).trans ((kept_copyDiff _ _ _ (Kept.refl _)).inField f)
          · exact (inField_tput f _ s).trans ((kept_copyDiff _ _ _ (Kept.refl _)).inField f)
      · split
        · exact inField_tput f _ s
        · exact (inField_tput f _ s).trans (inField_modField f _ _)

theorem inField_rxOrder (f : Nat) (o : OrderFrame) (k : Byte) (use : Byte → Frond → Frond) (s : State) :
    InField f s (rxOrder f o k use s) := by
  unfold rxOrder
  dsimp only
  split
  · exact .refl f s
  · split
    · exact inField_tput f _ s
    · exact InField.ite (inField_tput f _ s) ((kept_rejectFrame _ _ _ (Kept.refl s)).inField f)

/-- The outcome is a next state in which only frond f's own side has changed. -/
def FieldBy (f : Nat) (s : State) (o : Host.Outcome State Fault Refusal) : Prop := ∃ t, o = .next t ∧ InField f s t

theorem FieldBy.next {f : Nat} {s t : State} (h : InField f s t) : FieldBy f s (.next t) := ⟨t, rfl, h⟩

theorem FieldBy.ite {f : Nat} {s : State} {a b : Host.Outcome State Fault Refusal} {c : Prop} [Decidable c] (ha : FieldBy f s a)
    (hb : FieldBy f s b) : FieldBy f s (if c then a else b) := by
  split
  · exact ha
  · exact hb

-- rows
theorem row_ContentionSafeState (s : State) (ch : Nat) (crit : List CritIn) : FieldBy (ch / 16) s (execContentionSafeState ch s crit) := by
  unfold execContentionSafeState
  try dsimp only
  repeat' first
    | with_reducible apply FieldBy.next | with_reducible apply FieldBy.ite | with_reducible apply InField.refl
    | with_reducible apply inField_modField | with_reducible apply inField_tput | with_reducible apply inField_rxDown | with_reducible apply inField_rxOrder

theorem row_D0 (s : State) (f : Nat) (fr : Frame) (fin : Nat) (crit : List CritIn) : FieldBy f s (execD0 f fr fin s crit) := by
  unfold execD0
  try dsimp only
  repeat' first
    | with_reducible apply FieldBy.next | with_reducible apply FieldBy.ite | with_reducible apply InField.refl
    | with_reducible apply inField_modField | with_reducible apply inField_tput | with_reducible apply inField_rxDown | with_reducible apply inField_rxOrder

theorem row_D1 (s : State) (f : Nat) (fr : Frame) : FieldBy f s (execD1 f fr s) := by
  unfold execD1
  try dsimp only
  repeat' first
    | with_reducible apply FieldBy.next | with_reducible apply FieldBy.ite | with_reducible apply InField.refl
    | with_reducible apply inField_modField | with_reducible apply inField_tput | with_reducible apply inField_rxDown | with_reducible apply inField_rxOrder

theorem row_D2 (s : State) (f : Nat) (fr : Frame) (ins : Nat) : FieldBy f s (execD2 f fr s ins) := by
  unfold execD2
  try dsimp only
  repeat' first
    | with_reducible apply FieldBy.next | with_reducible apply FieldBy.ite | with_reducible apply InField.refl
    | with_reducible apply inField_modField | with_reducible apply inField_tput | with_reducible apply inField_rxDown | with_reducible apply inField_rxOrder

theorem row_DS (s : State) (f : Nat) (fr : Frame) : FieldBy f s (execDS f fr s) := by
  unfold execDS
  try dsimp only
  repeat' first
    | with_reducible apply FieldBy.next | with_reducible apply FieldBy.ite | with_reducible apply InField.refl
    | with_reducible apply inField_modField | with_reducible apply inField_tput | with_reducible apply inField_rxDown | with_reducible apply inField_rxOrder

theorem row_SnapSync (s : State) (f : Nat) (o : OrderFrame) : FieldBy f s (execSnapSync f o s) := by
  unfold execSnapSync
  try dsimp only
  repeat' first
    | with_reducible apply FieldBy.next | with_reducible apply FieldBy.ite | with_reducible apply InField.refl
    | with_reducible apply inField_modField | with_reducible apply inField_tput | with_reducible apply inField_rxDown | with_reducible apply inField_rxOrder

theorem row_SnapDesc (s : State) (f : Nat) (o : OrderFrame) : FieldBy f s (execSnapDesc f o s) := by
  unfold execSnapDesc
  try dsimp only
  repeat' first
    | with_reducible apply FieldBy.next | with_reducible apply FieldBy.ite | with_reducible apply InField.refl
    | with_reducible apply inField_modField | with_reducible apply inField_tput | with_reducible apply inField_rxDown | with_reducible apply inField_rxOrder

theorem row_Safe (s : State) (f : Nat) (o : OrderFrame) (crit : List CritIn) : FieldBy f s (execSafe f o s crit) := by
  unfold execSafe
  try dsimp only
  repeat' first
    | with_reducible apply FieldBy.next | with_reducible apply FieldBy.ite | with_reducible apply InField.refl
    | with_reducible apply inField_modField | with_reducible apply inField_tput | with_reducible apply inField_rxDown | with_reducible apply inField_rxOrder

theorem row_WdExpired (s : State) (f : Nat) (at_ : Nat) (crit : List CritIn) : FieldBy f s (execWdExpired f at_ s crit) := by
  unfold execWdExpired
  try dsimp only
  repeat' first
    | with_reducible apply FieldBy.next | with_reducible apply FieldBy.ite | with_reducible apply InField.refl
    | with_reducible apply inField_modField | with_reducible apply inField_tput | with_reducible apply inField_rxDown | with_reducible apply inField_rxOrder

theorem row_Conversion (s : State) (ch : Nat) (c : BitVec 16) : FieldBy (ch / 16) s (execConversion ch c s) := by
  unfold execConversion
  try dsimp only
  repeat' first
    | with_reducible apply FieldBy.next | with_reducible apply FieldBy.ite | with_reducible apply InField.refl
    | with_reducible apply inField_modField | with_reducible apply inField_tput | with_reducible apply inField_rxDown | with_reducible apply inField_rxOrder

theorem row_IntegratorStep (s : State) (ch : Nat) (uv : Int) (at_ : Int) : FieldBy (ch / 16) s (execIntegratorStep ch uv at_ s) := by
  unfold execIntegratorStep
  try dsimp only
  repeat' first
    | with_reducible apply FieldBy.next | with_reducible apply FieldBy.ite | with_reducible apply InField.refl
    | with_reducible apply inField_modField | with_reducible apply inField_tput | with_reducible apply inField_rxDown | with_reducible apply inField_rxOrder

theorem row_RegulatorEvaluation (s : State) (ch : Nat) (r : RegIn) : FieldBy (ch / 16) s (execRegulatorEvaluation ch r s) := by
  unfold execRegulatorEvaluation
  try dsimp only
  repeat' first
    | with_reducible apply FieldBy.next | with_reducible apply FieldBy.ite | with_reducible apply InField.refl
    | with_reducible apply inField_modField | with_reducible apply inField_tput | with_reducible apply inField_rxDown | with_reducible apply inField_rxOrder

theorem row_ChannelDiagnostic (s : State) (ch b : Nat) (i : DiagIn) (n : Nat) : FieldBy (ch / 16) s (execChannelDiagnostic ch b i n s) := by
  unfold execChannelDiagnostic
  try dsimp only
  repeat' first
    | with_reducible apply FieldBy.next | with_reducible apply FieldBy.ite | with_reducible apply InField.refl
    | with_reducible apply inField_modField | with_reducible apply inField_tput | with_reducible apply inField_rxDown | with_reducible apply inField_rxOrder

theorem row_DoThermal (s : State) (ch : Nat) (temp : Int) : FieldBy (ch / 16) s (execDoThermal ch temp s) := by
  unfold execDoThermal
  try dsimp only
  repeat' first
    | with_reducible apply FieldBy.next | with_reducible apply FieldBy.ite | with_reducible apply InField.refl
    | with_reducible apply inField_modField | with_reducible apply inField_tput | with_reducible apply inField_rxDown | with_reducible apply inField_rxOrder

theorem row_RegFaultRestart (s : State) (ch : Nat) : FieldBy (ch / 16) s (execRegFaultRestart ch s) := by
  unfold execRegFaultRestart
  try dsimp only
  repeat' first
    | with_reducible apply FieldBy.next | with_reducible apply FieldBy.ite | with_reducible apply InField.refl
    | with_reducible apply inField_modField | with_reducible apply inField_tput | with_reducible apply inField_rxDown | with_reducible apply inField_rxOrder

theorem row_FrondCause (s : State) (f b : Nat) (q : Seen) (crit : List CritIn) : FieldBy f s (execFrondCause f b q crit s) := by
  unfold execFrondCause
  try dsimp only
  repeat' first
    | with_reducible apply FieldBy.next | with_reducible apply FieldBy.ite | with_reducible apply InField.refl
    | with_reducible apply inField_modField | with_reducible apply inField_tput | with_reducible apply inField_rxDown | with_reducible apply inField_rxOrder

theorem row_FrondInputRestart (s : State) (f : Nat) : FieldBy f s (execFrondInputRestart f s) := by
  unfold execFrondInputRestart
  try dsimp only
  repeat' first
    | with_reducible apply FieldBy.next | with_reducible apply FieldBy.ite | with_reducible apply InField.refl
    | with_reducible apply inField_modField | with_reducible apply inField_tput | with_reducible apply inField_rxDown | with_reducible apply inField_rxOrder

theorem row_AuxPowerArrive (s : State) (f : Nat) (otp : List TrimIn) : FieldBy f s (execAuxPowerArrive f otp s) := by
  unfold execAuxPowerArrive
  try dsimp only
  repeat' first
    | with_reducible apply FieldBy.next | with_reducible apply FieldBy.ite | with_reducible apply InField.refl
    | with_reducible apply inField_modField | with_reducible apply inField_tput | with_reducible apply inField_rxDown | with_reducible apply inField_rxOrder

theorem row_AuxPowerLoss (s : State) (f : Nat) : FieldBy f s (execAuxPowerLoss f s) := by
  unfold execAuxPowerLoss
  try dsimp only
  repeat' first
    | with_reducible apply FieldBy.next | with_reducible apply FieldBy.ite | with_reducible apply InField.refl
    | with_reducible apply inField_modField | with_reducible apply inField_tput | with_reducible apply inField_rxDown | with_reducible apply inField_rxOrder

theorem row_FsupArrive (s : State) (f : Nat) (q : Seen) (otp : List TrimIn) : FieldBy f s (execFsupArrive f s q otp) := by
  unfold execFsupArrive
  try dsimp only
  repeat' first
    | with_reducible apply FieldBy.next | with_reducible apply FieldBy.ite | with_reducible apply InField.refl
    | with_reducible apply inField_modField | with_reducible apply inField_tput | with_reducible apply inField_rxDown | with_reducible apply inField_rxOrder

theorem row_ClkBChange (s : State) (f : Nat) (bDelivers : Bool) : FieldBy f s (execClkBChange f bDelivers s) := by
  unfold execClkBChange
  try dsimp only
  repeat' first
    | with_reducible apply FieldBy.next | with_reducible apply FieldBy.ite | with_reducible apply InField.refl
    | with_reducible apply inField_modField | with_reducible apply inField_tput | with_reducible apply inField_rxDown | with_reducible apply inField_rxOrder

theorem row_FrondTickEdge (s : State) (f : Nat) (i : FrondEdgeIn) : FieldBy f s (execFrondTickEdge f i s) := by
  have fold : ∀ (l : List Nat) (bl : List (List Byte × List Nat)) (y : Frond) (u : State), InField f s u →
      InField f s (l.foldl (fun s q => sendUp f (BitVec.ofNat 8 (q + 1)) ((((bl.drop (4 * q)).take 4).map (·.1)).flatten)
        ((List.range 4).map (fun j => posFlags (fchan y (4 * q + j))) ++ (((bl.drop (4 * q)).take 4).map (·.2)).flatten) s) u) := by
    intro l bl y
    induction l with
    | nil => exact fun _ h => h
    | cons q l ih => exact fun u h => ih _ (h.trans (inField_sendUp f _ _ _ u))
  unfold execFrondTickEdge
  dsimp only
  have base : ∀ (y : Frond) (n : Nat), InField f s
      { s with field := tput s.field f y, tm := { s.tm with syncCleared := s.tm.syncCleared + n } } :=
    fun y n => ⟨rfl, rfl, rfl, rfl, rfl, fun _ h => tget_tput_other _ h _ _, List.suffix_refl _, id, id⟩
  split
  · exact .next (.refl f s)
  · split
    · exact .next ((base _ _).trans (inField_sendUp _ _ _ _ _))
    · exact .next (fold _ _ _ _ ((base _ _).trans (inField_sendUp _ _ _ _ _)))

/-! ## The tick edge -/

/-- What the tick edge keeps once its counter has stepped. -/
structure Held (s t : State) : Prop where
  pending : t.pending = s.pending
  auto : t.auto = s.auto
  count : t.tm.count = s.tm.count
  lc : t.sec.lc = s.sec.lc
  field : t.field = s.field
  out : s.outbox <:+ t.outbox
  mem : Memory.wf s.map.mem → Memory.wf t.map.mem
  halt : HaltHeld s → HaltHeld t

theorem Kept.held {s t : State} (h : Kept s t) : Held s t := ⟨h.pending, h.auto, h.count, h.lc, h.field, h.out, h.mem, h.halt⟩

theorem Held.trans {s t u : State} (a : Held s t) (b : Held t u) : Held s u :=
  ⟨b.pending.trans a.pending, b.auto.trans a.auto, b.count.trans a.count, b.lc.trans a.lc, b.field.trans a.field, a.out.trans b.out,
   fun h => b.mem (a.mem h), fun h => b.halt (a.halt h)⟩

theorem held_takeConfig (p : Pending) (s : State) : Held s (takeConfig p s) :=
  ⟨rfl, rfl, rfl, rfl, rfl, List.suffix_refl _, id, id⟩

theorem held_originEpoch (old : Tab Word) (s : State) : Held s (originEpoch old s) := by
  unfold originEpoch
  dsimp only
  split
  · exact ⟨rfl, rfl, rfl, rfl, rfl, List.suffix_refl _, id, id⟩
  · exact (Kept.refl s).held

theorem held_timeEpoch (old : Tab Word) (s : State) : Held s (timeEpoch old s) :=
  (held_originEpoch old s).trans (kept_sourceEpoch old (Kept.refl _)).held

theorem held_applyEpoch (p : Pending) (excl : List Nat) (s : State) : Held s (applyEpoch p excl s) :=
  (((held_takeConfig p s).trans (kept_excludeFronds excl (Kept.refl _)).held).trans (held_timeEpoch s.cfg _)).trans
    (kept_partsEpoch s.cfg (Kept.refl _)).held

theorem held_epochEdge (v : EdgeView) (s : State) : Held s (epochEdge v s) := by
  unfold epochEdge
  split
  · exact held_applyEpoch _ _ s
  · exact (Kept.refl s).held

theorem held_timeEdge (net : Option Int) (s : State) : Held s (timeEdge net s) := by
  have tm : ∀ x : TimeUnit, x.count = s.tm.count → Held s { s with tm := x } :=
    fun x h => ⟨rfl, rfl, h, rfl, rfl, List.suffix_refl _, id, id⟩
  unfold timeEdge
  dsimp only
  split
  · exact tm _ rfl
  · split
    · exact tm _ rfl
    · split
      · split
        · exact tm _ rfl
        · split
          · refine Held.trans (tm _ ?_) (kept_setTime 3 (kept_raise _ _ _ _ _ _ _ _ (Kept.refl _))).held
            rfl
          · exact tm _ rfl
      · split
        · exact tm _ rfl
        · exact tm _ rfl

theorem held_edgeJudge (i : TickIn) (v : EdgeView) (bad : List Nat) (s : State) : Held s (edgeJudge i v bad s) := by
  have a : Kept s (judgeShadows (alignJudge bad (overrunEdge (takeBoundary (syncEdge v.reset (if v.reset then phaseRestart v.d s else s)))))) :=
    kept_judgeShadows (kept_alignJudge _ (kept_overrunEdge (kept_takeBoundary (kept_syncEdge _
      (Kept.ite (kept_phaseRestart _ (Kept.refl s)) (Kept.refl s))))))
  exact (a.held.trans (held_timeEdge i.net _)).trans (kept_lifeCycleCheck _ _ (kept_tempEdge i (Kept.refl _))).held

theorem held_edgeWork (i : TickIn) (v : EdgeView) (bad : List Nat) (s : State) : Held s (edgeWork i v bad s) :=
  (held_edgeJudge i v bad s).trans
    (kept_tickVector (kept_writeStatus (kept_pinsEdge _ _ (kept_takeSummary v (kept_fillers (kept_gatesRestart (kept_aliveEdge
      (kept_checkInEdge (kept_startTick (kept_rulesEdge (kept_outsDue (kept_stickyEdge (Kept.refl _))))))))))))).held

/-- TICK_EDGE: the counter takes the number of the next edge as seen after the work that ends the tick, which keeps what nearly every
command keeps, and nothing of that changes but the counter and the configuration in force. -/
structure Ticked (s t : State) : Prop where
  pending : t.pending = s.pending
  auto : t.auto = s.auto
  count : ∃ u, Kept s u ∧ t.tm.count = nextTick u
  lc : t.sec.lc = s.sec.lc
  field : t.field = s.field
  out : s.outbox <:+ t.outbox
  mem : Memory.wf s.map.mem → Memory.wf t.map.mem
  halt : HaltHeld s → HaltHeld t

theorem ticked_stepCounter (s : State) :
    (stepCounter s).pending = s.pending ∧ (stepCounter s).auto = s.auto ∧ (stepCounter s).tm.count = nextTick s ∧
    (stepCounter s).sec = s.sec ∧ (stepCounter s).field = s.field ∧ (stepCounter s).outbox = s.outbox ∧ (stepCounter s).map = s.map ∧
    (stepCounter s).phase = s.phase ∧ (stepCounter s).pwr = s.pwr := by
  unfold stepCounter
  dsimp only
  simp

theorem ticked_tickEdge (i : TickIn) (s : State) : Ticked s (tickEdge i s) := by
  have b : Kept s (beforeEdge (deadlinesEdge i.ends (slowRings i.slow s))) :=
    kept_beforeEdge (kept_deadlinesEdge _ (kept_slowRings _ (Kept.refl s)))
  unfold tickEdge
  dsimp only
  generalize beforeEdge (deadlinesEdge i.ends (slowRings i.slow s)) = w at b ⊢
  have a : Kept s (tickEnds w) := kept_tickEnds b
  generalize edgeView w = v
  generalize alignFronds v (tickEnds w) = bad
  suffices h : ∀ u, Kept s u → Ticked s (edgeWork i v bad (epochEdge v (windowsEdge v (stepCounter u)))) from h _ a
  clear a b
  intro u a
  obtain ⟨c1, c2, c3, c4, c5, c6, c7, c8, c9⟩ := ticked_stepCounter u
  generalize stepCounter u = x at *
  have b := ((kept_windowsEdge v (Kept.refl x)).held.trans (held_epochEdge v _)).trans (held_edgeWork i v bad _)
  generalize edgeWork i v bad (epochEdge v (windowsEdge v x)) = y at b ⊢
  have o := b.out
  rw [c6] at o
  refine ⟨b.pending.trans (c1.trans a.pending), b.auto.trans (c2.trans a.auto), ⟨u, a, b.count.trans c3⟩,
    b.lc.trans ((congrArg Sec.lc c4).trans a.lc), b.field.trans (c5.trans a.field), a.out.trans o,
    fun w => b.mem (by rw [c7]; exact a.mem w), fun w => b.halt ?_⟩
  have := a.halt w
  unfold HaltHeld at *
  rw [c8, c9]
  exact this

/-- What comes after the edge keeps all that Ticked says. -/
theorem Ticked.kept {s t u : State} (a : Ticked s t) (b : Kept t u) : Ticked s u := by
  obtain ⟨w, k, e⟩ := a.count
  exact ⟨b.pending.trans a.pending, b.auto.trans a.auto, ⟨w, k, b.count.trans e⟩, b.lc.trans a.lc, b.field.trans a.field, a.out.trans b.out,
    fun h => b.mem (a.mem h), fun h => b.halt (a.halt h)⟩

/-- What comes before the edge may keep what Kept says. -/
theorem Kept.ticked {s t u : State} (a : Kept s t) (b : Ticked t u) : Ticked s u := by
  obtain ⟨w, k, e⟩ := b.count
  exact ⟨b.pending.trans a.pending, b.auto.trans a.auto, ⟨w, a.trans k, e⟩, b.lc.trans a.lc, b.field.trans a.field, a.out.trans b.out,
    fun h => b.mem (a.mem h), fun h => b.halt (a.halt h)⟩

/-- Marking the packets of one cycle changes queues only. -/
theorem kept_around (g : State → State) (s : State) : ∃ u, Kept s u ∧ Kept (g u) (inOneCycle g s) := by
  refine ⟨{ s with queues := tmap s.queues (fun _ x => { x with pkts := x.pkts.map (fun p => { p with fresh := false }) }) }, ?_, ?_⟩
  · (with_reducible apply Kept.mk_of <;> try with_reducible rfl)
    exact Kept.refl _
  · unfold inOneCycle
    dsimp only
    (with_reducible apply Kept.mk_of <;> try with_reducible rfl)
    exact Kept.refl _

theorem ticked_inOneCycle (i : TickIn) (s : State) : Ticked s (inOneCycle (tickEdge i) s) := by
  obtain ⟨u, a, b⟩ := kept_around (tickEdge i) s
  exact (a.ticked (ticked_tickEdge i u)).kept b

/-- An edge with no renumbering waiting counts one. -/
theorem nextTick_of_kept {s t : State} (k : Kept s t) (h : s.tm.started = true) (j : s.tm.jump = none) : nextTick t = s.tm.count + 1 := by
  unfold nextTick
  rw [k.started, h, k.jump j, k.count]
  simp

/-! ## Descriptors and the life cycle -/

/-- A descriptor is turned away, waits or is left, or its action runs under its number. -/
theorem takeDesc_cases (form : DescForm) (d : Desc) (act : Nat → State → State) (s : State) :
    Kept s (takeDesc form d act s) ∨ ∃ n u, Kept s u ∧ takeDesc form d act s = act n u := by
  unfold takeDesc
  dsimp only
  split
  · exact .inl (.refl s)
  · split
    · split
      · exact .inl (kept_refuseDesc _ _ (.refl s))
      · refine .inl (kept_refuseDesc _ _ ?_)
        (with_reducible apply Kept.mk_of <;> try with_reducible rfl)
        exact .refl s
    · split
      · exact .inl (kept_crcBad _ (.refl s))
      · split
        · exact .inl (.refl s)
        · split
          · exact .inl (kept_refuseDesc _ _ (kept_acceptAlive _ (.refl s)))
          · split
            · exact .inl (kept_crcBad _ (.refl s))
            · split
              · exact .inl (.refl s)
              · exact .inr ⟨_, _, kept_startDesc _ _ (kept_acceptAlive _ (.refl s)), rfl⟩

/-- A SEC_OP is refused, or its action runs in one of its life-cycle states. -/
theorem secGate_cases (op : Nat) (states : List Nat) (pre : State → Bool) (copyBad otpBad : Bool) (id : Nat) (act : State → State)
    (s : State) : Kept s (secGate op states pre copyBad otpBad id act s) ∨
      ∃ u, Kept s u ∧ states.contains u.sec.lc = true ∧ secGate op states pre copyBad otpBad id act s = act u := by
  unfold secGate
  dsimp only
  have k := kept_lifeCycleCheck copyBad otpBad (Kept.refl s)
  generalize lifeCycleCheck copyBad otpBad s = u at k
  split
  · exact .inl (kept_complete _ _ _ k)
  · split
    · exact .inl (kept_complete _ _ _ k)
    · split
      · exact .inl (kept_complete _ _ _ k)
      · rename_i c _
        exact .inr ⟨u, k, by simpa using c, rfl⟩

/-- What a SEC_OP that moves the life cycle keeps: all of Kept, but the life cycle makes a move of Table 16-8. -/
structure Moved (s t : State) : Prop where
  pending : t.pending = s.pending
  auto : t.auto = s.auto
  cfg : t.cfg = s.cfg
  count : t.tm.count = s.tm.count
  lc : t.sec.lc = s.sec.lc ∨ lcMove s.sec.lc t.sec.lc = true
  field : t.field = s.field
  out : s.outbox <:+ t.outbox
  mem : Memory.wf s.map.mem → Memory.wf t.map.mem
  halt : HaltHeld s → HaltHeld t

theorem Kept.moved {s t : State} (h : Kept s t) : Moved s t :=
  ⟨h.pending, h.auto, h.cfg, h.count, .inl h.lc, h.field, h.out, h.mem, h.halt⟩

theorem Kept.moved_trans {s t u : State} (a : Kept s t) (b : Moved t u) : Moved s u :=
  ⟨b.pending.trans a.pending, b.auto.trans a.auto, b.cfg.trans a.cfg, b.count.trans a.count, by rw [← a.lc]; exact b.lc,
   b.field.trans a.field, a.out.trans b.out, fun h => b.mem (a.mem h), fun h => b.halt (a.halt h)⟩

theorem Moved.kept {s t u : State} (a : Moved s t) (b : Kept t u) : Moved s u :=
  ⟨b.pending.trans a.pending, b.auto.trans a.auto, b.cfg.trans a.cfg, b.count.trans a.count, by rw [b.lc]; exact a.lc,
   b.field.trans a.field, a.out.trans b.out, fun h => b.mem (a.mem h), fun h => b.halt (a.halt h)⟩

theorem moved_enterState {s t : State} (nx : Nat) (k : Kept s t) (m : lcMove s.sec.lc nx = true) : Moved s (enterState nx t) := by
  have base : ∀ x : Sec, x.lc = nx → Moved s { t with sec := x } := fun x h =>
    ⟨k.pending, k.auto, k.cfg, k.count, .inr (by rw [← h] at m; exact m), k.field, k.out, k.mem, k.halt⟩
  unfold enterState
  dsimp only
  split
  · exact base _ rfl
  · exact (base _ rfl).kept (kept_secBreak 1 (Kept.refl _))

theorem moved_moveTo {s t : State} (nx id : Nat) (k : Kept s t) (m : lcMove s.sec.lc nx = true) : Moved s (moveTo nx id t) :=
  (moved_enterState nx k m).kept (kept_complete _ _ _ (Kept.refl _))

/-- An operation without a token whose action moves the life cycle only from the states it names. -/
theorem moved_plainOp {op : Nat} {pay : SecPay} {states : List Nat} {pre : State → Bool} {act : List Byte → Nat → State → State}
    (h : ∀ b n u, states.contains u.sec.lc = true → Moved u (act b n u)) (d : Desc) (copyBad otpBad : Bool) (s : State) :
    Moved s (plainOp op pay states pre act d copyBad otpBad s) := by
  unfold plainOp
  rcases takeDesc_cases (secForm op pay) d (fun id s => secGate op states pre copyBad otpBad id (act (payload d (dF d 12 4)) id) s) s with
    k | ⟨n, u, k, e⟩
  · exact k.moved
  · rw [e]
    rcases secGate_cases op states pre copyBad otpBad n (act (payload d (dF d 12 4)) n) u with k2 | ⟨v, k2, c, e2⟩
    · exact (k.trans k2).moved
    · rw [e2]
      exact (k.trans k2).moved_trans (h _ _ _ c)

theorem moved_tokenOp {op : Nat} {states : List Nat} {key : State → Nat} {pre : State → Bool} {act : List Byte → Nat → State → State}
    (h : ∀ b n u v, Kept u v → states.contains u.sec.lc = true → Moved u (act b n v)) (d : Desc) (copyBad otpBad : Bool) (s : State) :
    Moved s (tokenOp op states key pre act d copyBad otpBad s) := by
  unfold tokenOp
  refine moved_plainOp (fun b n u c => ?_) d copyBad otpBad s
  split
  · exact h b n u _ (kept_authPassed (Kept.refl u)) c
  · exact (kept_complete _ _ _ (kept_authFailed _ _ (kept_useNonce (Kept.refl u)))).moved

/-- The outcome is a next state after at most a move of the life cycle. -/
def MovedBy (s : State) (o : Host.Outcome State Fault Refusal) : Prop := ∃ t, o = .next t ∧ Moved s t

theorem row_TakeOwnership (s : State) (d : Desc) (copyBad otpBad : Bool) : MovedBy s (execTakeOwnership d copyBad otpBad s) := by
  refine ⟨_, rfl, moved_plainOp (fun b n u c => ?_) d copyBad otpBad s⟩
  dsimp only
  split
  · have e : u.sec.lc = lcMaker := by simpa using c
    refine moved_moveTo _ _ ?_ (by rw [e]; rfl)
    (with_reducible apply Kept.mk_of <;> try with_reducible rfl)
    exact kept_useNonce (Kept.refl u)
  · exact (kept_complete _ _ _ (kept_useNonce (Kept.refl u))).moved

theorem row_Seal (s : State) (d : Desc) (copyBad otpBad : Bool) : MovedBy s (execSeal d copyBad otpBad s) :=
  ⟨_, rfl, moved_tokenOp (fun b n u v k c => by
    have e : u.sec.lc = lcOwned := by simpa using c
    exact moved_moveTo _ _ (kept_useNonce k) (by rw [e]; rfl)) d copyBad otpBad s⟩

theorem row_Unseal (s : State) (d : Desc) (copyBad otpBad : Bool) : MovedBy s (execUnseal d copyBad otpBad s) :=
  ⟨_, rfl, moved_tokenOp (fun b n u v k c => by
    have e : u.sec.lc = lcSealed := by simpa using c
    exact moved_moveTo _ _ (kept_usePresence (kept_useNonce k)) (by rw [e]; rfl)) d copyBad otpBad s⟩

theorem row_Rma (s : State) (d : Desc) (copyBad otpBad : Bool) : MovedBy s (execRma d copyBad otpBad s) :=
  ⟨_, rfl, moved_tokenOp (fun b n u v k c => by
    have e : u.sec.lc = lcOwned ∨ u.sec.lc = lcSealed := by simpa using c
    have m : Moved u (zeroise (enterState lcReturn (usePresence (useNonce v)))) :=
      (moved_enterState lcReturn (kept_usePresence (kept_useNonce k)) (by rcases e with e | e <;> rw [e] <;> rfl)).kept
        (kept_zeroise (Kept.refl _))
    refine m.kept ?_
    (with_reducible apply Kept.mk_of <;> try with_reducible rfl)
    exact Kept.refl _) d copyBad otpBad s⟩

theorem row_MakerRestore (s : State) (d : Desc) (copyBad otpBad : Bool) : MovedBy s (execMakerRestore d copyBad otpBad s) :=
  ⟨_, rfl, moved_tokenOp (fun b n u v k c => by
    have e : u.sec.lc = lcReturn := by simpa using c
    exact moved_moveTo _ _ (kept_useNonce k) (by rw [e]; rfl)) d copyBad otpBad s⟩

theorem row_Void (s : State) (d : Desc) (copyBad otpBad : Bool) : MovedBy s (execVoid d copyBad otpBad s) :=
  ⟨_, rfl, moved_tokenOp (fun b n u v k c => by
    have e : lcMove u.sec.lc lcVoid = true := by
      have : u.sec.lc = lcFab ∨ u.sec.lc = lcMaker ∨ u.sec.lc = lcOwned ∨ u.sec.lc = lcSealed ∨ u.sec.lc = lcReturn := by
        simpa [notVoid] using c
      rcases this with e | e | e | e | e <;> rw [e] <;> rfl
    refine moved_moveTo _ _ (kept_zeroiseVoid (Kept.ite ?_ ?_)) e
    · exact kept_usePresence (kept_useNonce k)
    · exact kept_useNonce k) d copyBad otpBad s⟩

/-! ## TICK_EDGE, resets, BOOT_START -/

theorem row_TickEdge (s : State) (i : TickIn) :
    ∃ t, execTickEdge i s = .next t ∧ (if running s = true then Ticked s t else t = s) := by
  unfold execTickEdge
  split
  · exact ⟨_, rfl, ticked_inOneCycle i s⟩
  · exact ⟨_, rfl, rfl⟩

/-- What a reset of the logic side keeps, and where it leaves the module. -/
structure WasReset (s t : State) : Prop where
  pending : t.pending = s.pending
  auto : t.auto = false
  cfg : t.cfg = []
  count : t.tm.count = 0
  lc : t.sec.lc = s.sec.lc
  field : t.field = s.field
  out : s.outbox <:+ t.outbox
  mem : t.map.mem = []
  phase : t.phase = .off ∨ t.phase = .reset

theorem wasReset_logicReset {s t : State} (ph : Phase) (pwr : Power) (h : ph = .off ∨ ph = .reset) (k : Kept s t) :
    WasReset s (logicReset ph pwr t) :=
  ⟨k.pending, rfl, rfl, rfl, k.lc, k.field, k.out, rfl, h⟩

theorem row_HaltRelease (s : State) : ∃ t, execHaltRelease s = .next t ∧ (t = s ∨ WasReset s t) := by
  unfold execHaltRelease
  split
  · exact ⟨_, rfl, .inr (wasReset_logicReset _ _ (.inl rfl) (Kept.refl s))⟩
  · exact ⟨_, rfl, .inl rfl⟩

theorem row_ModuleReset (s : State) (b : Bool) : ∃ t, execModuleReset b s = .next t ∧ (t = s ∨ WasReset s t) := by
  unfold execModuleReset
  dsimp only
  split
  · exact ⟨_, rfl, .inl rfl⟩
  · refine ⟨_, rfl, .inr ?_⟩
    have k : Kept s (if (awake s && !(s.phase == .halted || s.phase == .draining)) = true then safeAll s else s) :=
      Kept.ite (kept_safeAll (Kept.refl s)) (Kept.refl s)
    split
    · exact wasReset_logicReset _ _ (.inl rfl) k
    · exact wasReset_logicReset _ _ (.inr rfl) k

/-- BOOT_START sets the mode; what else Kept says, it keeps. -/
theorem row_BootStart (s : State) (i : BootIn) : ∃ t m, execBootStart i s = .next t ∧ Kept { s with auto := m } t := by
  have up : ∀ (tm : TimeUnit) (p : Power) (x : Sec), tm.count = s.tm.count → tm.started = s.tm.started → tm.jump = s.tm.jump →
      x.lc = s.sec.lc → Kept { s with auto := i.boot0 }
        { s with phase := .booting, auto := i.boot0, tm := tm, pwr := p, sec := x } :=
    fun tm p x h1 h2 h3 h4 => ⟨rfl, rfl, rfl, h1, h4, rfl, List.suffix_refl _, id, fun _ h => by simp at h, h2, fun j => h3.trans j⟩
  have trial : (endTrial { s.sec with selfOk := i.alg == 0 }).lc = s.sec.lc := by
    unfold endTrial
    split <;> rfl
  unfold execBootStart
  dsimp only
  split
  · exact ⟨s, s.auto, rfl, Kept.refl s⟩
  · have b := Kept.foldl (fun _ ph k => kept_phaseSrc ph k) s.pwr.failed (kept_trainLink i.link (up { s.tm with clkA := true, clkB := true }
      { s.pwr with presPend := s.pwr.boot1 && i.boot1 && i.held, boot1 := false } _ rfl rfl rfl trial))
    split
    · exact ⟨_, _, rfl, kept_securityHalt _ _ b⟩
    · have c := kept_lifeCycleCheck false i.otpBad b
      split
      · exact ⟨_, _, rfl, c⟩
      · refine ⟨_, _, rfl, kept_chooseImage (Kept.ite ?_ c)⟩
        (with_reducible apply Kept.mk_of <;> try with_reducible rfl)
        exact kept_zeroise c

end Sys2Proof.Machine
end

