-- ==== Sys2Proof/Laws/Thresholds.lean ====
section
/-! SUPPORT. A threshold that the spec leaves open stays between its printed limits, and what follows for the digital inputs. -/

namespace Sys2Proof.Machine
open Sys2Proof

theorem le_clampI (lo hi x : Int) : lo ≤ clampI lo hi x := le_max_left _ _

theorem clampI_le {lo hi : Int} (h : lo ≤ hi) (x : Int) : clampI lo hi x ≤ hi := max_le h (min_le_left _ _)

theorem le_limit (kind obj : Nat) (lo hi : Int) : lo ≤ limit kind obj lo hi := le_clampI _ _ _

theorem limit_le (kind obj : Nat) {lo hi : Int} (h : lo ≤ hi) : limit kind obj lo hi ≤ hi := clampI_le h _

/-- Without the comparator, a DI level above 9.5 V is a raw 1, whatever the thresholds within Table 2-3. -/
theorem rawState_high {x : Frond} {p ch : Nat} {v : Int} (m : (fchan x p).mode ≠ 8) (h : 9500000 < v) : rawState x p ch v = true := by
  have a := limit_le 2 ch (lo := 7000000) (hi := 9500000) (by decide)
  have b := le_limit 2 ch 7000000 9500000
  unfold rawState
  simp only [m, decide_false, Bool.false_and, Bool.false_eq_true, if_false]
  split <;> simp only [Bool.not_eq_true', decide_eq_false_iff_not, decide_eq_true_eq, lt_min_iff, not_and, not_lt] <;> omega

/-- And one below 5.5 V is a raw 0. -/
theorem rawState_low {x : Frond} {p ch : Nat} {v : Int} (m : (fchan x p).mode ≠ 8) (h : v < 5500000) : rawState x p ch v = false := by
  have a := le_limit 2 ch 7000000 9500000
  have b := le_limit 3 ch 5500000 8000000
  unfold rawState
  simp only [m, decide_false, Bool.false_and, Bool.false_eq_true, if_false]
  split <;> simp only [Bool.not_eq_false', decide_eq_false_iff_not, decide_eq_true_eq, lt_min_iff, not_lt] <;> omega

end Sys2Proof.Machine
end

