-- ==== Sys2Proof/Machine/Pins.lean ====
section
/-! DEFINITION. The levels of the logic outputs (R377, R439 to R441, R508, R510, R557, R558, Table 17-8). -/

namespace Sys2Proof.Machine
open Sys2Proof

/-- The logic outputs of Table 17-8; a bit of LSP_D by its number. -/
inductive Pin where
  | alive
  | irqN
  | flow (n : Nat)
  | tickOut
  | syncOut
  | lspD (bit : Nat)
  | lspEmptyN
  | lspLast
  | lspAfull
  | dbgTxd
  | jtagTdo
  deriving DecidableEq, Repr

/-- What a logic output shows: high impedance, which for IRQ_N is its released state, low or high (R557). -/
inductive Level where
  | z
  | low
  | high
  deriving DecidableEq, Repr

/-- A driven level. -/
def driven (b : Bool) : Level := if b then .high else .low

/-- The level of a logic output (Table 17-8). Below VLOG_ON every one is at high impedance; from VLOG valid to BOOT_DONE the outputs are low
but for IRQ_N and the two debug outputs; FLOW, TICK_OUT, SYNC_OUT and the stream port are low in HALT, where ALIVE and DBG_TXD stay as they were.
JTAG_TDO is shown as it is while no tester shifts. -/
def pinLevel (s : State) (p : Pin) : Level :=
  if s.phase = .off then .z
  else
    let port := s.phase == .running && lspActive s
    match p with
    | .alive => driven s.alive
    | .irqN => if irqLow s then .low else .z
    | .flow n => driven (flowPin s (n + 1))
    | .tickOut => driven s.tm.tickOut
    | .syncOut => driven s.tm.syncOut
    | .lspD i => driven (port && lspReady s && (match s.lsp.fifo with | (v, _) :: _ => v.toNat.testBit i | [] => false))
    | .lspEmptyN => driven (port && lspReady s)
    | .lspLast => driven (port && lspReady s && s.lsp.rd % 32 == 31)
    | .lspAfull => driven (port && s.lsp.afull2)
    | .dbgTxd => if s.pwr.booted && bit (BitVec.ofNat 32 (dbgInForce s)) 0 then .high else .z
    | .jtagTdo => .z

end Sys2Proof.Machine
end

