-- ==== Sys2Proof/WellFormed.lean ====
section
/-! DEFINITION. Which commands are well formed: their operands name objects the module has. -/

namespace Sys2Proof

/-- A descriptor is 32 bytes (Table 12-7). -/
def Desc.wf (d : Desc) : Bool := d.raw.length == 32

/-- A link that PCIe 3.0 can train with two lanes (Table 12-1), or none. -/
def LinkIn.wf (l : LinkIn) : Bool := (l.gts == 2 || l.gts == 5 || l.gts == 8) && decide (l.width ≤ 2) && decide (l.msix < 2 ^ 32)

/-- The bytes of an address space (Table 12-1; configuration space as PCIe has it). -/
def Space.size (sp : Space) : Nat :=
  match sp with
  | .bar0 => 0x10000
  | .bar2 => 0x1000
  | .config => 0x1000

/-- The operands of a command lie in their ranges. -/
def Instr.wellFormed (i : Instr) : Bool :=
  match i with
  | .tickEdge _ => true
  | .tbaseHigh => true
  | .deferredWork => true
  | .featureSlice => true
  | .periodBoundary _ => true
  | .downlinkSuperframe _ => true
  | .commitResolve => true
  | .u0 f _ _ => decide (f < 32)
  | .linkUp f _ => decide (f < 32)
  | .uplinkFrame f kind _ _ _ => decide (f < 32) && decide (1 ≤ kind) && decide (kind ≤ 4)
  | .frondTickEdge f _ => decide (f < 32)
  | .contentionSafeState ch _ => decide (ch < 512)
  | .d0 f _ _ _ => decide (f < 32)
  | .d1 f _ => decide (f < 32)
  | .d2 f _ _ => decide (f < 32)
  | .ds f _ => decide (f < 32)
  | .snapSync f _ => decide (f < 32)
  | .snapDesc f _ => decide (f < 32)
  | .safe f _ _ => decide (f < 32)
  | .wdExpired f _ _ => decide (f < 32)
  | .conversion ch _ => decide (ch < 512)
  | .integratorStep ch _ _ => decide (ch < 512)
  | .regulatorEvaluation ch _ => decide (ch < 512)
  | .channelDiagnostic ch b _ _ => decide (ch < 512) && decide (b < 12)
  | .doThermal ch _ => decide (ch < 512)
  | .regFaultRestart ch => decide (ch < 512)
  | .frondCause f b _ _ => decide (f < 32) && decide (b < 8)
  | .frondInputRestart f => decide (f < 32)
  | .auxPowerArrive f otp => decide (f < 32) && otp.all (fun t => decide (t.pos < 16) && decide (t.set < 7))
  | .auxPowerLoss f => decide (f < 32)
  | .fsupArrive f _ _ => decide (f < 32)
  | .faultSourceActivate id ctx => (Machine.rawSource id || id == 0x3F) && decide (ctx.length ≤ 20)
  | .faultSourceCleared id sub _ _ ctx => decide (id < 256) && decide (sub < 512) && decide (ctx.length ≤ 20)
  | .escalation id sub => decide (id < 256) && decide (sub < 512)
  | .shadowClose f => decide (f < 32)
  | .haltRelease => true
  | .clockSrcLost _ => true
  | .clockBothLost => true
  | .timeLocked => true
  | .timeHoldover => true
  | .timeRegained => true
  | .syncInSnap _ => true
  | .syncInPhaseReset => true
  | .syncInCaptureTrigger _ => true
  | .captureReadout r => decide (r < 32)
  | .recordDelivery q bad => decide (q < 256) && bad.all (fun l => l.all (fun e => decide (e.1 < 80)))
  | .holdoffExpiry r => decide (1 ≤ r) && decide (r ≤ 18)
  | .lspFifoMove bad => bad.all (fun l => l.2.all (fun e => decide (e.1 < 80)))
  | .lspRead => true
  | .flushTakeEffect q => decide (q < 256)
  | .datagramClose i => decide (i ≤ 16)
  | .dbCmd _ => true
  | .dbConsumer ofs _ => decide (0 < ofs) && decide (ofs < 0x1000)
  | .nop d => d.wf
  | .cfgWrite d => d.wf
  | .commit d => d.wf
  | .snap d _ => d.wf
  | .outputSet d => d.wf
  | .arm d => d.wf
  | .disarm d => d.wf
  | .trigger d _ => d.wf
  | .mapRead d => d.wf
  | .mapReadDone => true
  | .flush d => d.wf
  | .ruleLoad d => d.wf
  | .speedTable d => d.wf
  | .sync d => d.wf
  | .syncDone => true
  | .faultClearChannel d => d.wf
  | .faultClearFrond d => d.wf
  | .faultClearSource d => d.wf
  | .faultClearLatch d => d.wf
  | .cvuRun d => d.wf
  | .cvuRunDone u => decide (u < 4)
  | .timeout _ _ => true
  | .blobLoad d => d.wf
  | .blobStore => true
  | .getNonce d _ _ => d.wf
  | .getIdentity d _ _ => d.wf
  | .getState d _ _ => d.wf
  | .takeOwnership d _ _ => d.wf
  | .keyInstall d _ _ => d.wf
  | .unlock d _ _ => d.wf
  | .relock d _ _ => d.wf
  | .seal d _ _ => d.wf
  | .unseal d _ _ => d.wf
  | .rma d _ _ => d.wf
  | .makerRestore d _ _ => d.wf
  | .void d _ _ => d.wf
  | .fwUpdate d _ _ => d.wf
  | .fwConfirm d _ _ => d.wf
  | .ldevidGen d _ _ => d.wf
  | .ldevidInstall d _ _ => d.wf
  | .selfTest d _ _ => d.wf
  | .authLockExpiry => true
  | .presenceExpiry => true
  | .cryptoError => true
  | .ringEnable _ r _ => decide (r < 19)
  | .ringDisable _ r _ => decide (r < 19)
  | .statusBaseWrite _ _ => true
  | .chnSel _ _ => true
  | .broadcastWrite _ ofs _ _ => Machine.inWindow ofs && ofs % 4 == 0
  | .basicCodeWrite _ ofs _ => Machine.isBasic ofs
  | .rwpValueWrite _ ofs _ => Machine.isRwp ofs
  | .rwpComplementWrite _ ofs _ => (Machine.complOf ofs).isSome
  | .reg64LowRead _ ofs sp => decide (ofs < sp.size)
  | .reg64HighRead _ ofs => Machine.is64 ofs
  | .reg64AtomicRead _ ofs sp => decide (ofs < sp.size)
  | .reg64LowWrite _ ofs _ => Machine.is64W ofs
  | .reg64HighWrite _ ofs _ => Machine.is64W ofs
  | .mapPeekIdx _ _ => true
  | .discard _ _ => true
  | .cvuCtlAlg _ u alg => decide (u < 4) && decide (alg < 8)
  | .cvuInit _ u alg => decide (u < 4) && decide (alg < 8)
  | .cvuFeed8 _ u _ => decide (u < 4)
  | .cvuFeed16 _ u _ => decide (u < 4)
  | .cvuFeed32 _ u _ => decide (u < 4)
  | .cvuStateWrite _ u _ => decide (u < 4)
  | .dbgCtlWrite _ _ _ _ => true
  | .checkIn => true
  | .registerWrite _ ofs len _ _ _ sp => decide (ofs < sp.size) && (len == 4 || len == 8)
  | .functionLevelReset => true
  | .busMasterClear => true
  | .pciePerst _ l => l.wf
  | .pcieDegraded gts width => LinkIn.wf ⟨gts, width, 0⟩
  | .vlogValid _ _ _ => true
  | .auxPowerEnable g => decide (g < 4)
  | .moduleReset _ => true
  | .bootStart i => decide (i.alg < 8) && i.link.wf
  | .bootDone => true
  | .autonomousCommit => true
  | .supplyPhase ph => decide (ph < 2)
  | .supplyPhaseRetry ph _ => decide (ph < 2)
  | .ethLinkDown p _ => decide (p < 2)
  | .ethLinkUp p speed _ => decide (p < 2) && decide (1 ≤ speed) && decide (speed ≤ 3)
  | .ethFrame p b _ => decide (p < 2) && decide (14 ≤ b.length)
  | .tlsConnect root _ => decide (root.length ≤ 96)
  | .status _ sq _ _ => decide (sq < 65536)
  | .netSet _ sq _ => decide (sq < 65536)
  | .macsecKey _ sq p _ an key ssci pn => decide (sq < 65536) && decide (p < 2) && decide (an < 4) && key.length == 32 && decide (ssci < 2 ^ 32) && decide (pn < 2 ^ 32)
  | .macsecTxChange _ sq p => decide (sq < 65536) && decide (p < 2)
  | .descriptor _ sq d => decide (sq < 65536) && d.wf
  | .clkBChange f _ => decide (f < 32)
  | .lspRdclkEdge => true
  | .badOpcode d => d.wf
  | .clockSrcLostClear => true
  | .tlsSessionClose id => decide (id < 2)
  | .zeroisationComplete => true
  | .selfTestDone alg => decide (alg < 8)
  | .haltDrainTimeout => true
  | .tickOutFall => true
  | .syncOutRepeat _ => true
  | .addressAgeing m => decide (m < 2 ^ 48)
  | .gateControlListEntry p => decide (p < 2)
  | .reserveStepBoundary => true

end Sys2Proof
end

