-- ==== Sys2Proof/Tests/Slice0.lean ====
section
/-! SUPPORT. Small tests: ill-formed commands are refused, worked values of the spec, one step of some commands, and for every statement
with hypotheses a state and operands that meet them. -/

namespace Sys2Proof.Tests
open Sys2Proof Sys2Proof.Machine
set_option Elab.async false

/-! ## Small states -/

/-- A running module with both oscillators, its first edges past, and its three command rings on with n descriptors in front. -/
def runS (n : Nat) : State :=
  { State.reset with phase := .running, stsBase := 0x1000, bme := true, tm := { started := true, count := 100, clkA := true, clkB := true },
                     rings := [(0, { en := true, p := BitVec.ofNat 32 n }), (1, { en := true, base := 0x10000 }), (2, { en := true })] }

/-- A descriptor with alive value 1: opcode, TMO, the operand bytes from byte 8 on, its payload, and right CRCs. -/
def mkD (op tmo : Nat) (ops pay : List Byte) : Desc :=
  ⟨withCrc ([BitVec.ofNat 8 op, 1] ++ le 2 tmo ++ le 4 0 ++ padTo 20 ops), withCrc pay⟩

/-- A frame that checks on link A. -/
def goodFrame (k : Byte) (pay : List Byte) : Frame := ⟨false, true, 5, frameBytes 7 k pay⟩

/-- A frond with power, in operation, that has had ALIVE value 6. -/
def frondF : Frond := { power := true, safe := false, shutdown := false, causes := 0, fsup := true, downAlive := some 6, firstEpoch := true }

/-- The running module with frond 3 as given. -/
def fieldS (x : Frond) : State := { runS 0 with field := [(3, x)] }

/-- No ring on. -/
def offS : State := { runS 0 with rings := [] }

/-- The status block has no base. -/
def baselessS : State := { runS 0 with stsBase := 0 }

/-- RING15 with one unsignalled entry. -/
def waitingS : State := { runS 0 with rings := [(18, { en := true, unsig := 1, holdoff := 1 })] }

/-- A hosted module whose link is trained, with a message that waits for vector 31. -/
def hostedS : State := { runS 0 with pwr := { linkUp := true, gts := 8, width := 2 }, pba := 2 ^ 31 }

/-- Every check of Takes that a Bool can say. -/
def takesB (form : DescForm) (d : Desc) (s : State) : Bool :=
  canTake s && BitVec.ofNat 8 (dF d 1 1) == s.expAlive && dCrcOk d && form.mine d && unusedZero d form.used &&
  (dTmo d == 0 || form.tmo) && form.ok d && !payBad form d && !form.wait d s

theorem takes_of {form : DescForm} {d : Desc} {s : State} (h : takesB form d s = true) : Takes form d s := by
  simp only [takesB, Bool.and_eq_true, Bool.or_eq_true, beq_iff_eq, Bool.not_eq_true'] at h
  obtain ⟨⟨⟨⟨⟨⟨⟨⟨a, b⟩, c⟩, d⟩, e⟩, f⟩, g⟩, h⟩, i⟩ := h
  exact ⟨a, b, c, d, e, f, g, h, i⟩

/-- A quantity seen between two extremes for some µs. -/
abbrev seen (lo hi : Int) (us : Nat) : Seen := { lo := lo, hi := hi, us := us }

/-! ## Ill-formed commands -/

/-- For each check of WellFormed, a command that fails it. -/
theorem test_ill_formed : (([.u0 32 ⟨false, true, 0, []⟩, .linkUp 32 true, .uplinkFrame 0 0 ⟨false, true, 0, []⟩ [],
    .uplinkFrame 0 5 ⟨false, true, 0, []⟩ [], .uplinkFrame 32 1 ⟨false, true, 0, []⟩ [], .frondTickEdge 32 ⟨0, 0, 0, 0, 0, 0, 0, 0, 0, [], [], []⟩,
    .contentionSafeState 512 [], .d0 32 ⟨false, true, 0, []⟩ 0 [], .d1 32 ⟨false, true, 0, []⟩, .d2 32 ⟨false, true, 0, []⟩ 0,
    .ds 32 ⟨false, true, 0, []⟩, .snapSync 32 ⟨false, true, 0, 0, 0⟩, .snapDesc 32 ⟨false, true, 0, 0, 0⟩, .safe 32 ⟨false, true, 0, 0, 0⟩ [],
    .wdExpired 32 0 [], .conversion 512 0, .integratorStep 512 0 0, .regulatorEvaluation 512 ⟨0, 0, 0, 0⟩,
    .channelDiagnostic 512 0 ⟨0, 0, 0, 0, []⟩ 0, .channelDiagnostic 0 12 ⟨0, 0, 0, 0, []⟩ 0, .doThermal 512 0, .regFaultRestart 512,
    .frondCause 32 0 (seen 0 0 0) [], .frondCause 0 8 (seen 0 0 0) [], .frondInputRestart 32, .auxPowerArrive 32 [], .auxPowerArrive 0 [⟨16, 0, 0, 0, true⟩],
    .auxPowerArrive 0 [⟨0, 7, 0, 0, true⟩], .auxPowerLoss 32, .fsupArrive 32 (seen 0 0 0) [], .clkBChange 32 true, .faultSourceActivate 0x2A [],
    .faultSourceActivate 0x00 (List.replicate 21 0), .faultSourceCleared 256 0 0 false [], .faultSourceCleared 0 512 0 false [],
    .faultSourceCleared 0 0 0 false (List.replicate 21 0), .escalation 256 0, .escalation 0 512, .shadowClose 32, .captureReadout 32,
    .recordDelivery 256 none, .recordDelivery 0 (some [(80, 0)])] : List Instr).all (fun i => !i.wellFormed)) = true := by decide +kernel

theorem test_ill_formed_host : (([.holdoffExpiry 0, .holdoffExpiry 19, .flushTakeEffect 256, .datagramClose 17, .dbConsumer 0 0,
    .dbConsumer 0x1000 0, .nop ⟨[], []⟩, .cfgWrite ⟨[], []⟩, .commit ⟨[], []⟩, .snap ⟨[], []⟩ 0, .outputSet ⟨[], []⟩, .arm ⟨[], []⟩,
    .disarm ⟨[], []⟩, .trigger ⟨[], []⟩ 0, .mapRead ⟨[], []⟩, .flush ⟨[], []⟩, .ruleLoad ⟨[], []⟩, .speedTable ⟨[], []⟩, .sync ⟨[], []⟩,
    .faultClearChannel ⟨[], []⟩, .faultClearFrond ⟨[], []⟩, .faultClearSource ⟨[], []⟩, .faultClearLatch ⟨[], []⟩, .cvuRun ⟨[], []⟩,
    .cvuRunDone 4, .blobLoad ⟨[], []⟩, .badOpcode ⟨[], []⟩, .getNonce ⟨[], []⟩ false false, .getIdentity ⟨[], []⟩ false false,
    .getState ⟨[], []⟩ false false, .takeOwnership ⟨[], []⟩ false false, .keyInstall ⟨[], []⟩ false false, .unlock ⟨[], []⟩ false false,
    .relock ⟨[], []⟩ false false, .seal ⟨[], []⟩ false false, .unseal ⟨[], []⟩ false false, .rma ⟨[], []⟩ false false,
    .makerRestore ⟨[], []⟩ false false, .void ⟨[], []⟩ false false, .fwUpdate ⟨[], []⟩ false false, .fwConfirm ⟨[], []⟩ false false,
    .ldevidGen ⟨[], []⟩ false false, .ldevidInstall ⟨[], []⟩ false false, .selfTest ⟨[], []⟩ false false] : List Instr).all
      (fun i => !i.wellFormed)) = true := by decide +kernel

theorem test_ill_formed_registers : (([.ringEnable .pcie 19 0, .ringDisable .pcie 19 0, .broadcastWrite .pcie 0x2200 0,
    .broadcastWrite .pcie 0x2102 0, .basicCodeWrite .pcie 0x2108 0, .rwpValueWrite .pcie 0x2124 0, .rwpComplementWrite .pcie 0x2120 0,
    .reg64LowRead .pcie 0x10000, .reg64LowRead .pcie 0x1000 .bar2, .reg64HighRead .pcie 0x30, .reg64AtomicRead .pcie 0x10000, .reg64LowWrite .pcie 0x10 0,
    .reg64HighWrite .pcie 0x10 0, .cvuCtlAlg .pcie 4 0, .cvuCtlAlg .pcie 0 8, .cvuInit .pcie 4 0, .cvuInit .pcie 0 8, .cvuFeed8 .pcie 4 0,
    .cvuFeed16 .pcie 4 0, .cvuFeed32 .pcie 4 0, .cvuStateWrite .pcie 4 0, .registerWrite .pcie 0x10000 4 0 0, .registerWrite .pcie 0 2 0 0,
    .pciePerst true ⟨3, 1, 0⟩, .pciePerst true ⟨8, 3, 0⟩, .pciePerst true ⟨8, 1, 2 ^ 32⟩, .pcieDegraded 3 1, .pcieDegraded 8 3,
    .auxPowerEnable 4, .bootStart ⟨false, false, false, 8, false, ⟨8, 1, 0⟩⟩, .bootStart ⟨false, false, false, 0, false, ⟨3, 1, 0⟩⟩,
    .supplyPhase 2, .supplyPhaseRetry 2 true, .ethLinkDown 2 ⟨0, 0, false, 0, 0⟩, .ethLinkUp 2 1 ⟨0, 0, false, 0, 0⟩,
    .ethLinkUp 0 0 ⟨0, 0, false, 0, 0⟩, .ethLinkUp 0 4 ⟨0, 0, false, 0, 0⟩, .ethFrame 2 (List.replicate 14 0) ⟨0, 0, false, 0, 0⟩,
    .ethFrame 0 (List.replicate 13 0) ⟨0, 0, false, 0, 0⟩, .tlsConnect (List.replicate 97 0), .status 0 65536 0 1, .netSet 0 65536 [],
    .macsecKey 0 65536 0 false 0 (List.replicate 32 0) 0 0, .macsecKey 0 0 2 false 0 (List.replicate 32 0) 0 0,
    .macsecKey 0 0 0 false 4 (List.replicate 32 0) 0 0, .macsecKey 0 0 0 false 0 [] 0 0,
    .macsecKey 0 0 0 false 0 (List.replicate 32 0) (2 ^ 32) 0, .macsecKey 0 0 0 false 0 (List.replicate 32 0) 0 (2 ^ 32),
    .macsecTxChange 0 65536 0, .macsecTxChange 0 0 2, .descriptor 0 65536 ⟨List.replicate 32 0, []⟩, .descriptor 0 0 ⟨[], []⟩,
    .clkBChange 32 true, .tlsSessionClose 2, .selfTestDone 8, .addressAgeing (2 ^ 48), .gateControlListEntry 2] : List Instr).all
      (fun i => !i.wellFormed)) = true := by decide +kernel

/-! ## Worked values of the spec -/

/-- "123456789" in ASCII, the test input of Table 11-2. -/
def nine : List Byte := [0x31, 0x32, 0x33, 0x34, 0x35, 0x36, 0x37, 0x38, 0x39]

/-- Table 11-2, last column. -/
theorem test_check_values : ([0, 1, 2, 3, 4].map (fun a => (cvuResult a (cvuFeed nine (cvuLoad a {})).st).toNat)) =
    [0xE3069283, 0xCBF43926, 0x29B1, 0xDF, 0x1EDE] := by decide +kernel

/-- Table 11-2 again, for the check of descriptors and of link frames. -/
theorem test_in_line_checks : (crc32c nine, crc16 nine) = (0xE3069283, 0x29B1) := by decide +kernel

/-- Reset values of Tables 1-2, 3-7 and 13-9: TICK_STEPS 4, PERIOD_TICKS 1000, FRD_WD 10, FLT_CFG 0x10, NET_PUB_CFG 50120. -/
theorem test_reset_words : (fld (conf [] 0x1010 0) 0 7, fld (conf [] 0x1014 0) 0 24, conf [] 0x3000 0, conf [] 0xB000 0, conf [] 0xD020 0) =
    (4, 1000, 0x00A, 0x10, 0xC3C8) := by decide +kernel

/-- FRD_STATUSf before any checked U0 reads 0x0000_0003 (R121). -/
theorem test_reset_frond_status : (frond State.reset 7).rep.safe = true ∧ (frond State.reset 7).rep.shutdown = true := by decide +kernel

/-- One step takes the front command and leaves the next one in front. -/
theorem test_step_order : (match step { runS 0 with pending := [.checkIn, .tickOutFall] } with
    | .next t => t.pending == [.tickOutFall] && t.tm.checkedIn | _ => false) = true := by decide +kernel

/-- The first tick edge is edge 0 (R563), the next one edge 1. -/
theorem test_first_edges : (nextTick State.reset, nextTick { State.reset with tm := { started := true } }) = (0, 1) := by decide +kernel

/-- A DI channel one step short of T_ON 3, with T_OFF 5. -/
def stepS : State := fieldS { frondF with cfg := [(winAddr 0 0x2108, 0x00050003)], chans := [(0, { mode := 1, c := 2 })] }

/-- R63: the third raw 1 of T_ON 3 makes the reported state 1 with the counter at T_OFF. -/
theorem test_integrator : (match exec (.integratorStep 48 9500001 0) stepS with
    | .next t => let c := fchan (fieldOf t 3) 0; c.out && c.c == 5 && c.rise == 1 | _ => false) = true := by
  have h : rawState (fieldOf stepS 3) 0 48 9500001 = true := rawState_high (by decide +kernel) (by decide)
  have e : exec (.integratorStep 48 9500001 0) stepS =
    .next { stepS with field := tput stepS.field 3 (integrate 0 48 9500001 0 (fieldOf stepS 3)) } := rfl
  rw [e]
  unfold integrate
  simp only [h]
  decide +kernel

/-- R409: a doorbell above the free entries sets DBERR and leaves P. -/
theorem test_doorbell_beyond : (match exec (.dbCmd 65) (runS 0) with
    | .next t => t.dberr && (ring t cmdRing).p == 0 | _ => false) = true := by decide +kernel

/-- R394: a repeated alive value completes with status 0x11. -/
theorem test_alive_repeat : (match exec (.nop ⟨withCrc ([0, 9] ++ List.replicate 26 0), []⟩) { runS 1 with lastAlive := some 9 } with
    | .next t => (ring t cmdRing).c == 1 && t.outbox.any (fun o => match o with | .hostWrite 0x10000 b => getLE b 1 1 == 0x11 | _ => false)
    | _ => false) = true := by decide +kernel

/-! ## Witnesses: a state and operands that meet the hypotheses of each statement -/

theorem witness_EmptyQueueIdles : State.reset.pending = [] := rfl

theorem witness_EveryStepKeepsSound : Machine.Sound State.reset :=
  ⟨(by intro h; rcases h with h | h <;> cases h), rfl, (by decide +kernel), (by intro o h; cases h)⟩

theorem witness_CountAndConfigChangeOnlyAtEdges : isReset .checkIn = false ∧ (∀ i, Instr.checkIn ≠ .tickEdge i) ∧
    (∀ i, Instr.checkIn ≠ .bootStart i) ∧ ∃ t, exec .checkIn State.reset = .next t :=
  ⟨rfl, (fun i h => by cases h), (fun i h => by cases h), _, rfl⟩

theorem witness_LifeCycleMovesOnlyAsTabled : ∃ t, exec .checkIn State.reset = .next t := ⟨_, rfl⟩

theorem witness_CommandsReachOneFrondOnly : onFrond (.auxPowerLoss 31) ≠ some 0 ∧ ∃ t, exec (.auxPowerLoss 31) State.reset = .next t :=
  ⟨by decide +kernel, _, rfl⟩

theorem witness_OutputsAreNeverTakenBack : ∃ t, exec .tickOutFall (runS 0) = .next t := ⟨_, rfl⟩

/-- Without a shadow, with one of the register, and at an 8-byte boundary. -/
theorem witness_Reg64ReadsAreCoherent : pathOpen .pcie (runS 0) = true ∧ readOpen (runS 0) 0x1000 = true ∧ is64 0x1000 = true ∧
    0x1000 % 8 = 0 ∧ (pathRegs .pcie (runS 0)).shadow = none ∧
    (pathRegs .pcie { runS 0 with pcie := { shadow := some (0x1000, 0, 5) } }).shadow = some (0x1000, shadowChan .pcie (runS 0) 0x1000, 5) := by
  decide +kernel

theorem witness_AccessesOfOtherShapes : pathOpen .mp (runS 0) = true ∧ (runS 0).phase ≠ .off ∧ (runS 0).phase ≠ .reset ∧ isRwp 0x3000 = true ∧
    readOpen (runS 0) 0x3000 = true ∧ readOpen (runS 0) 0x3004 = true ∧ ¬(0x0030 % 8 = 0 ∧ (is64 0x30 = true ∨ isRwp 0x30 = true)) ∧
    ¬(4 = 4 ∧ 0x10000 % 4 = 0 ∧ 0x10000 < 0x10000) ∧ ¬(8 = 8 ∧ 0x30 % 8 = 0 ∧ is64 0x30 = true) ∧ is64 0x30 = false ∧
    endpointOpen hostedS = true ∧ running hostedS = true ∧ pathOpen .pcie hostedS = true ∧ hostedS.bme = true ∧ hostedS.pba.testBit 31 = true ∧
    0x9FC = 0x800 + 4 * 127 ∧ doorbellRing 0x004 = some 1 ∧ 0x100 % 4 = 0 ∧ msixDword 0x100 = none ∧ doorbellRing 0x100 = none ∧
    msixDword 0xC04 = none ∧ doorbellRing 0xC04 = none ∧ (4 : DWord).getLsbD 2 = true ∧ (0 : DWord).getLsbD 2 = false ∧
    (1 : DWord).getLsbD 0 = true := by decide +kernel

theorem witness_Reg64WritesTakeBothHalves : writeOpen .pcie (runS 0) 0x1020 = true ∧ is64W 0xA1F0 = true ∧ locked64 0xA1F0 (runS 0) = false ∧
    isSealed (runS 0) = false ∧ anyRing offS = false ∧ writeOpen .pcie offS 0x1020 = true ∧
    (ring (runS 0) 18).en = false := by decide +kernel

/-- Rings off and on; LOG2 at both ends of its range and beside them; no ring on at all. -/
theorem witness_RingsAreEnabledAndLocked : running (runS 0) = true ∧ pathOpen .pcie (runS 0) = true ∧ (ring (runS 0) 18).en = false ∧
    fld (0x6 : Word) 0 5 = 6 ∧ fld (0x10 : Word) 0 5 = 16 ∧ fld (0x5 : Word) 0 5 < 6 ∧ 16 < fld (0x11 : Word) 0 5 ∧ (runS 0).stsBase ≠ 0 ∧
    baselessS.stsBase = 0 ∧ (ring (runS 0) 0).en = true ∧ doorbellRing 0x040 = some 3 ∧
    anyRing (runS 0) = true ∧ anyRing offS = false ∧ (ring offS cmdRing).en = false ∧
    running offS = true := by decide +kernel

/-- Nothing pending; a value word that the other path has written, with its complement, with another word, and one of another channel. -/
theorem witness_PairsAreCheckedAtTheComplement : isRwp 0x2130 = true ∧ writeOpen .mp (runS 0) 0x2130 = true ∧ isSealed (runS 0) = false ∧
    lineBad (runS 0) 0x08 0 = false ∧ targets (pathRegs .mp (runS 0)) 0x2130 = [0] ∧
    (runS 0).rwp.any (pairIn 0x2130 [0]) = false ∧ pairIn 0x2130 [0] ⟨.pcie, 0x2130, 0, 0, 5⟩ = true ∧
    pairAt 0x2130 (pairSel (pathRegs .mp (runS 0)) 0x2130) ⟨.pcie, 0x2130, 0, 0, 5⟩ = true ∧
    pairAt 0x2130 (pairSel (pathRegs .mp (runS 0)) 0x2130) ⟨.pcie, 0x2130, 5, 5, 5⟩ = false ∧
    pairIn 0x2130 [0] ⟨.pcie, 0x2130, 0x10000, 0, 5⟩ = true ∧ pairAt 0x2130 0 ⟨.pcie, 0x2130, 0x10000, 0, 5⟩ = false ∧
    (0xFFFFFFFA : Word) = ~~~5 ∧ (5 : Word) ≠ ~~~5 := by decide +kernel

theorem witness_WindowWritesReachTheirChannels : running (runS 0) = true ∧ pathOpen .pcie (runS 0) = true ∧ (runS 0).rwp = [] ∧
    0x2108 % 4 = 0 ∧ inWindow 0x2108 = true ∧ rwsMask 0x2108 ≠ 0 ∧ isRwp 0x2108 = false ∧ complOf 0x2108 = none ∧ isBasic 0x2108 = false ∧
    isSealed (runS 0) = false ∧ bit (pathRegs .pcie { runS 0 with pcie := { chnSel := 0x10000 } }).chnSel 16 = true ∧
    isSealed { runS 0 with sec := { lc := lcSealed } } = true ∧ isBasic 0x210C = true ∧ inWindow 0x210C = true ∧
    bit (pathRegs .pcie (runS 0)).chnSel 16 = false ∧ (expandCode 0x210C 0 1).isSome = true := by decide +kernel

theorem witness_CheckUnitsFollowTheirTable : (3 : Nat) < 4 ∧ writeOpen .pcie (runS 0) 0x9000 = true ∧ (cvu (runS 0) 3).owned = false ∧
    (cvu { runS 0 with cvu := [(3, { owned := true })] } 3).owned = true := by decide +kernel

theorem witness_PeekDiscardDebugAndIdWrites : running (runS 0) = true ∧ pathOpen .pcie (runS 0) = true ∧ dbgOpen (runS 0) = true ∧
    dbgOpen { runS 0 with sec := { lc := lcOwned } } = false := by decide +kernel

/-- The last accepted value and the first refused one, for the command ring and for another; a ring that is off. -/
theorem witness_DoorbellsAreChecked : running (runS 0) = true ∧ doorbellRing 0x000 = some cmdRing ∧ doorbellRing 0x004 = some cplRing ∧
    lineBad (runS 0) 0x2A 0 = false ∧ (ring (runS 0) cmdRing).en = true ∧ (ring (runS 0) cplRing).en = true ∧ doorbellRing 0x040 = some 3 ∧
    (ring (runS 0) 3).en = false ∧
    ((64 : Word) - (ring (runS 0) cmdRing).c).toNat = 2 ^ (ring (runS 0) cmdRing).log2 ∧
    ((64 : Word) - (ring (runS 0) cmdRing).p).toNat ≤ ((64 : Word) - (ring (runS 0) cmdRing).c).toNat ∧
    ¬((65 : Word) - (ring (runS 0) cmdRing).c).toNat ≤ 2 ^ (ring (runS 0) cmdRing).log2 ∧
    ((ring (runS 0) cplRing).p - (0 : Word)).toNat ≤ 2 ^ (ring (runS 0) cplRing).log2 ∧
    ((0 : Word) - (ring (runS 0) cplRing).c).toNat ≤ ((ring (runS 0) cplRing).p - (ring (runS 0) cplRing).c).toNat ∧
    ¬((ring (runS 0) cplRing).p - (1 : Word)).toNat ≤ 2 ^ (ring (runS 0) cplRing).log2 := by decide +kernel

/-- A cell for tests. -/
def cell0 : Cell := { typ := 0x7F, source := 0, epoch := 0, tick := 1, flags := 0, body := [] }

/-- Queue 255 with one packet of one cell: its ring is the event ring. -/
def queuedS : State := { runS 0 with queues := [(255, { pkts := [⟨[cell0], 0, false⟩] })] }

theorem witness_RecordsEnterTheirRing : queuedS.phase = .running ∧ queuedS.auto = false ∧ (nextCell queuedS 255 (queue queuedS 255)).isSome = true ∧
    ringFor queuedS 255 = some 2 ∧ ringRoom queuedS 2 = true ∧ lineBad queuedS 0x28 0 = false ∧
    poisoned cell0 (some [(64, 1)]) = true ∧ poisoned cell0 (some [(0, 1)]) = true ∧
    poisoned cell0 (some [(0, 1), (64, 1)]) = false ∧ poisoned { cell0 with poison := 1 } none = true ∧ poisoned cell0 none = false ∧
    (ring waitingS 18).unsig ≠ 0 ∧
    (ring waitingS 18).holdoff ≠ 0 ∧
    (ring waitingS 18).count ≠ 0 := by decide +kernel

/-- The stream port drains queue 5, which has one packet. -/
def portS : State :=
  { runS 0 with cfg := [(regKey 0x8004 5, 2)], queues := [(5, { pkts := [⟨[cell0], 0, false⟩] })] }

/-- A half-word is ready to be read. -/
def portReadyS : State := { portS with lsp := { fifo := [(7, false)], wr := 1, wr1 := 1, wr2 := 1 } }

theorem witness_StreamPortIsAFifo : lspActive portS = true ∧ portS.phase = .running ∧ lspQueue portS = some 5 ∧
    (queue portS 5).pkts = [⟨[cell0], 0, false⟩] ∧ lspFill portS + 32 * 1 ≤ 1024 ∧ lspReady portReadyS = true ∧
    portReadyS.lsp.fifo = [(7, false)] ∧ cell0.poison = 0 := by decide +kernel

theorem witness_FlushesEmptyTheirQueue : running (runS 0) = true ∧
    (queue { runS 0 with queues := [(5, { pkts := [⟨[cell0], 0, false⟩], flush := [0] })] } 5).cur = none ∧
    (queue { runS 0 with queues := [(5, { pkts := [⟨[cell0], 0, false⟩], flush := [0] })] } 5).flush = [0] ∧
    (∀ e ∈ { runS 0 with queues := [(5, { pkts := [⟨[cell0], 0, false⟩], flush := [0] })] }.queues, e.2.owe = 0) ∧
    ∀ q, qspill (queue (runS 0) q) = 0 := ⟨by decide +kernel, by decide +kernel, by decide +kernel, by decide +kernel, fun _ => rfl⟩

/-! ### Descriptors -/

/-- A NOP, and one with a failed CRC, a wrong alive value, an unused byte that is not 0. -/
def nopD : Desc := mkD 0 0 [] []
def badCrcD : Desc := ⟨[0, 1] ++ List.replicate 30 0, []⟩
def gapD : Desc := ⟨withCrc ([0, 9] ++ List.replicate 26 0), []⟩
def unusedD : Desc := mkD 0 0 [1] []

theorem witness_DescriptorsAreCheckedInOrder : canTake (runS 1) = true ∧ lineBad (runS 1) 0x29 0 = false ∧
    BitVec.ofNat 8 (dF nopD 1 1) = (runS 1).expAlive ∧ dCrcOk badCrcD = false ∧ BitVec.ofNat 8 (dF badCrcD 1 1) = (runS 1).expAlive ∧
    BitVec.ofNat 8 (dF gapD 1 1) ≠ (runS 1).expAlive ∧ { runS 1 with lastAlive := some (9 : Byte) }.lastAlive = some (BitVec.ofNat 8 (dF gapD 1 1)) ∧
    dCrcOk unusedD = true ∧ nopForm.mine unusedD = true ∧ unusedZero unusedD nopForm.used = false ∧
    dCrcOk (mkD 0x0F 0 [] []) = true ∧ 0x0F ≤ dOp (mkD 0x0F 0 [] []) ∧ 0x0F ≤ dOp (mkD 0xFF 0 [] []) ∧
    (secForm 0x01 .none).mine (mkD 0x0D 0 [0x99] []) = true ∧ (secForm 0x01 .none).ok (mkD 0x0D 0 [0x99] []) = false ∧
    fwForm.mine (mkD 0x0D 0 [0x40] []) = true ∧ payBad fwForm (mkD 0x0D 0 ([0x40, 0, 0, 0] ++ le 4 16) []) = true ∧
    blobForm.mine (mkD 0x0E 0 [] []) = true ∧ payBad blobForm (mkD 0x0E 0 (List.replicate 8 0 ++ le 4 16) []) = true ∧
    dOp (mkD 0x08 0 [] []) = 0x08 ∧ dOp (mkD 0x04 0 (le 2 511) []) = 0x04 ∧ dF (mkD 0x04 0 (le 2 511) []) 8 2 < 512 := by decide +kernel

/-- No waiting descriptor, so every number is fresh. -/
theorem fresh_runS (n : Nat) : Fresh (runS n) := by intro o h; cases h

/-- The running module with the capture ring 31 enabled. -/
def capS : State := { runS 1 with cfg := [(regKey (0x6100 + 32 * 31) 0, 0x10)] }

theorem witness_PlainDescriptorsDoTheirWork : Takes nopForm nopD (runS 1) ∧ Takes (capForm 0) (mkD 5 0 [31, 0] []) capS ∧
    capEn capS.cfg 31 = true ∧ Takes (capForm 1) (mkD 5 0 [31, 1] []) (runS 1) ∧ capEn (runS 1).cfg 31 = false ∧
    Takes syncForm (mkD 0x0A 0 [] []) (runS 1) ∧ Takes mapForm (mkD 6 0 (le 8 64 ++ le 4 0 ++ le 4 1) []) (runS 1) ∧
    Takes cvuForm (mkD 0x0C 0 ([3, 4, 0, 0] ++ le 4 8 ++ le 8 64) []) (runS 1) ∧ Takes flushForm (mkD 7 0 [255] []) (runS 1) ∧
    (queue (runS 1) 255).cur = none ∧ (queue (runS 1) 255).flush = [] ∧
    (queue { runS 1 with queues := [(255, { cur := some ⟨[cell0], 0, false⟩ })] } 255).cur ≠ none ∧
    Takes flushForm (mkD 7 0 [255] []) { runS 1 with queues := [(255, { cur := some ⟨[cell0], 0, false⟩ })] } ∧
    Takes nopForm nopD { runS 1 with outs := [⟨0, 7, 0, 0, 0, 0, 0, [], false, 0, 0⟩], nextId := 1 } := by
  refine ⟨takes_of ?_, takes_of ?_, ?_, takes_of ?_, ?_, takes_of ?_, takes_of ?_, takes_of ?_, takes_of ?_, ?_, ?_, ?_,
    takes_of ?_, takes_of ?_⟩ <;> decide +kernel

/-- One CFG entry: TCK_PERIOD becomes 5; and one that names no register. -/
def cfgD : Desc := mkD 1 0 (le 8 64 ++ le 4 12) (le 2 0x1014 ++ le 2 0 ++ le 4 5)
def cfgBadD : Desc := mkD 1 0 (le 8 64 ++ le 4 12) (le 2 0x1000 ++ le 2 0 ++ le 4 5)

/-- One rule entry of zeros but for the complements of its pairs, and one of zeros only. -/
def ruleD (b : List Byte) : Desc := mkD 8 0 (le 2 1023 ++ le 2 1 ++ le 4 0 ++ le 8 64) (padTo 64 b)

/-- The words of a rule entry of zeros with right complements. -/
def rulePairs : List Byte := List.replicate 36 0 ++ List.replicate 28 0xFF

/-- A sealed module. -/
def sealedS : State := { runS 1 with sec := { lc := lcSealed } }

theorem witness_ConfigurationPayloadsAreStaged : Takes cfgForm cfgD (runS 1) ∧ isSealed (runS 1) = false ∧
    firstBad (cfgEnts (payload cfgD (dF cfgD 16 4)) 0 ((dF cfgD 16 4 - 4) / 8)) = none ∧ Takes cfgForm cfgBadD (runS 1) ∧
    firstBad (cfgEnts (payload cfgBadD (dF cfgBadD 16 4)) 0 1) = some 0 ∧ Takes cfgForm cfgD sealedS ∧ isSealed sealedS = true ∧
    Takes ruleForm (ruleD []) (runS 1) ∧ (badRule (payload (ruleD []) 64) 0 1023 1).isSome = true ∧
    badRule (payload (ruleD rulePairs) 64) 0 1023 1 = none ∧ Takes ruleForm (ruleD rulePairs) (runS 1) ∧
    Takes speedForm (mkD 9 0 ([15] ++ List.replicate 7 0 ++ le 8 64) (List.replicate 128 0)) (runS 1) ∧ lineBad (runS 1) 0x08 0 = false := by
  refine ⟨takes_of ?_, ?_, ?_, takes_of ?_, ?_, takes_of ?_, ?_, takes_of ?_, ?_, ?_, takes_of ?_, takes_of ?_, ?_⟩ <;> decide +kernel

/-- COMMITs for T = 103 and T = 1,000,100, the first and the last in range at count 100, and for 102. -/
def commitD (t : Nat) : Desc := mkD 2 0 (le 6 t) []

theorem witness_CommitsArePendingOrRefused : Takes commitForm (commitD 103) (runS 1) ∧ Takes commitForm (commitD 1000100) (runS 1) ∧
    Takes commitForm (commitD 102) (runS 1) ∧ now (runS 1) + 3 = dF (commitD 103) 8 6 ∧ dF (commitD 1000100) 8 6 = now (runS 1) + 1000000 ∧
    dF (commitD 102) 8 6 < now (runS 1) + 3 ∧ (runS 1).pend = none ∧ (runS 1).rwp = [] ∧
    { runS 1 with pend := some ⟨103, 100, false, 1, [], 0, [], [], false, none, false⟩ }.pend ≠ none := by
  refine ⟨takes_of ?_, takes_of ?_, takes_of ?_, ?_, ?_, ?_, rfl, rfl, ?_⟩ <;> decide +kernel

/-- A commit of the reset configuration finds nothing wrong in its fields and no conflict. -/
theorem witness_AcceptedCommit_fields : fieldChecks (runS 1) (runS 1).staged ++ conflictChecks (runS 1) (runS 1).staged = [] := by decide +kernel

/-- The demands of a unit and scope are those of the scope among those of the unit. -/
theorem demands_at (l : List Demand) (u sc : Nat) :
    l.filter (fun d => d.unit == u && d.scope == sc) = (l.filter (fun d => d.unit == u)).filter (fun d => d.scope == sc) := by
  rw [List.filter_filter]
  exact congrArg (fun p => l.filter p) (funext fun d => Bool.and_comm _ _)

/-- It exceeds no budget unit. -/
theorem witness_AcceptedCommit_budget : ((budgetCheck (runS 1) (runS 1).staged false).filter (fun e => e.exceeded)).map budEntry = [] := by
  unfold budgetCheck
  simp only [demands_at]
  decide +kernel

/-- And it changes nothing at the fronds. -/
theorem witness_AcceptedCommit_items : ∀ f ∈ List.range 32, commitItems (runS 1) f = [] := by decide +kernel

/-- The running module with frond 0 late on a configuration of its own, so that a commit of the reset configuration has 17 items for it,
more than T - 2 superframes carry. -/
def lateS : State :=
  { runS 1 with fronds := [(0, { hold := some ((List.range 16).map (fun p => (regKey 0x2108 p, 0x00050003)) ++ [(regKey 0x2148 0, 4)]) })] }

theorem witness_LateCommit : Takes commitForm (commitD 103) lateS ∧ 103 - 2 - now lateS < cdiv (commitItems lateS 0).length 16 := by
  refine ⟨takes_of ?_, ?_⟩ <;> decide +kernel

/-- The checks of fields and conflicts read the rings and the mode of the module only. -/
theorem witness_LateCommit_fields (t : Tab Word) :
    fieldChecks lateS t ++ conflictChecks lateS t = fieldChecks (runS 1) t ++ conflictChecks (runS 1) t := by
  have q : queueFields lateS t = queueFields (runS 1) t := rfl
  have s : subFields lateS t = subFields (runS 1) t := rfl
  have r : ringFields lateS t = ringFields (runS 1) t := rfl
  have n : namedQueues lateS t = namedQueues (runS 1) t := rfl
  unfold fieldChecks conflictChecks
  rw [q, s, r, n]

theorem witness_LateCommit_budget : ((budgetCheck lateS lateS.staged false).filter (fun e => e.exceeded)).map budEntry = [] := by
  unfold budgetCheck
  simp only [demands_at]
  decide +kernel

/-- The running module with a capture under way in ring 31. -/
def busyS : State := { capS with caps := [(31, { run := some ⟨0, 0, 0, 0, 0, 0, 0, 0, 0, false, false, false, 0, 0, 0, 0, 0, none, none, [], 0, 0, 0, []⟩ })] }

theorem witness_SnapsOutputsAndTriggersStart : Takes snapForm (mkD 3 0 ([1, 0, 0, 0, 1, 0]) []) (runS 1) ∧
    snapSel (mkD 3 0 ([1, 0, 0, 0, 1, 0]) []) ≠ [] ∧ Takes snapForm (mkD 3 0 [] []) (runS 1) ∧ snapSel (mkD 3 0 [] []) = [] ∧
    Takes outForm (mkD 4 0 (le 2 511 ++ [0, 0] ++ le 4 1 ++ le 4 0xFFFFFFFE) []) (runS 1) ∧ (0xFFFFFFFE : Word) = ~~~1 ∧
    Takes outForm (mkD 4 0 (le 2 511 ++ [0, 0] ++ le 4 1 ++ le 4 0) []) (runS 1) ∧ (0 : Word) ≠ ~~~1 ∧
    Takes outForm (mkD 4 0 (le 2 511 ++ [0, 0] ++ le 4 0x30000 ++ le 4 0xFFFCFFFF) []) (runS 1) ∧ (0xFFFCFFFF : Word) = ~~~0x30000 ∧
    fld (0x30000 : Word) 16 2 = 3 ∧ fld (1 : Word) 16 2 ≠ 3 ∧ fld (1 : Word) 18 14 = 0 ∧
    Takes (capForm 2) (mkD 5 0 [31, 2] []) (runS 1) ∧ capEn (runS 1).cfg 31 = false ∧ Takes (capForm 2) (mkD 5 0 [31, 2] []) capS ∧
    (capRing capS 31).run = none ∧ dF (mkD 5 0 [31, 2] []) 10 1 = 0 ∧ Takes (capForm 2) (mkD 5 0 [31, 2] []) busyS ∧
    capEn busyS.cfg 31 = true ∧ ((capRing busyS 31).run.map (·.key)) = some 0 ∧ (0 : Nat) ≠ keyAt busyS 5 ∧ lineBad (runS 1) 0x08 0 = false := by
  refine ⟨takes_of ?_, ?_, takes_of ?_, ?_, takes_of ?_, ?_, takes_of ?_, ?_, takes_of ?_, ?_, ?_, ?_, ?_, takes_of ?_, ?_,
    takes_of ?_, ?_, ?_, takes_of ?_, ?_, ?_, ?_, ?_⟩ <;> decide +kernel

/-- A module in which one descriptor of opcode op with object obj and timeout tmo waits. -/
def outS (op : Byte) (obj tmo : Nat) : State := { runS 0 with outs := [⟨0, op, 0, 0, tmo, obj, 0, [], false, 0, 0⟩], nextId := 1 }

theorem witness_WaitingDescriptorsFinish : CanReport (outS 6 0 0) ∧ 32 * (1 - 0) ≤ (outS 6 0 0).reserve ∧
    { outS 6 0 0 with reserve := 31 }.reserve < 32 * (1 - 0) ∧ 0 < (outS 7 0 5).abs + 32768 * steps (outS 7 0 5) ∧
    (outS 7 0 5).abs + 32768 * steps (outS 7 0 5) ≤ 131072 ∧ { outS 6 0 0 with xfers := [⟨0, 64, 0, 1, 0⟩] }.xfers = [⟨0, 64, 0, 1, 0⟩] ∧
    outOf (outS 6 0 0) 0 = some ⟨0, 6, 0, 0, 0, 0, 0, [], false, 0, 0⟩ ∧ (0 : Nat) < 1 ∧ CanReport (outS 0x0C 3 0) ∧
    (outS 0x0C 3 0).outs.find? (fun o => o.opcode == 0x0C && o.obj == 3) = some ⟨0, 0x0C, 0, 0, 0, 3, 0, [], false, 0, 0⟩ ∧
    { (outS 0x0A 0 0) with tm := { syncFin := [some 0] } }.tm.syncFin = [some 0] ∧
    (outS 0x07 0 5).outs.find? (fun o => o.didx == 0 && o.tmo != 0) = some ⟨0, 7, 0, 0, 5, 0, 0, [], false, 0, 0⟩ :=
  ⟨(by unfold CanReport; decide +kernel), (by decide +kernel), (by decide +kernel), (by decide +kernel), (by decide +kernel), rfl,
   (by decide +kernel), (by decide +kernel), (by unfold CanReport; decide +kernel), (by decide +kernel), rfl, (by decide +kernel)⟩

/-! ### The security subsystem

The signature check, the module's serial number and its certificates are uninterpreted constants of Config. A witness that needs a
signature that passes, or a bound on a certificate, takes that as its hypothesis. -/

/-- A token of an operation for this module, without its CRC, under the nonce of zeros, with a signature of zeros. -/
def tok (op key param : Nat) (data : List Byte) : List Byte :=
  le 2 op ++ (le 1 key ++ (le 1 param ++ (le 8 Config.serial.toNat ++ (List.replicate 16 0 ++ (le 4 data.length ++ (data ++ List.replicate 96 0))))))

/-- A SEC_OP with its payload. -/
def secD (op : Nat) (pay : List Byte) : Desc := mkD 0x0D 0 (le 2 op ++ [0, 0] ++ le 4 (pay.length + 4) ++ le 8 64) pay

/-- A SEC_OP without a payload. -/
def secD0 (op : Nat) : Desc := mkD 0x0D 0 (le 2 op) []

/-- A running module in a life-cycle state, with an owner key and a nonce, physical presence seen and zeroisation recorded. -/
def lcS (lc : Nat) : State :=
  { runS 1 with sec := { lc := lc, nonce := some (List.replicate 16 0), keys := [(0, [1])], presence := true, zeroDone := true, ldev := some [2] } }

theorem takes_input {form : DescForm} {d : Desc} {s : State} {b : List Byte} {n : Nat}
    (h : takesB { form with pay := fun _ => none } d s = true) (p : d.pay = withCrc b) (e : form.pay d = some n) (l : b.length + 4 = n) :
    Takes form d s := by
  obtain ⟨a1, a2, a3, a4, a5, a6, a7, a8, a9⟩ := takes_of h
  refine ⟨a1, a2, a3, a4, a5, a6, a7, ?_, a9⟩
  unfold payBad
  rw [e]
  show (!payloadCrcOk (payload d n)) = false
  rw [payload_whole (by rw [p, length_withCrc]; exact l), p, payloadCrcOk_withCrc]
  rfl

theorem token_passes (h : ∀ k m g, Config.ecdsaOk k m g = true) {s : State} {op key param : Nat} {data : List Byte} (ho : op < 65536)
    (hk : key < 256) (hd : data.length < 256 ^ 4) (hn : s.sec.nonce = some (List.replicate 16 0)) (ht : (tokKey s key).isSome = true) :
    tokenOk s op key (withCrc (tok op key param data)) = true := by
  have e1 : getLE (withCrc (tok op key param data)) 0 2 = op := by
    unfold withCrc tok
    rw [List.append_assoc]
    exact getLE_mid [] _ ho
  have e2 : getLE (withCrc (tok op key param data)) 2 1 = key := by
    unfold withCrc
    generalize (crc32c (tok op key param data)).toNat = z
    unfold tok
    have := getLE_mid (le 2 op) (le 1 param ++ (le 8 Config.serial.toNat ++ (List.replicate 16 0 ++ (le 4 data.length ++
      (data ++ List.replicate 96 0)))) ++ le 4 z) (n := 1) (v := key) hk
    rw [length_le] at this
    simpa only [List.append_assoc] using this
  have e3 : getLE (withCrc (tok op key param data)) 4 8 = Config.serial.toNat := by
    unfold withCrc
    generalize (crc32c (tok op key param data)).toNat = z
    unfold tok
    have := getLE_mid (le 2 op ++ (le 1 key ++ le 1 param)) ((List.replicate 16 0 ++ (le 4 data.length ++
      (data ++ List.replicate 96 0))) ++ le 4 z) (n := 8) (v := Config.serial.toNat) Config.serial.isLt
    rw [List.length_append, List.length_append, length_le, length_le, length_le] at this
    simpa only [List.append_assoc] using this
  have e4 : getLE (withCrc (tok op key param data)) 28 4 = data.length := by
    unfold withCrc
    generalize (crc32c (tok op key param data)).toNat = z
    unfold tok
    have := getLE_mid (le 2 op ++ (le 1 key ++ (le 1 param ++ (le 8 Config.serial.toNat ++ List.replicate 16 0)))) ((data ++ List.replicate 96 0) ++
      le 4 z) (n := 4) (v := data.length) hd
    rw [List.length_append, List.length_append, List.length_append, List.length_append, length_le, length_le, length_le, length_le,
      List.length_replicate] at this
    simpa only [List.append_assoc] using this
  have e5 : ((withCrc (tok op key param data)).drop 12).take 16 = List.replicate 16 0 := by
    unfold withCrc tok
    have : le 2 op ++ (le 1 key ++ (le 1 param ++ (le 8 Config.serial.toNat ++ (List.replicate 16 0 ++ (le 4 data.length ++ (data ++
        List.replicate 96 0)))))) ++ le 4 (crc32c (tok op key param data)).toNat =
        (le 2 op ++ (le 1 key ++ (le 1 param ++ le 8 Config.serial.toNat))) ++ (List.replicate 16 0 ++ (le 4 data.length ++ (data ++
        List.replicate 96 0) ++ le 4 (crc32c (tok op key param data)).toNat)) := by simp only [List.append_assoc]
    have l : (le 2 op ++ (le 1 key ++ (le 1 param ++ le 8 Config.serial.toNat))).length = 12 := by
      rw [List.length_append, List.length_append, List.length_append, length_le, length_le, length_le, length_le]
    erw [this, List.drop_left' l, List.take_left' (List.length_replicate ..)]
  have e6 : (withCrc (tok op key param data)).length = 32 + data.length + 100 := by
    rw [length_withCrc]
    unfold tok
    simp only [List.length_append, length_le, List.length_replicate]
    omega
  obtain ⟨k, hk2⟩ := Option.isSome_iff_exists.mp ht
  unfold tokenOk
  rw [e1, e2, e3, e4, e5, e6, hn, hk2]
  simp [h]

theorem witness_SecurityOperationsWithoutToken (h : (withCrc (Config.idevid ++ [])).length ≤ 100000) :
    SecReady notVoid (lcS lcOwned) ∧ (∀ op ∈ [0x01, 0x03, 0x21, 0x41, 0x60], Takes (secForm op .none) (secD0 op) (lcS lcOwned)) ∧
    Takes (secForm 0x02 .out) (mkD 0x0D 0 (le 2 0x02 ++ [0, 0] ++ le 4 100000 ++ le 8 64) []) (lcS lcOwned) ∧
    (withCrc (Config.idevid ++ (lcS lcOwned).sec.ldevCert.getD [])).length ≤
      dF (mkD 0x0D 0 (le 2 0x02 ++ [0, 0] ++ le 4 100000 ++ le 8 64) []) 12 4 ∧
    SecReady [lcOwned, lcSealed] (lcS lcSealed) ∧
    Takes (secForm 0x50 .out) (mkD 0x0D 0 (le 2 0x50 ++ [0, 0] ++ le 4 100 ++ le 8 64) []) (lcS lcSealed) ∧
    100 ≤ dF (mkD 0x0D 0 (le 2 0x50 ++ [0, 0] ++ le 4 100 ++ le 8 64) []) 12 4 :=
  ⟨⟨(by intro o h; cases h), (by decide +kernel)⟩,
   (by intro op ho; simp only [List.mem_cons, List.not_mem_nil, or_false] at ho
       rcases ho with rfl | rfl | rfl | rfl | rfl <;> exact takes_of (by decide +kernel)),
   takes_of (by decide +kernel),
   (by
    have e : dF (mkD 0x0D 0 (le 2 0x02 ++ [0, 0] ++ le 4 100000 ++ le 8 64) []) 12 4 = 100000 := by decide +kernel
    rw [e]
    exact h),
   ⟨(by intro o h; cases h), (by decide +kernel)⟩, takes_of (by decide +kernel), (by decide +kernel)⟩

/-- Outside the states, in the crypto error state, and with a token that is too short. -/
theorem witness_SecurityOperationsAreGated : Fresh (lcS lcVoid) ∧ (lcS lcVoid).sec.otpOk = true ∧ (lcS lcVoid).sec.cryptoErr = false ∧
    Takes (secForm 0x01 .none) (secD0 0x01) (lcS lcVoid) ∧ notVoid.contains (lcS lcVoid).sec.lc = false ∧
    Takes (secForm 0x30 .input) (secD 0x30 []) (lcS lcOwned) ∧ [lcOwned].contains (lcS lcOwned).sec.lc = true ∧
    slotLeft (lcS lcOwned) = true ∧ (lcS lcOwned).sec.authLock = false ∧
    tokenOk (lcS lcOwned) 0x30 0 (payload (secD 0x30 []) (dF (secD 0x30 []) 12 4)) = false ∧ lineBad (lcS lcOwned) 0x35 0 = false ∧
    { lcS lcOwned with sec := { cryptoErr := true } }.sec.cryptoErr = true := by
  refine ⟨(by intro o h; cases h), ?_, ?_, takes_of ?_, ?_, takes_of ?_, ?_, ?_, ?_, ?_, ?_, rfl⟩ <;> decide +kernel

/-- A token-bearing descriptor that passes, for operation op under key. -/
theorem token_witness (h : ∀ k m g, Config.ecdsaOk k m g = true) {op key param lc : Nat} {data : List Byte} (hd : data.length < 256 ^ 4)
    (t : takesB { secForm op .input with pay := fun _ => none } (secD op (tok op key param data)) (lcS lc) = true)
    (e : dF (secD op (tok op key param data)) 12 4 = data.length + 132) (ho : op < 65536) (hk : key = 0 ∨ key = 255) :
    Takes (secForm op .input) (secD op (tok op key param data)) (lcS lc) ∧ Token op key (secD op (tok op key param data)) (lcS lc) := by
  have l : (tok op key param data).length + 4 = dF (secD op (tok op key param data)) 12 4 := by
    rw [e]
    unfold tok
    simp only [List.length_append, length_le, List.length_replicate]
    omega
  have p : payload (secD op (tok op key param data)) (dF (secD op (tok op key param data)) 12 4) = withCrc (tok op key param data) :=
    payload_whole (by
      show (withCrc (tok op key param data)).length = _
      rw [length_withCrc, l])
  refine ⟨takes_input t rfl rfl l, rfl, ?_⟩
  rw [p]
  refine token_passes h ho ?_ hd rfl ?_
  · rcases hk with rfl | rfl <;> decide
  · rcases hk with rfl | rfl
    · show ((lcS lc).sec.keys.find? (fun e => e.1 == 0)).map (·.2) |>.isSome
      rfl
    · rfl

/-- The transitions under a token: operation, life-cycle state, key. -/
def moves : List (Nat × Nat × Nat) :=
  [(0x30, lcOwned, 0), (0x31, lcSealed, 0), (0x32, lcOwned, 0), (0x33, lcReturn, 255)] ++ [0x34].flatMap fun op => [(op, lcOwned, 0), (op, lcReturn, 255)]

/-- Every transition with a token that passes; TAKE_OWNERSHIP with 196 bytes. -/
theorem witness_LifeCycleOperationsMoveTheState (h : ∀ k m g, Config.ecdsaOk k m g = true) :
    (∀ op lc key, (op, lc, key) ∈ moves →
      Takes (secForm op .input) (secD op (tok op key 0 [])) (lcS lc) ∧ Token op key (secD op (tok op key 0 [])) (lcS lc)) ∧
    (∀ lc, slotLeft (lcS lc) = true ∧ (lcS lc).sec.presence = true ∧ (lcS lc).tm.epoch = 0 ∧ (lcS lc).pend = none ∧
      (lcS lc).sec.zeroDone = true ∧ (lcS lc).sec.unlocked = false) ∧
    SecReady [lcMaker] { lcS lcMaker with sec := { lc := lcMaker, nonce := some [1] } } ∧
    Takes (secForm 0x10 .input) (secD 0x10 (List.replicate 192 7)) { lcS lcMaker with sec := { lc := lcMaker, nonce := some [1] } } ∧
    (payload (secD 0x10 (List.replicate 192 7)) (dF (secD 0x10 (List.replicate 192 7)) 12 4)).length = 196 ∧
    SecReady [lcOwned] (lcS lcOwned) ∧ SecReady [lcSealed] (lcS lcSealed) ∧ SecReady [lcReturn] (lcS lcReturn) ∧ SecReady notVoid (lcS lcReturn) :=
  ⟨(by
    have tw : ∀ e ∈ moves, e.1 < 65536 ∧ (e.2.2 = 0 ∨ e.2.2 = 255) ∧
        takesB { secForm e.1 .input with pay := fun _ => none } (secD e.1 (tok e.1 e.2.2 0 [])) (lcS e.2.1) = true ∧
        dF (secD e.1 (tok e.1 e.2.2 0 [])) 12 4 = 132 := by decide +kernel
    exact fun op lc key m => (tw (op, lc, key) m).elim fun a b => token_witness h (Nat.zero_lt_succ _) b.2.1 b.2.2 a b.1),
   (fun lc => ⟨rfl, rfl, rfl, rfl, rfl, rfl⟩), ⟨(by intro o h; cases h), (by decide +kernel)⟩, takes_of (by decide +kernel), (by decide +kernel),
   ⟨(by intro o h; cases h), (by decide +kernel)⟩, ⟨(by intro o h; cases h), (by decide +kernel)⟩,
   ⟨(by intro o h; cases h), (by decide +kernel)⟩, ⟨(by intro o h; cases h), (by decide +kernel)⟩⟩

/-- A grant under a token: operation, life-cycle state, key, parameter, and the length of its data. -/
structure Grant where
  op : Nat
  lc : Nat
  key : Nat
  param : Nat
  len : Nat

/-- KEY_INSTALL of slots 1 and 3, UNLOCK by an owner and by the maker, LDEVID_INSTALL. -/
def grants : List Grant :=
  [1, 3].map (fun slot => { op := 0x11, lc := lcOwned, key := 0, param := slot, len := 96 }) ++
  [{ op := 0x20, lc := lcOwned, key := 0, param := 0, len := 0 }, { op := 0x20, lc := lcReturn, key := 255, param := 0, len := 0 }] ++
  [{ op := 0x51, lc := lcSealed, key := 0, param := 0, len := 5 }]

/-- KEY_INSTALL of the first and the last slot, UNLOCK, LDEVID_INSTALL, and a first chunk of an image. -/
theorem witness_KeysUnlocksAndImages (h : ∀ k m g, Config.ecdsaOk k m g = true) :
    (∀ e ∈ grants, Takes (secForm e.op .input) (secD e.op (tok e.op e.key e.param (List.replicate e.len 9))) (lcS e.lc) ∧
      Token e.op e.key (secD e.op (tok e.op e.key e.param (List.replicate e.len 9))) (lcS e.lc)) ∧
    (lcS lcSealed).sec.ldev.isSome = true ∧ (lcS lcOwned).sec.trial = false ∧
    Takes (secForm 0x40 .input) (secD 0x40 (le 4 0 ++ le 4 2 ++ [1])) (lcS lcOwned) ∧ SecReady [lcFab, lcMaker, lcOwned, lcSealed] (lcS lcOwned) ∧ dF (secD 0x40 (le 4 0 ++ le 4 2 ++ [1])) 12 4 = 13 ∧
    getLE (payload (secD 0x40 (le 4 0 ++ le 4 2 ++ [1])) 13) 0 4 = 0 ∧ 13 - 12 < getLE (payload (secD 0x40 (le 4 0 ++ le 4 2 ++ [1])) 13) 4 4 :=
  ⟨(by
    have tw : ∀ e ∈ grants, e.op < 65536 ∧ (e.key = 0 ∨ e.key = 255) ∧ (List.replicate e.len (9 : Byte)).length < 256 ^ 4 ∧
        takesB { secForm e.op .input with pay := fun _ => none } (secD e.op (tok e.op e.key e.param (List.replicate e.len 9))) (lcS e.lc) = true ∧
        dF (secD e.op (tok e.op e.key e.param (List.replicate e.len 9))) 12 4 = (List.replicate e.len (9 : Byte)).length + 132 := by decide +kernel
    exact fun e m => have b := tw e m
      token_witness h b.2.2.1 b.2.2.2.1 b.2.2.2.2 b.1 b.2.1),
   rfl, rfl, takes_of (by decide +kernel), ⟨(by intro o h; cases h), (by decide +kernel)⟩, (by decide +kernel), (by decide +kernel),
   (by decide +kernel)⟩

/-- A blob of no sections for any module, under slot 0: FORMAT 1, SERIAL 0, SEQ 1, and a signature of zeros. -/
def blobB : List Byte := le 2 1 ++ [0, 0] ++ le 8 0 ++ le 4 1 ++ le 4 0 ++ List.replicate 4 0 ++ le 4 0 ++ le 4 0 ++ List.replicate 96 0
def blobD (store : Byte) (b : List Byte) : Desc := mkD 0x0E 0 (le 8 64 ++ le 4 (b.length + 4) ++ [store]) b

theorem witness_BlobsAreStagedAndStored (h : ∀ k m g, Config.ecdsaOk k m g = true) :
    Takes blobForm (blobD 0 blobB) (lcS lcOwned) ∧ Takes blobForm (blobD 1 blobB) (lcS lcOwned) ∧ ownedOrSealed (lcS lcOwned) = true ∧
    ownedOrSealed (lcS lcReturn) = false ∧ { lcS lcOwned with sec := { lc := lcOwned, authLock := true } }.sec.authLock = true ∧
    ownedOrSealed { lcS lcOwned with sec := { lc := lcOwned, authLock := true } } = true ∧
    { lcS lcOwned with sec := { cryptoErr := true } }.sec.cryptoErr = true ∧ (lcS lcOwned).sec.authLock = false ∧ (lcS lcOwned).sec.cryptoErr = false ∧
    blobSigned (lcS lcOwned) (payload (blobD 0 blobB) (dF (blobD 0 blobB) 16 4)) = true ∧
    blobFits (lcS lcOwned) (payload (blobD 0 blobB) (dF (blobD 0 blobB) 16 4)) = true ∧
    (blobParts (payload (blobD 0 blobB) (dF (blobD 0 blobB) 16 4))).any (fun p =>
      blobEntsOk (payload (blobD 0 blobB) (dF (blobD 0 blobB) 16 4)) p && (blobBadRule (payload (blobD 0 blobB) 132) p).isNone) = true ∧
    Takes blobForm (blobD 0 []) (lcS lcOwned) ∧ blobSigned (lcS lcOwned) (payload (blobD 0 []) (dF (blobD 0 []) 16 4)) = false ∧
    lineBad (lcS lcOwned) 0x35 0 = false ∧ CanReport (outS 0x0E 1 0) ∧
    blobFits { lcS lcOwned with sec := { blobSeq := 2 } } (payload (blobD 0 blobB) (dF (blobD 0 blobB) 16 4)) = false :=
  ⟨takes_of (by decide +kernel), takes_of (by decide +kernel), (by decide +kernel), (by decide +kernel), rfl, (by decide +kernel), rfl, rfl, rfl,
   (by
    have a : payload (blobD 0 blobB) (dF (blobD 0 blobB) 16 4) = withCrc blobB := by decide +kernel
    have b : (lcS lcOwned).sec.keys.find? (fun e => e.1 == getLE (withCrc blobB) 2 1) = some (0, [1]) := by decide +kernel
    have c : (withCrc blobB).length == 32 + getLE (withCrc blobB) 24 4 + 100 := by decide +kernel
    have d : decide (getLE (withCrc blobB) 2 1 < 4) = true := by decide +kernel
    unfold blobSigned
    rw [a, b]
    simp only [c, d, Bool.true_and, Option.any_some, h]),
   (by decide +kernel), (by decide +kernel), takes_of (by decide +kernel), (by decide +kernel), (by decide +kernel),
   (by unfold CanReport; decide +kernel), (by decide +kernel)⟩

/-- A zeroisation by SEC_OP 0x32 under way. -/
def zeroS : State := { outS 0x0D 0x32 0 with sec := { zeroDone := false } }

theorem witness_SecurityEventsAreFollowed : CanReport zeroS ∧ zeroS.sec.zeroDone = false ∧
    zeroS.outs.find? (fun o => o.opcode == 0x0D && o.obj == 0x32) = some ⟨0, 0x0D, 0, 0, 0, 0x32, 0, [], false, 0, 0⟩ ∧
    outOf zeroS 0 = some ⟨0, 0x0D, 0, 0, 0, 0x32, 0, [], false, 0, 0⟩ ∧ CanReport (outS 0x0D 0x60 0) ∧
    (outS 0x0D 0x60 0).outs.find? (fun o => o.opcode == 0x0D && o.obj == 0x60) = some ⟨0, 0x0D, 0, 0, 0, 0x60, 0, [], false, 0, 0⟩ :=
  ⟨(by unfold CanReport; decide +kernel), (by decide +kernel), (by decide +kernel), (by decide +kernel), (by unfold CanReport; decide +kernel),
   (by decide +kernel)⟩

/-! ### Faults -/

/-- One active source. -/
def srcS (id : Nat) (x : Src) : State := { runS 1 with srcs := [(srcKey id 0, x)] }

/-- FAULT_CLEAR of a scope and object. -/
def clearD (scope : Byte) (obj : Nat) : Desc := mkD 0x0B 0 ([scope, 0] ++ le 2 obj) []

/-- The last channel without and with CONTENTION in safe state; a frond in safe state; a source not active, one that persists, one that
may be cleared. -/
theorem witness_FaultsAreClearedByScope : Fresh (runS 1) ∧ Takes (clearForm 0 512) (clearD 0 511) (runS 1) ∧
    ((chan (runS 1) 511).diag.testBit 12 && (chan (runS 1) 511).diag.testBit 9) = false ∧
    Takes (clearForm 0 512) (clearD 0 511) { runS 1 with chans := [(511, { diag := 0x1200 })] } ∧ (0x1200 : Nat).testBit 12 = true ∧
    (0x1200 : Nat).testBit 9 = true ∧ Takes (clearForm 1 32) (clearD 1 31) (srcS 0x08 { cls := 3, event := true, since := 0, ctx := [0, 0, 0, 0xFF, 0xFF] }) ∧
    safeHeld (srcS 0x08 { cls := 3, event := true, since := 0, ctx := [0, 0, 0, 0xFF, 0xFF] }) 31 = true ∧
    Takes (clearForm 1 32) (clearD 1 3) { runS 1 with field := [(3, frondF)] } ∧ (fieldOf { runS 1 with field := [(3, frondF)] } 3).causes = 0 ∧
    (frond (runS 1) 3).rep.safe = true ∧ { runS 1 with field := [(3, frondF)] }.srcs = [] ∧ clearSub (clearD 2 0x5F) (srcS 0x5F
      { cls := 1, event := true, since := 0 }) = 0 ∧ srcActive (srcS 0x5F { cls := 1, event := true, since := 0 }) 0x5F 0 = true ∧
    clearSub (clearD 2 0xA1) (runS 1) = 8 ∧ Takes (clearForm 2 256) (clearD 2 0x20) (runS 1) ∧ srcActive (runS 1) 0x20 0 = false ∧
    Takes (clearForm 2 256) (clearD 2 0x1E) { srcS 0x1E { cls := 2, event := false, since := 0 } with pwr := { above := true } } ∧
    clearable { srcS 0x1E { cls := 2, event := false, since := 0 } with pwr := { above := true } } 0x1E 0 { cls := 2, event := false, since := 0 } =
      false ∧
    Takes (clearForm 2 256) (clearD 2 0x20) (srcS 0x20 { cls := 1, event := true, since := 0 }) ∧
    clearable (srcS 0x20 { cls := 1, event := true, since := 0 }) 0x20 0 { cls := 1, event := true, since := 0 } = true ∧
    (srcS 0x20 { cls := 1, event := true, since := 0 }).srcs.find? (fun e => e.1 == srcKey 0x20 0) =
      some (srcKey 0x20 0, { cls := 1, event := true, since := 0 }) ∧
    Takes (clearForm 3 1) (clearD 3 0) (runS 1) := by
  refine ⟨(by intro o h; cases h), takes_of ?_, ?_, takes_of ?_, ?_, ?_, takes_of ?_, ?_, takes_of ?_, ?_, ?_, ?_, ?_, ?_, ?_,
    takes_of ?_, ?_, takes_of ?_, ?_, takes_of ?_, ?_, ?_, takes_of ?_⟩ <;> decide +kernel

/-- The base plate has been above its declared temperature for 4,000 steps. -/
def hotS : State := { runS 0 with pwr := { valid := true, above := true, aboveFor := 4000 } }

theorem witness_CoreSourcesActivateAndReact : awake (runS 0) = true ∧ rawSource 0x00 = true ∧ coreCls 0x00 = 4 ∧ rawSource 0x0A = true ∧
    coreCls 0x0A = 2 ∧ rawSource 0x09 = true ∧ coreCls 0x09 = 1 ∧ (∀ id, lineBad (runS 0) id 0 = false) ∧ srcActive (runS 0) 0x0A 0 = false ∧
    srcActive (runS 0) 0x00 0 = false ∧ srcActive (runS 0) 0x02 0 = false ∧ (runS 0).latch = none ∧ running hotS = true ∧
    hotS.pwr.above = true ∧ 4000 ≤ hotS.pwr.aboveFor ∧ lineBad hotS 0x1E 0 = false ∧ (runS 0).tm.clkA = true ∧ (runS 0).tm.clkB = true :=
  ⟨(by decide +kernel), rfl, rfl, rfl, rfl, rfl, rfl, fun _ => Bool.and_false _, rfl, rfl, rfl, rfl, (by decide +kernel), rfl, (by decide +kernel), rfl, rfl, rfl⟩

/-- MP_MISS over after four edges; CLOCK_SRC_LOST; a SERVICE source at its deadline; a shadow with its end set; a draining module. -/
theorem witness_SourcesEndAndEscalate : condGone { srcS 0x11 { cls := 2, event := false, since := 0 } with tm := { inARow := 4 } } 0x11 0 = true ∧
    awake (srcS 0x11 { cls := 2, event := false, since := 0 }) = true ∧
    (srcS 0x11 { cls := 2, event := false, since := 0, deadline := some 100 }).srcs.find? (fun e => e.1 == srcKey 0x11 0) =
      some (srcKey 0x11 0, { cls := 2, event := false, since := 0, deadline := some 100 }) ∧
    (srcS 0x11 { cls := 2, event := false, since := 0, deadline := some 100 }).tm.count = 100 ∧
    (srcS 0x18 { cls := 1, event := false, since := 0 }).srcs.find? (fun e => e.1 == srcKey 0x18 0) =
      some (srcKey 0x18 0, { cls := 1, event := false, since := 0 }) ∧
    [(31, ({ s := 1, closeAt := some 9 } : Shadow))].find? (fun e => e.1 == 31) = some (31, { s := 1, closeAt := some 9 }) ∧
    { runS 0 with phase := .draining }.phase = .draining := by decide +kernel

/-- The time state, with 16 edges in limits. -/
def timeS (n : Nat) : State := { runS 0 with tm := { state := n, run := 16, renumbered := true } }

theorem witness_TimeStatesFollowTable91 : (∀ n, running (timeS n) = true ∧ (timeS n).tm.state = n ∧ 16 ≤ (timeS n).tm.run ∧
    (timeS n).tm.renumbered = true ∧ (timeS n).tm.conflict = false ∧ lineBad (timeS n) 0x19 0 = false) :=
  fun _ => ⟨rfl, rfl, Nat.le_refl 16, rfl, rfl, rfl⟩

/-- SYNC_FN as given; capture ring 31 enabled with SYNC_TRIG; a last snap order to frond 5 at cycle 0. -/
def syncS (fn : Word) : State :=
  { runS 0 with cfg := [(regKey 0x101C 0, fn), (regKey (0x6100 + 32 * 31) 0, 0x50)], caps := [(31, { armed := true })],
                fronds := [(5, { lastSnap := some 0 })] }

theorem witness_SyncInEdgesAct : (syncS 1).phase = .running ∧ syncFn (syncS 1) = 1 ∧ snapStamp (syncS 1) 6 5 = 5 ∧
    snapStamp (syncS 1) 5 1000 = 1000 ∧ snapStamp (syncS 1) 5 999 ≠ 999 ∧ running (syncS 2) = true ∧ syncFn (syncS 2) = 2 ∧
    syncFn (syncS 3) = 3 ∧
    bit (capWord (syncS 3).cfg 31 0) 6 = true ∧ capEn (syncS 3).cfg 31 = true ∧ (capRing (syncS 3) 31).armed = true ∧
    (capRing (syncS 3) 31).run = none := by decide +kernel

theorem witness_PinsAndCheckIn : running (runS 0) = true := by decide +kernel

/-! ### Power and start-up -/

theorem witness_ResetsKeepTheFrondsAndTheKeyStore : (runS 0).phase ≠ .off ∧ (runS 0).phase ≠ .halted ∧ (runS 0).phase ≠ .draining ∧
    awake (runS 0) = true ∧ { runS 0 with phase := .halted }.phase = .halted ∧ { runS 0 with phase := .off }.phase = .off ∧
    State.reset.pwr.valid = true ∧ State.reset.pwr.aux.contains 3 = false := by decide +kernel

/-- The module in reset with one image. -/
def imageS (img : List Byte) : State := { State.reset with sec := { imgA := img } }

/-- An image that the uninterpreted checks of Config take is bootable after reset. -/
theorem witness_StartUpRunsFirmware (img : List Byte) (h : Config.imageOk img = true) :
    (imageS img).phase = .reset ∧ (imageS img).pwr.valid = true ∧ (imageS img).sec.otpOk = true ∧ State.reset.sec.lc ≠ Machine.lcVoid ∧
    State.reset.sec.lc ≠ lcReturn ∧ { imageS img with pwr := { failed := [1] } }.pwr.failed ≠ [] ∧ (imageS img).sec.lc = State.reset.sec.lc ∧ bootable (imageS img) (imageS img).sec.imgA = true ∧ { State.reset with phase := .booting }.phase = .booting :=
  ⟨rfl, rfl, rfl, (by decide +kernel), (by decide +kernel), (by intro h; cases h), rfl, (by
    unfold bootable
    rw [show (imageS img).sec.imgA = img from rfl, h]
    simp [imageS, State.reset]), rfl⟩

/-- A store slot with a blob of no sections. -/
def autoS : State :=
  { runS 0 with auto := true, sec := { lc := lcOwned, keys := [(0, [1])], storeA := withCrc blobB } }

theorem witness_AutonomousStartCommitsTheStore (h : ∀ k m g, Config.ecdsaOk k m g = true) : running autoS = true ∧ autoS.auto = true ∧
    storedBlob autoS = some (withCrc blobB) ∧ (blobParts (withCrc blobB)).isSome = true :=
  ⟨rfl, rfl, (by
    have a : autoS.sec.keys.find? (fun e => e.1 == getLE (withCrc blobB) 2 1) = some (0, [1]) := by decide +kernel
    have b : ((withCrc blobB).length == 32 + getLE (withCrc blobB) 24 4 + 100) = true := by decide +kernel
    have c : decide (getLE (withCrc blobB) 2 1 < 4) = true := by decide +kernel
    have d : blobSigned autoS (withCrc blobB) = true := by
      unfold blobSigned
      rw [a]
      simp only [b, c, Bool.true_and, Option.any_some, h]
    have e : slotCheck autoS (withCrc blobB) = none := by
      unfold slotCheck
      rw [d, show blobFits autoS (withCrc blobB) = true by decide +kernel, payloadCrcOk_withCrc,
        if_neg (by decide +kernel : ¬withCrc blobB = [])]
      rfl
    unfold storedBlob
    rw [show autoS.sec.storeA = withCrc blobB from rfl, show autoS.sec.storeB = [] from rfl, e]
    rfl), (by decide +kernel)⟩

theorem witness_SupplyPhasesAreFollowed : (runS 0).pwr.valid = true ∧ (runS 0).pwr.failed.contains 1 = false ∧ awake (runS 0) = true ∧
    lineBad (runS 0) 0x1C 0 = false ∧ { runS 0 with pwr := { failed := [1] } }.pwr.failed = [1] ∧
    (srcS 0x1C { cls := 1, event := false, since := 0 }).srcs.find? (fun e => e.1 == srcKey 0x1C 0) =
      some (srcKey 0x1C 0, { cls := 1, event := false, since := 0 }) := by decide +kernel

/-- A degraded link whose drain is below that of the last commit, in hosted mode. -/
theorem witness_EndpointEventsStopTheRings : (runS 0).auto = false ∧ awake (runS 0) = true ∧ (1 : Nat) ≠ 0 ∧
    { runS 0 with pwr := { linkUp := true, drain := some 6000 } }.pwr.linkUp = true ∧
    pcieDrain { runS 0 with pwr := { linkUp := true, gts := 2, width := 1, drain := some 6000 } } < 6000 ∧
    6000 ≤ pcieDrain { runS 0 with pwr := { linkUp := true, gts := 8, width := 2, drain := some 6000 } } ∧
    (srcS 0x2C { cls := 1, event := false, since := 0 }).srcs.find? (fun e => e.1 == srcKey 0x2C 0) =
      some (srcKey 0x2C 0, { cls := 1, event := false, since := 0 }) ∧ lineBad (runS 0) 0x2C 0 = false ∧
    { runS 0 with auto := true }.auto = true := by decide +kernel

/-! ### Network -/

/-- The running module with its two ports, its subscribers' words and publishers as given. -/
def netS (p0 p1 : Port) (cfg : Tab Word) (pubs : Tab Pub) : State := { runS 0 with cfg := cfg, net := { p0 := p0, p1 := p1, pubs := pubs } }

/-- Both ports with link. -/
def linkedS : State := netS { link := true } { link := true } [] []

/-- Time is locked through port 0. -/
def slaveS : State := { netS { link := true, role := 1 } { link := true, role := 2 } [] [] with tm := { state := 2, clkA := true } }

theorem witness_EthernetLinksAreFollowed : switchOn slaveS = true ∧ (port slaveS 0).link = true ∧ (port slaveS 0).role = 1 ∧
    (port slaveS 1).role ≠ 1 ∧ holdsOver slaveS = true ∧ holdsOver linkedS = false ∧ lineBad slaveS 0x30 0 = false ∧ awake slaveS = true ∧
    (port (netS { link := true } {} [] []) 1).link = false ∧ (1 : Nat) % 4 = 1 ∧ (2 : Nat) % 4 ≠ 1 ∧ switchOn linkedS = true ∧ (port linkedS 0).link = true ∧ (port linkedS 1).link = true ∧
    awake linkedS = true ∧ lineBad linkedS 0x30 0 = false ∧ (port linkedS 0).lost = false ∧ (port linkedS 1).lost = false ∧
    (srcS 0x30 { cls := 1, event := false, since := 0 }).srcs.find? (fun e => e.1 == srcKey 0x30 0) =
      some (srcKey 0x30 0, { cls := 1, event := false, since := 0 }) := by decide +kernel

/-- A frame from a source to a destination, of a type, 14 bytes and with filling 1,536. -/
def ethB (dst src typ : List Byte) (n : Nat) : List Byte := dst ++ src ++ typ ++ List.replicate n 0

/-- Frames of the least and the greatest length; of 802.1AS, to a reserved address, to a group; an unsecured frame where MACsec is on. -/
theorem witness_TheSwitchForwards : switchOn linkedS = true ∧ (port linkedS 0).macsec = false ∧ (port linkedS 1).macsec = false ∧
    (ethB [2, 0, 0, 0, 0, 1] [2, 0, 0, 0, 0, 9] [8, 0] 0).length = 14 ∧ (ethB [2, 0, 0, 0, 0, 1] [2, 0, 0, 0, 0, 9] [8, 0] 1522).length = 1536 ∧
    isTimeFrame (ethB [1, 0x80, 0xC2, 0, 0, 0xE] [2, 0, 0, 0, 0, 9] [0x88, 0xF7] 0) = true ∧
    isTimeFrame (ethB [1, 0x80, 0xC2, 0, 0, 0xF] [2, 0, 0, 0, 0, 9] [8, 0] 0) = false ∧
    isReserved (macAt (ethB [1, 0x80, 0xC2, 0, 0, 0xF] [2, 0, 0, 0, 0, 9] [8, 0] 0) 0) = true ∧
    isReserved (macAt (ethB [1, 0x80, 0xC2, 0, 0, 0x10] [2, 0, 0, 0, 0, 9] [8, 0] 0) 0) = false ∧
    isGroup (macAt (ethB [1, 0x80, 0xC2, 0, 0, 0x10] [2, 0, 0, 0, 0, 9] [8, 0] 0) 0) = true ∧
    gateOpen linkedS 1 (frameClass (ethB [2, 0, 0, 0, 0, 1] [2, 0, 0, 0, 0, 9] [8, 0] 0)) = true ∧
    (port (netS { link := true, macsec := true } {} [] []) 0).macsec = true ∧
    switchOn (netS { link := true, macsec := true } {} [] []) = true ∧ gateOpen linkedS 0 6 = true ∧ (port linkedS 0).waiting = [] ∧
    (port linkedS 1).waiting = [] ∧ isReserved (macAt (ethB [0x33, 0x33, 0, 0, 0, 1] [2, 0, 0, 0, 0, 9] [8, 0] 0) 0) = false ∧
    rxFrame (port (netS { link := true, macsec := true } {} [] []) 0) (ethB [2, 0, 0, 0, 0, 1] [2, 0, 0, 0, 0, 9] [8, 0] 0) = none := by
  decide +kernel

/-- A gate list of two entries on port 0; subscriber 15 on port 1 with a MAC address of its own and one record of each kind; subscriber 14
to a unicast address with one record. -/
def gateS : State :=
  netS { link := true, waiting := [(3, .frame [1]), (3, .gram 15 [2])] } { link := true }
    [(regKey (netOfs 0) 14, 0x100), (regKey (netOfs 0) 15, 0x100), (regKey (netOfs 2) 14, 0x0A000001), (regKey (netOfs 6) 15, 0x02),
     (regKey (netOfs 15) 0, 2), (regKey (netOfs 17) 0, 0x7F000001)]
    [(14, { recs := [[1]] }), (15, { recs := [[1]], fwd := [[2]] })]

theorem witness_GatesAndDatagrams : running gateS = true ∧ (port gateS 0).gate + 1 < gateCount gateS.cfg 0 ∧
    gateCount gateS.cfg 1 ≤ (port gateS 1).gate + 1 ∧ (port gateS 0).macsec = false ∧ subPort gateS.cfg 15 = 1 ∧ (pub gateS 15).recs ≠ [] ∧
    (port gateS 1).link = true ∧ (port gateS 1).macsec = false ∧ gateOpen gateS 1 (subTc gateS.cfg 15) = true ∧
    subPort gateS.cfg 0 = 0 ∧ (pub gateS 0).recs = [] ∧ (pub gateS 0).fwd = [] ∧ (gramTo gateS 15).mac ≠ [] ∧ (pub gateS 15).fwd ≠ [] ∧
    subPort gateS.cfg 14 = 1 ∧ (gramTo gateS 14).mac = [] ∧ (pub gateS 14).recs ≠ [] ∧ (pub gateS 14).fwd = [] ∧ gateOpen gateS 1 6 = true ∧
    gateOpen (modPort 0 (fun x => { x with gate := 1 }) gateS) 0 3 = true ∧ (port gateS 0).link = true ∧
    { gateS with phase := .halted }.phase = .halted ∧ switchOn { gateS with phase := .halted } = true := by decide +kernel

/-- Two sessions, the first an owner's. -/
def sessS : State := { lcS lcOwned with net := { sessions := [⟨0, true⟩, ⟨1, false⟩] } }

/-- The maker's key where none is installed, an owner's, and another; one session or none short of two. -/
theorem witness_ManagementSessionsOpenAndClose : ({ tcp := 50122 } : TlsIn).tcp ≠ 50121 ∧ ({ own := false } : TlsIn).own = false ∧
    (({} : TlsIn).tcp, ({} : TlsIn).own, ({} : TlsIn).v13 && ({} : TlsIn).aes256 && ({} : TlsIn).p384) = (50121, true, true) ∧
    ((lcS lcOwned).sec.idev || (lcS lcOwned).sec.ldevCert.isSome) = true ∧ running (runS 0) = true ∧ (runS 0).sec.keys = [] ∧
    running (lcS lcOwned) = true ∧
    (lcS lcOwned).sec.keys.any (fun e => e.2 == [1]) = true ∧ (lcS lcOwned).sec.keys.any (fun e => e.2 == [2]) = false ∧
    (lcS lcOwned).sec.keys ≠ [] ∧ (lcS lcOwned).sec.cryptoErr = false ∧
    { sessS with net := { sessions := [⟨0, true⟩] } }.net.sessions.length < 2 ∧ 2 ≤ sessS.net.sessions.length ∧ lineBad sessS 0x35 0 = false := by
  refine ⟨by decide, rfl, rfl, ?_, ?_, rfl, ?_, ?_, ?_, ?_, rfl, ?_, ?_, rfl⟩ <;> decide +kernel

/-- STATUS at both ends of its range; ports with and without another SA; a command
ring with room in autonomous mode. -/
theorem witness_RequestsAreAnswered : running sessS = true ∧
    sessS.net.sessions.find? (fun x => x.id == 0) = some ⟨0, true⟩ ∧ sessS.net.sessions.find? (fun x => x.id == 1) = some ⟨1, false⟩ ∧
    statusOk 0 1 = true ∧ statusOk 0xFFFC 1 = true ∧ sessS.sec.lc ≠ lcSealed ∧ sessS.sec.lc ≠ Machine.lcVoid ∧
    { sessS with sec := { lc := lcSealed } }.sec.lc = lcSealed ∧ (List.replicate 32 (0 : Byte)).length = 32 ∧
    (txOther { txAn := true, tx0 := some ⟨3, List.replicate 32 0, 1, 2 ^ 32 - 2⟩ }).isSome = true ∧ txOther (port sessS 0) = none ∧
    sessS.auto = false ∧ { sessS with auto := true }.auto = true ∧ (ring sessS cmdRing).en = true ∧
    ringUsed (ring sessS cmdRing) < ringSize (ring sessS cmdRing) ∧ ([] : List Byte).length ≤ 262144 := by decide +kernel

/-- A NET_SET body of one word, where Config reads it so: its entry is legal, and no word is named twice. -/
theorem witness_NetSetBody (b : List Byte) (h : Config.netBody b = [(0, 15, 1)]) :
    (∀ e ∈ Config.netBody b, rwsMask (netOfs e.1) ≠ 0 ∧ e.2.1 < netInst e.1) ∧ ((Config.netBody b).map (fun e => (e.1, e.2.1))).Nodup := by
  rw [h]
  decide +kernel

/-! ### The fronds' side -/

/-- A frame of each kind under a new ALIVE value, at its length or at both ends of its range; one that fails; a copy already used. -/
theorem witness_DownlinkFramesAreUsedOnce : (fieldOf (fieldS frondF) 3).power = true ∧ running (fieldS frondF) = true ∧
    frameOk (goodFrame 0x10 (List.replicate 113 0)) 0x10 (fun m => m == 113) = some (7, List.replicate 113 0) ∧
    frameOk (goodFrame 0x11 (List.replicate 82 0)) 0x11 (fun m => m == 82) = some (7, List.replicate 82 0) ∧
    frameOk (goodFrame 0x12 (List.replicate 130 0)) 0x12 (fun m => m + 214 == 344 && decide (130 ≤ m)) = some (7, List.replicate 130 0) ∧
    frameOk (goodFrame 0x12 (List.replicate 344 0)) 0x12 (fun m => m + 0 == 344 && decide (130 ≤ m)) = some (7, List.replicate 344 0) ∧
    frameOk (goodFrame 0x18 [1, 0]) 0x18 (fun m => m == 2) = some (7, [1, 0]) ∧ frondF.downAlive ≠ some 7 ∧ frondF.copies = [] ∧
    frameOk (goodFrame 0x18 [1, 0, 0]) 0x18 (fun m => m == 2) = none ∧ frameOk ⟨true, true, 0, []⟩ 0x10 (fun m => m == 113) = none ∧
    ([(0x10, ⟨true, 0, 7, List.replicate 113 0, []⟩)] : Tab Copy).find? (fun e => e.1 == (0x10 : Byte).toNat && ((0x10 : Byte) != 0x18 || e.2.alive == 7)) =
      some (0x10, ⟨true, 0, 7, List.replicate 113 0, []⟩) ∧ { frondF with dist := true }.dist = true ∧
    isPairValue 0x3000 = true ∧ pairBad [(0x3000, 10), (0x3004, 10)] (0x3000, 10) = true ∧ { frondF with total := 2 }.itemBad = false ∧
    List.replicate 113 0 ≠ List.replicate 113 (1 : Byte) ∧ wdDeadline { frondF with armed := true } < frondF.edge + 1310721 ∧
    frondF.edge + 1310720 ≤ wdDeadline { frondF with armed := true } ∧ lineBad (fieldS frondF) (linkSrc 3 true) 1 = false := by decide +kernel

/-- Order frames under the next ALIVE value and under the fourth; of each kind; one that no value checks; a selection that DS brought. -/
theorem witness_OrderFramesTakeEffect : orderAlive frondF 0x1C ⟨false, true, 0, crc16 [7, 0x1C, 0], 0⟩ = some 7 ∧
    orderAlive frondF 0x5C ⟨false, true, 0, crc16 [10, 0x5C, 0], 0⟩ = some 10 ∧
    orderAlive frondF 0x7C ⟨true, true, 0xA5, crc16 [7, 0x7C, 0xA5], 0⟩ = some 7 ∧
    orderAlive frondF 0x1C ⟨false, true, 0, crc16 [11, 0x1C, 0], 0⟩ = none ∧ crc16 [6, 0x1C, 0] ≠ crc16 [11, 0x1C, 0] ∧
    orderAlive frondF 0x7C ⟨false, true, 0xA5, crc16 [11, 0x7C, 0xA5], 0⟩ = none ∧ crc16 [6, 0x7C, 0xA5] ≠ crc16 [11, 0x7C, 0xA5] ∧
    ({ frondF with ds := some (6, 0x8000) } : Frond).ds = some (6, 0x8000) ∧ (6 : Byte) + 1 = 7 ∧ frondF.safe = false ∧
    isOutput (fchan { frondF with chans := [(15, { mode := 2 })] } 15).mode = true ∧ running (fieldS frondF) = true := by decide +kernel

/-- Channel 63 on frond 3, before its last conversion with a snap request that is due, and after it. -/
theorem witness_ConversionsCountInTheirTick : (fieldOf (fieldS { frondF with snaps := [(0, false, 0x8000)] }) (63 / 16)).power = true ∧
    (fchan { frondF with chans := [(15, { k := 2047 })] } 15).k < tickConvs frondF ∧ (0x8000 : Nat).testBit 15 = true ∧
    0 ≤ 64 * (fchan { frondF with chans := [(15, { k := 2047 })] } 15).k ∧ (fchan { frondF with chans := [(15, { k := 2047 })] } 15).snap = none ∧
    tickConvs frondF ≤ (fchan { frondF with chans := [(15, { k := 2048 })] } 15).k := by decide +kernel

/-- T_ON and T_OFF of 3,000 at reset, a DI and a TACH channel, with both reported states. -/
theorem witness_IntegratorStepsFollowTheirCode : frondF.power = true ∧ frondF.shutdown = false ∧ isDI 1 = true ∧ isDI 8 = true ∧
    (fld (fwin frondF 15 0x2108) 0 16, fld (fwin frondF 15 0x2108) 16 16) = (3000, 3000) ∧
    (fchan { frondF with chans := [(15, { mode := 8, c := 2999 })] } 15).out = false ∧
    (fchan { frondF with chans := [(15, { mode := 1, out := true, c := 1 })] } 15).out = true ∧
    bit (fwin { frondF with cfg := [(winAddr 15 0x2114, 1)] } 15 0x2114) 0 = true := by decide +kernel

/-- A channel of the frond with a configuration word. -/
def chanF (c : FChan) (ofs : Nat) (w : Word) : Frond := { frondF with cfg := [(winAddr 0 ofs, w)], chans := [(0, c)] }

/-- A DO channel without a load threshold, with 31 ticks of 31.75 ms behind it. -/
def loadF (diag : Nat) : Frond :=
  { frondF with cfg := [(0x1010, 127), (winAddr 0 0x211C, 0)], chans := [(0, { mode := 2, diag := diag, ctx := [({ mode := 2 }, 31)] })] }

/-- Of a regulator, an AO-sink and an IEPE one; of DO_OVERLOAD and REG_FAULT, set and cleared; of a hot and a cooled switch; of a stopped
regulator; of CONTENTION that has lasted. -/
theorem witness_ChannelsFollowTheirStages : (fchan (chanF { mode := 3, regOn := true } 0x2110 0) 0).regOn = true ∧ frondF.shutdown = false ∧
    diagListed (chanF { mode := 2 } 0x211C 0) 0 6 2 = true ∧ diagSet (loadF 0) 0 48 6 ⟨0, 0, 0, 0, List.replicate 32 10001⟩ 32 = true ∧
    diagSet (loadF 0) 0 48 6 ⟨0, 0, 0, 0, List.replicate 31 10001 ++ [10000]⟩ 32 = false ∧ (0x40 : Nat).testBit 6 = true ∧
    diagGone (loadF 0x40) 0 48 6 ⟨0, 0, 0, 0, List.replicate 32 10000⟩ 32 = true ∧
    diagGone (loadF 0x40) 0 48 6 ⟨0, 0, 0, 0, List.replicate 32 10000⟩ 31 = false ∧
    diagListed (chanF { mode := 3, regOn := true } 0x2110 0) 0 11 3 = true ∧
    diagSet (chanF { mode := 3, regOn := true } 0x2110 0) 0 48 11 ⟨1001, 1001, 0, 2000, []⟩ 0 = true ∧
    diagSet (chanF { mode := 3, regOn := true } 0x2110 0) 0 48 11 ⟨0, 0, 30001, 100, []⟩ 0 = true ∧
    delivered (chanF { mode := 2, drive := .level 1 } 0x2110 0) 0 = .level 1 ∧ limit 15 48 640 720 ≤ 720 ∧
    560 ≤ limit 15 48 640 720 - limit 16 48 40 80 ∧ (fchan (chanF { mode := 2, thermal := true } 0x2110 0) 0).thermal = true ∧
    (fchan (chanF { mode := 3, regFault := true } 0x2110 0) 0).regFault = true ∧ regRuns 3 (fwin (chanF { mode := 3 } 0x2110 0) 0 0x2104) = true ∧
    isAO (fchan (chanF { mode := 4, diag := 0x200, contTicks := 255 } 0x2110 0) 0).mode = true ∧ (0x200 : Nat).testBit 9 = true ∧
    fld (freg (chanF { mode := 4, diag := 0x200, contTicks := 255 } 0x2110 0) 0x3008) 0 8 ≤ 255 := by
  have a := limit_le 15 48 (lo := 640) (hi := 720) (by decide)
  have b := le_limit 15 48 640 720
  have c := limit_le 16 48 (lo := 40) (hi := 80) (by decide)
  have d : 560 ≤ limit 15 48 640 720 - limit 16 48 40 80 := by omega
  refine ⟨?_, rfl, ?_, ?_, ?_, ?_, ?_, ?_, ?_, ?_, ?_, ?_, a, d, ?_, ?_, ?_, ?_, ?_, ?_⟩ <;> decide +kernel

/-- FSUP_LOSS, FSUP_HIGH, FROND_OVERTEMP, FSUP_LOW, FROND_HOT and REF_RANGE as seen at their limits, whatever the thresholds. -/
theorem witness_CausesAtTheirLimits : causeSet frondF 3 2 (seen 0 8599 50) = true ∧ causeSet frondF 3 3 (seen 35501 35501 50) = true ∧
    causeSet frondF 3 5 (seen 601 601 1000) = true ∧ causeSet frondF 3 1 (seen 0 10199 1000) = true ∧ causeSet frondF 3 4 (seen 521 521 10000) = true ∧
    causeGone 3 1 (seen 10801 10801 1000) = true ∧
    causeGone 3 3 (seen 33499 33499 100000) = true ∧ causeGone 3 4 (seen 0 439 10000) = true ∧ causeSet frondF 3 0 (seen 0 0 0) = false ∧
    causeGone 3 0 (seen 0 0 0) = false ∧ fsupIn 3 (seen 10801 33499 100000) = true := by
  have a := limit_le 17 515 (lo := 10200) (hi := 10800) (by decide)
  have b := le_limit 17 515 10200 10800
  have c := limit_le 18 515 (lo := 10500) (hi := 10800) (by decide)
  have d := le_limit 18 515 10500 10800
  have e := le_limit 19 515 8600 9400
  have e2 := limit_le 19 515 (lo := 8600) (hi := 9400) (by decide)
  have f2 := le_limit 20 515 34500 35500
  have f := limit_le 20 515 (lo := 34500) (hi := 35500) (by decide)
  have g := limit_le 21 515 (lo := 480) (hi := 520) (by decide)
  have h := limit_le 22 515 (lo := 560) (hi := 600) (by decide)
  have i := le_limit 23 515 440 480
  have l : frondF.fsup = true := rfl
  simp only [causeSet, causeGone, fsupIn, l, Bool.true_and, Bool.and_eq_true, decide_eq_true_eq, lt_min_iff, true_and, Nat.reduceAdd]
  omega

/-- REF_RANGE with REF_SEL 1. -/
theorem witness_RefRangeAtItsLimit : causeSet { frondF with cfg := [(0x3280, 1)] } 3 7 (seen 0 2429 100) = true := by
  have j := le_limit 24 515 2430 2470
  unfold causeSet
  simp only [Bool.and_eq_true, Bool.or_eq_true, decide_eq_true_eq]
  exact ⟨⟨by decide +kernel, by decide⟩, .inl (show (2429 : Int) < limit 24 515 2430 2470 by omega)⟩

/-- An armed watchdog one count past its deadline; a shutdown whose causes have gone; a frond without power. -/
theorem witness_FrondCausesAndPower : frondF.aux = false ∧ { frondF with aux := true }.aux = true ∧ frondF.power = true ∧ { frondF with causes := 0x2C }.causes.testBit 5 = true ∧
    wdDeadline { frondF with armed := true } < { frondF with armed := true }.edge + 1310721 ∧ frondF.wdExp = false ∧
    { frondF with shutdown := true, causes := 8, met := 8 }.causes &&& shutCauses ≠ 0 ∧
    ({ frondF with shutdown := true, causes := 8, met := 8 }.causes &&& shutCauses) &&& 8 = 8 &&& shutCauses ∧
    { frondF with causes := 1 }.causes.testBit 0 = true ∧ (fieldOf State.reset 31).power = false ∧ frondF.aSeen = false := by decide +kernel

/-- A D0 and D1 pair that sets position 15 of a frond to 1. -/
def d0B : List Byte := List.replicate 18 0 ++ le 2 0x8000 ++ List.replicate 80 0 ++ le 4 1 ++ List.replicate 9 0
def d1B : List Byte := List.replicate 60 0 ++ le 4 0xFFFFFFFE ++ le 2 0x7FFF ++ List.replicate 16 0

theorem witness_FrondTickEdgesApplyAndReport : d0B.length = 113 ∧ d1B.length = 82 ∧ getLE d0B 20 2 = 0 ∧ (getLE d0B 13 1).testBit 1 = false ∧
    (getLE d0B 18 2).testBit 15 = true ∧ maskOk d0B d1B = true ∧ BitVec.ofNat 32 (getLE d1B 60 4) = ~~~(outWord d0B 15) ∧ frondF.noCfg = false ∧
    frondF.res = none ∧ frondF.wipe = false ∧ { frondF with wipe := true }.wipe = true ∧ frondF.restart = false ∧
    { frondF with restart := true }.restart = true ∧ ({ frondF with d0 := some d0B } : Frond).d1 = none ∧ frondF.safe = false ∧ (fchan { frondF with chans := [(15, { mode := 2 })] } 15).safe = false ∧
    outLevel { frondF with chans := [(15, { mode := 2 })] } 15 (outWord d0B 15) = some (1, false) ∧
    ({ frondF with res := some ([], 7) } : Frond).res = some ([], 7) := by decide +kernel

/-! ### Links, commits and work in the core -/

theorem witness_UplinkFramesAreUsedOnce : running (runS 0) = true ∧ (frond (runS 0) 31).copies.any (fun e => e.1 == 1) = false ∧
    (frond (runS 0) 31).copies.any (fun e => e.1 == 0) = false ∧ (frond (runS 0) 31).upAlive ≠ some 7 ∧
    frameOk (goodFrame 0x00 (List.replicate 34 0)) 0x00 (fun n => n == 34) = some (7, List.replicate 34 0) ∧
    frameOk (goodFrame 0x00 (List.replicate 33 0)) 0x00 (fun n => n == 34) = none ∧
    frameOk (goodFrame 0x04 (List.replicate 112 0)) (BitVec.ofNat 8 4) (fun _ => lenFits (runS 0) 31 3
      (((goodFrame 0x04 (List.replicate 112 0)).bytes.drop 2).take ((goodFrame 0x04 (List.replicate 112 0)).bytes.length - 4))) =
      some (7, List.replicate 112 0) ∧
    ({ run := 4 } : LinkSt).up = false ∧ 4 ≤ ({ run := 4 } : LinkSt).run ∧ lineBad (runS 0) (linkSrc 31 true) 1 = false := by decide +kernel

/-- A commit for tick 101 at tick 100 that frond 31 has to acknowledge; a frond with one value that waits. -/
def commitS (acked excl : Bool) : State :=
  { runS 0 with pend := some ⟨101, 90, excl, 3, [], 0, [31], [], false, none, false⟩, nextId := 1,
                fronds := [(31, { acked := acked, new := [(15, { val := 1, did := none, rule := false })] })] }

theorem witness_SuperframesCommitsAndPeriods : (commitS true false).phase = .running ∧
    (frond (commitS true false) 31).new = [(15, { val := 1, did := none, rule := false })] ∧
    (commitS true false).tm.count + 1 = 101 ∧ unacked (commitS true false) ⟨101, 90, false, 3, [], 0, [31], [], false, none, false⟩ = [] ∧
    unacked (commitS false false) ⟨101, 90, false, 3, [], 0, [31], [], false, none, false⟩ ≠ [] ∧
    boundaryDue { runS 0 with tm := { started := true, count := 999 } } = true ∧ boundaryDue (runS 0) = false ∧ (runS 0).boundary = none := by
  decide +kernel

/-- Blocks that are ready, deferred, and neither; a capture that goes on and one that ends. -/
theorem witness_WorkIsDoneInSlices : running busyS = true ∧ busyS.sliceRun = true ∧ { busyS with sliceRun := false }.sliceRun = false ∧
    ({ ch := 0, b := 0, smp := [], ready := true, slices := 3, owed := 1 } : Blk).turns + 1 < 3 ∧ (capRing busyS 31).read = false ∧
    (capRing busyS 31).run.isSome = true ∧
    ((capRing busyS 31).run.map (fun c => (capStep busyS.cfg 31 (capRing busyS 31) c).2.2)) = some false ∧
    workOwed { busyS with sliceRun := false } = false ∧ (capRing busyS 31).owed = 0 ∧ (capRing busyS 31).wait = [] ∧ (capRing busyS 0).run = none ∧
    ([(1, .frames [])] : List (Nat × CapWrite)).any (fun e => decide (0 < e.1)) = true := by decide +kernel

/-- The running module at tick 100 with a resolved commit for 101. -/
def applyS : State := { runS 0 with pend := some ⟨101, 90, false, 3, [], 0, [], [], false, some (true, []), false⟩, nextId := 1 }

theorem witness_TickEdgesStepTheCounterAndApplyCommits : running applyS = true ∧ applyS.tm.started = true ∧ applyS.tm.jump = none ∧
    applying applyS = some (⟨101, 90, false, 3, [], 0, [], [], false, some (true, []), false⟩, []) ∧ applying (runS 0) = none ∧
    { runS 0 with tm := {} }.tm.started = false := by decide +kernel

end Sys2Proof.Tests
end

section
/-! SUPPORT. What a frame keeps, and what a taken descriptor comes to, whether its action completes it or leaves it to wait. -/

namespace Sys2Proof.Machine

/-! ## What a frame keeps -/

theorem lineBad_of_only {ps : List Part} {s t : State} (h : Only ps s t) (hp : Part.badPaths ∉ ps) (id sub : Nat) :
    lineBad t id sub = lineBad s id sub := by
  have e : t.badPaths = s.badPaths := h .badPaths hp
  unfold lineBad
  rw [e]

theorem srcActive_of_only {ps : List Part} {s t : State} (h : Only ps s t) (hp : Part.faults ∉ ps) (id sub : Nat) :
    srcActive t id sub = srcActive s id sub := by
  have e : t.srcs = s.srcs := congrArg Prod.fst (h .faults hp)
  unfold srcActive
  rw [e]

theorem stg_of_only {ps : List Part} {s t : State} (h : Only ps s t) (hp : Part.staged ∉ ps) (o j : Nat) : stg t o j = stg s o j := by
  have e : t.staged = s.staged := congrArg Prod.fst (h .staged hp)
  unfold stg
  rw [e]

/-! ## From the start of a descriptor's action -/

/-- Taking a descriptor changes only rings, alive values and descriptors. -/
theorem only_taken (d : Desc) (obj : Nat) (s : State) : Only [.rings, .alives, .descs] s (startDesc d obj (acceptAlive d s)) :=
  only_startDesc d obj (by decide) (only_acceptAlive d (by decide) (Only.refl _ s))

@[simp] theorem startDesc_acceptAlive_outbox (d : Desc) (obj : Nat) (s : State) :
    (startDesc d obj (acceptAlive d s)).outbox = s.outbox := by simp only [startDesc, consumed, modRing, acceptAlive]

@[simp] theorem startDesc_acceptAlive_tm (d : Desc) (obj : Nat) (s : State) :
    (startDesc d obj (acceptAlive d s)).tm = s.tm := by simp only [startDesc, consumed, modRing, acceptAlive]

@[simp] theorem startDesc_acceptAlive_staged (d : Desc) (obj : Nat) (s : State) :
    (startDesc d obj (acceptAlive d s)).staged = s.staged := by simp only [startDesc, consumed, modRing, acceptAlive]

@[simp] theorem startDesc_acceptAlive_rwp (d : Desc) (obj : Nat) (s : State) :
    (startDesc d obj (acceptAlive d s)).rwp = s.rwp := by simp only [startDesc, consumed, modRing, acceptAlive]

@[simp] theorem startDesc_acceptAlive_pend (d : Desc) (obj : Nat) (s : State) :
    (startDesc d obj (acceptAlive d s)).pend = s.pend := by simp only [startDesc, consumed, modRing, acceptAlive]

@[simp] theorem now_startDesc_acceptAlive (d : Desc) (obj : Nat) (s : State) : now (startDesc d obj (acceptAlive d s)) = now s := by
  simp only [now, startDesc_acceptAlive_tm]

theorem only_complete_self (id status : Nat) (res : List Byte) (s : State) :
    Only [.outbox, .rings, .descs, .sessions] s (complete id status res s) :=
  only_complete id status res (List.Subset.refl _) (Only.refl _ s)

/-- The frame of a taken descriptor whose action has a frame of its own. -/
theorem only_executed {d : Desc} {obj : Nat} {s t : State} {l : List Part}
    (h : Only (executedAnd l) (startDesc d obj (acceptAlive d s)) t) : Only (executedAnd l) s t :=
  ((only_taken d obj s).mono (List.Subset.trans (by decide) (List.subset_append_left executed l))).trans h

section
variable {form : DescForm} {d : Desc} {s u : State} {c : Instr} {ps : List Part} (l : List Part)
  (h : Takes form d s) (hf : Fresh s) (ho : Only ps (startDesc d (form.obj d) (acceptAlive d s)) u) (hl : ps ⊆ executedAnd l)
  (hr : Part.rings ∉ ps) (hd : Part.descs ∉ ps) (ha : Part.alives ∉ ps)
include h hf ho hl hr hd ha

/-- A descriptor whose action ends in its completion. -/
theorem completes_of_only (hh : Part.halt ∉ ps) (hs : s.outbox <:+ u.outbox) {status : Nat} {res : List Byte}
    (he : exec c s = .next (complete s.nextId status res u)) :
    Completes c d (executedAnd l) status res s (complete s.nextId status res u) := by
  obtain ⟨consumed, reports⟩ := reports_complete h hf ho hr hd ha hh hs status res
  exact ⟨he, consumed, reports, only_executed (only_complete _ _ _ (by simp [executedAnd, executed]) (ho.mono hl))⟩

/-- A descriptor whose action leaves it to wait. -/
theorem starts_of_only (he : exec c s = .next u) : Starts c d (executedAnd l) s u := by
  have er : u.rings = (startDesc d (form.obj d) (acceptAlive d s)).rings := ho .rings hr
  have ed : (u.outs, u.nextId) = ((startDesc d (form.obj d) (acceptAlive d s)).outs, s.nextId + 1) := ho .descs hd
  have ea : (u.expAlive, u.lastAlive) = (BitVec.ofNat 8 (dF d 1 1) + 1, some (BitVec.ofNat 8 (dF d 1 1))) := ho .alives ha
  have hout : outOf u s.nextId = outOf (startDesc d (form.obj d) (acceptAlive d s)) (acceptAlive d s).nextId := by
    have eo : u.outs = (startDesc d (form.obj d) (acceptAlive d s)).outs := congrArg Prod.fst ed
    unfold outOf
    rw [eo]
    rfl
  rw [h.alive] at ea
  exact ⟨he, ⟨by rw [ring_congr er, ring_startDesc_cmd], congrArg Prod.fst ea, congrArg Prod.snd ea⟩, only_executed (ho.mono hl),
    congrArg Prod.snd ed, _, hout.trans (outOf_startDesc (s := acceptAlive d s) hf d _), rfl, rfl, rfl, rfl, rfl⟩

end

end Sys2Proof.Machine
end

section
/-! SUPPORT. Value words of RWP registers that wait for their complements: what dropping some of them does, and what the write of a value
word and of a complement word come down to (R13, R14, R453). -/

namespace Sys2Proof.Machine

/-! ## Value words that are mismatched -/

theorem only_setRwp (s : State) (l : List RwpPend) : Only [.pairs] s { s with rwp := l } := by
  intro q hq
  cases q
  case pairs => exact absurd (List.mem_singleton_self _) hq
  all_goals rfl

theorem only_setOrphan (s : State) : Only [.sticky] s { s with orphan := true } := by
  intro q hq
  cases q
  case sticky => exact absurd (List.mem_singleton_self _) hq
  all_goals rfl

/-- INTEGRITY for each of these value words. -/
def mismatched (l : List RwpPend) (s : State) : State :=
  l.foldl (fun s e => integrity 1 e.ofs (pairChan e.ofs e.chan) s) s

theorem dropPairs_eq (bad : RwpPend → Bool) (s : State) :
    dropPairs bad s = mismatched (s.rwp.filter bad) { s with rwp := s.rwp.filter (fun e => !bad e) } := rfl

theorem only_mismatched (l : List RwpPend) (s : State) : Only [.outbox, .queues, .faults] s (mismatched l s) :=
  Only.foldl (fun _ _ h => only_integrity _ _ _ (List.Subset.refl _) h) l (Only.refl _ s)

theorem mismatched_active : ∀ (l : List RwpPend) {s : State}, lineBad s 0x08 0 = false → (l ≠ [] ∨ srcActive s 0x08 0 = true) →
    srcActive (mismatched l s) 0x08 0 = true
  | [], _, _, h => h.resolve_left (fun n => n rfl)
  | e :: l, s, hb, _ => mismatched_active l
      ((lineBad_of_only (only_integrity (ps := [.outbox, .queues, .faults]) _ _ _ (List.Subset.refl _) (Only.refl _ s)) (by decide) _ _).trans hb)
      (.inr (integrity_active hb _ _ _))

theorem rwp_dropPairs (bad : RwpPend → Bool) (s : State) : (dropPairs bad s).rwp = s.rwp.filter (fun e => !bad e) := by
  rw [dropPairs_eq]
  exact only_mismatched _ _ .pairs (by decide)

/-- INTEGRITY is active after a value word is mismatched, and stays active. -/
theorem dropPairs_active {s : State} (hb : lineBad s 0x08 0 = false) (bad : RwpPend → Bool)
    (h : (∃ e ∈ s.rwp, bad e = true) ∨ srcActive s 0x08 0 = true) : srcActive (dropPairs bad s) 0x08 0 = true := by
  rw [dropPairs_eq]
  refine mismatched_active _ hb (h.imp_left ?_)
  rintro ⟨e, he, hbad⟩
  exact List.ne_nil_of_mem (List.mem_filter.mpr ⟨he, hbad⟩)

theorem dropPairs_eq_self {s : State} {bad : RwpPend → Bool} (h : ∀ e ∈ s.rwp, bad e = false) : dropPairs bad s = s := by
  have hd : s.rwp.filter bad = [] := List.filter_eq_nil_iff.mpr (fun e he => by simp [h e he])
  have hk : s.rwp.filter (fun e => !bad e) = s.rwp := List.filter_eq_self.mpr (fun e he => by simp [h e he])
  rw [dropPairs_eq, hd, hk]
  rfl

theorem only_dropPairs_self (bad : RwpPend → Bool) (s : State) : Only [.outbox, .pairs, .queues, .faults] s (dropPairs bad s) :=
  only_dropPairs bad (List.Subset.refl _) (Only.refl _ s)

/-! ## The value word -/

theorem rwpValue_eq {s : State} (h : isSealed s = false) (p : Path) (ofs : Nat) (v : Word) :
    rwpValue p ofs v s = { dropPairs (pairIn ofs (targets (pathRegs p s) ofs)) s with
      rwp := (targets (pathRegs p s) ofs).map (fun i => ⟨p, ofs, pairSel (pathRegs p s) ofs, i, v⟩) ++
        (dropPairs (pairIn ofs (targets (pathRegs p s) ofs)) s).rwp } := by
  unfold rwpValue
  rw [h]
  rfl

theorem complOf_rwp {ofs : Nat} (h : isRwp ofs = true) : complOf (ofs + 4) = some ofs := by
  rcases isRwp_cases h with rfl | rfl | rfl | rfl <;> rfl

/-- The two words of a pair lie in the same blocks. -/
theorem writeOpen_complement {p : Path} {s : State} {ofs : Nat} (h : isRwp ofs = true) : writeOpen p s (ofs + 4) = writeOpen p s ofs := by
  have : 0x1000 ≤ ofs := by rcases isRwp_cases h with rfl | rfl | rfl | rfl <;> decide
  rw [writeOpen_run this, writeOpen_run (by omega)]

theorem exec_rwpValueWrite {p : Path} {s : State} {ofs : Nat} (h : isRwp ofs = true) (hw : writeOpen p s ofs = true) (v : Word) :
    exec (.rwpValueWrite p ofs v) s = .next (rwpValue p ofs v s) := by
  show execRwpValueWrite p ofs v s = _
  unfold execRwpValueWrite
  rw [if_pos h, busWrite_open hw, regWrite_value h]

theorem exec_rwpComplementWrite {p : Path} {s : State} {ofs : Nat} (h : isRwp ofs = true) (hw : writeOpen p s ofs = true) (v : Word) :
    exec (.rwpComplementWrite p (ofs + 4) v) s = .next (rwpComplement p ofs v s) := by
  show execRwpComplementWrite p (ofs + 4) v s = _
  unfold execRwpComplementWrite
  rw [complOf_rwp h, if_pos Option.isSome_some, busWrite_open ((writeOpen_complement h).trans hw), regWrite_complement h]

/-! ## The complement word -/

/-- The value words that the write of a complement ends: those of its targets that wait under another selection, and those under its
selection, of which the ones with another complement are mismatched. -/
def pairsJudged (ofs : Nat) (sel v : Word) (T : List Nat) (s : State) : State :=
  let s := dropPairs (fun e => pairAt ofs sel e && e.val != ~~~v) (dropPairs (fun e => pairIn ofs T e && !pairAt ofs sel e) s)
  { s with rwp := s.rwp.filter (fun e => !pairAt ofs sel e) }

/-- The value words of the list with this complement are staged. -/
def stageMatched (ofs : Nat) (v : Word) (l : List RwpPend) (s : State) : State :=
  l.foldl (fun s e => if e.val = ~~~v then stage ofs e.chan e.val (rwsMask ofs) s else s) s

/-- A target in which no value word waited sets ORPHAN and raises INTEGRITY. -/
def orphanMarked (ofs : Nat) (o : Option Nat) (s : State) : State :=
  match o with
  | some i => integrity 2 ofs (pairChan ofs i) { markOfs (ofs + 4) s with orphan := true }
  | none => s

/-- The first of the targets in which no value word waits under the selection. -/
def orphanOf (ofs : Nat) (sel : Word) (T : List Nat) (s : State) : Option Nat :=
  T.find? (fun i => !(s.rwp.filter (pairAt ofs sel)).any (fun e => e.chan == i))

/-- Value words under another selection do not count among those under this one. -/
theorem waiting_dropStray (ofs : Nat) (sel : Word) (T : List Nat) (s : State) :
    (dropPairs (fun e => pairIn ofs T e && !pairAt ofs sel e) s).rwp.filter (pairAt ofs sel) = s.rwp.filter (pairAt ofs sel) := by
  rw [rwp_dropPairs, List.filter_filter]
  refine List.filter_congr (fun e _ => ?_)
  cases pairAt ofs sel e <;> simp

theorem rwpComplement_eq {s : State} (h : isSealed s = false) {p : Path} {ofs : Nat} {sel : Word} {T : List Nat}
    (hsel : sel = pairSel (pathRegs p s) ofs) (hT : T = targets (pathRegs p s) ofs) (v : Word) :
    rwpComplement p ofs v s = orphanMarked ofs (orphanOf ofs sel T s)
      (stageMatched ofs v (s.rwp.filter (pairAt ofs sel)) (pairsJudged ofs sel v T s)) := by
  subst hsel hT
  unfold rwpComplement orphanOf
  rw [h, ← waiting_dropStray ofs (pairSel (pathRegs p s) ofs) (targets (pathRegs p s) ofs) s]
  rfl

theorem only_pairsJudged (ofs : Nat) (sel v : Word) (T : List Nat) (s : State) :
    Only [.outbox, .pairs, .queues, .faults] s (pairsJudged ofs sel v T s) :=
  (((only_dropPairs_self _ s).trans (only_dropPairs_self _ _))).trans ((only_setRwp _ _).mono (by decide))

theorem rwp_pairsJudged (ofs : Nat) (sel v : Word) (T : List Nat) (s : State) :
    (pairsJudged ofs sel v T s).rwp = s.rwp.filter (fun e => !pairIn ofs T e && !pairAt ofs sel e) := by
  unfold pairsJudged
  dsimp only
  rw [rwp_dropPairs, rwp_dropPairs, List.filter_filter, List.filter_filter]
  refine List.filter_congr (fun e _ => ?_)
  cases pairAt ofs sel e <;> cases pairIn ofs T e <;> rfl

/-- INTEGRITY is active after a value word under another selection, or with another complement. -/
theorem pairsJudged_active {s : State} (hb : lineBad s 0x08 0 = false) {ofs : Nat} {sel v : Word} {T : List Nat} {e : RwpPend}
    (he : e ∈ s.rwp) (h : (pairIn ofs T e = true ∧ pairAt ofs sel e = false) ∨ (pairAt ofs sel e = true ∧ e.val ≠ ~~~v)) :
    srcActive (pairsJudged ofs sel v T s) 0x08 0 = true := by
  unfold pairsJudged
  dsimp only
  rw [srcActive_of_only (only_setRwp _ _) (by decide)]
  refine dropPairs_active ((lineBad_of_only (only_dropPairs_self _ s) (by decide) _ _).trans hb) _ ?_
  rcases h with ⟨hin, hat⟩ | ⟨hat, hv⟩
  · exact .inr (dropPairs_active hb _ (.inl ⟨e, he, by simp [hin, hat]⟩))
  · refine .inl ⟨e, ?_, by simp [hat, hv]⟩
    rw [rwp_dropPairs]
    exact List.mem_filter.mpr ⟨he, by simp [hat]⟩

/-- Where no value word is mismatched, judging them only ends their wait. -/
theorem only_pairsJudged_clean {s : State} {ofs : Nat} {sel v : Word} {T : List Nat}
    (h : ∀ e ∈ s.rwp, (pairAt ofs sel e = true → e.val = ~~~v) ∧ (pairIn ofs T e = true → pairAt ofs sel e = true)) :
    Only [.pairs] s (pairsJudged ofs sel v T s) := by
  have stray : ∀ e ∈ s.rwp, (pairIn ofs T e && !pairAt ofs sel e) = false := fun e he => by
    cases hin : pairIn ofs T e
    · rfl
    · simp [(h e he).2 hin]
  have other : ∀ e ∈ s.rwp, (pairAt ofs sel e && e.val != ~~~v) = false := fun e he => by
    cases hat : pairAt ofs sel e
    · rfl
    · simp [(h e he).1 hat]
  unfold pairsJudged
  rw [dropPairs_eq_self stray, dropPairs_eq_self other]
  exact only_setRwp _ _

/-! ## Staging the matched value words -/

theorem maskIn_maskIn (a v m : Word) : maskIn (maskIn a v m) v m = maskIn a v m := by
  unfold maskIn
  ext i hi
  simp only [BitVec.getElem_or, BitVec.getElem_and, BitVec.getElem_not]
  cases m[i] <;> simp

/-- Staging the same word for a target again changes nothing, so a target may stand in the list more than once. -/
theorem stg_stages_repeat (ofs : Nat) (v m : Word) {j : Nat} : ∀ (l : List Nat) (s : State), j ∈ l →
    stg (l.foldl (fun s i => stage ofs i v m s) s) ofs j = maskIn (stg s ofs j) v m
  | [], _, h => nomatch h
  | i :: l, s, h => by
    rw [List.foldl_cons]
    by_cases hl : j ∈ l
    · rw [stg_stages_repeat ofs v m l _ hl]
      by_cases e : j = i
      · rw [e, stg_stage_same, maskIn_maskIn]
      · rw [stg_stage_other (regKey_inst e)]
    · have e : j = i := (List.mem_cons.mp h).resolve_right hl
      rw [stg_stages_other ofs v m l _ (fun k hk => regKey_inst (fun q => hl (by rw [q]; exact hk))), e, stg_stage_same]

/-- The channels whose value word has this complement. -/
def matchedIn (v : Word) (l : List RwpPend) : List Nat := (l.filter (fun e => e.val = ~~~v)).map (·.chan)

theorem mem_matchedIn {v : Word} {l : List RwpPend} {i : Nat} : i ∈ matchedIn v l ↔ ∃ e ∈ l, e.val = ~~~v ∧ e.chan = i := by
  simp [matchedIn, and_assoc]

theorem stageMatched_eq (ofs : Nat) (v : Word) (l : List RwpPend) (s : State) :
    stageMatched ofs v l s = (matchedIn v l).foldl (fun s i => stage ofs i (~~~v) (rwsMask ofs) s) s := by
  unfold stageMatched matchedIn
  rw [List.foldl_map, List.foldl_filter]
  congr 1
  funext u e
  by_cases h : e.val = ~~~v <;> simp [h]

theorem only_stageMatched (ofs : Nat) (v : Word) (l : List RwpPend) (s : State) : Only [.staged] s (stageMatched ofs v l s) := by
  rw [stageMatched_eq]
  exact Only.foldl (fun _ _ h => only_stage _ _ _ _ (List.Subset.refl _) h) _ (Only.refl _ s)

/-! ## The orphan mark -/

theorem only_orphanMarked (ofs : Nat) (o : Option Nat) (s : State) : Only [.sticky, .outbox, .queues, .faults] s (orphanMarked ofs o s) := by
  cases o with
  | none => exact Only.refl _ s
  | some i =>
    exact only_integrity _ _ _ (by decide)
      ((only_markOfs (ofs + 4) (List.Subset.refl _) (Only.refl [.sticky] s)).trans (only_setOrphan _) |>.mono (by decide))

theorem orphanMarked_some {s : State} (hb : lineBad s 0x08 0 = false) (ofs i : Nat) :
    (orphanMarked ofs (some i) s).orphan = true ∧ srcActive (orphanMarked ofs (some i) s) 0x08 0 = true := by
  have hm : Only [.sticky] s { markOfs (ofs + 4) s with orphan := true } :=
    (only_markOfs (ofs + 4) (List.Subset.refl _) (Only.refl _ s)).trans (only_setOrphan _)
  constructor
  · have e := only_integrity (ps := [.outbox, .queues, .faults]) 2 ofs (pairChan ofs i) (List.Subset.refl _)
      (Only.refl _ { markOfs (ofs + 4) s with orphan := true }) .sticky (by decide)
    exact congrArg (fun x => x.2.1) e
  · exact integrity_active ((lineBad_of_only hm (by decide) _ _).trans hb) _ _ _

theorem orphanMarked_active {s : State} (hb : lineBad s 0x08 0 = false) (ofs : Nat) (o : Option Nat)
    (h : srcActive s 0x08 0 = true) : srcActive (orphanMarked ofs o s) 0x08 0 = true := by
  cases o with
  | none => exact h
  | some i => exact (orphanMarked_some hb ofs i).2

theorem orphanOf_isSome {ofs : Nat} {sel : Word} {T : List Nat} {s : State} {i : Nat} (hi : i ∈ T)
    (h : ∀ e ∈ s.rwp, pairAt ofs sel e = true → e.chan ≠ i) : ∃ j, orphanOf ofs sel T s = some j := by
  refine Option.isSome_iff_exists.mp (List.find?_isSome.mpr ⟨i, hi, ?_⟩)
  simpa using h

theorem orphanOf_eq_none {ofs : Nat} {sel : Word} {T : List Nat} {s : State}
    (h : ∀ i ∈ T, ∃ e ∈ s.rwp, pairAt ofs sel e = true ∧ e.chan = i) : orphanOf ofs sel T s = none := by
  refine List.find?_eq_none.mpr (fun i hi => ?_)
  obtain ⟨e, he, hat, hc⟩ := h i hi
  simpa [and_assoc] using ⟨e, he, hat, hc⟩

/-! ## The two rows -/

section
variable {p : Path} {ofs : Nat} {s : State} (v : Word) (hs : isSealed s = false) {sel : Word} {T : List Nat}
  (hsel : sel = pairSel (pathRegs p s) ofs) (hT : T = targets (pathRegs p s) ofs)
include hs hsel hT

/-- RWP_VALUE_WRITE (R14, R443, R453). -/
theorem rwpValue_waits (hb : lineBad s 0x08 0 = false) : Only [.pairs, .outbox, .queues, .faults] s (rwpValue p ofs v s) ∧
    (rwpValue p ofs v s).rwp = T.map (fun i => ⟨p, ofs, sel, i, v⟩) ++ s.rwp.filter (fun e => !pairIn ofs T e) ∧
    (s.rwp.any (pairIn ofs T) = true → srcActive (rwpValue p ofs v s) 0x08 0 = true) ∧
    (s.rwp.any (pairIn ofs T) = false → Only [.pairs] s (rwpValue p ofs v s)) := by
  rw [rwpValue_eq hs, ← hT, ← hsel]
  refine ⟨((only_dropPairs_self _ s).mono (by decide)).trans ((only_setRwp _ _).mono (by decide)), ?_, fun hany => ?_, fun hnone => ?_⟩
  · dsimp only
    rw [rwp_dropPairs]
  · rw [srcActive_of_only (only_setRwp _ _) (by decide)]
    exact dropPairs_active hb _ (.inl (List.any_eq_true.mp hany))
  · rw [dropPairs_eq_self (fun e he => by simpa using List.any_eq_false.mp hnone e he)]
    exact only_setRwp _ _

/-- What a complement word leaves of the state, and what it stages (R13, R14, R453). -/
theorem rwpComplement_stages : Only [.pairs, .staged, .sticky, .outbox, .queues, .faults] s (rwpComplement p ofs v s) ∧
    (rwpComplement p ofs v s).rwp = s.rwp.filter (fun e => !pairIn ofs T e && !pairAt ofs sel e) ∧
    (∀ e ∈ s.rwp, pairAt ofs sel e = true → e.val = ~~~v →
      stg (rwpComplement p ofs v s) ofs e.chan = maskIn (stg s ofs e.chan) (~~~v) (rwsMask ofs)) ∧
    (∀ o j, (∀ e ∈ s.rwp, pairAt ofs sel e = true → e.val = ~~~v → regKey o j ≠ regKey ofs e.chan) →
      stg (rwpComplement p ofs v s) o j = stg s o j) := by
  rw [rwpComplement_eq hs hsel hT]
  have judged := only_pairsJudged ofs sel v T s
  have staged := only_stageMatched ofs v (s.rwp.filter (pairAt ofs sel)) (pairsJudged ofs sel v T s)
  have marked := only_orphanMarked ofs (orphanOf ofs sel T s)
    (stageMatched ofs v (s.rwp.filter (pairAt ofs sel)) (pairsJudged ofs sel v T s))
  refine ⟨((judged.mono (by decide)).trans (staged.mono (by decide))).trans (marked.mono (by decide)), ?_,
    fun e he hat hv => ?_, fun o j h => ?_⟩
  · exact ((marked .pairs (by decide)).trans (staged .pairs (by decide))).trans (rwp_pairsJudged ..)
  · rw [stg_of_only marked (by decide), stageMatched_eq,
      stg_stages_repeat _ _ _ _ _ (mem_matchedIn.mpr ⟨e, List.mem_filter.mpr ⟨he, hat⟩, hv, rfl⟩), stg_of_only judged (by decide)]
  · rw [stg_of_only marked (by decide), stageMatched_eq, stg_stages_other, stg_of_only judged (by decide)]
    intro i hi
    obtain ⟨e, he, hv, rfl⟩ := mem_matchedIn.mp hi
    obtain ⟨hmem, hat⟩ := List.mem_filter.mp he
    exact h e hmem hat hv

/-- A complement word raises INTEGRITY for each value word that it mismatches and for a target without one, which sets ORPHAN too
(R13, R453). -/
theorem rwpComplement_raises (hb : lineBad s 0x08 0 = false) :
    (∀ e ∈ s.rwp, (pairIn ofs T e = true ∧ pairAt ofs sel e = false) ∨ (pairAt ofs sel e = true ∧ e.val ≠ ~~~v) →
      srcActive (rwpComplement p ofs v s) 0x08 0 = true) ∧
    (∀ i ∈ T, (∀ e ∈ s.rwp, pairAt ofs sel e = true → e.chan ≠ i) →
      (rwpComplement p ofs v s).orphan = true ∧ srcActive (rwpComplement p ofs v s) 0x08 0 = true) := by
  rw [rwpComplement_eq hs hsel hT]
  have judged := only_pairsJudged ofs sel v T s
  have staged := only_stageMatched ofs v (s.rwp.filter (pairAt ofs sel)) (pairsJudged ofs sel v T s)
  have line := (lineBad_of_only staged (by decide) 0x08 0).trans ((lineBad_of_only judged (by decide) _ _).trans hb)
  refine ⟨fun e he h => orphanMarked_active line _ _ ?_, fun i hi h => ?_⟩
  · rw [srcActive_of_only staged (by decide)]
    exact pairsJudged_active hb he h
  · obtain ⟨j, hj⟩ := orphanOf_isSome hi h
    rw [hj]
    exact orphanMarked_some line ofs j

/-- A complement word that finds everything in order ends the wait and stages (R13). -/
theorem only_rwpComplement_clean
    (hv : ∀ e ∈ s.rwp, (pairAt ofs sel e = true → e.val = ~~~v) ∧ (pairIn ofs T e = true → pairAt ofs sel e = true))
    (hi : ∀ i ∈ T, ∃ e ∈ s.rwp, pairAt ofs sel e = true ∧ e.chan = i) : Only [.pairs, .staged] s (rwpComplement p ofs v s) := by
  rw [rwpComplement_eq hs hsel hT, orphanOf_eq_none hi]
  exact ((only_pairsJudged_clean hv).mono (by decide)).trans ((only_stageMatched _ _ _ _).mono (by decide))

end

/-- Settles O14: each row is the write of its word (`rwpValue`, `rwpComplement`), which is taken apart above into judging the value
words that wait, staging the matched ones and marking the orphan. -/
theorem pairsAreCheckedAtTheComplement : Obligations.PairsAreCheckedAtTheComplement := by
  unfold Obligations.PairsAreCheckedAtTheComplement
  intro p ofs v sel T s hr hw hs hb hsel hT
  obtain ⟨hframe, hrwp, hmatch, hrest⟩ := rwpComplement_stages v hs hsel hT
  obtain ⟨hraise, horphan⟩ := rwpComplement_raises v hs hsel hT hb
  exact ⟨⟨_, exec_rwpValueWrite hr hw v, rwpValue_waits v hs hsel hT hb⟩, _, exec_rwpComplementWrite hr hw v, hframe, hrwp, hmatch, hrest,
    fun e he hat hv => hraise e he (.inr ⟨hat, hv⟩), fun e he hin hat => hraise e he (.inl ⟨hin, hat⟩), horphan,
    only_rwpComplement_clean v hs hsel hT⟩

end Sys2Proof.Machine
end

section
/-! SUPPORT. COMMIT: the outcomes of its own checks, in their order (R425), and what each changes. -/

namespace Sys2Proof.Machine

/-! ## The checks of a COMMIT -/

/-- The state on which a COMMIT is checked: no value word waits any more, and the staged period counts as taken. -/
def commitBase (s : State) : State := dropPairs (fun _ => true) { s with tm := { s.tm with periodWritten := false } }

/-- What the checks of fields, conflicts and budget find (R425). -/
def commitFindings (excl : Bool) (s : State) : List RepEnt :=
  fieldChecks s s.staged ++ conflictChecks s s.staged ++ ((budgetCheck s s.staged excl).filter (fun e => e.exceeded)).map budEntry

/-- Each frond's items. -/
def commitOrders (s : State) : List (Nat × List (Nat × Word)) := allFronds.map (fun f => (f, commitItems s f))

/-- At tick count c some frond's items do not all go out by t - 2 (R317). -/
def commitLate (t c : Nat) (s : State) : Bool := (commitOrders s).any (fun e => decide (cdiv e.2.length 16 > t - 2 - c))

/-- The checks leave their results in the BUD block (R28). -/
def commitChecked (t c : Nat) (excl : Bool) (didx : Half) (s : State) : State :=
  { s with bud := { valid := true, accepted := (commitFindings excl s).isEmpty && !commitLate t c s, didx := didx,
                    res := budgetCheck s s.staged excl } }

theorem commitLate_iff {t c : Nat} {s : State} : commitLate t c s = true ↔ ∃ f, f < 32 ∧ t - 2 - c < cdiv (commitItems s f).length 16 := by
  simp [commitLate, commitOrders, allFronds]

theorem commitBase_pairless {s : State} (h : s.rwp = []) : commitBase s = { s with tm := { s.tm with periodWritten := false } } :=
  dropPairs_eq_self (s := { s with tm := { s.tm with periodWritten := false } }) (by simp [h])

section
variable {t : Nat} {s : State} (report max_ : Nat) (excl : Bool) (id : Nat) (didx : Half)

theorem commitCore_outOfRange (h : t < now s + 3 ∨ now s + 1000000 < t) : commitCore t report max_ excl id didx s = complete id 0x14 [] s := by
  unfold commitCore
  exact if_pos (by simpa using h)

/-- The order of the checks after the range (R425). -/
theorem commitCore_inRange (h : now s + 3 ≤ t) (h' : t ≤ now s + 1000000) : commitCore t report max_ excl id didx s =
    if (commitBase s).pend.isSome then complete id 0x23 [] (commitBase s)
    else if commitFindings excl (commitBase s) ≠ [] then
      refuseCommit report max_ id (commitFindings excl (commitBase s)) (commitChecked t (now s) excl didx (commitBase s))
    else if commitLate t (now s) (commitBase s) then complete id 0x24 [] (commitChecked t (now s) excl didx (commitBase s))
    else acceptCommit (BitVec.ofNat 48 t) excl s.tm.periodWritten id (commitOrders (commitBase s))
      (commitChecked t (now s) excl didx (commitBase s)) := by
  unfold commitCore
  exact if_neg (by simpa using ⟨h, h'⟩)

end

/-! ## What the outcomes change -/

theorem only_commitBase (s : State) : Only [.outbox, .staged, .pairs, .queues, .faults] s (commitBase s) := by
  have h : Only [.staged] s { s with tm := { s.tm with periodWritten := false } } := by
    intro q hq
    cases q
    case staged => exact absurd (List.mem_singleton_self _) hq
    all_goals rfl
  exact (h.mono (by decide)).trans ((only_dropPairs_self _ _).mono (by decide))

theorem staged_commitBase (s : State) : (commitBase s).staged = s.staged :=
  congrArg Prod.fst (only_dropPairs_self (fun _ => true) { s with tm := { s.tm with periodWritten := false } } .staged (by decide))

theorem outbox_commitBase (s : State) : s.outbox <:+ (commitBase s).outbox :=
  (kept_dropPairs (fun _ => true) (Kept.refl { s with tm := { s.tm with periodWritten := false } })).out

theorem only_commitChecked (t c : Nat) (excl : Bool) (didx : Half) (s : State) : Only [.budget] s (commitChecked t c excl didx s) := by
  intro q hq
  cases q
  case budget => exact absurd (List.mem_singleton_self _) hq
  all_goals rfl

/-- A refusal is a completion, before which the module only writes the report. -/
theorem refuseCommit_completes (report max_ id : Nat) (l : List RepEnt) (s : State) :
    ∃ res u, refuseCommit report max_ id l s = complete id (refusal l) res u ∧ Only [.outbox] s u ∧ s.outbox <:+ u.outbox := by
  refine ⟨_, _, rfl, ?_, ?_⟩
  · exact Only.ite (only_outp _ (List.Subset.refl _) (Only.refl _ s)) (Only.refl _ s)
  · exact (Kept.ite (kept_outp _ (Kept.refl s)) (Kept.refl s)).out

/-- An accepted commit is pending with a copy of the staged set. -/
theorem acceptCommit_pend (t : TickNo) (excl written : Bool) (id : Nat) (items : List (Nat × List (Nat × Word))) (s : State) :
    ∃ p, (acceptCommit t excl written id items s).pend = some p ∧ p.t = t ∧ p.conf = s.staged ∧ p.id = id ∧ p.excl = excl ∧
      p.resolved = none :=
  ⟨_, only_clearSrc (ps := [.queues, .faults]) 0x2C 0 (List.Subset.refl _) (Only.refl _ _) .pend (by decide), rfl, rfl, rfl, rfl, rfl⟩

theorem acceptCommit_staged (t : TickNo) (excl written : Bool) (id : Nat) (items : List (Nat × List (Nat × Word))) (s : State) :
    (acceptCommit t excl written id items s).staged = s.staged := by
  have cleared := fun u : State => only_clearSrc (ps := [.queues, .faults]) 0x2C 0 (List.Subset.refl _) (Only.refl _ u) .staged (by decide)
  have ordered := fun (g : Nat × List (Nat × Word) → CFrond → CFrond) (u : State) =>
    Only.foldl (ps := [.fronds]) (fun _ e h => only_modFrond e.1 (g e) (List.Subset.refl _) h) items (Only.refl _ u) .staged (by decide)
  exact (congrArg Prod.fst (cleared _)).trans (congrArg Prod.fst (ordered _ (takeTag s).2))

/-! ## The descriptor -/

/-- The state in which the commit of a taken descriptor is checked. -/
def commitTaken (d : Desc) (s : State) : State := commitBase (startDesc d 0 (acceptAlive d s))

theorem only_commitTaken (d : Desc) (s : State) :
    Only [.outbox, .staged, .pairs, .queues, .faults] (startDesc d 0 (acceptAlive d s)) (commitTaken d s) := only_commitBase _

theorem staged_commitTaken (d : Desc) (s : State) : (commitTaken d s).staged = s.staged :=
  (staged_commitBase (startDesc d 0 (acceptAlive d s))).trans (startDesc_acceptAlive_staged ..)

theorem pend_commitTaken (d : Desc) (s : State) : (commitTaken d s).pend = s.pend :=
  Eq.trans (b := (startDesc d 0 (acceptAlive d s)).pend) (only_commitTaken d s .pend (by decide)) (startDesc_acceptAlive_pend ..)

theorem outbox_commitTaken (d : Desc) (s : State) : s.outbox <:+ (commitTaken d s).outbox :=
  startDesc_acceptAlive_outbox d 0 s ▸ outbox_commitBase (startDesc d 0 (acceptAlive d s))

theorem commitTaken_pairless {d : Desc} {s : State} (h : s.rwp = []) : commitTaken d s =
    { startDesc d 0 (acceptAlive d s) with tm := { s.tm with periodWritten := false }, rwp := [] } := by
  have e : (startDesc d 0 (acceptAlive d s)).rwp = [] := (startDesc_acceptAlive_rwp d 0 s).trans h
  unfold commitTaken
  rw [commitBase_pairless e, startDesc_acceptAlive_tm, ← e]

/-- The commit's state after its checks, the results of which stand in the BUD block. -/
def commitJudged (didx : Half) (d : Desc) (s : State) : State :=
  commitChecked (dF d 8 6) (now s) (dF d 14 1 == 1) didx (commitTaken d s)

theorem only_commitJudged (didx : Half) (d : Desc) (s : State) :
    Only [.outbox, .staged, .pairs, .queues, .faults, .budget] (startDesc d 0 (acceptAlive d s)) (commitJudged didx d s) :=
  ((only_commitTaken d s).mono (by decide)).trans ((only_commitChecked _ _ _ _ _).mono (by decide))

theorem exec_commit {d : Desc} {s : State} (h : Takes commitForm d s) : ∃ didx, exec (.commit d) s = .next (commitCore (dF d 8 6)
    (dF d 16 8) (dF d 24 2) (dF d 14 1 == 1) s.nextId didx (startDesc d 0 (acceptAlive d s))) :=
  ⟨_, congrArg Host.Outcome.next (takeDesc_takes h _)⟩

theorem commit_outOfRange {d : Desc} {s : State} (hf : Fresh s) (h : Takes commitForm d s)
    (hr : dF d 8 6 < now s + 3 ∨ now s + 1000000 < dF d 8 6) : ∃ t, Completes (.commit d) d executed 0x14 [] s t := by
  obtain ⟨didx, he⟩ := exec_commit h
  rw [commitCore_outOfRange _ _ _ _ _ (by simpa using hr)] at he
  exact ⟨_, completes_of_only (ps := []) [] h hf (Only.refl _ _) (by decide) (by decide) (by decide) (by decide) (by decide)
    (by simp) he⟩

section
variable {d : Desc} {s : State} (hf : Fresh s) (h : Takes commitForm d s) (h1 : now s + 3 ≤ dF d 8 6) (h2 : dF d 8 6 ≤ now s + 1000000)
include h h1 h2

/-- A COMMIT whose target is in range. -/
theorem exec_commit_inRange : ∃ didx, exec (.commit d) s = .next (
    if s.pend.isSome then complete s.nextId 0x23 [] (commitTaken d s)
    else if commitFindings (dF d 14 1 == 1) (commitTaken d s) ≠ [] then
      refuseCommit (dF d 16 8) (dF d 24 2) s.nextId (commitFindings (dF d 14 1 == 1) (commitTaken d s)) (commitJudged didx d s)
    else if commitLate (dF d 8 6) (now s) (commitTaken d s) then complete s.nextId 0x24 [] (commitJudged didx d s)
    else acceptCommit (BitVec.ofNat 48 (dF d 8 6)) (dF d 14 1 == 1) s.tm.periodWritten s.nextId (commitOrders (commitTaken d s))
      (commitJudged didx d s)) := by
  obtain ⟨didx, he⟩ := exec_commit h
  rw [commitCore_inRange _ _ _ _ _ (by simpa using h1) (by simpa using h2), startDesc_acceptAlive_tm, now_startDesc_acceptAlive] at he
  rw [← pend_commitTaken d s]
  exact ⟨didx, he⟩

include hf

theorem commit_busy (hp : s.pend ≠ none) :
    ∃ t, Completes (.commit d) d (executedAnd [.staged, .pairs]) 0x23 [] s t ∧ t.staged = s.staged := by
  obtain ⟨didx, he⟩ := exec_commit_inRange h h1 h2
  rw [if_pos (Option.isSome_iff_ne_none.mpr hp)] at he
  exact ⟨_, completes_of_only _ h hf (only_commitTaken d s) (by decide) (by decide) (by decide) (by decide) (by decide)
    (outbox_commitTaken d s) he, (congrArg Prod.fst (only_complete_self _ _ _ _ .staged (by decide))).trans (staged_commitTaken d s)⟩

variable (hp : s.pend = none)
include hp

theorem commit_refused (hbad : commitFindings (dF d 14 1 == 1) (commitTaken d s) ≠ []) :
    ∃ t res, Completes (.commit d) d (executedAnd [.staged, .pairs, .budget])
        (refusal (commitFindings (dF d 14 1 == 1) (commitTaken d s))) res s t ∧
      t.pend = none ∧ t.staged = s.staged ∧ t.bud.valid = true ∧ t.bud.accepted = false := by
  obtain ⟨didx, he⟩ := exec_commit_inRange h h1 h2
  obtain ⟨res, u, hu, hou, hout⟩ := refuseCommit_completes (dF d 16 8) (dF d 24 2) s.nextId
    (commitFindings (dF d 14 1 == 1) (commitTaken d s)) (commitJudged didx d s)
  rw [if_neg (by simp [hp]), if_pos hbad, hu] at he
  have done (status : Nat) : Only [.outbox, .rings, .descs, .sessions] (commitJudged didx d s) (complete s.nextId status res u) :=
    (hou.mono (by decide)).trans (only_complete_self _ _ _ _)
  have hbud (status : Nat) : (complete s.nextId status res u).bud = (commitJudged didx d s).bud := done status .budget (by decide)
  refine ⟨_, res, completes_of_only _ h hf ((only_commitJudged didx d s).trans (hou.mono (by decide))) (by decide) (by decide) (by decide)
    (by decide) (by decide) ((outbox_commitTaken d s).trans hout) he, (done _ .pend (by decide)).trans ((pend_commitTaken d s).trans hp),
    (congrArg Prod.fst (done _ .staged (by decide))).trans (staged_commitTaken d s), ?_, ?_⟩
  · rw [hbud]
    rfl
  · rw [hbud]
    simp [commitJudged, commitChecked, hbad]

variable (hok : commitFindings (dF d 14 1 == 1) (commitTaken d s) = [])
include hok

theorem commit_late (hl : commitLate (dF d 8 6) (now s) (commitTaken d s) = true) :
    ∃ t, Completes (.commit d) d (executedAnd [.staged, .pairs, .budget]) 0x24 [] s t ∧ t.pend = none ∧ t.staged = s.staged := by
  obtain ⟨didx, he⟩ := exec_commit_inRange h h1 h2
  rw [if_neg (by simp [hp]), if_neg (not_not_intro hok), if_pos hl] at he
  have done := only_complete_self s.nextId 0x24 [] (commitJudged didx d s)
  exact ⟨_, completes_of_only _ h hf (only_commitJudged didx d s) (by decide) (by decide) (by decide) (by decide) (by decide)
    (outbox_commitTaken d s) he, (done .pend (by decide)).trans ((pend_commitTaken d s).trans hp),
    (congrArg Prod.fst (done .staged (by decide))).trans (staged_commitTaken d s)⟩

theorem commit_accepted (hl : commitLate (dF d 8 6) (now s) (commitTaken d s) = false) :
    ∃ t p, Starts (.commit d) d (executedAnd [.resolution, .staged, .pairs, .pend, .fronds, .link, .budget]) s t ∧ t.pend = some p ∧
      p.t = BitVec.ofNat 48 (dF d 8 6) ∧ p.conf = s.staged ∧ p.id = s.nextId ∧ p.excl = (dF d 14 1 == 1) ∧ p.resolved = none ∧
      t.staged = s.staged ∧ t.bud.accepted = true := by
  obtain ⟨didx, he⟩ := exec_commit_inRange h h1 h2
  rw [if_neg (by simp [hp]), if_neg (not_not_intro hok), if_neg (by simp [hl])] at he
  have accepted := only_acceptCommit (ps := [.resolution, .staged, .queues, .faults, .pend, .fronds, .link])
    (BitVec.ofNat 48 (dF d 8 6)) (dF d 14 1 == 1) s.tm.periodWritten s.nextId (commitOrders (commitTaken d s)) (List.Subset.refl _)
    (Only.refl _ (commitJudged didx d s))
  obtain ⟨p, hpend, ht, hconf, hid, hexcl, hres⟩ := acceptCommit_pend (BitVec.ofNat 48 (dF d 8 6)) (dF d 14 1 == 1) s.tm.periodWritten
    s.nextId (commitOrders (commitTaken d s)) (commitJudged didx d s)
  refine ⟨_, p, starts_of_only (ps := [.outbox, .resolution, .staged, .pairs, .queues, .faults, .pend, .fronds, .link, .budget]) _ h hf
    (((only_commitJudged didx d s).mono (by decide)).trans (accepted.mono (by decide))) (by decide) (by decide) (by decide) (by decide) he,
    hpend, ht, hconf.trans (staged_commitTaken d s), hid, hexcl, hres, (acceptCommit_staged _ _ _ _ _ _).trans (staged_commitTaken d s), ?_⟩
  rw [show (acceptCommit _ _ _ _ _ _).bud = (commitJudged didx d s).bud from accepted .budget (by decide)]
  simp [commitJudged, commitChecked, hok, hl]

end

/-- Settles O25: the outcomes are those of `exec_commit_inRange`, in the order of R425. With no value word waiting, the state of the
statement is the one that the checks are made on (`commitTaken_pairless`). -/
theorem commitsArePendingOrRefused : Obligations.CommitsArePendingOrRefused := by
  unfold Obligations.CommitsArePendingOrRefused
  rintro d s _ hf h rfl
  refine ⟨commit_outOfRange hf h, fun h1 h2 => ⟨commit_busy hf h h1 h2, fun hp hr u bad hu hbad => ?_⟩⟩
  have eu : commitTaken d s = u := (commitTaken_pairless hr).trans hu.symm
  have staged : u.staged = s.staged := eu ▸ staged_commitTaken d s
  have found : commitFindings (dF d 14 1 == 1) (commitTaken d s) = bad := by
    rw [eu, hbad, commitFindings, staged]
  refine ⟨fun hne => ?_, fun hok late => ?_, fun hok intime => ?_⟩
  · subst found
    exact commit_refused hf h h1 h2 hp hne
  · exact commit_late hf h h1 h2 hp (found.trans hok) (commitLate_iff.mpr (eu ▸ late))
  · refine commit_accepted hf h h1 h2 hp (found.trans hok) (Bool.eq_false_iff.mpr (fun late => ?_))
    obtain ⟨f, hlt, hlong⟩ := commitLate_iff.mp late
    exact absurd (intime f hlt) (Nat.not_le.mpr (eu ▸ hlong))

end Sys2Proof.Machine
end

section
/-! SUPPORT. The frame of every command in one statement, and what lies outside the frames of all but a few commands. -/

namespace Sys2Proof.Machine

/-- A frame widened to another list that names all its parts. -/
theorem OnlyBy.into {ps qs : List Part} {s : State} {o : Host.Outcome State Fault Refusal} (h : OnlyBy ps s o)
    (k : ps.all qs.contains = true) : OnlyBy qs s o :=
  h.mono (fun p hp => by simpa using List.all_eq_true.mp k p hp)

/-- Every command answers a next state and changes only the parts that its frame names, and the waiting descriptors, which a write to
configuration space that clears Bus Master Enable drops (R406). -/
theorem only_exec (s : State) : ∀ c : Instr, OnlyBy (.descs :: touches c) s (exec c s)
  | .tickEdge .. => (only_execTickEdge ..).into rfl
  | .tbaseHigh => (only_execTbaseHigh ..).into rfl
  | .deferredWork => (only_execDeferredWork ..).into rfl
  | .featureSlice => (only_execFeatureSlice ..).into rfl
  | .periodBoundary .. => (only_execPeriodBoundary ..).into rfl
  | .downlinkSuperframe .. => (only_execDownlinkSuperframe ..).into rfl
  | .commitResolve => (only_execCommitResolve ..).into rfl
  | .u0 .. => (only_execU0 ..).into rfl
  | .linkUp .. => (only_execLinkUp ..).into rfl
  | .uplinkFrame .. => (only_execUplinkFrame ..).into rfl
  | .frondTickEdge .. => (only_execFrondTickEdge ..).into rfl
  | .contentionSafeState .. => (only_execContentionSafeState ..).into rfl
  | .d0 .. => (only_execD0 ..).into rfl
  | .d1 .. => (only_execD1 ..).into rfl
  | .d2 .. => (only_execD2 ..).into rfl
  | .ds .. => (only_execDS ..).into rfl
  | .snapSync .. => (only_execSnapSync ..).into rfl
  | .snapDesc .. => (only_execSnapDesc ..).into rfl
  | .safe .. => (only_execSafe ..).into rfl
  | .wdExpired .. => (only_execWdExpired ..).into rfl
  | .conversion .. => (only_execConversion ..).into rfl
  | .integratorStep .. => (only_execIntegratorStep ..).into rfl
  | .regulatorEvaluation .. => (only_execRegulatorEvaluation ..).into rfl
  | .channelDiagnostic .. => (only_execChannelDiagnostic ..).into rfl
  | .doThermal .. => (only_execDoThermal ..).into rfl
  | .regFaultRestart .. => (only_execRegFaultRestart ..).into rfl
  | .frondCause .. => (only_execFrondCause ..).into rfl
  | .frondInputRestart .. => (only_execFrondInputRestart ..).into rfl
  | .auxPowerArrive .. => (only_execAuxPowerArrive ..).into rfl
  | .auxPowerLoss .. => (only_execAuxPowerLoss ..).into rfl
  | .fsupArrive .. => (only_execFsupArrive ..).into rfl
  | .faultSourceActivate .. => (only_execFaultSourceActivate ..).into rfl
  | .faultSourceCleared .. => (only_execFaultSourceCleared ..).into rfl
  | .escalation .. => (only_execEscalation ..).into rfl
  | .shadowClose .. => (only_execShadowClose ..).into rfl
  | .haltRelease => (only_execHaltRelease ..).into rfl
  | .clockSrcLost .. => (only_execClockSrcLost ..).into rfl
  | .clockBothLost => (only_execClockBothLost ..).into rfl
  | .timeLocked => (only_execTimeLocked ..).into rfl
  | .timeHoldover => (only_execTimeHoldover ..).into rfl
  | .timeRegained => (only_execTimeRegained ..).into rfl
  | .syncInSnap .. => (only_execSyncInSnap ..).into rfl
  | .syncInPhaseReset => (only_execSyncInPhaseReset ..).into rfl
  | .syncInCaptureTrigger .. => (only_execSyncInCaptureTrigger ..).into rfl
  | .captureReadout .. => (only_execCaptureReadout ..).into rfl
  | .recordDelivery .. => (only_execRecordDelivery ..).into rfl
  | .holdoffExpiry .. => (only_execHoldoffExpiry ..).into rfl
  | .lspFifoMove .. => (only_execLspFifoMove ..).into rfl
  | .lspRead => (only_execLspRead ..).into rfl
  | .flushTakeEffect .. => (only_execFlushTakeEffect ..).into rfl
  | .datagramClose .. => (only_execDatagramClose ..).into rfl
  | .dbCmd .. => (only_execDbCmd ..).into rfl
  | .dbConsumer .. => (only_execDbConsumer ..).into rfl
  | .nop .. => (only_execNop ..).into rfl
  | .cfgWrite .. => (only_execCfgWrite ..).into rfl
  | .commit .. => (only_execCommit ..).into rfl
  | .snap .. => (only_execSnap ..).into rfl
  | .outputSet .. => (only_execOutputSet ..).into rfl
  | .arm .. => (only_execArm ..).into rfl
  | .disarm .. => (only_execDisarm ..).into rfl
  | .trigger .. => (only_execTrigger ..).into rfl
  | .mapRead .. => (only_execMapRead ..).into rfl
  | .mapReadDone => (only_execMapReadDone ..).into rfl
  | .flush .. => (only_execFlush ..).into rfl
  | .ruleLoad .. => (only_execRuleLoad ..).into rfl
  | .speedTable .. => (only_execSpeedTable ..).into rfl
  | .sync .. => (only_execSync ..).into rfl
  | .syncDone => (only_execSyncDone ..).into rfl
  | .faultClearChannel .. => (only_execFaultClearChannel ..).into rfl
  | .faultClearFrond .. => (only_execFaultClearFrond ..).into rfl
  | .faultClearSource .. => (only_execFaultClearSource ..).into rfl
  | .faultClearLatch .. => (only_execFaultClearLatch ..).into rfl
  | .cvuRun .. => (only_execCvuRun ..).into rfl
  | .cvuRunDone .. => (only_execCvuRunDone ..).into rfl
  | .timeout .. => (only_execTimeout ..).into rfl
  | .blobLoad .. => (only_execBlobLoad ..).into rfl
  | .blobStore => (only_execBlobStore ..).into rfl
  | .getNonce .. => (only_execGetNonce ..).into rfl
  | .getIdentity .. => (only_execGetIdentity ..).into rfl
  | .getState .. => (only_execGetState ..).into rfl
  | .takeOwnership .. => (only_execTakeOwnership ..).into rfl
  | .keyInstall .. => (only_execKeyInstall ..).into rfl
  | .unlock .. => (only_execUnlock ..).into rfl
  | .relock .. => (only_execRelock ..).into rfl
  | .seal .. => (only_execSeal ..).into rfl
  | .unseal .. => (only_execUnseal ..).into rfl
  | .rma .. => (only_execRma ..).into rfl
  | .makerRestore .. => (only_execMakerRestore ..).into rfl
  | .void .. => (only_execVoid ..).into rfl
  | .fwUpdate .. => (only_execFwUpdate ..).into rfl
  | .fwConfirm .. => (only_execFwConfirm ..).into rfl
  | .ldevidGen .. => (only_execLdevidGen ..).into rfl
  | .ldevidInstall .. => (only_execLdevidInstall ..).into rfl
  | .selfTest .. => (only_execSelfTest ..).into rfl
  | .authLockExpiry => (only_execAuthLockExpiry ..).into rfl
  | .presenceExpiry => (only_execPresenceExpiry ..).into rfl
  | .cryptoError => (only_execCryptoError ..).into rfl
  | .ringEnable .. => (only_execRingEnable ..).into rfl
  | .ringDisable .. => (only_execRingDisable ..).into rfl
  | .statusBaseWrite .. => (only_execStatusBaseWrite ..).into rfl
  | .chnSel .. => (only_execChnSel ..).into rfl
  | .broadcastWrite .. => (only_execBroadcastWrite ..).into rfl
  | .basicCodeWrite .. => (only_execBasicCodeWrite ..).into rfl
  | .rwpValueWrite .. => (only_execRwpValueWrite ..).into rfl
  | .rwpComplementWrite .. => (only_execRwpComplementWrite ..).into rfl
  | .reg64LowRead .. => (only_execReg64LowRead ..).into rfl
  | .reg64HighRead .. => (only_execReg64HighRead ..).into rfl
  | .reg64AtomicRead .. => (only_execReg64AtomicRead ..).into rfl
  | .reg64LowWrite .. => (only_execReg64LowWrite ..).into rfl
  | .reg64HighWrite .. => (only_execReg64HighWrite ..).into rfl
  | .mapPeekIdx .. => (only_execMapPeekIdx ..).into rfl
  | .discard .. => (only_execDiscard ..).into rfl
  | .cvuCtlAlg .. => (only_execCvuCtlAlg ..).into rfl
  | .cvuInit .. => (only_execCvuInit ..).into rfl
  | .cvuFeed8 .. => (only_execCvuFeed8 ..).into rfl
  | .cvuFeed16 .. => (only_execCvuFeed16 ..).into rfl
  | .cvuFeed32 .. => (only_execCvuFeed32 ..).into rfl
  | .cvuStateWrite .. => (only_execCvuStateWrite ..).into rfl
  | .dbgCtlWrite .. => (only_execDbgCtlWrite ..).into rfl
  | .checkIn => (only_execCheckIn ..).into rfl
  | .registerWrite .. => (only_execRegisterWrite ..).into rfl
  | .functionLevelReset => (only_execFunctionLevelReset ..).into rfl
  | .busMasterClear => (only_execBusMasterClear ..).into rfl
  | .pciePerst .. => (only_execPciePerst ..).into rfl
  | .pcieDegraded .. => (only_execPcieDegraded ..).into rfl
  | .vlogValid .. => (only_execVlogValid ..).into rfl
  | .auxPowerEnable .. => (only_execAuxPowerEnable ..).into rfl
  | .moduleReset .. => (only_execModuleReset ..).into rfl
  | .bootStart .. => (only_execBootStart ..).into rfl
  | .bootDone => (only_execBootDone ..).into rfl
  | .autonomousCommit => (only_execAutonomousCommit ..).into rfl
  | .supplyPhase .. => (only_execSupplyPhase ..).into rfl
  | .supplyPhaseRetry .. => (only_execSupplyPhaseRetry ..).into rfl
  | .ethLinkDown .. => (only_execEthLinkDown ..).into rfl
  | .ethLinkUp .. => (only_execEthLinkUp ..).into rfl
  | .ethFrame .. => (only_execEthFrame ..).into rfl
  | .tlsConnect .. => (only_execTlsConnect ..).into rfl
  | .status .. => (only_execStatus ..).into rfl
  | .netSet .. => (only_execNetSet ..).into rfl
  | .macsecKey .. => (only_execMacsecKey ..).into rfl
  | .macsecTxChange .. => (only_execMacsecTxChange ..).into rfl
  | .descriptor .. => (only_execDescriptor ..).into rfl
  | .clkBChange .. => (only_execClkBChange ..).into rfl
  | .lspRdclkEdge => (only_execLspRdclkEdge ..).into rfl
  | .badOpcode .. => (only_execBadOpcode ..).into rfl
  | .clockSrcLostClear => (only_execClockSrcLostClear ..).into rfl
  | .tlsSessionClose .. => (only_execTlsSessionClose ..).into rfl
  | .zeroisationComplete => (only_execZeroisationComplete ..).into rfl
  | .selfTestDone .. => (only_execSelfTestDone ..).into rfl
  | .haltDrainTimeout => (only_execHaltDrainTimeout ..).into rfl
  | .tickOutFall => (only_execTickOutFall ..).into rfl
  | .syncOutRepeat .. => (only_execSyncOutRepeat ..).into rfl
  | .addressAgeing .. => (only_execAddressAgeing ..).into rfl
  | .gateControlListEntry .. => (only_execGateControlListEntry ..).into rfl
  | .reserveStepBoundary => (only_execReserveStepBoundary ..).into rfl

/-- The tick counter and the configuration in force lie in the frames of TICK_EDGE and of the resets alone (R22, R39). -/
theorem touches_tick_cfg (c : Instr) (hr : isReset c = false) (ht : ∀ i, c ≠ .tickEdge i) :
    (touches c).contains .tick = false ∧ (touches c).contains .cfg = false := by
  cases c
  case tickEdge i => exact absurd rfl (ht i)
  case haltRelease => cases hr
  case moduleReset => cases hr
  all_goals exact ⟨rfl, rfl⟩

/-- The mode lies in the frames of BOOT_START and of the resets alone (R438). -/
theorem touches_auto (c : Instr) (hr : isReset c = false) (hb : ∀ i, c ≠ .bootStart i) : (touches c).contains .auto = false := by
  cases c
  case bootStart i => exact absurd rfl (hb i)
  case haltRelease => cases hr
  case moduleReset => cases hr
  all_goals rfl

/-- A part outside the frame of a command is the same after it. -/
theorem same_exec {c : Instr} {s t : State} (h : exec c s = .next t) {p : Part} (hd : p ≠ .descs) (hp : (touches c).contains p = false) :
    p.same s t := by
  obtain ⟨u, hu, only⟩ := only_exec s c
  cases hu.symm.trans h
  exact only p (by simpa [hd] using hp)

/-- Settles O6: the frames of the commands, by the parts that hold the counter, the configuration and the mode. -/
theorem countAndConfigChangeOnlyAtEdges : Obligations.CountAndConfigChangeOnlyAtEdges := by
  unfold Obligations.CountAndConfigChangeOnlyAtEdges
  intro c s t h
  refine ⟨fun hr ht => ?_, fun hr hb => same_exec h (p := .auto) (by decide) (touches_auto c hr hb)⟩
  obtain ⟨tick, cfg⟩ := touches_tick_cfg c hr ht
  have counter := same_exec h (p := .tick) (by decide) tick
  exact ⟨same_exec h (p := .cfg) (by decide) cfg, congrArg (fun x => x.2.1) counter⟩

end Sys2Proof.Machine
end

section
/-! SUPPORT. What is read of a table entry after an entry is changed: the core's fronds, the capture rings, what waits for a position. -/

namespace Sys2Proof.Machine

/-! ## The core's fronds -/

theorem frond_congr {s t : State} (h : t.fronds = s.fronds) (f : Nat) : frond t f = frond s f := by
  unfold frond
  rw [h]

theorem frond_of_only {ps : List Part} {s t : State} (h : Only ps s t) (hp : Part.fronds ∉ ps) (f : Nat) : frond t f = frond s f :=
  frond_congr (h .fronds hp) f

@[simp] theorem frond_modFrond_same (f : Nat) (g : CFrond → CFrond) (s : State) : frond (modFrond f g s) f = g (frond s f) :=
  tget_tmod_same _ _ _ _

theorem frond_modFrond_other {f j : Nat} (h : j ≠ f) (g : CFrond → CFrond) (s : State) : frond (modFrond f g s) j = frond s j :=
  tget_tmod_other _ _ h _

/-! ## The capture rings -/

theorem capRing_congr {s t : State} (h : t.caps = s.caps) (r : Nat) : capRing t r = capRing s r := by
  unfold capRing
  rw [h]

theorem capRing_of_only {ps : List Part} {s t : State} (h : Only ps s t) (hp : Part.caps ∉ ps) (r : Nat) : capRing t r = capRing s r :=
  capRing_congr (h .caps hp) r

@[simp] theorem capRing_modCap_same (r : Nat) (g : CapRing → CapRing) (s : State) : capRing (modCap r g s) r = g (capRing s r) :=
  tget_tmod_same _ _ _ _

theorem capRing_modCap_other {r j : Nat} (h : j ≠ r) (g : CapRing → CapRing) (s : State) : capRing (modCap r g s) j = capRing s j :=
  tget_tmod_other _ _ h _

/-! ## Entries as they are listed -/

theorem find_tput_same {α : Type} (k : Nat) (v : α) : ∀ t : Tab α, (tput t k v).find? (fun e => e.1 == k) = some (k, v)
  | [] => by simp [tput]
  | (j, w) :: r => by
    unfold tput
    split
    · simp
    · split
      · simp
      · next _ hk => rw [List.find?_cons_of_neg (by simpa using fun e => hk e.symm), find_tput_same k v r]

end Sys2Proof.Machine
end

section
/-! SUPPORT. SNAP, OUTPUT_SET and TRIGGER: what each does with a descriptor that passes every check of its row. -/

namespace Sys2Proof.Machine

theorem startDesc_acceptAlive_fronds (d : Desc) (obj : Nat) (s : State) : (startDesc d obj (acceptAlive d s)).fronds = s.fronds :=
  only_taken d obj s .fronds (by decide)

theorem startDesc_acceptAlive_caps (d : Desc) (obj : Nat) (s : State) : (startDesc d obj (acceptAlive d s)).caps = s.caps :=
  only_taken d obj s .caps (by decide)

/-! ## SNAP (R133, R427) -/

theorem only_setSnaps (s : State) (l : List SnapReq) : Only [.snaps] s { s with snaps := l } := by
  intro q hq
  cases q
  case snaps => exact absurd (List.mem_singleton_self _) hq
  all_goals rfl

/-- A SNAP that selects a channel sends its orders, and then waits for its fronds. -/
theorem snapAct_selects {d : Desc} (h : snapSel d ≠ []) (cycles id : Nat) (s : State) :
    Only [.outbox, .fronds, .snaps] s (snapAct d cycles id s) ∧ ∃ q, (snapAct d cycles id s).snaps = s.snaps ++ [q] ∧ q.id = id ∧
    q.sel = snapSel d ∧ q.map = BitVec.ofNat 64 (dF d 16 8) ∧ q.got = [] ∧ ∀ f, f ∈ q.left ↔ f < 32 ∧ ∃ ch ∈ snapSel d, ch / 16 = f := by
  have ordered : ∀ (key : Nat) (b : Nat → List Byte) (p : Byte) (fs : List Nat), Only [.outbox, .fronds] s (fs.foldl (fun s f =>
      sendOrder f 0x5C p (sendDown f 0x18 (b f) (modFrond f (fun x => { x with lastSnap := some key }) s))) s) := fun key b p fs =>
    Only.foldl (fun t f k => only_sendOrder f _ _ (List.Subset.refl _) (only_sendDown f _ _ (List.Subset.refl _)
      (only_modFrond f _ (by decide) k))) fs (Only.refl _ s)
  unfold snapAct
  rw [if_neg h]
  refine ⟨((ordered _ _ _ _).mono (by decide)).trans ((only_setSnaps _ _).mono (by decide)),
    { id := id, tick := _, conv := _, sel := snapSel d, left := _, map := _ }, congrArg (· ++ [_]) (ordered _ _ _ _ .snaps (by decide)),
    rfl, rfl, rfl, rfl, fun f => ?_⟩
  simp [allFronds]

theorem exec_snap {d : Desc} {s : State} (h : Takes snapForm d s) (cycles : Nat) :
    exec (.snap d cycles) s = .next (snapAct d cycles s.nextId (startDesc d 0 (acceptAlive d s))) :=
  congrArg Host.Outcome.next (takeDesc_takes h _)

theorem snap_starts {d : Desc} {s : State} (hf : Fresh s) (h : Takes snapForm d s) (hs : snapSel d ≠ []) (cycles : Nat) :
    ∃ t q, Starts (.snap d cycles) d (executedAnd [.fronds, .snaps]) s t ∧ t.snaps = s.snaps ++ [q] ∧
      q.id = s.nextId ∧ q.sel = snapSel d ∧ q.map = BitVec.ofNat 64 (dF d 16 8) ∧ q.got = [] ∧
      ∀ f, f ∈ q.left ↔ f < 32 ∧ ∃ ch ∈ snapSel d, ch / 16 = f := by
  obtain ⟨only, q, snaps, waits⟩ := snapAct_selects hs cycles s.nextId (startDesc d 0 (acceptAlive d s))
  refine ⟨_, q, starts_of_only _ h hf only (by decide) (by decide) (by decide) (by decide) (exec_snap h cycles), ?_, waits⟩
  exact snaps.trans (congrArg (· ++ [q]) (only_taken d 0 s .snaps (by decide)))

theorem snap_empty {d : Desc} {s : State} (hf : Fresh s) (h : Takes snapForm d s) (hs : snapSel d = []) (cycles : Nat) :
    ∃ t, Completes (.snap d cycles) d executed 0x14 [] s t := by
  have he := exec_snap h cycles
  rw [snapAct, if_pos hs] at he
  exact ⟨_, completes_of_only (ps := []) [] h hf (Only.refl _ _) (by decide) (by decide) (by decide) (by decide) (by decide)
    (by simp) he⟩

/-! ## OUTPUT_SET (R23, R24, R426) -/

/-- A value that meets none of a rule takes the place of what waits for the position. -/
theorem putCarry_free {t : Tab Carry} {p : Nat} (h : ∀ e ∈ t, e.1 = p → e.2.rule = false) (c : Carry) :
    ∃ x, (putCarry t p c).find? (fun e => e.1 == p) = some (p, x) ∧ x.val = c.val ∧ x.did = c.did := by
  refine ⟨_, find_tput_same _ _ _, ?_⟩
  cases hold : t.find? (fun e => e.1 == p) with
  | none => exact ⟨rfl, rfl⟩
  | some e =>
    have free : e.2.rule = false := h e (List.mem_of_find?_eq_some hold) (by simpa using List.find?_some hold)
    simp [joinCarry, free]

theorem valueOf_taken (d : Desc) (obj : Nat) (s : State) (ch : Nat) : valueOf (startDesc d obj (acceptAlive d s)) ch = valueOf s ch := by
  have e : (startDesc d obj (acceptAlive d s)).chans = s.chans := only_taken d obj s .chans (by decide)
  unfold valueOf
  rw [e]

theorem exec_outputSet {d : Desc} {s : State} (h : Takes outForm d s) :
    exec (.outputSet d) s = .next (outAct d s.nextId (startDesc d (dF d 8 2) (acceptAlive d s))) :=
  congrArg Host.Outcome.next (takeDesc_takes h _)

section
variable {d : Desc} {s : State} {ch : Nat} {v : Word} (hf : Fresh s) (h : Takes outForm d s) (hch : ch = dF d 8 2)
  (hv : v = BitVec.ofNat 32 (dF d 12 4))
include hf h hch hv

/-- A pair that does not check (R426). -/
theorem outputSet_pairBad (hp : BitVec.ofNat 32 (dF d 16 4) ≠ ~~~v) (hb : lineBad s 0x08 0 = false) :
    ∃ t, Completes (.outputSet d) d executed 0x16 (outResult 0 (valueOf s ch)) s t ∧ srcActive t 0x08 0 = true := by
  subst hch hv
  have he := exec_outputSet h
  rw [outAct, if_pos hp, valueOf_taken] at he
  have raised := only_integrity (ps := [.outbox, .queues, .faults]) 5 0 (dF d 8 2) (List.Subset.refl _)
    (Only.refl _ (startDesc d (dF d 8 2) (acceptAlive d s)))
  refine ⟨_, completes_of_only [] h hf raised (by decide) (by decide) (by decide) (by decide) (by decide) ?_ he, ?_⟩
  · exact startDesc_acceptAlive_outbox d (dF d 8 2) s ▸ (kept_integrity 5 0 (dF d 8 2) (Kept.refl _)).out
  · rw [srcActive_of_only (only_complete_self _ _ _ _) (by decide)]
    exact integrity_active ((lineBad_of_only (only_taken _ _ _) (by decide) _ _).trans hb) _ _ _

variable (hp : BitVec.ofNat 32 (dF d 16 4) = ~~~v)
include hp

/-- A value word with TYPE 3 or a reserved bit (R426). -/
theorem outputSet_refused (hr : fld v 16 2 = 3 ∨ fld v 18 14 ≠ 0) :
    ∃ t, Completes (.outputSet d) d executed 0x15 (outResult 0 (valueOf s ch)) s t := by
  subst hch hv
  have he := exec_outputSet h
  rw [outAct, if_neg (not_not_intro hp), if_pos (by simpa using hr), valueOf_taken] at he
  exact ⟨_, completes_of_only (ps := []) [] h hf (Only.refl _ _) (by decide) (by decide) (by decide) (by decide) (by decide)
    (by simp) he⟩

theorem outputSet_waits (h3 : fld v 16 2 ≠ 3) (h0 : fld v 18 14 = 0) : ∃ t, Starts (.outputSet d) d (executedAnd [.fronds]) s t ∧
    ((∀ e ∈ (frond s (ch / 16)).next, e.1 = ch % 16 → e.2.rule = false) → (frond t (ch / 16)).new = (frond s (ch / 16)).new ∧
      ∃ x, (frond t (ch / 16)).next.find? (fun e => e.1 == ch % 16) = some (ch % 16, x) ∧ x.val = v ∧ x.did = some s.nextId) ∧
    ∀ f, f ≠ ch / 16 → frond t f = frond s f := by
  subst hch hv
  have he := exec_outputSet h
  rw [outAct, if_neg (not_not_intro hp), if_neg (by simp [h3, h0])] at he
  have queued := only_queueOut (ps := [.fronds]) (dF d 8 2) (BitVec.ofNat 32 (dF d 12 4)) (some s.nextId) false (List.Subset.refl _)
    (Only.refl _ (startDesc d (dF d 8 2) (acceptAlive d s)))
  have taken := frond_congr (startDesc_acceptAlive_fronds d (dF d 8 2) s)
  refine ⟨_, starts_of_only _ h hf queued (by decide) (by decide) (by decide) (by decide) he, fun free => ?_, fun f hne => ?_⟩
  · rw [queueOut, frond_modFrond_same, taken]
    exact ⟨rfl, putCarry_free free _⟩
  · exact (frond_modFrond_other hne _ _).trans (taken f)

end

/-! ## TRIGGER (R287, R288) -/

theorem exec_trigger {d : Desc} {s : State} (h : Takes (capForm 2) d s) (cycles : Nat) :
    exec (.trigger d cycles) s = .next (triggerAct d cycles s.nextId (startDesc d (dF d 8 1) (acceptAlive d s))) :=
  congrArg Host.Outcome.next (takeDesc_takes h _)

/-- A capture that runs for another trigger time counts a missed trigger (R280). -/
theorem capTrigger_busy {r key : Nat} {c : CapRun} {s : State} (hrun : (capRing s r).run = some c) (hkey : c.key ≠ key)
    (src rule : Nat) (id : Option Nat) (rewind : Option TickNo) :
    (capRing (capTrigger r key src rule id rewind s).1 r).run = some { c with missed := c.missed + 1 } := by
  unfold capTrigger
  simp [hrun, hkey]

/-- A descriptor's trigger of an idle ring starts a capture (R280, R281). -/
theorem capTrigger_idle {r key : Nat} {s : State} (hen : capEn s.cfg r = true) (hrun : (capRing s r).run = none)
    (rule : Nat) (id : Option Nat) (rewind : Option TickNo) :
    (∃ c, (capRing (capTrigger r key 4 rule id rewind s).1 r).run = some c ∧ c.key = key ∧ c.sources = 4 ∧ c.ids = id.toList) ∧
    ∀ j, j ≠ r → capRing (capTrigger r key 4 rule id rewind s).1 j = capRing s j := by
  have accepted : (capTrigger r key 4 rule id rewind s).1 = capAccept s.cfg r key 4 rule id rewind s := by
    unfold capTrigger
    simp [hrun, hen]
  rw [accepted]
  refine ⟨⟨_, congrArg CapRing.run (tget_tput_same _ _ _ _), rfl, rfl, rfl⟩, fun j hj => tget_tput_other _ hj _ _⟩

section
variable {d : Desc} {s : State} {r : Nat} (hf : Fresh s) (h : Takes (capForm 2) d s) (hr : r = dF d 8 1) (cycles : Nat)
include hf h hr

theorem trigger_off (hen : capEn s.cfg r = false) : ∃ t, Completes (.trigger d cycles) d executed 0x15 [] s t := by
  subst hr
  have he := exec_trigger h cycles
  have off : capEn (startDesc d (dF d 8 1) (acceptAlive d s)).cfg (dF d 8 1) = false := hen
  rw [triggerAct, if_pos (by simpa using off)] at he
  exact ⟨_, completes_of_only (ps := []) [] h hf (Only.refl _ _) (by decide) (by decide) (by decide) (by decide) (by decide)
    (by simp) he⟩

variable (hen : capEn s.cfg r = true)
include hen

theorem trigger_busy {c : CapRun} (hrun : (capRing s r).run = some c) (hkey : c.key ≠ keyAt s cycles) :
    ∃ t, Completes (.trigger d cycles) d (executedAnd [.caps]) 0x31 [] s t ∧ (capRing t r).run = some { c with missed := c.missed + 1 } := by
  subst hr
  have taken := capRing_congr (startDesc_acceptAlive_caps d (dF d 8 1) s) (dF d 8 1)
  have he := exec_trigger h cycles
  have on : capEn (startDesc d (dF d 8 1) (acceptAlive d s)).cfg (dF d 8 1) = true := hen
  have other : (c.key != keyAt (startDesc d (dF d 8 1) (acceptAlive d s)) cycles) = true := bne_iff_ne.mpr hkey
  rw [triggerAct, taken, hrun, if_neg (by simpa using on), if_pos other] at he
  have only := only_capTrigger (ps := [.caps]) (dF d 8 1) (keyAt s cycles) 4 0xFFFF none none (List.Subset.refl _)
    (Only.refl _ (startDesc d (dF d 8 1) (acceptAlive d s)))
  refine ⟨_, completes_of_only _ h hf only (by decide) (by decide) (by decide) (by decide) (by decide) ?_ he, ?_⟩
  · exact startDesc_acceptAlive_outbox d (dF d 8 1) s ▸ (kept_capTrigger (dF d 8 1) (keyAt s cycles) 4 0xFFFF none none (Kept.refl _)).out
  · rw [capRing_of_only (only_complete_self _ _ _ _) (by decide)]
    exact capTrigger_busy (taken.symm ▸ hrun) hkey _ _ _ _

theorem trigger_starts (hrun : (capRing s r).run = none) (h0 : dF d 10 1 = 0) :
    ∃ t c, Starts (.trigger d cycles) d (executedAnd [.caps]) s t ∧ (capRing t r).run = some c ∧ c.key = keyAt s cycles ∧
      c.sources = 4 ∧ c.ids = [s.nextId] ∧ ∀ j, j ≠ r → capRing t j = capRing s j := by
  subst hr
  have taken := capRing_congr (startDesc_acceptAlive_caps d (dF d 8 1) s)
  have he := exec_trigger h cycles
  have on : capEn (startDesc d (dF d 8 1) (acceptAlive d s)).cfg (dF d 8 1) = true := hen
  rw [triggerAct, taken, hrun, if_neg (by simpa using on), if_neg (by simp), if_neg (by simp [h0])] at he
  have only := only_capTrigger (ps := [.caps]) (dF d 8 1) (keyAt s cycles) 4 0xFFFF (some s.nextId)
    (if dF d 10 1 = 1 then some (BitVec.ofNat 48 (dF d 12 6)) else none) (List.Subset.refl _)
    (Only.refl _ (startDesc d (dF d 8 1) (acceptAlive d s)))
  obtain ⟨⟨c, hc, key, src, ids⟩, other⟩ := capTrigger_idle (key := keyAt s cycles) (s := startDesc d (dF d 8 1) (acceptAlive d s))
    hen ((congrArg CapRing.run (taken _)).trans hrun) 0xFFFF (some s.nextId)
    (if dF d 10 1 = 1 then some (BitVec.ofNat 48 (dF d 12 6)) else none)
  exact ⟨_, c, starts_of_only _ h hf only (by decide) (by decide) (by decide) (by decide) he, hc, key, src, ids,
    fun j hj => (other j hj).trans (taken j)⟩

end

/-- Settles O26: one lemma for each outcome of each of the three descriptors. -/
theorem snapsOutputsAndTriggersStart : Obligations.SnapsOutputsAndTriggersStart := by
  unfold Obligations.SnapsOutputsAndTriggersStart
  intro d cycles s hf
  refine ⟨fun h => ⟨fun hs => snap_empty hf h hs cycles, fun hs => snap_starts hf h hs cycles⟩, fun h ch v hch hv => ?_, fun h r hr => ?_⟩
  · exact ⟨outputSet_pairBad hf h hch hv, outputSet_refused hf h hch hv, outputSet_waits hf h hch hv⟩
  · exact ⟨trigger_off hf h hr cycles, fun hen c => trigger_busy hf h hr cycles hen, trigger_starts hf h hr cycles⟩

end Sys2Proof.Machine
end

section
/-! SUPPORT. What a frame keeps of the phase and of the security subsystem, and the frames of the updates that no shared operation has a
name for. -/

namespace Sys2Proof.Machine

section
variable {ps : List Part} {s t : State} (h : Only ps s t)
include h

theorem phase_of_only (hp : Part.halt ∉ ps) : t.phase = s.phase := congrArg Prod.fst (h .halt hp)

theorem haltLatch_of_only (hp : Part.halt ∉ ps) : t.pwr.haltLatch = s.pwr.haltLatch := congrArg Prod.snd (h .halt hp)

theorem running_of_only (hp : Part.halt ∉ ps) : running t = running s := by
  unfold running
  rw [phase_of_only h hp]

theorem awake_of_only (hp : Part.halt ∉ ps) : awake t = awake s := by
  unfold awake
  rw [running_of_only h hp, phase_of_only h hp]

theorem count_of_only (hp : Part.tick ∉ ps) : t.tm.count = s.tm.count := congrArg (fun q => q.2.1) (h .tick hp)

theorem now_of_only (hp : Part.tick ∉ ps) : now t = now s := congrArg BitVec.toNat (count_of_only h hp)

theorem failed_of_only (hp : Part.supplies ∉ ps) : t.pwr.failed = s.pwr.failed := congrArg Prod.fst (h .supplies hp)

theorem sec_of_only (hl : Part.lifeCycle ∉ ps) (hs : Part.security ∉ ps) : t.sec = s.sec := by
  have life := h .lifeCycle hl
  have rest := h .security hs
  simp only [Part.same, Prod.mk.injEq] at life rest
  obtain ⟨hlc, hslots⟩ := life
  cases ht : t.sec
  cases hs : s.sec
  simp_all

end

/-- The work of one cycle stands between two updates of the queues alone (R365). -/
theorem only_around (g : State → State) (s : State) : ∃ u, Only [.queues] s u ∧ Only [.queues] (g u) (inOneCycle g s) := by
  refine ⟨{ s with queues := tmap s.queues (fun _ x => { x with pkts := x.pkts.map (fun p => { p with fresh := false }) }) },
    fun q hq => ?_, fun q hq => ?_⟩
  all_goals
    cases q
    case queues => exact absurd (List.mem_singleton_self _) hq
    all_goals rfl

end Sys2Proof.Machine
end

section
/-! SUPPORT. Start-up: what BOOT_START and BOOT_DONE do. -/

namespace Sys2Proof.Machine

/-! ## BOOT_START -/

/-- The module as BOOT_START finds pins and self-tests, before the PCIe link trains. -/
def bootEntered (i : BootIn) (s : State) : State :=
  { s with phase := .booting, auto := i.boot0, tm := { s.tm with clkA := true, clkB := true },
           pwr := { s.pwr with presPend := s.pwr.boot1 && i.boot1 && i.held, boot1 := false },
           sec := endTrial { s.sec with selfOk := i.alg == 0 } }

/-- The same after the link has trained and the failed supply phases are reported. -/
def bootPowered (i : BootIn) (s : State) : State := s.pwr.failed.foldl (fun s ph => phaseSrc ph s) (trainLink i.link (bootEntered i s))

theorem only_bootEntered (i : BootIn) (s : State) : Only [.halt, .auto, .clocks, .supplies, .security] s (bootEntered i s) := by
  intro q hq
  cases q
  case halt | auto | clocks | supplies | security => exact absurd hq (by decide)
  case lifeCycle => exact endTrial_life _
  all_goals rfl

theorem only_bootPowered (i : BootIn) (s : State) :
    Only [.outbox, .queues, .host, .faults, .link] (bootEntered i s) (bootPowered i s) :=
  Only.foldl (fun _ ph h => only_phaseSrc ph (by decide) h) _ (only_trainLink i.link (List.Subset.refl _) (Only.refl _ _))

/-- Where a supply phase has failed, its report makes SUPPLY_PHASE active (R551). -/
theorem phaseSrcs_active : ∀ (l : List Nat) {s : State}, awake s = true → lineBad s 0x1C 0 = false → s.pwr.failed ≠ [] →
    (l ≠ [] ∨ srcActive s 0x1C 0 = true) → srcActive (l.foldl (fun s ph => phaseSrc ph s) s) 0x1C 0 = true
  | [], _, _, _, _, h => h.resolve_left (fun n => n rfl)
  | ph :: l, s, ha, hb, hf, _ => by
    have only := only_phaseSrc ph (List.Subset.refl _) (Only.refl _ s)
    refine phaseSrcs_active l ((awake_of_only only (by decide)).trans ha) ((lineBad_of_only only (by decide) _ _).trans hb)
      ((failed_of_only only (by decide)).symm ▸ hf) (.inr ?_)
    show srcActive (phaseSrc ph s) 0x1C 0 = true
    rw [phaseSrc, if_pos ha, setSrc, if_pos (bne_iff_ne.mpr hf)]
    exact raise_active hb _ _ _ _ _ _

/-- The image that a preference names. -/
def imageOf (x : Sec) (b : Bool) : List Byte := if b then x.imgB else x.imgA

theorem chooseImage_eq {s : State} (hv : s.sec.lc ≠ Machine.lcVoid) : chooseImage s =
    if bootable s (imageOf s.sec s.sec.pref) then { s with sec := { s.sec with bootB := s.sec.pref, trial := s.sec.trialRec } }
    else if bootable s (imageOf s.sec !s.sec.pref) then { s with sec := { s.sec with bootB := !s.sec.pref, fallback := true } }
    else securityHalt 3 0 s := if_neg hv

/-- The boot ROM starts the preferred image, and the other where only that one is bootable (R522). -/
theorem chooseImage_boots {s : State} (hv : s.sec.lc ≠ Machine.lcVoid)
    (hb : bootable s (imageOf s.sec s.sec.pref) = true ∨ bootable s (imageOf s.sec !s.sec.pref) = true) :
    ∃ x : Sec, chooseImage s = { s with sec := x } ∧ (x.lc, x.slots) = (s.sec.lc, s.sec.slots) ∧ x.pref = s.sec.pref ∧
      x.bootB = (if bootable s (imageOf s.sec s.sec.pref) = true then s.sec.pref else !s.sec.pref) ∧
      (bootable s (imageOf s.sec s.sec.pref) = false → x.fallback = true) ∧ x.keys = s.sec.keys ∧ x.rollback = s.sec.rollback := by
  rw [chooseImage_eq hv]
  by_cases hp : bootable s (imageOf s.sec s.sec.pref) = true
  · rw [if_pos hp, if_pos hp]
    exact ⟨_, rfl, rfl, rfl, rfl, fun h => absurd hp (by simp [h]), rfl, rfl⟩
  · rw [if_neg hp, if_neg hp, if_pos (hb.resolve_left hp)]
    exact ⟨_, rfl, rfl, rfl, rfl, fun _ => rfl, rfl, rfl⟩

theorem only_setSec (s : State) {x : Sec} (h : (x.lc, x.slots) = (s.sec.lc, s.sec.slots)) : Only [.security] s { s with sec := x } := by
  intro q hq
  cases q
  case security => exact absurd (List.mem_singleton_self _) hq
  case lifeCycle => exact h
  all_goals rfl

/-- BOOT_START from the self-tests on. -/
def bootJudged (i : BootIn) (s : State) : Host.Outcome State Fault Refusal :=
  if i.alg ≠ 0 then .next (securityHalt 2 i.alg s)
  else if !(lifeCycleCheck false i.otpBad s).sec.otpOk then .next (lifeCycleCheck false i.otpBad s)
  else
    .next (chooseImage (
      if (lifeCycleCheck false i.otpBad s).sec.lc = lcReturn && !(lifeCycleCheck false i.otpBad s).sec.zeroDone then
        { zeroise (lifeCycleCheck false i.otpBad s) with sec := { (zeroise (lifeCycleCheck false i.otpBad s)).sec with zeroDone := true } }
      else lifeCycleCheck false i.otpBad s))

theorem execBootStart_eq (i : BootIn) (s : State) :
    execBootStart i s = if s.phase ≠ .reset || !s.pwr.valid then .next s else bootJudged i (bootPowered i s) := rfl

theorem bootJudged_good {i : BootIn} {s : State} (ha : i.alg = 0) (hb : i.otpBad = false) (ho : s.sec.otpOk = true)
    (hz : s.sec.lc = lcReturn → s.sec.zeroDone = true) : bootJudged i s = .next (chooseImage s) := by
  have checked : lifeCycleCheck false i.otpBad s = s := by
    rw [hb]
    rfl
  rw [bootJudged, checked, if_neg (not_not_intro ha), if_neg (by simp [ho]), if_neg (by simpa using hz)]

theorem bootable_congr {s t : State} (h : t.sec.rollback = s.sec.rollback) (img : List Byte) : bootable t img = bootable s img := by
  unfold bootable
  rw [h]

/-- What an ended trial leaves (R523). -/
theorem endTrial_eq (x : Sec) : (endTrial x).pref = (if x.trial then !x.pref else x.pref) ∧ (endTrial x).imgA = x.imgA ∧
    (endTrial x).imgB = x.imgB ∧ (endTrial x).keys = x.keys ∧ (endTrial x).rollback = x.rollback ∧ (endTrial x).lc = x.lc ∧
    (endTrial x).otpOk = x.otpOk ∧ (endTrial x).zeroDone = x.zeroDone := by
  unfold endTrial
  split <;> exact ⟨rfl, rfl, rfl, rfl, rfl, rfl, rfl, rfl⟩

theorem bootStart_boots {i : BootIn} {s : State} (hph : s.phase = .reset) (hv : s.pwr.valid = true) (ha : i.alg = 0) (hb : i.otpBad = false)
    (ho : s.sec.otpOk = true) (hvoid : s.sec.lc ≠ Machine.lcVoid) (hz : s.sec.lc = lcReturn → s.sec.zeroDone = true) {pref : Bool}
    (hpref : pref = if s.sec.trial then !s.sec.pref else s.sec.pref)
    (hboot : bootable s (imageOf s.sec pref) = true ∨ bootable s (imageOf s.sec !pref) = true) :
    ∃ t, exec (.bootStart i) s = .next t ∧
      Only [.outbox, .queues, .faults, .halt, .auto, .clocks, .supplies, .link, .host, .security] s t ∧ t.phase = .booting ∧
      t.auto = i.boot0 ∧ t.pwr.haltLatch = s.pwr.haltLatch ∧ t.sec.pref = pref ∧
      t.sec.bootB = (if bootable s (imageOf s.sec pref) = true then pref else !pref) ∧
      (bootable s (imageOf s.sec pref) = false → t.sec.fallback = true) ∧ t.sec.keys = s.sec.keys ∧ t.sec.rollback = s.sec.rollback ∧
      t.pwr.presPend = (s.pwr.boot1 && i.boot1 && i.held) ∧
      (s.pwr.failed ≠ [] → lineBad s 0x1C 0 = false → srcActive t 0x1C 0 = true) := by
  have powered := only_bootPowered i s
  have hsec : (bootPowered i s).sec = endTrial { s.sec with selfOk := i.alg == 0 } := sec_of_only powered (by decide) (by decide)
  obtain ⟨epref, eA, eB, ekeys, eroll, elc, eotp, ezero⟩ := endTrial_eq { s.sec with selfOk := i.alg == 0 }
  rw [← hsec] at epref eA eB ekeys eroll elc eotp ezero
  have images : ∀ b, bootable (bootPowered i s) (imageOf (bootPowered i s).sec b) = bootable s (imageOf s.sec b) := fun b => by
    rw [bootable_congr eroll, imageOf, eA, eB]
    rfl
  have same : (bootPowered i s).sec.pref = pref := epref.trans hpref.symm
  obtain ⟨x, hx, life, xpref, xboot, xfall, xkeys, xroll⟩ := chooseImage_boots (s := bootPowered i s) (elc ▸ hvoid)
    (by rw [same, images, images]; exact hboot)
  rw [same, images] at xboot xfall
  have starts : exec (.bootStart i) s = .next (chooseImage (bootPowered i s)) := by
    show execBootStart i s = _
    rw [execBootStart_eq, if_neg (by simp [hph, hv]), bootJudged_good ha hb (eotp.trans ho) (by rw [elc, ezero]; exact hz)]
  have phase := phase_of_only powered (by decide)
  have latch := haltLatch_of_only powered (by decide)
  refine ⟨_, starts, ?_⟩
  rw [hx]
  refine ⟨(((only_bootEntered i s).mono (by decide)).trans (powered.mono (by decide))).trans ((only_setSec _ life).mono (by decide)),
    phase, powered .auto (by decide), latch, xpref.trans same, xboot, xfall,
    xkeys.trans ekeys, xroll.trans eroll, congrArg (fun q => q.2.2.2.2.1) (powered .supplies (by decide)), fun hf hl => ?_⟩
  have trained := only_trainLink i.link (List.Subset.refl _) (Only.refl _ (bootEntered i s))
  exact phaseSrcs_active s.pwr.failed ((awake_of_only trained (by decide)).trans rfl) ((lineBad_of_only trained (by decide) _ _).trans hl)
    ((failed_of_only trained (by decide)).symm ▸ hf) (.inl hf)

/-! ## BOOT_DONE -/

/-- One of the management processor's rings is set up (R438). -/
def mpRing (r : Nat) (s : State) : State := modRing r (fun x => { x with base := Config.mpRing r }) (enableRing r 8 s)

theorem mpRings_eq (s : State) : mpRings s = mpRing evtRing (mpRing cplRing (mpRing cmdRing s)) := rfl

theorem rings_enableRing (r log2 : Nat) (s : State) : (enableRing r log2 s).rings =
    tmod {} s.rings r (fun x => { x with en := true, log2 := log2, p := 0, c := 0, db := 0, unsig := 0, alive := 0 }) := by
  unfold enableRing
  dsimp only
  split <;> split <;> rfl

theorem ring_mpRing_same (r : Nat) (s : State) : (ring (mpRing r s) r).en = true ∧ (ring (mpRing r s) r).log2 = 8 ∧
    (ring (mpRing r s) r).p = 0 ∧ (ring (mpRing r s) r).c = 0 := by
  unfold mpRing
  rw [ring_modRing_same, ring, rings_enableRing, tget_tmod_same]
  exact ⟨rfl, rfl, rfl, rfl⟩

theorem ring_mpRing_other {r j : Nat} (h : j ≠ r) (s : State) : ring (mpRing r s) j = ring s j := by
  unfold mpRing
  rw [ring_modRing_other h, ring, rings_enableRing, tget_tmod_other _ _ h]
  rfl

/-- In autonomous mode Bus Master Enable has no part in a ring's EN. -/
theorem enableRing_auto {s : State} (h : s.auto = true) (r log2 : Nat) : Only [.rings, .alives] s (enableRing r log2 s) := by
  have moded : Only [.rings] s (modRing r (fun x => { x with en := true, log2 := log2, p := 0, c := 0, db := 0, unsig := 0, alive := 0 }) s) :=
    only_modRing r _ (List.Subset.refl _) (Only.refl _ s)
  unfold enableRing
  dsimp only
  rw [if_pos (show (modRing _ _ s).auto = true from h)]
  refine Only.ite (fun q hq => ?_) (moded.mono (by decide))
  cases q
  case rings | alives => exact absurd hq (by decide)
  all_goals rfl

theorem only_mpRing {s : State} (h : s.auto = true) (r : Nat) : Only [.rings, .alives] s (mpRing r s) :=
  only_modRing r _ (by decide) (enableRing_auto h r 8)

theorem expAlive_mpRing_cmd (s : State) : (mpRing cmdRing s).expAlive = 1 := rfl

theorem expAlive_mpRing_other {r : Nat} (h : r ≠ cmdRing) (s : State) : (mpRing r s).expAlive = s.expAlive := by
  show (enableRing r 8 s).expAlive = _
  unfold enableRing
  dsimp only
  rw [if_neg h]
  split <;> rfl

/-- The management processor's command, completion and event rings (R438). -/
theorem mpRings_autonomous {s : State} (h : s.auto = true) : Only [.rings, .alives] s (mpRings s) ∧ (mpRings s).expAlive = 1 ∧
    ∀ r, r < 3 → (ring (mpRings s) r).en = true ∧ (ring (mpRings s) r).log2 = 8 ∧ (ring (mpRings s) r).p = 0 ∧ (ring (mpRings s) r).c = 0 := by
  have cmd := only_mpRing h cmdRing
  have cpl := only_mpRing ((cmd .auto (by decide)).trans h) cplRing
  have evt := only_mpRing (((cmd.trans cpl) .auto (by decide)).trans h) evtRing
  rw [mpRings_eq]
  refine ⟨(cmd.trans cpl).trans evt, ?_, fun r hr => ?_⟩
  · rw [expAlive_mpRing_other (by decide), expAlive_mpRing_other (by decide), expAlive_mpRing_cmd]
  · match r, hr with
    | 0, _ =>
      rw [ring_mpRing_other (by decide), ring_mpRing_other (by decide)]
      exact ring_mpRing_same cmdRing s
    | 1, _ =>
      rw [ring_mpRing_other (by decide)]
      exact ring_mpRing_same cplRing _
    | 2, _ => exact ring_mpRing_same evtRing _

/-- The module with its firmware running, before the rings of autonomous mode. -/
def bootRun (s : State) : State :=
  { s with phase := .running, pwr := { s.pwr with booted := true, presPend := false },
           sec := { s.sec with approved := notApproved s == 0, naCause := notApproved s, presence := s.pwr.presPend } }

/-- A store without a valid configuration raises CONFIG_ABSENT (R49). -/
def reportStores (s : State) : State :=
  match slotCheck s s.sec.storeA, slotCheck s s.sec.storeB with
  | some a, some b => raise 0x36 0 1 false (le 1 a ++ le 1 b) s.tm.count false false s
  | _, _ => s

theorem execBootDone_eq {s : State} (h : s.phase = .booting) :
    execBootDone s = if !s.auto then .next (bootRun s) else .next (reportStores (mpRings (bootRun s))) := if_neg (not_not_intro h)

theorem only_bootRun (s : State) : Only [.halt, .supplies, .security] s (bootRun s) := by
  intro q hq
  cases q
  case halt | supplies | security => exact absurd hq (by decide)
  all_goals rfl

theorem only_reportStores (s : State) : Only [.outbox, .queues, .faults] s (reportStores s) := by
  unfold reportStores
  split
  · exact only_raise_low (by decide) (List.Subset.refl _) (Only.refl _ s)
  · exact Only.refl _ s

/-- What BOOT_DONE leaves, in either mode, is the running module, but for what it reports and the rings it has set up. -/
theorem bootDone_runs {s : State} (h : s.phase = .booting) : ∃ t, exec .bootDone s = .next t ∧
    Only [.outbox, .queues, .faults, .rings, .alives] (bootRun s) t ∧ (s.auto = false → t.rings = s.rings) ∧
    (s.auto = true → t.expAlive = 1 ∧ ∀ r, r < 3 → (ring t r).en = true ∧ (ring t r).log2 = 8 ∧ (ring t r).p = 0 ∧ (ring t r).c = 0) := by
  have done : exec .bootDone s = _ := execBootDone_eq h
  cases ha : s.auto with
  | false =>
    rw [ha] at done
    exact ⟨_, done, Only.refl _ _, fun _ => rfl, nofun⟩
  | true =>
    rw [ha] at done
    obtain ⟨only, alive, rings⟩ := mpRings_autonomous (s := bootRun s) ha
    have reported := only_reportStores (mpRings (bootRun s))
    refine ⟨_, done, (only.mono (by decide)).trans (reported.mono (by decide)), nofun, fun _ => ⟨?_, fun r hr => ?_⟩⟩
    · exact (congrArg Prod.fst (reported .alives (by decide))).trans alive
    · rw [ring_congr (reported .rings (by decide))]
      exact rings r hr

/-- Settles O41: BOOT_START comes to `chooseImage` on the module as it powered up, BOOT_DONE to `bootRun` and the rings. -/
theorem startUpRunsFirmware : Obligations.StartUpRunsFirmware := by
  unfold Obligations.StartUpRunsFirmware
  refine ⟨fun i s hph hv ha hb ho hvoid hz pref img hpref himg hboot => ?_, fun s h => ?_⟩
  · subst himg
    exact bootStart_boots hph hv ha hb ho hvoid hz hpref hboot
  · obtain ⟨t, done, only, off, on⟩ := bootDone_runs h
    have hsec : t.sec = (bootRun s).sec := sec_of_only only (by decide) (by decide)
    have phase := phase_of_only only (by decide)
    have latch := haltLatch_of_only only (by decide)
    have booted : t.pwr.booted = true := congrArg (fun q => q.2.2.2.2.2) (only .supplies (by decide))
    exact ⟨t, done, ((only_bootRun s).mono (by decide)).trans (only.mono (by decide)), phase, latch, booted, by rw [hsec]; rfl,
      by rw [hsec]; rfl, by rw [hsec]; rfl, by rw [hsec]; rfl, off, on⟩

end Sys2Proof.Machine
end

section
/-! SUPPORT. AUTONOMOUS_COMMIT: what staging a blob leaves alone, and what a COMMIT descriptor leaves of the staged set and of the command
ring's P, whatever comes of it. -/

namespace Sys2Proof.Machine

/-! ## Staging a blob -/

/-- What the entries of a CFG section change: among 64-bit registers they reach TCK_ORIGIN alone, which is staged (R423). -/
def stagedParts : List Part := [.outbox, .staged, .pairs, .sticky, .queues, .faults]

theorem only_put64_origin (lo hi : Word) (s : State) : Only [.staged] s (put64 0x1020 lo hi s) :=
  only_stage _ _ _ _ (List.Subset.refl _) (only_stage _ _ _ _ (List.Subset.refl _) (Only.refl _ s))

theorem only_entryOrphan (o i : Nat) {s t : State} (h : Only stagedParts s t) :
    Only stagedParts s (integrity 2 o (pairChan o i) { markOfs (o + 4) t with orphan := true }) :=
  h.trans ((only_orphanMarked o (some i) t).mono (by decide))

theorem only_entryMismatch (o i : Nat) {s t : State} (h : Only stagedParts s t) :
    Only stagedParts s (integrity 1 o (pairChan o i) t) := only_integrity _ _ _ (by decide) h

theorem only_cfgEntry_staged (c : CfgRun) (e : CfgEnt) {s t : State} (h : Only stagedParts s t) :
    Only stagedParts s (cfgEntry (c, t) e).2 := by
  have paired : ∀ bad, Only stagedParts s (dropPairs bad t) := fun bad => only_dropPairs bad (by decide) h
  have dropped : Only stagedParts s (dropPair c t) := only_dropPair c (by decide) h
  unfold cfgEntry
  dsimp only
  generalize ({ c.sel with chnSel := BitVec.ofNat 32 (e.chan % 512 + (if e.chan ≥ 0x8000 then 65536 else 0)) } : PathRegs) = r
  split
  · split
    · split
      · exact Only.ite (only_stageFree _ _ _ (by decide) (paired _)) (only_entryMismatch _ _ (paired _))
      · exact only_entryOrphan _ _ (only_dropPair c (by decide) (paired _))
    · exact only_entryOrphan _ _ (paired _)
  · split
    · exact only_dropPairs _ (by decide) dropped
    · split
      · exact dropped
      · split
        · exact dropped
        · split
          · exact dropped
          · split
            · exact dropped
            · split
              · exact dropped.trans ((only_put64_origin _ _ _).mono (by decide))
              · exact only_stageFree _ _ _ (by decide) dropped

theorem only_cfgEntries : ∀ (l : List CfgEnt) (a : CfgRun × State) {s : State}, Only stagedParts s a.2 → Only stagedParts s (l.foldl cfgEntry a).2
  | [], _, _, h => h
  | e :: l, (c, _), _, h => only_cfgEntries l _ (only_cfgEntry_staged c e h)

theorem only_cfgApply_staged (l : List CfgEnt) (s : State) : Only stagedParts s (cfgApply l s) :=
  only_dropPair _ (by decide) (only_cfgEntries l (({} : CfgRun), s) (Only.refl _ s))

theorem only_stageBlob_staged (b : List Byte) (p : BlobParts) (s : State) : Only stagedParts s (stageBlob b p s) := by
  have rules := Only.foldl (fun _ (e : Nat × Nat × Nat) h => only_stageRules b e.2.2 e.1 e.2.1 (by decide) h) p.rules (only_cfgApply_staged p.cfg s)
  have edges := Only.foldl (fun _ (e : Nat × Nat) h => only_stageEdges b e.2 e.1 (by decide) h) p.speeds rules
  exact Only.foldl (fun _ o h => only_stageNet o (by decide) h) p.nets edges

/-! ## What a COMMIT leaves, whatever comes of it -/

/-- From s to t the staged set and the command ring's P are kept. -/
def KeepsStaged (s t : State) : Prop := t.staged = s.staged ∧ (ring t cmdRing).p = (ring s cmdRing).p

theorem KeepsStaged.refl (s : State) : KeepsStaged s s := ⟨rfl, rfl⟩

theorem KeepsStaged.trans {s t u : State} (a : KeepsStaged s t) (b : KeepsStaged t u) : KeepsStaged s u :=
  ⟨b.1.trans a.1, b.2.trans a.2⟩

theorem keepsStaged_of_only {ps : List Part} {s t : State} (h : Only ps s t) (hs : Part.staged ∉ ps) (hr : Part.rings ∉ ps) : KeepsStaged s t :=
  ⟨congrArg Prod.fst (h .staged hs), congrArg Ring.p (ring_congr (h .rings hr) cmdRing)⟩

theorem keepsStaged_complete (id status : Nat) (res : List Byte) (s : State) : KeepsStaged s (complete id status res s) :=
  ⟨congrArg Prod.fst (only_complete_self id status res s .staged (by decide)), congrArg Ring.p (ring_complete_other (by decide) id status res s)⟩

theorem keepsStaged_consumed (s : State) : KeepsStaged s (consumed s) :=
  ⟨rfl, by rw [consumed, ring_modRing_same]⟩

theorem keepsStaged_refuseDesc (d : Desc) (status : Nat) (s : State) : KeepsStaged s (refuseDesc d status s) :=
  (keepsStaged_consumed s).trans ⟨congrArg Prod.fst (only_writeCpl (ps := [.outbox, .rings, .sessions]) _ status _ _ _ (List.Subset.refl _)
    (Only.refl _ (consumed s)) .staged (by decide)), congrArg Ring.p (ring_writeCpl_other (by decide) _ _ _ _ _ _)⟩

theorem keepsStaged_crcBad (d : Desc) (s : State) : KeepsStaged s (crcBad d s) :=
  (keepsStaged_of_only (only_noteEvent (ps := [.outbox, .queues, .faults]) 0x29 _ (List.Subset.refl _) (Only.refl _ s))
    (by decide) (by decide)).trans (keepsStaged_refuseDesc d 0x10 _)

theorem keepsStaged_startDesc (d : Desc) (obj : Nat) (s : State) : KeepsStaged s (startDesc d obj s) := keepsStaged_consumed s

/-- A descriptor of a row whose action keeps them. -/
theorem keepsStaged_takeDesc (form : DescForm) (d : Desc) {act : Nat → State → State} (ha : ∀ n u, KeepsStaged u (act n u)) (s : State) :
    KeepsStaged s (takeDesc form d act s) := by
  unfold takeDesc
  dsimp only
  split
  · exact .refl s
  · split
    · split
      · exact keepsStaged_refuseDesc d _ s
      · exact keepsStaged_refuseDesc d _ { s with expAlive := BitVec.ofNat 8 (dF d 1 1) + 1 }
    · split
      · exact keepsStaged_crcBad d s
      · split
        · exact .refl s
        · split
          · exact keepsStaged_refuseDesc d _ (acceptAlive d s)
          · split
            · exact keepsStaged_crcBad d s
            · split
              · exact .refl s
              · exact (keepsStaged_startDesc d _ (acceptAlive d s)).trans (ha _ _)

theorem keepsStaged_commitBase (s : State) : KeepsStaged s (commitBase s) :=
  ⟨staged_commitBase s, congrArg Ring.p (ring_congr (only_commitBase s .rings (by decide)) cmdRing)⟩

theorem keepsStaged_acceptCommit (t : TickNo) (excl written : Bool) (id : Nat) (items : List (Nat × List (Nat × Word))) (s : State) :
    KeepsStaged s (acceptCommit t excl written id items s) :=
  ⟨acceptCommit_staged t excl written id items s, congrArg Ring.p (ring_congr (only_acceptCommit
    (ps := [.resolution, .staged, .queues, .faults, .pend, .fronds, .link]) t excl written id items (List.Subset.refl _) (Only.refl _ s)
    .rings (by decide)) cmdRing)⟩

theorem keepsStaged_commitCore (t report max_ : Nat) (excl : Bool) (id : Nat) (didx : Half) (s : State) :
    KeepsStaged s (commitCore t report max_ excl id didx s) := by
  by_cases hr : t < now s + 3 ∨ now s + 1000000 < t
  · rw [commitCore_outOfRange report max_ excl id didx hr]
    exact keepsStaged_complete _ _ _ _
  · obtain ⟨h1, h2⟩ := not_or.mp hr
    rw [commitCore_inRange report max_ excl id didx (Nat.not_lt.mp h1) (Nat.not_lt.mp h2)]
    have base := keepsStaged_commitBase s
    have checked := base.trans (keepsStaged_of_only (only_commitChecked t (now s) excl didx (commitBase s)) (by decide) (by decide))
    split
    · exact base.trans (keepsStaged_complete _ _ _ _)
    · split
      · obtain ⟨res, u, hu, hou, _⟩ := refuseCommit_completes report max_ id (commitFindings excl (commitBase s))
          (commitChecked t (now s) excl didx (commitBase s))
        rw [hu]
        exact checked.trans ((keepsStaged_of_only hou (by decide) (by decide)).trans (keepsStaged_complete _ _ _ _))
      · split
        · exact checked.trans (keepsStaged_complete _ _ _ _)
        · exact checked.trans (keepsStaged_acceptCommit _ _ _ _ _ _)

/-! ## The row -/

/-- The management processor's descriptor carries a CRC that checks (R393). -/
theorem dCrcOk_mpCommit (s : State) (t : Nat) : dCrcOk (mpCommit s t) = true := by
  have len : (mpCommit s t).raw.length = 32 := by simp [mpCommit, padTo]
  rw [dCrcOk, padTo_self len]
  exact payloadCrcOk_withCrc _

/-- The module with a descriptor in the next entry of the command ring, whose P has moved on (R392). -/
def submitted (raw : List Byte) (s : State) : State :=
  modRing cmdRing (fun x => { x with p := x.p + 1, db := x.p + 1 })
    (outp (.hostWrite ((ring s cmdRing).base + BitVec.ofNat 64 (32 * ((ring s cmdRing).p.toNat % ringSize (ring s cmdRing)))) raw) s)

/-- What becomes of the COMMIT once it is submitted. -/
def mpTaken (d : Desc) (s : State) : State :=
  takeDesc commitForm d (fun id s => commitCore (dF d 8 6) 0 0 false id (BitVec.ofNat 16 (frontIdx s - 1).toNat) s) s

theorem exec_autonomousCommit {b : List Byte} {p : BlobParts} {s : State} (hr : running s = true) (ha : s.auto = true)
    (hb : storedBlob s = some b) (hp : blobParts b = some p) : exec .autonomousCommit s = .next
      (mpTaken (mpCommit (stageBlob b p s) (firstTarget (stageBlob b p s)))
        (submitted (mpCommit (stageBlob b p s) (firstTarget (stageBlob b p s))).raw (stageBlob b p s))) := by
  show execAutonomousCommit s = _
  unfold execAutonomousCommit
  rw [if_neg (by simp [hr, ha]), hb]
  dsimp only
  rw [hp]
  rfl

/-- Settles O42: staging the blob leaves the command ring alone, and the COMMIT that is submitted then leaves the staged set and P. -/
theorem autonomousStartCommitsTheStore : Obligations.AutonomousStartCommitsTheStore := by
  unfold Obligations.AutonomousStartCommitsTheStore
  intro b p s u hr ha hb hp hu
  subst hu
  have blob := only_stageBlob_staged b p s
  have cmd : ring (stageBlob b p s) cmdRing = ring s cmdRing := ring_congr (blob .rings (by decide)) cmdRing
  have done := exec_autonomousCommit hr ha hb hp
  obtain ⟨t, ht, kept⟩ := row_AutonomousCommit s
  generalize hd : mpCommit (stageBlob b p s) (firstTarget (stageBlob b p s)) = d at done ⊢
  have taken : KeepsStaged (submitted d.raw (stageBlob b p s)) (mpTaken d (submitted d.raw (stageBlob b p s))) :=
    keepsStaged_takeDesc commitForm d (fun _ _ => keepsStaged_commitCore _ _ _ _ _ _ _) _
  have sent : (submitted d.raw (stageBlob b p s)).outbox <:+ (mpTaken d (submitted d.raw (stageBlob b p s))).outbox :=
    (kept_takeDesc commitForm d _ (fun _ _ k => kept_commitCore _ _ _ _ _ _ k) (Kept.refl _)).out
  obtain ⟨hstaged, hring⟩ := taken
  cases ht.symm.trans done
  refine ⟨_, done, hstaged, kept.cfg, ?_, sent.mem ?_, hd ▸ dCrcOk_mpCommit _ _⟩
  · rw [hring, submitted, ring_modRing_same]
    exact congrArg (fun x : Ring => x.p + 1) cmd
  · rw [← cmd]
    exact List.mem_cons_self

end Sys2Proof.Machine
end

section
/-! SUPPORT. TICK_EDGE: the configuration that is in force after an edge at which a commit applies. -/

namespace Sys2Proof.Machine

/-! ## Before the counter steps -/

/-- The module as the coming edge sees it (R43, R421, R484). -/
def edgeSeen (i : TickIn) (s : State) : State := beforeEdge (deadlinesEdge i.ends (slowRings i.slow s))

theorem only_edgeSeen (i : TickIn) (s : State) : Only [.outbox, .queues, .rings, .descs, .cvu, .faults, .fronds, .period, .refs, .map, .caps,
    .rules, .ports, .sessions, .xfers] s (edgeSeen i s) :=
  only_beforeEdge (by decide) (only_deadlinesEdge _ (by decide) (only_slowRings _ (by decide) (Only.refl _ s)))

section
variable {ps : List Part} {s t : State} (h : Only ps s t) (hp : Part.pend ∉ ps) (ht : Part.tick ∉ ps) (hj : Part.time ∉ ps)
include h hp ht hj

theorem nextTick_of_only : nextTick t = nextTick s := by
  have pend : t.pend = s.pend := h .pend hp
  have started : t.tm.started = s.tm.started := congrArg Prod.fst (h .tick ht)
  have count : t.tm.count = s.tm.count := congrArg (fun q => q.2.1) (h .tick ht)
  have jump : t.tm.jump = s.tm.jump := congrArg (fun q => q.2.2.2.2.2.2.2) (h .time hj)
  unfold nextTick
  rw [pend, started, count, jump]

theorem applying_of_only : applying t = applying s := by
  have pend : t.pend = s.pend := h .pend hp
  unfold applying
  rw [pend, nextTick_of_only h hp ht hj]

end

/-! ## The configuration at the edge -/

/-- A configuration that comes into force at tick n, with ORIGIN moved where it changes TICK_STEPS while 802.1AS drives the counter, so
that the tick numbers go on (R306). -/
def originKept (old new : Tab Word) (n : Nat) : Tab Word :=
  if netSrc old && netSrc new && confF old 0x1010 0 0 7 != confF new 0x1010 0 0 7 then
    setOrigin ((originOf old : Int) + (n : Int) * (250000 * (max 1 (confF old 0x1010 0 0 7) : Nat) : Int) -
      (n : Int) * (250000 * max 1 (confF new 0x1010 0 0 7) : Nat)) new
  else new

theorem cfg_originEpoch (old : Tab Word) (s : State) : (originEpoch old s).cfg = originKept old s.cfg (now s) := by
  unfold originEpoch originKept
  split
  · rfl
  · rfl

theorem cfg_applyEpoch (p : Pending) (excl : List Nat) (s : State) :
    (applyEpoch p excl s).cfg = originKept s.cfg p.conf (now s) := by
  have taken := only_excludeFronds (ps := [.fronds]) excl (List.Subset.refl _) (Only.refl _ (takeConfig p s))
  have hcfg : (excludeFronds excl (takeConfig p s)).cfg = p.conf := taken .cfg (by decide)
  have hnow : now (excludeFronds excl (takeConfig p s)) = now (takeConfig p s) := now_of_only taken (by decide)
  have parts := (kept_partsEpoch s.cfg (kept_sourceEpoch s.cfg (Kept.refl (originEpoch s.cfg (excludeFronds excl (takeConfig p s)))))).cfg
  rw [cfg_originEpoch, hcfg, hnow] at parts
  exact parts

/-- The module once the counter has stepped and the windows have ended. -/
def edgeCounted (i : TickIn) (s : State) : State := windowsEdge (edgeView (edgeSeen i s)) (stepCounter (tickEnds (edgeSeen i s)))

theorem tickEdge_eq (i : TickIn) (s : State) : tickEdge i s = edgeWork i (edgeView (edgeSeen i s))
    (alignFronds (edgeView (edgeSeen i s)) (tickEnds (edgeSeen i s))) (epochEdge (edgeView (edgeSeen i s)) (edgeCounted i s)) := rfl

theorem only_tickEnds_self (s : State) : Only [.outbox, .queues, .rings, .descs, .faults, .fronds, .chans, .snaps, .summary, .features, .refs,
    .caps, .sessions] s (tickEnds s) := only_tickEnds (List.Subset.refl _) (Only.refl _ s)

theorem cfg_edgeCounted (i : TickIn) (s : State) : (edgeCounted i s).cfg = s.cfg :=
  (only_windowsEdge (ps := [.outbox, .queues, .faults, .fronds, .tick, .time, .age]) _ (by decide)
    (only_stepCounter (by decide) (Only.refl _ _)) .cfg (by decide)).trans
    ((only_tickEnds_self _ .cfg (by decide)).trans (only_edgeSeen i s .cfg (by decide)))

theorem count_edgeCounted (i : TickIn) (s : State) : (edgeCounted i s).tm.count = nextTick s := by
  obtain ⟨_, _, stepped, _⟩ := ticked_stepCounter (tickEnds (edgeSeen i s))
  have windows := only_windowsEdge (ps := [.outbox, .queues, .faults, .fronds]) (edgeView (edgeSeen i s)) (List.Subset.refl _)
    (Only.refl _ (stepCounter (tickEnds (edgeSeen i s))))
  calc (edgeCounted i s).tm.count = (stepCounter (tickEnds (edgeSeen i s))).tm.count := count_of_only windows (by decide)
    _ = nextTick (tickEnds (edgeSeen i s)) := stepped
    _ = nextTick (edgeSeen i s) := nextTick_of_only (only_tickEnds_self _) (by decide) (by decide) (by decide)
    _ = nextTick s := nextTick_of_only (only_edgeSeen i s) (by decide) (by decide) (by decide)

/-- The configuration in force after an edge at which a commit applies. -/
theorem cfg_tickEdge_applies {i : TickIn} {s : State} {p : Pending} {excl : List Nat} (h : applying s = some (p, excl)) :
    (tickEdge i s).cfg = originKept s.cfg p.conf (nextTick s).toNat := by
  have view : (edgeView (edgeSeen i s)).ap = some (p, excl) :=
    (applying_of_only (only_edgeSeen i s) (by decide) (by decide) (by decide)).trans h
  have work : (tickEdge i s).cfg = (epochEdge (edgeView (edgeSeen i s)) (edgeCounted i s)).cfg := by
    rw [tickEdge_eq]
    exact only_edgeWork (ps := [.outbox, .halt, .time, .checkIn, .pins, .sync, .queues, .rings, .descs, .faults, .fronds, .chans, .period,
      .summary, .features, .refs, .map, .caps, .rules, .measured, .security, .ports, .sessions]) i _ _ (List.Subset.refl _) (Only.refl _ _)
      .cfg (by decide)
  have epoch : epochEdge (edgeView (edgeSeen i s)) (edgeCounted i s) = applyEpoch p excl (edgeCounted i s) := by
    rw [epochEdge, view]
  rw [work, epoch, cfg_applyEpoch, cfg_edgeCounted, now, count_edgeCounted]

theorem exec_tickEdge {i : TickIn} {s : State} (h : running s = true) : exec (.tickEdge i) s = .next (inOneCycle (tickEdge i) s) :=
  if_pos h

/-! ## The counterexample -/

/-- 802.1AS drives the counter, with TICK_STEPS at its reset value. -/
def netTimed : Tab Word := confPut [] 0x1018 0 1

/-- The same with TICK_STEPS 2. -/
def netTimedFaster : Tab Word := confPut netTimed 0x1010 0 2

/-- A running module at tick 100 with a commit of that change resolved for tick 101. -/
def stepsChange : State :=
  { phase := .running, tm := { started := true, count := 100 }, cfg := netTimed,
    pend := some { t := 101, c := 90, excl := false, tag := 3, conf := netTimedFaster, id := 0, affected := [], resolved := some (true, []) } }

/-- An edge at which nothing is amiss. -/
def quietEdge : TickIn := { net := none, temp := 0, vlog := 0, vlogIn := 0, fsupIn := [], loads := [], lcBad := false, otpBad := false }

/-- ORIGIN moves from 0 to 101 × (1,000,000 − 500,000) ns. -/
theorem originKept_stepsChange : conf (originKept netTimed netTimedFaster 101) 0x1020 0 = 50500000 ∧ conf netTimedFaster 0x1020 0 = 0 := by
  decide +kernel

/-- Refutes O60: a commit that changes TICK_STEPS while 802.1AS drives the counter comes into force with another ORIGIN than it was
committed with (R306), so that the configuration in force is not the committed one. -/
theorem not_tickEdgesStepTheCounterAndApplyCommits : ¬ Obligations.TickEdgesStepTheCounterAndApplyCommits := by
  unfold Obligations.TickEdgesStepTheCounterAndApplyCommits
  intro h
  obtain ⟨t, ht, _, _, _, _, applies, _⟩ := h quietEdge stepsChange rfl
  have after : t = inOneCycle (tickEdge quietEdge) stepsChange := Host.Outcome.next.inj (ht.symm.trans (exec_tickEdge rfl))
  subst after
  obtain ⟨u, before, after⟩ := only_around (tickEdge quietEdge) stepsChange
  have pending : applying stepsChange = some (_, []) := rfl
  have seen := (applying_of_only before (by decide) (by decide) (by decide)).trans pending
  have force : (inOneCycle (tickEdge quietEdge) stepsChange).cfg = originKept netTimed netTimedFaster 101 := by
    rw [after .cfg (by decide), cfg_tickEdge_applies seen, nextTick_of_only before (by decide) (by decide) (by decide),
      before .cfg (by decide)]
    rfl
  obtain ⟨moved, committed⟩ := originKept_stepsChange
  rw [← force, (applies _ _ pending).1] at moved
  exact absurd (committed.symm.trans moved) (by decide)

end Sys2Proof.Machine
end

section
/-! SUPPORT. The downlink superframe: what it sends to every frond and what it leaves in the core's record of it; the frames check. -/

namespace Sys2Proof.Machine

/-! ## Frames (R332, R333) -/

/-- A frame with its CRC passes the receiver's checks. -/
theorem frameOk_frameBytes (linkB : Bool) (stamp : Nat) (a fid : Byte) (payload : List Byte) {lenOk : Nat → Bool}
    (h : lenOk payload.length = true) : frameOk ⟨linkB, true, stamp, frameBytes a fid payload⟩ fid lenOk = some (a, payload) := by
  have low : BitVec.ofNat 8 (crc16 (a :: fid :: payload)).toNat = BitVec.ofNat 8 ((crc16 (a :: fid :: payload)).toNat % 256) := by
    apply BitVec.eq_of_toNat_eq
    simp
  have lt : (crc16 (a :: fid :: payload)).toNat < 65536 := (crc16 _).isLt
  show frameOk ⟨linkB, true, stamp, a :: fid :: (payload ++ [BitVec.ofNat 8 ((crc16 (a :: fid :: payload)).toNat / 256),
    BitVec.ofNat 8 (crc16 (a :: fid :: payload)).toNat])⟩ fid lenOk = _
  generalize hc : (crc16 (a :: fid :: payload)).toNat = c at low lt ⊢
  have split : payload ++ [BitVec.ofNat 8 (c / 256), BitVec.ofNat 8 c] = payload ++ (le 1 (c / 256) ++ le 1 (c % 256)) := by
    rw [low]
    rfl
  have len : (payload ++ (le 1 (c / 256) ++ le 1 (c % 256))).length = payload.length + 2 := by simp
  have hi : getLE (payload ++ (le 1 (c / 256) ++ le 1 (c % 256))) payload.length 1 = c / 256 := getLE_mid _ _ (by omega)
  have lo : getLE (payload ++ (le 1 (c / 256) ++ le 1 (c % 256))) (payload.length + 1) 1 = c % 256 := by
    have e := getLE_end (payload ++ le 1 (c / 256)) (n := 1) (v := c % 256) (by omega)
    rwa [List.append_assoc, List.length_append, length_le] at e
  have crc : c = 256 * (c / 256) + c % 256 := (Nat.div_add_mod c 256).symm
  rw [split]
  unfold frameOk
  dsimp only
  rw [len, Nat.add_sub_cancel, show payload.length + 2 - 1 = payload.length + 1 from rfl, hi, lo, List.take_left, hc, h, ← crc]
  simp

theorem length_flatten_le4 {α : Type} (l : List α) (w : α → Nat) : ((l.map (fun x => le 4 (w x))).flatten).length = 4 * l.length := by
  induction l with
  | nil => rfl
  | cons x l ih => simp only [List.map_cons, List.flatten_cons, List.length_append, length_le, List.length_cons, ih]; omega

@[simp] theorem length_pair8 (w : Word) : (pair8 w).length = 8 := by simp [pair8]

@[simp] theorem length_padTo (n : Nat) (b : List Byte) : (padTo n b).length = n := by
  simp only [padTo, List.length_append, List.length_take, List.length_replicate]
  omega

theorem length_outWords (x : CFrond) : (outWords x).length = 16 := by simp [outWords]

theorem length_d0Payload (s : State) (f : Nat) (x : CFrond) : (d0Payload s f x).length = 113 := by
  simp only [d0Payload, List.length_append, length_le, length_pair8, length_flatten_le4, length_outWords, List.length_replicate, List.length_cons,
    List.length_nil]

theorem length_d1Payload (s : State) (f : Nat) (x : CFrond) : (d1Payload s f x).length = 82 := by
  simp only [d1Payload, List.length_append, length_le, length_pair8, length_flatten_le4, length_outWords]

theorem length_d2Payload (l : List (Nat × Nat × Word)) (ins : Nat) : (d2Payload l ins).length = 344 - min 214 ins := by
  simp only [d2Payload, List.length_append, length_le, length_padTo, List.length_replicate]
  omega

/-! ## Work that goes through the fronds -/

/-- Turns that leave a view of the state leave it together. -/
theorem view_foldl {σ α : Type} (v : σ → α) {F : σ → Nat → σ} {f : Nat} (h : ∀ s j, f ≠ j → v (F s j) = v s) :
    ∀ (l : List Nat) (s : σ), f ∉ l → v (l.foldl F s) = v s
  | [], _, _ => rfl
  | j :: l, s, hf => by
    obtain ⟨hj, hl⟩ := not_or.mp (fun e => hf (List.mem_cons.mpr e))
    exact (view_foldl v h l (F s j) hl).trans (h s j hj)

/-- Work through 0 to n - 1 comes to f once, with those before it done and those after it to do. -/
theorem range_at {n f : Nat} (hf : f < n) : ∃ a b, List.range n = a ++ f :: b ∧ f ∉ a ∧ f ∉ b := by
  obtain ⟨a, b, e⟩ := List.append_of_mem (List.mem_range.mpr hf)
  have nodup : (a ++ f :: b).Nodup := e ▸ List.nodup_range
  rw [List.nodup_append, List.nodup_cons] at nodup
  obtain ⟨_, ⟨hb, _⟩, apart⟩ := nodup
  exact ⟨a, b, e, fun ha => apart f ha f List.mem_cons_self rfl, hb⟩

/-- What work through all fronds leaves of a view that only the turn of f changes: what that turn does with it. -/
theorem view_foldl_all {α : Type} (v : State → α) {F : State → Nat → State} {f : Nat} (hf : f < 32) (h : ∀ s j, f ≠ j → v (F s j) = v s)
    (s : State) : ∃ a b, allFronds = a ++ f :: b ∧ v (a.foldl F s) = v s ∧ v (allFronds.foldl F s) = v (F (a.foldl F s) f) := by
  obtain ⟨a, b, e, ha, hb⟩ := range_at hf
  refine ⟨a, b, e, view_foldl v h a s ha, ?_⟩
  rw [allFronds, e, List.foldl_append, List.foldl_cons]
  exact view_foldl v h b _ hb

/-! ## One frond's frames (R338, R344, R345) -/

@[simp] theorem frond_sendDown_same (f : Nat) (fid : Byte) (p : List Byte) (s : State) :
    frond (sendDown f fid p s) f = { frond s f with downAlive := nextDown s f } :=
  frond_modFrond_same f (fun x => { x with downAlive := nextDown s f }) s

theorem frond_sendDown_other {f j : Nat} (h : j ≠ f) (fid : Byte) (p : List Byte) (s : State) : frond (sendDown f fid p s) j = frond s j :=
  frond_modFrond_other h (fun x => { x with downAlive := nextDown s f }) s

/-- What is on the way with superframe n: the values that waited, beside those that were on their way (R345). -/
def carriedOut (n : TickNo) (x : CFrond) : Tab Carry :=
  tmap (x.new.foldl (fun (o : Tab Carry) e => tput o e.1 { e.2 with repl := [] }) x.out) (fun _ c => { c with sent := c.sent ++ [n] })

/-- The OUTPUT_SETs that the waiting values replace complete (R426). -/
def replaceOuts (f : Nat) (s : State) : State :=
  (frond s f).new.foldl (fun s e =>
    supersede (16 * f + e.1) (((frond s f).out.find? (fun o => o.1 == e.1)).map (·.2))
      (e.2.repl.foldl (fun s id => complete id 0x02 (outResult 0 (valueOf s (16 * f + e.1))) s) s)) s

theorem only_replaceOuts (f : Nat) (s : State) : Only [.outbox, .rings, .descs, .sessions] s (replaceOuts f s) :=
  Only.foldl (fun _ _ h => only_supersede _ _ (List.Subset.refl _)
    (Only.foldl (fun _ _ k => only_complete _ _ _ (List.Subset.refl _) k) _ h)) _ (Only.refl _ s)

/-- A frond's turn in a superframe: three frames of the right lengths, between changes of the core's record of that frond. -/
theorem downFrond_eq (ins : List Nat) (s : State) (f : Nat) : ∃ (v : State) (p0 p1 p2 : List Byte) (d : Option Dist),
    downFrond ins s f = modFrond f (fun x => { x with dist := d }) (sendDown f 0x12 p2 (sendDown f 0x11 p1 (sendDown f 0x10 p0 v))) ∧
    (∀ j, j ≠ f → frond v j = frond s j) ∧ (frond v f).new = [] ∧ (frond v f).out = carriedOut s.tm.count (frond s f) ∧
    p0.length = 113 ∧ p1.length = 82 ∧ p2.length = 344 - min 214 (nthD ins f 0) := by
  have replaced := frond_of_only (only_replaceOuts f s) (by decide)
  refine ⟨_, _, _, _, _, rfl, fun j hj => ?_, ?_, ?_, length_d0Payload _ _ _, length_d1Payload _ _ _, ?_⟩
  · rw [frond_modFrond_other hj, frond_modFrond_other hj]
    exact replaced j
  · rw [frond_modFrond_same, frond_modFrond_same]
  · rw [frond_modFrond_same, frond_modFrond_same]
    exact congrArg (carriedOut s.tm.count) (replaced f)
  · split
    · exact length_d2Payload _ _
    · exact length_d2Payload _ _

theorem frond_downFrond_other {ins : List Nat} {f j : Nat} (h : j ≠ f) (s : State) : frond (downFrond ins s f) j = frond s j := by
  obtain ⟨v, p0, p1, p2, d, e, other, _⟩ := downFrond_eq ins s f
  rw [e, frond_modFrond_other h, frond_sendDown_other h, frond_sendDown_other h, frond_sendDown_other h, other j h]

theorem frond_downFrond_same (ins : List Nat) (f : Nat) (s : State) :
    (frond (downFrond ins s f) f).new = [] ∧ (frond (downFrond ins s f) f).out = carriedOut s.tm.count (frond s f) := by
  obtain ⟨v, p0, p1, p2, d, e, _, new, out, _⟩ := downFrond_eq ins s f
  rw [e, frond_modFrond_same, frond_sendDown_same, frond_sendDown_same, frond_sendDown_same]
  exact ⟨new, out⟩

/-- Three frames that check go down to the frond. -/
def FramesSent (ins : List Nat) (f : Nat) (l : List Output) : Prop :=
  ∃ b0 b1 b2, Output.down f 0x10 b0 ∈ l ∧ Output.down f 0x11 b1 ∈ l ∧ Output.down f 0x12 b2 ∈ l ∧
    frameOk ⟨false, true, 0, b0⟩ 0x10 (fun n => n == 113) ≠ none ∧ frameOk ⟨false, true, 0, b1⟩ 0x11 (fun n => n == 82) ≠ none ∧
    frameOk ⟨false, true, 0, b2⟩ 0x12 (fun n => n == 344 - min 214 (nthD ins f 0)) ≠ none

theorem FramesSent.mono {ins : List Nat} {f : Nat} {l m : List Output} (h : FramesSent ins f l) (k : l <:+ m) : FramesSent ins f m := by
  obtain ⟨b0, b1, b2, h0, h1, h2, ok⟩ := h
  exact ⟨b0, b1, b2, k.mem h0, k.mem h1, k.mem h2, ok⟩

theorem outbox_sendDown (f : Nat) (fid : Byte) (p : List Byte) (s : State) :
    (sendDown f fid p s).outbox = .down f fid (frameBytes (nextDown s f) fid p) :: s.outbox := rfl

theorem framesSent_downFrond (ins : List Nat) (f : Nat) (s : State) : FramesSent ins f (downFrond ins s f).outbox := by
  obtain ⟨v, p0, p1, p2, d, e, _, _, _, l0, l1, l2⟩ := downFrond_eq ins s f
  have checks : ∀ (a fid : Byte) (p : List Byte) (n : Nat), p.length = n →
      frameOk ⟨false, true, 0, frameBytes a fid p⟩ fid (fun m => m == n) ≠ none := fun a fid p n h => by
    rw [frameOk_frameBytes false 0 a fid p (by simpa using h)]
    exact Option.some_ne_none _
  rw [e, modFrond_outbox, outbox_sendDown, outbox_sendDown, outbox_sendDown]
  exact ⟨_, _, _, .tail _ (.tail _ (.head _)), .tail _ (.head _), .head _, checks _ _ _ _ l0, checks _ _ _ _ l1, checks _ _ _ _ l2⟩

theorem tget_tmap_tput {α : Type} (d : α) (g : Nat → α → α) (k : Nat) (v : α) : ∀ t : Tab α, tget d (tmap (tput t k v) g) k = g k v
  | [] => by simp [tput, tmap, tget]
  | (j, w) :: r => by
    unfold tput
    split
    · simp [tmap, tget]
    · split
      · simp [tmap, tget]
      · next h1 h2 =>
        have ih := tget_tmap_tput d g k v r
        simp only [tmap] at ih ⊢
        rw [List.map_cons, tget, if_neg h2, if_neg h1, ih]

/-- A single waiting value is the one on its way. -/
theorem carriedOut_single {n : TickNo} {x : CFrond} {p : Nat} {c : Carry} (h : x.new = [(p, c)]) (d : Carry) :
    tget d (carriedOut n x) p = { c with sent := c.sent ++ [n], repl := [] } := by
  rw [carriedOut, h]
  exact tget_tmap_tput d _ p _ _

/-! ## The superframe -/

/-- From s to t the output values of every frond, those that wait and those on their way, are kept. -/
def SameOutputs (s t : State) : Prop := ∀ f, (frond t f).new = (frond s f).new ∧ (frond t f).out = (frond s f).out

theorem SameOutputs.trans {s t u : State} (a : SameOutputs s t) (b : SameOutputs t u) : SameOutputs s u :=
  fun f => ⟨(b f).1.trans (a f).1, (b f).2.trans (a f).2⟩

theorem sameOutputs_of_only {ps : List Part} {s t : State} (h : Only ps s t) (hp : Part.fronds ∉ ps) : SameOutputs s t := fun f => by
  rw [frond_of_only h hp f]
  exact ⟨rfl, rfl⟩

theorem sameOutputs_modFrond {f : Nat} {g : CFrond → CFrond} (h : ∀ x, (g x).new = x.new ∧ (g x).out = x.out) (s : State) :
    SameOutputs s (modFrond f g s) := fun j => by
  by_cases e : j = f
  · rw [e, frond_modFrond_same]
    exact h _
  · rw [frond_modFrond_other e]
    exact ⟨rfl, rfl⟩

theorem sameOutputs_foldl {F : State → Nat → State} (h : ∀ s j, SameOutputs s (F s j)) : ∀ (l : List Nat) (s : State),
    SameOutputs s (l.foldl F s)
  | [], _ => fun _ => ⟨rfl, rfl⟩
  | j :: l, s => (h s j).trans (sameOutputs_foldl h l (F s j))

theorem sameOutputs_startNoCfg (s : State) (f : Nat) : SameOutputs s (startNoCfg s f) := by
  unfold startNoCfg
  dsimp only
  split
  · refine (sameOutputs_of_only (only_takeTag (List.Subset.refl _) (Only.refl [.resolution] s)) (by decide)).trans (sameOutputs_modFrond ?_ _)
    exact fun _ => ⟨rfl, rfl⟩
  · exact fun _ => ⟨rfl, rfl⟩

/-- The completion of an applied commit, after its missing fronds are marked. -/
def finishReport (p : Pending) (excl late : List Nat) (s : State) : State :=
  let ow := p.owOff.filter (fun ch => !excl.contains (ch / 16))
  let s := if ow = [] then s else outp (.openWireOff p.id ow) s
  let s := complete p.id 0 (le 6 p.t.toNat ++ le 2 s.tm.epoch.toNat ++ le 4 (mask excl) ++ le 4 (mask late)) s
  commitEvent false p (mask excl) (mask late) { s with pend := none }

theorem only_setPend (s : State) (p : Option Pending) : Only [.pend] s { s with pend := p } := by
  intro q hq
  cases q
  case pend => exact absurd (List.mem_singleton_self _) hq
  all_goals rfl

theorem only_finishReport (p : Pending) (excl late : List Nat) (s : State) :
    Only [.outbox, .rings, .descs, .sessions, .pend, .queues] s (finishReport p excl late s) :=
  only_commitEvent _ _ _ _ (by decide) ((only_complete (ps := [.outbox, .rings, .descs, .sessions, .pend, .queues]) _ _ _ (by decide)
    (Only.ite (Only.refl _ s) (only_outp _ (by decide) (Only.refl _ s)))).trans ((only_setPend _ none).mono (by decide)))

theorem sameOutputs_finishApplied (p : Pending) (excl : List Nat) (s : State) : SameOutputs s (finishApplied p excl s) := by
  refine SameOutputs.trans ?_ (sameOutputs_of_only (only_finishReport p excl _ _) (by decide))
  exact sameOutputs_foldl (fun u f => sameOutputs_modFrond (g := fun x => { x with late := true }) (fun _ => ⟨rfl, rfl⟩) u) _ s

theorem sameOutputs_tryFinish (s : State) : SameOutputs s (tryFinish true s) := by
  unfold tryFinish
  split
  · exact fun _ => ⟨rfl, rfl⟩
  · split
    · split
      · exact sameOutputs_finishApplied _ _ s
      · exact fun _ => ⟨rfl, rfl⟩
    · exact fun _ => ⟨rfl, rfl⟩

/-- The module when the fronds' frames leave: an applied commit has completed, a frond without configuration is being given one. -/
def superframeReady (s : State) : State := allFronds.foldl startNoCfg (tryFinish true s)

theorem superframeReady_outputs (s : State) : SameOutputs s (superframeReady s) :=
  (sameOutputs_tryFinish s).trans (sameOutputs_foldl sameOutputs_startNoCfg _ _)

theorem kept_superframeReady (s : State) : Kept s (superframeReady s) := by
  unfold superframeReady
  exact Kept.foldl (fun _ f h => kept_startNoCfg f h) allFronds (kept_tryFinish true (Kept.refl s))

/-- An aborted commit ends with the superframe (Table 12-10). -/
def endAborted (s : State) : State :=
  match s.pend with
  | some p =>
    (match p.resolved with
     | some (false, un) =>
       commitEvent true p (mask un) 0 (complete p.id 0x25 (le 6 p.t.toNat ++ [0, 0] ++ le 4 (mask un)) { s with pend := none })
     | _ => s)
  | none => s

theorem sendSuperframe_eq (ins : List Nat) (s : State) :
    sendSuperframe ins s = endAborted (allFronds.foldl (downFrond ins) (superframeReady s)) := by
  unfold sendSuperframe superframeReady endAborted
  generalize allFronds = l
  rfl

theorem only_endAborted (s : State) : Only [.outbox, .rings, .descs, .sessions, .pend, .queues] s (endAborted s) := by
  unfold endAborted
  split
  · split
    · exact only_commitEvent _ _ _ _ (by decide) (only_complete _ _ _ (by decide) ((only_setPend s none).mono (by decide)))
    · exact Only.refl _ s
  · exact Only.refl _ s

theorem endAborted_pend {s : State} {p : Pending} {un : List Nat} (hp : s.pend = some p) (hr : p.resolved = some (false, un)) :
    (endAborted s).pend = none := by
  unfold endAborted
  rw [hp]
  dsimp only
  rw [hr]
  exact (only_commitEvent (ps := [.queues]) _ _ _ _ (List.Subset.refl _) (Only.refl _ _) .pend (by decide)).trans
    (only_complete_self _ _ _ _ .pend (by decide))

theorem kept_setPend (s : State) (p : Option Pending) : Kept s { s with pend := p } :=
  ⟨rfl, rfl, rfl, rfl, rfl, rfl, List.suffix_refl _, id, id, rfl, id⟩

theorem kept_endAborted (s : State) : Kept s (endAborted s) := by
  unfold endAborted
  split
  · split
    · exact kept_commitEvent _ _ _ _ (kept_complete _ _ _ (kept_setPend s none))
    · exact Kept.refl s
  · exact Kept.refl s

/-- What a superframe leaves of frond f: nothing waits, the value that waited is on its way, and the frames that check are sent. -/
theorem sendSuperframe_frond (ins : List Nat) (s : State) {f : Nat} (hf : f < 32) :
    (frond (sendSuperframe ins s) f).new = [] ∧ FramesSent ins f (sendSuperframe ins s).outbox ∧
    ∀ p c, (frond s f).new = [(p, c)] → ∀ d, tget d (frond (sendSuperframe ins s) f).out p = { c with sent := c.sent ++ [s.tm.count], repl := [] } := by
  obtain ⟨a, b, split, before, after⟩ := view_foldl_all (frond · f) hf (fun u j h => frond_downFrond_other h u) (superframeReady s)
  have ended := frond_of_only (only_endAborted (allFronds.foldl (downFrond ins) (superframeReady s))) (by decide) f
  have keptBefore : Kept s (a.foldl (downFrond ins) (superframeReady s)) :=
    Kept.foldl (fun _ f h => kept_downFrond ins f h) a (kept_superframeReady s)
  have keptAfter : Kept (downFrond ins (a.foldl (downFrond ins) (superframeReady s)) f) (sendSuperframe ins s) := by
    rw [sendSuperframe_eq, split, List.foldl_append, List.foldl_cons]
    exact (Kept.foldl (fun _ f h => kept_downFrond ins f h) b (Kept.refl _)).trans (kept_endAborted _)
  obtain ⟨new, out⟩ := frond_downFrond_same ins f (a.foldl (downFrond ins) (superframeReady s))
  obtain ⟨readyNew, _⟩ := superframeReady_outputs s f
  rw [sendSuperframe_eq] at keptAfter ⊢
  rw [ended, after]
  refine ⟨new, (framesSent_downFrond ins f _).mono keptAfter.out, fun p c h d => ?_⟩
  rw [out, keptBefore.count, before]
  exact carriedOut_single (readyNew.trans h) d

/-- No superframe before this one ends a commit that aborts. -/
theorem superframeReady_pend {s : State} {p : Pending} {un : List Nat} (hp : s.pend = some p) (hr : p.resolved = some (false, un)) :
    (superframeReady s).pend = some p := by
  have wait : tryFinish true s = s := by
    unfold tryFinish
    rw [hp]
    dsimp only
    rw [hr]
  have started := Only.foldl (ps := [.resolution, .fronds]) (fun _ f h => only_startNoCfg f (List.Subset.refl _) h) allFronds (Only.refl _ s)
  unfold superframeReady
  rw [wait]
  exact (started .pend (by decide)).trans hp

theorem sendSuperframe_pend {ins : List Nat} {s : State} {p : Pending} {un : List Nat} (hp : s.pend = some p)
    (hr : p.resolved = some (false, un)) : (sendSuperframe ins s).pend = none := by
  have sent := Only.foldl (ps := [.outbox, .rings, .descs, .fronds, .sessions]) (fun _ f h => only_downFrond ins f (List.Subset.refl _) h)
    allFronds (Only.refl _ (superframeReady s))
  rw [sendSuperframe_eq]
  exact endAborted_pend ((sent .pend (by decide)).trans (superframeReady_pend hp hr)) hr

/-! ## The period boundary (R40, R41) -/

theorem only_clearLinks (s : State) (f : Nat) :
    Only [.queues, .faults] s ([false, true].foldl (fun s l => clearSrc (linkSrc f l) 2 (clearSrc (linkSrc f l) 1 s)) s) :=
  Only.foldl (fun _ _ h => only_clearSrc _ _ (List.Subset.refl _) (only_clearSrc _ _ (List.Subset.refl _) h)) _ (Only.refl _ s)

/-- A link's counts of the period start at 0. -/
def freshPeriod (x : CFrond) : CFrond :=
  { x with a := { x.a with rej := 0, diff := 0 }, b := { x.b with rej := 0, diff := 0 }, snapLost := 0 }

/-- A frond's turn at a period boundary. -/
def frondBoundary (s : State) (f : Nat) : State :=
  [false, true].foldl (fun s l => clearSrc (linkSrc f l) 2 (clearSrc (linkSrc f l) 1 s)) (modFrond f freshPeriod s)

theorem frond_frondBoundary_same (f : Nat) (s : State) : frond (frondBoundary s f) f = freshPeriod (frond s f) :=
  (frond_of_only (only_clearLinks _ f) (by decide) f).trans (frond_modFrond_same _ _ _)

theorem frond_frondBoundary_other {f j : Nat} (h : j ≠ f) (s : State) : frond (frondBoundary s f) j = frond s j :=
  (frond_of_only (only_clearLinks _ f) (by decide) j).trans (frond_modFrond_other h _ _)

theorem only_frondBoundary (s : State) (f : Nat) : Only [.queues, .faults, .fronds] s (frondBoundary s f) :=
  (only_modFrond f freshPeriod (by decide) (Only.refl _ s)).trans ((only_clearLinks _ f).mono (by decide))

/-- The work of the module's own units at a period boundary, before the links' counts. -/
def unitsBoundary (read : Nat) (s : State) : State := latchLost (rulesBoundary (mapBoundary (mapCut read s)))

theorem only_unitsBoundary (read : Nat) (s : State) :
    Only [.outbox, .queues, .rings, .descs, .map, .rules, .sessions, .xfers] s (unitsBoundary read s) :=
  only_latchLost (by decide) (only_rulesBoundary (by decide) (only_mapBoundary (by decide) (only_mapCut read (by decide) (Only.refl _ s))))

/-- The rest of a period boundary: the counts of the references, rings and ports, and the period's last tick and epoch for the latch. -/
def closePeriod (s : State) : State :=
  { s with refs := tmap s.refs (fun _ r => { r with skipped := 0, extra := 0, losses := 0 }),
           caps := tmap s.caps (fun _ r => { r with ignored := 0 }),
           net := { s.net with p0 := { s.net.p0 with badRx := 0 }, p1 := { s.net.p1 with badRx := 0 } },
           noted := [], boundary := some (s.tm.count, s.tm.epoch) }

theorem periodWork_eq (read : Nat) (s : State) :
    periodWork read s = msi 19 (closePeriod (allFronds.foldl frondBoundary (unitsBoundary read s))) := by
  unfold periodWork unitsBoundary
  generalize allFronds = l
  rfl

/-- What the units' and the fronds' work at a period boundary leaves. -/
theorem only_beforeClose (read : Nat) (s : State) :
    Only [.outbox, .queues, .rings, .descs, .faults, .fronds, .map, .rules, .sessions, .xfers] s
      (allFronds.foldl frondBoundary (unitsBoundary read s)) :=
  Only.foldl (fun _ f h => h.trans ((only_frondBoundary _ f).mono (by decide))) _ ((only_unitsBoundary read s).mono (by decide))

theorem frond_closePeriod (s : State) (f : Nat) : frond (msi 19 (closePeriod s)) f = frond s f :=
  frond_of_only (only_msi (ps := [.outbox]) 19 (List.Subset.refl _) (Only.refl _ (closePeriod s))) (by decide) f

theorem periodWork_frond (read : Nat) (s : State) {f : Nat} (hf : f < 32) : ∃ x, frond (periodWork read s) f = freshPeriod x := by
  obtain ⟨a, _, _, _, after⟩ := view_foldl_all (frond · f) hf (fun u j h => frond_frondBoundary_other h u) (unitsBoundary read s)
  rw [periodWork_eq, frond_closePeriod, after, frond_frondBoundary_same]
  exact ⟨_, rfl⟩

theorem periodWork_close (read : Nat) (s : State) :
    (periodWork read s).boundary = some (s.tm.count, s.tm.epoch) ∧
    (periodWork read s).net.p0 = { s.net.p0 with badRx := 0 } ∧ (periodWork read s).net.p1 = { s.net.p1 with badRx := 0 } := by
  have before := only_beforeClose read s
  rw [periodWork_eq]
  generalize allFronds.foldl frondBoundary (unitsBoundary read s) = u at before ⊢
  have msi := only_msi (ps := [.outbox]) 19 (List.Subset.refl _) (Only.refl _ (closePeriod u))
  have period := congrArg Prod.fst (msi .period (by decide))
  have ports := msi .ports (by decide)
  have kept := before .ports (by decide)
  have tick := before .tick (by decide)
  simp only [Part.same, Prod.mk.injEq] at period ports kept tick
  obtain ⟨p0, p1⟩ := ports
  obtain ⟨k0, k1⟩ := kept
  obtain ⟨_, count, _, _, epoch, _⟩ := tick
  rw [period, p0, p1]
  unfold closePeriod
  dsimp only
  rw [count, epoch, k0, k1]
  exact ⟨rfl, rfl, rfl⟩

/-! ## The resolution of a commit (R319 to R322) -/

/-- The module when commit p is resolved: to apply with the fronds `un` left out, or to abort for them. -/
def resolveAs (p : Pending) (apply : Bool) (un : List Nat) (s : State) : State :=
  let s' := { s with tm := { s.tm with resTag := p.tag,
                                       resEpoch := if apply then (if s.tm.epoch = 0xFFFF then 1 else s.tm.epoch + 1) else s.tm.epoch },
                     pend := some { p with resolved := some (apply, un) } }
  allFronds.foldl (fun s f => modFrond f (fun x => { x with res := if apply && !un.contains f then 1 else 2, dist := none }) s) s'

theorem only_resolveAs (p : Pending) (apply : Bool) (un : List Nat) (s : State) :
    Only [.resolution, .pend, .fronds] s (resolveAs p apply un s) := by
  refine Only.foldl (fun _ f h => only_modFrond f _ (by decide) h) _ (fun q hq => ?_)
  cases q
  case resolution => exact absurd (by decide) hq
  case pend => exact absurd (by decide) hq
  all_goals rfl

theorem resolveAs_commit (p : Pending) (apply : Bool) (un : List Nat) (s : State) :
    (resolveAs p apply un s).pend = some { p with resolved := some (apply, un) } ∧ (resolveAs p apply un s).tm.resTag = p.tag ∧
    (resolveAs p apply un s).tm.resEpoch = if apply then (if s.tm.epoch = 0xFFFF then 1 else s.tm.epoch + 1) else s.tm.epoch := by
  unfold resolveAs
  dsimp only
  generalize hu : State.mk .. = u
  have told := Only.foldl (ps := [.fronds]) (fun v f h => only_modFrond f (fun x : CFrond =>
    { x with res := if apply && !un.contains f then 1 else 2, dist := none }) (List.Subset.refl _) h) allFronds (Only.refl _ u)
  have res := told .resolution (by decide)
  simp only [Part.same, Prod.mk.injEq] at res
  obtain ⟨tag, epoch, _⟩ := res
  rw [told .pend (by decide), tag, epoch, ← hu]
  exact ⟨rfl, rfl, rfl⟩

theorem frond_resolveAs (p : Pending) (apply : Bool) (un : List Nat) (s : State) {f : Nat} (hf : f < 32) :
    frond (resolveAs p apply un s) f = { frond s f with res := if apply && !un.contains f then 1 else 2, dist := none } := by
  obtain ⟨a, _, _, before, after⟩ := view_foldl_all (frond · f) hf (F := fun s f => modFrond f (fun x : CFrond =>
    { x with res := if apply && !un.contains f then 1 else 2, dist := none }) s) (fun u j h => frond_modFrond_other h _ u) _
  unfold resolveAs
  rw [after, frond_modFrond_same, before]
  rfl

/-- In tick T-1 of an unresolved commit that every affected frond acknowledged, or that may not leave any out, its fate is decided. -/
theorem commitResolve_eq {s : State} {p : Pending} (hp : s.pend = some p) (running : running s = true) (open_ : p.resolved = none)
    (now : s.tm.count + 1 = p.t) (decided : unacked s p = [] ∨ p.excl = false) :
    exec .commitResolve s = .next (resolveAs p (unacked s p == []) (unacked s p) s) := by
  show execCommitResolve s = _
  unfold execCommitResolve resolveAs
  rw [hp]
  dsimp only
  rw [running, open_, now]
  generalize allFronds = l
  rcases decided with all | noExclusion
  · simp [all]
  · cases unacked s p <;> simp [noExclusion]

theorem commitResolve_away {s : State} {p : Pending} (hp : s.pend = some p) (away : s.tm.count + 1 ≠ p.t) :
    exec .commitResolve s = .next s := by
  show execCommitResolve s = _
  unfold execCommitResolve
  rw [hp]
  dsimp only
  rw [decide_eq_true away, Bool.or_true, if_pos rfl]

/-- A superframe of running firmware is its work in one cycle, which leaves the fronds and the commit to that work. -/
theorem downlinkSuperframe_next (ins : List Nat) {s : State} (run : s.phase = .running) : ∃ t u,
    exec (.downlinkSuperframe ins) s = .next t ∧ Only (touches (.downlinkSuperframe ins)) s t ∧
    Only [.queues] s u ∧ Only [.queues] (sendSuperframe ins u) t := by
  obtain ⟨t, e, frame⟩ := OnlyBy.into (qs := touches (.downlinkSuperframe ins)) (only_execDownlinkSuperframe s ins) rfl
  obtain ⟨u, opened, closed⟩ := only_around (sendSuperframe ins) s
  have ht : execDownlinkSuperframe s ins = .next (inOneCycle (sendSuperframe ins) s) := by
    unfold execDownlinkSuperframe
    rw [if_neg (fun h => h run)]
  obtain rfl : inOneCycle (sendSuperframe ins) s = t := Host.Outcome.next.inj (ht.symm.trans e)
  exact ⟨_, u, e, frame, opened, closed⟩

/-- A period boundary that is due and not taken is its work in one cycle. -/
theorem periodBoundary_next (read : Nat) {s : State} (run : running s = true) (due : boundaryDue s = true) (untaken : s.boundary = none) :
    ∃ t u, exec (.periodBoundary read) s = .next t ∧ Only (touches (.periodBoundary read)) s t ∧
    Only [.queues] s u ∧ Only [.queues] (periodWork read u) t := by
  obtain ⟨t, e, frame⟩ := OnlyBy.into (qs := touches (.periodBoundary read)) (only_execPeriodBoundary s read) rfl
  obtain ⟨u, opened, closed⟩ := only_around (periodWork read) s
  have ht : execPeriodBoundary read s = .next (inOneCycle (periodWork read) s) := by
    unfold execPeriodBoundary
    rw [run, due, untaken]
    rfl
  obtain rfl : inOneCycle (periodWork read) s = t := Host.Outcome.next.inj (ht.symm.trans e)
  exact ⟨_, u, e, frame, opened, closed⟩

/-- Settles O58: each frond's turn in a superframe, in a resolution and at a period boundary is one update of what the core holds of it. -/
theorem superframesCommitsAndPeriods : Obligations.SuperframesCommitsAndPeriods := by
  unfold Obligations.SuperframesCommitsAndPeriods
  intro s
  refine ⟨fun ins run => ?_, fun p hp => ⟨fun run open_ now => ⟨fun all => ?_, fun missing strict => ?_⟩, fun away => commitResolve_away hp away⟩,
    fun read run => ⟨fun due untaken => ?_, fun notDue => ?_⟩⟩
  · obtain ⟨t, u, e, frame, opened, closed⟩ := downlinkSuperframe_next ins run
    have sameU := frond_of_only opened (by decide)
    have sameT := frond_of_only closed (by decide)
    have sent := closed .outbox (by decide)
    simp only [Part.same, Prod.mk.injEq] at sent
    obtain ⟨sent, _⟩ := sent
    refine ⟨t, e, frame, fun f hf => ?_, fun p un hp hr => ?_⟩
    · obtain ⟨new, frames, out⟩ := sendSuperframe_frond ins u hf
      rw [sameT, sent]
      refine ⟨new, frames, fun p c h => ?_⟩
      rw [← count_of_only opened (by decide)]
      exact out p c (by rw [sameU]; exact h) _
    · rw [closed .pend (by decide)]
      exact sendSuperframe_pend ((opened .pend (by decide)).trans hp) hr
  · have e := commitResolve_eq hp run open_ now (.inl all)
    rw [all] at e
    obtain ⟨pend, tag, epoch⟩ := resolveAs_commit p ([] == ([] : List Nat)) [] s
    exact ⟨_, e, only_resolveAs p _ _ s, pend, tag, epoch, fun f hf => frond_resolveAs p _ _ s hf⟩
  · have e := commitResolve_eq hp run open_ now (.inr strict)
    rw [show (unacked s p == []) = false by simpa using missing] at e
    obtain ⟨pend, tag, epoch⟩ := resolveAs_commit p false (unacked s p) s
    exact ⟨_, e, only_resolveAs p _ _ s, pend, tag, epoch, fun f hf => frond_resolveAs p _ _ s hf⟩
  · obtain ⟨t, u, e, frame, opened, closed⟩ := periodBoundary_next read run due untaken
    obtain ⟨boundary, p0, p1⟩ := periodWork_close read u
    have period := closed .period (by decide)
    have portsT := closed .ports (by decide)
    have portsU := opened .ports (by decide)
    have tick := opened .tick (by decide)
    simp only [Part.same, Prod.mk.injEq] at period portsT portsU tick
    obtain ⟨taken, _⟩ := period
    obtain ⟨t0, t1⟩ := portsT
    obtain ⟨u0, u1⟩ := portsU
    obtain ⟨_, count, _, _, epoch, _⟩ := tick
    refine ⟨t, e, frame, by rw [taken, boundary, count, epoch], fun f hf => ?_, by rw [t0, p0, u0], by rw [t1, p1, u1]⟩
    obtain ⟨x, hx⟩ := periodWork_frond read u hf
    rw [frond_of_only closed (by decide), hx]
    rfl
  · show execPeriodBoundary read s = _
    unfold execPeriodBoundary
    rw [notDue, Bool.and_false, Bool.false_and]
    rfl

end Sys2Proof.Machine
end

section
/-! SUPPORT. Slices of blocks, waiting writes and readouts of capture rings: what one round of deferred work does to each, and what a
readout leaves of its ring. -/

namespace Sys2Proof.Machine

/-! ## The blocks' slices (R229, R231) -/

/-- From s to t the blocks stay, and so does the mark that the slices of the tick have run. -/
def SameWork (s t : State) : Prop := t.blocks = s.blocks ∧ t.sliceRun = s.sliceRun

theorem SameWork.refl (s : State) : SameWork s s := ⟨rfl, rfl⟩

theorem SameWork.trans {s t u : State} (a : SameWork s t) (b : SameWork t u) : SameWork s u := ⟨b.1.trans a.1, b.2.trans a.2⟩

theorem sameWork_of_only {ps : List Part} {s t : State} (h : Only ps s t) (hp : Part.features ∉ ps) : SameWork s t := by
  have features := h .features hp
  simp only [Part.same, Prod.mk.injEq] at features
  obtain ⟨_, blocks, _, run⟩ := features
  exact ⟨blocks, run⟩

theorem sameWork_packet (q : Nat) (l : List Cell) (s : State) : SameWork s (packet q l s) :=
  sameWork_of_only (only_packet (ps := [.queues]) q l (List.Subset.refl _) (Only.refl _ s)) (by decide)

theorem sameWork_mapFold (ch : Nat) (bands : List Word) (phase : Nat → Bool) (hasBin : Bool) (v : Word) (tick : TickNo) (s : State) :
    SameWork s (mapFold ch bands phase hasBin v tick s) := by
  unfold mapFold
  split
  · exact .refl s
  · split <;> exact .refl s

theorem SameWork.setFeats {s t : State} (h : SameWork s t) (l : List Feats) : SameWork s { t with feats := l } := h

theorem SameWork.setPlans {s t : State} (h : SameWork s t) (l : Tab Plan) : SameWork s { t with plans := l } := h

theorem sameWork_finishBlock (b : Blk) (s : State) : SameWork s (finishBlock b s) := by
  unfold finishBlock
  refine SameWork.setFeats (SameWork.trans ?_ (sameWork_mapFold ..)) _
  split
  · exact .refl s
  · exact SameWork.setPlans (sameWork_packet ..) _

theorem sameWork_blockTurn (b : Blk) (s : State) : SameWork s (blockTurn b s).2 := by
  have finished : SameWork s (if b.turns + 1 = b.slices then finishBlock b s else s) := by
    split
    · exact sameWork_finishBlock b s
    · exact .refl s
  unfold blockTurn
  dsimp only
  split
  · exact finished
  · exact (finished.trans (sameWork_packet ..)).trans (sameWork_packet ..)

/-- A turn of a block leaves it with one turn more, unless all its cells are sent. -/
theorem blockTurn_fst (b : Blk) (s : State) :
    (blockTurn b s).1 = some { b with turns := b.turns + 1 } ∨ (blockTurn b s).1 = none ∧ b.slices ≤ b.turns + 1 := by
  unfold blockTurn
  dsimp only
  split
  · exact .inl rfl
  · next h =>
    dsimp only
    split
    · exact .inr ⟨rfl, Nat.not_lt.mp h⟩
    · exact .inl rfl

/-- One block of a round of work: the rounds below go through all of them. -/
def workOne (sel : Blk → Bool) (post : Blk → Blk) (s : State) (b : Blk) : State :=
  if !sel b then { s with blocks := s.blocks ++ [b] }
  else
    match blockTurn b s with
    | (some c, s) => { s with blocks := s.blocks ++ [post c] }
    | (none, s) => s

/-- A block after its part in a round. -/
def afterTurn (sel : Blk → Bool) (post : Blk → Blk) (b : Blk) : Blk := if sel b then post { b with turns := b.turns + 1 } else b

/-- A block is not in its last turns, or it has no part in the round. -/
def KeepsOn (sel : Blk → Bool) (b : Blk) : Prop := sel b = true → b.turns + 1 < b.slices

theorem workOne_blocks (sel : Blk → Bool) (post : Blk → Blk) (s : State) (b : Blk) :
    (workOne sel post s b).sliceRun = s.sliceRun ∧ ((workOne sel post s b).blocks = s.blocks ++ [afterTurn sel post b] ∨
      (workOne sel post s b).blocks = s.blocks ∧ ¬ KeepsOn sel b) := by
  unfold workOne afterTurn
  cases chosen : sel b with
  | false => exact ⟨rfl, .inl rfl⟩
  | true =>
    obtain ⟨blocks, run⟩ := sameWork_blockTurn b s
    rw [if_neg (by decide)]
    rcases blockTurn_fst b s with turned | ⟨done, last⟩
    · split
      next c u e =>
        rw [e] at turned blocks run
        obtain rfl : c = { b with turns := b.turns + 1 } := Option.some.inj turned
        exact ⟨run, .inl (congrArg (· ++ [_]) blocks)⟩
      next u e => rw [e] at turned; cases turned
    · split
      next c u e => rw [e] at done; cases done
      next u e =>
        rw [e] at blocks run
        exact ⟨run, .inr ⟨blocks, fun h => absurd (h chosen) (Nat.not_lt.mpr last)⟩⟩

theorem foldl_workOne (sel : Blk → Bool) (post : Blk → Blk) : ∀ (l : List Blk) (s : State),
    (l.foldl (workOne sel post) s).sliceRun = s.sliceRun ∧
    (∀ c ∈ (l.foldl (workOne sel post) s).blocks, c ∈ s.blocks ∨ ∃ b ∈ l, c = afterTurn sel post b) ∧
    (∀ c ∈ s.blocks, c ∈ (l.foldl (workOne sel post) s).blocks) ∧
    ∀ b ∈ l, KeepsOn sel b → afterTurn sel post b ∈ (l.foldl (workOne sel post) s).blocks
  | [], s => ⟨rfl, fun _ h => .inl h, fun _ h => h, fun _ h => absurd h List.not_mem_nil⟩
  | b :: l, s => by
    obtain ⟨run, blocks⟩ := workOne_blocks sel post s b
    obtain ⟨runs, source, stay, turn⟩ := foldl_workOne sel post l (workOne sel post s b)
    have origin : ∀ c ∈ (workOne sel post s b).blocks, c ∈ s.blocks ∨ c = afterTurn sel post b := fun c hc => by
      rcases blocks with more | ⟨same, _⟩
      · rw [more, List.mem_append, List.mem_singleton] at hc
        exact hc
      · exact .inl (same ▸ hc)
    have old : ∀ c ∈ s.blocks, c ∈ (workOne sel post s b).blocks := fun c hc => by
      rcases blocks with more | ⟨same, _⟩
      · rw [more]
        exact List.mem_append_left _ hc
      · exact same ▸ hc
    refine ⟨runs.trans run, fun c hc => ?_, fun c hc => stay c (old c hc), fun c hc on => ?_⟩
    · rcases source c hc with here | ⟨d, hd, e⟩
      · exact (origin c here).imp_right fun e => ⟨b, List.mem_cons_self, e⟩
      · exact .inr ⟨d, List.mem_cons_of_mem _ hd, e⟩
    · rcases List.mem_cons.mp hc with rfl | hl
      · rcases blocks with more | ⟨_, done⟩
        · exact stay _ (by rw [more]; exact List.mem_append_right _ List.mem_cons_self)
        · exact absurd on done
      · exact turn c hl on

theorem mem_insertBlk {a b : Blk} : ∀ {l : List Blk}, a ∈ insertBlk b l ↔ a = b ∨ a ∈ l
  | [] => by simp [insertBlk]
  | c :: l => by
    unfold insertBlk
    split
    · exact List.mem_cons
    · rw [List.mem_cons, mem_insertBlk, List.mem_cons]
      exact or_left_comm

theorem mem_foldl_insertBlk {a : Blk} : ∀ {l m : List Blk}, a ∈ l.foldl (fun a b => insertBlk b a) m ↔ a ∈ l ∨ a ∈ m
  | [], m => by simp
  | b :: l, m => by
    rw [List.foldl_cons, mem_foldl_insertBlk, mem_insertBlk, List.mem_cons]
    exact or_left_comm.trans or_assoc.symm

/-- A round of work gives every block its part; none appears from elsewhere. -/
theorem workBlocks_blocks (sel : Blk → Bool) (post : Blk → Blk) (s : State) :
    (workBlocks sel post s).sliceRun = s.sliceRun ∧
    (∀ c ∈ (workBlocks sel post s).blocks, ∃ b ∈ s.blocks, c = afterTurn sel post b) ∧
    ∀ b ∈ s.blocks, KeepsOn sel b → afterTurn sel post b ∈ (workBlocks sel post s).blocks := by
  obtain ⟨run, source, _, turn⟩ := foldl_workOne sel post (s.blocks.foldl (fun a b => insertBlk b a) []) { s with blocks := [] }
  have order : ∀ b : Blk, b ∈ s.blocks.foldl (fun a b => insertBlk b a) [] ↔ b ∈ s.blocks := fun b => by
    rw [mem_foldl_insertBlk]
    simp
  refine ⟨run, fun c hc => ?_, fun b hb => turn b ((order b).mpr hb)⟩
  obtain here | ⟨b, hb, e⟩ := source c hc
  · exact absurd here List.not_mem_nil
  · exact ⟨b, (order b).mp hb, e⟩

/-! ## The rings' writes (R32, R277, R284) -/

/-- A write of a ring leaves what waits behind it and what readouts it owes. -/
theorem capWrite_wait (t : Tab Word) (r : Nat) (w : CapWrite) (x : CapRing) :
    (capWrite t r w x).wait = x.wait ∧ (capWrite t r w x).owed = x.owed := by
  have overtaken : ∀ d y, (overtake d y).wait = y.wait ∧ (overtake d y).owed = y.owed := fun d y => by
    unfold overtake
    split
    · exact ⟨rfl, rfl⟩
    · dsimp only
      split <;> exact ⟨rfl, rfl⟩
  have written : ∀ d l y, (List.foldl (fun x f => writeFrame d f x) y l).wait = y.wait ∧
      (List.foldl (fun x f => writeFrame d f x) y l).owed = y.owed := fun d l => by
    induction l with
    | nil => exact fun _ => ⟨rfl, rfl⟩
    | cons f l ih => exact fun y => ih (writeFrame d f y)
  cases w with
  | frames l =>
    obtain ⟨wait, owed⟩ := overtaken (capDepth t r) (l.foldl (fun x f => writeFrame (capDepth t r) f x) x)
    obtain ⟨wait', owed'⟩ := written (capDepth t r) l x
    exact ⟨wait.trans wait', owed.trans owed'⟩
  | stamps tick words => exact ⟨rfl, rfl⟩

theorem capCatch_wait (t : Tab Word) (r : Nat) : ∀ (n : Nat) (x : CapRing),
    (capCatch t r n x).wait = x.wait.drop n ∧ (capCatch t r n x).owed = x.owed
  | 0, _ => ⟨rfl, rfl⟩
  | n + 1, x => by
    unfold capCatch
    split
    · next h =>
      rw [h]
      exact ⟨rfl, rfl⟩
    · next e l h =>
      obtain ⟨wait, owed⟩ := capCatch_wait t r n (capWrite t r e.2 { x with wait := l })
      obtain ⟨wait', owed'⟩ := capWrite_wait t r e.2 { x with wait := l }
      rw [wait, owed, wait', owed', h]
      exact ⟨rfl, rfl⟩

/-- The edges that the oldest waiting write of a ring has waited for. -/
def oldestWrite (x : CapRing) : Nat := (x.wait.head?.map (fun e => e.1)).getD 0

theorem capRing_writeDeferred (n : Nat) (s : State) (r : Nat) : capRing (writeDeferred n s) r =
    capCatch s.cfg r ((capRing s r).wait.takeWhile (fun e => decide (n ≤ e.1))).length (capRing s r) :=
  tget_tmap ({} : CapRing) (fun r (x : CapRing) => capCatch s.cfg r
    (x.wait.takeWhile (fun (e : Nat × CapWrite) => decide (n ≤ e.1))).length x) (fun _ => rfl) r s.caps

/-- After its due writes a ring's oldest write has waited for fewer than n edges. -/
theorem writeDeferred_ring (n : Nat) (s : State) (r : Nat) :
    oldestWrite (capRing (writeDeferred (n + 1) s) r) ≤ n ∧ (capRing (writeDeferred (n + 1) s) r).owed = (capRing s r).owed := by
  obtain ⟨wait, owed⟩ := capCatch_wait s.cfg r ((capRing s r).wait.takeWhile (fun e => decide (n + 1 ≤ e.1))).length (capRing s r)
  have young := List.head?_dropWhile_not (fun e : Nat × CapWrite => decide (n + 1 ≤ e.1)) (capRing s r).wait
  have rest := List.drop_left (l₁ := (capRing s r).wait.takeWhile (fun e => decide (n + 1 ≤ e.1)))
    (l₂ := (capRing s r).wait.dropWhile (fun e => decide (n + 1 ≤ e.1)))
  rw [List.takeWhile_append_dropWhile] at rest
  rw [capRing_writeDeferred]
  refine ⟨?_, owed⟩
  unfold oldestWrite
  rw [wait, rest]
  split at young
  · next e h =>
    rw [h]
    simpa [Nat.lt_succ_iff] using young
  · next h =>
    rw [h]
    exact Nat.zero_le n

/-! ## Readouts (R283 to R290) -/

theorem capRing_capEnd_other {r q : Nat} (h : q ≠ r) (t : Tab Word) (aborted : Bool) (cells : List Cell) (c : CapRun) (s : State) :
    capRing (capEnd t r aborted cells c s) q = capRing s q := by
  unfold capEnd
  dsimp only
  rw [capRing_of_only (Only.foldl (ps := [.outbox, .rings, .descs, .sessions])
    (fun _ _ k => only_complete _ _ _ (List.Subset.refl _) k) _ (Only.refl _ _)) (by decide), capRing_modCap_other h]
  exact capRing_of_only (only_enqueue (ps := [.queues]) _ _ (List.Subset.refl _) (Only.refl _ s)) (by decide) q

/-- A ring whose capture has ended. -/
def endedRing (t : Tab Word) (r : Nat) (x : CapRing) : CapRing :=
  { x with run := none, owed := 0, seq := (x.seq + 1) % 2 ^ 32, armed := x.armed && bit (capWord t r 0) 5 }

theorem capRing_capEnd_same (t : Tab Word) (r : Nat) (aborted : Bool) (cells : List Cell) (c : CapRun) (s : State) :
    capRing (capEnd t r aborted cells c s) r = endedRing t r (capRing s r) := by
  unfold capEnd
  dsimp only
  rw [capRing_of_only (Only.foldl (ps := [.outbox, .rings, .descs, .sessions])
    (fun _ _ k => only_complete _ _ _ (List.Subset.refl _) k) _ (Only.refl _ _)) (by decide), capRing_modCap_same,
    capRing_of_only (only_enqueue (ps := [.queues]) _ _ (List.Subset.refl _) (Only.refl _ s)) (by decide) r]
  rfl

/-- A ring after a readout that left its capture as c. -/
def readRing (own : Bool) (t : Tab Word) (r : Nat) (x : CapRing) (cells : List Cell) (c : CapRun) (ends : Bool) : CapRing :=
  if ends then endedRing t r { x with run := some c, held := [] }
  else { x with run := some c, held := if own then [] else x.held ++ cells }

theorem capRing_capReadout_other {r q : Nat} (h : q ≠ r) (own : Bool) (t : Tab Word) (s : State) :
    capRing (capReadout own t r s) q = capRing s q := by
  unfold capReadout
  split
  · rfl
  · dsimp only
    split
    · rw [capRing_capEnd_other h, capRing_modCap_other h]
    · split
      · rw [capRing_modCap_other h]
      · rw [capRing_of_only (only_enqueue (ps := [.queues]) _ _ (List.Subset.refl _) (Only.refl _ _)) (by decide), capRing_modCap_other h]

theorem capRing_capReadout_same (own : Bool) (t : Tab Word) (r : Nat) {s : State} {c : CapRun} (h : (capRing s r).run = some c) :
    capRing (capReadout own t r s) r = readRing own t r (capRing s r) (capStep t r (capRing s r) c).1 (capStep t r (capRing s r) c).2.1
      (capStep t r (capRing s r) c).2.2 := by
  unfold capReadout readRing
  rw [h]
  dsimp only
  split
  · next ends =>
    rw [capRing_capEnd_same, capRing_modCap_same, ends, Bool.or_true]
    rfl
  · next goesOn =>
    rw [Bool.not_eq_true] at goesOn
    rw [goesOn, Bool.or_false]
    split
    · exact capRing_modCap_same _ _ _
    · rw [capRing_of_only (only_enqueue (ps := [.queues]) _ _ (List.Subset.refl _) (Only.refl _ _)) (by decide), capRing_modCap_same]

/-- A readout leaves the waiting writes of its ring and owes no more than before. -/
theorem capReadout_ring (own : Bool) (t : Tab Word) (r : Nat) (s : State) :
    (capRing (capReadout own t r s) r).wait = (capRing s r).wait ∧ (capRing (capReadout own t r s) r).owed ≤ (capRing s r).owed := by
  cases h : (capRing s r).run with
  | none =>
    unfold capReadout
    rw [h]
    exact ⟨rfl, Nat.le_refl _⟩
  | some c =>
    rw [capRing_capReadout_same own t r h]
    unfold readRing
    split
    · exact ⟨rfl, Nat.zero_le _⟩
    · exact ⟨rfl, Nat.le_refl _⟩

/-! ## One round of deferred work (R33) -/

/-- A ring's turn in a round of deferred readouts. -/
def readOwed (n : Nat) (s : State) (r : Nat) : State :=
  if (capRing s r).owed < n then s else modCap r (fun x => { x with owed := x.owed - 1 }) (capReadout false s.cfg r s)

theorem capRing_readOwed_other {n r q : Nat} (h : q ≠ r) (s : State) : capRing (readOwed n s r) q = capRing s q := by
  unfold readOwed
  split
  · rfl
  · rw [capRing_modCap_other h, capRing_capReadout_other h]

theorem readOwed_same {n r : Nat} {s : State} (h : (capRing s r).owed ≤ n + 1) :
    (capRing (readOwed (n + 1) s r) r).owed ≤ n ∧ (capRing (readOwed (n + 1) s r) r).wait = (capRing s r).wait := by
  unfold readOwed
  split
  · next less => exact ⟨Nat.lt_succ_iff.mp less, rfl⟩
  · obtain ⟨wait, owed⟩ := capReadout_ring false s.cfg r s
    rw [capRing_modCap_same]
    dsimp only
    exact ⟨by omega, wait⟩

theorem readOwed_wait (n : Nat) (s : State) (r q : Nat) : (capRing (readOwed n s r) q).wait = (capRing s q).wait := by
  by_cases e : q = r
  · subst e
    unfold readOwed
    split
    · rfl
    · rw [capRing_modCap_same]
      exact (capReadout_ring false s.cfg q s).1
  · rw [capRing_readOwed_other e]

theorem readDeferred_wait (n : Nat) (s : State) (q : Nat) : (capRing (readDeferred n s) q).wait = (capRing s q).wait := by
  unfold readDeferred
  exact go (List.range 32) s
where
  go : ∀ (l : List Nat) (s : State), (capRing (l.foldl (readOwed n) s) q).wait = (capRing s q).wait
    | [], _ => rfl
    | r :: l, s => (go l (readOwed n s r)).trans (readOwed_wait n s r q)

theorem readDeferred_owed {n : Nat} {s : State} {r : Nat} (hr : r < 32) (h : (capRing s r).owed ≤ n + 1) :
    (capRing (readDeferred (n + 1) s) r).owed ≤ n := by
  obtain ⟨a, _, _, before, after⟩ := view_foldl_all (capRing · r) (F := readOwed (n + 1)) hr (fun u j hj => capRing_readOwed_other hj u) s
  have turn := readOwed_same (n := n) (r := r) (s := a.foldl (readOwed (n + 1)) s) (by rw [before]; exact h)
  exact (congrArg CapRing.owed after).trans_le turn.1

/-- One round of deferred work: the writes, slices and readouts that have waited for more than n edges. -/
def deferredRound (n : Nat) (s : State) : State :=
  readDeferred (n + 1) (workBlocks (fun b => decide (b.owed ≥ n + 1)) (fun b => { b with owed := b.owed - 1 }) (writeDeferred (n + 1) s))

theorem runDeferred_succ (n : Nat) (s : State) : runDeferred (n + 1) s = runDeferred n (deferredRound n s) := rfl

/-- A round leaves no write of a ring that has waited for more than n edges, and no more than n readouts. -/
theorem deferredRound_ring (n : Nat) (s : State) (r : Nat) : oldestWrite (capRing (deferredRound n s) r) ≤ n ∧
    (r < 32 → (capRing s r).owed ≤ n + 1 → (capRing (deferredRound n s) r).owed ≤ n) := by
  have worked := capRing_of_only (only_workBlocks (ps := [.queues, .features, .map]) (fun b => decide (b.owed ≥ n + 1))
    (fun b => { b with owed := b.owed - 1 }) (List.Subset.refl _) (Only.refl _ (writeDeferred (n + 1) s))) (by decide) r
  obtain ⟨wait, owed⟩ := writeDeferred_ring n s r
  unfold deferredRound
  refine ⟨?_, fun hr h => readDeferred_owed hr ?_⟩
  · unfold oldestWrite at wait ⊢
    rw [readDeferred_wait, worked]
    exact wait
  · rw [worked, owed]
    exact h

/-- A block's part in a round of deferred work. -/
def deferredTurn (n : Nat) (b : Blk) : Blk :=
  afterTurn (fun b => decide (b.owed ≥ n + 1)) (fun b => { b with owed := b.owed - 1 }) b

theorem deferredRound_blocks (n : Nat) (s : State) : (∀ c ∈ (deferredRound n s).blocks, ∃ b ∈ s.blocks, c = deferredTurn n b) ∧
    ∀ b ∈ s.blocks, KeepsOn (fun b => decide (b.owed ≥ n + 1)) b → deferredTurn n b ∈ (deferredRound n s).blocks := by
  obtain ⟨blocks, _⟩ := sameWork_of_only (only_readDeferred (ps := [.outbox, .queues, .rings, .descs, .caps, .sessions]) (n + 1)
    (List.Subset.refl _) (Only.refl _ (workBlocks (fun b => decide (b.owed ≥ n + 1)) (fun b => { b with owed := b.owed - 1 })
      (writeDeferred (n + 1) s)))) (by decide)
  obtain ⟨_, source, turn⟩ := workBlocks_blocks (fun b => decide (b.owed ≥ n + 1)) (fun b => { b with owed := b.owed - 1 })
    (writeDeferred (n + 1) s)
  unfold deferredRound
  rw [blocks]
  exact ⟨source, turn⟩

theorem deferredTurn_owed {n : Nat} {b : Blk} (h : b.owed ≤ n + 1) : (deferredTurn n b).owed ≤ n := by
  unfold deferredTurn afterTurn
  split
  · dsimp only
    omega
  · next less => simpa [Nat.lt_succ_iff] using less

/-! ## All rounds -/

theorem runDeferred_owed : ∀ (n : Nat) (s : State), (∀ b ∈ s.blocks, b.owed ≤ n) → ∀ b ∈ (runDeferred n s).blocks, b.owed = 0
  | 0, _, h => fun b hb => Nat.le_zero.mp (h b hb)
  | n + 1, s, h => by
    rw [runDeferred_succ]
    refine runDeferred_owed n _ fun c hc => ?_
    obtain ⟨b, hb, rfl⟩ := (deferredRound_blocks n s).1 c hc
    exact deferredTurn_owed (h b hb)

/-- A block that is not in its last turns has had all its deferred slices. -/
theorem runDeferred_slices : ∀ (n : Nat) (s : State) (b : Blk), b ∈ s.blocks → b.owed ≤ n → b.turns + b.owed < b.slices →
    { b with turns := b.turns + b.owed, owed := 0 } ∈ (runDeferred n s).blocks
  | 0, s, b, hb, h, _ => by
    obtain ⟨ch, seq, smp, ready, slices, turns, owed⟩ := b
    obtain rfl : owed = 0 := Nat.le_zero.mp h
    exact hb
  | n + 1, s, b, hb, h, on => by
    rw [runDeferred_succ]
    have turned := (deferredRound_blocks n s).2 b hb (fun e => by have := of_decide_eq_true e; omega)
    by_cases due : n + 1 ≤ b.owed
    · have e : deferredTurn n b = { b with turns := b.turns + 1, owed := b.owed - 1 } := by
        unfold deferredTurn afterTurn
        rw [if_pos (decide_eq_true due)]
      rw [e] at turned
      have slices := runDeferred_slices n _ _ turned (by dsimp only; omega) (by dsimp only; omega)
      rwa [show b.turns + 1 + (b.owed - 1) = b.turns + b.owed by omega] at slices
    · have e : deferredTurn n b = b := by
        unfold deferredTurn afterTurn
        rw [if_neg (by simpa using due)]
      rw [e] at turned
      exact runDeferred_slices n _ b turned (by omega) on

theorem runDeferred_ring : ∀ (n : Nat) (s : State) (r : Nat), oldestWrite (capRing s r) ≤ n →
    oldestWrite (capRing (runDeferred n s) r) = 0 ∧ (r < 32 → (capRing s r).owed ≤ n → (capRing (runDeferred n s) r).owed = 0)
  | 0, _, _, h => ⟨Nat.le_zero.mp h, fun _ k => Nat.le_zero.mp k⟩
  | n + 1, s, r, _ => by
    rw [runDeferred_succ]
    obtain ⟨wait, owed⟩ := deferredRound_ring n s r
    obtain ⟨wait', owed'⟩ := runDeferred_ring n _ r wait
    exact ⟨wait', fun hr h => owed' hr (owed hr h)⟩

/-- A fold of maxima is at least what it starts from and every value it takes in. -/
theorem le_foldl_max {α : Type} (f : α → Nat) : ∀ (l : List α) (a : Nat), a ≤ l.foldl (fun m e => max m (f e)) a ∧
    ∀ e ∈ l, f e ≤ l.foldl (fun m e => max m (f e)) a
  | [], a => ⟨Nat.le_refl a, fun _ h => absurd h List.not_mem_nil⟩
  | e :: l, a => by
    obtain ⟨start, each⟩ := le_foldl_max f l (max a (f e))
    refine ⟨(Nat.le_max_left _ _).trans start, fun d hd => ?_⟩
    rcases List.mem_cons.mp hd with rfl | hl
    · exact (Nat.le_max_right _ _).trans start
    · exact each d hl

theorem tget_mem {α : Type} (d : α) (k : Nat) : ∀ t : Tab α, tget d t k = d ∨ ∃ e ∈ t, tget d t k = e.2
  | [] => .inl rfl
  | (j, v) :: r => by
    unfold tget
    split
    · exact .inr ⟨(j, v), List.mem_cons_self, rfl⟩
    · split
      · exact .inl rfl
      · exact (tget_mem d k r).imp_right fun ⟨e, he, h⟩ => ⟨e, List.mem_cons_of_mem _ he, h⟩

theorem owed_le_oldestOwed {s : State} {b : Blk} (h : b ∈ s.blocks) : b.owed ≤ oldestOwed s :=
  ((le_foldl_max (fun b : Blk => b.owed) s.blocks 0).2 b h).trans (le_foldl_max _ s.caps _).1

theorem ring_le_oldestOwed (s : State) (r : Nat) : (capRing s r).owed ≤ oldestOwed s ∧ oldestWrite (capRing s r) ≤ oldestOwed s := by
  rcases tget_mem ({} : CapRing) r s.caps with none | ⟨e, he, h⟩
  · unfold capRing
    rw [none]
    exact ⟨Nat.zero_le _, Nat.zero_le _⟩
  · have bound := (le_foldl_max (fun e : Nat × CapRing => max e.2.owed ((e.2.wait.head?.map (·.1)).getD 0)) s.caps
      (s.blocks.foldl (fun m b => max m b.owed) 0)).2 e he
    unfold capRing
    rw [h]
    exact ⟨(Nat.le_max_left _ _).trans bound, (Nat.le_max_right _ _).trans bound⟩

/-! ## What a readout delivers (R283, R290) -/

/-- The ring read in this tick: its cells are numbered as before, so its readout delivers the same. -/
theorem sampleCells_read (r : Nat) (x : CapRing) (b : Bool) : ∀ (k : Nat) (final : Bool) (ws : List (Word × Nat × TickNo × Half)) (c : CapRun),
    sampleCells r { x with read := b } k final ws c = sampleCells r x k final ws c
  | 0, _, _, _ => rfl
  | k + 1, final, ws, c => by
    unfold sampleCells
    simp only [sampleCells_read r x b k]
    rfl

theorem stampCells_read (r : Nat) (x : CapRing) (b : Bool) : ∀ (k : Nat) (final : Bool) (l : List (Nat × TickNo × Nat)) (c : CapRun),
    stampCells r { x with read := b } k final l c = stampCells r x k final l c
  | 0, _, _, _ => rfl
  | k + 1, final, l, c => by
    unfold stampCells
    simp only [stampCells_read r x b k]
    rfl

theorem takeHead_read (t : Tab Word) (r : Nat) (x : CapRing) (b : Bool) (c : CapRun) :
    takeHead t r { x with read := b } c = takeHead t r x c := rfl

theorem capStep_read (t : Tab Word) (r : Nat) (x : CapRing) (b : Bool) (c : CapRun) :
    capStep t r { x with read := b } c = capStep t r x c := by
  unfold capStep
  simp only [sampleCells_read, stampCells_read, takeHead_read]
  rfl

theorem takeHead_head (t : Tab Word) (r : Nat) (x : CapRing) (c : CapRun) : (takeHead t r x c).2.head = true := by
  unfold takeHead
  split
  · assumption
  · rfl

theorem stampCut_head (cuts : List (Nat × TickNo)) (c : CapRun) : (stampCut cuts c).head = c.head := by
  unfold stampCut
  split <;> rfl

theorem sampleCells_head (r : Nat) (x : CapRing) : ∀ (k : Nat) (final : Bool) (ws : List (Word × Nat × TickNo × Half)) (c : CapRun),
    (sampleCells r x k final ws c).2.1.head = c.head
  | 0, _, _, _ => rfl
  | k + 1, final, ws, c => by
    unfold sampleCells
    dsimp only
    split
    · rfl
    · split
      · rfl
      · exact sampleCells_head r x k final _ _

theorem stampCells_head (r : Nat) (x : CapRing) : ∀ (k : Nat) (final : Bool) (l : List (Nat × TickNo × Nat)) (c : CapRun),
    (stampCells r x k final l c).2.head = c.head
  | 0, _, _, _ => rfl
  | k + 1, final, l, c => by
    unfold stampCells
    dsimp only
    split
    · rfl
    · split
      · rfl
      · exact stampCells_head r x k final _ _

/-- A capture that has been read has delivered its head. -/
theorem capStep_head (t : Tab Word) (r : Nat) (x : CapRing) (c : CapRun) : (capStep t r x c).2.1.head = true := by
  unfold capStep
  dsimp only
  split
  · rw [stampCells_head]
    dsimp only
    rw [sampleCells_head, stampCut_head]
    exact takeHead_head t r x c
  · dsimp only
    rw [sampleCells_head, stampCut_head]
    exact takeHead_head t r x c

theorem captureReadout_next {s : State} {r : Nat} {c : CapRun} (run : running s = true) (hr : r < 32) (unread : (capRing s r).read = false)
    (paid : (capRing s r).owed = 0) (done : ∀ e ∈ (capRing s r).wait, e.1 = 0) (capture : (capRing s r).run = some c) :
    exec (.captureReadout r) s = .next (capReadout true s.cfg r (modCap r (fun x => { x with read := true }) s)) := by
  have none : (capRing s r).wait.any (fun e => decide (e.1 > 0)) = false := by
    rw [List.any_eq_false]
    exact fun e he => by simp [done e he]
  show execCaptureReadout r s = _
  unfold execCaptureReadout
  dsimp only
  rw [run, unread, capture, paid, none, decide_eq_false (Nat.not_le.mpr hr)]
  rfl

theorem captureReadout_left {s : State} {r : Nat}
    (h : (capRing s r).read = true ∨ (capRing s r).run = none ∨ 0 < (capRing s r).owed ∨ ∃ e ∈ (capRing s r).wait, 0 < e.1) :
    exec (.captureReadout r) s = .next s := by
  show execCaptureReadout r s = _
  unfold execCaptureReadout
  dsimp only
  rw [if_pos]
  rcases h with read | idle | owed | ⟨e, he, due⟩
  · simp [read]
  · simp [idle]
  · simp [owed]
  · have waits : (capRing s r).wait.any (fun e => decide (e.1 > 0)) = true := List.any_eq_true.mpr ⟨e, he, decide_eq_true due⟩
    simp [waits]

/-- Settles O59: deferred work is done in rounds, each of which gives a block or ring one of its deferred slices, writes or readouts. -/
theorem workIsDoneInSlices : Obligations.WorkIsDoneInSlices := by
  unfold Obligations.WorkIsDoneInSlices
  intro s run
  refine ⟨?_, fun idle fresh => ?_, fun ran => ?_, fun r hr x hx => ⟨fun c cells c2 ends unread paid done capture step => ?_, fun h => ?_⟩⟩
  · obtain ⟨t, e, frame⟩ := OnlyBy.into (qs := touches .deferredWork) (only_execDeferredWork s) rfl
    have work : execDeferredWork s = .next (runDeferred (oldestOwed s) s) := by
      unfold execDeferredWork
      rw [run]
      rfl
    obtain rfl : runDeferred (oldestOwed s) s = t := Host.Outcome.next.inj (work.symm.trans e)
    have ring := fun r => runDeferred_ring (oldestOwed s) s r (ring_le_oldestOwed s r).2
    exact ⟨_, e, frame, runDeferred_owed _ s (fun b hb => owed_le_oldestOwed hb), fun r hr => (ring r).2 hr (ring_le_oldestOwed s r).1,
      fun r => (ring r).1, fun b hb => runDeferred_slices _ s b hb (owed_le_oldestOwed hb)⟩
  · obtain ⟨t, e, frame⟩ := only_execFeatureSlice s
    have work : execFeatureSlice s = .next (workBlocks (fun b => b.ready) id { s with sliceRun := true }) := by
      unfold execFeatureSlice
      rw [run, fresh, idle]
      rfl
    obtain rfl : workBlocks (fun b => b.ready) id { s with sliceRun := true } = t := Host.Outcome.next.inj (work.symm.trans e)
    obtain ⟨marked, _, turn⟩ := workBlocks_blocks (fun b => b.ready) id { s with sliceRun := true }
    refine ⟨_, e, frame, marked, fun b hb waiting => ?_, fun b hb ready on => ?_⟩
    · have stays := turn b hb (fun h => absurd (waiting.symm.trans h) (by decide))
      rwa [afterTurn, if_neg (by rw [waiting]; decide)] at stays
    · have turned := turn b hb (fun _ => on)
      rwa [afterTurn, if_pos ready] at turned
  · show execFeatureSlice s = _
    unfold execFeatureSlice
    rw [ran, Bool.or_true, Bool.true_or]
    rfl
  · subst hx
    obtain ⟨t, e, frame⟩ := only_execCaptureReadout s r
    have work := captureReadout_next run hr unread paid done capture
    obtain rfl : capReadout true s.cfg r (modCap r (fun x => { x with read := true }) s) = t := Host.Outcome.next.inj (work.symm.trans e)
    have ring := capRing_capReadout_same (s := modCap r (fun x => { x with read := true }) s) (c := c) true s.cfg r
      (by rw [capRing_modCap_same]; exact capture)
    rw [capRing_modCap_same, capStep_read, step] at ring
    have head := capStep_head s.cfg r (capRing s r) c
    rw [step] at head
    refine ⟨_, e, frame, fun q hq => ?_, ?_, ?_, head, fun on => ?_, fun ended => ?_⟩
    · rw [capRing_capReadout_other hq, capRing_modCap_other hq]
    · rw [ring]
      cases ends <;> rfl
    · rw [ring]
      cases ends <;> rfl
    · rw [ring, on]
      exact ⟨rfl, rfl⟩
    · rw [ring, ended]
      exact ⟨rfl, rfl, rfl⟩
  · subst hx
    exact captureReadout_left h

end Sys2Proof.Machine
end

section
/-! SUPPORT. A frond's tick edge: the stages of its work, what each leaves of the frond, and the frames it sends. -/

namespace Sys2Proof.Machine

/-! ## The stages of the edge (R65, R126, R320, R344) -/

/-- The edge moves and every channel starts a new tick. -/
def startEdge (i : FrondEdgeIn) (x : Frond) : Frond :=
  let us := 250 * fsteps x
  let n := (moveGrid i.since (linkEdge x)).1
  let x := (moveGrid i.since (linkEdge x)).2
  { x with restart := false, refFor := x.refFor + n, outRej := 0, chans := tmap x.chans (fun p ch => newTick n us (diagCtx x p ch) ch) }

/-- Critical pairs and trims that failed are marked. -/
def markFailed (i : FrondEdgeIn) (x : Frond) : Frond := reloadTrim i.trimErr (i.crit.foldl (fun x c => critFail c x) x)

/-- A frond that has found the logic side restarted has discarded its configuration. -/
def afterWipe (x : Frond) : Frond := if x.wipe then discardConfig x else x

/-- A resolution to apply, or a start distribution that is whole, is in force. -/
def newEpoch (x : Frond) : Frond :=
  match x.res with
  | some (items, ep) => applyItems items ep x
  | none => if x.noCfg && x.resEpoch ≠ 0 && holdsAll x && x.dist then applyItems (heldItems x) x.resEpoch x else x

/-- The clears of the held D0. -/
def clearsOf (d0 : List Byte) (x : Frond) : Frond :=
  let x := (bits 16 (getLE d0 20 2)).foldl (fun x p => clearChan p x) x
  if (getLE d0 13 1).testBit 1 then clearFrond x else x

/-- Clears and outputs of the D0 and D1 that are held. -/
def takeOutputs (x : Frond) : Frond :=
  match x.d0, x.d1 with
  | some d0, some d1 => applyOuts d0 d1 (clearsOf d0 x)
  | d0, d1 => { x with outRej := maskHeld d0 d1 }

/-- The decimation phase of the edge. -/
def takePhase (own : Nat) (x : Frond) : Frond :=
  if edgePhase own x = own then { x with dpc := edgePhase own x } else setPhase own (edgePhase own x) x

theorem frondEdge_eq (i : FrondEdgeIn) (x : Frond) : ∃ own, (frondEdge i x).1 =
    refEdge i (takePhase own (takeOutputs (newEpoch (afterWipe (markFailed i (startEdge i x)))))) := ⟨_, rfl⟩

/-! ## A frond's channels -/

theorem tget_tmap_or {α : Type} (d : α) (g : Nat → α → α) (k : Nat) : ∀ t : Tab α,
    tget d (tmap t g) k = g k (tget d t k) ∨ tget d (tmap t g) k = d ∧ tget d t k = d
  | [] => .inr ⟨rfl, rfl⟩
  | (j, v) :: r => by
    simp only [tmap, List.map_cons, tget]
    split
    · next h => exact .inl (by rw [h])
    · split
      · exact .inr ⟨rfl, rfl⟩
      · exact tget_tmap_or d g k r

theorem fchan_tput_same (x : Frond) (p : Nat) (c : FChan) : fchan { x with chans := tput x.chans p c } p = c := tget_tput_same _ _ _ _

theorem fchan_tput_other {p q : Nat} (h : q ≠ p) (x : Frond) (c : FChan) : fchan { x with chans := tput x.chans p c } q = fchan x q :=
  tget_tput_other _ h _ _

theorem fchan_modChan_same (p : Nat) (g : FChan → FChan) (x : Frond) : fchan (modChan p g x) p = g (fchan x p) := tget_tmod_same _ _ _ _

theorem fchan_modChan_other {p q : Nat} (h : q ≠ p) (g : FChan → FChan) (x : Frond) : fchan (modChan p g x) q = fchan x q :=
  tget_tmod_other _ _ h _

theorem fchan_congr {x y : Frond} (h : y.chans = x.chans) (p : Nat) : fchan y p = fchan x p := by
  unfold fchan
  rw [h]

/-- A view of the channels that no channel's change moves. -/
theorem fchan_tmap {α : Type} (v : FChan → α) {g : Nat → FChan → FChan} (h : ∀ p c, v (g p c) = v c) (x : Frond) (p : Nat) :
    v (fchan { x with chans := tmap x.chans g } p) = v (fchan x p) := by
  unfold fchan
  rcases tget_tmap_or ({} : FChan) g p x.chans with e | ⟨e, e'⟩
  · exact (congrArg v e).trans (h _ _)
  · exact (congrArg v e).trans (congrArg v e').symm

/-- What a channel has counted and sampled in the tick. -/
def tally (c : FChan) : Nat × Int × Nat × List (Nat × Nat) × List Nat × Nat × Nat × Option SnapVal :=
  (c.k, c.sum, c.sq, c.samples, c.stamps, c.rise, c.fall, c.snap)

/-- No channel has counted or sampled anything yet. -/
def Quiet (x : Frond) : Prop := ∀ p, tally (fchan x p) = tally {}

theorem quiet_congr {x y : Frond} (h : y.chans = x.chans) (k : Quiet x) : Quiet y := fun p => by
  rw [fchan_congr h]
  exact k p

theorem quiet_tput {x : Frond} {p : Nat} {c : FChan} (h : tally c = tally (fchan x p)) (k : Quiet x) :
    Quiet { x with chans := tput x.chans p c } := fun q => by
  by_cases e : q = p
  · rw [e, fchan_tput_same, h]
    exact k p
  · rw [fchan_tput_other e]
    exact k q

theorem quiet_tmap {x : Frond} {g : Nat → FChan → FChan} (h : ∀ p c, tally (g p c) = tally c) (k : Quiet x) :
    Quiet { x with chans := tmap x.chans g } := fun p => (fchan_tmap tally h x p).trans (k p)

/-! ## Updates of a channel that leave what it has counted -/

@[simp] theorem tally_conducts (x : Frond) (c : FChan) : tally (conducts x c) = tally c := by
  unfold conducts
  split <;> rfl

@[simp] theorem tally_startReg (x : Frond) (p : Nat) (c : FChan) : tally (startReg x p c) = tally c := by
  unfold startReg
  split <;> rfl

@[simp] theorem tally_takeSafe (x : Frond) (p : Nat) (c : FChan) : tally (takeSafe x p c) = tally c := by
  unfold takeSafe
  dsimp only
  split
  · rfl
  · rw [tally_conducts, tally_startReg]
    rfl

@[simp] theorem tally_enterSafe (x : Frond) (p : Nat) (c : FChan) : tally (enterSafe x p c) = tally c := by
  unfold enterSafe
  split
  · rw [tally_takeSafe]
    rfl
  · split
    · exact tally_takeSafe x p c
    · rfl

@[simp] theorem tally_startStage (x : Frond) (p : Nat) (c : FChan) : tally (startStage x p c) = tally c := by
  unfold startStage
  dsimp only
  split <;> rfl

theorem tally_ite {P : Prop} [Decidable P] {a b c : FChan} (ha : tally a = tally c) (hb : tally b = tally c) :
    tally (if P then a else b) = tally c := by
  split
  · exact ha
  · exact hb

theorem tally_newMode (x : Frond) (p : Nat) (c : FChan) : tally (newMode x p c) = tally c := by
  unfold newMode
  dsimp only
  have started : ∀ c : FChan, tally (if x.shutdown then { startStage x p c with regOn := false, rail := 0 } else startStage x p c) = tally c :=
    fun c => tally_ite (tally_startStage x p c) (tally_startStage x p c)
  exact tally_ite ((tally_enterSafe ..).trans (started _)) (started _)

theorem tally_setDiag (c : FChan) (d : Nat) : tally { c with diag := d } = tally c := rfl

theorem tally_newFields (old x : Frond) (p : Nat) (c : FChan) : tally (newFields old x p c) = tally c := by
  unfold newFields
  dsimp only
  refine Eq.trans (tally_ite rfl rfl) ?_
  refine Eq.trans (tally_ite (tally_takeSafe x p _) rfl) ?_
  refine Eq.trans (tally_ite rfl rfl) ?_
  exact (tally_setDiag _ _).trans (tally_ite rfl rfl)

/-! ## What the stages leave of the frond -/

/-- The frond's supply, its grid, its ALIVE value and the downlink frames it holds. -/
def heldGrid (x : Frond) : Bool × Byte × Nat × Nat × Option (List Byte) × Option (List Byte) × Bool :=
  (x.power, x.upAlive, x.edge, x.frac, x.d0, x.d1, x.restart)

/-- The configuration in force and what stands to change it. -/
def confOf (x : Frond) : Half × Bool × Tab Word × Bool × Option (List (Nat × Word) × Half) × Bool :=
  (x.epoch, x.noCfg, x.cfg, x.wipe, x.res, x.firstEpoch)

/-- From x to y the grid stays, and no channel counts or samples. -/
structure SameGrid (x y : Frond) : Prop where
  grid : heldGrid y = heldGrid x
  quiet : Quiet x → Quiet y

/-- From x to y the grid and the configuration stay, and a frond before its first epoch stays in safe state. -/
structure SameConfig (x y : Frond) : Prop where
  toGrid : SameGrid x y
  conf : confOf y = confOf x
  safe : x.firstEpoch = false → x.safe = true → y.safe = true

theorem SameGrid.trans {x y z : Frond} (a : SameGrid x y) (b : SameGrid y z) : SameGrid x z :=
  ⟨b.grid.trans a.grid, fun h => b.quiet (a.quiet h)⟩

theorem SameConfig.refl (x : Frond) : SameConfig x x := ⟨⟨rfl, id⟩, rfl, fun _ => id⟩

theorem SameConfig.trans {x y z : Frond} (a : SameConfig x y) (b : SameConfig y z) : SameConfig x z := by
  refine ⟨a.toGrid.trans b.toGrid, b.conf.trans a.conf, fun h k => b.safe ?_ (a.safe h k)⟩
  have conf := a.conf
  simp only [confOf, Prod.mk.injEq] at conf
  obtain ⟨_, _, _, _, _, first⟩ := conf
  rw [first]
  exact h

theorem SameConfig.ite {P : Prop} [Decidable P] {x a b : Frond} (ha : SameConfig x a) (hb : SameConfig x b) :
    SameConfig x (if P then a else b) := by
  split
  · exact ha
  · exact hb

theorem SameConfig.foldl {β : Type} {F : Frond → β → Frond} (h : ∀ x b, SameConfig x (F x b)) : ∀ (l : List β) (x : Frond),
    SameConfig x (l.foldl F x)
  | [], x => .refl x
  | b :: l, x => (h x b).trans (SameConfig.foldl h l (F x b))

theorem sameConfig_tput {x : Frond} {p : Nat} {c : FChan} (h : tally c = tally (fchan x p)) :
    SameConfig x { x with chans := tput x.chans p c } := ⟨⟨rfl, quiet_tput h⟩, rfl, fun _ => id⟩

theorem sameConfig_tmap {x : Frond} {g : Nat → FChan → FChan} (h : ∀ p c, tally (g p c) = tally c) :
    SameConfig x { x with chans := tmap x.chans g } := ⟨⟨rfl, quiet_tmap h⟩, rfl, fun _ => id⟩

/-! Failed pairs -/

theorem sameConfig_critFail (c : CritIn) (x : Frond) : SameConfig x (critFail c x) := by
  unfold critFail
  split
  · exact .refl x
  · exact ⟨⟨rfl, quiet_congr rfl⟩, rfl, fun _ => id⟩

theorem sameConfig_loadTrim (t : TrimIn) (x : Frond) : SameConfig x (loadTrim t x) := by
  have placed : ∀ (p : Nat) (g : FChan → FChan), tally (g (fchan x p)) = tally (fchan x p) → SameConfig x (modChan p g x) :=
    fun p g h => sameConfig_tput h
  unfold loadTrim
  split
  · split
    · exact ⟨⟨rfl, quiet_congr rfl⟩, rfl, fun _ => id⟩
    · exact ⟨⟨rfl, quiet_congr rfl⟩, rfl, fun _ => id⟩
  · dsimp only
    split
    · exact placed _ _ rfl
    · exact (placed (t.pos % 16) (fun c => { c with trimBad := c.trimBad ||| 2 ^ t.set }) rfl).trans ⟨⟨rfl, quiet_congr rfl⟩, rfl, fun _ => id⟩

theorem sameConfig_markFailed (i : FrondEdgeIn) (x : Frond) : SameConfig x (markFailed i x) := by
  refine (SameConfig.foldl (fun x c => sameConfig_critFail c x) i.crit x).trans ?_
  unfold markFailed reloadTrim
  split
  · exact .refl _
  · refine SameConfig.trans ?_ (SameConfig.foldl (fun x t => sameConfig_loadTrim t x) _ _)
    exact ⟨⟨rfl, quiet_congr rfl⟩, rfl, fun _ => id⟩

/-! Clears and outputs -/

theorem sameConfig_tryLeaveSafe (x : Frond) : SameConfig x (tryLeaveSafe x) := by
  unfold tryLeaveSafe
  split
  · next leaves =>
    refine ⟨⟨rfl, quiet_tmap (x := { x with safe := false }) fun p c => ?_⟩, rfl, fun first => ?_⟩
    · exact tally_ite rfl rfl
    · rw [first] at leaves
      simp at leaves
  · exact .refl x

theorem sameConfig_clearChan (p : Nat) (x : Frond) : SameConfig x (clearChan p x) :=
  sameConfig_tput (tally_conducts ..)

theorem sameConfig_clearFrond (x : Frond) : SameConfig x (clearFrond x) := by
  refine SameConfig.trans ?_ (sameConfig_tryLeaveSafe _)
  exact ⟨⟨rfl, quiet_congr rfl⟩, rfl, fun _ => id⟩

theorem sameConfig_clearsOf (d0 : List Byte) (x : Frond) : SameConfig x (clearsOf d0 x) := by
  have cleared := SameConfig.foldl (fun x p => sameConfig_clearChan p x) (bits 16 (getLE d0 20 2)) x
  exact .ite (cleared.trans (sameConfig_clearFrond _)) cleared

/-- Position p's part in taking the output values of an edge. -/
def outTurn (d0 d1 : List Byte) (x : Frond) (p : Nat) : Frond :=
  if !(getLE d0 18 2).testBit p then x
  else
    let w := outWord d0 p
    if (BitVec.ofNat 32 (getLE d1 (4 * p) 4)) ≠ ~~~w then
      { x with outRej := x.outRej ||| 2 ^ p, integMask := x.integMask ||| 2 ^ p, integ := true }
    else
      let ch := fchan x p
      match outLevel x p w with
      | none => { x with chans := tput x.chans p { ch with held := none } }
      | some (v, _) =>
        if x.safe || ch.safe then { x with chans := tput x.chans p { ch with held := none } }
        else
          let ch := { ch with val := v, held := none, drive := .level v,
                              fhOrigin := if ch.fhOrigin = 2 then 2 else 3,
                              fhFirst := if ch.fhOrigin = 2 then 21 else if ch.mode = 2 then 62 else 205 }
          { x with chans := tput x.chans p (conducts x (startReg x p ch)) }

theorem applyOuts_eq (d0 d1 : List Byte) (x : Frond) : applyOuts d0 d1 x =
    if !maskOk d0 d1 then { x with outRej := 65535, integMask := 65535, integ := true } else (List.range 16).foldl (outTurn d0 d1) x := rfl

theorem sameConfig_outTurn (d0 d1 : List Byte) (x : Frond) (p : Nat) : SameConfig x (outTurn d0 d1 x p) := by
  unfold outTurn
  split
  · exact .refl x
  · dsimp only
    split
    · exact ⟨⟨rfl, quiet_congr rfl⟩, rfl, fun _ => id⟩
    · split
      · exact sameConfig_tput rfl
      · split
        · exact sameConfig_tput rfl
        · exact sameConfig_tput ((tally_conducts ..).trans (tally_startReg ..))

theorem sameConfig_takeOutputs (x : Frond) : SameConfig x (takeOutputs x) := by
  unfold takeOutputs
  split
  · next d0 d1 _ _ =>
    refine (sameConfig_clearsOf d0 x).trans ?_
    rw [applyOuts_eq]
    exact .ite ⟨⟨rfl, quiet_congr rfl⟩, rfl, fun _ => id⟩ (SameConfig.foldl (sameConfig_outTurn d0 d1) _ _)
  · exact ⟨⟨rfl, quiet_congr rfl⟩, rfl, fun _ => id⟩

/-! Phase, reference and switches -/

theorem sameConfig_takePhase (own : Nat) (x : Frond) : SameConfig x (takePhase own x) := by
  unfold takePhase
  split
  · exact ⟨⟨rfl, quiet_congr rfl⟩, rfl, fun _ => id⟩
  · refine SameConfig.trans (y := { x with dpc := edgePhase own x }) ⟨⟨rfl, quiet_congr rfl⟩, rfl, fun _ => id⟩ ?_
    unfold setPhase
    exact sameConfig_tmap (x := { x with dpc := edgePhase own x }) fun _ _ => tally_ite rfl rfl

theorem sameConfig_refEdge (i : FrondEdgeIn) (x : Frond) : SameConfig x (refEdge i x) := by
  unfold refEdge
  split
  · exact .refl x
  · exact ⟨⟨rfl, quiet_congr rfl⟩, rfl, fun _ => id⟩

theorem sameConfig_seeSwitch (old x : Frond) : SameConfig x (seeSwitch old x) :=
  sameConfig_tmap fun _ _ => tally_ite rfl rfl

/-! New configurations -/

theorem sameGrid_discardConfig (x : Frond) : SameGrid x (discardConfig x) := by
  refine ⟨?_, fun quiet => ?_⟩
  · unfold discardConfig
    dsimp only
    split <;> rfl
  · unfold discardConfig
    refine quiet_tmap (fun p c => ?_) (quiet_congr (x := x) ?_ quiet)
    · dsimp only
      split
      · rfl
      · exact tally_newMode ..
    · dsimp only
      split <;> rfl

theorem discardConfig_conf (x : Frond) : confOf (discardConfig x) = (0, true, [], false, none, false) ∧ (discardConfig x).safe = true ∧
    (discardConfig x).total = 0 := by
  unfold discardConfig
  dsimp only
  split <;> exact ⟨rfl, rfl, rfl⟩

/-- A position's channel under the items of an epoch. -/
def chanItems (old x : Frond) (p : Nat) : Frond :=
  let ch := fchan x p
  let m := fld (fwin x p 0x2104) 0 4
  { x with chans := tput x.chans p (if m ≠ ch.mode then newMode x p ch else newFields old x p ch) }

/-- A frond's own fields under the items of an epoch. -/
def ownItems (items : List (Nat × Word)) (ep : Half) (x : Frond) : Frond :=
  let old := x
  let x := { x with cfg := items.foldl (fun (t : Tab Word) (e : Nat × Word) => tput t e.1 e.2) x.cfg, epoch := ep, noCfg := false, res := none,
                    items := [], total := 0 }
  let x := { x with vsOn := if x.shutdown then 0 else fld (freg x 0x3180) 0 4 }
  if fld (freg old 0x3280) 0 2 = fld (freg x 0x3280) 0 2 then x else { x with refRdy := false, refFor := 0 }

/-- The first epoch ends the safe state (R122). -/
def firstEdge (old x : Frond) : Frond := if old.firstEpoch then x else tryLeaveSafe { x with firstEpoch := true }

theorem applyItems_eq (items : List (Nat × Word)) (ep : Half) (x : Frond) :
    applyItems items ep x = (List.range 16).foldl (chanItems x) (firstEdge x (ownItems items ep x)) := rfl

theorem sameConfig_chanItems (old x : Frond) (p : Nat) : SameConfig x (chanItems old x p) :=
  sameConfig_tput (tally_ite (tally_newMode ..) (tally_newFields ..))

/-- The frond has the epoch in force, and no resolution stands. -/
def InForce (ep : Half) (x : Frond) : Prop := x.epoch = ep ∧ x.noCfg = false ∧ x.res = none

theorem ownItems_inForce (items : List (Nat × Word)) (ep : Half) (x : Frond) :
    SameGrid x (ownItems items ep x) ∧ InForce ep (ownItems items ep x) := by
  unfold ownItems
  refine iteInduction (motive := fun y => SameGrid x y ∧ InForce ep y) (fun _ => ?_) (fun _ => ?_)
  · exact ⟨⟨rfl, quiet_congr rfl⟩, rfl, rfl, rfl⟩
  · exact ⟨⟨rfl, quiet_congr rfl⟩, rfl, rfl, rfl⟩

theorem SameConfig.inForce {x y : Frond} (h : SameConfig x y) {ep : Half} (k : InForce ep x) : InForce ep y := by
  have conf := h.conf
  simp only [confOf, Prod.mk.injEq] at conf
  obtain ⟨epoch, noCfg, _, _, res, _⟩ := conf
  obtain ⟨epoch', noCfg', res'⟩ := k
  exact ⟨epoch.trans epoch', noCfg.trans noCfg', res.trans res'⟩

theorem firstEdge_inForce (old : Frond) {x : Frond} {ep : Half} (h : InForce ep x) :
    SameGrid x (firstEdge old x) ∧ InForce ep (firstEdge old x) := by
  unfold firstEdge
  split
  · exact ⟨⟨rfl, id⟩, h⟩
  · exact ⟨SameGrid.trans (y := { x with firstEpoch := true }) ⟨rfl, quiet_congr rfl⟩ (sameConfig_tryLeaveSafe _).toGrid,
      (sameConfig_tryLeaveSafe _).inForce h⟩

/-- The items of an epoch leave the grid and bring the epoch into force. -/
theorem applyItems_inForce (items : List (Nat × Word)) (ep : Half) (x : Frond) :
    SameGrid x (applyItems items ep x) ∧ InForce ep (applyItems items ep x) := by
  obtain ⟨own, force⟩ := ownItems_inForce items ep x
  obtain ⟨first, force⟩ := firstEdge_inForce x force
  have chans := SameConfig.foldl (sameConfig_chanItems x) (List.range 16) (firstEdge x (ownItems items ep x))
  rw [applyItems_eq]
  exact ⟨(own.trans first).trans chans.toGrid, chans.inForce force⟩

theorem sameGrid_afterWipe (x : Frond) : SameGrid x (afterWipe x) := by
  unfold afterWipe
  split
  · exact sameGrid_discardConfig x
  · exact ⟨rfl, id⟩

theorem sameGrid_newEpoch (x : Frond) : SameGrid x (newEpoch x) := by
  unfold newEpoch
  split
  · exact (applyItems_inForce ..).1
  · split
    · exact (applyItems_inForce ..).1
    · exact ⟨rfl, id⟩

/-- A frond that has discarded its configuration has nothing to apply. -/
theorem newEpoch_discarded (x : Frond) : newEpoch (discardConfig x) = discardConfig x := by
  obtain ⟨conf, _, total⟩ := discardConfig_conf x
  simp only [confOf, Prod.mk.injEq] at conf
  obtain ⟨_, _, _, _, res, _⟩ := conf
  unfold newEpoch
  rw [res]
  dsimp only
  rw [if_neg]
  simp [holdsAll, total]

/-! ## The edge as a whole -/

theorem startEdge_quiet (i : FrondEdgeIn) (x : Frond) : Quiet (startEdge i x) := fun p => by
  unfold startEdge fchan
  rcases tget_tmap_or ({} : FChan) (fun p c => newTick (moveGrid i.since (linkEdge x)).1 (250 * fsteps x)
    (diagCtx (moveGrid i.since (linkEdge x)).2 p c) c) p (moveGrid i.since (linkEdge x)).2.chans with e | ⟨e, _⟩
  · exact (congrArg tally e).trans rfl
  · exact congrArg tally e

theorem startEdge_conf (i : FrondEdgeIn) (x : Frond) : confOf (startEdge i x) = confOf x := by
  unfold startEdge moveGrid linkEdge
  dsimp only
  split <;> rfl

/-- The supply, the ALIVE value and the held frames after the start of an edge, which is no restart edge any more. -/
theorem startEdge_held (i : FrondEdgeIn) (x : Frond) : ((startEdge i x).power, (startEdge i x).upAlive, (startEdge i x).d0, (startEdge i x).d1,
    (startEdge i x).restart, (startEdge i x).safe, (startEdge i x).critLost) = (x.power, x.upAlive, x.d0, x.d1, false, x.safe, x.critLost) := by
  unfold startEdge moveGrid linkEdge
  dsimp only
  split <;> rfl

theorem startEdge_restart (i : FrondEdgeIn) {x : Frond} (h : x.restart = true) :
    ((startEdge i x).edge, (startEdge i x).frac) = (x.edge + i.since, 0) := by
  unfold startEdge moveGrid
  rw [show (linkEdge x).restart = x.restart from rfl, h]
  rfl

theorem startEdge_moves (i : FrondEdgeIn) {x : Frond} (h : x.restart = false) {c e : Int} (hc : c = if x.d0.isSome ∧ x.d1.isSome then x.corr else 0)
    (he : e = x.frac + 32 * tickCounts x + c) : ((startEdge i x).edge, (startEdge i x).frac) = (x.edge + (e / 32).toNat, (e % 32).toNat) := by
  subst hc he
  unfold startEdge moveGrid
  rw [show (linkEdge x).restart = x.restart from rfl, h, if_neg Bool.false_ne_true]
  simp only [Bool.and_eq_true]
  rfl

/-- The work of an edge after its start, up to the configuration in force. -/
def edgeConfig (i : FrondEdgeIn) (x : Frond) : Frond := newEpoch (afterWipe (markFailed i x))

/-- The work of an edge from its outputs on. -/
def edgeOutputs (own : Nat) (i : FrondEdgeIn) (old x : Frond) : Frond := seeSwitch old (refEdge i (takePhase own (takeOutputs x)))

theorem sameGrid_edgeConfig (i : FrondEdgeIn) (x : Frond) : SameGrid x (edgeConfig i x) :=
  ((sameConfig_markFailed i x).toGrid.trans (sameGrid_afterWipe _)).trans (sameGrid_newEpoch _)

theorem sameConfig_edgeOutputs (own : Nat) (i : FrondEdgeIn) (old x : Frond) : SameConfig x (edgeOutputs own i old x) :=
  (((sameConfig_takeOutputs x).trans (sameConfig_takePhase own _)).trans (sameConfig_refEdge i _)).trans (sameConfig_seeSwitch old _)

theorem markFailed_conf (i : FrondEdgeIn) (x : Frond) : (markFailed i x).wipe = x.wipe ∧ (markFailed i x).res = x.res ∧
    (markFailed i x).noCfg = x.noCfg := by
  have conf := (sameConfig_markFailed i x).conf
  simp only [confOf, Prod.mk.injEq] at conf
  obtain ⟨_, noCfg, _, wipe, res, _⟩ := conf
  exact ⟨wipe, res, noCfg⟩

theorem edgeConfig_wipe (i : FrondEdgeIn) {x : Frond} (h : x.wipe = true) : edgeConfig i x = discardConfig (markFailed i x) := by
  unfold edgeConfig afterWipe
  rw [(markFailed_conf i x).1, h, if_pos rfl, newEpoch_discarded]

theorem edgeConfig_resolved (i : FrondEdgeIn) {x : Frond} {items : List (Nat × Word)} {ep : Half} (h : x.wipe = false)
    (hr : x.res = some (items, ep)) : InForce ep (edgeConfig i x) := by
  obtain ⟨wipe, res, _⟩ := markFailed_conf i x
  unfold edgeConfig afterWipe
  rw [wipe, h, if_neg Bool.false_ne_true]
  unfold newEpoch
  rw [res, hr]
  exact (applyItems_inForce ..).2

theorem edgeConfig_none (i : FrondEdgeIn) {x : Frond} (h : x.wipe = false) (hr : x.res = none) (hc : x.noCfg = false) :
    edgeConfig i x = markFailed i x := by
  obtain ⟨wipe, res, noCfg⟩ := markFailed_conf i x
  unfold edgeConfig afterWipe
  rw [wipe, h, if_neg Bool.false_ne_true]
  unfold newEpoch
  rw [res, hr]
  dsimp only
  rw [noCfg, hc]
  rfl

/-- The rejected outputs of an edge stand from its outputs on. -/
theorem edgeOutputs_rej (own : Nat) (i : FrondEdgeIn) (old x : Frond) : (edgeOutputs own i old x).outRej = (takeOutputs x).outRej := by
  have referenced : ∀ y, (refEdge i y).outRej = y.outRej := fun y => by
    unfold refEdge
    split <;> rfl
  refine Eq.trans (referenced _) ?_
  unfold takePhase
  split <;> rfl

theorem takeOutputs_rej {x : Frond} (h : x.d0 = none ∨ x.d1 = none) : (takeOutputs x).outRej = maskHeld x.d0 x.d1 := by
  unfold takeOutputs
  split
  · next d0 d1 h0 h1 =>
    rw [h0, h1] at h
    simp at h
  · rfl

/-! ## An output value that the edge takes (R25, R74, R344) -/

/-- What decides whether and how position p takes an output word. -/
def outRules (p : Nat) (x : Frond) : Tab Word × List Nat × Bool × Nat × Bool :=
  (x.cfg, x.critLost, x.safe, (fchan x p).mode, (fchan x p).safe)

theorem outLevel_congr {x y : Frond} {p : Nat} (h : outRules p y = outRules p x) (w : Word) : outLevel y p w = outLevel x p w := by
  simp only [outRules, Prod.mk.injEq] at h
  obtain ⟨cfg, lost, _, mode, _⟩ := h
  unfold outLevel almLevel fwin
  rw [cfg, lost, mode]

theorem outRules_tmap {x : Frond} {g : Nat → FChan → FChan} (h : ∀ p c, ((g p c).mode, (g p c).safe) = (c.mode, c.safe)) (p : Nat) :
    outRules p { x with chans := tmap x.chans g } = outRules p x := by
  have kept := fchan_tmap (fun c => (c.mode, c.safe)) h x p
  simp only [Prod.mk.injEq] at kept
  obtain ⟨mode, safe⟩ := kept
  simp only [outRules, mode, safe]

theorem outRules_startEdge (i : FrondEdgeIn) (x : Frond) (p : Nat) : outRules p (startEdge i x) = outRules p x := by
  unfold startEdge
  dsimp only
  refine (outRules_tmap (x := (moveGrid i.since (linkEdge x)).2) (g := fun p ch => newTick (moveGrid i.since (linkEdge x)).1 (250 * fsteps x)
    (diagCtx (moveGrid i.since (linkEdge x)).2 p ch) ch) (fun _ _ => rfl) p).trans ?_
  unfold moveGrid
  split <;> rfl

theorem outRules_modChan {g : FChan → FChan} (h : ∀ c, ((g c).mode, (g c).safe) = (c.mode, c.safe)) (q : Nat) (x : Frond) (p : Nat) :
    outRules p (modChan q g x) = outRules p x := by
  have kept : ((fchan (modChan q g x) p).mode, (fchan (modChan q g x) p).safe) = ((fchan x p).mode, (fchan x p).safe) := by
    by_cases e : p = q
    · rw [e, fchan_modChan_same]
      exact h _
    · rw [fchan_modChan_other e]
  simp only [Prod.mk.injEq] at kept
  obtain ⟨mode, safe⟩ := kept
  unfold outRules
  rw [mode, safe]
  rfl

theorem outRules_loadTrim (t : TrimIn) (x : Frond) (p : Nat) : outRules p (loadTrim t x) = outRules p x := by
  unfold loadTrim
  split
  · split <;> rfl
  · dsimp only
    split
    · refine outRules_modChan ?_ _ x p
      exact fun _ => rfl
    · exact outRules_modChan (g := fun c => { c with trimBad := c.trimBad ||| 2 ^ t.set }) (fun _ => rfl) (t.pos % 16) x p

theorem outRules_markFailed {i : FrondEdgeIn} (h : i.crit = []) (x : Frond) (p : Nat) : outRules p (markFailed i x) = outRules p x := by
  have loaded : ∀ (l : List TrimIn) (x : Frond), outRules p (l.foldl (fun x t => loadTrim t x) x) = outRules p x := fun l => by
    induction l with
    | nil => exact fun _ => rfl
    | cons t l ih => exact fun x => (ih (loadTrim t x)).trans (outRules_loadTrim t x p)
  unfold markFailed reloadTrim
  rw [h]
  split
  · rfl
  · exact loaded _ _

theorem outRules_takeMeans (vref : Nat) (i : FrondEdgeIn) (x : Frond) (p : Nat) : outRules p (takeMeans vref i x) = outRules p x := by
  refine outRules_tmap ?_ p
  exact fun _ _ => rfl

/-- What position p's own turn sees of the frond. -/
def outView (p : Nat) (x : Frond) : Tab Word × List Nat × Bool × FChan := (x.cfg, x.critLost, x.safe, fchan x p)

theorem outView_outTurn {p j : Nat} (h : p ≠ j) (d0 d1 : List Byte) (x : Frond) : outView p (outTurn d0 d1 x j) = outView p x := by
  have placed : ∀ c, outView p { x with chans := tput x.chans j c } = outView p x := fun c => by
    unfold outView
    rw [fchan_tput_other h]
  unfold outTurn
  split
  · rfl
  · dsimp only
    split
    · rfl
    · split
      · exact placed _
      · split
        · exact placed _
        · exact placed _

theorem outRules_of_outView {x y : Frond} {p : Nat} (h : outView p y = outView p x) : outRules p y = outRules p x :=
  congrArg (fun v : Tab Word × List Nat × Bool × FChan => (v.1, v.2.1, v.2.2.1, v.2.2.2.mode, v.2.2.2.safe)) h

/-- What a channel delivers, and its value in force. -/
def delivers (c : FChan) : Drive × Nat := (c.drive, c.val)

theorem delivers_conducts (x : Frond) (c : FChan) : delivers (conducts x c) = delivers c := by
  unfold conducts
  split <;> rfl

theorem delivers_startReg (x : Frond) (p : Nat) (c : FChan) : delivers (startReg x p c) = delivers c := by
  unfold startReg
  split <;> rfl

/-- A checked value that Table 2-6 takes is delivered from its position's turn on. -/
theorem outTurn_delivers {d0 d1 : List Byte} {x : Frond} {p v : Nat} {cl : Bool} (named : (getLE d0 18 2).testBit p = true)
    (checks : BitVec.ofNat 32 (getLE d1 (4 * p) 4) = ~~~(outWord d0 p)) (hx : x.safe = false) (hc : (fchan x p).safe = false)
    (level : outLevel x p (outWord d0 p) = some (v, cl)) : delivers (fchan (outTurn d0 d1 x p) p) = (.level v, v) := by
  unfold outTurn
  rw [named, if_neg (by decide)]
  dsimp only
  rw [if_neg (fun h => h checks), level]
  dsimp only
  rw [if_neg (by rw [hx, hc]; decide), fchan_tput_same, delivers_conducts, delivers_startReg]
  rfl

theorem clearsOf_none {d0 : List Byte} (h : getLE d0 20 2 = 0) (k : (getLE d0 13 1).testBit 1 = false) (x : Frond) : clearsOf d0 x = x := by
  have none : bits 16 0 = [] := by decide
  unfold clearsOf
  rw [h, k, none]
  rfl

theorem takeOutputs_delivers {d0 d1 : List Byte} {x : Frond} {p v : Nat} {cl : Bool} (h0 : x.d0 = some d0) (h1 : x.d1 = some d1)
    (clears : getLE d0 20 2 = 0) (frond : (getLE d0 13 1).testBit 1 = false) (hp : p < 16) (named : (getLE d0 18 2).testBit p = true)
    (pair : maskOk d0 d1 = true) (checks : BitVec.ofNat 32 (getLE d1 (4 * p) 4) = ~~~(outWord d0 p)) (hx : x.safe = false)
    (hc : (fchan x p).safe = false) (level : outLevel x p (outWord d0 p) = some (v, cl)) :
    delivers (fchan (takeOutputs x) p) = (.level v, v) := by
  obtain ⟨a, b, split, ha, hb⟩ := range_at hp
  have others : ∀ x j, p ≠ j → outView p (outTurn d0 d1 x j) = outView p x := fun x j h => outView_outTurn h d0 d1 x
  have before := outRules_of_outView (view_foldl (outView p) others a x ha)
  have after := view_foldl (outView p) others b (outTurn d0 d1 (a.foldl (outTurn d0 d1) x) p) hb
  have after := congrArg (fun v => delivers v.2.2.2) after
  have same := outLevel_congr before (outWord d0 p)
  simp only [outRules, Prod.mk.injEq] at before
  obtain ⟨_, _, safe, _, chanSafe⟩ := before
  unfold takeOutputs
  rw [h0, h1]
  dsimp only
  rw [clearsOf_none clears frond, applyOuts_eq, pair, if_neg (by decide), split, List.foldl_append, List.foldl_cons]
  exact after.trans (outTurn_delivers named checks (safe.trans hx) (chanSafe.trans hc) (same.trans level))

theorem delivers_takePhase (own : Nat) (x : Frond) (p : Nat) : delivers (fchan (takePhase own x) p) = delivers (fchan x p) := by
  unfold takePhase
  split
  · rfl
  · unfold setPhase
    refine fchan_tmap delivers (fun _ _ => ?_) { x with dpc := edgePhase own x } p
    dsimp only
    split <;> rfl

theorem delivers_refEdge (i : FrondEdgeIn) (x : Frond) (p : Nat) : delivers (fchan (refEdge i x) p) = delivers (fchan x p) := by
  unfold refEdge
  split <;> rfl

theorem delivers_seeSwitch (old x : Frond) (p : Nat) : delivers (fchan (seeSwitch old x) p) = delivers (fchan x p) := by
  refine fchan_tmap delivers (fun _ _ => ?_) x p
  split <;> rfl

theorem delivers_edgeOutputs (own : Nat) (i : FrondEdgeIn) (old x : Frond) (p : Nat) :
    delivers (fchan (edgeOutputs own i old x) p) = delivers (fchan (takeOutputs x) p) :=
  (delivers_seeSwitch _ _ p).trans ((delivers_refEdge i _ p).trans (delivers_takePhase own _ p))

/-! ## The frond after its edge -/

/-- The frond after the work of its edge. -/
def frondWork (i : FrondEdgeIn) (x : Frond) : Frond :=
  seeSwitch (takeMeans (vrefOf x i) i x) (frondEdge i (takeMeans (vrefOf x i) i x)).1

/-- The frond when its edge has been reported: the downlink of the tick is gone. -/
def endEdge (edge : Nat) (y : Frond) : Frond :=
  let n := y.edge - edge
  { y with aSeen := false, bSeen := false, d0 := none, d1 := none, echoA := 0xFFFFFF, echoB := 0xFFFFFF,
           integ := false, integMask := 0, rejoin := false, snapLost := 0, copies := [], corr := 0,
           snaps := (y.snaps.filter (fun e => e.2.2 != 0)).map (fun e => (e.1 - n, e.2)) }

/-- The frond when its edge has been reported with ALIVE values up to a. -/
def afterReports (a : Byte) (edge : Nat) (y : Frond) : Frond := { endEdge edge y with upAlive := a }

/-- What the reports of an edge leave of its work. -/
theorem afterReports_keeps {a : Byte} {edge : Nat} {y r : Frond} (h : r = afterReports a edge y) :
    r.upAlive = a ∧ (r.edge, r.frac) = (y.edge, y.frac) ∧
    (r.aSeen, r.bSeen, r.d0, r.d1, r.copies, r.power) = (false, false, none, none, [], y.power) ∧
    (r.corr, r.restart, r.rejoin) = (0, y.restart, false) ∧
    (r.epoch, r.noCfg, r.cfg, r.safe, r.wipe) = (y.epoch, y.noCfg, y.cfg, y.safe, y.wipe) ∧ r.outRej = y.outRej ∧ r.res = y.res ∧
    r.chans = y.chans := by
  subst h
  exact ⟨rfl, rfl, rfl, rfl, rfl, rfl, rfl, rfl⟩

theorem frondWork_eq (i : FrondEdgeIn) (x : Frond) : ∃ own, frondWork i x = edgeOutputs own i (takeMeans (vrefOf x i) i x)
    (edgeConfig i (startEdge i (takeMeans (vrefOf x i) i x))) := by
  obtain ⟨own, e⟩ := frondEdge_eq i (takeMeans (vrefOf x i) i x)
  unfold frondWork
  rw [e]
  exact ⟨own, rfl⟩

/-- The work of an edge leaves the grid of its start, and no channel counts. -/
theorem frondWork_grid (i : FrondEdgeIn) (x : Frond) :
    heldGrid (frondWork i x) = heldGrid (startEdge i (takeMeans (vrefOf x i) i x)) ∧ Quiet (frondWork i x) := by
  obtain ⟨own, e⟩ := frondWork_eq i x
  have same := (sameGrid_edgeConfig i (startEdge i (takeMeans (vrefOf x i) i x))).trans
    (sameConfig_edgeOutputs own i (takeMeans (vrefOf x i) i x) _).toGrid
  rw [e]
  exact ⟨same.grid, same.quiet (startEdge_quiet i _)⟩

theorem frondWork_held (i : FrondEdgeIn) (x : Frond) : (frondWork i x).power = x.power ∧ (frondWork i x).upAlive = x.upAlive ∧
    (frondWork i x).restart = false ∧ ((frondWork i x).edge, (frondWork i x).frac) =
      ((startEdge i (takeMeans (vrefOf x i) i x)).edge, (startEdge i (takeMeans (vrefOf x i) i x)).frac) := by
  have grid := (frondWork_grid i x).1
  have held := startEdge_held i (takeMeans (vrefOf x i) i x)
  simp only [heldGrid, Prod.mk.injEq] at grid held
  obtain ⟨power, alive, edge, frac, _, _, restart⟩ := grid
  obtain ⟨power', alive', _, _, restart', _⟩ := held
  exact ⟨power.trans power', alive.trans alive', restart.trans restart', by rw [edge, frac]⟩

theorem startEdge_wipe (i : FrondEdgeIn) (x : Frond) : (startEdge i x).wipe = x.wipe ∧ (startEdge i x).res = x.res ∧
    (startEdge i x).noCfg = x.noCfg := by
  have conf := startEdge_conf i x
  simp only [confOf, Prod.mk.injEq] at conf
  obtain ⟨_, noCfg, _, wipe, res, _⟩ := conf
  exact ⟨wipe, res, noCfg⟩

theorem frondWork_wiped (i : FrondEdgeIn) {x : Frond} (h : x.wipe = true) : ((frondWork i x).epoch, (frondWork i x).noCfg, (frondWork i x).cfg,
    (frondWork i x).safe, (frondWork i x).wipe) = (0, true, [], true, false) := by
  obtain ⟨own, e⟩ := frondWork_eq i x
  rw [edgeConfig_wipe i (x := startEdge i (takeMeans (vrefOf x i) i x)) ((startEdge_wipe i _).1.trans h)] at e
  obtain ⟨conf, safe, _⟩ := discardConfig_conf (markFailed i (startEdge i (takeMeans (vrefOf x i) i x)))
  have same := sameConfig_edgeOutputs own i (takeMeans (vrefOf x i) i x) (discardConfig (markFailed i (startEdge i (takeMeans (vrefOf x i) i x))))
  rw [← e] at same
  have kept := same.conf.trans conf
  simp only [confOf, Prod.mk.injEq] at conf kept
  obtain ⟨_, _, _, _, _, first⟩ := conf
  obtain ⟨epoch, noCfg, cfg, wipe, _⟩ := kept
  rw [epoch, noCfg, cfg, wipe, same.safe first safe]

theorem frondWork_resolved (i : FrondEdgeIn) {x : Frond} {items : List (Nat × Word)} {ep : Half} (h : x.wipe = false)
    (hr : x.res = some (items, ep)) : InForce ep (frondWork i x) := by
  obtain ⟨own, e⟩ := frondWork_eq i x
  obtain ⟨wipe, res, _⟩ := startEdge_wipe i (takeMeans (vrefOf x i) i x)
  rw [e]
  exact (sameConfig_edgeOutputs own i _ _).inForce (edgeConfig_resolved i (wipe.trans h) (res.trans hr))

/-- The downlink frames that the outputs of an edge see are those held before it. -/
theorem edgeConfig_frames (i : FrondEdgeIn) (x : Frond) :
    (edgeConfig i (startEdge i x)).d0 = x.d0 ∧ (edgeConfig i (startEdge i x)).d1 = x.d1 := by
  have grid := (sameGrid_edgeConfig i (startEdge i x)).grid
  have held := startEdge_held i x
  simp only [heldGrid, Prod.mk.injEq] at grid held
  obtain ⟨_, _, _, _, d0, d1, _⟩ := grid
  obtain ⟨_, _, d0', d1', _⟩ := held
  exact ⟨d0.trans d0', d1.trans d1'⟩

theorem frondWork_rej (i : FrondEdgeIn) {x : Frond} (h : x.d0 = none ∨ x.d1 = none) : (frondWork i x).outRej = maskHeld x.d0 x.d1 := by
  obtain ⟨own, e⟩ := frondWork_eq i x
  obtain ⟨d0, d1⟩ := edgeConfig_frames i (takeMeans (vrefOf x i) i x)
  rw [e, edgeOutputs_rej, takeOutputs_rej (by rw [d0, d1]; exact h), d0, d1]
  rfl

theorem frondWork_delivers {i : FrondEdgeIn} {x : Frond} {d0 d1 : List Byte} {p v : Nat} {cl : Bool} (h0 : x.d0 = some d0) (h1 : x.d1 = some d1)
    (wipe : x.wipe = false) (res : x.res = none) (cfg : x.noCfg = false) (crit : i.crit = []) (clears : getLE d0 20 2 = 0)
    (frond : (getLE d0 13 1).testBit 1 = false) (hp : p < 16) (named : (getLE d0 18 2).testBit p = true) (pair : maskOk d0 d1 = true)
    (checks : BitVec.ofNat 32 (getLE d1 (4 * p) 4) = ~~~(outWord d0 p)) (hx : x.safe = false) (hc : (fchan x p).safe = false)
    (level : outLevel x p (outWord d0 p) = some (v, cl)) : delivers (fchan (frondWork i x) p) = (.level v, v) := by
  obtain ⟨own, e⟩ := frondWork_eq i x
  obtain ⟨wipe', res', cfg'⟩ := startEdge_wipe i (takeMeans (vrefOf x i) i x)
  obtain ⟨f0, f1⟩ := edgeConfig_frames i (takeMeans (vrefOf x i) i x)
  have rules := (outRules_markFailed crit (startEdge i (takeMeans (vrefOf x i) i x)) p).trans
    ((outRules_startEdge i (takeMeans (vrefOf x i) i x) p).trans (outRules_takeMeans (vrefOf x i) i x p))
  have unchanged := edgeConfig_none i (wipe'.trans wipe) (res'.trans res) (cfg'.trans cfg)
  rw [← unchanged] at rules
  have same := outLevel_congr rules (outWord d0 p)
  simp only [outRules, Prod.mk.injEq] at rules
  obtain ⟨_, _, safe, _, chanSafe⟩ := rules
  rw [e, delivers_edgeOutputs]
  exact takeOutputs_delivers (f0.trans h0) (f1.trans h1) clears frond hp named pair checks (safe.trans hx) (chanSafe.trans hc) (same.trans level)

/-! ## The uplink frames of an edge (R334, R336) -/

theorem fieldOf_sendUp (f : Nat) (fid : Byte) (p : List Byte) (fl : List Nat) (s : State) :
    fieldOf (sendUp f fid p fl s) f = { fieldOf s f with upAlive := (fieldOf s f).upAlive + 1 } :=
  tget_tmod_same ({} : Frond) s.field f (fun x => { x with upAlive := (fieldOf s f).upAlive + 1 })

theorem outbox_sendUp (f : Nat) (fid : Byte) (p : List Byte) (fl : List Nat) (s : State) :
    (sendUp f fid p fl s).outbox = .up f (frameBytes ((fieldOf s f).upAlive + 1) fid p) fl :: s.outbox := rfl

/-- Frames sent one after the other: one in the outbox and one ALIVE value for each. -/
theorem foldl_sendUp (f : Nat) (fid : Nat → Byte) (pay : Nat → List Byte) (fl : Nat → List Nat) : ∀ (l : List Nat) (s : State),
    ∃ m, m.length = l.length ∧ (l.foldl (fun s q => sendUp f (fid q) (pay q) (fl q) s) s).outbox = m ++ s.outbox ∧
      fieldOf (l.foldl (fun s q => sendUp f (fid q) (pay q) (fl q) s) s) f =
        { fieldOf s f with upAlive := (fieldOf s f).upAlive + BitVec.ofNat 8 l.length }
  | [], s => ⟨[], rfl, rfl, by simp⟩
  | q :: l, s => by
    obtain ⟨m, len, out, field⟩ := foldl_sendUp f fid pay fl l (sendUp f (fid q) (pay q) (fl q) s)
    refine ⟨m ++ [.up f (frameBytes ((fieldOf s f).upAlive + 1) (fid q) (pay q)) (fl q)], by simp [len], ?_, ?_⟩
    · rw [List.foldl_cons, out, outbox_sendUp, List.append_assoc]
      rfl
    · rw [List.foldl_cons, field, fieldOf_sendUp]
      dsimp only
      rw [BitVec.add_assoc, show (1 : Byte) + BitVec.ofNat 8 l.length = BitVec.ofNat 8 (q :: l).length by
        rw [List.length_cons, Nat.add_comm, BitVec.ofNat_add]
        rfl]

theorem length_u0Payload (x : Frond) (cp vref : Nat) (i : FrondEdgeIn) : (u0Payload x cp vref i).length = 34 := by
  simp only [u0Payload, List.length_append, length_le]

/-- The module when frond f's edge has been worked and its reports are still to send. -/
def edgeTaken (f : Nat) (i : FrondEdgeIn) (s : State) : State :=
  { s with field := tput s.field f (endEdge (fieldOf s f).edge (frondWork i (fieldOf s f))),
           tm := { s.tm with syncCleared := s.tm.syncCleared + (frondEdge i (takeMeans (vrefOf (fieldOf s f) i) i (fieldOf s f))).2 } }

/-- The payload of the U0 that reports an edge. -/
def edgeReport (i : FrondEdgeIn) (x : Frond) : List Byte :=
  u0Payload (frondWork i x) (cpair (takeMeans (vrefOf x i) i x)) (vrefOf x i) i

theorem frondTickEdge_sends {f : Nat} (i : FrondEdgeIn) {s : State} (h : (fieldOf s f).power = true) :
    ∃ (fid : Nat → Byte) (pay : Nat → List Byte) (fl : Nat → List Nat),
      exec (.frondTickEdge f i) s = .next ((if (fieldOf s f).restart then [] else List.range 4).foldl
        (fun s q => sendUp f (fid q) (pay q) (fl q) s) (sendUp f 0x00 (edgeReport i (fieldOf s f)) [] (edgeTaken f i s))) := by
  have powered : ¬ (!(fieldOf s f).power) = true := by simp [h]
  cases restart : (fieldOf s f).restart with
  | true =>
    have restart : (takeMeans (vrefOf (fieldOf s f) i) i (fieldOf s f)).restart = true := restart
    refine ⟨fun _ => 0, fun _ => [], fun _ => [], ?_⟩
    show execFrondTickEdge f i s = _
    unfold execFrondTickEdge
    dsimp only
    rw [if_neg powered, if_pos restart]
    rfl
  | false =>
    have restart : ¬ (takeMeans (vrefOf (fieldOf s f) i) i (fieldOf s f)).restart = true := by
      rw [show (takeMeans (vrefOf (fieldOf s f) i) i (fieldOf s f)).restart = false from restart]
      decide
    refine ⟨fun q => BitVec.ofNat 8 (q + 1), ?_, ?_, ?_⟩
    show execFrondTickEdge f i s = _
    unfold execFrondTickEdge
    dsimp only
    rw [if_neg powered, if_neg restart]
    rfl

/-- A powered frond's edge leaves the frond as its work did, but for the downlink it has used and the ALIVE values of what it sent: U0
first, then four frames more outside a restart. -/
theorem frondTickEdge_next {f : Nat} (i : FrondEdgeIn) {s : State} {x : Frond} (hx : x = fieldOf s f) (h : x.power = true) : ∃ t l,
    exec (.frondTickEdge f i) s = .next t ∧ t.outbox = l ++ s.outbox ∧ l.length = (if x.restart then 1 else 5) ∧
      l.getLast? = some (.up f (frameBytes (x.upAlive + 1) 0x00 (edgeReport i x)) []) ∧
      fieldOf t f = afterReports (x.upAlive + (if x.restart then 1 else 5)) x.edge (frondWork i x) := by
  subst hx
  obtain ⟨fid, pay, fl, e⟩ := frondTickEdge_sends i h
  obtain ⟨m, len, out, field⟩ := foldl_sendUp f fid pay fl (if (fieldOf s f).restart then [] else List.range 4)
    (sendUp f 0x00 (edgeReport i (fieldOf s f)) [] (edgeTaken f i s))
  have taken : fieldOf (edgeTaken f i s) f = endEdge (fieldOf s f).edge (frondWork i (fieldOf s f)) := tget_tput_same _ _ _ _
  have alive : (endEdge (fieldOf s f).edge (frondWork i (fieldOf s f))).upAlive = (fieldOf s f).upAlive := (frondWork_held i _).2.1
  have count : ∀ r : Bool, (if r then ([] : List Nat) else List.range 4).length + 1 = if r then 1 else 5 := by decide
  have add : ∀ (r : Bool) (a : Byte), a + 1 + BitVec.ofNat 8 (if r then ([] : List Nat) else List.range 4).length = a + if r then 1 else 5 :=
    fun r a => by cases r <;> exact BitVec.add_assoc a _ _
  rw [outbox_sendUp, taken, alive] at out
  rw [fieldOf_sendUp, taken] at field
  dsimp only at field
  rw [alive, add] at field
  refine ⟨_, m ++ [.up f (frameBytes ((fieldOf s f).upAlive + 1) 0x00 (edgeReport i (fieldOf s f))) []], e, ?_, ?_, ?_, field⟩
  · rw [out, List.append_assoc]
    rfl
  · rw [List.length_append, len]
    exact count _
  · exact List.getLast?_concat

/-- Settles O56: the stages of an edge leave the grid of its start, and those from the outputs on leave the configuration in force. -/
theorem frondTickEdgesApplyAndReport : Obligations.FrondTickEdgesApplyAndReport := by
  unfold Obligations.FrondTickEdgesApplyAndReport
  intro f i x s hx power
  obtain ⟨t, l, e, out, len, first, field⟩ := frondTickEdge_next i hx power
  obtain ⟨alive, moved, gone, marks, conf, rej, res, chans⟩ := afterReports_keeps field
  obtain ⟨held, _, restarted, grid⟩ := frondWork_held i x
  have frame : Only [.outbox, .sync, .field] s t := by
    obtain ⟨u, eu, only⟩ := only_execFrondTickEdge s f i
    exact Host.Outcome.next.inj (eu.symm.trans e) ▸ only
  have others : ∀ g, g ≠ f → fieldOf t g = fieldOf s g := by
    obtain ⟨u, eu, inField⟩ := row_FrondTickEdge s f i
    exact Host.Outcome.next.inj (eu.symm.trans e) ▸ inField.others
  rw [held, power] at gone
  rw [restarted] at marks
  have report : (edgeReport i x).length = 34 := length_u0Payload _ _ _ _
  refine ⟨t, _, l, e, frame, others, rfl, out, len, alive, ⟨_, report, first⟩, fun again => ?_, fun steady c d hc hd => ?_, gone, marks,
    fun wiped => conf.trans (frondWork_wiped i wiped), fun missing => rej.trans (frondWork_rej i missing), fun d => ⟨rfl, rfl⟩, fun p => ?_,
    fun items ep kept resolved => ?_, ?_⟩
  · exact (moved.trans grid).trans (startEdge_restart i (x := takeMeans (vrefOf x i) i x) again)
  · exact (moved.trans grid).trans (startEdge_moves i (x := takeMeans (vrefOf x i) i x) steady hc hd)
  · have quiet := quiet_congr chans (frondWork_grid i x).2 p
    simp only [tally, Prod.mk.injEq] at quiet
    exact quiet
  · obtain ⟨epoch, noCfg, none⟩ := frondWork_resolved i kept resolved
    simp only [Prod.mk.injEq] at conf
    obtain ⟨epoch', noCfg', _⟩ := conf
    exact ⟨epoch'.trans epoch, res.trans none, noCfg'.trans noCfg⟩
  · intro d0 d1 p v cl w h0 h1 wipe none cfg crit clears frond hp named pair hw checks safe chanSafe level
    subst hw
    have delivered := frondWork_delivers h0 h1 wipe none cfg crit clears frond hp named pair checks safe chanSafe level
    rw [← fchan_congr chans] at delivered
    simp only [delivers, Prod.mk.injEq] at delivered
    exact delivered

end Sys2Proof.Machine
end

section
/-! SUPPORT. A frond's channel: what a command for one channel leaves of the module, and the input integrator. -/

namespace Sys2Proof.Machine

/-! ## Commands for one frond or one channel -/

theorem fieldOf_modField_same (f : Nat) (g : Frond → Frond) (s : State) : fieldOf (modField f g s) f = g (fieldOf s f) :=
  tget_tmod_same _ _ _ _

theorem atFrond_modField (f : Nat) (g : Frond → Frond) (s : State) : AtFrond f s (modField f g s) :=
  ⟨only_modField f g (List.Subset.refl _) (.refl _ s), (inField_modField f g s).others⟩

/-- From x to y nothing changes but the channel at position p. -/
structure ChanOnly (p : Nat) (x y : Frond) : Prop where
  frame : y = { x with chans := y.chans }
  others : ∀ q, q ≠ p → fchan y q = fchan x q

theorem chanOnly_tput (p : Nat) (c : FChan) (x : Frond) : ChanOnly p x { x with chans := tput x.chans p c } :=
  ⟨rfl, fun _ h => fchan_tput_other h x c⟩

theorem chanOnly_modChan (p : Nat) (g : FChan → FChan) (x : Frond) : ChanOnly p x (modChan p g x) := chanOnly_tput p _ x

theorem atChan_modField {ch : Nat} {g : Frond → Frond} {s : State} (h : ChanOnly (ch % 16) (fieldOf s (ch / 16)) (g (fieldOf s (ch / 16)))) :
    AtChan ch s (modField (ch / 16) g s) := by
  refine ⟨atFrond_modField _ g s, ?_⟩
  rw [fieldOf_modField_same]
  exact ⟨h.frame, h.others⟩

/-! ## The raw state at the comparator (R571, Table 2-4) -/

/-- The comparator's edges are half the hysteresis either side of THR_MV, each within the threshold error. -/
theorem rawState_comparator {x : Frond} {p : Nat} (ch : Nat) (v : Int) (m : (fchan x p).mode = 8) (thr : bit (fwin x p 0x2114) 0 = true)
    {mid half err : Int} (hm : mid = 1000 * sgn 16 (fld (fwin x p 0x2114) 16 16)) (hh : half = 10000 * fld (fwin x p 0x2114) 8 7)
    (he : err = 50000 + mid.natAbs / 200) : ∃ up dn, mid + half - err ≤ up ∧ up ≤ mid + half + err ∧ mid - half - err ≤ dn ∧
      dn ≤ mid - half + err ∧ rawState x p ch v = if (fchan x p).raw then !decide (v < dn) else decide (v > up) := by
  have err' : err = 50000 + 5 * (sgn 16 (fld (fwin x p 0x2114) 16 16)).natAbs := by omega
  have wide : -err ≤ err := by omega
  have e : rawState x p ch v = if (fchan x p).raw then !decide (v < mid - half + limit 1 ch (-err) err)
      else decide (v > mid + half + limit 0 ch (-err) err) := by
    unfold rawState
    dsimp only
    rw [m, thr, hm, hh, err']
    rfl
  have up := le_limit 0 ch (-err) err
  have up' := limit_le 0 ch wide
  have dn := le_limit 1 ch (-err) err
  have dn' := limit_le 1 ch wide
  exact ⟨_, _, by omega, by omega, by omega, by omega, e⟩

/-- Beyond a comparator edge by more than the error the raw state is that side's; inside the band by at least it, it stays. -/
theorem rawState_sides {x : Frond} {p : Nat} (ch : Nat) (v : Int) (m : (fchan x p).mode = 8) (thr : bit (fwin x p 0x2114) 0 = true)
    {mid half err : Int} (hm : mid = 1000 * sgn 16 (fld (fwin x p 0x2114) 16 16)) (hh : half = 10000 * fld (fwin x p 0x2114) 8 7)
    (he : err = 50000 + mid.natAbs / 200) : (mid + half + err < v → rawState x p ch v = true) ∧
      (v < mid - half - err → rawState x p ch v = false) ∧
      (mid - half + err ≤ v → v ≤ mid + half - err → rawState x p ch v = (fchan x p).raw) := by
  obtain ⟨up, dn, up_ge, up_le, dn_ge, dn_le, e⟩ := rawState_comparator ch v m thr hm hh he
  rw [e]
  cases (fchan x p).raw with
  | true =>
    simp only [if_true, Bool.not_eq_true', Bool.not_eq_false', decide_eq_false_iff_not, decide_eq_true_eq]
    omega
  | false =>
    simp only [Bool.false_eq_true, if_false, decide_eq_false_iff_not, decide_eq_true_eq]
    omega

/-! ## The integrator (R63, R65) -/

/-- A reported transition in the tick's counts. -/
def counted (rising : Bool) (c : FChan) : FChan :=
  if rising then { c with rise := satAdd 0xFFFF c.rise 1 } else { c with fall := satAdd 0xFFFF c.fall 1 }

/-- Stamped, lost or left without a stamp, a channel differs in its stamps alone. -/
theorem stamps_ite {P Q : Prop} [Decidable P] [Decidable Q] (c : FChan) (w : List Nat) : ∃ stamps lost,
    (if P then c else if Q then { c with stamps := w, stampLost := false } else { c with stampLost := true }) =
      { c with stamps := stamps, stampLost := lost } := by
  split
  · exact ⟨c.stamps, c.stampLost, rfl⟩
  · split
    · exact ⟨w, false, rfl⟩
    · exact ⟨c.stamps, true, rfl⟩

/-- Beyond its count a transition leaves a timestamp, or that one was lost. -/
theorem transition_eq (x : Frond) (p : Nat) (rising : Bool) (c : FChan) :
    ∃ stamps lost, transition x p rising c = { counted rising c with stamps := stamps, stampLost := lost } :=
  stamps_ite (counted rising c) _

/-- With the reported state 0 the counter runs up to T_ON. -/
theorem integrate_off {x : Frond} {p : Nat} (ch : Nat) (v at_ : Int) {n ton toff : Nat} (off : (fchan x p).out = false)
    (hn : n = if rawState x p ch v then (fchan x p).c + 1 else (fchan x p).c - 1) (hton : ton = fld (fwin x p 0x2108) 0 16)
    (htoff : toff = fld (fwin x p 0x2108) 16 16) : ∃ y, integrate p ch v at_ x = { x with chans := tput x.chans p y } ∧
      y.raw = rawState x p ch v ∧ (y.out, y.c) = (if n = ton then (true, toff) else (false, n)) ∧
      y.rise = (if n = ton then satAdd 0xFFFF (fchan x p).rise 1 else (fchan x p).rise) ∧ y.fall = (fchan x p).fall := by
  unfold integrate
  dsimp only
  rw [off, ← hn, ← hton, ← htoff]
  by_cases up : n = ton
  · obtain ⟨stamps, lost, e⟩ := transition_eq x p true { fchan x p with
      c := toff, raw := rawState x p ch v, cross := if (fchan x p).c = 0 ∧ rawState x p ch v then at_ else (fchan x p).cross, out := true }
    simp only [up, if_true, Bool.not_false, e]
    exact ⟨_, rfl, rfl, rfl, rfl, rfl⟩
  · simp only [up, if_false, Bool.not_false, if_true]
    exact ⟨_, rfl, rfl, rfl, rfl, rfl⟩

/-- With the reported state 1 the counter runs down from T_OFF. -/
theorem integrate_on {x : Frond} {p : Nat} (ch : Nat) (v at_ : Int) {n toff : Nat} (on : (fchan x p).out = true)
    (hn : n = if rawState x p ch v then min ((fchan x p).c + 1) toff else (fchan x p).c - 1)
    (htoff : toff = fld (fwin x p 0x2108) 16 16) : ∃ y, integrate p ch v at_ x = { x with chans := tput x.chans p y } ∧
      y.raw = rawState x p ch v ∧ (y.out, y.c) = (decide (n ≠ 0), n) ∧
      y.fall = (if n = 0 then satAdd 0xFFFF (fchan x p).fall 1 else (fchan x p).fall) ∧ y.rise = (fchan x p).rise := by
  unfold integrate
  dsimp only
  rw [on, ← htoff, ← hn]
  by_cases down : n = 0
  · obtain ⟨stamps, lost, e⟩ := transition_eq x p false { fchan x p with
      c := 0, raw := rawState x p ch v,
      cross := if (fchan x p).c = toff ∧ (!rawState x p ch v) then at_ else (fchan x p).cross, out := false }
    simp only [down, if_true, Bool.not_true, Bool.false_eq_true, if_false, e]
    exact ⟨_, rfl, rfl, rfl, rfl, rfl⟩
  · simp only [down, if_false, Bool.not_true, Bool.false_eq_true]
    exact ⟨_, rfl, rfl, congrArg (·, n) (decide_eq_true down).symm, rfl, rfl⟩

theorem exec_integratorStep {ch : Nat} (uv at_ : Int) {s : State} (power : (fieldOf s (ch / 16)).power = true)
    (runs : (fieldOf s (ch / 16)).shutdown = false) (input : isDI (fchan (fieldOf s (ch / 16)) (ch % 16)).mode = true) :
    exec (.integratorStep ch uv at_) s = .next (modField (ch / 16) (integrate (ch % 16) ch uv at_) s) := by
  show execIntegratorStep ch uv at_ s = _
  unfold execIntegratorStep
  dsimp only
  rw [power, runs, input]
  rfl

/-- An integrator step, whatever the reported state, writes the channel back with the new raw state. -/
theorem integrate_chanOnly (p ch : Nat) (v at_ : Int) (x : Frond) :
    ChanOnly p x (integrate p ch v at_ x) ∧ (fchan (integrate p ch v at_ x) p).raw = rawState x p ch v := by
  have written : ∃ y, integrate p ch v at_ x = { x with chans := tput x.chans p y } ∧ y.raw = rawState x p ch v := by
    cases out : (fchan x p).out with
    | false =>
      obtain ⟨y, e, raw, _⟩ := integrate_off ch v at_ out rfl rfl rfl
      exact ⟨y, e, raw⟩
    | true =>
      obtain ⟨y, e, raw, _⟩ := integrate_on ch v at_ out rfl rfl
      exact ⟨y, e, raw⟩
  obtain ⟨y, e, raw⟩ := written
  rw [e, fchan_tput_same]
  exact ⟨chanOnly_tput p y x, raw⟩

/-- Settles O53: one lemma for each reported state, and the comparator's two edges for the raw state. -/
theorem integratorStepsFollowTheirCode : Obligations.IntegratorStepsFollowTheirCode := by
  unfold Obligations.IntegratorStepsFollowTheirCode
  intro ch p uv at_ raw x c s hx hp hc power runs input ton toff hton htoff hraw
  subst hx hp hc hraw
  obtain ⟨only, raw⟩ := integrate_chanOnly (ch % 16) ch uv at_ (fieldOf s (ch / 16))
  refine ⟨_, _, exec_integratorStep uv at_ power runs input, atChan_modField only, rfl, ?_⟩
  rw [fieldOf_modField_same]
  refine ⟨raw, fun off n hn => ?_, fun on n hn => ?_, fun comparator thr mid half err hm hh he =>
    rawState_sides ch uv comparator thr hm hh he⟩
  · obtain ⟨y, e, _, moved⟩ := integrate_off ch uv at_ off hn hton htoff
    rw [e, fchan_tput_same]
    exact moved
  · obtain ⟨y, e, _, moved⟩ := integrate_on ch uv at_ on hn htoff
    rw [e, fchan_tput_same]
    exact moved

end Sys2Proof.Machine
end

section
/-! SUPPORT. The stages of a frond's channel: its regulator, its diagnostics, its DO switch and its safe state. -/

namespace Sys2Proof.Machine

/-! ## What a change of a channel shows at its switch (R100) -/

theorem landDrive_congr {x y : Frond} (power : y.power = x.power) (shutdown : y.shutdown = x.shutdown) (c : FChan) :
    landDrive y c = landDrive x c := by
  unfold landDrive
  rw [power, shutdown]

/-- A channel as `seeSwitch` leaves it: where its switch has turned, the time for which it has been as it is begins anew. -/
def switchSeen (old new : Frond) (p : Nat) (c : FChan) : FChan :=
  if (delivered old p == .level 1) == (landDrive new c == .level 1) then c else { c with swFor := 0 }

theorem seeSwitch_eq (old new : Frond) : seeSwitch old new = { new with chans := tmap new.chans (switchSeen old new) } := rfl

theorem switchSeen_eq (old new : Frond) (p : Nat) (c : FChan) : ∃ n, switchSeen old new p c = { c with swFor := n } := by
  unfold switchSeen
  split
  · exact ⟨c.swFor, rfl⟩
  · exact ⟨0, rfl⟩

theorem switchSeen_steady {old new : Frond} {p : Nat} {c : FChan} (h : landDrive new c = delivered old p) : switchSeen old new p c = c :=
  if_pos (by rw [h, beq_self_eq_true])

/-- A channel that its frond's supply and its own state leave alone is not seen to switch. -/
theorem fchan_seeSwitch_kept {x y : Frond} {p : Nat} (power : y.power = x.power) (shutdown : y.shutdown = x.shutdown)
    (h : fchan y p = fchan x p) : fchan (seeSwitch x y) p = fchan x p := by
  rcases tget_tmap_or ({} : FChan) (switchSeen x y) p y.chans with e | ⟨e, e'⟩
  · refine (e.trans (switchSeen_steady ?_)).trans h
    exact (landDrive_congr power shutdown _).trans (congrArg (landDrive x) h)
  · exact (e.trans e'.symm).trans h

theorem chanOnly_seeSwitch {p : Nat} {x y : Frond} (h : ChanOnly p x y) : ChanOnly p x (seeSwitch x y) := by
  refine ⟨?_, fun q hq => fchan_seeSwitch_kept ?_ ?_ (h.others q hq)⟩
  · unfold seeSwitch
    rw [h.frame]
  · rw [h.frame]
  · rw [h.frame]

/-- A changed channel is seen with the time for which its switch has been as it is. -/
theorem fchan_seeSwitch_modChan (old : Frond) (p : Nat) (g : FChan → FChan) (x : Frond) :
    fchan (seeSwitch old (modChan p g x)) p = switchSeen old (modChan p g x) p (g (fchan x p)) :=
  tget_tmap_tput ({} : FChan) (switchSeen old (modChan p g x)) p (g (fchan x p)) x.chans

/-- The module with one channel changed and its switch seen. -/
def switchChan (ch : Nat) (g : FChan → FChan) (s : State) : State :=
  modField (ch / 16) (fun x => seeSwitch x (modChan (ch % 16) g x)) s

theorem atChan_switchChan (ch : Nat) (g : FChan → FChan) (s : State) : AtChan ch s (switchChan ch g s) :=
  atChan_modField (chanOnly_seeSwitch (chanOnly_modChan _ g _))

theorem fieldOf_switchChan (ch : Nat) (g : FChan → FChan) (s : State) : fieldOf (switchChan ch g s) (ch / 16) =
    seeSwitch (fieldOf s (ch / 16)) (modChan (ch % 16) g (fieldOf s (ch / 16))) := fieldOf_modField_same ..

theorem fchan_switchChan (ch : Nat) (g : FChan → FChan) (s : State) : ∃ n, fchan (fieldOf (switchChan ch g s) (ch / 16)) (ch % 16) =
    { g (fchan (fieldOf s (ch / 16)) (ch % 16)) with swFor := n } := by
  rw [fieldOf_switchChan, fchan_seeSwitch_modChan]
  exact switchSeen_eq ..

/-! ## The regulator (R77, R78, R107) -/

theorem exec_regulatorEvaluation {ch : Nat} (r : RegIn) {s : State} (power : (fieldOf s (ch / 16)).power = true) :
    exec (.regulatorEvaluation ch r) s = .next (modField (ch / 16) (evaluate (ch % 16) ch r) s) :=
  if_pos power

/-- The bias servo moves nothing but its own state. -/
theorem servo_eq (v : Nat) (c : FChan) : ∃ vb hist fast, servo v c = { c with vBias := vb, biasHist := hist, servoFast := fast } := by
  unfold servo
  split
  · exact ⟨c.vBias, c.biasHist, c.servoFast, rfl⟩
  · dsimp only
    split
    · exact ⟨v, _, c.servoFast, rfl⟩
    · exact ⟨v, [], false, rfl⟩

theorem evaluate_running {x : Frond} {p : Nat} (ch : Nat) (r : RegIn) {tgt : Nat} (on : (fchan x p).regOn = true) (runs : x.shutdown = false)
    (htgt : tgt = min (if (fchan x p).mode = 4 then vneed x p r else max (vneed x p r) 12000) (vceil x p)) :
    ∃ y, evaluate p ch r x = { x with chans := tput x.chans p y } ∧ y.target = tgt ∧
      y.rail = (if (fchan x p).rail < tgt then min tgt ((fchan x p).rail + (if (fchan x p).firstRise then 25 else 62500))
        else max tgt ((fchan x p).rail - 250)) ∧
      y.loopLow = (fchan x p).loopLow + b2n (loopLowAt x p ch y.rail r) ∧ y.drive = (fchan x p).drive ∧ y.diag = (fchan x p).diag := by
  have runs' : ¬(!(fchan x p).regOn || x.shutdown) = true := by rw [on, runs]; decide
  unfold evaluate
  dsimp only
  rw [if_neg runs', ← htgt]
  refine ⟨_, rfl, ?_⟩
  generalize hc : FChan.mk .. = c
  obtain ⟨vb, hist, fast, e⟩ := servo_eq r.vBias c
  rw [e, ← hc]
  exact ⟨rfl, rfl, rfl, rfl, rfl⟩

/-- Outside AO-sink and IEPE, LOOP_LOW is a need above the ceiling. -/
theorem loopLowAt_need {x : Frond} {p : Nat} (ch rail : Nat) (r : RegIn) (sink : (fchan x p).mode ≠ 4) (iepe : (fchan x p).mode ≠ 7) :
    loopLowAt x p ch rail r = decide (vceil x p < vneed x p r) := by
  have iepe : ((fchan x p).mode == 7) = false := by simpa using iepe
  unfold loopLowAt
  dsimp only
  rw [if_neg sink, iepe, Bool.false_and, Bool.false_and, Bool.or_false]

theorem loopLowAt_sink {x : Frond} {p : Nat} (ch rail : Nat) (r : RegIn) (sink : (fchan x p).mode = 4) : loopLowAt x p ch rail r =
    (decide (r.vFT < 3000) && decide ((((fchan x p).val : Int) - r.iMeas) * 24000 > 65536 * limit 4 ch 400 600)) :=
  if_pos sink

/-! ## Diagnostics (R98 to R106) -/

section
variable {ch b n : Nat} {i : DiagIn} {s : State} {x : Frond} {c : FChan} (hx : x = fieldOf s (ch / 16)) (hc : c = fchan x (ch % 16))
include hx hc

theorem exec_channelDiagnostic_on (power : x.power = true) (listed : diagListed x (ch % 16) b c.mode = true)
    (off : c.diag.testBit b = false) (set : diagSet x (ch % 16) ch b i n = true) :
    exec (.channelDiagnostic ch b i n) s = .next (switchChan ch (diagOn b) s) := by
  subst hx hc
  show execChannelDiagnostic ch b i n s = _
  unfold execChannelDiagnostic
  dsimp only
  rw [power, listed, off, set]
  rfl

theorem exec_channelDiagnostic_off (power : x.power = true) (listed : diagListed x (ch % 16) b c.mode = true)
    (on : c.diag.testBit b = true) (gone : diagGone x (ch % 16) ch b i n = true) :
    exec (.channelDiagnostic ch b i n) s = .next (modField (ch / 16) (modChan (ch % 16) (diagOff b)) s) := by
  subst hx hc
  show execChannelDiagnostic ch b i n s = _
  unfold execChannelDiagnostic
  dsimp only
  rw [power, listed, on, gone]
  rfl

/-- A diagnostic whose next condition has not held stays as it is. -/
theorem exec_channelDiagnostic_kept
    (h : (if c.diag.testBit b then diagGone x (ch % 16) ch b i n else diagSet x (ch % 16) ch b i n) = false) :
    exec (.channelDiagnostic ch b i n) s = .next s := by
  subst hx hc
  show execChannelDiagnostic ch b i n s = _
  unfold execChannelDiagnostic
  dsimp only
  split
  · rfl
  · split at h
    · next on => rw [on, h]; rfl
    · next off => rw [Bool.eq_false_of_not_eq_true off, h]; rfl

end

theorem diagOn_testBit (b : Nat) (c : FChan) (j : Nat) : (diagOn b c).diag.testBit j = if j = b then true else c.diag.testBit j := by
  have set : (diagOn b c).diag = setBit c.diag b true := by
    unfold diagOn
    dsimp only
    split
    · rfl
    · split
      · rfl
      · split <;> rfl
  rw [set, testBit_setBit]

theorem diagOn_backfeed (c : FChan) : (diagOn 7 c).backfeed = true := rfl

theorem diagOn_regFault (c : FChan) : (diagOn 11 c).regFault = true ∧ (diagOn 11 c).regOn = false ∧ (diagOn 11 c).rail = 0 := ⟨rfl, rfl, rfl⟩

/-- A diagnostic without a reaction of its own leaves the stage running. -/
theorem diagOn_others {b : Nat} (h7 : b ≠ 7) (h11 : b ≠ 11) (c : FChan) :
    (diagOn b c).backfeed = c.backfeed ∧ (diagOn b c).regOn = c.regOn := by
  unfold diagOn
  dsimp only
  rw [if_neg h7, if_neg h11]
  split <;> exact ⟨rfl, rfl⟩

theorem diagOff_testBit (b : Nat) (c : FChan) (j : Nat) : (diagOff b c).diag.testBit j = if j = b then false else c.diag.testBit j := by
  have clear : (diagOff b c).diag = setBit c.diag b false := by
    unfold diagOff
    dsimp only
    split <;> rfl
  rw [clear, testBit_setBit]

theorem diagOff_backfeed (b : Nat) (c : FChan) : (diagOff b c).backfeed = c.backfeed := by
  unfold diagOff
  dsimp only
  split <;> rfl

/-- BACKFEED has no clear condition (R104). -/
theorem diagGone_backfeed (x : Frond) (p ch : Nat) (i : DiagIn) (n : Nat) : diagGone x p ch 7 i n = false := rfl

/-! ## The DO switch at its temperatures (R101, R103) -/

section
variable {ch : Nat} {temp : Int} {s : State} {x : Frond} {c : FChan} (hx : x = fieldOf s (ch / 16)) (hc : c = fchan x (ch % 16))
  (power : x.power = true) (mode : c.mode = 2)
include hx hc power mode

theorem exec_doThermal_hot (cool : c.thermal = false) (closed : delivered x (ch % 16) = .level 1) (hot : limit 15 ch 640 720 ≤ temp) :
    exec (.doThermal ch temp) s = .next (switchChan ch (fun c => { c with thermal := true, diag := setBit c.diag 5 true }) s) := by
  subst hx hc
  show execDoThermal ch temp s = _
  unfold execDoThermal
  dsimp only
  rw [power, mode, cool, closed, decide_eq_true (show temp ≥ limit 15 ch 640 720 from hot)]
  rfl

theorem exec_doThermal_cooled (thermal : c.thermal = true) (cooled : temp ≤ limit 15 ch 640 720 - limit 16 ch 40 80) :
    exec (.doThermal ch temp) s = .next (switchChan ch (fun c => conducts x { c with thermal := false }) s) := by
  subst hx hc
  show execDoThermal ch temp s = _
  unfold execDoThermal
  dsimp only
  rw [power, mode, thermal, decide_eq_true cooled]
  rfl

end

/-- A switch that the thermal shutdown holds delivers nothing. -/
theorem landDrive_thermal (x : Frond) {c : FChan} (h : c.thermal = true) : landDrive x c = .off := by
  unfold landDrive
  rw [h]
  simp

/-- A switch that conducts has no DO_THERMAL; no other diagnostic changes. -/
theorem conducts_eq (x : Frond) (c : FChan) : ∃ d, conducts x c = { c with diag := d } ∧ (∀ j, j ≠ 5 → d.testBit j = c.diag.testBit j) ∧
    (c.mode = 2 → landDrive x c = .level 1 → d.testBit 5 = false) := by
  unfold conducts
  split
  · exact ⟨_, rfl, fun j hj => by rw [testBit_setBit, if_neg hj], fun _ _ => by rw [testBit_setBit, if_pos rfl]⟩
  · next h =>
    refine ⟨c.diag, rfl, fun _ _ => rfl, fun mode closed => ?_⟩
    rw [mode, closed] at h
    exact absurd rfl h

/-! ## The regulator's restart (R114, R115) -/

/-- The regulator of a channel restarted after REG_FAULT. -/
def restartReg (x : Frond) (p : Nat) (c : FChan) : FChan :=
  if parted c then { c with regFault := false } else startReg x p { c with regFault := false }

theorem exec_regFaultRestart {ch : Nat} {s : State} {x : Frond} {c : FChan} (hx : x = fieldOf s (ch / 16)) (hc : c = fchan x (ch % 16))
    (power : x.power = true) (fault : c.regFault = true) (runs : x.shutdown = false) :
    exec (.regFaultRestart ch) s = .next (modField (ch / 16) (modChan (ch % 16) (restartReg x (ch % 16))) s) := by
  subst hx hc
  show execRegFaultRestart ch s = _
  unfold execRegFaultRestart
  dsimp only
  rw [power, fault, runs]
  rfl

theorem restartReg_parted (x : Frond) (p : Nat) {c : FChan} (h : parted c = true) : restartReg x p c = { c with regFault := false } :=
  if_pos h

/-- A regulator that stands still, of a stage that is not disconnected, starts from 3.0 V. -/
theorem restartReg_starts {x : Frond} {p : Nat} {c : FChan} (joined : parted c = false) (off : c.regOn = false) (runs : x.shutdown = false)
    (mode : regRuns c.mode (fwin x p 0x2104) = true) :
    restartReg x p c = { c with regFault := false, regOn := true, rail := 12000, target := 12000, settled := false } := by
  unfold restartReg startReg
  dsimp only
  rw [joined, off, runs, mode]
  rfl

/-! ## The safe state of one output (R106, R114, R116) -/

/-- Critical pairs found lost leave the frond's supply and its channels. -/
theorem critEntry_keeps (crit : List CritIn) (on : Nat → Bool) (x : Frond) :
    ((critEntry crit on x).power, (critEntry crit on x).shutdown, (critEntry crit on x).chans) = (x.power, x.shutdown, x.chans) := by
  have failed : ∀ (c : CritIn) (x : Frond), ((critFail c x).power, (critFail c x).shutdown, (critFail c x).chans) =
      (x.power, x.shutdown, x.chans) := fun c x => by
    unfold critFail
    split <;> rfl
  unfold critEntry
  generalize crit.filter _ = l
  induction l generalizing x with
  | nil => rfl
  | cons c l ih => exact (ih (critFail c x)).trans (failed c x)

/-- The frond as one channel's entry into its safe state finds it: the channel's pair checked, unless it delivers its safe value
already. -/
def checkedEntry (crit : List CritIn) (p : Nat) (x : Frond) : Frond :=
  if (fchan x p).safeHeld then x else critEntry crit (fun q => q == p) x

theorem checkedEntry_keeps (crit : List CritIn) (p : Nat) (x : Frond) : (checkedEntry crit p x).power = x.power ∧
    (checkedEntry crit p x).shutdown = x.shutdown ∧ (checkedEntry crit p x).chans = x.chans := by
  unfold checkedEntry
  split
  · exact ⟨rfl, rfl, rfl⟩
  · have kept := critEntry_keeps crit (fun q => q == p) x
    simp only [Prod.mk.injEq] at kept
    exact kept

/-- A channel in its own safe state. -/
def ownSafe (x : Frond) (p : Nat) (c : FChan) : FChan := { enterSafe x p c with safe := true }

theorem exec_contentionSafeState {ch : Nat} (crit : List CritIn) {s : State} {x z : Frond} {c : FChan} (hx : x = fieldOf s (ch / 16))
    (hc : c = fchan x (ch % 16)) (hz : z = checkedEntry crit (ch % 16) x) (power : x.power = true) (ao : isAO c.mode = true)
    (contends : c.diag.testBit 9 = true) (due : fld (freg x 0x3008) 0 8 ≤ c.contTicks) (safe : c.safe = false) :
    exec (.contentionSafeState ch crit) s =
      .next (modField (ch / 16) (fun x => seeSwitch x (modChan (ch % 16) (ownSafe z (ch % 16)) z)) s) := by
  subst hx hc hz
  show execContentionSafeState ch s crit = _
  unfold execContentionSafeState
  dsimp only
  rw [power, ao, contends, safe, decide_eq_true (show (fchan (fieldOf s (ch / 16)) (ch % 16)).contTicks ≥ _ from due)]
  rfl

theorem takeSafe_drive (x : Frond) (p : Nat) (c : FChan) : (takeSafe x p c).drive = safeDrive x p c := by
  unfold takeSafe
  dsimp only
  split
  · next off => exact off.symm ▸ rfl
  · next v level =>
    have kept := (delivers_conducts x _).trans (delivers_startReg x p { c with drive := safeDrive x p c, safeHeld := true, held := none, val := v })
    exact congrArg Prod.fst kept

theorem isOutput_of_isAO {m : Nat} (h : isAO m = true) : isOutput m = true := by
  simp only [isAO, Bool.or_eq_true] at h
  simp only [isOutput, Bool.or_eq_true]
  tauto

/-- An output that does not yet deliver its safe value takes it, with what it delivered until then as its entry. -/
theorem enterSafe_drive (x : Frond) (p : Nat) {c : FChan} (ao : isAO c.mode = true) (held : c.safeHeld = false) :
    (enterSafe x p c).drive = safeDrive x p { c with entry := c.drive } := by
  unfold enterSafe
  rw [isOutput_of_isAO ao, held, if_pos (by decide)]
  exact takeSafe_drive x p _

/-- The safe state of one channel is that channel's, but for the pairs found lost. -/
theorem ownSafe_entered {crit : List CritIn} {p : Nat} {x z : Frond} (hz : z = checkedEntry crit p x) :
    (∀ q, q ≠ p → fchan (seeSwitch x (modChan p (ownSafe z p) z)) q = fchan x q) ∧
      ∃ n, fchan (seeSwitch x (modChan p (ownSafe z p) z)) p = { enterSafe z p (fchan x p) with safe := true, swFor := n } := by
  obtain ⟨power, shutdown, chans⟩ := checkedEntry_keeps crit p x
  rw [← hz] at power shutdown chans
  refine ⟨fun q hq => ?_, ?_⟩
  · exact fchan_seeSwitch_kept power shutdown ((fchan_modChan_other hq _ z).trans (fchan_congr chans q))
  · rw [fchan_seeSwitch_modChan, fchan_congr chans]
    exact switchSeen_eq ..

/-- Settles O54: one lemma for what each command comes to, and what it leaves of the channel and the frond. -/
theorem channelsFollowTheirStages : Obligations.ChannelsFollowTheirStages := by
  unfold Obligations.ChannelsFollowTheirStages
  intro ch p x c s hx hp hc power
  subst hp
  refine ⟨fun r tgt on runs htgt => ?_, fun b i n _ => ⟨fun listed off set => ?_, fun listed on gone => ?_, fun off set => ?_, fun on gone => ?_⟩,
    fun temp top mode htop => ⟨fun cool closed hot => ?_, fun thermal cooled => ?_⟩, fun fault runs => ?_,
    fun crit z ao contends due safe hz => ?_⟩
  · subst hx hc
    obtain ⟨y, e, target, rail, low, drive, diag⟩ := evaluate_running ch r on runs htgt
    refine ⟨_, y, exec_regulatorEvaluation r power, atChan_modField (e ▸ chanOnly_tput _ y _), ?_, target, rail, low, drive, diag,
      loopLowAt_need ch _ r, loopLowAt_sink ch _ r⟩
    rw [fieldOf_modField_same, e, fchan_tput_same]
  · obtain ⟨k, e⟩ := fchan_switchChan ch (diagOn b) s
    rw [← hx, ← hc] at e
    refine ⟨_, _, exec_channelDiagnostic_on hx hc power listed off set, atChan_switchChan .., e.symm,
      (diagOn_testBit b c b).trans (if_pos rfl), fun j hj => (diagOn_testBit b c j).trans (if_neg hj), fun hb => ?_, fun hb => ?_,
      fun h7 h11 => diagOn_others h7 h11 c⟩
    · subst hb
      exact diagOn_backfeed c
    · subst hb
      exact diagOn_regFault c
  · refine ⟨_, diagOff b c, exec_channelDiagnostic_off hx hc power listed on gone, atChan_modField (chanOnly_modChan _ _ _), ?_, fun hb => ?_,
      (diagOff_testBit b c b).trans (if_pos rfl), fun j hj => (diagOff_testBit b c j).trans (if_neg hj), diagOff_backfeed b c⟩
    · rw [fieldOf_modField_same, fchan_modChan_same, ← hx, ← hc]
    · rw [hb, diagGone_backfeed] at gone
      exact Bool.false_ne_true gone
  · exact exec_channelDiagnostic_kept hx hc (by rw [off]; exact set)
  · exact exec_channelDiagnostic_kept hx hc (by rw [on]; exact gone)
  · subst htop
    refine ⟨_, exec_doThermal_hot hx hc power mode cool closed hot, atChan_switchChan .., ?_⟩
    rw [fieldOf_switchChan, fchan_seeSwitch_modChan, ← hx, ← hc]
    refine if_neg ?_
    rw [closed, landDrive_thermal _ rfl]
    decide
  · subst htop
    obtain ⟨d, conducting, others, conducted⟩ := conducts_eq x { c with thermal := false }
    obtain ⟨n, e⟩ := fchan_switchChan ch (fun c => conducts x { c with thermal := false }) s
    rw [← hx, ← hc, conducting] at e
    refine ⟨_, _, exec_doThermal_cooled hx hc power mode thermal cooled, atChan_switchChan .., e.symm, rfl, others, rfl, fun closed => ?_⟩
    refine conducted mode (Eq.trans ?_ closed)
    unfold delivered
    rw [e, fieldOf_switchChan, ← hx]
    rfl
  · refine ⟨_, exec_regFaultRestart hx hc power fault runs, atChan_modField (chanOnly_modChan _ _ _), ?_⟩
    rw [fieldOf_modField_same, fchan_modChan_same, ← hx, ← hc]
    exact ⟨restartReg_parted x _, fun joined off mode => restartReg_starts joined off runs mode⟩
  · rw [hc] at hz
    obtain ⟨others, n, own⟩ := ownSafe_entered hz
    rw [← hc] at own
    refine ⟨_, exec_contentionSafeState crit hx hc hz power ao contends due safe, atFrond_modField _ _ _, ?_⟩
    rw [fieldOf_modField_same, ← hx]
    exact ⟨others, rfl, ⟨n, own⟩, fun held => (congrArg FChan.drive own).trans (enterSafe_drive z _ ao held)⟩

end Sys2Proof.Machine
end

section
/-! SUPPORT. FSUP_ARRIVE at a frond without any power, where FSUP has been valid for the 100 ms that end FSUP_ABSENT. -/

namespace Sys2Proof.Machine

/-- FSUP steady at 24 V for 100 ms. -/
def steadyFsup : Seen := { lo := 24000, hi := 24000, us := 100000 }

/-- FSUP of 24 V is valid, whatever the thresholds within Table 3-4. -/
theorem fsupIn_steady (f : Nat) : fsupIn f steadyFsup = true := by
  have low := limit_le 18 (512 + f) (lo := 10500) (hi := 10800) (by decide)
  have loss := limit_le 19 (512 + f) (lo := 8600) (hi := 9400) (by decide)
  have high := le_limit 20 (512 + f) 34500 35500
  unfold fsupIn
  simp only [Bool.and_eq_true, decide_eq_true_eq]
  exact ⟨⟨⟨show _ < (24000 : Int) by omega, by decide⟩, show _ ≤ (24000 : Int) by omega⟩, show (24000 : Int) ≤ _ by omega⟩

/-- The frond whose supervisor FSUP_ARRIVE finds running, or starts (R550). -/
def supervised (f : Nat) (q : Seen) (otp : List TrimIn) (x : Frond) : Frond :=
  if x.power || !fsupIn f q then x else { startFrond otp with fsup := true }

/-- A frond out of FSUP_ABSENT: its stages restart where no other cause holds it in shutdown (R112, R124). -/
def absenceEnded (x : Frond) : Frond :=
  if (setBit x.causes 0 false &&& shutCauses) == 0 then tryLeaveSafe (frondRestart { x with causes := setBit x.causes 0 false, fsup := true })
  else { x with causes := setBit x.causes 0 false, fsup := true }

theorem exec_fsupArrive (f : Nat) (q : Seen) (otp : List TrimIn) (s : State) {x : Frond} (hx : x = supervised f q otp (fieldOf s f)) :
    exec (.fsupArrive f q otp) s =
      if x.power && x.causes.testBit 0 && fsupIn f q && decide (q.us ≥ 100000) then .next (modField f (fun _ => seeSwitch x (absenceEnded x)) s)
      else .next (modField f (fun _ => x) s) := by
  subst hx
  rfl

/-- Refutes O55: in the reset state no frond has power; an FSUP_ARRIVE that brings 100 ms of valid FSUP starts frond 0 and ends FSUP_ABSENT
at once (R124, R550), where the clause on unpowered fronds, which names no time, has the frond keep the cause. -/
theorem not_frondCausesAndPower : ¬ Obligations.FrondCausesAndPower := by
  unfold Obligations.FrondCausesAndPower
  intro h
  obtain ⟨_, _, _, arrives, _⟩ := h 0 (fieldOf State.reset 0) State.reset rfl
  obtain ⟨t, he, _, kept⟩ := (arrives steadyFsup [] (fsupIn_steady 0)).2 (by decide)
  have starts : supervised 0 steadyFsup [] (fieldOf State.reset 0) = { startFrond [] with fsup := true } := by
    unfold supervised
    rw [fsupIn_steady]
    rfl
  rw [exec_fsupArrive 0 steadyFsup [] State.reset starts.symm, fsupIn_steady, if_pos (by decide)] at he
  obtain rfl := Host.Outcome.next.inj he
  rw [fieldOf_modField_same] at kept
  exact absurd (congrArg Frond.causes kept) (by decide)

end Sys2Proof.Machine
end

section
/-! SUPPORT. FAULT_CLEAR: what each of its scopes does with a descriptor that passes every check of its row (R504 to R507). -/

namespace Sys2Proof.Machine

/-- The module once a FAULT_CLEAR has been taken. -/
def clearTaken (d : Desc) (s : State) : State := startDesc d 0 (acceptAlive d s)

/-- A descriptor that completes and changes nothing beside that. -/
theorem completes_unchanged {form : DescForm} {d : Desc} {s : State} {c : Instr} {status : Nat} {res : List Byte} (hf : Fresh s)
    (h : Takes form d s) (he : exec c s = .next (complete s.nextId status res (startDesc d (form.obj d) (acceptAlive d s)))) :
    ∃ t, Completes c d executed status res s t :=
  ⟨_, completes_of_only (ps := []) [] h hf (Only.refl _ _) (by decide) (by decide) (by decide) (by decide) (by decide) (by simp)
    he⟩

/-! ## What an action reads of the state that the descriptor was taken in -/

theorem only_clearTaken (d : Desc) (s : State) : Only [.rings, .alives, .descs] s (clearTaken d s) := only_taken d 0 s

theorem frond_clearTaken (d : Desc) (s : State) (f : Nat) : frond (clearTaken d s) f = frond s f :=
  frond_of_only (only_clearTaken d s) (by decide) f

theorem srcs_clearTaken (d : Desc) (s : State) : (clearTaken d s).srcs = s.srcs := congrArg Prod.fst (only_clearTaken d s .faults (by decide))

theorem badPaths_clearTaken (d : Desc) (s : State) : (clearTaken d s).badPaths = s.badPaths := only_clearTaken d s .badPaths (by decide)

theorem now_clearTaken (d : Desc) (s : State) : now (clearTaken d s) = now s := now_startDesc_acceptAlive d 0 s

theorem safeHeld_clearTaken (d : Desc) (s : State) (f : Nat) : safeHeld (clearTaken d s) f = safeHeld s f := by
  unfold safeHeld scope
  rw [srcs_clearTaken, badPaths_clearTaken]

theorem fieldOf_clearTaken (d : Desc) (s : State) (f : Nat) : fieldOf (clearTaken d s) f = fieldOf s f := by
  have field : (clearTaken d s).field = s.field := only_clearTaken d s .field (by decide)
  unfold fieldOf
  rw [field]

theorem clearSub_clearTaken (d : Desc) (s : State) : clearSub d (clearTaken d s) = clearSub d s := by
  unfold clearSub
  dsimp only
  rw [srcActive_of_only (only_clearTaken d s) (by decide), srcActive_of_only (only_clearTaken d s) (by decide)]

theorem clearable_clearTaken (d : Desc) (s : State) (src sub : Nat) (x : Src) :
    clearable (clearTaken d s) src sub x = clearable s src sub x := by
  have tm : (clearTaken d s).tm = s.tm := startDesc_acceptAlive_tm d 0 s
  have measured := only_clearTaken d s .measured (by decide)
  simp only [Part.same, Prod.mk.injEq] at measured
  obtain ⟨_, above, aboveFor, _⟩ := measured
  unfold clearable condGone
  rw [tm, above, aboveFor, frond_clearTaken, badPaths_clearTaken]

/-! ## A channel (R104, R114) -/

/-- The last diagnostic word of channel ch reports CONTENTION with safe state. -/
def contends (s : State) (ch : Nat) : Bool := (chan s ch).diag.testBit 12 && (chan s ch).diag.testBit 9

/-- The clear of channel ch under number id. -/
def clearChannelAct (ch id : Nat) (s : State) : State :=
  if contends s ch then complete id 0x15 [] s else sendClear (ch / 16) (ch % 16) (some id) s

theorem contends_clearTaken (d : Desc) (s : State) (ch : Nat) : contends (clearTaken d s) ch = contends s ch := by
  have chans : (clearTaken d s).chans = s.chans := only_clearTaken d s .chans (by decide)
  unfold contends chan
  rw [chans]

theorem exec_faultClearChannel {d : Desc} {s : State} (h : Takes (clearForm 0 512) d s) :
    exec (.faultClearChannel d) s = .next (clearChannelAct (dF d 10 2) s.nextId (clearTaken d s)) :=
  congrArg Host.Outcome.next (takeDesc_takes h _)

/-- A clear on its way stands last in line at its frond. -/
theorem frond_sendClear (f pos : Nat) (did : Option Nat) (s : State) :
    frond (sendClear f pos did s) f = { frond s f with clr := (frond s f).clr ++ [{ pos := pos, did := did }] } ∧
      ∀ g, g ≠ f → frond (sendClear f pos did s) g = frond s g :=
  ⟨frond_modFrond_same f _ s, fun _ hg => frond_modFrond_other hg _ s⟩

theorem faultClearChannel_waits {d : Desc} {s : State} {ch : Nat} (hf : Fresh s) (h : Takes (clearForm 0 512) d s) (hch : ch = dF d 10 2)
    (free : contends s ch = false) : ∃ t, Starts (.faultClearChannel d) d (executedAnd [.fronds]) s t ∧
      frond t (ch / 16) = { frond s (ch / 16) with clr := (frond s (ch / 16)).clr ++ [{ pos := ch % 16, did := some s.nextId }] } ∧
      ∀ f, f ≠ ch / 16 → frond t f = frond s f := by
  subst hch
  have he := exec_faultClearChannel h
  rw [clearChannelAct, contends_clearTaken, free, if_neg Bool.false_ne_true] at he
  obtain ⟨last, others⟩ := frond_sendClear (dF d 10 2 / 16) (dF d 10 2 % 16) (some s.nextId) (clearTaken d s)
  refine ⟨_, starts_of_only (ps := [.fronds]) _ h hf (only_sendClear _ _ _ (by decide) (Only.refl _ (clearTaken d s))) (by decide) (by decide)
    (by decide) (by decide) he, ?_, fun f hne => ?_⟩
  · rw [last, frond_clearTaken]
  · rw [others f hne, frond_clearTaken]

theorem faultClearChannel_refused {d : Desc} {s : State} (hf : Fresh s) (h : Takes (clearForm 0 512) d s)
    (held : contends s (dF d 10 2) = true) : ∃ t, Completes (.faultClearChannel d) d executed 0x15 [] s t := by
  have he := exec_faultClearChannel h
  rw [clearChannelAct, contends_clearTaken, held, if_pos rfl] at he
  exact completes_unchanged hf h he

/-! ## A frond (R114, R505) -/

theorem exec_faultClearFrond {d : Desc} {s : State} (h : Takes (clearForm 1 32) d s) :
    exec (.faultClearFrond d) s = .next (clearFrondAct d s.nextId (clearTaken d s)) :=
  congrArg Host.Outcome.next (takeDesc_takes h _)

theorem clearFrondAct_held {d : Desc} {s : State} (held : safeHeld s (dF d 10 2) = true) (id : Nat) :
    clearFrondAct d id s = complete id 0x15 [] s := by
  unfold clearFrondAct
  dsimp only
  rw [held, Bool.true_or, if_pos (by simp)]

/-- With no source active and no cause of its own, a frond in safe state gets the clear, and no SAFE order stands for it. -/
theorem clearFrondAct_free {d : Desc} {s : State} {f : Nat} (hfd : f = dF d 10 2) (quiet : s.srcs = []) (clean : (fieldOf s f).causes = 0)
    (safe : (frond s f).rep.safe = true ∨ (frond s f).safeOrder = true) (id : Nat) :
    clearFrondAct d id s = sendClear f 16 (some id) (modFrond f (fun x => { x with safeOrder := false }) s) := by
  have unheld : safeHeld s f = false := by rw [safeHeld, quiet, List.any_nil]
  have safe' : ((frond s f).rep.safe || (frond s f).safeOrder) = true := by simpa using safe
  unfold clearFrondAct
  dsimp only
  rw [← hfd, quiet, unheld, clean, List.filter_nil, List.foldl_nil, frond_modFrond_same, safe']
  simp

theorem faultClearFrond_waits {d : Desc} {s : State} {f : Nat} (hf : Fresh s) (h : Takes (clearForm 1 32) d s) (hfd : f = dF d 10 2)
    (quiet : s.srcs = []) (clean : (fieldOf s f).causes = 0) (safe : (frond s f).rep.safe = true ∨ (frond s f).safeOrder = true) :
    ∃ t, Starts (.faultClearFrond d) d (executedAnd [.fronds]) s t ∧
      frond t f = { frond s f with safeOrder := false, clr := (frond s f).clr ++ [{ pos := 16, did := some s.nextId }] } ∧
      ∀ g, g ≠ f → frond t g = frond s g := by
  have he := exec_faultClearFrond h
  rw [clearFrondAct_free hfd ((srcs_clearTaken d s).trans quiet) ((congrArg Frond.causes (fieldOf_clearTaken d s f)).trans clean)
    ((frond_clearTaken d s f).symm ▸ safe)] at he
  obtain ⟨last, others⟩ := frond_sendClear f 16 (some s.nextId) (modFrond f (fun x => { x with safeOrder := false }) (clearTaken d s))
  refine ⟨_, starts_of_only (ps := [.fronds]) _ h hf (only_sendClear _ _ _ (by decide) (only_modFrond _ _ (by decide) (Only.refl _ (clearTaken d s))))
    (by decide) (by decide) (by decide) (by decide) he, ?_, fun g hg => ?_⟩
  · rw [last, frond_modFrond_same, frond_clearTaken]
  · rw [others g hg, frond_modFrond_other hg, frond_clearTaken]

/-! ## A source (R494, R504) -/

theorem exec_faultClearSource {d : Desc} {s : State} (h : Takes (clearForm 2 256) d s) :
    exec (.faultClearSource d) s = .next (clearSourceAct d s.nextId (clearTaken d s)) :=
  congrArg Host.Outcome.next (takeDesc_takes h _)

/-- The cause that SCOPE 2 names, by the kind of its source (R504, Table 10-8). -/
theorem clearSub_eq (d : Desc) (s : State) {src sub : Nat} (hsrc : src = dF d 10 2) (hsub : sub = clearSub d s) :
    (0xC0 ≤ src → sub = dF d 12 2) ∧ (0x80 ≤ src → src < 0xC0 → sub = 8) ∧ (src < 0x40 → sub = 0) ∧
      (0x40 ≤ src → src < 0x80 → (srcActive s src 0 || srcActive s src 1 || srcActive s src 2) = true → srcActive s src sub = true) := by
  unfold clearSub at hsub
  dsimp only at hsub
  rw [← hsrc] at hsub
  refine ⟨fun channel => ?_, fun frond core => ?_, fun core => ?_, fun link frond active => ?_⟩
  · rw [hsub, if_pos channel]
  · rw [hsub, if_neg (by omega), if_pos frond]
  · rw [hsub, if_neg (by omega), if_neg (by omega), if_neg (by omega)]
  · rw [if_neg (by omega), if_neg (by omega), if_pos link] at hsub
    cases h0 : srcActive s src 0 with
    | true => rwa [hsub, h0, if_pos rfl]
    | false =>
      cases h1 : srcActive s src 1 with
      | true => rwa [hsub, h0, h1, if_neg Bool.false_ne_true, if_pos rfl]
      | false =>
        rw [h0, h1] at active hsub
        exact hsub ▸ active

/-- The module without a source; with SIGNAL_PATH the paths found bad are forgotten (R487). -/
def sourceGone (src sub : Nat) (s : State) : State := dropSrc src sub (if src = 0x3F then { s with badPaths := [] } else s)

section
variable {d : Desc} {s : State} {src sub : Nat} (hsrc : src = dF d 10 2) (hsub : sub = clearSub d s) (id : Nat)
include hsrc hsub

theorem clearSourceAct_inactive (off : srcActive s src sub = false) : clearSourceAct d id s = complete id 0 (le 6 (now s)) s := by
  have none : s.srcs.find? (fun e => e.1 == srcKey src sub) = none := by
    rw [List.find?_eq_none]
    exact List.any_eq_false.mp off
  unfold clearSourceAct
  dsimp only
  rw [← hsub, ← hsrc, none]

theorem clearSourceAct_active {k : Nat} {x : Src} (on : s.srcs.find? (fun e => e.1 == srcKey src sub) = some (k, x)) :
    clearSourceAct d id s = if clearable s src sub x then release x (scope s src sub x.ctx) id (sourceGone src sub s)
      else complete id 0x15 [] s := by
  unfold clearSourceAct
  dsimp only
  rw [← hsub, ← hsrc, on]
  dsimp only
  cases clearable s src sub x <;> rfl

end

theorem only_setBadPaths (s : State) (l : List (Nat × Nat × Nat × Nat)) : Only [.badPaths] s { s with badPaths := l } := by
  intro p hp
  cases p
  case badPaths => exact absurd (List.mem_singleton_self _) hp
  all_goals rfl

theorem only_sourceGone (src sub : Nat) (s : State) : Only [.queues, .faults, .badPaths] s (sourceGone src sub s) :=
  only_dropSrc _ _ (by decide) (Only.ite ((only_setBadPaths s []).mono (by decide)) (Only.refl _ s))

theorem outbox_sourceGone (src sub : Nat) (s : State) : s.outbox <:+ (sourceGone src sub s).outbox := by
  unfold sourceGone
  split
  · exact (kept_dropSrc src sub (Kept.refl { s with badPaths := [] })).out
  · exact (kept_dropSrc src sub (Kept.refl s)).out

/-- A source of class SERVICE or below releases no frond (R506). -/
theorem release_low {x : Src} (low : effCls x ≤ 2) (fs : List Nat) (id : Nat) (s : State) :
    release x fs id s = complete id 0 (le 6 (now s)) s := by
  unfold release
  rw [if_neg (show effCls x ≠ 3 by omega)]
  exact if_pos rfl

section
variable {d : Desc} {s : State} {src sub : Nat} (hf : Fresh s) (h : Takes (clearForm 2 256) d s) (hsrc : src = dF d 10 2)
  (hsub : sub = clearSub d s)
include hf h hsrc hsub

theorem faultClearSource_inactive (off : srcActive s src sub = false) :
    ∃ t, Completes (.faultClearSource d) d executed 0 (le 6 (now s)) s t := by
  have he := exec_faultClearSource h
  rw [clearSourceAct_inactive hsrc (hsub.trans (clearSub_clearTaken d s).symm) s.nextId
    ((srcActive_of_only (only_clearTaken d s) (by decide) src sub).trans off), now_clearTaken] at he
  exact completes_unchanged hf h he

theorem faultClearSource_refused {k : Nat} {x : Src} (on : s.srcs.find? (fun e => e.1 == srcKey src sub) = some (k, x))
    (holds : clearable s src sub x = false) : ∃ t, Completes (.faultClearSource d) d executed 0x15 [] s t := by
  have he := exec_faultClearSource h
  rw [clearSourceAct_active hsrc (hsub.trans (clearSub_clearTaken d s).symm) s.nextId ((srcs_clearTaken d s).symm ▸ on),
    clearable_clearTaken, holds, if_neg Bool.false_ne_true] at he
  exact completes_unchanged hf h he

theorem faultClearSource_clears {k : Nat} {x : Src} (on : s.srcs.find? (fun e => e.1 == srcKey src sub) = some (k, x))
    (gone : clearable s src sub x = true) (low : effCls x ≤ 2) :
    ∃ t, Completes (.faultClearSource d) d (executedAnd [.badPaths]) 0 (le 6 (now s)) s t ∧ srcActive t src sub = false := by
  have he := exec_faultClearSource h
  have only := only_sourceGone src sub (clearTaken d s)
  rw [clearSourceAct_active hsrc (hsub.trans (clearSub_clearTaken d s).symm) s.nextId ((srcs_clearTaken d s).symm ▸ on),
    clearable_clearTaken, gone, if_pos rfl, release_low low, now_of_only only (by decide), now_clearTaken] at he
  refine ⟨_, completes_of_only _ h hf only (by decide) (by decide) (by decide) (by decide) (by decide)
    (outbox_sourceGone src sub (clearTaken d s)) he, ?_⟩
  rw [srcActive_of_only (only_complete_self _ _ _ _) (by decide)]
  exact dropSrc_inactive _ _ _

end

/-! ## The latch (R502, R507) -/

/-- The CLEARED record of the latch. -/
def latchReported (s : State) : State :=
  match s.latch with
  | some l => faultRec l.id l.sub (wholeCls s l.id l.cls) 17 s.fltCount l.ctx s.tm.count s
  | none => s

/-- The module with its latch reported and empty. -/
def latchEmptied (s : State) : State := { latchReported s with latch := none, overflow := false, fltCount := 0 }

theorem only_latchReported (s : State) : Only [.queues] s (latchReported s) := by
  unfold latchReported
  split
  · exact only_faultRec _ _ _ _ _ _ _ (List.Subset.refl _) (Only.refl _ s)
  · exact Only.refl _ s

theorem only_setLatch (s : State) (l : Option Latch) (overflow : Bool) (n : Nat) :
    Only [.faults] s { s with latch := l, overflow := overflow, fltCount := n } := by
  intro p hp
  cases p
  case faults => exact absurd (List.mem_singleton_self _) hp
  all_goals rfl

theorem only_latchEmptied (s : State) : Only [.queues, .faults] s (latchEmptied s) :=
  ((only_latchReported s).mono (by decide)).trans ((only_setLatch (latchReported s) none false 0).mono (by decide))

theorem outbox_latchEmptied (s : State) : s.outbox <:+ (latchEmptied s).outbox := by
  have same : (latchReported s).outbox = s.outbox := congrArg Prod.fst (only_latchReported s .outbox (by decide))
  exact same ▸ List.suffix_refl _

theorem exec_faultClearLatch {d : Desc} {s : State} (h : Takes (clearForm 3 1) d s) : exec (.faultClearLatch d) s =
    .next (complete s.nextId 0 (le 6 (now s)) (latchEmptied (clearTaken d s))) := by
  rw [← now_clearTaken d s, ← now_of_only (only_latchReported (clearTaken d s)) (by decide)]
  exact congrArg Host.Outcome.next (takeDesc_takes h _)

theorem faultClearLatch_empties {d : Desc} {s : State} (hf : Fresh s) (h : Takes (clearForm 3 1) d s) :
    ∃ t, Completes (.faultClearLatch d) d executed 0 (le 6 (now s)) s t ∧
      t.latch = none ∧ t.overflow = false ∧ t.fltCount = 0 ∧ t.srcs = s.srcs := by
  refine ⟨_, completes_of_only [] h hf (only_latchEmptied _) (by decide) (by decide) (by decide) (by decide) (by decide)
    (outbox_latchEmptied (clearTaken d s)) (exec_faultClearLatch h), ?_⟩
  have faults := only_complete_self s.nextId 0 (le 6 (now s)) (latchEmptied (clearTaken d s)) .faults (by decide)
  simp only [Part.same, Prod.mk.injEq] at faults
  obtain ⟨srcs, latch, _, overflow, count, _⟩ := faults
  have kept : (latchReported (clearTaken d s)).srcs = s.srcs :=
    congrArg Prod.fst (only_latchReported (clearTaken d s) .faults (by decide))
  exact ⟨latch, overflow, count, srcs.trans kept⟩

/-- Settles O28: one lemma for each outcome of each scope. -/
theorem faultsAreClearedByScope : Obligations.FaultsAreClearedByScope := by
  unfold Obligations.FaultsAreClearedByScope
  intro d s hf
  refine ⟨fun h ch hch free => faultClearChannel_waits hf h hch free, fun h safe contention => ?_, fun h f hfd => ⟨fun held => ?_, ?_⟩,
    fun h src sub hsrc hsub => ?_, fun h => faultClearLatch_empties hf h⟩
  · refine faultClearChannel_refused hf h ?_
    rw [contends, safe, contention, Bool.and_true]
  · subst hfd
    have he := exec_faultClearFrond h
    rw [clearFrondAct_held ((safeHeld_clearTaken d s _).trans held)] at he
    exact completes_unchanged hf h he
  · exact fun quiet clean safe => faultClearFrond_waits hf h hfd quiet clean safe
  · obtain ⟨channel, frond, core, link⟩ := clearSub_eq d s hsrc hsub
    exact ⟨channel, frond, core, link, fun off => faultClearSource_inactive hf h hsrc hsub off,
      fun x on => ⟨fun holds => faultClearSource_refused hf h hsrc hsub on holds,
        fun gone low => faultClearSource_clears hf h hsrc hsub on gone low⟩⟩

end Sys2Proof.Machine
end

section
/-! SUPPORT. Frames as a frond receives them: what a rejected frame and a copy that differs leave in the core, how a frond marks the link
of a checked frame, and how it enters its safe state. -/

namespace Sys2Proof.Machine

/-! ## In the core: REJ and COPY_DIFF (R333, R347, R500) -/

/-- The core's view of one link of a frond. -/
def linkOf (linkB : Bool) (x : CFrond) : LinkSt := if linkB then x.b else x.a

theorem linkOf_modLink (f : Nat) (linkB : Bool) (g : LinkSt → LinkSt) (s : State) :
    linkOf linkB (frond (modLink f linkB g s) f) = g (linkOf linkB (frond s f)) := by
  unfold modLink
  rw [frond_modFrond_same]
  cases linkB <;> rfl

/-- The module with one frame more in a link's REJ. -/
def rejected (f : Nat) (linkB : Bool) (s : State) : State := modLink f linkB (fun l => { l with rej := satAdd 255 l.rej 1 }) s

/-- LINK_ERR of a link becomes active, a source of class NOTE. -/
def linkErr (f : Nat) (linkB : Bool) (t : TickNo) (s : State) : State := raise (linkSrc f linkB) 1 1 false (linkCtx s f linkB 1) t false false s

theorem rejectFrame_running {s : State} (run : running s = true) (f : Nat) (linkB : Bool) (t : TickNo) : rejectFrame f linkB t s =
    if 64 < (linkOf linkB (frond (rejected f linkB s) f)).rej then linkErr f linkB t (rejected f linkB s) else rejected f linkB s := by
  unfold rejectFrame
  rw [run]
  rfl

theorem only_linkErr (f : Nat) (linkB : Bool) (t : TickNo) (s : State) : Only [.outbox, .queues, .faults] s (linkErr f linkB t s) :=
  only_raise_low (by decide) (List.Subset.refl _) (Only.refl _ s)

theorem lineBad_modLink (f : Nat) (linkB : Bool) (g : LinkSt → LinkSt) (s : State) (id sub : Nat) :
    lineBad (modLink f linkB g s) id sub = lineBad s id sub :=
  lineBad_of_only (only_modLink (ps := [.fronds]) f linkB g (List.Subset.refl _) (Only.refl _ s)) (by decide) id sub

/-- A rejected frame counts in its link's REJ, and above 64 LINK_ERR is active. -/
theorem rejectFrame_counts {s : State} (run : running s = true) (f : Nat) (linkB : Bool) (t : TickNo) :
    Only [.outbox, .queues, .faults, .fronds] s (rejectFrame f linkB t s) ∧
      (linkOf linkB (frond (rejectFrame f linkB t s) f)).rej = satAdd 255 (linkOf linkB (frond s f)).rej 1 ∧
      (64 < (linkOf linkB (frond (rejectFrame f linkB t s) f)).rej → lineBad s (linkSrc f linkB) 1 = false →
        srcActive (rejectFrame f linkB t s) (linkSrc f linkB) 1 = true) := by
  have kept : frond (rejectFrame f linkB t s) f = frond (rejected f linkB s) f := by
    rw [rejectFrame_running run]
    split
    · exact frond_of_only (only_linkErr f linkB t _) (by decide) f
    · rfl
  refine ⟨only_rejectFrame f linkB t (List.Subset.refl _) (Only.refl _ s), ?_, fun above good => ?_⟩
  · rw [kept]
    exact congrArg LinkSt.rej (linkOf_modLink ..)
  · rw [kept] at above
    rw [rejectFrame_running run, if_pos above]
    exact raise_active ((lineBad_modLink ..).trans good) ..

/-- COPY_DIFF counts in the link of the second copy, and is active. -/
theorem copyDiff_counts {s : State} (run : running s = true) {f : Nat} {linkB : Bool} (good : lineBad s (linkSrc f linkB) 2 = false) (t : TickNo) :
    srcActive (copyDiff f linkB t s) (linkSrc f linkB) 2 = true ∧
      (linkOf linkB (frond (copyDiff f linkB t s) f)).diff = satAdd 255 (linkOf linkB (frond s f)).diff 1 := by
  have reported : copyDiff f linkB t s = raise (linkSrc f linkB) 2 1 false
      (linkCtx (modLink f linkB (fun l => { l with diff := satAdd 255 l.diff 1 }) s) f linkB 2) t false false
      (modLink f linkB (fun l => { l with diff := satAdd 255 l.diff 1 }) s) := by
    unfold copyDiff
    rw [run]
    rfl
  rw [reported]
  refine ⟨raise_active ((lineBad_modLink ..).trans good) .., ?_⟩
  rw [frond_of_only (only_raise_low (by decide) (List.Subset.refl _) (Only.refl _ _)) (by decide)]
  exact congrArg LinkSt.diff (linkOf_modLink ..)

/-! ## The link of a checked frame (R316, R354) -/

/-- A checked frame tells the frond about its links and its clock alone. -/
theorem linkSeen_eq (linkB : Bool) (x : Frond) : ∃ down rejoin restart judge aSeen bSeen clk, linkSeen linkB x =
    { x with bothDown := down, rejoin := rejoin, restart := restart, judge := judge, aSeen := aSeen, bSeen := bSeen, clk := clk } ∧
      (if linkB then bSeen else aSeen) = true := by
  unfold linkSeen
  cases x.bothDown <;> cases linkB <;> exact ⟨_, _, _, _, _, _, _, rfl, rfl⟩

/-! ## The safe state of a frond (R110, R114, R116) -/

/-- What the safe state of a channel goes by. -/
def safeRules (x : Frond) : Bool × Bool × Tab Word × List Nat := (x.power, x.shutdown, x.cfg, x.critLost)

theorem enterSafe_congr {x y : Frond} (h : safeRules y = safeRules x) (p : Nat) (c : FChan) : enterSafe y p c = enterSafe x p c := by
  simp only [safeRules, Prod.mk.injEq] at h
  obtain ⟨power, shutdown, cfg, lost⟩ := h
  unfold enterSafe takeSafe safeDrive almLevel safeLost startReg conducts landDrive fwin
  rw [power, shutdown, cfg, lost]

/-- A failed pair is known as such, with the channel it belongs to. -/
def PairMarked (e : CritIn) (x : Frond) : Prop := x.integ = true ∧ (e.pos < 16 → x.integMask.testBit e.pos = true)

theorem critFail_eq (c : CritIn) (x : Frond) : ∃ integ mask lost,
    critFail c x = { x with integ := integ, integMask := mask, critLost := lost } := by
  unfold critFail
  split
  · exact ⟨_, _, _, rfl⟩
  · exact ⟨_, _, _, rfl⟩

theorem critFail_rules {x y : Frond} (h : safeRules y = safeRules x) (c : CritIn) : safeRules (critFail c y) = safeRules (critFail c x) := by
  simp only [safeRules, Prod.mk.injEq] at h
  obtain ⟨power, shutdown, cfg, lost⟩ := h
  unfold critFail
  split
  · simp only [safeRules, power, shutdown, cfg, lost]
  · simp only [safeRules, power, shutdown, cfg, lost]

theorem critFail_marks {c : CritIn} (bad : c.a = true ∨ c.b = true) (x : Frond) : PairMarked c (critFail c x) := by
  unfold critFail
  rw [if_neg (by rcases bad with h | h <;> simp [h])]
  refine ⟨rfl, fun h => ?_⟩
  dsimp only
  rw [if_pos h, Nat.testBit_or, Nat.testBit_two_pow_self, Bool.or_true]

theorem critFail_marked {e : CritIn} {x : Frond} (h : PairMarked e x) (c : CritIn) : PairMarked e (critFail c x) := by
  unfold critFail
  split
  · exact h
  · refine ⟨rfl, fun k => ?_⟩
    dsimp only
    rw [Nat.testBit_or, h.2 k, Bool.true_or]

theorem critFails_eq : ∀ (l : List CritIn) (x : Frond), ∃ integ mask lost,
    l.foldl (fun x c => critFail c x) x = { x with integ := integ, integMask := mask, critLost := lost }
  | [], x => ⟨_, _, _, rfl⟩
  | c :: l, x => by
    obtain ⟨integ, mask, lost, e⟩ := critFail_eq c x
    obtain ⟨integ', mask', lost', e'⟩ := critFails_eq l (critFail c x)
    exact ⟨integ', mask', lost', e'.trans (by rw [e])⟩

theorem critFails_rules {x y : Frond} (h : safeRules y = safeRules x) : ∀ l : List CritIn,
    safeRules (l.foldl (fun x c => critFail c x) y) = safeRules (l.foldl (fun x c => critFail c x) x)
  | [] => h
  | c :: l => critFails_rules (critFail_rules h c) l

theorem critFails_marked {e : CritIn} : ∀ (l : List CritIn) {x : Frond}, PairMarked e x → PairMarked e (l.foldl (fun x c => critFail c x) x)
  | [], _, h => h
  | c :: l, _, h => critFails_marked l (critFail_marked h c)

theorem critFails_marks {e : CritIn} (bad : e.a = true ∨ e.b = true) {l : List CritIn} (h : e ∈ l) (x : Frond) :
    PairMarked e (l.foldl (fun x c => critFail c x) x) := by
  obtain ⟨before, after, rfl⟩ := List.append_of_mem h
  rw [List.foldl_append, List.foldl_cons]
  exact critFails_marked after (critFail_marks bad _)

/-- The positions whose pairs the entry into frond safe state checks. -/
def safeChecked (x : Frond) (p : Nat) : Bool := p == 16 || isOutput (fchan x p).mode

/-- A frond on its way into safe state: its pairs have been checked. -/
def safeEntry (crit : List CritIn) (x : Frond) : Frond := critEntry crit (safeChecked x) x

theorem safeEntry_eq (crit : List CritIn) (x : Frond) : ∃ integ mask lost,
    safeEntry crit x = { x with integ := integ, integMask := mask, critLost := lost } := critFails_eq _ x

theorem safeEntry_rules {x y : Frond} (h : safeRules y = safeRules x) (chans : y.chans = x.chans) (crit : List CritIn) :
    safeRules (safeEntry crit y) = safeRules (safeEntry crit x) := by
  have checked : safeChecked y = safeChecked x := funext fun p => by rw [safeChecked, fchan_congr chans]; rfl
  unfold safeEntry critEntry
  rw [checked]
  exact critFails_rules h _

/-- Pairs of an output channel that fail at the entry are reported with their channel (R116, R355). -/
theorem safeEntry_marks {crit : List CritIn} {e : CritIn} (he : e ∈ crit) (bad : e.a = true ∨ e.b = true) {x : Frond}
    (checked : (e.ofs ∈ [0x2120, 0x2128, 0x2130] ∧ e.pos < 16 ∧ isOutput (fchan x e.pos).mode = true) ∨ (e.ofs = 0x3000 ∧ 16 ≤ e.pos)) :
    PairMarked e (safeEntry crit x) := by
  refine critFails_marks bad (List.mem_filter.mpr ⟨he, ?_⟩) x
  rcases checked with ⟨ofs, pos, output⟩ | ⟨ofs, pos⟩
  · have named : (e.ofs == 0x2130 || e.ofs == 0x2120 || e.ofs == 0x2128) = true := by
      simp only [List.mem_cons, List.not_mem_nil, or_false] at ofs
      rcases ofs with h | h | h <;> rw [h] <;> rfl
    rw [if_pos pos, named, safeChecked, output, Bool.or_true, Bool.and_true]
  · rw [if_neg (by omega), ofs]
    rfl

/-- The channels enter their safe states one after the other. -/
def enterAll (x : Frond) : Frond := (List.range 16).foldl (fun x p => modChan p (enterSafe x p) x) x

theorem enterAll_eq (x : Frond) : ∃ chans, enterAll x = { x with chans := chans } := by
  unfold enterAll
  generalize List.range 16 = l
  induction l generalizing x with
  | nil => exact ⟨x.chans, rfl⟩
  | cons p l ih =>
    obtain ⟨chans, e⟩ := ih (modChan p (enterSafe x p) x)
    exact ⟨chans, e⟩

/-- Each channel enters its safe state by what the frond went by at the start. -/
theorem fchan_enterAll (x : Frond) {p : Nat} (hp : p < 16) : fchan (enterAll x) p = enterSafe x p (fchan x p) := by
  obtain ⟨a, b, e, ha, hb⟩ := range_at hp
  have others : ∀ (y : Frond) (j : Nat), p ≠ j →
      (safeRules (modChan j (enterSafe y j) y), fchan (modChan j (enterSafe y j) y) p) = (safeRules y, fchan y p) :=
    fun y j hj => congrArg (Prod.mk (safeRules y)) (fchan_modChan_other hj _ y)
  have before := view_foldl (fun y => (safeRules y, fchan y p)) others a x ha
  simp only [Prod.mk.injEq] at before
  obtain ⟨rules, own⟩ := before
  have after := view_foldl (fun y => (safeRules y, fchan y p)) others b
    (modChan p (enterSafe (a.foldl (fun x p => modChan p (enterSafe x p) x) x) p) (a.foldl (fun x p => modChan p (enterSafe x p) x) x)) hb
  unfold enterAll
  rw [e, List.foldl_append, List.foldl_cons]
  refine (congrArg Prod.snd after).trans ?_
  dsimp only
  rw [fchan_modChan_same, own, enterSafe_congr rules]

theorem frondSafe_out {x : Frond} (out : x.safe = false) (crit : List CritIn) :
    frondSafe crit x = enterAll { safeEntry crit x with safe := true } := by
  unfold frondSafe
  rw [out]
  rfl

/-- In frond safe state nothing but the channels and the failed pairs has changed. -/
theorem frondSafe_eq (crit : List CritIn) (x : Frond) : ∃ integ mask lost chans, frondSafe crit x =
    { x with safe := true, integ := integ, integMask := mask, critLost := lost, chans := chans } := by
  cases safe : x.safe with
  | true =>
    refine ⟨x.integ, x.integMask, x.critLost, x.chans, ?_⟩
    unfold frondSafe
    rw [if_pos safe, ← safe]
  | false =>
    obtain ⟨integ, mask, lost, e⟩ := safeEntry_eq crit x
    obtain ⟨chans, e'⟩ := enterAll_eq { safeEntry crit x with safe := true }
    exact ⟨integ, mask, lost, chans, (frondSafe_out safe crit).trans (e'.trans (by rw [e]))⟩

/-- A channel as it is seen after its frond has changed differs in the time for which its switch has been as it is. -/
theorem fchan_seeSwitch (old new : Frond) (p : Nat) : ∃ n, fchan (seeSwitch old new) p = { fchan new p with swFor := n } := by
  rcases tget_tmap_or ({} : FChan) (switchSeen old new) p new.chans with e | ⟨e, e'⟩
  · obtain ⟨n, k⟩ := switchSeen_eq old new p (fchan new p)
    exact ⟨n, Eq.trans e k⟩
  · have blank : fchan new p = {} := e'
    exact ⟨0, Eq.trans e (by rw [blank])⟩

end Sys2Proof.Machine
end

section
/-! SUPPORT. The order frames at a frond: SNAP_SYNC, SNAP_DESC and SAFE (R335, R341 to R343). -/

namespace Sys2Proof.Machine

/-- An order frame that checks tells the frond its ALIVE value and that its link delivers. -/
def orderSeen (o : OrderFrame) (a : Byte) (x : Frond) : Frond := { linkSeen o.linkB x with downAlive := some a }

theorem orderSeen_keeps (o : OrderFrame) (a : Byte) (x : Frond) : safeRules (orderSeen o a x) = safeRules x ∧
    (orderSeen o a x).chans = x.chans ∧ (orderSeen o a x).safe = x.safe ∧ (orderSeen o a x).snaps = x.snaps ∧ (orderSeen o a x).ds = x.ds := by
  obtain ⟨_, _, _, _, _, _, _, e, _⟩ := linkSeen_eq o.linkB x
  rw [orderSeen, e]
  exact ⟨rfl, rfl, rfl, rfl, rfl⟩

theorem rxOrder_used {f : Nat} {o : OrderFrame} {k a : Byte} {s : State} (power : (fieldOf s f).power = true)
    (alive : orderAlive (fieldOf s f) k o = some a) (use : Byte → Frond → Frond) :
    rxOrder f o k use s = modField f (fun x => use a (orderSeen o a x)) s := by
  unfold rxOrder
  dsimp only
  rw [power, alive]
  rfl

/-- An order frame that no ALIVE value checks, not the last one either, is rejected. -/
theorem rxOrder_rejected {f : Nat} {o : OrderFrame} {k : Byte} {s : State} (power : (fieldOf s f).power = true)
    (alive : orderAlive (fieldOf s f) k o = none) (fresh : ∀ a, (fieldOf s f).downAlive = some a → crc16 [a, k, o.payload] ≠ o.crc)
    (use : Byte → Frond → Frond) : rxOrder f o k use s = rejectFrame f o.linkB s.tm.count s := by
  unfold rxOrder
  dsimp only
  rw [power, alive]
  dsimp only
  cases last : (fieldOf s f).downAlive with
  | none => rfl
  | some a =>
    exact (if_neg (by decide)).trans (if_neg fun again => fresh a last (beq_iff_eq.mp ((Bool.and_eq_true _ _).mp again).2))

/-- The channels with SYNC_SNAP (R135). -/
def syncMask (x : Frond) : Nat := mask ((List.range 16).filter (fun p => bit (fwin x p 0x2148) 2))

theorem syncMask_congr {x y : Frond} (h : safeRules y = safeRules x) : syncMask y = syncMask x := by
  simp only [safeRules, Prod.mk.injEq] at h
  obtain ⟨_, _, cfg, _⟩ := h
  unfold syncMask fwin
  rw [cfg]

def snapSyncUse (o : OrderFrame) (x : Frond) : Frond := { x with snaps := x.snaps ++ [(reqTime o, false, syncMask x)] }

def snapDescUse (o : OrderFrame) (a : Byte) (x : Frond) : Frond :=
  match x.ds with
  | some (d, m) => if d + 1 = a then { x with snaps := x.snaps ++ [(reqTime o, true, m)], ds := none } else x
  | none => x

def safeUse (crit : List CritIn) (x : Frond) : Frond := seeSwitch x { frondSafe crit x with safeOrd := true }

theorem exec_snapSync (f : Nat) (o : OrderFrame) (s : State) :
    exec (.snapSync f o) s = .next (rxOrder f o 0x1C (fun _ => snapSyncUse o) s) := rfl

theorem exec_snapDesc (f : Nat) (o : OrderFrame) (s : State) : exec (.snapDesc f o) s = .next (rxOrder f o 0x5C (snapDescUse o) s) := rfl

theorem exec_safe {o : OrderFrame} (order : o.payload = 0xA5) (f : Nat) (crit : List CritIn) (s : State) :
    exec (.safe f o crit) s = .next (rxOrder f o 0x7C (fun _ => safeUse crit) s) := if_neg (not_not_intro order)

/-- What the frond does with each order frame. -/
theorem exec_order {f : Nat} {o : OrderFrame} {crit : List CritIn} {c : Instr} {k : Byte}
    (h : (c, k) ∈ [(Instr.snapSync f o, (0x1C : Byte)), (.snapDesc f o, 0x5C)] ∨ (o.payload = 0xA5 ∧ (c, k) = (.safe f o crit, 0x7C)))
    (s : State) : ∃ use, exec c s = .next (rxOrder f o k use s) := by
  simp only [List.mem_cons, List.not_mem_nil, or_false, Prod.mk.injEq] at h
  rcases h with (⟨rfl, rfl⟩ | ⟨rfl, rfl⟩) | ⟨order, rfl, rfl⟩
  · exact ⟨_, exec_snapSync f o s⟩
  · exact ⟨_, exec_snapDesc f o s⟩
  · exact ⟨_, exec_safe order f crit s⟩

/-- SNAP_DESC requests a snap of the selection that DS brought just before it, and uses it up (R342). -/
theorem snapDescUse_selected (o : OrderFrame) {a d : Byte} {m : Nat} {x : Frond} (h : x.ds = some (d, m)) (next : d + 1 = a) :
    (snapDescUse o a x).snaps = x.snaps ++ [(reqTime o, true, m)] ∧ (snapDescUse o a x).ds = none := by
  unfold snapDescUse
  rw [h]
  dsimp only
  rw [if_pos next]
  exact ⟨rfl, rfl⟩

theorem snapDescUse_unselected (o : OrderFrame) {a : Byte} {x : Frond} (h : ∀ d m, x.ds = some (d, m) → d + 1 ≠ a) :
    snapDescUse o a x = x := by
  unfold snapDescUse
  cases ds : x.ds with
  | none => rfl
  | some e => exact if_neg (h e.1 e.2 ds)

theorem snapDescUse_alive (o : OrderFrame) (a : Byte) (x : Frond) : (snapDescUse o a x).downAlive = x.downAlive := by
  unfold snapDescUse
  cases x.ds with
  | none => rfl
  | some e =>
    dsimp only
    split <;> rfl

/-- The SAFE order puts the frond into safe state, and stands until a D0 says otherwise (R343). -/
theorem safeUse_safe (crit : List CritIn) (x : Frond) :
    ((safeUse crit x).downAlive, (safeUse crit x).safe, (safeUse crit x).safeOrd) = (x.downAlive, true, true) := by
  obtain ⟨integ, mask, lost, chans, e⟩ := frondSafe_eq crit x
  unfold safeUse
  rw [e]
  rfl

theorem safeUse_marks (crit : List CritIn) {x : Frond} (out : x.safe = false) {e : CritIn} (h : PairMarked e (safeEntry crit x)) :
    PairMarked e (safeUse crit x) := by
  obtain ⟨chans, k⟩ := enterAll_eq { safeEntry crit x with safe := true }
  unfold safeUse
  rw [frondSafe_out out, k]
  exact h

/-- On the SAFE order each channel enters its safe state (R114, R116). -/
theorem fchan_safeUse (crit : List CritIn) {x : Frond} (out : x.safe = false) {p : Nat} (hp : p < 16) :
    { fchan (safeUse crit x) p with swFor := 0 } = { enterSafe (safeEntry crit x) p (fchan x p) with swFor := 0 } := by
  obtain ⟨n, seen⟩ := fchan_seeSwitch x { frondSafe crit x with safeOrd := true } p
  obtain ⟨integ, mask, lost, same⟩ := safeEntry_eq crit x
  have own : fchan { frondSafe crit x with safeOrd := true } p = enterSafe (safeEntry crit x) p (fchan x p) := by
    show fchan (frondSafe crit x) p = _
    rw [frondSafe_out out, fchan_enterAll _ hp]
    refine (enterSafe_congr rfl p _).trans (congrArg _ ?_)
    rw [same]
    rfl
  unfold safeUse
  rw [seen, own]

/-- Settles O51: an order that checks is used on the frond as its frame has marked it; one that does not is a reject in the core. -/
theorem orderFramesTakeEffect : Obligations.OrderFramesTakeEffect := by
  unfold Obligations.OrderFramesTakeEffect
  intro f o crit x s hx power
  subst hx
  refine ⟨fun a k hk alive => ?_, fun a k hk alive => ?_, fun a k hk order alive => ?_, fun other => if_pos other,
    fun c k hc run dead fresh => ?_⟩
  · subst hk
    obtain ⟨rules, _, _, snaps, _⟩ := orderSeen_keeps o a (fieldOf s f)
    refine ⟨_, _, (exec_snapSync f o s).trans (congrArg _ (rxOrder_used power alive _)), atFrond_modField _ _ _, rfl, ?_⟩
    rw [fieldOf_modField_same]
    exact ⟨rfl, by rw [snapSyncUse, snaps, syncMask_congr rules]; rfl⟩
  · subst hk
    obtain ⟨_, _, _, snaps, ds⟩ := orderSeen_keeps o a (fieldOf s f)
    refine ⟨_, _, (exec_snapDesc f o s).trans (congrArg _ (rxOrder_used power alive _)), atFrond_modField _ _ _, rfl, ?_⟩
    rw [fieldOf_modField_same, ← snaps, ← ds]
    refine ⟨snapDescUse_alive .., fun d m brought next => snapDescUse_selected o brought next, fun none => ?_⟩
    rw [snapDescUse_unselected o none]
    exact ⟨rfl, rfl⟩
  · subst hk
    obtain ⟨rules, chans, safe, _, _⟩ := orderSeen_keeps o a (fieldOf s f)
    have inSafe := safeUse_safe crit (orderSeen o a (fieldOf s f))
    simp only [Prod.mk.injEq] at inSafe
    obtain ⟨last, held, ordered⟩ := inSafe
    refine ⟨_, _, (exec_safe order f crit s).trans (congrArg _ (rxOrder_used power alive _)), atFrond_modField _ _ _, rfl, ?_⟩
    rw [fieldOf_modField_same]
    refine ⟨last, held, ordered, fun out z hz => ?_⟩
    rw [← safe] at out
    refine ⟨fun p hp => ?_, fun e he ofs pos output bad => ?_, fun e he ofs pos bad => ?_⟩
    · rw [fchan_safeUse crit out hp, enterSafe_congr (safeEntry_rules rules chans crit), fchan_congr chans, hz]
      rfl
    · rw [← fchan_congr chans] at output
      obtain ⟨integ, channel⟩ := safeUse_marks crit out (safeEntry_marks he bad (.inl ⟨ofs, pos, output⟩))
      exact ⟨integ, channel pos⟩
    · obtain ⟨integ, _⟩ := safeUse_marks crit out (safeEntry_marks he bad (.inr ⟨ofs, pos⟩))
      exact integ
  · obtain ⟨use, he⟩ := exec_order hc s
    obtain ⟨only, counted, _⟩ := rejectFrame_counts run f o.linkB s.tm.count
    refine ⟨_, he.trans (congrArg _ (rxOrder_rejected power dead fresh use)), only, ?_⟩
    rw [← apply_ite LinkSt.rej, ← apply_ite LinkSt.rej]
    exact counted

end Sys2Proof.Machine
end

section
/-! SUPPORT. The normal downlink frames at a frond: D0, D1, D2 and DS (R117, R318, R333, R334, R342 to R347). -/

namespace Sys2Proof.Machine

/-! ## Copy selection (R333, R334, R347) -/

/-- The frond after the checks of a frame: its link has delivered, and D0 leaves its echo. -/
def heard (fr : Frame) (k : Byte) (x : Frond) : Frond :=
  if k = 0x10 then (if fr.linkB then { linkSeen fr.linkB x with echoB := fr.stamp } else { linkSeen fr.linkB x with echoA := fr.stamp })
  else linkSeen fr.linkB x

theorem heard_eq (fr : Frame) (k : Byte) (x : Frond) : ∃ a b, heard fr k x = { linkSeen fr.linkB x with echoA := a, echoB := b } := by
  unfold heard
  split
  · split <;> exact ⟨_, _, rfl⟩
  · exact ⟨_, _, rfl⟩

/-- A first copy is remembered, with its ALIVE value. -/
def taken (fr : Frame) (k a : Byte) (d : List Byte) (x : Frond) : Frond :=
  { x with downAlive := some a, copies := tput x.copies k.toNat ⟨fr.linkB, fr.stamp, a, d, []⟩ }

/-- What a first copy finds at the frond. -/
def received (fr : Frame) (k a : Byte) (d : List Byte) (x : Frond) : Frond := taken fr k a d (heard fr k x)

/-- A first copy finds the frond as it was, but for its links and its memory of frames. -/
theorem received_eq (fr : Frame) (k a : Byte) (d : List Byte) (x : Frond) :
    ∃ down rejoin restart judge aSeen bSeen clk echoA echoB copies, received fr k a d x =
      { x with bothDown := down, rejoin := rejoin, restart := restart, judge := judge, aSeen := aSeen, bSeen := bSeen, clk := clk,
               echoA := echoA, echoB := echoB, downAlive := some a, copies := copies } ∧ (if fr.linkB then bSeen else aSeen) = true := by
  obtain ⟨echoA, echoB, e⟩ := heard_eq fr k x
  obtain ⟨down, rejoin, restart, judge, aSeen, bSeen, clk, e', seen⟩ := linkSeen_eq fr.linkB x
  refine ⟨down, rejoin, restart, judge, aSeen, bSeen, clk, echoA, echoB, (received fr k a d x).copies, ?_, seen⟩
  rw [received, taken, e, e']

theorem heard_memory (fr : Frame) (k : Byte) (x : Frond) :
    (heard fr k x).copies = x.copies ∧ (heard fr k x).downAlive = x.downAlive := by
  obtain ⟨echoA, echoB, e⟩ := heard_eq fr k x
  obtain ⟨_, _, _, _, _, _, _, e', _⟩ := linkSeen_eq fr.linkB x
  rw [e, e']
  exact ⟨rfl, rfl⟩

section
variable {f : Nat} {fr : Frame} {k : Byte} {n : Nat → Bool} {s : State}

theorem rxDown_rejected (power : (fieldOf s f).power = true) (bad : frameOk fr k n = none) (use : Byte → List Byte → Frond → Frond) :
    rxDown f fr k n use s = rejectFrame f fr.linkB s.tm.count s := by
  unfold rxDown
  dsimp only
  rw [power, bad]
  rfl

theorem copyLater_iff (c : Copy) (fr : Frame) : copyLater c fr = true ↔
    fr.stamp < c.stamp ∨ (fr.stamp = c.stamp ∧ c.linkB = true ∧ fr.linkB = false) := by
  simp only [copyLater, Bool.or_eq_true, Bool.and_eq_true, Bool.not_eq_true', decide_eq_true_eq, beq_iff_eq, and_assoc, @eq_comm Nat c.stamp]

/-- The test by which a remembered copy is one of this frame. -/
def sameFrame (k a : Byte) (e : Nat × Copy) : Bool := e.1 == k.toNat && (k != 0x18 || e.2.alive == a)

variable {a : Byte} {d : List Byte}

theorem rxDown_repeat (power : (fieldOf s f).power = true) (ok : frameOk fr k n = some (a, d)) {y : Copy}
    (held : (fieldOf s f).copies.find? (sameFrame k a) = some (k.toNat, y)) (same : y.payload = d) (use : Byte → List Byte → Frond → Frond) :
    rxDown f fr k n use s = modField f (heard fr k) s := by
  rw [← (heard_memory fr k _).1] at held
  unfold rxDown
  dsimp only
  rw [power, ok]
  refine (if_neg (by decide)).trans ?_
  dsimp only
  split
  · next c found =>
    cases (Eq.trans found.symm held)
    exact if_pos same
  · next found => exact absurd (Eq.trans found.symm held) nofun

theorem rxDown_differs (power : (fieldOf s f).power = true) (ok : frameOk fr k n = some (a, d)) {y : Copy}
    (held : (fieldOf s f).copies.find? (sameFrame k a) = some (k.toNat, y)) (other : y.payload ≠ d) (use : Byte → List Byte → Frond → Frond) :
    ∃ v, Only [.field] s v ∧ rxDown f fr k n use s = copyDiff f (if copyLater y fr then y.linkB else fr.linkB) s.tm.count v := by
  rw [← (heard_memory fr k _).1] at held
  have marked : Only [.field] s (modField f (heard fr k) s) := only_modField f _ (List.Subset.refl _) (.refl _ s)
  unfold rxDown
  dsimp only
  rw [power, ok]
  simp only [Bool.not_true, Bool.false_eq_true, if_false]
  split
  · next c found =>
    cases (Eq.trans found.symm held)
    rw [if_neg other]
    cases copyLater y fr with
    | true => exact ⟨_, only_modField f _ (List.Subset.refl _) marked, rfl⟩
    | false => exact ⟨_, marked, rfl⟩
  · next found => exact absurd (Eq.trans found.symm held) nofun

theorem rxDown_first (power : (fieldOf s f).power = true) (ok : frameOk fr k n = some (a, d))
    (unheard : (fieldOf s f).copies.any (sameFrame k a) = false) (new : (fieldOf s f).downAlive ≠ some a)
    (use : Byte → List Byte → Frond → Frond) :
    AtFrond f s (rxDown f fr k n use s) ∧ fieldOf (rxDown f fr k n use s) f = use a d (received fr k a d (fieldOf s f)) := by
  obtain ⟨copies, alive⟩ := heard_memory fr k (fieldOf s f)
  rw [← alive] at new
  have used : rxDown f fr k n use s = modField f (fun x => use a d (taken fr k a d x)) (modField f (heard fr k) s) := by
    unfold rxDown
    dsimp only
    rw [power, ok]
    refine (if_neg (by decide)).trans ?_
    dsimp only
    split
    · next c found =>
      have absent : (heard fr k (fieldOf s f)).copies.find? (sameFrame k a) = none :=
        List.find?_eq_none.mpr (copies ▸ List.any_eq_false.mp unheard)
      exact absurd (Eq.trans found.symm absent) nofun
    · exact if_neg new
  rw [used, fieldOf_modField_same, fieldOf_modField_same]
  obtain ⟨only, others⟩ := atFrond_modField f (heard fr k) s
  obtain ⟨only', others'⟩ := atFrond_modField f (fun x => use a d (taken fr k a d x)) (modField f (heard fr k) s)
  exact ⟨⟨only.trans only', fun g hg => (others' g hg).trans (others g hg)⟩, rfl⟩

end

/-! ## What D0, D1 and D2 leave at the frond (R117, R118, R318, R324, R343, R344, R357, R358) -/

/-- What the downlink has told the frond of its links, its superframe, its watchdog and its safe state. -/
def downView (x : Frond) := (x.downAlive, x.aSeen, x.bSeen, x.d0, x.d1, x.armed, x.stamp, x.safeOrd, x.safe, x.wdExp)

/-- A refresh restores a lost pair or reports a difference (R356, R357). -/
theorem refresh_eq (addr : Nat) (pos : Option Nat) (v n : Word) (x : Frond) : ∃ integ mask lost cfg, refresh addr pos v n x =
    { x with integ := integ, integMask := mask, critLost := lost, cfg := cfg } := by
  unfold refresh
  split
  · exact ⟨_, _, _, _, rfl⟩
  · split
    · exact ⟨_, _, _, _, rfl⟩
    · cases pos with
      | none =>
        dsimp only
        split <;> exact ⟨_, _, _, _, rfl⟩
      | some p =>
        dsimp only
        split <;> exact ⟨_, _, _, _, rfl⟩

theorem downView_refresh (addr : Nat) (pos : Option Nat) (v n : Word) (x : Frond) : downView (refresh addr pos v n x) = downView x := by
  obtain ⟨integ, mask, lost, cfg, e⟩ := refresh_eq addr pos v n x
  rw [e]
  rfl

theorem refreshD1_eq (x : Frond) : ∃ integ mask lost cfg, refreshD1 x =
    { x with integ := integ, integMask := mask, critLost := lost, cfg := cfg } := by
  unfold refreshD1
  split
  · next d0 d _ _ =>
    dsimp only
    obtain ⟨_, _, _, _, first⟩ := refresh_eq (winAddr (getLE d0 22 1 % 16) 0x2120) (some (getLE d0 22 1 % 16))
      (BitVec.ofNat 32 (getLE d 66 4)) (BitVec.ofNat 32 (getLE d 70 4)) x
    rw [first]
    obtain ⟨integ, mask, lost, cfg, second⟩ := refresh_eq (winAddr (getLE d0 22 1 % 16) 0x2128) (some (getLE d0 22 1 % 16))
      (BitVec.ofNat 32 (getLE d 74 4)) (BitVec.ofNat 32 (getLE d 78 4)) _
    exact ⟨integ, mask, lost, cfg, second⟩
  · exact ⟨_, _, _, _, rfl⟩

theorem downView_refreshD1 (x : Frond) : downView (refreshD1 x) = downView x := by
  obtain ⟨integ, mask, lost, cfg, e⟩ := refreshD1_eq x
  rw [e]
  rfl

theorem holdNext_eq (x : Frond) : ∃ chans, holdNext x = { x with chans := chans } := by
  unfold holdNext
  split
  · refine List.foldlRecOn (motive := fun y => ∃ chans : Tab FChan, y = { x with chans := chans }) _ _ ⟨x.chans, rfl⟩ fun y ih p _ => ?_
    obtain ⟨chans, rfl⟩ := ih
    dsimp only
    split
    · split <;> exact ⟨_, rfl⟩
    · exact ⟨_, rfl⟩
  · exact ⟨x.chans, rfl⟩

theorem downView_holdNext (x : Frond) : downView (holdNext x) = downView x := by
  obtain ⟨chans, e⟩ := holdNext_eq x
  rw [e]
  rfl

theorem downView_seeSwitch (old new : Frond) : downView (seeSwitch old new) = downView new := rfl

/-- D0 after the watchdog's deadline finds it expired (R118). -/
def lateD0 (fin : Nat) (crit : List CritIn) (x : Frond) : Frond :=
  if x.armed && !x.wdExp && decide (wdDeadline x < x.edge + fin) then expireWd crit x else x

/-- D0 arms the watchdog, and is held for the edge (R117). -/
def armD0 (fin : Nat) (d : List Byte) (x : Frond) : Frond :=
  { x with wipe := x.wipe || (x.judge && getLE d 6 2 == 0 && x.epoch != 0), judge := false, stamp := x.edge + fin, armed := true,
           met := if x.wdExp then x.met ||| 64 else x.met, d0 := some d, resEpoch := BitVec.ofNat 16 (getLE d 6 2) }

/-- The SAFE order of D0 (R343). -/
def orderD0 (crit : List CritIn) (d : List Byte) (x : Frond) : Frond :=
  if (getLE d 13 1).testBit 2 then { frondSafe crit x with safeOrd := true } else { x with safeOrd := false }

/-- The resolution in D0 (R324). -/
def resolveD0 (wasZero : Bool) (d : List Byte) (x : Frond) : Frond :=
  let resTag : Byte := BitVec.ofNat 8 (getLE d 8 1)
  let res := getLE d 9 1 % 4
  if res = 1 && x.epoch != x.resEpoch then
    (if x.total > 0 && x.tag == resTag && holdsAll x then { x with res := some (heldItems x, x.resEpoch) }
     else if x.noCfg && !wasZero then x
     else if x.total > 0 && x.tag == resTag then x
     else { x with res := some ([], x.resEpoch) })
  else if res = 2 && x.tag == resTag then { x with items := [], total := 0, itemBad := false }
  else x

/-- The distribution that D0 announces (R318). -/
def distD0 (d : List Byte) (x : Frond) : Frond :=
  let dist := (getLE d 9 1).testBit 2
  let tag : Byte := BitVec.ofNat 8 (getLE d 10 1)
  let total := getLE d 11 2
  if dist && (tag != x.tag || total != x.total) then { x with tag := tag, total := total, items := [], itemBad := false, dist := true }
  else { x with dist := dist || x.dist }

/-- The refreshed pairs in D0 (R357). -/
def refreshD0 (d : List Byte) (x : Frond) : Frond :=
  refresh (winAddr (getLE d 22 1 % 16) 0x2130) (some (getLE d 22 1 % 16)) (BitVec.ofNat 32 (getLE d 32 4)) (BitVec.ofNat 32 (getLE d 36 4))
    (refresh 0x3000 none (BitVec.ofNat 32 (getLE d 24 4)) (BitVec.ofNat 32 (getLE d 28 4)) x)

/-- The configuration that D0 brings: resolution, distribution and refreshed pairs. -/
def configD0 (wasZero : Bool) (d : List Byte) (x : Frond) : Frond := refreshD0 d (distD0 d (resolveD0 wasZero d x))

theorem useD0_eq (fin : Nat) (crit : List CritIn) (d : List Byte) (x : Frond) : useD0 fin crit d x = holdNext (refreshD1
    { configD0 (x.armed && x.resEpoch == 0) d (orderD0 crit d (armD0 fin d (lateD0 fin crit x))) with corr := sgn 16 (getLE d 14 2) }) := rfl

theorem downView_configD0 (wasZero : Bool) (d : List Byte) (x : Frond) : downView (configD0 wasZero d x) = downView x := by
  have dist : ∀ x, downView (distD0 d x) = downView x := fun x => by
    unfold distD0
    dsimp only
    split <;> rfl
  have resolve : downView (resolveD0 wasZero d x) = downView x := by
    unfold resolveD0
    dsimp only
    split
    · split
      · rfl
      · split
        · rfl
        · split <;> rfl
    · split <;> rfl
  rw [configD0, refreshD0, downView_refresh, downView_refresh, dist, resolve]

/-- The frond with the watchdog as D0 finds it. -/
theorem lateD0_eq (fin : Nat) (crit : List CritIn) (x : Frond) : ∃ safe integ mask lost chans wdExp causes met, lateD0 fin crit x =
    { x with safe := safe, integ := integ, integMask := mask, critLost := lost, chans := chans, wdExp := wdExp, causes := causes, met := met } ∧
      (x.armed = true → x.wdExp = false → wdDeadline x < x.edge + fin → wdExp = true ∧ safe = true) ∧
      (wdDeadline x ≥ x.edge + fin → wdExp = x.wdExp) := by
  unfold lateD0
  split
  · next late =>
    obtain ⟨integ, mask, lost, chans, e⟩ := frondSafe_eq crit x
    refine ⟨true, integ, mask, lost, chans, true, _, _, by rw [expireWd, e], fun _ _ _ => ⟨rfl, rfl⟩, fun inTime => ?_⟩
    simp only [Bool.and_eq_true, decide_eq_true_eq] at late
    exact absurd late.2 (Nat.not_lt.mpr inTime)
  · next early =>
    refine ⟨x.safe, x.integ, x.integMask, x.critLost, x.chans, x.wdExp, x.causes, x.met, rfl, fun armed unexpired past => ?_, fun _ => rfl⟩
    exact absurd (by simp [armed, unexpired, past]) early

/-- D0 arms the watchdog at its end, which expires first where that is past its deadline (R117, R118), and brings the SAFE order (R343). -/
theorem useD0_view (fin : Nat) (crit : List CritIn) (d : List Byte) (x : Frond) : ∃ safe wdExp, downView (useD0 fin crit d x) =
    (x.downAlive, x.aSeen, x.bSeen, some d, x.d1, true, x.edge + fin, (getLE d 13 1).testBit 2, safe, wdExp) ∧
      ((getLE d 13 1).testBit 2 = true → safe = true) ∧
      (x.armed = true → x.wdExp = false → wdDeadline x < x.edge + fin → wdExp = true ∧ safe = true) ∧
      (wdDeadline x ≥ x.edge + fin → wdExp = x.wdExp) := by
  have order : downView (useD0 fin crit d x) = downView (orderD0 crit d (armD0 fin d (lateD0 fin crit x))) :=
    ((congrArg downView (useD0_eq ..)).trans (downView_holdNext _)).trans ((downView_refreshD1 _).trans (downView_configD0 _ d _))
  obtain ⟨safe, integ, mask, lost, chans, wdExp, causes, met, e, late, inTime⟩ := lateD0_eq fin crit x
  rw [order, e]
  unfold orderD0
  cases ordered : (getLE d 13 1).testBit 2 with
  | true =>
    obtain ⟨integ, mask, lost, chans, e'⟩ := frondSafe_eq crit (armD0 fin d
      { x with safe := safe, integ := integ, integMask := mask, critLost := lost, chans := chans, wdExp := wdExp, causes := causes, met := met })
    rw [if_pos rfl, e']
    exact ⟨true, wdExp, rfl, fun _ => rfl, fun armed unexpired past => ⟨(late armed unexpired past).1, rfl⟩, inTime⟩
  | false =>
    rw [if_neg Bool.false_ne_true]
    exact ⟨safe, wdExp, rfl, nofun, late, inTime⟩

theorem useD0_corr (fin : Nat) (crit : List CritIn) (d : List Byte) (x : Frond) : (useD0 fin crit d x).corr = sgn 16 (getLE d 14 2) := by
  obtain ⟨chans, e⟩ := holdNext_eq (refreshD1
    { configD0 (x.armed && x.resEpoch == 0) d (orderD0 crit d (armD0 fin d (lateD0 fin crit x))) with corr := sgn 16 (getLE d 14 2) })
  obtain ⟨integ, mask, lost, cfg, e'⟩ := refreshD1_eq
    { configD0 (x.armed && x.resEpoch == 0) d (orderD0 crit d (armD0 fin d (lateD0 fin crit x))) with corr := sgn 16 (getLE d 14 2) }
  rw [useD0_eq, e, e']

theorem useD1_view (d : List Byte) (x : Frond) : downView (useD1 d x) = downView { x with d1 := some d } :=
  (downView_holdNext _).trans (downView_refreshD1 _)

/-- An item of a D2, stored by its place in the distribution (R318). -/
def storeItem (d : List Byte) (t : Tab (Nat × Word)) (i : Nat) : Tab (Nat × Word) :=
  tput t (getLE d (2 + 8 * i) 2) (getLE d (4 + 8 * i) 2, BitVec.ofNat 32 (getLE d (6 + 8 * i) 4))

/-- The items of a D2, stored. -/
def storeItems (d : List Byte) (t : Tab (Nat × Word)) : Tab (Nat × Word) := (List.range (min 16 (getLE d 0 2))).foldl (storeItem d) t

/-- Items reach a frond while a distribution to it is under way (R318). -/
def storeD2 (d : List Byte) (x : Frond) : Frond :=
  if !x.dist then x else (List.range (min 16 (getLE d 0 2))).foldl (fun x i =>
    { x with items := tput x.items (getLE d (2 + 8 * i) 2)
                        (getLE d (2 + 8 * i + 2) 2, BitVec.ofNat 32 (getLE d (2 + 8 * i + 4) 4)) }) x

/-- The held items that fail as pairs (R358). -/
def badItems (x : Frond) : List (Nat × Word) := (heldItems x).filter (fun e =>
  isPairValue e.1 && (pairBad (heldItems x) e || (x.items.length == x.total && !pairWhole (heldItems x) e)))

/-- Failed pairs are reported at once (R355, R358). -/
def checkItems (x : Frond) : Frond :=
  if x.total > 0 && !(badItems x).isEmpty && !x.itemBad then
    { x with itemBad := true, integ := true, integMask := x.integMask |||
               mask (((badItems x).filter (fun e => decide (e.1 ≥ 0x8000))).map (fun e => (e.1 - 0x8000) / 256 % 16)) }
  else x

theorem useD2_eq (d : List Byte) (x : Frond) : useD2 d x = checkItems (storeD2 d x) := rfl

theorem checkItems_eq (x : Frond) : ∃ bad integ mask, checkItems x = { x with itemBad := bad, integ := integ, integMask := mask } := by
  unfold checkItems
  split <;> exact ⟨_, _, _, rfl⟩

theorem checkItems_reports {x : Frond} (total : 0 < x.total) (good : x.itemBad = false)
    (bad : ∃ e ∈ heldItems x, isPairValue e.1 = true ∧ pairBad (heldItems x) e = true) :
    (checkItems x).itemBad = true ∧ (checkItems x).integ = true := by
  obtain ⟨e, held, value, fails⟩ := bad
  have listed : e ∈ badItems x := List.mem_filter.mpr ⟨held, by rw [value, fails]; rfl⟩
  have found : (badItems x).isEmpty = false := List.isEmpty_eq_false_iff.mpr (List.ne_nil_of_mem listed)
  unfold checkItems
  rw [good, found, if_pos (by simp [total])]
  exact ⟨rfl, rfl⟩

theorem foldl_items (g : Tab (Nat × Word) → Nat → Tab (Nat × Word)) : ∀ (l : List Nat) (x : Frond),
    l.foldl (fun x i => { x with items := g x.items i }) x = { x with items := l.foldl g x.items }
  | [], _ => rfl
  | i :: l, x => foldl_items g l { x with items := g x.items i }

theorem storeD2_eq {x : Frond} (dist : x.dist = true) (d : List Byte) : storeD2 d x = { x with items := storeItems d x.items } := by
  have offsets : ∀ i, 2 + 8 * i + 2 = 4 + 8 * i ∧ 2 + 8 * i + 4 = 6 + 8 * i := fun i => by omega
  unfold storeD2
  refine (if_neg (by rw [dist]; decide)).trans ?_
  simp only [offsets]
  exact foldl_items (storeItem d) _ x

theorem useD2_items {x : Frond} (dist : x.dist = true) (d : List Byte) : (useD2 d x).items = storeItems d x.items := by
  obtain ⟨bad, integ, mask, e⟩ := checkItems_eq (storeD2 d x)
  rw [useD2_eq, e, storeD2_eq dist]

/-- A held pair that does not check is reported (R355, R358). -/
theorem useD2_reports {x : Frond} {d : List Byte} (dist : x.dist = true) (total : 0 < x.total) (whole : x.itemBad = false)
    (bad : ∃ e ∈ heldItems (useD2 d x), isPairValue e.1 = true ∧ pairBad (heldItems (useD2 d x)) e = true) :
    (useD2 d x).itemBad = true ∧ (useD2 d x).integ = true := by
  have held : heldItems (useD2 d x) = heldItems (storeD2 d x) := by
    obtain ⟨bad, integ, mask, e⟩ := checkItems_eq (storeD2 d x)
    rw [useD2_eq, e]
    rfl
  rw [held] at bad
  have stored := storeD2_eq dist d
  rw [useD2_eq]
  refine checkItems_reports ?_ ?_ bad
  · rw [stored]
    exact total
  · rw [stored]
    exact whole

/-- The use that the frond makes of each normal frame. -/
def downUse (fin : Nat) (crit : List CritIn) (k a : Byte) (d : List Byte) (x : Frond) : Frond :=
  if k = 0x10 then seeSwitch x (useD0 fin crit d x)
  else if k = 0x11 then useD1 d x
  else if k = 0x12 then useD2 d x
  else { x with ds := some (a, getLE d 0 2) }

section
variable (fin : Nat) (crit : List CritIn) (a : Byte) (d : List Byte) (x : Frond)

theorem downUse_d0 : downUse fin crit 0x10 a d x = seeSwitch x (useD0 fin crit d x) := if_pos rfl

theorem downUse_d1 : downUse fin crit 0x11 a d x = useD1 d x := rfl

theorem downUse_d2 : downUse fin crit 0x12 a d x = useD2 d x := rfl

theorem downUse_ds : downUse fin crit 0x18 a d x = { x with ds := some (a, getLE d 0 2) } := rfl

end

theorem exec_down {f fin ins : Nat} {fr : Frame} {crit : List CritIn} {c : Instr} {k : Byte} {n : Nat → Bool}
    (h : (c, k, n) ∈ [(Instr.d0 f fr fin crit, (0x10 : Byte), fun m => m == 113), (.d1 f fr, 0x11, fun m => m == 82),
      (.d2 f fr ins, 0x12, fun m => m + ins == 344 && decide (130 ≤ m)), (.ds f fr, 0x18, fun m => m == 2)])
    (s : State) : exec c s = .next (rxDown f fr k n (downUse fin crit k) s) := by
  simp only [List.mem_cons, List.not_mem_nil, or_false, Prod.mk.injEq] at h
  rcases h with ⟨rfl, rfl, rfl⟩ | ⟨rfl, rfl, rfl⟩ | ⟨rfl, rfl, rfl⟩ | ⟨rfl, rfl, rfl⟩
  · rfl
  · rfl
  · rfl
  · rfl

/-- No use of a frame touches the ALIVE value or the links. -/
theorem downUse_links (fin : Nat) (crit : List CritIn) (k a : Byte) (d : List Byte) (x : Frond) :
    ((downUse fin crit k a d x).downAlive, (downUse fin crit k a d x).aSeen, (downUse fin crit k a d x).bSeen) =
      (x.downAlive, x.aSeen, x.bSeen) := by
  unfold downUse
  split
  · obtain ⟨_, _, view, _⟩ := useD0_view fin crit d x
    exact congrArg (fun v => (v.1, v.2.1, v.2.2.1)) view
  · split
    · exact congrArg (fun v => (v.1, v.2.1, v.2.2.1)) (useD1_view d x)
    · split
      · obtain ⟨bad, integ, mask, e⟩ := checkItems_eq (storeD2 d x)
        rw [useD2_eq, e]
        cases dist : x.dist with
        | true =>
          rw [storeD2_eq dist]
        | false =>
          have kept : storeD2 d x = x := if_pos (by rw [dist]; rfl)
          rw [kept]
      · rfl

/-- Settles O50: a frame is rejected, repeats a copy, differs from it or is the first; each use is then read off the frond it finds. -/
theorem downlinkFramesAreUsedOnce : Obligations.DownlinkFramesAreUsedOnce := by
  unfold Obligations.DownlinkFramesAreUsedOnce
  intro f fin ins fr crit x s hx power c k n hc
  subst hx
  have step := exec_down hc s
  refine ⟨fun bad run => ?_, fun a d y ok held same => ?_, fun a d y later ok held other hl run good => ?_, fun a d ok unheard new => ?_⟩
  · obtain ⟨only, rej, err⟩ := rejectFrame_counts run f fr.linkB s.tm.count
    exact ⟨_, _, _, step.trans (congrArg _ (rxDown_rejected power bad _)), only, rfl, rfl, rej, err⟩
  · refine ⟨_, step.trans (congrArg _ (rxDown_repeat power ok held same _)), atFrond_modField _ _ _, fun z hz => ?_⟩
    obtain ⟨echoA, echoB, e⟩ := heard_eq fr k (fieldOf s f)
    rw [fieldOf_modField_same, e, hz]
  · obtain ⟨v, only, e⟩ := rxDown_differs power ok held other (downUse fin crit k)
    have second : later = if copyLater y fr then y.linkB else fr.linkB := hl.trans (if_congr (copyLater_iff y fr).symm rfl rfl)
    rw [← second] at e
    obtain ⟨active, counted⟩ := copyDiff_counts ((running_of_only only (by decide)).trans run)
      ((lineBad_of_only only (by decide) _ _).trans good) s.tm.count
    refine ⟨_, step.trans (congrArg _ e), only_copyDiff _ _ _ (by decide) (only.mono (by decide)), active, ?_⟩
    rw [← apply_ite LinkSt.diff, ← apply_ite LinkSt.diff]
    rw [frond_of_only only (by decide)] at counted
    exact counted
  · obtain ⟨at_, used⟩ := rxDown_first power ok unheard new (downUse fin crit k)
    obtain ⟨down, rejoin, restart, judge, aSeen, bSeen, clk, echoA, echoB, copies, found, seen⟩ := received_eq fr k a d (fieldOf s f)
    have links := downUse_links fin crit k a d (received fr k a d (fieldOf s f))
    rw [found] at links used
    simp only [Prod.mk.injEq] at links
    obtain ⟨alive, onA, onB⟩ := links
    refine ⟨_, _, step, at_, rfl, ?_⟩
    rw [used]
    refine ⟨alive, by rw [onA, onB]; exact seen, fun hk => ?_, fun hk => ?_, fun hk dist => ?_, fun hk dist total whole bad => ?_, fun hk => ?_⟩
    · subst hk
      rw [downUse_d0]
      obtain ⟨safe, wdExp, view, ordered, late, inTime⟩ := useD0_view fin crit d (received fr 0x10 a d (fieldOf s f))
      rw [← downView_seeSwitch (received fr 0x10 a d (fieldOf s f)), found] at view
      rw [found] at late inTime
      simp only [downView, Prod.mk.injEq] at view
      obtain ⟨_, _, _, held, _, armed, stamp, order, isSafe, expired⟩ := view
      exact ⟨held, armed, stamp, useD0_corr fin crit d _, order, fun o => isSafe.trans (ordered o),
        fun was unexpired past => ⟨expired.trans (late was unexpired past).1, isSafe.trans (late was unexpired past).2⟩,
        fun soon => expired.trans (inTime soon)⟩
    · subst hk
      rw [downUse_d1]
      have view := useD1_view d (received fr 0x11 a d (fieldOf s f))
      rw [found] at view
      simp only [downView, Prod.mk.injEq] at view
      obtain ⟨_, _, _, held, brought, _⟩ := view
      exact ⟨brought, held⟩
    · subst hk
      rw [downUse_d2]
      refine (useD2_items ?_ d).trans ?_
      · exact dist
      · rfl
    · subst hk
      rw [downUse_d2] at bad ⊢
      refine useD2_reports ?_ ?_ ?_ bad
      · exact dist
      · exact total
      · exact whole
    · subst hk
      rw [downUse_ds]
      exact ⟨rfl, rfl⟩

end Sys2Proof.Machine
end

section
/-! SUPPORT. Reads of BAR0 on a path that reaches it: when they are served, the path's shadow, and the three reads of a 64-bit
register (R159, R160, R162). -/

namespace Sys2Proof.Machine

/-! ## The path's shadow -/

theorem pathRegs_modPath_same (p : Path) (g : PathRegs → PathRegs) (s : State) : pathRegs p (modPath p g s) = g (pathRegs p s) := by
  cases p <;> rfl

theorem pathRegs_modPath_other {p q : Path} (h : q ≠ p) (g : PathRegs → PathRegs) (s : State) :
    pathRegs q (modPath p g s) = pathRegs q s := by
  cases p <;> cases q
  case pcie.pcie | mp.mp => exact absurd rfl h
  case pcie.mp | mp.pcie => rfl

theorem modPath_outbox (p : Path) (g : PathRegs → PathRegs) (s : State) : (modPath p g s).outbox = s.outbox := by
  cases p <;> rfl

theorem pathOpen_modPath (p q : Path) (g : PathRegs → PathRegs) (s : State) : pathOpen q (modPath p g s) = pathOpen q s := by
  cases p <;> rfl

/-! ## What serves a read -/

theorem answer_open {p : Path} {s : State} (h : pathOpen p s = true) (v : DWord) :
    answer p v s = { s with outbox := .readData p v :: s.outbox } := if_pos h

/-- A block that is open for reads stands in a module that is neither off nor in reset. -/
theorem live_of_readOpen {s : State} {ofs : Nat} (h : readOpen s ofs = true) : s.phase ≠ .off ∧ s.phase ≠ .reset := by
  constructor <;> intro k <;> simp [readOpen, running, k] at h

/-- Both halves of every 64-bit register are aligned words of BAR0. -/
theorem readAligned_of_is64 {ofs : Nat} (h : is64 ofs = true) : readAligned ofs = true ∧ readAligned (ofs + 4) = true := by
  simp only [is64, is64W, inBlock, Bool.or_eq_true, Bool.and_eq_true, beq_iff_eq, decide_eq_true_eq] at h
  simp only [readAligned, Bool.and_eq_true, beq_iff_eq, decide_eq_true_eq]
  omega

/-! ## The three reads -/

section
variable {p : Path} {ofs : Nat} {s : State} (reach : pathOpen p s = true) (served : readOpen s ofs = true) (wide : is64 ofs = true)
include reach served wide

theorem exec_reg64LowRead : exec (.reg64LowRead p ofs) s = .next (answer p ((readReg p s ofs).setWidth 64)
    (modPath p (fun r => { r with shadow := some (ofs, shadowChan p s ofs, readReg p s (ofs + 4)) }) s)) := by
  obtain ⟨on, up⟩ := live_of_readOpen served
  change execReg64LowRead p ofs s = _
  simp [execReg64LowRead, on, up, reach, served, wide, readAligned_of_is64 wide]

/-- The high half is read of the shadow that the low half of the same register and channel has left (R160). -/
theorem exec_reg64HighRead_shadow {w : Word} (held : (pathRegs p s).shadow = some (ofs, shadowChan p s ofs, w)) :
    exec (.reg64HighRead p ofs) s = .next (answer p (w.setWidth 64) (modPath p (fun r => { r with shadow := none }) s)) := by
  obtain ⟨on, up⟩ := live_of_readOpen served
  change execReg64HighRead p ofs s = _
  simp [execReg64HighRead, on, up, reach, served, wide, readAligned_of_is64 wide, held]

/-- Without such a shadow the high half is read live, and the read is torn (R160). -/
theorem exec_reg64HighRead_torn (stray : ∀ w, (pathRegs p s).shadow ≠ some (ofs, shadowChan p s ofs, w)) :
    exec (.reg64HighRead p ofs) s = .next (answer p ((readReg p s (ofs + 4)).setWidth 64)
      { s with torn := true, tornOfs := if s.torn then s.tornOfs else BitVec.ofNat 16 (ofs + 4) }) := by
  obtain ⟨on, up⟩ := live_of_readOpen served
  change execReg64HighRead p ofs s = _
  cases shadow : (pathRegs p s).shadow with
  | none => simp [execReg64HighRead, on, up, reach, served, wide, readAligned_of_is64 wide, shadow]
  | some e =>
    obtain ⟨o, c, w⟩ := e
    have other : ¬(o = ofs ∧ c = shadowChan p s ofs) := fun ⟨ho, hc⟩ => stray w (by rw [shadow, ho, hc])
    simp [execReg64HighRead, on, up, reach, served, wide, readAligned_of_is64 wide, shadow, other]

omit reach in
theorem exec_reg64AtomicRead (aligned : ofs % 8 = 0) :
    exec (.reg64AtomicRead p ofs) s = .next (answer p (readReg p s (ofs + 4) ++ readReg p s ofs) s) := by
  obtain ⟨on, up⟩ := live_of_readOpen served
  change execReg64AtomicRead p ofs s = _
  simp [execReg64AtomicRead, on, up, wide, aligned, join64_append]

end

/-- An answer after a change of the path's own registers: the other path keeps its registers. -/
theorem answer_modPath {p : Path} {s : State} (reach : pathOpen p s = true) (g : PathRegs → PathRegs) (v : DWord) :
    Only [.outbox, .paths] s (answer p v (modPath p g s)) ∧ (answer p v (modPath p g s)).outbox = .readData p v :: s.outbox ∧
    (∀ q, q ≠ p → pathRegs q (answer p v (modPath p g s)) = pathRegs q s) ∧
    pathRegs p (answer p v (modPath p g s)) = g (pathRegs p s) := by
  refine ⟨only_answer p v (by decide) (only_modPath p g (by decide) (.refl _ s)), ?_⟩
  rw [answer_open ((pathOpen_modPath p p g s).trans reach)]
  exact ⟨congrArg _ (modPath_outbox p g s), fun q h => pathRegs_modPath_other h g s, pathRegs_modPath_same p g s⟩

/-- Settles O10: one lemma for what each read comes to, and the shadow after it. -/
theorem reg64ReadsAreCoherent : Obligations.Reg64ReadsAreCoherent := by
  unfold Obligations.Reg64ReadsAreCoherent
  intro p ofs s reach served wide
  refine ⟨⟨_, exec_reg64LowRead reach served wide, answer_modPath reach _ _⟩,
    fun w held => ⟨_, exec_reg64HighRead_shadow reach served wide held, answer_modPath reach _ _⟩, fun stray => ?_, fun aligned => ?_⟩
  · rw [exec_reg64HighRead_torn reach served wide stray, answer_open]
    exact reach
  · rw [exec_reg64AtomicRead served wide aligned, answer_open reach]

end Sys2Proof.Machine
end

section
/-! SUPPORT. A SYNC_IN edge: the snap order or the lost snaps of each frond, and the trigger of each capture ring (R131, R136, R280,
R340). -/

namespace Sys2Proof.Machine

/-! ## The snap at one frond -/

theorem frond_sendOrder_same (f : Nat) (k v : Byte) (s : State) :
    frond (sendOrder f k v s) f = { frond s f with downAlive := nextDown s f } :=
  frond_modFrond_same f (fun x => { x with downAlive := nextDown s f }) s

theorem frond_sendOrder_other {f j : Nat} (h : j ≠ f) (k v : Byte) (s : State) : frond (sendOrder f k v s) j = frond s j :=
  frond_modFrond_other h (fun x => { x with downAlive := nextDown s f }) s

theorem outbox_sendOrder (f : Nat) (k v : Byte) (s : State) :
    (sendOrder f k v s).outbox = .order f k v (crc16 [nextDown s f, k, v]) :: s.outbox := rfl

/-- The channels of frond f with SYNC_SNAP in force (R135). -/
def syncSnaps (s : State) (f : Nat) : List Nat := (List.range 16).filter (fun p => bit (frc s 0x2148 (16 * f + p)) 2)

/-- A channel's words in force are in the configuration that its own frond holds, or in the module's. -/
theorem frc_window {s t : State} {f p : Nat} (hp : p < 16) (cfg : t.cfg = s.cfg) (own : frond t f = frond s f) :
    frc t 0x2148 (16 * f + p) = frc s 0x2148 (16 * f + p) := by
  have channel : ofFrond 0x2148 (16 * f + p) = some f := by
    have : (16 * f + p) / 16 = f := by omega
    exact congrArg some this
  simp only [frc, cfgOf, channel, own, cfg]

theorem syncSnaps_congr {s t : State} {f : Nat} (cfg : t.cfg = s.cfg) (own : frond t f = frond s f) : syncSnaps t f = syncSnaps s f :=
  List.filter_congr (fun p hp => by rw [frc_window (List.mem_range.mp hp) cfg own])

theorem coreCycle_congr {s t : State} (age : t.abs = s.abs) (cycles : Nat) : coreCycle t cycles = coreCycle s cycles := by
  rw [coreCycle, coreCycle, age]

theorem snapStamp_congr {s t : State} {f : Nat} (age : t.abs = s.abs) (own : frond t f = frond s f) (cycles : Nat) :
    snapStamp t f cycles = snapStamp s f cycles := by
  rw [snapStamp, snapStamp, own, coreCycle_congr age]

section
variable {cycles : Nat} {s : State} {f : Nat}

theorem snapFrondIn_sends (due : snapStamp s f cycles = cycles) : snapFrondIn cycles s f =
    sendOrder f 0x1C (BitVec.ofNat 8 (requestTime cycles)) (modFrond f (fun x => { x with lastSnap := some (coreCycle s cycles) }) s) :=
  if_pos due

theorem snapFrondIn_loses (early : snapStamp s f cycles ≠ cycles) : snapFrondIn cycles s f =
    modFrond f (fun x => { x with snapLost := satAdd 255 x.snapLost (syncSnaps s f).length }) s := if_neg early

theorem frond_snapFrondIn_other {j : Nat} (h : j ≠ f) : frond (snapFrondIn cycles s f) j = frond s j := by
  by_cases due : snapStamp s f cycles = cycles
  · rw [snapFrondIn_sends due, frond_sendOrder_other h, frond_modFrond_other h]
  · rw [snapFrondIn_loses due, frond_modFrond_other h]

theorem frond_snapFrondIn_sends (due : snapStamp s f cycles = cycles) :
    (frond (snapFrondIn cycles s f) f).lastSnap = some (coreCycle s cycles) ∧
    (frond (snapFrondIn cycles s f) f).snapLost = (frond s f).snapLost := by
  rw [snapFrondIn_sends due, frond_sendOrder_same, frond_modFrond_same]
  exact ⟨rfl, rfl⟩

theorem frond_snapFrondIn_loses (early : snapStamp s f cycles ≠ cycles) : frond (snapFrondIn cycles s f) f =
    { frond s f with snapLost := satAdd 255 (frond s f).snapLost (syncSnaps s f).length } := by
  rw [snapFrondIn_loses early, frond_modFrond_same]

/-- What a frond's turn sends is its snap order. -/
theorem mem_outbox_snapFrondIn {o : Output} (h : o ∈ (snapFrondIn cycles s f).outbox) : o ∈ s.outbox ∨
    ∃ crc, snapStamp s f cycles = cycles ∧ o = .order f 0x1C (BitVec.ofNat 8 (requestTime cycles)) crc := by
  by_cases due : snapStamp s f cycles = cycles
  · rw [snapFrondIn_sends due, outbox_sendOrder] at h
    rcases List.mem_cons.mp h with e | h
    · exact .inr ⟨_, due, e⟩
    · exact .inl h
  · rw [snapFrondIn_loses due] at h
    exact .inl h

end

/-! ## The snap at all fronds -/

/-- Turns of fronds change their records in the core and send, nothing else. -/
theorem only_snapFronds (cycles : Nat) (l : List Nat) (s : State) : Only [.outbox, .fronds] s (l.foldl (snapFrondIn cycles) s) :=
  Only.foldl (fun _ f h => only_snapFrondIn cycles f (List.Subset.refl _) h) l (.refl _ s)

theorem outbox_snapFronds (cycles : Nat) (l : List Nat) (s : State) : s.outbox <:+ (l.foldl (snapFrondIn cycles) s).outbox :=
  (Kept.foldl (fun _ f h => kept_snapFrondIn cycles f h) l (Kept.refl s)).out

/-- All that the turns of fronds send is the snap orders of those whose last one is long enough ago. -/
theorem mem_outbox_snapFronds {cycles : Nat} {o : Output} : ∀ {l : List Nat} {s : State}, l.Nodup →
    o ∈ (l.foldl (snapFrondIn cycles) s).outbox → o ∈ s.outbox ∨
      ∃ f crc, f ∈ l ∧ snapStamp s f cycles = cycles ∧ o = .order f 0x1C (BitVec.ofNat 8 (requestTime cycles)) crc
  | [], _, _, h => .inl h
  | j :: l, s, nodup, h => by
    obtain ⟨hj, nodup⟩ := List.nodup_cons.mp nodup
    rcases mem_outbox_snapFronds nodup h with now | ⟨f, crc, hf, due, e⟩
    · rcases mem_outbox_snapFrondIn now with old | ⟨crc, due, e⟩
      · exact .inl old
      · exact .inr ⟨j, crc, List.mem_cons_self, due, e⟩
    · have age : (snapFrondIn cycles s j).abs = s.abs := congrArg Prod.fst (only_snapFronds cycles [j] s .age (by decide))
      have own : frond (snapFrondIn cycles s j) f = frond s f := frond_snapFrondIn_other (fun q => hj (q ▸ hf))
      exact .inr ⟨f, crc, List.mem_cons_of_mem _ hf, (snapStamp_congr age own cycles).symm.trans due, e⟩

/-- A frond's turn finds the frond, the configuration and the time as they were before all turns, and what it does stays. -/
theorem snapFronds_turn (cycles : Nat) {f : Nat} (hf : f < 32) (s : State) : ∃ u,
    frond u f = frond s f ∧ u.cfg = s.cfg ∧ u.abs = s.abs ∧
    frond (allFronds.foldl (snapFrondIn cycles) s) f = frond (snapFrondIn cycles u f) f ∧
    (snapFrondIn cycles u f).outbox <:+ (allFronds.foldl (snapFrondIn cycles) s).outbox := by
  obtain ⟨a, b, e, before, after⟩ := view_foldl_all (frond · f) hf (fun _ _ h => frond_snapFrondIn_other h) s
  have only := only_snapFronds cycles a s
  refine ⟨_, before, only .cfg (by decide), congrArg Prod.fst (only .age (by decide)), after, ?_⟩
  rw [e, List.foldl_append, List.foldl_cons]
  exact outbox_snapFronds cycles b _

theorem exec_syncInSnap {s : State} (run : s.phase = .running) (fn : syncFn s = 1) (cycles : Nat) :
    exec (.syncInSnap cycles) s = .next (allFronds.foldl (snapFrondIn cycles) s) := by
  change execSyncInSnap cycles s = _
  simp [execSyncInSnap, run, fn]

/-- A frond whose last snap order is long enough ago gets the order (R131, R340). -/
theorem snapFronds_send (cycles : Nat) {f : Nat} (hf : f < 32) {s : State} (due : snapStamp s f cycles = cycles) :
    (frond (allFronds.foldl (snapFrondIn cycles) s) f).lastSnap = some (coreCycle s cycles) ∧
    (frond (allFronds.foldl (snapFrondIn cycles) s) f).snapLost = (frond s f).snapLost ∧
    ∃ crc, .order f 0x1C (BitVec.ofNat 8 (requestTime cycles)) crc ∈ (allFronds.foldl (snapFrondIn cycles) s).outbox := by
  obtain ⟨u, own, _, age, after, sent⟩ := snapFronds_turn cycles hf s
  have due' : snapStamp u f cycles = cycles := (snapStamp_congr age own cycles).trans due
  obtain ⟨last, lost⟩ := frond_snapFrondIn_sends due'
  rw [after, last, lost, own, coreCycle_congr age]
  rw [snapFrondIn_sends due', outbox_sendOrder] at sent
  exact ⟨rfl, rfl, _, sent.mem List.mem_cons_self⟩

/-- Another frond counts a lost snap for each of its channels with SYNC_SNAP (R136, R340). -/
theorem snapFronds_lose (cycles : Nat) {f : Nat} (hf : f < 32) {s : State} (early : snapStamp s f cycles ≠ cycles) :
    frond (allFronds.foldl (snapFrondIn cycles) s) f =
      { frond s f with snapLost := satAdd 255 (frond s f).snapLost (syncSnaps s f).length } := by
  obtain ⟨u, own, cfg, age, after, _⟩ := snapFronds_turn cycles hf s
  rw [after, frond_snapFrondIn_loses (by rwa [snapStamp_congr age own]), own, syncSnaps_congr cfg own]

/-! ## The capture trigger -/

theorem capRing_capTrigger_other {r j : Nat} (h : j ≠ r) (key src rule : Nat) (id : Option Nat) (rewind : Option TickNo) (s : State) :
    capRing (capTrigger r key src rule id rewind s).1 j = capRing s j := by
  unfold capTrigger
  dsimp only
  split
  · split <;> exact capRing_modCap_other h _ _
  · split
    · exact tget_tput_other _ h _ _
    · exact capRing_modCap_other h _ _

/-- A trigger of an idle ring that is enabled and armed starts a capture (R280, R281). -/
theorem capTrigger_armed {r key src rule : Nat} {id : Option Nat} {rewind : Option TickNo} {s : State} (en : capEn s.cfg r = true)
    (armed : (capRing s r).armed = true) (idle : (capRing s r).run = none) :
    ∃ c, (capRing (capTrigger r key src rule id rewind s).1 r).run = some c ∧ c.key = key ∧ c.sources = src ∧ c.ids = id.toList := by
  have accepted : (capTrigger r key src rule id rewind s).1 = capAccept s.cfg r key src rule id rewind s := by
    unfold capTrigger
    simp [en, armed, idle]
  rw [accepted]
  exact ⟨_, congrArg CapRing.run (tget_tput_same _ _ _ _), rfl, rfl, rfl⟩

/-- A SYNC_IN edge at one ring (R278, R308). -/
def syncInRing (cycles : Nat) (s : State) (r : Nat) : State :=
  if bit (capWord s.cfg r 0) 6 then (capTrigger r (keyAt s cycles) 2 0xFFFF none none s).1 else s

theorem capRing_syncInRing_other {cycles r j : Nat} (h : j ≠ r) (s : State) : capRing (syncInRing cycles s r) j = capRing s j := by
  unfold syncInRing
  split
  · exact capRing_capTrigger_other h _ _ _ _ _ s
  · rfl

theorem only_syncInRing {s t : State} (cycles r : Nat) (h : Only [.caps] s t) : Only [.caps] s (syncInRing cycles t r) :=
  Only.ite (only_capTrigger r _ _ _ _ _ (List.Subset.refl _) h) h

theorem only_syncInRings (cycles : Nat) (l : List Nat) (s : State) : Only [.caps] s (l.foldl (syncInRing cycles) s) :=
  Only.foldl (fun _ r h => only_syncInRing cycles r h) l (.refl _ s)

theorem exec_syncInCaptureTrigger {s : State} (run : running s = true) (fn : syncFn s = 3) (cycles : Nat) :
    exec (.syncInCaptureTrigger cycles) s = .next ((List.range 32).foldl (syncInRing cycles) s) := by
  change execSyncInCaptureTrigger cycles s = _
  simp only [execSyncInCaptureTrigger, run, fn]
  rfl

theorem keyAt_congr {s t : State} (age : t.abs = s.abs) (cycles : Nat) : keyAt t cycles = keyAt s cycles := by
  rw [keyAt, keyAt, convNow, convNow, age]

/-- The edge starts a capture in each ring with SYNC_TRIG that is enabled, armed and idle. -/
theorem syncInRings_start (cycles : Nat) {s : State} {r : Nat} (hr : r < 32) (trig : bit (capWord s.cfg r 0) 6 = true)
    (en : capEn s.cfg r = true) (armed : (capRing s r).armed = true) (idle : (capRing s r).run = none) :
    ∃ c, (capRing ((List.range 32).foldl (syncInRing cycles) s) r).run = some c ∧ c.key = keyAt s cycles ∧ c.sources = 2 ∧ c.ids = [] := by
  obtain ⟨a, b, e, before, after⟩ := view_foldl_all (capRing · r) hr (fun t _ h => capRing_syncInRing_other (cycles := cycles) h t) s
  have only := only_syncInRings cycles a s
  have cfg : (a.foldl (syncInRing cycles) s).cfg = s.cfg := only .cfg (by decide)
  have turn : syncInRing cycles (a.foldl (syncInRing cycles) s) r = _ := if_pos (cfg.symm ▸ trig)
  rw [keyAt_congr (congrArg Prod.fst (only .age (by decide)))] at turn
  rw [show List.range 32 = allFronds from rfl, after, turn]
  exact capTrigger_armed (cfg.symm ▸ en) (by rw [before, armed]) (by rw [before, idle])

theorem exec_syncInPhaseReset {s : State} (run : running s = true) (fn : syncFn s = 2) :
    exec .syncInPhaseReset s = .next { s with tm := { s.tm with syncReq := s.tm.syncReq ++ [none] } } := by
  change execSyncInPhaseReset s = _
  simp [execSyncInPhaseReset, run, fn]

/-- Settles O38: each edge comes to the fronds or rings one at a time, and each finds its own as it was. -/
theorem syncInEdgesAct : Obligations.SyncInEdgesAct := by
  unfold Obligations.SyncInEdgesAct
  refine ⟨fun cycles s run fn => ?_, fun s run fn => exec_syncInPhaseReset run fn, fun cycles s run fn => ?_⟩
  · refine ⟨_, exec_syncInSnap run fn cycles, only_snapFronds cycles _ s, fun o ho => ?_,
      fun f hf => ⟨snapFronds_send cycles hf, fun early n hn => hn ▸ snapFronds_lose cycles hf early⟩⟩
    rcases mem_outbox_snapFronds List.nodup_range ho with old | ⟨f, crc, hf, sent⟩
    · exact .inl old
    · exact .inr ⟨f, crc, List.mem_range.mp hf, sent⟩
  · exact ⟨_, exec_syncInCaptureTrigger run fn cycles, only_syncInRings cycles _ s, fun r hr => syncInRings_start cycles hr⟩

end Sys2Proof.Machine
end

section
/-! SUPPORT. A conversion: the code with its trim, the snap that it takes, and what it adds to the channel's tick (R126, R133, R136,
R144, R150). -/

namespace Sys2Proof.Machine

/-! ## A listed entry that is put back -/

theorem tput_tget_self {α : Type} {d : α} {k : Nat} : ∀ {t : Tab α}, tget d t k ≠ d → tput t k (tget d t k) = t
  | [], h => absurd rfl h
  | (j, w) :: r, h => by
    by_cases here : k = j
    · simp [tget, tput, here]
    · by_cases past : k < j
      · exact absurd (by simp [tget, here, past]) h
      · have further : tget d ((j, w) :: r) k = tget d r k := by simp [tget, here, past]
        rw [further] at h ⊢
        rw [tput, if_neg past, if_neg here, tput_tget_self h]

/-- Work that finds nothing to do at a powered frond leaves the module as it is. -/
theorem modField_idle {f : Nat} {g : Frond → Frond} {s : State} (power : (fieldOf s f).power = true) (idle : g (fieldOf s f) = fieldOf s f) :
    modField f g s = s := by
  have listed : tget {} s.field f ≠ ({} : Frond) := fun e => by
    rw [fieldOf, e] at power
    cases power
  have same : tmod {} s.field f g = s.field := (congrArg (tput s.field f) idle).trans (tput_tget_self listed)
  rw [modField, same]

/-! ## Snaps -/

/-- What a channel has counted in its tick, beside its mode, its drive and its diagnostics. -/
def convTally (c : FChan) := (c.sum, c.sq, c.mn, c.mx, c.ovr, c.ns, c.diag, c.drive, c.mode)

/-- A channel that holds no snap takes this one. -/
def holdSnap (k : Nat) (v : Int) (ns : Bool) (c : FChan) : FChan :=
  if c.snap.isNone then { c with snap := some ⟨v, k, ns⟩, snapIdx := some k } else c

theorem convTally_holdSnap (k : Nat) (v : Int) (ns : Bool) (c : FChan) : convTally (holdSnap k v ns c) = convTally c := by
  unfold holdSnap
  split <;> rfl

section
variable (p k : Nat) (v : Int) (ns : Bool)

theorem takeSnaps_cons (req : Nat) (desc : Bool) (m : Nat) (l : List (Nat × Bool × Nat)) (c : FChan) :
    (takeSnaps p k v ns ((req, desc, m) :: l) c).1 =
      (takeSnaps p k v ns l (if m.testBit p = true ∧ req ≤ 64 * k then holdSnap k v ns c else c)).1 := by
  by_cases due : m.testBit p = true ∧ req ≤ 64 * k
  · cases held : c.snap <;> simp [takeSnaps, due, holdSnap, held]
  · simp only [takeSnaps, Bool.and_eq_true, decide_eq_true_eq, if_neg due]

/-- The requests leave what the tick has counted. -/
theorem convTally_takeSnaps : ∀ (l : List (Nat × Bool × Nat)) (c : FChan), convTally (takeSnaps p k v ns l c).1 = convTally c
  | [], _ => rfl
  | (req, desc, m) :: l, c => by
    rw [takeSnaps_cons, convTally_takeSnaps l]
    split
    · exact convTally_holdSnap k v ns c
    · rfl

/-- A snap that is held is not replaced (R136). -/
theorem takeSnaps_held {y : SnapVal} : ∀ (l : List (Nat × Bool × Nat)) (c : FChan), c.snap = some y → (takeSnaps p k v ns l c).1.snap = some y
  | [], _, h => h
  | (req, desc, m) :: l, c, h => by
    have kept : holdSnap k v ns c = c := if_neg (by simp [h])
    rw [takeSnaps_cons, kept, ite_self]
    exact takeSnaps_held l c h

/-- The first request in line takes the snap where it selects the channel and is due (R133). -/
theorem takeSnaps_first {req m : Nat} (sel : m.testBit p = true) (due : req ≤ 64 * k) {c : FChan} (free : c.snap = none) (desc : Bool)
    (l : List (Nat × Bool × Nat)) : (takeSnaps p k v ns ((req, desc, m) :: l) c).1.snap = some ⟨v, k, ns⟩ := by
  have taken : holdSnap k v ns c = { c with snap := some ⟨v, k, ns⟩, snapIdx := some k } := if_pos (by simp [free])
  rw [takeSnaps_cons, if_pos ⟨sel, due⟩, taken]
  exact takeSnaps_held p k v ns l _ rfl

end

/-! ## One conversion -/

/-- Fiddleheads are added up beside the tick's count and the snap. -/
theorem convTally_fiddle (k last : Nat) (c : FChan) (now : Int × Bool × Bool) :
    convTally (fiddle k last c now) = convTally c ∧ (fiddle k last c now).snap = c.snap := by
  unfold fiddle
  dsimp only
  repeat' split
  all_goals exact ⟨rfl, rfl⟩

/-- The gain and the offset that a channel's measuring path is trimmed with: none where they do not check (R144). -/
def trimOf (c : FChan) : Int × Int := if c.trimBad.testBit (path c.mode) then (0, 0) else tget (0, 0) c.trim (path c.mode)

/-- From c to y one conversion of trimmed code v is counted, and the snap requests have had their turn. -/
structure Counts (p : Nat) (x : Frond) (v : Int) (r : Bool) (c y : FChan) : Prop where
  number : y.k = c.k + 1
  sum : y.sum = c.sum + v
  squares : y.sq = c.sq + (v * v).toNat
  least : y.mn = min c.mn v
  most : y.mx = max c.mx v
  beyond : y.ovr = (c.ovr || r)
  unsettled : y.ns = (c.ns || !x.refRdy)
  diag : y.diag = c.diag
  drive : y.drive = c.drive
  mode : y.mode = c.mode
  snap : y.snap = (takeSnaps p c.k v (!x.refRdy) x.snaps c).1.snap

/-- A conversion that is still due in the tick counts in its channel (R126, R150). -/
theorem convert_due {p : Nat} {x : Frond} (due : (fchan x p).k < tickConvs x) {code gain off v : Int} {r : Bool}
    (trim : trimOf (fchan x p) = (gain, off)) (value : trimCode code gain off = (v, r)) : ∃ y snaps lost,
    convert p code x = { x with chans := tput x.chans p y, snaps := snaps, snapLost := lost } ∧ Counts p x v r (fchan x p) y := by
  unfold trimOf at trim
  unfold convert
  dsimp only
  rw [if_neg (by omega), trim]
  dsimp only
  rw [value]
  dsimp only
  refine ⟨_, _, _, rfl, ?_⟩
  obtain ⟨kept, snap⟩ := convTally_fiddle (fchan x p).k (tickConvs x) (takeSnaps p (fchan x p).k v (!x.refRdy) x.snaps (fchan x p)).1
    (v, r, !x.refRdy)
  rw [convTally_takeSnaps] at kept
  simp only [convTally, Prod.mk.injEq] at kept
  obtain ⟨sum, sq, mn, mx, ovr, ns, diag, drive, mode⟩ := kept
  exact ⟨rfl, congrArg (· + v) sum, congrArg (· + (v * v).toNat) sq, congrArg (min · v) mn, congrArg (max · v) mx, congrArg (· || r) ovr,
    congrArg (· || !x.refRdy) ns, diag, drive, mode, snap⟩

/-- After the last conversion of the tick nothing is converted. -/
theorem convert_complete {p : Nat} {x : Frond} (complete : tickConvs x ≤ (fchan x p).k) (code : Int) : convert p code x = x := if_pos complete

theorem exec_conversion {ch : Nat} {s : State} (power : (fieldOf s (ch / 16)).power = true) (code : BitVec 16) :
    exec (.conversion ch code) s = .next (modField (ch / 16) (convert (ch % 16) code.toInt) s) := if_pos power

/-- Settles O52: a conversion is one step of its channel's tick, or finds the tick complete. -/
theorem conversionsCountInTheirTick : Obligations.ConversionsCountInTheirTick := by
  unfold Obligations.ConversionsCountInTheirTick
  intro ch p x c s hx hp hc power code v gain off r htrim hcode
  subst hx hp hc
  refine ⟨fun due => ?_, fun complete => ?_⟩
  · obtain ⟨y, snaps, lost, e, counts⟩ := convert_due due htrim.symm hcode.symm
    refine ⟨_, y, exec_conversion power code, atFrond_modField _ _ s, ?_⟩
    rw [fieldOf_modField_same, e]
    refine ⟨(fchan_tput_same _ _ y).symm, counts.number, counts.sum, counts.squares, counts.least, counts.most, counts.beyond,
      counts.unsettled, counts.diag, counts.drive, counts.mode, fun req desc m l first sel now free => ?_, fun none => ?_,
      fun q hq => fchan_tput_other hq _ y⟩
    · rw [counts.snap, first]
      exact takeSnaps_first _ _ _ _ sel now free desc l
    · rw [counts.snap, none]
      rfl
  · rw [exec_conversion power, modField_idle power (convert_complete complete _)]
    exact ⟨s, rfl, .refl _ s⟩

end Sys2Proof.Machine
end

section
/-! SUPPORT. What the completion of a waiting descriptor comes to: the report in the completion ring, and the end of its wait. -/

namespace Sys2Proof.Machine

/-- A command that may end descriptors changes only the parts that its frame names. -/
theorem only_touches {c : Instr} {s t : State} (h : exec c s = .next t) (descs : Part.descs ∈ touches c) : Only (touches c) s t := by
  obtain ⟨u, hu, only⟩ := only_exec s c
  cases hu.symm.trans h
  exact only.mono (List.cons_subset.mpr ⟨descs, List.Subset.refl _⟩)

theorem outbox_of_only {ps : List Part} {s t : State} (h : Only ps s t) (hp : Part.outbox ∉ ps) : t.outbox = s.outbox :=
  congrArg Prod.fst (h .outbox hp)

theorem reserve_of_only {ps : List Part} {s t : State} (h : Only ps s t) (hp : Part.queues ∉ ps) : t.reserve = s.reserve :=
  congrArg Prod.snd (h .queues hp)

/-! ## The list of waiting descriptors -/

theorem outOf_congr {s t : State} (h : t.outs = s.outs) (id : Nat) : outOf t id = outOf s id := by
  unfold outOf
  rw [h]

theorem outOf_of_only {ps : List Part} {s t : State} (h : Only ps s t) (hp : Part.descs ∉ ps) (id : Nat) : outOf t id = outOf s id :=
  outOf_congr (congrArg Prod.fst (h .descs hp)) id

theorem outs_writeCpl (op : Byte) (status : Nat) (didx : Half) (tag : Word) (res : List Byte) (s : State) :
    (writeCpl op status didx tag res s).outs = s.outs :=
  congrArg Prod.fst (only_writeCpl (ps := [.outbox, .rings, .sessions]) op status didx tag res (List.Subset.refl _) (Only.refl _ s) .descs
    (by decide))

/-- The sweep of NOPs leaves a rest of the list. -/
theorem outs_sweepNops_subset : ∀ (l : List Outstanding) (s : State), (sweepNops l s).outs ⊆ l
  | [], _ => List.Subset.refl _
  | o :: r, s => by
    unfold sweepNops
    split
    · exact List.subset_cons_of_subset o (outs_sweepNops_subset r _)
    · exact List.Subset.refl _

/-- The sweep of NOPs ends at a descriptor that is no NOP. -/
theorem sweepNops_held {o : Outstanding} (h : o.opcode ≠ 0) {l : List Outstanding} {s : State} (hs : s.outs = o :: l) :
    sweepNops s.outs s = s := by
  rw [hs, sweepNops, if_neg h, ← hs]

/-- A descriptor that has completed waits no longer. -/
theorem outOf_complete (id status : Nat) (res : List Byte) (s : State) : outOf (complete id status res s) id = none := by
  unfold complete
  split
  · assumption
  · refine List.find?_eq_none.mpr (fun o ho => ?_)
    have kept := outs_sweepNops_subset _ _ ho
    have listed : o ∈ s.outs.filter (fun o => o.id != id) := by
      split at kept
      · exact kept
      · rwa [outs_writeCpl] at kept
    simpa using (List.mem_filter.mp listed).2

/-! ## The report -/

theorem canReport_of_only {ps : List Part} {s t : State} (h : Only ps s t) (hr : Part.rings ∉ ps) (hh : Part.halt ∉ ps)
    (can : CanReport s) : CanReport t := by
  obtain ⟨run, on⟩ := can
  exact ⟨(running_of_only h hh).trans run, (congrArg Ring.en (ring_congr (h .rings hr) cplRing)).trans on⟩

/-- What a command does before it completes a waiting descriptor stands before the report. -/
theorem reportsOut_complete {ps : List Part} {s u : State} {id : Nat} {o : Outstanding} (can : CanReport s) (waits : outOf s id = some o)
    (seen : o.lost = false) (only : Only ps s u) (hr : Part.rings ∉ ps) (hd : Part.descs ∉ ps) (hh : Part.halt ∉ ps)
    (out : s.outbox <:+ u.outbox) (status : Nat) (res : List Byte) : ReportsOut o status res s (complete id status res u) := by
  obtain ⟨run, on⟩ := canReport_of_only only hr hh can
  obtain ⟨l, hl⟩ := outbox_complete ((outOf_of_only only hd id).trans waits) seen on run status res
  obtain ⟨m, hm⟩ := out
  exact ⟨l, m, by rw [hl, ring_congr (only .rings hr), hm]⟩

/-- What the module sent before a completion stays sent. -/
theorem outbox_complete_suffix (id status : Nat) (res : List Byte) (s : State) : s.outbox <:+ (complete id status res s).outbox :=
  (kept_complete id status res (Kept.refl s)).out

end Sys2Proof.Machine
end

section
/-! SUPPORT. MAP_READ_DONE, CVU_RUN_DONE, SYNC_DONE and TIMEOUT: what each does before it completes its descriptor. -/

namespace Sys2Proof.Machine

/-! ## MAP_READ (R271 to R273, R428) -/

theorem mapPull_eq {s : State} {x : MapXfer} {l : List MapXfer} (h : s.xfers = x :: l) {n k : Nat}
    (hk : min (min n x.count - x.done) (s.reserve / 32) = k) :
    mapPull n s = { s with xfers := { x with done := x.done + k } :: l, reserve := s.reserve - 32 * k } := by
  subst hk
  unfold mapPull
  rw [h]

theorem only_mapPull_self (n : Nat) (s : State) : Only [.queues, .xfers] s (mapPull n s) :=
  only_mapPull n (List.Subset.refl _) (Only.refl _ s)

/-- A transfer that the reserve allows reads every cell left (R271). -/
theorem mapPull_all {s : State} {x : MapXfer} {l : List MapXfer} (h : s.xfers = x :: l) {n : Nat} (short : x.count ≤ n)
    (within : x.done ≤ x.count) (allowed : 32 * (x.count - x.done) ≤ s.reserve) :
    (mapPull n s).xfers = { x with done := x.count } :: l ∧ (mapPull n s).reserve = s.reserve - 32 * (x.count - x.done) := by
  rw [mapPull_eq h (k := x.count - x.done) (by omega), Nat.add_sub_cancel' within]
  exact ⟨rfl, rfl⟩

/-- The module once transfer x has left, with its cells written where its descriptor still has a completion. -/
def mapSent (x : MapXfer) (s : State) : State :=
  if (outOf s x.id).any (fun o => !o.lost) && decide (x.done > 0) then outp (.hostWrite x.dest (latchedCells s.map x.first x.done)) s else s

theorem only_mapSent (x : MapXfer) (s : State) : Only [.outbox] s (mapSent x s) :=
  Only.ite (only_outp _ (List.Subset.refl _) (Only.refl _ s)) (Only.refl _ s)

theorem outbox_mapSent (x : MapXfer) (s : State) : s.outbox <:+ (mapSent x s).outbox :=
  (Kept.ite (kept_outp _ (Kept.refl s)) (Kept.refl s)).out

theorem mapSent_live {x : MapXfer} {s : State} {o : Outstanding} (waits : outOf s x.id = some o) (seen : o.lost = false) (some : 0 < x.done) :
    mapSent x s = outp (.hostWrite x.dest (latchedCells s.map x.first x.done)) s := by
  unfold mapSent
  rw [waits]
  exact if_pos (by simp [seen, some])

theorem only_setXfers (s : State) (l : List MapXfer) : Only [.xfers] s { s with xfers := l } := by
  intro p hp
  cases p
  case xfers => exact absurd (List.mem_singleton_self _) hp
  all_goals rfl

/-- The module once transfer x is done with. -/
def mapGone (x : MapXfer) (s : State) : State := { mapSent x s with xfers := (mapSent x s).xfers.filter (fun y => y.id != x.id) }

theorem only_mapGone (x : MapXfer) (s : State) : Only [.outbox, .xfers] s (mapGone x s) :=
  ((only_mapSent x s).mono (by decide)).trans ((only_setXfers _ _).mono (by decide))

theorem outbox_mapGone (x : MapXfer) (s : State) : s.outbox <:+ (mapGone x s).outbox := outbox_mapSent x s

/-- The result of a MAP_READ: the period, the cells and their CRC (Table 12-10). -/
def mapResult (x : MapXfer) (s : State) : List Byte :=
  le 4 s.map.pseq ++ le 4 x.done ++ le 4 (crc32c (latchedCells s.map x.first x.done)).toNat

/-- The end of a transfer is the completion of its descriptor. -/
theorem mapEnd_eq (x : MapXfer) (status : Nat) (s : State) : mapEnd x status s = complete x.id status (mapResult x s) (mapGone x s) := by
  have same : (mapSent x s).map.pseq = s.map.pseq := congrArg MapUnit.pseq (only_mapSent x s .map (by decide))
  unfold mapResult
  rw [← same]
  rfl

theorem exec_mapReadDone {s : State} (run : running s = true) {x : MapXfer} {l : List MapXfer}
    (front : (mapPull (2 ^ 20) s).xfers = x :: l) : exec .mapReadDone s =
    .next (if x.done = x.count then mapEnd x 0 (mapPull (2 ^ 20) s) else mapPull (2 ^ 20) s) := by
  show execMapReadDone s = _
  unfold execMapReadDone
  rw [run]
  dsimp only
  rw [front]
  rfl

section
variable {s : State} {x : MapXfer} {l : List MapXfer} (can : CanReport s) (front : s.xfers = x :: l) (short : x.count ≤ 2 ^ 20)
include can front short

/-- A transfer for which the reserve does not allow every cell left reads what it allows (R273). -/
theorem mapReadDone_goesOn (held : s.reserve < 32 * (x.count - x.done)) : exec .mapReadDone s = .next { s with
    xfers := { x with done := x.done + s.reserve / 32 } :: l, reserve := s.reserve - 32 * (s.reserve / 32) } := by
  have pulled := mapPull_eq front (n := 2 ^ 20) (k := s.reserve / 32) (by omega)
  rw [exec_mapReadDone can.1 (congrArg State.xfers pulled), if_neg (show x.done + s.reserve / 32 ≠ x.count by omega), pulled]

theorem mapReadDone_ends {o : Outstanding} (waits : outOf s x.id = some o) (seen : o.lost = false) (cells : 0 < x.count)
    (within : x.done ≤ x.count) (allowed : 32 * (x.count - x.done) ≤ s.reserve) :
    ∃ t, exec .mapReadDone s = .next t ∧ Only (touches .mapReadDone) s t ∧ outOf t x.id = none ∧
      t.reserve = s.reserve - 32 * (x.count - x.done) ∧
      (∃ a, t.outbox = a ++ .hostWrite x.dest (latchedCells s.map x.first x.count) :: s.outbox) ∧
      ReportsOut o 0 (le 4 s.map.pseq ++ le 4 x.count ++ le 4 (crc32c (latchedCells s.map x.first x.count)).toNat) s t := by
  obtain ⟨whole, reserve⟩ := mapPull_all front short within allowed
  have he := exec_mapReadDone can.1 whole
  rw [if_pos rfl, mapEnd_eq] at he
  have pulled := only_mapPull_self (2 ^ 20) s
  have map : (mapPull (2 ^ 20) s).map = s.map := pulled .map (by decide)
  have out := outbox_of_only pulled (by decide)
  generalize mapPull (2 ^ 20) s = u at *
  have waitsPulled := (outOf_of_only pulled (by decide) x.id).trans waits
  have gone := only_mapGone { x with done := x.count } u
  refine ⟨_, he, only_touches he (by decide), outOf_complete _ _ _ _, ?_, ?_, ?_⟩
  · rw [reserve_of_only (only_complete_self _ _ _ _) (by decide), reserve_of_only gone (by decide), reserve]
  · obtain ⟨a, ha⟩ := outbox_complete_suffix x.id 0 (mapResult { x with done := x.count } u) (mapGone { x with done := x.count } u)
    have sent : (mapGone { x with done := x.count } u).outbox = .hostWrite x.dest (latchedCells s.map x.first x.count) :: s.outbox := by
      rw [← map, ← out]
      exact congrArg State.outbox (mapSent_live (x := { x with done := x.count }) waitsPulled seen cells)
    exact ⟨a, ha.symm.trans (congrArg (a ++ ·) sent)⟩
  · rw [← map]
    exact reportsOut_complete can waits seen ((pulled.mono (by decide)).trans (gone.mono (by decide))) (ps := [.outbox, .queues, .xfers])
      (by decide) (by decide) (by decide) (out ▸ outbox_mapGone _ u) _ _

end

/-! ## CVU_RUN (R400) -/

theorem cvu_of_only {ps : List Part} {s t : State} (h : Only ps s t) (hp : Part.cvu ∉ ps) (u : Nat) : cvu t u = cvu s u := by
  have same : t.cvu = s.cvu := h .cvu hp
  unfold cvu
  rw [same]

/-- Changes a check-value unit. -/
def modCvu (u : Nat) (g : Cvu → Cvu) (s : State) : State := { s with cvu := tmod {} s.cvu u g }

theorem cvu_modCvu_same (u : Nat) (g : Cvu → Cvu) (s : State) : cvu (modCvu u g s) u = g (cvu s u) := tget_tmod_same _ _ _ _

theorem cvu_modCvu_other {u w : Nat} (h : w ≠ u) (g : Cvu → Cvu) (s : State) : cvu (modCvu u g s) w = cvu s w := tget_tmod_other _ _ h _

theorem only_modCvu (u : Nat) (g : Cvu → Cvu) (s : State) : Only [.cvu] s (modCvu u g s) := by
  intro p hp
  cases p
  case cvu => exact absurd (List.mem_singleton_self _) hp
  all_goals rfl

/-- A unit that has been fed these bytes is free. -/
def cvuFreed (bs : List Byte) (x : Cvu) : Cvu := { cvuFeed bs x with owned := false }

/-- The result of a CVU_RUN: result, raw register and length (Table 12-10). -/
def cvuReport (x : Cvu) (n : Nat) : List Byte := le 4 (cvuResult x.alg x.st).toNat ++ le 4 x.st.toNat ++ le 4 n

/-- The end of a run of a unit is the completion of its descriptor. -/
theorem cvuEnd_eq (o : Outstanding) (n status : Nat) (s : State) : cvuEnd o n status s = complete o.id status
    (cvuReport (cvu (modCvu o.obj (cvuFreed (o.data.take n)) s) o.obj) (min n o.data.length)) (modCvu o.obj (cvuFreed (o.data.take n)) s) := rfl

theorem cvuRunDone_ends {s : State} (can : CanReport s) {u : Nat} {o : Outstanding}
    (runs : s.outs.find? (fun o => o.opcode == 0x0C && o.obj == u) = some o) (waits : outOf s o.id = some o) (seen : o.lost = false) :
    ∃ t, exec (.cvuRunDone u) s = .next t ∧ Only (touches (.cvuRunDone u)) s t ∧ outOf t o.id = none ∧
      cvu t u = { cvuFeed o.data (cvu s u) with owned := false } ∧ (∀ w, w ≠ u → cvu t w = cvu s w) ∧
      ReportsOut o 0 (le 4 (cvuResult (cvu t u).alg (cvu t u).st).toNat ++ le 4 (cvu t u).st.toNat ++ le 4 o.data.length) s t := by
  have unit : o.obj = u := by
    have found := List.find?_some runs
    simp only [Bool.and_eq_true, beq_iff_eq] at found
    exact found.2
  have he : exec (.cvuRunDone u) s = .next (cvuEnd o o.data.length 0 s) := by
    show execCvuRunDone u s = _
    unfold execCvuRunDone
    rw [runs]
    exact if_pos can.1
  rw [cvuEnd_eq, unit, List.take_length, Nat.min_self] at he
  have same := cvu_of_only (only_complete_self o.id 0 (cvuReport (cvu (modCvu u (cvuFreed o.data) s) u) o.data.length)
    (modCvu u (cvuFreed o.data) s)) (by decide)
  refine ⟨_, he, only_touches he (List.mem_of_elem_eq_true rfl), outOf_complete _ _ _ _, (same u).trans (cvu_modCvu_same u _ s),
    fun w hw => (same w).trans (cvu_modCvu_other hw _ s), ?_⟩
  rw [same u]
  exact reportsOut_complete can waits seen (only_modCvu u _ s) (by decide) (by decide) (by decide) (List.suffix_refl _) _ _

/-! ## SYNC (R187) -/

theorem only_setSyncFin (s : State) (l : List (Option Nat)) : Only [.sync] s { s with tm := { s.tm with syncFin := l } } := by
  intro p hp
  cases p
  case sync => exact absurd (List.mem_singleton_self _) hp
  all_goals rfl

theorem syncFin_of_only {ps : List Part} {s t : State} (h : Only ps s t) (hp : Part.sync ∉ ps) : t.tm.syncFin = s.tm.syncFin :=
  congrArg (fun q => q.2.2.1) (h .sync hp)

theorem finishSync_one {s : State} {i : Nat} {o : Outstanding} (fin : s.tm.syncFin = [some i]) (waits : outOf s i = some o) :
    finishSync s = complete i 0 (le 6 o.val ++ [0, 0] ++ le 4 s.tm.syncCleared) { s with tm := { s.tm with syncFin := [] } } := by
  have waits' : outOf { s with tm := { s.tm with syncFin := [] } } i = some o := waits
  unfold finishSync
  rw [fin, List.foldl_cons, List.foldl_nil, Option.bind_some, waits']
  rfl

theorem syncDone_ends {s : State} (can : CanReport s) {i : Nat} {o : Outstanding} (fin : s.tm.syncFin = [some i])
    (waits : outOf s i = some o) (seen : o.lost = false) :
    ∃ t, exec .syncDone s = .next t ∧ Only (touches .syncDone) s t ∧ outOf t i = none ∧ t.tm.syncFin = [] ∧
      ReportsOut o 0 (le 6 o.val ++ [0, 0] ++ le 4 s.tm.syncCleared) s t := by
  have he : exec .syncDone s = .next (finishSync s) := if_pos can.1
  rw [finishSync_one fin waits] at he
  exact ⟨_, he, only_touches he (by decide), outOf_complete _ _ _ _, syncFin_of_only (only_complete_self _ _ _ _) (by decide),
    reportsOut_complete can waits seen (only_setSyncFin s []) (by decide) (by decide) (by decide) (List.suffix_refl _) _ _⟩

/-! ## TIMEOUT (R421) -/

/-- The end of a descriptor at its deadline: what it had come to is left in parts of the module, and then it completes with TIMEOUT. -/
def EndsLate (id : Nat) (s t : State) : Prop :=
  ∃ res u, t = complete id 0x04 res u ∧ Only [.outbox, .queues, .cvu, .xfers] s u ∧ s.outbox <:+ u.outbox

theorem EndsLate.plain (id : Nat) (res : List Byte) (s : State) : EndsLate id s (complete id 0x04 res s) :=
  ⟨res, s, rfl, Only.refl _ s, List.suffix_refl _⟩

/-- A SNAP delivers the map of the channels it has lost. -/
theorem EndsLate.sends (id : Nat) (res : List Byte) (send : Bool) (w : Output) (s : State) :
    EndsLate id s (complete id 0x04 res (if send then outp w s else s)) :=
  ⟨res, _, rfl, Only.ite (only_outp _ (by decide) (Only.refl _ s)) (Only.refl _ s), (Kept.ite (kept_outp w (Kept.refl s)) (Kept.refl s)).out⟩

/-- A transfer in front reads on, up to its place at the deadline. -/
theorem only_readUp (front : Prop) [Decidable front] (n : Nat) (s : State) :
    Only [.outbox, .queues, .cvu, .xfers] s (if front then mapPull n s else s) ∧ s.outbox <:+ (if front then mapPull n s else s).outbox :=
  ⟨Only.ite ((only_mapPull_self n s).mono (by decide)) (Only.refl _ s), (Kept.ite (kept_mapPull n (Kept.refl s)) (Kept.refl s)).out⟩

theorem EndsLate.map {id n : Nat} {front : Prop} [Decidable front] {x : MapXfer} (s : State) (hx : x.id = id) :
    EndsLate id s (mapEnd x 0x04 (if front then mapPull n s else s)) := by
  obtain ⟨read, before⟩ := only_readUp front n s
  exact hx ▸ ⟨_, _, mapEnd_eq _ _ _, read.trans ((only_mapGone x _).mono (by decide)), before.trans (outbox_mapGone x _)⟩

theorem EndsLate.pull {id n : Nat} {front : Prop} [Decidable front] (s : State) :
    EndsLate id s (complete id 0x04 [] (if front then mapPull n s else s)) := by
  obtain ⟨read, before⟩ := only_readUp front n s
  exact ⟨_, _, rfl, read, before⟩

theorem EndsLate.cvu (o : Outstanding) (n : Nat) (s : State) : EndsLate o.id s (cvuEnd o n 0x04 s) :=
  ⟨_, _, cvuEnd_eq o n 0x04 s, (only_modCvu _ _ s).mono (by decide), List.suffix_refl _⟩

/-- At its deadline every descriptor completes with TIMEOUT, whatever its opcode. -/
theorem timeOut_endsLate (o : Outstanding) (n : Nat) (s : State) : EndsLate o.id s (timeOut o n s) := by
  unfold timeOut
  split
  case isTrue snap =>
    split
    · exact .sends _ _ _ _ s
    · exact .plain _ _ s
  split
  case isTrue output => exact .plain _ _ s
  split
  case isTrue trigger => split <;> exact .plain _ _ s
  split
  case isTrue mapRead =>
    dsimp only
    split
    next x found => exact .map s (by simpa using List.find?_some found)
    next => exact EndsLate.pull s
  split
  case isTrue sync => exact .plain _ _ s
  split
  case isTrue cvuRun => exact .cvu o _ s
  exact .plain _ _ s

theorem exec_timeout {s : State} (run : running s = true) {didx : Half} {o : Outstanding}
    (first : s.outs.find? (fun o => o.didx == didx && o.tmo != 0) = some o) (n : Nat) :
    exec (.timeout didx n) s = .next (if o.due < s.abs + 32768 * steps s then timeOut o n s else s) := by
  show execTimeout didx n s = _
  unfold execTimeout
  rw [run, first]
  rfl

theorem timeout_ends {s : State} (can : CanReport s) {didx : Half} {o : Outstanding} (n : Nat)
    (first : s.outs.find? (fun o => o.didx == didx && o.tmo != 0) = some o) (waits : outOf s o.id = some o) (seen : o.lost = false)
    (due : o.due < s.abs + 32768 * steps s) : ∃ t res, exec (.timeout didx n) s = .next t ∧ Only (touches (.timeout didx n)) s t ∧
      outOf t o.id = none ∧ ReportsOut o 0x04 res s t := by
  obtain ⟨res, u, hu, only, out⟩ := timeOut_endsLate o n s
  have he := exec_timeout can.1 first n
  rw [if_pos due, hu] at he
  exact ⟨_, res, he, only_touches he (List.mem_of_elem_eq_true rfl), outOf_complete _ _ _ _,
    reportsOut_complete can waits seen only (by decide) (by decide) (by decide) out _ _⟩

/-- Settles O27: one lemma for each of the commands that end a waiting descriptor. -/
theorem waitingDescriptorsFinish : Obligations.WaitingDescriptorsFinish := by
  unfold Obligations.WaitingDescriptorsFinish
  intro s can
  refine ⟨fun x l o front waits seen cells short within => ⟨mapReadDone_ends can front short waits seen cells within,
      mapReadDone_goesOn can front short⟩, fun u o runs waits seen => cvuRunDone_ends can runs waits seen,
    fun i o fin waits seen => syncDone_ends can fin waits seen, fun didx n o first waits seen => ⟨timeout_ends can n first waits seen, ?_⟩⟩
  intro early
  rw [exec_timeout can.1 first, if_neg (Nat.not_lt.mpr early)]

end Sys2Proof.Machine
end

section
/-! SUPPORT. The queues: what their engine, the cells that they owe each other and a flush leave of the records that they hold. -/

namespace Sys2Proof.Machine

/-! ## Records but for poison marks -/

/-- A cell without its poison mark. -/
def unmarked (c : Cell) : Cell := { c with poison := 0 }

/-- The records of packets, but for where they lie and for the poison marks that moves have left. -/
def recordsOf (l : List Packet) : List (List Cell) := l.map (fun p => p.cells.map unmarked)

/-- Queue y holds the packets of queue x, has lost as many, and the same FLUSHes wait for it. -/
structure SameRecords (x y : Queue) : Prop where
  records : recordsOf y.pkts = recordsOf x.pkts
  lost : y.lost = x.lost
  flush : y.flush = x.flush

theorem SameRecords.refl (x : Queue) : SameRecords x x := ⟨rfl, rfl, rfl⟩

theorem SameRecords.trans {x y z : Queue} (a : SameRecords x y) (b : SameRecords y z) : SameRecords x z :=
  ⟨b.records.trans a.records, b.lost.trans a.lost, b.flush.trans a.flush⟩

/-- A queue without packets stays so. -/
theorem SameRecords.empty {x y : Queue} (h : SameRecords x y) (none : x.pkts = []) : y.pkts = [] := by
  have records := h.records
  rw [none] at records
  exact List.map_eq_nil_iff.mp records

/-- Moves between SRAM and spill change poison marks alone (R383). -/
theorem unmarked_moveCells (q n a b : Nat) (l : List Cell) : (moveCells q n a b l).map unmarked = l.map unmarked := by
  have each : ∀ e : Cell × Nat, unmarked (if a ≤ e.2 ∧ e.2 < b then
      { e.1 with poison := e.1.poison ||| Config.spillFault q (n + (e.2 - a)) } else e.1) = unmarked e.1 := fun e => by
    split <;> rfl
  unfold moveCells
  split
  · rfl
  · rw [List.map_map, funext (f := unmarked ∘ _) each, ← Function.comp_def, ← List.map_map, List.zipIdx_map_fst]

theorem recordsOf_unspillList (q : Nat) : ∀ (at_ : Nat) (l : List Packet) (n : Nat), recordsOf (unspillList q at_ l n).1 = recordsOf l
  | _, [], _ => rfl
  | _, _ :: r, _ => List.cons_eq_cons.mpr ⟨unmarked_moveCells .., recordsOf_unspillList q _ r _⟩

/-! ## The engine -/

theorem sameRecords_engine (s : State) (q res : Nat) (x : Queue) : SameRecords x (engine s q res x).1 :=
  ⟨recordsOf_unspillList q _ x.pkts _, rfl, rfl⟩

theorem owe_engine (s : State) (q res : Nat) (x : Queue) : (engine s q res x).1.owe = x.owe := rfl

theorem queue_storeQueue_same (q : Nat) (x : Queue) (s : State) : queue (storeQueue q x s) q = (engine s q s.reserve x).1 :=
  tget_tput_same _ _ _ _

theorem queue_storeQueue_other {q j : Nat} (h : j ≠ q) (x : Queue) (s : State) : queue (storeQueue q x s) j = queue s j :=
  tget_tput_other _ h _ _

/-- A queue that is stored with its own records. -/
theorem sameRecords_storeQueue {q : Nat} {x : Queue} {s : State} (h : SameRecords (queue s q) x) (j : Nat) :
    SameRecords (queue s j) (queue (storeQueue q x s) j) := by
  by_cases here : j = q
  · rw [here, queue_storeQueue_same]
    exact h.trans (sameRecords_engine s q s.reserve x)
  · rw [queue_storeQueue_other here]
    exact .refl _

/-! ## Owed cells (R374) -/

theorem sameRecords_giveOwed (j : Nat) : ∀ (l : List Nat) (n : Nat) (s : State), SameRecords (queue s j) (queue (giveOwed l n s) j)
  | [], _, _ => .refl _
  | q :: r, n, s => by
    unfold giveOwed
    refine .trans ?_ (sameRecords_giveOwed j r _ _)
    split
    · exact .refl _
    · exact sameRecords_storeQueue (x := { queue s q with owe := (queue s q).owe - min n (queue s q).owe }) ⟨rfl, rfl, rfl⟩ j

theorem sameRecords_releaseOwed (s : State) (j : Nat) : SameRecords (queue s j) (queue (releaseOwed s) j) := by
  unfold releaseOwed
  dsimp only
  split
  · exact .refl _
  · exact sameRecords_giveOwed j _ _ s

/-- No queue waits for cells of a raised LIMIT. -/
def NoneOwed (t : Tab Queue) : Prop := ∀ e ∈ t, e.2.owe = 0

theorem noneOwed_queue {s : State} (h : NoneOwed s.queues) (q : Nat) : (queue s q).owe = 0 := by
  rcases tget_mem ({} : Queue) q s.queues with none | ⟨e, he, here⟩
  · exact congrArg Queue.owe none
  · exact (congrArg Queue.owe here).trans (h e he)

theorem mem_tput {α : Type} {k : Nat} {v : α} {e : Nat × α} : ∀ {t : Tab α}, e ∈ tput t k v → e = (k, v) ∨ e ∈ t
  | [], h => .inl (List.mem_singleton.mp h)
  | (j, w) :: r, h => by
    unfold tput at h
    split at h
    · exact List.mem_cons.mp h
    · split at h
      · exact (List.mem_cons.mp h).imp_right (List.mem_cons_of_mem _)
      · rcases List.mem_cons.mp h with here | further
        · exact .inr (here ▸ List.mem_cons_self)
        · exact (mem_tput further).imp_right (List.mem_cons_of_mem _)

theorem noneOwed_tput {t : Tab Queue} (h : NoneOwed t) {q : Nat} {x : Queue} (hx : x.owe = 0) : NoneOwed (tput t q x) := fun e he => by
  rcases mem_tput he with here | old
  · exact here ▸ hx
  · exact h e old

theorem releaseOwed_none {s : State} (h : NoneOwed s.queues) : releaseOwed s = s := by
  have total : ∀ (l : Tab Queue), NoneOwed l → l.foldl (fun n e => n + e.2.owe) 0 = 0 := fun l => by
    induction l with
    | nil => exact fun _ => rfl
    | cons e l ih =>
      intro none
      rw [List.foldl_cons, none e List.mem_cons_self]
      exact ih fun d hd => none d (List.mem_cons_of_mem _ hd)
  unfold releaseOwed
  rw [total s.queues h]
  rfl

/-! ## After a change of a queue -/

theorem sameRecords_settle (q : Nat) (s : State) (j : Nat) : SameRecords (queue s j) (queue (settle q s) j) :=
  (sameRecords_storeQueue (.refl _) j).trans (sameRecords_releaseOwed _ j)

/-- Where no cell is owed, the change of a queue reaches no other. -/
theorem queue_settle_other {s : State} (h : NoneOwed s.queues) {q j : Nat} (hj : j ≠ q) : queue (settle q s) j = queue s j := by
  have stored : NoneOwed (storeQueue q (queue s q) s).queues := noneOwed_tput h ((owe_engine ..).trans (noneOwed_queue h q))
  unfold settle
  rw [releaseOwed_none stored, queue_storeQueue_other hj]

/-! ## A flush (R379, R380) -/

theorem queue_of_only {ps : List Part} {s t : State} (h : Only ps s t) (hp : Part.queues ∉ ps) (j : Nat) : queue t j = queue s j := by
  have same : t.queues = s.queues := congrArg Prod.fst (h .queues hp)
  unfold queue
  rw [same]

/-- Changes a queue, before the engine works on it. -/
def modQueue (q : Nat) (g : Queue → Queue) (s : State) : State := { s with queues := tmod {} s.queues q g }

theorem queue_modQueue_same (q : Nat) (g : Queue → Queue) (s : State) : queue (modQueue q g s) q = g (queue s q) := tget_tmod_same _ _ _ _

theorem queue_modQueue_other {q j : Nat} (h : j ≠ q) (g : Queue → Queue) (s : State) : queue (modQueue q g s) j = queue s j :=
  tget_tmod_other _ _ h _

theorem only_modQueue (q : Nat) (g : Queue → Queue) (s : State) : Only [.queues] s (modQueue q g s) := by
  intro p hp
  cases p
  case queues => exact absurd (List.mem_singleton_self _) hp
  all_goals rfl

theorem noneOwed_modQueue {s : State} (h : NoneOwed s.queues) {q : Nat} {g : Queue → Queue} (hg : ∀ x, (g x).owe = x.owe) :
    NoneOwed (modQueue q g s).queues := noneOwed_tput h ((hg _).trans (noneOwed_queue h q))

/-- A queue with no FLUSH waiting for it. -/
def unflushed (x : Queue) : Queue := { x with flush := [] }

/-- A queue without its packets. -/
def unpacked (x : Queue) : Queue := { x with pkts := [] }

/-- Queue q without its packets and with no FLUSH waiting for it, before the engine works on it. -/
def emptied (q : Nat) (s : State) : State := modQueue q unpacked (modQueue q unflushed s)

/-- The state in which the flush of queue q is reported. -/
def flushed (q : Nat) (s : State) : State := settle q (emptied q s)

/-- The stream port's almost-full state follows where it drains queue q. -/
def portFollows (q : Nat) (s : State) : State := if lspQueue s = some q then lspSettle s else s

theorem flushNow_eq {s : State} {q id : Nat} {l : List Nat} (h : (queue s q).flush = id :: l) : flushNow q s =
    portFollows q (l.foldl (fun s i => complete i 0 (le 4 0 ++ le 4 0) s)
      (complete id 0 (le 4 (queue s q).pkts.length ++ le 4 (cellsIn (queue s q).pkts)) (flushed q s))) := by
  have packets : (queue (modQueue q unflushed s) q).pkts = (queue s q).pkts := by
    rw [queue_modQueue_same]
    rfl
  unfold flushNow
  rw [h, ← packets]
  rfl

theorem only_flushed (q : Nat) (s : State) : Only [.queues] s (flushed q s) :=
  only_settle q (List.Subset.refl _) ((only_modQueue q _ s).trans (only_modQueue q _ _))

theorem only_portFollows (q : Nat) (s : State) : Only [.queues] s (portFollows q s) :=
  Only.ite (only_lspSettle (List.Subset.refl _) (Only.refl _ s)) (Only.refl _ s)

/-- The port's almost-full state is all that follows. -/
theorem queue_portFollows (q : Nat) (s : State) : (∀ j, j ≠ q → queue (portFollows q s) j = queue s j) ∧
    SameRecords (queue s q) (queue (portFollows q s) q) := by
  unfold portFollows
  split
  case isTrue drains =>
    have follows : lspSettle s = modQueue q (fun x => { x with afull := (wmUpd s q x).afull }) s := by
      unfold lspSettle
      rw [drains]
      rfl
    rw [follows]
    exact ⟨fun j hj => queue_modQueue_other hj _ s, queue_modQueue_same q _ s ▸ ⟨rfl, rfl, rfl⟩⟩
  case isFalse => exact ⟨fun _ _ => rfl, .refl _⟩

theorem queue_emptied_same (q : Nat) (s : State) : queue (emptied q s) q = unpacked (unflushed (queue s q)) := by
  rw [emptied, queue_modQueue_same, queue_modQueue_same]

theorem queue_emptied_other {q j : Nat} (h : j ≠ q) (s : State) : queue (emptied q s) j = queue s j := by
  rw [emptied, queue_modQueue_other h, queue_modQueue_other h]

/-- A flush leaves the other queues their records, and where no cell is owed leaves them as they are. -/
theorem queue_flushed (q : Nat) (s : State) : SameRecords (unpacked (unflushed (queue s q))) (queue (flushed q s) q) ∧
    (∀ j, j ≠ q → SameRecords (queue s j) (queue (flushed q s) j)) ∧
    (NoneOwed s.queues → ∀ j, j ≠ q → queue (flushed q s) j = queue s j) := by
  refine ⟨queue_emptied_same q s ▸ sameRecords_settle q _ q, fun j hj => queue_emptied_other hj s ▸ sameRecords_settle q _ j,
    fun none j hj => ?_⟩
  have none' : NoneOwed (emptied q s).queues :=
    noneOwed_modQueue (noneOwed_modQueue none (g := unflushed) fun _ => rfl) (g := unpacked) fun _ => rfl
  exact (queue_settle_other none' hj).trans (queue_emptied_other hj s)

end Sys2Proof.Machine
end

section
/-! SUPPORT. NOP, ARM, DISARM, SYNC, MAP_READ, CVU_RUN and FLUSH: what each does with a descriptor that passes every check of its row. -/

namespace Sys2Proof.Machine

/-! ## A waiting descriptor that its action marks -/

/-- A change of a waiting descriptor that keeps all but what its own row holds in it. -/
def MarksOwn (g : Outstanding → Outstanding) : Prop := ∀ o, g o = { o with val := (g o).val, data := (g o).data }

theorem outOf_modOut {g : Outstanding → Outstanding} (hg : MarksOwn g) (id : Nat) (s : State) :
    outOf (modOut id g s) id = (outOf s id).map g := by
  have same : ∀ o, ((if o.id = id then g o else o).id == id) = (o.id == id) := fun o => by
    split
    · rw [hg o]
    · rfl
  unfold outOf modOut
  rw [List.find?_map, Function.comp_def, funext same]
  cases found : s.outs.find? (fun o => o.id == id) with
  | none => rfl
  | some o => exact congrArg some (if_pos (by simpa using List.find?_some found))

/-- A descriptor whose action marks it and leaves it to wait. -/
theorem starts_of_modOut {form : DescForm} {d : Desc} {s u : State} {c : Instr} {ps : List Part} (l : List Part) {g : Outstanding → Outstanding}
    (hg : MarksOwn g) (h : Takes form d s) (hf : Fresh s) (ho : Only ps (modOut s.nextId g (startDesc d (form.obj d) (acceptAlive d s))) u)
    (hl : ps ⊆ executedAnd l) (hr : Part.rings ∉ ps) (hd : Part.descs ∉ ps) (ha : Part.alives ∉ ps) (he : exec c s = .next u) :
    Starts c d (executedAnd l) s u := by
  have marked := only_modOut (ps := [.descs]) s.nextId g (List.Subset.refl _) (Only.refl _ (startDesc d (form.obj d) (acceptAlive d s)))
  have rings : u.rings = (startDesc d (form.obj d) (acceptAlive d s)).rings := (ho .rings hr).trans (marked .rings (by decide))
  have alives : (u.expAlive, u.lastAlive) = (BitVec.ofNat 8 (dF d 1 1) + 1, some (BitVec.ofNat 8 (dF d 1 1))) := ho .alives ha
  have next : u.nextId = s.nextId + 1 := congrArg Prod.snd (ho .descs hd)
  have waits := (outOf_of_only ho hd s.nextId).trans (outOf_modOut hg s.nextId _)
  rw [show outOf (startDesc d (form.obj d) (acceptAlive d s)) s.nextId = _ from outOf_startDesc (s := acceptAlive d s) hf d (form.obj d)]
    at waits
  rw [h.alive] at alives
  refine ⟨he, ⟨by rw [ring_congr rings, ring_startDesc_cmd], congrArg Prod.fst alives, congrArg Prod.snd alives⟩,
    only_executed (((marked.mono (by simp [executedAnd, executed])).trans (ho.mono hl))), next, _, waits, ?_⟩
  rw [hg]
  exact ⟨rfl, rfl, rfl, rfl, rfl⟩

/-! ## NOP (Table 12-10) -/

theorem exec_nop {d : Desc} {s : State} (h : Takes nopForm d s) : exec (.nop d) s =
    .next (sweepNops (startDesc d 0 (acceptAlive d s)).outs (startDesc d 0 (acceptAlive d s))) :=
  congrArg Host.Outcome.next (takeDesc_takes h _)

/-- The opcode of a NOP as its completion gives it. -/
theorem nop_opcode {d : Desc} {s : State} (h : Takes nopForm d s) : BitVec.ofNat 8 (dOp d) = 0 := by
  have mine : dOp d = 0 := by simpa [nopForm] using h.mine
  rw [mine]
  rfl

theorem nop_waits {d : Desc} {s : State} (hf : Fresh s) (h : Takes nopForm d s) {o : Outstanding} {l : List Outstanding}
    (waiting : s.outs = o :: l) (other : o.opcode ≠ 0) : ∃ t, Starts (.nop d) d executed s t := by
  have he := exec_nop h
  rw [sweepNops_held other (l := l ++ _) (congrArg (· ++ _) waiting)] at he
  exact ⟨_, starts_of_only (ps := []) [] h hf (Only.refl _ _) (by decide) (by decide) (by decide) (by decide) he⟩

/-- A sweep that meets one NOP alone is its completion. -/
theorem sweepNops_one {o : Outstanding} (nop : o.opcode = 0) (seen : o.lost = false) {s : State} (alone : s.outs = [o]) :
    sweepNops s.outs s = { writeCpl 0 0 o.didx o.tag [] s with outs := [] } := by
  rw [alone, sweepNops, if_pos nop, seen]
  rfl

theorem only_setOuts (s : State) (l : List Outstanding) : Only [.descs] s { s with outs := l } := by
  intro p hp
  cases p
  case descs => exact absurd (List.mem_singleton_self _) hp
  all_goals rfl

theorem nop_completes {d : Desc} {s : State} (h : Takes nopForm d s) (none : s.outs = []) : ∃ t, Completes (.nop d) d executed 0 [] s t := by
  have he := exec_nop h
  have alone : (startDesc d 0 (acceptAlive d s)).outs = [_] := congrArg (· ++ [_]) none
  rw [sweepNops_one (nop_opcode h) rfl alone] at he
  have on : (ring (startDesc d 0 (acceptAlive d s)) cplRing).en = true := (congrArg Ring.en (ring_startDesc_cpl d 0 s)).trans (canTake_cpl h.ready)
  obtain ⟨l, hl⟩ := outbox_writeCpl 0 0 (BitVec.ofNat 16 (frontIdx s).toNat) (dTag d) [] (startDesc d 0 (acceptAlive d s)) on
    ((running_of_only (only_taken d 0 s) (by decide)).trans (canTake_running h.ready))
  rw [ring_startDesc_cpl, startDesc_acceptAlive_outbox] at hl
  have written := only_writeCpl (ps := [.outbox, .rings, .sessions]) 0 0 (BitVec.ofNat 16 (frontIdx s).toNat) (dTag d) []
    (List.Subset.refl _) (Only.refl _ (startDesc d 0 (acceptAlive d s)))
  have alives := written .alives (by decide)
  refine ⟨_, he, ⟨?_, ?_, ?_⟩, ?_, only_touches he (List.mem_of_elem_eq_true rfl)⟩
  · exact (congrArg Ring.c (ring_writeCpl_other (by decide) ..)).trans (ring_startDesc_cmd d 0 s)
  · exact (congrArg Prod.fst alives).trans (congrArg (· + 1) h.alive)
  · exact (congrArg Prod.snd alives).trans (congrArg some h.alive)
  · rw [Reports, nop_opcode h]
    exact ⟨l, [], hl⟩

/-! ## ARM and DISARM (R287) -/

theorem armAct_off {d : Desc} {s : State} (off : capEn s.cfg (dF d 8 1) = false) (on : Bool) (id : Nat) :
    armAct d on id s = complete id 0x15 [] s := by
  unfold armAct
  rw [off]
  rfl

theorem armAct_on {d : Desc} {s : State} (en : capEn s.cfg (dF d 8 1) = true) (on : Bool) (id : Nat) :
    armAct d on id s = complete id 0 [] (modCap (dF d 8 1) (fun x => { x with armed := on }) s) := by
  unfold armAct
  rw [en]
  rfl

/-- Taking a descriptor leaves the rings enabled or off as they are. -/
theorem capEn_taken (d : Desc) (obj : Nat) (s : State) (r : Nat) : capEn (startDesc d obj (acceptAlive d s)).cfg r = capEn s.cfg r :=
  congrArg (capEn · r) (only_taken d obj s .cfg (by decide))

section
variable {c : Instr} {act : Nat} {on : Bool} {d : Desc} {s : State} (hf : Fresh s) (h : Takes (capForm act) d s)
  (he : exec c s = .next (armAct d on s.nextId (startDesc d (dF d 8 1) (acceptAlive d s))))
include hf h he

theorem arm_refused (off : capEn s.cfg (dF d 8 1) = false) : ∃ t, Completes c d executed 0x15 [] s t := by
  rw [armAct_off ((capEn_taken d _ s _).trans off)] at he
  exact completes_unchanged hf h he

theorem arm_sets (en : capEn s.cfg (dF d 8 1) = true) : ∃ t, Completes c d (executedAnd [.caps]) 0 [] s t ∧
    capRing t (dF d 8 1) = { capRing s (dF d 8 1) with armed := on } ∧ ∀ j, j ≠ dF d 8 1 → capRing t j = capRing s j := by
  rw [armAct_on ((capEn_taken d _ s _).trans en)] at he
  have armed := only_modCap (ps := [.caps]) (dF d 8 1) (fun x => { x with armed := on }) (List.Subset.refl _)
    (Only.refl _ (startDesc d (dF d 8 1) (acceptAlive d s)))
  have taken := capRing_congr (startDesc_acceptAlive_caps d (dF d 8 1) s)
  refine ⟨_, completes_of_only _ h hf armed (by decide) (by decide) (by decide) (by decide) (by decide) ?_ he, ?_, fun j hj => ?_⟩
  · rw [modCap_outbox, startDesc_acceptAlive_outbox]
  · rw [capRing_of_only (only_complete_self _ _ _ _) (by decide), capRing_modCap_same, taken]
  · rw [capRing_of_only (only_complete_self _ _ _ _) (by decide), capRing_modCap_other hj, taken]

end

theorem exec_arm {d : Desc} {s : State} (h : Takes (capForm 0) d s) :
    exec (.arm d) s = .next (armAct d true s.nextId (startDesc d (dF d 8 1) (acceptAlive d s))) :=
  congrArg Host.Outcome.next (takeDesc_takes h _)

theorem exec_disarm {d : Desc} {s : State} (h : Takes (capForm 1) d s) :
    exec (.disarm d) s = .next (armAct d false s.nextId (startDesc d (dF d 8 1) (acceptAlive d s))) :=
  congrArg Host.Outcome.next (takeDesc_takes h _)

/-! ## SYNC (R185) -/

/-- The request of a phase reset for descriptor id. -/
def syncAsked (id : Nat) (s : State) : State := { s with tm := { s.tm with syncReq := s.tm.syncReq ++ [some id] } }

theorem syncReq_syncAsked (id : Nat) (s : State) : (syncAsked id s).tm.syncReq = s.tm.syncReq ++ [some id] := rfl

theorem only_syncAsked (id : Nat) (s : State) : Only [.sync] s (syncAsked id s) := by
  intro p hp
  cases p
  case sync => exact absurd (List.mem_singleton_self _) hp
  all_goals rfl

theorem modOut_syncAsked (id : Nat) (g : Outstanding → Outstanding) (s : State) :
    modOut id g (syncAsked id s) = syncAsked id (modOut id g s) := rfl

/-- A SYNC with the edge at which its reset is to happen. -/
def syncDated (edge : Nat) (o : Outstanding) : Outstanding := { o with val := edge }

theorem exec_sync {d : Desc} {s : State} (h : Takes syncForm d s) : exec (.sync d) s =
    .next (modOut s.nextId (syncDated (now (startDesc d 0 (acceptAlive d s)) + 2)) (syncAsked s.nextId (startDesc d 0 (acceptAlive d s)))) :=
  congrArg Host.Outcome.next (takeDesc_takes h _)

theorem sync_starts {d : Desc} {s : State} (hf : Fresh s) (h : Takes syncForm d s) :
    ∃ t, Starts (.sync d) d (executedAnd [.sync]) s t ∧ t.tm.syncReq = s.tm.syncReq ++ [some s.nextId] := by
  have he := exec_sync h
  have marks (edge : Nat) : MarksOwn (syncDated edge) := fun _ => rfl
  rw [modOut_syncAsked] at he
  refine ⟨_, starts_of_modOut [.sync] (marks _) h hf (only_syncAsked _ _) (by decide) (by decide) (by decide) (by decide) he, ?_⟩
  rw [syncReq_syncAsked, modOut_tm, startDesc_acceptAlive_tm]

/-! ## MAP_READ (R271) -/

theorem mapRead_starts {d : Desc} {s : State} (hf : Fresh s) (h : Takes mapForm d s) :
    ∃ t, Starts (.mapRead d) d (executedAnd [.xfers]) s t ∧
      t.xfers = s.xfers ++ [⟨s.nextId, BitVec.ofNat 64 (dF d 8 8), dF d 16 4, dF d 20 4, 0⟩] :=
  ⟨_, starts_of_only (ps := [.xfers]) _ h hf (only_setXfers _ _) (by decide) (by decide) (by decide) (by decide)
    (congrArg Host.Outcome.next (takeDesc_takes h _)), congrArg (· ++ [_]) (only_taken d 0 s .xfers (by decide))⟩

/-! ## CVU_RUN (R400, R430) -/

/-- The unit as a CVU_RUN takes it: loaded with the algorithm that is named, or anew with its own, or as it stands. -/
def cvuTaken (d : Desc) (x : Cvu) : Cvu :=
  { (if dF d 9 1 ≤ 4 then cvuLoad (dF d 9 1) x else if dF d 10 1 = 1 then cvuLoad x.alg x else x) with owned := true }

theorem cvuTaken_owned (d : Desc) (x : Cvu) : (cvuTaken d x).owned = true := rfl

theorem cvuTaken_named {d : Desc} (named : dF d 9 1 ≤ 4) (x : Cvu) : cvuTaken d x = { cvuLoad (dF d 9 1) x with owned := true } := by
  rw [cvuTaken, if_pos named]

/-- A CVU_RUN with the bytes that its unit is to take. -/
def cvuGiven (d : Desc) (o : Outstanding) : Outstanding := { o with data := payload d (dF d 12 4) }

theorem exec_cvuRun {d : Desc} {s : State} (h : Takes cvuForm d s) : exec (.cvuRun d) s = .next (modCvu (dF d 8 1) (cvuTaken d)
    (modOut s.nextId (cvuGiven d) (startDesc d (cvuForm.obj d) (acceptAlive d s)))) :=
  congrArg Host.Outcome.next (takeDesc_takes h _)

theorem cvuRun_starts {d : Desc} {s : State} (hf : Fresh s) (h : Takes cvuForm d s) :
    ∃ t, Starts (.cvuRun d) d (executedAnd [.cvu]) s t ∧ (cvu t (dF d 8 1)).owned = true ∧
      (dF d 9 1 ≤ 4 → cvu t (dF d 8 1) = { cvuLoad (dF d 9 1) (cvu s (dF d 8 1)) with owned := true }) ∧
      ∀ u, u ≠ dF d 8 1 → cvu t u = cvu s u := by
  have he := exec_cvuRun h
  have marks : MarksOwn (cvuGiven d) := fun _ => rfl
  have before : ∀ u, cvu (modOut s.nextId (cvuGiven d) (startDesc d (cvuForm.obj d) (acceptAlive d s))) u = cvu s u := fun u =>
    cvu_of_only (only_modOut (ps := [.rings, .alives, .descs]) _ _ (by decide) (only_taken d _ s)) (by decide) u
  refine ⟨_, starts_of_modOut [.cvu] marks h hf (only_modCvu _ _ _) (by decide) (by decide) (by decide) (by decide) he, ?_,
    fun named => ?_, fun u hu => ?_⟩
  · rw [cvu_modCvu_same, cvuTaken_owned]
  · rw [cvu_modCvu_same, cvuTaken_named named, before]
  · rw [cvu_modCvu_other hu, before]

/-! ## FLUSH (R379, R380) -/

/-- The FLUSH under number id waits for queue q. -/
def flushAsked (q id : Nat) (s : State) : State := modQueue q (fun x => { x with flush := x.flush ++ [id] }) s

theorem queue_flushAsked_same (q id : Nat) (s : State) :
    queue (flushAsked q id s) q = { queue s q with flush := (queue s q).flush ++ [id] } := queue_modQueue_same q _ s

theorem queue_flushAsked_other {q j : Nat} (h : j ≠ q) (id : Nat) (s : State) : queue (flushAsked q id s) j = queue s j :=
  queue_modQueue_other h _ s

theorem only_flushAsked (q id : Nat) (s : State) : Only [.queues] s (flushAsked q id s) := only_modQueue q _ s

theorem flushAct_eq {d : Desc} {q : Nat} (hq : q = dF d 8 1) (id : Nat) (s : State) :
    flushAct d id s = if (queue s q).cur.isNone then flushNow q (flushAsked q id s) else flushAsked q id s := by
  have cur : (queue (flushAsked q id s) q).cur = (queue s q).cur := by rw [queue_flushAsked_same]
  subst hq
  rw [← cur]
  rfl

/-- The counts of packets and cells that a FLUSH of queue q reports (Table 12-10). -/
def flushCounts (q : Nat) (s : State) : List Byte := le 4 (queue s q).pkts.length ++ le 4 (cellsIn (queue s q).pkts)

/-- The state in which a FLUSH that waits for no packet is reported. -/
def flushAtOnce (q id : Nat) (s : State) : State := flushed q (flushAsked q id s)

theorem flushAct_atOnce {d : Desc} {q : Nat} (hq : q = dF d 8 1) {s : State} (idle : (queue s q).cur = none)
    (first : (queue s q).flush = []) (id : Nat) :
    flushAct d id s = portFollows q (complete id 0 (flushCounts q s) (flushAtOnce q id s)) := by
  have asked := queue_flushAsked_same q id s
  rw [first] at asked
  rw [flushAct_eq hq, idle, if_pos Option.isNone_none, flushNow_eq (congrArg Queue.flush asked), List.foldl_nil, asked]
  rfl

theorem only_flushAtOnce (q id : Nat) (s : State) : Only [.queues] s (flushAtOnce q id s) :=
  (only_flushAsked q id s).trans (only_flushed q _)

/-- A FLUSH that waits for no packet empties its queue and leaves the other queues their records. -/
theorem queue_flushAtOnce (q id : Nat) (s : State) : SameRecords (unpacked (unflushed (queue s q))) (queue (flushAtOnce q id s) q) ∧
    (∀ j, j ≠ q → SameRecords (queue s j) (queue (flushAtOnce q id s) j)) ∧
    (NoneOwed s.queues → ∀ j, j ≠ q → queue (flushAtOnce q id s) j = queue s j) := by
  obtain ⟨own, others, free⟩ := queue_flushed q (flushAsked q id s)
  rw [queue_flushAsked_same] at own
  refine ⟨own, fun j hj => queue_flushAsked_other hj id s ▸ others j hj, fun none j hj => ?_⟩
  exact (free (noneOwed_modQueue none fun _ => rfl) j hj).trans (queue_flushAsked_other hj id s)

theorem exec_flush {d : Desc} {s : State} (h : Takes flushForm d s) :
    exec (.flush d) s = .next (flushAct d s.nextId (startDesc d (dF d 8 1) (acceptAlive d s))) :=
  congrArg Host.Outcome.next (takeDesc_takes h _)

/-- What follows a completion and leaves rings, alive values and outbox as they are. -/
theorem reports_then {ps : List Part} {d : Desc} {status : Nat} {res : List Byte} {s t u : State} (consumed : Consumed s t)
    (reports : Reports d status res s t) (only : Only ps t u) (hr : Part.rings ∉ ps) (ha : Part.alives ∉ ps) (ho : Part.outbox ∉ ps) :
    Consumed s u ∧ Reports d status res s u := by
  obtain ⟨front, expected, last⟩ := consumed
  obtain ⟨l, m, out⟩ := reports
  have alives := only .alives ha
  exact ⟨⟨(congrArg Ring.c (ring_congr (only .rings hr) cmdRing)).trans front, (congrArg Prod.fst alives).trans expected,
    (congrArg Prod.snd alives).trans last⟩, l, m, (outbox_of_only only ho).trans out⟩

/-- A queue of the module once a FLUSH has been taken. -/
theorem queue_flushTaken (d : Desc) (s : State) (j : Nat) : queue (startDesc d (dF d 8 1) (acceptAlive d s)) j = queue s j :=
  queue_of_only (only_taken d _ s) (by decide) j

section
variable {d : Desc} {s : State} (hf : Fresh s) (h : Takes flushForm d s) {q : Nat} (hq : q = dF d 8 1)
include hf h hq

/-- A packet is in delivery. -/
theorem flush_waits (delivers : (queue s q).cur ≠ none) : ∃ t, Starts (.flush d) d executed s t ∧
    queue t q = { queue s q with flush := (queue s q).flush ++ [s.nextId] } ∧ ∀ j, j ≠ q → queue t j = queue s j := by
  have he := exec_flush h
  rw [flushAct_eq hq, queue_flushTaken, if_neg (by simpa using delivers)] at he
  refine ⟨_, starts_of_only [] h hf (only_flushAsked q s.nextId (startDesc d (dF d 8 1) (acceptAlive d s))) (by decide) (by decide)
    (by decide) (by decide) he, ?_, fun j hj => ?_⟩
  · rw [queue_flushAsked_same, queue_flushTaken]
  · rw [queue_flushAsked_other hj, queue_flushTaken]

/-- No packet is in delivery, and no other FLUSH waits. -/
theorem flush_empties (idle : (queue s q).cur = none) (first : (queue s q).flush = []) :
    ∃ t, Completes (.flush d) d executed 0 (flushCounts q s) s t ∧ (queue t q).pkts = [] ∧ (queue t q).lost = (queue s q).lost ∧
      (∀ j, j ≠ q → recordsOf (queue t j).pkts = recordsOf (queue s j).pkts) ∧
      (NoneOwed s.queues → ∀ j, j ≠ q → queue t j = queue s j) := by
  have queues := queue_flushTaken d s
  have tables : (startDesc d (dF d 8 1) (acceptAlive d s)).queues = s.queues := congrArg Prod.fst (only_taken d (dF d 8 1) s .queues (by decide))
  have he := exec_flush h
  rw [flushAct_atOnce hq ((congrArg Queue.cur (queues q)).trans idle) ((congrArg Queue.flush (queues q)).trans first)] at he
  have flushes := only_flushAtOnce q s.nextId (startDesc d (dF d 8 1) (acceptAlive d s))
  obtain ⟨own, others, free⟩ := queue_flushAtOnce q s.nextId (startDesc d (dF d 8 1) (acceptAlive d s))
  obtain ⟨consumed, reports⟩ := reports_complete h hf flushes (by decide) (by decide) (by decide) (by decide)
    (by rw [outbox_of_only flushes (by decide), startDesc_acceptAlive_outbox]) 0 (flushCounts q s)
  have counts : flushCounts q (startDesc d (dF d 8 1) (acceptAlive d s)) = flushCounts q s := by rw [flushCounts, queues q, flushCounts]
  rw [counts] at he
  have same := queue_of_only (only_complete_self s.nextId 0 (flushCounts q s)
    (flushAtOnce q s.nextId (startDesc d (dF d 8 1) (acceptAlive d s)))) (by decide)
  generalize complete s.nextId 0 (flushCounts q s) _ = t at he consumed reports same
  obtain ⟨beside, drained⟩ := queue_portFollows q t
  obtain ⟨consumed, reports⟩ := reports_then consumed reports (only_portFollows q t) (by decide) (by decide) (by decide)
  rw [same] at drained
  rw [queues q] at own
  have ended := own.trans drained
  refine ⟨_, ⟨he, consumed, reports, only_touches he (List.mem_of_elem_eq_true rfl)⟩, ended.empty rfl, ended.lost, fun j hj => ?_,
    fun none j hj => ?_⟩
  · rw [beside j hj, same, ← queues j]
    exact (others j hj).records
  · rw [beside j hj, same, ← queues j]
    exact free (tables.symm ▸ none) j hj

end

/-- Settles O23: one lemma for each outcome of each of the descriptors. -/
theorem plainDescriptorsDoTheirWork : Obligations.PlainDescriptorsDoTheirWork := by
  unfold Obligations.PlainDescriptorsDoTheirWork
  rintro _ rfl d s hf
  refine ⟨fun h => ⟨nop_completes h, fun o l waiting other => nop_waits hf h waiting other⟩, fun c act on listed h => ?_, sync_starts hf,
    mapRead_starts hf, cvuRun_starts hf, fun h => ⟨flush_empties hf h rfl, flush_waits hf h rfl⟩⟩
  have he : exec c s = .next (armAct d on s.nextId (startDesc d (dF d 8 1) (acceptAlive d s))) := by
    simp only [List.mem_cons, Prod.mk.injEq, List.not_mem_nil, or_false] at listed
    obtain ⟨rfl, rfl, rfl⟩ | ⟨rfl, rfl, rfl⟩ := listed
    · exact exec_arm h
    · exact exec_disarm h
  exact ⟨arm_sets hf h he, arm_refused hf h he⟩

end Sys2Proof.Machine
end

section
/-! SUPPORT. CFG_WRITE, RULE_LOAD and SPEED_TABLE: what their payloads stage, and what each does with a descriptor that passes every check of
its row. -/

namespace Sys2Proof.Machine

/-! ## Words staged whole -/

theorem maskIn_full (old v : Word) : maskIn old v 0xFFFFFFFF = v := by
  rw [show (0xFFFFFFFF : Word) = BitVec.allOnes 32 from rfl, maskIn, BitVec.not_allOnes, BitVec.and_zero, BitVec.and_allOnes, BitVec.zero_or]

theorem stg_stageAll_other {o j : Nat} : ∀ (l : List (Nat × Nat × Word)) (s : State), (∀ e ∈ l, regKey o j ≠ regKey e.1 e.2.1) →
    stg (stageAll l s) o j = stg s o j
  | [], _, _ => rfl
  | e :: l, s, h => (stg_stageAll_other l _ fun x hx => h x (List.mem_cons_of_mem _ hx)).trans
      (stg_stage_other (h e (List.mem_cons_self ..)) _ _ s)

/-- No two different entries of the list are words of one register. -/
def OneWordEach (l : List (Nat × Nat × Word)) : Prop := ∀ e ∈ l, ∀ x ∈ l, regKey e.1 e.2.1 = regKey x.1 x.2.1 → e = x

theorem OneWordEach.tail {e : Nat × Nat × Word} {l : List (Nat × Nat × Word)} (h : OneWordEach (e :: l)) : OneWordEach l :=
  fun x hx y hy => h x (List.mem_cons_of_mem _ hx) y (List.mem_cons_of_mem _ hy)

/-- Each register of such a list holds its word. -/
theorem stg_stageAll_mem {o j : Nat} {v : Word} {l : List (Nat × Nat × Word)} (h : OneWordEach l) (hm : (o, j, v) ∈ l) (s : State) :
    stg (stageAll l s) o j = v := by
  induction l generalizing s with
  | nil => cases hm
  | cons e l ih =>
    have unfolded : stageAll (e :: l) s = stageAll l (stage e.1 e.2.1 e.2.2 0xFFFFFFFF s) := rfl
    rw [unfolded]
    by_cases later : (o, j, v) ∈ l
    · exact ih h.tail later _
    · have here : (o, j, v) = e := (List.mem_cons.mp hm).resolve_right later
      have others : ∀ x ∈ l, regKey o j ≠ regKey x.1 x.2.1 := fun x hx key =>
        later (h _ hm x (List.mem_cons_of_mem _ hx) key ▸ hx)
      rw [stg_stageAll_other l _ others, ← here, stg_stage_same, maskIn_full]

/-- A descriptor that stages a list of words whole. -/
theorem completes_stageAll {form : DescForm} {d : Desc} {s : State} {c : Instr} {status : Nat} {res : List Byte}
    {l : List (Nat × Nat × Word)} (hf : Fresh s) (h : Takes form d s) (hl : OneWordEach l)
    (he : exec c s = .next (complete s.nextId status res (stageAll l (startDesc d (form.obj d) (acceptAlive d s))))) :
    ∃ t, Completes c d (executedAnd [.staged]) status res s t ∧ ∀ o j v, (o, j, v) ∈ l → stg t o j = v := by
  have only := only_stageAll (ps := [.staged]) l (List.Subset.refl _) (Only.refl _ (startDesc d (form.obj d) (acceptAlive d s)))
  refine ⟨_, completes_of_only _ h hf only (by decide) (by decide) (by decide) (by decide) (by decide) ?_ he, fun o j v hm => ?_⟩
  · rw [outbox_of_only only (by decide), startDesc_acceptAlive_outbox]
  · rw [stg_of_only (only_complete_self _ _ _ _) (by decide), stg_stageAll_mem hl hm]

/-- Taking a descriptor leaves the module sealed or not. -/
theorem isSealed_taken (d : Desc) (obj : Nat) (s : State) : isSealed (startDesc d obj (acceptAlive d s)) = isSealed s := by
  have lc : (startDesc d obj (acceptAlive d s)).sec.lc = s.sec.lc := congrArg Prod.fst (only_taken d obj s .lifeCycle (by decide))
  unfold isSealed
  rw [lc]

/-! ## CFG_WRITE (R423, R424) -/

/-- A plain staged register: neither a word of a pair, nor a selection of the payload's own, nor a basic code, nor a half of
TCK_ORIGIN. -/
structure PlainRegister (ofs : Nat) : Prop where
  single : complOf ofs = none
  unpaired : isRwp ofs = false
  unselecting : privSel ofs = false
  uncoded : isBasic ofs = false
  notLow : ofs ≠ 0x1020
  notHigh : ofs ≠ 0x1024

/-- A plain register's word is staged in each target. -/
theorem stageFree_plain {ofs : Nat} (h : PlainRegister ofs) (r : PathRegs) (v : Word) (s : State) :
    stageFree r ofs v s = (targets r ofs).foldl (fun s i => stage ofs i v (rwsMask ofs) s) s := by
  unfold stageFree
  rw [h.uncoded]
  rfl

/-- A payload of one entry for a plain register only stages its word. -/
theorem cfgApply_plain {e : CfgEnt} (h : PlainRegister e.ofs) {r : PathRegs}
    (hr : r = { chnSel := BitVec.ofNat 32 (e.chan % 512 + (if e.chan ≥ 0x8000 then 65536 else 0)) }) (s : State) :
    cfgApply [e] s = stageFree r e.ofs e.val s := by
  have sel := h.unselecting
  simp only [privSel, Bool.or_eq_false_iff, beq_eq_false_iff_ne] at sel
  obtain ⟨⟨notQueue, notBand⟩, notBin⟩ := sel
  subst hr
  simp [cfgApply, cfgEntry, dropPair, h.single, h.unpaired, notQueue, notBand, notBin, h.notLow, h.notHigh]

theorem stg_cfgApply_plain {e : CfgEnt} (h : PlainRegister e.ofs) {r : PathRegs}
    (hr : r = { chnSel := BitVec.ofNat 32 (e.chan % 512 + (if e.chan ≥ 0x8000 then 65536 else 0)) }) (s : State) :
    (∀ i ∈ targets r e.ofs, stg (cfgApply [e] s) e.ofs i = maskIn (stg s e.ofs i) e.val (rwsMask e.ofs)) ∧
      ∀ o j, (∀ i ∈ targets r e.ofs, regKey o j ≠ regKey e.ofs i) → stg (cfgApply [e] s) o j = stg s o j := by
  rw [cfgApply_plain h hr, stageFree_plain h]
  exact ⟨fun i hi => stg_stages_mem _ _ _ _ s (nodup_targets r e.ofs) hi, fun o j => stg_stages_other _ _ _ _ s⟩

theorem exec_cfgWrite {d : Desc} {s : State} (h : Takes cfgForm d s) :
    exec (.cfgWrite d) s = .next (cfgAct d s.nextId (startDesc d 0 (acceptAlive d s))) :=
  congrArg Host.Outcome.next (takeDesc_takes h _)

section
variable {d : Desc} {s : State} (hf : Fresh s) (h : Takes cfgForm d s)
include hf h

theorem cfgWrite_locked (locked : isSealed s = true) : ∃ t, Completes (.cfgWrite d) d executed 0x40 [] s t := by
  have he := exec_cfgWrite h
  rw [cfgAct, isSealed_taken, if_pos locked] at he
  exact completes_unchanged hf h he

variable {n : Nat} {l : List CfgEnt} (hn : n = (dF d 16 4 - 4) / 8) (hl : l = cfgEnts (payload d (dF d 16 4)) 0 n)
  (free : isSealed s = false)
include hn hl free

theorem cfgWrite_invalid {i : Nat} (bad : firstBad l = some i) :
    ∃ t, Completes (.cfgWrite d) d executed 0x14 (le 4 0 ++ le 4 i) s t := by
  subst hn hl
  have he := exec_cfgWrite h
  rw [cfgAct, isSealed_taken, if_neg (by simp [free]), bad] at he
  exact completes_unchanged hf h he

/-- Every entry is valid. -/
theorem cfgWrite_applies (good : firstBad l = none) :
    ∃ t, Completes (.cfgWrite d) d (executedAnd [.staged, .pairs, .sticky]) 0 (le 4 n) s t ∧
      ∀ o j, stg t o j = stg (cfgApply l (startDesc d 0 (acceptAlive d s))) o j := by
  subst hn hl
  have he := exec_cfgWrite h
  rw [cfgAct, isSealed_taken, if_neg (by simp [free]), good] at he
  refine ⟨_, completes_of_only _ h hf (only_cfgApply_staged _ _) (by decide) (by decide) (by decide) (by decide) (by decide) ?_ he,
    fun o j => stg_of_only (only_complete_self _ _ _ _) (by decide) o j⟩
  exact startDesc_acceptAlive_outbox d 0 s ▸ (kept_cfgApply _ (Kept.refl _)).out

end

/-! ## RULE_LOAD (R291, R293, R429) -/

theorem length_entWords_ruleEnt (b : List Byte) (o : Nat) : (entWords (ruleEnt b o)).length = 16 := by
  unfold entWords
  split <;> simp [ruleEnt]

/-- The words that a RULE_LOAD of these entries stages. -/
def ruleWords (b : List Byte) (first count : Nat) : List (Nat × Nat × Word) :=
  (List.range count).flatMap fun i => (entWords (ruleEnt b (64 * i))).zipIdx.map fun e => (ruleOfs e.2, first + i, e.1)

theorem mem_ruleWords {b : List Byte} {first count : Nat} {e : Nat × Nat × Word} : e ∈ ruleWords b first count ↔
    ∃ i w, i < count ∧ w < 16 ∧ e = (ruleOfs w, first + i, nthD (entWords (ruleEnt b (64 * i))) w 0) := by
  simp only [ruleWords, List.mem_flatMap, List.mem_range, List.mem_map]
  constructor
  · rintro ⟨i, hi, ⟨v, w⟩, hv, rfl⟩
    have word := List.mem_zipIdx_iff_getElem?.mp hv
    obtain ⟨hw, _⟩ := List.getElem?_eq_some_iff.mp word
    exact ⟨i, w, hi, length_entWords_ruleEnt b _ ▸ hw, by simp [nthD, word]⟩
  · rintro ⟨i, w, hi, hw, rfl⟩
    have inside : w < (entWords (ruleEnt b (64 * i))).length := (length_entWords_ruleEnt b _).symm ▸ hw
    exact ⟨i, hi, (_, w), List.mem_zipIdx_iff_getElem?.mpr (List.getElem?_eq_getElem inside), by simp [nthD, inside]⟩

theorem stageRules_eq (b : List Byte) (first count : Nat) (s : State) :
    stageRules b 0 first count s = stageAll (ruleWords b first count) s := by
  simp [stageRules, stageAll, ruleWords, List.foldl_flatMap, List.foldl_map]

/-- The rules of a RULE_LOAD are among the 1,024, so their registers differ. -/
theorem ruleWords_oneWordEach (b : List Byte) {first count : Nat} (h : first + count ≤ 1024) : OneWordEach (ruleWords b first count) := by
  intro e he x hx key
  obtain ⟨i, w, hi, hw, rfl⟩ := mem_ruleWords.mp he
  obtain ⟨k, u, hk, hu, rfl⟩ := mem_ruleWords.mp hx
  simp only [regKey, ruleOfs] at key
  obtain rfl : w = u := by omega
  obtain rfl : i = k := by omega
  rfl

theorem exec_ruleLoad {d : Desc} {s : State} (h : Takes ruleForm d s) :
    exec (.ruleLoad d) s = .next (ruleLoadAct d s.nextId (startDesc d 0 (acceptAlive d s))) :=
  congrArg Host.Outcome.next (takeDesc_takes h _)

section
variable {d : Desc} {s : State} (hf : Fresh s) (h : Takes ruleForm d s)
include hf h

theorem ruleLoad_locked (locked : isSealed s = true) : ∃ t, Completes (.ruleLoad d) d executed 0x40 (le 2 0xFFFF) s t := by
  have he := exec_ruleLoad h
  rw [ruleLoadAct, isSealed_taken, if_pos locked] at he
  exact completes_unchanged hf h he

variable {b : List Byte} (hb : b = payload d (64 * dF d 10 2)) (free : isSealed s = false)
include hb free

/-- A pair does not check (R429). -/
theorem ruleLoad_pairBad {r ch : Nat} (bad : badRule b 0 (dF d 8 2) (dF d 10 2) = some (r, ch)) (line : lineBad s 0x08 0 = false) :
    ∃ t, Completes (.ruleLoad d) d executed 0x16 (le 2 r) s t ∧ srcActive t 0x08 0 = true := by
  subst hb
  have he := exec_ruleLoad h
  rw [ruleLoadAct, isSealed_taken, if_neg (by simp [free]), bad] at he
  have raised := only_integrity (ps := [.outbox, .queues, .faults]) 4 r ch (List.Subset.refl _)
    (Only.refl _ (startDesc d 0 (acceptAlive d s)))
  refine ⟨_, completes_of_only [] h hf raised (by decide) (by decide) (by decide) (by decide) (by decide) ?_ he, ?_⟩
  · exact startDesc_acceptAlive_outbox d 0 s ▸ (kept_integrity 4 r ch (Kept.refl _)).out
  · rw [srcActive_of_only (only_complete_self _ _ _ _) (by decide)]
    exact integrity_active ((lineBad_of_only (only_taken _ _ _) (by decide) _ _).trans line) _ _ _

theorem ruleLoad_stages (good : badRule b 0 (dF d 8 2) (dF d 10 2) = none) :
    ∃ t, Completes (.ruleLoad d) d (executedAnd [.staged]) 0 (le 2 0xFFFF) s t ∧
      ∀ i w, i < dF d 10 2 → w < 16 → stg t (ruleOfs w) (dF d 8 2 + i) = nthD (entWords (ruleEnt b (64 * i))) w 0 := by
  subst hb
  have he := exec_ruleLoad h
  rw [ruleLoadAct, isSealed_taken, if_neg (by simp [free]), good, stageRules_eq] at he
  have ok := h.ok
  simp only [ruleForm, Bool.and_eq_true, decide_eq_true_eq] at ok
  obtain ⟨⟨_, inRange⟩, _⟩ := ok
  obtain ⟨t, done, words⟩ := completes_stageAll hf h (ruleWords_oneWordEach _ inRange) he
  exact ⟨t, done, fun i w hi hw => words _ _ _ (mem_ruleWords.mpr ⟨i, w, hi, hw, rfl⟩)⟩

end

/-! ## SPEED_TABLE (R429) -/

/-- The words that a SPEED_TABLE stages for reference ref. -/
def edgeWords (b : List Byte) (ref : Nat) : List (Nat × Nat × Word) :=
  (List.range 32).map fun i => (0x5044, 32 * ref + i, BitVec.ofNat 32 (getLE b (4 * i) 4))

theorem mem_edgeWords {b : List Byte} {ref : Nat} {e : Nat × Nat × Word} : e ∈ edgeWords b ref ↔
    ∃ i, i < 32 ∧ (0x5044, 32 * ref + i, BitVec.ofNat 32 (getLE b (4 * i) 4)) = e := by
  simp only [edgeWords, List.mem_map, List.mem_range]

theorem stageEdges_eq (b : List Byte) (ref : Nat) (s : State) : stageEdges b 0 ref s = stageAll (edgeWords b ref) s := by
  simp only [stageEdges, stageAll, edgeWords, List.foldl_map, Nat.zero_add]

theorem edgeWords_oneWordEach (b : List Byte) (ref : Nat) : OneWordEach (edgeWords b ref) := by
  intro e he x hx key
  obtain ⟨i, hi, rfl⟩ := mem_edgeWords.mp he
  obtain ⟨k, hk, rfl⟩ := mem_edgeWords.mp hx
  simp only [regKey] at key
  obtain rfl : i = k := by omega
  rfl

/-- The edges of a SPEED_TABLE are staged unless the module is sealed. -/
def speedAct (d : Desc) (id : Nat) (s : State) : State :=
  if isSealed s then complete id 0x40 [] s else complete id 0 [] (stageEdges (payload d 128) 0 (dF d 8 1) s)

theorem exec_speedTable {d : Desc} {s : State} (h : Takes speedForm d s) :
    exec (.speedTable d) s = .next (speedAct d s.nextId (startDesc d 0 (acceptAlive d s))) :=
  congrArg Host.Outcome.next (takeDesc_takes h _)

section
variable {d : Desc} {s : State} (hf : Fresh s) (h : Takes speedForm d s)
include hf h

theorem speedTable_locked (locked : isSealed s = true) : ∃ t, Completes (.speedTable d) d executed 0x40 [] s t := by
  have he := exec_speedTable h
  rw [speedAct, isSealed_taken, if_pos locked] at he
  exact completes_unchanged hf h he

theorem speedTable_stages (free : isSealed s = false) : ∃ t, Completes (.speedTable d) d (executedAnd [.staged]) 0 [] s t ∧
    ∀ i, i < 32 → stg t 0x5044 (32 * dF d 8 1 + i) = BitVec.ofNat 32 (getLE (payload d 128) (4 * i) 4) := by
  have he := exec_speedTable h
  rw [speedAct, isSealed_taken, if_neg (by simp [free]), stageEdges_eq] at he
  obtain ⟨t, done, words⟩ := completes_stageAll hf h (edgeWords_oneWordEach _ _) he
  exact ⟨t, done, fun i hi => words _ _ _ (mem_edgeWords.mpr ⟨i, hi, rfl⟩)⟩

end

/-- Settles O24: one lemma for each outcome of each of the descriptors; what a payload stages is read off the list of its words. -/
theorem configurationPayloadsAreStaged : Obligations.ConfigurationPayloadsAreStaged := by
  unfold Obligations.ConfigurationPayloadsAreStaged
  intro d s hf
  refine ⟨fun h n l hn hl => ⟨cfgWrite_locked hf h, fun free i => cfgWrite_invalid hf h hn hl free, fun free good => ?_⟩,
    fun h b hb => ⟨ruleLoad_locked hf h, fun free r ch => ruleLoad_pairBad hf h hb free, ruleLoad_stages hf h hb⟩,
    fun h => ⟨speedTable_locked hf h, speedTable_stages hf h⟩⟩
  obtain ⟨t, done, words⟩ := cfgWrite_applies hf h hn hl free good
  refine ⟨t, done, ?_⟩
  rintro e r rfl hr single unpaired unselecting uncoded notLow notHigh
  have taken (o j : Nat) : stg (startDesc d 0 (acceptAlive d s)) o j = stg s o j := stg_of_only (only_taken d 0 s) (by decide) o j
  obtain ⟨staged, others⟩ := stg_cfgApply_plain ⟨single, unpaired, unselecting, uncoded, notLow, notHigh⟩ hr
    (startDesc d 0 (acceptAlive d s))
  exact ⟨fun i hi => by rw [words, staged i hi, taken], fun o j apart => by rw [words, others o j apart, taken]⟩

end Sys2Proof.Machine
end

section
/-! SUPPORT. The work of one cycle: the state that it starts from, and what it leaves where no packet arrives in it (R365). -/

namespace Sys2Proof.Machine

/-- A queue whose packets have all arrived before. -/
def agedQueue (x : Queue) : Queue := { x with pkts := x.pkts.map (fun p => { p with fresh := false }) }

/-- The module as a cycle's work finds it: its packets have all arrived before. -/
def aged (s : State) : State := { s with queues := tmap s.queues (fun _ x => agedQueue x) }

theorem only_setQueues (s : State) (l : Tab Queue) : Only [.queues] s { s with queues := l } := by
  intro p hp
  cases p
  case queues => exact absurd (List.mem_singleton_self _) hp
  all_goals rfl

theorem only_aged (s : State) : Only [.queues] s (aged s) := only_setQueues s _

theorem inOneCycle_eq (g : State → State) (s : State) :
    inOneCycle g s = { g (aged s) with queues := tmap (g (aged s)).queues orderArrived } := rfl

/-- After the work the packets that arrived are put in order, and nothing else is done. -/
theorem only_ordered (g : State → State) (s : State) : Only [.queues] (g (aged s)) (inOneCycle g s) := only_setQueues _ _

theorem orderArrived_aged (q : Nat) (x : Queue) : orderArrived q (agedQueue x) = agedQueue x := by
  have none : (agedQueue x).pkts.filter (·.fresh) = [] := by
    simp [agedQueue, List.filter_map, Function.comp_def]
  unfold orderArrived
  rw [none]
  rfl

/-- Where no packet arrives, the queues keep their records. -/
theorem cells_inOneCycle {g : State → State} {s : State} (idle : (g (aged s)).queues = (aged s).queues) (q : Nat) :
    (queue (inOneCycle g s) q).pkts.map (fun p => p.cells) = (queue s q).pkts.map (fun p => p.cells) := by
  have ordered : queue (inOneCycle g s) q = agedQueue (queue s q) := by
    show tget {} (tmap (g (aged s)).queues orderArrived) q = _
    rw [idle, tget_tmap {} orderArrived fun _ => rfl]
    show orderArrived q (tget {} (tmap s.queues fun _ x => agedQueue x) q) = _
    rw [tget_tmap {} (fun _ x => agedQueue x) fun _ => rfl]
    exact orderArrived_aged q _
  rw [ordered, agedQueue, List.map_map]
  rfl

end Sys2Proof.Machine
end

section
/-! SUPPORT. The time unit as it enters a state of Table 9-1, and the commands of its pins and of the check-in. -/

namespace Sys2Proof.Machine

/-! ## Entering a state (R303, R304, R307, R435) -/

/-- The time unit in its new state, before its EVENT and TIME_HOLDOVER are told. -/
def timeEntered (n : Nat) (s : State) : State :=
  { s with tm := { s.tm with state := n, run := 0, jump := none, slew := 0, offset := if n = 0 then 0 else s.tm.offset } }

/-- The same with its EVENT. -/
def timeTold (n : Nat) (s : State) : State := timeEvent s.tm.state (timeEntered n s)

theorem setTime_eq {n : Nat} {s : State} (new : s.tm.state ≠ n) : setTime n s =
    if n = 3 then raise 0x19 0 1 false (le 2 (uns 16 (timeTold n s).tm.offset)) (timeTold n s).tm.count false false (timeTold n s)
    else if s.tm.state = 3 then clearSrc 0x19 0 (timeTold n s) else timeTold n s :=
  if_neg new

theorem only_timeTold (n : Nat) (s : State) : Only [.queues] (timeEntered n s) (timeTold n s) :=
  only_timeEvent _ (List.Subset.refl _) (Only.refl _ _)

/-- Telling of a new state leaves the time unit as it is. -/
theorem only_setTime_told {n : Nat} {s : State} (new : s.tm.state ≠ n) :
    Only [.outbox, .queues, .faults] (timeEntered n s) (setTime n s) := by
  have told : Only [.outbox, .queues, .faults] (timeEntered n s) (timeTold n s) := (only_timeTold n s).mono (by decide)
  rw [setTime_eq new]
  exact Only.ite (only_raise_low (by decide) (by decide) told) (Only.ite (only_clearSrc _ _ (by decide) told) told)

/-- The time unit of t has entered state n from that of s: no slew and no renumbering is on its way, and OFFSET is kept. -/
def Entered (n : Nat) (s t : State) : Prop := t.tm.state = n ∧ t.tm.slew = 0 ∧ t.tm.jump = none ∧ t.tm.offset = s.tm.offset

theorem entered_of_only {ps : List Part} {n : Nat} {s t u : State} (h : Only ps t u) (hp : Part.time ∉ ps) (k : Entered n s t) :
    Entered n s u := by
  have time := h .time hp
  simp only [Part.same, Prod.mk.injEq] at time
  obtain ⟨state, _, offset, _, slew, _, _, jump⟩ := time
  obtain ⟨state', slew', jump', offset'⟩ := k
  exact ⟨state.trans state', slew.trans slew', jump.trans jump', offset.trans offset'⟩

theorem setTime_enters {n : Nat} {s : State} (on : n ≠ 0) (new : s.tm.state ≠ n) : Entered n s (setTime n s) :=
  entered_of_only (only_setTime_told new) (by decide) ⟨rfl, rfl, rfl, if_neg on⟩

/-- TIME_HOLDOVER follows HOLDOVER (R307). -/
theorem setTime_holdover {s : State} (new : s.tm.state ≠ 3) (good : lineBad s 0x19 0 = false) :
    srcActive (setTime 3 s) 0x19 0 = true := by
  rw [setTime_eq new, if_pos rfl]
  exact raise_active ((lineBad_of_only (only_timeTold 3 s) (by decide) 0x19 0).trans good) ..

/-- A command that takes the time unit to state n. -/
theorem inOneCycle_enters {n : Nat} {s : State} (new : s.tm.state ≠ n) (on : n ≠ 0) :
    Only [.outbox, .queues, .faults, .time] s (inOneCycle (setTime n) s) ∧ Entered n s (inOneCycle (setTime n) s) :=
  ⟨only_inOneCycle _ (only_setTime n (by decide)) (by decide) (Only.refl _ s),
    entered_of_only (only_ordered _ s) (by decide) (setTime_enters (s := aged s) on new)⟩

theorem inOneCycle_holdover {s : State} (new : s.tm.state ≠ 3) (good : lineBad s 0x19 0 = false) :
    srcActive (inOneCycle (setTime 3) s) 0x19 0 = true := by
  rw [srcActive_of_only (only_ordered _ s) (by decide)]
  exact setTime_holdover (s := aged s) new good

/-! ## The commands (Table 9-1) -/

theorem exec_timeLocked {s : State} (run : running s = true) (acquiring : s.tm.state = 1) (edges : 16 ≤ s.tm.run) :
    exec .timeLocked s = .next (inOneCycle (setTime 2) s) :=
  if_pos (by simp [run, acquiring, edges])

theorem exec_timeHoldover {s : State} (run : running s = true) (h : s.tm.state = 2 ∨ (s.tm.state = 1 ∧ s.tm.renumbered = true)) :
    exec .timeHoldover s = .next (inOneCycle (setTime 3) s) :=
  if_pos (by simpa [holdsOver, run] using h)

theorem exec_timeRegained {s : State} (run : running s = true) (holdover : s.tm.state = 3) (agrees : s.tm.conflict = false) :
    exec .timeRegained s = .next (inOneCycle (setTime 1) s) :=
  if_pos (by simp [run, holdover, agrees])

/-- Settles O37: each command is the entry of one state, told of in the same cycle. -/
theorem timeStatesFollowTable91 : Obligations.TimeStatesFollowTable91 := by
  unfold Obligations.TimeStatesFollowTable91
  refine fun s run => ⟨fun acquiring edges => ?_, fun h => ?_, fun holdover agrees => ?_⟩
  · obtain ⟨only, entered⟩ := inOneCycle_enters (n := 2) (s := s) (by omega) (by decide)
    exact ⟨_, exec_timeLocked run acquiring edges, only, entered⟩
  · have new : s.tm.state ≠ 3 := by omega
    obtain ⟨only, state, slew, jump, offset⟩ := inOneCycle_enters new (by decide)
    exact ⟨_, exec_timeHoldover run h, only, state, slew, jump, offset, inOneCycle_holdover new⟩
  · obtain ⟨only, entered⟩ := inOneCycle_enters (n := 1) (s := s) (by omega) (by decide)
    exact ⟨_, exec_timeRegained run holdover agrees, only, entered⟩

/-! ## Pins and check-in (R310, R311, R509) -/

/-- A pulse on SYNC_OUT falls where its function is 2 or 3; any other level stays. -/
theorem syncOut_falls (fn : Nat) (out : Bool) :
    (if fn = 2 || fn = 3 then false else out) = (out && !(fn == 2 || fn == 3)) := by
  by_cases tick : fn = 2
  · simp [tick]
  · by_cases period : fn = 3 <;> simp [tick, period]

theorem exec_tickOutFall (s : State) : exec .tickOutFall s = .next { s with tm := { s.tm with
    tickOut := false, syncOut := s.tm.syncOut && !(fld (frc s 0x101C 0) 4 2 == 2 || fld (frc s 0x101C 0) 4 2 == 3) } } := by
  show execTickOutFall s = _
  rw [execTickOutFall, frcF]
  dsimp only
  rw [syncOut_falls]

/-- SYNC_OUT repeats SYNC_IN where its function is 1, while firmware runs. -/
theorem syncOut_repeats (run : Bool) (fn : Nat) (level out : Bool) :
    (if run && fn = 1 then level else out) = if run = true ∧ fn = 1 then level else out := by
  simp

theorem exec_syncOutRepeat (level : Bool) (s : State) : exec (.syncOutRepeat level) s = .next { s with tm := { s.tm with
    syncIn := level, syncOut := if running s = true ∧ fld (frc s 0x101C 0) 4 2 = 1 then level else s.tm.syncOut } } := by
  show execSyncOutRepeat level s = _
  rw [execSyncOutRepeat, frcF, syncOut_repeats]

theorem exec_checkIn {s : State} (run : running s = true) :
    exec .checkIn s = .next { s with tm := { s.tm with checkedIn := true } } := if_pos run

/-- Settles O39: each command is one update of the time unit's pins or of its check-in. -/
theorem pinsAndCheckIn : Obligations.PinsAndCheckIn := by
  unfold Obligations.PinsAndCheckIn
  exact fun level s => ⟨exec_tickOutFall s, exec_syncOutRepeat level s, exec_checkIn⟩

end Sys2Proof.Machine
end

section
/-! SUPPORT. What the core holds of a frond's report, and the work of a U0 that leaves it as it is. -/

namespace Sys2Proof.Machine

/-! ## The report that is held -/

/-- What the core holds of a frond from its U0, and of the frames that it has had in the window; without FPAIR and CPAIR, which are
judged bit by bit. -/
def heldReport (x : CFrond) : Report × Half × Bool × Bool × Option Byte × Tab Copy :=
  ({ x.rep with fpair := 0, cpair := 0 }, x.epoch, x.seen, x.gotU0, x.upAlive, x.copies)

/-- From s to t what the core holds of every frond's report is kept. -/
structure SameReports (s t : State) : Prop where
  held : ∀ f, heldReport (frond t f) = heldReport (frond s f)

theorem SameReports.refl (s : State) : SameReports s s := ⟨fun _ => rfl⟩

theorem SameReports.trans {s t u : State} (a : SameReports s t) (b : SameReports t u) : SameReports s u :=
  ⟨fun f => (b.held f).trans (a.held f)⟩

theorem sameReports_of_fronds {s t : State} (h : t.fronds = s.fronds) : SameReports s t := ⟨fun f => congrArg heldReport (frond_congr h f)⟩

theorem sameReports_of_only {ps : List Part} {s t : State} (h : Only ps s t) (hp : Part.fronds ∉ ps) : SameReports s t :=
  sameReports_of_fronds (h .fronds hp)

theorem sameReports_modFrond {f : Nat} {g : CFrond → CFrond} (h : ∀ x, heldReport (g x) = heldReport x) (s : State) :
    SameReports s (modFrond f g s) := ⟨fun j => by
  by_cases here : j = f
  · rw [here, frond_modFrond_same]
    exact h _
  · rw [frond_modFrond_other here]⟩

theorem SameReports.foldl {α : Type} {F : State → α → State} (h : ∀ s a, SameReports s (F s a)) : ∀ (l : List α) (s : State),
    SameReports s (l.foldl F s)
  | [], s => .refl s
  | a :: l, s => (h s a).trans (.foldl h l (F s a))

theorem SameReports.ite {c : Prop} [Decidable c] {s t u : State} (a : SameReports s t) (b : SameReports s u) :
    SameReports s (if c then t else u) := by
  split
  · exact a
  · exact b

/-! ## Faults and pairs (R343, R486, R487, R489) -/

theorem sameReports_sendOrder (f : Nat) (k v : Byte) (s : State) : SameReports s (sendOrder f k v s) :=
  .trans (sameReports_modFrond (f := f) (g := fun x => { x with downAlive := nextDown s f }) (fun _ => rfl) s) (sameReports_of_fronds rfl)

theorem sameReports_orderSafe (opener : Option (Nat × Nat)) (cls : Nat) (s : State) (f : Nat) :
    SameReports s (orderSafe opener cls s f) := by
  have ordered : SameReports s (sendOrder f 0x7C 0xA5 (modFrond f (fun x => { x with safeOrder := true }) s)) :=
    .trans (sameReports_modFrond (by exact fun _ => rfl) s) (sameReports_sendOrder ..)
  unfold orderSafe
  exact .ite ordered (ordered.trans (sameReports_of_only (only_openShadow _ _ _ _ (List.Subset.refl _) (Only.refl _ _)) (by decide)))

theorem sameReports_react (id sub cls : Nat) (ctx : List Byte) (s : State) : SameReports s (react id sub cls ctx s) := by
  have ordered (l : List Nat) : SameReports s (l.foldl (orderSafe (some (id, sub)) cls) s) := .foldl (sameReports_orderSafe _ _) l s
  unfold react
  generalize allFronds = l
  exact .ite (ordered _) (.ite ((ordered l).trans (sameReports_of_fronds rfl)) (.refl s))

theorem sameReports_raise (id sub cls : Nat) (event : Bool) (ctx : List Byte) (tick : TickNo) (atEdge opener : Bool) (s : State) :
    SameReports s (raise id sub cls event ctx tick atEdge opener s) := by
  unfold raise
  refine .ite (.refl s) (.ite (sameReports_of_fronds rfl) ?_)
  refine .trans ?_ (sameReports_of_only (only_vector20 _ (List.Subset.refl _) (Only.refl _ _)) (by decide))
  refine .trans ?_ (sameReports_react ..)
  refine .trans (sameReports_of_fronds ?_)
    (sameReports_of_only (only_recordFault _ _ _ _ _ _ _ (List.Subset.refl _) (Only.refl _ _)) (by decide))
  rfl

theorem sameReports_pathBad (kind f b : Nat) (s : State) : SameReports s (pathBad kind f b s) := by
  unfold pathBad
  have marked (l : List (Nat × Nat × Nat × Nat)) : SameReports s { s with badPaths := l } := sameReports_of_fronds rfl
  exact .ite (marked _) (.ite ((marked _).trans (.foldl (sameReports_orderSafe _ _) _ _)) ((marked _).trans (sameReports_raise ..)))

theorem sameReports_pairCycle (kind f b : Nat) (eq : Bool) (run : Nat) (s : State) : SameReports s (pairCycle kind f b eq run s) := by
  have counted (g : Nat → Nat) : SameReports s (countPath kind f b g s) := sameReports_of_fronds rfl
  exact .ite (.ite (sameReports_pathBad ..) (counted _)) (counted _)

/-- A fold over a state that other results stand beside. -/
theorem sameReports_foldl_beside {α β : Type} {F : α × β × State → Nat → α × β × State} (h : ∀ a b, SameReports a.2.2 (F a b).2.2) :
    ∀ (l : List Nat) (a : α × β × State), SameReports a.2.2 (l.foldl F a).2.2
  | [], a => .refl a.2.2
  | b :: l, a => (h a b).trans (sameReports_foldl_beside h l (F a b))

theorem sameReports_seePairs (kind f n w wn old : Nat) (runs : Tab Nat) (s : State) :
    SameReports s (seePairs kind f n w wn old runs s).2.2 :=
  sameReports_foldl_beside (fun _ _ => sameReports_pairCycle ..) (List.range n) (0, runs, s)

theorem sameReports_clearSrc (id sub : Nat) (s : State) : SameReports s (clearSrc id sub s) :=
  sameReports_of_only (only_clearSrc id sub (List.Subset.refl _) (Only.refl _ s)) (by decide)

/-- The collector's part of a U0 judges FPAIR and CPAIR, and leaves the rest of the report. -/
theorem sameReports_collectU0 (f : Nat) (d : List Byte) (old : Report) (noCfgNew rejoin cleared : Bool) (s : State) :
    SameReports s (collectU0 f d old noCfgNew rejoin cleared s) := by
  unfold collectU0
  extract_lets t x
  split
  next fp fr caused seen =>
  split
  next cp cr paired seen' =>
  extract_lets judged new ctx fresh entered other wasOpen op opened told order raised
  have pairs : SameReports s paired := by
    have first := sameReports_seePairs 1 f 9 (getLE d 16 2) (getLE d 18 2) old.fpair.toNat x.fpEq s
    have second := sameReports_seePairs 2 f 16 (getLE d 20 2) (getLE d 22 2) old.cpair.toNat x.cpEq caused
    rw [seen] at first
    rw [seen'] at second
    exact first.trans second
  have judges : SameReports paired judged := sameReports_modFrond (by exact fun _ => rfl) paired
  have opens : SameReports judged opened := by
    unfold opened
    exact .ite (sameReports_of_only (only_openShadow _ _ _ _ (List.Subset.refl _) (Only.refl _ _)) (by decide)) (.refl _)
  have tells : SameReports opened told := by
    unfold told
    clear_value op
    split
    · exact sameReports_raise ..
    · exact .refl _
  have raises : SameReports told raised := .foldl (fun _ _ => sameReports_raise ..) _ _
  have clears (l : List Nat) : SameReports raised (l.foldl (fun s b => if fp.testBit b then s else clearSrc (causeId f b) b s) raised) :=
    .foldl (fun _ _ => .ite (.refl _) (sameReports_clearSrc ..)) _ _
  have drops (u : State) : SameReports u (dropChannels f cp u) :=
    sameReports_of_only (only_dropChannels _ _ (List.Subset.refl _) (Only.refl _ _)) (by decide)
  exact pairs.trans (judges.trans (opens.trans (tells.trans (raises.trans ((clears _).trans (drops _))))))

/-! ## Commits, output values and clears (R114, R330, R345) -/

theorem sameReports_tryFinish (force : Bool) (s : State) : SameReports s (tryFinish force s) := by
  have finished (p : Pending) (excl : List Nat) : SameReports s (finishApplied p excl s) := by
    refine .trans ?_ (sameReports_of_only (only_finishReport p excl _ _) (by decide))
    exact .foldl (fun u f => sameReports_modFrond (g := fun x => { x with late := true }) (fun _ => rfl) u) _ s
  unfold tryFinish
  split
  · exact .refl s
  · split
    · exact .ite (finished ..) (.refl s)
    · exact .refl s

theorem sameReports_reportOuts (f : Nat) (m : TickNo) (ctlMiss : Bool) (rej : Nat) (s : State) :
    SameReports s (reportOuts f m ctlMiss rej s) := by
  have completed (u v : State) (h : v.fronds = u.fronds) (did : Option Nat) (st : Nat) (res : List Byte) :
      SameReports u (completeOpt did st res v) :=
    .trans (sameReports_of_fronds h) (sameReports_of_only (only_completeOpt _ _ _ (List.Subset.refl _) (Only.refl _ _)) (by decide))
  unfold reportOuts
  refine .foldl (fun u e => .ite (.refl u) (.ite (sameReports_modFrond (by exact fun _ => rfl) u) ?_)) _ s
  extract_lets ch edge
  split
  extract_lets valued ended
  exact .trans (completed u valued rfl ..) (sameReports_modFrond (by exact fun _ => rfl) ended)

theorem sameReports_reportClears (f : Nat) (m : TickNo) (ctlMiss : Bool) (s : State) : SameReports s (reportClears f m ctlMiss s) := by
  unfold reportClears
  refine .foldl (fun u c => .ite (.refl u) (.ite (sameReports_modFrond (by exact fun _ => rfl) u) ?_)) _ s
  refine .trans (sameReports_modFrond ?_ u) (sameReports_of_only (only_clearDone _ _ (List.Subset.refl _) (Only.refl _ _)) (by decide))
  exact fun _ => rfl

/-! ## Epoch control (R319, R324, R327 to R329) -/

/-- The channels of a frond and the map follow a change of its configuration. -/
theorem sameReports_chansFollow (f : Nat) (old new : Tab Word) (words : State → Tab Word) (s : State) :
    SameReports s (mapLater f old new ((List.range 16).foldl (fun s p => chanEpoch old (words s) (16 * f + p) s) s)) :=
  .trans (.foldl (fun u _ => sameReports_of_only (only_chanEpoch _ _ _ (List.Subset.refl _) (Only.refl _ u)) (by decide)) _ s)
    (sameReports_of_only (only_mapLater f old new (List.Subset.refl _) (Only.refl _ _)) (by decide))

theorem sameReports_loseConfig (f : Nat) (s : State) : SameReports s (loseConfig f s) :=
  .trans (sameReports_modFrond (by exact fun _ => rfl) s) (sameReports_chansFollow f _ _ (fun _ => mixCfg f [] s.cfg) _)

/-- The frond's epoch as its U0 tells it: 0 without a configuration (R327, R329). -/
def toldEpoch (d : List Byte) : Half := if (getLE d 3 1).testBit 1 then 0 else BitVec.ofNat 16 (getLE d 0 2)

theorem sameReports_useEpochCtl (f : Nat) (d : List Byte) (stamp : Nat) (s : State) :
    SameReports (modFrond f (fun x => { x with epoch := toldEpoch d }) s) (useEpochCtl f d stamp s) := by
  unfold useEpochCtl
  extract_lets x ep ack noCfg tag told confirmed followed relieved
  have confirms : SameReports told confirmed := sameReports_modFrond (by exact fun _ => rfl) told
  have follows : SameReports told followed := by
    unfold followed
    refine .ite ?_ (.ite (sameReports_loseConfig f told) (.refl told))
    split
    · next old _ =>
      have changed := confirms.trans (sameReports_chansFollow f old confirmed.cfg State.cfg confirmed)
      exact .ite (changed.trans (sameReports_of_only (only_frondApplyEvent _ _ (List.Subset.refl _) (Only.refl _ _)) (by decide))) changed
    · exact confirms
  have relieves : SameReports followed relieved := sameReports_modFrond (by exact fun _ => rfl) followed
  refine follows.trans ?_
  clear_value relieved followed
  split
  · exact .ite (relieves.trans (sameReports_of_fronds rfl)) (.ite (sameReports_modFrond (by exact fun _ => rfl) followed) (.refl followed))
  · exact .refl followed

/-! ## The whole U0 (R349) -/

/-- The report of a U0, but for FPAIR and CPAIR (R349). -/
def toldReport (d : List Byte) (old : Report) : Report :=
  { old with
    fsup := getLE d 10 2 % 4096, safe := (getLE d 10 2).testBit 12, shutdown := (getLE d 10 2).testBit 13,
    wdExp := (getLE d 10 2).testBit 14, refRdy := (getLE d 10 2).testBit 15, temp := sgn 12 (getLE d 12 2 % 4096),
    refRange := (getLE d 12 2).testBit 12, vref := getLE d 14 2, dpc := getLE d 24 2 % 4096, noCfg := (getLE d 3 1).testBit 1 }

/-- The core's record of a frond whose U0 has been used. -/
def reportTaken (d : List Byte) (x : CFrond) : CFrond :=
  { x with rep := toldReport d x.rep, epoch := toldEpoch d, seen := true, gotU0 := true }

theorem SameReports.copies {s t : State} (h : SameReports s t) (f : Nat) : (frond t f).copies = (frond s f).copies :=
  congrArg (fun r => r.2.2.2.2.2) (h.held f)

theorem SameReports.upAlive {s t : State} (h : SameReports s t) (f : Nat) : (frond t f).upAlive = (frond s f).upAlive :=
  congrArg (fun r => r.2.2.2.2.1) (h.held f)

theorem heldReport_reportTaken {x y : CFrond} (h : heldReport x = heldReport y) (d : List Byte) :
    heldReport (reportTaken d x) = heldReport (reportTaken d y) := by
  simp only [heldReport, Prod.mk.injEq] at h
  obtain ⟨_, _, _, _, alive, copies⟩ := h
  simp only [heldReport, reportTaken, toldReport, alive, copies]

theorem heldReport_useU0 (f : Nat) (d : List Byte) (stamp : Nat) (s : State) :
    heldReport (frond (useU0 f d stamp s) f) = heldReport (reportTaken d (frond s f)) := by
  unfold useU0
  extract_lets x old m fl noCfg rejoin rep finished taken told ctlMiss cleared outs clears collected
  have finishes : SameReports s finished := .ite (sameReports_tryFinish true s) (.refl s)
  have rest : SameReports told (tryFinish false collected) :=
    (sameReports_reportOuts ..).trans ((sameReports_reportClears ..).trans ((sameReports_collectU0 ..).trans (sameReports_tryFinish ..)))
  rw [rest.held f, (sameReports_useEpochCtl f d stamp taken).held f, frond_modFrond_same, frond_modFrond_same]
  simp only [heldReport, reportTaken, finishes.copies f, finishes.upAlive f]
  rfl

end Sys2Proof.Machine
end

section
/-! SUPPORT. Uplink frames at the core: rejected frames, the first checked copies of U0 and of U1 to U4, NODL, and a link that comes
up again. -/

namespace Sys2Proof.Machine

/-! ## One link of a frond -/

theorem frond_modLink (f : Nat) (linkB : Bool) (g : LinkSt → LinkSt) (s : State) : frond (modLink f linkB g s) f =
    if linkB then { frond s f with b := g (frond s f).b } else { frond s f with a := g (frond s f).a } :=
  frond_modFrond_same ..

theorem frond_modLink_other {f j : Nat} (h : j ≠ f) (linkB : Bool) (g : LinkSt → LinkSt) (s : State) :
    frond (modLink f linkB g s) j = frond s j := frond_modFrond_other h ..

/-- What a link's change leaves of the frond. -/
theorem rep_modLink (f : Nat) (linkB : Bool) (g : LinkSt → LinkSt) (s : State) :
    (frond (modLink f linkB g s) f).rep = (frond s f).rep := by
  rw [frond_modLink]
  cases linkB <;> rfl

theorem sameReports_modLink (f : Nat) (linkB : Bool) (g : LinkSt → LinkSt) (s : State) : SameReports s (modLink f linkB g s) :=
  sameReports_modFrond (fun _ => by cases linkB <;> rfl) s

theorem linkOf_modLink_other (f : Nat) (linkB : Bool) (g : LinkSt → LinkSt) (s : State) :
    linkOf (!linkB) (frond (modLink f linkB g s) f) = linkOf (!linkB) (frond s f) := by
  rw [frond_modLink]
  cases linkB <;> rfl

theorem slowRings_nil (s : State) : slowRings [] s = s := rfl

/-! ## Complete superframes (R348) -/

/-- A frame of the window is missing yet. -/
theorem tryComplete_waits {f j : Nat} {s : State} (hj : j < 5) (missing : (frond s f).copies.any (fun e => e.1 == j) = false) :
    tryComplete f s = s := by
  have incomplete : (List.range 5).all (fun k => (frond s f).copies.any (fun e => e.1 == k)) = false := by
    rw [List.all_eq_false]
    exact ⟨j, List.mem_range.mpr hj, by simp [missing]⟩
  exact if_neg (by simp [incomplete])

theorem any_tput_other {α : Type} {k j : Nat} (h : j ≠ k) (v : α) : ∀ t : Tab α,
    (tput t k v).any (fun e => e.1 == j) = t.any (fun e => e.1 == j)
  | [] => by simp [tput, h.symm]
  | (i, w) :: r => by
    unfold tput
    split
    · simp [h.symm]
    · split
      · next here => simp [← here]
      · simp [any_tput_other h v r]

theorem find_tmap_tput {α : Type} (g : Nat → α → α) (k : Nat) (v : α) (t : Tab α) :
    (tmap (tput t k v) g).find? (fun e => e.1 == k) = some (k, g k v) := by
  rw [tmap, List.find?_map]
  exact congrArg (Option.map _) (find_tput_same k v t)

/-! ## The first checked copy (R333, R334, R346, R347) -/

/-- A link has delivered a frame of a kind in the window. -/
def kindSeen (k : Nat) (l : LinkSt) : LinkSt := { l with kinds := if l.kinds.contains k then l.kinds else k :: l.kinds }

/-- The core's record of a frond with a first copy, and its ALIVE value. -/
def copyTaken (fr : Frame) (k : Nat) (a : Byte) (d : List Byte) (x : CFrond) : CFrond :=
  { x with upAlive := some a, copies := tput x.copies k ⟨fr.linkB, fr.stamp, a, d, []⟩ }

/-- The module with the first copy of a frame. -/
def withCopy (f : Nat) (fr : Frame) (k : Nat) (a : Byte) (d : List Byte) (s : State) : State :=
  modFrond f (copyTaken fr k a d) (modLink f fr.linkB (kindSeen k) s)

section
variable {f k j : Nat} {fr : Frame} {a : Byte} {d : List Byte} {lenOk : Nat → Bool} {s : State}

theorem rxUp_first (ok : frameOk fr (BitVec.ofNat 8 k) lenOk = some (a, d)) (first : (frond s f).copies.any (fun e => e.1 == k) = false)
    (new : (frond s f).upAlive ≠ some a) (use : List Byte → State → State) :
    rxUp f fr k lenOk use s = use d (withCopy f fr k a d s) := by
  have same := sameReports_modLink f fr.linkB (kindSeen k) s
  have unseen : (frond (modLink f fr.linkB (kindSeen k) s) f).copies.find? (fun e => e.1 == k) = none := by
    rw [same.copies f]
    simpa using first
  unfold rxUp
  rw [ok]
  dsimp only
  split
  · next found => cases found.symm.trans unseen
  · exact if_neg ((same.upAlive f).symm ▸ new)

theorem frond_withCopy_other {g : Nat} (h : g ≠ f) : frond (withCopy f fr k a d s) g = frond s g :=
  (frond_modFrond_other h ..).trans (frond_modLink_other h ..)

/-- A copy of one kind is no copy of another. -/
theorem withCopy_misses (h : j ≠ k) : (frond (withCopy f fr k a d s) f).copies.any (fun e => e.1 == j) =
    (frond s f).copies.any (fun e => e.1 == j) := by
  rw [withCopy, frond_modFrond_same, ← (sameReports_modLink f fr.linkB (kindSeen k) s).copies f]
  exact any_tput_other h _ _

theorem heldReport_copyTaken {x y : CFrond} (h : heldReport x = heldReport y) :
    heldReport (copyTaken fr k a d x) = heldReport (copyTaken fr k a d y) := by
  simp only [heldReport, Prod.mk.injEq] at h
  obtain ⟨rep, epoch, seen, got, _, copies⟩ := h
  simp only [heldReport, copyTaken, rep, epoch, seen, got, copies]

theorem heldReport_withCopy : heldReport (frond (withCopy f fr k a d s) f) = heldReport (copyTaken fr k a d (frond s f)) := by
  rw [withCopy, frond_modFrond_same, frond_modLink]
  cases fr.linkB <;> rfl

end

/-! ## U0 (R333, R349, R351, R353) -/

theorem sameReports_measure (f : Nat) (linkB : Bool) (stamp echo : Nat) (s : State) :
    SameReports s (measure f linkB stamp echo s).1 := by
  unfold measure
  split
  · exact .refl s
  · dsimp only
    split
    · exact .refl s
    · dsimp only
      exact sameReports_modLink ..

theorem sameReports_takeOffset (f : Nat) (o : Option Int) (s : State) : SameReports s (takeOffset f o s) := by
  unfold takeOffset
  split
  · exact .refl s
  · exact sameReports_modFrond (by exact fun _ => rfl) s

/-- A link that has gone down. -/
def linkLost (l : LinkSt) : LinkSt := { l with up := false, down := true, run := 0, nodl := true }

theorem frond_linkDown (f : Nat) (linkB : Bool) (t : TickNo) (s : State) (j : Nat) :
    frond (linkDown f linkB t s) j = frond (modLink f linkB linkLost s) j :=
  frond_of_only (only_raise_low (by decide) (List.Subset.refl _) (Only.refl _ _)) (by decide) j

theorem sameReports_linkDown (f : Nat) (linkB : Bool) (t : TickNo) (s : State) : SameReports s (linkDown f linkB t s) :=
  (sameReports_modLink f linkB linkLost s).trans ⟨fun j => congrArg heldReport (frond_linkDown f linkB t s j)⟩

/-- A link goes down where its NODL bit is set (R351). -/
def nodl (f : Nat) (linkB on : Bool) (s : State) : State := if on then linkDown f linkB s.tm.prev s else s

theorem sameReports_nodl (f : Nat) (linkB on : Bool) (s : State) : SameReports s (nodl f linkB on s) :=
  .ite (sameReports_linkDown ..) (.refl s)

theorem linkOf_nodl (f : Nat) (linkB : Bool) (s : State) : (linkOf linkB (frond (nodl f linkB true s) f)).up = false := by
  rw [nodl, if_pos rfl, frond_linkDown, linkOf_modLink]
  rfl

theorem linkOf_nodl_other (f : Nat) (linkB on : Bool) (s : State) :
    linkOf (!linkB) (frond (nodl f linkB on s) f) = linkOf (!linkB) (frond s f) := by
  unfold nodl
  split
  · rw [frond_linkDown, linkOf_modLink_other]
  · rfl

section
variable {f : Nat} {fr : Frame} {s : State}

theorem receiveU0_rejects (bad : frameOk fr 0x00 (fun n => n == 34) = none) : receiveU0 f fr s = rejectFrame f fr.linkB s.tm.prev s := by
  unfold receiveU0
  rw [bad]

variable {a : Byte} {d : List Byte} (ok : frameOk fr 0x00 (fun n => n == 34) = some (a, d))
  (first : (frond s f).copies.any (fun e => e.1 == 0) = false) (new : (frond s f).upAlive ≠ some a)
include ok first new

/-- The first checked U0 is measured, used and then asked for its NODL bits. -/
theorem receiveU0_first : ∃ u, SameReports s u ∧ receiveU0 f fr s = nodl f true ((getLE d 27 1).testBit 1)
    (nodl f false ((getLE d 27 1).testBit 0) (useU0 f d fr.stamp (withCopy f fr 0 a d u))) := by
  have same := (sameReports_measure f fr.linkB fr.stamp (if fr.linkB then getLE d 7 3 else getLE d 4 3) s).trans
    (sameReports_takeOffset f (measure f fr.linkB fr.stamp (if fr.linkB then getLE d 7 3 else getLE d 4 3) s).2 _)
  refine ⟨_, same, ?_⟩
  rw [← rxUp_first (k := 0) ok (by rw [same.copies f, first]) (by rw [same.upAlive f]; exact new) (fun d s => useU0 f d fr.stamp s)]
  unfold receiveU0
  rw [ok]
  rfl

/-- What the first checked U0 leaves in the core. -/
theorem receiveU0_reports :
    heldReport (frond (receiveU0 f fr s) f) = heldReport (reportTaken d (copyTaken fr 0 a d (frond s f))) ∧
      ((getLE d 27 1).testBit 0 = true → (frond (receiveU0 f fr s) f).a.up = false) ∧
      ((getLE d 27 1).testBit 1 = true → (frond (receiveU0 f fr s) f).b.up = false) := by
  obtain ⟨u, same, received⟩ := receiveU0_first ok first new
  rw [received]
  refine ⟨?_, fun onA => ?_, fun onB => ?_⟩
  · rw [(sameReports_nodl ..).held f, (sameReports_nodl ..).held f, heldReport_useU0]
    exact heldReport_reportTaken (heldReport_withCopy.trans (heldReport_copyTaken (same.held f))) d
  · rw [onA]
    exact (congrArg LinkSt.up (linkOf_nodl_other f true ..)).trans (linkOf_nodl f false _)
  · rw [onB]
    exact linkOf_nodl f true _

end

theorem exec_u0 {f : Nat} {fr : Frame} {s : State} (run : running s = true) :
    exec (.u0 f fr) s = .next (inOneCycle (fun s => tryComplete f (receiveU0 f fr s)) s) := by
  show execU0 f fr s = _
  unfold execU0
  rw [run, slowRings_nil]
  rfl

/-- A cycle's work on a frame is all where the superframe stays incomplete. -/
theorem inOneCycle_incomplete {f j : Nat} {g : State → State} {s : State} (hj : j < 5)
    (missing : (frond (g (aged s)) f).copies.any (fun e => e.1 == j) = false) :
    inOneCycle (fun s => tryComplete f (g s)) s = inOneCycle g s := by
  rw [inOneCycle_eq, inOneCycle_eq, tryComplete_waits hj missing]

/-! ## Rejected frames (R333) -/

theorem linkOf_rej (linkB : Bool) (x : CFrond) : (linkOf linkB x).rej = if linkB then x.b.rej else x.a.rej := by
  cases linkB <;> rfl

theorem frond_rejectFrame {s : State} (run : running s = true) (f : Nat) (linkB : Bool) (t : TickNo) :
    frond (rejectFrame f linkB t s) f = frond (rejected f linkB s) f := by
  rw [rejectFrame_running run]
  split
  · exact frond_of_only (only_linkErr f linkB t _) (by decide) f
  · rfl

/-- A rejected frame leaves the frond's report and its memory of frames. -/
theorem rejectFrame_keeps {s : State} (run : running s = true) (f : Nat) (linkB : Bool) (t : TickNo) :
    (frond (rejectFrame f linkB t s) f).rep = (frond s f).rep ∧ (frond (rejectFrame f linkB t s) f).epoch = (frond s f).epoch ∧
      (frond (rejectFrame f linkB t s) f).copies = (frond s f).copies := by
  rw [frond_rejectFrame run, rejected, frond_modLink]
  cases linkB <;> exact ⟨rfl, rfl, rfl⟩

section
variable {f j : Nat} {fr : Frame} {s : State} (run : running s = true) (hj : j < 5)
  (missing : (frond s f).copies.any (fun e => e.1 == j) = false)
include run hj missing

theorem u0_rejected (bad : frameOk fr 0x00 (fun n => n == 34) = none) : ∃ t, exec (.u0 f fr) s = .next t ∧
    Only [.outbox, .queues, .faults, .fronds] s t ∧ (frond t f).rep = (frond s f).rep ∧ (frond t f).epoch = (frond s f).epoch ∧
    (linkOf fr.linkB (frond t f)).rej = satAdd 255 (linkOf fr.linkB (frond s f)).rej 1 := by
  have received := receiveU0_rejects (f := f) (s := aged s) bad
  obtain ⟨rep, epoch, copies⟩ := rejectFrame_keeps (s := aged s) run f fr.linkB s.tm.prev
  obtain ⟨only, rej, _⟩ := rejectFrame_counts (s := aged s) run f fr.linkB s.tm.prev
  have after := frond_of_only (only_ordered (receiveU0 f fr) s) (by decide) f
  refine ⟨inOneCycle (receiveU0 f fr) s, ?_, ?_, ?_⟩
  · rw [exec_u0 run, inOneCycle_incomplete hj]
    rw [received]
    exact copies ▸ missing
  · have before := (only_aged s).mono (qs := [.outbox, .queues, .faults, .fronds]) (by decide)
    exact before.trans ((received ▸ only).trans ((only_ordered (receiveU0 f fr) s).mono (by decide)))
  · rw [after, received]
    exact ⟨rep, epoch, rej⟩

theorem u0_used {a : Byte} {d : List Byte} (later : j ≠ 0) (ok : frameOk fr 0x00 (fun n => n == 34) = some (a, d))
    (first : (frond s f).copies.any (fun e => e.1 == 0) = false) (new : (frond s f).upAlive ≠ some a) :
    ∃ t, exec (.u0 f fr) s = .next t ∧ Only (touches (.u0 f fr)) s t ∧
      heldReport (frond t f) = heldReport (reportTaken d (copyTaken fr 0 a d (frond s f))) ∧
      ((getLE d 27 1).testBit 0 = true → (frond t f).a.up = false) ∧ ((getLE d 27 1).testBit 1 = true → (frond t f).b.up = false) := by
  obtain ⟨report, downA, downB⟩ := receiveU0_reports (s := aged s) ok first new
  have after := frond_of_only (only_ordered (receiveU0 f fr) s) (by decide) f
  have he : exec (.u0 f fr) s = .next (inOneCycle (receiveU0 f fr) s) := by
    rw [exec_u0 run, inOneCycle_incomplete hj]
    have copies : (frond (receiveU0 f fr (aged s)) f).copies = _ := congrArg (fun r => r.2.2.2.2.2) report
    rw [copies]
    exact (any_tput_other later _ _).trans missing
  refine ⟨_, he, only_touches he (List.mem_of_elem_eq_true rfl), ?_⟩
  rw [after]
  exact ⟨report, downA, downB⟩

end

/-! ## U1 to U4 (R333, R337, R346) -/

/-- The core's record of a frond with the sample flags of its copy of kind k. -/
def flagged (k : Nat) (flags : List Nat) (x : CFrond) : CFrond :=
  { x with copies := tmap x.copies (fun j c => if j = k then { c with flags := flags } else c) }

theorem blocksParse_congr {s t : State} {f : Nat} (same : frond t f = frond s f) (cfg : t.cfg = s.cfg) : ∀ (n p : Nat) (b : List Byte),
    blocksParse t f p n b = blocksParse s f p n b
  | 0, _, _ => rfl
  | n + 1, p, b => by
    have data : dataCfg t f = dataCfg s f := by rw [dataCfg, same, cfg, dataCfg]
    have convs : dataConvs t f = dataConvs s f := by rw [dataConvs, data, dataConvs]
    have count : sampleCount t f p = sampleCount s f p := by rw [sampleCount, dataK, same, data, convs, sampleCount, dataK]
    have fh : dataFh t f = dataFh s f := by rw [dataFh, data, dataFh]
    rw [blocksParse, blocksParse, fh, count]
    simp only [blocksParse_congr same cfg n]

theorem lenFits_congr {s t : State} {f : Nat} (same : frond t f = frond s f) (cfg : t.cfg = s.cfg) (q : Nat) (pay : List Byte) :
    lenFits t f q pay = lenFits s f q pay := by
  rw [lenFits, lenFits, blocksParse_congr same cfg]

/-- A frame between its two bytes of header and its CRC. -/
def payloadOf (fr : Frame) : List Byte := (fr.bytes.drop 2).take (fr.bytes.length - 4)

section
variable {f j k : Nat} {fr : Frame} {s : State} {a : Byte} {d : List Byte} (hj : j < 5) (other : j ≠ k)
  (missing : (frond s f).copies.any (fun e => e.1 == j) = false)
  (ok : frameOk fr (BitVec.ofNat 8 k) (fun _ => lenFits s f (k - 1) (payloadOf fr)) = some (a, d))
  (first : (frond s f).copies.any (fun e => e.1 == k) = false) (new : (frond s f).upAlive ≠ some a)
include hj other missing ok first new

/-- The first checked copy of a data frame is held with its flags. -/
theorem takeUplink_first (flags : List Nat) : takeUplink f k fr flags s = modFrond f (flagged k flags) (withCopy f fr k a d s) := by
  unfold takeUplink
  extract_lets pay had taken mine flaggedUp
  have copied : taken = withCopy f fr k a d s := rxUp_first ok first new _
  have marked : flaggedUp = modFrond f (flagged k flags) (withCopy f fr k a d s) := by
    rw [← copied]
    exact if_neg (by simp [had, first])
  rw [marked]
  refine tryComplete_waits hj ?_
  rw [frond_modFrond_same, flagged, any_tmap_key, withCopy_misses other, missing]

end

theorem exec_uplinkFrame {f k : Nat} {fr : Frame} {flags : List Nat} {s : State} (run : running s = true) (low : 1 ≤ k) (high : k ≤ 4) :
    exec (.uplinkFrame f k fr flags) s = .next (inOneCycle (takeUplink f k fr flags) s) := by
  show execUplinkFrame f k fr flags s = _
  unfold execUplinkFrame
  rw [if_neg (by simp [run]; omega), slowRings_nil]

theorem only_withFlags (f k : Nat) (fr : Frame) (a : Byte) (d : List Byte) (flags : List Nat) (s : State) :
    Only [.fronds] s (modFrond f (flagged k flags) (withCopy f fr k a d s)) :=
  only_modFrond f _ (List.Subset.refl _) (only_modFrond f _ (List.Subset.refl _) (only_modLink f _ _ (List.Subset.refl _) (Only.refl _ s)))

/-- What the core's record of the frond is then. -/
theorem frond_withFlags (f k : Nat) (fr : Frame) (a : Byte) (d : List Byte) (flags : List Nat) (s : State) :
    ∃ x, frond (modFrond f (flagged k flags) (withCopy f fr k a d s)) f = x ∧ x.upAlive = some a ∧ x.rep = (frond s f).rep ∧
      x.copies.find? (fun e => e.1 == k) = some (k, ⟨fr.linkB, fr.stamp, a, d, flags⟩) := by
  refine ⟨_, rfl, ?_⟩
  rw [frond_modFrond_same, withCopy, frond_modFrond_same]
  refine ⟨rfl, rep_modLink .., ?_⟩
  simp [flagged, copyTaken, find_tmap_tput]

section
variable {f j k : Nat} {fr : Frame} {s : State} {a : Byte} {d : List Byte} (run : running s = true) (low : 1 ≤ k) (high : k ≤ 4)
  (hj : j < 5) (other : j ≠ k) (missing : (frond s f).copies.any (fun e => e.1 == j) = false)
  (ok : frameOk fr (BitVec.ofNat 8 k) (fun _ => lenFits s f (k - 1) (payloadOf fr)) = some (a, d))
  (first : (frond s f).copies.any (fun e => e.1 == k) = false) (new : (frond s f).upAlive ≠ some a)
include run low high hj other missing ok first new

theorem uplinkFrame_held (flags : List Nat) : ∃ t, exec (.uplinkFrame f k fr flags) s = .next t ∧ Only [.queues, .fronds] s t ∧
    (∀ q, (queue t q).pkts.map (fun p => p.cells) = (queue s q).pkts.map (fun p => p.cells)) ∧
    (∀ g, g ≠ f → frond t g = frond s g) ∧ (frond t f).upAlive = some a ∧ (frond t f).rep = (frond s f).rep ∧
    (frond t f).copies.find? (fun e => e.1 == k) = some (k, ⟨fr.linkB, fr.stamp, a, d, flags⟩) := by
  have okAged : frameOk fr (BitVec.ofNat 8 k) (fun _ => lenFits (aged s) f (k - 1) (payloadOf fr)) = some (a, d) := by
    simpa only [lenFits_congr (s := s) (t := aged s) rfl rfl] using ok
  have work := takeUplink_first (s := aged s) hj other missing okAged first new flags
  have only := only_withFlags f k fr a d flags (aged s)
  rw [← work] at only
  have after := frond_of_only (only_ordered (takeUplink f k fr flags) s) (by decide)
  refine ⟨_, exec_uplinkFrame run low high, ?_, fun q => cells_inOneCycle ?_ q, fun g hg => ?_, ?_⟩
  · exact ((only_aged s).mono (by decide)).trans ((only.mono (by decide)).trans ((only_ordered _ s).mono (by decide)))
  · exact congrArg Prod.fst (only .queues (by decide))
  · rw [after, work, frond_modFrond_other hg, frond_withCopy_other hg]
    rfl
  · rw [after, work]
    obtain ⟨x, e, alive, rep, held⟩ := frond_withFlags f k fr a d flags (aged s)
    rw [e]
    exact ⟨alive, rep, held⟩

end

/-! ## A link comes up (R351) -/

/-- A link that is up again. -/
def linkBack (l : LinkSt) : LinkSt := { l with up := true, down := false }

theorem exec_linkUp {f : Nat} {linkB : Bool} {s : State} (run : running s = true) (down : (linkOf linkB (frond s f)).up = false)
    (clean : 4 ≤ (linkOf linkB (frond s f)).run) :
    exec (.linkUp f linkB) s = .next (clearSrc (linkSrc f linkB) 0 (modLink f linkB linkBack s)) := by
  unfold linkOf at down clean
  exact if_pos (by simp [run, down, clean])

/-- A source that is neither escalated nor on a bad line becomes inactive with its condition (R484, R487, R494). -/
theorem clearSrc_inactive {id sub : Nat} {s : State} {c : Src} (good : lineBad s id sub = false)
    (active : s.srcs.find? (fun e => e.1 == srcKey id sub) = some (srcKey id sub, c)) (plain : c.esc = false) :
    srcActive (clearSrc id sub s) id sub = false := by
  have dropped : clearSrc id sub s = dropSrc id sub s := by
    unfold clearSrc
    rw [active]
    simp [good, plain]
  rw [dropped]
  exact dropSrc_inactive id sub s

theorem linkUp_comesUp {f : Nat} {linkB : Bool} {s : State} (run : running s = true) (down : (linkOf linkB (frond s f)).up = false)
    (clean : 4 ≤ (linkOf linkB (frond s f)).run) : ∃ t, exec (.linkUp f linkB) s = .next t ∧ Only [.queues, .faults, .fronds] s t ∧
      linkOf linkB (frond t f) = { linkOf linkB (frond s f) with up := true, down := false } ∧
      ∀ c, lineBad s (linkSrc f linkB) 0 = false →
        s.srcs.find? (fun e => e.1 == srcKey (linkSrc f linkB) 0) = some (srcKey (linkSrc f linkB) 0, c) →
        c.esc = false → srcActive t (linkSrc f linkB) 0 = false := by
  have he := exec_linkUp run down clean
  obtain ⟨t, ht, only⟩ := only_execLinkUp s f linkB
  obtain rfl := Host.Outcome.next.inj (ht.symm.trans he)
  refine ⟨_, he, only, ?_, fun c good active plain => clearSrc_inactive ((lineBad_modLink ..).trans good) active plain⟩
  rw [frond_of_only (only_clearSrc _ _ (List.Subset.refl _) (Only.refl _ _)) (by decide), linkOf_modLink]
  rfl

/-- Settles O57: a frame in an incomplete window is rejected, used or held, by one lemma for each; what the collector, the commits and the
clears do with a U0 leaves its report. -/
theorem uplinkFramesAreUsedOnce : Obligations.UplinkFramesAreUsedOnce := by
  unfold Obligations.UplinkFramesAreUsedOnce
  rintro f j fr x s run rfl hj missing
  refine ⟨fun bad => ?_, ?_, ?_, ?_⟩
  · simpa only [linkOf_rej] using u0_rejected run hj missing bad
  · rintro a d fl later ok first new rfl
    obtain ⟨t, he, only, report, downA, downB⟩ := u0_used run hj missing later ok first new
    simp only [heldReport, reportTaken, toldReport, copyTaken, Prod.mk.injEq, Report.mk.injEq] at report
    obtain ⟨⟨fsup, temp, vref, safe, shutdown, wdExp, refRdy, _, _, _, _, noCfg⟩, epoch, seen, got, alive, _⟩ := report
    refine ⟨t, _, he, only, rfl, got, seen, alive, ?_, temp, vref, noCfg, epoch, downA, downB⟩
    rw [fsup, safe, shutdown, wdExp, refRdy]
  · intro k a d flags low high other ok first new
    exact uplinkFrame_held run low high hj other missing ok first new flags
  · rintro linkB l rfl down clean
    exact linkUp_comesUp run down clean

end Sys2Proof.Machine
end

section
/-! SUPPORT. Writes to the registers of the check-value units (R397, R399 to R401). -/

namespace Sys2Proof.Machine

/-- The registers of a unit that a write acts on are no 64-bit, paired or staged ones. -/
theorem regWrite_cvu {u : Nat} (hu : u < 4) {o : Nat} (ho : o ∈ [0, 4, 8, 12, 16]) (p : Path) (v : Word) (s : State) :
    regWrite p (cvuOfs u o) v s = cvuWrite u o v s := by
  have place : ∀ u < 4, ∀ o ∈ [0, 4, 8, 12, 16], is64W (cvuOfs u o) = false ∧ is64W (cvuOfs u o - 4) = false ∧
      isRwp (cvuOfs u o) = false ∧ (complOf (cvuOfs u o)).isSome = false ∧ rwsMask (cvuOfs u o) = 0 ∧ 0x9000 ≤ cvuOfs u o ∧
      cvuOfs u o < 0x9080 ∧ (cvuOfs u o - 0x9000) / 32 = u ∧ cvuOfs u o % 32 = o := by decide
  obtain ⟨low, high, value, complement, staged, first, last, unit, register⟩ := place u hu o ho
  unfold regWrite
  dsimp only
  rw [low, high, value, complement, staged, unit, register]
  simp only [Bool.false_eq_true, and_false, if_false, ne_eq, not_true_eq_false]
  iterate 9 rw [if_neg (by omega)]
  exact if_pos ⟨first, last⟩

/-- The command writes a register of a unit. -/
theorem busWrite_cvu {p : Path} {s : State} (opened : writeOpen p s 0x9000 = true) {u : Nat} (hu : u < 4) {o : Nat}
    (ho : o ∈ [0, 4, 8, 12, 16]) (v : Word) : busWrite p (cvuOfs u o) v s = cvuWrite u o v s := by
  have here : writeOpen p s (cvuOfs u o) = true := by
    rw [writeOpen_run (by unfold cvuOfs; omega), ← writeOpen_run (ofs := 0x9000) (by decide), opened]
  rw [busWrite_open here, regWrite_cvu hu ho]

/-- A unit takes a change, or refuses it while a CVU_RUN owns it, and everything else stays as it is (R400). -/
theorem cvuMod_spec (u : Nat) (g : Cvu → Cvu) (s : State) : Only [.cvu] s (cvuMod u g s) ∧
    (∀ w, w ≠ u → cvu (cvuMod u g s) w = cvu s w) ∧
    cvu (cvuMod u g s) u = if (cvu s u).owned then { cvu s u with refused := true } else g (cvu s u) :=
  ⟨only_cvuMod u g (List.Subset.refl _) (Only.refl _ s), fun _ hw => cvu_modCvu_other hw _ s, cvu_modCvu_same u _ s⟩

/-! ## What each register does with the word -/

/-- A unit with an algorithm written to its CTL register (R399, R401). -/
def cvuCtl (alg : Nat) (x : Cvu) : Cvu := if alg < 5 then cvuLoad alg x else { x with refused := true }

theorem cvuWrite_ctl {u : Nat} {v : Word} {alg : Nat} (h : fld v 0 3 = alg) (s : State) : cvuWrite u 0 v s = cvuMod u (cvuCtl alg) s := by
  have same : (fun x : Cvu => if fld v 0 3 ≥ 5 then { x with refused := true } else cvuLoad (fld v 0 3) x) = cvuCtl alg := by
    funext x
    unfold cvuCtl
    rw [h]
    by_cases low : alg < 5
    · rw [if_pos low, if_neg (by omega)]
    · rw [if_neg low, if_pos (by omega)]
  rw [← same]
  rfl

/-- ALG stands in the low bits of the word, with INIT above it. -/
theorem fld_ctl (alg : Nat) : fld (wordOf [(0, alg % 8)]) 0 3 = alg % 8 ∧ fld (wordOf [(0, alg % 8), (4, 1)]) 0 3 = alg % 8 := by
  simp [fld, wordOf]
  omega

/-- The bytes of a word, least significant first (R397). -/
theorem le_word (v : Word) : le 1 v.toNat = [v.setWidth 8] ∧ le 2 v.toNat = [v.setWidth 8, (v >>> 8).setWidth 8] ∧
    le 4 v.toNat = [v.setWidth 8, (v >>> 8).setWidth 8, (v >>> 16).setWidth 8, (v >>> 24).setWidth 8] := by
  have byte (k : Nat) : BitVec.ofNat 8 (v.toNat / 2 ^ k) = (v >>> k).setWidth 8 := by
    apply BitVec.eq_of_toNat_eq
    simp [Nat.shiftRight_eq_div_pow]
  simp [le, Nat.div_div_eq_div_mul, ← byte]

/-- Settles O16: each command is one change of its unit (`cvuMod_spec`). -/
theorem checkUnitsFollowTheirTable : Obligations.CheckUnitsFollowTheirTable := by
  unfold Obligations.CheckUnitsFollowTheirTable
  intro p u alg v s hu opened c x listed
  have unit (o : Nat) (ho : o ∈ [0, 4, 8, 12, 16]) (w : Word) (g : Cvu → Cvu) (acts : cvuWrite u o w s = cvuMod u g s)
      (runs : exec c s = .next (busWrite p (cvuOfs u o) w s)) : ∃ t, exec c s = .next t ∧ Only [.cvu] s t ∧
        (∀ i, i ≠ u → cvu t i = cvu s i) ∧ cvu t u = if (cvu s u).owned then { cvu s u with refused := true } else g (cvu s u) := by
    rw [busWrite_cvu opened hu ho, acts] at runs
    exact ⟨_, runs, cvuMod_spec u g s⟩
  obtain ⟨ctl, init⟩ := fld_ctl alg
  obtain ⟨one, two, four⟩ := le_word v
  simp only [List.mem_cons, Prod.mk.injEq, List.not_mem_nil, or_false] at listed
  obtain ⟨rfl, rfl⟩ | ⟨rfl, rfl⟩ | ⟨rfl, rfl⟩ | ⟨rfl, rfl⟩ | ⟨rfl, rfl⟩ | ⟨rfl, rfl⟩ := listed
  · exact unit 0 (by decide) _ _ (cvuWrite_ctl ctl s) rfl
  · exact unit 0 (by decide) _ _ (cvuWrite_ctl init s) rfl
  · exact one ▸ unit 4 (by decide) v (cvuFeed (le 1 v.toNat)) rfl rfl
  · exact two ▸ unit 8 (by decide) v (cvuFeed (le 2 v.toNat)) rfl rfl
  · exact four ▸ unit 12 (by decide) v (cvuFeed (le 4 v.toNat)) rfl rfl
  · exact unit 16 (by decide) v _ rfl rfl

end Sys2Proof.Machine
end

section
/-! SUPPORT. Delivery of a record to its ring, and the end of a ring's hold-off (R391, R392, R411, R414, R417). -/

namespace Sys2Proof.Machine

/-! ## The bytes of a record (Table 12-15) -/

theorem length_setNth {α : Type} (l : List α) (i : Nat) (v : α) : (setNth l i v).length = l.length :=
  List.length_set

theorem length_masked (m : List (Nat × Byte)) (b : List Byte) : (masked m b).length = b.length := by
  unfold masked
  induction m generalizing b with
  | nil => rfl
  | cons e m ih =>
    rw [List.foldl_cons, ih]
    split
    · exact length_setNth ..
    · rfl

theorem length_cellBytes (c : Cell) : (cellBytes c).length = 64 := by
  simp [cellBytes]

theorem length_recordBytes (q : Nat) (alive : Byte) (c : Cell) (bad : Bad) : (recordBytes q alive c bad).length = 64 := by
  have body : (recordBody q alive c bad).length = 60 := by
    unfold recordBody
    dsimp only
    split <;> simp [length_setNth, length_masked, length_cellBytes]
  rw [recordBytes, length_withCrc, body]

/-! ## An entry of a ring -/

/-- An entry counts against the ring's moderation alone (R417). -/
theorem ring_moderate_same (r : Nat) (s : State) : ∃ n, ring (moderate r s) r = { ring s r with unsig := n } := by
  unfold moderate
  dsimp only
  split
  · exact ⟨0, by rw [ring_congr (rings_msi _ _), ring_modRing_same]⟩
  · exact ⟨_, ring_modRing_same ..⟩

/-- Writing an entry moves P on by one. -/
theorem ring_ringWrite_same (r : Nat) (b : List Byte) (s : State) :
    ∃ n, ring (ringWrite r b s) r = { ring s r with p := (ring s r).p + 1, unsig := n } := by
  unfold ringWrite
  dsimp only
  obtain ⟨n, h⟩ := ring_moderate_same r (writeStatus (modRing r (fun x => { x with p := x.p + 1 })
    (outp (.hostWrite ((ring s r).base + BitVec.ofNat 64 ((ring s r).p.toNat % ringSize (ring s r) * b.length)) b) s)))
  rw [ring_congr (rings_writeStatus _), ring_modRing_same] at h
  exact ⟨n, h⟩

/-- A record goes to entry P of its ring under the next alive value, and the other rings stay as they are (R391, R392, R411). -/
theorem deliverRing_spec (r q : Nat) (c : Cell) (bad : Bad) (s : State) :
    (∃ l, (deliverRing r q c bad s).outbox = l ++
      Output.hostWrite ((ring s r).base + BitVec.ofNat 64 ((ring s r).p.toNat % 2 ^ (ring s r).log2 * 64))
        (recordBytes q ((ring s r).alive + 1) c bad) :: s.outbox) ∧
    (ring (deliverRing r q c bad s) r).p = (ring s r).p + 1 ∧ (ring (deliverRing r q c bad s) r).alive = (ring s r).alive + 1 ∧
    ∀ j, j ≠ r → ring (deliverRing r q c bad s) j = ring s j := by
  unfold deliverRing
  dsimp only
  have sealing := ring_modRing_same r (fun x => { x with alive := (ring s r).alive + 1 }) s
  obtain ⟨n, own⟩ := ring_ringWrite_same r (recordBytes q ((ring s r).alive + 1) c bad)
    (modRing r (fun x => { x with alive := (ring s r).alive + 1 }) s)
  have written := outbox_ringWrite r (recordBytes q ((ring s r).alive + 1) c bad)
    (modRing r (fun x => { x with alive := (ring s r).alive + 1 }) s)
  rw [sealing, length_recordBytes] at written
  rw [own, sealing]
  exact ⟨written, rfl, rfl, fun j hj => (ring_ringWrite_other hj _ _).trans (ring_modRing_other hj _ _)⟩

/-! ## RECORD_DELIVERY -/

/-- A cell that leaves without a poison mark raises no fault. -/
theorem only_cellGone_sound (q : Nat) (x : Queue) (s : State) : Only [.queues] s (cellGone q x false s) :=
  only_settle q (List.Subset.refl _) (only_setQueues s _)

/-- A cell that leaves with one raises QUEUE_POISON (R384). -/
theorem cellGone_active (q : Nat) (x : Queue) {s : State} (line : lineBad s 0x28 0 = false) :
    srcActive (cellGone q x true s) 0x28 0 = true := by
  unfold cellGone
  dsimp only
  rw [if_pos rfl]
  exact noteEvent_active ((lineBad_of_only (only_settle (ps := [.queues]) q (List.Subset.refl _) (only_setQueues s _)) (by decide)
    _ _).trans line) _

theorem only_deliverRing_self (r q : Nat) (c : Cell) (bad : Bad) (s : State) : Only [.outbox, .rings] s (deliverRing r q c bad s) :=
  only_deliverRing r q c bad (List.Subset.refl _) (Only.refl _ s)

/-- Nothing is forwarded in hosted mode, and nothing drains without a HALT. -/
theorem exec_recordDelivery {q r : Nat} {c : Cell} {x : Queue} {bad : Bad} {s : State} (phase : s.phase = .running)
    (hosted : s.auto = false) (front : nextCell s q (queue s q) = some (c, x))
    (drains : ringFor s q = some r) (room : ringRoom s r = true) :
    exec (.recordDelivery q bad) s = .next (deliverRing r q c bad (cellGone q x (poisoned c bad) s)) := by
  have frame : Only [.outbox, .queues, .rings, .faults] s (deliverRing r q c bad (cellGone q x (poisoned c bad) s)) :=
    only_deliverRing r q c bad (by decide) (only_cellGone q x _ (by decide) (Only.refl _ s))
  have forwards : ∀ t : State, t.auto = s.auto → eventForward c bad t = t := fun t same => by
    rw [eventForward, same, hosted, if_pos (by decide)]
  have drained : ∀ t : State, t.phase = s.phase → drainCheck t = t := fun t same => by
    rw [drainCheck, same, phase, if_neg (by simp)]
  show execRecordDelivery q bad s = _
  unfold execRecordDelivery
  rw [if_neg (by simp [running, phase]), front]
  dsimp only
  rw [drains]
  dsimp only
  rw [if_pos (by simp [room, hosted]), forwards _ (frame .auto (by decide)), ite_self, drained _ (phase_of_only frame (by decide))]

/-- What a delivered record leaves of the module, and where it stands. -/
theorem delivered_spec {q r : Nat} {c : Cell} {x : Queue} {bad : Bad} {s t : State}
    (ht : t = deliverRing r q c bad (cellGone q x (poisoned c bad) s)) :
    Only [.outbox, .queues, .rings, .faults] s t ∧ (poisoned c bad = false → Only [.outbox, .queues, .rings] s t) ∧
    (poisoned c bad = true → lineBad s 0x28 0 = false → srcActive t 0x28 0 = true) ∧
    (∃ l m, t.outbox = l ++ Output.hostWrite ((ring s r).base + BitVec.ofNat 64 ((ring s r).p.toNat % 2 ^ (ring s r).log2 * 64))
      (recordBytes q ((ring s r).alive + 1) c bad) :: (m ++ s.outbox)) ∧
    (ring t r).p = (ring s r).p + 1 ∧ (ring t r).alive = (ring s r).alive + 1 ∧ ∀ j, j ≠ r → ring t j = ring s j := by
  have gone : Only [.outbox, .queues, .faults] s (cellGone q x (poisoned c bad) s) :=
    only_cellGone q x _ (List.Subset.refl _) (Only.refl _ s)
  have rings := ring_congr (gone .rings (by decide))
  obtain ⟨m, before⟩ := (kept_cellGone q x (poisoned c bad) (Kept.refl s)).out
  have delivers := only_deliverRing_self r q c bad (cellGone q x (poisoned c bad) s)
  obtain ⟨⟨l, out⟩, index, alive, others⟩ := deliverRing_spec r q c bad (cellGone q x (poisoned c bad) s)
  rw [rings] at index alive out
  subst ht
  refine ⟨(gone.mono (by decide)).trans (delivers.mono (by decide)), fun sound => ?_, fun poison line => ?_,
    ⟨l, m, before ▸ out⟩, index, alive, fun j hj => (others j hj).trans (rings j)⟩
  · rw [sound] at delivers ⊢
    exact ((only_cellGone_sound q x s).mono (by decide)).trans (delivers.mono (by decide))
  · rw [srcActive_of_only delivers (by decide), poison]
    exact cellGone_active q x line

/-! ## HOLDOFF_EXPIRY (R417) -/

theorem exec_holdoffExpiry {r : Nat} {s : State} (run : running s = true) (low : 1 ≤ r) (high : r ≤ 18) (waiting : (ring s r).unsig ≠ 0)
    (held : (ring s r).holdoff ≠ 0) (counted : (ring s r).count ≠ 0) :
    exec (.holdoffExpiry r) s = .next (msi (r - 1) (modRing r (fun x => { x with unsig := 0 }) s)) := by
  show execHoldoffExpiry r s = _
  unfold execHoldoffExpiry
  exact if_pos (by simp [run, low, high, held, counted]; omega)

theorem outbox_msi (v : Nat) (s : State) :
    (msi v s).outbox = if s.bme && s.msix.testBit v && !s.auto then .msix v :: s.outbox else s.outbox := by
  unfold msi
  split
  · rfl
  · split <;> rfl

/-- Settles O19: a delivery is `deliverRing` after `cellGone`, the end of a hold-off one message. -/
theorem recordsEnterTheirRing : Obligations.RecordsEnterTheirRing := by
  unfold Obligations.RecordsEnterTheirRing
  refine ⟨fun q r c x bad s phase hosted front drains room => ?_, fun r s run low high waiting held counted => ?_⟩
  · exact ⟨_, exec_recordDelivery phase hosted front drains room, delivered_spec rfl⟩
  · refine ⟨_, exec_holdoffExpiry run low high waiting held counted, ?_, ?_, fun j hj => ?_, outbox_msi ..⟩
    · exact only_msi _ (by decide) (only_modRing r _ (by decide) (Only.refl _ s))
    · rw [ring_congr (rings_msi _ _), ring_modRing_same]
    · rw [ring_congr (rings_msi _ _), ring_modRing_other hj]

end Sys2Proof.Machine
end

section
/-! SUPPORT. The stream port: packets that move into its FIFO, half-words that leave it, and the edges of its read clock (R387 to R390,
R441). -/

namespace Sys2Proof.Machine

/-! ## The port's almost-full state (R390) -/

/-- A queue but for its almost-full state towards the stream port. -/
def sansAfull (x : Queue) : Queue := { x with afull := false }

/-- The almost-full state of the port's queue is all that its evaluation changes. -/
theorem queue_lspSettle (s : State) (j : Nat) : sansAfull (queue (lspSettle s) j) = sansAfull (queue s j) := by
  unfold lspSettle
  split
  case h_1 => rfl
  case h_2 q drains =>
    change sansAfull (queue (modQueue q (fun x => { x with afull := (wmUpd s q x).afull }) s) j) = _
    by_cases here : j = q
    · rw [here, queue_modQueue_same]
      rfl
    · rw [queue_modQueue_other here]

theorem pkts_lspSettle (s : State) (j : Nat) : (queue (lspSettle s) j).pkts = (queue s j).pkts := by
  have same := congrArg Queue.pkts (queue_lspSettle s j)
  exact same

theorem only_lspSettle_self (s : State) : Only [.queues] s (lspSettle s) := only_lspSettle (List.Subset.refl _) (Only.refl _ s)

theorem lsp_lspSettle (s : State) : (lspSettle s).lsp = s.lsp := only_lspSettle_self s .lsp (by decide)

theorem only_setLsp (s : State) (l : StreamPort) : Only [.lsp] s { s with lsp := l } := by
  intro p hp
  cases p
  case lsp => exact absurd (List.mem_singleton_self _) hp
  all_goals rfl

/-! ## The read clock (R389, R390, R441) -/

/-- An edge of the read clock steps every synchroniser and evaluates the almost-full state (R389, R390). -/
theorem lspStages_spec {s t : State} (ht : t = lspStages s) : Only [.lsp, .queues] s t ∧
    (∀ q, sansAfull (queue t q) = sansAfull (queue s q)) ∧
    ∃ full, t.lsp = { s.lsp with wr1 := s.lsp.wr, wr2 := s.lsp.wr1, afull1 := full, afull2 := s.lsp.afull1, rd2 := s.lsp.rd } := by
  subst ht
  exact ⟨only_lspStages (by decide) (Only.refl _ s), queue_lspSettle _, _, lsp_lspSettle _⟩

theorem exec_lspRdclkEdge {s : State} (active : lspActive s = true) : exec .lspRdclkEdge s = .next (lspStages s) := if_pos active

/-- The half-word in front has been put out and taken from the FIFO (R389, R441). -/
def halfTaken (v : Half) (r : List (Half × Bool)) (s : State) : State :=
  outp (.half v (s.lsp.rd % 32 == 31)) { s with lsp := { s.lsp with fifo := r, rd := (s.lsp.rd + 1) % 2048 } }

theorem only_halfTaken (v : Half) (r : List (Half × Bool)) (s : State) : Only [.outbox, .lsp] s (halfTaken v r s) :=
  only_outp _ (by decide) ((only_setLsp s _).mono (by decide))

theorem exec_lspRead {s : State} {v : Half} {b : Bool} {r : List (Half × Bool)} (ready : lspReady s = true)
    (front : s.lsp.fifo = (v, b) :: r) :
    exec .lspRead s = .next (lspStages (halfTaken v r s)) := by
  have active : lspActive s = true := (Bool.and_eq_true_iff.mp ready).1
  show execLspRead s = _
  unfold execLspRead
  rw [if_neg (by simp [active]), if_pos ready, front]
  rfl

/-! ## A packet moves into the FIFO (R387, R389) -/

/-- The port with the half-words of a packet of queue q behind those in its FIFO. -/
def packetTaken (q : Nat) (p : Packet) (l : StreamPort) : StreamPort :=
  { l with fifo := l.fifo ++ (sealCells q (fun _ => none) p.cells 0 l.alive).1, wr := (l.wr + 32 * p.cells.length) % 2048,
           alive := (sealCells q (fun _ => none) p.cells 0 l.alive).2 }

/-- The packet in front of queue q has gone into the FIFO, and r is left behind it. -/
def packetMoved (q : Nat) (p : Packet) (r : List Packet) (s : State) : State :=
  settle q (modQueue q (fun x => { x with pkts := r }) { s with lsp := packetTaken q p s.lsp })

/-- The poison marks of moved cells are told of (R384). -/
def poisonTold (q : Nat) (l : List (Cell × Nat)) (s : State) : State :=
  l.foldl (fun s e => if poisoned e.1 none then cellGone q (queue s q) true s else s) s

theorem exec_lspFifoMove {q : Nat} {p : Packet} {r : List Packet} {s : State} (active : lspActive s = true) (phase : s.phase = .running)
    (port : lspQueue s = some q) (front : (queue s q).pkts = p :: r) (whole : p.spill = 0) (room : lspFill s + 32 * p.cells.length ≤ 1024) :
    exec (.lspFifoMove []) s = .next (lspSettle (poisonTold q p.cells.zipIdx (packetMoved q p r s))) := by
  show execLspFifoMove [] s = _
  unfold execLspFifoMove
  rw [port]
  dsimp only
  rw [front]
  dsimp only
  rw [if_pos (by simp [active, phase, whole, room])]
  rfl

/-- Nothing moves while cells of the packet are spilled, or without room for all of it. -/
theorem exec_lspFifoMove_waits {q : Nat} {p : Packet} {r : List Packet} {s : State} (port : lspQueue s = some q)
    (front : (queue s q).pkts = p :: r) (held : p.spill ≠ 0 ∨ 1024 < lspFill s + 32 * p.cells.length) :
    exec (.lspFifoMove []) s = .next s := by
  show execLspFifoMove [] s = _
  unfold execLspFifoMove
  rw [port]
  dsimp only
  rw [front]
  refine if_neg fun h => ?_
  simp only [Bool.and_eq_true, decide_eq_true_eq] at h
  omega

theorem only_packetMoved (q : Nat) (p : Packet) (r : List Packet) (s : State) : Only [.lsp, .queues] s (packetMoved q p r s) :=
  only_settle q (by decide) (((only_setLsp s _).mono (by decide)).trans ((only_modQueue q _ _).mono (by decide)))

theorem lsp_packetMoved (q : Nat) (p : Packet) (r : List Packet) (s : State) : (packetMoved q p r s).lsp = packetTaken q p s.lsp :=
  only_settle (ps := [.queues]) q (List.Subset.refl _) (Only.refl _ _) .lsp (by decide)

theorem pkts_packetMoved (q : Nat) (p : Packet) (r : List Packet) (s : State) :
    recordsOf (queue (packetMoved q p r s) q).pkts = recordsOf r := by
  rw [packetMoved, (sameRecords_settle q _ q).records, queue_modQueue_same]

theorem only_poisonTold (q : Nat) (l : List (Cell × Nat)) (s : State) : Only [.outbox, .queues, .faults] s (poisonTold q l s) :=
  Only.foldl (fun _ _ h => Only.ite (only_cellGone q _ true (List.Subset.refl _) h) h) l (Only.refl _ s)

/-- Cells without a mark raise nothing. -/
theorem poisonTold_sound {q : Nat} {l : List (Cell × Nat)} (sound : ∀ e ∈ l, e.1.poison = 0) (s : State) : poisonTold q l s = s := by
  induction l with
  | nil => rfl
  | cons e l ih =>
    have clean : poisoned e.1 none = false := by simp [poisoned, sound e List.mem_cons_self]
    unfold poisonTold at ih ⊢
    rw [List.foldl_cons, clean, if_neg Bool.false_ne_true]
    exact ih fun d hd => sound d (List.mem_cons_of_mem _ hd)

theorem lspFifoMove_moves {q : Nat} {p : Packet} {r : List Packet} {s : State} (active : lspActive s = true) (phase : s.phase = .running)
    (port : lspQueue s = some q) (front : (queue s q).pkts = p :: r) (whole : p.spill = 0) (room : lspFill s + 32 * p.cells.length ≤ 1024) :
    ∃ t, exec (.lspFifoMove []) s = .next t ∧ Only [.lsp, .queues, .faults, .outbox] s t ∧
      t.lsp.fifo = s.lsp.fifo ++ (sealCells q (fun _ => none) p.cells 0 s.lsp.alive).1 ∧
      t.lsp.wr = (s.lsp.wr + 32 * p.cells.length) % 2048 ∧ t.lsp.rd = s.lsp.rd ∧
      ((∀ c ∈ p.cells, c.poison = 0) → (queue t q).pkts.length = r.length ∧ Only [.lsp, .queues] s t) := by
  have moved := only_packetMoved q p r s
  have told := only_poisonTold q p.cells.zipIdx (packetMoved q p r s)
  have filled : (lspSettle (poisonTold q p.cells.zipIdx (packetMoved q p r s))).lsp = packetTaken q p s.lsp :=
    ((lsp_lspSettle _).trans (told .lsp (by decide))).trans (lsp_packetMoved ..)
  refine ⟨_, exec_lspFifoMove active phase port front whole room, ?_, congrArg StreamPort.fifo filled,
    congrArg StreamPort.wr filled, by rw [filled, packetTaken], fun sound => ?_⟩
  · exact ((moved.mono (by decide)).trans (told.mono (by decide))).trans ((only_lspSettle_self _).mono (by decide))
  · rw [poisonTold_sound fun e he => sound e.1 (List.fst_mem_of_mem_zipIdx he)]
    refine ⟨?_, moved.trans ((only_lspSettle_self _).mono (by decide))⟩
    have left := congrArg List.length (pkts_packetMoved q p r s)
    rw [pkts_lspSettle]
    simpa [recordsOf] using left

/-- Settles O20: the move is `packetMoved`, and both kinds of edge end in `lspStages`. -/
theorem streamPortIsAFifo : Obligations.StreamPortIsAFifo := by
  unfold Obligations.StreamPortIsAFifo
  refine ⟨fun q p r s => lspFifoMove_moves, fun q p r s => exec_lspFifoMove_waits, fun v b r s ready front => ?_, fun s active => ?_⟩
  · have taken := only_halfTaken v r s
    obtain ⟨edge, queues, full, port⟩ := lspStages_spec (s := halfTaken v r s) rfl
    refine ⟨_, exec_lspRead ready front, (taken.mono (by decide)).trans (edge.mono (by decide)), fun q => ?_,
      (outbox_of_only edge (by decide)).trans rfl, ?_⟩
    · exact (queues q).trans (congrArg sansAfull (queue_of_only taken (by decide) q))
    · rw [port]
      exact ⟨rfl, rfl, rfl, rfl, rfl⟩
  · obtain ⟨edge, queues, full, port⟩ := lspStages_spec (s := s) rfl
    refine ⟨_, exec_lspRdclkEdge active, edge, queues, ?_⟩
    rw [port]
    exact ⟨rfl, rfl, rfl, rfl, rfl, rfl, rfl⟩

end Sys2Proof.Machine
end

section
/-! SUPPORT. FLUSH_TAKE_EFFECT and RESERVE_STEP_BOUNDARY: the end of the waiting FLUSHes, and the reserve of a step as spilled cells move
back (R361, R362, R379, R380). -/

namespace Sys2Proof.Machine

/-! ## FLUSH_TAKE_EFFECT (R379, R380) -/

/-- No descriptor begins to wait by the completion of another. -/
theorem outOf_complete_none {i : Nat} {s : State} (h : outOf s i = none) (id status : Nat) (res : List Byte) :
    outOf (complete id status res s) i = none := by
  refine List.find?_eq_none.mpr fun o ho => List.find?_eq_none.mp h o ?_
  unfold complete at ho
  split at ho
  · exact ho
  · have kept := outs_sweepNops_subset _ _ ho
    split at kept
    · exact (List.mem_filter.mp kept).1
    · rw [outs_writeCpl] at kept
      exact (List.mem_filter.mp kept).1

/-- FLUSHes after the first report that they discarded nothing. -/
def flushesEnded (l : List Nat) (s : State) : State := l.foldl (fun s i => complete i 0 (le 4 0 ++ le 4 0) s) s

theorem only_flushesEnded (l : List Nat) (s : State) : Only [.outbox, .rings, .descs, .sessions] s (flushesEnded l s) :=
  Only.foldl (fun _ _ h => only_complete _ _ _ (List.Subset.refl _) h) l (Only.refl _ s)

theorem flushesEnded_cons (i : Nat) (l : List Nat) (s : State) :
    flushesEnded (i :: l) s = flushesEnded l (complete i 0 (le 4 0 ++ le 4 0) s) := rfl

theorem outOf_flushesEnded_none {i : Nat} {l : List Nat} {s : State} (h : outOf s i = none) : outOf (flushesEnded l s) i = none := by
  induction l generalizing s with
  | nil => exact h
  | cons j l ih =>
    rw [flushesEnded_cons]
    exact ih (outOf_complete_none h ..)

theorem outOf_flushesEnded {i : Nat} {l : List Nat} (h : i ∈ l) (s : State) : outOf (flushesEnded l s) i = none := by
  induction l generalizing s with
  | nil => cases h
  | cons j l ih =>
    rw [flushesEnded_cons]
    rcases List.mem_cons.mp h with rfl | later
    · exact outOf_flushesEnded_none (outOf_complete ..)
    · exact ih later _

theorem exec_flushTakeEffect {q : Nat} {s : State} (run : running s = true) (idle : (queue s q).cur = none) :
    exec (.flushTakeEffect q) s = .next (flushNow q s) := if_pos (by simp [run, idle])

/-- What the waiting FLUSHes of queue q come to: it is empty, the others keep their records, and none of them waits any more. -/
theorem flushNow_spec {q id : Nat} {l : List Nat} {s t : State} (waiting : (queue s q).flush = id :: l) (ht : t = flushNow q s) :
    SameRecords (unpacked (unflushed (queue s q))) (queue t q) ∧ (∀ j, j ≠ q → SameRecords (queue s j) (queue t j)) ∧
    (NoneOwed s.queues → ∀ j, j ≠ q → queue t j = queue s j) ∧ ∀ i ∈ id :: l, outOf t i = none := by
  obtain ⟨own, others, free⟩ := queue_flushed q s
  rw [flushNow_eq waiting] at ht
  change t = portFollows q (flushesEnded l (complete id 0 _ (flushed q s))) at ht
  have first := only_complete_self id 0 (le 4 (queue s q).pkts.length ++ le 4 (cellsIn (queue s q).pkts)) (flushed q s)
  have ended : ∀ i ∈ id :: l, outOf (flushesEnded l (complete id 0 (le 4 (queue s q).pkts.length ++ le 4 (cellsIn (queue s q).pkts))
      (flushed q s))) i = none := fun i hi => by
    rcases List.mem_cons.mp hi with rfl | later
    · exact outOf_flushesEnded_none (outOf_complete ..)
    · exact outOf_flushesEnded later _
  generalize complete id 0 _ (flushed q s) = u at ht first ended
  have same := queue_of_only (first.trans (only_flushesEnded l u)) (by decide)
  obtain ⟨beside, drained⟩ := queue_portFollows q (flushesEnded l u)
  rw [← ht, same] at drained
  subst ht
  refine ⟨own.trans drained, fun j hj => ?_, fun none j hj => ?_, fun i hi => ?_⟩
  · rw [beside j hj, same]
    exact others j hj
  · rw [beside j hj, same]
    exact free none j hj
  · exact (outOf_of_only (only_portFollows q _) (by decide) i).trans (ended i hi)

/-! ## The reserve (R361, R362) -/

/-- No queue has a cell in spill. -/
def NoSpill (s : State) : Prop := ∀ q, qspill (queue s q) = 0

/-- From s to t the reserve has not grown, and without spilled cells it has not been used and none has been spilled. -/
structure SparesReserve (s t : State) : Prop where
  bound : t.reserve ≤ s.reserve
  spare : NoSpill s → NoSpill t ∧ t.reserve = s.reserve

theorem SparesReserve.refl (s : State) : SparesReserve s s := ⟨Nat.le_refl _, fun h => ⟨h, rfl⟩⟩

theorem SparesReserve.trans {s t u : State} (a : SparesReserve s t) (b : SparesReserve t u) : SparesReserve s u :=
  ⟨Nat.le_trans b.bound a.bound, fun h =>
    ⟨(b.spare (a.spare h).1).1, (b.spare (a.spare h).1).2.trans (a.spare h).2⟩⟩

theorem spillIn_cons (p : Packet) (l : List Packet) : spillIn (p :: l) = p.spill + spillIn l := by
  have shift : ∀ (l : List Packet) (n : Nat), l.foldl (fun n p => n + p.spill) n = n + spillIn l := fun l => by
    induction l with
    | nil => exact fun _ => rfl
    | cons p l ih =>
      intro n
      rw [spillIn, List.foldl_cons, List.foldl_cons, ih, ih (0 + p.spill)]
      omega
  exact (shift l (0 + p.spill)).trans (by omega)

/-- Without spilled cells none moves back. -/
theorem unspillList_none (q : Nat) : ∀ (at_ : Nat) (l : List Packet) (n : Nat), spillIn l = 0 →
    spillIn (unspillList q at_ l n).1 = 0 ∧ (unspillList q at_ l n).2 = 0
  | _, [], _, _ => ⟨rfl, rfl⟩
  | at_, p :: r, n, h => by
    rw [spillIn_cons] at h
    obtain ⟨rest, moved⟩ := unspillList_none q (at_ + min n p.spill) r (n - min n p.spill) (by omega)
    unfold unspillList
    dsimp only
    rw [spillIn_cons, rest, moved]
    dsimp only
    omega

theorem qspill_eq (x : Queue) : qspill x = spillIn x.cur.toList + spillIn x.pkts := by
  unfold qspill allPkts
  cases x.cur with
  | none => exact (Nat.zero_add _).symm
  | some p =>
    change spillIn (p :: x.pkts) = spillIn [p] + spillIn x.pkts
    rw [spillIn_cons, spillIn_cons]
    rfl

theorem engine_bound (s : State) (q res : Nat) (x : Queue) : (engine s q res x).2 ≤ res := Nat.sub_le ..

/-- The engine uses the reserve for spilled cells alone. -/
theorem engine_none (s : State) (q res : Nat) {x : Queue} (h : qspill x = 0) :
    qspill (engine s q res x).1 = 0 ∧ (engine s q res x).2 = res := by
  have one : ∀ (o : Option Packet) (n : Nat), (unspillList q x.moves o.toList n).1.head?.toList = (unspillList q x.moves o.toList n).1
    | none, _ => rfl
    | some _, _ => rfl
  rw [qspill_eq] at h
  obtain ⟨cur, m1⟩ := unspillList_none q x.moves x.cur.toList (min (qallot s q x - qsram x) (res / 64)) (by omega)
  have rest := fun a n => unspillList_none q a x.pkts n (by omega)
  constructor
  · rw [qspill_eq]
    change spillIn (unspillList q x.moves x.cur.toList (min (qallot s q x - qsram x) (res / 64))).1.head?.toList + _ = 0
    rw [one, cur, Nat.zero_add]
    exact (rest ..).1
  · change res - 64 * ((unspillList q x.moves x.cur.toList (min (qallot s q x - qsram x) (res / 64))).2 + _) = res
    rw [m1, (rest ..).2]
    rfl

theorem sparesReserve_storeQueue {q : Nat} {x : Queue} {s : State} (h : qspill x = qspill (queue s q)) :
    SparesReserve s (storeQueue q x s) := by
  refine ⟨engine_bound .., fun none => ?_⟩
  obtain ⟨stored, res⟩ := engine_none s q s.reserve (h.trans (none q))
  refine ⟨fun j => ?_, res⟩
  by_cases here : j = q
  · rw [here, queue_storeQueue_same, stored]
  · rw [queue_storeQueue_other here, none j]

theorem sparesReserve_giveOwed : ∀ (l : List Nat) (n : Nat) (s : State), SparesReserve s (giveOwed l n s)
  | [], _, s => .refl s
  | q :: r, n, s => by
    unfold giveOwed
    refine .trans ?_ (sparesReserve_giveOwed r _ _)
    split
    · exact .refl s
    · exact sparesReserve_storeQueue (x := { queue s q with owe := (queue s q).owe - min n (queue s q).owe }) rfl

theorem sparesReserve_releaseOwed (s : State) : SparesReserve s (releaseOwed s) := by
  unfold releaseOwed
  dsimp only
  split
  · exact .refl _
  · exact sparesReserve_giveOwed ..

theorem sparesReserve_settle (q : Nat) (s : State) : SparesReserve s (settle q s) :=
  (sparesReserve_storeQueue rfl).trans (sparesReserve_releaseOwed _)

/-! ## RESERVE_STEP_BOUNDARY -/

/-- The reserve of a step is full again. -/
def renewed (s : State) : State := { s with reserve := 240000 }

theorem only_renewed (s : State) : Only [.queues] s (renewed s) := by
  intro p hp
  cases p
  case queues => exact absurd (List.mem_singleton_self _) hp
  all_goals rfl

/-- The engine works on each of these queues. -/
def settleAll (l : Tab Queue) (s : State) : State := l.foldl (fun s e => settle e.1 s) s

theorem settleAll_spec : ∀ (l : Tab Queue) (s : State), Only [.queues] s (settleAll l s) ∧ SparesReserve s (settleAll l s) ∧
    ∀ q, SameRecords (queue s q) (queue (settleAll l s) q)
  | [], s => ⟨Only.refl _ s, .refl s, fun _ => .refl _⟩
  | e :: l, s => by
    obtain ⟨only, spares, records⟩ := settleAll_spec l (settle e.1 s)
    exact ⟨(only_settle e.1 (List.Subset.refl _) (Only.refl _ s)).trans only, (sparesReserve_settle e.1 s).trans spares,
      fun q => (sameRecords_settle e.1 s q).trans (records q)⟩

theorem exec_reserveStepBoundary {s : State} (run : running s = true) :
    exec .reserveStepBoundary s = .next (settleAll s.queues (renewed s)) := if_pos run

/-- Settles O21: the flush is `flushNow_spec`, the boundary `settleAll_spec` on the renewed reserve. -/
theorem flushesEmptyTheirQueue : Obligations.FlushesEmptyTheirQueue := by
  unfold Obligations.FlushesEmptyTheirQueue
  rintro _ rfl
  refine ⟨fun q id l s run idle waiting => ?_, fun s run => ?_⟩
  · obtain ⟨own, others, free, ended⟩ := flushNow_spec waiting rfl
    exact ⟨_, exec_flushTakeEffect run idle, only_flushNow q (List.Subset.refl _) (Only.refl _ s), own.empty rfl, own.flush, own.lost,
      fun j hj => ⟨(others j hj).records, (others j hj).lost, (others j hj).flush⟩, free, ended⟩
  · obtain ⟨only, ⟨bound, spare⟩, records⟩ := settleAll_spec s.queues (renewed s)
    exact ⟨_, exec_reserveStepBoundary run, (only_renewed s).trans only, bound, fun q => (records q).records, fun none => (spare none).2⟩

end Sys2Proof.Machine
end

section
/-! SUPPORT. The checks of the command ring, in their order (R393, R394, R422): what a descriptor that fails one of them comes to, whichever
row runs it. -/

namespace Sys2Proof.Machine

/-! ## A descriptor that is not executed -/

/-- From s to t descriptor d has been consumed and not executed, and its completion carries a status (R418, R420, R422). -/
structure TurnedAway (d : Desc) (status : Nat) (s t : State) : Prop where
  front : (ring t cmdRing).c = (ring s cmdRing).c + 1
  frame : Only [.outbox, .queues, .rings, .alives, .faults, .sessions] s t
  report : Reports d status (refusedResult d s) s t

/-- The result bytes of a descriptor that is not executed read the channels alone. -/
theorem refusedResult_of_only {ps : List Part} {s t : State} (h : Only ps s t) (hp : Part.chans ∉ ps) (d : Desc) :
    refusedResult d t = refusedResult d s := by
  have same : t.chans = s.chans := h .chans hp
  unfold refusedResult valueOf
  rw [same]

theorem only_refuseDesc_self (d : Desc) (status : Nat) (u : State) : Only [.outbox, .rings, .sessions] u (refuseDesc d status u) :=
  only_refuseDesc d status (List.Subset.refl _) (Only.refl _ u)

/-- What a check does before it turns a descriptor away leaves the rings, and the report follows it. -/
theorem refuseDesc_turnsAway {d : Desc} {s u : State} (ready : canTake s = true) (judged : Only [.outbox, .queues, .alives, .faults] s u)
    (sent : s.outbox <:+ u.outbox) (status : Nat) : TurnedAway d status s (refuseDesc d status u) := by
  have rings := ring_congr (judged .rings (by decide))
  have cpl : ring (consumed u) cplRing = ring s cplRing := (ring_modRing_other (by decide) _ _).trans (rings cplRing)
  refine ⟨?_, (judged.mono (by decide)).trans ((only_refuseDesc_self d status u).mono (by decide)), ?_⟩
  · rw [refuseDesc, ring_writeCpl_other (by decide), consumed, ring_modRing_same, rings]
  · obtain ⟨l, hl⟩ := outbox_writeCpl (BitVec.ofNat 8 (dOp d)) status (BitVec.ofNat 16 (frontIdx u).toNat) (dTag d) (refusedResult d u)
      (consumed u) ((congrArg Ring.en cpl).trans (canTake_cpl ready))
      ((running_of_only judged (by decide)).trans (canTake_running ready))
    obtain ⟨m, hm⟩ := sent
    have index : frontIdx u = frontIdx s := congrArg Ring.c (rings cmdRing)
    refine ⟨l, m, ?_⟩
    rw [refuseDesc, hl, cpl, index, refusedResult_of_only judged (by decide), hm]
    rfl

theorem expAlive_refuseDesc (d : Desc) (status : Nat) (u : State) : (refuseDesc d status u).expAlive = u.expAlive :=
  congrArg Prod.fst (only_refuseDesc_self d status u .alives (by decide))

theorem lastAlive_refuseDesc (d : Desc) (status : Nat) (u : State) : (refuseDesc d status u).lastAlive = u.lastAlive :=
  congrArg Prod.snd (only_refuseDesc_self d status u .alives (by decide))

theorem only_setAlives (s : State) (e : Byte) (l : Option Byte) : Only [.alives] s { s with expAlive := e, lastAlive := l } := by
  intro p hp
  cases p
  case alives => exact absurd (List.mem_singleton_self _) hp
  all_goals rfl

/-- A failed CRC leaves the alive values and raises CMD_CHECK (R393, R394). -/
theorem crcBad_turnsAway {d : Desc} {s : State} (ready : canTake s = true) (line : lineBad s 0x29 0 = false) :
    TurnedAway d 0x10 s (crcBad d s) ∧ (crcBad d s).expAlive = s.expAlive ∧ (crcBad d s).lastAlive = s.lastAlive ∧
      srcActive (crcBad d s) 0x29 0 = true := by
  have noted := only_noteEvent (ps := [.outbox, .queues, .faults]) 0x29 (le 4 (frontIdx s).toNat) (List.Subset.refl _) (Only.refl _ s)
  refine ⟨refuseDesc_turnsAway ready (noted.mono (by decide)) (kept_noteEvent _ _ (Kept.refl s)).out _, ?_, ?_, ?_⟩
  · exact (expAlive_refuseDesc ..).trans (congrArg Prod.fst (noted .alives (by decide)))
  · exact (lastAlive_refuseDesc ..).trans (congrArg Prod.snd (noted .alives (by decide)))
  · exact (srcActive_of_only (only_refuseDesc_self d 0x10 _) (by decide) _ _).trans (noteEvent_active line _)

/-! ## The order of the checks -/

/-- Descriptor d is turned away by the first check that it fails; `bad` says whether it fails those of its operands, with a status of their
own. -/
def turnAway (bad : Bool) (status : Nat) (d : Desc) (s : State) : State :=
  if BitVec.ofNat 8 (dF d 1 1) ≠ s.expAlive then
    if s.lastAlive = some (BitVec.ofNat 8 (dF d 1 1)) then refuseDesc d 0x11 s
    else refuseDesc d 0x12 { s with expAlive := BitVec.ofNat 8 (dF d 1 1) + 1 }
  else if dCrcOk d = false ∨ bad = false then crcBad d s
  else refuseDesc d status (acceptAlive d s)

/-- Whether a descriptor fails the checks of a row's operands (R422). -/
def operandsBad (form : DescForm) (d : Desc) : Bool := !unusedZero d form.used || (dTmo d != 0 && !form.tmo) || !form.ok d

/-- A row turns away a descriptor that fails one of its checks, whatever the row would do with it. -/
theorem takeDesc_turnsAway {form : DescForm} {d : Desc} {s : State} (ready : canTake s = true)
    (fails : BitVec.ofNat 8 (dF d 1 1) ≠ s.expAlive ∨ dCrcOk d = false ∨
      (form.mine d = true ∧ (operandsBad form d = true ∨ payBad form d = true))) (act : Nat → State → State) :
    takeDesc form d act s = turnAway (operandsBad form d) 0x14 d s := by
  unfold takeDesc turnAway
  dsimp only
  rw [ready, if_neg (by decide)]
  by_cases alive : BitVec.ofNat 8 (dF d 1 1) ≠ s.expAlive
  · rw [if_pos alive, if_pos alive]
  rw [if_neg alive, if_neg alive]
  cases crc : dCrcOk d
  case false => simp
  case true =>
    obtain ⟨mine, fault⟩ := (fails.resolve_left alive).resolve_left (by simp [crc])
    rw [mine, if_neg (by decide), if_neg (by decide)]
    change (if operandsBad form d = true then _ else _) = _
    cases operands : operandsBad form d
    case true => simp
    case false => simp [fault.resolve_left (by simp [operands])]

/-- BAD_OPCODE turns every descriptor of its opcodes away. -/
theorem execBadOpcode_turnsAway {d : Desc} {s : State} (ready : canTake s = true) (opcode : 0x0F ≤ dOp d) :
    execBadOpcode d s = .next (turnAway true 0x13 d s) := by
  unfold execBadOpcode
  dsimp only
  rw [if_neg (by simp [ready, opcode])]
  by_cases alive : BitVec.ofNat 8 (dF d 1 1) ≠ s.expAlive
  · rw [if_pos (by simp [alive]), takeDesc_turnsAway ready (.inl alive), turnAway, turnAway, if_pos alive, if_pos alive]
  cases crc : dCrcOk d
  case false =>
    rw [if_pos (by simp), takeDesc_turnsAway ready (.inr (.inl crc)), turnAway, turnAway, if_neg alive, if_neg alive, if_pos (.inl crc),
      if_pos (.inl crc)]
  case true => rw [if_neg (by simpa using alive), turnAway, if_neg alive, if_neg (by simp [crc])]

theorem TurnedAway.and {d : Desc} {n : Nat} {s t : State} (away : TurnedAway d n s t) {outcome : Prop}
    (h : Reports d n (refusedResult d s) s t → outcome) : (ring t cmdRing).c = (ring s cmdRing).c + 1 ∧
      (t.outs, t.nextId) = (s.outs, s.nextId) ∧ Only [.outbox, .queues, .rings, .alives, .faults, .sessions] s t ∧ outcome :=
  ⟨away.front, away.frame .descs (by decide), away.frame, h away.report⟩

/-- What comes of a descriptor that a check turns away (R393, R394, R422). -/
theorem turnAway_spec {d : Desc} {s t : State} {a : Byte} {bad : Bool} {status : Nat} (ready : canTake s = true)
    (line : lineBad s 0x29 0 = false) (ha : a = BitVec.ofNat 8 (dF d 1 1)) (ht : t = turnAway bad status d s) :
    (ring t cmdRing).c = (ring s cmdRing).c + 1 ∧ (t.outs, t.nextId) = (s.outs, s.nextId) ∧
    Only [.outbox, .queues, .rings, .alives, .faults, .sessions] s t ∧
    (if a ≠ s.expAlive then
      (if s.lastAlive = some a then Reports d 0x11 (refusedResult d s) s t ∧ t.expAlive = s.expAlive
        else Reports d 0x12 (refusedResult d s) s t ∧ t.expAlive = a + 1)
    else if dCrcOk d = false ∨ bad = false then
      Reports d 0x10 (refusedResult d s) s t ∧ t.expAlive = s.expAlive ∧ t.lastAlive = s.lastAlive ∧ srcActive t 0x29 0 = true
    else Reports d status (refusedResult d s) s t ∧ t.expAlive = a + 1 ∧ t.lastAlive = some a) := by
  have alives (e : Byte) (l : Option Byte) (n : Nat) :=
    refuseDesc_turnsAway (d := d) ready ((only_setAlives s e l).mono (by decide)) (List.suffix_refl s.outbox) n
  unfold turnAway at ht
  rw [← ha] at ht
  by_cases alive : a ≠ s.expAlive
  · rw [if_pos alive] at ht ⊢
    by_cases repeated : s.lastAlive = some a
    · rw [if_pos repeated] at ht ⊢
      subst ht
      exact (alives s.expAlive s.lastAlive 0x11).and fun report => ⟨report, expAlive_refuseDesc d 0x11 s⟩
    · rw [if_neg repeated] at ht ⊢
      subst ht
      exact (alives (a + 1) s.lastAlive 0x12).and fun report => ⟨report, expAlive_refuseDesc ..⟩
  · rw [if_neg alive] at ht ⊢
    by_cases crc : dCrcOk d = false ∨ bad = false
    · rw [if_pos crc] at ht ⊢
      obtain ⟨away, rest⟩ := crcBad_turnsAway (d := d) ready line
      subst ht
      exact away.and fun report => ⟨report, rest⟩
    · rw [if_neg crc] at ht ⊢
      subst ha ht
      exact (alives _ _ status).and fun report => ⟨report, expAlive_refuseDesc .., lastAlive_refuseDesc ..⟩

/-! ## The rows -/

theorem refusedResult_ruleLoad {d : Desc} (rule : dOp d = 0x08) (s : State) : refusedResult d s = [0xFF, 0xFF] := by
  rw [refusedResult, if_pos rule]
  rfl

theorem refusedResult_outputSet {d : Desc} (out : dOp d = 0x04) (named : dF d 8 2 < 512) (s : State) :
    refusedResult d s = outResult 0 (valueOf s (dF d 8 2)) := by
  rw [refusedResult, if_neg (by simp [out]), if_pos ⟨out, named⟩]

theorem refusedResult_other {d : Desc} (rule : dOp d ≠ 0x08) (out : dOp d ≠ 0x04) (s : State) : refusedResult d s = [] := by
  rw [refusedResult, if_neg rule, if_neg fun h => out h.1]

/-- A row runs its descriptors through the checks of `takeDesc` in a form of its own. -/
def RowTakes (d : Desc) (row : Instr × DescForm) : Prop :=
  row.1 ≠ .badOpcode d ∧ ∃ act, ∀ s, exec row.1 s = .next (takeDesc row.2 d act s)

theorem RowTakes.intro {d : Desc} {c : Instr} {form : DescForm} {act : Nat → State → State} (plain : c ≠ .badOpcode d)
    (takes : ∀ s, exec c s = .next (takeDesc form d act s)) : RowTakes d (c, form) := ⟨plain, act, takes⟩

/-- An operation under a token is one without in whose work the token is judged. -/
theorem RowTakes.ofToken {d : Desc} {c : Instr} {op : Nat} {states : List Nat} {key : State → Nat} {pre : State → Bool}
    {act : List Byte → Nat → State → State} {b1 b2 : Bool} (plain : c ≠ .badOpcode d)
    (takes : ∀ s, exec c s = .next (tokenOp op states key pre act d b1 b2 s)) : RowTakes d (c, secForm op .input) := by
  unfold tokenOp plainOp at takes
  exact .intro plain takes

/-- The rows of the opcodes below 0x0D, and BLOB_LOAD. -/
def plainRows (d : Desc) (cycles : Nat) : List (Instr × DescForm) :=
  [(.nop d, nopForm), (.cfgWrite d, cfgForm), (.commit d, commitForm), (.snap d cycles, snapForm), (.outputSet d, outForm),
   (.arm d, capForm 0), (.disarm d, capForm 1), (.trigger d cycles, capForm 2), (.mapRead d, mapForm), (.flush d, flushForm),
   (.ruleLoad d, ruleForm), (.speedTable d, speedForm), (.sync d, syncForm), (.cvuRun d, cvuForm),
   (.faultClearChannel d, clearForm 0 512), (.faultClearFrond d, clearForm 1 32), (.faultClearSource d, clearForm 2 256),
   (.faultClearLatch d, clearForm 3 1), (.blobLoad d, blobForm)]

/-- The rows of SEC_OP. -/
def secRows (d : Desc) (b1 b2 : Bool) : List (Instr × DescForm) :=
  [(.getNonce d b1 b2, secForm 0x01 .none), (.getIdentity d b1 b2, secForm 0x02 .out), (.getState d b1 b2, secForm 0x03 .none),
   (.takeOwnership d b1 b2, secForm 0x10 .input), (.keyInstall d b1 b2, secForm 0x11 .input), (.unlock d b1 b2, secForm 0x20 .input),
   (.relock d b1 b2, secForm 0x21 .none), (.seal d b1 b2, secForm 0x30 .input), (.unseal d b1 b2, secForm 0x31 .input),
   (.rma d b1 b2, secForm 0x32 .input), (.makerRestore d b1 b2, secForm 0x33 .input), (.void d b1 b2, secForm 0x34 .input),
   (.fwUpdate d b1 b2, fwForm), (.fwConfirm d b1 b2, secForm 0x41 .none), (.ldevidGen d b1 b2, secForm 0x50 .out),
   (.ldevidInstall d b1 b2, secForm 0x51 .input), (.selfTest d b1 b2, secForm 0x60 .none)]

theorem plainRows_take (d : Desc) (cycles : Nat) : ∀ row ∈ plainRows d cycles, RowTakes d row := by
  unfold plainRows
  iterate 19 refine List.forall_mem_cons.mpr ⟨.intro nofun fun _ => rfl, ?_⟩
  exact List.forall_mem_nil _

theorem secRows_take (d : Desc) (b1 b2 : Bool) : ∀ row ∈ secRows d b1 b2, RowTakes d row := by
  unfold secRows
  iterate 4 refine List.forall_mem_cons.mpr ⟨.intro nofun fun _ => rfl, ?_⟩
  iterate 2 refine List.forall_mem_cons.mpr ⟨.ofToken nofun fun _ => rfl, ?_⟩
  refine List.forall_mem_cons.mpr ⟨.intro nofun fun _ => rfl, ?_⟩
  iterate 5 refine List.forall_mem_cons.mpr ⟨.ofToken nofun fun _ => rfl, ?_⟩
  iterate 3 refine List.forall_mem_cons.mpr ⟨.intro nofun fun _ => rfl, ?_⟩
  refine List.forall_mem_cons.mpr ⟨.ofToken nofun fun _ => rfl, ?_⟩
  refine List.forall_mem_cons.mpr ⟨.intro nofun fun _ => rfl, ?_⟩
  exact List.forall_mem_nil _

/-- Settles O22: every row but BAD_OPCODE takes its descriptor by `takeDesc` in a form of its own, and either way a descriptor that fails a
check comes to `turnAway`. -/
theorem descriptorsAreCheckedInOrder : Obligations.DescriptorsAreCheckedInOrder := by
  unfold Obligations.DescriptorsAreCheckedInOrder
  intro d cycles b1 b2 s a ready line ha
  refine ⟨?_, fun rule => refusedResult_ruleLoad rule s, fun out named => refusedResult_outputSet out named s,
    fun rule out => refusedResult_other rule out s⟩
  intro c form listed own bad hbad opcode fails
  have taken (row : RowTakes d (c, form)) : exec c s = .next (turnAway bad (if c = .badOpcode d then 0x13 else 0x14) d s) := by
    obtain ⟨plain, act, takes⟩ := row
    have same : bad = operandsBad form d := hbad.trans (if_neg plain)
    rw [takes s, takeDesc_turnsAway ready (by rwa [← same, ← ha]), if_neg plain, same]
  have away : exec c s = .next (turnAway bad (if c = .badOpcode d then 0x13 else 0x14) d s) := by
    have parts : (c, form) ∈ plainRows d cycles ++ (secRows d b1 b2 ++ [(Instr.badOpcode d, { mine := fun d => decide (0x0F ≤ dOp d) })]) :=
      listed
    rcases List.mem_append.mp parts with plain | rest
    · exact taken (plainRows_take d cycles _ plain)
    rcases List.mem_append.mp rest with sec | other
    · exact taken (secRows_take d b1 b2 _ sec)
    obtain ⟨hc, hform⟩ := Prod.mk.inj (List.mem_singleton.mp other)
    rw [hbad, if_pos hc, if_pos hc, hc]
    exact execBadOpcode_turnsAway ready (opcode hc)
  exact ⟨_, away, turnAway_spec ready line ha rfl⟩

end Sys2Proof.Machine
end

section
/-! SUPPORT. The doorbells of BAR2 (R405, R408, R409, R413): where they stand, and what a write to one does. -/

namespace Sys2Proof.Machine

/-! ## Where the doorbells stand (Table 12-3) -/

theorem doorbellRing_place {ofs r : Nat} (h : doorbellRing ofs = some r) :
    ofs % 4 = 0 ∧ ofs < 0x80 ∧ (r = cmdRing ↔ ofs = 0) := by
  unfold doorbellRing inBlock cplRing evtRing cmdRing at h
  unfold cmdRing
  simp only [Bool.and_eq_true, decide_eq_true_eq, beq_iff_eq] at h
  split_ifs at h with cmd cpl evt block <;> obtain rfl := Option.some.inj h <;> omega

theorem msixDword_doorbell {ofs r : Nat} (h : doorbellRing ofs = some r) : msixDword ofs = none := by
  obtain ⟨_, below, _⟩ := doorbellRing_place h
  refine if_neg ?_
  simp only [inBlock, Bool.and_eq_true, decide_eq_true_eq]
  omega

theorem bar2Write_doorbell {ofs r : Nat} (h : doorbellRing ofs = some r) (v : Word) (s : State) :
    bar2Write ofs v s = doorbell ofs v s := by
  rw [bar2Write, msixDword_doorbell h]

theorem exec_dbCmd {s : State} (run : running s = true) (v : Word) : exec (.dbCmd v) s = .next (doorbell 0x000 v s) := if_pos run

theorem exec_dbConsumer {ofs : Nat} {s : State} (run : running s = true) (away : ofs ≠ 0) (aligned : bar2Aligned ofs = true) (v : Word) :
    exec (.dbConsumer ofs v) s = .next (bar2Write ofs v s) := by
  change execDbConsumer ofs v s = _
  rw [execDbConsumer, if_neg (by simp [run, away]), if_pos aligned]

/-- DB_CMD writes the doorbell of the command ring, and DB_CONSUMER that of another. -/
theorem exec_doorbell {ofs r : Nat} {s : State} (run : running s = true) (h : doorbellRing ofs = some r) (v : Word) :
    exec (if r = cmdRing then .dbCmd v else .dbConsumer ofs v) s = .next (doorbell ofs v s) := by
  obtain ⟨aligned, below, front⟩ := doorbellRing_place h
  by_cases cmd : r = cmdRing
  · rw [if_pos cmd, exec_dbCmd run, front.mp cmd]
  · rw [if_neg cmd, exec_dbConsumer run (fun zero => cmd (front.mpr zero)) (by simp [bar2Aligned]; omega), bar2Write_doorbell h]

/-! ## What a doorbell does -/

/-- A doorbell value is in range for its ring (R409). -/
def doorbellFits (r : Nat) (x : Ring) (v : Word) : Prop :=
  if r = cmdRing then (v - x.c).toNat ≤ 2 ^ x.log2 ∧ (v - x.p).toNat ≤ (v - x.c).toNat
  else (x.p - v).toNat ≤ 2 ^ x.log2 ∧ (v - x.c).toNat ≤ (x.p - x.c).toNat

theorem doorbellOk_iff (r : Nat) (x : Ring) (v : Word) : doorbellOk (r == cmdRing) x v = true ↔ doorbellFits r x v := by
  unfold doorbellOk doorbellFits ringSize
  by_cases cmd : r = cmdRing
  · simp only [cmd, beq_self_eq_true, if_true, Bool.and_eq_true, decide_eq_true_eq]
  · simp only [beq_eq_false_iff_ne.mpr cmd, if_neg cmd, Bool.false_eq_true, if_false, Bool.and_eq_true, decide_eq_true_eq]

section
variable {ofs r : Nat} {v : Word} {s : State} (h : doorbellRing ofs = some r)
include h

theorem doorbell_off (off : (ring s r).en = false) : doorbell ofs v s = s := by
  simp [doorbell, h, off]

theorem doorbell_accepted (on : (ring s r).en = true) (fits : doorbellFits r (ring s r) v) : doorbell ofs v s =
    modRing r (fun x => if r = cmdRing then { x with p := v, db := v } else { x with c := v, db := v }) s := by
  simp [doorbell, h, on, (doorbellOk_iff r _ v).mpr fits]

theorem doorbell_rejected (on : (ring s r).en = true) (out : ¬doorbellFits r (ring s r) v) : doorbell ofs v s =
    noteEvent 0x2A (le 2 ofs ++ le 4 v.toNat) { s with dberr := true, dbOfs := if s.dberr then s.dbOfs else ofs } := by
  have bad : doorbellOk (r == cmdRing) (ring s r) v = false := Bool.eq_false_iff.mpr fun ok => out ((doorbellOk_iff r _ v).mp ok)
  simp [doorbell, h, on, bad]

end

theorem only_setDoorbell (s : State) (err : Bool) (ofs : Nat) : Only [.doorbell] s { s with dberr := err, dbOfs := ofs } := by
  intro p hp
  cases p
  case doorbell => exact absurd (List.mem_singleton_self _) hp
  all_goals rfl

/-- A rejected doorbell is recorded and noted, and changes no ring (R409). -/
theorem doorbellNoted_spec {s : State} (line : lineBad s 0x2A 0 = false) (err : Bool) (ofs : Nat) (ctx : List Byte) {t : State}
    (ht : t = noteEvent 0x2A ctx { s with dberr := err, dbOfs := ofs }) :
    Only [.doorbell, .outbox, .queues, .faults] s t ∧ t.dberr = err ∧ t.dbOfs = ofs ∧ srcActive t 0x2A 0 = true := by
  have set := only_setDoorbell s err ofs
  have noted := only_noteEvent (ps := [.outbox, .queues, .faults]) 0x2A ctx (List.Subset.refl _)
    (Only.refl _ { s with dberr := err, dbOfs := ofs })
  obtain ⟨hErr, hOfs⟩ := Prod.mk.inj (noted .doorbell (by decide))
  subst ht
  exact ⟨(set.mono (by decide)).trans (noted.mono (by decide)), hErr, hOfs,
    noteEvent_active ((lineBad_of_only set (by decide) _ _).trans line) ctx⟩

/-- A change of one ring. -/
theorem modRing_spec (r : Nat) (g : Ring → Ring) (s : State) :
    Only [.rings] s (modRing r g s) ∧ ring (modRing r g s) r = g (ring s r) ∧ ∀ j, j ≠ r → ring (modRing r g s) j = ring s j :=
  ⟨only_modRing r g (List.Subset.refl _) (Only.refl _ s), ring_modRing_same r g s, fun _ other => ring_modRing_other other g s⟩

/-- Settles O18: a doorbell is the write of `doorbell`, whose range check is `doorbellFits`. -/
theorem doorbellsAreChecked : Obligations.DoorbellsAreChecked := by
  unfold Obligations.DoorbellsAreChecked
  intro ofs r v s run h line c hc
  rw [hc, exec_doorbell run h v]
  refine ⟨fun off => ?_, fun on cmd near ahead => ?_, fun on other near ahead => ?_, fun on out => ?_⟩
  · rw [doorbell_off h off]
  · rw [doorbell_accepted h on (by simp [doorbellFits, cmd] at near ahead ⊢; exact ⟨near, ahead⟩)]
    simpa only [if_pos cmd] using ⟨_, rfl, modRing_spec r _ s⟩
  · rw [doorbell_accepted h on (by simp [doorbellFits, other] at near ahead ⊢; exact ⟨near, ahead⟩)]
    simpa only [if_neg other] using ⟨_, rfl, modRing_spec r _ s⟩
  · rw [doorbell_rejected h on out]
    exact ⟨_, rfl, doorbellNoted_spec line true _ _ rfl⟩

end Sys2Proof.Machine
end

section
/-! SUPPORT. The registers of the rings and DMA_STS_BASE (R407, R413, R457): when a write to one acts, and what it does. -/

namespace Sys2Proof.Machine

theorem writeOpen_of_run {p : Path} {s : State} (reach : pathOpen p s = true) (run : running s = true) {ofs : Nat} (h : 0x1000 ≤ ofs) :
    writeOpen p s ofs = true := by rw [writeOpen_run h, reach, run]; rfl

theorem pathOpen_of_only {ps : List Part} {s t : State} (h : Only ps s t) (hp : Part.auto ∉ ps) (p : Path) :
    pathOpen p t = pathOpen p s := by
  have same : t.auto = s.auto := h .auto hp
  rw [pathOpen, pathOpen, same]

/-! ## The halves of a 64-bit register -/

section
variable {p : Path} {s : State} {ofs : Nat}

theorem exec_reg64LowWrite (reach : pathOpen p s = true) (run : running s = true) (wide : is64W ofs = true) (v : Word) :
    exec (.reg64LowWrite p ofs v) s = .next (lowWrite p ofs v s) := by
  change execReg64LowWrite p ofs v s = _
  rw [execReg64LowWrite, if_pos wide, busWrite_open (writeOpen_of_run reach run (is64W_ge wide)), regWrite_low wide]

theorem exec_reg64HighWrite (reach : pathOpen p s = true) (run : running s = true) (wide : is64W ofs = true) (v : Word) :
    exec (.reg64HighWrite p ofs v) s = .next (highWrite p ofs v s) := by
  change execReg64HighWrite p ofs v s = _
  have above := is64W_ge wide
  rw [execReg64HighWrite, if_pos wide, busWrite_open (writeOpen_of_run reach run (by omega)), regWrite_high wide]

theorem lowWrite_locked (dma : ofs ≠ 0x1020) (locked : locked64 ofs s = true) (v : Word) : lowWrite p ofs v s = s := by
  simp [lowWrite, dma, locked]

theorem highWrite_locked (dma : ofs ≠ 0x1020) (locked : locked64 ofs s = true) (v : Word) : highWrite p ofs v s = s := by
  simp [highWrite, dma, locked]

theorem lowWrite_held (dma : ofs ≠ 0x1020) (free : locked64 ofs s = false) (v : Word) :
    lowWrite p ofs v s = modPath p (fun r => { r with held := tput r.held ofs v }) s := by
  simp [lowWrite, dma, free]

theorem highWrite_takes (dma : ofs ≠ 0x1020) (free : locked64 ofs s = false) (v : Word) : highWrite p ofs v s =
    put64 ofs (tget (low64 ofs s) (pathRegs p s).held ofs) v
      (modPath p (fun r => { r with held := tfilter r.held (fun k _ => k != ofs) }) s) := by
  simp [highWrite, dma, free]

end

/-! ## DMA_STS_BASE (R457) -/

theorem locked64_status (s : State) : locked64 0xA030 s = anyRing s := rfl

theorem modPath_rings (p : Path) (g : PathRegs → PathRegs) (s : State) : (modPath p g s).rings = s.rings := by cases p <;> rfl

theorem modPath_modPath (p : Path) (g h : PathRegs → PathRegs) (s : State) :
    modPath p g (modPath p h s) = modPath p (fun r => g (h r)) s := by cases p <;> rfl

theorem exec_statusBaseWrite {p : Path} {s : State} (reach : pathOpen p s = true) (run : running s = true) (b : DWord) :
    exec (.statusBaseWrite p b) s =
      .next (highWrite p 0xA030 (BitVec.ofNat 32 (b.toNat / 2 ^ 32)) (lowWrite p 0xA030 (BitVec.ofNat 32 b.toNat) s)) := by
  change execStatusBaseWrite p b s = _
  have wide : is64W 0xA030 = true := by decide
  have low := only_lowWrite (ps := [.paths, .sticky]) p 0xA030 (BitVec.ofNat 32 b.toNat) (List.Subset.refl _) (Only.refl _ s)
  rw [execStatusBaseWrite, busWrite_open (writeOpen_of_run reach run (by decide)), regWrite_low wide,
    busWrite_open (writeOpen_of_run ((pathOpen_of_only low (by decide) p).trans reach)
      ((running_of_only low (by decide)).trans run) (by decide))]
  exact congrArg _ (regWrite_high wide p _ _)

theorem statusBaseWrite_locked {p : Path} {s : State} (reach : pathOpen p s = true) (run : running s = true) (on : anyRing s = true)
    (b : DWord) : exec (.statusBaseWrite p b) s = .next s := by
  rw [exec_statusBaseWrite reach run, lowWrite_locked (ofs := 0xA030) (by decide) on,
    highWrite_locked (ofs := 0xA030) (by decide) on]

/-- Both halves enter DMA_STS_BASE, without the low bits that read 0 (R407). -/
theorem put64_status (b : DWord) (s : State) : put64 0xA030 (BitVec.ofNat 32 b.toNat) (BitVec.ofNat 32 (b.toNat / 2 ^ 32)) s =
    { s with stsBase := BitVec.ofNat 64 (b.toNat / 128 * 128) } := by
  have whole : b.toNat % 2 ^ 32 / 2 ^ 7 * 2 ^ 7 + b.toNat / 2 ^ 32 % 2 ^ 32 * 2 ^ 32 = b.toNat / 128 * 128 := by
    have := b.isLt
    omega
  rw [← whole]
  simp [put64, lowZero]

/-- While no ring is enabled the base takes the word, and of the path only the held half changes. -/
theorem statusBaseWrite_sets {p : Path} {s : State} (reach : pathOpen p s = true) (run : running s = true) (off : anyRing s = false)
    (b : DWord) : ∃ g, exec (.statusBaseWrite p b) s =
      .next { modPath p g s with stsBase := BitVec.ofNat 64 (b.toNat / 128 * 128) } := by
  have still : locked64 0xA030 (modPath p (fun r => { r with held := tput r.held 0xA030 (BitVec.ofNat 32 b.toNat) }) s) = false := by
    rw [locked64_status, anyRing, modPath_rings]
    exact off
  rw [exec_statusBaseWrite reach run, lowWrite_held (ofs := 0xA030) (by decide) off, highWrite_takes (by decide) still, pathRegs_modPath_same,
    tget_tput_same, put64_status, modPath_modPath]
  exact ⟨_, rfl⟩

theorem only_setStsBase (s : State) (b : DWord) : Only [.host] s { s with stsBase := b } := by
  intro q hq
  cases q
  case host => exact absurd (List.mem_singleton_self _) hq
  all_goals rfl

/-! ## The CFG register of a ring (R413) -/

/-- The CFG registers are no 64-bit, paired or complement ones, and lie in the DMA_ block. -/
theorem regWrite_ringCfg {r : Nat} (hr : r < 19) (p : Path) (v : Word) (s : State) :
    regWrite p (ringCfgOfs r) v s = ringCfgWrite r (ringCfgOfs r) v s := by
  have place : ∀ r < 19, is64W (ringCfgOfs r) = false ∧ is64W (ringCfgOfs r - 4) = false ∧ isRwp (ringCfgOfs r) = false ∧
      (complOf (ringCfgOfs r)).isSome = false ∧ 0xA000 ≤ ringCfgOfs r ∧ ringCfgOfs r < 0xB000 := by decide
  obtain ⟨low, high, value, complement, first, last⟩ := place r hr
  unfold regWrite
  dsimp only
  rw [low, high, value, complement]
  simp only [Bool.false_eq_true, and_false, if_false]
  rw [if_neg (by omega), if_pos ⟨first, last⟩, dmaWrite, ringAt_cfg hr]
  rfl

theorem busWrite_ringCfg {p : Path} {s : State} (reach : pathOpen p s = true) (run : running s = true) {r : Nat} (hr : r < 19) (v : Word) :
    busWrite p (ringCfgOfs r) v s = ringCfgWrite r (ringCfgOfs r) v s := by
  have above : 0x1000 ≤ ringCfgOfs r := by unfold ringCfgOfs; split <;> omega
  rw [busWrite_open (writeOpen_of_run reach run above), regWrite_ringCfg hr]

/-- The staged bits of a CFG register are written. -/
def cfgStaged (ofs : Nat) (v : Word) (s : State) : State :=
  if rwsMask ofs = 0 then s else if isSealed s then lockWr ofs s else stage ofs 0 v (rwsMask ofs) s

theorem only_cfgStaged (ofs : Nat) (v : Word) (s : State) : Only [.staged, .sticky] s (cfgStaged ofs v s) :=
  Only.ite (Only.refl _ s) (Only.ite (only_lockWr ofs (by decide) (Only.refl _ s)) (only_stage ofs 0 v _ (by decide) (Only.refl _ s)))

section
variable {r ofs : Nat} {v : Word} {s : State}

theorem ringCfgWrite_on (on : (ring s r).en = true) : ringCfgWrite r ofs v s =
    if bit v 8 then cfgStaged ofs v s else modRing r (fun x => { x with en := false }) (cfgStaged ofs v s) := by
  simp [ringCfgWrite, cfgStaged, on]

variable (off : (ring s r).en = false) (sets : bit v 8 = true)
include off sets

theorem ringCfgWrite_ignored (bad : fld v 0 5 < 6 ∨ 16 < fld v 0 5 ∨ s.stsBase = 0) : ringCfgWrite r ofs v s = s := by
  unfold ringCfgWrite
  dsimp only
  exact if_pos (by simpa [off, sets, or_assoc] using bad)

theorem ringCfgWrite_enables (low : 6 ≤ fld v 0 5) (high : fld v 0 5 ≤ 16) (based : s.stsBase ≠ 0) :
    ringCfgWrite r ofs v s = enableRing r (fld v 0 5) (cfgStaged ofs v s) := by
  unfold ringCfgWrite
  dsimp only
  rw [if_neg (by simpa [low, high] using fun _ _ => based), off, sets]
  rfl

end

/-- A ring whose EN is set starts again, and the command ring's alive values with it (R392, R413). -/
theorem enableRing_spec (r log2 : Nat) (s : State) :
    ring (enableRing r log2 s) r = { ring s r with en := true, log2 := log2, p := 0, c := 0, db := 0, unsig := 0, alive := 0 } ∧
    (∀ j, j ≠ r → ring (enableRing r log2 s) j = ring s j) ∧ (enableRing r log2 s).stsBase = s.stsBase ∧
    (r = cmdRing → (enableRing r log2 s).expAlive = 1 ∧ (enableRing r log2 s).lastAlive = none) ∧
    (r ≠ cmdRing → (enableRing r log2 s).expAlive = s.expAlive ∧ (enableRing r log2 s).lastAlive = s.lastAlive) := by
  refine ⟨?_, fun j other => ?_, ?_, fun cmd => ?_, fun other => ?_⟩
  · rw [ring, rings_enableRing, tget_tmod_same]
    rfl
  · rw [ring, rings_enableRing, tget_tmod_other _ _ other]
    rfl
  · unfold enableRing
    dsimp only
    split <;> split <;> rfl
  · unfold enableRing
    dsimp only
    rw [if_pos cmd]
    exact ⟨rfl, rfl⟩
  · unfold enableRing
    dsimp only
    rw [if_neg other]
    split <;> exact ⟨rfl, rfl⟩

/-- The EN bit stands above LOG2. -/
theorem fld_setEn (v : Word) : fld (v ||| 0x100) 0 5 = fld v 0 5 := by
  simp [fld, Nat.or_mod_two_pow (n := 5)]

theorem bit_setEn (v : Word) : bit (v ||| 0x100) 8 = true := by simp [bit]

theorem bit_clearEn (v : Word) : bit (v &&& 0xFFFFFEFF) 8 = false := by simp [bit]

/-! ## RING_ENABLE and RING_DISABLE -/

section
variable {p : Path} {s : State} (reach : pathOpen p s = true) (run : running s = true) {r : Nat} (hr : r < 19) (v : Word)
include reach run hr

theorem exec_ringEnable : exec (.ringEnable p r v) s = .next (ringCfgWrite r (ringCfgOfs r) (v ||| 0x100) s) :=
  congrArg _ (busWrite_ringCfg reach run hr _)

theorem exec_ringDisable : exec (.ringDisable p r v) s = .next (ringCfgWrite r (ringCfgOfs r) (v &&& 0xFFFFFEFF) s) :=
  congrArg _ (busWrite_ringCfg reach run hr _)

theorem ringEnable_starts (off : (ring s r).en = false) (low : 6 ≤ fld v 0 5) (high : fld v 0 5 ≤ 16) (based : s.stsBase ≠ 0) :
    ∃ t, exec (.ringEnable p r v) s = .next t ∧ Only [.rings, .staged, .sticky, .alives, .host] s t ∧
      ring t r = { ring s r with en := true, log2 := fld v 0 5, p := 0, c := 0, db := 0, unsig := 0, alive := 0 } ∧
      (∀ j, j ≠ r → ring t j = ring s j) ∧ t.stsBase = s.stsBase ∧ (r = cmdRing → t.expAlive = 1 ∧ t.lastAlive = none) ∧
      (r ≠ cmdRing → t.expAlive = s.expAlive ∧ t.lastAlive = s.lastAlive) := by
  have staged := only_cfgStaged (ringCfgOfs r) (v ||| 0x100) s
  obtain ⟨this, others, base, cmd, other⟩ := enableRing_spec r (fld v 0 5) (cfgStaged (ringCfgOfs r) (v ||| 0x100) s)
  have rings := ring_congr (staged .rings (by decide))
  obtain ⟨expected, last⟩ := Prod.mk.inj (staged .alives (by decide))
  rw [exec_ringEnable reach run hr, ringCfgWrite_enables off (bit_setEn v) (fld_setEn v ▸ low) (fld_setEn v ▸ high) based, fld_setEn]
  refine ⟨_, rfl, (staged.mono (by decide)).trans (only_enableRing r _ (by decide) (Only.refl _ _)), this.trans (by rw [rings]),
    fun j h => (others j h).trans (rings j), base.trans (congrArg Prod.fst (staged .host (by decide))), cmd, fun h => ?_⟩
  exact ⟨(other h).1.trans expected, (other h).2.trans last⟩

theorem ringEnable_ignored (off : (ring s r).en = false) (bad : fld v 0 5 < 6 ∨ 16 < fld v 0 5 ∨ s.stsBase = 0) :
    exec (.ringEnable p r v) s = .next s := by
  rw [exec_ringEnable reach run hr, ringCfgWrite_ignored off (bit_setEn v) (by rwa [fld_setEn])]

theorem ringEnable_again (on : (ring s r).en = true) : ∃ t, exec (.ringEnable p r v) s = .next t ∧ Only [.staged, .sticky] s t := by
  rw [exec_ringEnable reach run hr, ringCfgWrite_on on, if_pos (bit_setEn v)]
  exact ⟨_, rfl, only_cfgStaged _ _ s⟩

theorem ringDisable_stops (on : (ring s r).en = true) : ∃ t, exec (.ringDisable p r v) s = .next t ∧
    Only [.rings, .staged, .sticky] s t ∧ ring t r = { ring s r with en := false } ∧ ∀ j, j ≠ r → ring t j = ring s j := by
  have staged := only_cfgStaged (ringCfgOfs r) (v &&& 0xFFFFFEFF) s
  have rings := ring_congr (staged .rings (by decide))
  obtain ⟨only, this, others⟩ := modRing_spec r (fun x => { x with en := false }) (cfgStaged (ringCfgOfs r) (v &&& 0xFFFFFEFF) s)
  rw [exec_ringDisable reach run hr, ringCfgWrite_on on, if_neg (bit_clearEn v ▸ Bool.false_ne_true)]
  exact ⟨_, rfl, (staged.mono (by decide)).trans (only.mono (by decide)), this.trans (by rw [rings]),
    fun j h => (others j h).trans (rings j)⟩

/-- The base of an enabled ring is locked. -/
theorem ringBase_locked (on : (ring s r).en = true) : exec (.reg64LowWrite p (ringCfgOfs r - 8) v) s = .next s ∧
    exec (.reg64HighWrite p (ringCfgOfs r - 8) v) s = .next s := by
  obtain ⟨place, wide⟩ := ringAt_base hr
  have block : ∀ r < 19, ringCfgOfs r - 8 ≠ 0x1020 ∧ ringCfgOfs r - 8 ≠ 0xA030 := by decide
  obtain ⟨dma, ringBlock⟩ := block r hr
  have locked : locked64 (ringCfgOfs r - 8) s = true := by simp [locked64, ringBlock, place, on]
  rw [exec_reg64LowWrite reach run wide, exec_reg64HighWrite reach run wide, lowWrite_locked dma locked, highWrite_locked dma locked]
  exact ⟨rfl, rfl⟩

end

/-! ## A command ring that is off -/

theorem canTake_off {s : State} (off : (ring s cmdRing).en = false) : canTake s = false := by simp [canTake, off]

theorem RowTakes.idle {d : Desc} {row : Instr × DescForm} (h : RowTakes d row) {s : State} (idle : canTake s = false) :
    exec row.1 s = .next s := by
  obtain ⟨_, act, takes⟩ := h
  rw [takes, takeDesc, idle]
  rfl

/-- With nothing to take, the command of every descriptor changes nothing. -/
theorem exec_descriptor_idle {d : Desc} {n : Nat} {b1 b2 : Bool} {s : State} (idle : canTake s = false) {c : Instr}
    (listed : c ∈ (plainRows d n ++ secRows d b1 b2).map Prod.fst ++ [.badOpcode d]) : exec c s = .next s := by
  rcases List.mem_append.mp listed with taken | other
  · obtain ⟨row, mem, rfl⟩ := List.mem_map.mp taken
    rcases List.mem_append.mp mem with plain | sec
    · exact (plainRows_take d n row plain).idle idle
    · exact (secRows_take d b1 b2 row sec).idle idle
  · rw [List.mem_singleton.mp other]
    exact if_pos (by simp [idle])

/-- Settles O13: each command is a write of `ringCfgWrite`, or of a 64-bit register's halves, which are locked while their ring is on. -/
theorem ringsAreEnabledAndLocked : Obligations.RingsAreEnabledAndLocked := by
  unfold Obligations.RingsAreEnabledAndLocked
  intro p r v s hr run reach
  refine ⟨fun off low high based => ?_, ringEnable_ignored reach run hr v,
    fun off => ⟨fun ofs away bell => ?_, fun cmd => ⟨?_, ?_⟩⟩,
    fun on => ⟨ringEnable_again reach run hr v on, ringDisable_stops reach run hr v on, ringBase_locked reach run hr v on⟩,
    fun b => ⟨fun off => ?_, fun on => ⟨statusBaseWrite_locked reach run on b, ?_, ?_⟩⟩⟩
  · obtain ⟨t, runs, only, this, rest⟩ := ringEnable_starts reach run hr v off low high based
    refine ⟨t, runs, only, ?_⟩
    rw [this]
    exact ⟨rfl, rfl, rfl, rfl, rfl, rfl, rfl, rfl, rest⟩
  · have other : r ≠ cmdRing := fun cmd => away ((doorbellRing_place bell).2.2.mp cmd)
    have runs := exec_doorbell run bell v
    rwa [if_neg other, doorbell_off bell off] at runs
  · rw [exec_dbCmd run, doorbell_off rfl (cmd ▸ off)]
  · intro d n c listed
    refine exec_descriptor_idle (d := d) (n := n) (b1 := false) (b2 := false) (canTake_off (cmd ▸ off))
      (List.Perm.mem_iff ?_ |>.mp listed)
    iterate 13 refine .cons _ ?_
    exact List.perm_middle (l₁ := [Instr.faultClearChannel d, .faultClearFrond d, .faultClearSource d, .faultClearLatch d])
  · obtain ⟨g, runs⟩ := statusBaseWrite_sets reach run off b
    refine ⟨_, runs, (only_modPath p g (by decide) (Only.refl _ s)).trans ((only_setStsBase _ _).mono (by decide)), rfl, ?_,
      fun q other => ?_⟩
    · cases p <;> rfl
    · exact pathRegs_modPath_other other g s
  · rw [exec_reg64LowWrite reach run (by decide), lowWrite_locked (ofs := 0xA030) (by decide) on]
  · rw [exec_reg64HighWrite reach run (by decide), highWrite_locked (ofs := 0xA030) (by decide) on]

end Sys2Proof.Machine
end

section
/-! SUPPORT. The events of the PCIe endpoint (R404, R406, R557, R561): what stops the rings, and the source that follows the link. -/

namespace Sys2Proof.Machine

/-! ## The rings stop (R406) -/

theorem ring_ringsOff (r : Nat) (s : State) : ring (ringsOff s) r = { ring s r with en := false } :=
  tget_tmap ({} : Ring) (fun _ x => { x with en := false }) (fun _ => rfl) r s.rings

/-- From s to t every ring goes off, and every waiting descriptor loses its completion. -/
structure StopsRings (s t : State) : Prop where
  rings : ∀ r, ring t r = { ring s r with en := false }
  lost : ∀ o ∈ t.outs, o.lost = true
  waiting : t.outs.map (fun o => o.id) = s.outs.map (fun o => o.id)

theorem ringsOff_stops {s t : State} (rings : t.rings = (ringsOff s).rings) (outs : t.outs = (ringsOff s).outs) : StopsRings s t := by
  refine ⟨fun r => (ring_congr rings r).trans (ring_ringsOff r s), fun o mem => ?_, ?_⟩
  · rw [outs] at mem
    obtain ⟨x, _, rfl⟩ := List.mem_map.mp mem
    rfl
  · rw [outs, ringsOff, List.map_map]
    rfl

/-- Bus Master Enable is cleared (R406). -/
theorem busMaster_off (s : State) : Only [.rings, .descs, .host] s (busMaster false s) ∧ StopsRings s (busMaster false s) ∧
    (busMaster false s).bme = false ∧ (busMaster false s).outbox = s.outbox ∧ (busMaster false s).pwr = s.pwr ∧
    ((busMaster false s).stsBase, (busMaster false s).tickIrq, (busMaster false s).tickDiv) = (s.stsBase, s.tickIrq, s.tickDiv) ∧
    ((busMaster false s).msix, (busMaster false s).pba, (busMaster false s).ep) = (s.msix, s.pba, s.ep) :=
  ⟨only_busMaster false (List.Subset.refl _) (Only.refl _ s), ringsOff_stops rfl rfl, rfl, rfl, rfl, rfl, rfl⟩

theorem exec_busMasterOff {s : State} (hosted : s.auto = false) :
    exec .functionLevelReset s = .next (busMaster false s) ∧ exec .busMasterClear s = .next (busMaster false s) :=
  ⟨if_neg (by simp [hosted]), if_neg (by simp [hosted])⟩

theorem exec_busMasterOff_autonomous {s : State} (autonomous : s.auto = true) :
    exec .functionLevelReset s = .next s ∧ exec .busMasterClear s = .next s := ⟨if_pos autonomous, if_pos autonomous⟩

/-- The endpoint while PCIE_PERST_N is low. -/
def perstLow (s : State) : State :=
  { ringsOff s with bme := false, msix := 0, pba := 0, ep := {}, pwr := { s.pwr with perst := false, linkUp := false } }

theorem exec_pciePerst_low {s : State} (hosted : s.auto = false) (l : LinkIn) : exec (.pciePerst false l) s = .next (perstLow s) := by
  change execPciePerst false l s = _
  simp [execPciePerst, hosted, perstLow, ringsOff]

theorem only_perstLow (s : State) : Only [.outbox, .rings, .descs, .host, .link] s (perstLow s) := by
  intro p hp
  cases p
  case outbox | rings | descs | host | link => exact absurd hp (by decide)
  all_goals rfl

/-! ## PCIE_DEGRADED (R404) -/

theorem pcieDrain_of_only {ps : List Part} {s t : State} (h : Only ps s t) (hp : Part.link ∉ ps) : pcieDrain t = pcieDrain s := by
  obtain ⟨_, rest⟩ := Prod.mk.inj (h .link hp)
  obtain ⟨up, rest⟩ := Prod.mk.inj rest
  obtain ⟨speed, rest⟩ := Prod.mk.inj rest
  obtain ⟨width, _⟩ := Prod.mk.inj rest
  unfold pcieDrain
  rw [up, speed, width]

/-- A source is not active after its condition has gone, unless it is escalated or its line is bad (R484, R487, R494). -/
theorem clearSrc_gone {id sub : Nat} {s : State} (good : lineBad s id sub = false)
    (plain : ∀ c, s.srcs.find? (fun e => e.1 == srcKey id sub) = some (srcKey id sub, c) → c.esc = false) :
    srcActive (clearSrc id sub s) id sub = false := by
  cases found : s.srcs.find? (fun e => e.1 == srcKey id sub) with
  | none =>
    have same : clearSrc id sub s = s := by rw [clearSrc, found]
    rw [same, srcActive, List.any_eq_false]
    exact List.find?_eq_none.mp found
  | some e =>
    obtain ⟨k, c⟩ := e
    obtain rfl : k = srcKey id sub := by simpa using List.find?_some found
    exact clearSrc_inactive good found (plain c found)

/-- The source of ID 0x2C in t follows the drain of t's link, against the drain that s holds of the last accepted commit (R404). -/
structure LinkJudged (s t : State) : Prop where
  raised : ∀ d, s.pwr.drain = some d → pcieDrain t < d → srcActive t 0x2C 0 = true
  ended : (∀ d, s.pwr.drain = some d → d ≤ pcieDrain t) →
    (∀ x, s.srcs.find? (fun e => e.1 == srcKey 0x2C 0) = some (srcKey 0x2C 0, x) → x.esc = false) → srcActive t 0x2C 0 = false

theorem only_linkSource_self (s : State) : Only [.outbox, .queues, .faults] s (linkSource s) :=
  only_linkSource (List.Subset.refl _) (Only.refl _ s)

theorem linkSource_judges {s : State} (up : awake s = true) (line : lineBad s 0x2C 0 = false) : LinkJudged s (linkSource s) := by
  have drain := pcieDrain_of_only (only_linkSource_self s) (by decide)
  refine ⟨fun d held low => ?_, fun enough plain => ?_⟩
  · rw [drain] at low
    rw [linkSource, if_pos up, held, Option.any_some, decide_eq_true low]
    exact raise_active line _ _ _ _ _ _
  · have fine : s.pwr.drain.any (fun d => decide (pcieDrain s < d)) = false := by
      cases held : s.pwr.drain with
      | none => rfl
      | some d => simpa using drain ▸ enough d held
    rw [linkSource, if_pos up, fine]
    exact clearSrc_gone line plain

/-- The record of the supplies is made of the parts HALT latch, measured values, supplies and link. -/
theorem pwr_of_only {ps : List Part} {s t : State} (h : Only ps s t) (halt : Part.halt ∉ ps) (measured : Part.measured ∉ ps)
    (supplies : Part.supplies ∉ ps) (link : Part.link ∉ ps) : t.pwr = s.pwr := by
  have hHalt := h .halt halt
  have hMeasured := h .measured measured
  have hSupplies := h .supplies supplies
  have hLink := h .link link
  simp only [Part.same, Prod.mk.injEq] at hHalt hMeasured hSupplies hLink
  cases hs : s.pwr
  cases ht : t.pwr
  simp_all

theorem pwr_linkSource (s : State) : (linkSource s).pwr = s.pwr :=
  pwr_of_only (only_linkSource_self s) (by decide) (by decide) (by decide) (by decide)

/-! ## The link trains and retrains -/

/-- The link has come up with a speed, a width and the unmasked vectors. -/
def linkTrained (l : LinkIn) (s : State) : State :=
  { s with pwr := { s.pwr with perst := true, linkUp := true, gts := l.gts, width := l.width }, msix := l.msix }

theorem exec_pciePerst_high {s : State} (hosted : s.auto = false) (up : awake s = true) {l : LinkIn} (wide : l.width ≠ 0) :
    exec (.pciePerst true l) s = .next (linkSource (linkTrained l s)) := by
  have on : awake { s with pwr := { s.pwr with perst := true } } = true := up
  change execPciePerst true l s = _
  unfold execPciePerst trainLink
  dsimp only
  rw [if_neg (by simp [hosted]), if_pos rfl, if_pos on, if_neg (by simp [hosted, wide])]
  rfl

theorem only_linkTrained (l : LinkIn) (s : State) : Only [.host, .link] s (linkTrained l s) := by
  intro p hp
  cases p
  case host | link => exact absurd hp (by decide)
  all_goals rfl

/-- The link has retrained to a speed and a width. -/
def linkRetrained (gts width : Nat) (s : State) : State := { s with pwr := { s.pwr with gts := gts, width := width } }

theorem exec_pcieDegraded {s : State} (hosted : s.auto = false) (trained : s.pwr.linkUp = true) (gts width : Nat) :
    exec (.pcieDegraded gts width) s = .next (linkSource (linkRetrained gts width s)) := by
  change execPcieDegraded gts width s = _
  simp [execPcieDegraded, hosted, trained, linkRetrained]

theorem only_linkRetrained (gts width : Nat) (s : State) : Only [.link] s (linkRetrained gts width s) := by
  intro p hp
  cases p
  case link => exact absurd (List.mem_singleton_self _) hp
  all_goals rfl

/-- Settles O44: each event is one update of the endpoint, `linkSource` after it where the link has changed. -/
theorem endpointEventsStopTheRings : Obligations.EndpointEventsStopTheRings := by
  unfold Obligations.EndpointEventsStopTheRings
  intro l s judged hj
  refine ⟨fun hosted c listed => ?_, fun hosted up wide => ?_, fun gts width hosted trained => ?_, exec_busMasterOff_autonomous⟩
  · obtain ⟨reset, clear⟩ := exec_busMasterOff hosted
    obtain ⟨only, stops, bme, outbox, pwr, status, vectors⟩ := busMaster_off s
    have perst : c = .pciePerst false l ∨ (c ≠ .pciePerst false l ∧ exec c s = .next (busMaster false s)) := by
      simp only [List.mem_cons, List.not_mem_nil, or_false] at listed
      rcases listed with rfl | rfl | rfl
      · exact .inr ⟨nofun, reset⟩
      · exact .inr ⟨nofun, clear⟩
      · exact .inl rfl
    rcases perst with rfl | ⟨other, runs⟩
    · have stopped : StopsRings s (perstLow s) := ringsOff_stops rfl rfl
      exact ⟨_, exec_pciePerst_low hosted l, only_perstLow s, rfl, rfl, rfl, stopped.rings, stopped.lost, stopped.waiting,
        fun other => absurd rfl other, fun _ => ⟨rfl, rfl⟩⟩
    · exact ⟨_, runs, only.mono (by decide), outbox, bme, status, stops.rings, stops.lost, stops.waiting, fun _ => ⟨vectors, pwr⟩,
        fun same => absurd same other⟩
  · have source := only_linkSource_self (linkTrained l s)
    refine ⟨_, exec_pciePerst_high hosted up wide, ((only_linkTrained l s).mono (by decide)).trans (source.mono (by decide)),
      pwr_linkSource _, source .host (by decide), hj ▸ fun _ line => ?_⟩
    have follows := linkSource_judges (s := linkTrained l s) up line
    exact ⟨follows.raised, follows.ended⟩
  · refine ⟨_, exec_pcieDegraded hosted trained gts width,
      ((only_linkRetrained gts width s).mono (by decide)).trans ((only_linkSource_self _).mono (by decide)), pwr_linkSource _,
      hj ▸ fun up line => ?_⟩
    have follows := linkSource_judges (s := linkRetrained gts width s) up line
    exact ⟨follows.raised, follows.ended⟩

end Sys2Proof.Machine
end

section
/-! SUPPORT. Requests of the management channel (R438, R479, R481 to R483): their replies, what a NET_SET stages, and what leaves a port. -/

namespace Sys2Proof.Machine

/-! ## Requests and replies -/

theorem replyTo_eq (id kind sq status : Nat) (b : List Byte) (s : State) : replyTo id kind sq status b s =
    outp (.reply id (le 4 (5 + b.length) ++ (le 2 (kind + 0x8000) ++ le 2 sq ++ le 1 status ++ b))) s := by
  have length : (le 2 (kind + 0x8000) ++ le 2 sq ++ le 1 status ++ b).length = 5 + b.length := by
    simp only [List.length_append, length_le]
  rw [← length]
  rfl

section
variable {id : Nat} {x : Session} {s : State} (run : running s = true) (session : s.net.sessions.find? (fun x => x.id == id) = some x)
include run session

theorem request_any (kind sq : Nat) (act : State → State) : request id kind sq false act s = act s := by
  simp [request, session, run]

theorem request_owner (owner : x.owner = true) (kind sq : Nat) (act : State → State) : request id kind sq true act s = act s := by
  simp [request, session, run, owner]

theorem request_stranger (stranger : x.owner = false) (kind sq : Nat) (act : State → State) :
    request id kind sq true act s = replyTo id kind sq 0x41 [] s := by
  simp [request, session, run, stranger]

end

/-! ## NET_SET (R482) -/

/-- Words staged in the bits that their registers have. -/
def stageBits (l : List (Nat × Nat × Word)) (s : State) : State := l.foldl (fun s e => stage e.1 e.2.1 e.2.2 (rwsMask e.1) s) s

theorem stg_stageBits_other {o j : Nat} : ∀ (l : List (Nat × Nat × Word)) (s : State), (∀ e ∈ l, regKey o j ≠ regKey e.1 e.2.1) →
    stg (stageBits l s) o j = stg s o j
  | [], _, _ => rfl
  | e :: l, s, h => (stg_stageBits_other l _ fun x hx => h x (List.mem_cons_of_mem _ hx)).trans
      (stg_stage_other (h e (List.mem_cons_self ..)) _ _ s)

theorem stg_stageBits_mem {o j : Nat} {v : Word} {l : List (Nat × Nat × Word)} (each : OneWordEach l) (mem : (o, j, v) ∈ l) (s : State) :
    stg (stageBits l s) o j = maskIn (stg s o j) v (rwsMask o) := by
  induction l generalizing s with
  | nil => cases mem
  | cons e l ih =>
    change stg (stageBits l (stage e.1 e.2.1 e.2.2 (rwsMask e.1) s)) o j = _
    by_cases here : (o, j, v) = e
    · subst here
      by_cases again : (o, j, v) ∈ l
      · rw [ih each.tail again, stg_stage_same, maskIn_maskIn]
      · rw [stg_stageBits_other l _ fun x hx key => again (each _ mem x (List.mem_cons_of_mem _ hx) key ▸ hx), stg_stage_same]
    · have other : regKey o j ≠ regKey e.1 e.2.1 := fun key => here (each _ mem e (List.mem_cons_self ..) key)
      rw [ih each.tail ((List.mem_cons.mp mem).resolve_left here), stg_stage_other other]

theorem maskIn_and (a v m : Word) : maskIn a v m &&& m = v &&& m := by
  unfold maskIn
  ext i hi
  simp only [BitVec.getElem_or, BitVec.getElem_and, BitVec.getElem_not]
  cases m[i] <;> simp

/-- The words of a NET_SET body by register and number. -/
def netWords (body : List Byte) : List (Nat × Nat × Word) := (Config.netBody body).map fun e => (netOfs e.1, e.2)

theorem stageNet_eq (body : List Byte) (s : State) : stageNet body s = stageBits (netWords body) s := by
  rw [stageNet, stageBits, netWords, List.foldl_map]

/-- Entries that differ in object or number are words of different registers. -/
theorem netWords_oneWordEach {body : List Byte} (legal : ∀ e ∈ Config.netBody body, rwsMask (netOfs e.1) ≠ 0 ∧ e.2.1 < netInst e.1)
    (once : ((Config.netBody body).map (fun e => (e.1, e.2.1))).Nodup) : OneWordEach (netWords body) := by
  have few (o : Nat) : netInst o ≤ 16 := by unfold netInst; split_ifs <;> omega
  intro e he x hx key
  obtain ⟨a, ha, rfl⟩ := List.mem_map.mp he
  obtain ⟨b, hb, rfl⟩ := List.mem_map.mp hx
  have inA := (legal a ha).2.trans_le (few a.1)
  have inB := (legal b hb).2.trans_le (few b.1)
  simp only [regKey, netOfs] at key
  have same : (a.1, a.2.1) = (b.1, b.2.1) := Prod.ext (by dsimp only; omega) (by dsimp only; omega)
  rw [List.inj_on_of_nodup_map once ha hb same]

/-! ## What leaves a port (R472, R479) -/

theorem port_modPort_same (p : Nat) (g : Port → Port) (s : State) : port (modPort p g s) p = g (port s p) := by
  unfold port modPort
  split <;> rfl

theorem port_modPort_other {p : Nat} (hp : p < 2) (g : Port → Port) (s : State) : port (modPort p g s) (1 - p) = port s (1 - p) := by
  interval_cases p <;> rfl

theorem port_of_only {ps : List Part} {s t : State} (h : Only ps s t) (hp : Part.ports ∉ ps) (q : Nat) : port t q = port s q := by
  obtain ⟨first, second⟩ := Prod.mk.inj (h .ports hp)
  unfold port
  rw [first, second]

theorem port_macsecSrc (s : State) (q : Nat) : port (macsecSrc s) q = port s q :=
  port_of_only (only_macsecSrc (List.Subset.refl _) (Only.refl _ s)) (by decide) q

/-- From s to t port p may have sent: the other port, and how p receives, are as they were. -/
structure SendsOn (p : Nat) (s t : State) : Prop where
  other : port t (1 - p) = port s (1 - p)
  macsec : (port t p).macsec = (port s p).macsec
  rx0 : (port t p).rx0 = (port s p).rx0
  rx1 : (port t p).rx1 = (port s p).rx1

theorem SendsOn.refl (p : Nat) (s : State) : SendsOn p s s := ⟨rfl, rfl, rfl, rfl⟩

theorem SendsOn.trans {p : Nat} {s t u : State} (a : SendsOn p s t) (b : SendsOn p t u) : SendsOn p s u :=
  ⟨b.other.trans a.other, b.macsec.trans a.macsec, b.rx0.trans a.rx0, b.rx1.trans a.rx1⟩

theorem SendsOn.of_ports {p : Nat} {s t : State} (same : ∀ q, port t q = port s q) : SendsOn p s t :=
  ⟨same _, by rw [same], by rw [same], by rw [same]⟩

section
variable {p : Nat} (hp : p < 2)
include hp

theorem sendsOn_modPort {g : Port → Port} {s : State} (macsec : (g (port s p)).macsec = (port s p).macsec)
    (rx0 : (g (port s p)).rx0 = (port s p).rx0) (rx1 : (g (port s p)).rx1 = (port s p).rx1) : SendsOn p s (modPort p g s) := by
  refine ⟨port_modPort_other hp g s, ?_, ?_, ?_⟩ <;> rwa [port_modPort_same]

/-- The next packet number of an SA, which is then the one in use. -/
theorem sendsOn_putPn (an : Bool) (a : Sa) (s : State) :
    SendsOn p s (modPort p (fun x => if an then { x with txAn := an, tx1 := some a } else { x with txAn := an, tx0 := some a }) s) := by
  cases an <;> exact sendsOn_modPort hp rfl rfl rfl

theorem sendsOn_takePn (s : State) : SendsOn p s (takePn p s).2 := by
  unfold takePn
  dsimp only
  split
  · exact .refl p s
  · exact .trans (sendsOn_putPn hp _ _ s) (.of_ports (port_macsecSrc _))

theorem sendsOn_txNow (o : NetTx) (s : State) : SendsOn p s (txNow p o s) := by
  have taken {a : Option Sa} {u : State} (e : takePn p s = (a, u)) : SendsOn p s u := by
    have := sendsOn_takePn hp s
    rwa [e] at this
  have sent (x : Output) (t : State) : SendsOn p t (outp x t) := .of_ports fun _ => rfl
  unfold txNow
  dsimp only
  split
  · split
    · split
      · exact sent _ s
      · split
        · next e => exact (taken e).trans (sent _ _)
        · next e => exact taken e
    · split
      · next e => exact (taken e).trans (sent _ _)
      · next e => exact taken e
  · split <;> exact sent _ s

theorem sendsOn_sendPort (tc : Nat) (o : NetTx) (s : State) : SendsOn p s (sendPort p tc o s) := by
  unfold sendPort
  split
  · exact .refl p s
  · split
    · exact sendsOn_txNow hp o s
    · exact sendsOn_modPort hp rfl rfl rfl

theorem sendsOn_gateFlush (s : State) : SendsOn p s (gateFlush p s) := by
  have all (l : List (Nat × NetTx)) : ∀ t, SendsOn p t (l.foldl (fun s e => sendPort p e.1 e.2 s) t) := by
    induction l with
    | nil => exact .refl p
    | cons e l ih => exact fun t => (sendsOn_sendPort hp e.1 e.2 t).trans (ih _)
  exact (sendsOn_modPort hp (g := fun x => { x with waiting := [] }) rfl rfl rfl).trans (all _ _)

end

/-- Nothing leaves a port on which nothing waits. -/
theorem port_gateFlush_idle {p : Nat} {s : State} (idle : (port s p).waiting = []) : port (gateFlush p s) p = port s p := by
  unfold gateFlush
  rw [idle]
  change port (modPort p (fun x => { x with waiting := [] }) s) p = _
  rw [port_modPort_same, ← idle]

/-! ## A change of a port's MACsec, and its reply (R478, R479) -/

/-- A port changes; the collector is told of its packet numbers, and what waited may leave. -/
def portRekeyed (p : Nat) (g : Port → Port) (s : State) : State := gateFlush p (macsecSrc (modPort p g s))

theorem only_portRekeyed (p : Nat) (g : Port → Port) (s : State) : Only [.outbox, .queues, .faults, .ports] s (portRekeyed p g s) :=
  only_gateFlush p (by decide) (only_macsecSrc (by decide) (only_modPort p g (by decide) (Only.refl _ s)))

theorem portRekeyed_spec {p : Nat} (hp : p < 2) (g : Port → Port) (s : State) :
    port (portRekeyed p g s) (1 - p) = port s (1 - p) ∧ (port (portRekeyed p g s) p).macsec = (g (port s p)).macsec ∧
    (port (portRekeyed p g s) p).rx0 = (g (port s p)).rx0 ∧ (port (portRekeyed p g s) p).rx1 = (g (port s p)).rx1 ∧
    ((g (port s p)).waiting = [] → port (portRekeyed p g s) p = g (port s p)) := by
  have before : port (macsecSrc (modPort p g s)) p = g (port s p) := (port_macsecSrc _ p).trans (port_modPort_same p g s)
  obtain ⟨other, macsec, rx0, rx1⟩ := sendsOn_gateFlush hp (macsecSrc (modPort p g s))
  rw [before] at macsec rx0 rx1
  refine ⟨other.trans ((port_macsecSrc _ _).trans (port_modPort_other hp g s)), macsec, rx0, rx1, fun idle => ?_⟩
  exact (port_gateFlush_idle (before ▸ idle)).trans before

theorem waiting_putRx (a : Sa) (x : Port) : (putRx a x).waiting = x.waiting := by
  unfold putRx
  split_ifs <;> rfl

theorem waiting_putTx (a : Sa) (x : Port) : (putTx a x).waiting = x.waiting := by
  unfold putTx
  split_ifs <;> rfl

theorem putRx_holds (a : Sa) (x : Port) : (putRx a x).rx0 = some a ∨ (putRx a x).rx1 = some a := by
  unfold putRx
  split_ifs
  · exact .inl rfl
  · exact .inr rfl
  · exact .inl rfl

/-- A port with a new SA, for reception or transmission, and MACsec enabled. -/
def keyed (rx : Bool) (a : Sa) (x : Port) : Port := { (if rx then putRx a x else putTx a x) with macsec := true }

theorem waiting_keyed (rx : Bool) (a : Sa) (x : Port) : (keyed rx a x).waiting = x.waiting := by
  cases rx
  · exact waiting_putTx a x
  · exact waiting_putRx a x

/-! ## The requests of an owner -/

/-- The descriptor of a request in the next entry of the command ring, its doorbell rung; the request waits for the result (R438). -/
def descQueued (id sq : Nat) (d : Desc) (s : State) : State :=
  let r := ring s cmdRing
  modRing cmdRing (fun x => { x with p := x.p + 1, db := x.p + 1 })
    { outp (.hostWrite (r.base + BitVec.ofNat 64 (32 * (r.p.toNat % ringSize r))) (padTo 32 d.raw)) s with
      net := { s.net with asked := tput s.net.asked (r.p.toNat % 65536) (id, sq) } }

section
variable {id : Nat} {x : Session} {s : State} (run : running s = true) (session : s.net.sessions.find? (fun x => x.id == id) = some x)
  (owner : x.owner = true) (sq : Nat)
include run session owner

theorem exec_netSet_sealed (locked : s.sec.lc = lcSealed) (body : List Byte) :
    exec (.netSet id sq body) s = .next (replyTo id 2 sq 0x40 [] s) := by
  change Host.Outcome.next (request _ _ _ _ _ _) = _
  rw [request_owner run session owner, if_pos locked]

theorem exec_netSet_stages (unlocked : s.sec.lc ≠ lcSealed) {body : List Byte} (legal : (Config.netBody body).all netEntOk = true) :
    exec (.netSet id sq body) s = .next (replyTo id 2 sq 0 [] (stageNet body s)) := by
  change Host.Outcome.next (request _ _ _ _ _ _) = _
  rw [request_owner run session owner, if_neg unlocked, if_pos legal]

theorem exec_macsecKey (alive : s.sec.lc ≠ Machine.lcVoid) {p an ssci pn : Nat} {key : List Byte} (hp : p < 2) (ha : an ≤ 3)
    (hk : key.length = 32) (hn : pn < 2 ^ 32) (hi : ssci < 2 ^ 32) (rx : Bool) : exec (.macsecKey id sq p rx an key ssci pn) s =
      .next (replyTo id 3 sq 0 [] (portRekeyed p (keyed rx ⟨an, key, ssci, pn⟩) s)) := by
  have legal : ¬(decide (p > 1) || decide (an > 3) || decide (key.length ≠ 32) || decide (pn ≥ 2 ^ 32) ||
      decide (ssci ≥ 2 ^ 32)) = true := by
    simp only [Bool.or_eq_true, decide_eq_true_eq]
    omega
  change Host.Outcome.next (request _ _ _ _ _ _) = _
  rw [request_owner run session owner, if_neg alive, if_neg legal]
  rfl

theorem exec_macsecTxChange (alive : s.sec.lc ≠ Machine.lcVoid) {p : Nat} (hp : p < 2) : exec (.macsecTxChange id sq p) s =
    .next (if (txOther (port s p)).isNone then replyTo id 3 sq 0x15 [] s
      else replyTo id 3 sq 0 [] (portRekeyed p (fun x => { x with txAn := !x.txAn }) s)) := by
  change Host.Outcome.next (request _ _ _ _ _ _) = _
  rw [request_owner run session owner, if_neg alive, if_neg (by omega)]
  rfl

theorem exec_descriptor_hosted (hosted : s.auto = false) (d : Desc) :
    exec (.descriptor id sq d) s = .next (replyTo id 4 sq 0x40 [] s) := by
  change Host.Outcome.next (request _ _ _ _ _ _) = _
  rw [request_owner run session owner, if_pos (by simp [hosted])]

theorem exec_descriptor_queues (autonomous : s.auto = true) {d : Desc} (fits : d.pay.length ≤ 262144) (on : (ring s cmdRing).en = true)
    (room : ringUsed (ring s cmdRing) < ringSize (ring s cmdRing)) : exec (.descriptor id sq d) s = .next (descQueued id sq d s) := by
  change Host.Outcome.next (request _ _ _ _ _ _) = _
  rw [request_owner run session owner]
  dsimp only
  rw [if_neg (by simp [autonomous]), if_neg (by omega), if_neg (by simp [on, room])]
  rfl

end

theorem only_descQueued (id sq : Nat) (d : Desc) (s : State) : Only [.outbox, .rings, .sessions] s (descQueued id sq d s) := by
  intro p hp
  cases p
  case outbox | rings | sessions => exact absurd hp (by decide)
  all_goals rfl

/-- Settles O49: each request is `request` in a session of its kind, and ends in `replyTo` but for the DESCRIPTOR that is queued. -/
theorem requestsAreAnswered : Obligations.RequestsAreAnswered := by
  unfold Obligations.RequestsAreAnswered
  intro id sq x s run session ans hans
  have answers (k st : Nat) (b : List Byte) (u : State) : replyTo id k sq st b u = { u with outbox := ans k st b :: u.outbox } := by
    rw [hans, replyTo_eq]
    rfl
  refine ⟨fun ofs n legal => ?_, fun stranger k c listed => ?_, fun owner => ⟨fun body unlocked legal once => ?_, fun body locked => ?_,
    fun p rx an key ssci pn alive hp ha hk hn hi a hSa => ?_, fun p alive hp => ⟨fun installed idle => ?_, fun none => ?_⟩,
    fun d hosted => ?_, fun d r hr autonomous fits on room => ?_⟩⟩
  · rw [← answers]
    change Host.Outcome.next (request _ _ _ _ _ _) = _
    rw [request_any run session, if_pos legal]
  · rw [← answers]
    rcases listed with ⟨_, e⟩ | ⟨_, e⟩ | ⟨_, e⟩ | ⟨_, _, _, _, _, _, e⟩ <;> obtain ⟨rfl, rfl⟩ := Prod.mk.inj e <;>
      exact congrArg _ (request_stranger run session stranger _ sq _)
  · have fine : (Config.netBody body).all netEntOk = true := List.all_eq_true.mpr fun e he => by simpa [netEntOk] using legal e he
    rw [exec_netSet_stages run session owner sq unlocked fine, answers]
    have staged := only_stageNet (ps := [.staged]) body (List.Subset.refl _) (Only.refl _ s)
    have told := only_replyTo (ps := [.outbox]) id 2 sq 0 [] (List.Subset.refl _) (Only.refl _ (stageNet body s))
    rw [answers] at told
    refine ⟨_, rfl, (staged.mono (by decide)).trans (told.mono (by decide)), ?_, fun o i v mem => ?_⟩
    · rw [outbox_of_only staged (by decide)]
    · have word : (netOfs o, i, v) ∈ netWords body := List.mem_map.mpr ⟨_, mem, rfl⟩
      change stg (stageNet body s) (netOfs o) i &&& _ = _
      rw [stageNet_eq, stg_stageBits_mem (netWords_oneWordEach legal once) word, maskIn_and]
  · rw [exec_netSet_sealed run session owner sq locked, answers]
  · obtain ⟨other, macsec, rx0, rx1, whole⟩ := portRekeyed_spec hp (keyed rx a) s
    rw [exec_macsecKey run session owner sq alive hp ha hk hn hi, ← hSa, answers]
    have told := only_replyTo (ps := [.outbox]) id 3 sq 0 [] (List.Subset.refl _) (Only.refl _ (portRekeyed p (keyed rx a) s))
    rw [answers] at told
    refine ⟨_, _, rfl, (only_portRekeyed p _ s).trans (told.mono (by decide)), rfl, macsec, other, fun hrx => ?_, fun idle => ?_⟩
    · subst hrx
      exact (putRx_holds a (port s p)).imp rx0.trans rx1.trans
    · exact whole ((waiting_keyed rx a _).trans idle)
  · obtain ⟨other, _, _, _, whole⟩ := portRekeyed_spec hp (fun x => { x with txAn := !x.txAn }) s
    rw [exec_macsecTxChange run session owner sq alive hp, if_neg (by simpa [Option.isSome_iff_ne_none] using installed), answers]
    have told := only_replyTo (ps := [.outbox]) id 3 sq 0 [] (List.Subset.refl _)
      (Only.refl _ (portRekeyed p (fun x => { x with txAn := !x.txAn }) s))
    rw [answers] at told
    exact ⟨_, _, rfl, (only_portRekeyed p _ s).trans (told.mono (by decide)), rfl, whole idle, other⟩
  · rw [exec_macsecTxChange run session owner sq alive hp, none, answers]
    rfl
  · rw [exec_descriptor_hosted run session owner sq hosted, answers]
  · subst hr
    exact ⟨_, exec_descriptor_queues run session owner sq autonomous fits on room, only_descQueued id sq d s, rfl,
      ring_modRing_same _ _ _, fun j other => ring_modRing_other other _ _, rfl, tget_tput_same _ _ _ _⟩

end Sys2Proof.Machine
end

section
/-! SUPPORT. Accesses of BAR0 other than those of a 64-bit register's halves, of BAR2 and of configuration space, and those that are
not supported (R402, R405, R406, R408). -/

namespace Sys2Proof.Machine

theorem unsupported_open {p : Path} {s : State} (reach : pathOpen p s = true) :
    unsupported p s = { s with outbox := .unsupported p :: s.outbox } := if_pos reach

/-! ## BAR0 -/

section
variable {p : Path} {ofs : Nat} {s : State} (on : s.phase ≠ .off) (up : s.phase ≠ .reset)
include on up

theorem exec_read_plain (reach : pathOpen p s = true) (aligned : ofs % 4 = 0) (below : ofs < 0x10000) (single : is64 ofs = false) :
    exec (.reg64LowRead p ofs) s = .next (answer p ((readReg p s ofs).setWidth 64) s) := by
  change execReg64LowRead p ofs s = _
  simp [execReg64LowRead, on, up, reach, readAligned, aligned, below, single]

theorem exec_read_unaligned (reach : pathOpen p s = true) (unaligned : ofs % 4 ≠ 0) :
    exec (.reg64LowRead p ofs) s = .next (unsupported p s) := by
  change execReg64LowRead p ofs s = _
  simp [execReg64LowRead, on, up, reach, readAligned, unaligned]

theorem exec_wideRead_pair (pair : isRwp ofs = true) :
    exec (.reg64AtomicRead p ofs) s = .next (answer p (readReg p s (ofs + 4) ++ readReg p s ofs) s) := by
  have aligned : ofs % 8 = 0 := by rcases isRwp_cases pair with rfl | rfl | rfl | rfl <;> rfl
  change execReg64AtomicRead p ofs s = _
  simp [execReg64AtomicRead, on, up, pair, aligned, join64_append]

theorem exec_wideRead_unsupported (single : ¬(ofs % 8 = 0 ∧ (is64 ofs = true ∨ isRwp ofs = true))) :
    exec (.reg64AtomicRead p ofs) s = .next (unsupported p s) := by
  have shape : ¬(decide (ofs % 8 = 0) && (is64 ofs || isRwp ofs)) = true := by simpa using single
  change execReg64AtomicRead p ofs s = _
  rw [execReg64AtomicRead, if_neg (by simp [on, up]), if_neg (by simp), if_neg shape]

theorem exec_write_unsupported {len : Nat} (narrow : ¬(len = 4 ∧ ofs % 4 = 0 ∧ ofs < 0x10000))
    (wide : ¬(len = 8 ∧ ofs % 8 = 0 ∧ is64 ofs = true)) (v : DWord) (hw : Word) :
    exec (.registerWrite p ofs len v hw) s = .next (unsupported p s) := by
  have sticky : ¬(decide (len = 4) && stickyOfs ofs && bit (pathRegs p s).chnSel 16) = true := by
    simp only [stickyOfs, Bool.and_eq_true, Bool.or_eq_true, beq_iff_eq, decide_eq_true_eq]
    omega
  change execRegisterWrite p ofs len v s hw = _
  rw [execRegisterWrite, if_neg (by simp [on, up]), if_neg (by simp), if_neg sticky, if_neg (by simpa [and_assoc] using narrow),
    if_neg (by simpa [and_assoc] using wide)]

end

/-- A word of the module's staged bits reads as its path sees them. -/
theorem regValue_staged {p : Path} {s : State} {ofs : Nat} (single : complOf ofs = none) (first : 0x1000 ≤ ofs) (last : ofs < 0xA000)
    (bits : rwsMask ofs ≠ 0) : regValue p s ofs = viewWord (pathRegs p s) s ofs (instanceOf (pathRegs p s) ofs) := by
  unfold regValue
  rw [single]
  dsimp only
  rw [if_neg (by omega), if_neg (by omega), if_pos bits]

theorem regValue_complement {p : Path} {s : State} {ofs o : Nat} (h : complOf ofs = some o) :
    regValue p s ofs = ~~~viewWord (pathRegs p s) s o (instanceOf (pathRegs p s) o) := by
  unfold regValue
  rw [h]

/-- The complement word of a pair is the exact complement of its value word (R13). -/
theorem readReg_complement {p : Path} {s : State} {ofs : Nat} (pair : isRwp ofs = true) (value : readOpen s ofs = true)
    (complement : readOpen s (ofs + 4) = true) : readReg p s (ofs + 4) = ~~~readReg p s ofs := by
  have word : complOf ofs = none ∧ 0x1000 ≤ ofs ∧ ofs < 0xA000 ∧ rwsMask ofs ≠ 0 := by
    rcases isRwp_cases pair with rfl | rfl | rfl | rfl <;> decide
  obtain ⟨single, first, last, bits⟩ := word
  rw [readReg, readReg, if_pos value, if_pos complement, regValue_complement (complOf_rwp pair), regValue_staged single first last bits]

/-! ## BAR2 and configuration space -/

section
variable {s : State} (trained : endpointOpen s = true)
include trained

theorem endpointOpen_hosted : s.auto = false ∧ s.phase ≠ .off ∧ s.phase ≠ .reset := by
  simp only [endpointOpen, Bool.and_eq_true, bne_iff_ne, Bool.not_eq_true'] at trained
  obtain ⟨⟨⟨hosted, _⟩, on⟩, up⟩ := trained
  exact ⟨hosted, on, up⟩

theorem endpointOpen_reach : pathOpen .pcie s = true := by simp [pathOpen, (endpointOpen_hosted trained).1]

variable {ofs : Nat}

theorem exec_bar2Read : exec (.reg64LowRead .pcie ofs .bar2) s =
    .next (if bar2Aligned ofs then answer .pcie ((bar2Read s ofs).setWidth 64) s else unsupported .pcie s) := by
  obtain ⟨_, on, up⟩ := endpointOpen_hosted trained
  change execReg64LowRead .pcie ofs s .bar2 = _
  simp [execReg64LowRead, endpointRead, on, up, endpointOpen_reach trained, trained]

theorem exec_configRead : exec (.reg64LowRead .pcie ofs .config) s =
    .next (if ofs % 4 = 0 then answer .pcie ((pciRead s ofs).setWidth 64) s else unsupported .pcie s) := by
  obtain ⟨_, on, up⟩ := endpointOpen_hosted trained
  change execReg64LowRead .pcie ofs s .config = _
  simp [execReg64LowRead, endpointRead, on, up, endpointOpen_reach trained, trained]

theorem exec_bar2Write (run : running s = true) (v : DWord) : exec (.registerWrite .pcie ofs 4 v 0 [] .bar2) s =
    .next (if bar2Aligned ofs then bar2Write ofs (v.setWidth 32) s else unsupported .pcie s) := by
  obtain ⟨_, on, up⟩ := endpointOpen_hosted trained
  change execRegisterWrite .pcie ofs 4 v s 0 [] .bar2 = _
  simp [execRegisterWrite, endpointWrite, on, up, run, trained]

theorem exec_configWrite (v : DWord) : exec (.registerWrite .pcie ofs 4 v 0 [] .config) s =
    .next (if ofs % 4 = 0 then pciWrite ofs (v.setWidth 32) s else unsupported .pcie s) := by
  obtain ⟨_, on, up⟩ := endpointOpen_hosted trained
  change execRegisterWrite .pcie ofs 4 v s 0 [] .config = _
  simp [execRegisterWrite, endpointWrite, on, up, trained]

end

theorem bar2Aligned_iff {ofs : Nat} : bar2Aligned ofs = true ↔ ofs % 4 = 0 ∧ ofs < 0x1000 := by
  simp [bar2Aligned]

/-! ## What stands in BAR2 -/

theorem msixDword_entry {i : Nat} (h : i < 128) : msixDword (0x800 + 4 * i) = some i := by
  rw [msixDword, if_pos (by simp only [inBlock, Bool.and_eq_true, decide_eq_true_eq, beq_iff_eq]; omega)]
  exact congrArg some (by omega)

theorem bar2Read_msix {i : Nat} (h : i < 128) (s : State) : bar2Read s (0x800 + 4 * i) = msixRead s i := by
  rw [bar2Read, msixDword_entry h]

theorem bar2Read_pending (s : State) : bar2Read s 0xC00 = BitVec.ofNat 32 s.pba := rfl

theorem bar2Read_doorbell {ofs r : Nat} (h : doorbellRing ofs = some r) (s : State) : bar2Read s ofs = (ring s r).db := by
  obtain ⟨_, below, _⟩ := doorbellRing_place h
  rw [bar2Read, msixDword_doorbell h]
  dsimp only
  rw [if_neg (by omega), doorbellRead, h]

theorem bar2Write_msix {i : Nat} (h : i < 128) {s : State} (hosted : s.auto = false) (v : Word) :
    bar2Write (0x800 + 4 * i) v s = msixWrite i v s := by
  rw [bar2Write, msixDword_entry h]
  exact if_neg (by simp [hosted])

/-- An offset of BAR2 where neither table nor doorbell stands. -/
theorem bar2Write_nothing {ofs : Nat} (table : msixDword ofs = none) (bell : doorbellRing ofs = none) (v : Word) (s : State) :
    bar2Write ofs v s = s := by
  rw [bar2Write, table]
  dsimp only
  rw [doorbell, bell]

/-! ## The MSI-X table (R402, R406) -/

theorem msixWrite_entry {i : Nat} (entry : i % 4 ≠ 3) (v : Word) (s : State) :
    msixWrite i v s = { s with ep := { s.ep with tab := tput s.ep.tab i v } } := if_neg entry

/-- Vector n masked or not. -/
def vectorMasked (n : Nat) (on : Bool) (s : State) : State := { s with msix := setBit s.msix n (!on) }

theorem msixWrite_control (n : Nat) (v : Word) (s : State) : msixWrite (4 * n + 3) v s =
    if s.pba.testBit n && !bit v 0 then msi n { vectorMasked n (bit v 0) s with pba := setBit s.pba n false }
    else vectorMasked n (bit v 0) s := by
  have vector : (4 * n + 3) / 4 = n := by omega
  rw [msixWrite, if_pos (by omega), vector]
  rfl

theorem only_setPba (s : State) (m : Nat) : Only [.outbox] s { s with pba := m } := by
  intro p hp
  cases p
  case outbox => exact absurd (List.mem_singleton_self _) hp
  all_goals rfl

theorem only_msixWrite_control (n : Nat) (v : Word) (s : State) :
    Only [.outbox] (vectorMasked n (bit v 0) s) (msixWrite (4 * n + 3) v s) := by
  rw [msixWrite_control]
  exact Only.ite (only_msi n (List.Subset.refl _) (only_setPba _ _)) (Only.refl _ _)

/-- A message of an unmasked vector is sent (R406). -/
theorem msi_sends {n : Nat} {s : State} (master : s.bme = true) (unmasked : s.msix.testBit n = true) (hosted : s.auto = false) :
    msi n s = outp (.msix n) s := if_pos (by simp [master, unmasked, hosted])

/-- A vector's mask is written; the message that has waited behind it leaves with the mask. -/
theorem msixWrite_masks {n : Nat} {s : State} (hosted : s.auto = false) (v : Word) {t : State} (ht : t = msixWrite (4 * n + 3) v s) :
    Only [.outbox, .host] s t ∧ (t.stsBase, t.tickIrq, t.tickDiv, t.bme, t.ep) = (s.stsBase, s.tickIrq, s.tickDiv, s.bme, s.ep) ∧
    t.msix.testBit n = !bit v 0 ∧ (∀ m, m ≠ n → t.msix.testBit m = s.msix.testBit m) ∧
    (bit v 0 = true ∨ s.pba.testBit n = false → t.outbox = s.outbox ∧ t.pba = s.pba) ∧
    (bit v 0 = false → s.pba.testBit n = true → s.bme = true →
      t.outbox = .msix n :: s.outbox ∧ t.pba.testBit n = false ∧ ∀ m, m ≠ n → t.pba.testBit m = s.pba.testBit m) := by
  have control := only_msixWrite_control n v s
  have host := control .host (by decide)
  simp only [Part.same, Prod.mk.injEq] at host
  obtain ⟨base, irq, div, bme, msix, ep⟩ := host
  subst ht
  refine ⟨only_msixWrite _ v (List.Subset.refl _) (Only.refl _ s), by rw [base, irq, div, bme, ep]; rfl, ?_, fun m other => ?_,
    fun still => ?_, fun clear waits master => ?_⟩
  · rw [msix, vectorMasked, testBit_setBit, if_pos rfl]
  · rw [msix, vectorMasked, testBit_setBit, if_neg other]
  · rw [msixWrite_control, if_neg (by rcases still with h | h <;> simp [h])]
    exact ⟨rfl, rfl⟩
  · have unmasked : (setBit s.msix n (!bit v 0)).testBit n = true := by rw [testBit_setBit, if_pos rfl, clear]; rfl
    have sent := msi_sends (s := { vectorMasked n (bit v 0) s with pba := setBit s.pba n false }) master unmasked hosted
    rw [msixWrite_control, if_pos (by simp [waits, clear]), sent]
    refine ⟨rfl, ?_, fun m other => ?_⟩
    · change (setBit s.pba n false).testBit n = false
      rw [testBit_setBit, if_pos rfl]
    · change (setBit s.pba n false).testBit m = _
      rw [testBit_setBit, if_neg other]

/-! ## Configuration space (R402, R406) -/

theorem pciWrite_command (v : Word) (s : State) : pciWrite 0x04 v s = busMaster (bit v 2) s := rfl

theorem pciWrite_bar {ofs : Nat} (bar : ofs ∈ [0x10, 0x14, 0x18, 0x1C]) (v : Word) (s : State) :
    pciWrite ofs v s = { s with ep := { s.ep with bars := tput s.ep.bars ofs (v &&& barMask ofs) } } := by
  have writable : ∀ o ∈ [0x10, 0x14, 0x18, 0x1C], o ≠ 0x04 ∧ barMask o ≠ 0 := by decide
  obtain ⟨command, bits⟩ := writable ofs bar
  rw [pciWrite, if_neg command, if_neg bits]

theorem bit_setWidth (v : DWord) {i : Nat} (h : i < 32) : bit (v.setWidth 32) i = v.getLsbD i := by
  simp [bit, h]

/-- Settles O11: each access is one read, one write or `unsupported`, by where it lies; what BAR2 holds there is told by its layout. -/
theorem accessesOfOtherShapes : Obligations.AccessesOfOtherShapes := by
  unfold Obligations.AccessesOfOtherShapes
  intro p ofs s reach on up
  refine ⟨fun aligned below single => ?_, fun unaligned => ?_, fun pair value complement => ?_, fun single => ?_,
    fun len v hw narrow wide => ?_, fun trained => ?_, fun trained run v => ?_⟩
  · rw [exec_read_plain on up reach aligned below single, answer_open reach]
  · rw [exec_read_unaligned on up reach unaligned, unsupported_open reach]
  · rw [exec_wideRead_pair on up pair, readReg_complement pair value complement, answer_open reach]
  · rw [exec_wideRead_unsupported on up single, unsupported_open reach]
  · rw [exec_write_unsupported on up narrow wide, unsupported_open reach]
  · have here := endpointOpen_reach trained
    refine ⟨fun i place h => ?_, fun place => ?_, fun r bell => ?_, fun shape => ?_, fun aligned => ?_, fun unaligned => ?_⟩
    · subst place
      rw [exec_bar2Read trained, if_pos (bar2Aligned_iff.mpr (by omega)), bar2Read_msix h, answer_open here]
    · subst place
      rw [exec_bar2Read trained, if_pos (by decide), bar2Read_pending, ← BitVec.ofNat_toNat, BitVec.toNat_ofNat, answer_open here]
    · obtain ⟨aligned, below, _⟩ := doorbellRing_place bell
      rw [exec_bar2Read trained, if_pos (bar2Aligned_iff.mpr (by omega)), bar2Read_doorbell bell, answer_open here]
    · rw [exec_bar2Read trained, if_neg (fun h => absurd (bar2Aligned_iff.mp h) (by omega)), unsupported_open here]
    · rw [exec_configRead trained, if_pos aligned, answer_open here]
    · rw [exec_configRead trained, if_neg unaligned, unsupported_open here]
  · obtain ⟨hosted, _⟩ := endpointOpen_hosted trained
    have here := endpointOpen_reach trained
    refine ⟨fun i h entry => ?_, fun n h => ?_, fun aligned below table bell => ?_, fun set => ?_, fun clear => ?_, fun bar => ?_,
      fun unaligned => ⟨?_, ?_⟩⟩
    · rw [exec_bar2Write trained run, if_pos (bar2Aligned_iff.mpr (by omega)), bar2Write_msix h hosted, msixWrite_entry entry]
    · have place : 0x800 + 16 * n + 12 = 0x800 + 4 * (4 * n + 3) := by omega
      rw [place, exec_bar2Write trained run, if_pos (bar2Aligned_iff.mpr (by omega)), bar2Write_msix (by omega) hosted,
        ← bit_setWidth v (by decide : 0 < 32)]
      exact ⟨_, rfl, msixWrite_masks hosted _ rfl⟩
    · have shape := bar2Aligned_iff.mpr ⟨aligned, below⟩
      have away : ofs ≠ 0 := fun zero => by subst zero; cases bell
      rw [exec_bar2Write trained run, if_pos shape, exec_dbConsumer run away shape, bar2Write_nothing table bell]
      exact ⟨rfl, rfl⟩
    · rw [exec_configWrite trained, if_pos (by decide), pciWrite_command, bit_setWidth v (by decide), set]
      rfl
    · obtain ⟨_, stops, bme, _⟩ := busMaster_off s
      rw [exec_configWrite trained, if_pos (by decide), pciWrite_command, bit_setWidth v (by decide), clear]
      refine ⟨_, rfl, bme, fun r _ => ?_, rfl⟩
      rw [stops.rings]
    · have aligned : ∀ o ∈ [0x10, 0x14, 0x18, 0x1C], o % 4 = 0 := by decide
      rw [exec_configWrite trained, if_pos (aligned ofs bar), pciWrite_bar bar]
    · rw [exec_bar2Write trained run, if_neg (fun h => unaligned (bar2Aligned_iff.mp h).1), unsupported_open here]
    · rw [exec_configWrite trained, if_neg unaligned, unsupported_open here]

end Sys2Proof.Machine
end

section
/-! SUPPORT. The operations that move the life cycle: what an accepted one comes to, and what it leaves of the security state (R535 to R539,
Tables 16-3 and 16-8). -/

namespace Sys2Proof.Machine

/-! ## The security state after a transition -/

/-- The security state x after a transition to nx, with the cause that approved mode then shows (R456, R517, R535). -/
def enteredSec (nx cause : Nat) (x : Sec) : Sec :=
  { x with
    lc := nx, slots := if nx = lcVoid then x.slots else x.slots + 1, unlocked := false,
    dbg := if nx = lcOwned || nx = lcSealed || nx = lcVoid then 0 else x.dbg,
    approved := (nx == lcOwned || nx == lcSealed) && x.approved, naCause := cause }

/-- The security state x without the owner's material (Table 16-3, RETURN column). -/
def zeroisedSec (x : Sec) : Sec :=
  { x with
    ownerEpoch := x.ownerEpoch + 1, keys := [], ldev := none, ldevCert := none, nonce := none, unlocked := false, blobSeq := 0,
    storeA := [], storeB := [] }

theorem secBreak_sec (code : Nat) (s : State) : ∃ cause, (secBreak code s).sec = { s.sec with approved := false, naCause := cause } := by
  unfold secBreak
  split
  · refine ⟨code, ?_⟩
    rw [sec_of_only (only_noteEvent (ps := [.outbox, .queues, .faults]) 0x34 _ (List.Subset.refl _) (Only.refl _ _)) (by decide)
      (by decide)]
  · next off => exact ⟨s.sec.naCause, by rw [← Bool.eq_false_of_not_eq_true off]⟩

/-- A transition before its approved mode is judged. -/
def entering (nx : Nat) (s : State) : State :=
  { s with sec := { s.sec with
    lc := nx, slots := if nx = lcVoid then s.sec.slots else s.sec.slots + 1, unlocked := false,
    dbg := if nx = lcOwned || nx = lcSealed || nx = lcVoid then 0 else s.sec.dbg } }

theorem enterState_eq (nx : Nat) (s : State) :
    enterState nx s = if nx = lcOwned || nx = lcSealed then entering nx s else secBreak 1 (entering nx s) := rfl

theorem enterState_sec (nx : Nat) (s : State) : ∃ cause, (enterState nx s).sec = enteredSec nx cause s.sec := by
  rw [enterState_eq]
  unfold enteredSec
  by_cases owner : nx = lcOwned || nx = lcSealed
  · have kept : (nx == lcOwned || nx == lcSealed) = true := by simpa using owner
    rw [if_pos owner, kept, Bool.true_and]
    exact ⟨s.sec.naCause, rfl⟩
  · have broken : (nx == lcOwned || nx == lcSealed) = false := by simpa using owner
    rw [if_neg owner, broken, Bool.false_and]
    exact secBreak_sec 1 (entering nx s)

theorem macsecSrc_sec (s : State) : (macsecSrc s).sec = s.sec :=
  sec_of_only (only_macsecSrc (ps := [.outbox, .queues, .faults]) (List.Subset.refl _) (Only.refl _ s)) (by decide) (by decide)

theorem zeroise_sec (s : State) : (zeroise s).sec = zeroisedSec s.sec := by
  unfold zeroise
  dsimp only
  rw [macsecSrc_sec]
  rfl

theorem zeroiseVoid_sec (s : State) : (zeroiseVoid s).sec = { zeroisedSec s.sec with destroyed := true, idev := false } := by
  rw [← zeroise_sec]
  rfl

theorem outbox_enterState (nx : Nat) (s : State) : s.outbox <:+ (enterState nx s).outbox := by
  rw [enterState_eq]
  split
  · exact List.suffix_refl _
  · exact (kept_secBreak 1 (Kept.refl (entering nx s))).out

@[simp] theorem startDesc_acceptAlive_sec (d : Desc) (obj : Nat) (s : State) : (startDesc d obj (acceptAlive d s)).sec = s.sec := by
  simp only [startDesc, consumed, modRing, acceptAlive]

@[simp] theorem authPassed_sec (s : State) : (authPassed s).sec = { s.sec with fails := 0 } := rfl

@[simp] theorem useNonce_sec (s : State) : (useNonce s).sec = { s.sec with nonce := none } := rfl

@[simp] theorem usePresence_sec (s : State) : (usePresence s).sec = { s.sec with presence := false } := rfl

@[simp] theorem slotLeft_taken (d : Desc) (obj : Nat) (s : State) : slotLeft (startDesc d obj (acceptAlive d s)) = slotLeft s := by
  simp only [slotLeft, startDesc_acceptAlive_sec]

@[simp] theorem ownedOrSealed_taken (d : Desc) (obj : Nat) (s : State) :
    ownedOrSealed (startDesc d obj (acceptAlive d s)) = ownedOrSealed s := by
  simp only [ownedOrSealed, startDesc_acceptAlive_sec]

@[simp] theorem ownedOrSealed_authPassed (s : State) : ownedOrSealed (authPassed s) = ownedOrSealed s := by
  simp only [ownedOrSealed, authPassed_sec]

@[simp] theorem tokenOk_taken (d : Desc) (obj : Nat) (s : State) : tokenOk (startDesc d obj (acceptAlive d s)) = tokenOk s := by
  funext op key b
  simp only [tokenOk, tokKey, startDesc_acceptAlive_sec]

/-! ## Operations that pass their checks -/

theorem SecReady.fresh {states : List Nat} {s : State} (ready : SecReady states s) : Fresh s := ready.1

section
variable {op : Nat} {pay : SecPay} {states : List Nat} {pre : State → Bool} {act : List Byte → Nat → State → State}
  {d : Desc} {s : State} (ready : SecReady states s)
include ready

/-- An operation that passes its gate acts on the descriptor's payload under the descriptor's number (R520, R533, R540). -/
theorem plainOp_acts (h : Takes (secForm op pay) d s) (holds : pre (startDesc d op (acceptAlive d s)) = true) :
    plainOp op pay states pre act d false false s = act (payload d (dF d 12 4)) s.nextId (startDesc d op (acceptAlive d s)) := by
  obtain ⟨_, otp, crypto, life⟩ := ready
  have gate : secGate op states pre false false s.nextId (act (payload d (dF d 12 4)) s.nextId) (startDesc d op (acceptAlive d s)) =
      act (payload d (dF d 12 4)) s.nextId (startDesc d op (acceptAlive d s)) := by
    change (if !s.sec.otpOk || (s.sec.cryptoErr && op ≠ 0x03 && op ≠ 0x21) then _ else if !states.contains s.sec.lc then _ else
      if !pre (startDesc d op (acceptAlive d s)) then _ else _) = _
    rw [otp, crypto, life, holds]
    rfl
  rw [plainOp, takeDesc_takes h]
  exact gate

/-- An operation whose token passes acts with the run of failures ended (R539, R542). -/
theorem tokenOp_acts {key : State → Nat} (h : Takes (secForm op .input) d s) (other : op ≠ 0x11)
    (holds : pre (startDesc d op (acceptAlive d s)) = true) (token : Token op (key (startDesc d op (acceptAlive d s))) d s) :
    tokenOp op states key pre act d false false s =
      act (payload d (dF d 12 4)) s.nextId (authPassed (startDesc d op (acceptAlive d s))) := by
  obtain ⟨unlocked, passes⟩ := token
  have gate : (pre (startDesc d op (acceptAlive d s)) && !(startDesc d op (acceptAlive d s)).sec.authLock) = true := by
    simp [holds, unlocked]
  rw [tokenOp, plainOp_acts ready h gate]
  exact if_pos (by simp [passes, other])

end

/-- A transition is reported in its operation's completion (Table 16-11). -/
theorem moveTo_completes {op : Nat} {pay : SecPay} {d : Desc} {s u : State} {c : Instr} {nx : Nat} {ps : List Part} (l : List Part)
    (h : Takes (secForm op pay) d s) (fresh : Fresh s) (only : Only ps (startDesc d op (acceptAlive d s)) u)
    (sent : s.outbox <:+ u.outbox) (moves : [.outbox, .queues, .faults, .lifeCycle, .security] ⊆ ps) (hl : ps ⊆ executedAnd l)
    (rings : Part.rings ∉ ps) (descs : Part.descs ∉ ps) (alives : Part.alives ∉ ps) (halt : Part.halt ∉ ps)
    (runs : exec c s = .next (moveTo nx s.nextId u)) :
    ∃ t cause, Completes c d (executedAnd l) 0 (le 1 nx) s t ∧ t.sec = enteredSec nx cause u.sec := by
  obtain ⟨cause, sec⟩ := enterState_sec nx u
  have completion := only_complete (ps := [.outbox, .rings, .descs, .sessions]) s.nextId 0 (le 1 nx) (List.Subset.refl _)
    (Only.refl _ (enterState nx u))
  exact ⟨_, cause, completes_of_only l h fresh (only_enterState nx moves only) hl rings descs alives halt
    (sent.trans (outbox_enterState nx u)) runs, (sec_of_only completion (by decide) (by decide)).trans sec⟩

/-- A transition before which nothing but the security state has changed. -/
theorem moveTo_completes_security {op : Nat} {pay : SecPay} {d : Desc} {s u : State} {c : Instr} {nx : Nat}
    (h : Takes (secForm op pay) d s) (fresh : Fresh s) (only : Only [.security] (startDesc d op (acceptAlive d s)) u)
    (runs : exec c s = .next (moveTo nx s.nextId u)) :
    ∃ t cause, Completes c d (executedAnd [.security, .lifeCycle]) 0 (le 1 nx) s t ∧ t.sec = enteredSec nx cause u.sec := by
  have sent : s.outbox <:+ u.outbox := by rw [outbox_of_only only (by decide), startDesc_acceptAlive_outbox]
  exact moveTo_completes (ps := [.outbox, .queues, .faults, .lifeCycle, .security]) [.security, .lifeCycle] h fresh
    (only.mono (by decide)) sent (List.Subset.refl _) (by decide) (by decide) (by decide) (by decide) (by decide) runs

/-- A transition under a token, which `spend` uses up. -/
theorem tokenOp_moves {c : Instr} {d : Desc} {s : State} {op nx : Nat} {states : List Nat} {key : State → Nat} {pre : State → Bool}
    {spend : State → State} (runs : exec c s = .next (tokenOp op states key pre (fun _ id s => moveTo nx id (spend s)) d false false s))
    (spends : ∀ u, Only [.security] u (spend u)) (ready : SecReady states s) (h : Takes (secForm op .input) d s) (other : op ≠ 0x11)
    (holds : pre (startDesc d op (acceptAlive d s)) = true) (token : Token op (key (startDesc d op (acceptAlive d s))) d s) :
    ∃ t cause, Completes c d (executedAnd [.security, .lifeCycle]) 0 (le 1 nx) s t ∧
      t.sec = enteredSec nx cause (spend (authPassed (startDesc d op (acceptAlive d s)))).sec := by
  have passed : Only [.security] (startDesc d op (acceptAlive d s)) (authPassed (startDesc d op (acceptAlive d s))) :=
    only_authPassed (List.Subset.refl _) (Only.refl _ _)
  rw [tokenOp_acts ready h other holds token] at runs
  exact moveTo_completes_security h ready.fresh (passed.trans (spends _)) runs

theorem only_nonceUsed (s : State) : Only [.security] s (useNonce s) := only_useNonce (List.Subset.refl _) (Only.refl _ s)

theorem only_presenceUsed (s : State) : Only [.security] s (usePresence (useNonce s)) :=
  only_usePresence (List.Subset.refl _) (only_nonceUsed s)

/-! ## The six operations -/

section
variable {d : Desc} {s : State}

/-- TAKE_OWNERSHIP spends the nonce, installs the root key and clears the configuration store. -/
def ownershipTaken (key : List Byte) (s : State) : State :=
  { s with sec := { s.sec with nonce := none, keys := tput s.sec.keys 0 key, storeA := [], storeB := [] } }

theorem only_ownershipTaken (key : List Byte) (s : State) : Only [.security] s (ownershipTaken key s) := only_setSec s rfl

/-- TAKE_OWNERSHIP. -/
theorem takeOwnership_moves (ready : SecReady [lcMaker] s) (h : Takes (secForm 0x10 .input) d s) (slot : slotLeft s = true)
    (free : (s.sec.keys.any (fun e => e.1 == 0)) = false) {b n : List Byte} (hb : b = payload d (dF d 12 4)) (len : b.length = 196)
    (nonce : s.sec.nonce = some n)
    (proof : Config.ecdsaOk (b.take 96) (n ++ le 8 Config.serial.toNat) ((b.drop 96).take 96) = true) :
    ∃ t cause, Completes (.takeOwnership d false false) d (executedAnd [.security, .lifeCycle]) 0 (le 1 lcOwned) s t ∧
      t.sec = enteredSec lcOwned cause { s.sec with nonce := none, keys := tput s.sec.keys 0 (b.take 96), storeA := [], storeB := [] } := by
  have proven : (b.length == 196 && s.sec.nonce.any (fun n =>
      Config.ecdsaOk (b.take 96) (n ++ le 8 Config.serial.toNat) ((b.drop 96).take 96))) = true := by simp [len, nonce, proof]
  have runs : exec (.takeOwnership d false false) s =
      .next (moveTo lcOwned s.nextId (ownershipTaken (b.take 96) (startDesc d 0x10 (acceptAlive d s)))) := by
    change execTakeOwnership d false false s = _
    rw [execTakeOwnership, plainOp_acts ready h, ← hb]
    · exact congrArg _ (if_pos proven)
    · simp [slot, free]
  exact moveTo_completes_security h ready.fresh (only_ownershipTaken _ _) runs

/-- SEAL spends its token. -/
theorem seal_moves (ready : SecReady [lcOwned] s) (h : Takes (secForm 0x30 .input) d s) (slot : slotLeft s = true)
    (locked : s.sec.unlocked = false) (token : Token 0x30 0 d s) :
    ∃ t cause, Completes (.seal d false false) d (executedAnd [.security, .lifeCycle]) 0 (le 1 lcSealed) s t ∧
      t.sec = enteredSec lcSealed cause { s.sec with fails := 0, nonce := none } := by
  obtain ⟨t, cause, completes, sec⟩ := tokenOp_moves (c := .seal d false false) (key := fun _ => 0) (spend := useNonce) rfl
    only_nonceUsed ready h (by decide) (by simp [slot, locked]) token
  rw [useNonce_sec, authPassed_sec, startDesc_acceptAlive_sec] at sec
  exact ⟨t, cause, completes, sec⟩

/-- UNSEAL spends its token and physical presence. -/
theorem unseal_moves (ready : SecReady [lcSealed] s) (h : Takes (secForm 0x31 .input) d s) (slot : slotLeft s = true)
    (presence : s.sec.presence = true) (token : Token 0x31 0 d s) :
    ∃ t cause, Completes (.unseal d false false) d (executedAnd [.security, .lifeCycle]) 0 (le 1 lcOwned) s t ∧
      t.sec = enteredSec lcOwned cause { s.sec with fails := 0, nonce := none, presence := false } := by
  obtain ⟨t, cause, completes, sec⟩ := tokenOp_moves (c := .unseal d false false) (key := fun _ => 0)
    (spend := fun u => usePresence (useNonce u)) rfl only_presenceUsed ready h (by decide) (by simp [slot, presence]) token
  rw [usePresence_sec, useNonce_sec, authPassed_sec, startDesc_acceptAlive_sec] at sec
  exact ⟨t, cause, completes, sec⟩

/-- MAKER_RESTORE spends its token. -/
theorem makerRestore_moves (ready : SecReady [lcReturn] s) (h : Takes (secForm 0x33 .input) d s) (slot : slotLeft s = true)
    (done : s.sec.zeroDone = true) (token : Token 0x33 0xFF d s) :
    ∃ t cause, Completes (.makerRestore d false false) d (executedAnd [.security, .lifeCycle]) 0 (le 1 lcMaker) s t ∧
      t.sec = enteredSec lcMaker cause { s.sec with fails := 0, nonce := none } := by
  obtain ⟨t, cause, completes, sec⟩ := tokenOp_moves (c := .makerRestore d false false) (key := fun _ => 0xFF) (spend := useNonce) rfl
    only_nonceUsed ready h (by decide) (by simp [slot, done]) token
  rw [useNonce_sec, authPassed_sec, startDesc_acceptAlive_sec] at sec
  exact ⟨t, cause, completes, sec⟩

/-- RMA enters RETURN, zeroises and opens the record of it. -/
def returned (s : State) : State :=
  let s := zeroise (enterState lcReturn s)
  { s with sec := { s.sec with zeroDone := false } }

theorem only_returned (s : State) : Only [.outbox, .queues, .faults, .lifeCycle, .security, .ports, .sessions] s (returned s) := by
  have entered := only_enterState (ps := [.outbox, .queues, .faults, .lifeCycle, .security, .ports, .sessions]) lcReturn (by decide)
    (Only.refl _ s)
  have recorded : Only [.security] (zeroise (enterState lcReturn s)) (returned s) := only_setSec _ rfl
  exact (only_zeroise (by decide) entered).trans (recorded.mono (by decide))

theorem returned_sec (s : State) : ∃ cause, (returned s).sec = { zeroisedSec (enteredSec lcReturn cause s.sec) with zeroDone := false } := by
  obtain ⟨cause, sec⟩ := enterState_sec lcReturn s
  refine ⟨cause, ?_⟩
  rw [← sec, ← zeroise_sec]
  rfl

/-- RMA enters RETURN first and then zeroises, and waits for the record of it (R537). -/
theorem rma_starts (ready : SecReady [lcOwned, lcSealed] s) (h : Takes (secForm 0x32 .input) d s) (slot : slotLeft s = true)
    (presence : s.sec.presence = true) (noEpoch : s.tm.epoch = 0) (quiet : s.pend = none) (token : Token 0x32 0 d s) :
    ∃ t cause, Starts (.rma d false false) d (executedAnd [.security, .lifeCycle, .ports]) s t ∧
      t.sec = { zeroisedSec (enteredSec lcReturn cause { s.sec with fails := 0, nonce := none, presence := false }) with
        zeroDone := false } := by
  have runs : exec (.rma d false false) s =
      .next (returned (usePresence (useNonce (authPassed (startDesc d 0x32 (acceptAlive d s)))))) := by
    change execRma d false false s = _
    rw [execRma, tokenOp_acts ready h (by decide)]
    · rfl
    · simp [slot, presence, noEpoch, quiet]
    · exact token
  have passed : Only [.security] (startDesc d 0x32 (acceptAlive d s)) (authPassed (startDesc d 0x32 (acceptAlive d s))) :=
    only_authPassed (List.Subset.refl _) (Only.refl _ _)
  have used := (passed.trans (only_presenceUsed _)).mono (qs := [.outbox, .queues, .faults, .lifeCycle, .security, .ports, .sessions])
    (by decide)
  obtain ⟨cause, sec⟩ := returned_sec (usePresence (useNonce (authPassed (startDesc d 0x32 (acceptAlive d s)))))
  exact ⟨_, cause, starts_of_only [.security, .lifeCycle, .ports] h ready.fresh (used.trans (only_returned _)) (by decide)
    (by decide) (by decide) (by decide) runs, sec⟩

/-- What VOID's token uses up: the nonce, and physical presence where the owner has signed it. -/
def voidToken (s : State) : State := if ownedOrSealed s then usePresence (useNonce s) else useNonce s

theorem only_voidToken (s : State) : Only [.security] s (voidToken s) :=
  Only.ite (only_usePresence (List.Subset.refl _) (only_useNonce (List.Subset.refl _) (Only.refl _ s)))
    (only_useNonce (List.Subset.refl _) (Only.refl _ s))

theorem voidToken_sec (s : State) : (voidToken s).sec =
    { s.sec with nonce := none, presence := if ownedOrSealed s then false else s.sec.presence } := by
  unfold voidToken
  split <;> rfl

/-- VOID zeroises before its fuse is programmed. -/
def voided (s : State) : State := zeroiseVoid (voidToken s)

theorem only_voided (s : State) : Only [.outbox, .queues, .faults, .security, .ports, .sessions] s (voided s) :=
  only_zeroiseVoid (List.Subset.refl _) ((only_voidToken s).mono (by decide))

theorem outbox_voided (s : State) : s.outbox <:+ (voided s).outbox := by
  have kept := (kept_zeroiseVoid (Kept.refl (voidToken s))).out
  rwa [outbox_of_only (only_voidToken s) (by decide)] at kept

theorem voided_sec (s : State) : (voided s).sec = { zeroisedSec { s.sec with
    nonce := none, presence := if ownedOrSealed s then false else s.sec.presence } with destroyed := true, idev := false } := by
  rw [voided, zeroiseVoid_sec, voidToken_sec]

theorem exec_void (ready : SecReady notVoid s) (h : Takes (secForm 0x34 .input) d s)
    (presence : ownedOrSealed s = true → s.sec.presence = true) (token : Token 0x34 (if ownedOrSealed s then 0 else 0xFF) d s) :
    exec (.void d false false) s =
      .next (moveTo Machine.lcVoid s.nextId (voided (authPassed (startDesc d 0x34 (acceptAlive d s))))) := by
  change execVoid d false false s = _
  rw [execVoid, tokenOp_acts ready h (by decide)]
  · rfl
  · simpa [or_iff_not_imp_left] using presence
  · rwa [ownedOrSealed_taken]

/-- VOID zeroises first and then programs its fuse (R535, R537). -/
theorem void_moves (ready : SecReady notVoid s) (h : Takes (secForm 0x34 .input) d s)
    (presence : ownedOrSealed s = true → s.sec.presence = true) (token : Token 0x34 (if ownedOrSealed s then 0 else 0xFF) d s) :
    ∃ t cause, Completes (.void d false false) d (executedAnd [.security, .lifeCycle, .ports]) 0 (le 1 Machine.lcVoid) s t ∧
      t.sec = enteredSec Machine.lcVoid cause { zeroisedSec { s.sec with
        fails := 0, nonce := none, presence := if ownedOrSealed s then false else s.sec.presence } with
        destroyed := true, idev := false } := by
  have passed : Only [.security] (startDesc d 0x34 (acceptAlive d s)) (authPassed (startDesc d 0x34 (acceptAlive d s))) :=
    only_authPassed (List.Subset.refl _) (Only.refl _ _)
  have sent := outbox_voided (authPassed (startDesc d 0x34 (acceptAlive d s)))
  rw [outbox_of_only passed (by decide), startDesc_acceptAlive_outbox] at sent
  obtain ⟨t, cause, completes, sec⟩ := moveTo_completes (ps := [.outbox, .queues, .faults, .lifeCycle, .security, .ports, .sessions])
    [.security, .lifeCycle, .ports] h ready.fresh ((passed.mono (by decide)).trans ((only_voided _).mono (by decide))) sent (by decide)
    (by decide) (by decide) (by decide) (by decide) (by decide) (exec_void ready h presence token)
  rw [voided_sec, ownedOrSealed_authPassed, ownedOrSealed_taken, authPassed_sec, startDesc_acceptAlive_sec] at sec
  exact ⟨t, cause, completes, sec⟩

end

/-- Settles O31: each operation comes to one transition (`enteredSec`) on the security state that its token and its own work leave. -/
theorem lifeCycleOperationsMoveTheState : Obligations.LifeCycleOperationsMoveTheState := by
  unfold Obligations.LifeCycleOperationsMoveTheState
  intro d s
  refine ⟨fun ready h slot free b n hb len nonce proof => ?_, fun ready h slot locked token => ?_, fun ready h slot presence token => ?_,
    fun ready h slot presence noEpoch quiet token => ?_, fun ready h slot done token => ?_, fun ready h presence token => ?_⟩
  · obtain ⟨t, cause, completes, sec⟩ := takeOwnership_moves ready h slot free hb len nonce proof
    refine ⟨t, completes, ?_⟩
    rw [sec]
    exact ⟨rfl, rfl, rfl, rfl, rfl, rfl, rfl⟩
  · obtain ⟨t, cause, completes, sec⟩ := seal_moves ready h slot locked token
    refine ⟨t, completes, ?_⟩
    rw [sec]
    exact ⟨rfl, rfl, rfl, rfl, rfl⟩
  · obtain ⟨t, cause, completes, sec⟩ := unseal_moves ready h slot presence token
    refine ⟨t, completes, ?_⟩
    rw [sec]
    exact ⟨rfl, rfl, rfl, rfl, rfl, rfl⟩
  · obtain ⟨t, cause, starts, sec⟩ := rma_starts ready h slot presence noEpoch quiet token
    refine ⟨t, starts, ?_⟩
    rw [sec]
    exact ⟨rfl, rfl, rfl, rfl, rfl, rfl, rfl⟩
  · obtain ⟨t, cause, completes, sec⟩ := makerRestore_moves ready h slot done token
    refine ⟨t, completes, ?_⟩
    rw [sec]
    exact ⟨rfl, rfl, rfl, rfl⟩
  · obtain ⟨t, cause, completes, sec⟩ := void_moves ready h presence token
    refine ⟨t, completes, ?_⟩
    rw [sec]
    exact ⟨rfl, rfl, rfl, rfl, rfl, rfl, rfl⟩

end Sys2Proof.Machine
end

section
/-! SUPPORT. Writes of the two paths: what a REGISTER_WRITE comes to, and what a path's registers hold after it (R11, R405). -/

namespace Sys2Proof.Machine

/-! ## A path's own registers -/

theorem pathRegs_of_only {ps : List Part} {s t : State} (h : Only ps s t) (hp : Part.paths ∉ ps) (p : Path) : pathRegs p t = pathRegs p s := by
  obtain ⟨host, processor⟩ := Prod.mk.inj (h .paths hp)
  cases p
  case pcie => exact host
  case mp => exact processor

/-- A change of one path's registers is theirs alone. -/
theorem modPath_spec (p : Path) (g : PathRegs → PathRegs) (s : State) : Only [.paths] s (modPath p g s) ∧
    pathRegs p (modPath p g s) = g (pathRegs p s) ∧ ∀ q, q ≠ p → pathRegs q (modPath p g s) = pathRegs q s :=
  ⟨only_modPath p g (List.Subset.refl _) (Only.refl _ s), pathRegs_modPath_same p g s, fun _ other => pathRegs_modPath_other other g s⟩

/-! ## REGISTER_WRITE -/

theorem phase_of_running {s : State} (run : running s = true) : s.phase ≠ .off ∧ s.phase ≠ .reset := by
  unfold running at run
  constructor
  · intro off
    rw [off] at run
    exact absurd run (by decide)
  · intro reset
    rw [reset] at run
    exact absurd run (by decide)

section
variable {p : Path} {s : State} {ofs : Nat} (run : running s = true)
include run

/-- A 4-byte write of BAR0 is a bus write, without the W1C bits that hardware sets in the same cycle (R12). -/
theorem exec_registerWrite_word (aligned : ofs % 4 = 0) (below : ofs < 0x10000) (single : stickyOfs ofs = false) (v hw : Word) :
    exec (.registerWrite p ofs 4 (v.setWidth 64) hw) s = .next (busWrite p ofs (if hasW1c ofs then v &&& ~~~hw else v) s) := by
  obtain ⟨on, up⟩ := phase_of_running run
  have word : BitVec.ofNat 32 (v.setWidth 64).toNat = v := by
    rw [BitVec.ofNat_toNat, BitVec.setWidth_setWidth_of_le _ (by decide), BitVec.setWidth_eq]
  change execRegisterWrite p ofs 4 (v.setWidth 64) s hw = _
  rw [execRegisterWrite, if_neg (by simp [on, up]), if_neg (by simp), if_neg (by simp [single]), if_pos (by simp [aligned, below]), word]

variable (reach : pathOpen p s = true)
include reach

/-- A low half and then a high half. -/
theorem busWrite_halves (wide : is64W ofs = true) (lo hi : Word) :
    busWrite p (ofs + 4) hi (busWrite p ofs lo s) = highWrite p ofs hi (lowWrite p ofs lo s) := by
  have above := is64W_ge wide
  have low := only_lowWrite (ps := [.paths, .sticky]) p ofs lo (List.Subset.refl _) (Only.refl _ s)
  have still := writeOpen_of_run (ofs := ofs + 4) ((pathOpen_of_only low (by decide) p).trans reach)
    ((running_of_only low (by decide)).trans run) (by omega)
  rw [busWrite_open (writeOpen_of_run reach run above), regWrite_low wide, busWrite_open still, regWrite_high wide]

/-- An 8-byte write of a 64-bit register is the write of its halves (R445). -/
theorem exec_registerWrite_wide (wide : is64W ofs = true) (v : DWord) (hw : Word) : exec (.registerWrite p ofs 8 v hw) s =
    .next (highWrite p ofs (BitVec.ofNat 32 (v.toNat / 2 ^ 32)) (lowWrite p ofs (v.setWidth 32) s)) := by
  obtain ⟨on, up⟩ := phase_of_running run
  obtain ⟨aligned, _, _, readable⟩ := is64W_shape wide
  change execRegisterWrite p ofs 8 v s hw = _
  rw [execRegisterWrite, if_neg (by simp [on, up]), if_neg (by simp), if_neg (by simp), if_neg (by simp),
    if_pos (by simp [aligned, readable]), BitVec.ofNat_toNat, busWrite_halves run reach wide]

end

end Sys2Proof.Machine
end

section
/-! SUPPORT. The halves of a 64-bit register that is not locked (R445). -/

namespace Sys2Proof.Machine

/-- TCK_ORIGIN is locked while the module is SEALED, every other register by its rings. -/
theorem lowWrite_holds {p : Path} {s : State} {ofs : Nat} (unsealed : ofs = 0x1020 → isSealed s = false) (free : locked64 ofs s = false)
    (v : Word) : lowWrite p ofs v s = modPath p (fun r => { r with held := tput r.held ofs v }) s := by
  by_cases origin : ofs = 0x1020
  · subst origin
    rw [lowWrite, unsealed rfl, free]
    rfl
  · exact lowWrite_held origin free v

theorem highWrite_origin {s : State} (unsealed : isSealed s = false) (p : Path) (v : Word) : highWrite p 0x1020 v s =
    put64 0x1020 (tget (stg s 0x1020 0) (pathRegs p s).held 0x1020) v
      (modPath p (fun r => { r with held := tfilter r.held (fun k _ => k != 0x1020) }) s) := by
  rw [highWrite, unsealed]
  rfl

/-! ## What each register takes -/

theorem put64_origin (lo hi : Word) (s : State) :
    put64 0x1020 lo hi s = stage 0x1024 0 hi 0xFFFFFFFF (stage 0x1020 0 lo 0xFFFFFFFF s) := rfl

theorem put64_statusBase (lo hi : Word) (s : State) :
    put64 0xA030 lo hi s = { s with stsBase := BitVec.ofNat 64 (lo.toNat / 128 * 128 + hi.toNat * 2 ^ 32) } := rfl

/-- The base of a ring is no other 64-bit register. -/
theorem ringBase_other {r : Nat} (hr : r < 19) : ringCfgOfs r - 8 ≠ 0x1020 ∧ ringCfgOfs r - 8 ≠ 0xA030 := by
  have apart : ∀ r < 19, ringCfgOfs r - 8 ≠ 0x1020 ∧ ringCfgOfs r - 8 ≠ 0xA030 := by decide
  exact apart r hr

section
variable {r : Nat} (hr : r < 19) (s : State)
include hr

theorem locked64_ringBase : locked64 (ringCfgOfs r - 8) s = (ring s r).en := by
  obtain ⟨_, status⟩ := ringBase_other hr
  rw [locked64, if_neg status, (ringAt_base hr).1]

theorem low64_ringBase : low64 (ringCfgOfs r - 8) s = (ring s r).base.setWidth 32 := by
  obtain ⟨origin, status⟩ := ringBase_other hr
  rw [low64, if_neg origin, if_neg status, (ringAt_base hr).1]
  exact BitVec.ofNat_toNat ..

theorem put64_ringBase (lo hi : Word) : put64 (ringCfgOfs r - 8) lo hi s =
    modRing r (fun x => { x with base := BitVec.ofNat 64 (lo.toNat / 4096 * 4096 + hi.toNat * 2 ^ 32) }) s := by
  obtain ⟨origin, status⟩ := ringBase_other hr
  have zeros : lowZero (ringCfgOfs r - 8) = 12 := by rw [lowZero, if_neg status, if_neg origin]
  rw [put64, zeros, if_neg origin, if_neg status, (ringAt_base hr).1]
  rfl

end

/-! ## The high half of each register -/

section
variable {p : Path} {s : State} (reach : pathOpen p s = true) (run : running s = true)
include reach run

/-- TCK_ORIGIN: both words are staged. -/
theorem origin_takes (unsealed : isSealed s = false) (v : Word) : ∃ t, exec (.reg64HighWrite p 0x1020 v) s = .next t ∧
    Only [.paths, .staged] s t ∧ stg t 0x1020 0 = tget (stg s 0x1020 0) (pathRegs p s).held 0x1020 ∧ stg t 0x1024 0 = v ∧
    (∀ o i, regKey o i ≠ regKey 0x1020 0 → regKey o i ≠ regKey 0x1024 0 → stg t o i = stg s o i) ∧
    pathRegs p t = { pathRegs p s with held := tfilter (pathRegs p s).held (fun k _ => k != 0x1020) } := by
  obtain ⟨path, this, _⟩ := modPath_spec p (fun r => { r with held := tfilter r.held (fun k _ => k != 0x1020) }) s
  have staged (u : State) (lo : Word) : Only [.staged] u (stage 0x1024 0 v 0xFFFFFFFF (stage 0x1020 0 lo 0xFFFFFFFF u)) :=
    only_stage _ _ _ _ (List.Subset.refl _) (only_stage _ _ _ _ (List.Subset.refl _) (Only.refl _ u))
  have apart : regKey 0x1020 0 ≠ regKey 0x1024 0 := by decide
  rw [exec_reg64HighWrite reach run (by decide), highWrite_origin unsealed, put64_origin]
  refine ⟨_, rfl, (path.mono (by decide)).trans ((staged _ _).mono (by decide)), ?_, ?_, fun o i low high => ?_, ?_⟩
  · rw [stg_stage_other apart, stg_stage_same, maskIn_full]
  · rw [stg_stage_same, maskIn_full]
  · rw [stg_stage_other high, stg_stage_other low, stg_of_only path (by decide)]
  · rw [pathRegs_of_only (staged _ _) (by decide), this]

/-- DMA_STS_BASE. -/
theorem statusBase_takes (off : anyRing s = false) (v : Word) : ∃ t, exec (.reg64HighWrite p 0xA030 v) s = .next t ∧
    Only [.paths, .host] s t ∧
    t.stsBase = BitVec.ofNat 64 ((tget (s.stsBase.setWidth 32) (pathRegs p s).held 0xA030).toNat / 128 * 128 + v.toNat * 2 ^ 32) ∧
    (t.tickIrq, t.tickDiv, t.bme, t.msix, t.ep) = (s.tickIrq, s.tickDiv, s.bme, s.msix, s.ep) ∧
    pathRegs p t = { pathRegs p s with held := tfilter (pathRegs p s).held (fun k _ => k != 0xA030) } := by
  obtain ⟨path, this, _⟩ := modPath_spec p (fun r => { r with held := tfilter r.held (fun k _ => k != 0xA030) }) s
  have low : low64 0xA030 s = s.stsBase.setWidth 32 := BitVec.ofNat_toNat ..
  rw [exec_reg64HighWrite reach run (by decide), highWrite_takes (ofs := 0xA030) (by decide) off, put64_statusBase, low]
  exact ⟨_, rfl, (path.mono (by decide)).trans ((only_setStsBase _ _).mono (by decide)), rfl,
    congrArg Prod.snd (path .host (by decide)), (pathRegs_of_only (only_setStsBase _ _) (by decide) p).trans this⟩

/-- The base of a ring that is off. -/
theorem ringBase_takes {r : Nat} (hr : r < 19) (off : (ring s r).en = false) (v : Word) :
    ∃ t, exec (.reg64HighWrite p (ringCfgOfs r - 8) v) s = .next t ∧ Only [.paths, .rings] s t ∧
      (∀ lo, lo = tget ((ring s r).base.setWidth 32) (pathRegs p s).held (ringCfgOfs r - 8) →
        ring t r = { ring s r with base := BitVec.ofNat 64 (lo.toNat / 4096 * 4096 + v.toNat * 2 ^ 32) }) ∧
      (∀ j, j ≠ r → ring t j = ring s j) ∧
      pathRegs p t = { pathRegs p s with held := tfilter (pathRegs p s).held (fun k _ => k != ringCfgOfs r - 8) } := by
  obtain ⟨path, this, _⟩ := modPath_spec p (fun x => { x with held := tfilter x.held (fun k _ => k != ringCfgOfs r - 8) }) s
  have rings := ring_congr (path .rings (by decide))
  rw [exec_reg64HighWrite reach run (ringAt_base hr).2, highWrite_takes (ringBase_other hr).1
    ((locked64_ringBase hr s).trans off), put64_ringBase hr, low64_ringBase hr]
  obtain ⟨only, taken, others⟩ := modRing_spec r _ (modPath p (fun x => { x with
    held := tfilter x.held (fun k _ => k != ringCfgOfs r - 8) }) s)
  refine ⟨_, rfl, (path.mono (by decide)).trans (only.mono (by decide)), ?_, fun j other => (others j other).trans (rings j),
    (pathRegs_of_only only (by decide) p).trans this⟩
  rintro lo rfl
  rw [taken, rings]

end

/-- Settles O12: each half is one change of what its path holds, and the high half one change of its register besides. -/
theorem reg64WritesTakeBothHalves : Obligations.Reg64WritesTakeBothHalves := by
  unfold Obligations.Reg64WritesTakeBothHalves
  intro p s opened
  rw [writeOpen_run (by decide), Bool.and_eq_true] at opened
  obtain ⟨reach, run⟩ := opened
  refine ⟨fun ofs v wide free unsealed => ?_, fun v unsealed => origin_takes reach run unsealed v,
    fun v off => statusBase_takes reach run off v,
    fun r v hr off => ringBase_takes reach run hr off v, fun ofs v hw wide => ?_⟩
  · obtain ⟨only, this, others⟩ := modPath_spec p (fun r => { r with held := tput r.held ofs v }) s
    rw [exec_reg64LowWrite reach run wide, lowWrite_holds unsealed free]
    exact ⟨_, rfl, only, others, this⟩
  · have low := only_lowWrite (ps := [.paths, .sticky]) p ofs (v.setWidth 32) (List.Subset.refl _) (Only.refl _ s)
    refine ⟨_, exec_reg64LowWrite reach run wide _, ?_⟩
    rw [exec_registerWrite_wide run reach wide, exec_reg64HighWrite ((pathOpen_of_only low (by decide) p).trans reach)
      ((running_of_only low (by decide)).trans run) wide]

end Sys2Proof.Machine
end

section
/-! SUPPORT. Writes to the channel window (R52, R444, R447, R448, R454). -/

namespace Sys2Proof.Machine

/-! ## CHN_SEL -/

/-- While no value word waits in the path's window, only its selection moves. -/
theorem chnSel_moves {p : Path} {s : State} (reach : pathOpen p s = true) (run : running s = true)
    (quiet : ∀ e ∈ s.rwp, ¬(e.path = p ∧ inWindow e.ofs = true)) (v : Word) :
    exec (.chnSel p v) s = .next (modPath p (fun r => { r with chnSel := v &&& 0xFF0101FF }) s) := by
  have none : ∀ e ∈ s.rwp, (e.path == p && inWindow e.ofs) = false := fun e he => by simpa using quiet e he
  change Host.Outcome.next (busWrite p 0x2000 v s) = _
  rw [busWrite_open (writeOpen_of_run reach run (by decide))]
  change Host.Outcome.next (chnSelWrite p v s) = _
  rw [chnSelWrite, dropPairs_eq_self none]

/-! ## A staged register of the window -/

/-- The sticky registers have no staged bits. -/
theorem rwsMask_sticky {ofs : Nat} (bits : rwsMask ofs ≠ 0) : stickyOfs ofs = false := by
  unfold stickyOfs
  rw [Bool.or_eq_false_iff, beq_eq_false_iff_ne, beq_eq_false_iff_ne]
  exact ⟨fun h => bits (h ▸ rfl), fun h => bits (h ▸ rfl)⟩

theorem inWindow_iff {ofs : Nat} : inWindow ofs = true ↔ 0x2100 ≤ ofs ∧ ofs < 0x2200 := by
  unfold inWindow
  rw [Bool.and_eq_true, decide_eq_true_eq, decide_eq_true_eq]

/-- The W1C registers of the window are the sticky ones. -/
theorem hasW1c_window {ofs : Nat} (window : inWindow ofs = true) (bits : rwsMask ofs ≠ 0) : hasW1c ofs = false := by
  obtain ⟨first, last⟩ := inWindow_iff.mp window
  have sticky := rwsMask_sticky bits
  unfold stickyOfs at sticky
  unfold hasW1c inBlock
  simp only [Bool.or_eq_false_iff, Bool.and_eq_false_iff, beq_eq_false_iff_ne, decide_eq_false_iff_not] at sticky ⊢
  omega

theorem stageWrite_sealed {s : State} (closed : isSealed s = true) (r : PathRegs) (ofs : Nat) (v : Word) :
    stageWrite r ofs v s = lockWr ofs s := if_pos closed

/-- A plain register is staged in each place that the write acts on, and nowhere else. -/
theorem stageWrite_spec {s : State} (unsealed : isSealed s = false) (r : PathRegs) {ofs : Nat} (plain : isBasic ofs = false) (v : Word) :
    Only [.staged] s (stageWrite r ofs v s) ∧
    (∀ i ∈ targets r ofs, stg (stageWrite r ofs v s) ofs i = maskIn (stg s ofs i) v (rwsMask ofs)) ∧
    ∀ o j, (∀ i ∈ targets r ofs, regKey o j ≠ regKey ofs i) → stg (stageWrite r ofs v s) o j = stg s o j := by
  have staged : stageWrite r ofs v s = (targets r ofs).foldl (fun s i => stage ofs i v (rwsMask ofs) s) s := by
    rw [stageWrite, unsealed, plain]
    rfl
  rw [staged]
  exact ⟨Only.foldl (fun _ _ h => only_stage _ _ _ _ (List.Subset.refl _) h) _ (Only.refl _ s),
    fun i hi => stg_stages_mem ofs v _ _ s (nodup_targets r ofs) hi, fun o j h => stg_stages_other ofs v _ _ s h⟩

theorem mem_targets_broadcast {r : PathRegs} {ofs : Nat} (window : inWindow ofs = true) (all : bit r.chnSel 16 = true) {ch : Nat} :
    ch ∈ targets r ofs ↔ ch < 512 := by
  rw [targets, if_pos window, selChans, if_pos all]
  exact List.mem_range

theorem targets_single {r : PathRegs} {ofs : Nat} (window : inWindow ofs = true) (one : bit r.chnSel 16 = false) :
    targets r ofs = [fld r.chnSel 0 9] := by
  rw [targets, if_pos window, selChans, one]
  rfl

section
variable {p : Path} {s : State} {ofs : Nat} (reach : pathOpen p s = true) (run : running s = true) (window : inWindow ofs = true)
  (bits : rwsMask ofs ≠ 0) (value : isRwp ofs = false) (complement : complOf ofs = none)
include reach run window bits value complement

theorem busWrite_window (v : Word) : busWrite p ofs v s = stageWrite (pathRegs p s) ofs v s := by
  have first := (inWindow_iff.mp window).1
  rw [busWrite_open (writeOpen_of_run reach run (by omega)), regWrite_window window bits value complement]

theorem exec_broadcastWrite (all : bit (pathRegs p s).chnSel 16 = true) (v : Word) :
    exec (.broadcastWrite p ofs v) s = .next (stageWrite (pathRegs p s) ofs v s) := by
  change execBroadcastWrite p ofs v s = _
  rw [execBroadcastWrite, all, window, rwsMask_sticky bits, busWrite_window reach run window bits value complement]
  rfl

theorem exec_registerWrite_window (aligned : ofs % 4 = 0) (v hw : Word) :
    exec (.registerWrite p ofs 4 (v.setWidth 64) hw) s = .next (stageWrite (pathRegs p s) ofs v s) := by
  have last := (inWindow_iff.mp window).2
  rw [exec_registerWrite_word run aligned (by omega) (rwsMask_sticky bits), hasW1c_window window bits, if_neg Bool.false_ne_true,
    busWrite_window reach run window bits value complement]

end

/-! ## Basic codes (R52) -/

/-- The registers of the window with a basic code are plain staged ones. -/
theorem isBasic_window {ofs : Nat} (basic : isBasic ofs = true) (window : inWindow ofs = true) :
    ofs ∈ [0x2100, 0x210C, 0x214C, 0x2158] ∧ rwsMask ofs ≠ 0 ∧ isRwp ofs = false ∧ complOf ofs = none := by
  have plain : ∀ o ∈ [0x2100, 0x210C, 0x214C, 0x2158], rwsMask o ≠ 0 ∧ isRwp o = false ∧ complOf o = none := by decide
  have listed : ofs ∈ [0x2100, 0x210C, 0x214C, 0x2158] := by
    obtain ⟨_, last⟩ := inWindow_iff.mp window
    unfold isBasic at basic
    simp only [Bool.or_eq_true, beq_iff_eq, List.mem_cons, List.not_mem_nil, or_false] at basic ⊢
    omega
  exact ⟨listed, plain ofs listed⟩

/-- A code of the window expands to one word of each register. -/
theorem expandCode_oneWordEach {ofs idx : Nat} {v : Word} {l : List (Nat × Nat × Word)} (listed : ofs ∈ [0x2100, 0x210C, 0x214C, 0x2158])
    (expands : expandCode ofs idx v = some l) : OneWordEach l := by
  simp only [List.mem_cons, List.not_mem_nil, or_false] at listed
  rcases listed with rfl | rfl | rfl | rfl
  · rw [expandCode, if_pos rfl] at expands
    obtain ⟨words, _, rfl⟩ := Option.map_eq_some_iff.mp expands
    intro e he x hx key
    obtain ⟨o, _, rfl⟩ := List.mem_map.mp he
    obtain ⟨q, _, rfl⟩ := List.mem_map.mp hx
    have offset : o = q := by
      dsimp only [regKey] at key
      omega
    rw [offset]
  · rw [expandCode, if_neg (by decide), if_pos rfl] at expands
    obtain rfl := Option.some.inj expands
    simp [OneWordEach]
  · rw [expandCode, if_neg (by decide), if_neg (by decide), if_pos rfl] at expands
    obtain ⟨word, _, rfl⟩ := Option.map_eq_some_iff.mp expands
    simp [OneWordEach]
  · rw [expandCode, if_neg (by decide), if_neg (by decide), if_neg (by decide), if_pos rfl] at expands
    obtain ⟨word, _, rfl⟩ := Option.map_eq_some_iff.mp expands
    have apart : regKey 0x215C idx ≠ regKey 0x2160 idx := by
      unfold regKey
      omega
    simp [OneWordEach, apart, apart.symm]

/-- A listed code stages every word of its expansion in the selected channel. -/
theorem basicCode_stages {p : Path} {s : State} {ofs : Nat} {l : List (Nat × Nat × Word)} {v : Word} (reach : pathOpen p s = true)
    (run : running s = true) (basic : isBasic ofs = true) (window : inWindow ofs = true) (unsealed : isSealed s = false)
    (one : bit (pathRegs p s).chnSel 16 = false) (expands : expandCode ofs (fld (pathRegs p s).chnSel 0 9) v = some l) :
    ∃ t, exec (.basicCodeWrite p ofs v) s = .next t ∧ Only [.staged] s t ∧ ∀ e ∈ l, stg t e.1 e.2.1 = e.2.2 := by
  obtain ⟨listed, bits, value, complement⟩ := isBasic_window basic window
  have staged : stageWrite (pathRegs p s) ofs v s =
      stageAll l (stage ofs (fld (pathRegs p s).chnSel 0 9) v (rwsMask ofs) s) := by
    rw [stageWrite, unsealed, targets_single window one, basic, List.foldl_cons, List.foldl_nil, basicWrite, expands]
    rfl
  change ∃ t, execBasicCodeWrite p ofs v s = .next t ∧ _
  rw [execBasicCodeWrite, if_pos basic, busWrite_window reach run window bits value complement, staged]
  exact ⟨_, rfl, only_stageAll l (List.Subset.refl _) (only_stage _ _ _ _ (List.Subset.refl _) (Only.refl _ s)),
    fun e he => stg_stageAll_mem (expandCode_oneWordEach listed expands) he _⟩

/-- Settles O15: CHN_SEL is one change of its path, every other row one staged write (`stageWrite_spec`), or one to the LOCKED_WR bit. -/
theorem windowWritesReachTheirChannels : Obligations.WindowWritesReachTheirChannels := by
  unfold Obligations.WindowWritesReachTheirChannels
  intro p v hw s run reach
  refine ⟨fun quiet => ?_,
    fun ofs aligned window bits value complement plain => ⟨fun unsealed all => ?_, fun unsealed => ?_, fun closed => ?_⟩,
    fun ofs l basic window unsealed one expands => basicCode_stages reach run basic window unsealed one expands⟩
  · obtain ⟨only, this, others⟩ := modPath_spec p (fun r => { r with chnSel := v &&& 0xFF0101FF }) s
    exact ⟨_, chnSel_moves reach run quiet v, only, this, others⟩
  · obtain ⟨only, these, others⟩ := stageWrite_spec unsealed (pathRegs p s) plain v
    exact ⟨_, exec_broadcastWrite reach run window bits value complement all v, only,
      fun ch hch => these ch ((mem_targets_broadcast window all).mpr hch),
      fun o j h => others o j fun ch hch => h ch ((mem_targets_broadcast window all).mp hch)⟩
  · exact ⟨_, exec_registerWrite_window reach run window bits value complement aligned v hw, stageWrite_spec unsealed _ plain v⟩
  · rw [exec_registerWrite_window reach run window bits value complement aligned, stageWrite_sealed closed]
    exact ⟨_, rfl, only_lockWr ofs (List.Subset.refl _) (Only.refl _ s), rfl⟩

end Sys2Proof.Machine
end

section
/-! SUPPORT. MAP_PEEK_IDX, DISCARD, DBG_CTL and the registers of the ID_ block (R12, R270, R452, R455). -/

namespace Sys2Proof.Machine

section
variable {p : Path} {s : State} (reach : pathOpen p s = true) (run : running s = true)
include reach run

/-- The ID_ block is written from boot start on. -/
theorem busWrite_id {ofs : Nat} (id : ofs < 0x1000) (v : Word) : busWrite p ofs v s = idWrite p ofs v s := by
  have opened : writeOpen p s ofs = true := by rw [writeOpen, reach, run]; rfl
  rw [busWrite_open opened, regWrite]
  exact if_pos id

theorem exec_mapPeekIdx (v : Word) : exec (.mapPeekIdx p v) s =
    .next (modPath p (fun r => { r with peekIdx := v &&& 0x010FFFFF, peek := peekWords s.map v }) s) :=
  congrArg _ (busWrite_open (writeOpen_of_run reach run (by decide)) v)

/-- DISCARD writes ACTIVE_VIEW of its path and then discards (R452). -/
theorem exec_discard (view : Bool) : exec (.discard p view) s = .next (discard (modPath p (fun r => { r with activeView := view }) s)) := by
  refine congrArg _ ((busWrite_id reach run (by decide) _).trans ?_)
  cases view <;> rfl

theorem exec_dbgCtlWrite (v : Word) : exec (.dbgCtlWrite p v false false) s = .next (dbgWrite v s) :=
  if_pos (writeOpen_of_run reach run (by decide))

theorem exec_registerWrite_id {ofs : Nat} (id : ofs < 0x1000) (aligned : ofs % 4 = 0) (v hw : Word) :
    exec (.registerWrite p ofs 4 (v.setWidth 64) hw) s = .next (idWrite p ofs (if hasW1c ofs then v &&& ~~~hw else v) s) := by
  have single : stickyOfs ofs = false := by
    unfold stickyOfs
    rw [Bool.or_eq_false_iff, beq_eq_false_iff_ne, beq_eq_false_iff_ne]
    omega
  rw [exec_registerWrite_word run aligned (by omega) single, busWrite_id reach run id]

end

theorem bit_andNot (v hw : Word) {i : Nat} (h : i < 32) : bit (v &&& ~~~hw) i = (bit v i && !bit hw i) := by
  simp [bit, h]

/-- Settles O17: each command is one write, of its path, of the staged set, of DBG_CTL or of one register of the ID_ block. -/
theorem peekDiscardDebugAndIdWrites : Obligations.PeekDiscardDebugAndIdWrites := by
  unfold Obligations.PeekDiscardDebugAndIdWrites
  intro p v hw s run reach
  refine ⟨?_, fun view => ?_, fun allowed => ?_, fun refused => ?_, ?_, ?_, ?_⟩
  · obtain ⟨only, this, others⟩ := modPath_spec p (fun r => { r with peekIdx := v &&& 0x010FFFFF, peek := peekWords s.map v }) s
    exact ⟨_, exec_mapPeekIdx reach run v, only, others, this⟩
  · obtain ⟨path, this, others⟩ := modPath_spec p (fun r => { r with activeView := view }) s
    have discarded := only_discard (List.Subset.refl _) (Only.refl _ (modPath p (fun r => { r with activeView := view }) s))
    have regs := pathRegs_of_only discarded (by decide)
    exact ⟨_, exec_discard reach run view, (path.mono (by decide)).trans (discarded.mono (by decide)), path .cfg (by decide),
      (regs p).trans this, fun q other => (regs q).trans (others q other)⟩
  · rw [exec_dbgCtlWrite reach run, dbgWrite, if_pos allowed]
    simp [fld]
  · rw [exec_dbgCtlWrite reach run, dbgWrite, refused]
    exact ⟨_, rfl, only_lockWr 0xF100 (List.Subset.refl _) (Only.refl _ s), rfl⟩
  · exact exec_registerWrite_id reach run (by decide) (by decide) v hw
  · rw [← bit_andNot v hw (by decide)]
    exact exec_registerWrite_id reach run (by decide) (by decide) v hw
  · rw [← bit_andNot v hw (by decide), ← bit_andNot v hw (by decide)]
    exact exec_registerWrite_id reach run (by decide) (by decide) v hw

end Sys2Proof.Machine
end

section
/-! SUPPORT. The module as a whole: its invariant, the moves of the life cycle, the fronds that a command reaches, what stays sent, and the
frames of the commands. -/

namespace Sys2Proof.Machine

/-! ## What every command leaves as it is -/

/-- From s to t the life cycle, the fronds' own sides, the outbox, the map's memory and the HALT latch go no further than command c
may take them. -/
structure Lawful (c : Instr) (s t : State) : Prop where
  pending : t.pending = s.pending
  life : t.sec.lc = s.sec.lc ∨ (movesLife c = true ∧ lcMove s.sec.lc t.sec.lc = true)
  others : ∀ f, onFrond c ≠ some f → fieldOf t f = fieldOf s f
  sent : s.outbox <:+ t.outbox
  map : Memory.wf s.map.mem → Memory.wf t.map.mem
  halt : HaltHeld s → HaltHeld t

/-- The outcome is a next state within what command c may change. -/
def LawfulBy (c : Instr) (s : State) (o : Host.Outcome State Fault Refusal) : Prop := ∃ t, o = .next t ∧ Lawful c s t

section
variable {c : Instr} {s t : State} {o : Host.Outcome State Fault Refusal}

theorem fieldOf_of_field (h : t.field = s.field) (f : Nat) : fieldOf t f = fieldOf s f := by
  unfold fieldOf
  rw [h]

theorem Lawful.refl (c : Instr) (s : State) : Lawful c s s :=
  ⟨rfl, .inl rfl, fun _ _ => rfl, List.suffix_refl _, id, id⟩

theorem KeptBy.lawful (h : KeptBy s o) : LawfulBy c s o := by
  obtain ⟨t, next, kept⟩ := h
  exact ⟨t, next, kept.pending, .inl kept.lc, fun f _ => fieldOf_of_field kept.field f, kept.out, kept.mem, kept.halt⟩

theorem FieldBy.lawful {f : Nat} (h : FieldBy f s o) (own : onFrond c = some f) : LawfulBy c s o := by
  obtain ⟨t, next, inside⟩ := h
  refine ⟨t, next, inside.pending, .inl inside.lc, fun g other => inside.others g ?_, inside.out, inside.mem, inside.halt⟩
  rintro rfl
  exact other own

theorem MovedBy.lawful (h : MovedBy s o) (moves : movesLife c = true) : LawfulBy c s o := by
  obtain ⟨t, next, moved⟩ := h
  exact ⟨t, next, moved.pending, moved.lc.imp id (fun m => ⟨moves, m⟩), fun f _ => fieldOf_of_field moved.field f, moved.out,
    moved.mem, moved.halt⟩

theorem lawful_tickEdge (i : TickIn) (s : State) : LawfulBy c s (execTickEdge i s) := by
  obtain ⟨t, next, edge⟩ := row_TickEdge s i
  refine ⟨t, next, ?_⟩
  split at edge
  · exact ⟨edge.pending, .inl edge.lc, fun f _ => fieldOf_of_field edge.field f, edge.out, edge.mem, edge.halt⟩
  · subst edge
    exact .refl c t

/-- A reset leaves the map empty and the module short of any HALT (R491, R492). -/
theorem lawful_reset (h : ∃ t, o = .next t ∧ (t = s ∨ WasReset s t)) : LawfulBy c s o := by
  obtain ⟨t, next, rfl | reset⟩ := h
  · exact ⟨t, next, .refl c t⟩
  · refine ⟨t, next, reset.pending, .inl reset.lc, fun f _ => fieldOf_of_field reset.field f, reset.out, fun _ => ?_, fun _ stopped => ?_⟩
    · rw [reset.mem]
      exact ⟨.nil, fun _ none => absurd none List.not_mem_nil⟩
    · rcases reset.phase with off | low
      · simp [off] at stopped
      · simp [low] at stopped

theorem lawful_bootStart (i : BootIn) (s : State) : LawfulBy c s (execBootStart i s) := by
  obtain ⟨t, m, next, kept⟩ := row_BootStart s i
  exact ⟨t, next, kept.pending, .inl kept.lc, fun f _ => fieldOf_of_field kept.field f, kept.out, kept.mem, kept.halt⟩

end

theorem lawful_exec (s : State) : ∀ c : Instr, LawfulBy c s (exec c s)
  | .tickEdge i => lawful_tickEdge i s
  | .tbaseHigh => (row_TbaseHigh ..).lawful
  | .deferredWork => (row_DeferredWork ..).lawful
  | .featureSlice => (row_FeatureSlice ..).lawful
  | .periodBoundary .. => (row_PeriodBoundary ..).lawful
  | .downlinkSuperframe .. => (row_DownlinkSuperframe ..).lawful
  | .commitResolve => (row_CommitResolve ..).lawful
  | .u0 .. => (row_U0 ..).lawful
  | .linkUp .. => (row_LinkUp ..).lawful
  | .uplinkFrame .. => (row_UplinkFrame ..).lawful
  | .frondTickEdge .. => (row_FrondTickEdge ..).lawful rfl
  | .contentionSafeState .. => (row_ContentionSafeState ..).lawful rfl
  | .d0 .. => (row_D0 ..).lawful rfl
  | .d1 .. => (row_D1 ..).lawful rfl
  | .d2 .. => (row_D2 ..).lawful rfl
  | .ds .. => (row_DS ..).lawful rfl
  | .snapSync .. => (row_SnapSync ..).lawful rfl
  | .snapDesc .. => (row_SnapDesc ..).lawful rfl
  | .safe .. => (row_Safe ..).lawful rfl
  | .wdExpired .. => (row_WdExpired ..).lawful rfl
  | .conversion .. => (row_Conversion ..).lawful rfl
  | .integratorStep .. => (row_IntegratorStep ..).lawful rfl
  | .regulatorEvaluation .. => (row_RegulatorEvaluation ..).lawful rfl
  | .channelDiagnostic .. => (row_ChannelDiagnostic ..).lawful rfl
  | .doThermal .. => (row_DoThermal ..).lawful rfl
  | .regFaultRestart .. => (row_RegFaultRestart ..).lawful rfl
  | .frondCause .. => (row_FrondCause ..).lawful rfl
  | .frondInputRestart .. => (row_FrondInputRestart ..).lawful rfl
  | .auxPowerArrive .. => (row_AuxPowerArrive ..).lawful rfl
  | .auxPowerLoss .. => (row_AuxPowerLoss ..).lawful rfl
  | .fsupArrive .. => (row_FsupArrive ..).lawful rfl
  | .faultSourceActivate .. => (row_FaultSourceActivate ..).lawful
  | .faultSourceCleared .. => (row_FaultSourceCleared ..).lawful
  | .escalation .. => (row_Escalation ..).lawful
  | .shadowClose .. => (row_ShadowClose ..).lawful
  | .haltRelease => lawful_reset (row_HaltRelease s)
  | .clockSrcLost .. => (row_ClockSrcLost ..).lawful
  | .clockBothLost => (row_ClockBothLost ..).lawful
  | .timeLocked => (row_TimeLocked ..).lawful
  | .timeHoldover => (row_TimeHoldover ..).lawful
  | .timeRegained => (row_TimeRegained ..).lawful
  | .syncInSnap .. => (row_SyncInSnap ..).lawful
  | .syncInPhaseReset => (row_SyncInPhaseReset ..).lawful
  | .syncInCaptureTrigger .. => (row_SyncInCaptureTrigger ..).lawful
  | .captureReadout .. => (row_CaptureReadout ..).lawful
  | .recordDelivery .. => (row_RecordDelivery ..).lawful
  | .holdoffExpiry .. => (row_HoldoffExpiry ..).lawful
  | .lspFifoMove .. => (row_LspFifoMove ..).lawful
  | .lspRead => (row_LspRead ..).lawful
  | .flushTakeEffect .. => (row_FlushTakeEffect ..).lawful
  | .datagramClose .. => (row_DatagramClose ..).lawful
  | .dbCmd .. => (row_DbCmd ..).lawful
  | .dbConsumer .. => (row_DbConsumer ..).lawful
  | .nop .. => (row_Nop ..).lawful
  | .cfgWrite .. => (row_CfgWrite ..).lawful
  | .commit .. => (row_Commit ..).lawful
  | .snap .. => (row_Snap ..).lawful
  | .outputSet .. => (row_OutputSet ..).lawful
  | .arm .. => (row_Arm ..).lawful
  | .disarm .. => (row_Disarm ..).lawful
  | .trigger .. => (row_Trigger ..).lawful
  | .mapRead .. => (row_MapRead ..).lawful
  | .mapReadDone => (row_MapReadDone ..).lawful
  | .flush .. => (row_Flush ..).lawful
  | .ruleLoad .. => (row_RuleLoad ..).lawful
  | .speedTable .. => (row_SpeedTable ..).lawful
  | .sync .. => (row_Sync ..).lawful
  | .syncDone => (row_SyncDone ..).lawful
  | .faultClearChannel .. => (row_FaultClearChannel ..).lawful
  | .faultClearFrond .. => (row_FaultClearFrond ..).lawful
  | .faultClearSource .. => (row_FaultClearSource ..).lawful
  | .faultClearLatch .. => (row_FaultClearLatch ..).lawful
  | .cvuRun .. => (row_CvuRun ..).lawful
  | .cvuRunDone .. => (row_CvuRunDone ..).lawful
  | .timeout .. => (row_Timeout ..).lawful
  | .blobLoad .. => (row_BlobLoad ..).lawful
  | .blobStore => (row_BlobStore ..).lawful
  | .getNonce .. => (row_GetNonce ..).lawful
  | .getIdentity .. => (row_GetIdentity ..).lawful
  | .getState .. => (row_GetState ..).lawful
  | .takeOwnership .. => (row_TakeOwnership ..).lawful rfl
  | .keyInstall .. => (row_KeyInstall ..).lawful
  | .unlock .. => (row_Unlock ..).lawful
  | .relock .. => (row_Relock ..).lawful
  | .seal .. => (row_Seal ..).lawful rfl
  | .unseal .. => (row_Unseal ..).lawful rfl
  | .rma .. => (row_Rma ..).lawful rfl
  | .makerRestore .. => (row_MakerRestore ..).lawful rfl
  | .void .. => (row_Void ..).lawful rfl
  | .fwUpdate .. => (row_FwUpdate ..).lawful
  | .fwConfirm .. => (row_FwConfirm ..).lawful
  | .ldevidGen .. => (row_LdevidGen ..).lawful
  | .ldevidInstall .. => (row_LdevidInstall ..).lawful
  | .selfTest .. => (row_SelfTest ..).lawful
  | .authLockExpiry => (row_AuthLockExpiry ..).lawful
  | .presenceExpiry => (row_PresenceExpiry ..).lawful
  | .cryptoError => (row_CryptoError ..).lawful
  | .ringEnable .. => (row_RingEnable ..).lawful
  | .ringDisable .. => (row_RingDisable ..).lawful
  | .statusBaseWrite .. => (row_StatusBaseWrite ..).lawful
  | .chnSel .. => (row_ChnSel ..).lawful
  | .broadcastWrite .. => (row_BroadcastWrite ..).lawful
  | .basicCodeWrite .. => (row_BasicCodeWrite ..).lawful
  | .rwpValueWrite .. => (row_RwpValueWrite ..).lawful
  | .rwpComplementWrite .. => (row_RwpComplementWrite ..).lawful
  | .reg64LowRead .. => (row_Reg64LowRead ..).lawful
  | .reg64HighRead .. => (row_Reg64HighRead ..).lawful
  | .reg64AtomicRead .. => (row_Reg64AtomicRead ..).lawful
  | .reg64LowWrite .. => (row_Reg64LowWrite ..).lawful
  | .reg64HighWrite .. => (row_Reg64HighWrite ..).lawful
  | .mapPeekIdx .. => (row_MapPeekIdx ..).lawful
  | .discard .. => (row_Discard ..).lawful
  | .cvuCtlAlg .. => (row_CvuCtlAlg ..).lawful
  | .cvuInit .. => (row_CvuInit ..).lawful
  | .cvuFeed8 .. => (row_CvuFeed8 ..).lawful
  | .cvuFeed16 .. => (row_CvuFeed16 ..).lawful
  | .cvuFeed32 .. => (row_CvuFeed32 ..).lawful
  | .cvuStateWrite .. => (row_CvuStateWrite ..).lawful
  | .dbgCtlWrite .. => (row_DbgCtlWrite ..).lawful
  | .checkIn => (row_CheckIn ..).lawful
  | .registerWrite .. => (row_RegisterWrite ..).lawful
  | .functionLevelReset => (row_FunctionLevelReset ..).lawful
  | .busMasterClear => (row_BusMasterClear ..).lawful
  | .pciePerst .. => (row_PciePerst ..).lawful
  | .pcieDegraded .. => (row_PcieDegraded ..).lawful
  | .vlogValid .. => (row_VlogValid ..).lawful
  | .auxPowerEnable .. => (row_AuxPowerEnable ..).lawful
  | .moduleReset b => lawful_reset (row_ModuleReset s b)
  | .bootStart i => lawful_bootStart i s
  | .bootDone => (row_BootDone ..).lawful
  | .autonomousCommit => (row_AutonomousCommit ..).lawful
  | .supplyPhase .. => (row_SupplyPhase ..).lawful
  | .supplyPhaseRetry .. => (row_SupplyPhaseRetry ..).lawful
  | .ethLinkDown .. => (row_EthLinkDown ..).lawful
  | .ethLinkUp .. => (row_EthLinkUp ..).lawful
  | .ethFrame .. => (row_EthFrame ..).lawful
  | .tlsConnect .. => (row_TlsConnect ..).lawful
  | .status .. => (row_Status ..).lawful
  | .netSet .. => (row_NetSet ..).lawful
  | .macsecKey .. => (row_MacsecKey ..).lawful
  | .macsecTxChange .. => (row_MacsecTxChange ..).lawful
  | .descriptor .. => (row_Descriptor ..).lawful
  | .clkBChange .. => (row_ClkBChange ..).lawful rfl
  | .lspRdclkEdge => (row_LspRdclkEdge ..).lawful
  | .badOpcode .. => (row_BadOpcode ..).lawful
  | .clockSrcLostClear => (row_ClockSrcLostClear ..).lawful
  | .tlsSessionClose .. => (row_TlsSessionClose ..).lawful
  | .zeroisationComplete => (row_ZeroisationComplete ..).lawful
  | .selfTestDone .. => (row_SelfTestDone ..).lawful
  | .haltDrainTimeout => (row_HaltDrainTimeout ..).lawful
  | .tickOutFall => (row_TickOutFall ..).lawful
  | .syncOutRepeat .. => (row_SyncOutRepeat ..).lawful
  | .addressAgeing .. => (row_AddressAgeing ..).lawful
  | .gateControlListEntry .. => (row_GateControlListEntry ..).lawful
  | .reserveStepBoundary => (row_ReserveStepBoundary ..).lawful

/-! ## The numbers of waiting descriptors -/

theorem OnlyBy.freshBy {ps : List Part} {s : State} {o : Host.Outcome State Fault Refusal} (h : OnlyBy ps s o) (apart : Part.descs ∉ ps)
    (fresh : Fresh s) : FreshBy o := by
  obtain ⟨t, rfl, only⟩ := h
  exact .next (fresh.of_only only apart)

theorem fresh_exec (s : State) (h : Fresh s) : ∀ c : Instr, FreshBy (exec c s)
  | .tickEdge .. => fresh_execTickEdge s _ h
  | .tbaseHigh => (only_execTbaseHigh ..).freshBy (by decide) h
  | .deferredWork => fresh_execDeferredWork s h
  | .featureSlice => (only_execFeatureSlice ..).freshBy (by decide) h
  | .periodBoundary .. => fresh_execPeriodBoundary s _ h
  | .downlinkSuperframe .. => fresh_execDownlinkSuperframe s _ h
  | .commitResolve => (only_execCommitResolve ..).freshBy (by decide) h
  | .u0 .. => fresh_execU0 s _ _ _ h
  | .linkUp .. => (only_execLinkUp ..).freshBy (by decide) h
  | .uplinkFrame .. => fresh_execUplinkFrame s _ _ _ _ _ h
  | .frondTickEdge .. => (only_execFrondTickEdge ..).freshBy (by decide) h
  | .contentionSafeState .. => (only_execContentionSafeState ..).freshBy (by decide) h
  | .d0 .. => (only_execD0 ..).freshBy (by decide) h
  | .d1 .. => (only_execD1 ..).freshBy (by decide) h
  | .d2 .. => (only_execD2 ..).freshBy (by decide) h
  | .ds .. => (only_execDS ..).freshBy (by decide) h
  | .snapSync .. => (only_execSnapSync ..).freshBy (by decide) h
  | .snapDesc .. => (only_execSnapDesc ..).freshBy (by decide) h
  | .safe .. => (only_execSafe ..).freshBy (by decide) h
  | .wdExpired .. => (only_execWdExpired ..).freshBy (by decide) h
  | .conversion .. => (only_execConversion ..).freshBy (by decide) h
  | .integratorStep .. => (only_execIntegratorStep ..).freshBy (by decide) h
  | .regulatorEvaluation .. => (only_execRegulatorEvaluation ..).freshBy (by decide) h
  | .channelDiagnostic .. => (only_execChannelDiagnostic ..).freshBy (by decide) h
  | .doThermal .. => (only_execDoThermal ..).freshBy (by decide) h
  | .regFaultRestart .. => (only_execRegFaultRestart ..).freshBy (by decide) h
  | .frondCause .. => (only_execFrondCause ..).freshBy (by decide) h
  | .frondInputRestart .. => (only_execFrondInputRestart ..).freshBy (by decide) h
  | .auxPowerArrive .. => (only_execAuxPowerArrive ..).freshBy (by decide) h
  | .auxPowerLoss .. => (only_execAuxPowerLoss ..).freshBy (by decide) h
  | .fsupArrive .. => (only_execFsupArrive ..).freshBy (by decide) h
  | .faultSourceActivate .. => (only_execFaultSourceActivate ..).freshBy (by decide) h
  | .faultSourceCleared .. => (only_execFaultSourceCleared ..).freshBy (by decide) h
  | .escalation .. => (only_execEscalation ..).freshBy (by decide) h
  | .shadowClose .. => (only_execShadowClose ..).freshBy (by decide) h
  | .haltRelease => fresh_execHaltRelease s h
  | .clockSrcLost .. => (only_execClockSrcLost ..).freshBy (by decide) h
  | .clockBothLost => (only_execClockBothLost ..).freshBy (by decide) h
  | .timeLocked => (only_execTimeLocked ..).freshBy (by decide) h
  | .timeHoldover => (only_execTimeHoldover ..).freshBy (by decide) h
  | .timeRegained => (only_execTimeRegained ..).freshBy (by decide) h
  | .syncInSnap .. => (only_execSyncInSnap ..).freshBy (by decide) h
  | .syncInPhaseReset => (only_execSyncInPhaseReset ..).freshBy (by decide) h
  | .syncInCaptureTrigger .. => (only_execSyncInCaptureTrigger ..).freshBy (by decide) h
  | .captureReadout .. => fresh_execCaptureReadout s _ h
  | .recordDelivery .. => (only_execRecordDelivery ..).freshBy (by decide) h
  | .holdoffExpiry .. => (only_execHoldoffExpiry ..).freshBy (by decide) h
  | .lspFifoMove .. => (only_execLspFifoMove ..).freshBy (by decide) h
  | .lspRead => (only_execLspRead ..).freshBy (by decide) h
  | .flushTakeEffect .. => fresh_execFlushTakeEffect s _ h
  | .datagramClose .. => (only_execDatagramClose ..).freshBy (by decide) h
  | .dbCmd .. => (only_execDbCmd ..).freshBy (by decide) h
  | .dbConsumer .. => (only_execDbConsumer ..).freshBy (by decide) h
  | .nop .. => fresh_execNop s _ h
  | .cfgWrite .. => fresh_execCfgWrite s _ h
  | .commit .. => fresh_execCommit s _ h
  | .snap .. => fresh_execSnap s _ _ h
  | .outputSet .. => fresh_execOutputSet s _ h
  | .arm .. => fresh_execArm s _ h
  | .disarm .. => fresh_execDisarm s _ h
  | .trigger .. => fresh_execTrigger s _ _ h
  | .mapRead .. => fresh_execMapRead s _ h
  | .mapReadDone => fresh_execMapReadDone s h
  | .flush .. => fresh_execFlush s _ h
  | .ruleLoad .. => fresh_execRuleLoad s _ h
  | .speedTable .. => fresh_execSpeedTable s _ h
  | .sync .. => fresh_execSync s _ h
  | .syncDone => fresh_execSyncDone s h
  | .faultClearChannel .. => fresh_execFaultClearChannel s _ h
  | .faultClearFrond .. => fresh_execFaultClearFrond s _ h
  | .faultClearSource .. => fresh_execFaultClearSource s _ h
  | .faultClearLatch .. => fresh_execFaultClearLatch s _ h
  | .cvuRun .. => fresh_execCvuRun s _ h
  | .cvuRunDone .. => fresh_execCvuRunDone s _ h
  | .timeout .. => fresh_execTimeout s _ _ h
  | .blobLoad .. => fresh_execBlobLoad s _ h
  | .blobStore => fresh_execBlobStore s h
  | .getNonce .. => fresh_execGetNonce s _ _ _ h
  | .getIdentity .. => fresh_execGetIdentity s _ _ _ h
  | .getState .. => fresh_execGetState s _ _ _ h
  | .takeOwnership .. => fresh_execTakeOwnership s _ _ _ h
  | .keyInstall .. => fresh_execKeyInstall s _ _ _ h
  | .unlock .. => fresh_execUnlock s _ _ _ h
  | .relock .. => fresh_execRelock s _ _ _ h
  | .seal .. => fresh_execSeal s _ _ _ h
  | .unseal .. => fresh_execUnseal s _ _ _ h
  | .rma .. => fresh_execRma s _ _ _ h
  | .makerRestore .. => fresh_execMakerRestore s _ _ _ h
  | .void .. => fresh_execVoid s _ _ _ h
  | .fwUpdate .. => fresh_execFwUpdate s _ _ _ h
  | .fwConfirm .. => fresh_execFwConfirm s _ _ _ h
  | .ldevidGen .. => fresh_execLdevidGen s _ _ _ h
  | .ldevidInstall .. => fresh_execLdevidInstall s _ _ _ h
  | .selfTest .. => fresh_execSelfTest s _ _ _ h
  | .authLockExpiry => (only_execAuthLockExpiry ..).freshBy (by decide) h
  | .presenceExpiry => (only_execPresenceExpiry ..).freshBy (by decide) h
  | .cryptoError => (only_execCryptoError ..).freshBy (by decide) h
  | .ringEnable .. => (only_execRingEnable ..).freshBy (by decide) h
  | .ringDisable .. => (only_execRingDisable ..).freshBy (by decide) h
  | .statusBaseWrite .. => (only_execStatusBaseWrite ..).freshBy (by decide) h
  | .chnSel .. => (only_execChnSel ..).freshBy (by decide) h
  | .broadcastWrite .. => (only_execBroadcastWrite ..).freshBy (by decide) h
  | .basicCodeWrite .. => (only_execBasicCodeWrite ..).freshBy (by decide) h
  | .rwpValueWrite .. => (only_execRwpValueWrite ..).freshBy (by decide) h
  | .rwpComplementWrite .. => (only_execRwpComplementWrite ..).freshBy (by decide) h
  | .reg64LowRead .. => (only_execReg64LowRead ..).freshBy (by decide) h
  | .reg64HighRead .. => (only_execReg64HighRead ..).freshBy (by decide) h
  | .reg64AtomicRead .. => (only_execReg64AtomicRead ..).freshBy (by decide) h
  | .reg64LowWrite .. => (only_execReg64LowWrite ..).freshBy (by decide) h
  | .reg64HighWrite .. => (only_execReg64HighWrite ..).freshBy (by decide) h
  | .mapPeekIdx .. => (only_execMapPeekIdx ..).freshBy (by decide) h
  | .discard .. => (only_execDiscard ..).freshBy (by decide) h
  | .cvuCtlAlg .. => (only_execCvuCtlAlg ..).freshBy (by decide) h
  | .cvuInit .. => (only_execCvuInit ..).freshBy (by decide) h
  | .cvuFeed8 .. => (only_execCvuFeed8 ..).freshBy (by decide) h
  | .cvuFeed16 .. => (only_execCvuFeed16 ..).freshBy (by decide) h
  | .cvuFeed32 .. => (only_execCvuFeed32 ..).freshBy (by decide) h
  | .cvuStateWrite .. => (only_execCvuStateWrite ..).freshBy (by decide) h
  | .dbgCtlWrite .. => (only_execDbgCtlWrite ..).freshBy (by decide) h
  | .checkIn => (only_execCheckIn ..).freshBy (by decide) h
  | .registerWrite .. => fresh_execRegisterWrite s _ _ _ _ _ _ _ h
  | .functionLevelReset => fresh_execFunctionLevelReset s h
  | .busMasterClear => fresh_execBusMasterClear s h
  | .pciePerst .. => fresh_execPciePerst s _ _ h
  | .pcieDegraded .. => (only_execPcieDegraded ..).freshBy (by decide) h
  | .vlogValid .. => (only_execVlogValid ..).freshBy (by decide) h
  | .auxPowerEnable .. => (only_execAuxPowerEnable ..).freshBy (by decide) h
  | .moduleReset .. => fresh_execModuleReset s _ h
  | .bootStart .. => (only_execBootStart ..).freshBy (by decide) h
  | .bootDone => (only_execBootDone ..).freshBy (by decide) h
  | .autonomousCommit => fresh_execAutonomousCommit s h
  | .supplyPhase .. => (only_execSupplyPhase ..).freshBy (by decide) h
  | .supplyPhaseRetry .. => (only_execSupplyPhaseRetry ..).freshBy (by decide) h
  | .ethLinkDown .. => (only_execEthLinkDown ..).freshBy (by decide) h
  | .ethLinkUp .. => (only_execEthLinkUp ..).freshBy (by decide) h
  | .ethFrame .. => (only_execEthFrame ..).freshBy (by decide) h
  | .tlsConnect .. => (only_execTlsConnect ..).freshBy (by decide) h
  | .status .. => (only_execStatus ..).freshBy (by decide) h
  | .netSet .. => (only_execNetSet ..).freshBy (by decide) h
  | .macsecKey .. => (only_execMacsecKey ..).freshBy (by decide) h
  | .macsecTxChange .. => (only_execMacsecTxChange ..).freshBy (by decide) h
  | .descriptor .. => (only_execDescriptor ..).freshBy (by decide) h
  | .clkBChange .. => (only_execClkBChange ..).freshBy (by decide) h
  | .lspRdclkEdge => (only_execLspRdclkEdge ..).freshBy (by decide) h
  | .badOpcode .. => fresh_execBadOpcode s _ h
  | .clockSrcLostClear => (only_execClockSrcLostClear ..).freshBy (by decide) h
  | .tlsSessionClose .. => (only_execTlsSessionClose ..).freshBy (by decide) h
  | .zeroisationComplete => fresh_execZeroisationComplete s h
  | .selfTestDone .. => fresh_execSelfTestDone s _ h
  | .haltDrainTimeout => (only_execHaltDrainTimeout ..).freshBy (by decide) h
  | .tickOutFall => (only_execTickOutFall ..).freshBy (by decide) h
  | .syncOutRepeat .. => (only_execSyncOutRepeat ..).freshBy (by decide) h
  | .addressAgeing .. => (only_execAddressAgeing ..).freshBy (by decide) h
  | .gateControlListEntry .. => (only_execGateControlListEntry ..).freshBy (by decide) h
  | .reserveStepBoundary => (only_execReserveStepBoundary ..).freshBy (by decide) h

/-! ## The invariant -/

/-- Every transition of Table 16-8 ends in a state of Table 16-7. -/
theorem lcLegal_of_lcMove {a b : Nat} (h : lcMove a b = true) : lcLegal b = true := by
  simp only [lcMove, Bool.or_eq_true, Bool.and_eq_true, beq_iff_eq] at h
  obtain (((((⟨_, rfl⟩ | ⟨_, rfl⟩) | ⟨_, rfl⟩) | ⟨_, rfl⟩) | ⟨_, rfl⟩) | ⟨_, rfl⟩) := h
  all_goals rfl

theorem sound_exec {s : State} (sound : Sound s) (c : Instr) : ∃ t, exec c s = .next t ∧ Sound t := by
  obtain ⟨t, next, lawful⟩ := lawful_exec s c
  have life : lcLegal t.sec.lc = true := by
    obtain same | ⟨_, move⟩ := lawful.life
    · rw [same]
      exact sound.life
    · exact lcLegal_of_lcMove move
  exact ⟨t, next, lawful.halt sound.halt, life, lawful.map sound.map, fresh_exec s sound.ids c t next⟩

/-- Settles O5: a command in front of the queue keeps the invariant (`sound_exec`), which says nothing of the queue itself. -/
theorem everyStepKeepsSound : Obligations.EveryStepKeepsSound := by
  unfold Obligations.EveryStepKeepsSound
  intro s sound
  unfold step
  split
  · exact ⟨s, rfl, sound⟩
  · next c r _ =>
    obtain ⟨halt, life, map, ids⟩ := sound
    exact sound_exec (s := { s with pending := r }) ⟨halt, life, map, ids⟩ c

/-- Settles O4: a module in reset is not halted, its life cycle is MAKER, and its map and its list of descriptors are empty. -/
theorem resetStateIsSound : Obligations.ResetStateIsSound := by
  unfold Obligations.ResetStateIsSound
  refine ⟨fun stopped => ?_, rfl, ⟨.nil, fun _ none => absurd none List.not_mem_nil⟩, fun _ none => absurd none List.not_mem_nil⟩
  rcases stopped with draining | halted
  · cases draining
  · cases halted

/-! ## Claims about every command -/

/-- A next state of a command lies within what the command may change. -/
theorem lawful_of_next {c : Instr} {s t : State} (h : exec c s = .next t) : Lawful c s t := by
  obtain ⟨u, next, lawful⟩ := lawful_exec s c
  cases next.symm.trans h
  exact lawful

/-- Settles O7: only the six descriptors have rows under which the life cycle may move (`lawful_exec`). -/
theorem lifeCycleMovesOnlyAsTabled : Obligations.LifeCycleMovesOnlyAsTabled := by
  unfold Obligations.LifeCycleMovesOnlyAsTabled
  intro c s t h
  exact (lawful_of_next h).life

/-- Settles O8: a row that acts on a frond's own side acts on that of its own frond (`lawful_exec`). -/
theorem commandsReachOneFrondOnly : Obligations.CommandsReachOneFrondOnly := by
  unfold Obligations.CommandsReachOneFrondOnly
  intro c s t f other h
  exact (lawful_of_next h).others f other

/-- Settles O9: every row only adds to the outbox, and none names the queue (`lawful_exec`). -/
theorem outputsAreNeverTakenBack : Obligations.OutputsAreNeverTakenBack := by
  unfold Obligations.OutputsAreNeverTakenBack
  intro c s t h
  exact ⟨(lawful_of_next h).sent, (lawful_of_next h).pending⟩

/-! ## The queue of commands -/

/-- Settles O1: what `step` does with a queue that is not empty. -/
theorem stepRunsFrontCommand : Obligations.StepRunsFrontCommand := by
  unfold Obligations.StepRunsFrontCommand
  intro c s
  rfl

/-- Settles O2: the command table gives no row any bits, so `decodeTableWord` knows no word. -/
theorem emptyQueueIdles : Obligations.EmptyQueueIdles := by
  unfold Obligations.EmptyQueueIdles
  refine ⟨fun s empty => ?_, fun _ _ => rfl, fun _ _ _ => rfl⟩
  unfold step
  rw [empty]

/-! ## The frames of the commands -/

/-- A running module in hosted mode with its link trained and one descriptor that waits. -/
def hostedWaiting : State :=
  { phase := .running, bme := true, pwr := { linkUp := true }, outs := [{ id := 0, opcode := 0x0B, didx := 0, tag := 0, tmo := 0 }],
    nextId := 1 }

/-- The host clears Bus Master Enable by writing 0 to the command register of configuration space. -/
theorem exec_clearBusMaster : exec (.registerWrite .pcie 0x04 4 0 0 [] .config) hostedWaiting = .next (busMaster false hostedWaiting) := rfl

/-- Refutes O3: the write to configuration space that clears Bus Master Enable ends the waiting descriptors without a completion (R406),
and the frame of REGISTER_WRITE does not name the descriptors. -/
theorem not_everyCommandKeepsTheRest : ¬ Obligations.EveryCommandKeepsTheRest := by
  unfold Obligations.EveryCommandKeepsTheRest
  intro h
  obtain ⟨t, next, only⟩ := h (.registerWrite .pcie 0x04 4 0 0 [] .config) hostedWaiting
  cases exec_clearBusMaster.symm.trans next
  have waiting : (busMaster false hostedWaiting).outs = hostedWaiting.outs := congrArg Prod.fst (only .descs (by decide))
  exact absurd (congrArg (List.map Outstanding.lost) waiting) (by decide)

end Sys2Proof.Machine
end

section
/-! SUPPORT. SEC_OPs without a token: GET_NONCE, GET_IDENTITY, GET_STATE, RELOCK, FW_CONFIRM, LDEVID_GEN and SELF_TEST (Table 16-11). -/

namespace Sys2Proof.Machine

/-! ## The completion of a SEC_OP -/

theorem complete_sec (id status : Nat) (res : List Byte) (s : State) : (complete id status res s).sec = s.sec :=
  sec_of_only (only_complete_self id status res s) (by decide) (by decide)

/-- The module with another security state. -/
def withSec (x : Sec) (s : State) : State := { s with sec := x }

theorem only_withSec {x : Sec} {s : State} (life : (x.lc, x.slots) = (s.sec.lc, s.sec.slots)) : Only [.security] s (withSec x s) :=
  only_setSec s life

@[simp] theorem outbox_withSec (x : Sec) (s : State) : (withSec x s).outbox = s.outbox := rfl

/-- An operation that changes the security state alone and then completes. -/
theorem completes_withSec {form : DescForm} {d : Desc} {s : State} {c : Instr} {status : Nat} {res : List Byte} {x : Sec} (fresh : Fresh s)
    (h : Takes form d s) (life : (x.lc, x.slots) = (s.sec.lc, s.sec.slots))
    (runs : exec c s = .next (complete s.nextId status res (withSec x (startDesc d (form.obj d) (acceptAlive d s))))) :
    ∃ t, Completes c d (executedAnd [.security]) status res s t ∧ t.sec = x := by
  have only : Only [.security] (startDesc d (form.obj d) (acceptAlive d s)) (withSec x (startDesc d (form.obj d) (acceptAlive d s))) :=
    only_withSec life
  exact ⟨_, completes_of_only [.security] h fresh only (by decide) (by decide) (by decide) (by decide) (by decide) (by simp) runs,
    complete_sec _ _ _ _⟩

/-! ## Output buffers -/

/-- The buffer of an operation whose completion the host will see takes the bytes and their CRC. -/
theorem secOut_fits {d : Desc} {data : List Byte} {id : Nat} {o : Outstanding} {s : State} (fits : (withCrc data).length ≤ dF d 12 4)
    (waits : outOf s id = some o) (seen : o.lost = false) : secOut d data id s =
      complete id 0 (le 4 (withCrc data).length) (outp (.hostWrite (BitVec.ofNat 64 (dF d 16 8)) (withCrc data)) s) := by
  have live : ((outOf s id).any fun o => !o.lost) = true := by simp [waits, seen]
  unfold secOut
  dsimp only
  rw [if_neg (Nat.not_lt.mpr fits), live, if_pos rfl]

/-- A descriptor that has just been taken waits under its number. -/
theorem outOf_taken {s : State} (fresh : Fresh s) (d : Desc) (obj : Nat) :
    ∃ o, outOf (startDesc d obj (acceptAlive d s)) s.nextId = some o ∧ o.lost = false :=
  ⟨_, outOf_startDesc (s := acceptAlive d s) fresh d obj, rfl⟩

theorem mem_outbox_complete {w : Output} {s : State} (sent : w ∈ s.outbox) (id status : Nat) (res : List Byte) :
    w ∈ (complete id status res s).outbox := (outbox_complete_suffix id status res s).subset sent

/-! ## The operations -/

section
variable {d : Desc} {s : State}

theorem getNonce_draws (ready : SecReady notVoid s) (h : Takes (secForm 0x01 .none) d s) :
    ∃ t n, Completes (.getNonce d false false) d (executedAnd [.security]) 0 n s t ∧ n.length = 16 ∧
      t.sec = { s.sec with nonce := some n, draws := s.sec.draws + 1 } := by
  have runs : exec (.getNonce d false false) s = _ := congrArg Host.Outcome.next (plainOp_acts ready h rfl)
  obtain ⟨t, completes, sec⟩ := completes_withSec (x := { s.sec with
    nonce := some (padTo 16 (Config.random s.sec.draws)), draws := s.sec.draws + 1 }) ready.fresh h rfl runs
  exact ⟨t, _, completes, length_padTo _ _, sec⟩

theorem getIdentity_writes (ready : SecReady notVoid s) (h : Takes (secForm 0x02 .out) d s)
    (fits : (withCrc (Config.idevid ++ s.sec.ldevCert.getD [])).length ≤ dF d 12 4) :
    ∃ t, Completes (.getIdentity d false false) d executed 0 (le 4 (withCrc (Config.idevid ++ s.sec.ldevCert.getD [])).length) s t ∧
      .hostWrite (BitVec.ofNat 64 (dF d 16 8)) (withCrc (Config.idevid ++ s.sec.ldevCert.getD [])) ∈ t.outbox := by
  obtain ⟨o, waits, seen⟩ := outOf_taken ready.fresh d 0x02
  have runs : exec (.getIdentity d false false) s = .next (secOut d (Config.idevid ++ s.sec.ldevCert.getD []) s.nextId
      (startDesc d 0x02 (acceptAlive d s))) := congrArg Host.Outcome.next (plainOp_acts ready h rfl)
  rw [secOut_fits fits waits seen] at runs
  have only := only_outp (ps := [.outbox]) (.hostWrite (BitVec.ofNat 64 (dF d 16 8)) (withCrc (Config.idevid ++ s.sec.ldevCert.getD [])))
    (List.Subset.refl _) (Only.refl _ (startDesc d 0x02 (acceptAlive d s)))
  exact ⟨_, completes_of_only [] h ready.fresh only (by decide) (by decide) (by decide) (by decide) (by decide) (List.suffix_cons _ _)
    runs, mem_outbox_complete (List.mem_cons_self ..) _ _ _⟩

/-- What GET_STATE reports (Table 16-11). -/
def stateReport (x : Sec) : List Byte :=
  le 4 x.blobSeq ++ le 1 (mask ((List.range 4).filter (fun i => x.keys.any (fun e => e.1 == i)))) ++ le 1 x.rollback ++
    le 1 (min 255 x.fails) ++ le 1 x.slots

theorem getState_reports (ready : SecReady notVoid s) (h : Takes (secForm 0x03 .none) d s) :
    ∃ t, Completes (.getState d false false) d executed 0 (stateReport s.sec) s t := by
  have runs : exec (.getState d false false) s = .next (complete s.nextId 0 (stateReport s.sec) (startDesc d 0x03 (acceptAlive d s))) :=
    congrArg Host.Outcome.next (plainOp_acts ready h rfl)
  exact completes_unchanged ready.fresh h runs

theorem relock_closes (ready : SecReady notVoid s) (h : Takes (secForm 0x21 .none) d s) :
    ∃ t, Completes (.relock d false false) d (executedAnd [.security]) 0 [] s t ∧ t.sec = { s.sec with unlocked := false, dbg := 0 } := by
  have runs : exec (.relock d false false) s = _ := congrArg Host.Outcome.next (plainOp_acts ready h rfl)
  exact completes_withSec (x := { s.sec with unlocked := false, dbg := 0 }) ready.fresh h rfl runs

theorem fwConfirm_confirms (ready : SecReady notVoid s) (h : Takes (secForm 0x41 .none) d s) {r : Nat}
    (hr : r = max s.sec.rollback (secVer (runImage s))) :
    ∃ t, Completes (.fwConfirm d false false) d (executedAnd [.security]) 0 (le 1 r) s t ∧
      t.sec = { s.sec with trial := false, trialRec := s.sec.trialRec && !s.sec.trial, rollback := r } := by
  subst hr
  have runs : exec (.fwConfirm d false false) s = _ := congrArg Host.Outcome.next (plainOp_acts ready h rfl)
  exact completes_withSec (x := { s.sec with
    trial := false, trialRec := s.sec.trialRec && !s.sec.trial, rollback := max s.sec.rollback (secVer (runImage s)) })
    ready.fresh h rfl runs

/-- The public key of LDEVID_GEN as it is written out. -/
def ldevKey (s : State) : List Byte := padTo 96 (Config.keyPair s.sec.draws)

theorem length_ldevKey_withCrc (s : State) : (withCrc (ldevKey s)).length = 100 := by rw [length_withCrc, ldevKey, length_padTo]

/-- The module with a new LDevID key in its subsystem. -/
def ldevDrawn (s : State) : State := withSec { s.sec with ldev := some (ldevKey s), draws := s.sec.draws + 1 } s

theorem ldevKey_taken (d : Desc) (obj : Nat) (s : State) : ldevKey (startDesc d obj (acceptAlive d s)) = ldevKey s := by
  rw [ldevKey, startDesc_acceptAlive_sec, ldevKey]

theorem ldevDrawn_sec (s : State) : (ldevDrawn s).sec = { s.sec with ldev := some (ldevKey s), draws := s.sec.draws + 1 } := rfl

theorem only_ldevDrawn (s : State) : Only [.security] s (ldevDrawn s) := only_withSec rfl

/-- LDEVID_GEN draws its key and writes the public one out. -/
theorem exec_ldevidGen (ready : SecReady [lcOwned, lcSealed] s) (h : Takes (secForm 0x50 .out) d s) (room : 100 ≤ dF d 12 4) :
    exec (.ldevidGen d false false) s = .next (secOut d (ldevKey s) s.nextId (ldevDrawn (startDesc d 0x50 (acceptAlive d s)))) := by
  change execLdevidGen d false false s = _
  rw [execLdevidGen, plainOp_acts ready h rfl, if_neg (Nat.not_lt.mpr room), ← ldevKey_taken d 0x50 s]
  rfl

theorem ldevidGen_draws (ready : SecReady [lcOwned, lcSealed] s) (h : Takes (secForm 0x50 .out) d s) (room : 100 ≤ dF d 12 4) :
    ∃ t k, Completes (.ldevidGen d false false) d (executedAnd [.security]) 0 (le 4 100) s t ∧ k.length = 96 ∧
      t.sec = { s.sec with ldev := some k, draws := s.sec.draws + 1 } ∧
      .hostWrite (BitVec.ofNat 64 (dF d 16 8)) (withCrc k) ∈ t.outbox := by
  obtain ⟨o, waits, seen⟩ := outOf_taken ready.fresh d 0x50
  have drawn := only_ldevDrawn (startDesc d 0x50 (acceptAlive d s))
  have fits : (withCrc (ldevKey s)).length ≤ dF d 12 4 := by rwa [length_ldevKey_withCrc]
  have runs := exec_ldevidGen ready h room
  rw [secOut_fits fits ((outOf_of_only drawn (by decide) _).trans waits) seen, length_ldevKey_withCrc] at runs
  have written := only_outp (ps := [.outbox, .security]) (.hostWrite (BitVec.ofNat 64 (dF d 16 8)) (withCrc (ldevKey s))) (by decide)
    (drawn.mono (by decide))
  have sent : s.outbox <:+ (outp (.hostWrite (BitVec.ofNat 64 (dF d 16 8)) (withCrc (ldevKey s)))
      (ldevDrawn (startDesc d 0x50 (acceptAlive d s)))).outbox := by
    rw [outp_outbox, outbox_of_only drawn (by decide), startDesc_acceptAlive_outbox]
    exact List.suffix_cons _ _
  have sec := complete_sec s.nextId 0 (le 4 100) (outp (.hostWrite (BitVec.ofNat 64 (dF d 16 8)) (withCrc (ldevKey s)))
    (ldevDrawn (startDesc d 0x50 (acceptAlive d s))))
  rw [outp_sec, ldevDrawn_sec, ldevKey_taken, startDesc_acceptAlive_sec] at sec
  exact ⟨_, ldevKey s, completes_of_only [.security] h ready.fresh written (by decide) (by decide) (by decide) (by decide) (by decide)
    sent runs, length_padTo _ _, sec, mem_outbox_complete (List.mem_cons_self ..) _ _ _⟩

theorem selfTest_starts (ready : SecReady notVoid s) (h : Takes (secForm 0x60 .none) d s) :
    ∃ t, Starts (.selfTest d false false) d executed s t := by
  have runs : exec (.selfTest d false false) s = .next (startDesc d 0x60 (acceptAlive d s)) :=
    congrArg Host.Outcome.next (plainOp_acts ready h rfl)
  exact ⟨_, starts_of_only (ps := []) [] h ready.fresh (Only.refl _ _) (by decide) (by decide) (by decide) (by decide) runs⟩

end

/-- Settles O29: one lemma for each operation; each passes its gate (`plainOp_acts`) and acts on the state that the descriptor was taken in. -/
theorem securityOperationsWithoutToken : Obligations.SecurityOperationsWithoutToken := by
  unfold Obligations.SecurityOperationsWithoutToken
  intro d s
  refine ⟨getNonce_draws, fun ready h b hb fits => ?_, getState_reports, relock_closes, fun ready h r hr => fwConfirm_confirms ready h hr,
    ldevidGen_draws, selfTest_starts⟩
  subst hb
  exact getIdentity_writes ready h fits

end Sys2Proof.Machine
end

section
/-! SUPPORT. SEC_OPs that are turned away: outside their states, in the crypto error state, or with a token that fails (R520, R539 to R542). -/

namespace Sys2Proof.Machine

/-! ## A failure that counts (R541, R542) -/

theorem noteEvent_sec (id : Nat) (ctx : List Byte) (s : State) : (noteEvent id ctx s).sec = s.sec :=
  sec_of_only (only_noteEvent (ps := [.outbox, .queues, .faults]) id ctx (List.Subset.refl _) (Only.refl _ s)) (by decide) (by decide)

/-- A failed token, blob or image adds to the run of failures, every eighth of which sets AUTH_LOCK. -/
theorem authFailed_sec {kind : Nat} (counts : kind ≠ 4) (op : Nat) (s : State) : (authFailed kind op s).sec =
    { s.sec with fails := s.sec.fails + 1, authLock := s.sec.authLock || decide ((s.sec.fails + 1) % 8 = 0) } := by
  unfold authFailed
  dsimp only
  rw [if_neg counts, noteEvent_sec]

theorem authFailed_active {s : State} (line : lineBad s 0x35 0 = false) (kind op : Nat) :
    srcActive (authFailed kind op s) 0x35 0 = true := by
  unfold authFailed
  dsimp only
  split
  · exact noteEvent_active line _
  · exact noteEvent_active (id := 0x35) line (le 1 kind ++ le 1 op)

theorem only_authFailed_self (kind op : Nat) (s : State) : Only [.outbox, .queues, .faults, .security] s (authFailed kind op s) :=
  only_authFailed kind op (List.Subset.refl _) (Only.refl _ s)

theorem outbox_authFailed (kind op : Nat) (s : State) : s.outbox <:+ (authFailed kind op s).outbox :=
  (kept_authFailed kind op (Kept.refl s)).out

/-! ## The gate (R520, R533, R540) -/

theorem secGate_eq (op : Nat) (states : List Nat) (pre : State → Bool) (id : Nat) (act : State → State) (s : State) :
    secGate op states pre false false id act s =
      if !s.sec.otpOk || (s.sec.cryptoErr && op ≠ 0x03 && op ≠ 0x21) then complete id 0x42 [] s
      else if !states.contains s.sec.lc then complete id 0x40 [] s else if !pre s then complete id 0x42 [] s else act s := rfl

section
variable {op : Nat} {pay : SecPay} {states : List Nat} {pre : State → Bool} {act : List Byte → Nat → State → State} {c : Instr} {d : Desc}
  {s : State} (runs : exec c s = .next (plainOp op pay states pre act d false false s)) (fresh : Fresh s) (h : Takes (secForm op pay) d s)
include runs fresh h

theorem plainOp_locked (otp : s.sec.otpOk = true) (crypto : s.sec.cryptoErr = false) (outside : states.contains s.sec.lc = false) :
    ∃ t, Completes c d executed 0x40 [] s t := by
  rw [plainOp, takeDesc_takes h, secGate_eq, startDesc_acceptAlive_sec, if_neg (by simp [otp, crypto]), if_pos (by rw [outside]; rfl)] at runs
  exact completes_unchanged fresh h runs

theorem plainOp_refused (crypto : s.sec.cryptoErr = true) (notState : op ≠ 0x03) (notRelock : op ≠ 0x21) :
    ∃ t, Completes c d executed 0x42 [] s t := by
  rw [plainOp, takeDesc_takes h, secGate_eq, startDesc_acceptAlive_sec, if_pos (by simp [crypto, notState, notRelock])] at runs
  exact completes_unchanged fresh h runs

end

/-! ## Tokens (R539) -/

/-- The module after a token of operation op that fails: the nonce goes and the failure counts. -/
def tokenFailed (op : Nat) (s : State) : State := authFailed 1 op (useNonce s)

theorem tokenFailed_sec (op : Nat) (s : State) : (tokenFailed op s).sec = { s.sec with
    nonce := none, fails := s.sec.fails + 1, authLock := s.sec.authLock || decide ((s.sec.fails + 1) % 8 = 0) } :=
  authFailed_sec (by decide) op (useNonce s)

theorem only_tokenFailed (op : Nat) (s : State) : Only [.outbox, .queues, .faults, .security] s (tokenFailed op s) :=
  ((only_nonceUsed s).mono (by decide)).trans (only_authFailed_self 1 op (useNonce s))

theorem outbox_tokenFailed (op : Nat) (s : State) : s.outbox <:+ (tokenFailed op s).outbox := outbox_authFailed 1 op (useNonce s)

theorem tokenFailed_active {s : State} (line : lineBad s 0x35 0 = false) (op : Nat) : srcActive (tokenFailed op s) 0x35 0 = true :=
  authFailed_active (s := useNonce s) line 1 op

theorem tokenOp_fails {op : Nat} {states : List Nat} {key : State → Nat} {pre : State → Bool} {act : List Byte → Nat → State → State}
    {c : Instr} {d : Desc} {s : State} (runs : exec c s = .next (tokenOp op states key pre act d false false s)) (ready : SecReady states s)
    (h : Takes (secForm op .input) d s) (holds : pre (startDesc d op (acceptAlive d s)) = true) (free : s.sec.authLock = false)
    (fails : tokenOk s op (key (startDesc d op (acceptAlive d s))) (payload d (dF d 12 4)) = false) (line : lineBad s 0x35 0 = false) :
    ∃ t, Completes c d (executedAnd [.security]) 0x41 [] s t ∧ t.sec.nonce = none ∧ t.sec.fails = s.sec.fails + 1 ∧
      t.sec.keys = s.sec.keys ∧ t.sec.lc = s.sec.lc ∧ srcActive t 0x35 0 = true := by
  have gate : (pre (startDesc d op (acceptAlive d s)) && !(startDesc d op (acceptAlive d s)).sec.authLock) = true := by
    rw [holds, startDesc_acceptAlive_sec, free]
    rfl
  rw [tokenOp, plainOp_acts ready h gate, if_neg (by simp [fails]), ← tokenFailed] at runs
  have only := only_tokenFailed op (startDesc d op (acceptAlive d s))
  have sent : s.outbox <:+ (tokenFailed op (startDesc d op (acceptAlive d s))).outbox := by
    rw [← startDesc_acceptAlive_outbox d op s]
    exact outbox_tokenFailed op _
  have quiet : lineBad (startDesc d op (acceptAlive d s)) 0x35 0 = false :=
    (lineBad_of_only (only_taken d op s) (by decide) 0x35 0).trans line
  refine ⟨_, completes_of_only [.security] h ready.fresh only (by decide) (by decide) (by decide) (by decide) (by decide) sent runs, ?_⟩
  rw [complete_sec, srcActive_of_only (only_complete_self _ _ _ _) (by decide), tokenFailed_sec, startDesc_acceptAlive_sec]
  exact ⟨rfl, rfl, rfl, rfl, tokenFailed_active quiet op⟩

/-! ## All operations -/

/-- Settles O30: every row of SEC_OP goes through the gate (`plainOp_locked`, `plainOp_refused`), those with a token then through its
check (`tokenOp_fails`). -/
theorem securityOperationsAreGated : Obligations.SecurityOperationsAreGated := by
  unfold Obligations.SecurityOperationsAreGated
  intro d s fresh otp
  refine ⟨fun c op pay states listed h => ?_, fun c op states key pre listed h crypto life holds free fails line => ?_⟩
  · have row : ∃ pre act, exec c s = .next (plainOp op pay states pre act d false false s) := by
      iterate 16
        obtain _ | ⟨_, listed⟩ := listed
        · exact ⟨_, _, rfl⟩
      cases listed
    obtain ⟨pre, act, runs⟩ := row
    exact ⟨plainOp_locked runs fresh h otp, plainOp_refused runs fresh h⟩
  · have row : ∃ key' pre' act, exec c s = .next (tokenOp op states key' pre' act d false false s) ∧
        key' (startDesc d op (acceptAlive d s)) = key ∧ pre' (startDesc d op (acceptAlive d s)) = pre := by
      iterate 7
        obtain _ | ⟨_, listed⟩ := listed
        · exact ⟨_, _, _, rfl, rfl, rfl⟩
      cases listed
    obtain ⟨key', pre', act, runs, rfl, rfl⟩ := row
    exact tokenOp_fails runs ⟨fresh, otp, crypto, life⟩ h holds free fails line

end Sys2Proof.Machine
end

section
/-! SUPPORT. KEY_INSTALL, UNLOCK, LDEVID_INSTALL and FW_UPDATE, accepted (R517, R523, R524, R528, R529). -/

namespace Sys2Proof.Machine

/-! ## KEY_INSTALL (R528) -/

/-- The keys after KEY_INSTALL of a slot: a key of zeros empties it. -/
def keysAfter (b : List Byte) (keys : Tab (List Byte)) : Tab (List Byte) :=
  if (tokData b).all (· == 0) then tfilter keys (fun i _ => i != tokParam b) else tput keys (tokParam b) (tokData b)

theorem withSec_authPassed (x : Sec) (s : State) : withSec x (authPassed s) = withSec x s := rfl

/-- KEY_INSTALL of a slot other than 0 with a key of its length. -/
theorem keyInstall_slot {b : List Byte} (low : 1 ≤ tokParam b) (high : tokParam b ≤ 3) (len : (tokData b).length = 96) (id : Nat)
    (s : State) : keyInstall b id s =
      complete id 0 (le 1 (tokParam b)) (withSec { s.sec with nonce := none, keys := keysAfter b s.sec.keys } s) := by
  unfold keyInstall
  dsimp only
  rw [if_neg (by omega), if_neg (by simp [len, high])]
  rfl

section
variable {d : Desc} {s : State} {b : List Byte}

/-- The token of KEY_INSTALL for a slot other than 0 passes without a proof of the new key. -/
theorem exec_keyInstall (hb : b = payload d (dF d 12 4)) (ready : SecReady [lcOwned, lcSealed] s) (h : Takes (secForm 0x11 .input) d s)
    (token : Token 0x11 0 d s) (other : tokParam b ≠ 0) : exec (.keyInstall d false false) s =
      .next (keyInstall b s.nextId (authPassed (startDesc d 0x11 (acceptAlive d s)))) := by
  obtain ⟨free, passes⟩ := token
  have proven : rootProof (startDesc d 0x11 (acceptAlive d s)) b = true := by simp [rootProof, other]
  rw [← hb] at passes
  change execKeyInstall d false false s = _
  rw [execKeyInstall, tokenOp, plainOp_acts ready h (by simp [free]), ← hb, if_pos (by simp [proven, passes])]

theorem keyInstall_installs (hb : b = payload d (dF d 12 4)) (ready : SecReady [lcOwned, lcSealed] s)
    (h : Takes (secForm 0x11 .input) d s) (token : Token 0x11 0 d s) (low : 1 ≤ tokParam b) (high : tokParam b ≤ 3)
    (len : (tokData b).length = 96) :
    ∃ t, Completes (.keyInstall d false false) d (executedAnd [.security]) 0 (le 1 (tokParam b)) s t ∧
      t.sec = { s.sec with fails := 0, nonce := none, keys := keysAfter b s.sec.keys } := by
  have runs := exec_keyInstall hb ready h token (by omega)
  rw [keyInstall_slot low high len, withSec_authPassed, authPassed_sec, startDesc_acceptAlive_sec] at runs
  exact completes_withSec ready.fresh h rfl runs

/-! ## UNLOCK (R517) -/

/-- UNLOCK with the nonce gone: an unlock token is in force, and approved mode breaks. -/
def unlocking (s : State) : State := secBreak 5 (withSec { s.sec with nonce := none, unlocked := true } s)

theorem unlocking_sec (s : State) :
    ∃ cause, (unlocking s).sec = { s.sec with nonce := none, unlocked := true, approved := false, naCause := cause } :=
  secBreak_sec 5 (withSec { s.sec with nonce := none, unlocked := true } s)

theorem only_unlocking (s : State) : Only [.outbox, .queues, .faults, .security] s (unlocking s) :=
  only_secBreak 5 (List.Subset.refl _) (Only.mono (only_withSec (x := { s.sec with nonce := none, unlocked := true }) rfl) (by decide))

theorem outbox_unlocking (s : State) : s.outbox <:+ (unlocking s).outbox :=
  (kept_secBreak 5 (Kept.refl (withSec { s.sec with nonce := none, unlocked := true } s))).out

theorem unlock_unlocks (ready : SecReady [lcOwned, lcReturn] s) (h : Takes (secForm 0x20 .input) d s)
    (token : Token 0x20 (if s.sec.lc = lcReturn then 0xFF else 0) d s) :
    ∃ t cause, Completes (.unlock d false false) d (executedAnd [.security]) 0 [] s t ∧
      t.sec = { s.sec with fails := 0, nonce := none, unlocked := true, approved := false, naCause := cause } := by
  have runs : exec (.unlock d false false) s =
      .next (complete s.nextId 0 [] (unlocking (authPassed (startDesc d 0x20 (acceptAlive d s))))) := by
    change execUnlock d false false s = _
    rw [execUnlock, tokenOp_acts ready h (by decide)]
    · rfl
    · rfl
    · rwa [startDesc_acceptAlive_sec]
  have passed : Only [.security] (startDesc d 0x20 (acceptAlive d s)) (authPassed (startDesc d 0x20 (acceptAlive d s))) :=
    only_authPassed (List.Subset.refl _) (Only.refl _ _)
  have sent := outbox_unlocking (authPassed (startDesc d 0x20 (acceptAlive d s)))
  rw [outbox_of_only passed (by decide), startDesc_acceptAlive_outbox] at sent
  obtain ⟨cause, sec⟩ := unlocking_sec (authPassed (startDesc d 0x20 (acceptAlive d s)))
  rw [authPassed_sec, startDesc_acceptAlive_sec] at sec
  exact ⟨_, cause, completes_of_only [.security] h ready.fresh ((passed.mono (by decide)).trans (only_unlocking _)) (by decide) (by decide)
    (by decide) (by decide) (by decide) sent runs, (complete_sec _ _ _ _).trans sec⟩

/-! ## LDEVID_INSTALL (R529) -/

theorem ldevidInstall_installs (hb : b = payload d (dF d 12 4)) (ready : SecReady [lcOwned, lcSealed] s)
    (h : Takes (secForm 0x51 .input) d s) (token : Token 0x51 0 d s) (made : s.sec.ldev.isSome = true) :
    ∃ t, Completes (.ldevidInstall d false false) d (executedAnd [.security]) 0 [] s t ∧
      t.sec = { s.sec with fails := 0, nonce := none, ldevCert := some (tokData b) } := by
  have runs : exec (.ldevidInstall d false false) s = .next (complete s.nextId 0 [] (withSec { s.sec with
      fails := 0, nonce := none, ldevCert := some (tokData b) } (startDesc d 0x51 (acceptAlive d s)))) := by
    change execLdevidInstall d false false s = _
    rw [execLdevidInstall, tokenOp_acts ready h (by decide), ← hb]
    · rfl
    · rwa [startDesc_acceptAlive_sec]
    · exact token
  exact completes_withSec ready.fresh h rfl runs

/-! ## FW_UPDATE (R523, R524) -/

/-- A SEC_OP descriptor of FW_UPDATE whose chunk is no longer than 256 KiB. -/
theorem takes_fwForm (h : Takes (secForm 0x40 .input) d s) (low : 12 ≤ dF d 12 4) (high : dF d 12 4 ≤ 262156) : Takes fwForm d s := by
  obtain ⟨ready, alive, crc, mine, unused, tmo, ok, pay, free⟩ := h
  exact ⟨ready, alive, crc, mine, unused, tmo, by simp [fwForm, ok, low, high], pay, free⟩

/-- The security state with a part of an image in the slot that does not run. -/
def partWritten (img : List Byte) (x : Sec) : Sec :=
  if x.bootB then { x with imgA := img, part := img } else { x with imgB := img, part := img }

theorem partWritten_spec (img : List Byte) (x : Sec) : ((partWritten img x).lc, (partWritten img x).slots) = (x.lc, x.slots) ∧
    (if x.bootB then (partWritten img x).imgA else (partWritten img x).imgB) = img ∧
    (if (partWritten img x).bootB then (partWritten img x).imgB else (partWritten img x).imgA) = (if x.bootB then x.imgB else x.imgA) ∧
    (partWritten img x).rollback = x.rollback := by
  unfold partWritten
  cases other : x.bootB <;> simp

/-- The chunk of an image's first bytes, with more to come. -/
theorem fwChunk_first (start : getLE b 0 4 = 0) (long : 12 ≤ b.length) (more : b.length - 12 < getLE b 4 4) (id : Nat) (u : State) :
    fwChunk b id u = complete id 0 (le 4 (b.length - 12) ++ [0]) (withSec (partWritten ((b.drop 8).take (b.length - 12)) u.sec) u) := by
  have len : ((b.drop 8).take (b.length - 12)).length = b.length - 12 := by rw [List.length_take, List.length_drop]; omega
  unfold fwChunk
  dsimp only
  rw [start, if_neg (by simp), if_neg (by rw [len]; omega), if_pos rfl, List.nil_append, len, if_pos more]
  rfl

theorem fwUpdate_starts (hb : b = payload d (dF d 12 4)) (ready : SecReady [lcFab, lcMaker, lcOwned, lcSealed] s)
    (h : Takes (secForm 0x40 .input) d s) (low : 12 ≤ dF d 12 4) (high : dF d 12 4 ≤ 262156) (trial : s.sec.trial = false)
    (start : getLE b 0 4 = 0) (more : dF d 12 4 - 12 < getLE b 4 4) :
    ∃ t, Completes (.fwUpdate d false false) d (executedAnd [.security]) 0 (le 4 (dF d 12 4 - 12) ++ [0]) s t ∧
      t.sec = partWritten ((b.drop 8).take (dF d 12 4 - 12)) s.sec := by
  have len : b.length = dF d 12 4 := by rw [hb, payload, length_padTo]
  obtain ⟨fresh, otp, crypto, life⟩ := ready
  have takes := takes_fwForm h low high
  have runs : exec (.fwUpdate d false false) s = .next (fwChunk b s.nextId (startDesc d 0x40 (acceptAlive d s))) := by
    change execFwUpdate d false false s = _
    rw [execFwUpdate, takeDesc_takes takes, secGate_eq, startDesc_acceptAlive_sec, if_neg (by simp [otp, crypto]), life,
      if_neg (by simp), trial, if_neg (by simp), ← hb]
    rfl
  rw [fwChunk_first start (len.symm ▸ low) (len.symm ▸ more), startDesc_acceptAlive_sec, len] at runs
  exact completes_withSec fresh takes (partWritten_spec _ _).1 runs

end

/-- Settles O32: each operation comes to one new security state. -/
theorem keysUnlocksAndImages : Obligations.KeysUnlocksAndImages := by
  unfold Obligations.KeysUnlocksAndImages
  intro d s b hb
  refine ⟨fun ready h token low high len => ?_, fun ready h token => ?_, fun ready h token made => ?_,
    fun ready h low high trial start more => ?_⟩
  · obtain ⟨t, completes, sec⟩ := keyInstall_installs hb ready h token low high len
    exact ⟨t, completes, by rw [sec], by rw [sec]; rfl, by rw [sec]⟩
  · obtain ⟨t, cause, completes, sec⟩ := unlock_unlocks ready h token
    exact ⟨t, completes, by rw [sec], by rw [sec], by rw [sec], by rw [sec], by rw [sec]⟩
  · obtain ⟨t, completes, sec⟩ := ldevidInstall_installs hb ready h token made
    exact ⟨t, completes, by rw [sec], by rw [sec], by rw [sec], by rw [sec]⟩
  · obtain ⟨t, completes, sec⟩ := fwUpdate_starts hb ready h low high trial start more
    obtain ⟨_, written, running, rollback⟩ := partWritten_spec ((b.drop 8).take (dF d 12 4 - 12)) s.sec
    exact ⟨t, completes, by rw [sec]; exact written, by rw [runImage, sec]; exact running, by rw [sec]; exact rollback⟩

end Sys2Proof.Machine
end

section
/-! SUPPORT. Signed configuration blobs (R530 to R532) and the events of the security subsystem (R519 to R521, R537, R538, R542). -/

namespace Sys2Proof.Machine

/-! ## The checks of a blob (R520, R530, R542) -/

section
variable {d : Desc} {s : State} {b : List Byte}

theorem blobAct_error (id : Nat) (crypto : s.sec.cryptoErr = true) : blobAct d id s = complete id 0x42 [] s := if_pos crypto

theorem blobAct_outside (id : Nat) (crypto : s.sec.cryptoErr = false) (outside : ownedOrSealed s = false) :
    blobAct d id s = complete id 0x40 [] s := by
  unfold blobAct
  dsimp only
  rw [if_neg (by simp [crypto]), if_pos (by simp [outside])]

theorem blobAct_authLocked (id : Nat) (crypto : s.sec.cryptoErr = false) (inside : ownedOrSealed s = true)
    (locked : s.sec.authLock = true) : blobAct d id s = complete id 0x42 [] s := by
  unfold blobAct
  dsimp only
  rw [if_neg (by simp [crypto]), if_neg (by simp [inside]), if_pos locked]

variable (hb : b = payload d (dF d 16 4)) (crypto : s.sec.cryptoErr = false) (inside : ownedOrSealed s = true)
  (free : s.sec.authLock = false) (id : Nat)
include hb crypto inside free

theorem blobAct_unsigned (bad : blobSigned s b = false) : blobAct d id s = complete id 0x41 [] (authFailed 2 0 s) := by
  subst hb
  unfold blobAct
  dsimp only
  rw [if_neg (by simp [crypto]), if_neg (by simp [inside]), if_neg (by simp [free]), if_pos (by simp [bad])]

theorem blobAct_unfit (signed : blobSigned s b = true) (bad : blobFits s b = false) :
    blobAct d id s = complete id 0x42 [] (authPassed s) := by
  subst hb
  have unfit : blobFits (authPassed s) (payload d (dF d 16 4)) = false := bad
  unfold blobAct
  dsimp only
  rw [if_neg (by simp [crypto]), if_neg (by simp [inside]), if_neg (by simp [free]), if_neg (by simp [signed]), if_pos (by simp [unfit])]

/-- A blob that passes every check is staged; with STORE 1 its descriptor keeps it. -/
theorem blobAct_stages {p : BlobParts} (signed : blobSigned s b = true) (fits : blobFits s b = true) (parts : blobParts b = some p)
    (entries : blobEntsOk b p = true) (rules : blobBadRule b p = none) : blobAct d id s =
      if dF d 20 1 = 1 then modOut id (fun o => { o with data := b }) (stageBlob b p (authPassed s))
      else complete id 0 (le 4 p.cfg.length) (stageBlob b p (authPassed s)) := by
  subst hb
  have fit : blobFits (authPassed s) (payload d (dF d 16 4)) = true := fits
  unfold blobAct
  dsimp only
  rw [if_neg (by simp [crypto]), if_neg (by simp [inside]), if_neg (by simp [free]), if_neg (by simp [signed]), if_neg (by simp [fit]),
    parts]
  dsimp only
  rw [if_neg (by simp [entries]), rules]

end

/-! ## BLOB_LOAD -/

/-- A mark on a waiting descriptor commutes with a change of other parts. -/
theorem only_modOut_both (id : Nat) (g : Outstanding → Outstanding) {ps : List Part} {s t : State} (only : Only ps s t)
    (apart : Part.descs ∉ ps) : Only ps (modOut id g s) (modOut id g t) := by
  intro p hp
  cases p
  case descs =>
    obtain ⟨outs, next⟩ := Prod.mk.inj (only .descs apart)
    simp only [Part.same, modOut, outs, next]
  all_goals exact only _ hp

section
variable {d : Desc} {s : State}

/-- The module once a BLOB_LOAD has been taken. -/
def blobTaken (d : Desc) (s : State) : State := startDesc d (dF d 20 1) (acceptAlive d s)

@[simp] theorem blobTaken_sec (d : Desc) (s : State) : (blobTaken d s).sec = s.sec := startDesc_acceptAlive_sec d _ s

theorem blobTaken_outbox (d : Desc) (s : State) : (blobTaken d s).outbox = s.outbox := startDesc_acceptAlive_outbox d _ s

theorem ownedOrSealed_blobTaken (d : Desc) (s : State) : ownedOrSealed (blobTaken d s) = ownedOrSealed s := ownedOrSealed_taken d _ s

theorem blobSigned_blobTaken (d : Desc) (s : State) (b : List Byte) : blobSigned (blobTaken d s) b = blobSigned s b := by
  unfold blobSigned
  rw [blobTaken_sec]

theorem blobFits_blobTaken (d : Desc) (s : State) (b : List Byte) : blobFits (blobTaken d s) b = blobFits s b := by
  unfold blobFits
  rw [blobTaken_sec]

theorem exec_blobLoad (h : Takes blobForm d s) : exec (.blobLoad d) s = .next (blobAct d s.nextId (blobTaken d s)) :=
  congrArg Host.Outcome.next (takeDesc_takes h _)

theorem only_blobPassed (d : Desc) (s : State) : Only [.security] (blobTaken d s) (authPassed (blobTaken d s)) :=
  only_authPassed (List.Subset.refl _) (Only.refl _ _)

/-- What a BLOB_LOAD that passes its checks changes before it completes or waits. -/
def blobStagedParts : List Part := .security :: stagedParts

/-- The module with a blob's sections staged. -/
def blobStaged (b : List Byte) (p : BlobParts) (d : Desc) (s : State) : State := stageBlob b p (authPassed (blobTaken d s))

theorem only_blobStaged (b : List Byte) (p : BlobParts) (d : Desc) (s : State) :
    Only blobStagedParts (blobTaken d s) (blobStaged b p d s) :=
  ((only_blobPassed d s).mono (by decide)).trans ((only_stageBlob_staged b p _).mono (by decide))

theorem outbox_blobStaged (b : List Byte) (p : BlobParts) (d : Desc) (s : State) : s.outbox <:+ (blobStaged b p d s).outbox := by
  have sent := (kept_stageBlob b p (Kept.refl (authPassed (blobTaken d s)))).out
  rwa [outbox_of_only (only_blobPassed d s) (by decide), blobTaken_outbox] at sent

variable (fresh : Fresh s) (h : Takes blobForm d s)
include fresh h

theorem blobLoad_error (crypto : s.sec.cryptoErr = true) : ∃ t, Completes (.blobLoad d) d executed 0x42 [] s t := by
  have runs := exec_blobLoad h
  rw [blobAct_error _ (by rwa [blobTaken_sec])] at runs
  exact completes_unchanged fresh h runs

theorem blobLoad_outside (crypto : s.sec.cryptoErr = false) (outside : ownedOrSealed s = false) :
    ∃ t, Completes (.blobLoad d) d executed 0x40 [] s t := by
  have runs := exec_blobLoad h
  rw [blobAct_outside _ (by rwa [blobTaken_sec]) (by rwa [ownedOrSealed_blobTaken])] at runs
  exact completes_unchanged fresh h runs

theorem blobLoad_authLocked (crypto : s.sec.cryptoErr = false) (inside : ownedOrSealed s = true) (locked : s.sec.authLock = true) :
    ∃ t, Completes (.blobLoad d) d executed 0x42 [] s t := by
  have runs := exec_blobLoad h
  rw [blobAct_authLocked _ (by rwa [blobTaken_sec]) (by rwa [ownedOrSealed_blobTaken]) (by rwa [blobTaken_sec])] at runs
  exact completes_unchanged fresh h runs

variable {b : List Byte} (hb : b = payload d (dF d 16 4)) (crypto : s.sec.cryptoErr = false) (inside : ownedOrSealed s = true)
  (free : s.sec.authLock = false)
include hb crypto inside free

theorem blobLoad_unsigned (bad : blobSigned s b = false) (line : lineBad s 0x35 0 = false) :
    ∃ t, Completes (.blobLoad d) d (executedAnd [.security]) 0x41 [] s t ∧ t.sec.fails = s.sec.fails + 1 ∧ srcActive t 0x35 0 = true := by
  have runs := exec_blobLoad h
  rw [blobAct_unsigned hb (by rwa [blobTaken_sec]) (by rwa [ownedOrSealed_blobTaken]) (by rwa [blobTaken_sec]) _
    (by rwa [blobSigned_blobTaken])] at runs
  have sent := outbox_authFailed 2 0 (blobTaken d s)
  rw [blobTaken_outbox] at sent
  have quiet : lineBad (blobTaken d s) 0x35 0 = false := (lineBad_of_only (only_taken d _ s) (by decide) 0x35 0).trans line
  refine ⟨_, completes_of_only [.security] h fresh (only_authFailed_self 2 0 (blobTaken d s)) (by decide) (by decide) (by decide) (by decide)
    (by decide) sent runs, ?_⟩
  rw [complete_sec, srcActive_of_only (only_complete_self _ _ _ _) (by decide), authFailed_sec (by decide), blobTaken_sec]
  exact ⟨rfl, authFailed_active quiet 2 0⟩

variable (signed : blobSigned s b = true)
include signed

theorem blobLoad_unfit (bad : blobFits s b = false) : ∃ t, Completes (.blobLoad d) d (executedAnd [.security]) 0x42 [] s t := by
  have runs := exec_blobLoad h
  rw [blobAct_unfit hb (by rwa [blobTaken_sec]) (by rwa [ownedOrSealed_blobTaken]) (by rwa [blobTaken_sec]) _
    (by rwa [blobSigned_blobTaken]) (by rwa [blobFits_blobTaken])] at runs
  have only := only_blobPassed d s
  have sent : s.outbox <:+ (authPassed (blobTaken d s)).outbox := by
    rw [outbox_of_only only (by decide), blobTaken_outbox]
  exact ⟨_, completes_of_only [.security] h fresh only (by decide) (by decide) (by decide) (by decide) (by decide) sent runs⟩

variable {p : BlobParts} (fits : blobFits s b = true) (parts : blobParts b = some p) (entries : blobEntsOk b p = true)
  (rules : blobBadRule b p = none)
include fits parts entries rules

omit fresh in
theorem exec_blobLoad_stages : exec (.blobLoad d) s = .next (if dF d 20 1 = 1 then
    modOut s.nextId (fun o => { o with data := b }) (blobStaged b p d s) else complete s.nextId 0 (le 4 p.cfg.length) (blobStaged b p d s)) := by
  rw [exec_blobLoad h, blobAct_stages hb (by rwa [blobTaken_sec]) (by rwa [ownedOrSealed_blobTaken]) (by rwa [blobTaken_sec]) _
    (by rwa [blobSigned_blobTaken]) (by rwa [blobFits_blobTaken]) parts entries rules, blobStaged]

theorem blobLoad_stages (now : dF d 20 1 = 0) :
    ∃ t, Completes (.blobLoad d) d (executedAnd [.staged, .pairs, .sticky, .security]) 0 (le 4 p.cfg.length) s t ∧
      t.staged = (blobStaged b p d s).staged := by
  have runs := exec_blobLoad_stages h hb crypto inside free signed fits parts entries rules
  rw [if_neg (by omega)] at runs
  exact ⟨_, completes_of_only _ h fresh (only_blobStaged b p d s) (by decide) (by decide) (by decide) (by decide) (by decide)
    (outbox_blobStaged b p d s) runs, congrArg Prod.fst (only_complete_self _ _ _ _ .staged (by decide))⟩

theorem blobLoad_keeps (store : dF d 20 1 = 1) :
    ∃ t, Starts (.blobLoad d) d (executedAnd [.staged, .pairs, .sticky, .security]) s t ∧ t.staged = (blobStaged b p d s).staged := by
  have runs := exec_blobLoad_stages h hb crypto inside free signed fits parts entries rules
  rw [if_pos store] at runs
  exact ⟨_, starts_of_modOut _ (fun _ => rfl) h fresh (only_modOut_both _ _ (only_blobStaged b p d s) (by decide)) (by decide) (by decide)
    (by decide) (by decide) runs, rfl⟩

end

/-! ## BLOB_STORE (R531) -/

/-- The security state with a blob in the store slot of the older one. -/
def blobStored (b : List Byte) (x : Sec) : Sec :=
  let older := x.storeA = [] || (x.storeB ≠ [] && decide (blobSeqOf x.storeA ≤ blobSeqOf x.storeB))
  { (if older then { x with storeA := b } else { x with storeB := b }) with blobSeq := blobSeqOf b }

theorem blobStored_spec (b : List Byte) (x : Sec) : ((blobStored b x).lc, (blobStored b x).slots) = (x.lc, x.slots) ∧
    (blobStored b x).blobSeq = blobSeqOf b ∧ ((blobStored b x).storeA, (blobStored b x).storeB) =
      (if x.storeA = [] ∨ (x.storeB ≠ [] ∧ blobSeqOf x.storeA ≤ blobSeqOf x.storeB) then (b, x.storeB) else (x.storeA, b)) := by
  unfold blobStored
  dsimp only
  by_cases older : x.storeA = [] ∨ (x.storeB ≠ [] ∧ blobSeqOf x.storeA ≤ blobSeqOf x.storeB)
  · rw [if_pos (by simpa using older), if_pos older]
    exact ⟨rfl, rfl, rfl⟩
  · rw [if_neg (by simpa using older), if_neg older]
    exact ⟨rfl, rfl, rfl⟩

section
variable {s : State} (can : CanReport s) {o : Outstanding} (waits : outOf s o.id = some o) (seen : o.lost = false)
include can waits seen

theorem blobStore_stores (found : s.outs.find? (fun o => o.opcode == 0x0E && o.obj == 1) = some o) :
    ∃ t, exec .blobStore s = .next t ∧ Only (touches .blobStore) s t ∧ outOf t o.id = none ∧
      ReportsOut o 0 (le 4 (getLE o.data 16 4)) s t ∧ t.sec = blobStored o.data s.sec := by
  have runs : exec .blobStore s = .next (complete o.id 0 (le 4 (getLE o.data 16 4)) (withSec (blobStored o.data s.sec) s)) := by
    change execBlobStore s = _
    unfold execBlobStore
    rw [found]
    exact if_neg (by simp [can.1])
  have stored : Only [.security] s (withSec (blobStored o.data s.sec) s) := only_withSec (blobStored_spec _ _).1
  exact ⟨_, runs, only_touches runs (by decide), outOf_complete _ _ _ _, reportsOut_complete can waits seen stored (by decide) (by decide)
    (by decide) (by simp) _ _, complete_sec _ _ _ _⟩

/-! ## The events (R519 to R521, R537) -/

theorem zeroisationComplete_ends (fresh : s.sec.zeroDone = false)
    (found : s.outs.find? (fun o => o.opcode == 0x0D && o.obj == 0x32) = some o) :
    ∃ t, exec .zeroisationComplete s = .next t ∧ Only (touches .zeroisationComplete) s t ∧ t.sec = { s.sec with zeroDone := true } ∧
      outOf t o.id = none ∧ ReportsOut o 0 (le 1 lcReturn) s t := by
  have runs : exec .zeroisationComplete s = .next (complete o.id 0 (le 1 lcReturn) (withSec { s.sec with zeroDone := true } s)) := by
    change execZeroisationComplete s = _
    unfold execZeroisationComplete
    dsimp only
    rw [if_neg (by simp [fresh]), found]
    rfl
  have done : Only [.security] s (withSec { s.sec with zeroDone := true } s) := only_withSec rfl
  exact ⟨_, runs, only_touches runs (by decide), complete_sec _ _ _ _, outOf_complete _ _ _ _, reportsOut_complete can waits seen done
    (by decide) (by decide) (by decide) (by simp) _ _⟩

end

/-- The crypto error state: approved mode is left, and no session or request stays open (R520). -/
theorem cryptoError_spec (s : State) : (cryptoError s).sec.cryptoErr = true ∧ (cryptoError s).sec.approved = false ∧
    (cryptoError s).net.sessions = [] ∧ (cryptoError s).net.asked = [] := by
  obtain ⟨cause, sec⟩ := secBreak_sec 6 (withSec { s.sec with cryptoErr := true } s)
  have broken : (cryptoError s).sec = { s.sec with cryptoErr := true, approved := false, naCause := cause } := sec
  rw [broken]
  exact ⟨rfl, rfl, rfl, rfl⟩

theorem only_cryptoError_self (s : State) : Only [.outbox, .queues, .faults, .security, .sessions] s (cryptoError s) :=
  only_cryptoError (List.Subset.refl _) (Only.refl _ s)

section
variable {s : State} (can : CanReport s) {o : Outstanding} (waits : outOf s o.id = some o) (seen : o.lost = false)
include can

theorem exec_selfTestDone (alg : Nat) (found : s.outs.find? (fun o => o.opcode == 0x0D && o.obj == 0x60) = some o) :
    exec (.selfTestDone alg) s = .next (complete o.id 0 (le 1 alg) (if alg = 0 then s else cryptoError s)) := by
  change execSelfTestDone alg s = _
  unfold execSelfTestDone
  rw [found]
  exact if_pos can.1

include waits seen

theorem selfTestDone_ends (alg : Nat) (found : s.outs.find? (fun o => o.opcode == 0x0D && o.obj == 0x60) = some o) :
    ∃ t, exec (.selfTestDone alg) s = .next t ∧ Only (touches (.selfTestDone alg)) s t ∧ outOf t o.id = none ∧
      ReportsOut o 0 (le 1 alg) s t ∧ (alg = 0 → t.sec = s.sec) ∧ (alg ≠ 0 → t.sec.cryptoErr = true ∧ t.sec.approved = false) := by
  have runs := exec_selfTestDone can alg found
  have only : Only [.outbox, .queues, .faults, .security, .sessions] s (if alg = 0 then s else cryptoError s) :=
    Only.ite (Only.refl _ s) (only_cryptoError_self s)
  have sent := (Kept.ite (c := alg = 0) (Kept.refl s) (kept_cryptoError (Kept.refl s))).out
  refine ⟨_, runs, only_touches runs (List.mem_of_elem_eq_true rfl), outOf_complete _ _ _ _, reportsOut_complete can waits seen only
    (by decide) (by decide) (by decide) sent _ _, fun passed => ?_, fun failed => ?_⟩
  · rw [complete_sec, if_pos passed]
  · obtain ⟨error, approved, _⟩ := cryptoError_spec s
    rw [complete_sec, if_neg failed]
    exact ⟨error, approved⟩

end

/-- Settles O33: the checks of `blobAct` in their order, and the store slot that BLOB_STORE takes (`blobStored`). -/
theorem blobsAreStagedAndStored : Obligations.BlobsAreStagedAndStored := by
  unfold Obligations.BlobsAreStagedAndStored
  intro d s fresh
  refine ⟨fun h b u hb hu => ⟨blobLoad_error fresh h, blobLoad_outside fresh h, blobLoad_authLocked fresh h, fun inside free crypto =>
    ⟨blobLoad_unsigned fresh h hb crypto inside free, blobLoad_unfit fresh h hb crypto inside free,
      fun p signed fits parts entries rules => ?_⟩⟩, fun can o found waits seen => ?_⟩
  · subst hu
    exact ⟨blobLoad_stages fresh h hb crypto inside free signed fits parts entries rules,
      blobLoad_keeps fresh h hb crypto inside free signed fits parts entries rules⟩
  · obtain ⟨t, runs, only, gone, reports, sec⟩ := blobStore_stores can waits seen found
    obtain ⟨_, seq, stores⟩ := blobStored_spec o.data s.sec
    rw [← sec] at seq stores
    exact ⟨t, runs, only, gone, reports, seq, stores⟩

/-- Settles O34: one lemma for each of the events that end a descriptor; the others are single updates of the security state. -/
theorem securityEventsAreFollowed : Obligations.SecurityEventsAreFollowed := by
  unfold Obligations.SecurityEventsAreFollowed
  intro s can
  have run := can.1
  obtain ⟨error, approved, sessions, asked⟩ := cryptoError_spec s
  exact ⟨fun o fresh found waits seen => zeroisationComplete_ends can waits seen fresh found,
    fun alg o found waits seen => selfTestDone_ends can waits seen alg found,
    ⟨cryptoError s, if_pos (by simp [run]), only_cryptoError_self s, error, approved, sessions, asked⟩, if_pos run, if_pos run⟩

end Sys2Proof.Machine
end

section
/-! SUPPORT. The fault collector: what a source that becomes active leaves in the latch, at the fronds and in the phase of the module
(R485, R488, R489, R491, R493, R495), and how sources end (R484, R494, R551). -/

namespace Sys2Proof.Machine

/-! ## SAFE orders (R489) -/

/-- From s to t every frond of l gets a SAFE order, none loses it, and the latch is kept. -/
structure OrdersSafe (l : List Nat) (s t : State) : Prop where
  ordered : ∀ f ∈ l, (frond t f).safeOrder = true
  stays : ∀ f, (frond s f).safeOrder = true → (frond t f).safeOrder = true
  latch : t.latch = s.latch
  latchSeq : t.latchSeq = s.latchSeq

theorem latch_of_only {ps : List Part} {s t : State} (h : Only ps s t) (hp : Part.faults ∉ ps) : t.latch = s.latch ∧ t.latchSeq = s.latchSeq := by
  have faults := h .faults hp
  simp only [Part.same, Prod.mk.injEq] at faults
  obtain ⟨_, latch, latchSeq, _⟩ := faults
  exact ⟨latch, latchSeq⟩

theorem only_faultRec_self (id sub cls flags count : Nat) (ctx : List Byte) (tick : TickNo) (s : State) :
    Only [.queues] s (faultRec id sub cls flags count ctx tick s) :=
  only_faultRec _ _ _ _ _ _ _ (List.Subset.refl _) (Only.refl _ s)

theorem latch_faultRec (id sub cls flags count : Nat) (ctx : List Byte) (tick : TickNo) (s : State) :
    (faultRec id sub cls flags count ctx tick s).latch = s.latch ∧ (faultRec id sub cls flags count ctx tick s).latchSeq = s.latchSeq :=
  latch_of_only (only_faultRec_self id sub cls flags count ctx tick s) (by decide)

theorem latch_closeShadow (f : Nat) (s : State) : (closeShadow f s).latch = s.latch ∧ (closeShadow f s).latchSeq = s.latchSeq := by
  unfold closeShadow
  split
  · exact ⟨rfl, rfl⟩
  · split
    · exact ⟨rfl, rfl⟩
    · dsimp only
      split
      · exact ⟨rfl, rfl⟩
      · exact latch_faultRec _ _ _ _ _ _ _ _

theorem latch_openShadow (f : Nat) (tick : TickNo) (o : Option (Nat × Nat)) (cls : Nat) (s : State) :
    (openShadow f tick o cls s).latch = s.latch ∧ (openShadow f tick o cls s).latchSeq = s.latchSeq := by
  unfold openShadow
  split
  · split
    · exact ⟨rfl, rfl⟩
    · exact latch_closeShadow f s
  · exact ⟨rfl, rfl⟩

/-- The order itself, before the shadow that it may open. -/
def safeSent (f : Nat) (s : State) : State := sendOrder f 0x7C 0xA5 (modFrond f (fun x => { x with safeOrder := true }) s)

theorem safeOrder_safeSent (f g : Nat) (s : State) :
    (frond (safeSent f s) g).safeOrder = if g = f then true else (frond s g).safeOrder := by
  have sent : ∀ u : State, frond (safeSent f u) g =
      frond (modFrond f (fun x => { x with downAlive := nextDown (modFrond f (fun x => { x with safeOrder := true }) u) f })
        (modFrond f (fun x => { x with safeOrder := true }) u)) g := fun _ => rfl
  rw [sent]
  by_cases here : g = f
  · subst here
    rw [frond_modFrond_same, frond_modFrond_same, if_pos rfl]
  · rw [frond_modFrond_other here, frond_modFrond_other here, if_neg here]

theorem orderSafe_orders (o : Option (Nat × Nat)) (cls : Nat) (s : State) (f : Nat) : OrdersSafe [f] s (orderSafe o cls s f) := by
  have sent : OrdersSafe [f] s (safeSent f s) := by
    refine ⟨fun g here => ?_, fun g on => ?_, rfl, rfl⟩
    · rw [safeOrder_safeSent, if_pos (List.mem_singleton.mp here)]
    · rw [safeOrder_safeSent, on, ite_self]
  unfold orderSafe
  dsimp only
  split
  · exact sent
  · have opened := only_openShadow (ps := [.queues, .faults]) f s.tm.count o cls (List.Subset.refl _) (Only.refl _ (safeSent f s))
    have fronds := frond_of_only opened (by decide)
    obtain ⟨latch, latchSeq⟩ := latch_openShadow f s.tm.count o cls (safeSent f s)
    refine ⟨fun g here => ?_, fun g on => ?_, latch.trans sent.latch, latchSeq.trans sent.latchSeq⟩
    · exact (congrArg CFrond.safeOrder (fronds g)).trans (sent.ordered g here)
    · exact (congrArg CFrond.safeOrder (fronds g)).trans (sent.stays g on)

theorem ordersSafe_foldl (o : Option (Nat × Nat)) (cls : Nat) : ∀ (l : List Nat) (s : State), OrdersSafe l s (l.foldl (orderSafe o cls) s)
  | [], s => ⟨fun _ none => absurd none List.not_mem_nil, fun _ on => on, rfl, rfl⟩
  | f :: l, s => by
    have first := orderSafe_orders o cls s f
    have rest := ordersSafe_foldl o cls l (orderSafe o cls s f)
    refine ⟨fun g here => ?_, fun g on => rest.stays g (first.stays g on), rest.latch.trans first.latch, rest.latchSeq.trans first.latchSeq⟩
    rcases List.mem_cons.mp here with rfl | later
    · exact rest.stays g (first.ordered g (List.mem_singleton_self g))
    · exact rest.ordered g later

theorem only_ordersSafe (o : Option (Nat × Nat)) (cls : Nat) (l : List Nat) (s : State) :
    Only [.outbox, .queues, .faults, .fronds] s (l.foldl (orderSafe o cls) s) :=
  Only.foldl (fun _ _ h => only_orderSafe _ _ _ (List.Subset.refl _) h) l (Only.refl _ s)

/-! ## Reactions (Table 15-1, R489, R491) -/

theorem react_safe (id sub : Nat) (ctx : List Byte) (s : State) :
    react id sub 3 ctx s = (scope s id sub ctx).foldl (orderSafe (some (id, sub)) 3) s := if_pos rfl

theorem react_below {id sub cls : Nat} (low : cls ≤ 2) (ctx : List Byte) (s : State) : react id sub cls ctx s = s := by
  unfold react
  rw [if_neg (by omega), if_neg (by omega)]

/-- The module goes into HALT. -/
def halting (s : State) : State :=
  { s with phase := if s.phase = .running then .draining else if s.phase = .draining then .draining else .halted,
           pwr := { s.pwr with haltLatch := true } }

theorem react_halt {id sub cls : Nat} (halt : 4 ≤ cls) (ctx : List Byte) (s : State) :
    react id sub cls ctx s = halting (allFronds.foldl (orderSafe (some (id, sub)) cls) s) := by
  unfold react
  generalize allFronds = l
  rw [if_neg (show cls ≠ 3 by omega), if_pos halt]
  rfl

theorem latch_halting (s : State) : (halting s).latch = s.latch ∧ (halting s).latchSeq = s.latchSeq := ⟨rfl, rfl⟩

theorem latch_react (id sub cls : Nat) (ctx : List Byte) (s : State) :
    (react id sub cls ctx s).latch = s.latch ∧ (react id sub cls ctx s).latchSeq = s.latchSeq := by
  by_cases safe : cls = 3
  · subst safe
    rw [react_safe]
    exact ⟨(ordersSafe_foldl _ _ _ s).latch, (ordersSafe_foldl _ _ _ s).latchSeq⟩
  · by_cases halt : 4 ≤ cls
    · have orders := ordersSafe_foldl (some (id, sub)) cls allFronds s
      rw [react_halt halt, (latch_halting _).1, (latch_halting _).2]
      exact ⟨orders.latch, orders.latchSeq⟩
    · rw [react_below (by omega)]
      exact ⟨rfl, rfl⟩

/-! ## A source that becomes active (R484, R488) -/

/-- The entry of a source of a class that becomes active. -/
def newSource (id sub cls : Nat) (event : Bool) (ctx : List Byte) (tick : TickNo) (atEdge : Bool) (s : State) : Src :=
  { cls := cls, event := event, since := tick,
    deadline := if cls = 2 then some ((if atEdge then s.tm.count else s.tm.count + 1) + BitVec.ofNat 48 (frcF s 0xB000 0 0 8)) else none,
    epoch := faultEpoch s id sub tick, ctx := ctx }

/-- The collector with a source entered and recorded. -/
def sourceRecorded (id sub : Nat) (x : Src) (opener : Bool) (s : State) : State :=
  recordFault id sub x.cls x.ctx x.since opener x.deadline { s with srcs := tput s.srcs (srcKey id sub) x }

theorem only_setSrcs (s : State) (l : Tab Src) : Only [.faults] s { s with srcs := l } := by
  intro p hp
  cases p
  case faults => exact absurd (List.mem_singleton_self _) hp
  all_goals rfl

theorem only_sourceRecorded (id sub : Nat) (x : Src) (opener : Bool) (s : State) : Only [.queues, .faults] s (sourceRecorded id sub x opener s) :=
  only_recordFault _ _ _ _ _ _ _ (List.Subset.refl _) ((only_setSrcs s _).mono (by decide))

theorem only_vector20_self (before : Nat) (s : State) : Only [.outbox] s (vector20 before s) :=
  only_vector20 before (List.Subset.refl _) (Only.refl _ s)

section
variable {id sub : Nat} {s : State} (line : lineBad s id sub = false) (off : srcActive s id sub = false)
include line off

theorem raise_new (cls : Nat) (event : Bool) (ctx : List Byte) (tick : TickNo) (atEdge opener : Bool) :
    raise id sub cls event ctx tick atEdge opener s = vector20 (highest s)
      (react id sub cls ctx (sourceRecorded id sub (newSource id sub cls event ctx tick atEdge s) opener s)) := by
  unfold raise
  rw [if_neg (by simp [line]), if_neg (by simp [off])]
  rfl

theorem srcs_raise_new (cls : Nat) (event : Bool) (ctx : List Byte) (tick : TickNo) (atEdge opener : Bool) :
    (raise id sub cls event ctx tick atEdge opener s).srcs =
      tput s.srcs (srcKey id sub) (newSource id sub cls event ctx tick atEdge s) := by
  rw [raise_new line off, srcs_vector20, srcs_react, sourceRecorded, srcs_recordFault]

end

/-- From s to t a source of class HALT stops the module (R491): the latch is set, a running module drains, every frond has a SAFE order. -/
structure Halts (s t : State) : Prop where
  latched : t.pwr.haltLatch = true
  drains : s.phase = .running → t.phase = .draining
  ordered : ∀ f, f < 32 → (frond t f).safeOrder = true

theorem raise_halts {id sub cls : Nat} {s : State} (line : lineBad s id sub = false) (off : srcActive s id sub = false) (halt : 4 ≤ cls)
    (event : Bool) (ctx : List Byte) (tick : TickNo) (atEdge opener : Bool) :
    Halts s (raise id sub cls event ctx tick atEdge opener s) := by
  rw [raise_new line off, react_halt halt]
  have recorded := only_sourceRecorded id sub (newSource id sub cls event ctx tick atEdge s) opener s
  generalize sourceRecorded id sub (newSource id sub cls event ctx tick atEdge s) opener s = u at recorded
  have orders := ordersSafe_foldl (some (id, sub)) cls allFronds u
  have only := only_ordersSafe (some (id, sub)) cls allFronds u
  generalize allFronds.foldl (orderSafe (some (id, sub)) cls) u = v at orders only
  have sent := only_vector20_self (highest s) (halting v)
  refine ⟨haltLatch_of_only sent (by decide), fun run => ?_, fun f here => ?_⟩
  · have phase : v.phase = .running := (phase_of_only only (by decide)).trans ((phase_of_only recorded (by decide)).trans run)
    rw [phase_of_only sent (by decide)]
    exact if_pos phase
  · rw [frond_of_only sent (by decide)]
    exact orders.ordered f (List.mem_range.mpr here)

/-- An empty latch takes a fault of class SERVICE or higher that belongs to no frond (R495). -/
theorem recordFault_latches {id sub cls : Nat} {s : State} (core : srcFrond id sub = none) (high : 2 ≤ cls) (empty : s.latch = none)
    (ctx : List Byte) (tick : TickNo) (opener : Bool) (dl : Option TickNo) :
    (recordFault id sub cls ctx tick opener dl s).latch = some ⟨id, sub, cls, tick, faultEpoch s id sub tick, padTo 20 ctx, dl⟩ ∧
      (recordFault id sub cls ctx tick opener dl s).latchSeq = s.latchSeq + 1 := by
  have unmerged : (if opener then none else inShadow s (srcFrond id sub) tick) = none := by
    rw [core]
    exact ite_self none
  unfold recordFault
  dsimp only
  rw [unmerged]
  dsimp only
  rw [empty, if_neg (by simp), if_neg (by omega), if_pos rfl]
  exact latch_faultRec _ _ _ _ _ _ _ _

theorem raise_latches {id sub cls : Nat} {s : State} (line : lineBad s id sub = false) (off : srcActive s id sub = false)
    (core : srcFrond id sub = none) (high : 2 ≤ cls) (empty : s.latch = none) (event : Bool) (ctx : List Byte) (tick : TickNo)
    (atEdge opener : Bool) : (raise id sub cls event ctx tick atEdge opener s).latchSeq = s.latchSeq + 1 ∧
      (raise id sub cls event ctx tick atEdge opener s).latch.map (fun l => (l.id, l.cls, l.tick)) = some (id, cls, tick) := by
  rw [raise_new line off]
  obtain ⟨latch, latchSeq⟩ := latch_of_only (only_vector20_self (highest s) (react id sub cls ctx
    (sourceRecorded id sub (newSource id sub cls event ctx tick atEdge s) opener s))) (by decide)
  obtain ⟨latch', latchSeq'⟩ := latch_react id sub cls ctx (sourceRecorded id sub (newSource id sub cls event ctx tick atEdge s) opener s)
  obtain ⟨taken, counted⟩ := recordFault_latches (s := { s with srcs := tput s.srcs (srcKey id sub) (newSource id sub cls event ctx tick atEdge s) })
    core high empty ctx tick opener (newSource id sub cls event ctx tick atEdge s).deadline
  exact ⟨latchSeq.trans (latchSeq'.trans counted), by rw [latch, latch']; exact congrArg (Option.map _) taken⟩

/-! ## The commands that raise core sources (R301, R485, R511, R553) -/

/-- A source that FAULT_SOURCE_ACTIVATE raises belongs to no frond, and is not SIGNAL_PATH. -/
theorem rawSource_core {id : Nat} (raw : rawSource id = true) : id ≠ 0x3F ∧ srcFrond id 0 = none := by
  simp only [rawSource, List.contains_cons, List.contains_nil, Bool.or_false, Bool.or_eq_true, beq_iff_eq] at raw
  obtain rfl | rfl | rfl | rfl := raw
  all_goals exact ⟨by decide, rfl⟩

theorem exec_faultSourceActivate {id : Nat} {s : State} (up : awake s = true) (raw : rawSource id = true) (ctx : List Byte) :
    exec (.faultSourceActivate id ctx) s = .next (raise id 0 (coreCls id) true (padTo 20 ctx) s.tm.count false false s) := by
  change execFaultSourceActivate id ctx s = _
  rw [execFaultSourceActivate, if_neg (by simp [up]), if_neg (rawSource_core raw).1, if_pos raw]

theorem faultSourceActivate_raises {id : Nat} {s : State} (up : awake s = true) (raw : rawSource id = true) (line : lineBad s id 0 = false)
    (ctx : List Byte) : ∃ t, exec (.faultSourceActivate id ctx) s = .next t ∧ srcActive t id 0 = true ∧
      (coreCls id ≤ 2 → Only [.outbox, .queues, .faults] s t) ∧
      (2 ≤ coreCls id → srcActive s id 0 = false → s.latch = none →
        t.latchSeq = s.latchSeq + 1 ∧ t.latch.map (fun l => (l.id, l.cls, l.tick)) = some (id, coreCls id, s.tm.count)) ∧
      (coreCls id = 4 → srcActive s id 0 = false → t.pwr.haltLatch = true ∧ (s.phase = .running → t.phase = .draining) ∧
        ∀ f, f < 32 → (frond t f).safeOrder = true) := by
  refine ⟨_, exec_faultSourceActivate up raw ctx, raise_active line _ _ _ _ _ _,
    fun low => only_raise_low low (List.Subset.refl _) (Only.refl _ s),
    fun high off empty => raise_latches line off (rawSource_core raw).2 high empty _ _ _ _ _, fun halt off => ?_⟩
  obtain ⟨latched, drains, ordered⟩ := raise_halts line off (Nat.le_of_eq halt.symm) true (padTo 20 ctx) s.tm.count false false
  exact ⟨latched, drains, ordered⟩

theorem exec_tbaseHigh {s : State} (run : running s = true) (above : s.pwr.above = true) (long : 4000 ≤ s.pwr.aboveFor) :
    exec .tbaseHigh s = .next (raise 0x1E 0 2 false (le 4 (uns 12 s.pwr.temp + 65536)) s.tm.count true false s) :=
  if_pos (by simp [run, above, long])

theorem tbaseHigh_raises {s : State} (run : running s = true) (above : s.pwr.above = true) (long : 4000 ≤ s.pwr.aboveFor)
    (line : lineBad s 0x1E 0 = false) : ∃ t, exec .tbaseHigh s = .next t ∧ Only [.outbox, .queues, .faults] s t ∧ srcActive t 0x1E 0 = true ∧
      (srcActive s 0x1E 0 = false → ∃ x, t.srcs.find? (fun e => e.1 == srcKey 0x1E 0) = some (srcKey 0x1E 0, x) ∧ x.cls = 2 ∧
        x.deadline = some (s.tm.count + BitVec.ofNat 48 (frcF s 0xB000 0 0 8))) := by
  refine ⟨_, exec_tbaseHigh run above long, only_raise_low (by decide) (List.Subset.refl _) (Only.refl _ s),
    raise_active line _ _ _ _ _ _, fun off => ?_⟩
  rw [srcs_raise_new line off]
  exact ⟨_, find_tput_same _ _ _, rfl, rfl⟩

/-- The module with its oscillators judged and one of them selected. -/
def withClocks (a b sel : Bool) (s : State) : State := { s with tm := { s.tm with clkA := a, clkB := b, clkSel := sel } }

theorem only_withClocks (a b sel : Bool) (s : State) : Only [.clocks] s (withClocks a b sel s) := by
  intro p hp
  cases p
  case clocks => exact absurd (List.mem_singleton_self _) hp
  all_goals rfl

theorem lineBad_withClocks (a b sel : Bool) (s : State) (id sub : Nat) : lineBad (withClocks a b sel s) id sub = lineBad s id sub :=
  lineBad_of_only (only_withClocks a b sel s) (by decide) id sub

theorem clocks_of_only {ps : List Part} {a b sel : Bool} {s t : State} (h : Only ps (withClocks a b sel s) t) (hp : Part.clocks ∉ ps) :
    (t.tm.clkA, t.tm.clkB) = (a, b) ∧ t.tm.clkSel = sel := by
  obtain ⟨clkA, rest⟩ := Prod.mk.inj (h .clocks hp)
  obtain ⟨clkB, clkSel⟩ := Prod.mk.inj rest
  exact ⟨Prod.ext clkA clkB, clkSel⟩

/-- With both oscillators running the core clock uses the other one after a loss, whichever was selected (R301). -/
theorem exec_clockSrcLost {s : State} (up : awake s = true) (a : s.tm.clkA = true) (b : s.tm.clkB = true) (oscB : Bool) :
    exec (.clockSrcLost oscB) s = .next (raise 0x18 0 1 false (clkCtx (withClocks oscB (!oscB) (!oscB) s)) s.tm.count false false
      (withClocks oscB (!oscB) (!oscB) s)) := by
  have other : (if s.tm.clkSel = oscB then !oscB else s.tm.clkSel) = !oscB := by
    cases s.tm.clkSel <;> cases oscB <;> rfl
  change execClockSrcLost oscB s = _
  unfold execClockSrcLost
  dsimp only
  rw [if_neg (by simp [up, a, b]), other]
  rfl

theorem clockSrcLost_raises {s : State} (up : awake s = true) (a : s.tm.clkA = true) (b : s.tm.clkB = true)
    (line : lineBad s 0x18 0 = false) (oscB : Bool) :
    ∃ t, exec (.clockSrcLost oscB) s = .next t ∧ Only [.outbox, .queues, .faults, .clocks] s t ∧
      (t.tm.clkA, t.tm.clkB) = (oscB, !oscB) ∧ t.tm.clkSel = !oscB ∧ srcActive t 0x18 0 = true := by
  have raised : Only [.outbox, .queues, .faults] (withClocks oscB (!oscB) (!oscB) s) _ :=
    only_raise_low (id := 0x18) (sub := 0) (event := false) (ctx := clkCtx (withClocks oscB (!oscB) (!oscB) s)) (tick := s.tm.count)
      (atEdge := false) (opener := false) (show (1 : Nat) ≤ 2 by decide) (List.Subset.refl _) (Only.refl _ _)
  obtain ⟨running, selected⟩ := clocks_of_only raised (by decide)
  exact ⟨_, exec_clockSrcLost up a b oscB, ((only_withClocks _ _ _ s).mono (by decide)).trans (raised.mono (by decide)), running, selected,
    raise_active (by rwa [lineBad_withClocks]) _ _ _ _ _ _⟩

theorem exec_clockBothLost {s : State} (up : awake s = true) : exec .clockBothLost s = .next (raise 0x02 0 4 true
    (clkCtx (withClocks false false s.tm.clkSel s)) s.tm.count false false (withClocks false false s.tm.clkSel s)) :=
  if_neg (by simp [up])

theorem clockBothLost_halts {s : State} (up : awake s = true) (line : lineBad s 0x02 0 = false) (off : srcActive s 0x02 0 = false) :
    ∃ t, exec .clockBothLost s = .next t ∧ (t.tm.clkA, t.tm.clkB) = (false, false) ∧ srcActive t 0x02 0 = true ∧
      t.pwr.haltLatch = true ∧ (s.phase = .running → t.phase = .draining) ∧ ∀ f, f < 32 → (frond t f).safeOrder = true := by
  have line' : lineBad (withClocks false false s.tm.clkSel s) 0x02 0 = false := by rwa [lineBad_withClocks]
  have off' : srcActive (withClocks false false s.tm.clkSel s) 0x02 0 = false := off
  have raised : Only [.outbox, .halt, .queues, .faults, .fronds] (withClocks false false s.tm.clkSel s) _ :=
    only_raise (id := 0x02) (sub := 0) (cls := 4) (event := true) (ctx := clkCtx (withClocks false false s.tm.clkSel s)) (tick := s.tm.count)
      (atEdge := false) (opener := false) (List.Subset.refl _) (Only.refl _ _)
  obtain ⟨latched, drains, ordered⟩ := raise_halts line' off' (Nat.le_refl 4) true (clkCtx (withClocks false false s.tm.clkSel s))
    s.tm.count false false
  exact ⟨_, exec_clockBothLost up, (clocks_of_only raised (by decide)).1, raise_active line' _ _ _ _ _ _, latched, drains, ordered⟩

/-- Settles O35: each command raises one source (`raise_active`), which is latched (`raise_latches`) and acts by its class (`raise_halts`). -/
theorem coreSourcesActivateAndReact : Obligations.CoreSourcesActivateAndReact := by
  unfold Obligations.CoreSourcesActivateAndReact
  exact ⟨fun id ctx s up raw line => faultSourceActivate_raises up raw line ctx,
    fun s run above long line => tbaseHigh_raises run above long line, fun oscB s up a b line => clockSrcLost_raises up a b line oscB,
    fun s up line off => clockBothLost_halts up line off⟩

end Sys2Proof.Machine
end

section
/-! SUPPORT. How fault sources, shadows and the drain of a HALT end (R484, R491, R493, R494, R500), and the source that follows the supply phases
(R551). -/

namespace Sys2Proof.Machine

/-! ## Sources whose condition has gone (R484, R494) -/

theorem faultSourceCleared_clears {id sub : Nat} {x : Src} {s : State} (up : awake s = true) (other : id ≠ 0x3F)
    (gone : condGone s id sub = true) (line : lineBad s id sub = false)
    (found : s.srcs.find? (fun e => e.1 == srcKey id sub) = some (srcKey id sub, x)) (plain : x.esc = false) (n : Nat) (act : Bool)
    (ctx : List Byte) : ∃ t, exec (.faultSourceCleared id sub n act ctx) s = .next t ∧ Only [.queues, .faults] s t ∧
      srcActive t id sub = false := by
  have runs : exec (.faultSourceCleared id sub n act ctx) s = .next (clearSrc id sub s) := by
    change execFaultSourceCleared id sub n act ctx s = _
    rw [execFaultSourceCleared, if_neg (by simp [up]), if_neg other, if_pos gone]
  exact ⟨_, runs, only_clearSrc id sub (List.Subset.refl _) (Only.refl _ s), clearSrc_inactive line found plain⟩

theorem clockSrcLostClear_clears {x : Src} {s : State} (up : awake s = true) (one : s.tm.clkA = true ∨ s.tm.clkB = true)
    (line : lineBad s 0x18 0 = false) (found : s.srcs.find? (fun e => e.1 == srcKey 0x18 0) = some (srcKey 0x18 0, x))
    (plain : x.esc = false) : ∃ t, exec .clockSrcLostClear s = .next t ∧ Only [.clocks, .queues, .faults] s t ∧
      (t.tm.clkA, t.tm.clkB) = (true, true) ∧ srcActive t 0x18 0 = false := by
  have either : (s.tm.clkA || s.tm.clkB) = true := by simpa using one
  have runs : exec .clockSrcLostClear s = .next (clearSrc 0x18 0 (withClocks true true s.tm.clkSel s)) :=
    if_neg (by rw [up, either]; decide)
  have cleared : Only [.queues, .faults] (withClocks true true s.tm.clkSel s) (clearSrc 0x18 0 (withClocks true true s.tm.clkSel s)) :=
    only_clearSrc 0x18 0 (List.Subset.refl _) (Only.refl _ _)
  exact ⟨_, runs, ((only_withClocks _ _ _ s).mono (by decide)).trans (cleared.mono (by decide)), (clocks_of_only cleared (by decide)).1,
    clearSrc_inactive (by rwa [lineBad_withClocks]) found plain⟩

/-! ## Escalation (R493) -/

/-- The collector with a source marked as escalated, in the latch as well. -/
def escalationMarked (id sub : Nat) (x : Src) (s : State) : State :=
  { s with
    srcs := tput s.srcs (srcKey id sub) { x with esc := true },
    latch := s.latch.map (fun l => if l.id = id ∧ l.sub = sub then { l with cls := 3 } else l) }

theorem scope_of_only {ps : List Part} {s t : State} (h : Only ps s t) (hp : Part.badPaths ∉ ps) (id sub : Nat) (ctx : List Byte) :
    scope t id sub ctx = scope s id sub ctx := by
  have same : t.badPaths = s.badPaths := h .badPaths hp
  unfold scope
  rw [same]

section
variable {id sub : Nat} {x : Src} {d : TickNo} {s : State} (found : s.srcs.find? (fun e => e.1 == srcKey id sub) = some (srcKey id sub, x))
  (service : x.cls = 2) (plain : x.esc = false) (deadline : x.deadline = some d) (due : d ≤ s.tm.count)
include found service plain deadline due

/-- A SERVICE source at its deadline is marked and recorded, and its scope gets the reaction of class SAFE. -/
theorem escalate_due : ∃ flags, escalate id sub s = vector20 (highest s) (react id sub 3 x.ctx
    (faultRec id sub (wholeCls (escalationMarked id sub x s) id 3) flags s.fltCount x.ctx d (escalationMarked id sub x s))) := by
  have late : ¬ s.tm.count < d := BitVec.not_lt.mpr due
  unfold escalate
  rw [found]
  dsimp only
  rw [deadline]
  dsimp only
  rw [if_neg (by simp [plain, service, late])]
  generalize 8 + b2n _ = flags
  rw [← deadline]
  exact ⟨flags, rfl⟩

theorem escalation_escalates (run : running s = true) :
    ∃ t, exec (.escalation id sub) s = .next t ∧ Only [.outbox, .queues, .faults, .fronds] s t ∧
      t.srcs = tput s.srcs (srcKey id sub) { x with esc := true } ∧ effCls { x with esc := true } = 3 ∧
      ∀ f ∈ scope s id sub x.ctx, f < 32 → (frond t f).safeOrder = true := by
  have runs : exec (.escalation id sub) s = .next (escalate id sub s) := if_pos run
  obtain ⟨flags, escalated⟩ := escalate_due found service plain deadline due
  refine ⟨_, runs, only_escalate id sub (List.Subset.refl _) (Only.refl _ s), ?_, ?_, fun f inside _ => ?_⟩
  · rw [escalated, srcs_vector20, srcs_react, srcs_faultRec]
    rfl
  · simp [effCls, service]
  · have recorded := only_faultRec_self id sub (wholeCls (escalationMarked id sub x s) id 3) flags s.fltCount x.ctx d
      (escalationMarked id sub x s)
    rw [escalated, frond_of_only (only_vector20_self _ _) (by decide), react_safe, scope_of_only recorded (by decide)]
    exact (ordersSafe_foldl _ _ _ _).ordered f inside

end

/-! ## Shadows and the drain (R491, R500) -/

/-- A shadow that closes leaves nothing else of the collector changed. -/
theorem closeShadow_closes {f : Nat} {sh : Shadow} {c : TickNo} {s : State} (found : s.shadows.find? (fun e => e.1 == f) = some (f, sh))
    (ended : sh.closeAt = some c) : (closeShadow f s).shadows = tfilter s.shadows (fun j _ => j != f) := by
  unfold closeShadow
  rw [found]
  dsimp only
  rw [ended]
  dsimp only
  split
  · rfl
  · have faults := only_faultRec_self (sh.opener.getD (0xA0 + f, 0)).1 (sh.opener.getD (0xA0 + f, 0)).2
      (wholeCls { s with shadows := tfilter s.shadows (fun j _ => j != f) } (sh.opener.getD (0xA0 + f, 0)).1 sh.openerCls) 2 sh.merged
      (((s.srcs.find? (fun e => e.1 == srcKey (sh.opener.getD (0xA0 + f, 0)).1 (sh.opener.getD (0xA0 + f, 0)).2)).map
        (fun e => e.2.ctx)).getD []) c { s with shadows := tfilter s.shadows (fun j _ => j != f) } .faults (by decide)
    simp only [Part.same, Prod.mk.injEq] at faults
    obtain ⟨_, _, _, _, _, shadows, _⟩ := faults
    exact shadows

theorem shadowClose_closes {f : Nat} {sh : Shadow} {c : TickNo} {s : State} (run : running s = true)
    (found : s.shadows.find? (fun e => e.1 == f) = some (f, sh)) (ended : sh.closeAt = some c) :
    ∃ t, exec (.shadowClose f) s = .next t ∧ Only [.queues, .faults] s t ∧ t.shadows = tfilter s.shadows (fun j _ => j != f) ∧
      t.srcs = s.srcs ∧ t.latch = s.latch :=
  ⟨_, if_pos run, only_closeShadow f (List.Subset.refl _) (Only.refl _ s), closeShadow_closes found ended, srcs_closeShadow f s,
    (latch_closeShadow f s).1⟩

/-- Settles O36: one lemma for each command; HALT_DRAIN_TIMEOUT is `haltStop`. -/
theorem sourcesEndAndEscalate : Obligations.SourcesEndAndEscalate := by
  unfold Obligations.SourcesEndAndEscalate
  refine ⟨fun id sub n act ctx x s up other gone line found plain => faultSourceCleared_clears up other gone line found plain n act ctx,
    fun x s up one line found plain => clockSrcLostClear_clears up one line found plain,
    fun id sub x d s run found service plain deadline due => escalation_escalates found service plain deadline due run,
    fun f sh c s run found ended => shadowClose_closes run found ended, fun s draining => ?_⟩
  exact if_pos draining

/-! ## Supply phases (R551) -/

/-- The module with other failed supply phases. -/
def withFailed (l : List Nat) (s : State) : State := { s with pwr := { s.pwr with failed := l } }

theorem only_withFailed (l : List Nat) (s : State) : Only [.supplies] s (withFailed l s) := by
  intro p hp
  cases p
  case supplies => exact absurd (List.mem_singleton_self _) hp
  all_goals rfl

theorem only_phaseSrc_self (ph : Nat) (s : State) : Only [.outbox, .queues, .faults] s (phaseSrc ph s) :=
  only_phaseSrc ph (List.Subset.refl _) (Only.refl _ s)

theorem only_phaseFollowed (ph : Nat) (l : List Nat) (s : State) :
    Only [.outbox, .queues, .faults, .supplies] s (phaseSrc ph (withFailed l s)) :=
  ((only_withFailed l s).mono (by decide)).trans ((only_phaseSrc_self ph _).mono (by decide))

theorem supplies_phaseFollowed (ph : Nat) (l : List Nat) (s : State) :
    (phaseSrc ph (withFailed l s)).pwr.failed = l ∧ (phaseSrc ph (withFailed l s)).pwr.valid = s.pwr.valid := by
  obtain ⟨failed, rest⟩ := Prod.mk.inj (only_phaseSrc_self ph (withFailed l s) .supplies (by decide))
  obtain ⟨valid, _⟩ := Prod.mk.inj rest
  exact ⟨failed, valid⟩

section
variable {ph : Nat} {s : State}

theorem supplyPhase_fails (on : s.pwr.valid = true) (carried : s.pwr.failed.contains ph = false) : ∃ t, exec (.supplyPhase ph) s = .next t ∧
    Only [.outbox, .queues, .faults, .supplies] s t ∧ t.pwr.failed = s.pwr.failed ++ [ph] ∧ t.pwr.valid = s.pwr.valid ∧
    (awake s = true → lineBad s 0x1C 0 = false → srcActive t 0x1C 0 = true) := by
  have runs : exec (.supplyPhase ph) s = .next (phaseSrc ph (withFailed (s.pwr.failed ++ [ph]) s)) := by
    change execSupplyPhase ph s = _
    exact if_neg (by rw [on, carried]; decide)
  obtain ⟨failed, valid⟩ := supplies_phaseFollowed ph (s.pwr.failed ++ [ph]) s
  refine ⟨_, runs, only_phaseFollowed ph _ s, failed, valid, fun up line => ?_⟩
  have some : ((withFailed (s.pwr.failed ++ [ph]) s).pwr.failed != []) = true := by simp [withFailed]
  have up' : awake (withFailed (s.pwr.failed ++ [ph]) s) = true := up
  rw [phaseSrc, if_pos up', setSrc, if_pos some]
  exact raise_active ((lineBad_of_only (only_withFailed _ s) (by decide) 0x1C 0).trans line) _ _ _ _ _ _

theorem supplyPhaseRetry_restores : ∃ t, exec (.supplyPhaseRetry ph true) s = .next t ∧
    Only [.outbox, .queues, .faults, .supplies] s t ∧ t.pwr.failed = s.pwr.failed.filter (fun k => k != ph) ∧
    (∀ x, s.pwr.failed = [ph] → awake s = true → lineBad s 0x1C 0 = false →
      s.srcs.find? (fun e => e.1 == srcKey 0x1C 0) = some (srcKey 0x1C 0, x) → x.esc = false → srcActive t 0x1C 0 = false) := by
  have runs : exec (.supplyPhaseRetry ph true) s = .next (phaseSrc ph (withFailed (s.pwr.failed.filter (fun k => k != ph)) s)) := rfl
  refine ⟨_, runs, only_phaseFollowed ph _ s, (supplies_phaseFollowed ph _ s).1, fun x last up line found plain => ?_⟩
  have none : ((withFailed (s.pwr.failed.filter (fun k => k != ph)) s).pwr.failed != []) = false := by simp [withFailed, last]
  have up' : awake (withFailed (s.pwr.failed.filter (fun k => k != ph)) s) = true := up
  rw [phaseSrc, if_pos up', setSrc, none, if_neg Bool.false_ne_true]
  exact clearSrc_inactive ((lineBad_of_only (only_withFailed _ s) (by decide) 0x1C 0).trans line) found plain

end

/-- Settles O43: both commands change the failed phases, which the source then follows. -/
theorem supplyPhasesAreFollowed : Obligations.SupplyPhasesAreFollowed := by
  unfold Obligations.SupplyPhasesAreFollowed
  intro ph s
  exact ⟨supplyPhase_fails, supplyPhaseRetry_restores, rfl⟩

end Sys2Proof.Machine
end

section
/-! SUPPORT. Sessions of the management channel: the clients that reach it, those that open a session, and a session that closes (R481,
R515, R520, R541). -/

namespace Sys2Proof.Machine

/-! ## TLS_CONNECT (R481, R515, R541) -/

/-- A client whose certificate chains to this key is an owner's. -/
def ownerKey (root : List Byte) (s : State) : Bool := s.sec.keys.any (fun e => e.2 == root)

/-- A client with this key and this offer is accepted, and the module has a DevID key of its own (R481, R515, R529). -/
def tlsAccepts (root : List Byte) (h : TlsIn) (s : State) : Bool :=
  (if s.sec.keys = [] then root == Config.makerKey else ownerKey root s) && h.v13 && h.aes256 && h.p384 &&
    (s.sec.idev || s.sec.ldevCert.isSome)

/-- The number of the next session. -/
def freeSession (s : State) : Nat := if s.net.sessions.any (fun x => x.id == 0) then 1 else 0

/-- The module with one session more. -/
def sessionOpened (owner : Bool) (s : State) : State :=
  { s with net := { s.net with sessions := ⟨freeSession s, owner⟩ :: s.net.sessions } }

theorem only_sessionOpened (owner : Bool) (s : State) : Only [.sessions] s (sessionOpened owner s) := by
  intro p hp
  cases p
  case sessions => exact absurd (List.mem_singleton_self _) hp
  all_goals rfl

/-- With fewer than two sessions open, the number of the next one is free. -/
theorem freeSession_free {s : State} (room : s.net.sessions.length < 2) : ∀ x ∈ s.net.sessions, x.id ≠ freeSession s := by
  unfold freeSession
  match listed : s.net.sessions with
  | [] => exact fun x mem => absurd mem (List.not_mem_nil)
  | [y] =>
    intro x mem
    obtain rfl := List.mem_singleton.mp mem
    by_cases first : x.id = 0 <;> simp [first]
  | _ :: _ :: _ =>
    rw [listed] at room
    exact absurd room (by simp)

section
variable {root : List Byte} {h : TlsIn} {s : State}

theorem exec_tlsConnect_elsewhere (away : h.tcp ≠ 50121 ∨ h.own = false) : exec (.tlsConnect root h) s = .next s :=
  if_pos (by rcases away with port | own <;> simp [*])

variable (run : running s = true) (tcp : h.tcp = 50121) (own : h.own = true)
include run tcp own

/-- A client that addresses the module's port opens a session, or SEC_AUTH notes it. -/
theorem exec_tlsConnect : exec (.tlsConnect root h) s =
    .next (if s.sec.cryptoErr || decide (2 ≤ s.net.sessions.length) || !tlsAccepts root h s then authFailed 4 0 s
      else sessionOpened (ownerKey root s) s) := by
  have reaches : ¬(!running s || decide (h.tcp ≠ 50121) || !h.own) = true := by simp [run, tcp, own]
  change execTlsConnect root s h = _
  unfold execTlsConnect
  rw [if_neg reaches]
  exact (apply_ite Host.Outcome.next _ _ _).symm

theorem tlsConnect_opens (good : s.sec.cryptoErr = false) (room : s.net.sessions.length < 2) (ok : tlsAccepts root h s = true) :
    exec (.tlsConnect root h) s = .next (sessionOpened (ownerKey root s) s) := by
  rw [exec_tlsConnect run tcp own, if_neg (by simp [good, ok, room])]

theorem tlsConnect_refuses (bad : s.sec.cryptoErr = true ∨ 2 ≤ s.net.sessions.length ∨ tlsAccepts root h s = false) :
    exec (.tlsConnect root h) s = .next (authFailed 4 0 s) := by
  rw [exec_tlsConnect run tcp own, if_pos (by rcases bad with error | full | stranger <;> simp [*])]

end

/-! ## TLS_SESSION_CLOSE (R481) -/

/-- The module without a session and its requests. -/
def sessionClosed (id : Nat) (s : State) : State :=
  { s with net := { s.net with
      sessions := s.net.sessions.filter (fun x => x.id != id), asked := tfilter s.net.asked (fun _ a => a.1 != id) } }

theorem only_sessionClosed (id : Nat) (s : State) : Only [.sessions] s (sessionClosed id s) := by
  intro p hp
  cases p
  case sessions => exact absurd (List.mem_singleton_self _) hp
  all_goals rfl

/-- Settles O48: a client that is accepted finds a free number; any other that reaches the module is only noted. -/
theorem managementSessionsOpenAndClose : Obligations.ManagementSessionsOpenAndClose := by
  unfold Obligations.ManagementSessionsOpenAndClose
  refine ⟨fun root h s run => ⟨exec_tlsConnect_elsewhere, fun tcp own owner ok hOwner hOk => ?_⟩, fun id s => ?_⟩
  · subst hOwner hOk
    refine ⟨fun good room ok => ?_, fun bad => ?_⟩
    · exact ⟨_, _, tlsConnect_opens run tcp own good room ok, only_sessionOpened _ s, rfl, rfl, freeSession_free room⟩
    · exact ⟨_, tlsConnect_refuses run tcp own bad, only_noteEvent 0x35 _ (List.Subset.refl _) (Only.refl _ s),
        fun line => authFailed_active line 4 0⟩
  · refine ⟨_, rfl, only_sessionClosed id s, fun x => ?_, fun k a => ?_⟩
    · simp
    · simp [tfilter]

end Sys2Proof.Machine
end

section
/-! SUPPORT. The Ethernet ports as they lose and regain their link: the best master selection's port, the roles, ETH_LINK_DOWN, and
holdover (R304, R465, R480, Table 9-1). -/

namespace Sys2Proof.Machine

/-! ## The selection (R465) -/

theorem port_setView (v : TimeView) (s : State) {q : Nat} (hq : q < 2) : port (setView v s) q = { port s q with role := roleIn v s q } := by
  interval_cases q <;> rfl

theorem setView_told (v : TimeView) (s : State) : (setView v s).net.gm = (slavePort v s).isSome ∧
    (setView v s).net.stepsRemoved = v.steps % 256 := ⟨rfl, rfl⟩

/-- The role that the selection gives a port of its own. -/
def ownRole (v : TimeView) (p : Nat) : Nat := (if p = 0 then v.role0 else v.role1) % 4

theorem slavePort_none {v : TimeView} (away : v.gm = false) (s : State) : slavePort v s = none := by
  simp [slavePort, away]

/-- With a grandmaster within reach and link on one port alone, that port receives time. -/
theorem slavePort_only {v : TimeView} {s : State} {p : Nat} (hp : p < 2) (reach : v.gm = true) (link : (port s p).link = true)
    (other : (port s (1 - p)).link = false) : slavePort v s = some p := by
  interval_cases p <;> simp_all [slavePort, port]

/-- A port that receives time has link. -/
theorem slavePort_linked {v : TimeView} {s : State} {p : Nat} (slave : slavePort v s = some p) : p < 2 ∧ (port s p).link = true := by
  unfold slavePort at slave
  dsimp only at slave
  split_ifs at slave with away first second third fourth <;> obtain rfl := Option.some.inj slave <;> refine ⟨by decide, ?_⟩
  · exact (Bool.and_eq_true_iff.mp (Bool.and_eq_true_iff.mp first).1).1
  · exact (Bool.and_eq_true_iff.mp (Bool.and_eq_true_iff.mp second).1).1
  · exact (Bool.and_eq_true_iff.mp third).1
  · exact fourth

/-- With a grandmaster within reach, one of the ports with link receives time. -/
theorem slavePort_isSome {v : TimeView} {s : State} {p : Nat} (hp : p < 2) (reach : v.gm = true) (link : (port s p).link = true) :
    ∃ q, slavePort v s = some q := by
  rw [← Option.isSome_iff_exists]
  have up : s.net.p0.link = true ∨ s.net.p1.link = true := by
    interval_cases p
    · exact .inl link
    · exact .inr link
  unfold slavePort
  dsimp only
  split_ifs with away first second third fourth
  · simp [reach] at away
  · rfl
  · rfl
  · rfl
  · rfl
  · simp_all

/-- With link on a port, some port receives time exactly while a grandmaster is within reach. -/
theorem slavePort_reached {v : TimeView} {s : State} {p : Nat} (hp : p < 2) (link : (port s p).link = true) :
    (slavePort v s).isSome = v.gm := by
  cases reach : v.gm with
  | false => rw [slavePort_none reach]; rfl
  | true =>
    obtain ⟨q, slave⟩ := slavePort_isSome hp reach link
    rw [slave]
    rfl

/-- The port that the selection alone names receives time. -/
theorem slavePort_named {v : TimeView} {s : State} {p : Nat} (hp : p < 2) (reach : v.gm = true) (link : (port s p).link = true)
    (own : ownRole v p = 1) (other : ownRole v (1 - p) ≠ 1) : slavePort v s = some p := by
  interval_cases p <;> simp_all [slavePort, port, ownRole]

theorem roleIn_unlinked {v : TimeView} {s : State} {p : Nat} (down : (port s p).link = false) : roleIn v s p = 0 := by
  simp [roleIn, down]

theorem roleIn_slave {v : TimeView} {s : State} {p : Nat} (slave : slavePort v s = some p) : roleIn v s p = 1 := by
  simp [roleIn, (slavePort_linked slave).2, slave]

/-- A port that does not receive time is no slave, and a master only while some port receives time. -/
theorem roleIn_other {v : TimeView} {s : State} {p : Nat} (other : slavePort v s ≠ some p) :
    roleIn v s p ≠ 1 ∧ (roleIn v s p = 2 → slavePort v s ≠ none) := by
  unfold roleIn
  dsimp only
  rw [if_neg other]
  split_ifs <;> simp_all

/-! ## What the collector and the time unit are told (R304, R480) -/

theorem any_tput_of_any {α : Type} {j : Nat} (k : Nat) (v : α) : ∀ t : Tab α, t.any (fun e => e.1 == j) = true →
    (tput t k v).any (fun e => e.1 == j) = true
  | [], h => absurd h (by simp)
  | (i, w) :: r, h => by
    rw [List.any_cons, Bool.or_eq_true] at h
    unfold tput
    split
    · rw [List.any_cons, List.any_cons, Bool.or_eq_true, Bool.or_eq_true]
      exact .inr h
    · split
      · next same =>
        rw [List.any_cons, Bool.or_eq_true]
        exact h.imp_left (same ▸ ·)
      · rw [List.any_cons, Bool.or_eq_true]
        exact h.imp_right (any_tput_of_any k v r)

/-- A source that is raised leaves the others as active as they were. -/
theorem srcActive_raise {j w : Nat} {s : State} (active : srcActive s j w = true) (id sub cls : Nat) (event : Bool) (ctx : List Byte)
    (tick : TickNo) (atEdge opener : Bool) : srcActive (raise id sub cls event ctx tick atEdge opener s) j w = true := by
  unfold srcActive at active ⊢
  unfold raise
  split
  · exact active
  · split
    · dsimp only
      rw [any_tmap_key]
      exact active
    · dsimp only
      rw [srcs_vector20, srcs_react, srcs_recordFault]
      exact any_tput_of_any _ _ _ active

theorem srcActive_setTime_holdover {j w : Nat} {s : State} (active : srcActive s j w = true) : srcActive (setTime 3 s) j w = true := by
  by_cases there : s.tm.state = 3
  · rwa [show setTime 3 s = s from if_pos there]
  · rw [setTime_eq there, if_pos rfl]
    exact srcActive_raise ((srcActive_of_only (only_timeTold 3 s) (by decide) j w).trans active) ..

theorem ethSrc_active {p : Nat} {s : State} (line : lineBad s 0x30 0 = false) (lost : (s.net.p0.lost || s.net.p1.lost) = true) :
    srcActive (ethSrc p s) 0x30 0 = true := by
  rw [ethSrc, setSrc, if_pos lost]
  exact raise_active line ..

/-- ETH_LINK_DOWN follows the ports, and HOLDOVER a loss of time. -/
def linkTold (p : Nat) (lost : Bool) (s : State) : State := if lost then setTime 3 (ethSrc p s) else ethSrc p s

theorem only_ethSrc_self (p : Nat) (s : State) : Only [.outbox, .queues, .faults] s (ethSrc p s) :=
  only_ethSrc p (List.Subset.refl _) (Only.refl _ s)

theorem only_linkTold {s u : State} (p : Nat) (lost : Bool) (h : Only [.outbox, .queues, .faults, .time] s u) :
    Only [.outbox, .queues, .faults, .time] s (linkTold p lost u) :=
  Only.ite (only_setTime 3 (by decide) (only_ethSrc p (by decide) h)) (only_ethSrc p (by decide) h)

theorem linkTold_active {p : Nat} {s : State} (line : lineBad s 0x30 0 = false) (gone : (s.net.p0.lost || s.net.p1.lost) = true)
    (lost : Bool) : srcActive (linkTold p lost s) 0x30 0 = true := by
  cases lost
  · exact ethSrc_active line gone
  · exact srcActive_setTime_holdover (ethSrc_active line gone)

/-- A module that loses time enters HOLDOVER. -/
theorem linkTold_holdover {p : Nat} {s : State} (new : s.tm.state ≠ 3) : Entered 3 (ethSrc p s) (linkTold p true s) := by
  have same : (ethSrc p s).tm.state = s.tm.state := congrArg Prod.fst (only_ethSrc_self p s .time (by decide))
  exact setTime_enters (by decide) (same.symm ▸ new)

theorem holdsOver_of_only {ps : List Part} {s t : State} (h : Only ps s t) (hh : Part.halt ∉ ps) (ht : Part.time ∉ ps) :
    holdsOver t = holdsOver s := by
  have time := h .time ht
  simp only [Part.same, Prod.mk.injEq] at time
  obtain ⟨state, _, _, _, _, _, renumbered, _⟩ := time
  unfold holdsOver
  rw [running_of_only h hh, state, renumbered]

theorem holdsOver_spec {s : State} (h : holdsOver s = true) : awake s = true ∧ s.tm.state ≠ 3 := by
  simp only [holdsOver, Bool.and_eq_true, Bool.or_eq_true, decide_eq_true_eq] at h
  obtain ⟨run, state⟩ := h
  exact ⟨by simp [awake, run], by omega⟩

/-- What NET_TIME shows. -/
theorem netTime_of_only {ps : List Part} {s t : State} (h : Only ps s t) (hp : Part.timeView ∉ ps) :
    t.net.gm = s.net.gm ∧ t.net.stepsRemoved = s.net.stepsRemoved := Prod.mk.inj (h .timeView hp)

/-! ## ETH_LINK_DOWN (R465, R480) -/

/-- A port without its link. -/
def unlinked (x : Port) : Port := { x with link := false, speed := 0, lost := true, waiting := [] }

/-- The module with port p's link lost and the selection made anew. -/
def portDown (p : Nat) (v : TimeView) (s : State) : State := setView v (modPort p unlinked s)

theorem only_portDown (p : Nat) (v : TimeView) (s : State) : Only [.ports, .timeView] s (portDown p v s) :=
  only_setView v (List.Subset.refl _) (only_modPort p _ (by decide) (Only.refl _ s))

/-- Time received on port p is lost, in a module that then holds over. -/
def losesTime (p : Nat) (v : TimeView) (s : State) : Bool := (port s p).role == 1 && !(portDown p v s).net.gm && holdsOver s

theorem losesTime_not {p : Nat} {v : TimeView} {s : State}
    (keeps : (port s p).role ≠ 1 ∨ (portDown p v s).net.gm = true ∨ holdsOver s = false) : losesTime p v s = false := by
  unfold losesTime
  rcases keeps with role | shown | hold
  · simp [role]
  · simp [shown]
  · simp [hold]

/-- The state after ETH_LINK_DOWN of a port with link. -/
def ethDown (p : Nat) (v : TimeView) (s : State) : State :=
  if awake s then inOneCycle (linkTold p (losesTime p v s)) (portDown p v s) else portDown p v s

section
variable {p : Nat} {v : TimeView} {s : State} (hp : p < 2)

theorem exec_ethLinkDown (on : switchOn s = true) (link : (port s p).link = true) : exec (.ethLinkDown p v) s = .next (ethDown p v s) := by
  have up := awake_of_only (only_portDown p v s) (by decide)
  have holds := holdsOver_of_only (only_portDown p v s) (by decide) (by decide)
  unfold ethDown losesTime
  rw [← up, ← holds]
  exact if_neg (by simp [on, link])

/-- Without a loss of time the time unit is not touched. -/
theorem only_ethDown_keeps (keeps : losesTime p v s = false) :
    Only [.outbox, .queues, .faults] (portDown p v s) (ethDown p v s) := by
  unfold ethDown
  rw [keeps]
  exact Only.ite (only_inOneCycle _ (fun h => only_ethSrc p (by decide) h) (by decide) (Only.refl _ _)) (Only.refl _ _)

theorem only_ethDown : Only [.outbox, .queues, .faults, .time] (portDown p v s) (ethDown p v s) :=
  Only.ite (only_inOneCycle _ (only_linkTold p _) (by decide) (Only.refl _ _)) (Only.refl _ _)

theorem ethDown_holdover (loses : losesTime p v s = true) : (ethDown p v s).tm.state = 3 ∧ (ethDown p v s).tm.slew = 0 := by
  obtain ⟨up, new⟩ := holdsOver_spec (Bool.and_eq_true_iff.mp loses).2
  have state : (aged (portDown p v s)).tm.state = s.tm.state := rfl
  have entered := entered_of_only (only_ordered (linkTold p true) (portDown p v s)) (by decide)
    (linkTold_holdover (p := p) (s := aged (portDown p v s)) (state ▸ new))
  unfold ethDown
  rw [if_pos up, loses]
  exact ⟨entered.1, entered.2.1⟩

include hp

theorem portDown_ports : port (portDown p v s) p = { unlinked (port s p) with role := 0 } ∧
    port (portDown p v s) (1 - p) = { port s (1 - p) with role := roleIn v (modPort p unlinked s) (1 - p) } := by
  have down : (port (modPort p unlinked s) p).link = false := by rw [port_modPort_same]; rfl
  refine ⟨?_, ?_⟩
  · rw [portDown, port_setView v _ hp, roleIn_unlinked down, port_modPort_same]
  · rw [portDown, port_setView v _ (by omega), port_modPort_other hp]

theorem portDown_lost : ((portDown p v s).net.p0.lost || (portDown p v s).net.p1.lost) = true := by
  interval_cases p
  · rfl
  · exact Bool.or_true _

theorem ethDown_active (up : awake s = true) (line : lineBad s 0x30 0 = false) : srcActive (ethDown p v s) 0x30 0 = true := by
  unfold ethDown
  rw [if_pos up, srcActive_of_only (only_ordered _ _) (by decide)]
  refine linkTold_active (s := aged (portDown p v s)) ?_ (portDown_lost (v := v) (s := s) hp) _
  rw [lineBad_of_only (only_aged _) (by decide), lineBad_of_only (only_portDown p v s) (by decide), line]

/-- With port p's link gone the selection is the other port's, where it has link. -/
theorem slavePort_unlinked : slavePort v (modPort p unlinked s) = if v.gm && (port s (1 - p)).link then some (1 - p) else none := by
  have gone : (port (modPort p unlinked s) p).link = false := by rw [port_modPort_same]; rfl
  have other : port (modPort p unlinked s) (1 - p) = port s (1 - p) := port_modPort_other hp _ s
  split
  · next h =>
    obtain ⟨reach, link⟩ := Bool.and_eq_true_iff.mp h
    refine slavePort_only (by omega) reach (other ▸ link) ?_
    rwa [Nat.sub_sub_self (by omega)]
  · next h =>
    cases reach : v.gm with
    | false => exact slavePort_none reach _
    | true =>
      rw [Option.eq_none_iff_forall_ne_some]
      intro q slave
      obtain ⟨hq, link⟩ := slavePort_linked slave
      obtain rfl | rfl : q = p ∨ q = 1 - p := by omega
      · simp [gone] at link
      · exact h (by rw [reach, ← other, link]; rfl)

theorem gm_portDown : (portDown p v s).net.gm = (v.gm && (port s (1 - p)).link) := by
  rw [portDown, (setView_told v _).1, slavePort_unlinked hp]
  cases v.gm && (port s (1 - p)).link <;> rfl

end

/-! ## ETH_LINK_UP (R465, R480) -/

/-- A port whose link returns at a speed. -/
def relinked (speed : Nat) (x : Port) : Port := { x with link := true, speed := speed % 4, lost := false }

/-- The module with port p's link back and the selection made anew. -/
def portUp (p speed : Nat) (v : TimeView) (s : State) : State := setView v (modPort p (relinked speed) s)

/-- The state after ETH_LINK_UP. -/
def ethUp (p speed : Nat) (v : TimeView) (s : State) : State := if awake s then ethSrc p (portUp p speed v s) else portUp p speed v s

theorem only_portUp (p speed : Nat) (v : TimeView) (s : State) : Only [.ports, .timeView] s (portUp p speed v s) :=
  only_setView v (List.Subset.refl _) (only_modPort p _ (by decide) (Only.refl _ s))

theorem only_ethUp (p speed : Nat) (v : TimeView) (s : State) : Only [.outbox, .queues, .faults] (portUp p speed v s) (ethUp p speed v s) :=
  Only.ite (only_ethSrc_self p _) (Only.refl _ _)

theorem exec_ethLinkUp {p speed : Nat} {v : TimeView} {s : State} (on : switchOn s = true) :
    exec (.ethLinkUp p speed v) s = .next (ethUp p speed v s) := by
  have up := awake_of_only (only_portUp p speed v s) (by decide)
  unfold ethUp
  rw [← up]
  exact if_neg (by simp [on])

section
variable {p speed : Nat} {v : TimeView} {s : State} (hp : p < 2)
include hp

theorem portUp_ports :
    port (portUp p speed v s) p = { relinked speed (port s p) with role := roleIn v (modPort p (relinked speed) s) p } ∧
    port (portUp p speed v s) (1 - p) = { port s (1 - p) with role := roleIn v (modPort p (relinked speed) s) (1 - p) } := by
  refine ⟨?_, ?_⟩
  · rw [portUp, port_setView v _ hp, port_modPort_same]
  · rw [portUp, port_setView v _ (by omega), port_modPort_other hp]

theorem gm_portUp : (portUp p speed v s).net.gm = v.gm := by
  have linked : (port (modPort p (relinked speed) s) p).link = true := by rw [port_modPort_same]; rfl
  rw [portUp, (setView_told v _).1, slavePort_reached hp linked]

theorem portUp_found (other : (port s (1 - p)).lost = false) :
    ((portUp p speed v s).net.p0.lost || (portUp p speed v s).net.p1.lost) = false := by
  interval_cases p
  · exact other
  · exact (Bool.or_false _).trans other

theorem ethUp_inactive (up : awake s = true) (line : lineBad s 0x30 0 = false) (other : (port s (1 - p)).lost = false) {x : Src}
    (found : s.srcs.find? (fun e => e.1 == srcKey 0x30 0) = some (srcKey 0x30 0, x)) (plain : x.esc = false) :
    srcActive (ethUp p speed v s) 0x30 0 = false := by
  rw [ethUp, if_pos up, ethSrc, setSrc, portUp_found hp other]
  have good : lineBad (portUp p speed v s) 0x30 0 = false := (lineBad_of_only (only_portUp p speed v s) (by decide) _ _).trans line
  have same : (portUp p speed v s).srcs = s.srcs := rfl
  exact clearSrc_inactive good (same ▸ found) plain

end

/-! ## The roles of two ports (R465) -/

/-- The roles r of port p, which has link, and o of the other one: what the best master selection leaves of them. -/
structure RolesOf (p : Nat) (v : TimeView) (otherLink : Bool) (r o : Nat) : Prop where
  unlinked : otherLink = false → o = 0
  one : v.gm = true → (r = 1 ↔ o ≠ 1)
  none : v.gm = false → r ≠ 1 ∧ o ≠ 1
  master : r = 2 → o = 1
  otherMaster : o = 2 → r = 1
  named : v.gm = true → ownRole v p = 1 → ownRole v (1 - p) ≠ 1 → r = 1

theorem rolesOf_linked {p : Nat} {v : TimeView} {s : State} (hp : p < 2) (link : (port s p).link = true) :
    RolesOf p v (port s (1 - p)).link (roleIn v s p) (roleIn v s (1 - p)) := by
  have another : 1 - p ≠ p := by omega
  have down (h : (port s (1 - p)).link = false) : roleIn v s (1 - p) = 0 := roleIn_unlinked h
  have named (reach : v.gm = true) (own : ownRole v p = 1) (other : ownRole v (1 - p) ≠ 1) : roleIn v s p = 1 :=
    roleIn_slave (slavePort_named hp reach link own other)
  cases slave : slavePort v s with
  | none =>
    have mine := roleIn_other (p := p) (slave ▸ Option.some_ne_none p |>.symm : slavePort v s ≠ some p)
    have others := roleIn_other (p := 1 - p) (slave ▸ Option.some_ne_none (1 - p) |>.symm : slavePort v s ≠ some (1 - p))
    have away : v.gm ≠ true := by
      intro reach
      obtain ⟨q, some⟩ := slavePort_isSome hp reach link
      simp [slave] at some
    exact ⟨down, fun reach => absurd reach away, fun _ => ⟨mine.1, others.1⟩, fun two => absurd slave (mine.2 two),
      fun two => absurd slave (others.2 two), named⟩
  | some q =>
    have reach : v.gm = true := by
      by_contra away
      simp [slavePort_none (Bool.eq_false_iff.mpr away)] at slave
    have hq := (slavePort_linked slave).1
    obtain rfl | rfl : q = p ∨ q = 1 - p := by omega
    · have mine := roleIn_slave slave
      have others := roleIn_other (v := v) (s := s) (p := 1 - q) (by rw [slave]; simpa using another.symm)
      exact ⟨down, fun _ => ⟨fun _ => others.1, fun _ => mine⟩, fun away => absurd reach (by simp [away]), fun two => by omega,
        fun _ => mine, named⟩
    · have others := roleIn_slave slave
      have mine := roleIn_other (v := v) (s := s) (p := p) (by rw [slave]; simpa using another)
      exact ⟨down, fun _ => ⟨fun one => absurd one mine.1, fun no => absurd others no⟩, fun away => absurd reach (by simp [away]),
        fun _ => others, fun two => by omega, named⟩

/-- Settles O45: the selection is made anew over the ports that have link, and the collector and the time unit are told. -/
theorem ethernetLinksAreFollowed : Obligations.EthernetLinksAreFollowed := by
  unfold Obligations.EthernetLinksAreFollowed
  refine fun p v s on hp => ⟨fun link => ?_, fun speed => ?_⟩
  · obtain ⟨mine, others⟩ := portDown_ports (v := v) (s := s) hp
    have told := only_ethDown (p := p) (v := v) (s := s)
    obtain ⟨gm, steps⟩ := netTime_of_only told (by decide)
    have same : port (modPort p unlinked s) (1 - p) = port s (1 - p) := port_modPort_other hp _ s
    have slave := slavePort_unlinked (v := v) (s := s) hp
    have shown := gm_portDown (v := v) (s := s) hp
    have down := only_portDown p v s
    refine ⟨_, roleIn v (modPort p unlinked s) (1 - p), exec_ethLinkDown on link,
      (down.mono (by decide)).trans (told.mono (by decide)), ?_, ?_, fun gone => ?_,
      fun linked reach => ?_, fun away => ?_, gm.trans shown, steps, fun role off hold => ?_, fun keeps => ?_, fun up line => ?_⟩
    · exact (port_of_only told (by decide) p).trans mine
    · exact (port_of_only told (by decide) _).trans others
    · exact roleIn_unlinked (same.symm ▸ gone)
    · exact roleIn_slave (by rw [slave, reach, linked]; rfl)
    · have none := slavePort_none away (modPort p unlinked s)
      obtain ⟨one, two⟩ := roleIn_other (v := v) (s := modPort p unlinked s) (p := 1 - p) (by simp [none])
      exact ⟨one, fun h => two h none⟩
    · refine ethDown_holdover ?_
      rw [losesTime, role, ← gm, off, hold]
      rfl
    · have quiet := losesTime_not (gm ▸ keeps)
      exact (down.mono (by decide)).trans ((only_ethDown_keeps quiet).mono (by decide))
    · exact ethDown_active hp up line
  · have linked : (port (modPort p (relinked speed) s) p).link = true := by rw [port_modPort_same]; rfl
    have same : port (modPort p (relinked speed) s) (1 - p) = port s (1 - p) := port_modPort_other hp _ s
    obtain ⟨mine, others⟩ := portUp_ports (speed := speed) (v := v) (s := s) hp
    obtain ⟨unlinked, one, none, master, otherMaster, named⟩ := rolesOf_linked (v := v) hp linked
    have told := only_ethUp p speed v s
    obtain ⟨gm, steps⟩ := netTime_of_only told (by decide)
    have shown := gm_portUp (speed := speed) (v := v) (s := s) hp
    refine ⟨_, roleIn v (modPort p (relinked speed) s) p, roleIn v (modPort p (relinked speed) s) (1 - p), exec_ethLinkUp on,
      ((only_portUp p speed v s).mono (by decide)).trans (told.mono (by decide)), (port_of_only told (by decide) p).trans mine,
      (port_of_only told (by decide) _).trans others, fun gone => unlinked (same.symm ▸ gone), one,
      none, master, otherMaster, fun own other hOwn hOther reach first second => ?_, gm.trans shown, steps,
      fun x up line other found plain => ethUp_inactive hp up line other found plain⟩
    subst hOwn hOther
    refine named reach first ?_
    interval_cases p <;> exact second

end Sys2Proof.Machine
end

section
/-! SUPPORT. What an Ethernet port without MACsec sends at once, and how the switch forwards a frame (R460, R461, R464, R465, R478,
Table 14-1). -/

namespace Sys2Proof.Machine

/-! ## A port without MACsec (R463, R472) -/

/-- Gates depend on the configuration and on where a port's list stands. -/
theorem gateOpen_congr {s t : State} {p : Nat} (cfg : t.cfg = s.cfg) (gate : (port t p).gate = (port s p).gate) (tc : Nat) :
    gateOpen t p tc = gateOpen s p tc := by
  unfold gateOpen
  rw [cfg, gate]

theorem txStop_plain {x : Port} (plain : x.macsec = false) : txStop x = false := by simp [txStop, plain]

/-- The output of what leaves a port without MACsec. -/
def plainOut (p : Nat) (o : NetTx) (s : State) : Output :=
  match o with
  | .frame b => .forward p b
  | .gram i b => .datagram i p (gramTo s i) (udpSum (gramTo s i) b) b none

theorem txNow_plain {p : Nat} {s : State} (plain : (port s p).macsec = false) (o : NetTx) : txNow p o s = outp (plainOut p o s) s := by
  unfold txNow
  dsimp only
  rw [if_neg (by simp [plain])]
  cases o <;> rfl

/-- A port with link and without MACsec. -/
structure Plain (s : State) (p : Nat) : Prop where
  link : (port s p).link = true
  macsec : (port s p).macsec = false

theorem Plain.congr {s t : State} {p : Nat} (plain : Plain s p) (same : port t p = port s p) : Plain t p :=
  ⟨same ▸ plain.link, same ▸ plain.macsec⟩

section
variable {p tc : Nat} {s : State} (plain : Plain s p)
include plain

theorem mayTx_frame (b : List Byte) : mayTx s p tc (.frame b) = gateOpen s p tc := by
  simp [mayTx, txStop_plain plain.macsec]

theorem mayTx_gram (i : Nat) (b : List Byte) : mayTx s p tc (.gram i b) = (gateOpen s p tc && decide ((gramTo s i).mac ≠ [])) := by
  simp [mayTx, txStop_plain plain.macsec]

theorem sendPort_leaves {o : NetTx} (may : mayTx s p tc o = true) : sendPort p tc o s = outp (plainOut p o s) s := by
  unfold sendPort
  rw [if_neg (by simp [plain.link]), if_pos may, txNow_plain plain.macsec]

theorem sendPort_frame (gate : gateOpen s p tc = true) (b : List Byte) : sendPort p tc (.frame b) s = outp (.forward p b) s :=
  sendPort_leaves plain ((mayTx_frame plain b).trans gate)

theorem sendPort_waits {o : NetTx} (no : mayTx s p tc o = false) :
    sendPort p tc o s = modPort p (fun x => { x with waiting := x.waiting ++ [(tc, o)] }) s := by
  unfold sendPort
  rw [if_neg (by simp [plain.link]), if_neg (by simp [no])]

end

/-- A port on which nothing waits is not touched. -/
theorem gateFlush_idle {p : Nat} {s : State} (idle : (port s p).waiting = []) : gateFlush p s = s := by
  unfold gateFlush
  rw [idle]
  show modPort p (fun x => { x with waiting := [] }) s = s
  unfold port at idle
  unfold modPort
  split <;> simp_all <;> rw [← idle]

/-! ## Frames of time (R464, R465) -/

theorem rxFrame_plain {x : Port} (plain : x.macsec = false) (b : List Byte) : rxFrame x b = some b := by
  simp [rxFrame, plain]

section
variable {p : Nat} {b : List Byte} {v : TimeView} {s : State} (on : switchOn s = true) (link : (port s p).link = true)
  (long : 14 ≤ b.length) (short : b.length ≤ 1536)
include on link long short

/-- A frame of legal length on a port with link reaches the port's MACsec. -/
theorem execEthFrame_received : execEthFrame p b v s = match rxFrame (port s p) b with
    | none => .next (modPort p (fun x => { x with badRx := satAdd 0xFFFF x.badRx 1 }) s)
    | some b =>
      if isTimeFrame b then
        .next (if (port (setView v s) p).role = 1 && (port (setView v s) (1 - p)).role = 2 && relays (frcF s 0x1018 0 8 7) b then
          sendPort (1 - p) 7 (.frame (relayed (1 - p) v.resid b)) (setView v s) else setView v s)
      else if isReserved (macAt b 0) then .next s
      else .next (switchFrame p b s) := by
  have reaches : ¬(!switchOn s || !(port s p).link || decide (b.length < 14) || decide (b.length > 1536)) = true := by
    simp [on, link, Nat.not_lt.mpr long, Nat.not_lt.mpr short]
  unfold execEthFrame
  rw [if_neg reaches]
  rfl

theorem exec_ethFrame_invalid (bad : rxFrame (port s p) b = none) :
    exec (.ethFrame p b v) s = .next (modPort p (fun x => { x with badRx := satAdd 0xFFFF x.badRx 1 }) s) := by
  change execEthFrame p b v s = _
  rw [execEthFrame_received on link long short, bad]

section
variable (plain : (port s p).macsec = false)
include plain

theorem exec_ethFrame_reserved (other : isTimeFrame b = false) (reserved : isReserved (macAt b 0) = true) :
    exec (.ethFrame p b v) s = .next s := by
  change execEthFrame p b v s = _
  rw [execEthFrame_received on link long short, rxFrame_plain plain]
  dsimp only
  rw [other, reserved]
  rfl

theorem exec_ethFrame_switched (other : isTimeFrame b = false) (free : isReserved (macAt b 0) = false) :
    exec (.ethFrame p b v) s = .next (switchFrame p b s) := by
  change execEthFrame p b v s = _
  rw [execEthFrame_received on link long short, rxFrame_plain plain]
  dsimp only
  rw [other, free]
  rfl

end

end

/-- What the relay of time sends with the roles that the selection leaves: a message of the domain goes from the slave to the master. -/
def relayOut (p : Nat) (b : List Byte) (v : TimeView) (s : State) : List Output :=
  if (port (setView v s) p).role = 1 ∧ (port (setView v s) (1 - p)).role = 2 ∧ relays (frcF s 0x1018 0 8 7) b = true then
    [.forward (1 - p) (relayed (1 - p) v.resid b)] else []

/-- The module after a frame of time. -/
def timeRelayed (p : Nat) (b : List Byte) (v : TimeView) (s : State) : State :=
  { setView v s with outbox := relayOut p b v s ++ s.outbox }

theorem only_timeRelayed (p : Nat) (b : List Byte) (v : TimeView) (s : State) :
    Only [.outbox, .ports, .timeView] s (timeRelayed p b v s) := by
  intro q hq
  cases q
  case outbox | ports | timeView => exact absurd hq (by decide)
  all_goals rfl

theorem exec_ethFrame_time {p : Nat} {b : List Byte} {v : TimeView} {s : State} (hp : p < 2) (on : switchOn s = true)
    (long : 14 ≤ b.length) (short : b.length ≤ 1536) (mine : Plain s p) (others : Plain s (1 - p)) (time : isTimeFrame b = true) :
    exec (.ethFrame p b v) s = .next (timeRelayed p b v s) := by
  have plain : Plain (setView v s) (1 - p) := by
    refine ⟨?_, ?_⟩ <;> rw [port_setView v s (by omega)]
    · exact others.link
    · exact others.macsec
  change execEthFrame p b v s = _
  rw [execEthFrame_received on mine.link long short, rxFrame_plain mine.macsec]
  dsimp only
  rw [time, if_pos rfl, sendPort_frame plain rfl]
  unfold timeRelayed relayOut
  simp only [Bool.and_eq_true, decide_eq_true_eq, and_assoc]
  split <;> rfl

theorem roles_timeRelayed (p : Nat) (b : List Byte) (v : TimeView) (s : State) :
    (timeRelayed p b v s).net.p0 = { s.net.p0 with role := roleIn v s 0 } ∧
    (timeRelayed p b v s).net.p1 = { s.net.p1 with role := roleIn v s 1 } := ⟨rfl, rfl⟩

/-! ## Learned addresses (R461, Table 14-1) -/

/-- The addresses with this source of a frame from port p. -/
def addrsWith (p m : Nat) (l : List (Nat × Nat)) : List (Nat × Nat) :=
  if isGroup m = true ∨ (l.any (fun e => e.1 == m) = false ∧ 1024 ≤ l.length) then l else (m, p) :: l.filter (fun e => e.1 != m)

/-- The module that has learned the source of a frame. -/
def learned (p m : Nat) (s : State) : State := { s with net := { s.net with addrs := addrsWith p m s.net.addrs } }

theorem learn_eq (p m : Nat) (s : State) : learn p m s = learned p m s := by
  unfold learn learned addrsWith
  simp only [Bool.or_eq_true, Bool.and_eq_true, Bool.not_eq_true', decide_eq_true_eq]
  split <;> rfl

/-! ## Frames to the module (R460) -/

/-- What a frame tells the module of a neighbour. -/
def neighHeard (b : List Byte) (s : State) : Option (List Byte × List Byte) :=
  if running s = true ∧ (macAt b 0 = Config.mac.toNat ∨ isGroup (macAt b 0) = true) then
    ipHeard (ownV4 s.cfg) ([linkLocal, ownV6 s.cfg].filter (fun a => a != noAddr6)) b else none

/-- The module's answer on the port that a frame came from. -/
def answers (p : Nat) (b : List Byte) (s : State) : List Output :=
  if running s = true ∧ (macAt b 0 = Config.mac.toNat ∨ isGroup (macAt b 0) = true) then
    (ipAnswer (ownV4 s.cfg) ([linkLocal, ownV6 s.cfg].filter (fun a => a != noAddr6)) b).toList.map (fun a => Output.forward p a) else []

/-- The neighbours with what a frame tells. -/
def neighWith (told : Option (List Byte × List Byte)) (l : List (List Byte × List Byte)) : List (List Byte × List Byte) :=
  match told with
  | some (a, m) => (a, m) :: l.filter (fun e => e.1 != a)
  | none => l

/-- The module with a neighbour learned and with these outputs. -/
def heardAndSent (told : Option (List Byte × List Byte)) (l : List Output) (s : State) : State :=
  { s with net := { s.net with neigh := neighWith told s.net.neigh }, outbox := l ++ s.outbox }

/-- With nothing waiting on the ports, a neighbour that is learned releases nothing. -/
theorem gateFlush_both {s : State} (idle : ∀ q, q < 2 → (port s q).waiting = []) : gateFlush 1 (gateFlush 0 s) = s := by
  rw [gateFlush_idle (idle 0 (by decide)), gateFlush_idle (idle 1 (by decide))]

section
variable {p : Nat} {b : List Byte} {s : State} (mine : Plain s p) (open6 : gateOpen s p 6 = true)
  (idle : ∀ q, q < 2 → (port s q).waiting = [])
include mine open6 idle

/-- A frame to the module is handed to firmware, answered, and its neighbour kept. -/
theorem toSelf_eq : toSelf p b s = heardAndSent (neighHeard b s) (answers p b s ++ [.forward 2 b]) s := by
  unfold toSelf
  dsimp only
  by_cases looks : running s = true ∧ (macAt b 0 = Config.mac.toNat ∨ isGroup (macAt b 0) = true)
  · have looking : ¬(!running (outp (.forward 2 b) s) || !(macAt b 0 == Config.mac.toNat || isGroup (macAt b 0))) = true := by
      obtain ⟨run, dst⟩ := looks
      have same : running (outp (.forward 2 b) s) = true := run
      rcases dst with own | group <;> simp [*]
    rw [if_neg looking, neighHeard, answers, if_pos looks, if_pos looks, outp_cfg]
    rcases ipHeard (ownV4 s.cfg) _ b with _ | told <;> rcases ipAnswer (ownV4 s.cfg) _ b with _ | r
    · rfl
    · exact sendPort_frame (s := outp (.forward 2 b) s) (mine.congr rfl) open6 r
    · exact gateFlush_both (s := heardAndSent told [.forward 2 b] s) idle
    · exact (congrArg (sendPort p 6 (.frame r)) (gateFlush_both (s := heardAndSent told [.forward 2 b] s) idle)).trans
        (sendPort_frame (s := heardAndSent told [.forward 2 b] s) (mine.congr rfl) open6 r)
  · have away : (!running (outp (.forward 2 b) s) || !(macAt b 0 == Config.mac.toNat || isGroup (macAt b 0))) = true := by
      by_contra h
      simp only [Bool.or_eq_true, Bool.not_eq_true', not_or, Bool.not_eq_false, beq_iff_eq] at h
      exact looks h
    rw [if_pos away, neighHeard, answers, if_neg looks, if_neg looks]
    rfl

end

/-! ## Forwarding (R461) -/

/-- What a frame that is not of time makes the module send: to itself, to the other port, or to both. -/
def switchOut (p : Nat) (b : List Byte) (s : State) : List Output :=
  if macAt b 0 = Config.mac.toNat then answers p b s ++ [.forward 2 b]
  else if isGroup (macAt b 0) = true then .forward (1 - p) b :: answers p b s ++ [.forward 2 b]
  else match (addrsWith p (macAt b 6) s.net.addrs).find? (fun e => e.1 == macAt b 0) with
    | some (_, q) => if q = p then [] else [.forward (1 - p) b]
    | none => [.forward (1 - p) b, .forward 2 b]

/-- The module after a frame that is not of time. -/
def switched (p : Nat) (b : List Byte) (s : State) : State :=
  heardAndSent (neighHeard b s) (switchOut p b s) (learned p (macAt b 6) s)

theorem only_switched (p : Nat) (b : List Byte) (s : State) : Only [.outbox, .addrs] s (switched p b s) := by
  intro q hq
  cases q
  case outbox | addrs => exact absurd hq (by decide)
  all_goals rfl

/-- A frame to another station is not the module's. -/
theorem unheard {b : List Byte} (own : macAt b 0 ≠ Config.mac.toNat) (single : isGroup (macAt b 0) = false) (s : State) :
    neighHeard b s = none ∧ ∀ p, answers p b s = [] := by
  have away : ¬(running s = true ∧ (macAt b 0 = Config.mac.toNat ∨ isGroup (macAt b 0) = true)) := by simp [own, single]
  exact ⟨if_neg away, fun p => if_neg away⟩

theorem switchFrame_eq {p : Nat} {b : List Byte} {s : State} (mine : Plain s p) (others : Plain s (1 - p))
    (open6 : gateOpen s p 6 = true) (gate : gateOpen s (1 - p) (frameClass b) = true) (idle : ∀ q, q < 2 → (port s q).waiting = []) :
    switchFrame p b s = switched p b s := by
  have self : toSelf p b (learned p (macAt b 6) s) =
      heardAndSent (neighHeard b s) (answers p b s ++ [.forward 2 b]) (learned p (macAt b 6) s) :=
    toSelf_eq (s := learned p (macAt b 6) s) (mine.congr rfl) open6 idle
  have forwards (told : Option (List Byte × List Byte)) (l : List Output) :
      sendPort (1 - p) (frameClass b) (.frame b) (heardAndSent told l (learned p (macAt b 6) s)) =
        heardAndSent told (.forward (1 - p) b :: l) (learned p (macAt b 6) s) :=
    sendPort_frame (s := heardAndSent told l (learned p (macAt b 6) s)) (others.congr rfl) gate b
  unfold switchFrame switched switchOut
  dsimp only
  rw [learn_eq, self]
  split
  · rfl
  · next own =>
    split
    · exact forwards _ _
    · next single =>
      obtain ⟨nothing, silent⟩ := unheard own (Bool.eq_false_iff.mpr single) s
      rw [nothing, silent]
      change (match (addrsWith p (macAt b 6) s.net.addrs).find? _ with | some (_, q) => _ | none => _) = _
      rcases (addrsWith p (macAt b 6) s.net.addrs).find? _ with _ | ⟨_, q⟩
      · exact forwards none [.forward 2 b]
      · dsimp only
        split
        · rfl
        · exact forwards none []

/-! ## ADDRESS_AGEING (R460) -/

/-- The module without an address. -/
def addressAged (m : Nat) (s : State) : State := { s with net := { s.net with addrs := s.net.addrs.filter (fun e => e.1 != m) } }

theorem only_addressAged (m : Nat) (s : State) : Only [.addrs] s (addressAged m s) := by
  intro q hq
  cases q
  case addrs => exact absurd (List.mem_singleton_self _) hq
  all_goals rfl

/-- Settles O46: an invalid frame is counted, a frame of time is relayed, and any other is learned from and forwarded. -/
theorem theSwitchForwards : Obligations.TheSwitchForwards := by
  unfold Obligations.TheSwitchForwards
  refine ⟨fun p b v s on hp link long short => ⟨fun secured other bad => ?_, fun plain link' plain' => ⟨fun time => ?_,
    fun other reserved => ?_, fun other free gate open6 idle src dst known own6 told said hSrc hDst hKnown hOwn hTold hSaid => ?_⟩⟩, fun m s => ?_⟩
  · refine ⟨_, exec_ethFrame_invalid on link long short bad, only_modPort p _ (List.Subset.refl _) (Only.refl _ s), ?_, ?_⟩
    · exact port_modPort_same p _ s
    · exact port_modPort_other hp _ s
  · obtain ⟨role0, role1⟩ := roles_timeRelayed p b v s
    refine ⟨_, exec_ethFrame_time hp on long short ⟨link, plain⟩ ⟨link', plain'⟩ time, only_timeRelayed p b v s,
      slavePort_reached hp link, rfl, role0, role1, rfl⟩
  · exact exec_ethFrame_reserved on link long short plain other reserved
  · subst hSrc hDst hKnown hOwn hTold hSaid
    refine ⟨_, (exec_ethFrame_switched on link long short plain other free).trans
      (congrArg _ (switchFrame_eq ⟨link, plain⟩ ⟨link', plain'⟩ open6 gate idle)), only_switched p b s, rfl, rfl, rfl⟩
  · refine ⟨_, rfl, only_addressAged m s, rfl, fun e => ?_⟩
    simp

end Sys2Proof.Machine
end

section
/-! SUPPORT. The gates of a port and the datagrams of a publisher (R460, R467 to R469, R471, R472, R491). -/

namespace Sys2Proof.Machine

/-! ## A gate list's next entry (R472) -/

/-- Sending takes at most a packet number from a port. -/
theorem port_txNow (p : Nat) (o : NetTx) (s : State) :
    (∀ q, port (txNow p o s) q = port s q) ∨ ∀ q, port (txNow p o s) q = port (takePn p s).2 q := by
  have taken {a : Option Sa} {u : State} (e : takePn p s = (a, u)) : (takePn p s).2 = u := congrArg Prod.snd e
  unfold txNow
  dsimp only
  split
  · cases o with
    | frame b =>
      dsimp only
      split
      · exact .inl fun _ => rfl
      · split
        · next e => exact .inr fun _ => by rw [taken e]; rfl
        · next e => exact .inr fun _ => by rw [taken e]
    | gram i b =>
      dsimp only
      split
      · next e => exact .inr fun _ => by rw [taken e]; rfl
      · next e => exact .inr fun _ => by rw [taken e]
  · cases o <;> exact .inl fun _ => rfl

theorem gate_putPn (an : Bool) (a : Sa) (x : Port) :
    (if an then { x with txAn := an, tx1 := some a } else { x with txAn := an, tx0 := some a }).gate = x.gate := by
  cases an <;> rfl

theorem gate_takePn (p : Nat) (s : State) : (port (takePn p s).2 p).gate = (port s p).gate := by
  unfold takePn
  dsimp only
  split
  · rfl
  · rw [port_macsecSrc, port_modPort_same]
    exact gate_putPn ..

theorem gate_sendPort (p tc : Nat) (o : NetTx) (s : State) : (port (sendPort p tc o s) p).gate = (port s p).gate := by
  unfold sendPort
  split
  · rfl
  · split
    · rcases port_txNow p o s with same | taken
      · rw [same]
      · rw [taken, gate_takePn]
    · rw [port_modPort_same]

theorem gate_gateFlush (p : Nat) (s : State) : (port (gateFlush p s) p).gate = (port s p).gate := by
  have all (l : List (Nat × NetTx)) : ∀ t, (port (l.foldl (fun s e => sendPort p e.1 e.2 s) t) p).gate = (port t p).gate := by
    induction l with
    | nil => exact fun _ => rfl
    | cons e l ih => exact fun t => (ih _).trans (gate_sendPort p e.1 e.2 t)
  unfold gateFlush
  rw [all, port_modPort_same]

/-! ## What leaves a port without MACsec as its gates change (R472) -/

theorem gramTo_congr {s t : State} (cfg : t.cfg = s.cfg) (neigh : t.net.neigh = s.net.neigh) (i : Nat) : gramTo t i = gramTo s i := by
  unfold gramTo
  rw [cfg, neigh]

theorem gramTo_of_only {ps : List Part} {s t : State} (h : Only ps s t) (hc : Part.cfg ∉ ps) (ha : Part.addrs ∉ ps) (i : Nat) :
    gramTo t i = gramTo s i := gramTo_congr (h .cfg hc) (congrArg Prod.snd (h .addrs ha)) i

theorem plainOut_of_only {ps : List Part} {s t : State} (h : Only ps s t) (hc : Part.cfg ∉ ps) (ha : Part.addrs ∉ ps) (p : Nat)
    (o : NetTx) : plainOut p o t = plainOut p o s := by
  cases o with
  | frame b => rfl
  | gram i b => simp only [plainOut, gramTo_of_only h hc ha]

/-- From s to t port p, which has link and no MACsec, has dealt with l: what may leave has left, and the rest waits, in its order. -/
structure Released (p : Nat) (l : List (Nat × NetTx)) (s t : State) : Prop where
  only : Only [.outbox, .queues, .faults, .ports] s t
  plain : Plain t p
  gate : (port t p).gate = (port s p).gate
  waiting : (port t p).waiting = (port s p).waiting ++ l.filter (fun e => !mayTx s p e.1 e.2)
  kept : s.outbox <:+ t.outbox
  sent : ∀ e ∈ l, mayTx s p e.1 e.2 = true → plainOut p e.2 s ∈ t.outbox

section
variable {p : Nat} {s t : State} (mine : Plain s p)
include mine

/-- What may leave does not change by what has left. -/
theorem mayTx_congr (only : Only [.outbox, .queues, .faults, .ports] s t) (plain : Plain t p) (gate : (port t p).gate = (port s p).gate)
    (tc : Nat) (o : NetTx) : mayTx t p tc o = mayTx s p tc o := by
  have gates := gateOpen_congr (only .cfg (by decide)) gate tc
  cases o with
  | frame b => rw [mayTx_frame plain, mayTx_frame mine, gates]
  | gram i b => rw [mayTx_gram plain, mayTx_gram mine, gates, gramTo_of_only only (by decide) (by decide)]

theorem released_one (e : Nat × NetTx) : Released p [e] s (sendPort p e.1 e.2 s) := by
  have only := only_sendPort p e.1 e.2 (List.Subset.refl _) (Only.refl _ s)
  have gate := gate_sendPort p e.1 e.2 s
  cases may : mayTx s p e.1 e.2 with
  | true =>
    rw [sendPort_leaves mine may] at only gate ⊢
    refine ⟨only, mine.congr rfl, gate, ?_, List.suffix_cons _ _, fun d mem _ => ?_⟩
    · rw [List.filter_cons_of_neg (by simp [may]), List.filter_nil, List.append_nil]
      rfl
    · rw [List.mem_singleton.mp mem]
      exact List.mem_cons_self
  | false =>
    rw [sendPort_waits mine may] at only gate ⊢
    refine ⟨only, ⟨?_, ?_⟩, gate, ?_, List.suffix_refl _, fun d mem leaves => ?_⟩
    · rw [port_modPort_same]; exact mine.link
    · rw [port_modPort_same]; exact mine.macsec
    · rw [port_modPort_same, List.filter_cons_of_pos (by simp [may]), List.filter_nil]
    · rw [List.mem_singleton.mp mem, may] at leaves
      cases leaves

end

theorem Released.cons {p : Nat} {e : Nat × NetTx} {l : List (Nat × NetTx)} {s t u : State} (mine : Plain s p) (a : Released p [e] s t)
    (b : Released p l t u) : Released p (e :: l) s u := by
  have may := mayTx_congr mine a.only a.plain a.gate
  refine ⟨a.only.trans b.only, b.plain, b.gate.trans a.gate, ?_, a.kept.trans b.kept, fun d mem leaves => ?_⟩
  · rw [b.waiting, a.waiting, List.append_assoc]
    simp only [may, ← List.filter_append]
    rfl
  · rcases List.mem_cons.mp mem with rfl | rest
    · exact b.kept.subset (a.sent d List.mem_cons_self leaves)
    · rw [← plainOut_of_only a.only (by decide) (by decide)]
      exact b.sent d rest ((may _ _).trans leaves)

theorem released_all {p : Nat} : ∀ (l : List (Nat × NetTx)) {s : State}, Plain s p →
    Released p l s (l.foldl (fun s e => sendPort p e.1 e.2 s) s)
  | [], s, mine => ⟨Only.refl _ s, mine, rfl, (List.append_nil _).symm, List.suffix_refl _, fun _ mem => absurd mem List.not_mem_nil⟩
  | e :: l, _, mine =>
    have one := released_one mine e
    one.cons mine (released_all l one.plain)

/-- The port's list stands at an entry, and what waited has been tried again. -/
def gateSet (p g : Nat) (s : State) : State := gateFlush p (modPort p (fun x => { x with gate := g }) s)

theorem only_gateSet (p g : Nat) (s : State) : Only [.outbox, .queues, .faults, .ports] s (gateSet p g s) :=
  only_gateFlush p (List.Subset.refl _) (only_modPort p _ (by decide) (Only.refl _ s))

theorem gate_gateSet (p g : Nat) (s : State) : (port (gateSet p g s) p).gate = g := by
  rw [gateSet, gate_gateFlush, port_modPort_same]

theorem port_gateSet_other {p : Nat} (hp : p < 2) (g : Nat) (s : State) : port (gateSet p g s) (1 - p) = port s (1 - p) :=
  (sendsOn_gateFlush hp _).other.trans (port_modPort_other hp _ s)

/-- The port with its list at an entry and nothing waiting. -/
def gateCleared (p g : Nat) (s : State) : State :=
  modPort p (fun x => { x with waiting := [] }) (modPort p (fun x => { x with gate := g }) s)

theorem plain_gateCleared {p : Nat} {s : State} (mine : Plain s p) (g : Nat) : Plain (gateCleared p g s) p := by
  unfold gateCleared
  refine ⟨?_, ?_⟩ <;> rw [port_modPort_same, port_modPort_same]
  · exact mine.link
  · exact mine.macsec

theorem released_gateSet {p : Nat} {s : State} (mine : Plain s p) (g : Nat) :
    Released p (port s p).waiting (gateCleared p g s) (gateSet p g s) := by
  unfold gateSet gateFlush
  dsimp only
  rw [port_modPort_same]
  exact released_all _ (plain_gateCleared mine g)

/-- What waited at a port leaves where its gate in the new entry is open, and otherwise waits on. -/
theorem gateSet_flushes {p : Nat} {s : State} (mine : Plain s p) (g : Nat) : Plain (gateSet p g s) p ∧
    (port (gateSet p g s) p).waiting = (port s p).waiting.filter (fun e => !mayTx (gateSet p g s) p e.1 e.2) ∧
    ∀ e ∈ (port s p).waiting, mayTx (gateSet p g s) p e.1 e.2 = true → plainOut p e.2 s ∈ (gateSet p g s).outbox := by
  have released := released_gateSet mine g
  have cleared : Only [.ports] s (gateCleared p g s) :=
    only_modPort p _ (List.Subset.refl _) (only_modPort p _ (List.Subset.refl _) (Only.refl _ s))
  have may := mayTx_congr (plain_gateCleared mine g) released.only released.plain released.gate
  refine ⟨released.plain, ?_, fun e mem leaves => ?_⟩
  · have empty : (port (gateCleared p g s) p).waiting = [] := by rw [gateCleared, port_modPort_same]
    simp only [may]
    rw [released.waiting, empty, List.nil_append]
  · rw [← plainOut_of_only cleared (by decide) (by decide)]
    exact released.sent e mem ((may _ _).symm.trans leaves)

/-- The list of port p has a next entry. -/
def gateMore (p : Nat) (s : State) : Bool := decide ((port s p).gate + 1 < gateCount s.cfg p)

/-- The entry that follows the one in force. -/
def gateNext (p : Nat) (s : State) : Nat := if (port s p).gate + 1 < gateCount s.cfg p then (port s p).gate + 1 else 0

theorem modPort_congr {p : Nat} {f g : Port → Port} {s : State} (same : f (port s p) = g (port s p)) : modPort p f s = modPort p g s := by
  unfold port at same
  unfold modPort
  split at same <;> simp_all

theorem exec_gateControlListEntry {p : Nat} {s : State} : exec (.gateControlListEntry p) s =
    if (running s && gateMore p s) || (s.phase == .halted && switchOn s) then .next (gateSet p (gateNext p s) s) else .next s := by
  have next : modPort p (fun x => { x with gate := if gateMore p s then x.gate + 1 else 0 }) s =
      modPort p (fun x => { x with gate := gateNext p s }) s :=
    modPort_congr (by simp only [gateMore, gateNext, decide_eq_true_eq])
  unfold gateSet
  rw [← next]
  rfl

theorem gateControlListEntry_advances {p : Nat} {s : State} (run : running s = true) (more : (port s p).gate + 1 < gateCount s.cfg p) :
    exec (.gateControlListEntry p) s = .next (gateSet p ((port s p).gate + 1) s) := by
  rw [exec_gateControlListEntry, if_pos (by simp [run, gateMore, more]), gateNext, if_pos more]

theorem gateControlListEntry_stays {p : Nat} {s : State} (run : running s = true) (last : gateCount s.cfg p ≤ (port s p).gate + 1) :
    exec (.gateControlListEntry p) s = .next s := by
  have alive : s.phase ≠ .halted := by
    intro halted
    simp [running, halted] at run
  rw [exec_gateControlListEntry, if_neg (by simp [gateMore, Nat.not_lt.mpr last, alive])]

theorem gateControlListEntry_halted {p : Nat} {s : State} (halted : s.phase = .halted) (on : switchOn s = true) :
    exec (.gateControlListEntry p) s = .next (gateSet p (gateNext p s) s) := by
  rw [exec_gateControlListEntry, if_pos (by simp [halted, on])]

/-! ## Datagrams (R467 to R471) -/

theorem pub_modPub_same (i : Nat) (g : Pub → Pub) (s : State) : pub (modPub i g s) i = g (pub s i) := tget_tmod_same _ _ _ _

theorem pub_modPub_other {i j : Nat} (h : j ≠ i) (g : Pub → Pub) (s : State) : pub (modPub i g s) j = pub s j := tget_tmod_other _ _ h _

/-- The destination port of a publisher that names port p. -/
theorem pubPorts_one {i p : Nat} {s : State} (hi : i < 16) (hp : p < 2) (names : subPort s.cfg i = p) : pubPorts s i = [p] := by
  unfold pubPorts
  rw [if_neg (by omega), names]
  interval_cases p <;> rfl

/-- Publisher i names port p, which has link, no MACsec and an open gate for the publisher's class. -/
structure OneWay (s : State) (i p : Nat) : Prop where
  sub : i < 16
  ext : p < 2
  names : subPort s.cfg i = p
  plain : Plain s p
  gate : gateOpen s p (subTc s.cfg i) = true

theorem OneWay.of_only {ps : List Part} {s t : State} {i p : Nat} (way : OneWay s i p) (h : Only ps s t) (hc : Part.cfg ∉ ps)
    (hp : Part.ports ∉ ps) : OneWay t i p := by
  have cfg : t.cfg = s.cfg := h .cfg hc
  have same := port_of_only h hp p
  refine ⟨way.sub, way.ext, cfg ▸ way.names, way.plain.congr same, ?_⟩
  rw [gateOpen_congr cfg (congrArg Port.gate same), cfg]
  exact way.gate

/-- The datagram with these bytes. -/
def gramOut (i p : Nat) (s : State) (b : List Byte) : Output := .datagram i p (gramTo s i) (udpSum (gramTo s i) b) b none

section
variable {i p : Nat} {s : State} (way : OneWay s i p)
include way

theorem sendGram_eq (b : List Byte) : sendGram i b s = sendPort p (subTc s.cfg i) (.gram i b) (askFor i p s) := by
  unfold sendGram
  rw [pubPorts_one way.sub way.ext way.names]
  simp only [List.foldl_cons, List.foldl_nil, if_neg (Nat.ne_of_lt way.sub)]

theorem sendGram_leaves (known : (gramTo s i).mac ≠ []) (b : List Byte) : sendGram i b s = outp (gramOut i p s b) s := by
  have asked : askFor i p s = s := if_neg known
  rw [sendGram_eq way, asked]
  exact sendPort_leaves way.plain (by rw [mayTx_gram way.plain, way.gate]; simpa using known)

/-- ARP or ND asks for the address, and the datagram waits. -/
theorem sendGram_asks (unknown : (gramTo s i).mac = []) (open6 : gateOpen s p 6 = true) (b : List Byte) : sendGram i b s =
    modPort p (fun x => { x with waiting := x.waiting ++ [(subTc s.cfg i, .gram i b)] }) (outp (.forward p (ipAsk (gramTo s i))) s) := by
  have asked : askFor i p s = outp (.forward p (ipAsk (gramTo s i))) s := (if_pos unknown).trans (sendPort_frame way.plain open6 _)
  have plain : Plain (outp (.forward p (ipAsk (gramTo s i))) s) p := way.plain.congr rfl
  have same : gramTo (outp (.forward p (ipAsk (gramTo s i))) s) i = gramTo s i := gramTo_congr rfl rfl i
  rw [sendGram_eq way, asked, sendPort_waits plain]
  rw [mayTx_gram plain, same, unknown]
  simp

end

/-- A publisher without the records that its queue filled, with the next sequence number where there were any. -/
def ownTaken (x : Pub) : Pub := { x with recs := [], dseq := if x.recs = [] then x.dseq else (x.dseq + 1) % 2 ^ 32 }

/-- A publisher without the records that the management processor filled. -/
def fwdTaken (x : Pub) : Pub := { x with fwd := [], dseq := if x.fwd = [] then x.dseq else (x.dseq + 1) % 2 ^ 32 }

theorem ownTaken_none {x : Pub} (none : x.recs = []) : ownTaken x = x := by
  cases x
  simp_all [ownTaken]

theorem fwdTaken_none {x : Pub} (none : x.fwd = []) : fwdTaken x = x := by
  cases x
  simp_all [fwdTaken]

/-- From s to t publisher i has sent these datagrams, and is x. -/
structure GramsSent (i : Nat) (l : List Output) (x : Pub) (s t : State) : Prop where
  only : Only [.outbox, .pubs] s t
  outbox : t.outbox = l ++ s.outbox
  pub : pub t i = x
  others : ∀ j, j ≠ i → Machine.pub t j = Machine.pub s j

theorem GramsSent.none (i : Nat) (s : State) : GramsSent i [] (Machine.pub s i) s s := ⟨Only.refl _ s, rfl, rfl, fun _ _ => rfl⟩

theorem gramsSent_one {i p : Nat} {s : State} (way : OneWay s i p) (known : (gramTo s i).mac ≠ []) (b : List Byte) (g : Pub → Pub) :
    GramsSent i [gramOut i p s b] (g (pub s i)) s (sendGram i b (modPub i g s)) := by
  have taken := only_modPub i g (List.Subset.refl _) (Only.refl _ s)
  have same : gramTo (modPub i g s) i = gramTo s i := gramTo_of_only taken (by decide) (by decide) i
  have out : gramOut i p (modPub i g s) b = gramOut i p s b := by simp only [gramOut, same]
  rw [sendGram_leaves (way.of_only taken (by decide) (by decide)) (same.symm ▸ known), out]
  exact ⟨only_outp _ (by decide) (taken.mono (by decide)), rfl, pub_modPub_same i g s, fun j other => pub_modPub_other other g s⟩

section
variable {i p : Nat} {s : State} (way : OneWay s i p) (known : (gramTo s i).mac ≠ [])
include way known

theorem closeOwn_sends : GramsSent i (if (pub s i).recs = [] then [] else [gramOut i p s (gramBytes i (pub s i).dseq false (pub s i).recs)])
    (ownTaken (pub s i)) s (closeOwn i s) := by
  unfold closeOwn
  dsimp only
  split
  · next none =>
    rw [ownTaken_none none]
    exact .none i s
  · next some =>
    have sent := gramsSent_one way known (gramBytes i (pub s i).dseq false (pub s i).recs)
      (fun x => { x with recs := [], dseq := (x.dseq + 1) % 2 ^ 32 })
    rwa [ownTaken, if_neg some]

theorem closeFwd_sends : GramsSent i (if (pub s i).fwd = [] then [] else [gramOut i p s (gramBytes i (pub s i).dseq true (pub s i).fwd)])
    (fwdTaken (pub s i)) s (closeFwd i s) := by
  unfold closeFwd
  dsimp only
  split
  · next none =>
    rw [fwdTaken_none none]
    exact .none i s
  · next some =>
    have sent := gramsSent_one way known (gramBytes i (pub s i).dseq true (pub s i).fwd)
      (fun x => { x with fwd := [], dseq := (x.dseq + 1) % 2 ^ 32 })
    rwa [fwdTaken, if_neg some]

/-- Both datagrams of a publisher leave, that of its queue first. -/
theorem closeGram_sends {x : Pub} (hx : x = pub s i) : GramsSent i
    ((if x.fwd = [] then [] else [gramOut i p s (gramBytes i (ownTaken x).dseq true x.fwd)]) ++
      if x.recs = [] then [] else [gramOut i p s (gramBytes i x.dseq false x.recs)])
    (fwdTaken (ownTaken x)) s (closeGram i s) := by
  subst hx
  obtain ⟨only, outbox, taken, others⟩ := closeOwn_sends way known
  have same : gramTo (closeOwn i s) i = gramTo s i := gramTo_of_only only (by decide) (by decide) i
  obtain ⟨only', outbox', taken', others'⟩ := closeFwd_sends (way.of_only only (by decide) (by decide)) (same.symm ▸ known)
  refine ⟨only.trans only', ?_, ?_, fun j other => (others' j other).trans (others j other)⟩
  · unfold closeGram
    rw [outbox', outbox, taken, List.append_assoc]
    simp only [gramOut, same]
    rfl
  · unfold closeGram
    rw [taken', taken]

end

theorem exec_datagramClose {i : Nat} {s : State} (run : running s = true) : exec (.datagramClose i) s = .next (closeGram i s) := if_pos run

/-- A publisher without records sends nothing. -/
theorem closeGram_empty {i : Nat} {s : State} (own : (pub s i).recs = []) (fwd : (pub s i).fwd = []) : closeGram i s = s := by
  have first : closeOwn i s = s := if_pos own
  rw [closeGram, first]
  exact if_pos fwd

/-- The module once ARP or ND has been asked for the destination of a datagram that waits. -/
def gramAsked (i p : Nat) (b : List Byte) (s : State) : State :=
  modPort p (fun x => { x with waiting := x.waiting ++ [(subTc s.cfg i, .gram i b)] })
    (outp (.forward p (ipAsk (gramTo s i))) (modPub i (fun x => { x with recs := [], dseq := (x.dseq + 1) % 2 ^ 32 }) s))

theorem only_gramAsked (i p : Nat) (b : List Byte) (s : State) : Only [.outbox, .ports, .pubs] s (gramAsked i p b s) :=
  only_modPort p _ (by decide) (only_outp _ (by decide) (only_modPub i _ (by decide) (Only.refl _ s)))

theorem pub_of_only {ps : List Part} {s t : State} (h : Only ps s t) (hp : Part.pubs ∉ ps) (i : Nat) : pub t i = pub s i := by
  have same : t.net.pubs = s.net.pubs := h .pubs hp
  unfold pub
  rw [same]

theorem closeGram_asks {i p : Nat} {s : State} (way : OneWay s i p) (unknown : (gramTo s i).mac = []) (open6 : gateOpen s p 6 = true)
    (some : (pub s i).recs ≠ []) (fwd : (pub s i).fwd = []) :
    closeGram i s = gramAsked i p (gramBytes i (pub s i).dseq false (pub s i).recs) s := by
  have taken := only_modPub i (fun x => { x with recs := [], dseq := (x.dseq + 1) % 2 ^ 32 }) (List.Subset.refl _) (Only.refl _ s)
  have same := gramTo_of_only taken (by decide) (by decide) i
  have own : closeOwn i s = gramAsked i p (gramBytes i (pub s i).dseq false (pub s i).recs) s := by
    unfold closeOwn
    dsimp only
    rw [if_neg some, sendGram_asks (way.of_only taken (by decide) (by decide)) (same.symm ▸ unknown) open6, same]
    rfl
  have sent : Only [.outbox, .ports] _ (gramAsked i p (gramBytes i (pub s i).dseq false (pub s i).recs) s) :=
    only_modPort p _ (by decide) (only_outp _ (by decide) (Only.refl _ _))
  rw [closeGram, own]
  refine if_pos ?_
  rw [pub_of_only sent (by decide), pub_modPub_same]
  exact fwd

/-- Settles O47: what may leave with the new entry has left; a datagram leaves, or waits for the address of its destination. -/
theorem gatesAndDatagrams : Obligations.GatesAndDatagrams := by
  unfold Obligations.GatesAndDatagrams
  refine ⟨fun p s hp => ⟨fun run more => ?_, gateControlListEntry_stays, fun halted on => ?_⟩,
    fun i p s x n gram run hi hp names hx hn hGram => ⟨fun link plain gate =>
      ⟨fun known => ?_, fun unknown open6 some fwd => ?_⟩, fun own fwd => ?_⟩⟩
  · refine ⟨_, gateControlListEntry_advances run more, only_gateSet p _ s, gate_gateSet p _ s,
      port_gateSet_other hp _ s, fun plain link => ?_⟩
    obtain ⟨mine, waiting, sent⟩ := gateSet_flushes (p := p) (s := s) ⟨link, plain⟩ ((port s p).gate + 1)
    refine ⟨waiting, fun tc b mem gate => ?_, fun tc i b mem gate known => ?_⟩
    · exact sent _ mem ((mayTx_frame mine b).trans gate)
    · refine sent _ mem ?_
      rw [mayTx_gram mine, gate, gramTo_of_only (only_gateSet p _ s) (by decide) (by decide)]
      simpa using known
  · exact ⟨_, gateControlListEntry_halted halted on, only_gateSet p _ s, port_gateSet_other hp _ s, gate_gateSet p _ s⟩
  · obtain ⟨only, outbox, taken, others⟩ := closeGram_sends ⟨hi, hp, names, ⟨link, plain⟩, gate⟩ known hx
    subst hn hGram
    exact ⟨_, exec_datagramClose run, only, outbox, taken, others⟩
  · subst hx
    have asks := closeGram_asks ⟨hi, hp, names, ⟨link, plain⟩, gate⟩ unknown open6 some fwd
    refine ⟨_, (exec_datagramClose run).trans (congrArg _ asks), only_gramAsked i p _ s, ?_, ?_, ?_⟩
    · exact outbox_of_only (only_modPort p _ (List.Subset.refl _) (Only.refl _ _)) (by decide)
    · exact port_modPort_same p _ _
    · exact port_modPort_other hp _ _
  · subst hx
    exact (exec_datagramClose run).trans (congrArg _ (closeGram_empty own fwd))

end Sys2Proof.Machine
end
